-- ==== Sys2Proof/Word.lean ====
section
/-! DEFINITION. The word types of the Druber DB100: the widths the manual gives its registers,
addresses and instruction words (R5, R37, R39, R58). -/

namespace Sys2Proof

/-- A byte of memory (R5). -/
abbrev Byte := BitVec 8

/-- A 32-bit word: a cell, a scratchpad word, one lane's vector register, a scalar instruction (R37, R58). -/
abbrev Word := BitVec 32

/-- A 64-bit scalar register, mask register, address or decision-queue entry (R58). -/
abbrev DWord := BitVec 64

/-- The number of a scalar register x0 to x63 (R38). -/
abbrev XReg := BitVec 6

/-- The number of a mask register k0 to k7 (R38). -/
abbrev KReg := BitVec 3

/-- The number of a vector register v0 to v255 (R43). -/
abbrev VReg := BitVec 8

/-- The number of an operand queue q0 to q7 (R58). -/
abbrev QReg := BitVec 3

end Sys2Proof
end

