-- ==== Sys2Proof/Syntax.lean ====
section
/-! DEFINITION. The instructions and steps of the Druber DB100, one constructor per row of the
opcode table: the scalar instructions (R50), the lane instructions (R53), and the steps the device
takes of its own or that reach it from outside, which have no encoding. -/

namespace Sys2Proof

/-- Ordering scopes (R51, R240). -/
inductive Scope where
  | grp | team | clus | dev | sys | pool
  deriving DecidableEq, Repr, Inhabited

/-- Atomic operations (R51, R267). -/
inductive AtomOp where
  | add | min | max | minn | maxn | and | or | xor | xchg | cas
  deriving DecidableEq, Repr, Inhabited

/-- Reconcile operations (R51, R301). -/
inductive RcnOp where
  | add | min | max | or | and | first | last
  deriving DecidableEq, Repr, Inhabited

/-- Near-memory bank operations (R275); fill belongs to `bop` alone. -/
inductive BankOp where
  | fill | addI32 | addF32 | addRw | min | max | minn | maxn | and | or | xor
  deriving DecidableEq, Repr, Inhabited

/-- Conditions of `await` (R276). -/
inductive AwaitCond where
  | eq | ne | lt | ge | ltn | gen
  deriving DecidableEq, Repr, Inhabited

/-- In-flight paths (R51, R216). -/
inductive Path where
  | sp | gl | rsp | pat | cp | pl
  deriving DecidableEq, Repr, Inhabited

/-- Special registers that `mfs` or `mts` can name (R59). -/
inductive SReg where
  | gid | tid | gw | role | tsc | cir | rbst | ofc | chk | tvb | ctx
  deriving DecidableEq, Repr, Inhabited

/-- Type codes (R45). -/
inductive Ty where
  | none | i32 | n32 | b32 | i16 | n16 | i8 | n8 | i4 | i2 | f32 | f16 | bf16 | e4m3 | e5m2 | rw | fx
  deriving DecidableEq, Repr, Inhabited

/-- A lane source operand (R40). -/
inductive Src where
  | v (i : VReg)
  | q (i : QReg)
  | x (i : XReg)
  | lid
  | imm
  deriving DecidableEq, Repr, Inhabited

/-- Lane selection by the km field (R44): all live lanes, lanes set in kj, lanes clear in kj. -/
inductive Km where
  | all
  | on (k : KReg)
  | off (k : KReg)
  deriving DecidableEq, Repr, Inhabited

/-- The fields every lane instruction has in common (R39): destination, three sources, mask,
lookahead and immediate. A field that an instruction does not use holds its zero. -/
structure LaneOp where
  d   : VReg
  a   : Src
  b   : Src
  c   : Src
  km  : Km
  la  : BitVec 4
  imm : BitVec 20
  deriving DecidableEq, Repr, Inhabited

/-- Rounding codes (R46). -/
inductive Rm where
  | ne | rz | ru | rd | ra
  deriving DecidableEq, Repr, Inhabited

/-- Integer comparison conditions (R131). -/
inductive Cc where
  | eq | ne | lt | le | gt | ge
  deriving DecidableEq, Repr, Inhabited

/-- Float comparison conditions (R135). -/
inductive FCc where
  | eq | ne | lt | le | gt | ge | un | or
  deriving DecidableEq, Repr, Inhabited

/-- Shuffle modes (R141). -/
inductive ShMode where
  | idx | xor | up | dn
  deriving DecidableEq, Repr, Inhabited

/-- Reduction and scan operations (R145). -/
inductive RedOp where
  | add | min | max | and | or | xor
  deriving DecidableEq, Repr, Inhabited

/-- Lane address form (R219): scale code 0 to 4 and index type. -/
structure AddrForm where
  sc : BitVec 3
  un : Bool
  deriving DecidableEq, Repr, Inhabited

/-- Management registers written over the management bus or by the command processor, that have no
write behaviour of their own beyond the access codes (R7): PCHKLOG, POCTLOG, CPCFG, TGCFG, SEPCFG,
WDCFG, PGCFG and the host-channel registers (R122, R162, R321, R338, R377, R472, R477, R450). -/
inductive MgmtReg where
  | pchklog (core pipe : Nat)
  | poctlog (core pipe : Nat)
  | cpcfg (core : Nat)
  | tgcfg (core : Nat)
  | sepcfg (core : Nat)
  | wdcfg
  | pgcfg (die : Nat)
  | sqbase (ch : Nat)
  | sqlog (ch : Nat)
  | cqbase (ch : Nat)
  | cqlog (ch : Nat)
  deriving DecidableEq, Repr, Inhabited

/-- The header fields of a submission packet (R451): the channel it came on, TAG and CTXID. -/
structure PktHdr where
  ch    : Nat
  tag   : BitVec 32
  ctxid : BitVec 16
  deriving DecidableEq, Repr, Inhabited

/-- The instructions and steps, in the order of the opcode table. -/
inductive Instr where
  -- R83
  | add (d a b : XReg) | sub (d a b : XReg) | and (d a b : XReg) | or (d a b : XReg) | xor (d a b : XReg)
  | andn (d a b : XReg) | shl (d a b : XReg) | shr (d a b : XReg) | sar (d a b : XReg) | rol (d a b : XReg)
  | min (d a b : XReg) | max (d a b : XReg) | minn (d a b : XReg) | maxn (d a b : XReg)
  -- R84
  | mul (d a b : XReg) | mulh (d a b : XReg) | mulhn (d a b : XReg) | div (d a b : XReg) | divn (d a b : XReg)
  | rem (d a b : XReg) | remn (d a b : XReg)
  -- R85
  | clz (d a : XReg) | ctz (d a : XReg) | popc (d a : XReg)
  | sextI8 (d a : XReg) | sextI16 (d a : XReg) | sextI32 (d a : XReg)
  | zextN8 (d a : XReg) | zextN16 (d a : XReg) | zextN32 (d a : XReg)
  -- R86
  | addi (d a : XReg) (imm : BitVec 13) | andi (d a : XReg) (imm : BitVec 13)
  | ori (d a : XReg) (imm : BitVec 13) | xori (d a : XReg) (imm : BitVec 13)
  | shli (d a : XReg) (n : BitVec 6) | shri (d a : XReg) (n : BitVec 6) | sari (d a : XReg) (n : BitVec 6)
  | lih (d a : XReg) (imm : BitVec 13)
  -- R87, R88, R89, R90
  | seq (d a b : XReg) | sne (d a b : XReg) | slt (d a b : XReg) | sltn (d a b : XReg)
  | sle (d a b : XReg) | slen (d a b : XReg)
  | sel (d c a b : XReg)
  | adr (d a : XReg) (imm : BitVec 13)
  | adrpc (d : XReg) (imm : BitVec 13)
  -- R91 to R95
  | b (off : BitVec 25) | call (off : BitVec 25)
  | beq (a b : XReg) (off : BitVec 13) | bne (a b : XReg) (off : BitVec 13)
  | blt (a b : XReg) (off : BitVec 13) | bge (a b : XReg) (off : BitVec 13)
  | bltn (a b : XReg) (off : BitVec 13) | bgen (a b : XReg) (off : BitVec 13)
  | bz (a : XReg) (off : BitVec 13) | bnz (a : XReg) (off : BitVec 13)
  | loop (a : XReg) (off : BitVec 13)
  | bkany (k : KReg) (off : BitVec 13) | bkall (k : KReg) (off : BitVec 13) | bknone (k : KReg) (off : BitVec 13)
  | calli (a : XReg) | ret | jmpi (a : XReg)
  -- R102
  | ldx (d a : XReg) (la : BitVec 4) (imm : BitVec 9) | ldxI32 (d a : XReg) (la : BitVec 4) (imm : BitVec 9)
  | ldxs (d a : XReg) (la : BitVec 4) (imm : BitVec 9) | ldxsI32 (d a : XReg) (la : BitVec 4) (imm : BitVec 9)
  | stx (d a : XReg) (imm : BitVec 9) | stxB32 (d a : XReg) (imm : BitVec 9)
  | stxs (d a : XReg) (imm : BitVec 9) | stxsB32 (d a : XReg) (imm : BitVec 9)
  -- R271, R273, R298, R300
  | acq (sc : Scope) (d a : XReg) (la : BitVec 4) | rel (sc : Scope) (d a : XReg)
  | amo (op : AtomOp) (sc : Scope) (d a b : XReg)
  | ldc (d a : XReg) (la : BitVec 4) (imm : BitVec 9)
  | ldsib (d a : XReg) (la : BitVec 4) (k : BitVec 2)
  -- R106
  | mfs (d : XReg) (r : SReg) | mts (a : XReg) (r : SReg)
  -- R270, R301 to R304, R238
  | fence (sc : Scope)
  | rcn (op : RcnOp) (d a : XReg) | rcnw (d a b : XReg)
  | vvrd (d a : XReg) | vvfold (a : XReg)
  | clean (a b : XReg) | inval (a b : XReg)
  -- R96 to R101
  | lrun (count : BitVec 6) (off : BitVec 19)
  | lsync | dpop (d : XReg)
  | kpush (k : KReg) | kelse | kpop
  | kmovKK (d a : KReg) | kmovKX (d : KReg) (a : XReg) | kmovXK (d : XReg) (a : KReg)
  | kand (d a b : KReg) | kor (d a b : KReg) | kxor (d a b : KReg)
  | knot (d a : KReg) | kpopc (d : XReg) (a : KReg)
  -- R234 to R236, R218
  | spset (q : QReg) (a b : XReg) | spgo (q : QReg) | spstop (q : QReg)
  | wait (p : Path) (a : XReg) | cntrd (p : Path) (d : XReg)
  -- R324 to R329
  | cpgo (c : BitVec 3) (b : XReg) | cpseal (d : XReg) (c : BitVec 3)
  | cpwait (d : XReg) (c : BitVec 3) (b : XReg) | cpstat (d : XReg) (c : BitVec 3)
  | cpabort (d : XReg) (c : BitVec 3) | cpflt (d : XReg) (c : BitVec 3)
  -- R275, R276
  | bop (op : BankOp) (d a b : XReg) | bred (op : BankOp) (d a b : XReg)
  | await (cc : AwaitCond) (acq : Bool) (d a b : XReg)
  -- R359 to R367
  | tspawn (a b : XReg)
  | watch (d a : XReg) | unwatch (d a : XReg)
  | claim (d a : XReg) | give (d a : XReg)
  | regroup (d a : XReg) | exit
  | barinit (n : BitVec 6) (b : XReg) | bararr (d : XReg) (n : BitVec 6)
  | barwait (n : BitVec 6) (b : XReg) | barsync (n : BitVec 6)
  | cbar (c : BitVec 3)
  | qinit (q : BitVec 5) (b : XReg) | qpush (q : BitVec 5) (b : XReg)
  | qpop (d : XReg) (q : BitVec 5) | qtry (d : XReg) (q : BitVec 5)
  | nap (a : XReg) | yield
  -- R397 to R402
  | ensure (a b : XReg) | elseby | elseerr | accept (a : XReg) | rbfail
  | cvjoin (d a : XReg) | cvleave | chkerr (d : XReg)
  -- R427 to R438, R449
  | trap (n : BitVec 7) | brk (n : BitVec 13) | hcall (n : BitVec 13)
  | rti | nop | halt (a : XReg) | capq (d a : XReg) | chkmode (a : XReg)
  | clkmode (d a : XReg) | retire (d a : XReg)
  | ctxsv (d a b : XReg) | ctxld (d a b : XReg) | tlbflush (a b : XReg) | prgn (d a : XReg)
  -- R129
  | vadd (t : Ty) (sat : Bool) (o : LaneOp) | vsub (t : Ty) (sat : Bool) (o : LaneOp)
  | vmul (t : Ty) (o : LaneOp) | vmulh (t : Ty) (o : LaneOp) | vmad (t : Ty) (sat : Bool) (o : LaneOp)
  | vand (o : LaneOp) | vor (o : LaneOp) | vxor (o : LaneOp) | vandn (o : LaneOp)
  | vshl (t : Ty) (o : LaneOp) | vshr (t : Ty) (o : LaneOp) | vsar (t : Ty) (o : LaneOp)
  | vmin (t : Ty) (o : LaneOp) | vmax (t : Ty) (o : LaneOp) | vabs (t : Ty) (sat : Bool) (o : LaneOp)
  | vaddmin (t : Ty) (sat : Bool) (o : LaneOp) | vaddmax (t : Ty) (sat : Bool) (o : LaneOp)
  -- R130 to R132
  | vclz (o : LaneOp) | vpopc (o : LaneOp)
  | vbfx (t : Ty) (o : LaneOp) | vbfi (o : LaneOp) | vsel (k : KReg) (o : LaneOp) | vsad (t : Ty) (o : LaneOp)
  | vcmp (cc : Cc) (t : Ty) (o : LaneOp)
  | vcvt (td ts : Ty) (sat : Bool) (ed es : BitVec 2) (o : LaneOp)
  -- R133 to R138
  | fadd (t : Ty) (rm : Rm) (o : LaneOp) | fsub (t : Ty) (rm : Rm) (o : LaneOp)
  | fmul (t : Ty) (rm : Rm) (o : LaneOp) | ffma (t : Ty) (rm : Rm) (o : LaneOp)
  | fmin (t : Ty) (o : LaneOp) | fmax (t : Ty) (o : LaneOp) | fcmp (cc : FCc) (o : LaneOp)
  | frcp (t : Ty) (o : LaneOp) | frsq (t : Ty) (o : LaneOp) | fsqrt (t : Ty) (o : LaneOp)
  | fexp2 (t : Ty) (o : LaneOp) | flog2 (t : Ty) (o : LaneOp)
  | fcvt (td ts : Ty) (rm : Rm) (sf : Bool) (ed es : BitVec 2) (o : LaneOp)
  | fint (t : Ty) (rm : Rm) (o : LaneOp)
  -- R141 to R145
  | vshfl (m : ShMode) (o : LaneOp) | vshift (dn : Bool) (o : LaneOp) | vrot (dn : Bool) (o : LaneOp)
  | vbcast (o : LaneOp)
  | voteK (o : LaneOp) | voteBallot (o : LaneOp) | voteAny (o : LaneOp) | voteAll (o : LaneOp) | voteCount (o : LaneOp)
  | vred (op : RedOp) (t : Ty) (o : LaneOp) | vredV (op : RedOp) (t : Ty) (o : LaneOp)
  | vscan (op : RedOp) (t : Ty) (ex : Bool) (o : LaneOp)
  -- R166 to R169
  | mmaF (tb ta : Ty) (fix : Bool) (c : BitVec 3) (o : LaneOp)
  | mmaH (ta : Ty) (fix : Bool) (c : BitVec 3) (o : LaneOp)
  | mmaI (tb ta : Ty) (fix : Bool) (c : BitVec 3) (o : LaneOp)
  | mzero (o : LaneOp)
  | mfrag (roleB : Bool) (t : Ty) (k64 : Bool) (o : LaneOp) | mtr (roleB : Bool) (t : Ty) (k64 : Bool) (o : LaneOp)
  | maccLd (o : LaneOp) | maccSt (o : LaneOp) | maccAdd (t : Ty) (o : LaneOp)
  -- R189 to R199
  | crt (o : LaneOp) | crtAcc (clr : Bool) (o : LaneOp)
  | rwadd (o : LaneOp) | rwfrom (o : LaneOp)
  | sacc (pt : BitVec 7) (rb cb : BitVec 2) (o : LaneOp)
  | fxzero (o : LaneOp) | fxadd (t : Ty) (pt : BitVec 7) (o : LaneOp)
  | fxcvt (t : Ty) (pt : BitVec 7) (clr : Bool) (rm : Rm) (o : LaneOp)
  | sbmax (t : Ty) (oct : Bool) (o : LaneOp) | sbcvt (t : Ty) (sel : BitVec 2) (o : LaneOp)
  | qnt (t : Ty) (sel : BitVec 2) (rm : Rm) (o : LaneOp) | dqnt (t : Ty) (sel : BitVec 2) (o : LaneOp)
  | olx (o : LaneOp)
  -- R225 to R228, R272, R274, R299, R358
  | vld (t : Ty) (f : AddrForm) (o : LaneOp) | vst (t : Ty) (f : AddrForm) (o : LaneOp)
  | vlds (t : Ty) (f : AddrForm) (o : LaneOp) | vsts (t : Ty) (f : AddrForm) (o : LaneOp)
  | vldr (c : BitVec 3) (sp : Bool) (f : AddrForm) (o : LaneOp) | vstr (c : BitVec 3) (sp : Bool) (f : AddrForm) (o : LaneOp)
  | vpf (l2 : Bool) (f : AddrForm) (o : LaneOp)
  | vfence (sc : Scope) (o : LaneOp)
  | vamo (op : AtomOp) (sc : Scope) (t : Ty) (f : AddrForm) (o : LaneOp)
  | vldc (f : AddrForm) (o : LaneOp) | vldcDq (f : AddrForm) (o : LaneOp)
  | spawn (o : LaneOp)
  -- Steps without an encoding. `g` is a group key: 128 * core + entry. `t` is a team key: 16 * core + seat.
  /-- The `n`-th load in flight of group `g` returns (R217). -/
  | loadDataReturn (g n : Nat)
  /-- The `n`-th atomic in flight of group `g` is performed at its place (R265). -/
  | atomicAtPlace (g n : Nat)
  /-- The `n`-th store registration on its way to a home is tested (R288). -/
  | homeStoreTest (n : Nat)
  /-- Core `c` writes the dirty word of physical word index `w` home (R243). -/
  | writeBackMerge (c w : Nat)
  /-- The scrubber of a home slice visits its dots (R280). -/
  | dotScrub (die slice : Nat)
  /-- The registration record of word index `w` is repaired (R294). -/
  | registrationRepair (w : Nat)
  | copyRecordFetch (c ch : Nat) | copyOwnRecheck (c ch : Nat) | copyRecordRegister (c ch : Nat)
  | copyRecordComplete (c ch : Nat) | copyDrainExpiry (c ch : Nat)
  | patternElementFetch (g : Nat) (q : QReg)
  | watchTriggerDeliver (die slice ent : Nat)
  | gatherWindowExpiry (c slot : Nat) | gatherLaunch (c slot : Nat)
  /-- Cluster instance `k` of launch `l` is seated with position 0 on core `c` (R331). -/
  | teamAdmit (l k c : Nat)
  | seatRelease (t : Nat)
  | groupOverdue (g : Nat) (lane : Bool)
  | powerReserve (c pipe : Nat)
  | powerBudgetUpdate (c : Nat) (refill : BitVec 9)
  | pwrctlWrite (c : Nat) (v : DWord)
  | psteerWrite (c pipe : Nat) (v : DWord)
  | mgmtRegisterWrite (r : MgmtReg) (v : DWord)
  | trapEntry (g : Nat)
  | handlerBudgetExpiry (g : Nat)
  | awaitRecheck (g : Nat)
  | napExpiry (g : Nat)
  | clockChangeDone (c : Nat)
  | cycleLimitExpiry (t level : Nat)
  | alternateRollback (t : Nat)
  | preempt (t : Nat)
  /-- The `n`-th saved team is restored with position 0 on core `c` (R421). -/
  | restore (n c : Nat)
  | poolLinkDown (port : Nat)
  | poolRequestTimeout (dev : Nat)
  | strandedFlushRetry (region : Nat)
  /-- The stranded line with physical line index `l` of a region is written (R448). -/
  | rejoinLineWritten (region l : Nat)
  | poolBiSnoop (l : Nat)
  /-- A host or link write of the bytes of `mask` of one word arrives (R278). -/
  | hostDeviceWrite (w : Nat) (v : Word) (mask : BitVec 4)
  | channelDoorbell (ch : Nat) (tail : BitVec 32)
  | channelEnable (ch : Nat) (en : Bool)
  | completionHeadWrite (ch : Nat) (head : BitVec 32)
  | ctxPkt (h : PktHdr) (addr : DWord)
  | launchPkt (h : PktHdr) (addr : DWord)
  | graphPkt (h : PktHdr) (addr : DWord)
  | quiescePkt (h : PktHdr)
  | hreplyPkt (h : PktHdr) (rid x1 x2 : DWord)
  | fdonePkt (h : PktHdr) (rid : DWord) (fail : Bool)
  | regionMapPlain (h : PktHdr) (r port : Nat) (cxl : DWord) (devs : List Nat)
  | regionMapVersioned (h : PktHdr) (r port : Nat) (cxl : DWord) (devs : List Nat)
  | regionUnmap (h : PktHdr) (r : Nat)
  | regionRejoinFlush (h : PktHdr) (r port : Nat)
  | regionRejoinDiscard (h : PktHdr) (r port : Nat)
  | devcfgPkt (h : PktHdr) (fabric base size : Nat)
  | attestPkt (h : PktHdr) (nonce report : DWord)
  | fwupdPkt (h : PktHdr) (addr : DWord) (bytes slot : Nat)
  | graphEdgeSatisfy (graph edge : Nat)
  | remoteEdgeSignal (graph edge : Nat)
  | quiescePoint (ctxid : Nat)
  | retireApply (n : Nat)
  | cpTakeoverForced
  | retireTimeout (n : Nat)
  | suspectCountAge
  | ulunoezLaneFailed (link lane : Nat)
  | ulunoezLinkFailed (link : Nat)
  | moduleReset
  | reducedServiceLift (dies : BitVec 4)
  | heartbeatWatchdog (die : Nat)
  | droopDetect (c : Nat) | droopRelease (c : Nat)
  | thermalTrip (die : Nat) | thermalRelease (die : Nat)
  | rowSpare (die bank row : Nat)
  /-- An uncorrectable error in the word or DRAM block at physical word index `w` (R470). -/
  | memoryUncorrectable (w : Nat)
  | deadlockWalk
  | longWait (g : Nat)
  | calibrate (c : Nat)
  | powerGate (c : Nat)
  /-- A port's CXL link trains, reaching the pool devices `reach` (R455). -/
  | cxlLinkTraining (port : Nat) (reach : List Nat)
  | storeAcknowledgement (n : Nat)
  /-- One word of a region copied by a producer device arrives (R454): `w` is 2^57 times the CTXID and the virtual address. -/
  | copiedWriteArrival (w : Nat) (v : Word)
  deriving DecidableEq, Repr, Inhabited

end Sys2Proof
end

