-- ==== Sys2Proof/Machine/Legal.lean ====
section
/-! DEFINITION. What makes an encoding legal: the limits that the encoding rules put on an instruction's
fields beyond their widths (R38 to R47 and the entries of the instructions), each under a name of its own. -/

namespace Sys2Proof

/-- Why an instruction is ill formed. -/
inductive IllFormed where
  /-- A destination whose companion x(d+1) would be x64 (R273, R275, R298, R300, R301, R323, R357, R431). -/
  | pairDest
  /-- An argument window past x63 (R357). -/
  | argWindow
  /-- k0, or a number above 7, named as a mask destination (R47, R101, R128). -/
  | maskDest
  /-- An operation, condition or selector that the form does not have (R131, R145, R267, R275). -/
  | operation
  /-- A special register that the form may not name (R60). -/
  | special
  /-- A type that the entry does not list (R45, R47). -/
  | type
  /-- A source kind or index that the entry does not permit (R40, R47). -/
  | kind
  /-- km names k0 (R44). -/
  | mask
  /-- A lookahead on an instruction that carries none (R54). -/
  | lookahead
  /-- imm20 does not fit, or is nonzero without a use (R42, R128). -/
  | imm
  /-- A register window past v255, or an odd base of a pair (R43, R164, R185, R219). -/
  | window
  /-- A destination field that must be 0 (R128, R164, R185). -/
  | dest
  /-- An octet stride that breaks R154, R168 or R180. -/
  | stride
  /-- A scale code, row size or element index out of range (R132, R137, R219). -/
  | selector
  deriving DecidableEq, Repr, Inhabited

/-! ### Source operands (R40) -/

/-- The source kinds that an entry permits in a field. -/
inductive Kinds where
  /-- The field is unused and 0. -/
  | unused
  /-- Kind 0 alone. -/
  | vec
  /-- Kinds 0 to 2, the lane identifier among them. -/
  | vqx
  /-- Any kind. -/
  | any
  /-- Kind 2, x registers alone. -/
  | sca
  /-- Kind 2 or 3: a count or a source lane. -/
  | cnt
  deriving DecidableEq, Repr, Inhabited

/-- Whether a source has a permitted kind. -/
def Kinds.ok : Kinds → Src → Bool
  | .unused, s => s == .v 0
  | .vec, .v _ => true
  | .vec, _ => false
  | .vqx, .imm => false
  | .vqx, _ => true
  | .any, _ => true
  | .sca, .x _ => true
  | .sca, _ => false
  | .cnt, .x _ => true
  | .cnt, .imm => true
  | .cnt, _ => false

/-- Whether imm20 fits an operand type (R42). -/
def immFits (t : Ty) (i : BitVec 20) : Bool :=
  match t with
  | .i16 => decide (-32768 ≤ i.toInt) && decide (i.toInt ≤ 32767)
  | .i8 => decide (-128 ≤ i.toInt) && decide (i.toInt ≤ 127)
  | .i4 => decide (-8 ≤ i.toInt) && decide (i.toInt ≤ 7)
  | .i2 => decide (-2 ≤ i.toInt) && decide (i.toInt ≤ 1)
  | .n16 => decide (i.toNat < 65536)
  | .n8 => decide (i.toNat < 256)
  | .f16 => decide (i.toNat < 65536)
  | .bf16 => decide (i.toNat < 65536)
  | .e4m3 => decide (i.toNat < 256)
  | .e5m2 => decide (i.toNat < 256)
  | _ => true

/-- What a lane instruction's entry permits. -/
structure LaneRule where
  /-- Its types and selectors are listed. -/
  types : Bool := true
  ka : Kinds := .unused
  kb : Kinds := .unused
  kc : Kinds := .unused
  /-- Operand types of sources a, b and c, for a kind-3 value. -/
  ta : Ty := .b32
  tb : Ty := .b32
  tc : Ty := .b32
  la : Bool := false
  /-- imm20 has a meaning of its own and passes its check. -/
  own : Option (Option IllFormed) := none
  /-- vd is used; else it is 0. -/
  dst : Bool := true
  /-- vd names a mask register. -/
  mdst : Bool := false
  /-- km is permitted. -/
  km : Bool := true
  /-- Selectors out of range. -/
  sel : Bool := true
  /-- Windows: base, count, and whether the base must be even. -/
  wins : List (Nat × Nat × Bool) := []
  deriving DecidableEq, Repr, Inhabited

/-- Whether a source is the immediate. -/
def Src.isImm : Src → Bool
  | .imm => true
  | _ => false

/-- Whether a km field is permitted (R44). -/
def Km.ok : Km → Bool
  | .all => true
  | .on k => k != 0
  | .off k => k != 0

/-- The check of imm20 (R42, R128). -/
def LaneRule.immCheck (r : LaneRule) (o : LaneOp) : Option IllFormed :=
  match r.own with
  | some x => x
  | none =>
    if o.a.isImm || o.b.isImm || o.c.isImm then
      (if (!o.a.isImm || immFits r.ta o.imm) && (!o.b.isImm || immFits r.tb o.imm)
          && (!o.c.isImm || immFits r.tc o.imm) then none else some .imm)
    else if o.imm = 0 then none else some .imm

/-- The checks of a lane instruction, in one order. -/
def LaneRule.check (r : LaneRule) (o : LaneOp) : Option IllFormed :=
  if !r.types then some .type
  else if !(r.ka.ok o.a && r.kb.ok o.b && r.kc.ok o.c) then some .kind
  else if !(o.km.ok && (r.km || o.km == .all)) then some .mask
  else if !r.la && o.la != 0 then some .lookahead
  else if !r.sel then some .selector
  else if !r.dst && o.d != 0 then some .dest
  else if r.mdst && (o.d = 0 || 7 < o.d.toNat) then some .maskDest
  else if r.wins.any (fun w => 256 < w.1 + w.2.1 || (w.2.2 && w.1 % 2 = 1)) then some .window
  else r.immCheck o

/-! ### Types that entries list -/

/-- The six element-wise integer types (R129). -/
def isInt6 : Ty → Bool
  | .i32 => true | .n32 => true | .i16 => true | .n16 => true | .i8 => true | .n8 => true
  | _ => false

/-- The float types of R133. -/
def isFl3 : Ty → Bool
  | .f32 => true | .f16 => true | .bf16 => true
  | _ => false

/-- The signed types of R129. -/
def isSgn3 : Ty → Bool
  | .i32 => true | .i16 => true | .i8 => true
  | _ => false

/-- The types of `fcvt` (R137). -/
def isCvt (t : Ty) : Bool := isInt6 t || isFl3 t || t = .e4m3 || t = .e5m2

/-- The float types of `fcvt`. -/
def isCvtFl (t : Ty) : Bool := isFl3 t || t = .e4m3 || t = .e5m2

/-- Elements of a register of a type of 8 bits or more. -/
def nels : Ty → Nat
  | .i8 => 4 | .n8 => 4 | .e4m3 => 4 | .e5m2 => 4
  | .i16 => 2 | .n16 => 2 | .f16 => 2 | .bf16 => 2
  | _ => 1

/-- The narrow types of R196 and R197, with their elements in a register. -/
def narrowEls : Ty → Nat
  | .i8 => 4 | .i4 => 8 | .i2 => 16
  | _ => 0

/-- The type pairs of `mma.f` and `mma.i` (R152). -/
def isFp8 (t : Ty) : Bool := t = .e4m3 || t = .e5m2

/-- R152. -/
def isMmaI (tb ta : Ty) : Bool :=
  (ta = .i8 && tb = .i8) || (ta = .i8 && tb = .i4) || (ta = .i4 && tb = .i4) || (ta = .i2 && tb = .i2)

/-- The types of a fragment load (R168). -/
def isFrag (t : Ty) : Bool :=
  isFp8 t || t = .bf16 || t = .f16 || t = .i8 || t = .i4 || t = .i2

/-- The operations that a reduction type has (R145). -/
def redOk (op : RedOp) (t : Ty) : Bool :=
  match op with
  | .add => t = .i32 || t = .n32 || t = .f32
  | .min => t = .i32 || t = .n32 || t = .f32
  | .max => t = .i32 || t = .n32 || t = .f32
  | _ => t = .b32

/-- The types of an atomic operation (R267). -/
def atomOk (op : AtomOp) (t : Ty) : Bool :=
  match op with
  | .add => t = .i32 || t = .n32 || t = .f32 || t = .rw
  | .min => t = .i32 || t = .f32
  | .max => t = .i32 || t = .f32
  | .minn => t = .n32
  | .maxn => t = .n32
  | _ => t = .b32

/-- The index of a kind-0 source. -/
def Src.vIdx : Src → Nat
  | .v r => r.toNat
  | _ => 0

/-! ### Entries -/

/-- A stride check (R154, R168, R180). -/
def strideOk (o : LaneOp) (n : Nat) : Option (Option IllFormed) :=
  some (if o.imm.toNat % n = 0 then none else some .stride)

/-- An element-wise instruction of two sources and one type. -/
def two (ok : Bool) (t : Ty) : LaneRule := { types := ok, ka := .any, kb := .any, ta := t, tb := t }

/-- An element-wise instruction of three sources. -/
def three (ok : Bool) (t : Ty) : LaneRule :=
  { types := ok, ka := .any, kb := .any, kc := .any, ta := t, tb := t, tc := t }

/-- An element-wise instruction of one source. -/
def one (ok : Bool) (t : Ty) : LaneRule := { types := ok, ka := .any, ta := t }

/-- A conversion of one element (R132, R137): imm20 is the destination element. -/
def conv (ok : Bool) (td ts : Ty) (ed es : BitVec 2) (o : LaneOp) : LaneRule :=
  { types := ok, ka := .vqx, la := true
    sel := decide (es.toNat < nels ts) && decide (ed.toNat < nels td)
    own := some (if o.imm = 0 then none else some .imm) }

/-- A lane memory instruction (R219). -/
def memRule (f : AddrForm) (ok la : Bool) (n : Nat) (o : LaneOp) : LaneRule :=
  { types := ok, ka := .sca, kb := .vqx, la := la, own := some none
    sel := decide (f.sc.toNat ≤ 4), wins := [(o.d.toNat, n, false)] }

/-- The memory types of loads and stores (R219). -/
def isLoadTy : Ty → Bool
  | .i8 => true | .n8 => true | .i16 => true | .n16 => true | .b32 => true
  | _ => false
def isStoreTy : Ty → Bool
  | .n8 => true | .n16 => true | .b32 => true
  | _ => false

/-- The rule of a lane instruction; `none` for the other rows. DEDUCED (log 62). Two
immediates of different types get one value each. DEDUCED (log 106). -/
def Instr.laneRule : Instr → Option (LaneOp × LaneRule)
  | .vadd t _ o => some (o, two (isInt6 t) t)
  | .vsub t _ o => some (o, two (isInt6 t) t)
  | .vmul t o => some (o, two (isInt6 t) t)
  | .vmulh t o => some (o, two (isInt6 t) t)
  | .vmad t _ o => some (o, three (isInt6 t) t)
  | .vand o => some (o, two true .b32)
  | .vor o => some (o, two true .b32)
  | .vxor o => some (o, two true .b32)
  | .vandn o => some (o, two true .b32)
  | .vshl t o => some (o, two (isInt6 t || t = .b32) t)
  | .vshr t o => some (o, two (t = .b32 || t = .n32 || t = .n16 || t = .n8) t)
  | .vsar t o => some (o, two (isSgn3 t) t)
  | .vmin t o => some (o, two (isInt6 t) t)
  | .vmax t o => some (o, two (isInt6 t) t)
  | .vabs t _ o => some (o, one (isSgn3 t) t)
  | .vaddmin t _ o => some (o, three (t = .i32 || t = .n32 || t = .i16 || t = .n16) t)
  | .vaddmax t _ o => some (o, three (t = .i32 || t = .n32 || t = .i16 || t = .n16) t)
  | .vclz o => some (o, one true .b32)
  | .vpopc o => some (o, one true .b32)
  | .vbfx t o => some (o, three (t = .i32 || t = .n32) t)
  | .vbfi o => some (o, three true .b32)
  | .vsel _ o => some (o, two true .b32)
  | .vsad t o => some (o, { three (isInt6 t) t with tc := .n32 })
  | .vcmp cc t o => some (o, { two (t = .i32 || t = .n32 || (t = .b32 && (cc = .eq || cc = .ne))) t with mdst := true })
  | .vcvt td ts _ ed es o => some (o, conv (isInt6 td && isInt6 ts) td ts ed es o)
  | .fadd t _ o => some (o, two (isFl3 t) t)
  | .fsub t _ o => some (o, two (isFl3 t) t)
  | .fmul t _ o => some (o, two (isFl3 t) t)
  | .ffma t _ o => some (o, three (isFl3 t) t)
  | .fmin t o => some (o, two (isFl3 t) t)
  | .fmax t o => some (o, two (isFl3 t) t)
  | .fcmp _ o => some (o, { two true .f32 with mdst := true })
  | .frcp t o => some (o, { one (isFl3 t) t with la := true })
  | .frsq t o => some (o, { one (isFl3 t) t with la := true })
  | .fsqrt t o => some (o, { one (isFl3 t) t with la := true })
  | .fexp2 t o => some (o, { one (isFl3 t) t with la := true })
  | .flog2 t o => some (o, { one (isFl3 t) t with la := true })
  | .fcvt td ts _ sf ed es o => some (o,
      conv (isCvt td && isCvt ts && (isCvtFl td || isCvtFl ts) && (!sf || isFp8 td)) td ts ed es o)
  | .fint t _ o => some (o, { one (isFl3 t) t with la := true })
  | .vshfl _ o => some (o, { two true .b32 with tb := .n32 })
  | .vshift _ o => some (o, { three true .b32 with kb := .cnt, tb := .n32 })
  | .vrot _ o => some (o, { two true .b32 with kb := .cnt, tb := .n32 })
  | .vbcast o => some (o, { two true .b32 with kb := .cnt, tb := .n32 })
  | .voteK o => some (o, { one true .b32 with mdst := true })
  | .voteBallot o => some (o, { one true .b32 with dst := false })
  | .voteAny o => some (o, { one true .b32 with dst := false })
  | .voteAll o => some (o, { one true .b32 with dst := false })
  | .voteCount o => some (o, { one true .b32 with dst := false })
  | .vred op t o => some (o, { one (redOk op t) t with dst := false, la := true })
  | .vredV op t o => some (o, { one (redOk op t) t with la := true })
  | .vscan op t _ o => some (o, { one (redOk op t) t with la := true })
  | .mmaF tb ta _ _ o => some (o,
      { types := isFp8 tb && isFp8 ta, ka := .vec, kb := .vec, kc := .sca, la := true, dst := false
        own := strideOk o 512, wins := [(o.a.vIdx, 16, false), (o.b.vIdx, 32, false)] })
  | .mmaH ta _ _ o => some (o,
      { types := ta = .bf16 || ta = .f16, ka := .vec, kb := .vec, kc := .sca, la := true, dst := false
        own := strideOk o 512, wins := [(o.a.vIdx, 16, false), (o.b.vIdx, 32, false)] })
  | .mmaI tb ta _ _ o => some (o,
      { types := isMmaI tb ta, ka := .vec, kb := .vec, kc := .sca, la := true, dst := false
        own := strideOk o 512
        wins := [(o.a.vIdx, 16, false), (o.b.vIdx, if ta = .i8 && tb = .i4 then 16 else 32, false)] })
  | .mzero o => some (o, { kc := .sca, dst := false, own := strideOk o 512 })
  | .mfrag rb t k64 o => some (o,
      { types := isFrag t && (!k64 || (rb && t = .i4)), kb := .sca, kc := .sca, la := true
        own := strideOk o 4, wins := [(o.d.toNat, if rb && !k64 then 32 else 16, false)] })
  | .mtr rb t k64 o => some (o,
      { types := isFrag t && (!k64 || (rb && t = .i4)), kb := .sca, kc := .sca, la := true
        own := strideOk o 4, wins := [(o.d.toNat, if rb && !k64 then 32 else 16, false)] })
  | .maccLd o => some (o, { kc := .sca, la := true, own := strideOk o 512, wins := [(o.d.toNat, 16, false)] })
  | .maccSt o => some (o, { kc := .sca, la := true, own := strideOk o 512, wins := [(o.d.toNat, 16, false)] })
  | .maccAdd t o => some (o,
      { types := t = .f32 || t = .i32 || t = .rw, kc := .sca, la := true, own := strideOk o 512
        wins := [(o.d.toNat, 16, false)] })
  | .crt o => some (o, { ka := .vqx, la := true })
  | .crtAcc _ o => some (o, { kc := .sca, la := true, own := strideOk o 512, wins := [(o.d.toNat, 16, false)] })
  | .rwadd o => some (o, { ka := .vqx, kb := .vqx })
  | .rwfrom o => some (o, { ka := .any, ta := .i32, la := true })
  | .sacc _ _ _ o => some (o,
      { ka := .vec, kb := .vec, kc := .sca, own := strideOk o 2048
        wins := [(o.a.vIdx, 16, false), (o.d.toNat, 2, true)] })
  | .fxzero o => some (o, { kc := .sca, dst := false, own := strideOk o 2048 })
  | .fxadd t _ o => some (o,
      { types := t = .i32 || t = .f32 || t = .rw, ka := .vec, kc := .sca, dst := false, own := strideOk o 2048
        wins := [(o.a.vIdx, 16, false)] })
  | .fxcvt t _ _ _ o => some (o,
      { types := isFl3 t, kc := .sca, la := true, own := strideOk o 2048
        wins := [(o.d.toNat, if t = .f32 then 16 else 8, false)] })
  | .sbmax t _ o => some (o, { types := t = .f32 || t = .bf16, ka := .vqx, kb := .any, tb := .f32 })
  | .sbcvt t _ o => some (o, { types := narrowEls t ≠ 0, ka := .vqx, la := true })
  | .qnt t _ _ o => some (o,
      { types := narrowEls t ≠ 0, ka := .vec, kb := .vec, kc := .sca, la := true
        wins := [(o.a.vIdx, narrowEls t, false)] })
  | .dqnt t _ o => some (o,
      { types := narrowEls t ≠ 0, ka := .vqx, kb := .vqx, la := true, wins := [(o.d.toNat, narrowEls t, false)] })
  | .olx o => some (o, { kb := .vec, kc := .sca, wins := [(o.b.vIdx, 16, false)] })
  | .vld t f o => some (o, memRule f (isLoadTy t) true 1 o)
  | .vst t f o => some (o, memRule f (isStoreTy t) false 1 o)
  | .vlds t f o => some (o, memRule f (isLoadTy t) true 1 o)
  | .vsts t f o => some (o, memRule f (isStoreTy t) false 1 o)
  | .vldr c _ f o => some (o, { memRule f true true (2 ^ c.toNat) o with
      sel := decide (f.sc.toNat ≤ 4) && decide (1 ≤ c.toNat) && decide (c.toNat ≤ 4) })
  | .vstr c _ f o => some (o, { memRule f true false (2 ^ c.toNat) o with
      sel := decide (f.sc.toNat ≤ 4) && decide (1 ≤ c.toNat) && decide (c.toNat ≤ 4) })
  | .vpf _ f o => some (o, { memRule f true false 1 o with dst := false, wins := [] })
  | .vfence _ o => some (o, { dst := false, km := false })
  | .vamo op _ t f o => some (o, { memRule f (atomOk op t) true 2 o with kc := .vqx, wins := [(o.d.toNat, 2, true)] })
  | .vldc f o => some (o, { memRule f true true 2 o with wins := [(o.d.toNat, 2, true)] })
  | .vldcDq f o => some (o, memRule f true true 1 o)
  | .spawn o => some (o, { ka := .sca, kb := .vec, dst := false, wins := [(o.b.vIdx, 14, false)] })
  | _ => none

/-- The check of a scalar destination with a companion. -/
def pairOk (d : XReg) : Option IllFormed := if d = 63 then some .pairDest else none

/-- The check of a mask destination (R47, R101). -/
def maskOk (d : KReg) : Option IllFormed := if d = 0 then some .maskDest else none

/-- The checks of a scalar instruction beyond its field widths. -/
def Instr.scalarCheck : Instr → Option IllFormed
  | .ldc d _ _ _ => pairOk d
  | .ldsib d _ _ _ => pairOk d
  | .rcn _ d _ => pairOk d
  | .amo _ _ d _ _ => pairOk d
  | .bop _ d _ _ => pairOk d
  | .bred op d _ _ => if op = .fill then some .operation else pairOk d
  | .cpstat d _ => pairOk d
  | .cpflt d _ => pairOk d
  | .qtry d _ => pairOk d
  | .capq d _ => pairOk d
  | .tspawn _ x => if 57 < x.toNat then some .argWindow else none
  | .kmovKK d _ => maskOk d
  | .kmovKX d _ => maskOk d
  | .kand d _ _ => maskOk d
  | .kor d _ _ => maskOk d
  | .kxor d _ _ => maskOk d
  | .knot d _ => maskOk d
  | .mts _ r => if r = .cir || r = .ofc || r = .tvb then none else some .special
  | _ => none

/-- Why an instruction is ill formed; `none` for a well-formed one. DEDUCED (log 63). -/
def Instr.check (i : Instr) : Option IllFormed :=
  match i.laneRule with
  | some (o, r) => r.check o
  | none => i.scalarCheck

end Sys2Proof
end

