-- ==== Sys2Proof/WellFormed.lean ====
section
/-! DEFINITION. Which instructions are well formed: those that pass every named check of `Instr.check`, the limits that
the encoding rules put on an instruction's fields beyond their widths (R38 to R47). -/

namespace Sys2Proof

/-- A well-formed instruction. -/
def Instr.wf (i : Instr) : Bool := i.check = none

end Sys2Proof
end

