-- ==== Sys2Proof/Decode.lean ====
section
/-! DEFINITION. Decoding and encoding of scalar and lane instruction words (R37 to R54). A word is read field by field,
the instruction read is checked (`Instr.check`), and it must encode back to the same word, so that a nonzero
reserved bit is refused. -/

namespace Sys2Proof

/-- Why a word is refused. -/
inductive DecodeError where
  /-- Fewer bytes than a word (a scalar word has 4, a lane word 12). -/
  | short
  /-- A major opcode or an op12 that the opcode maps do not assign (R50, R53). -/
  | opcode
  /-- A function value that the major opcode does not assign (R50). -/
  | function
  /-- A scope, operation, condition, path, rounding or mode code that is not assigned (R46, R51). -/
  | code
  /-- A type code that is not assigned (R45). -/
  | type
  /-- An instruction that breaks a limit of its entry (R47). -/
  | illFormed (why : IllFormed)
  /-- A nonzero reserved field or bit, or an index that its kind does not have (R40, R47). -/
  | reserved
  deriving DecidableEq, Repr, Inhabited

/-! ### Codes -/

/-- Scopes (R51). -/
def Scope.code : Scope → BitVec 3
  | .grp => 0 | .team => 1 | .clus => 2 | .dev => 3 | .sys => 4 | .pool => 5
def scopeOf (c : BitVec 3) : Option Scope :=
  match c.toNat with
  | 0 => some .grp | 1 => some .team | 2 => some .clus | 3 => some .dev | 4 => some .sys | 5 => some .pool
  | _ => none

/-- Atomic operations (R51). -/
def AtomOp.code : AtomOp → BitVec 4
  | .add => 0 | .min => 1 | .max => 2 | .minn => 3 | .maxn => 4 | .and => 5 | .or => 6 | .xor => 7 | .xchg => 8
  | .cas => 9
def atomOf (c : BitVec 4) : Option AtomOp :=
  match c.toNat with
  | 0 => some .add | 1 => some .min | 2 => some .max | 3 => some .minn | 4 => some .maxn | 5 => some .and
  | 6 => some .or | 7 => some .xor | 8 => some .xchg | 9 => some .cas
  | _ => none

/-- Reconcile operations (R51), with fn[3] = 0. -/
def RcnOp.code : RcnOp → BitVec 3
  | .add => 0 | .min => 1 | .max => 2 | .or => 3 | .and => 4 | .first => 5 | .last => 6
def rcnOf (c : BitVec 3) : Option RcnOp :=
  match c.toNat with
  | 0 => some .add | 1 => some .min | 2 => some .max | 3 => some .or | 4 => some .and | 5 => some .first
  | 6 => some .last
  | _ => none

/-- Bank operations (R275). -/
def BankOp.code : BankOp → BitVec 4
  | .fill => 0 | .addI32 => 1 | .addF32 => 2 | .addRw => 3 | .min => 4 | .max => 5 | .minn => 6 | .maxn => 7
  | .and => 8 | .or => 9 | .xor => 10
def bankOf (c : BitVec 4) : Option BankOp :=
  match c.toNat with
  | 0 => some .fill | 1 => some .addI32 | 2 => some .addF32 | 3 => some .addRw | 4 => some .min | 5 => some .max
  | 6 => some .minn | 7 => some .maxn | 8 => some .and | 9 => some .or | 10 => some .xor
  | _ => none

/-- Conditions of `await` (R276). -/
def AwaitCond.code : AwaitCond → BitVec 3
  | .eq => 0 | .ne => 1 | .lt => 2 | .ge => 3 | .ltn => 4 | .gen => 5
def awaitOf (c : BitVec 3) : Option AwaitCond :=
  match c.toNat with
  | 0 => some .eq | 1 => some .ne | 2 => some .lt | 3 => some .ge | 4 => some .ltn | 5 => some .gen
  | _ => none

/-- In-flight paths (R51). -/
def Path.code : Path → BitVec 3
  | .sp => 0 | .gl => 1 | .rsp => 2 | .pat => 3 | .cp => 4 | .pl => 5
def pathOf (c : BitVec 3) : Option Path :=
  match c.toNat with
  | 0 => some .sp | 1 => some .gl | 2 => some .rsp | 3 => some .pat | 4 => some .cp | 5 => some .pl
  | _ => none

/-- Special registers (R59). -/
def SReg.code : SReg → BitVec 13
  | .gid => 0x001 | .tid => 0x002 | .gw => 0x003 | .role => 0x004 | .tsc => 0x005 | .cir => 0x010 | .rbst => 0x011
  | .ofc => 0x012 | .chk => 0x018 | .tvb => 0x020 | .ctx => 0x021
def sregOf (c : BitVec 13) : Option SReg :=
  match c.toNat with
  | 0x001 => some .gid | 0x002 => some .tid | 0x003 => some .gw | 0x004 => some .role | 0x005 => some .tsc
  | 0x010 => some .cir | 0x011 => some .rbst | 0x012 => some .ofc | 0x018 => some .chk | 0x020 => some .tvb
  | 0x021 => some .ctx
  | _ => none

/-- Types (R45). -/
def Ty.code : Ty → BitVec 6
  | .none => 0x00 | .i32 => 0x01 | .n32 => 0x02 | .b32 => 0x03 | .i16 => 0x04 | .n16 => 0x05 | .i8 => 0x06
  | .n8 => 0x07 | .i4 => 0x08 | .i2 => 0x09 | .f32 => 0x10 | .f16 => 0x11 | .bf16 => 0x12 | .e4m3 => 0x13
  | .e5m2 => 0x14 | .rw => 0x18 | .fx => 0x19
def tyOf (c : BitVec 6) : Option Ty :=
  match c.toNat with
  | 0x00 => some .none | 0x01 => some .i32 | 0x02 => some .n32 | 0x03 => some .b32 | 0x04 => some .i16
  | 0x05 => some .n16 | 0x06 => some .i8 | 0x07 => some .n8 | 0x08 => some .i4 | 0x09 => some .i2
  | 0x10 => some .f32 | 0x11 => some .f16 | 0x12 => some .bf16 | 0x13 => some .e4m3 | 0x14 => some .e5m2
  | 0x18 => some .rw | 0x19 => some .fx
  | _ => Option.none

/-- Rounding codes (R46). -/
def Rm.code : Rm → BitVec 3
  | .ne => 0 | .rz => 1 | .ru => 2 | .rd => 3 | .ra => 4
def rmOf (c : BitVec 3) : Option Rm :=
  match c.toNat with
  | 0 => some .ne | 1 => some .rz | 2 => some .ru | 3 => some .rd | 4 => some .ra
  | _ => none

/-- Integer conditions (R131). -/
def Cc.code : Cc → BitVec 4
  | .eq => 0 | .ne => 1 | .lt => 2 | .le => 3 | .gt => 4 | .ge => 5
def ccOf (c : BitVec 4) : Option Cc :=
  match c.toNat with
  | 0 => some .eq | 1 => some .ne | 2 => some .lt | 3 => some .le | 4 => some .gt | 5 => some .ge
  | _ => none

/-- Float conditions (R135). -/
def FCc.code : FCc → BitVec 4
  | .eq => 0 | .ne => 1 | .lt => 2 | .le => 3 | .gt => 4 | .ge => 5 | .un => 6 | .or => 7
def fccOf (c : BitVec 4) : Option FCc :=
  match c.toNat with
  | 0 => some .eq | 1 => some .ne | 2 => some .lt | 3 => some .le | 4 => some .gt | 5 => some .ge | 6 => some .un
  | 7 => some .or
  | _ => none

/-- Shuffle modes (R141). -/
def ShMode.code : ShMode → BitVec 2
  | .idx => 0 | .xor => 1 | .up => 2 | .dn => 3
def shOf (c : BitVec 2) : Option ShMode :=
  match c.toNat with
  | 0 => some .idx | 1 => some .xor | 2 => some .up | 3 => some .dn
  | _ => none

/-- Reduction operations (R145). -/
def RedOp.code : RedOp → BitVec 3
  | .add => 0 | .min => 1 | .max => 2 | .and => 3 | .or => 4 | .xor => 5
def redOf (c : BitVec 3) : Option RedOp :=
  match c.toNat with
  | 0 => some .add | 1 => some .min | 2 => some .max | 3 => some .and | 4 => some .or | 5 => some .xor
  | _ => none

/-- Goes on with a code's meaning, or refuses the code. -/
def withCode {α : Type} (c : Option α) (f : α → Except DecodeError Instr) : Except DecodeError Instr :=
  match c with
  | some x => f x
  | none => .error .code

/-- Goes on with a type, or refuses its code. -/
def withTy (c : BitVec 6) (f : Ty → Except DecodeError Instr) : Except DecodeError Instr :=
  match tyOf c with
  | some t => f t
  | none => .error .type

/-! ### Scalar words (R37) -/

/-- The fields of a scalar word in shape SA. -/
structure SWord where
  op : BitVec 7
  d  : BitVec 6
  a  : BitVec 6
  b  : BitVec 6
  fn : BitVec 7
  deriving DecidableEq, Repr, Inhabited

/-- The word of fields. -/
def SWord.word (f : SWord) : Word := f.op ++ f.d ++ f.a ++ f.b ++ f.fn

/-- The fields of a word. -/
def SWord.ofWord (w : Word) : SWord :=
  { op := w.extractLsb' 25 7, d := w.extractLsb' 19 6, a := w.extractLsb' 13 6, b := w.extractLsb' 7 6,
    fn := w.extractLsb' 0 7 }

/-- The fields of the other shapes, as pieces of those of SA (R37). -/
def SWord.imm13 (f : SWord) : BitVec 13 := f.b ++ f.fn
def SWord.la (f : SWord) : BitVec 4 := f.b.extractLsb' 2 4
def SWord.imm9 (f : SWord) : BitVec 9 := f.b.extractLsb' 0 2 ++ f.fn
def SWord.off25 (f : SWord) : BitVec 25 := f.d ++ f.a ++ f.b ++ f.fn
def SWord.imm19 (f : SWord) : BitVec 19 := f.a ++ f.b ++ f.fn

/-- Shape SA. -/
def fSA (op : BitVec 7) (d a b : BitVec 6) (fn : BitVec 7) : SWord := { op := op, d := d, a := a, b := b, fn := fn }

/-- Shape SI; shape SB has the same places, with xa and xb in the fields of xd and xa. -/
def fSI (op : BitVec 7) (d a : BitVec 6) (i : BitVec 13) : SWord :=
  { op := op, d := d, a := a, b := i.extractLsb' 7 6, fn := i.extractLsb' 0 7 }

/-- Shape SM. -/
def fSM (op : BitVec 7) (d a : BitVec 6) (la : BitVec 4) (i : BitVec 9) : SWord :=
  { op := op, d := d, a := a, b := la ++ i.extractLsb' 7 2, fn := i.extractLsb' 0 7 }

/-- Shape SJ. -/
def fSJ (op : BitVec 7) (o : BitVec 25) : SWord :=
  { op := op, d := o.extractLsb' 19 6, a := o.extractLsb' 13 6, b := o.extractLsb' 7 6, fn := o.extractLsb' 0 7 }

/-- Shape SL. -/
def fSL (op : BitVec 7) (n : BitVec 6) (o : BitVec 19) : SWord :=
  { op := op, d := n, a := o.extractLsb' 13 6, b := o.extractLsb' 7 6, fn := o.extractLsb' 0 7 }

/-- The fields of a scalar instruction (R50, R51); `none` for the other rows. -/
def encScalar : Instr → Option SWord
  | .add d a b => some (fSA 0x01 d a b 0x00)
  | .sub d a b => some (fSA 0x01 d a b 0x01)
  | .and d a b => some (fSA 0x01 d a b 0x02)
  | .or d a b => some (fSA 0x01 d a b 0x03)
  | .xor d a b => some (fSA 0x01 d a b 0x04)
  | .andn d a b => some (fSA 0x01 d a b 0x05)
  | .shl d a b => some (fSA 0x01 d a b 0x06)
  | .shr d a b => some (fSA 0x01 d a b 0x07)
  | .sar d a b => some (fSA 0x01 d a b 0x08)
  | .rol d a b => some (fSA 0x01 d a b 0x09)
  | .min d a b => some (fSA 0x01 d a b 0x0a)
  | .max d a b => some (fSA 0x01 d a b 0x0b)
  | .minn d a b => some (fSA 0x01 d a b 0x0c)
  | .maxn d a b => some (fSA 0x01 d a b 0x0d)
  | .mul d a b => some (fSA 0x02 d a b 0x00)
  | .mulh d a b => some (fSA 0x02 d a b 0x01)
  | .mulhn d a b => some (fSA 0x02 d a b 0x02)
  | .div d a b => some (fSA 0x02 d a b 0x03)
  | .divn d a b => some (fSA 0x02 d a b 0x04)
  | .rem d a b => some (fSA 0x02 d a b 0x05)
  | .remn d a b => some (fSA 0x02 d a b 0x06)
  | .seq d a b => some (fSA 0x28 d a b 0x00)
  | .sne d a b => some (fSA 0x28 d a b 0x01)
  | .slt d a b => some (fSA 0x28 d a b 0x02)
  | .sltn d a b => some (fSA 0x28 d a b 0x03)
  | .sle d a b => some (fSA 0x28 d a b 0x04)
  | .slen d a b => some (fSA 0x28 d a b 0x05)
  | .clz d a => some (fSA 0x03 d a 0 0x00)
  | .ctz d a => some (fSA 0x03 d a 0 0x01)
  | .popc d a => some (fSA 0x03 d a 0 0x02)
  | .sextI8 d a => some (fSA 0x03 d a 0 0x10)
  | .sextI16 d a => some (fSA 0x03 d a 0 0x11)
  | .sextI32 d a => some (fSA 0x03 d a 0 0x12)
  | .zextN8 d a => some (fSA 0x03 d a 0 0x18)
  | .zextN16 d a => some (fSA 0x03 d a 0 0x19)
  | .zextN32 d a => some (fSA 0x03 d a 0 0x1a)
  | .addi d a i => some (fSI 0x20 d a i)
  | .andi d a i => some (fSI 0x21 d a i)
  | .ori d a i => some (fSI 0x22 d a i)
  | .xori d a i => some (fSI 0x23 d a i)
  | .shli d a n => some (fSI 0x24 d a (n.zeroExtend 13))
  | .shri d a n => some (fSI 0x25 d a (n.zeroExtend 13))
  | .sari d a n => some (fSI 0x26 d a (n.zeroExtend 13))
  | .lih d a i => some (fSI 0x27 d a i)
  | .sel d c a b => some (fSA 0x29 d a b (c.zeroExtend 7))
  | .adr d a i => some (fSI 0x2a d a i)
  | .adrpc d i => some (fSI 0x2b d 0 i)
  | .b o => some (fSJ 0x30 o)
  | .call o => some (fSJ 0x31 o)
  | .beq a b o => some (fSI 0x32 a b o)
  | .bne a b o => some (fSI 0x33 a b o)
  | .blt a b o => some (fSI 0x34 a b o)
  | .bge a b o => some (fSI 0x35 a b o)
  | .bltn a b o => some (fSI 0x36 a b o)
  | .bgen a b o => some (fSI 0x37 a b o)
  | .bz a o => some (fSI 0x38 a 0 o)
  | .bnz a o => some (fSI 0x39 a 0 o)
  | .loop a o => some (fSI 0x3a a 0 o)
  | .bkany k o => some (fSI 0x3b (k.zeroExtend 6) 0 o)
  | .bkall k o => some (fSI 0x3c (k.zeroExtend 6) 0 o)
  | .bknone k o => some (fSI 0x3d (k.zeroExtend 6) 0 o)
  | .calli a => some (fSA 0x3e 0 a 0 0x00)
  | .ret => some (fSA 0x3e 0 0 0 0x01)
  | .jmpi a => some (fSA 0x3e 0 a 0 0x02)
  | .ldx d a la i => some (fSM 0x40 d a la i)
  | .ldxI32 d a la i => some (fSM 0x41 d a la i)
  | .ldxs d a la i => some (fSM 0x42 d a la i)
  | .ldxsI32 d a la i => some (fSM 0x43 d a la i)
  | .stx d a i => some (fSM 0x44 d a 0 i)
  | .stxB32 d a i => some (fSM 0x45 d a 0 i)
  | .stxs d a i => some (fSM 0x46 d a 0 i)
  | .stxsB32 d a i => some (fSM 0x47 d a 0 i)
  | .acq sc d a la => some (fSM 0x48 d a la (sc.code.zeroExtend 9))
  | .rel sc d a => some (fSM 0x49 d a 0 (sc.code.zeroExtend 9))
  | .amo op sc d a b => some (fSA 0x4a d a b (op.code ++ sc.code))
  | .ldc d a la i => some (fSM 0x4b d a la i)
  | .ldsib d a la k => some (fSM 0x4c d a la (k.zeroExtend 9))
  | .mfs d r => some (fSI 0x4d d 0 r.code)
  | .mts a r => some (fSI 0x4e 0 a r.code)
  | .fence sc => some (fSA 0x4f 0 0 0 ((0 : BitVec 4) ++ sc.code))
  | .rcn op d a => some (fSA 0x4f d a 0 ((2 : BitVec 4) ++ op.code))
  | .rcnw d a b => some (fSA 0x4f d a b 0x20)
  | .vvrd d a => some (fSA 0x4f d a 0 0x30)
  | .vvfold a => some (fSA 0x4f 0 a 0 0x40)
  | .clean a b => some (fSA 0x4f 0 a b 0x50)
  | .inval a b => some (fSA 0x4f 0 a b 0x60)
  | .lrun n o => some (fSL 0x50 n o)
  | .lsync => some (fSA 0x51 0 0 0 0x00)
  | .dpop d => some (fSA 0x51 d 0 0 0x01)
  | .kpush k => some (fSA 0x51 0 (k.zeroExtend 6) 0 0x02)
  | .kelse => some (fSA 0x51 0 0 0 0x03)
  | .kpop => some (fSA 0x51 0 0 0 0x04)
  | .kmovKK d a => some (fSA 0x51 (d.zeroExtend 6) (a.zeroExtend 6) 0 0x05)
  | .kmovKX d a => some (fSA 0x51 (d.zeroExtend 6) a 0 0x06)
  | .kmovXK d a => some (fSA 0x51 d (a.zeroExtend 6) 0 0x07)
  | .kand d a b => some (fSA 0x51 (d.zeroExtend 6) (a.zeroExtend 6) (b.zeroExtend 6) 0x08)
  | .kor d a b => some (fSA 0x51 (d.zeroExtend 6) (a.zeroExtend 6) (b.zeroExtend 6) 0x09)
  | .kxor d a b => some (fSA 0x51 (d.zeroExtend 6) (a.zeroExtend 6) (b.zeroExtend 6) 0x0a)
  | .knot d a => some (fSA 0x51 (d.zeroExtend 6) (a.zeroExtend 6) 0 0x0b)
  | .kpopc d a => some (fSA 0x51 d (a.zeroExtend 6) 0 0x0c)
  | .spset q a b => some (fSA 0x52 (q.zeroExtend 6) a b 0x00)
  | .spgo q => some (fSA 0x52 (q.zeroExtend 6) 0 0 0x01)
  | .spstop q => some (fSA 0x52 (q.zeroExtend 6) 0 0 0x02)
  | .wait p a => some (fSA 0x53 0 a 0 ((0 : BitVec 4) ++ p.code))
  | .cntrd p d => some (fSA 0x53 d 0 0 ((1 : BitVec 4) ++ p.code))
  | .cpgo c b => some (fSA 0x54 0 (c.zeroExtend 6) b 0x00)
  | .cpseal d c => some (fSA 0x54 d (c.zeroExtend 6) 0 0x01)
  | .cpwait d c b => some (fSA 0x54 d (c.zeroExtend 6) b 0x02)
  | .cpstat d c => some (fSA 0x54 d (c.zeroExtend 6) 0 0x03)
  | .cpabort d c => some (fSA 0x54 d (c.zeroExtend 6) 0 0x04)
  | .cpflt d c => some (fSA 0x54 d (c.zeroExtend 6) 0 0x05)
  | .bop op d a b => some (fSA 0x55 d a b ((0 : BitVec 3) ++ op.code))
  | .bred op d a b => some (fSA 0x55 d a b ((1 : BitVec 3) ++ op.code))
  | .await cc acq d a b => some (fSA 0x55 d a b ((2 : BitVec 3) ++ BitVec.ofBool acq ++ cc.code))
  | .tspawn a b => some (fSA 0x60 0 a b 0x00)
  | .watch d a => some (fSA 0x61 d a 0 0x00)
  | .unwatch d a => some (fSA 0x61 d a 0 0x01)
  | .claim d a => some (fSA 0x62 d a 0 0x00)
  | .give d a => some (fSA 0x62 d a 0 0x01)
  | .regroup d a => some (fSA 0x63 d a 0 0x00)
  | .exit => some (fSA 0x63 0 0 0 0x01)
  | .barinit n b => some (fSA 0x64 0 n b 0x00)
  | .bararr d n => some (fSA 0x64 d n 0 0x01)
  | .barwait n b => some (fSA 0x64 0 n b 0x02)
  | .barsync n => some (fSA 0x64 0 n 0 0x03)
  | .cbar c => some (fSA 0x64 0 (c.zeroExtend 6) 0 0x04)
  | .qinit q b => some (fSA 0x65 0 (q.zeroExtend 6) b 0x00)
  | .qpush q b => some (fSA 0x65 0 (q.zeroExtend 6) b 0x01)
  | .qpop d q => some (fSA 0x65 d (q.zeroExtend 6) 0 0x02)
  | .qtry d q => some (fSA 0x65 d (q.zeroExtend 6) 0 0x03)
  | .nap a => some (fSA 0x66 0 a 0 0x00)
  | .yield => some (fSA 0x66 0 0 0 0x01)
  | .ensure a b => some (fSA 0x68 0 a b 0x00)
  | .elseby => some (fSA 0x68 0 0 0 0x01)
  | .elseerr => some (fSA 0x68 0 0 0 0x02)
  | .accept a => some (fSA 0x68 0 a 0 0x03)
  | .rbfail => some (fSA 0x68 0 0 0 0x04)
  | .cvjoin d a => some (fSA 0x68 d a 0 0x05)
  | .cvleave => some (fSA 0x68 0 0 0 0x06)
  | .chkerr d => some (fSA 0x68 d 0 0 0x07)
  | .trap n => some (fSI 0x70 0 0 (n.zeroExtend 13))
  | .brk n => some (fSI 0x71 0 0 n)
  | .hcall n => some (fSI 0x72 0 0 n)
  | .rti => some (fSA 0x73 0 0 0 0x00)
  | .nop => some (fSA 0x73 0 0 0 0x01)
  | .halt a => some (fSA 0x73 0 a 0 0x02)
  | .capq d a => some (fSA 0x73 d a 0 0x03)
  | .chkmode a => some (fSA 0x73 0 a 0 0x04)
  | .clkmode d a => some (fSA 0x73 d a 0 0x05)
  | .retire d a => some (fSA 0x73 d a 0 0x06)
  | .ctxsv d a b => some (fSA 0x73 d a b 0x07)
  | .ctxld d a b => some (fSA 0x73 d a b 0x08)
  | .tlbflush a b => some (fSA 0x73 0 a b 0x09)
  | .prgn d a => some (fSA 0x73 d a 0 0x0a)
  | _ => none

/-- Major 0x01 (R50). -/
def parseAlu (f : SWord) : Except DecodeError Instr :=
  match f.fn.toNat with
  | 0x00 => .ok (.add f.d f.a f.b)
  | 0x01 => .ok (.sub f.d f.a f.b)
  | 0x02 => .ok (.and f.d f.a f.b)
  | 0x03 => .ok (.or f.d f.a f.b)
  | 0x04 => .ok (.xor f.d f.a f.b)
  | 0x05 => .ok (.andn f.d f.a f.b)
  | 0x06 => .ok (.shl f.d f.a f.b)
  | 0x07 => .ok (.shr f.d f.a f.b)
  | 0x08 => .ok (.sar f.d f.a f.b)
  | 0x09 => .ok (.rol f.d f.a f.b)
  | 0x0a => .ok (.min f.d f.a f.b)
  | 0x0b => .ok (.max f.d f.a f.b)
  | 0x0c => .ok (.minn f.d f.a f.b)
  | 0x0d => .ok (.maxn f.d f.a f.b)
  | _ => .error .function

/-- Major 0x02 (R50). -/
def parseMul (f : SWord) : Except DecodeError Instr :=
  match f.fn.toNat with
  | 0x00 => .ok (.mul f.d f.a f.b)
  | 0x01 => .ok (.mulh f.d f.a f.b)
  | 0x02 => .ok (.mulhn f.d f.a f.b)
  | 0x03 => .ok (.div f.d f.a f.b)
  | 0x04 => .ok (.divn f.d f.a f.b)
  | 0x05 => .ok (.rem f.d f.a f.b)
  | 0x06 => .ok (.remn f.d f.a f.b)
  | _ => .error .function

/-- Major 0x03 (R50). -/
def parseBits (f : SWord) : Except DecodeError Instr :=
  match f.fn.toNat with
  | 0x00 => .ok (.clz f.d f.a)
  | 0x01 => .ok (.ctz f.d f.a)
  | 0x02 => .ok (.popc f.d f.a)
  | 0x10 => .ok (.sextI8 f.d f.a)
  | 0x11 => .ok (.sextI16 f.d f.a)
  | 0x12 => .ok (.sextI32 f.d f.a)
  | 0x18 => .ok (.zextN8 f.d f.a)
  | 0x19 => .ok (.zextN16 f.d f.a)
  | 0x1a => .ok (.zextN32 f.d f.a)
  | _ => .error .function

/-- Major 0x28 (R50). -/
def parseSet (f : SWord) : Except DecodeError Instr :=
  match f.fn.toNat with
  | 0x00 => .ok (.seq f.d f.a f.b)
  | 0x01 => .ok (.sne f.d f.a f.b)
  | 0x02 => .ok (.slt f.d f.a f.b)
  | 0x03 => .ok (.sltn f.d f.a f.b)
  | 0x04 => .ok (.sle f.d f.a f.b)
  | 0x05 => .ok (.slen f.d f.a f.b)
  | _ => .error .function

/-- Major 0x3e (R50). -/
def parseJump (f : SWord) : Except DecodeError Instr :=
  match f.fn.toNat with
  | 0x00 => .ok (.calli f.a)
  | 0x01 => .ok .ret
  | 0x02 => .ok (.jmpi f.a)
  | _ => .error .function

/-- Major 0x51 (R50). -/
def parseMask (f : SWord) : Except DecodeError Instr :=
  match f.fn.toNat with
  | 0x00 => .ok .lsync
  | 0x01 => .ok (.dpop f.d)
  | 0x02 => .ok (.kpush (f.a.truncate 3))
  | 0x03 => .ok .kelse
  | 0x04 => .ok .kpop
  | 0x05 => .ok (.kmovKK (f.d.truncate 3) (f.a.truncate 3))
  | 0x06 => .ok (.kmovKX (f.d.truncate 3) f.a)
  | 0x07 => .ok (.kmovXK f.d (f.a.truncate 3))
  | 0x08 => .ok (.kand (f.d.truncate 3) (f.a.truncate 3) (f.b.truncate 3))
  | 0x09 => .ok (.kor (f.d.truncate 3) (f.a.truncate 3) (f.b.truncate 3))
  | 0x0a => .ok (.kxor (f.d.truncate 3) (f.a.truncate 3) (f.b.truncate 3))
  | 0x0b => .ok (.knot (f.d.truncate 3) (f.a.truncate 3))
  | 0x0c => .ok (.kpopc f.d (f.a.truncate 3))
  | _ => .error .function

/-- Major 0x52 (R50). -/
def parsePattern (f : SWord) : Except DecodeError Instr :=
  match f.fn.toNat with
  | 0x00 => .ok (.spset (f.d.truncate 3) f.a f.b)
  | 0x01 => .ok (.spgo (f.d.truncate 3))
  | 0x02 => .ok (.spstop (f.d.truncate 3))
  | _ => .error .function

/-- Major 0x54 (R50). -/
def parseCopy (f : SWord) : Except DecodeError Instr :=
  match f.fn.toNat with
  | 0x00 => .ok (.cpgo (f.a.truncate 3) f.b)
  | 0x01 => .ok (.cpseal f.d (f.a.truncate 3))
  | 0x02 => .ok (.cpwait f.d (f.a.truncate 3) f.b)
  | 0x03 => .ok (.cpstat f.d (f.a.truncate 3))
  | 0x04 => .ok (.cpabort f.d (f.a.truncate 3))
  | 0x05 => .ok (.cpflt f.d (f.a.truncate 3))
  | _ => .error .function

/-- Major 0x60 (R50). -/
def parseTspawn (f : SWord) : Except DecodeError Instr :=
  match f.fn.toNat with
  | 0x00 => .ok (.tspawn f.a f.b)
  | _ => .error .function

/-- Major 0x61 (R50). -/
def parseWatch (f : SWord) : Except DecodeError Instr :=
  match f.fn.toNat with
  | 0x00 => .ok (.watch f.d f.a)
  | 0x01 => .ok (.unwatch f.d f.a)
  | _ => .error .function

/-- Major 0x62 (R50). -/
def parseClaim (f : SWord) : Except DecodeError Instr :=
  match f.fn.toNat with
  | 0x00 => .ok (.claim f.d f.a)
  | 0x01 => .ok (.give f.d f.a)
  | _ => .error .function

/-- Major 0x63 (R50). -/
def parseRegroup (f : SWord) : Except DecodeError Instr :=
  match f.fn.toNat with
  | 0x00 => .ok (.regroup f.d f.a)
  | 0x01 => .ok .exit
  | _ => .error .function

/-- Major 0x64 (R50). -/
def parseBarrier (f : SWord) : Except DecodeError Instr :=
  match f.fn.toNat with
  | 0x00 => .ok (.barinit f.a f.b)
  | 0x01 => .ok (.bararr f.d f.a)
  | 0x02 => .ok (.barwait f.a f.b)
  | 0x03 => .ok (.barsync f.a)
  | 0x04 => .ok (.cbar (f.a.truncate 3))
  | _ => .error .function

/-- Major 0x65 (R50). -/
def parseQueue (f : SWord) : Except DecodeError Instr :=
  match f.fn.toNat with
  | 0x00 => .ok (.qinit (f.a.truncate 5) f.b)
  | 0x01 => .ok (.qpush (f.a.truncate 5) f.b)
  | 0x02 => .ok (.qpop f.d (f.a.truncate 5))
  | 0x03 => .ok (.qtry f.d (f.a.truncate 5))
  | _ => .error .function

/-- Major 0x66 (R50). -/
def parseNap (f : SWord) : Except DecodeError Instr :=
  match f.fn.toNat with
  | 0x00 => .ok (.nap f.a)
  | 0x01 => .ok .yield
  | _ => .error .function

/-- Major 0x68 (R50). -/
def parseRecovery (f : SWord) : Except DecodeError Instr :=
  match f.fn.toNat with
  | 0x00 => .ok (.ensure f.a f.b)
  | 0x01 => .ok .elseby
  | 0x02 => .ok .elseerr
  | 0x03 => .ok (.accept f.a)
  | 0x04 => .ok .rbfail
  | 0x05 => .ok (.cvjoin f.d f.a)
  | 0x06 => .ok .cvleave
  | 0x07 => .ok (.chkerr f.d)
  | _ => .error .function

/-- Major 0x73 (R50). -/
def parseSystem (f : SWord) : Except DecodeError Instr :=
  match f.fn.toNat with
  | 0x00 => .ok .rti
  | 0x01 => .ok .nop
  | 0x02 => .ok (.halt f.a)
  | 0x03 => .ok (.capq f.d f.a)
  | 0x04 => .ok (.chkmode f.a)
  | 0x05 => .ok (.clkmode f.d f.a)
  | 0x06 => .ok (.retire f.d f.a)
  | 0x07 => .ok (.ctxsv f.d f.a f.b)
  | 0x08 => .ok (.ctxld f.d f.a f.b)
  | 0x09 => .ok (.tlbflush f.a f.b)
  | 0x0a => .ok (.prgn f.d f.a)
  | _ => .error .function

/-- Major 0x4f (R50, R51): the selector fn[6:4], then fn[3:0]. -/
def parseOrder (f : SWord) : Except DecodeError Instr :=
  match (f.fn.extractLsb' 4 3).toNat with
  | 0 => withCode (scopeOf (f.fn.truncate 3)) (fun sc => .ok (.fence sc))
  | 1 => withCode (rcnOf (f.fn.truncate 3)) (fun op => .ok (.rcn op f.d f.a))
  | 2 => .ok (.rcnw f.d f.a f.b)
  | 3 => .ok (.vvrd f.d f.a)
  | 4 => .ok (.vvfold f.a)
  | 5 => .ok (.clean f.a f.b)
  | 6 => .ok (.inval f.a f.b)
  | _ => .error .function

/-- Major 0x53 (R218): the selector fn[6:3], then the path. -/
def parsePath (f : SWord) : Except DecodeError Instr :=
  match (f.fn.extractLsb' 3 4).toNat with
  | 0 => withCode (pathOf (f.fn.truncate 3)) (fun p => .ok (.wait p f.a))
  | 1 => withCode (pathOf (f.fn.truncate 3)) (fun p => .ok (.cntrd p f.d))
  | _ => .error .function

/-- Major 0x55 (R275, R276): the selector fn[6:4], then the operation or condition. -/
def parseBank (f : SWord) : Except DecodeError Instr :=
  match (f.fn.extractLsb' 4 3).toNat with
  | 0 => withCode (bankOf (f.fn.truncate 4)) (fun op => .ok (.bop op f.d f.a f.b))
  | 1 => withCode (bankOf (f.fn.truncate 4)) (fun op => .ok (.bred op f.d f.a f.b))
  | 2 => withCode (awaitOf (f.fn.truncate 3)) (fun cc => .ok (.await cc (f.fn.getLsbD 3) f.d f.a f.b))
  | _ => .error .function

/-- Reads the fields of a scalar word (R50). -/
def parseScalar (f : SWord) : Except DecodeError Instr :=
  match f.op.toNat with
  | 0x01 => parseAlu f
  | 0x02 => parseMul f
  | 0x03 => parseBits f
  | 0x20 => .ok (.addi f.d f.a f.imm13)
  | 0x21 => .ok (.andi f.d f.a f.imm13)
  | 0x22 => .ok (.ori f.d f.a f.imm13)
  | 0x23 => .ok (.xori f.d f.a f.imm13)
  | 0x24 => .ok (.shli f.d f.a (f.imm13.truncate 6))
  | 0x25 => .ok (.shri f.d f.a (f.imm13.truncate 6))
  | 0x26 => .ok (.sari f.d f.a (f.imm13.truncate 6))
  | 0x27 => .ok (.lih f.d f.a f.imm13)
  | 0x28 => parseSet f
  | 0x29 => .ok (.sel f.d (f.fn.truncate 6) f.a f.b)
  | 0x2a => .ok (.adr f.d f.a f.imm13)
  | 0x2b => .ok (.adrpc f.d f.imm13)
  | 0x30 => .ok (.b f.off25)
  | 0x31 => .ok (.call f.off25)
  | 0x32 => .ok (.beq f.d f.a f.imm13)
  | 0x33 => .ok (.bne f.d f.a f.imm13)
  | 0x34 => .ok (.blt f.d f.a f.imm13)
  | 0x35 => .ok (.bge f.d f.a f.imm13)
  | 0x36 => .ok (.bltn f.d f.a f.imm13)
  | 0x37 => .ok (.bgen f.d f.a f.imm13)
  | 0x38 => .ok (.bz f.d f.imm13)
  | 0x39 => .ok (.bnz f.d f.imm13)
  | 0x3a => .ok (.loop f.d f.imm13)
  | 0x3b => .ok (.bkany (f.d.truncate 3) f.imm13)
  | 0x3c => .ok (.bkall (f.d.truncate 3) f.imm13)
  | 0x3d => .ok (.bknone (f.d.truncate 3) f.imm13)
  | 0x3e => parseJump f
  | 0x40 => .ok (.ldx f.d f.a f.la f.imm9)
  | 0x41 => .ok (.ldxI32 f.d f.a f.la f.imm9)
  | 0x42 => .ok (.ldxs f.d f.a f.la f.imm9)
  | 0x43 => .ok (.ldxsI32 f.d f.a f.la f.imm9)
  | 0x44 => .ok (.stx f.d f.a f.imm9)
  | 0x45 => .ok (.stxB32 f.d f.a f.imm9)
  | 0x46 => .ok (.stxs f.d f.a f.imm9)
  | 0x47 => .ok (.stxsB32 f.d f.a f.imm9)
  | 0x48 => withCode (scopeOf (f.imm9.truncate 3)) (fun sc => .ok (.acq sc f.d f.a f.la))
  | 0x49 => withCode (scopeOf (f.imm9.truncate 3)) (fun sc => .ok (.rel sc f.d f.a))
  | 0x4a => withCode (atomOf (f.fn.extractLsb' 3 4)) (fun op =>
    withCode (scopeOf (f.fn.truncate 3)) (fun sc => .ok (.amo op sc f.d f.a f.b)))
  | 0x4b => .ok (.ldc f.d f.a f.la f.imm9)
  | 0x4c => .ok (.ldsib f.d f.a f.la (f.imm9.truncate 2))
  | 0x4d => withCode (sregOf f.imm13) (fun r => .ok (.mfs f.d r))
  | 0x4e => withCode (sregOf f.imm13) (fun r => .ok (.mts f.a r))
  | 0x4f => parseOrder f
  | 0x50 => .ok (.lrun f.d f.imm19)
  | 0x51 => parseMask f
  | 0x52 => parsePattern f
  | 0x53 => parsePath f
  | 0x54 => parseCopy f
  | 0x55 => parseBank f
  | 0x60 => parseTspawn f
  | 0x61 => parseWatch f
  | 0x62 => parseClaim f
  | 0x63 => parseRegroup f
  | 0x64 => parseBarrier f
  | 0x65 => parseQueue f
  | 0x66 => parseNap f
  | 0x68 => parseRecovery f
  | 0x70 => .ok (.trap (f.imm13.truncate 7))
  | 0x71 => .ok (.brk f.imm13)
  | 0x72 => .ok (.hcall f.imm13)
  | 0x73 => parseSystem f
  | _ => .error .opcode

/-- The scalar instruction of a word (R47, R50). -/
def decodeScalar (w : Word) : Except DecodeError Instr :=
  match parseScalar (SWord.ofWord w) with
  | .error e => .error e
  | .ok i =>
    match i.check with
    | some x => .error (.illFormed x)
    | none => if encScalar i = some (SWord.ofWord w) then .ok i else .error .reserved

/-! ### Lane words (R39) -/

/-- The fields of a lane word. -/
structure LWord where
  op : BitVec 12
  vd : BitVec 8
  sa : BitVec 10
  sb : BitVec 10
  sc : BitVec 10
  km : BitVec 4
  la : BitVec 4
  ty : BitVec 6
  md : BitVec 12
  im : BitVec 20
  deriving DecidableEq, Repr, Inhabited

/-- The word of fields. -/
def LWord.word (f : LWord) : BitVec 96 :=
  f.op ++ f.vd ++ f.sa ++ f.sb ++ f.sc ++ f.km ++ f.la ++ f.ty ++ f.md ++ f.im

/-- The fields of a word. -/
def LWord.ofWord (w : BitVec 96) : LWord :=
  { op := w.extractLsb' 84 12, vd := w.extractLsb' 76 8, sa := w.extractLsb' 66 10, sb := w.extractLsb' 56 10,
    sc := w.extractLsb' 46 10, km := w.extractLsb' 42 4, la := w.extractLsb' 38 4, ty := w.extractLsb' 32 6,
    md := w.extractLsb' 20 12, im := w.extractLsb' 0 20 }

/-- A source field (R40). -/
def Src.bits : Src → BitVec 10
  | .v i => (0 : BitVec 2) ++ i
  | .q i => (1 : BitVec 2) ++ i.zeroExtend 8
  | .x i => (2 : BitVec 2) ++ i.zeroExtend 8
  | .lid => 0x240
  | .imm => 0x300
def srcOf (f : BitVec 10) : Src :=
  match (f.extractLsb' 8 2).toNat with
  | 0 => .v (f.truncate 8)
  | 1 => .q (f.truncate 3)
  | 2 => if f.truncate 8 = (0x40 : BitVec 8) then .lid else .x (f.truncate 6)
  | _ => .imm

/-- The km field (R44). -/
def Km.bits : Km → BitVec 4
  | .all => 0
  | .on k => (0 : BitVec 1) ++ k
  | .off k => (1 : BitVec 1) ++ k
def kmOf (f : BitVec 4) : Km :=
  if f.getLsbD 3 then .off (f.truncate 3) else if f.truncate 3 = (0 : BitVec 3) then .all else .on (f.truncate 3)

/-- The common fields of a lane word. -/
def LWord.common (f : LWord) : LaneOp :=
  { d := f.vd, a := srcOf f.sa, b := srcOf f.sb, c := srcOf f.sc, km := kmOf f.km, la := f.la, imm := f.im }

/-- A lane word of an opcode, a type, an md field and the common fields. -/
def fL (op : BitVec 12) (t : Ty) (md : BitVec 12) (o : LaneOp) : LWord :=
  { op := op, vd := o.d, sa := o.a.bits, sb := o.b.bits, sc := o.c.bits, km := o.km.bits, la := o.la, ty := t.code,
    md := md, im := o.imm }

/-- One bit. -/
def b1 (b : Bool) : BitVec 1 := BitVec.ofBool b

/-- The md layouts, named by the bits of the word that they use. -/
def md23 (x : Bool) : BitVec 12 := (0 : BitVec 8) ++ b1 x ++ (0 : BitVec 3)
def mdRm (rm : Rm) : BitVec 12 := (0 : BitVec 9) ++ rm.code
def mdCc (c : BitVec 4) : BitVec 12 := (0 : BitVec 4) ++ c ++ (0 : BitVec 4)
def mdSel (c : BitVec 3) : BitVec 12 := (0 : BitVec 5) ++ c ++ (0 : BitVec 4)
def md2 (c : BitVec 2) : BitVec 12 := (0 : BitVec 6) ++ c ++ (0 : BitVec 4)
def md24 (x : Bool) : BitVec 12 := (0 : BitVec 7) ++ b1 x ++ (0 : BitVec 4)
def mdConv (t : Ty) (es : BitVec 2) (x : Bool) (r : BitVec 3) : BitVec 12 := t.code ++ es ++ b1 x ++ r
def mdRed (op : RedOp) (x : Bool) : BitVec 12 := (0 : BitVec 4) ++ op.code ++ b1 x ++ (0 : BitVec 4)
def mdMma (t : BitVec 6) (fix : Bool) (c : BitVec 3) : BitVec 12 := t ++ b1 fix ++ c ++ (0 : BitVec 2)
def mdFrag (rb k64 : Bool) : BitVec 12 := (0 : BitVec 7) ++ b1 rb ++ b1 k64 ++ (0 : BitVec 3)
def mdSacc (p : BitVec 7) (rb cb : BitVec 2) : BitVec 12 := p ++ rb ++ cb ++ (0 : BitVec 1)
def mdFx (p : BitVec 7) (clr : Bool) (r : BitVec 3) : BitVec 12 := p ++ b1 clr ++ (0 : BitVec 1) ++ r
def mdNar (t : Ty) (sel : BitVec 2) (r : BitVec 3) : BitVec 12 := t.code ++ sel ++ (0 : BitVec 1) ++ r
def mdMem (c : BitVec 4) (f : AddrForm) (x : Bool) (r : BitVec 3) : BitVec 12 :=
  c ++ f.sc ++ b1 f.un ++ b1 x ++ r

/-- A conversion's word: imm20 holds the destination element (R132, R137). -/
def fConv (op : BitVec 12) (td ts : Ty) (es ed : BitVec 2) (x : Bool) (r : BitVec 3) (o : LaneOp) : LWord :=
  { fL op ts (mdConv td es x r) o with im := ed.zeroExtend 20 }

/-- The fields of a lane instruction (R53); `none` for the other rows. -/
def encLane : Instr → Option LWord
  | .vadd t s o => some (fL 0x001 t (md23 s) o)
  | .vsub t s o => some (fL 0x002 t (md23 s) o)
  | .vmul t o => some (fL 0x003 t 0 o)
  | .vmulh t o => some (fL 0x004 t 0 o)
  | .vmad t s o => some (fL 0x005 t (md23 s) o)
  | .vand o => some (fL 0x008 .b32 0 o)
  | .vor o => some (fL 0x009 .b32 0 o)
  | .vxor o => some (fL 0x00a .b32 0 o)
  | .vandn o => some (fL 0x00b .b32 0 o)
  | .vshl t o => some (fL 0x00c t 0 o)
  | .vshr t o => some (fL 0x00d t 0 o)
  | .vsar t o => some (fL 0x00e t 0 o)
  | .vmin t o => some (fL 0x010 t 0 o)
  | .vmax t o => some (fL 0x011 t 0 o)
  | .vabs t s o => some (fL 0x012 t (md23 s) o)
  | .vclz o => some (fL 0x013 .b32 0 o)
  | .vpopc o => some (fL 0x014 .b32 0 o)
  | .vbfx t o => some (fL 0x018 t 0 o)
  | .vbfi o => some (fL 0x019 .b32 0 o)
  | .vsel k o => some (fL 0x01a .b32 (mdSel k) o)
  | .vcmp cc t o => some (fL 0x01b t (mdCc cc.code) o)
  | .vaddmin t s o => some (fL 0x020 t (md23 s) o)
  | .vaddmax t s o => some (fL 0x021 t (md23 s) o)
  | .vsad t o => some (fL 0x022 t 0 o)
  | .vcvt td ts s ed es o => some (fConv 0x030 td ts es ed s 0 o)
  | .fadd t rm o => some (fL 0x100 t (mdRm rm) o)
  | .fsub t rm o => some (fL 0x101 t (mdRm rm) o)
  | .fmul t rm o => some (fL 0x102 t (mdRm rm) o)
  | .ffma t rm o => some (fL 0x103 t (mdRm rm) o)
  | .fmin t o => some (fL 0x104 t 0 o)
  | .fmax t o => some (fL 0x105 t 0 o)
  | .fcmp cc o => some (fL 0x106 .f32 (mdCc cc.code) o)
  | .frcp t o => some (fL 0x110 t 0 o)
  | .frsq t o => some (fL 0x111 t 0 o)
  | .fsqrt t o => some (fL 0x112 t 0 o)
  | .fexp2 t o => some (fL 0x113 t 0 o)
  | .flog2 t o => some (fL 0x114 t 0 o)
  | .fcvt td ts rm sf ed es o => some (fConv 0x120 td ts es ed sf rm.code o)
  | .fint t rm o => some (fL 0x121 t (mdRm rm) o)
  | .vshfl m o => some (fL 0x200 .b32 (md2 m.code) o)
  | .vshift dn o => some (fL 0x201 .b32 (md24 dn) o)
  | .vrot dn o => some (fL 0x202 .b32 (md24 dn) o)
  | .vbcast o => some (fL 0x203 .b32 0 o)
  | .voteK o => some (fL 0x210 .b32 (mdSel 0) o)
  | .voteBallot o => some (fL 0x210 .b32 (mdSel 1) o)
  | .voteAny o => some (fL 0x210 .b32 (mdSel 2) o)
  | .voteAll o => some (fL 0x210 .b32 (mdSel 3) o)
  | .voteCount o => some (fL 0x210 .b32 (mdSel 4) o)
  | .vred op t o => some (fL 0x211 t (mdRed op false) o)
  | .vredV op t o => some (fL 0x211 t (mdRed op true) o)
  | .vscan op t ex o => some (fL 0x212 t (mdRed op ex) o)
  | .mmaF tb ta fix c o => some (fL 0x280 ta (mdMma tb.code fix c) o)
  | .mmaH ta fix c o => some (fL 0x281 ta (mdMma 0 fix c) o)
  | .mmaI tb ta fix c o => some (fL 0x282 ta (mdMma tb.code fix c) o)
  | .mzero o => some (fL 0x288 .none 0 o)
  | .mfrag rb t k64 o => some (fL 0x289 t (mdFrag rb k64) o)
  | .mtr rb t k64 o => some (fL 0x28a t (mdFrag rb k64) o)
  | .maccLd o => some (fL 0x28b .b32 (md2 0) o)
  | .maccSt o => some (fL 0x28b .b32 (md2 1) o)
  | .maccAdd t o => some (fL 0x28b t (md2 2) o)
  | .crt o => some (fL 0x300 .rw (md2 0) o)
  | .crtAcc clr o => some (fL 0x300 .rw (md2 (if clr then 2 else 1)) o)
  | .rwadd o => some (fL 0x301 .rw 0 o)
  | .rwfrom o => some (fL 0x302 .i32 (mdNar .rw 0 0) o)
  | .sacc p rb cb o => some (fL 0x308 .i32 (mdSacc p rb cb) o)
  | .fxzero o => some (fL 0x310 .fx 0 o)
  | .fxadd t p o => some (fL 0x311 t (mdFx p false 0) o)
  | .fxcvt t p clr rm o => some (fL 0x312 t (mdFx p clr rm.code) o)
  | .sbmax t oct o => some (fL 0x318 t (md24 oct) o)
  | .sbcvt t sel o => some (fL 0x319 .f32 (mdNar t sel 0) o)
  | .qnt t sel rm o => some (fL 0x320 .f32 (mdNar t sel rm.code) o)
  | .dqnt t sel o => some (fL 0x321 t (mdNar .f32 sel 0) o)
  | .olx o => some (fL 0x322 .f32 0 o)
  | .vld t f o => some (fL 0x380 t (mdMem 0 f false 0) o)
  | .vst t f o => some (fL 0x381 t (mdMem 0 f false 0) o)
  | .vlds t f o => some (fL 0x382 t (mdMem 0 f false 0) o)
  | .vsts t f o => some (fL 0x383 t (mdMem 0 f false 0) o)
  | .vldr c sp f o => some (fL 0x384 .b32 (mdMem (c.zeroExtend 4) f sp 0) o)
  | .vstr c sp f o => some (fL 0x385 .b32 (mdMem (c.zeroExtend 4) f sp 0) o)
  | .vpf l2 f o => some (fL 0x388 .none (mdMem 0 f l2 0) o)
  | .vfence sc o => some (fL 0x400 .none ((0 : BitVec 9) ++ sc.code) o)
  | .vamo op sc t f o => some (fL 0x401 t (mdMem op.code f false sc.code) o)
  | .vldc f o => some (fL 0x408 .b32 (mdMem 0 f false 0) o)
  | .vldcDq f o => some (fL 0x408 .b32 (mdMem 0 f true 0) o)
  | .spawn o => some (fL 0x480 .none 0 o)
  | _ => none

/-- Bits `[lo + n - 1 : lo]` of the lane word's md field, numbered as in the word. -/
def LWord.m (f : LWord) (lo n : Nat) : BitVec n := f.md.extractLsb' (lo - 20) n

/-- The address form of a lane memory instruction (R219). -/
def LWord.form (f : LWord) : AddrForm := { sc := f.m 25 3, un := f.md.getLsbD 4 }

/-- Bit 23 and bit 24 of the word. -/
def LWord.b23 (f : LWord) : Bool := f.md.getLsbD 3
def LWord.b24 (f : LWord) : Bool := f.md.getLsbD 4

/-- The common fields of a conversion, whose imm20 is no immediate. -/
def LWord.convOp (f : LWord) : LaneOp := { f.common with imm := 0 }

/-- op12 0x000 to 0x0ff (R129 to R132). -/
def parseInt (f : LWord) (t : Ty) : Except DecodeError Instr :=
  let o := f.common
  match f.op.toNat with
  | 0x001 => .ok (.vadd t f.b23 o)
  | 0x002 => .ok (.vsub t f.b23 o)
  | 0x003 => .ok (.vmul t o)
  | 0x004 => .ok (.vmulh t o)
  | 0x005 => .ok (.vmad t f.b23 o)
  | 0x008 => .ok (.vand o)
  | 0x009 => .ok (.vor o)
  | 0x00a => .ok (.vxor o)
  | 0x00b => .ok (.vandn o)
  | 0x00c => .ok (.vshl t o)
  | 0x00d => .ok (.vshr t o)
  | 0x00e => .ok (.vsar t o)
  | 0x010 => .ok (.vmin t o)
  | 0x011 => .ok (.vmax t o)
  | 0x012 => .ok (.vabs t f.b23 o)
  | 0x013 => .ok (.vclz o)
  | 0x014 => .ok (.vpopc o)
  | 0x018 => .ok (.vbfx t o)
  | 0x019 => .ok (.vbfi o)
  | 0x01a => .ok (.vsel (f.m 24 3) o)
  | 0x01b => withCode (ccOf (f.m 24 4)) (fun cc => .ok (.vcmp cc t o))
  | 0x020 => .ok (.vaddmin t f.b23 o)
  | 0x021 => .ok (.vaddmax t f.b23 o)
  | 0x022 => .ok (.vsad t o)
  | 0x030 => withTy (f.m 26 6) (fun td => .ok (.vcvt td t f.b23 (f.im.truncate 2) (f.m 24 2) f.convOp))
  | _ => .error .opcode

/-- op12 0x100 to 0x1ff (R133 to R139). -/
def parseFloat (f : LWord) (t : Ty) : Except DecodeError Instr :=
  let o := f.common
  let rm := rmOf (f.m 20 3)
  match f.op.toNat with
  | 0x100 => withCode rm (fun rm => .ok (.fadd t rm o))
  | 0x101 => withCode rm (fun rm => .ok (.fsub t rm o))
  | 0x102 => withCode rm (fun rm => .ok (.fmul t rm o))
  | 0x103 => withCode rm (fun rm => .ok (.ffma t rm o))
  | 0x104 => .ok (.fmin t o)
  | 0x105 => .ok (.fmax t o)
  | 0x106 => withCode (fccOf (f.m 24 4)) (fun cc => .ok (.fcmp cc o))
  | 0x110 => .ok (.frcp t o)
  | 0x111 => .ok (.frsq t o)
  | 0x112 => .ok (.fsqrt t o)
  | 0x113 => .ok (.fexp2 t o)
  | 0x114 => .ok (.flog2 t o)
  | 0x120 => withTy (f.m 26 6) (fun td => withCode rm (fun rm =>
      .ok (.fcvt td t rm f.b23 (f.im.truncate 2) (f.m 24 2) f.convOp)))
  | 0x121 => withCode rm (fun rm => .ok (.fint t rm o))
  | _ => .error .opcode

/-- op12 0x210, by mode (R144). -/
def parseVote (f : LWord) : Except DecodeError Instr :=
  let o := f.common
  match (f.m 24 3 : BitVec 3).toNat with
  | 0 => .ok (.voteK o)
  | 1 => .ok (.voteBallot o)
  | 2 => .ok (.voteAny o)
  | 3 => .ok (.voteAll o)
  | 4 => .ok (.voteCount o)
  | _ => .error .code

/-- op12 0x200 to 0x27f (R141 to R145). -/
def parseMove (f : LWord) (t : Ty) : Except DecodeError Instr :=
  let o := f.common
  match f.op.toNat with
  | 0x200 => withCode (shOf (f.m 24 2)) (fun m => .ok (.vshfl m o))
  | 0x201 => .ok (.vshift f.b24 o)
  | 0x202 => .ok (.vrot f.b24 o)
  | 0x203 => .ok (.vbcast o)
  | 0x210 => parseVote f
  | 0x211 => withCode (redOf (f.m 25 3)) (fun op => .ok (if f.b24 then .vredV op t o else .vred op t o))
  | 0x212 => withCode (redOf (f.m 25 3)) (fun op => .ok (.vscan op t f.b24 o))
  | _ => .error .opcode

/-- op12 0x28b, by operation (R169). -/
def parseMacc (f : LWord) (t : Ty) : Except DecodeError Instr :=
  let o := f.common
  match (f.m 24 2 : BitVec 2).toNat with
  | 0 => .ok (.maccLd o)
  | 1 => .ok (.maccSt o)
  | 2 => .ok (.maccAdd t o)
  | _ => .error .code

/-- op12 0x280 to 0x2ff (R166 to R169). -/
def parseMatrix (f : LWord) (t : Ty) : Except DecodeError Instr :=
  let o := f.common
  match f.op.toNat with
  | 0x280 => withTy (f.m 26 6) (fun tb => .ok (.mmaF tb t (f.md.getLsbD 5) (f.m 22 3) o))
  | 0x281 => .ok (.mmaH t (f.md.getLsbD 5) (f.m 22 3) o)
  | 0x282 => withTy (f.m 26 6) (fun tb => .ok (.mmaI tb t (f.md.getLsbD 5) (f.m 22 3) o))
  | 0x288 => .ok (.mzero o)
  | 0x289 => .ok (.mfrag f.b24 t f.b23 o)
  | 0x28a => .ok (.mtr f.b24 t f.b23 o)
  | 0x28b => parseMacc f t
  | _ => .error .opcode

/-- op12 0x300, by form (R189). -/
def parseCrt (f : LWord) : Except DecodeError Instr :=
  let o := f.common
  match (f.m 24 2 : BitVec 2).toNat with
  | 0 => .ok (.crt o)
  | 1 => .ok (.crtAcc false o)
  | 2 => .ok (.crtAcc true o)
  | _ => .error .code

/-- op12 0x300 to 0x37f (R189 to R199). -/
def parseNarrow (f : LWord) (t : Ty) : Except DecodeError Instr :=
  let o := f.common
  match f.op.toNat with
  | 0x300 => parseCrt f
  | 0x301 => .ok (.rwadd o)
  | 0x302 => .ok (.rwfrom o)
  | 0x308 => .ok (.sacc (f.m 25 7) (f.m 23 2) (f.m 21 2) o)
  | 0x310 => .ok (.fxzero o)
  | 0x311 => .ok (.fxadd t (f.m 25 7) o)
  | 0x312 => withCode (rmOf (f.m 20 3)) (fun rm => .ok (.fxcvt t (f.m 25 7) f.b24 rm o))
  | 0x318 => .ok (.sbmax t f.b24 o)
  | 0x319 => withTy (f.m 26 6) (fun d => .ok (.sbcvt d (f.m 24 2) o))
  | 0x320 => withTy (f.m 26 6) (fun d => withCode (rmOf (f.m 20 3)) (fun rm => .ok (.qnt d (f.m 24 2) rm o)))
  | 0x321 => .ok (.dqnt t (f.m 24 2) o)
  | 0x322 => .ok (.olx o)
  | _ => .error .opcode

/-- op12 0x380 to 0x4ff (R219, R272, R274, R299, R358). -/
def parseMem (f : LWord) (t : Ty) : Except DecodeError Instr :=
  let o := f.common
  match f.op.toNat with
  | 0x380 => .ok (.vld t f.form o)
  | 0x381 => .ok (.vst t f.form o)
  | 0x382 => .ok (.vlds t f.form o)
  | 0x383 => .ok (.vsts t f.form o)
  | 0x384 => .ok (.vldr (f.m 28 3) f.b23 f.form o)
  | 0x385 => .ok (.vstr (f.m 28 3) f.b23 f.form o)
  | 0x388 => .ok (.vpf f.b23 f.form o)
  | 0x400 => withCode (scopeOf (f.m 20 3)) (fun sc => .ok (.vfence sc o))
  | 0x401 => withCode (atomOf (f.m 28 4)) (fun op => withCode (scopeOf (f.m 20 3)) (fun sc =>
      .ok (.vamo op sc t f.form o)))
  | 0x408 => .ok (if f.b23 then .vldcDq f.form o else .vldc f.form o)
  | 0x480 => .ok (.spawn o)
  | _ => .error .opcode

/-- Reads the fields of a lane word, by class (R53). -/
def parseLane (f : LWord) : Except DecodeError Instr :=
  withTy f.ty (fun t =>
    match f.op.toNat / 128 with
    | 0 => parseInt f t
    | 2 => parseFloat f t
    | 4 => parseMove f t
    | 5 => parseMatrix f t
    | 6 => parseNarrow f t
    | 7 => parseMem f t
    | 8 => parseMem f t
    | 9 => parseMem f t
    | _ => .error .opcode)

/-- The lane instruction of a word (R47, R53). -/
def decodeLane (w : BitVec 96) : Except DecodeError Instr :=
  match parseLane (LWord.ofWord w) with
  | .error e => .error e
  | .ok i =>
    match i.check with
    | some x => .error (.illFormed x)
    | none => if encLane i = some (LWord.ofWord w) then .ok i else .error .reserved

/-! ### Bytes -/

/-- The two instruction streams (R22). -/
inductive Stream where
  | scalar | lane
  deriving DecidableEq, Repr, Inhabited

/-- A little-endian word of four bytes (R5). -/
def leWord (a b c d : Byte) : Word := d ++ c ++ b ++ a

/-- The instruction at the head of a stream's bytes, with the bytes after it (R37, R39). -/
def decode : Stream → List Byte → Except DecodeError (Instr × List Byte)
  | .scalar, a :: b :: c :: d :: r => (decodeScalar (leWord a b c d)).map (fun i => (i, r))
  | .lane, a :: b :: c :: d :: e :: f :: g :: h :: i :: j :: k :: l :: r =>
    (decodeLane (leWord i j k l ++ leWord e f g h ++ leWord a b c d)).map (fun i => (i, r))
  | _, _ => .error .short

/-- The words of an instruction, the first at the lowest address (R37, R39); none for a row without an encoding. -/
def encode (i : Instr) : List Word :=
  match encScalar i with
  | some f => [f.word]
  | none =>
    match encLane i with
    | some f => [f.word.extractLsb' 0 32, f.word.extractLsb' 32 32, f.word.extractLsb' 64 32]
    | none => []

/-- The bytes of a word, lowest address first (R5). -/
def wordBytes (w : Word) : List Byte :=
  [w.extractLsb' 0 8, w.extractLsb' 8 8, w.extractLsb' 16 8, w.extractLsb' 24 8]

/-- The bytes of an instruction, lowest address first; none for a row without an encoding. -/
def Instr.bytes (i : Instr) : List Byte := (encode i).flatMap wordBytes

/-- The stream of an instruction; `none` for a row without an encoding. -/
def Instr.stream (i : Instr) : Option Stream :=
  if (encScalar i).isSome then some .scalar else if (encLane i).isSome then some .lane else none

/-- The `n` little-endian bytes of a number. -/
def numBytes (w : Nat) : Nat → List Byte
  | 0 => []
  | n + 1 => BitVec.ofNat 8 w :: numBytes (w / 256) n

/-- The instruction whose bits are `w`, numbered from the least significant bit of its first word: a scalar word has
32 bits, a lane word 96. -/
def decodeTableWord (nbits w : Nat) : Option Instr :=
  match decode (if nbits = 32 then .scalar else .lane) (numBytes w (if nbits = 32 then 4 else 12)) with
  | .ok (i, _) => if nbits = 32 || nbits = 96 then some i else none
  | .error _ => none

end Sys2Proof
end

