-- ==== Sys2Proof/Machine/Bits.lean ====
section
/-! DEFINITION. Bit-field, sign, and byte-order helpers of the manual (R5, R8, R82). -/

namespace Sys2Proof.Machine

open Sys2Proof

/-- Bits `[lo + n - 1 : lo]` of `w`. -/
def field (w lo n : Nat) : Nat := w / 2 ^ lo % 2 ^ n

/-- Bit `i` of `w`. -/
def bitOf (w i : Nat) : Bool := decide (w / 2 ^ i % 2 = 1)

/-- Pattern `p` of `n` bits read as a two's-complement integer (R82). -/
def sgn (n p : Nat) : Int :=
  if p % 2 ^ n < 2 ^ (n - 1) then (p % 2 ^ n : Nat) else (p % 2 ^ n : Nat) - (2 ^ n : Nat)

/-- The `n`-bit pattern of integer `v`, modulo 2^n (R82). -/
def wrapN (n : Nat) (v : Int) : Nat := (v % (2 ^ n : Nat)).toNat

/-- 64-bit wrap (R82). -/
def w64 (v : Int) : DWord := BitVec.ofInt 64 v

/-- 32-bit wrap. -/
def w32 (v : Int) : Word := BitVec.ofInt 32 v

/-- Number of one bits of the low `n` bits of `w`. -/
def popCount (w : Nat) : Nat → Nat
  | 0 => 0
  | n + 1 => w % 2 + popCount (w / 2) n

/-- Number of significant bits of `w` (0 for 0), at most `fuel`. -/
def bitLen (w : Nat) : Nat → Nat
  | 0 => 0
  | n + 1 => if w = 0 then 0 else 1 + bitLen (w / 2) n

/-- Number of trailing zero bits of `w`, at most `fuel`. -/
def trailZ (w : Nat) : Nat → Nat
  | 0 => 0
  | n + 1 => if w % 2 = 1 then 0 else 1 + trailZ (w / 2) n

/-- The `n` little-endian bytes of `v` (R5). -/
def bytesOf (v : Nat) : Nat → List Byte
  | 0 => []
  | n + 1 => BitVec.ofNat 8 v :: bytesOf (v / 256) n

/-- The little-endian value of bytes (R5). -/
def ofBytes : List Byte → Nat
  | [] => 0
  | b :: r => b.toNat + 256 * ofBytes r

/-- The numbers of the set bits of `m` among the low `n`, rising. -/
def bitsSet (m n : Nat) : List Nat := (List.range n).filter (fun i => bitOf m i)

/-- The mask whose set bits are the members of `l`. -/
def maskOf (l : List Nat) : DWord := l.foldl (fun m i => m ||| ((1 : DWord) <<< i)) 0

/-- Smallest multiple of `m` not below `n`. -/
def roundUp (n m : Nat) : Nat := n + (m - n % m) % m

/-- `⌊log₂ n⌋`, 0 for 0. -/
def log2 (n : Nat) : Nat := Nat.log2 n

end Sys2Proof.Machine
end

