-- ==== Sys2Proof/Machine/Floats.lean ====
section
/-! DEFINITION. The number formats and the rounding helpers: elements, integer saturation, floating-point values,
`round_mode` (R123 to R127). -/

namespace Sys2Proof.Machine

open Sys2Proof

/-! ### Integer elements (R123) -/

/-- Bits of an element of a type; 32 for types that fill a register. -/
def tyBits : Ty → Nat
  | .i16 => 16 | .n16 => 16 | .f16 => 16 | .bf16 => 16
  | .i8 => 8 | .n8 => 8 | .e4m3 => 8 | .e5m2 => 8
  | .i4 => 4 | .i2 => 2
  | _ => 32

/-- Whether an element of the type is read as two's complement. -/
def tySigned : Ty → Bool
  | .i32 => true | .i16 => true | .i8 => true | .i4 => true | .i2 => true
  | _ => false

/-- `nel(t)` (R123). -/
def nel (t : Ty) : Nat := 32 / tyBits t

/-- The pattern of element `e` of width `w`. -/
def elN (w : Nat) (p : Word) (e : Nat) : Nat := field p.toNat (w * e) w

/-- `el(p, t, e)` (R123). -/
def el (t : Ty) (p : Word) (e : Nat) : Int :=
  if tySigned t then sgn (tyBits t) (elN (tyBits t) p e) else (elN (tyBits t) p e : Nat)

/-- `put` on patterns: element `e` of width `w` replaced. -/
def putN (w : Nat) (p : Word) (e x : Nat) : Word :=
  BitVec.ofNat 32 (p.toNat - elN w p e * 2 ^ (w * e) + (x % 2 ^ w) * 2 ^ (w * e))

/-- `put(p, t, e, x)` (R123). -/
def put32 (t : Ty) (p : Word) (e : Nat) (x : Int) : Word := putN (tyBits t) p e (wrapN (tyBits t) x)

/-- A register built element by element. -/
def mapEl (t : Ty) (f : Nat → Int) : Word := (List.range (nel t)).foldl (fun p e => put32 t p e (f e)) 0

/-- A register built from element patterns. -/
def mapPat (t : Ty) (f : Nat → Nat) : Word := (List.range (nel t)).foldl (fun p e => putN (tyBits t) p e (f e)) 0

/-- Least value of an integer type. -/
def tyMin (t : Ty) : Int := if tySigned t then -(2 ^ (tyBits t - 1) : Nat) else 0

/-- Greatest value of an integer type. -/
def tyMax (t : Ty) : Int := if tySigned t then (2 ^ (tyBits t - 1) : Nat) - 1 else (2 ^ tyBits t : Nat) - 1

/-- `sat(x, t)` (R126). -/
def satT (t : Ty) (x : Int) : Int := max (tyMin t) (min (tyMax t) x)

/-! ### Floating-point values (R124, R125) -/

/-- A floating-point format: fraction bits, bias, the largest finite pattern without its sign, whether it has
infinities, total bits, and its canonical NaN. -/
structure Fmt where
  frac : Nat
  bias : Nat
  maxP : Nat
  inf  : Bool
  bits : Nat
  nan  : Nat
  deriving DecidableEq, Repr, Inhabited

/-- R124, R125. -/
def fp32 : Fmt := { frac := 23, bias := 127, maxP := 0x7f7fffff, inf := true, bits := 32, nan := 0x7fc00000 }
def fp16 : Fmt := { frac := 10, bias := 15, maxP := 0x7bff, inf := true, bits := 16, nan := 0x7e00 }
def bf16 : Fmt := { frac := 7, bias := 127, maxP := 0x7f7f, inf := true, bits := 16, nan := 0x7fc0 }
def e4m3 : Fmt := { frac := 3, bias := 7, maxP := 0x7e, inf := false, bits := 8, nan := 0x7f }
def e5m2 : Fmt := { frac := 2, bias := 15, maxP := 0x7b, inf := true, bits := 8, nan := 0x7e }

/-- The format of a float type. -/
def fmtOf : Ty → Fmt
  | .f16 => fp16
  | .bf16 => bf16
  | .e4m3 => e4m3
  | .e5m2 => e5m2
  | _ => fp32

/-- Whether a type is a float type. -/
def isFloat : Ty → Bool
  | .f32 => true | .f16 => true | .bf16 => true | .e4m3 => true | .e5m2 => true
  | _ => false

/-- A value of a format: NaN, an infinity, or (−1)^neg × m × 2^e, which keeps the sign of zero. -/
inductive Fl where
  | nan
  | inf (neg : Bool)
  | fin (neg : Bool) (m : Nat) (e : Int)
  deriving DecidableEq, Repr, Inhabited

/-- The exponent of the format's least subnormal. -/
def Fmt.emin (F : Fmt) : Int := 1 - (F.bias : Int) - (F.frac : Int)

/-- `fval(p, F)` (R124). -/
def fval (F : Fmt) (p : Nat) : Fl :=
  let neg := bitOf p (F.bits - 1)
  let mag := p % 2 ^ (F.bits - 1)
  let ex := mag / 2 ^ F.frac
  let fr := mag % 2 ^ F.frac
  if mag ≤ F.maxP then
    (if ex = 0 then .fin neg fr F.emin else .fin neg (2 ^ F.frac + fr) (F.emin + (ex : Int) - 1))
  else if F.inf && fr = 0 then .inf neg
  else .nan

/-- The sign bit of a pattern. -/
def signP (F : Fmt) (neg : Bool) : Nat := if neg then 2 ^ (F.bits - 1) else 0

/-- The pattern of an infinity. -/
def infP (F : Fmt) (neg : Bool) : Nat := signP F neg + (F.maxP / 2 ^ F.frac + 1) * 2 ^ F.frac

/-! ### Rounding (R126) -/

/-- Whether a magnitude with integer part `q` and remainder `r` of `d` is rounded away from zero. -/
def roundsUp (rm : Rm) (neg : Bool) (q r d : Nat) : Bool :=
  match rm with
  | .ne => decide (d < 2 * r) || (decide (2 * r = d) && q % 2 = 1)
  | .rz => false
  | .ru => !neg && decide (0 < r)
  | .rd => neg && decide (0 < r)
  | .ra => decide (d ≤ 2 * r)

/-- The integer nearest to `n / d` by a rounding code, in magnitude. -/
def roundDiv (rm : Rm) (neg : Bool) (n d : Nat) : Nat :=
  n / d + (if roundsUp rm neg (n / d) (n % d) d then 1 else 0)

/-- The exponent of the leading bit of `n / d`. -/
def leadExp (n d : Nat) : Int :=
  let k : Int := (Nat.log2 n : Int) - (Nat.log2 d : Int)
  let ge := if 0 ≤ k then decide (d * 2 ^ k.toNat ≤ n) else decide (d ≤ n * 2 ^ (-k).toNat)
  if ge then k else k - 1

/-- The result of an overflow (R126). -/
def overflowP (F : Fmt) (rm : Rm) (sf neg : Bool) : Nat :=
  if F.bits = 8 then (if sf then signP F neg + F.maxP else F.nan)
  else
    match rm with
    | .ne => infP F neg
    | .ra => infP F neg
    | .rz => signP F neg + F.maxP
    | .ru => if neg then signP F neg + F.maxP else infP F neg
    | .rd => if neg then infP F neg else signP F neg + F.maxP

/-- `round_mode` of the real (−1)^neg × (n / d) × 2^e, n and d positive (R126). Magnitudes far outside the format
are brought near its limits first, which changes no result. -/
def roundPos (F : Fmt) (rm : Rm) (sf neg : Bool) (n d : Nat) (e : Int) : Nat :=
  let top := leadExp n d + e
  if F.emin + 2 ^ 12 < top then overflowP F rm sf neg
  else
    let (n, d, e) := if top < F.emin - 4 then (1, 1, F.emin - 4) else (n, d, e)
    let ex := max F.emin (leadExp n d + e - F.frac)
    let sh := e - ex
    let q := if 0 ≤ sh then roundDiv rm neg (n * 2 ^ sh.toNat) d else roundDiv rm neg n (d * 2 ^ (-sh).toNat)
    let p := (ex - F.emin).toNat * 2 ^ F.frac + q
    if F.maxP < p then overflowP F rm sf neg else signP F neg + p

/-- `round_mode(z, F, rm, sf)` (R126). -/
def roundMode (F : Fmt) (rm : Rm) (sf : Bool) : Fl → Nat
  | .nan => F.nan
  | .inf neg => if F.inf then infP F neg else if sf then signP F neg + F.maxP else F.nan
  | .fin neg m e => if m = 0 then signP F neg else roundPos F rm sf neg m 1 e

/-- `round_ne(z, F)` (R126). -/
def roundNe (F : Fmt) (z : Fl) : Nat := roundMode F .ne false z

/-! ### Arithmetic (R127) -/

/-- A signed mantissa. -/
def sMant (neg : Bool) (m : Nat) : Int := if neg then -(m : Int) else m

/-- The exact sum of two values; `rd` says that rounding code 3 gives the sign of an exact zero. -/
def flAdd (rd : Bool) (x y : Fl) : Fl :=
  match x, y with
  | .nan, _ => .nan
  | _, .nan => .nan
  | .inf a, .inf b => if a = b then .inf a else .nan
  | .inf a, _ => .inf a
  | _, .inf b => .inf b
  | .fin a m e, .fin b n f =>
    let lo := min e f
    let v : Int := sMant a m * (2 ^ (e - lo).toNat : Nat) + sMant b n * (2 ^ (f - lo).toNat : Nat)
    if v = 0 then .fin (if a = b then a else rd) 0 0
    else .fin (decide (v < 0)) v.natAbs lo

/-- The exact product of two values. -/
def flMul (x y : Fl) : Fl :=
  match x, y with
  | .nan, _ => .nan
  | _, .nan => .nan
  | .inf a, .inf b => .inf (a != b)
  | .inf a, .fin b n _ => if n = 0 then .nan else .inf (a != b)
  | .fin a m _, .inf b => if m = 0 then .nan else .inf (a != b)
  | .fin a m e, .fin b n f => .fin (a != b) (m * n) (e + f)

/-- The negative of a value. -/
def flNeg : Fl → Fl
  | .nan => .nan
  | .inf a => .inf (!a)
  | .fin a m e => .fin (!a) m e

/-- Whether a value is NaN. -/
def isNan : Fl → Bool
  | .nan => true
  | _ => false

/-- Numeric comparison of values that are not NaN: −1, 0 or 1; +0 equals −0. -/
def flCmp (x y : Fl) : Int :=
  match x, y with
  | .inf a, .inf b => if a = b then 0 else if a then -1 else 1
  | .inf a, _ => if a then -1 else 1
  | _, .inf b => if b then 1 else -1
  | .fin a m e, .fin b n f =>
    let lo := min e f
    let u : Int := sMant a m * (2 ^ (e - lo).toNat : Nat)
    let v : Int := sMant b n * (2 ^ (f - lo).toNat : Nat)
    if u < v then -1 else if v < u then 1 else 0
  | .nan, _ => 0
  | _, .nan => 0

/-- The sign of a value. -/
def flNegative : Fl → Bool
  | .nan => false
  | .inf a => a
  | .fin a _ _ => a

/-- The lesser (`lt`) or greater of two patterns, with −0 below +0 and a NaN giving way (R134). -/
def minMaxP (F : Fmt) (lt : Bool) (p q : Nat) : Nat :=
  let x := fval F p
  let y := fval F q
  if isNan x && isNan y then F.nan
  else if isNan x then q
  else if isNan y then p
  else
    let c := flCmp x y
    let c := if c = 0 then (if flNegative x = flNegative y then 0 else if flNegative x then -1 else 1) else c
    if lt then (if c ≤ 0 then p else q) else (if 0 ≤ c then p else q)

/-- The integer that a finite value rounds to (R136, R137). -/
def flToInt (rm : Rm) (neg : Bool) (m : Nat) (e : Int) : Int :=
  let q := if 0 ≤ e then m * 2 ^ e.toNat else roundDiv rm neg m (2 ^ (-e).toNat)
  if neg then -(q : Int) else q

/-- An integer as a value. -/
def flOfInt (v : Int) : Fl := .fin (decide (v < 0)) v.natAbs 0

/-- FP32 addition with `round_ne`. -/
def addF32 (p q : Nat) : Nat := roundNe fp32 (flAdd false (fval fp32 p) (fval fp32 q))

end Sys2Proof.Machine
end

