-- ==== Sys2Proof/Machine/Exact.lean ====
section
/-! DEFINITION. Exact sums, residue words, scale bytes and fixed-point accumulators (R160, R161, R173 to R179,
R190 to R198). -/

namespace Sys2Proof.Machine

open Sys2Proof

/-! ### Exact sums (R160) -/

/-- Whether a value is the infinity of a sign. -/
def isInf (neg : Bool) : Fl → Bool
  | .inf b => b == neg
  | _ => false

/-- Whether a value is a zero with the sign bit set. -/
def isNegZero : Fl → Bool
  | .fin true 0 _ => true
  | _ => false

/-- The least exponent of a list of values; 0 of none. -/
def leastExp : List Fl → Int
  | [] => 0
  | .fin _ _ e :: r => min e (leastExp r)
  | _ :: r => leastExp r

/-- A finite value in units of 2^lo. -/
def inUnits (lo : Int) : Fl → Int
  | .fin neg m e => sMant neg m * (2 ^ (e - lo).toNat : Nat)
  | _ => 0

/-- The exact sum of values with the specials of R160. -/
def flSum (l : List Fl) : Fl :=
  if l.any isNan || (l.any (isInf false) && l.any (isInf true)) then .nan
  else if l.any (isInf false) then .inf false
  else if l.any (isInf true) then .inf true
  else
    let lo := leastExp l
    let v := (l.map (inUnits lo)).sum
    if v = 0 then .fin (l.all isNegZero) 0 0 else .fin (decide (v < 0)) v.natAbs lo

/-! ### Residue words (R161, R173, R174) -/

/-- `rwacc(w, a8, a255, a257)` (R161). -/
def rwacc (w : Word) (a b c : Int) : Word :=
  BitVec.ofNat 32 ((((field w.toNat 0 8 : Nat) + a) % 256).toNat
    + (((field w.toNat 8 8 : Nat) + b) % 255).toNat * 2 ^ 8
    + (((field w.toNat 16 9 : Nat) + c) % 257).toNat * 2 ^ 16)

/-- `rwacc` of two words (R190). -/
def rwaddW (w b : Word) : Word := rwacc w (field b.toNat 0 8 : Nat) (field b.toNat 8 8 : Nat) (field b.toNat 16 9 : Nat)

/-- `crt_decode(w)` (R174). -/
def crtDecode (w : Word) : Int :=
  let x := (field w.toNat 0 8 * 16711425 + field w.toNat 8 8 % 255 * 8421376
    + field w.toNat 16 9 % 257 * 8421120) % 16776960
  if 8388480 ≤ x then (x : Int) - 16776960 else x

/-! ### Scale bytes (R176) -/

/-- `sb_value(b)` as a significand and an exponent of 2. -/
def sbValue (b : Nat) : Nat × Int :=
  if b % 256 = 0 then (0, 0) else (4 + b % 4, (b / 4 % 64 : Nat) - 34)

/-- Byte `j` of a word. -/
def byteN (w : Word) (j : Nat) : Nat := field w.toNat (8 * j) 8

/-- `a × 2^e ≤ b × 2^f`. -/
def leScaled (a : Nat) (e : Int) (b : Nat) (f : Int) : Bool :=
  let lo := min e f
  decide (a * 2 ^ (e - lo).toNat ≤ b * 2 ^ (f - lo).toNat)

/-- `qmax` of a narrow type (R196). -/
def qmax (t : Ty) : Nat := (tyMax t).toNat

/-- The smallest byte from `b` up whose value is at least `m × 2^e / q`, or 0xff (R196). -/
def leastScale (m : Nat) (e : Int) (q : Nat) : Nat → Nat → Nat
  | 0, _ => 0xff
  | n + 1, b => if leScaled m e (q * (sbValue b).1) (sbValue b).2 then b else leastScale m e q n (b + 1)

/-- The scale byte for a maximum magnitude (R196). -/
def scaleByte (t : Ty) (p : Nat) : Nat :=
  match fval fp32 p with
  | .nan => 0x00
  | .inf _ => 0xff
  | .fin _ m e => if m = 0 then 0x01 else leastScale m e (qmax t) 255 1

/-! ### Fixed-point accumulators (R178, R179) -/

/-- `⌊m × 2^e⌋` of an integer. -/
def floorScaled (m e : Int) : Int := if 0 ≤ e then m * (2 ^ e.toNat : Nat) else m.fdiv (2 ^ (-e).toNat : Nat)

/-- `fx_add(F, m × 2^e, P)` (R179), F as its 128-bit pattern. -/
def fxAdd (F : Nat) (m e : Int) (p : Nat) : Nat := (((F : Int) + floorScaled m (e + p)) % (2 ^ 128 : Nat)).toNat

/-- The value F / 2^P of an accumulator (R178). -/
def fxValue (F p : Nat) : Fl :=
  let v := sgn 128 F
  .fin (decide (v < 0)) v.natAbs (-(p : Int))

end Sys2Proof.Machine
end

