-- ==== Sys2Proof/Machine/State.lean ====
section
/-! DEFINITION. The state of a Druber DB100 module as plain data: groups, teams, cores, home slices,
contexts, the command processor and the board, with the machine after module reset. Lists hold only
what differs from its reset value; keys are numbers of the manual:
a core is 64 * die + index (R16), a group is 128 * core + group entry, a team is 16 * core + seat,
a pipe is 4 * core + pipe, a home slice is 64 * die + slice, a word index is a physical address / 4. -/

namespace Sys2Proof.Machine

open Sys2Proof

/-- A sparse table: entries in rising key order, none equal to what an absent key reads as. -/
abbrev Map (α : Type) := List (Nat × α)

/-! ### Dots and version vectors -/

/-- A dot (R279): the writer's serial and the dot time. -/
structure Dot where
  serial : BitVec 24 := 0
  time   : BitVec 40 := 0
  deriving DecidableEq, Repr, Inhabited

/-- A compact version vector (R281): the own slot, the other explicit entries in rising serial order
(R496), and the floor. -/
structure VVec where
  own   : Dot := {}
  slots : List Dot := []
  floor : BitVec 40 := 0
  deriving DecidableEq, Repr, Inhabited

/-- Who made a hidden write (R380): team, conversation (or the team alone), recovery level. -/
structure HidTag where
  team  : Nat
  conv  : Nat
  level : Nat
  deriving DecidableEq, Repr, Inhabited

/-- One value of a cell that holds several (R288), or that hidden writes touch (R503). -/
structure CellVal where
  val   : Word
  dot   : Dot := {}
  /-- Prior value of a displaced single-value record (R380). -/
  prior : Option Word := none
  /-- The hidden write that made it; `none` for an ordinary value. -/
  hid   : Option HidTag := none
  /-- The hidden writes that displace it. -/
  disp  : List HidTag := []
  /-- Its data are poisoned (R469). -/
  pois  : Bool := false
  /-- The other word of the 64-bit store that wrote it, which triggers a watch once (R342). -/
  pair  : Option Nat := none
  deriving DecidableEq, Repr, Inhabited

/-- A vector record of a `rel` (R285), with the dot and the hidden tag of the value that it is attached to. -/
structure VRec where
  vec  : VVec
  dot  : Dot
  hid  : Option HidTag := none
  deriving DecidableEq, Repr, Inhabited

/-- What the home slice keeps of a cell beside its memory word (R286). With `vals = []` the cell is a
single value held in memory. -/
structure CellRec where
  dot   : Dot := {}
  prior : Option Word := none
  vals  : List CellVal := []
  base  : Option Word := none
  gen   : BitVec 24 := 0
  vrec  : List VRec := []
  deriving DecidableEq, Repr, Inhabited

/-! ### Groups -/

/-- A lane-queue entry (R96, R420): the word, the copied activity-stack top, the broadcast values of
the three source fields, and where it came from. -/
structure LaneEntry where
  bits : BitVec 96
  top  : DWord
  bca  : DWord := 0
  bcb  : DWord := 0
  bcc  : DWord := 0
  /-- PC of the enqueuing `lrun` and index in its block (R49). -/
  lpc  : DWord := 0
  idx  : Nat := 0
  /-- The group was at trap class at the `lrun` (R413). -/
  tcl  : Bool := false
  /-- The next lane of a `spawn` that waits for a slot (R359). -/
  prog : Nat := 0
  /-- Since when the power allowance has refused it in every lane-clock (R347). -/
  refused : Option DWord := none
  deriving DecidableEq, Repr, Inhabited

/-- The state of an operand queue (R233). -/
inductive QSt where
  | idle | armed | running | exhausted
  deriving DecidableEq, Repr, Inhabited

/-- A stream-pattern record with its mode (R229, R230). -/
structure PatRec where
  base   : DWord := 0
  ibase  : DWord := 0
  n0     : Nat := 1
  n1     : Nat := 1
  n2     : Nat := 1
  n3     : Nat := 1
  s0     : Int := 0
  s1     : Int := 0
  s2     : Int := 0
  s3     : Int := 0
  esize  : Nat := 4
  iesize : Nat := 0
  sgn    : Bool := false
  isp    : Bool := false
  dsp    : Bool := false
  deriving DecidableEq, Repr, Inhabited

/-- What a failed pattern element raises at its pop (R236). -/
structure Mark where
  num  : BitVec 8
  addr : DWord
  info : DWord
  deriving DecidableEq, Repr, Inhabited

/-- A queue entry: one word per lane, or the mark of a failed fetch. -/
structure QEntry where
  vals : List Word := []
  mark : Option Mark := none
  pois : Bool := false
  deriving DecidableEq, Repr, Inhabited

/-- An operand queue (R229 to R237). -/
structure OpQueue where
  st      : QSt := .idle
  pat     : PatRec := {}
  /-- The entry the engine fetches next, and the entry the lane stream pops next. -/
  nextE   : Nat := 0
  popE    : Nat := 0
  entries : List QEntry := []
  slots   : Nat := 0
  /-- Number of a fetch that waits for a replayable translation fault among the accesses of its path (R216, R236). -/
  wait    : Option Nat := none
  /-- Fetches of a pattern that a stop has abandoned and that are outstanding still: number, pattern and entry. They complete,
  are dropped and retire (R236). -/
  left    : List (Nat × PatRec × Nat) := []
  deriving DecidableEq, Repr, Inhabited

/-- A register of a group, as the lookahead rule and Sepia name them (R55, R378). -/
inductive RegId where
  | x (i : Nat)
  | v (i : Nat)
  | k (i : Nat)
  deriving DecidableEq, Repr, Inhabited

/-- An open lookahead window (R55): what the long-latency instruction writes and reads, and how many
writers the window still takes. -/
structure Window where
  writes : List RegId
  reads  : List RegId
  left   : Nat
  deriving DecidableEq, Repr, Inhabited

/-- A register write that a load in flight will make (R217). -/
inductive RegWrite where
  | x (i : Nat) (val : DWord)
  | v (i lane : Nat) (val : Word)
  deriving DecidableEq, Repr, Inhabited

/-- One word operation of an atomic in flight (R265). -/
structure AtomReq where
  op    : AtomOp
  ty    : Ty
  sc    : Scope
  addr  : DWord
  b     : Word
  cmp   : Word
  /-- Where the old value and the count go: a scalar pair, or a lane of a register pair. -/
  xd    : Option Nat := none
  vd    : Option (Nat × Nat) := none
  /-- What the cluster unit has read, value and dot, when its result is still to be written (R265). -/
  rd    : Option (Word × Dot) := none
  deriving DecidableEq, Repr, Inhabited

/-- A load or atomic that has issued and whose registers are not yet written (R216, R217). -/
structure Inflight where
  lane   : Bool
  path   : Path
  /-- Number of the access among those of its path (R216). -/
  seq    : Nat := 0
  writes : List RegWrite := []
  pois   : Bool := false
  /-- Physical word indices read, for accesses a link loss catches (R446). -/
  words  : List Nat := []
  atoms  : List AtomReq := []
  deriving DecidableEq, Repr, Inhabited

/-- The wait-for row of a group entry (R349). -/
structure WaitRow where
  kind : Nat := 0
  ext  : Bool := false
  clu  : Bool := false
  obj  : Nat := 0
  sig0 : DWord := 0
  sig1 : DWord := 0
  /-- Time at which the wait began, and whether the long-wait timer has reported it (R472). -/
  since : DWord := 0
  told  : Bool := false
  deriving DecidableEq, Repr, Inhabited

/-- An arrival that a waiting collective or barrier instruction has recorded (R365, R395, R420). -/
inductive Arrival where
  | bar (n : Nat) (phase : BitVec 32)
  | cbar (c : Nat) (phase : Nat)
  | regroup (n : Nat) (d : Nat)
  | ensure (limit table : DWord)
  | accept (pass : Bool)
  | cvjoin (obj : DWord) (d : Nat)
  /-- The team has joined a conversation with this index and waits for its members (R388). -/
  | joined (idx d : Nat)
  | cvleave
  deriving DecidableEq, Repr, Inhabited

/-- A trap held pending (R411), with the fields its frame reports (R409). -/
structure PendTrap where
  num   : BitVec 8
  addr  : DWord := 0
  info  : DWord := 0
  lane  : Bool := false
  defer : Bool := false
  dlane : Bool := false
  lpc   : DWord := 0
  idx   : Nat := 0
  deriving DecidableEq, Repr, Inhabited

/-- A trap whose entry is under way (R410): the trap; where its scalar stream goes on, when that is fixed already; whether it is
the first of the group's pending traps; whether its frame is written. -/
structure Entering where
  trap   : PendTrap
  spc    : Option DWord := none
  held   : Bool := false
  framed : Bool := false
  deriving DecidableEq, Repr, Inhabited

/-- What a waiting instruction that a trap abandoned keeps until the handler returns to it (R410): where it stands, the
arrival that it recorded, and a posted host call with its reply. -/
structure Kept where
  pc   : DWord
  arr  : Option Arrival := none
  hcid : Option DWord := none
  hrep : Option (DWord × DWord) := none
  deriving DecidableEq, Repr, Inhabited

/-- A watch record that R341 allows: base, entry, tag, length and mode, with the path of its load and the poison read. -/
structure WatchRec where
  base  : DWord
  entry : DWord
  tag   : DWord
  len   : Nat
  pers  : Bool
  path  : Path := .gl
  pois  : Bool := false
  deriving DecidableEq, Repr, Inhabited

/-- A blocked `await` (R276). -/
structure AwaitRec where
  cc   : AwaitCond
  acq  : Bool
  d    : Nat
  addr : DWord
  rhs  : Word
  deriving DecidableEq, Repr, Inhabited

/-- A near-memory bank operation under way (R275): the words it has yet to act on, the address of the next one, the dot
and vector it took when it issued (R278), the cells it has skipped or found with siblings, and what `bred` has read. -/
structure BankRun where
  words : List Nat
  va    : DWord
  dot   : Dot
  vec   : VVec
  /-- The operation and operand of a `bop`. -/
  act   : Option (BankOp × Word) := none
  cnt   : Nat := 0
  vals  : List Word := []
  pois  : Bool := false
  deriving DecidableEq, Repr, Inhabited

/-- A resident group (R58, R71, R332, R420). -/
structure Group where
  seat   : Nat                    -- team key
  gid    : Nat := 0               -- R333 INDEX
  role   : Nat := 0               -- R333 ROLE
  gw     : Nat := 8               -- group width, R26
  pipe   : Nat := 0               -- R18
  soff   : Nat := 0               -- slot offset, R111
  allot  : Nat := 32              -- R335
  lbase  : DWord := 0             -- kernel's lane code base, R38
  pc     : DWord := 0
  xs     : Map DWord := []        -- x1 to x63
  vs     : Map Word := []         -- key 64 * register + lane
  ks     : Map DWord := []        -- k1 to k7
  k0     : DWord := 0
  act    : List DWord := []       -- entries 1 to 32, top first; entry 0 is k0, R76
  ret    : List DWord := []       -- on-chip return stack, newest first, R79
  spill  : Nat := 0               -- spill count, R80
  laneQ  : List LaneEntry := []   -- oldest first, R22
  decQ   : List DWord := []       -- oldest first, R23
  opq    : Map OpQueue := []      -- q0 to q7
  /-- Accesses issued on each in-flight path by path code; for path 4 the counter itself (R216). -/
  cnt    : Map Nat := []
  /-- Accesses issued on the path when a waiting `wait` first executed (R218). -/
  waitN  : Option Nat := none
  cpStop : Option Nat := none     -- channel that the waiting `cpabort` at the PC stops, R328
  vv     : VVec := {}
  ofc    : DWord := 0             -- R184
  disp   : Bool := false          -- dispatch flag, R398
  tclass : Bool := false          -- at trap class
  frozen : Bool := false          -- lane stream frozen, R410
  budget : Nat := 0               -- handler budget used, lane-clocks, R414
  pend   : List PendTrap := []    -- pending traps, R411
  entry  : Option Entering := none -- the trap whose entry is under way, R410
  stopd  : Bool := false          -- double fault or unhandled trap: issues nothing more, R413
  winS   : List Window := []      -- open lookahead windows, newest first, R55
  winL   : List Window := []
  infl   : List Inflight := []    -- oldest first
  /-- Loads and atomics of this group return in a later step (their latency is not given), as `State.slow` stood when the
  group was created. -/
  late   : Bool := false
  wf     : WaitRow := {}
  nap    : Option DWord := none   -- counter value at which a nap ends, R367
  arr    : Option Arrival := none
  /-- Queue whose entry was handed to this group's waiting pop, and the entry (R356). -/
  handed : Option (Nat × DWord × VVec) := none
  kept   : Option Kept := none     -- of the instruction that a trap abandoned, R410
  wrec   : Option WatchRec := none -- record of the `watch` at the PC, read already, R360
  leaving : Option Bool := none    -- a `regroup`, at trap class or not, left it out: it exits, R351
  awt    : Option AwaitRec := none
  bank   : Option BankRun := none  -- `bop` or `bred` under way, R275
  relW   : Bool := false          -- the store of the `rel` at the PC is performed at its home, R248
  hcid   : Option DWord := none   -- request id of a posted hcall, R432
  hrep   : Option (DWord × DWord) := none  -- its reply
  age    : Nat := 0               -- R345
  runS   : Nat := 0               -- consecutive issues per stream, R345
  runL   : Nat := 0
  dueS   : Option DWord := none   -- overdue since, R345
  dueL   : Option DWord := none
  rdyS   : Option DWord := none   -- since when ready and not issued, per stream, R345
  rdyL   : Option DWord := none
  fbuf   : List (DWord × Word) := []  -- fetch buffer: the scalar words fetched last, newest first, R71
  stopReq : Bool := false         -- streams stopped for pre-emption, R419
  /-- Slot whose trap frame the group uses until it leaves trap class, after a restore (R420). -/
  frameK : Option Nat := none
  /-- Slot whose spill area holds the group's spilled return addresses, after a restore. -/
  spillK : Option Nat := none
  deriving DecidableEq, Repr, Inhabited

/-! ### Teams -/

/-- A named barrier (R353). -/
structure Barrier where
  count : Nat := 1
  arrd  : Nat := 0
  phase : BitVec 32 := 0
  mrg   : Option VVec := none
  tmin  : BitVec 40 := 0                     -- earliest arrival time of the phase, R284
  held  : List (BitVec 32 × VVec) := []
  wait  : List Nat := []                     -- groups waiting
  members : List Nat := []                   -- groups that arrived in the phase
  deriving DecidableEq, Repr, Inhabited

/-- A named queue (R356). -/
structure NQueue where
  depth   : Nat := 1
  entries : List (DWord × VVec) := []
  pushers : List Nat := []
  poppers : List Nat := []
  deriving DecidableEq, Repr, Inhabited

/-- A value Sepia captured (R378). -/
inductive Cap where
  | x (g i : Nat) (val : DWord)
  | k (g i : Nat) (val : DWord)
  | v (g i : Nat) (vals : List Word)
  | spad (t off : Nat) (val : Word)
  | line (l : Nat) (vals : List Word)
  deriving DecidableEq, Repr, Inhabited

/-- A group's frame at a level (R377, R397). -/
structure Frame where
  act   : List DWord
  ret   : List DWord
  spill : Nat
  pc    : DWord
  /-- The dispatch flag that the group had at the `ensure` (R392, R398). -/
  disp  : Bool := false
  deriving DecidableEq, Repr, Inhabited

/-- An open recovery level (R372). -/
structure Level where
  endA   : DWord
  errA   : DWord
  alts   : List DWord
  limit  : Nat
  alt    : Nat := 0
  nfail  : Nat := 0
  doom   : Bool := false
  pois   : Bool := false
  spent  : Nat := 0                 -- lane-clocks of the current alternate, R375
  frames : List (Nat × Frame) := []
  caps   : List Cap := []
  /-- Words of captured host and plain-pool lines that members wrote (R385). -/
  wrote  : List Nat := []
  deriving DecidableEq, Repr, Inhabited

/-- A recorded failure waiting for its rollback (R374, R376). -/
structure FailRec where
  level : Nat
  /-- Time of the event (R376). -/
  time  : DWord := 0
  cause : Nat
  ftrap : Nat := 0
  fgid  : Nat := 0
  deriving DecidableEq, Repr, Inhabited

/-- The closed-block fields of rbst (R373). -/
structure Rbst where
  cause   : Nat := 0
  ftrap   : Nat := 0
  fgid    : Nat := 0
  outcome : Nat := 0
  lalt    : Nat := 0
  ldepth  : Nat := 0
  nfail   : Nat := 0
  deriving DecidableEq, Repr, Inhabited

/-- A seated team (R331 to R334). -/
structure Team where
  ctx    : Nat
  launch : Nat := 0
  tid    : Nat := 0
  pos    : Nat := 0                 -- R333 POS
  inst   : Nat := 0                 -- cluster instance
  spadB  : Nat := 0                 -- launch's spad bytes
  spad   : Map Byte := []
  spadP  : Map Bool := []           -- poisoned scratchpad words
  argA   : DWord := 0
  argN   : DWord := 0
  gw     : Nat := 8
  regs   : Nat := 32
  lbase  : DWord := 0
  bars   : List (Nat × Barrier) := []
  nqs    : List (Nat × NQueue) := []
  vec    : VVec := {}               -- team vector, R281
  levels : List Level := []         -- innermost first
  fail   : Option FailRec := none
  rbst   : Rbst := {}
  conv   : Option Nat := none       -- conversation key, R387
  passed : Bool := false            -- level-1 accept passed, waiting for the round, R389
  round  : Nat := 0                 -- level-1 blocks opened since its conversation completed, R389
  saver  : Option Nat := none       -- group whose `ctxsv` saves it, R436
  /-- Its streams stop for the rollback of its block, for the pre-emption of this team (R385, R392). -/
  stop   : Option Nat := none
  /-- A pre-emption is under way; copy chains may drain until this time (R321). -/
  drain  : Option DWord := none
  deriving DecidableEq, Repr, Inhabited

/-- A cluster barrier of an instance (R355). -/
structure CBar where
  phase : Nat := 0
  arrd  : List Nat := []            -- groups that executed cbar in this phase
  mrg   : Option VVec := none
  tmin  : BitVec 40 := 0
  last  : Option VVec := none       -- merge of the last completed phase
  deriving DecidableEq, Repr, Inhabited

/-- A cluster instance (R331). -/
structure Inst where
  launch : Nat
  k      : Nat := 0
  rows   : Nat := 1
  cols   : Nat := 1
  teams  : List Nat := []           -- team keys by rectangle position
  cbars  : List (Nat × CBar) := []
  deriving DecidableEq, Repr, Inhabited

/-- A conversation held by a cluster unit (R387). -/
structure Conv where
  die    : Nat
  idx    : Nat
  obj    : Nat                      -- physical address of the object
  ctx    : Nat
  nmem   : Nat
  teams  : List Nat := []
  joined : Nat := 0                 -- teams joined so far; join indices follow it
  ready  : Bool := false
  alts   : List (Nat × Nat) := []   -- alternate index of each round, R389
  dead   : List Nat := []           -- rounds whose blocks exhaust, R389
  deriving DecidableEq, Repr, Inhabited

/-! ### Cores -/

/-- Clock ratio of a core (R20). -/
inductive Ratio where
  | double | equal | half
  deriving DecidableEq, Repr, Inhabited

/-- A word in an L1 (R215, R243, R289, R381). A line is present when any word of it is. -/
structure L1Word where
  val  : Word
  mask : BitVec 4 := 0              -- dirty bytes
  reg  : Bool := false              -- registered to this core at the home
  /-- Writer tag of a dirty word: group and dot (R289). A copy keeps the dot of the value it was read as. -/
  grp  : Nat := 0
  dot  : Dot := {}
  hid  : Option HidTag := none      -- hidden word in a pinned line
  pois : Bool := false
  /-- A store has written the whole of it since it became dirty (R469). -/
  whole : Bool := false
  deriving DecidableEq, Repr, Inhabited

/-- A store's registration on its way to the home (R243, R287). -/
structure StoreReq where
  core : Nat
  grp  : Nat
  w    : Nat                        -- word index
  va   : DWord := 0
  val  : Word
  mask : BitVec 4 := 0xf
  dot  : Dot
  vec  : VVec
  rel  : Bool := false
  hid  : Option HidTag := none
  /-- Word index of the other half of a 64-bit store, tested in the same step (R105). -/
  pair : Option (Nat × Word) := none
  pc   : DWord := 0
  lane : Bool := false
  idx  : Nat := 0
  eng  : Bool := false              -- an engine's write (copy engine)
  tag  : Nat := 0                   -- channel of an engine's write
  pois : Bool := false
  path : Path := .gl
  seq  : Nat := 0
  deriving DecidableEq, Repr, Inhabited

/-- Why a store is parked: its page does not translate, or follows such a store on its page; its test failed; or it
follows a store on its page whose test failed (R210, R292). -/
inductive ParkWhy where
  | fault | overflow | behind
  deriving DecidableEq, Repr, Inhabited

/-- A parked store (R210): the bytes it has on one page. -/
structure Parked where
  grp   : Nat
  ctx   : Nat
  why   : ParkWhy
  bytes : List (Nat × Byte)          -- virtual address and byte
  dot   : Dot
  vec   : VVec
  hid   : Option HidTag := none
  pc    : DWord := 0
  lane  : Bool := false
  idx   : Nat := 0
  path  : Path := .gl
  seq   : Nat := 0
  retry : Bool := false              -- an rti asks for the test again
  tc    : Bool := false              -- issued at trap class, R207
  /-- A 64-bit scalar store, whose two words are tested in one step (R105). -/
  w64   : Bool := false
  deriving DecidableEq, Repr, Inhabited

/-- Who registered a range (R255). -/
inductive RlOwner where
  | chan (c : Nat)
  /-- A channel's next record, registered while the one before it is in transfer (R313). -/
  | next (c : Nat)
  | queue (g q : Nat)
  | bank (g : Nat)
  | watch (h : Nat)
  deriving DecidableEq, Repr, Inhabited

/-- An entry of the range-lock table (R255). -/
structure RangeLock where
  sp    : Bool                       -- scratchpad range
  ctx   : Nat
  space : Nat := 0                   -- physical core of a scratchpad range
  lo    : Nat
  hi    : Nat                        -- exclusive
  write : Bool
  owner : RlOwner
  deriving DecidableEq, Repr, Inhabited

/-- State of a copy channel (R307). -/
inductive ChSt where
  | free | idle | running | halted
  deriving DecidableEq, Repr, Inhabited

/-- A chain in a head queue (R316, R319, R324). -/
structure Chain where
  cur   : DWord                      -- address of the record to do next
  batch : BitVec 32
  grp   : Nat
  gid   : Nat
  dot   : Dot
  vec   : VVec
  level : Nat := 0                   -- recovery level it belongs to, 0 for none
  /-- Scalar accesses of the group in flight or parked at the `cpgo`, by path and number, that it follows (R247). -/
  after : List (Path × Nat) := []
  deriving DecidableEq, Repr, Inhabited

/-- A fetched transfer record (R309). -/
structure CopyRec where
  addr  : DWord
  src   : DWord
  dst   : DWord
  bytes : Nat
  next  : DWord
  flags : Word
  reg   : Bool := false              -- ranges registered, transfer under way
  pos   : Nat := 0                   -- words moved
  host  : List Nat := []             -- host words written, whose acknowledgements it awaits, R315
  deriving DecidableEq, Repr, Inhabited

/-- A copy channel (R307, R316, R318). -/
structure Chan where
  st    : ChSt := .free
  team  : Nat := 0
  headq : List Chain := []           -- running chain first
  sealed : BitVec 32 := 0
  done  : BitVec 32 := 0
  fb    : BitVec 32 := 0
  crec  : Option CopyRec := none
  nrec  : Option CopyRec := none     -- the record after it, fetched during its transfer, R313, R322
  wown  : Bool := false
  squash : Bool := false             -- squashed at the drain limit, R321
  again : Bool := false              -- its abandoned record is to be registered again before the team issues, R321
  fcode : Nat := 0
  frec  : DWord := 0
  fdata : DWord := 0
  deriving DecidableEq, Repr, Inhabited

/-- A task waiting in a gather (R337). -/
structure Task where
  args : List Word
  vec  : VVec
  deriving DecidableEq, Repr, Inhabited

/-- A gather slot (R338). -/
structure Gather where
  team   : Nat
  entry  : DWord
  tasks  : List Task
  closed : Bool := false
  since  : DWord := 0                -- time of its first task
  deriving DecidableEq, Repr, Inhabited

/-- A request for register rows (R336): a `claim` with its group and target, or the creation of a closed gather's group. -/
inductive RegReq where
  | claim (g n : Nat)
  | create (slot : Nat)
  deriving DecidableEq, Repr, Inhabited

/-- Registers and counts of one pipe (R117, R118, R122, R162, R336). -/
structure Pipe where
  psteer  : DWord := 0
  pchklog : DWord := 0
  poctlog : DWord := 0
  sampN   : Nat := 0                 -- issue cycles counted in the sampled window
  sampW   : Nat := 0                 -- position doubled in the window
  claims  : List RegReq := []        -- waiting requests in arrival order, R336
  /-- Time at which an issue cycle last started (R111). -/
  cycT    : Option DWord := none
  /-- Weights of the issue cycles that the instructions last issued still take (R111, R347). -/
  rest    : List Nat := []
  restR   : Option DWord := none     -- since when the allowance has refused the next of them, R347
  lastS   : Option Nat := none       -- group that issued last in the scalar streams, R345
  lastL   : Option Nat := none       -- and in the lane streams
  reserved : Option (Nat × Nat) := none  -- reserved candidate: its group and weight, R347
  deriving DecidableEq, Repr, Inhabited

/-- A translation held by a TLB (R209). -/
structure TlbEnt where
  ctx  : Nat
  vpn  : Nat                         -- virtual address / page bytes
  size : Nat                         -- page bytes
  pa   : Nat                         -- physical address of the page
  w    : Bool
  x    : Bool
  prg  : Bool
  mt   : Bool
  d    : Bool := false               -- the leaf's D bit was set through this entry
  deriving DecidableEq, Repr, Inhabited

/-- A core (R17). -/
structure Core where
  ratio   : Ratio := .equal          -- ratio selected, R20
  chgClk  : Option DWord := none     -- clocks changing until this time: issues nothing, R434
  recd    : Option Ratio := none     -- ratio recorded while the droop detector forces half, R434
  allow   : BitVec 16 := 0           -- PWRCTL.ALLOW as it stood at `fillT`
  fillT   : DWord := 0               -- time up to which ALLOW has been refilled, R473
  refill  : BitVec 9 := 153
  hwdef   : Bool := true
  droop   : Bool := false
  gated   : Bool := false
  tgcfg   : BitVec 16 := 256
  cpcfg   : BitVec 16 := 100
  sepcfg  : BitVec 15 := 16384
  l1      : Map L1Word := []
  tlb     : List TlbEnt := []        -- newest first
  locks   : List RangeLock := []
  replay  : List Parked := []        -- oldest first
  chans   : Map Chan := []
  /-- Waiting `cpgo`: channel, group and chain head, in arrival order (R308). -/
  chWait  : List (Nat × Nat × DWord) := []
  gathers : List (Nat × Gather) := []
  calV    : Option Nat := none       -- calibrated voltage set point in mV, R476
  calT    : Option DWord := none     -- time of the last calibration
  idleT   : DWord := 0               -- time at which the core last became idle, R476, R477
  deriving DecidableEq, Repr, Inhabited

/-! ### Home slices, memory, pool -/

/-- An armed watch (R342). -/
structure Watch where
  core  : Nat
  team  : Nat
  ctx   : Nat
  lo    : Nat                        -- physical address
  len   : Nat
  va    : DWord
  entry : DWord
  tag   : DWord
  pers  : Bool
  gen   : BitVec 24
  vec   : VVec
  armed : Bool := true
  drops : BitVec 32 := 0
  /-- Undelivered triggers in home order: address, value, dot. -/
  trigs : List (DWord × Word × Dot) := []
  deriving DecidableEq, Repr, Inhabited

/-- A home slice (R286, R291, R341). -/
structure Slice where
  gen   : BitVec 24 := 0             -- last generation given to a sibling set; 0 before the first (R288)
  wgen  : BitVec 24 := 0             -- last arming generation, R344
  lines : List (Nat × BitVec 40) := []  -- dot array: line index and time of its most recent write
  summ  : Map Dot := []              -- summary dots of lines outside the dot array
  watches : List (Nat × Watch) := []
  deriving DecidableEq, Repr, Inhabited

/-- State of a pool region (R445). -/
inductive RgSt where
  | up | lost | rejoin
  deriving DecidableEq, Repr, Inhabited

/-- A stranded line (R447): its words with byte masks and dots, its summary dot, that of its region's side area as the device has read
it, and its spilled siblings by cell. -/
structure Strand where
  line  : Nat
  words : List (Nat × Word × BitVec 4 × Dot)
  dot   : Dot := {}
  side  : Dot := {}
  sibs  : List (Nat × CellVal) := []
  heldBack : Bool := false           -- its flush failed, and is tried again, R448
  told  : Bool := false              -- event kind 19 has reported it, R448
  deriving DecidableEq, Repr, Inhabited

/-- A region-table entry (R441). -/
structure Region where
  mode   : Nat := 0
  st     : RgSt := .up
  port   : Nat := 0
  cxl    : DWord := 0
  losses : BitVec 16 := 0
  strand : List Strand := []
  flush  : Bool := false             -- REJOIN entered with flush
  moved  : Nat := 0                  -- lines flushed since REJOIN was entered, R464
  /-- Lines that the device holds under CXL ownership, whose dots it keeps itself (R443). -/
  owned  : List Nat := []
  /-- Spill entries of the side area in use, each with the cell whose base, sibling or vector record it holds (R442). -/
  spill  : List (Nat × Nat) := []
  deriving DecidableEq, Repr, Inhabited

/-- A host/pool port (R440, R455). -/
structure Port where
  up    : Bool := false
  reach : List Nat := []
  deriving DecidableEq, Repr, Inhabited

/-! ### Contexts and the command processor -/

/-- A context (R416, R417). -/
structure Ctx where
  root   : Nat := 0
  spillB : DWord := 0
  frameB : DWord := 0
  tvb    : DWord := 0
  budget : Nat := 1048576
  sys    : Bool := false
  chk    : BitVec 2 := 0
  cir    : DWord := 0
  floor  : BitVec 40 := 0
  /-- Time of the context's last quiesce point (R284). -/
  lastQ  : Option (BitVec 40) := none
  halted : Option Word := none       -- halt status once ended
  /-- Address of the context record, until the first launch's admission has read it (R416). -/
  recA   : Option Nat := none
  deriving DecidableEq, Repr, Inhabited

/-- The fields of a launch descriptor (R70). -/
structure Desc where
  entry  : DWord := 0
  lbase  : DWord := 0
  argA   : DWord := 0
  argN   : Nat := 0
  groups : Nat := 1
  width  : Nat := 8
  rows   : Nat := 1
  cols   : Nat := 1
  grid   : Nat := 1
  regs   : Nat := 32
  check  : Nat := 0
  spad   : Nat := 0
  roles  : List Nat := []
  deriving DecidableEq, Repr, Inhabited

/-- An accepted launch (R331, R452). -/
structure Launch where
  ctx    : Nat
  ch     : Nat := 0
  tag    : Word := 0
  daddr  : DWord := 0
  desc   : Desc := {}
  seated : List Nat := []            -- instances admitted
  left   : Nat := 0                  -- teams that have not ended
  start  : Option (BitVec 40) := none  -- dot time of the grid's start
  endT   : Option (BitVec 40) := none  -- dot time of its end
  exitV  : VVec := {}                -- exit vector, R285
  lvec   : VVec := {}                -- launch vector, R285
  node   : Option (Nat × Nat) := none  -- graph and node it belongs to
  ended  : Bool := false
  status : Word := 0
  deriving DecidableEq, Repr, Inhabited

/-- An edge of a task graph (R454), with its regions (R258): base, length, direction. -/
structure Edge where
  src    : Nat
  dst    : Nat
  regs   : List (DWord × Nat × Nat)
  dev    : Nat
  flags  : Nat
  sat    : Bool := false
  deriving DecidableEq, Repr, Inhabited

/-- An accepted graph (R454): nodes as descriptor, context and whether admitted and ended. -/
structure Graph where
  ctx   : Nat
  ch    : Nat := 0
  tag   : Word := 0
  nodes : List (Desc × Nat × Bool × Bool)
  edges : List Edge
  addrs : List DWord := []           -- descriptor addresses of the nodes, R454
  ended  : Bool := false
  deriving DecidableEq, Repr, Inhabited

/-- An accepted QUIESCE (R261). -/
structure Quiesce where
  ctx : Nat
  ch  : Nat
  tag : Word
  /-- Launches and graphs of the context accepted before it. -/
  after : List Nat
  ended : Bool := false
  deriving DecidableEq, Repr, Inhabited

/-- A fault service (R456): the page, the access kind, and whether the host said fail. -/
structure FaultReq where
  rid  : DWord
  ctx  : Nat
  page : Nat
  acc  : Nat
  fail : Bool := false
  pkt  : Bool := false               -- a structure of an accepted packet waits for it, R456
  deriving DecidableEq, Repr, Inhabited

/-- A host channel (R450). -/
structure HostCh where
  sqbase : DWord := 0
  sqlog  : BitVec 5 := 0
  cqbase : DWord := 0
  cqlog  : BitVec 5 := 0
  tail   : Word := 0
  head   : Word := 0
  cqtail : Word := 0
  cqhead : Word := 0
  en     : Bool := false
  /-- Ring registers read when EN changed to 1. -/
  ring   : Option (Nat × Nat × Nat × Nat) := none
  deriving DecidableEq, Repr, Inhabited

/-- A completion (R451): channel, tag, kind, status, time and body bytes. -/
structure Completion where
  ch     : Nat
  tag    : Word
  kind   : Nat
  status : Nat
  time   : DWord
  body   : List Byte
  deriving DecidableEq, Repr, Inhabited

/-- An event record (R422). -/
structure Event where
  time : DWord
  src  : Nat
  kind : Nat
  dev  : Nat
  d0   : DWord
  d1   : DWord
  deriving DecidableEq, Repr, Inhabited

/-- A store written to the host or a pool device and not yet acknowledged (R242). -/
structure AckReq where
  grp : Nat
  w   : Nat
  /-- The bytes of the word that were written (R447). -/
  mask : BitVec 4 := 0xf
  /-- Uncached: performed at every scope only when acknowledged (R242). -/
  unc : Bool := false
  /-- A store of the group's lane stream (R97). -/
  lane : Bool := false
  deriving DecidableEq, Repr, Inhabited

/-- A saved team (R420): the team, its groups by former key, its channels, its gathers, its replay
entries and its image address when `ctxsv` wrote one. -/
structure Saved where
  pos    : Nat
  key    : Nat
  /-- Stands for the team key, from 4096 up, in watches and conversations while the team is saved. -/
  uid    : Nat
  inst   : Nat
  instR  : Inst
  hash   : Option (BitVec 512) := none
  team   : Team
  groups : List (Nat × Group)
  chans  : List (Nat × Chan)
  gathers : List (Nat × Gather)
  replay : List Parked
  deriving DecidableEq, Repr, Inhabited

/-! ### Board -/

/-- An Ulunoez link (R460). -/
structure Link where
  up    : Bool := true
  spare : Bool := false
  deriving DecidableEq, Repr, Inhabited

/-- A route (R461): a primary link and up to two alternates. -/
structure Route where
  link : Option Nat := none
  alt1 : Option Nat := none
  alt2 : Option Nat := none
  deriving DecidableEq, Repr, Inhabited

/-- What leaves for another device over the fabric for a remote edge (R454): the copies of its flow and output regions at their
virtual addresses of the context, and the signal of the edge. -/
structure Sent where
  dev    : Nat
  ctx    : Nat
  copies : List (DWord × List Byte)
  graph  : Nat
  edge   : Nat
  deriving DecidableEq, Repr, Inhabited

/-- A part descriptor of `retire` (R435). -/
structure Part where
  kind : Nat
  core : Nat
  pipe : Nat
  part : Nat
  die  : Nat
  deriving DecidableEq, Repr, Inhabited

/-- A die's board state (R14, R462, R474, R477). -/
structure Die where
  pgcfg  : BitVec 16 := 100
  tstop  : Bool := false
  slotB  : Bool := false             -- active firmware slot
  verif  : Bool := true              -- active image verified
  restart : Bool := false            -- firmware restarting
  hwq    : List Event := []          -- events held during a restart
  dropped : Nat := 0
  deriving DecidableEq, Repr, Inhabited

/-- What the twin-issue comparison of a doubled issue cycle finds (R120). An absent entry is agreement. -/
inductive Upset where
  | agree
  /-- The results differ and the replay's agree. -/
  | soft
  /-- The replay's results differ too: the elements where they do, by their slots, or slot octets, each with the issue that
  stands alone there, 0 primary, 1 secondary, 2 third, and any other number where no two issues agree. `late` says that the accesses
  were performed before the difference was found (R223, R274). -/
  | differ (late : Bool) (odd : List (Nat × Nat))
  deriving DecidableEq, Repr, Inhabited

/-- Which agent moves next. -/
inductive Action where
  | scalar (g : Nat)
  | lane (g : Nat)
  | event (i : Instr)
  deriving DecidableEq, Repr, Inhabited

/-- The state of the module. -/
structure State where
  /-- The group whose instruction executes. -/
  cur     : Nat := 0
  groups  : List (Nat × Group) := []
  teams   : List (Nat × Team) := []
  insts   : List (Nat × Inst) := []
  convs   : List (Nat × Conv) := []
  cores   : Map Core := []
  pipes   : Map Pipe := []
  slices  : Map Slice := []
  /-- Cluster vectors, by launch and die (R281). -/
  cvecs   : List ((Nat × Nat) × VVec) := []
  /-- Physical memory at its point of coherence; an unlisted byte reads 0. -/
  mem     : List Host.Cell := []
  cells   : Map CellRec := []
  /-- Poisoned words (R469), by word index. -/
  pois    : Map Bool := []
  regQ    : List StoreReq := []
  acks    : List AckReq := []
  /-- Die translation units (R209), by die. -/
  dtlb    : List (Nat × TlbEnt) := []
  regions : Map Region := []
  ports   : Map Port := []
  ctxs    : List (Nat × Ctx) := []
  launches : List (Nat × Launch) := []
  graphs  : List (Nat × Graph) := []
  quiesces : List Quiesce := []
  saved   : List Saved := []
  /-- Saves whose images `ctxsv` has written, each in the order of its images: what their bodies hold (R420). -/
  images  : List (List Saved) := []
  faults  : List FaultReq := []
  hcalls  : List (DWord × Nat) := []  -- outstanding request ids and their groups
  nextRid : DWord := 1
  serials : List (BitVec 24 × Option (BitVec 40)) := []  -- serials held, and exit times of freed ones, R279
  winBase : BitVec 24 := 0            -- serial window, R444
  winSize : BitVec 24 := 0
  fabric  : BitVec 12 := 0
  chs     : Map HostCh := []
  /-- Accepted LAUNCH and GRAPH packets whose structures wait for a fault service, with the numbers they took, their
  addresses and whether they are graphs (R456, R457). -/
  held    : List (Nat × PktHdr × DWord × Bool) := []
  heldC   : List Completion := []     -- completions waiting for ring room, R450
  events  : List Event := []          -- newest first
  nextUid : Nat := 1                  -- launch, graph, instance, conversation and cycle numbers
  /-- Global timestamp counter (R21). -/
  tsc     : DWord := 0
  cpDie   : Nat := 0                  -- die of the active command processor, R14
  cpDead  : List Nat := []            -- command processors retired
  live    : BitVec 4 := 1             -- live dies
  reduced : Bool := true              -- reduced service, R479
  coreOut : List Nat := []            -- cores retired
  pipeOut : List Nat := []            -- pipes retired
  dies    : Map Die := []
  retireQ : List (Part × DWord) := [] -- retirements waiting for residents to leave, with request times, R435
  flash   : List Part := []           -- recorded retirements, R468
  suspects : List (Part × DWord) := []  -- suspect records with their times, R465
  links   : Map Link := []
  routes  : Map Route := []           -- by 4096 * die of the Slate core + fabric number
  /-- The routes that firmware finds as it brings the device up (the model's own input). -/
  topo    : Map Route := []
  sent    : List Sent := []           -- for other devices, on the fabric, R454, R461
  /-- Cores with a core-wide unit that fails uncorrectably in a coming step (the model's own input), R465. -/
  broken  : List Nat := []
  rowOut  : List (Nat × Nat) := []    -- spared rows: bank key and row, R469
  /-- Errors that a row's ECC has corrected: bank key, row and time (R469). -/
  corrected : List ((Nat × Nat) × DWord) := []
  /-- Rows, by bank key and row, whose ECC corrects an error in a coming step (the model's own input), R469. -/
  eccFix  : List (Nat × Nat) := []
  repairs : Nat := 0                  -- repair records in module flash, R470
  wdcfg   : BitVec 16 := 10           -- WDCFG.LONG, R472
  cycles  : Nat := 0                  -- deadlock cycles declared, R471
  walk    : List (List (Nat × WaitRow)) := []  -- blocked sets of the last walk, R471
  rollback : DWord := 0               -- firmware rollback counter, R462
  fwPend  : List (Nat × List Byte) := []  -- images that FWUPD has written, by slot, the newest last, R462
  flashW  : BitVec 16 := 2400         -- module power envelope in watts, as module flash holds it, R473
  envW    : BitVec 16 := 2400         -- and as it was read at boot
  /-- What each coming twin-issue comparison finds. -/
  upsets  : List Upset := []
  /-- Which agents move in the coming steps; when it is empty the device's own order applies. -/
  agenda  : List Action := []
  /-- Nanoseconds that pass before each coming step; 1 when it is empty. -/
  elapsed : List Nat := []
  /-- Whether the accesses of the groups that are created take their time (the model's own input). -/
  slow    : Bool := false
  /-- Counter of free values taken (the model's own field). -/
  free    : Nat := 0
  deriving DecidableEq, Repr, Inhabited

/-- Why the machine stops. -/
inductive Fault where
  /-- Raised by every instruction of a group when `cur` names no resident group or its team, core or
  context record is missing; no run of the device reaches it. Safe. -/
  | noGroup
  /-- Raised by a lane instruction executed when its group's lane queue is empty; no run of the device
  reaches it. Safe. -/
  | noLaneEntry
  deriving DecidableEq, Repr

/-- Why an instruction is refused. -/
inductive Refusal where
  /-- Raised by the dispatcher for an instruction that has no meaning yet. Safe. -/
  | notModelled (mnemonic : String)
  deriving DecidableEq, Repr

/-- The module right after module reset (R479): reduced service, die 0 live, no context, every
management register at its reset value. -/
def State.reset : State := {}

end Sys2Proof.Machine
end

