-- ==== Sys2Proof/Machine/Maps.lean ====
section
/-! DEFINITION. Tables as lists of keyed entries: look-up, insertion in key order, removal, and the
sparse tables that hold no entry equal to what an absent key reads as. -/

namespace Sys2Proof.Machine

/-- The entry with key `k`. -/
def find {α : Type} (m : List (Nat × α)) (k : Nat) : Option α :=
  match m with
  | [] => none
  | (j, v) :: r => if j = k then some v else find r k

/-- `m` without key `k`. -/
def del {α : Type} (m : List (Nat × α)) (k : Nat) : List (Nat × α) :=
  match m with
  | [] => []
  | (j, v) :: r => if j = k then del r k else (j, v) :: del r k

/-- `v` under key `k`, placed before the first greater key. -/
def ins {α : Type} (m : List (Nat × α)) (k : Nat) (v : α) : List (Nat × α) :=
  match m with
  | [] => [(k, v)]
  | (j, w) :: r => if k < j then (k, v) :: (j, w) :: r else (j, w) :: ins r k v

/-- `m` with `v` under key `k`. -/
def put {α : Type} (m : List (Nat × α)) (k : Nat) (v : α) : List (Nat × α) :=
  ins (del m k) k v

/-- `m` with the entry of key `k`, if there is one, changed by `f`. -/
def upd {α : Type} (m : List (Nat × α)) (k : Nat) (f : α → α) : List (Nat × α) :=
  match find m k with
  | none => m
  | some v => put m k (f v)

/-- Reads a sparse table whose absent keys read `d`. -/
def sget {α : Type} (d : α) (m : List (Nat × α)) (k : Nat) : α :=
  (find m k).getD d

/-- Writes a sparse table whose absent keys read `d`. -/
def sset {α : Type} [DecidableEq α] (d : α) (m : List (Nat × α)) (k : Nat) (v : α) : List (Nat × α) :=
  if v = d then del m k else put m k v

/-- Keys rise strictly. -/
def rising {α : Type} : List (Nat × α) → Bool
  | [] => true
  | [_] => true
  | (i, _) :: (j, w) :: r => decide (i < j) && rising ((j, w) :: r)

/-- The canonical form of a sparse table: keys rise strictly and no entry equals `d`. -/
def canon {α : Type} [DecidableEq α] (d : α) (m : List (Nat × α)) : Bool :=
  rising m && m.all (fun e => decide (e.2 ≠ d))

/-- Least of a list, with a default for the empty one. -/
def leastOf (d : Nat) : List Nat → Nat
  | [] => d
  | [a] => a
  | a :: r => Nat.min a (leastOf d r)

/-- The lowest number of `lo`, `lo + 1`, …, that no entry of `l` equals; `n` bounds the search. -/
def freshFrom (l : List Nat) : Nat → Nat → Nat
  | 0, lo => lo
  | n + 1, lo => if l.contains lo then freshFrom l n (lo + 1) else lo

end Sys2Proof.Machine
end

