-- ==== Sys2Proof/Machine/Vec.lean ====
section
/-! DEFINITION. Dots and compact version vectors: order, dominance and merge (R279 to R283). -/

namespace Sys2Proof.Machine

open Sys2Proof

/-- `a ≤ b` for dot times, compared as a difference modulo 2^40 (R280). DEDUCED (log 19). -/
def timeLe (a b : BitVec 40) : Bool := (b - a).toNat < 2 ^ 39

/-- The later of two dot times. -/
def timeMax (a b : BitVec 40) : BitVec 40 := if timeLe a b then b else a

/-- The later of two floors, where 0 is the null floor (R280). -/
def floorMax (a b : BitVec 40) : BitVec 40 :=
  if a = 0 then b else if b = 0 then a else timeMax a b

/-- A floor at or after a dot time; the null floor reaches time 0 alone (R280, R282). -/
def floorGe (f t : BitVec 40) : Bool := if f = 0 then t = 0 else timeLe t f

/-- Dot order: by time, then by serial (R279). -/
def dotLe (a b : Dot) : Bool :=
  if a.time = b.time then a.serial.toNat ≤ b.serial.toNat else timeLe a.time b.time

/-- The entries of a vector, slot 0 first. -/
def vecEntries (v : VVec) : List Dot := v.own :: v.slots

/-- `dominates(V, d)` (R282). A dot of serial 0 stands in no slot but those of a stranded line's flush (R448), which dominates that
dot. DEDUCED (log 156). -/
def dominates (v : VVec) (d : Dot) : Bool :=
  (d.serial = 0 && (d.time = 0 || v.slots.contains d))
  || (d.serial ≠ 0 && (vecEntries v).any (fun e => e.serial = d.serial && timeLe d.time e.time))
  || floorGe v.floor d.time

/-- Adds a dot to a list of entries, keeping the greater time of its serial. -/
def addEntry (l : List Dot) (d : Dot) : List Dot :=
  if d.serial = 0 then l
  else match l with
    | [] => [d]
    | e :: r =>
      if e.serial = d.serial then { d with time := timeMax e.time d.time } :: r
      else if d.serial.toNat < e.serial.toNat then d :: e :: r
      else e :: addEntry r d

/-- The entry that compaction drops: the lowest time, and between equal times the higher serial (R283). -/
def victim : List Dot → Option Dot
  | [] => none
  | e :: r =>
    match victim r with
    | none => some e
    | some f =>
      if e.time = f.time then (if f.serial.toNat < e.serial.toNat then some e else some f)
      else if timeLe e.time f.time then some e else some f

/-- Drops entries until at most `n` are left; `fuel` bounds the drops. -/
def compact (l : List Dot) (n : Nat) : Nat → List Dot
  | 0 => l
  | fuel + 1 =>
    if l.length ≤ n then l
    else match victim l with
      | none => l
      | some d => compact (l.erase d) n fuel

/-- Reads a list of dots as entries other than `own`, in rising serial order. -/
def othersOf (own : BitVec 24) (l : List Dot) : List Dot :=
  (l.filter (fun d => d.serial ≠ own)).foldl addEntry []

/-- The greatest time that a list of dots gives to serial `own`. -/
def ownTime (own : Dot) (l : List Dot) : BitVec 40 :=
  l.foldl (fun t d => if d.serial = own.serial && own.serial ≠ 0 then timeMax t d.time else t) own.time

/-- `vv_merge(V, W)` (R283), with W given as its entries and floor. -/
def mergeEntries (v : VVec) (l : List Dot) (f : BitVec 40) : VVec :=
  let fl := floorMax v.floor f
  let u := othersOf v.own.serial (v.slots ++ l)
  let u := u.filter (fun d => !(floorGe fl d.time))
  { own := { v.own with time := ownTime v.own l }
    slots := compact u (if v.own.serial = 0 then 8 else 7) u.length
    floor := fl }

/-- `vv_merge(V, W)` (R283). -/
def vvMerge (v w : VVec) : VVec := mergeEntries v (vecEntries w) w.floor

/-- A single dot merged into a vector; a dot of serial 0 is skipped (R283). -/
def mergeDot (v : VVec) (d : Dot) : VVec :=
  if d.serial = 0 then v else mergeEntries v [d] 0

/-- The vector a store carries: the group's, with slot 0 set to the store's dot (R285). -/
def storeVec (v : VVec) (d : Dot) : VVec := { v with own := d }

/-- Inserts a dotted value in dot order. -/
def insDot {α : Type} (dot : α → Dot) (x : α) : List α → List α
  | [] => [x]
  | y :: r => if dotLe (dot y) (dot x) then y :: insDot dot x r else x :: y :: r

/-- A list in dot order. -/
def dotSort {α : Type} (dot : α → Dot) (l : List α) : List α := l.foldl (fun a x => insDot dot x a) []

/-- A dot as 64 bits (R279). -/
def dotBits (d : Dot) : DWord := d.serial ++ d.time

/-- 64 bits as a dot (R279). -/
def bitsDot (w : DWord) : Dot := { serial := (w >>> 40).truncate 24, time := w.truncate 40 }

/-- The dot time now: bits [49:10] of the timestamp counter (R279). -/
def State.now (s : State) : BitVec 40 := (s.tsc >>> 10).truncate 40

/-- A group's dot for a write issued now (R279). -/
def newDot (s : State) (g : Group) : Dot := { serial := g.vv.own.serial, time := s.now }

end Sys2Proof.Machine
end

