-- ==== Sys2Proof/Machine/Mem.lean ====
section
/-! DEFINITION. Physical memory: the address map, homes, bytes and words (R203, R204, R278). -/

namespace Sys2Proof.Machine

open Sys2Proof

/-- What a physical address names (R203). -/
inductive PKind where
  | near | dram (die : Nat) | pool (region : Nat) | host | hole
  deriving DecidableEq, Repr, Inhabited

/-- The kind of a physical address (R203). -/
def kindOf (pa : Nat) : PKind :=
  if pa < 0x400000000 then .near
  else if pa < 0x40000000000 then .hole
  else if pa < 0x50000000000 then
    (if (pa - 0x40000000000) % 0x4000000000 < 0x3000000000
      then .dram ((pa - 0x40000000000) / 0x4000000000) else .hole)
  else if pa < 0x100000000000 then .hole
  else if pa < 0x200000000000 then .pool ((pa - 0x100000000000) / 0x10000000)
  else if pa < 0x800000000000 then .hole
  else if pa < 0x10000000000000 then .host
  else .hole

/-- The region-table entry of a pool region (R441). -/
def State.region (s : State) (r : Nat) : Region := sget {} s.regions r

/-- The die of a host/pool port (R14). -/
def portDie (p : Nat) : Nat := if p = 0 then 0 else 2

/-- The die of the host port: die 0 until it is retired, then die 2 (R14). -/
def State.hostDie (s : State) : Nat := if bitOf s.live.toNat 0 then 0 else 2

/-- The home die of an address; the host port's die for host lines (R203, R204). -/
def State.homeDie (s : State) (pa : Nat) : Nat :=
  match kindOf pa with
  | .near => pa / 2 ^ 32 % 4
  | .dram d => d
  | .pool r => portDie (s.region r).port
  | .host => s.hostDie
  | .hole => 0

/-- Whether a physical address is unmapped: outside the ranges of R203, or homed on a die that is not live
(R481). -/
def State.unmapped (s : State) (pa : Nat) : Bool :=
  decide (kindOf pa = PKind.hole) || !(bitOf s.live.toNat (s.homeDie pa))

/-- The home slice of a line within its die (R204). -/
def sliceOf (pa : Nat) : Nat := Nat.xor (pa / 128 % 64) (pa / 8192 % 64)

/-- The key of the home slice of an address. -/
def State.homeSlice (s : State) (pa : Nat) : Nat := 64 * s.homeDie pa + sliceOf pa

/-- Whether the word at an address is a cell (R278). -/
def State.isCell (s : State) (pa : Nat) : Bool :=
  match kindOf pa with
  | .near => true
  | .dram _ => true
  | .pool r => (s.region r).mode = 2
  | .host => false
  | .hole => false

/-- Near memory or DRAM. -/
def isDevMem (pa : Nat) : Bool :=
  match kindOf pa with
  | .near => true
  | .dram _ => true
  | _ => false

/-- The pool region of an address. -/
def poolOf (pa : Nat) : Option Nat :=
  match kindOf pa with
  | .pool r => some r
  | _ => none

/-- Whether an address is host memory. -/
def isHost (pa : Nat) : Bool :=
  match kindOf pa with
  | .host => true
  | _ => false

/-- What a byte of memory that nothing has written reads as. DESIGN CHOICE (log 1): the manual gives
power-on contents for scratchpad alone. -/
def emptyByte : Byte := 0

/-- The canonical form of memory: addresses rise strictly and no entry holds the value of an unlisted byte. -/
def Memory.wf (m : List Host.Cell) : Bool := canon emptyByte m

/-- One byte of memory at its point of coherence. -/
def State.byte (s : State) (a : Nat) : Byte := sget emptyByte s.mem a

/-- Writes one byte of memory at its point of coherence. -/
def State.setByte (s : State) (a : Nat) (b : Byte) : State := { s with mem := sset emptyByte s.mem a b }

/-- Writes consecutive bytes. -/
def State.setBytes (s : State) (a : Nat) : List Byte → State
  | [] => s
  | b :: r => (s.setByte a b).setBytes (a + 1) r

/-- Four little-endian bytes as a word (R5). -/
def wordOf (b0 b1 b2 b3 : Byte) : Word := b3 ++ b2 ++ b1 ++ b0

/-- The word with physical index `w` at its point of coherence. -/
def State.word (s : State) (w : Nat) : Word :=
  wordOf (s.byte (4 * w)) (s.byte (4 * w + 1)) (s.byte (4 * w + 2)) (s.byte (4 * w + 3))

/-- Byte `i` of a word. -/
def byteOf (v : Word) (i : Nat) : Byte := (v >>> (8 * i)).truncate 8

/-- Writes the word with physical index `w` at its point of coherence. -/
def State.setWord (s : State) (w : Nat) (v : Word) : State :=
  s.setBytes (4 * w) [byteOf v 0, byteOf v 1, byteOf v 2, byteOf v 3]

/-- `old` with the bytes of `mask` taken from `new` (R243). -/
def mixBytes (mask : BitVec 4) (old new : Word) : Word :=
  wordOf (if mask.getLsbD 0 then byteOf new 0 else byteOf old 0)
    (if mask.getLsbD 1 then byteOf new 1 else byteOf old 1)
    (if mask.getLsbD 2 then byteOf new 2 else byteOf old 2)
    (if mask.getLsbD 3 then byteOf new 3 else byteOf old 3)

/-- Whether a word is poisoned at its home (R469). -/
def State.poisoned (s : State) (w : Nat) : Bool := sget false s.pois w

/-- Sets or clears a word's poison. -/
def State.setPois (s : State) (w : Nat) (p : Bool) : State := { s with pois := sset false s.pois w p }

/-- Core `c`. -/
def State.core (s : State) (c : Nat) : Core := sget {} s.cores c

/-- Writes core `c`. -/
def State.setCore (s : State) (c : Nat) (k : Core) : State := { s with cores := sset {} s.cores c k }

/-- Pipe `p` of the device (4 * core + pipe). -/
def State.pipe (s : State) (p : Nat) : Pipe := sget {} s.pipes p

/-- Writes pipe `p`. -/
def State.setPipe (s : State) (p : Nat) (v : Pipe) : State := { s with pipes := sset {} s.pipes p v }

/-- Home slice `k` (64 * die + slice). -/
def State.slice (s : State) (k : Nat) : Slice := sget {} s.slices k

/-- Writes home slice `k`. -/
def State.setSlice (s : State) (k : Nat) (v : Slice) : State := { s with slices := sset {} s.slices k v }

/-- Stands for the group of a write whose group is gone or that comes from outside the device. -/
def noGroupKey : Nat := 2 ^ 20

/-- The next value of the free-value counter, and the state that has taken it. -/
def State.takeFree (s : State) : Nat × State := (s.free, { s with free := s.free + 1 })

end Sys2Proof.Machine
end

