-- ==== Sys2Proof/Machine/Cells.lean ====
section
/-! DEFINITION. What a home slice keeps of a cell and how it applies tested stores: views, sibling
sets, generations, the dot array, and hidden writes (R286 to R293, R380, R503). -/

namespace Sys2Proof.Machine

open Sys2Proof

/-! ### The dot array -/

/-- The summary dot of a line outside the dot array, as a slice keeps it (R286). -/
def summaryDot (sl : Slice) (line : Nat) : Dot := sget {} sl.summ line

/-- A line of a versioned-family region, whose summary dot stands in the region's side area (R442). -/
def State.sideKept (s : State) (line : Nat) : Bool := (poolOf (128 * line)).isSome && s.isCell (128 * line)

/-- The address of a line's summary dot in the side area of its region (R442). -/
def sideAddr (line : Nat) : Nat :=
  let base := 128 * line / 2 ^ 28 * 2 ^ 28
  base + 0xf000000 + 8 * ((128 * line - base) / 128)

/-- The summary dot that the side area of its region holds for a line (R442). -/
def State.sideDot (s : State) (line : Nat) : Dot :=
  bitsDot (BitVec.ofNat 64 (ofBytes ((List.range 8).map (fun i => s.byte (sideAddr line + i)))))

/-- The device holds a line of a versioned-family region under CXL ownership (R443). -/
def State.owns (s : State) (line : Nat) : Bool :=
  match poolOf (128 * line) with
  | some r => (s.region r).owned.contains line
  | none => false

/-- The summary dot of a line outside the dot array (R286); while the device does not own a line of a versioned-family region, that of
its side area (R443). -/
def State.summaryOf (s : State) (line : Nat) : Dot :=
  if s.sideKept line && !(s.owns line) then s.sideDot line else summaryDot (s.slice (s.homeSlice (128 * line))) line

/-- Stores the summary dot of a line in its slice's metadata (R286). -/
def State.setSummary (s : State) (line : Nat) (d : Dot) : State :=
  let k := s.homeSlice (128 * line)
  s.setSlice k { s.slice k with summ := sset {} (s.slice k).summ line d }

/-- The lines that a region's table entry lists as owned are changed. -/
def State.setOwned (s : State) (line : Nat) (f : List Nat → List Nat) : State :=
  match poolOf (128 * line) with
  | some r => { s with regions := upd s.regions r (fun g => { g with owned := f g.owned }) }
  | none => s

/-- The device takes ownership of a line of a versioned-family region: its summary dot is read back, and its spill entries, which are
free then (R443). -/
def State.reown (s : State) (line : Nat) : State :=
  if s.sideKept line && !(s.owns line) then
    let s := (s.setSummary line (s.sideDot line)).setOwned line (fun l => line :: l)
    match poolOf (128 * line) with
    | some r => { s with regions := upd s.regions r (fun g => { g with spill := g.spill.filter (fun e => !(e.2 / 32 = line)) }) }
    | none => s
  else s

/-- The stored dot of a word (R286): its record's, or its line's summary dot. -/
def State.storedDot (s : State) (w : Nat) : Dot :=
  match find s.cells w with
  | some r => r.dot
  | none => s.summaryOf (w / 32)

/-- The record of a cell. -/
def State.cellRec (s : State) (w : Nat) : CellRec :=
  match find s.cells w with
  | some r => r
  | none => { dot := s.summaryOf (w / 32) }

/-- Whether a dot is the null dot (R280). -/
def Dot.isNull (d : Dot) : Bool := d.serial = 0 && d.time = 0

/-- The summary of the dots of a line's words (R286): the latest time of those written, under their common serial. -/
def sumDots (l : List Dot) : Dot :=
  match l.filter (fun d => !d.isNull) with
  | [] => {}
  | d :: r =>
    let t := r.foldl (fun t e => timeMax t e.time) d.time
    if l.all (fun e => e.serial = d.serial) then { serial := d.serial, time := t }
    else { serial := 0, time := t }

/-- The word indices of a line. -/
def lineWords (line : Nat) : List Nat := (List.range 32).map (fun i => 32 * line + i)

/-- The dots that a word gives to its line's summary: its siblings', or its own. -/
def State.wordDots (s : State) (w : Nat) : List Dot :=
  match find s.cells w with
  | some r => if r.vals.isEmpty then [r.dot] else r.vals.map (·.dot)
  | none => [s.storedDot w]

/-- A record that keeps nothing beside its line's summary dot. -/
def bareRec (r : CellRec) : Bool := r.vals.isEmpty && r.vrec.isEmpty

/-- A cell's record with its line's summary dot (R286): a single value's vector record goes with its value. -/
def CellRec.summed (r : CellRec) (d : Dot) : CellRec :=
  { r with dot := d, prior := none
           vrec := if r.vals.isEmpty then r.vrec.map (fun v => { v with dot := d }) else r.vrec }

/-- Cells with the words of a line on its summary dot. -/
def sumCells (line : Nat) (d : Dot) (m : Map CellRec) : Map CellRec :=
  (lineWords line).foldl (fun m w =>
    match find m w with
    | none => m
    | some r => if bareRec r then del m w else put m w (r.summed d)) m

/-- Takes a line out of the dot array with a summary dot. -/
def State.summarise (s : State) (line : Nat) (d : Dot) : State :=
  let k := s.homeSlice (128 * line)
  { (s.setSlice k { s.slice k with lines := del (s.slice k).lines line }).setSummary line d with cells := sumCells line d s.cells }

/-- Takes a line out of the dot array: its words keep one summary dot (R286). -/
def State.dropLine (s : State) (line : Nat) : State :=
  s.summarise line (sumDots ((lineWords line).flatMap s.wordDots))

/-- The line of a full dot array that leaves it: the oldest write, then the lower address (R286). -/
def oldestLine : List (Nat × BitVec 40) → Option (Nat × BitVec 40)
  | [] => none
  | e :: r =>
    match oldestLine r with
    | none => some e
    | some f => if e.2 = f.2 then (if e.1 ≤ f.1 then some e else some f)
                else if timeLe e.2 f.2 then some e else some f

/-- Records a write to a line in its slice's dot array of 1,024 lines (R286). -/
def State.touchLine (s : State) (line : Nat) (t : BitVec 40) : State :=
  let s := s.reown line
  let k := s.homeSlice (128 * line)
  let sl := s.slice k
  let s := match find sl.lines line with
    | some _ => s
    | none =>
      if sl.lines.length < 1024 then s
      else match oldestLine sl.lines with
        | none => s
        | some (old, _) => s.dropLine old
  let sl := s.slice k
  let t := match find sl.lines line with
    | some u => timeMax u t
    | none => t
  s.setSlice k { sl with lines := put sl.lines line t }

/-! ### Views (R503) -/

/-- A conversation as a hidden tag names it: the conversation, or the team alone (R380). -/
def teamConv (s : State) (t : Nat) : Nat :=
  match find s.teams t with
  | some tm => (match tm.conv with | some c => 2 * c + 1 | none => 2 * t)
  | none => 2 * t

/-- The single value of a cell as a list of one. -/
def singleVal (s : State) (w : Nat) (r : CellRec) : CellVal :=
  { val := s.word w, dot := r.dot, prior := r.prior, pois := s.poisoned w }

/-- All values a cell's home keeps, in dot order. -/
def State.allVals (s : State) (w : Nat) : List CellVal :=
  let r := s.cellRec w
  if r.vals.isEmpty then [singleVal s w r] else dotSort (·.dot) r.vals

/-- Whether a value stands in the view of conversation `cv`. -/
def inView (cv : Option Nat) (v : CellVal) : Bool :=
  (match v.hid with | none => true | some h => decide (cv = some h.conv))
  && v.disp.all (fun h => decide (cv ≠ some h.conv))

/-- The view of a cell by a reader of conversation `cv` (R503), in dot order. -/
def State.view (s : State) (w : Nat) (cv : Option Nat) : List CellVal :=
  (s.allVals w).filter (inView cv)

/-- CNT of a view: 0 for a single value (R297). -/
def viewCnt (l : List CellVal) : Nat := if l.length ≤ 1 then 0 else l.length

/-- The first value of a view (R298). -/
def viewVal (l : List CellVal) : Word :=
  match l with
  | [] => 0
  | v :: _ => v.val

/-- Whether the first value of a view is poisoned. -/
def viewPois (l : List CellVal) : Bool :=
  match l with
  | [] => false
  | v :: _ => v.pois

/-- The status word of a view (R297). -/
def statusWord (r : CellRec) (l : List CellVal) : DWord :=
  if viewCnt l = 0 then 0
  else (r.gen.zeroExtend 64 <<< 40)
    ||| ((if r.base.isSome then (1 : DWord) else 0) <<< 35)
    ||| (BitVec.ofNat 64 (viewCnt l) <<< 32)
    ||| ((r.base.getD 0).zeroExtend 64)

/-! ### Generations and the sibling store -/

/-- The next generation: after 0xff_ffff comes 1 (R288). -/
def nextGen (g : BitVec 24) : BitVec 24 := if g + 1 = 0 then 1 else g + 1

/-- A new generation of a home slice (R288). -/
def State.drawGen (s : State) (k : Nat) : BitVec 24 × State :=
  let g := nextGen (s.slice k).gen
  (g, s.setSlice k { s.slice k with gen := g })

/-- The conversations that have hidden writes on a cell. -/
def hidConvs (l : List CellVal) : List Nat :=
  (l.filterMap (fun v => v.hid.map (·.conv))) ++ (l.flatMap (fun v => v.disp.map (·.conv)))

/-- The views of a set of values: that of every reader outside, and that of each conversation (R503). -/
def viewsOf (l : List CellVal) : List (List CellVal) :=
  (none :: (hidConvs l).map some).map (fun cv => l.filter (inView cv))

/-- Every view of a set of values holds at most four (R503). -/
def viewsFit (l : List CellVal) : Bool := (viewsOf l).all (fun v => v.length ≤ 4)

/-- Some view of the values is a sibling set: the cell then has a generation (R288, R503). -/
def isSet (l : List CellVal) : Bool := (viewsOf l).any (fun v => decide (2 ≤ v.length))

/-- Hidden writes of several conversations stand on a cell: their publications make a set of them (R382, R503). -/
def willSet (l : List CellVal) : Bool := decide (2 ≤ (l.filterMap (fun v => v.hid.map (·.conv))).dedup.length)

/-- Sibling-store entries of one cell (R291, R380): a set's base and values, or the records that hidden writes replaced;
five to each vector record. Hidden writes of several conversations hold the base's entry from the start, so that a publication,
which cannot fail, never needs an entry. DESIGN CHOICE (log 159). -/
def recEntries (r : CellRec) : Nat :=
  (if isSet r.vals || willSet r.vals then r.vals.length + 1 else r.vals.length - 1) + 5 * r.vrec.length

/-- Whether the values, base and vector records of a line stand in spill entries of its region's side area (R443). -/
def State.spilled (s : State) (line : Nat) : Bool :=
  match poolOf (128 * line) with
  | none => false
  | some r => (s.region r).spill.any (fun e => e.2 / 32 = line)

/-- Sibling-store entries in use at a slice (R291): those of a spilled line are free (R443). -/
def State.entriesUsed (s : State) (k : Nat) : Nat :=
  (s.cells.filter (fun e => s.homeSlice (4 * e.1) = k && !(s.spilled (e.1 / 32)))).foldl (fun n e => n + recEntries e.2) 0

/-- The side area of a cell's region has spill entries for all that the region's cells hold (R443). -/
def State.sideFits (s : State) (w : Nat) : Bool :=
  match poolOf (4 * w) with
  | none => true
  | some r => decide ((s.cells.filter (fun e => poolOf (4 * e.1) = some r)).foldl (fun n e => n + recEntries e.2) 0 ≤ 65536)

/-- The oldest vector record of a slice, with its cell (R285). -/
def State.oldestVrec (s : State) (k : Nat) : Option (Nat × VRec) :=
  (s.cells.filter (fun e => s.homeSlice (4 * e.1) = k)).foldl (fun o e =>
    e.2.vrec.foldl (fun o v =>
      match o with
      | none => some (e.1, v)
      | some (w, u) => if timeLe u.dot.time v.dot.time then some (w, u) else some (e.1, v)) o) none

/-- Evicts vector records of a slice, oldest first, until its entries fit or none is left (R285, R292). -/
def State.evictRecs (s : State) (k : Nat) : Nat → State
  | 0 => s
  | fuel + 1 =>
    if s.entriesUsed k ≤ 16384 then s
    else match s.oldestVrec k with
      | none => s
      | some (w, v) =>
        ({ s with cells := upd s.cells w (fun r => { r with vrec := r.vrec.erase v }) } : State).evictRecs k fuel

/-- Room in a slice's sibling store; `none` when evicting vector records does not make it (R291, R292). -/
def State.makeRoom (s : State) (k : Nat) : Option State :=
  let t := s.evictRecs k 4096
  if t.entriesUsed k ≤ 16384 then some t else none

/-- Writes a cell's record. -/
def State.setRec (s : State) (w : Nat) (r : CellRec) : State := { s with cells := put s.cells w r }

/-- Writes a cell's memory word, with its poison. -/
def State.setVal (s : State) (w : Nat) (v : CellVal) : State := (s.setWord w v.val).setPois w v.pois

/-- The vector records whose values stand (R285). -/
def standing (l : List CellVal) (vs : List VRec) : List VRec :=
  vs.filter (fun r => l.any (fun v => v.dot = r.dot && v.hid = r.hid))

/-- Brings a cell's values to rest (R503): one ordinary value that nothing displaces becomes a single
value in memory, whose prior value is its own or the base. -/
def State.settle (s : State) (w : Nat) (r : CellRec) : State :=
  let r := { r with vrec := standing r.vals r.vrec }
  match r.vals with
  | [v] =>
    if v.hid.isNone && v.disp.isEmpty then
      let p := match v.prior with
        | some p => some p
        | none => r.base
      ((s.setVal w v).setRec w { r with dot := v.dot, prior := p, vals := [], base := none, gen := 0 }).touchLine (w / 32) v.dot.time
    else s.setRec w r
  | vs =>
    match (dotSort (·.dot) vs).filter (inView none) with
    | v :: _ => (s.setVal w v).setRec w r
    | [] => s.setRec w r

/-- Displaces or removes the values of `gone` (R288, R380): a hidden write keeps them displaced, except
values of its own team and level. -/
def displace (hid : Option HidTag) (gone : List CellVal) (l : List CellVal) : List CellVal :=
  match hid with
  | none => l.filter (fun v => !gone.contains v)
  | some h =>
    (l.filter (fun v => !(gone.contains v && decide (v.hid = some h)))).map (fun v =>
      if gone.contains v then { v with disp := h :: v.disp } else v)

/-- The base of a set that forms otherwise than by a race against a single value of the writer's view: the value that a
hidden write of it replaced. DEDUCED (log 110). -/
def hidPrior (l : List CellVal) : Option Word := (l.filterMap (fun v => if v.hid.isSome then v.prior else none)).head?

/-- The values and the base of a cell once `nv` takes the place of a whole view (R288, R301). -/
def collapsed (r : CellRec) (all view : List CellVal) (nv : CellVal) : List CellVal × Option Word :=
  (displace nv.hid view all ++ [{ nv with prior := r.base }], r.base)

/-- The values and the base of a cell after a store of `nv` that carries vector `V` and is tested against `view`
(R288, R503). DEDUCED (log 104). -/
def cellAfter (r : CellRec) (all view : List CellVal) (nv : CellVal) (V : VVec) : List CellVal × Option Word :=
  match view with
  | [v1] =>
    if dominates V v1.dot then
      let vals := displace nv.hid [v1] all ++ [{ nv with prior := some v1.val }]
      if isSet vals then (displace nv.hid [v1] all ++ [nv], if isSet all then r.base else hidPrior all) else (vals, none)
    else (all ++ [nv], if isSet all then r.base else v1.prior)
  | _ =>
    let seen := view.filter (fun v => dominates V v.dot)
    if seen.length = view.length then collapsed r all view nv
    else (displace nv.hid seen all ++ [nv], r.base)

/-- A cell's record with other values, its base and generation following: a set that stands advances its generation, one
that forms draws it from the slice's counter, and without a set there is neither (R288, R503). -/
def State.withVals (s : State) (w : Nat) (r : CellRec) (vals : List CellVal) (base : Option Word) : CellRec × State :=
  if isSet vals then
    let (g, s) := if r.gen = 0 then s.drawGen (s.homeSlice (4 * w)) else (nextGen r.gen, s)
    ({ r with vals := vals, base := base, gen := g }, s)
  else ({ r with vals := vals, base := if vals.length = 1 then base else none, gen := 0 }, s)

/-- Puts `x`, the values and base of a cell after a write of `nv`, in place (R288, R292, R380); `none` when a view or the
sibling store or the side area cannot hold them (R443). `relVec` is the vector record that a `rel` attaches (R285), which takes the place of none that
stands with another value. DEDUCED (log 111). -/
def State.applyVals (s : State) (w : Nat) (nv : CellVal) (x : List CellVal × Option Word) (relVec : Option VVec) : Option State :=
  let s := s.reown (w / 32)
  let r := s.cellRec w
  if !viewsFit x.1 then none
  else
    let (r', s) := s.withVals w r x.1 x.2
    let r' := { r' with vrec := (match relVec with
      | none => []
      | some v => [{ vec := v, dot := nv.dot, hid := nv.hid }]) ++ standing x.1.dropLast r.vrec }
    match (s.setRec w r').makeRoom (s.homeSlice (4 * w)) with
    | none => none
    | some s => if s.sideFits w then some ((s.settle w (s.cellRec w)).touchLine (w / 32) nv.dot.time) else none

/-- Applies one tested store to a cell at its home (R288). -/
def State.applyStore (s : State) (w : Nat) (cv : Option Nat) (nv : CellVal) (V : VVec) (relVec : Option VVec) : Option State :=
  let all := s.allVals w
  s.applyVals w nv (cellAfter (s.cellRec w) all (all.filter (inView cv)) nv V) relVec

/-- Applies a reconcile of a view to a cell at its home (R288, R301, R302). -/
def State.applyCollapse (s : State) (w : Nat) (cv : Option Nat) (nv : CellVal) : Option State :=
  let all := s.allVals w
  s.applyVals w nv (collapsed (s.cellRec w) all (all.filter (inView cv)) nv) none

/-- The value that a store of the bytes of `mask` leaves (R290): the rest comes from the value it replaces, or from the
first of the view, with that value's poison. DEDUCED (log 112). -/
def State.mixStore (s : State) (w : Nat) (cv : Option Nat) (mask : BitVec 4) (v : Word) (p : Bool) : Word × Bool :=
  if mask = 0xf then (v, p) else (mixBytes mask (viewVal (s.view w cv)) v, p || viewPois (s.view w cv))

/-! ### Publication and rollback of hidden writes (R382, R385, R503) -/

/-- Whether a hidden tag is of team `t` at level `lv` or deeper. -/
def tagOf (t lv : Nat) (h : HidTag) : Bool := h.team = t && lv ≤ h.level

/-- A hidden tag that a record carries on, if it carries any. -/
def tagged (p : HidTag → Bool) : Option HidTag → Bool
  | some h => p h
  | none => false

/-- Whether a value is hidden by or displaced by a tag that `p` accepts. -/
def touchedBy (p : HidTag → Bool) (v : CellVal) : Bool := tagged p v.hid || v.disp.any p

/-- Changes the values of one cell that a tag of `p` touches by `f` and the tags of its vector records by `h`, and settles
it; the generation follows, and vector records make room for a set that forms (R285, R291). -/
def State.rework (s : State) (w : Nat) (p : HidTag → Bool) (f : List CellVal → List CellVal)
    (h : Option HidTag → Option HidTag) : State :=
  match find s.cells w with
  | none => s
  | some r =>
    if r.vals.any (touchedBy p) then
      let vals := f r.vals
      let (r', s) := s.withVals w r vals (if isSet r.vals then r.base else if isSet vals then hidPrior r.vals else none)
      (s.settle w { r' with vrec := r.vrec.map (fun v => { v with hid := h v.hid }) }).evictRecs (s.homeSlice (4 * w)) 4096
    else s

/-- Publication of one cell's values of team `t`: hidden values become ordinary, and what they displaced
goes (R503). -/
def publishVals (t : Nat) (l : List CellVal) : List CellVal :=
  (l.filter (fun v => !(v.disp.any (tagOf t 0)))).map (fun v =>
    if tagged (tagOf t 0) v.hid then { v with hid := none } else v)

/-- Rollback of one cell's values of team `t` from level `lv`: its hidden values go, and what they
displaced stands again (R503). -/
def rollbackVals (t lv : Nat) (l : List CellVal) : List CellVal :=
  (l.filter (fun v => !(tagged (tagOf t lv) v.hid))).map (fun v =>
    { v with disp := v.disp.filter (fun h => !(tagOf t lv h)) })

/-- A hidden tag of level `lv` passed to the level outside it (R379). -/
def lowerTag (t lv : Nat) (h : HidTag) : HidTag := if tagOf t lv h then { h with level := lv - 1 } else h

/-- Passes hidden values of level `lv` to the level outside it (R379, R382). -/
def mergeVals (t lv : Nat) (l : List CellVal) : List CellVal :=
  (l.map (fun v => { v with hid := v.hid.map (lowerTag t lv), disp := (v.disp.map (lowerTag t lv)).dedup })).filter (fun v =>
    match v.hid with
    | some h => !(h.team = t && v.disp.contains h)
    | none => true)

/-- Cells that hold a value tagged by team `t`. -/
def State.cellsOf (s : State) (t : Nat) : List Nat :=
  (s.cells.filter (fun e => e.2.vals.any (touchedBy (fun h => h.team = t)))).map (·.1)

/-- Publishes every hidden write of team `t` at its homes (R382). -/
def State.publish (s : State) (t : Nat) : State :=
  (s.cellsOf t).foldl (fun s w =>
    s.rework w (tagOf t 0) (publishVals t) (fun h => if tagged (tagOf t 0) h then none else h)) s

/-- Takes back the hidden writes of team `t` from level `lv` on the cells that `q` accepts (R384, R385). -/
def State.takeBackOn (s : State) (t lv : Nat) (q : Nat → Bool) : State :=
  ((s.cellsOf t).filter q).foldl (fun s w => s.rework w (tagOf t lv) (rollbackVals t lv) (fun h => h)) s

/-- Takes back every hidden write of team `t` from level `lv` (R385). -/
def State.takeBack (s : State) (t lv : Nat) : State := s.takeBackOn t lv (fun _ => true)

/-- Passes the hidden writes of team `t` at level `lv` outward (R379). -/
def State.passOut (s : State) (t lv : Nat) : State :=
  (s.cellsOf t).foldl (fun s w =>
    match find s.cells w with
    | none => s
    | some r => s.settle w { r with vals := mergeVals t lv r.vals
                                    vrec := r.vrec.map (fun v => { v with hid := v.hid.map (lowerTag t lv) }) }) s

end Sys2Proof.Machine
end

