-- ==== Sys2Proof/Config.lean ====
section
/-! DEFINITION. What the manual leaves to the implementation, as constants without a value: no proof
can see what they are. Each is applied to the operands it depends on, or to the counter `State.free`. -/

namespace Sys2Proof

/-- The bytes of a saved image's body (R420: its encoding is the device's own), by save number and offset. -/
opaque Config.imageByte : Nat → Nat → Byte

/-- The value of a word whose stored data an uncorrectable error destroyed (R470), by occurrence. -/
opaque Config.lostWord : Nat → Word

/-- The 2,592 bytes of the device's identity public key (R463), by offset. -/
opaque Config.keyByte : Nat → Byte

/-- The bytes of a report's signature (R463): by occurrence, what is signed, and offset. -/
opaque Config.signByte : Nat → List Byte → Nat → Byte

/-- Whether the ML-DSA-87 signature of a firmware image verifies (R462), by its hash and its bytes. -/
opaque Config.imageSigned : BitVec 512 → List Byte → Bool

/-- The rollback number that a firmware image bears (R462). -/
opaque Config.imageNumber : List Byte → BitVec 64

/-- The image that a slot of module flash holds before any FWUPD (R462), by slot. -/
opaque Config.factoryImage : Nat → List Byte

/-- The parts of a firmware image for the Slate cores and for the command processors (R462, R463). -/
opaque Config.slatePart : List Byte → List Byte
opaque Config.cpPart : List Byte → List Byte

/-- The stepping of the part (R459). -/
opaque Config.stepping : BitVec 8

/-- Where the first capability entry stands, in 8-byte units from the DVSEC base (R459). -/
opaque Config.capBase : Nat

/-- The DRAM rate that die 0 trains under reduced service, in units of 0.1 GT/s (R459, R479). -/
opaque Config.reducedRate : BitVec 8

/-- The voltage in millivolts at and below which a test pattern fails in a calibration (R476), by occurrence. -/
opaque Config.failVolt : Nat → BitVec 16

/-- Nominal core voltage in millivolts (R476). -/
opaque Config.nominal : BitVec 16

/-- The pipe whose pattern fails at nominal voltage (R465), by occurrence. -/
opaque Config.failPipe : Nat → BitVec 2

/-- The pool device that answers a CXL address (R455). -/
opaque Config.poolDev : BitVec 64 → Nat

/-- Whether the timestamp counter is synchronised with the device of a fabric number (R424, R444). -/
opaque Config.synced : Nat → Bool

/-- Host channel on which a completion goes that the device originates (R452), by occurrence. -/
opaque Config.originCh : Nat → BitVec 4

/-- Choices that a page move leaves to the command processor (R262), by occurrence: the new page, the die of a hint. -/
opaque Config.movedPage : Nat → Nat

/-- The line that leaves a full L1 (R215), by occurrence: a place among the lines that may leave. -/
opaque Config.victim : Nat → Nat

/-- Old bits of scratchpad or register contents the manual leaves unstated, by occurrence. -/
opaque Config.freeWord : Nat → Word

end Sys2Proof
end

