-- ==== Sys2Proof/Machine/Rings.lean ====
section
/-! DEFINITION. Completion rings and event records: what the device reports to the host
(R422 to R425, R450, R451, R474). -/

namespace Sys2Proof.Machine

open Sys2Proof

/-! ### Completions (R450, R451) -/

/-- A host channel. -/
def State.hostCh (s : State) (ch : Nat) : HostCh := sget {} s.chs ch

/-- Writes a host channel's registers. -/
def State.setHostCh (s : State) (ch : Nat) (h : HostCh) : State := { s with chs := sset {} s.chs ch h }

/-- Ring registers that run a channel (R450). -/
def ringOf (h : HostCh) : Option (Nat × Nat × Nat × Nat) :=
  let ok (n : Nat) : Bool := decide (6 ≤ n) && decide (n ≤ 16)
  if ok h.sqlog.toNat && ok h.cqlog.toNat then some (h.sqbase.toNat, h.sqlog.toNat, h.cqbase.toNat, h.cqlog.toNat) else none

/-- The 128 bytes of a completion entry (R451). -/
def completionBytes (c : Completion) : List Byte :=
  bytesOf c.tag.toNat 4 ++ bytesOf c.kind 1 ++ [0] ++ bytesOf c.status 2 ++ bytesOf c.time.toNat 8
    ++ (c.body ++ List.replicate 112 0).take 112

/-- Whether a channel runs and its completion ring has room (R450). -/
def ringRoom (h : HostCh) : Bool :=
  match h.ring with
  | none => false
  | some (_, _, _, cqlog) => h.en && decide (h.cqtail - h.cqhead ≠ BitVec.ofNat 32 (2 ^ cqlog))

/-- Writes one completion into its channel's ring in host memory. -/
def State.writeCompletion (s : State) (c : Completion) : State :=
  let h := s.hostCh c.ch
  match h.ring with
  | none => s
  | some (_, _, cq, cqlog) =>
    let s := s.setBytes (cq + 128 * (h.cqtail.toNat % 2 ^ cqlog)) (completionBytes c)
    s.setHostCh c.ch { h with cqtail := h.cqtail + 1 }

/-- Writes held completions of one channel in order while its ring has room. -/
def State.pumpList (s : State) (ch : Nat) : List Completion → State × List Completion
  | [] => (s, [])
  | c :: r =>
    if c.ch = ch && ringRoom (s.hostCh ch) then (s.writeCompletion c).pumpList ch r
    else
      let (s, l) := s.pumpList ch r
      (s, c :: l)

/-- Held completions of a channel go to its ring once there is room (R450). -/
def State.pump (s : State) (ch : Nat) : State :=
  let (s, l) := s.pumpList ch s.heldC
  { s with heldC := l }

/-- Reports a completion on a channel: written at once, or held for room (R450). -/
def State.complete (s : State) (ch : Nat) (tag : Word) (kind status : Nat) (body : List Byte) : State :=
  let c : Completion := { ch := ch, tag := tag, kind := kind, status := status, time := s.tsc, body := body }
  let s : State := { s with heldC := s.heldC ++ [c] }
  s.pump ch

/-- A completion that the device originates: TAG 0; its channel is a free value (R452). DESIGN CHOICE (log 29). -/
def State.originate (s : State) (kind : Nat) (body : List Byte) : State :=
  let (n, s) := s.takeFree
  s.complete (Config.originCh n).toNat 0 kind 0 body

/-! ### Events (R422 to R425) -/

/-- The 32 bytes of an event record (R422). -/
def eventBytes (e : Event) : List Byte :=
  bytesOf e.time.toNat 8 ++ bytesOf e.src 2 ++ bytesOf e.kind 2 ++ bytesOf e.dev 2 ++ [0, 0]
    ++ bytesOf e.d0.toNat 8 ++ bytesOf e.d1.toNat 8

/-- The die whose Slate core collects a source's events (R422, R423). -/
def srcDie (src : Nat) : Nat :=
  if src < 0x1000 then src / 64
  else if src < 0x2000 then (src - 0x1000) / 256
  else if src < 0x3000 then (src - 0x2000) / 64
  else if src < 0x3020 then src - 0x3000
  else if src < 0x3100 then portDie (src - 0x3020)
  else (src - 0x3100) / 6

/-- Die `d`. -/
def State.die (s : State) (d : Nat) : Die := sget {} s.dies d

/-- Writes die `d`. -/
def State.setDie (s : State) (d : Nat) (v : Die) : State := { s with dies := sset {} s.dies d v }

/-- The order of events: time, then device, then source (R21, R424). -/
def eventLt (a b : Event) : Bool :=
  decide (a.time.toNat < b.time.toNat) || (a.time = b.time && (decide (a.dev < b.dev) || (a.dev = b.dev && decide (a.src < b.src))))

/-- An event takes its place by time, device and source, and then as it was posted (R21, R424); the newest stand first. -/
def insEvent (e : Event) : List Event → List Event
  | [] => [e]
  | x :: r => if eventLt e x then x :: insEvent e r else e :: x :: r

/-- Firmware forwards an event record to the host (R422, R452). -/
def State.forward (s : State) (e : Event) : State :=
  let s : State := { s with events := insEvent e s.events }
  s.originate 66 (eventBytes e)

/-- Posts an event record: collected and forwarded, or queued in hardware while the die's firmware restarts
(R422, R474). -/
def State.post (s : State) (src kind : Nat) (d0 d1 : DWord) : State :=
  let e : Event := { time := s.tsc, src := src, kind := kind, dev := s.fabric.toNat, d0 := d0, d1 := d1 }
  let d := s.die (srcDie src)
  if d.restart then
    if d.hwq.length < 256 then s.setDie (srcDie src) { d with hwq := d.hwq ++ [e] }
    else s.setDie (srcDie src) { d with dropped := d.dropped + 1 }
  else s.forward e

/-- What other sources post in response to an event bears a time 1 ns later at least (R424). -/
def State.inResponse (s : State) (f : State → State) : State :=
  let t := f { s with tsc := s.tsc + 1 }
  { t with tsc := s.tsc }

end Sys2Proof.Machine
end

