-- ==== Sys2Proof/Machine/Vm.lean ====
section
/-! DEFINITION. The L1s and word registration (R242 to R244, R287 to R290, R381), and translation
(R206 to R209). -/

namespace Sys2Proof.Machine

open Sys2Proof

/-! ### L1 words -/

/-- Word `w` in the L1 of core `c`. -/
def State.l1At (s : State) (c w : Nat) : Option L1Word := find (s.core c).l1 w

/-- Puts word `w` into the L1 of core `c`. -/
def State.setL1 (s : State) (c w : Nat) (v : L1Word) : State :=
  s.setCore c { s.core c with l1 := put (s.core c).l1 w v }

/-- Drops word `w` from the L1 of core `c`. -/
def State.delL1 (s : State) (c w : Nat) : State :=
  s.setCore c { s.core c with l1 := del (s.core c).l1 w }

/-- The cores that hold word `w` registered, with their words (R243). -/
def State.registrants (s : State) (w : Nat) : List (Nat × L1Word) :=
  s.cores.filterMap (fun e =>
    match find e.2.l1 w with
    | some x => if x.reg then some (e.1, x) else none
    | none => none)

/-- The conversation that a hidden tag or a group's team belongs to (R380). -/
def State.groupConv (s : State) (g : Nat) : Option Nat :=
  (find s.groups g).map (fun gr => teamConv s gr.seat)

/-- The value of its home that a dirty L1 word fills: that of its writer tag (R287). -/
def L1Word.fills (x : L1Word) (v : CellVal) : Bool :=
  v.dot.serial = x.dot.serial && v.hid = x.hid && (x.dot.serial ≠ 0 || decide (v.dot = x.dot))

/-- A cell's record once the value of an L1 word fills it (R287): its dot is the word's, and the vector record of another value goes
(R285); a summary dot that stands for the word, of its line (R286) or of a repair (R294), stays where it is no earlier. -/
def CellRec.filled (r : CellRec) (d : Dot) : CellRec :=
  if !r.dot.isNull && (r.dot.serial = 0 || r.dot.serial = d.serial) && timeLe d.time r.dot.time then r
  else { r with dot := d, vrec := [] }

/-- Merges an L1 word's dirty bytes into the value at its home that its registration decided (R243, R287), with its poison
(R469). -/
def State.fill (s : State) (w : Nat) (x : L1Word) : State :=
  let bad (p : Bool) : Bool := x.pois || (p && !x.whole)
  if x.mask = 0 then s
  else if s.isCell (4 * w) then
    let r := s.cellRec w
    if r.vals.isEmpty then
      if x.hid.isNone then
        let s := (s.setWord w (mixBytes x.mask (s.word w) x.val)).setPois w (bad (s.poisoned w))
        if r.filled x.dot = r then s else (s.setRec w (r.filled x.dot)).touchLine (w / 32) x.dot.time
      else s
    else
      s.settle w { r with vals := r.vals.map (fun v =>
        if x.fills v then
          { v with val := mixBytes x.mask v.val x.val, dot := x.dot, pois := bad v.pois } else v) }
  else (s.setWord w (mixBytes x.mask (s.word w) x.val)).setPois w (bad (s.poisoned w))

/-- The view that a read served by the home slice returns, with registrants' values forwarded (R243). -/
def State.homeView (s : State) (w : Nat) (cv : Option Nat) : List CellVal :=
  ((s.registrants w).foldl (fun s e => s.fill w e.2) s).view w cv

/-- The word that a read served by the home slice returns. -/
def State.homeRead (s : State) (w : Nat) (cv : Option Nat) : Word := viewVal (s.homeView w cv)

/-- Whether a read served by the home slice returns poison. -/
def State.homePois (s : State) (w : Nat) (cv : Option Nat) : Bool := viewPois (s.homeView w cv)

/-- A store that reached the host port or a serving pool port awaits its acknowledgement (R242). -/
def State.expectAck (s : State) (grp w : Nat) (mask : BitVec 4) : State :=
  if isHost (4 * w) || (poolOf (4 * w)).isSome then { s with acks := s.acks ++ [{ grp := grp, w := w, mask := mask }] } else s

/-- The hidden values of a word that L1s hold reach its home, and stay in their pinned lines (R381). -/
def State.fillHidden (s : State) (w : Nat) : State :=
  (s.registrants w).foldl (fun s e => if e.2.hid.isSome then s.fill w e.2 else s) s

/-- Writes the dirty value of a registered word home and keeps an unregistered copy (R243). A hidden word
stays (R381). -/
def State.writeBack (s : State) (c w : Nat) : State :=
  match s.l1At c w with
  | none => s
  | some x =>
    if x.reg && x.hid.isNone then ((s.fill w x).setL1 c w { x with mask := 0, reg := false, whole := false }).expectAck x.grp w x.mask
    else s

/-- Every registrant of a word but core `c` writes it back (R243, R296). -/
def State.writeBackAll (s : State) (w : Nat) (keep : Option Nat) : State :=
  (s.registrants w).foldl (fun s e => if some e.1 = keep then s else s.writeBack e.1 w) s

/-- Whether an L1 word may be returned to a reader of conversation `cv` (R381). -/
def l1Visible (x : L1Word) (cv : Option Nat) : Bool :=
  match x.hid with
  | none => true
  | some h => cv = some h.conv

/-! ### Watch triggers (R342) -/

/-- The key of a watch entry in the range-lock table: 64 * slice key + entry. -/
def watchKey (k ent : Nat) : Nat := 64 * k + ent

/-- Releases the ranges of an owner in a core's range-lock table. -/
def State.unlock (s : State) (c : Nat) (o : RlOwner) : State :=
  s.setCore c { s.core c with locks := (s.core c).locks.filter (fun l => l.owner ≠ o) }

/-- Whether a watch covers a word. -/
def Watch.covers (wt : Watch) (w : Nat) : Bool := decide (wt.lo ≤ 4 * w) && decide (4 * w < wt.lo + wt.len)

/-- One trigger of a watch: the lowest word of its range that the store wrote, the value there, and the dot; dropped and
counted beyond 16 (R342, R343). A one-shot watch is disarmed. -/
def Watch.fire (wt : Watch) (w : Nat) (v : Word) (d : Dot) : Watch :=
  let wt' := if wt.trigs.length < 16 then { wt with trigs := wt.trigs ++ [(wt.va + BitVec.ofNat 64 (4 * w - wt.lo), v, d)] }
    else { wt with drops := if wt.drops = BitVec.allOnes 32 then wt.drops else wt.drops + 1 }
  { wt' with armed := wt.pers }

/-- A store performed at the home slice on the words `ws` of one line creates one trigger for each armed watch over any of
them; `v` is a word's value after it. -/
def State.triggerAs (s : State) (ws : List Nat) (d : Dot) (v : Nat → Word) : State :=
  let k := s.homeSlice (4 * ws.headD 0)
  (s.slice k).watches.foldl (fun s e =>
    match (if e.2.armed then ws.find? e.2.covers else none) with
    | none => s
    | some w =>
      let s := s.setSlice k { s.slice k with watches := put (s.slice k).watches e.1 (e.2.fire w (v w) d) }
      if e.2.pers then s else s.unlock e.2.core (.watch (watchKey k e.1))) s

/-- The triggers of a store that has been tested at its home, which holds its value. -/
def State.trigger (s : State) (ws : List Nat) (d : Dot) : State := s.triggerAs ws d (fun w => viewVal (s.view w none))

/-! ### Registrations (R243, R287 to R292) -/

/-- Appends a pending trap to a group (R411). -/
def State.addPend (s : State) (g : Nat) (p : PendTrap) : State :=
  { s with groups := upd s.groups g (fun gr => { gr with pend := gr.pend ++ [p] }) }

/-- The bytes of a store to the word at `va` by virtual address. -/
def storeBytes (va : DWord) (mask : BitVec 4) (v : Word) : List (Nat × Byte) :=
  ((List.range 4).filter (fun i => mask.getLsbD i)).map (fun i => (va.toNat / 4 * 4 + i, byteOf v i))

/-- The conversation a store is tested for; an engine's ordinary write is tested as one from outside every block. -/
def State.reqConv (s : State) (q : StoreReq) : Option Nat :=
  match q.hid with
  | some h => some h.conv
  | none => if q.eng then none else s.groupConv q.grp

/-- The words that a store writes, the lower first. -/
def StoreReq.words (q : StoreReq) : List Nat :=
  q.w :: (match q.pair with | some (w2, _) => [w2] | none => [])

/-- The bytes of a word that a store writes; of the second word, all. -/
def StoreReq.maskOn (q : StoreReq) (w : Nat) : BitVec 4 := if w = q.w then q.mask else 0xf

/-- The virtual address of the cell that word `w` of a store is (R292). -/
def StoreReq.cellVa (q : StoreReq) (w : Nat) : DWord := BitVec.ofNat 64 (q.va.toNat / 4 * 4 + (4 * w - 4 * q.w))

/-- A dirty word of an L1 that holds a store of group `grp` and is not registered. -/
def L1Word.pendingOf (x : L1Word) (grp : Nat) : Bool := x.grp = grp && x.mask ≠ 0 && !x.reg

/-- The sibling-overflow fault of a store whose cell is word `w` (R292). -/
def overflowTrap (q : StoreReq) (w : Nat) : PendTrap :=
  { num := 0x15, addr := q.cellVa w, info := 0x100, defer := true, dlane := q.lane, lpc := q.pc, idx := q.idx }

/-- A store that would be a fifth sibling, or finds no entry, is parked whole in its core's replay queue, and
its group is told; `w` is the word of the cell that fails (R292). -/
def State.parkFailed (s : State) (q : StoreReq) (w : Nat) : State :=
  let two := match q.pair with
    | none => storeBytes q.va q.mask q.val
    | some (_, v2) => storeBytes q.va q.mask q.val ++ storeBytes (q.va + 4) 0xf v2
  let ctx := match find s.groups q.grp with
    | some g => (match find s.teams g.seat with | some t => t.ctx | none => 0)
    | none => 0
  let k := s.core q.core
  let pk : Parked :=
    { grp := q.grp, ctx := ctx, why := .overflow, bytes := two, dot := q.dot, vec := q.vec, hid := q.hid,
      pc := q.pc, lane := q.lane, idx := q.idx, path := q.path, seq := q.seq, w64 := q.pair.isSome }
  let k := { k with
    replay := k.replay ++ [pk]
    l1 := k.l1.filter (fun e => !(q.words.contains e.1 && e.2.pendingOf q.grp)) }
  (s.setCore q.core k).addPend q.grp (overflowTrap q w)

/-- Applies one word of a tested store at its home; `none` when it fails (R288, R292). -/
def State.homeStore (s : State) (w : Nat) (cv : Option Nat) (q : StoreReq) (mask : BitVec 4) (v : Word) :
    Option State :=
  let s := s.writeBackAll w (some q.core)
  if s.isCell (4 * w) then
    let m := s.mixStore w cv mask v q.pois
    s.applyStore w cv { val := m.1, dot := q.dot, hid := q.hid, pois := m.2, pair := q.words.find? (fun u => u ≠ w) } q.vec
      (if q.rel then some q.vec else none)
  else some ((s.setWord w (mixBytes mask (s.word w) v)).setPois w (q.pois || (s.poisoned w && mask ≠ 0xf)))

/-- The value of a word at its home that a core holds dirty as `x`, and its poison (R287, R469). -/
def State.placeOf (s : State) (w : Nat) (x : L1Word) : Word × Bool :=
  match (s.cellRec w).vals.find? x.fills with
  | some v => (v.val, v.pois)
  | none => (s.word w, s.poisoned w)

/-- The L1 word of a tested store becomes registered, its other bytes as the home holds them (R243); a word that the L1
does not hold is at its home alone, and the store awaits the acknowledgement of the host or a pool device. -/
def State.register (s : State) (c w grp : Nat) (mask : BitVec 4) : State :=
  match s.l1At c w with
  | some x =>
    if x.mask ≠ 0 && x.grp = grp then
      let p := s.placeOf w x
      s.setL1 c w { x with reg := true, val := mixBytes x.mask p.1 x.val, pois := x.pois || (p.2 && !x.whole) }
    else s.expectAck grp w mask
  | none => s.expectAck grp w mask

/-- Tests the words of a store at their homes, none changed when one fails, which is answered (R105, R292). -/
def State.tryWords (s : State) (cv : Option Nat) (q : StoreReq) : Except Nat State :=
  match s.homeStore q.w cv q q.mask q.val with
  | none => .error q.w
  | some s1 =>
    match q.pair with
    | none => .ok s1
    | some (w2, v2) =>
      match s1.homeStore w2 cv q 0xf v2 with
      | none => .error w2
      | some s2 => .ok s2

/-- A store performed at its home triggers the watches over it, unless it is hidden (R342). -/
def State.fires (s : State) (q : StoreReq) : State := if q.hid.isNone then s.trigger q.words q.dot else s

/-- The dominance test of a store at its home slice (R287); the word that fails is answered. -/
def State.tryStore (s : State) (q : StoreReq) : Except Nat State :=
  (s.tryWords (s.reqConv q) q).map (fun s => (q.words.foldl (fun s w => s.register q.core w q.grp (q.maskOn w)) s).fires q)

/-- The replay queue of a core is full (R210). -/
def State.replayFull (s : State) (c : Nat) : Bool := decide (32 ≤ (s.core c).replay.length)

/-- A store is tested at its home slice; one that fails is parked, or tried again while the replay queue is full (R287,
R292). DEDUCED (log 9). -/
def State.testStore (s : State) (q : StoreReq) : State :=
  match s.tryStore q with
  | .ok t => t
  | .error w => if s.replayFull q.core then { s with regQ := s.regQ ++ [q] } else s.parkFailed q w

/-- Whether a pending registration of core `c` covers word `w`. -/
def reqHits (c w : Nat) (q : StoreReq) : Bool := q.core = c && q.words.contains w

/-- Tests every pending registration that `p` names, in order. -/
def State.testAll (s : State) (p : StoreReq → Bool) : State :=
  (s.regQ.filter p).foldl (fun s q => s.testStore q) { s with regQ := s.regQ.filter (fun q => !(p q)) }

/-- Tests every pending registration of core `c` for word `w`, in order. -/
def State.flushReqs (s : State) (c w : Nat) : State := s.testAll (reqHits c w)

/-! ### Lines of an L1 (R214, R215) -/

/-- The lines present in an L1. -/
def linesOf : Map L1Word → List Nat
  | [] => []
  | [e] => [e.1 / 32]
  | e :: f :: r => if e.1 / 32 = f.1 / 32 then linesOf (f :: r) else e.1 / 32 :: linesOf (f :: r)

/-- Lines of an L1 that hold hidden words (R377, R381). -/
def pinnedLines (m : Map L1Word) : List Nat := linesOf (m.filter (fun e => e.2.hid.isSome))

/-- 64 KiB units of a core's scratchpad that its seated teams hold (R213). -/
def State.unitsHeld (s : State) (c : Nat) : Nat :=
  ((s.teams.filter (fun e => e.1 / 16 = c)).map (fun e => (e.2.spadB + 65535) / 65536)).sum

/-- Lines that a core's L1 holds: 8,192, and 512 for each unit lent to it (R214, R215). -/
def State.l1Cap (s : State) (c : Nat) : Nat := 8192 + 512 * (32 - s.unitsHeld c)

/-- A line leaves an L1: its dirty words are registered and written back, and the line is dropped. -/
def State.evictLine (s : State) (c line : Nat) : State :=
  let ws := (lineWords line).filter (fun w => match s.l1At c w with | some x => x.mask ≠ 0 | none => false)
  let s := ws.foldl (fun s w => (s.flushReqs c w).writeBack c w) s
  s.setCore c { s.core c with l1 := (s.core c).l1.filter (fun e => !(e.1 / 32 = line)) }

/-- Lines leave a core's L1 until at most `n` are left, none that is pinned; `fuel` bounds them. DESIGN CHOICE (log 8). -/
def State.shrinkL1 (s : State) (c n : Nat) : Nat → State
  | 0 => s
  | fuel + 1 =>
    let m := (s.core c).l1
    if (linesOf m).length ≤ n then s
    else
      let free := (linesOf m).filter (fun l => !((pinnedLines m).contains l))
      let (k, s) := s.takeFree
      match free[Config.victim k % free.length]? with
      | none => s
      | some l => (s.evictLine c l).shrinkL1 c n fuel

/-- Room for a line in a core's L1 (R215). -/
def State.makeLine (s : State) (c line : Nat) : State :=
  if (linesOf (s.core c).l1).contains line then s else s.shrinkL1 c (s.l1Cap c - 1) 1

/-- Whether an L1 may keep an unregistered copy of a word: no hidden write makes its views differ (R381). -/
def State.cacheable (s : State) (w : Nat) : Bool := (s.cellRec w).vals.all (fun v => v.hid.isNone && v.disp.isEmpty)

/-- The copy of a word that a read served by the home slice leaves in an L1. -/
def State.copyOf (s : State) (w : Nat) (cv : Option Nat) : L1Word :=
  let v := s.homeView w cv
  { val := viewVal v, pois := viewPois v, dot := (v.map (·.dot)).headD {} }

/-- Fills an absent line of core `c`'s L1 with unregistered copies (R215, R244). -/
def State.fillLine (s : State) (c line : Nat) (cv : Option Nat) : State :=
  let s := s.makeLine c line
  (lineWords line).foldl (fun s' w =>
    match s'.l1At c w with
    | some _ => s'
    | none => if s.cacheable w then s'.setL1 c w (s.copyOf w cv) else s') s

/-- A dirty word whose registration is on its way, with the bytes that it has not written as its home holds them (R243, R244). -/
def State.freshened (s : State) (w : Nat) (cv : Option Nat) (x : L1Word) : L1Word :=
  if x.reg || x.mask = 0 || x.mask = 0xf then x
  else { x with val := mixBytes x.mask (s.homeRead w cv) x.val, pois := s.homePois w cv }

/-- A registered word no longer stands for its cell to a reader of conversation `cv`: the cell holds siblings (R222), or
another hidden write has replaced it (R381). -/
def State.outrun (s : State) (w : Nat) (cv : Option Nat) (x : L1Word) : Bool :=
  let v := s.homeView w cv
  x.reg && (decide (2 ≤ v.length) || (x.hid.isSome && !(v.any x.fills)))

/-- The L1 word that serves a load: none that a reader of conversation `cv` may not see, no unregistered byte when the
load reads `past` them (R244), and no registered word that its cell has outrun. -/
def State.l1Serves (s : State) (c w : Nat) (cv : Option Nat) (past : Bool) : Option L1Word :=
  match s.l1At c w with
  | none => none
  | some x =>
    if l1Visible x cv && (!past || x.reg || x.mask ≠ 0) && !(s.outrun w cv x) then
      some (if past then s.freshened w cv x else x)
    else none

/-- A load of one word by core `c`: the L1's copy when it holds one, which may be stale; else the line is
fetched through the home (R244). -/
def State.loadWord (s : State) (c w : Nat) (cv : Option Nat) : State × Word × Bool :=
  match s.l1Serves c w cv false with
  | some x => (s, x.val, x.pois)
  | none => (if (s.l1At c w).isNone then s.fillLine c (w / 32) cv else s, s.homeRead w cv, s.homePois w cv)

/-- A load that reads past every unregistered copy, which it brings up to date (R244). -/
def State.loadHome (s : State) (c w : Nat) (cv : Option Nat) : State × Word × Bool :=
  match s.l1Serves c w cv true with
  | some x => (s, x.val, x.pois)
  | none =>
    let s' := match s.l1At c w with
      | some x => if x.mask = 0 && s.cacheable w then s.setL1 c w (s.copyOf w cv) else s
      | none => s
    (s', s.homeRead w cv, s.homePois w cv)

/-- The values that a load of a cell finds, by dot and hidden tag, whose vector records an acquire merges (R285). -/
def State.found (s : State) (c w : Nat) (cv : Option Nat) (past : Bool) : List (Dot × Option HidTag) :=
  match s.l1Serves c w cv past with
  | some x => [(x.dot, x.hid)]
  | none => (s.homeView w cv).map (fun v => (v.dot, v.hid))

/-- An acquire at clus scope or wider drops every unregistered word of the L1, and of a dirty word on its way the bytes that it
has not written (R244). -/
def State.dropStale (s : State) (c : Nat) : State :=
  s.setCore c { s.core c with l1 := ((s.core c).l1.filter (fun e => e.2.reg || e.2.mask ≠ 0)).map (fun e =>
    (e.1, s.freshened e.1 (match e.2.hid with | some h => some h.conv | none => s.groupConv e.2.grp) e.2)) }

/-! ### Stores (R243, R287, R289, R380) -/

/-- The word enters the writer's L1 as a dirty word (R243). -/
def State.dirty (s : State) (q : StoreReq) (w : Nat) (mask : BitVec 4) (v : Word) (x : L1Word) : State :=
  s.setL1 q.core w { val := mixBytes mask x.val v, mask := x.mask ||| mask, reg := x.reg, grp := q.grp,
                     dot := q.dot, hid := q.hid, pois := x.pois && mask ≠ 0xf, whole := x.whole || mask = 0xf }

/-- What a store that entered its L1 needs of its home: nothing under its own registration (R287), a registration that
travels in the background (R243), or its test in the same step, where the L1 does not keep it or kept another group's
registered value (R289). -/
inductive Need where
  | kept | queue | now
  deriving DecidableEq, Repr

/-- The greater need. -/
def Need.max (a b : Need) : Need :=
  match a, b with
  | .now, _ => .now
  | _, .now => .now
  | .queue, _ => .queue
  | _, b => b

/-- One word of a thread store enters its core's L1 where the L1 holds no dirty word of it. -/
def State.freshWord (s : State) (q : StoreReq) (w : Nat) (mask : BitVec 4) (v : Word) : State × Need :=
  let (s, v0, p0) := s.loadWord q.core w (s.reqConv q)
  (s.dirty q w mask v { val := v0, pois := p0 }, .queue)

/-- One word of a thread store enters its core's L1 (R243, R287, R289, R380). Another team's hidden word stays, and the
store is at the home alone (R381). DEDUCED (log 113). -/
def State.storeWord (s : State) (q : StoreReq) (w : Nat) (mask : BitVec 4) (v : Word) : State × Need :=
  let c := q.core
  match s.l1At c w with
  | none => s.freshWord q w mask v
  | some x =>
    if !(l1Visible x (s.reqConv q)) then (s, .now)
    else if x.mask = 0 then (s.dirty q w mask v { x with reg := false, whole := false }, .queue)
    else if x.dot.serial = q.dot.serial && x.hid = q.hid then (s.dirty q w mask v x, if x.reg then .kept else .queue)
    else if x.hid = q.hid && dominates q.vec x.dot then
      if x.reg then (((s.fill w x).expectAck x.grp w x.mask).dirty q w mask v { x with mask := 0, reg := false, whole := false }, .now) else (s.dirty q w mask v x, .queue)
    else
      let s := s.flushReqs c w
      match s.l1At c w with
      | none => s.freshWord q w mask v
      | some y =>
        let s := if y.hid.isNone then s.writeBack c w else s.fill w y
        if x.hid = q.hid then (s.delL1 c w, .now) else (s.dirty q w mask v { y with mask := 0, reg := false, whole := false }, .queue)

/-- The words of a thread store enter its core's L1: what each needs of its home. -/
def State.enterWords (s : State) (q : StoreReq) : State × Need × Option Need :=
  let (s, n1) := s.storeWord q q.w q.mask q.val
  match q.pair with
  | none => (s, n1, none)
  | some (w2, v2) =>
    let (s, n2) := s.storeWord q w2 0xf v2
    (s, n1, some n2)

/-- A word that the store's core holds registered under its tag goes home, and its next store is tested again. -/
def State.unkeep (s : State) (q : StoreReq) (w : Nat) : State :=
  match s.l1At q.core w with
  | some x =>
    if x.reg && x.dot.serial = q.dot.serial && x.hid = q.hid then
      ((s.fill w x).setL1 q.core w { x with mask := 0, reg := false, whole := false }).expectAck x.grp w x.mask
    else s
  | none => s

/-- The words of a thread store enter its L1. Where one word of a 64-bit store needs a test and the other none, both are tested, so
that neither changes when the store fails (R105). -/
def State.enterL1 (s : State) (q : StoreReq) : State × Need :=
  match s.enterWords q with
  | (t, n, none) => (t, n)
  | (t, n, some m) =>
    if decide (n = .kept) = decide (m = .kept) then (t, n.max m)
    else
      match (q.words.foldl (fun s w => s.unkeep q w) s).enterWords q with
      | (t, n, m) => (t, n.max (m.getD .kept))

/-- A thread store enters its core's L1 and, where needed, its registration sets out or is tested, after those of its
words that stand before it (R243). A store to words that stand registered under its tag is performed at once, and triggers the
watches over them (R242, R287, R342). -/
def State.storeL1 (s : State) (q : StoreReq) : State :=
  match s.enterL1 q with
  | (s, .kept) => if q.hid.isNone then s.triggerAs q.words q.dot (fun w => s.homeRead w none) else s
  | (s, .queue) => { s with regQ := s.regQ ++ [q] }
  | (s, .now) => (q.words.foldl (fun s w => s.flushReqs q.core w) s).testStore q

/-- A write that the device makes at the home itself: an atomic, a page-table update, an engine or outside
write. `none` when a cell cannot hold it (R292). -/
def State.storeAtHome (s : State) (q : StoreReq) : Option State :=
  match (s.writeBackAll q.w none).tryWords (s.reqConv q) q with
  | .ok s => some ((s.expectAck q.grp q.w q.mask).fires q)
  | .error _ => none

/-- The result of a hidden write that is made at its home stands registered in a pinned line of the writer's L1 (R381), where
another team's hidden word does not; an ordinary one leaves no copy there. -/
def State.keepHidden (s : State) (w : Nat) (q : StoreReq) : State :=
  match q.hid, s.l1At q.core w with
  | none, _ => s.delL1 q.core w
  | some h, some x =>
    if l1Visible x (some h.conv) then
      s.setL1 q.core w
        { val := q.val, mask := 0xf, reg := true, grp := q.grp, dot := q.dot, hid := q.hid, pois := q.pois, whole := true } else s
  | some _, none =>
    (s.makeLine q.core (w / 32)).setL1 q.core w
      { val := q.val, mask := 0xf, reg := true, grp := q.grp, dot := q.dot, hid := q.hid, pois := q.pois, whole := true }

/-! ### Translation -/

/-- Kinds of access for permission checks (R208). -/
inductive AccK where
  | read | write | fetch
  deriving DecidableEq, Repr, Inhabited

/-- The number of an access kind in a fault report (R453). -/
def accNum : AccK → Nat
  | .read => 0
  | .write => 1
  | .fetch => 2

/-- A 64-bit value at a physical address, read coherently (R206). -/
def State.read64 (s : State) (pa : Nat) : Nat :=
  (s.homeRead (pa / 4) none).toNat + 2 ^ 32 * (s.homeRead (pa / 4 + 1) none).toNat

/-- The walker sets bits of the low half of a table entry by a compare-and-swap at its home (R207): with serial 0, the time, and
a vector that dominates the value read; a set of siblings refuses it. DEDUCED (log 133). -/
def State.orEntry (s : State) (floor : BitVec 40) (pa bits : Nat) : State :=
  let w := pa / 4
  let v := s.homeView w none
  let new := viewVal v ||| BitVec.ofNat 32 bits
  if new = viewVal v || 2 ≤ v.length then s
  else
    (s.storeAtHome { core := noGroupKey, grp := noGroupKey, w := w, val := new, dot := { serial := 0, time := s.now }
                     vec := { floor := floorMax floor ((v.map CellVal.dot).headD {}).time }, pois := viewPois v }).getD s

/-- How a walk ends. -/
inductive Walk where
  /-- V = 0; `upper` says that it is above level 0. -/
  | invalid (upper : Bool)
  | malformed
  | leaf (pa size : Nat) (w x prg mt : Bool) (ents : List Nat)
  deriving DecidableEq, Repr

/-- Bytes of a page mapped by a leaf at a level (R206). -/
def leafSize (lv : Nat) (c16 : Bool) : Nat :=
  if lv = 0 then (if c16 then 65536 else 4096) else if lv = 1 then 2 ^ 21 else 2 ^ 30

/-- An entry without its A, D and SW fields (R207). -/
def stableBits (e : Nat) : Nat := e - e / 2 ^ 7 % 32 * 2 ^ 7

/-- One level of the walk (R206, R207): `none` to go on with the next table, or the end.
C16 stands in no other entry than a leaf of level 0. DESIGN CHOICE (log 126). With V = 0 no other bit counts.
DESIGN CHOICE (log 134). -/
def State.walkLevel (s : State) (va lv table : Nat) : Nat × Option Walk :=
  let ea := table + 8 * (va / 2 ^ (12 + 9 * lv) % 512)
  let e := s.read64 ea
  let frame := e / 2 ^ 12 % 2 ^ 40 * 4096
  let c16 := bitOf e 5
  if !(bitOf e 0) then (0, some (.invalid (lv ≠ 0)))
  else if e / 2 ^ 52 ≠ 0 then (0, some .malformed)
  else if bitOf e 1 then
    let size := leafSize lv c16
    if 3 ≤ lv then (0, some .malformed)
    else if c16 && lv ≠ 0 then (0, some .malformed)
    else
      let base := table + 8 * (va / 2 ^ 16 % 32 * 16)
      let ents := if c16 then (List.range 16).map (fun i => base + 8 * i) else [ea]
      if c16 && ents.any (fun a => stableBits (s.read64 a) ≠ stableBits e) then (0, some .malformed)
      else if frame % size ≠ 0 then (0, some .malformed)
      else if bitOf e 6 && !(isHost frame) then (0, some .malformed)
      else (0, some (.leaf frame size (bitOf e 2) (bitOf e 3) (bitOf e 4) (bitOf e 6) [ea]))
  else if lv = 0 || c16 then (0, some .malformed)
  else (frame, none)

/-- The walk from a table through the given levels (R206). -/
def State.walkFrom (s : State) (va table : Nat) : List Nat → Walk
  | [] => .malformed
  | lv :: r =>
    match s.walkLevel va lv table with
    | (_, some e) => e
    | (t, none) => s.walkFrom va t r

/-- How a translation ends (R208). -/
inductive Tr where
  | ok (s : State) (pa : Nat) (mt : Bool)
  | wait (s : State)
  | fault (s : State)

/-- Posts a fault service unless one is already posted for the page and access (R208, R456). A request the
host failed is consumed by the access. DEDUCED (log 30). -/
def State.postFault (s : State) (ctx va acc : Nat) : Tr :=
  let page := va / 4096
  match s.faults.find? (fun f => f.ctx = ctx && f.page = page && f.acc = acc) with
  | some f =>
    if f.fail then .fault { s with faults := s.faults.filter (fun h => h.rid ≠ f.rid) } else .wait s
  | none =>
    let rid := s.nextRid
    let s : State := { s with faults := s.faults ++ [{ rid := rid, ctx := ctx, page := page, acc := acc }], nextRid := rid + 1 }
    .wait (s.originate 65 (bytesOf rid.toNat 8
      ++ bytesOf ((BitVec.ofNat 57 va).signExtend 64 : DWord).toNat 8 ++ bytesOf ctx 2 ++ bytesOf acc 1))

/-- The entry of a TLB that maps an address for a context. -/
def tlbFind (ctx va : Nat) (l : List TlbEnt) : Option TlbEnt :=
  l.find? (fun e => e.ctx = ctx && e.vpn = va / e.size)

/-- Puts an entry first in core `c`'s L1 TLB of 256 entries; the oldest leaves (R209). DESIGN CHOICE (log 136). -/
def State.tlbInsert (s : State) (c : Nat) (e : TlbEnt) : State :=
  let k := s.core c
  s.setCore c { k with tlb := (e :: k.tlb.filter (fun f => !(f.ctx = e.ctx && f.vpn = e.vpn && f.size = e.size))).take 256 }

/-- The set of a die's translation unit that an entry takes, of 1,024. DESIGN CHOICE (log 114). -/
def dtlbSet (e : TlbEnt) : Nat := e.vpn % 1024

/-- The first `n` entries of one set of a die's translation unit, and every other entry. -/
def keepWays (die set : Nat) : Nat → List (Nat × TlbEnt) → List (Nat × TlbEnt)
  | _, [] => []
  | n, f :: r =>
    if f.1 = die && dtlbSet f.2 = set then (if n = 0 then keepWays die set 0 r else f :: keepWays die set (n - 1) r)
    else f :: keepWays die set n r

/-- Puts an entry first in a die's translation unit of 16,384 entries in 16 ways; the oldest of a full set leaves (R209).
DESIGN CHOICE (log 136). -/
def State.dtlbInsert (s : State) (die : Nat) (e : TlbEnt) : State :=
  { s with dtlb := keepWays die (dtlbSet e) 16 ((die, e) :: s.dtlb.filter (fun f =>
      !(f.1 = die && f.2.ctx = e.ctx && f.2.vpn = e.vpn && f.2.size = e.size))) }

/-- Whether an entry permits an access (R208). -/
def tlbPermits (e : TlbEnt) (acc : AccK) (tc : Bool) : Bool :=
  (match acc with
   | .read => true
   | .write => e.w
   | .fetch => e.x) && (tc || e.prg)

/-- Ends a translation with a TLB entry (R208). -/
def State.useEntry (s : State) (e : TlbEnt) (va : Nat) (acc : AccK) (tc : Bool) : Tr :=
  let pa := e.pa + va % e.size
  if !(tlbPermits e acc tc) then .fault s
  else if s.unmapped pa then .fault s
  else .ok s pa e.mt

/-- Translates a global address for core `c` and a context (R206 to R209). `tc` is trap-class permission.
The bits that a walk sets stay set. DEDUCED (log 97). DEDUCED (log 105). A table that is missing above level 0 is reported as a
fault of the walk, one request for its page. DESIGN CHOICE (log 135). -/
def State.translate (s : State) (c ctx : Nat) (va : DWord) (acc : AccK) (tc : Bool) : Tr :=
  let a := va.toNat % 2 ^ 57
  if (va.truncate 57).signExtend 64 ≠ va then .fault s
  else
    let hit : Option TlbEnt := match tlbFind ctx a (s.core c).tlb with
      | some e => if acc = AccK.write && !e.d && e.w then none else some e
      | none => none
    let hit2 : Option TlbEnt := match hit with
      | some e => some e
      | none =>
        match tlbFind ctx a ((s.dtlb.filter (fun f => f.1 = c / 64)).map (·.2)) with
        | some e => if acc = AccK.write && !e.d && e.w then none else some e
        | none => none
    match hit2 with
    | some e => (s.tlbInsert c e).useEntry e a acc tc
    | none =>
      match find s.ctxs ctx with
      | none => .fault s
      | some cx =>
        match s.walkFrom a cx.root [4, 3, 2, 1, 0] with
        | .invalid upper => s.postFault ctx a (if upper then 3 else accNum acc)
        | .malformed => .fault s
        | .leaf pa size w x prg mt ents =>
          let e : TlbEnt := { ctx := ctx, vpn := a / size, size := size, pa := pa, w := w, x := x, prg := prg,
                              mt := mt, d := decide (acc = AccK.write) }
          if !(tlbPermits e acc tc) then .fault s
          else if s.unmapped (pa + a % size) then .fault s
          else
            let s := ents.foldl (fun s ea => s.orEntry cx.floor ea (if acc = AccK.write then 384 else 128)) s
            ((s.tlbInsert c e).dtlbInsert (c / 64) e).useEntry e a acc tc

/-- The trap that a pool region's state raises for an access (R441, R443, R445); 0 for none. -/
def State.poolTrap (s : State) (pa : Nat) : Nat :=
  match kindOf pa with
  | .pool r =>
    let g := s.region r
    if g.mode = 0 then 0x10
    else if g.mode = 2 && 0xf000000 ≤ pa % 0x10000000 then 0x10
    else if g.st ≠ .up then 0x14
    else 0
  | _ => 0

/-! ### The range-lock table (R255 to R257) -/

/-- Whether a range overlaps a registered one that forbids the access: any for a store, a write range for a
load (R257). -/
def lockHits (l : RangeLock) (sp : Bool) (ctx space lo hi : Nat) (write : Bool) : Bool :=
  l.sp = sp && l.ctx = ctx && l.space = space && decide (lo < l.hi) && decide (l.lo < hi) && (write || l.write)

/-- The range-locked check of a global thread access by core `c` (R257). -/
def State.lockedG (s : State) (c ctx : Nat) (va : DWord) (n : Nat) (write : Bool) : Bool :=
  (s.core c).locks.any (fun l => lockHits l false ctx 0 va.toNat (va.toNat + n) write)

/-- The range-locked check of a scratchpad access by core `c` to offset `o` of core `d` (R257). -/
def State.lockedS (s : State) (c ctx d o n : Nat) (write : Bool) : Bool :=
  (s.core c).locks.any (fun l => lockHits l true ctx d o (o + n) write)

/-- Whether a registration must wait for an existing entry (R256). -/
def regBlocked (l n : RangeLock) : Bool :=
  l.sp = n.sp && l.ctx = n.ctx && l.space = n.space && decide (n.lo < l.hi) && decide (l.lo < n.hi)
    && (l.write || n.write)

/-- Registers ranges in a core's table of 128 entries; `none` while it must wait (R255, R256). -/
def State.tryLock (s : State) (c : Nat) (ls : List RangeLock) : Option State :=
  let k := s.core c
  let ls := ls.filter (fun l => decide (l.lo < l.hi))
  if 128 < k.locks.length + ls.length then none
  else if ls.any (fun n => k.locks.any (fun l => regBlocked l n)) then none
  else some (s.setCore c { k with locks := k.locks ++ ls })

end Sys2Proof.Machine
end

