-- ==== Sys2Proof/Machine/Regs.lean ====
section
/-! DEFINITION. A group's registers: scalar, mask and vector registers, the activity stack, and the keys
that place a group, a team and a core (R38, R58, R74 to R78). -/

namespace Sys2Proof.Machine

open Sys2Proof

/-- Reads x register `r`; x0 reads 0 (R58). -/
def Group.x (g : Group) (r : XReg) : DWord := if r = 0 then 0 else sget 0 g.xs r.toNat

/-- Writes x register `r`; a write to x0 is discarded (R58). -/
def Group.setX (g : Group) (r : XReg) (v : DWord) : Group :=
  if r = 0 then g else { g with xs := sset 0 g.xs r.toNat v }

/-- The lanes below the group width (R101). -/
def Group.wMask (g : Group) : DWord := if 64 ≤ g.gw then BitVec.allOnes 64 else BitVec.ofNat 64 (2 ^ g.gw - 1)

/-- Reads mask register `r`; k0 holds the live lanes (R58). -/
def Group.k (g : Group) (r : KReg) : DWord := if r = 0 then g.k0 else sget 0 g.ks r.toNat

/-- Writes mask register `r`: bits at or above the group width are 0, and k0 is read-only (R58, R101). -/
def Group.setK (g : Group) (r : KReg) (v : DWord) : Group :=
  if r = 0 then g else { g with ks := sset 0 g.ks r.toNat (v &&& g.wMask) }

/-- The key of vector register `r` in lane `l`. -/
def vKey (r l : Nat) : Nat := 64 * r + l

/-- Reads vector register `r` in lane `l`. -/
def Group.v (g : Group) (r l : Nat) : Word := sget 0 g.vs (vKey r l)

/-- Writes vector register `r` in lane `l`. -/
def Group.setV (g : Group) (r l : Nat) (w : Word) : Group := { g with vs := sset 0 g.vs (vKey r l) w }

/-- The activity-stack top; the base entry equals k0 (R76). -/
def Group.top (g : Group) : DWord :=
  match g.act with
  | [] => g.k0
  | t :: _ => t

/-- The core of a group key. -/
def coreOf (g : Nat) : Nat := g / 128

/-- The core of a team key. -/
def teamCore (t : Nat) : Nat := t / 16

/-- Depth of the whole return stack (R80). -/
def Group.retDepth (g : Group) : Nat := g.ret.length + g.spill

/-- The group whose instruction executes. -/
def State.grp (s : State) : Option Group := find s.groups s.cur

/-- Writes the group whose instruction executes. -/
def State.setGrp (s : State) (g : Group) : State := { s with groups := put s.groups s.cur g }

/-- The team of a group. -/
def State.teamOf (s : State) (g : Group) : Team := (find s.teams g.seat).getD { ctx := 0 }

/-- Writes a team. -/
def State.setTeam (s : State) (t : Nat) (v : Team) : State := { s with teams := put s.teams t v }

/-- The context of a group; the record of an unnamed context is all default. -/
def State.ctxOf (s : State) (g : Group) : Ctx := (find s.ctxs (s.teamOf g).ctx).getD {}

/-- Context identifier of a group. -/
def State.ctxId (s : State) (g : Group) : Nat := (s.teamOf g).ctx

/-- A context that takes launches: named, and not ended. DEDUCED (log 90). -/
def State.ctxOpen (s : State) (id : Nat) : Bool :=
  match find s.ctxs id with
  | some c => c.halted.isNone
  | none => false

/-- The ratio a core runs at: half under reduced service (R20, R479). -/
def State.ratioNow (s : State) (c : Nat) : Ratio := if s.reduced then .half else (s.core c).ratio

/-- Lane-clocks of a ratio from time `t` to time `u`: 1.3 a nanosecond, or 0.65 at the half ratio (R20). -/
def laneClocks (r : Ratio) (t u : Nat) : Nat :=
  match r with
  | .half => 13 * u / 20 - 13 * t / 20
  | _ => 13 * u / 10 - 13 * t / 10

/-- A group after a scalar instruction: the next PC, and no wait; the row of a wait of its lane stream goes too, until that stream
is tried again. DESIGN CHOICE (log 168). -/
def Group.next (g : Group) : Group := { g with pc := g.pc + 4, wf := {}, waitN := none }

/-- Inserts a group in rising gid. -/
def insGid (e : Nat × Group) : List (Nat × Group) → List (Nat × Group)
  | [] => [e]
  | f :: r => if e.2.gid < f.2.gid then e :: f :: r else f :: insGid e r

/-- Resident groups of a team, with keys, in rising gid (R351). -/
def State.members (s : State) (t : Nat) : List (Nat × Group) :=
  (s.groups.filter (fun e => e.2.seat = t)).foldl (fun l e => insGid e l) []

/-- Applies `f` to every group of a team. -/
def State.mapMembers (s : State) (t : Nat) (f : Group → Group) : State :=
  { s with groups := s.groups.map (fun e => if e.2.seat = t then (e.1, f e.2) else e) }

/-- Whether a lane-queue entry names mask register `j`: as its mask, and where the entry's opcode reads or
writes one (R74, R144, R131). -/
def entryNamesK (bits : Nat) (j : Nat) : Bool :=
  let op := field bits 84 12
  let km := field bits 42 3
  let vd := field bits 76 8
  (j ≠ 0) && (km = j
    || ((op = 0x01b || op = 0x106) && vd = j)
    || (op = 0x210 && field bits 24 3 = 0 && vd = j)
    || (op = 0x01a && field bits 24 3 = j))

/-- Whether no enqueued lane instruction names `j`, so that a scalar instruction may use it (R74). -/
def Group.kFree (g : Group) (j : KReg) : Bool :=
  j = 0 || g.laneQ.all (fun e => !(entryNamesK e.bits.toNat j.toNat))

/-- The decision-queue entries that a lane word pushes when it executes (R98). -/
def entryPushes (bits : Nat) : Nat :=
  let op := field bits 84 12
  if op = 0x210 then (if field bits 24 3 = 0 then 0 else 1)
  else if op = 0x211 then (if bitOf bits 24 then 0 else 1)
  else if op = 0x408 then (if bitOf bits 23 then 1 else 0)
  else 0

/-- Whether lane instructions of the group are queued or still in flight (R97). -/
def Group.laneBusy (g : Group) : Bool := !g.laneQ.isEmpty || g.infl.any (·.lane)

end Sys2Proof.Machine
end

