-- ==== Sys2Proof/Machine/Atoms.lean ====
section
/-! DEFINITION. The operations of atomics and of the near-memory bank units (R267, R275). -/

namespace Sys2Proof.Machine

open Sys2Proof

/-- The new word of an atomic (R267). -/
def atomNew (op : AtomOp) (t : Ty) (old b cmp : Word) : Word :=
  match op with
  | .add =>
    if t = .f32 then BitVec.ofNat 32 (addF32 old.toNat b.toNat)
    else if t = .rw then rwaddW old b
    else old + b
  | .min => if t = .f32 then BitVec.ofNat 32 (minMaxP fp32 true old.toNat b.toNat)
            else if b.slt old then b else old
  | .max => if t = .f32 then BitVec.ofNat 32 (minMaxP fp32 false old.toNat b.toNat)
            else if old.slt b then b else old
  | .minn => if b.ult old then b else old
  | .maxn => if old.ult b then b else old
  | .and => old &&& b
  | .or => old ||| b
  | .xor => old ^^^ b
  | .xchg => b
  | .cas => if old = cmp then b else old

/-- The new word of a bank operation (R275). -/
def bankNew (op : BankOp) (old b : Word) : Word :=
  match op with
  | .fill => b
  | .addI32 => atomNew .add .i32 old b 0
  | .addF32 => atomNew .add .f32 old b 0
  | .addRw => atomNew .add .rw old b 0
  | .min => atomNew .min .i32 old b 0
  | .max => atomNew .max .i32 old b 0
  | .minn => atomNew .minn .n32 old b 0
  | .maxn => atomNew .maxn .n32 old b 0
  | .and => atomNew .and .b32 old b 0
  | .or => atomNew .or .b32 old b 0
  | .xor => atomNew .xor .b32 old b 0

/-- The identity that an extreme or a bitwise reduction starts from (R145, R275). -/
def bankId : BankOp → Word
  | .min => 0x7fffffff
  | .max => 0x80000000
  | .minn => 0xffffffff
  | .and => 0xffffffff
  | _ => 0

/-- The result of a bank reduction (R275). -/
def bankReduce (op : BankOp) (l : List Word) : DWord :=
  match op with
  | .addI32 => BitVec.ofInt 64 ((l.map BitVec.toInt).sum)
  | .addF32 => BitVec.ofNat 64 (roundNe fp32 (flSum (l.map (fun w => fval fp32 w.toNat))))
  | .min => (l.foldl (bankNew .min) (bankId .min)).signExtend 64
  | .max => (l.foldl (bankNew .max) (bankId .max)).signExtend 64
  | _ => (l.foldl (bankNew op) (bankId op)).zeroExtend 64

end Sys2Proof.Machine
end

