-- ==== Sys2Proof/Machine/Seats.lean ====
section
/-! DEFINITION. Scratchpad, Sepia captures, rollback of recovery levels, and the ends of copy chains (R211, R318 to R320, R374
to R386). -/

namespace Sys2Proof.Machine

open Sys2Proof

/-! ### Addresses of a context's areas (R409, R417) -/

/-- The ctx register image of a context (R417). -/
def ctxImage (id : Nat) (c : Ctx) : DWord := BitVec.ofNat 64 (id % 65536 + (if c.sys then 65536 else 0))

/-- The frame address of a group (R409). -/
def frameAddr (c : Ctx) (g : Nat) : DWord := c.frameB + BitVec.ofNat 64 (128 * g)

/-- The spill area of a group (R409). -/
def spillAddr (c : Ctx) (g : Nat) : DWord := c.spillB + BitVec.ofNat 64 (8192 * g)

/-! ### Scratchpad (R211, R213) -/

/-- One scratchpad byte of a team. -/
def Team.spadByte (t : Team) (o : Nat) : Byte := sget 0 t.spad o

/-- One scratchpad word of a team. -/
def Team.spadWord (t : Team) (o : Nat) : Word :=
  wordOf (t.spadByte o) (t.spadByte (o + 1)) (t.spadByte (o + 2)) (t.spadByte (o + 3))

/-- `n` scratchpad bytes as a little-endian number. -/
def Team.spadN (t : Team) (o n : Nat) : Nat := ofBytes ((List.range n).map (fun i => t.spadByte (o + i)))

/-- Writes scratchpad bytes. -/
def putBytes (m : Map Byte) (o : Nat) : List Byte → Map Byte
  | [] => m
  | b :: r => putBytes (sset 0 m o b) (o + 1) r

/-- Writes `n` scratchpad bytes of a value; a whole word written is clean of poison. -/
def Team.setSpad (t : Team) (o n v : Nat) : Team :=
  { t with spad := putBytes t.spad o (bytesOf v n)
           spadP := if n % 4 = 0 then (List.range (n / 4)).foldl (fun m i => sset false m (o / 4 + i) false) t.spadP
                    else t.spadP }

/-- Whether any word of a scratchpad range is poisoned. -/
def Team.spadPois (t : Team) (o n : Nat) : Bool :=
  (List.range ((o + n + 3) / 4 - o / 4)).any (fun i => sget false t.spadP (o / 4 + i))

/-- The team key and offset that a 32-bit scratchpad address names for a group; `none` when it names no
valid byte (R211). -/
def State.spadAddr (s : State) (g : Group) (a : Nat) : Option (Nat × Nat) :=
  let off := a % 2 ^ 22
  let core := a / 2 ^ 22 % 64
  if a / 2 ^ 29 ≠ 0 then none
  else if bitOf a 28 then (if core = 0 then some (g.seat, off) else none)
  else
    match find s.insts (s.teamOf g).inst with
    | none => if core = 0 then some (g.seat, off) else none
    | some i =>
      if core < i.rows * i.cols then
        match i.teams[core]? with
        | some t =>
          (match find s.teams t with
           | some tm => if tm.inst = (s.teamOf g).inst then some (t, off) else none
           | none => none)
        | none => none
      else none

/-- Whether `n` bytes at an offset lie in a team's allocation (R211). -/
def State.spadFits (s : State) (t off n : Nat) : Bool :=
  match find s.teams t with
  | some tm => decide (off + n ≤ tm.spadB)
  | none => false

/-! ### Sepia (R377 to R379) -/

/-- Granules of one captured value (R377). -/
def capGran : Cap → Nat
  | .x _ _ _ => 1
  | .k _ _ _ => 1
  | .v _ _ vals => vals.length / 4 + 1
  | .spad _ _ _ => 1
  | .line _ _ => 9

/-- Whether two captures are of one location. -/
def sameCap : Cap → Cap → Bool
  | .x g i _, .x h j _ => g = h && i = j
  | .k g i _, .k h j _ => g = h && i = j
  | .v g i _, .v h j _ => g = h && i = j
  | .spad t o _, .spad u p _ => t = u && o = p
  | .line l _, .line m _ => l = m
  | _, _ => false

/-- Granules that a level holds (R377). -/
def levelGran (l : Level) : Nat := 32 * l.frames.length + (l.caps.map capGran).sum

/-- Granules that a team holds. -/
def teamGran (t : Team) : Nat := (t.levels.map levelGran).sum

/-- Granules in use on a core. -/
def State.coreGran (s : State) (c : Nat) : Nat :=
  ((s.teams.filter (fun e => teamCore e.1 = c)).map (fun e => teamGran e.2)).sum

/-- The quota of a team on a core (R377). -/
def State.quota (s : State) (c : Nat) : Nat :=
  let q := (s.core c).sepcfg.toNat
  if q = 0 || 16384 < q then 16384 else q

/-- Whether `n` more granules fit (R377). -/
def State.granFit (s : State) (t n : Nat) : Bool :=
  match find s.teams t with
  | none => true
  | some tm => decide (teamGran tm + n ≤ s.quota (teamCore t)) && decide (s.coreGran (teamCore t) + n ≤ 16384)

/-- The capture of a location that a level inside has made already: what the location held for the levels outside. -/
def heldInside (c : Cap) (inner : List Level) : Option Cap :=
  (inner.reverse.filterMap (fun l => l.caps.find? (sameCap c))).head?

/-- Captures a location at level `lv`, once per alternate, as it stood outside the levels within; `none` when Sepia cannot
hold it (R377, R378). -/
def State.captureAt (s : State) (t lv : Nat) (c : Cap) : Option State :=
  match find s.teams t with
  | none => some s
  | some tm =>
    let inner := tm.levels.take (tm.levels.length - lv)
    match tm.levels.drop (tm.levels.length - lv) with
    | [] => some s
    | l :: r =>
      if l.caps.any (sameCap c) then some s
      else if s.granFit t (capGran c) then
        some (s.setTeam t { tm with levels := inner ++ { l with caps := (heldInside c inner).getD c :: l.caps } :: r })
      else none

/-- Depth of open levels of a team. -/
def State.depth (s : State) (t : Nat) : Nat :=
  match find s.teams t with
  | none => 0
  | some tm => tm.levels.length

/-- Captures a location at the innermost open level (R377, R378). -/
def State.capture (s : State) (t : Nat) (c : Cap) : Option State := s.captureAt t (s.depth t) c

/-- Lines of a core's L1 that hold hidden words (R377, R381). -/
def State.pinned (s : State) (c : Nat) : List Nat := pinnedLines (s.core c).l1

/-- Captures the line of word `w` for a first write of level `lv` of team `t` (R378); `none` when it does not fit. -/
def State.captureLineAt (s : State) (t lv w : Nat) (hidden : Bool) : Option State :=
  match find s.teams t with
  | none => some s
  | some tm =>
    match tm.levels.drop (tm.levels.length - lv) with
    | [] => some s
    | l :: _ =>
      let c := teamCore t
      let cv := teamConv s t
      if hidden && decide (4096 ≤ (s.pinned c).length) && !((s.pinned c).contains (w / 32)) then none
      else if l.caps.any (sameCap (.line (w / 32) [])) then some s
      else s.captureAt t lv (.line (w / 32) ((lineWords (w / 32)).map (fun u => (s.loadWord c u (some cv)).2.1)))

/-- Captures a line at the innermost open level (R378). -/
def State.captureLine (s : State) (t w : Nat) (hidden : Bool) : Option State := s.captureLineAt t (s.depth t) w hidden

/-- The hidden tag of a write by a member of team `t` to word `w` (R380, R383). -/
def State.hidTag (s : State) (t w : Nat) : Option HidTag :=
  match find s.teams t with
  | none => none
  | some tm =>
    if tm.levels.isEmpty || !(s.isCell (4 * w)) then none
    else some { team := t, conv := teamConv s t, level := tm.levels.length }

/-- Notes that level `lv` wrote a word that cannot be hidden (R383, R385). -/
def State.noteWroteAt (s : State) (t lv w : Nat) : State :=
  match find s.teams t with
  | none => s
  | some tm =>
    match tm.levels.drop (tm.levels.length - lv) with
    | [] => s
    | l :: r =>
      if s.isCell (4 * w) || l.wrote.contains w then s
      else s.setTeam t { tm with levels := tm.levels.take (tm.levels.length - lv) ++ { l with wrote := w :: l.wrote } :: r }

/-- Notes that a member wrote a word that cannot be hidden (R383, R385). -/
def State.noteWrote (s : State) (t w : Nat) : State := s.noteWroteAt t (s.depth t) w

/-- A capture with one word of its location replaced. -/
def Cap.withWord (c : Cap) (o : Nat) (v : Word) : Cap :=
  match c with
  | .spad t a w => .spad t a (if a = o then v else w)
  | .line l vals => .line l (if o / 32 = l then vals.set (o % 32) v else vals)
  | c => c

/-- A chain of level `lv` has written a word: the captures of the levels inside hold it from now on, for their rollback
leaves the chain's writes (R319). `c` names the location, `o` the word. -/
def State.renewInside (s : State) (t lv : Nat) (c : Cap) (o : Nat) (v : Word) : State :=
  match find s.teams t with
  | none => s
  | some tm =>
    let n := tm.levels.length - lv
    let f (l : Level) : Level := { l with caps := l.caps.map (fun x => if sameCap c x then x.withWord o v else x) }
    s.setTeam t { tm with levels := (tm.levels.take n).map f ++ tm.levels.drop n }

/-! ### Failures of alternates (R374, R376) -/

/-- What is recorded of a failure `f` after `f0` (R376): one of a level further out takes its place; of those charged to one
level in the same lane-clock the lowest CAUSE, with its trap, and the lowest gid are kept, where an event that has no group counts
with the 0 it reports. DESIGN CHOICE (log 166). -/
def FailRec.after (same : Bool) (f f0 : FailRec) : FailRec :=
  if f.level < f0.level then f
  else if f.level = f0.level && same then
    { f0 with cause := Nat.min f0.cause f.cause, ftrap := if f.cause < f0.cause then f.ftrap else f0.ftrap
              fgid := Nat.min f0.fgid f.fgid }
  else f0

/-- The conversation of a team. -/
def State.convOf (s : State) (t : Nat) : Option (Nat × Conv) :=
  ((find s.teams t).bind (·.conv)).bind (fun c => (find s.convs c).map (fun v => (c, v)))

/-- The teams of a team's conversation that have the block of its round open, for a level-1 failure (R389). -/
def State.partners (s : State) (t : Nat) (lv : Nat) : List Nat :=
  match s.convOf t, find s.teams t with
  | some (_, v), some tm =>
    if lv ≠ 1 then []
    else v.teams.filter (fun u => u ≠ t && (match find s.teams u with
      | some x => !x.levels.isEmpty && x.round = tm.round
      | none => false))
  | _, _ => []

/-- Records a failure of one team (R376). -/
def State.recordFail (s : State) (t : Nat) (f : FailRec) : State :=
  match find s.teams t with
  | none => s
  | some tm =>
    match tm.fail with
    | none => s.setTeam t { tm with fail := some f }
    | some f0 =>
      let same := laneClocks (s.ratioNow (teamCore t)) f0.time.toNat s.tsc.toNat = 0
      s.setTeam t { tm with fail := some (f.after same f0) }

/-- Records a failure charged to a level (R376); one of level 1 fails the level-1 alternates of the conversation's other members
with it, which stop with the team (R389). -/
def State.failAlt (s : State) (t level cause ftrap fgid : Nat) : State :=
  let s := s.recordFail t { level := level, time := s.tsc, cause := cause, ftrap := ftrap, fgid := fgid }
  (s.partners t level).foldl (fun s u => s.recordFail u { level := 1, time := s.tsc, cause := 7 }) s

/-! ### Register captures (R378) -/

/-- The capture of one register of a group. -/
def regCap (k : Nat) (g : Group) : RegId → Cap
  | .x i => .x k i (g.x (BitVec.ofNat 6 i))
  | .k i => .k k i (g.k (BitVec.ofNat 3 i))
  | .v i => .v k i ((List.range g.gw).map (fun l => g.v i l))

/-- Captures the registers that an instruction writes; `none` when Sepia cannot hold them (R377). DEDUCED (log 66). -/
def State.captureRegs (s : State) (k : Nat) (g : Group) : List RegId → Option State
  | [] => some s
  | r :: l =>
    match s.capture g.seat (regCap k g r) with
    | none => none
    | some s => s.captureRegs k g l

/-- Captures x60 to x63 before a trap's entry or return writes them (R378). Where Sepia cannot hold them the alternate
fails, and the trap is entered or left all the same. DEDUCED (log 10). -/
def State.captureTop (s : State) (k : Nat) (g : Group) : State :=
  match s.captureRegs k g [.x 60, .x 61, .x 62, .x 63] with
  | some s => s
  | none => s.failAlt g.seat (s.depth g.seat) 6 0 g.gid

/-! ### Copy chains (R316 to R319) -/

/-- DONE of a channel: every batch below the oldest chain that has not ended, up to SEALED (R316). -/
def chanDone (ch : Chan) : BitVec 32 :=
  match ch.headq with
  | [] => ch.sealed
  | c :: r => r.foldl (fun m d => if (d.batch - 1 - m).msb then d.batch - 1 else m) (c.batch - 1)

/-- Marks a batch failed, unless a lower one is named (R316). -/
def failBatch (ch : Chan) (n : BitVec 32) : Chan :=
  if ch.fb = 0 || (n - ch.fb).msb then { ch with fb := n } else ch

/-- Retires a chain's access of the copy path of the group that issued it, which is resident while its serial is (R317,
R320). -/
def State.retireChain (s : State) (x : Chain) : State :=
  { s with groups := upd s.groups x.grp (fun g =>
      if g.vv.own.serial = x.dot.serial then { g with cnt := sset 0 g.cnt 4 (sget 0 g.cnt 4 - 1) } else g) }

/-- Channel `ch` of core `c`. -/
def State.chan (s : State) (c ch : Nat) : Chan := sget {} (s.core c).chans ch

/-- Writes channel `ch` of core `c`. -/
def State.setChan (s : State) (c ch : Nat) (v : Chan) : State :=
  s.setCore c { s.core c with chans := sset {} (s.core c).chans ch v }

/-- Ends chains of a channel: those that `p` accepts leave the head queue, their batches fail when `bad`
(R316, R318, R319). -/
def State.endChains (s : State) (c ch : Nat) (bad : Bool) (p : Chain → Bool) : State :=
  let k := s.chan c ch
  let gone := k.headq.filter p
  let s := gone.foldl (fun s x => s.retireChain x) s
  let k := if bad then gone.foldl (fun k x => failBatch k x.batch) k else k
  let runs := match k.headq with
    | [] => false
    | x :: _ => p x
  let k := { k with headq := k.headq.filter (fun x => !(p x)) }
  let k := if runs then { k with crec := none, wown := false } else k
  let k := if gone.isEmpty then k else { k with nrec := none }
  let k := { k with done := chanDone k, st := if k.st = .running && k.headq.isEmpty then .idle else k.st }
  let s := if runs then s.unlock c (.chan ch) else s
  let s := if gone.isEmpty then s else s.unlock c (.next ch)
  s.setChan c ch k

/-- Scalar accesses of a group that are in flight, on their way to their homes or parked, which an engine's work follows
(R247). -/
def State.ahead (s : State) (k : Nat) (g : Group) : List (Path × Nat) :=
  (g.infl.filter (fun x => !x.lane && !x.atoms.isEmpty)).map (fun x => (x.path, x.seq))
    ++ (s.regQ.filter (fun q => q.grp = k && !q.eng && !q.lane)).map (fun q => (q.path, q.seq))
    ++ ((s.core (coreOf k)).replay.filter (fun p => p.grp = k && !p.lane)).map (fun p => (p.path, p.seq))

/-- A chain from `va` joins a channel's head queue for group `k`, with its dot and vector, in the open batch (R317, R324). -/
def State.appendChain (s : State) (c ch k : Nat) (g : Group) (va : DWord) : State :=
  let h := s.chan c ch
  let d := newDot s g
  let x : Chain := { cur := va, batch := h.sealed + 1, grp := k, gid := g.gid, dot := d, vec := storeVec g.vv d
                     level := s.depth g.seat, after := s.ahead k g }
  let s := s.setChan c ch { h with headq := h.headq ++ [x], st := .running }
  { s with groups := upd s.groups k (fun g =>
      { g with vv := { g.vv with own := d }, cnt := sset 0 g.cnt 4 (sget 0 g.cnt 4 + 1) }) }

/-- A released channel: the `cpgo` that waited first binds it to its team and appends its chain (R308). -/
def State.bindFirst (s : State) (c ch : Nat) : State :=
  let co := s.core c
  match co.chWait.find? (fun e => e.1 = ch) with
  | none => s
  | some (n, k, va) =>
    let s := s.setCore c { co with chWait := co.chWait.filter (fun e => e ≠ (n, k, va)) }
    match find s.groups k with
    | none => s
    | some g =>
      let s := (s.setChan c ch { team := g.seat, st := .idle }).appendChain c ch k g va
      { s with groups := upd s.groups k Group.next }

/-- A team's channels are released (R308, R320). -/
def State.freeChans (s : State) (c t : Nat) : State :=
  let mine := ((s.core c).chans.filter (fun e => e.2.team = t && e.2.st ≠ .free)).map (·.1)
  let s := s.setCore c { s.core c with chans := (s.core c).chans.filter (fun e => !(mine.contains e.1)) }
  mine.foldl (fun s ch => s.bindFirst c ch) s

/-- Halts a channel with a fault (R318). The fault of a chain of a block is charged to the innermost open level (R319,
R376). DEDUCED (log 102). -/
def State.haltChan (s : State) (c ch code : Nat) (recA dataA : DWord) : State :=
  let k := s.chan c ch
  let s := match k.headq with
    | [] => s
    | x :: _ => if x.level = 0 || code = 8 then s else s.failAlt k.team (s.depth k.team) 9 code x.gid
  let s := s.endChains c ch true (fun _ => true)
  let k := s.chan c ch
  s.setChan c ch { k with st := .halted, fcode := code, frec := recA, fdata := dataA }

/-- Aborts the chains of a team's levels at or above `lv` (R319). -/
def State.abortChains (s : State) (t lv : Nat) : State :=
  let c := teamCore t
  (s.core c).chans.foldl (fun s e =>
    if e.2.team = t && e.2.st ≠ .free then s.endChains c e.1 true (fun x => decide (0 < x.level) && decide (lv ≤ x.level))
    else s) s

/-! ### Rollback of a team's levels (R385, R386) -/

/-- Restores one captured register, scratchpad word or line; words of a lost pool region are not written (R384). A capture holds no
poison: a restored scratchpad word is not poisoned, and a restored word of a line is poisoned as it was before the restoring.
DESIGN CHOICE (log 167). -/
def State.restoreCap (s : State) (wrote : List Nat) (c : Cap) : State :=
  match c with
  | .x g i v => { s with groups := upd s.groups g (fun gr => { gr with xs := sset 0 gr.xs i v }) }
  | .k g i v => { s with groups := upd s.groups g (fun gr => { gr with ks := sset 0 gr.ks i v }) }
  | .v g i vals =>
    { s with groups := upd s.groups g (fun gr =>
        (List.range vals.length).foldl (fun gr l => gr.setV i l (vals.getD l 0)) gr) }
  | .spad t o v =>
    match find s.teams t with
    | some tm => s.setTeam t (tm.setSpad o 4 v.toNat)
    | none => s
  | .line l vals =>
    (List.range 32).foldl (fun s i =>
      let w := 32 * l + i
      if wrote.contains w && s.poolTrap (4 * w) = 0 then
        let s := s.writeBackAll w none
        let s := s.setWord w (vals.getD i 0)
        { s with cores := s.cores.map (fun e => (e.1, { e.2 with l1 := del e.2.l1 w })) }
      else s) s

/-- Restores the captures of one level, the latest first. -/
def State.restoreLevel (s : State) (l : Level) : State := l.caps.foldl (fun s c => s.restoreCap l.wrote c) s

/-- A word of a team's own L1 whose hidden write is taken back: it holds again what an outer level hides there, or goes (R385). -/
def State.unhide (s : State) (t w : Nat) (x : L1Word) : State :=
  match (s.cellRec w).vals.find? (fun v => inView (some (teamConv s t)) v && tagged (fun h => h.team = t) v.hid) with
  | some v =>
    s.setL1 (teamCore t) w
      { val := v.val, mask := 0xf, reg := true, grp := x.grp, dot := v.dot, hid := v.hid, pois := v.pois, whole := true }
  | none => s.delL1 (teamCore t) w

/-- Takes back the hidden writes of a team from level `lv`, on the words that `q` accepts, at their homes and in its L1, whose
lines that hold no hidden word any more leave it (R384, R385, step 4). DEDUCED (log 109). -/
def State.dropHidden (s : State) (t lv : Nat) (q : Nat → Bool) : State :=
  let c := teamCore t
  let mine := (s.core c).l1.filter (fun e => tagged (tagOf t lv) e.2.hid && q e.1)
  let s := ({ s with regQ := s.regQ.filter (fun r => !(tagged (tagOf t lv) r.hid && q r.w)) } : State).takeBackOn t lv q
  let s := mine.foldl (fun s e => s.unhide t e.1 e.2) s
  ((linesOf mine).filter (fun l => !((s.pinned c).contains l))).foldl (fun s l => s.evictLine c l) s

/-- A queue after `spstop` (R236): its entries and slots go, and a fetch outstanding is abandoned. -/
def OpQueue.stopped (q : OpQueue) (st : QSt) : OpQueue :=
  { q with st := st, entries := [], slots := 0, nextE := 0, popE := 0, wait := none
           left := q.left ++ (match q.wait with | some n => [(n, q.pat, q.nextE)] | none => []) }

/-- Stops one member for a rollback: unissued lane instructions are discarded, queues become idle, and the
stacks take the level's frame (R385, steps 1 and 5). Its lookahead windows close. DEDUCED (log 137). -/
def resetMember (l : Level) (k : Nat) (g : Group) : Group :=
  let g := { g with laneQ := [], decQ := [], winS := [], winL := [], wf := {}, nap := none, arr := none
                    handed := none, awt := none, waitN := none, cpStop := none, infl := [], frozen := false
                    bank := none, relW := false, kept := none, wrec := none
                    opq := g.opq.map (fun e => (e.1, e.2.stopped .idle))
                    pend := g.pend.filter (fun p => !p.defer && !p.lane) }
  match find l.frames k with
  | none => g
  | some f => { g with act := f.act, ret := f.ret, spill := f.spill }

/-- Withdraws a team's groups from barriers' and queues' waiting lists. -/
def withdrawWaits (t : Team) (ks : List Nat) : Team :=
  { t with bars := t.bars.map (fun e => (e.1, { e.2 with wait := e.2.wait.filter (fun g => !(ks.contains g)) }))
           nqs := t.nqs.map (fun e => (e.1, { e.2 with pushers := e.2.pushers.filter (fun g => !(ks.contains g))
                                                       poppers := e.2.poppers.filter (fun g => !(ks.contains g)) })) }

/-- An entry handed to a group whose pop is abandoned goes to the next waiting popper, or back to the head of its queue
(R356, R410). -/
def State.giveBack (s : State) (k : Nat) : State :=
  match find s.groups k with
  | none => s
  | some g =>
    match g.handed, find s.teams g.seat with
    | some (q, e), some tm =>
      let s : State := { s with groups := put s.groups k { g with handed := none } }
      (match find tm.nqs q with
       | none => s
       | some x =>
         match x.poppers.filter (fun h => h ≠ k) with
         | [] => s.setTeam g.seat { tm with nqs := put tm.nqs q { x with entries := e :: x.entries, poppers := [] } }
         | p :: r =>
           let s := s.setTeam g.seat { tm with nqs := put tm.nqs q { x with poppers := r } }
           { s with groups := upd s.groups p (fun h => { h with handed := some (q, e) }) })
    | _, _ => s

/-- Takes a group out of its pipe's queue of requests and its core's waiting `cpgo`s (R308, R336). -/
def State.unrequest (s : State) (k : Nat) : State :=
  match find s.groups k with
  | none => s
  | some g =>
    let c := coreOf k
    let p := 4 * c + g.pipe
    let mine (r : RegReq) : Bool := match r with
      | .claim h _ => h = k
      | .create _ => false
    let s := s.setPipe p { s.pipe p with claims := (s.pipe p).claims.filter (fun r => !(mine r)) }
    s.setCore c { s.core c with chWait := (s.core c).chWait.filter (fun e => e.2.1 ≠ k) }

/-- Rolls a team back to the start of level `lv`'s current alternate (R385, steps 1 to 5): levels inside are
discarded, captures restored, hidden writes taken back. The level stays open with no capture. -/
def State.rollTo (s : State) (t lv : Nat) : State :=
  match find s.teams t with
  | none => s
  | some tm0 =>
    let ks := (s.members t).map (·.1)
    let c := teamCore t
    let s := ks.foldl (fun s k => (s.regQ.filter (fun q => q.grp = k && q.hid.isNone)).foldl
      (fun s q => s.testStore q) { s with regQ := s.regQ.filter (fun q => !(q.grp = k && q.hid.isNone)) }) s
    let s := ks.foldl (fun s k => (s.giveBack k).unrequest k) { s with teams := upd s.teams t (fun m => withdrawWaits m ks) }
    let s := s.abortChains t lv
    let s := s.setCore c { s.core c with replay := (s.core c).replay.filter (fun p =>
      match p.hid with | some h => !(tagOf t lv h) | none => true) }
    let gone := tm0.levels.take (tm0.levels.length + 1 - lv)
    let s := gone.foldl (fun s l => s.restoreLevel l) s
    let s := s.dropHidden t lv (fun _ => true)
    match find s.teams t with
    | none => s
    | some tm =>
      match tm.levels.drop (tm0.levels.length - lv) with
      | [] => s
      | l :: r =>
        let l' := { l with caps := [], wrote := [], pois := false, spent := 0 }
        let s := s.setTeam t (withdrawWaits { tm with levels := l' :: r } ks)
        { s with groups := s.groups.map (fun e => if e.2.seat = t then (e.1, resetMember l e.1 e.2) else e)
                 cores := upd s.cores c (fun k => { k with locks := k.locks.filter (fun x =>
                   match x.owner with | .queue g _ => !(ks.contains g) | .bank g => !(ks.contains g) | _ => true) }) }

end Sys2Proof.Machine
end

