-- ==== Sys2Proof/Machine/AtHome.lean ====
section
/-! DEFINITION. Writes that the device makes at a word's home for a group: atomics (R264 to R268) and the words of a bank
operation (R275). -/

namespace Sys2Proof.Machine

open Sys2Proof

/-- The path of a global access (R216). -/
def pathOfPa (pa : Nat) : Path := if (poolOf pa).isSome then .pl else .gl

/-- A store request of group `k` with its dot at issue (R279, R285). -/
def State.reqOf (s : State) (k : Nat) (g : Group) (va : DWord) (pa : Nat) : StoreReq :=
  { core := coreOf k, grp := k, w := pa / 4, va := va, val := 0, dot := newDot s g,
    vec := storeVec g.vv (newDot s g), pc := g.pc, path := pathOfPa pa }

/-- A group's vector takes the dot of its latest write in slot 0 (R281). -/
def State.stampDot (s : State) (k : Nat) (d : Dot) : State :=
  { s with groups := upd s.groups k (fun g => { g with vv := { g.vv with own := d } }) }

/-- A word's dirty values reach its home; the core keeps no copy of it but a hidden word, which stays in its pinned line (R296,
R381). -/
def State.bringHome (s : State) (c w : Nat) : State :=
  let s := ((s.flushReqs c w).writeBackAll w none).fillHidden w
  match s.l1At c w with
  | some x => if x.hid.isSome then s else s.delL1 c w
  | none => s

/-- A vector that also dominates the dot of the value read (R265), whatever compaction leaves out. -/
def domVec (v : VVec) (d : Dot) : VVec :=
  let m := if d.serial = 0 then { v with floor := floorMax v.floor d.time } else mergeDot v d
  if dominates m d then m else { m with slots := d :: m.slots }

/-- What an atomic of group `k` reads at its place of performance (R265): value, dot, and the count of a set (R268). -/
def State.atomRead (s : State) (k w : Nat) : State × Word × Dot × Nat :=
  let s := s.bringHome (coreOf k) w
  let view := s.view w (s.groupConv k)
  (s, viewVal view, (view.map (·.dot)).headD {}, if s.isCell (4 * w) then viewCnt view else 0)

/-- Writes the result of an atomic that read a value with dot `d` (R265): the state, and the count of a write that its cell
cannot hold (R268). The line is captured first (R378); `none` when Sepia cannot hold it. -/
def State.atomWrite (s : State) (k : Nat) (g : Group) (va : DWord) (w : Nat) (new : Word) (rd : Dot) : Option (State × Nat) :=
  let hid := s.hidTag g.seat w
  match s.captureLine g.seat w hid.isSome with
  | none => none
  | some s =>
    let s := s.noteWrote g.seat w
    let d := newDot s g
    let q := { s.reqOf k g va (4 * w) with val := new, hid := hid, dot := d, vec := domVec (storeVec g.vv d) rd }
    match s.storeAtHome q with
    | none => some (s, 1)
    | some t => some ((t.keepHidden w q).stampDot k d, 0)

/-- An atomic on a word of device, pool or host memory (R265, R267, R268): the old value and the count; `none` on a capture
overflow. DEDUCED (log 16). Poison is not consumed, and a write clears it. DESIGN CHOICE (log 128). -/
def State.atomGlobal (s : State) (k : Nat) (va : DWord) (w : Nat) (op : AtomOp) (t : Ty) (b cmp : Word) :
    Option (State × Word × Nat) :=
  match find s.groups k with
  | none => none
  | some g =>
    let (s, old, d, cnt) := s.atomRead k w
    let new := atomNew op t old b cmp
    if cnt ≠ 0 then some (s, old, cnt)
    else if new = old then some (s, old, 0)
    else (s.atomWrite k g va w new d).map (fun x => (x.1, old, x.2))

/-! ### Atomics in flight -/

/-- Atomics with their physical words, when they have any. -/
def pairAtoms : List AtomReq → List Nat → List (AtomReq × Option Nat)
  | [], _ => []
  | r :: l, w :: ws => (r, some w) :: pairAtoms l ws
  | r :: l, [] => (r, none) :: pairAtoms l []

/-- An atomic that the cluster unit of a die performs in two steps, between which other writes may reach the word (R264,
R265). -/
def isClus (r : AtomReq) : Bool := r.sc = .clus

/-- The cluster unit of a die holds a word for an atomic whose result is still to be written (R264). -/
def State.clusHolds (s : State) (die w : Nat) : Bool :=
  s.groups.any (fun e => coreOf e.1 / 64 = die && e.2.infl.any (fun x =>
    (pairAtoms x.atoms x.words).any (fun p => p.1.rd.isSome && p.2 = some w)))

/-- `bop` on one word, as a dev-scope atomic: `none` on a capture overflow. -/
def State.bopWord (s : State) (k : Nat) (op : BankOp) (b : Word) (r : BankRun) (w : Nat) : Option (State × Nat) :=
  match find s.groups k with
  | none => none
  | some g =>
    let s := s.bringHome (coreOf k) w
    let view := s.view w (s.groupConv k)
    let new := bankNew op (viewVal view) b
    if viewCnt view ≠ 0 then some (s, 1)
    else if new = viewVal view then some (s, 0)
    else
      let hid := s.hidTag g.seat w
      match s.captureLine g.seat w hid.isSome with
      | none => none
      | some s =>
        let q := { s.reqOf k g r.va (4 * w) with
          val := new, hid := hid, dot := r.dot, vec := domVec r.vec ((view.map (·.dot)).headD {}) }
        match s.storeAtHome q with
        | none => some (s, 1)
        | some s => some ((s.keepHidden w q).stampDot k (if timeLe g.vv.own.time r.dot.time then r.dot else g.vv.own), 0)

/-- `bop` on the next `n` words. -/
def State.bopRun (s : State) (k : Nat) (op : BankOp) (b : Word) : Nat → BankRun → Option (State × BankRun)
  | 0, r => some (s, r)
  | n + 1, r =>
    match r.words with
    | [] => some (s, r)
    | w :: l =>
      match s.bopWord k op b r w with
      | none => none
      | some (s, c) => s.bopRun k op b n { r with words := l, va := r.va + 4, cnt := r.cnt + c }

/-- An atomic on memory that is in flight is performed, its results left out. -/
def State.finishAtom (s : State) (k : Nat) (r : AtomReq) (w : Nat) : State :=
  match find s.groups k, r.rd with
  | some g, some (old, d) => ((s.atomWrite k g r.addr w (atomNew r.op r.ty old r.b r.cmp) d).map (·.1)).getD s
  | some _, none => ((s.atomGlobal k r.addr w r.op r.ty r.b r.cmp).map (·.1)).getD s
  | none, _ => s

/-- The writes to memory that an instruction of group `k` has issued complete (R419): its atomics in flight and its bank
operation under way. -/
def State.finishWrites (s : State) (k : Nat) : State :=
  match find s.groups k with
  | none => s
  | some g =>
    let s := (g.infl.flatMap (fun x => pairAtoms x.atoms x.words)).foldl (fun s e =>
      match e.2 with
      | some w => s.finishAtom k e.1 w
      | none => s) s
    match g.bank with
    | some r =>
      (match r.act with
       | some (op, b) => ((s.bopRun k op b r.words.length r).map (·.1)).getD s
       | none => s)
    | none => s

end Sys2Proof.Machine
end

