-- ==== Sys2Proof/Machine/Ends.lean ====
section
/-! DEFINITION. Events, seat release and the end of a context (R334, R364, R414, R422, R430). -/

namespace Sys2Proof.Machine

open Sys2Proof

/-! ### Ends (R334, R364, R414, R430) -/

/-- A group's key leaves the barriers and queues of its team (R353, R356). -/
def Team.forget (t : Team) (k : Nat) : Team :=
  let t := withdrawWaits t [k]
  { t with bars := t.bars.map (fun e => (e.1, { e.2 with members := e.2.members.filter (fun g => g ≠ k) })) }

/-- A save begun by the `ctxsv` of one of some groups is no longer theirs (R436). -/
def Team.unsave (t : Team) (ks : List Nat) : Team := { t with saver := t.saver.filter (fun k => !(ks.contains k)) }

/-- A group's key leaves the cluster barriers of an instance (R355). -/
def Inst.forget (i : Inst) (k : Nat) : Inst :=
  { i with cbars := i.cbars.map (fun e => (e.1, { e.2 with arrd := e.2.arrd.filter (fun g => g ≠ k) })) }

/-- The reservation for a group ends (R347). -/
def State.unreserve (s : State) (k : Nat) : State :=
  { s with pipes := upd s.pipes (4 * coreOf k + ((find s.groups k).map (·.pipe)).getD 0) (fun p =>
      { p with reserved := p.reserved.filter (fun r => r.1 ≠ k) }) }

/-- Frees every hardware queue slot, range and waiting place that a group holds; writes of its that wait for an
acknowledgement stay. -/
def State.dropGroup (s : State) (k : Nat) : State :=
  match find s.groups k with
  | none => s
  | some g =>
    let c := coreOf k
    let co := s.core c
    let s := s.setCore c { co with
      locks := co.locks.filter (fun x => match x.owner with | .queue h _ => h ≠ k | .bank h => h ≠ k | _ => true) }
    let s := ((s.giveBack k).unrequest k).unreserve k
    { s with groups := del s.groups k
             teams := (upd s.teams g.seat (fun t => t.forget k)).map (fun e => (e.1, e.2.unsave [k]))
             insts := s.insts.map (fun e => (e.1, e.2.forget k))
             acks := s.acks.map (fun a => if a.grp = k then { a with grp := noGroupKey } else a)
             serials := s.serials.map (fun e => if e.1 = g.vv.own.serial then (e.1, some s.now) else e)
             hcalls := s.hcalls.filter (fun e => e.2 ≠ k) }

/-- The requests to create groups of a team's gathers leave the queues of its core's pipes (R336). -/
def State.dropCreates (s : State) (c t : Nat) : State :=
  let gone := ((s.core c).gathers.filter (fun e => e.2.team = t)).map (·.1)
  [0, 1, 2, 3].foldl (fun s p => s.setPipe (4 * c + p) { s.pipe (4 * c + p) with
    claims := (s.pipe (4 * c + p)).claims.filter (fun r => match r with
      | .create n => !(gone.contains n)
      | .claim _ _ => true) }) s

/-- Releases a team's seat (R334): watches, barriers, queues, channels, gathers and scratchpad go. -/
def State.dropTeam (s : State) (t : Nat) : State :=
  let c := teamCore t
  let co := s.core c
  let mine (x : RangeLock) : Bool :=
    match x.owner with
    | .chan ch => (sget {} co.chans ch).team = t && (sget {} co.chans ch).st ≠ .free
    | .next ch => (sget {} co.chans ch).team = t && (sget {} co.chans ch).st ≠ .free
    | .watch h => (s.slices.any (fun e => e.2.watches.any (fun w => watchKey e.1 w.1 = h && w.2.team = t && w.2.core = c)))
    | .queue g _ => (match find s.groups g with | some gr => gr.seat = t | none => true)
    | .bank g => (match find s.groups g with | some gr => gr.seat = t | none => true)
  let co' := { co with
    locks := co.locks.filter (fun x => !(mine x))
    gathers := co.gathers.filter (fun e => e.2.team ≠ t)
    idleT := s.tsc }
  let s := ((s.dropCreates c t).setCore c co').freeChans c t
  let inst := match find s.teams t with
    | some tm => tm.inst
    | none => 0
  let s : State := { s with teams := del s.teams t }
  let convs := (s.convs.map (fun e => (e.1, { e.2 with teams := e.2.teams.filter (fun u => u ≠ t) }))).filter (fun e =>
    !e.2.teams.isEmpty)
  let slices := s.slices.map (fun e =>
    (e.1, { e.2 with watches := e.2.watches.filter (fun w => !(w.2.team = t && w.2.core = c)) }))
  let insts := s.insts.filter (fun e =>
    !(e.1 = inst && e.2.teams.all (fun u => u = t || (find s.teams u).isNone)))
  { s with convs := convs, slices := slices, insts := insts }

/-- The halt status a program gives: bit 31 is forced to 0 (R430). -/
def haltStatus (x : DWord) : Word := x.truncate 32 &&& 0x7fffffff

/-- A graph completes when every node has ended (R452). -/
def State.finishGraph (s : State) (gi comp : Nat) (st : Word) : State :=
  match find s.graphs gi with
  | none => s
  | some g =>
    if !g.ended && g.nodes.all (fun n => n.2.2.2) then
      let s : State := { s with graphs := put s.graphs gi { g with ended := true } }
      s.complete g.ch g.tag 3 comp (bytesOf st.toNat 4)
    else s

/-- Element `i` of a list changed by `f`. -/
def modAt {α : Type} (f : α → α) : Nat → List α → List α
  | _, [] => []
  | 0, a :: r => f a :: r
  | n + 1, a :: r => a :: modAt f n r

/-- A launch ends: its completion is written, or its graph's node has ended (R452, R454). -/
def State.endLaunch (s : State) (l comp : Nat) (st : Word) : State :=
  match find s.launches l with
  | none => s
  | some L =>
    if L.ended then s
    else
      let L' := { L with ended := true, status := st, left := 0, endT := some s.now }
      let s : State := { s with launches := put s.launches l L' }
      match L.node with
      | none => s.complete L.ch L.tag 2 comp (bytesOf st.toNat 4)
      | some (gi, n) =>
        let s : State := { s with graphs := upd s.graphs gi (fun g =>
          { g with nodes := modAt (fun x => (x.1, x.2.1, true, true)) n g.nodes }) }
        s.finishGraph gi comp st

/-- Ends every launch of a context and every node that can no longer run. -/
def State.endLaunches (s : State) (ctx comp : Nat) (st : Word) : State :=
  let s := ((s.launches.filter (fun e => e.2.ctx = ctx && !e.2.ended)).map (·.1)).foldl
    (fun s l => s.endLaunch l comp st) s
  let gs := s.graphs.map (fun e =>
    (e.1, { e.2 with nodes := e.2.nodes.map (fun x => if x.2.1 = ctx then (x.1, x.2.1, true, true) else x) }))
  let s : State := { s with graphs := gs }
  (s.graphs.map (·.1)).foldl (fun s gi => s.finishGraph gi comp st) s

/-- The group's registrations are tested and its dirty words, found by their writer tags, written back (R419
step 4). -/
def State.quietGroup (s : State) (k : Nat) : State :=
  let s := s.testAll (fun q => q.grp = k)
  ((s.core (coreOf k)).l1.filter (fun e => e.2.grp = k && e.2.mask ≠ 0 && e.2.hid.isNone)).foldl
    (fun s e => s.writeBack (coreOf k) e.1) s

/-- The stores of some groups that are parked, or whose tests have failed and wait for room to park, are discarded (R430). -/
def State.discardStores (s : State) (gs : List Nat) : State :=
  { s with
    regQ := s.regQ.filter (fun q => !(gs.contains q.grp))
    cores := s.cores.map (fun e => (e.1, { e.2 with
      replay := e.2.replay.filter (fun q => !(gs.contains q.grp))
      l1 := e.2.l1.filter (fun x => !(gs.any x.2.pendingOf)) })) }

/-- Stops the teams that `p` accepts, seated and saved (R430): issued writes complete, levels are rolled back, chains aborted, parked
stores discarded, every seat released with its watches. A saved member leaves its conversation (R388). Performed writes stay. -/
def State.haltTeams (s : State) (p : Team → Bool) : State :=
  let ts := (s.teams.filter (fun e => p e.2)).map (·.1)
  let s := ((s.groups.filter (fun e => ts.contains e.2.seat)).map (·.1)).foldl (fun s k => s.finishWrites k) s
  let s := ts.foldl (fun s t => if s.depth t = 0 then s else s.rollTo t 1) s
  let s := ts.foldl (fun s t => (s.core (teamCore t)).chans.foldl (fun s e =>
    if e.2.team = t && e.2.st ≠ .free then s.endChains (teamCore t) e.1 true (fun _ => true) else s) s) s
  let gs := (s.groups.filter (fun e => ts.contains e.2.seat)).map (·.1)
  let s := (gs.foldl (fun s k => s.quietGroup k) s).discardStores gs
  let s := gs.foldl (fun s k => s.dropGroup k) s
  let s := ts.foldl (fun s t => s.dropTeam t) s
  let sv := s.saved.filter (fun v => p v.team)
  let gone := sv.flatMap (·.groups)
  { s with
    saved := s.saved.filter (fun v => !(p v.team))
    convs := (s.convs.map (fun e => (e.1, { e.2 with teams := e.2.teams.filter (fun u => !(sv.any (fun v => v.uid = u))) }))).filter
      (fun e => !e.2.teams.isEmpty)
    hcalls := s.hcalls.filter (fun e => !(gone.any (fun g => g.2.hcid = some e.1 || (g.2.kept.bind (·.hcid)) = some e.1)))
    serials := s.serials.map (fun e => if gone.any (fun g => g.2.vv.own.serial = e.1) then (e.1, some s.now) else e)
    slices := s.slices.map (fun e => (e.1, { e.2 with watches := e.2.watches.filter (fun w => !(sv.any (fun v => v.uid = w.2.team))) })) }

/-- Event kind 9 of a context (R425, R430). -/
def State.postHalt (s : State) (ctx : Nat) (st : Word) (src : Nat) : State :=
  s.post src 9 (st.zeroExtend 64) (ctxImage ctx ((find s.ctxs ctx).getD {}))

/-- Ends a context on the device (R430): its teams stop, its seats are released, event kind 9 is posted. `comp` is the STATUS of its
completions. -/
def State.haltCtx (s : State) (ctx : Nat) (st : Word) (src comp : Nat) : State :=
  let s := s.haltTeams (fun tm => tm.ctx = ctx)
  let s : State :=
    { s with
      cores := s.cores.map (fun e => (e.1, { e.2 with replay := e.2.replay.filter (fun p => p.ctx ≠ ctx) }))
      ctxs := upd s.ctxs ctx (fun c => { c with halted := some st })
      images := s.images.filter (fun l => l.all (fun v => v.team.ctx ≠ ctx))
      slices := s.slices.map (fun e => (e.1, { e.2 with watches := e.2.watches.filter (fun w => w.2.ctx ≠ ctx) })) }
  (s.endLaunches ctx comp st).postHalt ctx st src

/-- Ends a context with completions of STATUS 0 (R430). -/
def State.endCtx (s : State) (ctx : Nat) (st : Word) (src : Nat) : State := s.haltCtx ctx st src 0

end Sys2Proof.Machine
end

