-- ==== Sys2Proof/Machine/Ops.lean ====
section
/-! DEFINITION. The named operations that meanings share: how an instruction completes or waits, global
accesses with their checks, taking a trap (R405 to R414) and returning from one (R428). -/

namespace Sys2Proof.Machine

open Sys2Proof

/-- The outcome of a step. -/
abbrev Res := Host.Outcome State Fault Refusal

/-! ### The issuing group -/

/-- Acts for the group whose instruction executes. -/
def withG (s : State) (f : Group → Res) : Res :=
  match s.grp with
  | none => .fault .noGroup
  | some g => f g

/-- A group after a control transfer. -/
def Group.jump (g : Group) (a : DWord) : Group := { g with pc := a, wf := {}, waitN := none }

/-- The instruction completes, leaving the group as given. -/
def done (s : State) (g : Group) : Res := .next (s.setGrp g.next)

/-- The instruction completes by changing the issuing group of `s`. -/
def doneWith (s : State) (f : Group → Group) : Res := withG s (fun g => done s (f g))

/-- The instruction transfers control. -/
def goto (s : State) (g : Group) (a : DWord) : Res := .next (s.setGrp (g.jump a))

/-- The instruction transfers control, changing the issuing group of `s`. -/
def gotoWith (s : State) (f : Group → Group) (a : DWord) : Res := withG s (fun g => goto s (f g) a)

/-- An instruction that computes one scalar register from the group's registers. -/
def alu (s : State) (d : XReg) (f : Group → DWord) : Res := withG s (fun g => done s (g.setX d (f g)))

/-- A group whose row of the wait-for table is written; a wait that goes on keeps its beginning (R349, R472). The row shows the wait
that was written last, of either stream. DESIGN CHOICE (log 168). -/
def Group.waiting (g : Group) (t : DWord) (row : WaitRow) : Group :=
  { g with wf := if g.wf.kind = row.kind then { row with since := g.wf.since, told := g.wf.told } else { row with since := t } }

/-- The instruction waits: it keeps its PC and its row of the wait-for table (R349). -/
def block (s : State) (g : Group) (row : WaitRow) : Res := .next (s.setGrp (g.waiting s.tsc row))

/-- The bits of the groups of `s` with keys in `l`, as WFSIG0 and WFSIG1 of core `c` (R349). -/
def sigBits (c : Nat) (l : List Nat) (half : Nat) : DWord :=
  maskOf ((l.filter (fun k => coreOf k = c && (k % 128) / 64 = half)).map (fun k => k % 64))

/-- A wait-for row (R349). -/
def waitRow (c kind : Nat) (ext clu : Bool) (obj : Nat) (sigs : List Nat) : WaitRow :=
  { kind := kind, ext := ext, clu := clu, obj := obj, sig0 := sigBits c sigs 0, sig1 := sigBits c sigs 1 }

/-- Keys of the other groups of a group's team. -/
def State.mates (s : State) (g : Group) : List Nat :=
  ((s.members g.seat).map (·.1)).filter (fun k => k ≠ s.cur)

/-! ### Poison (R390, R391) -/

/-- The cir image after one consumption by core `c` (R391). -/
def cirConsume (v : DWord) (c : Nat) : DWord :=
  let pois := v.getLsbD 0
  let pc := (v >>> 16).toNat % 65536
  let pc' := if pc = 65535 then pc else pc + 1
  let fc := if pois then (v >>> 32).toNat % 256 else c
  BitVec.ofNat 64 (1 + pc' * 2 ^ 16 + fc * 2 ^ 32)

/-- Records a consumption of poisoned data by group `k` (R391). -/
def State.consume (s : State) (k : Nat) : State :=
  match find s.groups k with
  | none => s
  | some g =>
    let id := s.ctxId g
    let s : State := { s with ctxs := upd s.ctxs id (fun c => { c with cir := cirConsume c.cir (coreOf k) }) }
    match find s.teams g.seat with
    | none => s
    | some tm =>
      match tm.levels with
      | [] => s
      | l :: r => s.setTeam g.seat { tm with levels := { l with pois := true } :: r }

/-- Records a consumption when `p` holds. DEDUCED (log 24). -/
def State.consumeIf (s : State) (k : Nat) (p : Bool) : State := if p then s.consume k else s

/-! ### In-flight counters (R216) -/

/-- The code of a path (R51). -/
def pathCode : Path → Nat
  | .sp => 0 | .gl => 1 | .rsp => 2 | .pat => 3 | .cp => 4 | .pl => 5

/-- Counts one access on a path of group `k`: its number, and the state. -/
def State.countAcc (s : State) (k : Nat) (p : Path) : Nat × State :=
  match find s.groups k with
  | none => (0, s)
  | some g =>
    let n := sget 0 g.cnt (pathCode p) + 1
    (n, { s with groups := put s.groups k { g with cnt := sset 0 g.cnt (pathCode p) n } })

/-- Numbers of the accesses of group `k` on a path that have not completed (R217). -/
def State.openAccs (s : State) (k : Nat) (g : Group) (p : Path) : List Nat :=
  ((g.infl.filter (fun i => i.path = p)).map (·.seq))
    ++ ((s.regQ.filter (fun q => q.grp = k && !q.eng && q.path = p)).map (·.seq))
    ++ (((s.core (coreOf k)).replay.filter (fun q => q.grp = k && q.path = p)).map (·.seq))
    ++ (if p = .pat then g.opq.flatMap (fun q => q.2.wait.toList ++ q.2.left.map (·.1)) else [])

/-- Requests of a group that are outstanding: one for each line that a load or an atomic awaits (R223), and one for each pattern
fetch. -/
def Group.requests (g : Group) : Nat :=
  (g.infl.map (fun x => (x.words.map (fun w => w / 32)).dedup.length)).sum
    + (g.opq.map (fun q => q.2.wait.toList.length + q.2.left.length)).sum

/-- Memory requests of a core that are outstanding (R215): its groups', and one for each line of each store whose registrations
are on their way (R223). DEDUCED (log 116). -/
def State.outstanding (s : State) (c : Nat) : Nat :=
  ((s.groups.filter (fun e => coreOf e.1 = c)).map (fun e => e.2.requests)).sum
    + ((s.regQ.filter (fun q => q.core = c && !q.eng)).map (fun q => (q.grp, q.path, q.seq, q.w / 32))).dedup.length

/-- An instruction has taken core `c` past its 1,024 requests (R215). -/
def State.overRequests (s t : State) (c : Nat) : Bool :=
  decide (1024 < t.outstanding c) && decide (s.outstanding c < t.outstanding c)

/-- No memory request of a core is free (R215). -/
def State.requestsFull (s : State) (c : Nat) : Bool := decide (1024 ≤ s.outstanding c)

/-- The counter of a path, counting only the first `n` accesses (R216, R218): those from the oldest that has
not completed. -/
def State.unretired (s : State) (k : Nat) (g : Group) (p : Path) (n : Nat) : Nat :=
  match s.openAccs k g p with
  | [] => 0
  | a :: r => n + 1 - leastOf a (a :: r)

/-- The in-flight counter of a path (R216). -/
def State.counter (s : State) (k : Nat) (g : Group) (p : Path) : Nat :=
  if p = .cp then sget 0 g.cnt 4 else s.unretired k g p (sget 0 g.cnt (pathCode p))

/-! ### Waits on the lane stream (R73, R99, R412) -/

/-- A push at the head of the lane queue finds the decision queue full (R99). -/
def blockedPush (g : Group) : Bool :=
  match g.laneQ with
  | [] => false
  | e :: _ => decide (0 < entryPushes e.bits.toNat) && decide (64 < g.decQ.length + entryPushes e.bits.toNat)

/-! ### Parked stores (R210) -/

/-- Where a store of a lane instruction stands (R49). -/
structure LanePos where
  lane : Bool := false
  pc   : DWord := 0
  idx  : Nat := 0
  deriving DecidableEq, Repr, Inhabited

/-- Whether `n` bytes at a global address overlap `m` bytes at another. -/
def overlaps (a : DWord) (n : Nat) (b : DWord) (m : Nat) : Bool :=
  decide (a.toNat < b.toNat + m) && decide (b.toNat < a.toNat + n)

/-- Whether an atomic of this scope names a global address (R264). -/
def onGlobal : Scope → Bool
  | .grp => false | .team => false | .clus => true | .dev => true | .sys => true | .pool => true

/-- A global access of a group overlaps the word of its own atomic in flight, behind which it takes effect (R222, R253). -/
def State.atomHit (s : State) (k : Nat) (va : DWord) (n : Nat) : Bool :=
  match find s.groups k with
  | none => false
  | some g => g.infl.any (fun x => x.atoms.any (fun a => onGlobal a.sc && overlaps a.addr 4 va n))

/-- A registration on its way has a word that its core's L1 does not hold. -/
def State.homeless (s : State) (q : StoreReq) (w : Nat) : Bool :=
  match s.l1At q.core w with
  | some x => x.mask = 0
  | none => true

/-- A load of a group overlaps bytes of its own store that is parked or that no L1 shows it, or its own atomic in flight
(R210, R222, R253). -/
def State.parkedHit (s : State) (k : Nat) (va : DWord) (n : Nat) : Bool :=
  (s.core (coreOf k)).replay.any (fun p => p.grp = k &&
    p.bytes.any (fun b => decide (va.toNat ≤ b.1) && decide (b.1 < va.toNat + n)))
  || s.regQ.any (fun q => q.grp = k && !q.eng && q.words.any (fun w => s.homeless q w && overlaps (q.cellVa w) 4 va n))
  || s.atomHit k va n

/-- Whether two parked stores, or a store and a parked one, stand on one page (R210). DEDUCED (log 25). -/
def onPage (ctx page : Nat) (p : Parked) : Bool := p.ctx = ctx && p.bytes.any (fun b => b.1 / 4096 = page)

/-- Why a store on a page that holds a parked one is parked (R210). -/
def State.behindWhy (s : State) (c ctx page : Nat) : ParkWhy :=
  if (s.core c).replay.any (fun p => p.why = .fault && onPage ctx page p) then .fault else .behind

/-- A store of group `k` is parked with the dot and vector that it has at issue (R210). -/
def State.parkAs (s : State) (k : Nat) (g : Group) (p : Parked) : State :=
  let d := newDot s g
  let co := s.core (coreOf k)
  let p := { p with grp := k, ctx := s.ctxId g, dot := d, vec := storeVec g.vv d }
  (s.setCore (coreOf k) { co with replay := co.replay ++ [p] }).stampDot k d

/-- Bytes of a store parked on one page that does not translate, or behind a store that is parked there (R210), with its number
on its path. -/
def State.parkBytes (s : State) (k : Nat) (why : ParkWhy) (bytes : List (Nat × Byte)) (w64 : Bool) (path : Path) (seq : Nat)
    (lp : LanePos) : State :=
  match find s.groups k with
  | none => s
  | some g =>
    s.parkAs k g { grp := k, ctx := 0, why := why, bytes := bytes, dot := {}, vec := {}, pc := lp.pc, lane := lp.lane, idx := lp.idx
                   path := path, seq := seq, tc := g.tclass, w64 := w64
                   hid := if (s.teamOf g).levels.isEmpty then none
                     else some { team := g.seat, conv := teamConv s g.seat, level := (s.teamOf g).levels.length } }

/-- The bytes of a store of `n` bytes at a virtual address. -/
def vBytes (va : DWord) (n v : Nat) : List (Nat × Byte) :=
  (List.range n).map (fun i => (va.toNat + i, BitVec.ofNat 8 (v / 2 ^ (8 * i))))

/-- Whether the core holds a parked store on the page of `va`, behind which a later store must park (R210). -/
def State.pageParked (s : State) (c ctx : Nat) (va : DWord) : Bool := (s.core c).replay.any (onPage ctx (va.toNat / 4096))

/-- The wait-for row of a load on parked bytes, or a full replay queue (R350). -/
def memRow (c : Nat) : WaitRow := waitRow c 15 true false 0 []

/-! ### Traps -/

/-- The core's Slate source number (R423). -/
def slateSrc (k : Nat) : Nat := 0x3000 + coreOf k / 64

/-- Trap class is left and the context ended by firmware, after an unhandled trap or a double fault (R406, R413,
R414). -/
def State.escalate (s : State) (k : Nat) (st : Word) : State :=
  match find s.groups k with
  | none => s
  | some g =>
    let id := s.ctxId g
    let c := s.ctxOf g
    let s : State := { s with groups := upd s.groups k (fun g => { g with stopd := true, entry := none }) }
    (s.post (slateSrc k) 6 (frameAddr c (g.frameK.getD k)) (ctxImage id c)).endCtx id st (slateSrc k)

/-- A double fault (R413). -/
def State.doubleFault (s : State) (k : Nat) : State := s.escalate k 0x80000002

/-- Whether a trap of a group is contained by an open recovery level (R374). -/
def State.isContained (s : State) (g : Group) (num : BitVec 8) : Bool :=
  !g.tclass && decide (0 < s.depth g.seat) && num ≠ 0x01 && num ≠ 0x02 && num ≠ 0x1e

/-- TNUM of a frame (R409). -/
def tnumWord (p : PendTrap) : DWord :=
  BitVec.ofNat 64 (p.num.toNat + (if p.lane then 256 else 0) + (if p.defer then 512 else 0)
    + (if p.dlane then 2048 else 0) + (p.idx % 64) * 65536)

/-- The 64-bit fields of a frame, in order (R409). -/
def frameFields (s : State) (g : Group) (p : PendTrap) (spc : DWord) : List DWord :=
  [spc, tnumWord p, p.lpc, p.addr, p.info, s.tsc, g.x 60, g.x 61, g.x 62, g.x 63, 0, 0, 0, 0, 0, 0]

/-- A store of `n` bytes goes uncached to the host (R207); the poison of a word that it writes whole is cleared (R469). -/
def State.storeRaw (s : State) (k pa n v : Nat) (lane : Bool) : State :=
  let s := s.setBytes pa (bytesOf v n)
  let s := if n < 4 then s else (s.setPois (pa / 4) false).setPois ((pa + n - 1) / 4) false
  { s with acks := s.acks ++ [{ grp := k, w := pa / 4, unc := true, lane := lane }] }

/-- 64-bit fields of a trap-class store are performed at one place, whose page has attribute `mt` (R207, R410).
DEDUCED (log 10). -/
def State.storeDwords (s : State) (k : Nat) (va : DWord) (pa : Nat) (mt : Bool) : List DWord → State
  | [] => s
  | v :: r =>
    match find s.groups k with
    | none => s
    | some g =>
      let q := { s.reqOf k g va pa with val := v.truncate 32, pair := some (pa / 4 + 1, (v >>> 32).truncate 32) }
      let s := s.stampDot k q.dot
      (if mt then s.storeRaw k pa 8 v.toNat false else s.storeL1 q).storeDwords k (va + 8) (pa + 8) mt r

/-- The bytes of 64-bit fields from a virtual address up. -/
def dwordBytes (va : DWord) : List DWord → List (Nat × Byte)
  | [] => []
  | v :: r => vBytes va 8 v.toNat ++ dwordBytes (va + 8) r

/-- A trap-class store of group `k` on the page of `va` must go behind a parked one, and finds the replay queue full (R210). -/
def State.noRoomBehind (s : State) (k ctx : Nat) (va : DWord) : Bool :=
  s.pageParked (coreOf k) ctx va && s.replayFull (coreOf k)

/-- A trap-class store of 64-bit fields on one page, made by the device for group `k` or by its `ctxsv`: behind a store that is
parked on the page, else performed (R207, R210, R410, R436). -/
def State.storeFields (s : State) (k : Nat) (va : DWord) (pa : Nat) (mt : Bool) (l : List DWord) : State :=
  match find s.groups k with
  | none => s
  | some g =>
    if s.pageParked (coreOf k) (s.ctxId g) va then
      s.parkAs k g { grp := k, ctx := 0, why := s.behindWhy (coreOf k) (s.ctxId g) (va.toNat / 4096), bytes := dwordBytes va l
                     dot := {}, vec := {}, pc := g.pc, path := pathOfPa pa, tc := true }
    else s.storeDwords k va pa mt l

/-- Bytes read uncached from the host (R207). -/
def State.rawN (s : State) (pa n : Nat) : Nat := ofBytes ((List.range n).map (fun i => s.byte (pa + i)))

/-- Whether a word of `n` bytes at `pa`, at most 8, is poisoned in memory, as an uncached read finds it (R469, R470). -/
def State.rawPois (s : State) (pa n : Nat) : Bool := s.poisoned (pa / 4) || s.poisoned ((pa + n - 1) / 4)

/-- A 64-bit scalar global load by core `c` for conversation `cv` (R102). -/
def State.load64 (s : State) (c pa : Nat) (cv : Option Nat) : State × DWord × Bool :=
  let (s, lo, p) := s.loadWord c (pa / 4) cv
  let (s, hi, q) := s.loadWord c (pa / 4 + 1) cv
  (s, hi ++ lo, p || q)

/-- A 64-bit load that the device makes for group `k` on a page with attribute `mt` (R207); poison is consumed (R391). -/
def State.takeDw (s : State) (k pa : Nat) (mt : Bool) : State × DWord :=
  if mt then (s.consumeIf k (s.rawPois pa 8), BitVec.ofNat 64 (s.rawN pa 8))
  else
    let (s, v, p) := s.load64 (coreOf k) pa (s.groupConv k)
    (s.consumeIf k p, v)

/-- A waiting instruction is abandoned: its waits are withdrawn, a barrier's recorded arrival, a join already made and a
posted host call stay (R388, R410). -/
def Group.abandon (g : Group) : Group :=
  { g with wf := {}, nap := none, awt := none, waitN := none, cpStop := none, wrec := none
           arr := match g.arr with
             | some (.bar n p) => some (.bar n p)
             | some (.cbar c p) => some (.cbar c p)
             | some (.joined i d) => some (.joined i d)
             | _ => none }

/-- Takes a group out of every queue of waiters. -/
def State.withdraw (s : State) (k : Nat) : State :=
  match find s.groups k with
  | none => s
  | some g =>
    let s : State := { s with teams := upd s.teams g.seat (fun tm => withdrawWaits tm [k]) }
    (s.giveBack k).unrequest k

/-- What a group keeps of an instruction abandoned at `spc` (R410). DEDUCED (log 115). -/
def Group.keep (g : Group) (spc : DWord) : Option Kept :=
  if g.arr.isSome || g.hcid.isSome then some { pc := spc, arr := g.arr, hcid := g.hcid, hrep := g.hrep } else none

/-- The scalar instruction at the PC has begun and completes: a release whose store is at its home, a bank operation (R248,
R275). -/
def Group.midway (g : Group) : Bool := g.relW || g.bank.isSome

/-- The scalar stream stops for a trap whose frame will name `spc` (R410, step 1): an instruction that waits is abandoned, one that
has begun completes first. -/
def Group.standDown (g : Group) (spc : DWord) : Group :=
  if g.midway then g
  else
    let g := g.abandon
    { g with kept := g.keep spc, arr := none, hcid := none, hrep := none }

/-- Where the scalar stream goes on after the handler (R409). -/
def Group.spcOf (g : Group) (e : Entering) : DWord := e.spc.getD g.pc

/-- The group enters trap class at the handler (R410, steps 5 and 6). -/
def Group.atHandler (g : Group) (e : Entering) (frame handler : DWord) : Group :=
  let p := e.trap
  let g := (((g.setX 60 frame).setX 61 (p.num.zeroExtend 64)).setX 62 p.addr).setX 63 p.info
  { g with pc := handler, tclass := true, budget := 0, winS := [], winL := [], frozen := g.frozen || p.lane, wf := {}
           entry := none, pend := if e.held then g.pend.erase p else g.pend }

/-- The vector entry at `vpa` has been read as `h`: the handler is entered whose address it holds (R406, R410, steps 4 to 6). -/
def State.enterAt (s : State) (k : Nat) (g : Group) (e : Entering) (fa h : DWord) : State :=
  if h = 0 then s.escalate k 0x80000003
  else if (h.truncate 57).signExtend 64 ≠ h || h.toNat % 4 ≠ 0 then s.doubleFault k
  else
    let s := s.captureTop k g
    { s with groups := upd s.groups k (fun g => g.atHandler e fa h) }

/-- The address of the vector entry of a trap (R405). -/
def vectorAddr (c : Ctx) (num : BitVec 8) : DWord := c.tvb + 8 * num.zeroExtend 64

/-- The vector entry is read, as a scalar global load of the group that waits on its own parked bytes (R210, R405, R410, steps 4 to
6). -/
def State.enterVector (s : State) (k : Nat) (g : Group) (e : Entering) : State :=
  let cx := s.ctxOf g
  let va := vectorAddr cx e.trap.num
  match s.translate (coreOf k) (s.ctxId g) va .read true with
  | .wait s => s
  | .fault s => s.doubleFault k
  | .ok s pa mt =>
    if s.poolTrap pa ≠ 0 then s.doubleFault k
    else if s.parkedHit k va 8 then { s with groups := upd s.groups k (fun g => g.waiting s.tsc (memRow (coreOf k))) }
    else
      let (s, h) := s.takeDw k pa mt
      s.enterAt k g e (frameAddr cx k) h

/-- The frame is written as one trap-class store (R410, step 3). -/
def State.enterFrame (s : State) (k : Nat) (g : Group) (e : Entering) : State :=
  let fa := frameAddr (s.ctxOf g) k
  match s.translate (coreOf k) (s.ctxId g) fa .write true with
  | .wait s => s
  | .fault s => s.doubleFault k
  | .ok s pa mt =>
    if s.poolTrap pa ≠ 0 then s.doubleFault k
    else if s.noRoomBehind k (s.ctxId g) fa then { s with groups := upd s.groups k (fun g => g.waiting s.tsc (memRow (coreOf k))) }
    else
      let e := { e with framed := true }
      let s := s.storeFields k fa pa mt (frameFields s g e.trap (g.spcOf e))
      let s : State := { s with groups := upd s.groups k (fun g => { g with entry := some e, wf := {} }) }
      s.enterVector k g e

/-- An issued instruction of the group has work left, which a trap's entry awaits (R57, R410): register writes, a release's
acknowledgement, a bank operation. -/
def Group.unsettled (g : Group) : Bool := !g.infl.isEmpty || g.midway

/-- The entry of a trap goes on (R410): it awaits the group's pending register writes (R57); the frame is written and the vector
read, each when its page translates. DEDUCED (log 96). -/
def State.stepEntry (s : State) (k : Nat) : State :=
  match find s.groups k with
  | none => s
  | some g =>
    match g.entry with
    | none => s
    | some e => if g.unsettled then s else if e.framed then s.enterVector k g e else s.enterFrame k g e

/-- The entry of a trap begins (R410). -/
def State.startTrap (s : State) (k : Nat) (e : Entering) : State :=
  let s := s.withdraw k
  let s : State := { s with groups := upd s.groups k (fun g => { g.standDown (g.spcOf e) with entry := some e }) }
  s.stepEntry k

/-- Holds a trap pending; a lane trap freezes the lane stream (R411). -/
def State.holdTrap (s : State) (k : Nat) (p : PendTrap) : State :=
  { s with groups := upd s.groups k (fun g =>
      { g with pend := if p.lane then p :: g.pend else g.pend ++ [p], frozen := g.frozen || p.lane }) }

/-- `raise` (R408): contained by an open level, held or a double fault at trap class, or entry into the handler. A lane trap is
held with its stream frozen, and entered from there unless a trap is being entered. `old` says that a lane entry was enqueued
before the group entered trap class. DEDUCED (log 11). -/
def State.takeTrap (s : State) (k : Nat) (g : Group) (p : PendTrap) (spc : DWord) (old : Bool) : State :=
  if s.isContained g p.num then s.failAlt g.seat (s.depth g.seat) 4 p.num.toNat g.gid
  else if g.tclass then (if p.defer || (p.lane && old) then s.holdTrap k p else s.doubleFault k)
  else if !p.lane then s.startTrap k { trap := p, spc := some spc }
  else if g.entry.isSome then s.holdTrap k p
  else (s.holdTrap k p).startTrap k { trap := p, held := true }

/-- A scalar instruction raises a precise trap (R408). -/
def raise (s : State) (num : BitVec 8) (addr info : DWord) : Res :=
  withG s (fun g => .next (s.takeTrap s.cur g { num := num, addr := addr, info := info } g.pc false))

/-- A software trap: execution resumes after the instruction (R427). -/
def raiseNext (s : State) (num : BitVec 8) (info : DWord) : Res :=
  withG s (fun g => .next (s.takeTrap s.cur g { num := num, info := info } (g.pc + 4) false))

/-- A lane instruction raises a precise trap at its lane-queue position (R49, R410). -/
def raiseLane (s : State) (g : Group) (e : LaneEntry) (num : BitVec 8) (addr info : DWord) : Res :=
  .next (s.takeTrap s.cur g
    { num := num, addr := addr, info := info, lane := true, lpc := e.lpc, idx := e.idx } g.pc (!e.tcl))

/-- A scalar instruction waits for the lane stream (R73): a double fault while a handler's lane stream is frozen
(R412), decision-overflow when a push is blocked (R99), else a wait. -/
def waitLane (s : State) (g : Group) : Res :=
  if g.tclass && g.frozen then .next (s.doubleFault s.cur)
  else if blockedPush g then raise (s.setGrp { g with arr := none }) 0x0c 0 0
  else .next s

/-- A scalar instruction waits until no enqueued lane instruction names `j` (R74). -/
def needK (s : State) (g : Group) (j : KReg) (r : Res) : Res := if g.kFree j then r else waitLane s g

/-- The XSAVE fields return to x60 to x63 (R428). -/
def Group.restoreX (g : Group) (a b c d : DWord) : Group :=
  (((g.setX 60 a).setX 61 b).setX 62 c).setX 63 d

/-- The instruction at `spc` goes on from what it had kept; what another had kept is dropped (R410). -/
def Group.resume (g : Group) (spc : DWord) : Group :=
  match g.kept with
  | none => g
  | some r => if r.pc = spc then { g with kept := none, arr := r.arr, hcid := r.hcid, hrep := r.hrep } else { g with kept := none }

/-- Leaving trap class (R428): the lane stream unfreezes, and SKIP discards the frozen head entry. The entries left were enqueued
before the group enters trap class again (R411, R413). -/
def Group.leaveTrap (g : Group) (spc : DWord) (skip : Bool) : Group :=
  { g with pc := spc, tclass := false, frozen := g.pend.any (·.lane), budget := 0, wf := {}, frameK := none
           laneQ := (if skip then g.laneQ.tail else g.laneQ).map (fun e => { e with tcl := false }) }

/-- Return from a trap (R428): the frame is read as one trap-class scalar load, which waits on the group's own parked bytes
(R210). -/
def returnTrap (s : State) (g : Group) : Res :=
  let k := s.cur
  let c := coreOf k
  let cx := s.ctxOf g
  let fa := frameAddr cx (g.frameK.getD k)
  match s.translate c (s.ctxId g) fa .read true with
  | .wait s => .next s
  | .fault s => .next (s.doubleFault k)
  | .ok s pa mt =>
    if s.poolTrap pa ≠ 0 then .next (s.doubleFault k)
    else if s.parkedHit k fa 128 then block s g (memRow c)
    else
      let (s, spc) := s.takeDw k pa mt
      let (s, tn) := s.takeDw k (pa + 8) mt
      let (s, a) := s.takeDw k (pa + 0x30) mt
      let (s, b) := s.takeDw k (pa + 0x38) mt
      let (s, d) := s.takeDw k (pa + 0x40) mt
      let (s, e) := s.takeDw k (pa + 0x48) mt
      if spc.toNat % 4 ≠ 0 then .next (s.doubleFault k)
      else
        let co := s.core c
        let s := s.setCore c { co with replay := co.replay.map (fun p =>
          if p.grp = k && p.why = .overflow then { p with retry := true } else p) }
        let s := s.captureTop k g
        .next { s with groups := upd s.groups k (fun g =>
          ((g.restoreX a b d e).leaveTrap spc (tn.getLsbD 8 && tn.getLsbD 10)).resume spc) }

/-! ### Global accesses of a group -/

/-- How the checks of a memory access end (R103, R221). -/
inductive Chk where
  | ok (s : State) (pa : Nat) (mt : Bool)
  /-- A replayable translation fault (R208). -/
  | wait (s : State)
  | trap (s : State) (num : BitVec 8) (info : DWord)

/-- INFO[8] of a write (R405). -/
def wInfo (write : Bool) : DWord := if write then 256 else 0

/-- The checks of a global access once its page translates: what the instruction permits of the memory, the pool region,
the range locks. -/
def State.chkPlace (s : State) (k : Nat) (g : Group) (va : DWord) (n : Nat) (write lock : Bool) (perm : Nat → Bool)
    (pa : Nat) (mt : Bool) : Chk :=
  if !(perm pa) then .trap s 0x10 (wInfo write)
  else if s.poolTrap pa ≠ 0 then
    .trap s (BitVec.ofNat 8 (s.poolTrap pa))
      (if s.poolTrap pa = 0x14 then wInfo write ||| BitVec.ofNat 64 ((poolOf pa).getD 0 * 65536) else wInfo write)
  else if lock && s.lockedG (coreOf k) (s.ctxId g) va n write then .trap s 0x13 (wInfo write)
  else .ok s pa mt

/-- The checks of one global access of `n` bytes whose address is canonical and aligned: translation and permission, and
those of its place. DEDUCED (log 61). -/
def State.chkPage (s : State) (k : Nat) (g : Group) (va : DWord) (n : Nat) (write lock : Bool) (perm : Nat → Bool) : Chk :=
  match s.translate (coreOf k) (s.ctxId g) va (if write then .write else .read) g.tclass with
  | .wait s => if lock && s.lockedG (coreOf k) (s.ctxId g) va n write then .trap s 0x13 (wInfo write) else .wait s
  | .fault s => .trap s 0x10 (wInfo write)
  | .ok s pa mt => s.chkPlace k g va n write lock perm pa mt

/-- Whether a global address is canonical (R103). -/
def canonical (va : DWord) : Bool := (va.truncate 57).signExtend 64 = va

/-- The checks of one global access of `n` bytes in the order of R103 and R221: canonical form, alignment, translation and
permission, the pool region, the range locks. -/
def State.chkGlobal (s : State) (k : Nat) (g : Group) (va : DWord) (n al : Nat) (write lock : Bool) : Chk :=
  if !(canonical va) then .trap s 0x10 (wInfo write)
  else if va.toNat % al ≠ 0 then .trap s 0x12 (wInfo write)
  else s.chkPage k g va n write lock (fun _ => true)

/-- The checks of one aligned access of `n` bytes of an ordering, atomic or cell instruction, in the order of the rows of
R277 and R306: alignment, the memory fault, the pool region, the range locks. -/
def State.chkOrdered (s : State) (k : Nat) (g : Group) (va : DWord) (n : Nat) (write : Bool) (perm : Nat → Bool) : Chk :=
  if va.toNat % n ≠ 0 then .trap s 0x12 (wInfo write)
  else if !(canonical va) then .trap s 0x10 (wInfo write)
  else s.chkPage k g va n write true perm

/-- A group has an atomic on a scratchpad word in flight, behind which its scratchpad accesses take effect (R222). -/
def Group.spadAtoms (g : Group) : Bool := g.infl.any (fun x => x.atoms.any (fun a => !(onGlobal a.sc)))

/-- Every access of the group's lane stream has been performed with respect to the group, stores in the replay queue aside (R97,
R242). -/
def State.laneQuiet (s : State) (k : Nat) (g : Group) : Bool :=
  !g.laneBusy && s.acks.all (fun a => !(a.grp = k && a.unc && a.lane))
    && s.regQ.all (fun q => !(q.grp = k && q.lane) || q.words.all (fun w => !(s.homeless q w)))

/-- The value of `n` bytes within one or two words, as a group's load reads them; with poison (R222). -/
def State.loadN (s : State) (k pa n : Nat) (mt : Bool) : State × Nat × Bool :=
  if mt then (s, s.rawN pa n, s.rawPois pa n)
  else
    let cv := s.groupConv k
    if n = 8 then
      let (s, v, p) := s.load64 (coreOf k) pa cv
      (s, v.toNat, p)
    else
      let (s, w, p) := s.loadWord (coreOf k) (pa / 4) cv
      (s, w.toNat / 2 ^ (8 * (pa % 4)) % 2 ^ (8 * n), p)

/-- The bytes of a word that `n` bytes at `pa` cover. -/
def byteMask (pa n : Nat) : BitVec 4 := BitVec.ofNat 4 ((2 ^ n - 1) * 2 ^ (pa % 4))

/-- A checked global store of `n` bytes, 1, 2, 4 or 8 (R102, R225): captured, hidden or noted inside a recovery
block, entered into the L1 with the group's dot; `none` when Sepia cannot hold the capture. -/
def State.storeN (s : State) (k : Nat) (va : DWord) (pa n v seq : Nat) (mt : Bool) (lp : LanePos) : Option State :=
  match find s.groups k with
  | none => some s
  | some g =>
    let hid := s.hidTag g.seat (pa / 4)
    match s.captureLine g.seat (pa / 4) hid.isSome with
    | none => none
    | some s =>
      let s := s.noteWrote g.seat (pa / 4)
      let s := if n = 8 then s.noteWrote g.seat (pa / 4 + 1) else s
      let d := newDot s g
      if mt then some ((s.stampDot k d).storeRaw k pa n v lp.lane)
      else
        let q := { s.reqOf k g va pa with
          hid := hid, lane := lp.lane, pc := lp.pc, idx := lp.idx, seq := seq
          val := if n = 8 then BitVec.ofNat 32 v else BitVec.ofNat 32 (v * 2 ^ (8 * (pa % 4)))
          mask := if n = 8 then 0xf else byteMask pa n
          pair := if n = 8 then some (pa / 4 + 1, BitVec.ofNat 32 (v / 2 ^ 32)) else none }
        some ((s.stampDot k d).storeL1 q)

/-- A scalar store is parked (R210). -/
def State.park (s : State) (k : Nat) (why : ParkWhy) (va : DWord) (n v : Nat) (path : Path) (seq : Nat) (lp : LanePos) : State :=
  s.parkBytes k why (vBytes va n v) (n = 8) path seq lp

end Sys2Proof.Machine
end

