-- ==== Sys2Proof/Machine/Control.lean ====
section
/-! DEFINITION. Control transfers, the return stack, the activity stack, mask operations, the lane-stream
controls and the special registers (R76 to R101, R106, R107). -/

namespace Sys2Proof.Machine

open Sys2Proof

/-! ### Branches (R91 to R94) -/

/-- A 13-bit word offset as a byte offset (R38). -/
def off13 (o : BitVec 13) : DWord := o.signExtend 64 * 4
/-- A 25-bit word offset as a byte offset (R38). -/
def off25 (o : BitVec 25) : DWord := o.signExtend 64 * 4

/-- A conditional branch (R92). -/
def branch (s : State) (off : BitVec 13) (c : Group → Bool) : Res :=
  withG s (fun g => if c g then goto s g (g.pc + off13 off) else done s g)

def execB (o : BitVec 25) (s : State) : Res := withG s (fun g => goto s g (g.pc + off25 o))
def execBeq (a b : XReg) (o : BitVec 13) (s : State) : Res := branch s o (fun g => g.x a == g.x b)
def execBne (a b : XReg) (o : BitVec 13) (s : State) : Res := branch s o (fun g => g.x a != g.x b)
def execBlt (a b : XReg) (o : BitVec 13) (s : State) : Res := branch s o (fun g => (g.x a).slt (g.x b))
def execBge (a b : XReg) (o : BitVec 13) (s : State) : Res := branch s o (fun g => !(g.x a).slt (g.x b))
def execBltn (a b : XReg) (o : BitVec 13) (s : State) : Res := branch s o (fun g => (g.x a).ult (g.x b))
def execBgen (a b : XReg) (o : BitVec 13) (s : State) : Res := branch s o (fun g => !(g.x a).ult (g.x b))
def execBz (a : XReg) (o : BitVec 13) (s : State) : Res := branch s o (fun g => g.x a == 0)
def execBnz (a : XReg) (o : BitVec 13) (s : State) : Res := branch s o (fun g => g.x a != 0)

/-- R93. -/
def execLoop (a : XReg) (o : BitVec 13) (s : State) : Res :=
  withG s (fun g =>
    let t := g.x a - 1
    if t ≠ 0 then goto s (g.setX a t) (g.pc + off13 o) else done s (g.setX a t))

/-- The current top ANDed with the live lanes (R94). -/
def Group.topLive (g : Group) : DWord := g.top &&& g.k0

/-- A branch on a mask register, after the interlock of R74. -/
def maskBranch (s : State) (j : KReg) (o : BitVec 13) (c : DWord → DWord → Bool) : Res :=
  withG s (fun g => needK s g j (branch s o (fun g => c g.topLive (g.k j))))

def execBkany (j : KReg) (o : BitVec 13) (s : State) : Res := maskBranch s j o (fun a k => a &&& k != 0)
def execBkall (j : KReg) (o : BitVec 13) (s : State) : Res := maskBranch s j o (fun a k => a &&& ~~~k == 0)
def execBknone (j : KReg) (o : BitVec 13) (s : State) : Res := maskBranch s j o (fun a k => a &&& k == 0)

/-! ### Calls and returns (R79 to R81, R95) -/

/-- The slot whose spill area a group uses: its own, until a restore left entries elsewhere (R409, R420). -/
def Group.spillSlot (g : Group) (k : Nat) : Nat := if g.spill = 0 then k else g.spillK.getD k

/-- A spill must go behind a parked store and finds the replay queue full, or a refill waits on parked bytes (R210). -/
def State.spillHeld (s : State) (g : Group) (va : DWord) (acc : AccK) : Bool :=
  if acc = AccK.write then s.noRoomBehind s.cur (s.ctxId g) va else s.parkedHit s.cur va 8

/-- The access of a spill entry at trap-class permission (R80): it waits for a replayable fault and raises the
stack fault on any other. -/
def withSpill (s : State) (g : Group) (n : Nat) (acc : AccK) (f : State → Nat → Bool → Res) : Res :=
  let va := spillAddr (s.ctxOf g) (g.spillSlot s.cur) + BitVec.ofNat 64 (8 * n)
  match s.translate (coreOf s.cur) (s.ctxId g) va acc true with
  | .wait s => .next s
  | .fault s => raise s 0x08 va 0
  | .ok s pa mt =>
    if s.poolTrap pa ≠ 0 then raise s 0x08 va 0
    else if s.spillHeld g va acc then block s g (memRow (coreOf s.cur))
    else f s pa mt

/-- Pushes a return address (R80, R81): `f` goes on with what that does to the group. -/
def withPush (s : State) (g : Group) (a : DWord) (f : State → (Group → Group) → Res) : Res :=
  if 1040 ≤ g.retDepth then raise s 0x06 0 0
  else if g.ret.length < 16 then f s (fun g => { g with ret := a :: g.ret })
  else
    let k := s.cur
    let va := spillAddr (s.ctxOf g) (g.spillSlot k) + BitVec.ofNat 64 (8 * g.spill)
    withSpill s g g.spill .write (fun s pa mt =>
      f (s.storeFields k va pa mt [g.ret.getLastD 0]) (fun g =>
        { g with ret := a :: g.ret.dropLast, spill := g.spill + 1, spillK := if g.spill = 0 then none else g.spillK }))

/-- The return-stack depth that a group had at the `ensure` of its team's innermost open level (R393). -/
def State.floorDepth (s : State) (k : Nat) (g : Group) : Nat :=
  match (s.teamOf g).levels with
  | [] => 0
  | l :: _ => match find l.frames k with
    | some f => f.ret.length + f.spill
    | none => 0

/-- Pops the return stack (R80, R81, R95): target alignment, then depth, then the spill access. DEDUCED (log 15). -/
def withPop (s : State) (g : Group) (f : State → (Group → Group) → DWord → Res) : Res :=
  match g.ret with
  | [] => raise s 0x07 0 0
  | a :: r =>
    if a.toNat % 4 ≠ 0 then raise s 0x04 a 0
    else if g.retDepth ≤ s.floorDepth s.cur g then raise s 0x1e 0 0
    else if r.isEmpty && g.spill ≠ 0 then
      let k := s.cur
      withSpill s g (g.spill - 1) .read (fun s pa mt =>
        let (s, v) := s.takeDw k pa mt
        f s (fun g => { g with ret := [v], spill := g.spill - 1 }) a)
    else f s (fun g => { g with ret := r }) a

def execCall (o : BitVec 25) (s : State) : Res :=
  withG s (fun g => withPush s g (g.pc + 4) (fun s f => gotoWith s f (g.pc + off25 o)))

def execCalli (a : XReg) (s : State) : Res :=
  withG s (fun g =>
    if (g.x a).toNat % 4 ≠ 0 then raise s 0x04 (g.x a) 0
    else withPush s g (g.pc + 4) (fun s f => gotoWith s f (g.x a)))

def execRet (s : State) : Res := withG s (fun g => withPop s g (fun s f a => gotoWith s f a))

def execJmpi (a : XReg) (s : State) : Res :=
  withG s (fun g => if (g.x a).toNat % 4 ≠ 0 then raise s 0x04 (g.x a) 0 else goto s g (g.x a))

/-! ### Lane-stream control (R96 to R99) -/

/-- How an instruction fetch ends. -/
inductive FRes where
  | ok (s : State) (w : Word)
  | wait (s : State)
  | fault (s : State)

/-- Fetches one 32-bit code word (R206, R208). -/
def State.fetchWord (s : State) (k : Nat) (g : Group) (va : DWord) : FRes :=
  match s.translate (coreOf k) (s.ctxId g) va .fetch g.tclass with
  | .wait s => .wait s
  | .fault s => .fault s
  | .ok s pa _ => if s.poolTrap pa ≠ 0 then .fault s else .ok s (s.homeRead (pa / 4) (s.groupConv k))

/-- Fetches `n` consecutive code words. -/
def State.fetchWords (s : State) (k : Nat) (g : Group) (va : DWord) : Nat → List Word → State × Option (List Word) × Bool
  | 0, acc => (s, some acc.reverse, false)
  | n + 1, acc =>
    match s.fetchWord k g va with
    | .ok s w => s.fetchWords k g (va + 4) n (w :: acc)
    | .wait s => (s, none, true)
    | .fault s => (s, none, false)

/-- Groups words into 96-bit lane instructions, lowest word first (R39). -/
def laneWords : List Word → List (BitVec 96)
  | a :: b :: c :: r => (c ++ b ++ a) :: laneWords r
  | _ => []

/-- The broadcast value that a source field takes at `lrun` (R41): kind 2 with index 0 to 63. -/
def bcValue (g : Group) (fld : Nat) : DWord :=
  if fld / 256 = 2 && decide (fld % 256 < 64) then g.x (BitVec.ofNat 6 (fld % 256)) else 0

/-- A lane-queue entry made by `lrun` (R96). -/
def mkEntry (g : Group) (w : BitVec 96) (i : Nat) : LaneEntry :=
  { bits := w, top := g.top, bca := bcValue g (field w.toNat 66 10), bcb := bcValue g (field w.toNat 56 10),
    bcc := bcValue g (field w.toNat 46 10), lpc := g.pc, idx := i, tcl := g.tclass }

/-- The entries of a block, with their index in it. -/
def mkEntries (g : Group) : Nat → List (BitVec 96) → List LaneEntry
  | _, [] => []
  | i, w :: r => mkEntry g w i :: mkEntries g (i + 1) r

/-- R96. -/
def execLrun (count : BitVec 6) (off : BitVec 19) (s : State) : Res :=
  withG s (fun g =>
    let n := count.toNat + 1
    if 256 < g.laneQ.length + n then waitLane s g
    else
      let va := g.lbase + BitVec.ofNat 64 (12 * off.toNat)
      match s.fetchWords s.cur g va (3 * n) [] with
      | (s, some ws, _) => done s { g with laneQ := g.laneQ ++ mkEntries g 0 (laneWords ws) }
      | (s, none, true) => .next s
      | (s, none, false) => raise s 0x05 va 0)

/-- R97. -/
def execLsync (s : State) : Res :=
  withG s (fun g => if g.laneBusy then waitLane s g else if s.laneQuiet s.cur g then done s g else .next s)

/-- R98; at trap class with the lane stream frozen it is a double fault (R412). -/
def execDpop (d : XReg) (s : State) : Res :=
  withG s (fun g =>
    if g.tclass && g.frozen then .next (s.doubleFault s.cur)
    else match g.decQ with
      | v :: r => done s ({ g with decQ := r }.setX d v)
      | [] =>
        if g.laneQ.any (fun e => decide (0 < entryPushes e.bits.toNat)) then waitLane s g else raise s 0x0b 0 0)

/-! ### The activity stack and masks (R100, R101) -/

def execKpush (j : KReg) (s : State) : Res :=
  withG s (fun g => needK s g j
    (if 32 ≤ g.act.length then raise s 0x09 0 0
     else done s { g with act := (g.top &&& g.k j) :: g.act }))

def execKelse (s : State) : Res :=
  withG s (fun g =>
    match g.act with
    | [] => raise s 0x0a 0 0
    | t :: r => done s { g with act := ((match r with | [] => g.k0 | u :: _ => u) &&& ~~~t) :: r })

def execKpop (s : State) : Res :=
  withG s (fun g =>
    match g.act with
    | [] => raise s 0x0a 0 0
    | _ :: r => done s { g with act := r })

def execKmovKK (d a : KReg) (s : State) : Res :=
  withG s (fun g => needK s g d (needK s g a (done s (g.setK d (g.k a)))))
def execKmovKX (d : KReg) (a : XReg) (s : State) : Res :=
  withG s (fun g => needK s g d (done s (g.setK d (g.x a))))
def execKmovXK (d : XReg) (a : KReg) (s : State) : Res :=
  withG s (fun g => needK s g a (done s (g.setX d (g.k a))))

/-- A mask operation on two registers, after the interlock of R74. -/
def maskOp (s : State) (d a b : KReg) (f : DWord → DWord → DWord) : Res :=
  withG s (fun g => needK s g d (needK s g a (needK s g b (done s (g.setK d (f (g.k a) (g.k b)))))))

def execKand (d a b : KReg) (s : State) : Res := maskOp s d a b (fun x y => x &&& y)
def execKor (d a b : KReg) (s : State) : Res := maskOp s d a b (fun x y => x ||| y)
def execKxor (d a b : KReg) (s : State) : Res := maskOp s d a b (fun x y => x ^^^ y)
def execKnot (d a : KReg) (s : State) : Res :=
  withG s (fun g => needK s g d (needK s g a (done s (g.setK d (~~~(g.k a))))))
def execKpopc (d : XReg) (a : KReg) (s : State) : Res :=
  withG s (fun g => needK s g a (done s (g.setX d (BitVec.ofNat 64 (popCount (g.k a).toNat 64)))))

/-! ### Special registers (R59, R60, R106, R107) -/

/-- The rbst register of a team (R373). -/
def rbstWord (t : Team) : DWord :=
  let r := t.rbst
  let (alt, doom) := match t.levels with
    | [] => (0, false)
    | l :: _ => (l.alt, l.doom)
  BitVec.ofNat 64 (t.levels.length + alt * 2 ^ 4 + (if doom then 2 ^ 8 else 0) + (if t.conv.isSome then 2 ^ 9 else 0)
    + r.cause * 2 ^ 12 + r.ftrap * 2 ^ 16 + r.fgid * 2 ^ 24 + r.outcome * 2 ^ 28 + r.lalt * 2 ^ 32
    + r.ldepth * 2 ^ 36 + r.nfail * 2 ^ 40)

/-- The tid register (R333). -/
def tidWord (t : Team) : DWord := BitVec.ofNat 64 (t.tid % 65536 + t.pos % 64 * 65536)

/-- The value of a special register (R59). -/
def State.special (s : State) (g : Group) (r : SReg) : DWord :=
  match r with
  | .gid => BitVec.ofNat 64 (g.gid % 16)
  | .tid => tidWord (s.teamOf g)
  | .gw => BitVec.ofNat 64 g.gw
  | .role => BitVec.ofNat 64 (g.role % 512)
  | .tsc => s.tsc
  | .cir => (s.ctxOf g).cir
  | .rbst => rbstWord (s.teamOf g)
  | .ofc => g.ofc
  | .chk => (s.ctxOf g).chk.zeroExtend 64
  | .tvb => (s.ctxOf g).tvb
  | .ctx => ctxImage (s.ctxId g) (s.ctxOf g)

/-- `ofc` and `cir` are read and written after every lane instruction enqueued before (R107). -/
def waitsLane (r : SReg) : Bool :=
  match r with
  | .ofc => true
  | .cir => true
  | _ => false

def execMfs (d : XReg) (r : SReg) (s : State) : Res :=
  withG s (fun g =>
    if waitsLane r && g.laneBusy then waitLane s g else done s (g.setX d (s.special g r)))

/-- Writes a field of the issuing group's context. -/
def State.setCtx (s : State) (g : Group) (f : Ctx → Ctx) : State := { s with ctxs := upd s.ctxs (s.ctxId g) f }

/-- The bits of cir that `mts` writes: POIS, PCNT and FCORE (R390). -/
def cirMask : DWord := 0x000000ffffff0000 ||| 1

/-- The bits of tvb that `mts` writes (R417). -/
def tvbMask : DWord := 0xfffffffffffff800

def execMts (a : XReg) (r : SReg) (s : State) : Res :=
  withG s (fun g =>
    match r with
    | .ofc => if g.laneBusy then waitLane s g else done s { g with ofc := g.x a }
    | .cir =>
      if !g.tclass then raise s 0x0d 0 0
      else if g.laneBusy then waitLane s g
      else done (s.setCtx g (fun c => { c with cir := g.x a &&& cirMask })) g
    | .tvb =>
      if !g.tclass then raise s 0x0d 0 0
      else done (s.setCtx g (fun c => { c with tvb := g.x a &&& tvbMask })) g
    | _ => raise s 0x01 0 0)

end Sys2Proof.Machine
end

