-- ==== Sys2Proof/Machine/ScalarMem.lean ====
section
/-! DEFINITION. Scalar loads and stores (R102 to R105), and the shared scratchpad accesses (R211, R222). -/

namespace Sys2Proof.Machine

open Sys2Proof

/-- A 9-bit immediate, scaled (R38). -/
def off9 (i : BitVec 9) (scale : Nat) : DWord := i.signExtend 64 * BitVec.ofNat 64 scale

/-- How the checks of a scratchpad access end. -/
inductive SChk where
  | ok (t off : Nat)
  | trap (num : BitVec 8)
  deriving DecidableEq, Repr

/-- The address fields and range of a scratchpad access (R211). -/
def State.spadRange (s : State) (g : Group) (a : DWord) (n : Nat) : Option (Nat × Nat) :=
  if a.toNat / 2 ^ 32 ≠ 0 then none
  else match s.spadAddr g a.toNat with
    | none => none
    | some (t, o) => if s.spadFits t o n then some (t, o) else none

/-- The checks of a scalar scratchpad access, in the order of R103: address and range, then alignment, then the
range locks. DEDUCED (log 14). -/
def State.chkSpad (s : State) (g : Group) (a : DWord) (n : Nat) (write : Bool) : SChk :=
  match s.spadRange g a n with
  | none => .trap 0x11
  | some (t, o) =>
    if a.toNat % n ≠ 0 then .trap 0x12
    else if s.lockedS (coreOf s.cur) (s.ctxId g) t o n write then .trap 0x13
    else .ok t o

/-- The checks of a scratchpad atomic, in the order of R277: alignment, then range, then the range locks. -/
def State.chkSpadAtom (s : State) (g : Group) (a : DWord) : SChk :=
  if a.toNat % 4 ≠ 0 then .trap 0x12 else s.chkSpad g a 4 true

/-- A scratchpad access of a group overlaps the word of its own atomic in flight, behind which it takes effect (R222). -/
def State.spadAtomHit (s : State) (g : Group) (t o n : Nat) : Bool :=
  g.infl.any (fun x => x.atoms.any (fun a => !(onGlobal a.sc) && (match s.spadAddr g a.addr.toNat with
    | some (u, p) => u = t && decide (p < o + n) && decide (o < p + 4)
    | none => false)))

/-- The path of an access to team `t`'s scratchpad by group `k` (R211). -/
def spadPath (k t : Nat) : Path := if teamCore t = coreOf k then .sp else .rsp

/-- Captures scratchpad words for a write of level `lv` of team `u` (R378). -/
def State.captureSpadAt (s : State) (u lv t : Nat) : List Nat → Option State
  | [] => some s
  | o :: r =>
    match find s.teams t with
    | none => some s
    | some tm =>
      match s.captureAt u lv (.spad t o (tm.spadWord o)) with
      | none => none
      | some s => s.captureSpadAt u lv t r

/-- Captures the scratchpad words of a write by a member of team `u` (R378). -/
def State.captureSpad (s : State) (u t : Nat) (l : List Nat) : Option State := s.captureSpadAt u (s.depth u) t l

/-- The word offsets that a byte range covers. -/
def wordsOver (o n : Nat) : List Nat :=
  (List.range ((o + n + 3) / 4 - o / 4)).map (fun i => 4 * (o / 4 + i))

/-- A checked scratchpad store of `n` bytes by a member of team `u`; `none` when Sepia cannot hold it. -/
def State.storeSpad (s : State) (u t o n v : Nat) : Option State :=
  match s.captureSpad u t (wordsOver o n) with
  | none => none
  | some s =>
    match find s.teams t with
    | none => some s
    | some tm => some (s.setTeam t (tm.setSpad o n v))

/-- A scratchpad load: value and poison. -/
def State.loadSpad (s : State) (t o n : Nat) : Nat × Bool :=
  match find s.teams t with
  | none => (0, false)
  | some tm => (tm.spadN o n, tm.spadPois o n)

/-- A capture that Sepia cannot hold fails the current alternate with cause 6; the write does not take place
(R377). A handler goes on past the instruction, to its `rti`, before the rollback. DEDUCED (log 139). -/
def overflow (s : State) (g : Group) : Res :=
  let s := s.failAlt g.seat (s.depth g.seat) 6 0 g.gid
  if g.tclass then done s g else .next s

/-- The data of a scalar load arrive: at once, or later where the group's loads return later (R55, R56, R217). -/
def finishLoad (s : State) (p : Path) (pois : Bool) (words : List Nat) (ws : List (XReg × DWord)) : Res :=
  let (q, s) := s.countAcc s.cur p
  withG s (fun g =>
    if g.late then
      done s { g with infl := g.infl ++ [{ lane := false, path := p, seq := q, pois := pois, words := words,
                                           writes := ws.map (fun e => .x e.1.toNat e.2) }] }
    else doneWith (s.consumeIf s.cur pois) (fun g => ws.foldl (fun g e => g.setX e.1 e.2) g))

/-- A 32-bit value sign-extended (R102). -/
def sx32 (v : Nat) : DWord := (BitVec.ofNat 32 v).signExtend 64
/-- A 64-bit value. -/
def id64 (v : Nat) : DWord := BitVec.ofNat 64 v

/-- A scalar global load of `n` bytes (R102 to R105). -/
def loadGlobal (s : State) (d a : XReg) (off : DWord) (n : Nat) (ext : Nat → DWord) : Res :=
  withG s (fun g =>
    let va := g.x a + off
    match s.chkGlobal s.cur g va n n false true with
    | .wait s => .next s
    | .trap s num i => raise s num va i
    | .ok s pa mt =>
      if s.parkedHit s.cur va n then block s g (memRow (coreOf s.cur))
      else
        let (s, v, p) := s.loadN s.cur pa n mt
        finishLoad s (pathOfPa pa) p [pa / 4] [(d, ext v)])

/-- A scalar scratchpad load of `n` bytes (R102, R103). -/
def loadScratch (s : State) (d a : XReg) (off : DWord) (n : Nat) (ext : Nat → DWord) : Res :=
  withG s (fun g =>
    let va := g.x a + off
    match s.chkSpad g va n false with
    | .trap num => raise s num va 0
    | .ok t o =>
      if s.spadAtomHit g t o n then block s g (memRow (coreOf s.cur))
      else
        let (v, p) := s.loadSpad t o n
        finishLoad s (spadPath s.cur t) p [] [(d, ext v)])

/-- A scalar global store of `n` bytes (R102 to R105); it parks on a replayable fault (R210). -/
def storeGlobal (s : State) (d a : XReg) (off : DWord) (n : Nat) : Res :=
  withG s (fun g =>
    let va := g.x a + off
    let v := (g.x d).toNat % 2 ^ (8 * n)
    let parks (s : State) (why : ParkWhy) (path : Path) : Res :=
      if s.replayFull (coreOf s.cur) then block s g (memRow (coreOf s.cur))
      else
        let (q, s) := s.countAcc s.cur path
        doneWith (s.park s.cur why va n v path q { pc := g.pc }) (fun g => g)
    match s.chkGlobal s.cur g va n n true true with
    | .wait s => parks s .fault .gl
    | .trap s num i => raise s num va i
    | .ok s pa mt =>
      if s.pageParked (coreOf s.cur) (s.ctxId g) va then
        parks s (s.behindWhy (coreOf s.cur) (s.ctxId g) (va.toNat / 4096)) (pathOfPa pa)
      else if s.atomHit s.cur va n then block s g (memRow (coreOf s.cur))
      else
        let (q, s) := s.countAcc s.cur (pathOfPa pa)
        match s.storeN s.cur va pa n v q mt { pc := g.pc } with
        | none => overflow s g
        | some s => doneWith s (fun g => g))

/-- A scalar scratchpad store of `n` bytes (R102, R103). -/
def storeScratch (s : State) (d a : XReg) (off : DWord) (n : Nat) : Res :=
  withG s (fun g =>
    let va := g.x a + off
    match s.chkSpad g va n true with
    | .trap num => raise s num va 256
    | .ok t o =>
      if s.spadAtomHit g t o n then block s g (memRow (coreOf s.cur))
      else
        match s.storeSpad g.seat t o n ((g.x d).toNat % 2 ^ (8 * n)) with
        | none => overflow s g
        | some s => doneWith (s.countAcc s.cur (spadPath s.cur t)).2 (fun g => g))

def execLdx (d a : XReg) (_ : BitVec 4) (i : BitVec 9) (s : State) : Res := loadGlobal s d a (off9 i 8) 8 id64
def execLdxI32 (d a : XReg) (_ : BitVec 4) (i : BitVec 9) (s : State) : Res := loadGlobal s d a (off9 i 4) 4 sx32
def execLdxs (d a : XReg) (_ : BitVec 4) (i : BitVec 9) (s : State) : Res := loadScratch s d a (off9 i 8) 8 id64
def execLdxsI32 (d a : XReg) (_ : BitVec 4) (i : BitVec 9) (s : State) : Res := loadScratch s d a (off9 i 4) 4 sx32
def execStx (d a : XReg) (i : BitVec 9) (s : State) : Res := storeGlobal s d a (off9 i 8) 8
def execStxB32 (d a : XReg) (i : BitVec 9) (s : State) : Res := storeGlobal s d a (off9 i 4) 4
def execStxs (d a : XReg) (i : BitVec 9) (s : State) : Res := storeScratch s d a (off9 i 8) 8
def execStxsB32 (d a : XReg) (i : BitVec 9) (s : State) : Res := storeScratch s d a (off9 i 4) 4

end Sys2Proof.Machine
end

