-- ==== Sys2Proof/Machine/Order.lean ====
section
/-! DEFINITION. Releases, acquires, fences, atomics, near-memory bank operations and `await`
(R240 to R276), with the vectors they carry (R285). -/

namespace Sys2Proof.Machine

open Sys2Proof

/-- The code of a scope (R240). -/
def scopeNum : Scope → Nat
  | .grp => 0 | .team => 1 | .clus => 2 | .dev => 3 | .sys => 4 | .pool => 5

/-- The cluster vector of a launch on a die (R281). -/
def State.cvec (s : State) (l die : Nat) : VVec :=
  match s.cvecs.find? (fun e => e.1 = (l, die)) with
  | some e => e.2
  | none => {}

/-- Writes a cluster vector. -/
def State.setCvec (s : State) (l die : Nat) (v : VVec) : State :=
  { s with cvecs := ((l, die), v) :: s.cvecs.filter (fun e => e.1 ≠ (l, die)) }

/-- A release folds the group's vector into the team vector, and at clus scope or wider into the cluster
vector (R285). -/
def State.publishVec (s : State) (k : Nat) (sc : Nat) : State :=
  match find s.groups k with
  | none => s
  | some g =>
    match find s.teams g.seat with
    | none => s
    | some tm =>
      let s := if 1 ≤ sc then s.setTeam g.seat { tm with vec := vvMerge tm.vec g.vv } else s
      if 2 ≤ sc then
        s.setCvec tm.launch (coreOf k / 64) (vvMerge (s.cvec tm.launch (coreOf k / 64)) g.vv)
      else s

/-- Merges a vector into a group's. -/
def State.mergeVec (s : State) (k : Nat) (v : VVec) : State :=
  { s with groups := upd s.groups k (fun g => { g with vv := vvMerge g.vv v }) }

/-- An acquire merges the team vector, and at clus scope or wider the cluster vector (R285). -/
def State.acquireVec (s : State) (k : Nat) (sc : Nat) : State :=
  match find s.groups k with
  | none => s
  | some g =>
    match find s.teams g.seat with
    | none => s
    | some tm =>
      let s := if 1 ≤ sc then s.mergeVec k tm.vec else s
      if 2 ≤ sc then s.mergeVec k (s.cvec tm.launch (coreOf k / 64)) else s

/-- An acquire at a scope: the invalidation of R244 and the merges of R285. -/
def State.acquire (s : State) (k : Nat) (sc : Nat) : State :=
  let s := if 2 ≤ sc then s.dropStale (coreOf k) else s
  s.acquireVec k sc

/-- Acknowledgements that a scope waits for (R242). -/
def ackNeeded (sc : Nat) (a : AckReq) : Bool :=
  a.unc || (4 ≤ sc && isHost (4 * a.w)) || (5 ≤ sc && (poolOf (4 * a.w)).isSome)

/-- Dirty words of the group that a scope writes back: host words at clus scope or wider, pool words at pool
scope (R242). -/
def backNeeded (sc k : Nat) (e : Nat × L1Word) : Bool :=
  e.2.grp = k && e.2.mask ≠ 0 && e.2.reg && e.2.hid.isNone
    && ((2 ≤ sc && isHost (4 * e.1)) || (5 ≤ sc && (poolOf (4 * e.1)).isSome))

/-- Writes back what a scope needs written; the acknowledgements are expected (R242). -/
def State.pushOut (s : State) (k sc : Nat) : State :=
  ((s.core (coreOf k)).l1.filter (backNeeded sc k)).foldl (fun s e => s.writeBack (coreOf k) e.1) s

/-- An operand queue has no fetch to come before a pop makes room for one: it is full, exhausted or stopped, and no fetch of it
is outstanding (R231, R233, R236). -/
def OpQueue.settled (q : OpQueue) : Bool :=
  q.wait.isNone && q.left.isEmpty && (q.st ≠ .running || decide (8 ≤ q.entries.length))

/-- Every access of the group is performed with respect to a scope (R242, R247, R248): its loads complete, its stores
at their points, none parked, its chains ended, its pattern fetches made as far as their queues hold them. DEDUCED (log 138). -/
def State.performed (s : State) (k : Nat) (g : Group) (sc : Nat) : Bool :=
  g.infl.isEmpty
    && s.regQ.all (fun q => q.grp ≠ k || (decide (sc < 2) && q.words.all (fun w => !(s.homeless q w))))
    && (s.core (coreOf k)).replay.all (fun p => p.grp ≠ k)
    && s.acks.all (fun a => !(a.grp = k && ackNeeded sc a))
    && sget 0 g.cnt 4 = 0
    && g.opq.all (fun q => q.2.settled)

/-- The lost pool region of a store of group `k` that a pool-scope release awaits (R446). DEDUCED (log 86). -/
def State.lostAck (s : State) (k sc : Nat) : Option Nat :=
  if sc < 5 then none
  else (s.acks.filterMap (fun a => if a.grp = k then poolOf (4 * a.w) else none)).find? (fun r => decide ((s.region r).st ≠ RgSt.up))

/-- ADDR of a pool-region fault of a release: the manual names no one address, so it is a free value. -/
def State.freeAddr (s : State) : DWord × State :=
  let (n, s) := s.takeFree
  let (m, s) := s.takeFree
  (Config.freeWord n ++ Config.freeWord m, s)

/-- Waits until a release at a scope may make its own store (R248): the lane stream's work, then every access performed. A
lost pool region that it awaits raises the pool-region fault (R446). DEDUCED (log 17). -/
def awaitRelease (s : State) (g : Group) (sc : Nat) (f : State → Res) : Res :=
  if g.laneBusy then waitLane s g
  else
    let s := s.pushOut s.cur sc
    match s.lostAck s.cur sc with
    | some r => raise s.freeAddr.2 0x14 s.freeAddr.1 (BitVec.ofNat 64 (r * 65536))
    | none => if s.performed s.cur g sc then f s else .next s

/-- Completes a release without a store at a scope (R248): every access performed, then the vectors are published. -/
def withRelease (s : State) (g : Group) (sc : Nat) (f : State → Res) : Res :=
  awaitRelease s g sc (fun s => f (s.publishVec s.cur sc))

/-- R270. -/
def execFence (sc : Scope) (s : State) : Res :=
  withG s (fun g => withRelease s g (scopeNum sc) (fun s =>
    doneWith (s.acquire s.cur (scopeNum sc)) (fun g => g)))

/-! ### Acquire and release (R249, R271) -/

/-- Merges the vector records attached to the values of a cell that a load has found (R285). -/
def State.mergeRecords (s : State) (k w : Nat) (l : List (Dot × Option HidTag)) : State :=
  if s.isCell (4 * w) then
    (s.cellRec w).vrec.foldl (fun s v => if l.contains (v.dot, v.hid) then s.mergeVec k v.vec else s) s
  else s

/-- What one word of an acquire reads: value, poison and the values found. -/
structure AcqWord where
  val   : Word
  pois  : Bool := false
  found : List (Dot × Option HidTag) := []

/-- One word of an acquire by group `k`: past stale copies at clus scope or wider (R244); uncached from an uncached host
page (R207). -/
def State.acqWord (s : State) (k w sc : Nat) (mt : Bool) : State × AcqWord :=
  if mt then (s, { val := s.word w, pois := s.poisoned w })
  else
    let past := decide (2 ≤ sc)
    let (t, v, p) := if past then s.loadHome (coreOf k) w (s.groupConv k) else s.loadWord (coreOf k) w (s.groupConv k)
    (t, { val := v, pois := p, found := s.found (coreOf k) w (s.groupConv k) past })

/-- Any memory that translates. -/
def anyMem (_ : Nat) : Bool := true

/-- R271. DEDUCED (log 23). -/
def execAcq (sc : Scope) (d a : XReg) (_ : BitVec 4) (s : State) : Res :=
  withG s (fun g =>
    let va := g.x a
    match s.chkOrdered s.cur g va 8 false anyMem with
    | .wait s => .next s
    | .trap s num i => raise s num va i
    | .ok s pa mt =>
      if s.parkedHit s.cur va 8 then block s g (memRow (coreOf s.cur))
      else
        let n := scopeNum sc
        let (s, lo) := s.acqWord s.cur (pa / 4) n mt
        let (s, hi) := s.acqWord s.cur (pa / 4 + 1) n mt
        let s := (s.mergeRecords s.cur (pa / 4) lo.found).mergeRecords s.cur (pa / 4 + 1) hi.found
        let s := ((s.acquire s.cur n).countAcc s.cur (pathOfPa pa)).2
        doneWith (s.consumeIf s.cur (lo.pois || hi.pois)) (fun g => g.setX d (hi.val ++ lo.val)))

/-- The value that a store writes to word `w`. -/
def StoreReq.valAt (q : StoreReq) (w : Nat) : Word :=
  match q.pair with
  | some (w2, v2) => if w = w2 then v2 else q.val
  | none => q.val

/-- A release store is tested at its home in its own step; the word of a cell that cannot hold it is answered (R271).
DEDUCED (log 26). -/
def State.relStore (s : State) (q : StoreReq) : Except Nat State :=
  ((q.words.foldl (fun s w => s.bringHome q.core w) s).tryWords (s.reqConv q) q).map (fun s =>
    let s := q.words.foldl (fun s w => (s.expectAck q.grp w (q.maskOn w)).keepHidden w { q with val := q.valAt w }) s
    s.fires q)

/-- The store of a release whose accesses are performed (R271): at its home, or uncached to the host (R207). -/
inductive RelOut where
  | ok (s : State)
  /-- Sepia cannot hold the capture (R377). -/
  | lost
  /-- The cell at an address cannot hold it (R292). -/
  | full (va : DWord)

/-- Makes the store of a release of group `k`. -/
def State.relAct (s : State) (k : Nat) (g : Group) (va : DWord) (pa : Nat) (mt : Bool) (v : DWord) : RelOut :=
  let hid := s.hidTag g.seat (pa / 4)
  match s.captureLine g.seat (pa / 4) hid.isSome with
  | none => .lost
  | some s =>
    let s := (s.noteWrote g.seat (pa / 4)).noteWrote g.seat (pa / 4 + 1)
    let q := { s.reqOf k g va pa with
      val := v.truncate 32, hid := hid, rel := true, pair := some (pa / 4 + 1, (v >>> 32).truncate 32) }
    if mt then
      .ok ((s.stampDot k q.dot).storeRaw k pa 8 v.toNat false)
    else match s.relStore q with
      | .error w => .full (q.cellVa w)
      | .ok s => .ok (s.stampDot k q.dot)

/-- Every acknowledgement that a scope waits for has come (R242, R248). -/
def State.acked (s : State) (k sc : Nat) : Bool := s.acks.all (fun a => !(a.grp = k && ackNeeded sc a))

/-- A release whose store is at its home completes when the store is performed at its scope (R248), else it waits. -/
def State.endRelease (s : State) (k sc : Nat) : Res :=
  match s.lostAck k sc with
  | some r =>
    raise ({ s with groups := upd s.groups k (fun g => { g with relW := false }) } : State).freeAddr.2 0x14 s.freeAddr.1
      (BitVec.ofNat 64 (r * 65536))
  | none =>
    if s.acked k sc then doneWith (s.publishVec k sc) (fun g => { g with relW := false })
    else .next { s with groups := upd s.groups k (fun g => { g with relW := true }) }

/-- R271. -/
def execRel (sc : Scope) (d a : XReg) (s : State) : Res :=
  withG s (fun g =>
    let va := g.x a
    if g.relW then s.endRelease s.cur (scopeNum sc)
    else
      match s.chkOrdered s.cur g va 8 true anyMem with
      | .wait s => .next s
      | .trap s num i => raise s num va i
      | .ok s pa mt => awaitRelease s g (scopeNum sc) (fun s =>
          match s.relAct s.cur g va pa mt (g.x d) with
          | .lost => overflow s g
          | .full a => raise s 0x15 a 256
          | .ok s => (s.countAcc s.cur (pathOfPa pa)).2.endRelease s.cur (scopeNum sc)))

/-! ### Atomics (R264 to R268, R273) -/

/-- An atomic on a scratchpad word (R264): performed by the bank adder. -/
def State.atomSpad (s : State) (u t o : Nat) (op : AtomOp) (ty : Ty) (b cmp : Word) : Option (State × Word) :=
  match find s.teams t with
  | none => some (s, 0)
  | some tm =>
    let old := tm.spadWord o
    let new := atomNew op ty old b cmp
    if new = old then some (s, old)
    else match s.storeSpad u t o 4 new.toNat with
      | none => none
      | some s => some (s, old)

/-- Whether a scope permits the memory of an address for an operation (R264). -/
def scopePermits (sc : Scope) (op : AtomOp) (pa : Nat) : Bool :=
  match sc with
  | .clus => isDevMem pa
  | .dev => isDevMem pa
  | .sys => isDevMem pa || (isHost pa && (op = .add || op = .xchg || op = .cas))
  | .pool => isDevMem pa || (poolOf pa).isSome || (isHost pa && (op = .add || op = .xchg || op = .cas))
  | _ => false

/-- The type a scalar atomic acts as (R267). -/
def amoTy : AtomOp → Ty
  | .add => .i32 | .min => .i32 | .max => .i32
  | .minn => .n32 | .maxn => .n32
  | _ => .b32

/-- The old value of a scalar atomic as it is written to xd (R273). -/
def amoOld (op : AtomOp) (v : Word) : DWord :=
  match op with
  | .minn => v.zeroExtend 64
  | .maxn => v.zeroExtend 64
  | .and => v.zeroExtend 64
  | .or => v.zeroExtend 64
  | .xor => v.zeroExtend 64
  | _ => v.signExtend 64

/-- The results of a scalar atomic; with x0 both are discarded (R273). -/
def Group.setAmo (g : Group) (d : XReg) (v : DWord) (cnt : Nat) : Group :=
  if d = 0 then g else (g.setX d v).setX (d + 1) (BitVec.ofNat 64 cnt)

/-- The atomic's operation is left to its place of performance (R265): the access stays in flight. -/
def issueAtom (s : State) (g : Group) (p : Path) (ws : List Nat) (r : AtomReq) : Res :=
  let (q, s) := s.countAcc s.cur p
  doneWith s (fun g' => { g' with
    infl := g.infl ++ [{ lane := false, path := p, seq := q, words := ws, atoms := [r] }] })

/-- R273. -/
def execAmo (op : AtomOp) (sc : Scope) (d a b : XReg) (s : State) : Res :=
  withG s (fun g =>
    let va := g.x a
    let bv : Word := (g.x b).truncate 32
    let cmp : Word := (g.x d).truncate 32
    let req : AtomReq := { op := op, ty := amoTy op, sc := sc, addr := va, b := bv, cmp := cmp, xd := some d.toNat }
    if scopeNum sc < 2 then
      match s.chkSpadAtom g va with
      | .trap num => raise s num va 256
      | .ok t o =>
        if s.spadAtomHit g t o 4 then block s g (memRow (coreOf s.cur))
        else if g.late then issueAtom s g (spadPath s.cur t) [] req
        else
          match s.atomSpad g.seat t o op (amoTy op) bv cmp with
          | none => overflow s g
          | some (s, old) =>
            doneWith (s.countAcc s.cur (spadPath s.cur t)).2 (fun g => g.setAmo d (amoOld op old) 0)
    else
      match s.chkOrdered s.cur g va 4 true (scopePermits sc op) with
      | .wait s => .next s
      | .trap s num i => raise s num va i
      | .ok s pa _ =>
        if s.parkedHit s.cur va 4 then block s g (memRow (coreOf s.cur))
        else if g.late || isClus req then issueAtom s g (pathOfPa pa) [pa / 4] req
        else
          match s.atomGlobal s.cur va (pa / 4) op (amoTy op) bv cmp with
          | none => overflow s g
          | some (s, old, cnt) =>
            doneWith (s.countAcc s.cur (pathOfPa pa)).2 (fun g => g.setAmo d (amoOld op old) cnt))

/-! ### Near-memory bank operations (R275) -/

/-- How the page checks of a near-memory range end (R275): its physical word indices, or the address that fails. -/
inductive NearRes where
  | ok (s : State) (ws : List Nat)
  | wait (s : State)
  | bad (s : State) (addr : DWord)

/-- Translates every page of a near-memory range (R275). -/
def State.nearWords (s : State) (k : Nat) (g : Group) (write : Bool) (va : DWord) : Nat → List Nat → NearRes
  | 0, acc => .ok s acc.reverse
  | n + 1, acc =>
    match s.translate (coreOf k) (s.ctxId g) va (if write then .write else .read) g.tclass with
    | .wait s => .wait s
    | .fault s => .bad s va
    | .ok s pa _ => if kindOf pa = PKind.near then s.nearWords k g write (va + 4) n (pa / 4 :: acc) else .bad s va

/-- Groups whose engine work holds ranges of a core's table (R255). -/
def State.lockOwners (s : State) (c : Nat) : List Nat :=
  (s.core c).locks.flatMap (fun l =>
    match l.owner with
    | .queue g _ => [g]
    | .bank g => [g]
    | .chan ch => (s.members (s.chan c ch).team).map (·.1)
    | .next ch => (s.members (s.chan c ch).team).map (·.1)
    | .watch h =>
      match find (s.slice (h / 64)).watches (h % 64) with
      | some w => (s.members w.team).map (·.1)
      | none => [])

/-- The row of a group that waits for range-lock entries or operand-queue slots (R350): the groups of the core's engines,
and those of its pipe that hold slots. -/
def State.engineRow (s : State) (g : Group) : WaitRow :=
  let c := coreOf s.cur
  let holders := (s.groups.filter (fun e => coreOf e.1 = c && e.2.pipe = g.pipe && e.2.opq.any (fun x => decide (0 < x.2.slots)))).map (·.1)
  waitRow c 9 false false 0 (s.lockOwners c ++ holders)

/-- No earlier scalar access of the group stands before an engine command (R247): none is on its way or parked, and no atomic
is in flight. -/
def State.engineClear (s : State) (k : Nat) (g : Group) : Bool := (s.ahead k g).isEmpty

/-- What `bop` and `bred` share (R275): the checks, the registration of the range, and the run that stands. -/
def withBank (s : State) (a b : XReg) (write : Bool) (act : Option (BankOp × Word)) (f : State → Group → BankRun → Res) : Res :=
  withG s (fun g =>
    match g.bank with
    | some r => f s g r
    | none =>
      let va := g.x a
      let n := (g.x b).toNat
      if va.toNat % 4 ≠ 0 || n % 4 ≠ 0 then raise s 0x12 va (wInfo write)
      else if 16777216 < n then raise s 0x10 va (wInfo write)
      else
        match s.nearWords s.cur g write va (n / 4) [] with
        | .wait s => .next s
        | .bad s a => raise s 0x10 a (wInfo write)
        | .ok s ws =>
          if !(s.engineClear s.cur g) then block s g (memRow (coreOf s.cur))
          else
            let l : RangeLock := { sp := false, ctx := s.ctxId g, lo := va.toNat, hi := va.toNat + n, write := write
                                   owner := .bank s.cur }
            match s.tryLock (coreOf s.cur) [l] with
            | none => block s g (s.engineRow g)
            | some s => f s g { words := ws, va := va, dot := newDot s g, vec := storeVec g.vv (newDot s g), act := act })

/-- Words that a bank operation acts on in one step: every one, or one where the group's accesses take their time, so that
other cores' accesses fall between them. -/
def bankWords (g : Group) (r : BankRun) : Nat := if g.late then 1 else r.words.length

/-- A bank operation ends: its range is released (R275). -/
def bankDone (s : State) (f : Group → Group) : Res :=
  doneWith (s.unlock (coreOf s.cur) (.bank s.cur)) (fun g => { f g with bank := none })

/-- R275. -/
def execBop (op : BankOp) (d a b : XReg) (s : State) : Res :=
  withBank s a b true (s.grp.map (fun g => (op, (g.x d).truncate 32))) (fun s g r =>
    match s.bopRun s.cur op ((g.x d).truncate 32) (bankWords g r) r with
    | none => overflow ((s.setGrp { g with bank := none }).unlock (coreOf s.cur) (.bank s.cur)) { g with bank := none }
    | some (s, r) =>
      if r.words.isEmpty then bankDone s (fun g => if d = 0 then g else g.setX (d + 1) (BitVec.ofNat 64 r.cnt))
      else .next { s with groups := upd s.groups s.cur (fun g => { g with bank := some r }) })

/-- `bred` on the next `n` words: first values and the number of sibling sets. -/
def State.bredRun (s : State) (k : Nat) : Nat → BankRun → State × BankRun
  | 0, r => (s, r)
  | n + 1, r =>
    match r.words with
    | [] => (s, r)
    | w :: l =>
      let s := s.bringHome (coreOf k) w
      let view := s.view w (s.groupConv k)
      s.bredRun k n { r with words := l, va := r.va + 4, cnt := if viewCnt view ≠ 0 then r.cnt + 1 else r.cnt
                             vals := r.vals ++ [viewVal view], pois := r.pois || viewPois view }

/-- R275. -/
def execBred (op : BankOp) (d a b : XReg) (s : State) : Res :=
  withBank s a b false none (fun s g r =>
    let (s, r) := s.bredRun s.cur (bankWords g r) r
    if r.words.isEmpty then
      bankDone (s.consumeIf s.cur r.pois) (fun g =>
        if d = 0 then g else (g.setX d (bankReduce op r.vals)).setX (d + 1) (BitVec.ofNat 64 r.cnt))
    else .next { s with groups := upd s.groups s.cur (fun g => { g with bank := some r }) })

/-! ### await (R276) -/

/-- The comparison of `await` (R276). -/
def awaitHolds (cc : AwaitCond) (w b : Word) : Bool :=
  match cc with
  | .eq => w == b
  | .ne => w != b
  | .lt => w.slt b
  | .ge => !(w.slt b)
  | .ltn => w.ult b
  | .gen => !(w.ult b)

/-- The value of `await` in xd (R276). -/
def awaitVal (cc : AwaitCond) (w : Word) : DWord :=
  match cc with
  | .ltn => w.zeroExtend 64
  | .gen => w.zeroExtend 64
  | _ => w.signExtend 64

/-- R276. -/
def execAwait (cc : AwaitCond) (acq : Bool) (d a b : XReg) (s : State) : Res :=
  withG s (fun g =>
    let va := g.x a
    match s.chkOrdered s.cur g va 4 false anyMem with
    | .wait s => .next s
    | .trap s num i => raise s num va i
    | .ok s pa mt =>
      if s.parkedHit s.cur va 4 then block s g (memRow (coreOf s.cur))
      else
        let (s, x) := s.acqWord s.cur (pa / 4) 3 mt
        if awaitHolds cc x.val ((g.x b).truncate 32) then
          let s := if acq then (s.mergeRecords s.cur (pa / 4) x.found).acquire s.cur 3 else s
          doneWith (s.consumeIf s.cur x.pois) (fun g => { g.setX d (awaitVal cc x.val) with awt := none })
        else
          block s { g with awt := some { cc := cc, acq := acq, d := d.toNat, addr := va, rhs := (g.x b).truncate 32 } }
            (waitRow (coreOf s.cur) 12 true false 0 []))

end Sys2Proof.Machine
end

