-- ==== Sys2Proof/Machine/CellInstr.lean ====
section
/-! DEFINITION. The scalar instructions on versioned cells and vectors (R296 to R304), and the L1 operations
`clean` and `inval` (R238). -/

namespace Sys2Proof.Machine

open Sys2Proof

/-- Writes a result and its companion register; with x0 the companion still receives its value. -/
def Group.setPair (g : Group) (d : XReg) (a b : DWord) : Group := (g.setX d a).setX (d + 1) b

/-- Before a slice answers a cell instruction, dirty copies are written back (R296). -/
def State.settleWord (s : State) (c w : Nat) : State := (s.flushReqs c w).writeBackAll w none

/-- A load of a cell at its home (R296): the view found there. -/
def withCell (s : State) (va : DWord) (f : State → Group → Nat → List CellVal → Bool → Res) : Res :=
  withG s (fun g =>
    match s.chkOrdered s.cur g va 4 false anyMem with
    | .wait s => .next s
    | .trap s num i => raise s num va i
    | .ok s pa _ =>
      if s.parkedHit s.cur va 4 then block s g (memRow (coreOf s.cur))
      else
        let s := s.settleWord (coreOf s.cur) (pa / 4)
        let v := s.homeView (pa / 4) (s.groupConv s.cur)
        f s g pa v (viewPois v))

/-- CNT that an instruction reports: 0 on memory that is not a cell (R297, R298). -/
def State.cntOf (s : State) (pa : Nat) (v : List CellVal) : Nat := if s.isCell pa then viewCnt v else 0

/-- The status word that an instruction reports (R297). -/
def State.statusOf (s : State) (pa : Nat) (v : List CellVal) : DWord :=
  if s.isCell pa then statusWord (s.cellRec (pa / 4)) v else 0

/-- R298. -/
def execLdc (d a : XReg) (_ : BitVec 4) (i : BitVec 9) (s : State) : Res :=
  withG s (fun g =>
    withCell s (g.x a + off9 i 4) (fun s _ pa v p =>
      finishLoad s (pathOfPa pa) p [pa / 4]
        [(d, (viewVal v).signExtend 64), (d + 1, BitVec.ofNat 64 (s.cntOf pa v))]))

/-- Sibling `k` of a view, or the single value for `k` = 0 (R300). -/
def sibling (v : List CellVal) (k : Nat) : DWord :=
  match v[k]? with
  | some c => c.val.signExtend 64
  | none => 0

/-- R300. -/
def execLdsib (d a : XReg) (_ : BitVec 4) (k : BitVec 2) (s : State) : Res :=
  withG s (fun g =>
    withCell s (g.x a) (fun s _ pa v p =>
      finishLoad s (pathOfPa pa) p [pa / 4] [(d, sibling v k.toNat), (d + 1, s.statusOf pa v)]))

/-- The checks of `rcn` and `rcnw`, which are thread stores on cells (R296, R306). They are no loads, so a parked
store of the group does not hold them (R210). DEDUCED (log 100). -/
def withRcn (s : State) (va : DWord) (f : State → Group → Nat → List CellVal → Res) : Res :=
  withG s (fun g =>
    match s.chkOrdered s.cur g va 4 true s.isCell with
    | .wait s => .next s
    | .trap s num i => raise s num va i
    | .ok s pa _ =>
      if s.atomHit s.cur va 4 then block s g (memRow (coreOf s.cur))
      else
        let s := s.bringHome (coreOf s.cur) (pa / 4)
        f s g pa (s.view (pa / 4) (s.groupConv s.cur)))

/-- How a collapse at the home ends. -/
inductive Collapse where
  | ok (s : State)
  /-- Its write could not be held (R296). -/
  | refused
  /-- Sepia cannot hold the capture (R377). -/
  | lost

/-- Collapses the siblings of a group's view into one value, which takes the place of them all (R288, R301): dot (own serial,
now), prior the base; the group's vector merges every sibling's dot. -/
def State.collapse (s : State) (k : Nat) (g : Group) (va : DWord) (w : Nat) (v : List CellVal) (r : Word) : Collapse :=
  let hid := s.hidTag g.seat w
  match s.captureLine g.seat w hid.isSome with
  | none => .lost
  | some s =>
    let d := newDot s g
    let q := { s.reqOf k g va (4 * w) with val := r, hid := hid, dot := d }
    match (s.writeBackAll w none).applyCollapse w (s.reqConv q) { val := r, dot := d, hid := hid } with
    | none => .refused
    | some s =>
      let s := (((s.expectAck k w 0xf).fires q).keepHidden w q).stampDot k d
      .ok { s with groups := upd s.groups k (fun g => { g with vv := v.foldl (fun m c => mergeDot m c.dot) g.vv }) }

/-- The result of `rcn` (R301). -/
def rcnVal (op : RcnOp) (base : Word) (v : List Word) : Word :=
  match op with
  | .add => v.foldl (fun a x => a + (x - base)) base
  | .min => v.foldl (fun a x => if x.slt a then x else a) (v.headD 0)
  | .max => v.foldl (fun a x => if a.slt x then x else a) (v.headD 0)
  | .or => v.foldl (fun a x => a ||| x) 0
  | .and => v.foldl (fun a x => a &&& x) (BitVec.allOnes 32)
  | .first => v.headD 0
  | .last => v.getLastD 0

/-- R301. Its read of a poisoned cell records no consumption (R391), and a value that siblings collapse into is not poisoned.
DESIGN CHOICE (log 171). -/
def execRcn (op : RcnOp) (d a : XReg) (s : State) : Res :=
  withG s (fun g =>
    let va := g.x a
    withRcn s va (fun s g pa v =>
      let st := s.statusOf pa v
      let rec0 := s.cellRec (pa / 4)
      let s := (s.countAcc s.cur (pathOfPa pa)).2
      let keep : Res := doneWith s (fun g => g.setPair d ((viewVal v).signExtend 64) st)
      if viewCnt v = 0 || (op = .add && rec0.base.isNone) then keep
      else
        let r := rcnVal op (rec0.base.getD 0) (v.map (·.val))
        match s.collapse s.cur g va (pa / 4) v r with
        | .lost => overflow s g
        | .refused => keep
        | .ok s => doneWith s (fun g => g.setPair d (r.signExtend 64) st)))

/-- R302. It records no consumption of poison, as `execRcn`. DESIGN CHOICE (log 171). -/
def execRcnw (d a b : XReg) (s : State) : Res :=
  withG s (fun g =>
    let va := g.x a
    let want := g.x d
    let r : Word := (g.x b).truncate 32
    withRcn s va (fun s g pa v =>
      let rec0 := s.cellRec (pa / 4)
      let s := (s.countAcc s.cur (pathOfPa pa)).2
      let fail : Res := doneWith s (fun g => g.setX d 0)
      if 2 ≤ viewCnt v && viewCnt v = (want >>> 32).toNat % 8 && rec0.gen.toNat = (want >>> 40).toNat then
        match s.collapse s.cur g va (pa / 4) v r with
        | .lost => overflow s g
        | .refused => fail
        | .ok s => doneWith s (fun g => g.setX d 1)
      else fail))

/-- The value of `vvrd` (R303). -/
def vvrdVal (s : State) (g : Group) (i : Nat) : DWord :=
  if i < 8 then (match (vecEntries g.vv)[i]? with | some d => dotBits d | none => 0)
  else if i = 8 then dotBits { time := g.vv.floor }
  else if i = 9 then dotBits (newDot s g)
  else 0

/-- R303. -/
def execVvrd (d a : XReg) (s : State) : Res := alu s d (fun g => vvrdVal s g ((g.x a).toNat % 16))

/-- Whether a dot is older than 2^37 units (R280, R304). -/
def tooOld (now t : BitVec 40) : Bool := timeLe t now && decide (2 ^ 37 < (now - t).toNat)

/-- How a read of several 64-bit words ends. -/
inductive RdRes where
  | ok (s : State) (l : List DWord) (pois : Bool)
  | wait (s : State)
  | trap (s : State) (num : BitVec 8) (va info : DWord)

/-- Reads consecutive 64-bit words at physical places. -/
def State.readAt (s : State) (k : Nat) : List (Nat × Bool) → List DWord → Bool → RdRes
  | [], acc, p => .ok s acc.reverse p
  | (pa, mt) :: r, acc, p =>
    let (s, v, q) := s.loadN k pa 8 mt
    s.readAt k r (BitVec.ofNat 64 v :: acc) (p || q)

/-- How the check of one word of a longer access ended: its address, the place, or the trap, with no trap for a page that
waits. -/
structure SpanChk where
  va   : DWord
  home : Option (Nat × Bool) := none
  trap : Option (BitVec 8 × DWord) := none
  deriving DecidableEq, Repr, Inhabited

/-- The place of a failed check among the rows (R103, R306): the memory fault, a page that waits, the pool region, the range
locks. -/
def SpanChk.rank (x : SpanChk) : Nat :=
  match x.trap, x.home with
  | some (n, _), _ => if n = 0x10 then 0 else if n = 0x13 then 3 else 2
  | none, none => 1
  | none, some _ => 4

/-- The page checks of every word of a load. -/
def State.chkSpan (s : State) (k : Nat) (g : Group) : List DWord → State × List SpanChk
  | [] => (s, [])
  | va :: r =>
    match s.chkPage k g va 8 false true anyMem with
    | .ok s pa mt => let (s, l) := s.chkSpan k g r; (s, { va := va, home := some (pa, mt) } :: l)
    | .wait s => let (s, l) := s.chkSpan k g r; (s, { va := va } :: l)
    | .trap s num i => let (s, l) := s.chkSpan k g r; (s, { va := va, trap := some (num, i) } :: l)

/-- The check that ends first, the first of its rank. -/
def firstChk (l : List SpanChk) : Option SpanChk :=
  l.foldl (fun o x =>
    match o with
    | none => some x
    | some y => if x.rank < y.rank then some x else some y) none

/-- Reads `n` consecutive 64-bit words at an address aligned to `al`, with the checks of one load over all of them, in the order
of R103, or of R306 with `rows`. -/
def State.readDw (s : State) (k : Nat) (g : Group) (va : DWord) (al : Nat) (rows : Bool) (n : Nat) : RdRes :=
  let vas := (List.range n).map (fun i => va + BitVec.ofNat 64 (8 * i))
  let odd : Option RdRes := if va.toNat % al ≠ 0 then some (.trap s 0x12 va 0) else none
  let far : Option RdRes := (vas.find? (fun a => !(canonical a))).map (fun a => .trap s 0x10 a 0)
  match (if rows then odd.or far else far.or odd) with
  | some r => r
  | none =>
    let (s, l) := s.chkSpan k g vas
    match (firstChk l).filter (fun x => decide (x.rank < 4)) with
    | some x =>
      match x.trap with
      | some (num, i) => .trap s num x.va i
      | none => .wait s
    | none => s.readAt k (l.map (fun x => x.home.getD (0, false))) [] false

/-- An instruction that first reads `n` 64-bit words of memory as one scalar load. -/
def withRead (s : State) (va : DWord) (al n : Nat) (rows : Bool) (f : State → Group → List DWord → Bool → Res) : Res :=
  withG s (fun g =>
    match s.readDw s.cur g va al rows n with
    | .wait s => .next s
    | .trap s num a i => raise s num a i
    | .ok s' l p =>
      if s.parkedHit s.cur va (8 * n) then block s g (memRow (coreOf s.cur)) else f s' g l p)

/-- The path that an access to a global address that translates counts on (R216). -/
def State.pathAt (s : State) (k : Nat) (g : Group) (va : DWord) : Path :=
  match s.translate (coreOf k) (s.ctxId g) va .read g.tclass with
  | .ok _ pa _ => pathOfPa pa
  | _ => .gl

/-- R304. -/
def execVvfold (a : XReg) (s : State) : Res :=
  withG s (fun g =>
    withRead s (g.x a) 8 8 true (fun s g l p =>
      let ds := (l.map bitsDot).filter (fun d => d.serial ≠ 0 && !(tooOld s.now d.time))
      doneWith ((s.consumeIf s.cur p).countAcc s.cur (s.pathAt s.cur g (g.x a))).2
        (fun g => { g with vv := mergeEntries g.vv ds 0 })))

/-! ### clean and inval (R238) -/

/-- The physical lines that the global bytes from `lo` to `hi` overlap on pages that translate, of `n` pages from number `page` up;
no page outside the canonical addresses does. -/
def State.rangeLines (s : State) (c ctx : Nat) (lo hi : Nat) : Nat → Nat → List Nat
  | 0, _ => []
  | n + 1, page =>
    let a := Nat.max lo (4096 * page)
    let b := Nat.min hi (4096 * page + 4096)
    let rest := s.rangeLines c ctx lo hi n (page + 1)
    if b ≤ a then rest
    else match s.translate c ctx (BitVec.ofNat 64 (4096 * page)) .read true with
      | .ok _ pa _ =>
        ((List.range ((b - 1) / 128 + 1 - a / 128)).map (fun i => (pa + (a - 4096 * page)) / 128 + i)) ++ rest
      | _ => rest

/-- Writes back the dirty words of lines of one L1; with `drop`, the lines go, but those that hold a hidden
word (R238). -/
def State.cleanLines (s : State) (c : Nat) (lines : List Nat) (drop : Bool) : State :=
  let hit := ((s.core c).l1.filter (fun e => lines.contains (e.1 / 32))).map (·.1)
  let s := hit.foldl (fun s w =>
    match s.l1At c w with
    | some x => if x.hid.isNone && x.mask ≠ 0 then (s.flushReqs c w).writeBack c w else s
    | none => s) s
  if drop then
    let pin := s.pinned c
    s.setCore c { s.core c with l1 := (s.core c).l1.filter (fun e =>
      !(lines.contains (e.1 / 32)) || pin.contains (e.1 / 32)) }
  else s

/-- The shared effect of `clean` and `inval` (R238). -/
def lineOp (s : State) (a b : XReg) (drop : Bool) : Res :=
  withG s (fun g =>
    let va := g.x a
    let n := (g.x b).toNat
    let last := va.toNat + n - 1
    if n = 0 then done s g
    else if 2 ^ 64 ≤ last || (va.truncate 57).signExtend 64 ≠ va
        || ((BitVec.ofNat 57 last).signExtend 64 : DWord).toNat ≠ last then raise s 0x10 va 0
    else
      let lo := va.toNat
      let hi := lo + n
      let lines := s.rangeLines (coreOf s.cur) (s.ctxId g) lo hi ((hi - 1) / 4096 + 1 - lo / 4096) (lo / 4096)
      let s := s.cleanLines (coreOf s.cur) lines drop
      doneWith (if drop then s else (s.countAcc s.cur .gl).2) (fun g => g))

def execClean (a b : XReg) (s : State) : Res := lineOp s a b false
def execInval (a b : XReg) (s : State) : Res := lineOp s a b true

end Sys2Proof.Machine
end

