-- ==== Sys2Proof/Machine/Pattern.lean ====
section
/-! DEFINITION. Stream patterns and operand queues (R229 to R237), and the in-flight counters (R218). -/

namespace Sys2Proof.Machine

open Sys2Proof

/-- Bits [hi:lo] of a 64-bit value. -/
def dw (v : DWord) (lo n : Nat) : Nat := field v.toNat lo n

/-- A pattern record and mode; `none` when they break R229 or R230. -/
def parsePattern (l : List DWord) (mode : DWord) : Option PatRec :=
  match l with
  | [b, ib, n01, n23, s01, s23, e, z] =>
    let r : PatRec :=
      { base := b, ibase := ib
        n0 := dw n01 0 32, n1 := dw n01 32 32, n2 := dw n23 0 32, n3 := dw n23 32 32
        s0 := sgn 32 (dw s01 0 32), s1 := sgn 32 (dw s01 32 32)
        s2 := sgn 32 (dw s23 0 32), s3 := sgn 32 (dw s23 32 32)
        esize := dw e 0 8, iesize := dw e 8 8
        dsp := mode.getLsbD 0, isp := mode.getLsbD 1, sgn := mode.getLsbD 2 }
    let unit := if r.iesize = 0 then r.esize else r.iesize
    let nOk (n : Nat) : Bool := decide (1 ≤ n) && decide (n ≤ 2 ^ 24)
    let sOk (v : Int) : Bool := v % unit = 0
    if mode.toNat / 8 = 0 && e.toNat / 65536 = 0 && z = 0
        && (r.esize = 1 || r.esize = 2 || r.esize = 4) && (r.iesize = 0 || r.iesize = 4 || r.iesize = 8)
        && nOk r.n0 && nOk r.n1 && nOk r.n2 && nOk r.n3 && decide (r.n0 * r.n1 * r.n2 * r.n3 ≤ 2 ^ 40)
        && sOk r.s0 && sOk r.s1 && sOk r.s2 && sOk r.s3
        && b.toNat % r.esize = 0 && (if r.iesize = 0 then ib = 0 else ib.toNat % r.iesize = 0)
    then some r else none
  | _ => none

/-- Elements of a pattern (R231). -/
def patCount (r : PatRec) : Nat := r.n0 * r.n1 * r.n2 * r.n3

/-- Queue entries of a pattern for a group width (R231). -/
def patEntries (r : PatRec) (gw : Nat) : Nat := (patCount r + gw - 1) / gw

/-- The byte offset of element `m` (R231). -/
def patOffset (r : PatRec) (m : Nat) : Int :=
  (m % r.n0 : Nat) * r.s0 + (m / r.n0 % r.n1 : Nat) * r.s1
    + (m / (r.n0 * r.n1) % r.n2 : Nat) * r.s2 + (m / (r.n0 * r.n1 * r.n2) % r.n3 : Nat) * r.s3

/-- The range a pattern registers, as a start and an exclusive end (R232). -/
def patRange (r : PatRec) : Int × Int :=
  let b : Int := if r.iesize = 0 then r.base.toNat else r.ibase.toNat
  let z : Int := if r.iesize = 0 then r.esize else r.iesize
  let lo (n : Nat) (s : Int) : Int := min 0 (((n : Int) - 1) * s)
  let hi (n : Nat) (s : Int) : Int := max 0 (((n : Int) - 1) * s)
  (b + lo r.n0 r.s0 + lo r.n1 r.s1 + lo r.n2 r.s2 + lo r.n3 r.s3,
   b + hi r.n0 r.s0 + hi r.n1 r.s1 + hi r.n2 r.s2 + hi r.n3 r.s3 + z)

/-- An operand queue of a group. -/
def Group.queue (g : Group) (q : QReg) : OpQueue := sget {} g.opq q.toNat

/-- Writes an operand queue of a group. -/
def Group.setQueue (g : Group) (q : QReg) (v : OpQueue) : Group := { g with opq := sset {} g.opq q.toNat v }

/-- Discards a queue's entries, frees its slots and releases its ranges; a fetch outstanding is completed, then dropped (R233,
R236). -/
def State.stopQueue (s : State) (k : Nat) (q : QReg) (st : QSt) : State :=
  let s := s.unlock (coreOf k) (.queue k q.toNat)
  { s with groups := upd s.groups k (fun g =>
      g.setQueue q ((g.queue q).stopped st)) }

/-- R234. -/
def execSpset (q : QReg) (a b : XReg) (s : State) : Res :=
  withG s (fun g =>
    let va := g.x a
    match s.readDw s.cur g va 8 true 8 with
    | .wait s => .next s
    | .trap s num a i => raise s (if num = 0x12 then 0x12 else 0x10) a (if num = 0x14 then 0 else i)
    | .ok s' l p =>
      if s.parkedHit s.cur va 64 then block s g (memRow (coreOf s.cur))
      else
        match parsePattern l (g.x b) with
        | none => raise s' 0x17 va (q.zeroExtend 64)
        | some r =>
          let s := ((s'.stopQueue s'.cur q .armed).countAcc s'.cur .pat).2
          doneWith (s.consumeIf s.cur p) (fun g => g.setQueue q { g.queue q with st := .armed, pat := r }))

/-- Slots of a pipe's operand-queue buffer in use (R235). DEDUCED (log 48). -/
def State.slotsUsed (s : State) (k : Nat) (g : Group) : Nat :=
  ((s.groups.filter (fun e => coreOf e.1 = coreOf k && e.2.pipe = g.pipe)).map (fun e =>
    (e.2.opq.map (fun q => q.2.slots)).sum)).sum

/-- The range of a pattern as an entry of the range-lock table; the trap and address when it may not be
registered (R235). A range that leaves its space has no entry. DESIGN CHOICE (log 127). -/
def State.patLock (s : State) (k : Nat) (g : Group) (q : QReg) (r : PatRec) : Except (BitVec 8 × DWord) RangeLock :=
  let (lo, hi) := patRange r
  let sp := if r.iesize = 0 then r.dsp else r.isp
  let top : DWord := w64 (hi - 1)
  let own : RlOwner := .queue k q.toNat
  if sp then
    if lo < 0 || 2 ^ 32 < hi then .error (0x11, w64 lo)
    else
      match s.spadRange g (w64 lo) (hi - lo).toNat with
      | none => .error (0x11, w64 lo)
      | some (t, o) =>
        .ok { sp := true, ctx := s.ctxId g, space := t, lo := o, hi := o + (hi - lo).toNat, write := false, owner := own }
  else if lo < 0 || 2 ^ 64 < hi || ((w64 lo).truncate 57).signExtend 64 ≠ w64 lo
      || (top.truncate 57).signExtend 64 ≠ top || (w64 lo).getLsbD 56 ≠ top.getLsbD 56 then .error (0x10, w64 lo)
  else .ok { sp := false, ctx := s.ctxId g, lo := lo.toNat, hi := hi.toNat, write := false, owner := own }

/-- R235. -/
def execSpgo (q : QReg) (s : State) : Res :=
  withG s (fun g =>
    let o := g.queue q
    if o.st = .idle then raise s 0x18 0 (q.zeroExtend 64)
    else
      match s.patLock s.cur g q o.pat with
      | .error (num, a) => raise s num a 0
      | .ok l =>
        if !(s.engineClear s.cur g) then block s g (memRow (coreOf s.cur))
        else
          let s1 := s.stopQueue s.cur q o.st
          let need := if g.gw = 64 then 16 else 8
          let row := s.engineRow g
          match find s1.groups s.cur with
          | none => block s g row
          | some g1 =>
            if 256 < s1.slotsUsed s.cur g1 + need then block s g row
            else match s1.tryLock (coreOf s.cur) [l] with
              | none => block s g row
              | some s2 => done s2 (g1.setQueue q { g1.queue q with st := .running, slots := need }))

/-- R236. -/
def execSpstop (q : QReg) (s : State) : Res :=
  withG s (fun _ => doneWith (s.stopQueue s.cur q .idle) (fun g => g))

/-- Accesses on a path that `wait` counts: those issued before it first executed (R218). -/
def State.waitCount (s : State) (g : Group) (p : Path) : Nat :=
  if p = .cp then sget 0 g.cnt 4 else s.unretired s.cur g p (g.waitN.getD (sget 0 g.cnt (pathCode p)))

/-- R218. -/
def execWait (p : Path) (a : XReg) (s : State) : Res :=
  withG s (fun g =>
    if s.waitCount g p ≤ (g.x a).toNat then done s g
    else .next (s.setGrp { g with waitN := some (g.waitN.getD (sget 0 g.cnt (pathCode p))) }))

/-- R218. -/
def execCntrd (p : Path) (d : XReg) (s : State) : Res :=
  alu s d (fun g => BitVec.ofNat 64 (s.counter s.cur g p))

end Sys2Proof.Machine
end

