-- ==== Sys2Proof/Machine/Copy.lean ====
section
/-! DEFINITION. The copy instructions (R307 to R308, R316 to R319, R323 to R329). -/

namespace Sys2Proof.Machine

open Sys2Proof

/-- Whether a team holds a channel (R308). -/
def chanHeld (k : Chan) (t : Nat) : Bool := k.st ≠ .free && k.team = t

/-- The wait-for row of a copy channel (R350). -/
def State.chanRow (s : State) (g : Group) (c : BitVec 3) : WaitRow :=
  let k := s.chan (coreOf s.cur) c.toNat
  waitRow (coreOf s.cur) 8 k.wown false c.toNat
    (if chanHeld k g.seat then [] else (s.members k.team).map (·.1))

/-- A cpgo enters the channel's list of waiters (R308). -/
def State.chanQueue (s : State) (c : BitVec 3) (va : DWord) : State :=
  let co := s.core (coreOf s.cur)
  if co.chWait.any (fun e => e.1 = c.toNat && e.2.1 = s.cur) then s
  else s.setCore (coreOf s.cur) { co with chWait := co.chWait ++ [(c.toNat, s.cur, va)] }

/-- R324. DEDUCED (log 21). -/
def execCpgo (c : BitVec 3) (b : XReg) (s : State) : Res :=
  withG s (fun g =>
    let va := g.x b
    let cr := coreOf s.cur
    let k := s.chan cr c.toNat
    if (va.truncate 57).signExtend 64 ≠ va then raise s 0x10 va 0
    else if va.toNat % 32 ≠ 0 then raise s 0x12 va 0
    else
      let k := if k.st = .free then { team := g.seat, st := .idle } else k
      if !(chanHeld k g.seat) || decide (8 ≤ k.headq.length) then block (s.chanQueue c va) g (s.chanRow g c)
      else if k.st = .halted then raise s 0x1a 0 (c.zeroExtend 64)
      else doneWith (((s.unrequest s.cur).setChan cr c.toNat k).appendChain cr c.toNat s.cur g va) (fun g => g))

/-- An instruction on a channel that the team must hold (R308). -/
def withChan (s : State) (c : BitVec 3) (f : Group → Chan → Res) : Res :=
  withG s (fun g =>
    let k := s.chan (coreOf s.cur) c.toNat
    if chanHeld k g.seat then f g k else raise s 0x1a 0 (c.zeroExtend 64))

/-- R325. -/
def execCpseal (d : XReg) (c : BitVec 3) (s : State) : Res :=
  withChan s c (fun _ k =>
    let k := { k with sealed := k.sealed + 1 }
    let k := { k with done := chanDone k }
    doneWith (s.setChan (coreOf s.cur) c.toNat k) (fun g => g.setX d (k.sealed.zeroExtend 64)))

/-- `a - b > 0` as a signed 32-bit difference (R316). -/
def after32 (a b : BitVec 32) : Bool := a ≠ b && !(a - b).msb

/-- `a - b < 0` as a signed 32-bit difference (R316). -/
def before32 (a b : BitVec 32) : Bool := (a - b).msb

/-- R326. -/
def execCpwait (d : XReg) (c : BitVec 3) (b : XReg) (s : State) : Res :=
  withChan s c (fun g k =>
    let n : BitVec 32 := (g.x b).truncate 32
    if n = 0 then done s (g.setX d 0)
    else if after32 n k.sealed then raise s 0x1a 0 (c.zeroExtend 64)
    else if before32 k.done n then block s g (s.chanRow g c)
    else done s (g.setX d (if k.fb ≠ 0 && !(before32 n k.fb) then 1 else 0)))

/-- The number of a channel's state in its status word (R327). -/
def stNum : ChSt → Nat
  | .free => 0 | .idle => 1 | .running => 2 | .halted => 3

/-- The status word of a channel for a team (R327). -/
def chanStatus (k : Chan) (t : Nat) : DWord :=
  if chanHeld k t then
    BitVec.ofNat 64 (k.done.toNat * 2 ^ 32 + (if k.wown then 2 ^ 20 else 0) + k.headq.length * 2 ^ 16
      + k.fcode * 2 ^ 8 + 8 + stNum k.st)
  else BitVec.ofNat 64 (stNum k.st)

/-- The counter word of a channel for a team (R327). -/
def chanCounters (k : Chan) (t : Nat) : DWord := if chanHeld k t then k.fb ++ k.sealed else 0

/-- R327. -/
def execCpstat (d : XReg) (c : BitVec 3) (s : State) : Res :=
  withG s (fun g =>
    let k := s.chan (coreOf s.cur) c.toNat
    done s (g.setPair d (chanStatus k g.seat) (chanCounters k g.seat)))

/-- The address of the record in transfer, or 0 (R328). -/
def recInTransfer (k : Chan) : DWord :=
  match k.crec with
  | some r => if r.reg then r.addr else 0
  | none => 0

/-- The destination lies in scratchpad (R310). -/
def CopyRec.tsp (r : CopyRec) : Bool := r.flags.getLsbD 2

/-- Context of the team that holds a channel. -/
def State.chanCtx (s : State) (k : Chan) : Nat :=
  match find s.teams k.team with
  | some t => t.ctx
  | none => 0

/-- Host words of a global range that translates, whose acknowledgements a record awaits (R315). -/
def State.hostWords (s : State) (c ctx : Nat) (va : DWord) : Nat → List Nat
  | 0 => []
  | n + 1 =>
    match s.translate c ctx va .write false with
    | .ok _ pa _ => if isHost pa then pa / 4 :: s.hostWords c ctx (va + 4) n else s.hostWords c ctx (va + 4) n
    | _ => s.hostWords c ctx (va + 4) n

/-- Host words that an engine wrote for group `k` are not acknowledged (R242, R315). -/
def State.awaits (s : State) (k : Nat) (l : List Nat) : Bool :=
  s.acks.any (fun a => (a.grp = k || a.grp = noGroupKey) && l.contains a.w)

/-- Words that the record in transfer has written are not performed (R328). -/
def State.unperformed (s : State) (c : Nat) (k : Chan) : Bool :=
  match k.crec, k.headq with
  | some r, x :: _ => !r.tsp && s.awaits x.grp (s.hostWords c (s.chanCtx k) r.dst r.pos)
  | _, _ => false

/-- R328: the channel issues no further read; once the words that it has written are performed, its ranges and chains go. -/
def execCpabort (d : XReg) (c : BitVec 3) (s : State) : Res :=
  withChan s c (fun g k =>
    let cr := coreOf s.cur
    let a := recInTransfer k
    if s.unperformed cr k then .next (s.setGrp { g with cpStop := some c.toNat })
    else
    let s := (s.endChains cr c.toNat true (fun _ => true)).unlock cr (.chan c.toNat)
    let k' := s.chan cr c.toNat
    let k' := if k.fcode = 0 then { k' with fcode := 8, frec := a, fdata := 0 } else k'
    doneWith (s.setChan cr c.toNat { k' with st := .idle, crec := none, nrec := none, wown := false })
      (fun g => { g.setX d a with cpStop := none }))

/-- R329. -/
def execCpflt (d : XReg) (c : BitVec 3) (s : State) : Res :=
  withChan s c (fun _ k =>
    let k' := { k with fcode := 0, frec := 0, fdata := 0, fb := 0, st := if k.st = .halted then .idle else k.st }
    doneWith (s.setChan (coreOf s.cur) c.toNat k') (fun g => g.setPair d k.frec k.fdata))

end Sys2Proof.Machine
end

