-- ==== Sys2Proof/Machine/Work.lean ====
section
/-! DEFINITION. Tasks, watches, register allotment, regroup, exit, barriers, named queues, nap and yield
(R331 to R367). -/

namespace Sys2Proof.Machine

open Sys2Proof

/-! ### Register banks and placement (R111, R113, R331) -/

/-- Whether a group at slot offset `o` with width `w` occupies slot octet `i` of its pipe (R111). -/
def coversOct (o w i : Nat) : Bool := decide (o ≤ 8 * i) && decide (8 * i < o + Nat.min w 32)

/-- Rows of each bank that an allotment takes (R113). -/
def bankRows (gw allot : Nat) : Nat := if gw = 64 then 2 * allot else allot

/-- Bank rows in use at slot octet `i` of pipe `p` of core `c`. -/
def State.rowsUsed (s : State) (c p i : Nat) : Nat :=
  ((s.groups.filter (fun e => coreOf e.1 = c && e.2.pipe = p && coversOct e.2.soff e.2.gw i)).map
    (fun e => bankRows e.2.gw e.2.allot)).sum

/-- Whether `n` more registers per lane fit for a group at an offset (R113). -/
def State.rowsFit (s : State) (c p o gw n : Nat) : Bool :=
  (List.range 4).all (fun i => !(coversOct o gw i) || decide (s.rowsUsed c p i + bankRows gw n ≤ 2048))

/-- Slot offsets of a width (R111). -/
def offsetsOf (gw : Nat) : List Nat := if gw = 8 then [0, 8, 16, 24] else if gw = 16 then [0, 16] else [0]

/-- The first element with the least cost. -/
def cheapest (l : List (Nat × Nat)) : Option Nat :=
  match l with
  | [] => none
  | (c, v) :: r => some ((r.foldl (fun (m : Nat × Nat) e => if e.1 < m.1 then e else m) (c, v)).2)

/-- Whether a pipe may take groups: its core and it are live (R435). -/
def State.pipeOpen (s : State) (c p : Nat) : Bool :=
  !(s.coreOut.contains c) && !(s.pipeOut.contains (4 * c + p)) && bitOf s.live.toNat (c / 64)
    && !(s.retireQ.any (fun (q, _) => (q.kind = 3 && q.core = c) || (q.kind ≤ 2 && q.core = c && q.pipe = p)
      || (q.kind = 5 && q.die = c / 64)))

/-- The first of a pipe's requests is `r`, or none waits there (R336). -/
def State.inTurn (s : State) (q : Nat) (r : Option RegReq) : Bool :=
  match (s.pipe q).claims with
  | [] => true
  | e :: _ => r = some e

/-- Pipe and slot offset for a new group on a core (R331): the pipe with the fewest groups, then the offset held by the
fewest. The creation, a request `r` when it has waited, must be in its turn on the pipe (R336). Groups of a team
that waits for its admission stand in no queue: they are placed where none waits. DESIGN CHOICE (log 148). -/
def State.place (s : State) (c gw allot : Nat) (r : Option RegReq) : Option (Nat × Nat) :=
  let on (p : Nat) := s.groups.filter (fun e => coreOf e.1 = c && e.2.pipe = p)
  let fits (p : Nat) : List Nat := (offsetsOf gw).filter (fun o => s.rowsFit c p o gw allot)
  let ps := (List.range 4).filter (fun p => s.pipeOpen c p && s.inTurn (4 * c + p) r && !(fits p).isEmpty)
  match cheapest (ps.map (fun p => ((on p).length, p))) with
  | none => none
  | some p =>
    match cheapest ((fits p).map (fun o => (((on p).filter (fun e => e.2.soff = o)).length, o))) with
    | none => none
    | some o => some (p, o)

/-- The lowest free group entry of a core, if one is free (R331). -/
def State.freeEntry (s : State) (c : Nat) : Option Nat :=
  let used := (s.groups.filter (fun e => coreOf e.1 = c)).map (fun e => e.1 % 128)
  let n := freshFrom used 128 0
  if n < 128 then some n else none

/-- Whether every context's floor has passed a time, so that a serial may be used again (R279). -/
def State.floorsPast (s : State) (t : BitVec 40) : Bool := s.ctxs.all (fun e => e.2.floor ≠ t && floorGe e.2.floor t)

/-- The lowest free serial (R279): in the serial window when one is set, else from 1 to 0xff_ffff. -/
def State.freeSerial (s : State) : Option (BitVec 24) :=
  let held := (s.serials.filter (fun e => match e.2 with
    | none => true
    | some t => !(s.floorsPast t))).map (fun e => e.1.toNat)
  let lo := if s.winSize = 0 then 1 else s.winBase.toNat
  let n := if s.winSize = 0 then 16777215 else s.winSize.toNat
  let k := freshFrom held (held.length + 1) lo
  if k < lo + n then some (BitVec.ofNat 24 k) else none

/-- Takes a serial for a new group. -/
def State.takeSerial (s : State) (n : BitVec 24) : State :=
  { s with serials := (n, none) :: s.serials.filter (fun e => e.1 ≠ n) }

/-! ### Floors (R284) -/

/-- Raises a context's floor at a grid-wide point: F ← max(F, min(T, S) − 1), into every member's vector. -/
def State.raiseFloor (s : State) (ctx launch : Nat) (t : BitVec 40) (ms : List Nat) : State :=
  match find s.ctxs ctx with
  | none => s
  | some cx =>
    let others := s.launches.filterMap (fun e =>
      if e.1 = launch then none
      else match e.2.start with
        | none => none
        | some st =>
          let gone := match e.2.endT, cx.lastQ with
            | some en, some q => timeLe en q && en ≠ q
            | _, _ => false
          if gone then none else some st)
    let m := others.foldl (fun m st => if timeLe st m then st else m) t
    let f := floorMax cx.floor (m - 1)
    let s : State := { s with ctxs := put s.ctxs ctx { cx with floor := f } }
    ms.foldl (fun s k => { s with groups := upd s.groups k (fun g => { g with vv := { g.vv with floor := floorMax g.vv.floor f } }) }) s

/-! ### Tasks (R337 to R340, R359) -/

/-- Inserts a task into the core's gatherer; `none` when no slot is free (R338). -/
def State.insertTask (s : State) (c t gw : Nat) (entry : DWord) (x : Task) : Option State :=
  let co := s.core c
  match co.gathers.find? (fun e => e.2.team = t && e.2.entry = entry && !e.2.closed) with
  | some (i, h) =>
    let ts := h.tasks ++ [x]
    some (s.setCore c { co with gathers := put co.gathers i { h with tasks := ts, closed := decide (gw ≤ ts.length) } })
  | none =>
    let i := freshFrom (co.gathers.map (·.1)) 8 0
    if i < 8 then
      let h : Gather := { team := t, entry := entry, tasks := [x], closed := decide (gw ≤ 1), since := s.tsc }
      some (s.setCore c { co with gathers := put co.gathers i h })
    else none

/-- The wait-for row of the task gatherer (R350). -/
def State.gatherRow (s : State) (g : Group) : WaitRow :=
  waitRow (coreOf s.cur) 7 false false 0
    ((s.groups.filter (fun e => coreOf e.1 = coreOf s.cur || e.2.seat = g.seat)).map (·.1))

/-- Seven 64-bit arguments as fourteen words (R359). -/
def argWords (g : Group) (b : XReg) : List Word :=
  (List.range 14).map (fun i => ((g.x (b + BitVec.ofNat 6 (i / 2))) >>> (32 * (i % 2))).truncate 32)

/-- R359. -/
def execTspawn (a b : XReg) (s : State) : Res :=
  withG s (fun g =>
    let e := g.x a
    if e.toNat % 4 ≠ 0 then raise s 0x04 e 0
    else if (e.truncate 57).signExtend 64 ≠ e then raise s 0x10 e 0
    else
      withRelease s g 1 (fun s =>
        withG s (fun g =>
          match s.insertTask (coreOf s.cur) g.seat (s.teamOf g).gw e { args := argWords g b, vec := g.vv } with
          | none => block s g (s.gatherRow g)
          | some s => doneWith s (fun g => g))))

/-! ### Watches (R341 to R344, R360, R361) -/

/-- A watch handle (R344). -/
def watchHandle (k ent : Nat) (gen : BitVec 24) : DWord :=
  BitVec.ofNat 64 (ent + (k % 64) * 2 ^ 6 + (k / 64) * 2 ^ 12 + gen.toNat * 2 ^ 16)

/-- A watch record that keeps R341: base, entry, tag, length, mode. -/
def parseWatch (l : List DWord) : Option WatchRec :=
  match l with
  | [b, e, t, m] =>
    let len := dw m 0 16
    if (b.truncate 57).signExtend 64 = b && b.toNat % 4 = 0 && (e.truncate 57).signExtend 64 = e && e.toNat % 4 = 0
        && decide (4 ≤ len) && decide (len ≤ 128) && len % 4 = 0 && b.toNat / 128 = (b.toNat + len - 1) / 128
        && dw m 17 47 = 0
    then some { base := b, entry := e, tag := t, len := len, pers := m.getLsbD 16 } else none
  | _ => none

/-- The load of a watch record completes with the `watch` (R360): its access is counted, its poison consumed. -/
def State.readWatch (s : State) (r : WatchRec) : State := ((s.consumeIf s.cur r.pois).countAcc s.cur r.path).2

/-- A watch is armed from its record (R360): the group keeps the record while its base or the registration of the range
waits. -/
def armWatch (s : State) (g : Group) (d : XReg) (r : WatchRec) : Res :=
  match s.translate (coreOf s.cur) (s.ctxId g) r.base .read g.tclass with
  | .wait s => .next (s.setGrp { g with wrec := some r })
  | .fault s => raise (s.setGrp { g with wrec := none }) 0x10 r.base 0
  | .ok s pa _ =>
    if !(isDevMem pa) then raise (s.setGrp { g with wrec := none }) 0x10 r.base 0
    else
      let k := s.homeSlice pa
      let sl := s.slice k
      let ent := freshFrom (sl.watches.map (·.1)) 64 0
      if 64 ≤ ent then doneWith (s.readWatch r) (fun g => { g with wrec := none }.setX d 0)
      else
        let lk : RangeLock := { sp := false, ctx := s.ctxId g, lo := r.base.toNat, hi := r.base.toNat + r.len
                                write := true, owner := .watch (watchKey k ent) }
        match (if s.engineClear s.cur g then s.tryLock (coreOf s.cur) [lk] else none) with
        | none => block s { g with wrec := some r } (s.engineRow g)
        | some s =>
          let gen := nextGen sl.wgen
          let w : Watch := { core := coreOf s.cur, team := g.seat, ctx := s.ctxId g, lo := pa, len := r.len
                             va := r.base, entry := r.entry, tag := r.tag, pers := r.pers, gen := gen, vec := g.vv }
          doneWith ((s.setSlice k { s.slice k with wgen := gen, watches := put (s.slice k).watches ent w }).readWatch r)
            (fun g => { g with wrec := none }.setX d (watchHandle k ent gen))

/-- R360. -/
def execWatch (d a : XReg) (s : State) : Res :=
  withG s (fun g =>
    match g.wrec with
    | some r => armWatch s g d r
    | none =>
      withRead s (g.x a) 32 4 false (fun s g l p =>
        match parseWatch l with
        | none => raise s 0x1b (g.x a) 0
        | some r => armWatch s g d { r with pois := p, path := s.pathAt s.cur g (g.x a) }))

/-- R361. -/
def execUnwatch (d a : XReg) (s : State) : Res :=
  withG s (fun g =>
    let h := g.x a
    let k := dw h 6 6 + 64 * dw h 12 2
    let ent := dw h 0 6
    match find (s.slice k).watches ent with
    | none => done s (g.setX d 0)
    | some w =>
      if watchHandle k ent w.gen = h && w.team = g.seat && w.armed then
        let s := s.setSlice k { s.slice k with watches := del (s.slice k).watches ent }
        doneWith (s.unlock w.core (.watch (watchKey k ent))) (fun g => g.setX d 1)
      else done s (g.setX d 0))

/-! ### claim and give (R336, R362) -/

/-- A target that R362 allows. -/
def targetOk (t : DWord) : Bool := t.toNat % 16 = 0 && decide (16 ≤ t.toNat) && decide (t.toNat ≤ 256)

/-- The row of a request for registers (R350): the groups of the pipe that hold register rows. -/
def State.rowsRow (s : State) (c p : Nat) : WaitRow :=
  waitRow c 5 false false p ((s.groups.filter (fun e => coreOf e.1 = c && e.2.pipe = p)).map (·.1))

/-- R362, and R394 inside a recovery block. -/
def execClaim (d a : XReg) (s : State) : Res :=
  withG s (fun g =>
    let t := g.x a
    if !(targetOk t) then raise s 0x03 0 (t &&& 0x1ff)
    else if 0 < s.depth g.seat then raise s 0x1d 0 0
    else if g.laneBusy then waitLane s g
    else if t.toNat ≤ g.allot then done s (g.setX d (BitVec.ofNat 64 g.allot))
    else
      let c := coreOf s.cur
      let q := 4 * c + g.pipe
      let r : RegReq := .claim s.cur t.toNat
      if s.inTurn q (some r) && s.rowsFit c g.pipe g.soff g.gw (t.toNat - g.allot) then
        done (s.unrequest s.cur) ({ g with allot := t.toNat }.setX d t)
      else
        let p := s.pipe q
        block (s.setPipe q { p with claims := if p.claims.contains r then p.claims else p.claims ++ [r] }) g
          (s.rowsRow c g.pipe))

/-- Registers at or above `t` lose their values (R336). -/
def Group.cutRegs (g : Group) (t : Nat) : Group := { g with vs := g.vs.filter (fun e => e.1 / 64 < t) }

/-- R362, and R394 inside a recovery block. -/
def execGive (d a : XReg) (s : State) : Res :=
  withG s (fun g =>
    let t := g.x a
    if !(targetOk t) then raise s 0x03 0 (t &&& 0x1ff)
    else if 0 < s.depth g.seat then raise s 0x1d 0 0
    else if g.laneBusy then waitLane s g
    else if t.toNat < g.allot then done s ((({ g with allot := t.toNat }).cutRegs t.toNat).setX d t)
    else done s (g.setX d (BitVec.ofNat 64 g.allot)))

/-! ### exit (R364) -/

/-- The grid's exit vector takes a group's vector (R285). -/
def State.foldExit (s : State) (g : Group) : State :=
  { s with launches := upd s.launches (s.teamOf g).launch (fun l => { l with exitV := vvMerge l.exitV g.vv }) }

/-- A group leaves the device after its waits (R364). -/
def State.endGroup (s : State) (k : Nat) : State :=
  match find s.groups k with
  | none => s
  | some g => ((s.publishVec k 1).foldExit g).dropGroup k

/-- What `exit` waits for (R364): its paths but the copy path are 0, no store of the group is parked, and the accesses that
a release at team scope awaits are performed. -/
def State.exitReady (s : State) (k : Nat) (g : Group) : Bool :=
  !g.laneBusy && s.counter k g .sp = 0 && s.counter k g .gl = 0 && s.counter k g .rsp = 0
    && s.counter k g .pat = 0 && s.counter k g .pl = 0 && g.infl.isEmpty
    && (s.core (coreOf k)).replay.all (fun p => p.grp ≠ k) && s.acked k 1

/-- R364. DEDUCED (log 18). -/
def execExit (s : State) : Res :=
  withG s (fun g =>
    if 0 < s.depth g.seat then raise s 0x1d 0 0
    else if g.laneBusy then waitLane s g
    else if s.exitReady s.cur g then .next (s.endGroup s.cur)
    else .next s)

/-! ### regroup (R351, R352, R363) -/

/-- Live active lanes of a member, with its key (R351). -/
def gatherLanes (e : Nat × Group) : List (Nat × Nat) :=
  ((List.range e.2.gw).filter (fun l => bitOf e.2.k0.toNat l && bitOf e.2.top.toNat l)).map (fun l => (e.1, l))

/-- The mask of the first `n` lanes. -/
def firstLanes (n : Nat) : DWord := BitVec.ofNat 64 (2 ^ n - 1)

/-- The registers of a survivor (R351): `L` lists its filled lanes' origins. -/
def survivor (ms : List (Nat × Group)) (n T d : Nat) (L : List (Nat × Nat)) (vec : VVec) (ofc : Nat) (g : Group) : Group :=
  let src (i : Nat) : Option (Group × Nat) :=
    match L[i]? with
    | none => none
    | some (m, l) => (find ms m).map (fun h => (h, l))
  let g0 : Group := { g with vs := [], ks := [], act := [], k0 := firstLanes L.length, decQ := [], winS := [], winL := []
                             opq := g.opq.map (fun e => (e.1, e.2.stopped .idle))
                             vv := vec, ofc := BitVec.ofNat 64 (Nat.min ofc (2 ^ 64 - 1)), arr := none }
  let g1 := (List.range L.length).foldl (fun g i =>
    match src i with
    | none => g
    | some (h, l) => (List.range n).foldl (fun g r => g.setV r i (h.v r l)) g) g0
  let kj (j : KReg) : DWord := maskOf ((List.range L.length).filter (fun i =>
    match src i with
    | none => false
    | some (h, l) => bitOf (h.k j).toNat l))
  let g2 := [1, 2, 3, 4, 5, 6, 7].foldl (fun (g : Group) j => g.setK j (kj j)) g1
  (g2.setX (BitVec.ofNat 6 d) (BitVec.ofNat 64 T)).next

/-- A group that a compaction leaves out exits as `exit` does: at once, or when what it waits for is done (R351, R364). Its operand
queues are idle and its decision queue empty meanwhile, as every member's. -/
def State.leave (s : State) (k : Nat) : State :=
  match find s.groups k with
  | none => s
  | some g =>
    if s.exitReady k g then s.endGroup k
    else { s with groups := put s.groups k { g with leaving := some g.tclass, arr := none, wf := {}, decQ := []
                                                    opq := g.opq.map (fun e => (e.1, e.2.stopped .idle)) } }

/-- The compaction once every member has arrived (R351). -/
def State.compactTeam (s : State) (t n : Nat) : State :=
  let ms := s.members t
  let L := ms.flatMap gatherLanes
  let gw := match ms with
    | [] => 8
    | e :: _ => e.2.gw
  let T := L.length
  let S := (T + gw - 1) / gw
  let vec (g : Group) : VVec := ms.foldl (fun v e => vvMerge v e.2.vv) g.vv
  let ofc := (ms.map (fun e => e.2.ofc.toNat)).sum
  let s := ms.foldl (fun s e => s.unlock (coreOf e.1) (.queue e.1 0)) s
  let s := ms.foldl (fun s e => (List.range 8).foldl (fun s q => s.unlock (coreOf e.1) (.queue e.1 q)) s) s
  let step (s : State) (ie : Nat × (Nat × Group)) : State :=
    let (i, k, g) := ie
    if i < S then
      let d := match g.arr with
        | some (.regroup _ d) => d
        | _ => 0
      { s with groups := put s.groups k (survivor ms n T d ((L.drop (i * gw)).take gw) (vec g) ofc g) }
    else s.leave k
  ((List.range ms.length).zip ms).foldl step s

/-- The register count that a member brings to a `regroup`. -/
def Group.regroupN (g : Group) : Option Nat :=
  match g.arr with
  | some (.regroup n _) => some n
  | _ => none

/-- A member raises the register-range fault at its `regroup` (R352): outside trap class it is held, for its frame to be
stored when the group's scalar stream next issues. -/
def State.regroupTrap (s : State) (e : Nat × Group) : State :=
  let p : PendTrap := { num := 0x03, info := BitVec.ofNat 64 (e.2.regroupN.getD 0) }
  let s : State := { s with groups := upd s.groups e.1 (fun h => { h with arr := none, wf := {} }) }
  if e.2.tclass then s.doubleFault e.1 else s.holdTrap e.1 p

/-- A member may arrive (R57, R351): its lane stream is quiet as for `lsync`, and its loads in flight have completed. -/
def State.mayRegroup (s : State) (k : Nat) (g : Group) : Bool := s.laneQuiet k g && g.infl.isEmpty

/-- R352, R363. DEDUCED (log 101). -/
def execRegroup (d a : XReg) (s : State) : Res :=
  withG s (fun g =>
    if 0 < s.depth g.seat then raise s 0x1d 0 0
    else if g.laneBusy then waitLane s g
    else if !(s.mayRegroup s.cur g) then .next s
    else
      let g := { g with arr := some (.regroup ((g.x a).toNat % 512) d.toNat) }
      let s := s.setGrp g
      let ms := s.members g.seat
      let out := ms.filter (fun e => e.2.regroupN.isNone)
      if !out.isEmpty then block s g (waitRow (coreOf s.cur) 10 false false 0 (out.map (·.1)))
      else
        let low := (ms.head?.bind (fun e => e.2.regroupN)).getD 0
        let bad := decide (256 < low)
          || ms.any (fun e => decide (e.2.allot < low) || decide (e.2.allot < e.2.regroupN.getD 0))
        .next (if bad then ms.foldl (fun s e => s.regroupTrap e) s else s.compactTeam g.seat low))

/-! ### Barriers (R353 to R355, R365) -/

/-- Barriers bound on a core. -/
def State.barsUsed (s : State) (c : Nat) : Nat :=
  ((s.teams.filter (fun e => teamCore e.1 = c)).map (fun e => e.2.bars.length)).sum

/-- Queues bound on a core. -/
def State.nqsUsed (s : State) (c : Nat) : Nat :=
  ((s.teams.filter (fun e => teamCore e.1 = c)).map (fun e => e.2.nqs.length)).sum

/-- The wait-for row of a barrier or queue that finds no free hardware (R350). -/
def State.hwRow (s : State) (g : Group) (obj : Nat) : WaitRow :=
  waitRow (coreOf s.cur) 6 false false obj
    ((s.groups.filter (fun e => coreOf e.1 = coreOf s.cur && e.2.seat ≠ g.seat)).map (·.1))

/-- R365. -/
def execBarinit (n : BitVec 6) (b : XReg) (s : State) : Res :=
  withG s (fun g =>
    let t := s.teamOf g
    let cnt := (g.x b).toNat
    let busy := match find t.bars n.toNat with
      | some x => decide (0 < x.arrd) || !x.wait.isEmpty
      | none => false
    if cnt = 0 || decide (65535 < cnt) || busy then raise s 0x1c 0 (n.zeroExtend 64)
    else if (find t.bars n.toNat).isNone && decide (64 ≤ s.barsUsed (coreOf s.cur)) then block s g (s.hwRow g n.toNat)
    else done (s.setTeam g.seat { t with bars := put t.bars n.toNat { count := cnt } }) g)

/-- An arrival at a named barrier by group `k` (R353, R354): the last one completes the phase and raises the floor
when every group of a one-team grid has arrived (R284). -/
def State.arrive (s : State) (k : Nat) (n : Nat) (x : Barrier) : State :=
  match find s.groups k with
  | none => s
  | some g =>
    let t := s.teamOf g
    let tm := if x.arrd = 0 then s.now else x.tmin
    let m := match x.mrg with
      | none => vvMerge {} g.vv
      | some v => vvMerge v g.vv
    let mem := if x.members.contains k then x.members else k :: x.members
    if x.arrd + 1 < x.count then
      let x' := { x with arrd := x.arrd + 1, mrg := some m, tmin := tm, members := mem }
      s.setTeam g.seat { t with bars := put t.bars n x' }
    else
      let x' := { x with arrd := 0, mrg := none, phase := x.phase + 1, held := ((x.phase, m) :: x.held).take 4,
                         members := [], tmin := 0 }
      let s := s.setTeam g.seat { t with bars := put t.bars n x' }
      let all := (s.members g.seat).map (·.1)
      let one := match find s.launches t.launch with
        | some l => l.desc.grid = 1
        | none => false
      if one && all.all (fun h => mem.contains h) then s.raiseFloor t.ctx t.launch tm all else s

/-- A wait for a phase that has completed ends as an acquire at team scope (R354). -/
def State.endBarWait (s : State) (k n : Nat) (p : BitVec 32) : State :=
  match find s.groups k with
  | none => s
  | some g =>
    let t := s.teamOf g
    match find t.bars n with
    | none => s
    | some x =>
      let s := s.setTeam g.seat { t with bars := put t.bars n { x with wait := x.wait.filter (fun h => h ≠ k) } }
      let s := s.acquire k 1
      match x.held.find? (fun e => e.1 = p) with
      | some (_, v) => s.mergeVec k v
      | none => s

/-- The wait on a named barrier (R365). -/
def barWait (s : State) (g : Group) (n : Nat) (p : BitVec 32) (x : Barrier) : Res :=
  if after32 x.phase p then doneWith (s.endBarWait s.cur n p) (fun g => { g with arr := none })
  else
    let t := s.teamOf g
    let w := if x.wait.contains s.cur then x.wait else x.wait ++ [s.cur]
    block (s.setTeam g.seat { t with bars := put t.bars n { x with wait := w } }) g
      (waitRow (coreOf s.cur) 1 false false n (((s.members g.seat).map (·.1)).filter (fun h => !(x.members.contains h))))

/-- An instruction on a bound barrier; sync-state when it is unbound (R365). -/
def withBar (s : State) (n : BitVec 6) (f : Group → Barrier → Res) : Res :=
  withG s (fun g =>
    match find (s.teamOf g).bars n.toNat with
    | none => raise s 0x1c 0 (n.zeroExtend 64)
    | some x => f g x)

/-- R365. -/
def execBararr (d : XReg) (n : BitVec 6) (s : State) : Res :=
  withBar s n (fun g x =>
    withRelease s g 1 (fun s =>
      doneWith (s.arrive s.cur n.toNat x) (fun g => g.setX d (x.phase.zeroExtend 64))))

/-- R365. -/
def execBarwait (n : BitVec 6) (b : XReg) (s : State) : Res :=
  withBar s n (fun g x =>
    let p : BitVec 32 := (g.x b).truncate 32
    if after32 p x.phase then raise s 0x1c 0 (n.zeroExtend 64) else barWait s g n.toNat p x)

/-- R365: the arrival is recorded, and the instruction resumes as a wait. -/
def execBarsync (n : BitVec 6) (s : State) : Res :=
  withBar s n (fun g x =>
    let enter : Res :=
      withRelease s g 1 (fun s =>
        let s := s.arrive s.cur n.toNat x
        withG s (fun g =>
          match find (s.teamOf g).bars n.toNat with
          | none => .next s
          | some x' => barWait s { g with arr := some (.bar n.toNat x.phase) } n.toNat x.phase x'))
    match g.arr with
    | some (.bar m p) => if m = n.toNat then barWait s g m p x else enter
    | _ => enter)

/-- Whether every team of an instance that holds its seat has arrived at a cluster barrier (R355). -/
def State.cbarFull (s : State) (inst : Nat) (i : Inst) (x : CBar) : Bool :=
  i.teams.all (fun t => (match find s.teams t with | some tm => tm.inst ≠ inst | none => true)
    || (s.members t).all (fun e => x.arrd.contains e.1))

/-- Completes a cluster barrier's phase when every team has arrived; the floor rises when the grid is one
instance (R284, R355). -/
def State.closeCbar (s : State) (inst c : Nat) : State :=
  match find s.insts inst with
  | none => s
  | some i =>
    match find i.cbars c with
    | none => s
    | some x =>
      if s.cbarFull inst i x && !x.arrd.isEmpty then
        let x' : CBar := { phase := x.phase + 1, arrd := [], mrg := none, last := x.mrg }
        let s : State := { s with insts := put s.insts inst { i with cbars := put i.cbars c x' } }
        match find s.launches i.launch with
        | none => s
        | some l =>
          if l.desc.grid = i.rows * i.cols then
            s.raiseFloor l.ctx i.launch x.tmin (i.teams.flatMap (fun t => (s.members t).map (·.1)))
          else s
      else s

/-- The wait of `cbar` on its recorded arrival (R365). -/
def cbarWait (s : State) (g : Group) (inst c ph : Nat) : Res :=
  let s := s.closeCbar inst c
  match (find s.insts inst).bind (fun i => find i.cbars c) with
  | none => .next s
  | some x =>
    if ph < x.phase then
      let s := s.acquire s.cur 2
      doneWith (match x.last with | some v => s.mergeVec s.cur v | none => s) (fun g => { g with arr := none })
    else block s { g with arr := some (.cbar c ph) } (waitRow (coreOf s.cur) 2 false true c [])

/-- R355, R365. -/
def execCbar (c : BitVec 3) (s : State) : Res :=
  withG s (fun g =>
    let inst := (s.teamOf g).inst
    let enter : Res :=
      withRelease s g 2 (fun s =>
        withG s (fun g =>
          match find s.insts inst with
          | none => doneWith (s.acquire s.cur 2) (fun g => g)
          | some i =>
            let x := (find i.cbars c.toNat).getD {}
            let m := match x.mrg with
              | none => vvMerge {} g.vv
              | some v => vvMerge v g.vv
            let x' := { x with arrd := if x.arrd.contains s.cur then x.arrd else s.cur :: x.arrd, mrg := some m
                               tmin := if x.arrd.isEmpty then s.now else x.tmin }
            cbarWait { s with insts := put s.insts inst { i with cbars := put i.cbars c.toNat x' } } g inst c.toNat x.phase))
    match g.arr with
    | some (.cbar m p) => if m = c.toNat then cbarWait s g inst m p else enter
    | _ => enter)

/-! ### Named queues (R356, R366) -/

/-- R366. -/
def execQinit (q : BitVec 5) (b : XReg) (s : State) : Res :=
  withG s (fun g =>
    let t := s.teamOf g
    let n := (g.x b).toNat
    let busy := match find t.nqs q.toNat with
      | some x => !x.entries.isEmpty || !x.pushers.isEmpty || !x.poppers.isEmpty
      | none => false
    if n = 0 || decide (16 < n) || busy then raise s 0x1c 0 (q.zeroExtend 64)
    else if (find t.nqs q.toNat).isNone && decide (32 ≤ s.nqsUsed (coreOf s.cur)) then block s g (s.hwRow g q.toNat)
    else done (s.setTeam g.seat { t with nqs := put t.nqs q.toNat { depth := n } }) g)

/-- An instruction on a bound queue; sync-state when it is unbound (R366). -/
def withNq (s : State) (q : BitVec 5) (f : Group → NQueue → Res) : Res :=
  withG s (fun g =>
    match find (s.teamOf g).nqs q.toNat with
    | none => raise s 0x1c 0 (q.zeroExtend 64)
    | some x => f g x)

/-- Writes a queue of the group's team. -/
def State.setNq (s : State) (g : Group) (q : BitVec 5) (x : NQueue) : State :=
  s.setTeam g.seat { s.teamOf g with nqs := put (s.teamOf g).nqs q.toNat x }

/-- Appends an entry, or hands it to the oldest waiting popper (R356). -/
def State.pushEntry (s : State) (g : Group) (q : BitVec 5) (x : NQueue) (e : DWord × VVec) : State :=
  match x.poppers with
  | [] => s.setNq g q { x with entries := x.entries ++ [e] }
  | p :: r =>
    let s := s.setNq g q { x with poppers := r }
    { s with groups := upd s.groups p (fun h => { h with handed := some (q.toNat, e) }) }

/-- R366. -/
def execQpush (q : BitVec 5) (b : XReg) (s : State) : Res :=
  withNq s q (fun g x =>
    let turn := match x.pushers with
      | [] => true
      | h :: _ => h = s.cur
    if x.entries.length < x.depth && turn then
      withRelease s g 1 (fun s =>
        withG s (fun g =>
          match find (s.teamOf g).nqs q.toNat with
          | none => .next s
          | some x =>
            let x := { x with pushers := x.pushers.filter (fun h => h ≠ s.cur) }
            doneWith (s.pushEntry g q x (g.x b, g.vv)) (fun g => g)))
    else
      let ps := if x.pushers.contains s.cur then x.pushers else x.pushers ++ [s.cur]
      block (s.setNq g q { x with pushers := ps }) g (waitRow (coreOf s.cur) 3 false false q.toNat (s.mates g)))

/-- A pop that returns an entry: an acquire at team scope that merges the entry's vector (R356). -/
def State.tookEntry (s : State) (k : Nat) (v : VVec) : State := (s.acquire k 1).mergeVec k v

/-- The entry handed to a group from a queue (R356). -/
def Group.handedFrom (g : Group) (q : BitVec 5) : Option (DWord × VVec) :=
  match g.handed with
  | some (n, e) => if n = q.toNat then some e else none
  | none => none

/-- R366. -/
def execQpop (d : XReg) (q : BitVec 5) (s : State) : Res :=
  withNq s q (fun g x =>
    match g.handedFrom q with
    | some (p, v) => doneWith (s.tookEntry s.cur v) (fun g => { g with handed := none }.setX d p)
    | none =>
      match x.entries with
      | (p, v) :: r =>
        doneWith ((s.setNq g q { x with entries := r }).tookEntry s.cur v) (fun g => g.setX d p)
      | [] =>
        let ps := if x.poppers.contains s.cur then x.poppers else x.poppers ++ [s.cur]
        block (s.setNq g q { x with poppers := ps }) g (waitRow (coreOf s.cur) 4 false false q.toNat (s.mates g)))

/-- R366. -/
def execQtry (d : XReg) (q : BitVec 5) (s : State) : Res :=
  withNq s q (fun g x =>
    match x.entries with
    | (p, v) :: r =>
      doneWith ((s.setNq g q { x with entries := r }).tookEntry s.cur v) (fun g => g.setPair d p 1)
    | [] => done s (g.setPair d 0 0))

/-! ### nap and yield (R367) -/

/-- The group's age becomes the current time and its run of issues ends (R345, R367). -/
def Group.yielded (g : Group) (t : DWord) : Group := { g with age := t.toNat, runS := 0 }

/-- R367. -/
def execNap (a : XReg) (s : State) : Res :=
  withG s (fun g =>
    let n := (g.x a).toNat % 2 ^ 32
    match g.nap with
    | some t =>
      if t.toNat ≤ s.tsc.toNat then done s { g with nap := none }
      else block s g (waitRow (coreOf s.cur) 14 true false 0 [])
    | none =>
      if n = 0 then done s (g.yielded s.tsc)
      else block s { g with nap := some (s.tsc + BitVec.ofNat 64 n) } (waitRow (coreOf s.cur) 14 true false 0 []))

/-- R367. -/
def execYield (s : State) : Res := withG s (fun g => done s (g.yielded s.tsc))

end Sys2Proof.Machine
end

