-- ==== Sys2Proof/Machine/Recovery.lean ====
section
/-! DEFINITION. Recovery blocks and conversations: opening, acceptance, failure, rollback and dispatch
(R370 to R402, R503). -/

namespace Sys2Proof.Machine

open Sys2Proof

/-! ### Collective arrival (R394, R395) -/

/-- Which recovery collective an arrival belongs to; 0 for none. -/
def recKind : Option Arrival → Nat
  | some (.ensure _ _) => 1
  | some (.accept _) => 2
  | some (.cvjoin _ _) => 3
  | some (.joined _ _) => 3
  | some .cvleave => 4
  | _ => 0

/-- The table address of an `ensure` arrival. -/
def recTable : Option Arrival → DWord
  | some (.ensure _ t) => t
  | _ => 0

/-- Raises a trap in every listed member, whose arrivals are withdrawn (R394, R397): contained, a double fault at trap class,
or held, for its frame to be stored when the group's scalar stream next issues. -/
def State.raiseAll (s : State) (ms : List (Nat × Group)) (num : BitVec 8) (addr info : DWord) : State :=
  ms.foldl (fun s e =>
    let s : State := { s with groups := upd s.groups e.1 (fun h => { h with arr := none, wf := {} }) }
    let p : PendTrap := { num := num, addr := addr, info := info }
    match find s.groups e.1 with
    | none => s
    | some h => if s.isContained h num || h.tclass then s.takeTrap e.1 h p h.pc false else s.holdTrap e.1 p) s

/-- One member's arrival at a collective: team-state when members meet at different ones (R394), else the act of
the whole team, or a wait under KIND 11. A wait of the act itself, for a conversation, goes on from where it began (R471, R472). -/
def collect (s : State) (g : Group) (mine : Arrival) (f : State → List (Nat × Group) → Res) : Res :=
  let s1 := s.setGrp { g with arr := some mine, wf := if g.wf.kind = 13 || g.wf.kind = 17 then g.wf else {} }
  let ms := s1.members g.seat
  let here := ms.filter (fun e => recKind e.2.arr ≠ 0)
  let clash := here.any (fun e => recKind e.2.arr ≠ recKind (some mine)
    || (recKind (some mine) = 1 && recTable e.2.arr ≠ recTable (some mine)))
  if clash then .next (s1.raiseAll here 0x1d 0 0)
  else if here.length = ms.length then f s1 ms
  else
    block s1 { g with arr := some mine } (waitRow (coreOf s.cur) 11 false false 0
      ((ms.filter (fun e => recKind e.2.arr = 0)).map (·.1)))

/-- The waits of a member at `ensure` and `accept`: its lane stream, its paths 0, 1, 2, 3 and 5, its parked stores
(R397, R399). -/
def State.memberQuiet (s : State) (k : Nat) (g : Group) : Bool :=
  g.infl.isEmpty && s.counter k g .sp = 0 && s.counter k g .gl = 0 && s.counter k g .rsp = 0
    && s.counter k g .pat = 0 && s.counter k g .pl = 0
    && (s.core (coreOf k)).replay.all (fun p => p.grp ≠ k)

/-- Changes every member of a team and lets it go on: no arrival, no wait. -/
def State.release (s : State) (t : Nat) (f : Group → Group) : State :=
  s.mapMembers t (fun g => { f g with arr := none, wf := {}, waitN := none })

/-! ### Failure, dispatch, exhaustion (R385, R386, R389) -/

/-- The next alternate of a level after a failure: its address, or `none` when it has no more (R385). -/
def nextAlt (l : Level) : Option DWord := l.alts[l.alt]?

/-- A block closes exhausted (R386): each member goes to the else-error path, and the enclosing alternate is
doomed. -/
def State.exhaust (s : State) (t : Nat) (errA : DWord) (lalt ldepth nfail : Nat) (rest : List Level) : State :=
  match find s.teams t with
  | none => s
  | some tm =>
    let rest := match rest with
      | [] => []
      | l :: r => { l with doom := true } :: r
    let s := s.setTeam t { tm with levels := rest, fail := none, passed := false
                                   rbst := { tm.rbst with outcome := 2, lalt := lalt, ldepth := ldepth, nfail := nfail } }
    s.release t (fun g => { g with pc := errA, disp := true })

/-- Records a failure and dispatches (R385, steps 6 and 7), after the rollback to level `f.level`. `stop` makes the
block exhaust whatever alternates are left. -/
def State.dispatch (s : State) (t : Nat) (f : FailRec) (stop : Bool) : State :=
  match find s.teams t with
  | none => s
  | some tm =>
    match tm.levels with
    | [] => s.setTeam t { tm with fail := none }
    | l :: r =>
      let rb := { tm.rbst with cause := f.cause, ftrap := f.ftrap, fgid := f.fgid }
      let nf := l.nfail + 1
      match (if stop then none else nextAlt l) with
      | some a =>
        let l' := { l with alt := l.alt + 1, nfail := nf, spent := 0, doom := false, pois := false }
        (s.setTeam t { tm with levels := l' :: r, rbst := rb, fail := none, passed := false }).release t
          (fun g => { g with pc := a, disp := true })
      | none => (s.setTeam t { tm with rbst := rb }).exhaust t l.errA l.alt (r.length + 1) nf r

/-- A team's level-1 block. -/
def Team.outer (t : Team) : Option Level := t.levels.getLast?

/-- The alternate index of a team's level-1 block. -/
def Team.alt1 (t : Team) : Nat := (t.outer.map (·.alt)).getD 0

/-- A team's level-1 block has no alternate after the current one. -/
def Team.atLast (t : Team) : Bool := t.outer.any (fun l => (nextAlt l).isNone)

/-- A member of the conversation, seated or saved, has no alternate left in the block of round `r`, or the round exhausts already
(R389). -/
def State.roundEnds (s : State) (v : Conv) (r : Nat) : Bool :=
  v.dead.contains r
    || v.teams.any (fun u => match (find s.teams u).or ((s.saved.find? (fun x => x.uid = u)).map (·.team)) with
      | some x => !x.levels.isEmpty && x.round = r && x.atLast
      | none => false)

/-- A failure in round `r` is noted for the members that are not in their block of it (R389): the alternate index that its
members go on at, or that its blocks exhaust. DESIGN CHOICE (log 153). -/
def State.noteRound (s : State) (c r a : Nat) (stop : Bool) : State :=
  { s with convs := upd s.convs c (fun v => { v with
      alts := put v.alts r a, dead := if stop then r :: v.dead.filter (fun x => x ≠ r) else v.dead }) }

/-- A round exhausts at alternate index `a` for a team that does not take part in its blocks any more: those of the others fail with
no alternate left (R389). DESIGN CHOICE (log 153). -/
def State.endRound (s : State) (t c a : Nat) : State :=
  let ps := s.partners t 1
  let r := ((find s.teams t).map (·.round)).getD 0
  ps.foldl (fun s u => s.failAlt u 1 7 0 0) (s.noteRound c r a true)

/-- A member that opens its block of a round late, or comes back into it from a save, takes the failures of the round that it
missed; where its table has no alternate left the block of every member exhausts (R389). DESIGN CHOICE (log 153). -/
def State.joinRound (s : State) (t : Nat) : State :=
  match s.convOf t, find s.teams t with
  | some (c, v), some tm =>
    match tm.levels with
    | [l] =>
      let late := (find v.alts tm.round).getD 0 - l.alt
      let f : FailRec := { level := 1, time := s.tsc, cause := 7 }
      if v.dead.contains tm.round then s.dispatch t f true
      else
        let s := (List.range late).foldl (fun s _ => s.dispatch t f false) s
        if l.alts.length < l.alt + late then s.endRound t c (l.alt + late) else s
    | _ => s
  | _, _ => s

/-- Stores parked by a team's levels from `lv` on are discarded without a fault (R385, step 3). -/
def State.dropParked (s : State) (t lv : Nat) : State :=
  let c := teamCore t
  s.setCore c { s.core c with replay := (s.core c).replay.filter (fun p =>
    match p.hid with | some h => !(tagOf t lv h) | none => true) }

/-- Whether a rollback may proceed: no member at trap class, every member's in-flight paths but the copy path 0, no bank
operation and no entry of a trap under way (R385, steps 1 and 3). -/
def State.canRoll (s : State) (t : Nat) : Bool :=
  (s.members t).all (fun e => !e.2.tclass && e.2.entry.isNone && s.memberQuiet e.1 e.2 && e.2.bank.isNone)

/-- Performs the rollback of a team's recorded failure, of its conversation partners too, and dispatches (R385,
R389). -/
def State.rollTeam (s : State) (t : Nat) : State :=
  match (find s.teams t).bind (·.fail) with
  | none => s
  | some f =>
    let ps := s.partners t f.level
    let s := ps.foldl (fun s u => s.dropParked u 1) (s.dropParked t f.level)
    if !(s.canRoll t && ps.all s.canRoll) then s
    else
      let tm := (find s.teams t).getD { ctx := 0 }
      let cv := if f.level = 1 then s.convOf t else none
      let stop := cv.any (fun c => s.roundEnds c.2 tm.round)
      let s := match cv with
        | some (c, _) => s.noteRound c tm.round (tm.alt1 + 1) stop
        | none => s
      let s := (s.rollTo t f.level).dispatch t f stop
      ps.foldl (fun s u => (s.rollTo u 1).dispatch u (((find s.teams u).bind (·.fail)).getD { level := 1, cause := 7 }) stop) s

/-! ### ensure (R397) -/

/-- What an alternates table that keeps R371 holds after its first word: end, else-error, alternates. -/
def parseTable (l : List DWord) : Option (DWord × DWord × List DWord) :=
  let okA (a : DWord) : Bool := (a.truncate 57).signExtend 64 = a && a.toNat % 4 = 0
  match l with
  | n :: e :: r :: as =>
    if as.length = n.toNat && decide (1 ≤ n.toNat) && decide (n.toNat ≤ 15) && okA e && okA r && as.all okA then some (e, r, as)
    else none
  | _ => none

/-- The frames a level takes (R377). -/
def framesOf (ms : List (Nat × Group)) : List (Nat × Frame) :=
  ms.map (fun e => (e.1, { act := e.2.act, ret := e.2.ret, spill := e.2.spill, pc := e.2.pc + 4, disp := e.2.disp }))

/-- Opens a level for a team whose members have arrived (R397). Where the frames cannot be taken FGID is the lowest gid of the
members (R386). DESIGN CHOICE (log 161). -/
def State.openLevel (s : State) (t : Nat) (ms : List (Nat × Group)) (lim : DWord) (e r : DWord) (as : List DWord) :
    State :=
  match find s.teams t with
  | none => s
  | some tm =>
    let d := tm.levels.length + 1
    let n := if d = 1 then tm.round + 1 else tm.round
    if s.granFit t (32 * ms.length) then
      let l : Level := { endA := e, errA := r, alts := as, limit := lim.toNat % 2 ^ 48, frames := framesOf ms }
      ((s.setTeam t { tm with levels := l :: tm.levels, round := n }).release t (fun g => { g with pc := g.pc + 4 })).joinRound t
    else
      let rb := { tm.rbst with cause := 6, ftrap := 0, fgid := (ms.head?.map (fun e => e.2.gid)).getD 0 }
      let s := (s.setTeam t { tm with rbst := rb, round := n }).exhaust t r 0 d 0 tm.levels
      match (if d = 1 then s.convOf t else none) with
      | some (c, _) => s.endRound t c 0
      | none => s

/-- The act of a whole team at `ensure` (R397): N and the whole table are read, and held to R371 then. -/
def ensureAll (s : State) (g : Group) (ms : List (Nat × Group)) : Res :=
  match Option.map (fun (e : Nat × Group) => e.2.arr) ms.head? with
  | some (some (Arrival.ensure lim tab)) =>
    if (tab.truncate 57).signExtend 64 ≠ tab then .next (s.raiseAll ms 0x10 tab 0)
    else if tab.toNat % 8 ≠ 0 then .next (s.raiseAll ms 0x12 tab 0)
    else
      match s.readDw s.cur g tab 8 false 1 with
      | .wait s => .next s
      | .trap s num a i => .next (s.raiseAll ms num a i)
      | .ok s h p =>
        match s.readDw s.cur g (tab + 8) 8 false ((h.headD 0).toNat % 256 + 2) with
        | .wait s => .next s
        | .trap s num a i => .next (s.raiseAll ms num a i)
        | .ok s as q =>
          match parseTable (h ++ as) with
          | none => .next (s.raiseAll ms 0x1f tab 0)
          | some (e, r, as) => .next ((s.consumeIf s.cur (p || q)).openLevel g.seat ms lim e r as)
  | _ => .next s

/-- R397. -/
def execEnsure (a b : XReg) (s : State) : Res :=
  withG s (fun g =>
    if 8 ≤ s.depth g.seat then raise s 0x1d 0 0
    else if g.laneBusy then waitLane s g
    else if !(s.memberQuiet s.cur g) then .next s
    else collect s g (.ensure (g.x a) (g.x b)) (fun s ms => ensureAll s g ms))

/-! ### elseby, elseerr, rbfail (R398, R400) -/

/-- An alternate's entry point: the dispatch flag is checked and cleared (R398). -/
def dispatchEntry (s : State) : Res :=
  withG s (fun g => if g.disp then done s { g with disp := false } else raise s 0x1e 0 0)

def execElseby (s : State) : Res := dispatchEntry s
def execElseerr (s : State) : Res := dispatchEntry s

/-- R400. A handler goes on to its `rti`, which the rollback awaits (R385). DEDUCED (log 131). -/
def execRbfail (s : State) : Res :=
  withG s (fun g =>
    if s.depth g.seat = 0 then raise s 0x1d 0 0
    else if g.tclass then done (s.failAlt g.seat (s.depth g.seat) 3 0 g.gid) g
    else .next (s.failAlt g.seat (s.depth g.seat) 3 0 g.gid))

/-! ### accept (R399) -/

/-- A hidden value at its home: its word, its dot, and the other word of the 64-bit store that wrote it. -/
structure HidVal where
  w    : Nat
  dot  : Dot
  pair : Option Nat
  deriving DecidableEq, Repr, Inhabited

/-- Hidden values of a team at their homes. -/
def State.hiddenOf (s : State) (t : Nat) : List HidVal :=
  s.cells.flatMap (fun e => e.2.vals.filterMap (fun v =>
    match v.hid with
    | some h => if h.team = t then some { w := e.1, dot := v.dot, pair := v.pair } else none
    | none => none))

/-- The words that the publication of a hidden value triggers watches over: those of its whole store, once (R342, R382). -/
def trigWords (l : List HidVal) (x : HidVal) : List Nat :=
  match x.pair with
  | none => [x.w]
  | some u => if l.any (fun y => y.w = u && y.dot = x.dot) then (if x.w < u then [x.w, u] else []) else [x.w]

/-- The hidden words of a team in L1s: core, word and what the L1 holds. -/
def State.hiddenL1 (s : State) (t : Nat) : List (Nat × Nat × L1Word) :=
  s.cores.flatMap (fun c => (c.2.l1.filter (fun e => tagged (tagOf t 0) e.2.hid)).map (fun e => (c.1, e.1, e.2)))

/-- Published words become ordinary dirty words of their L1s, registered as before, so that nothing is performed at a wider
scope; one whose value stands no more leaves, and one that another core has registered too is written back (R243, R382). -/
def State.unpinWords (s : State) (l : List (Nat × Nat × L1Word)) : State :=
  let s := l.foldl (fun s e =>
    let x := { e.2.2 with hid := none }
    if (s.allVals e.2.1).any x.fills then s.setL1 e.1 e.2.1 x else s.delL1 e.1 e.2.1) s
  l.foldl (fun s e => if 2 ≤ (s.registrants e.2.1).length then s.writeBackAll e.2.1 none else s) s

/-- Acceptance at level 1 publishes (R382): every hidden write becomes ordinary in one step and triggers watches;
a release at team scope. -/
def State.publishTeam (s : State) (t : Nat) : State :=
  let l := s.hiddenL1 t
  let s := l.foldl (fun s e => s.fill e.2.1 e.2.2) s
  let hs := s.hiddenOf t
  let s := (s.publish t).unpinWords l
  let s := hs.foldl (fun s x => if (trigWords hs x).isEmpty then s else s.trigger (trigWords hs x) x.dot) s
  (s.members t).foldl (fun s e => s.publishVec e.1 1) s

/-- Captures of an accepted level pass outward where the outer level holds none (R379). -/
def passCaps (l r : Level) : Level :=
  { r with caps := l.caps.filter (fun c => !(r.caps.any (sameCap c))) ++ r.caps
           wrote := (l.wrote ++ r.wrote).dedup, pois := r.pois }

/-- Closes an accepted level (R399). -/
def State.acceptLevel (s : State) (t : Nat) : State :=
  match find s.teams t with
  | none => s
  | some tm =>
    match tm.levels with
    | [] => s
    | l :: r =>
      let lv := r.length + 1
      let rb := { tm.rbst with outcome := 1, lalt := l.alt, ldepth := lv, nfail := l.nfail }
      let s := if lv = 1 then s.publishTeam t else
        { s.passOut t lv with cores := (s.passOut t lv).cores.map (fun c =>
            (c.1, { c.2 with l1 := c.2.l1.map (fun e => (e.1, { e.2 with hid := e.2.hid.map (fun h =>
              if tagOf t lv h then { h with level := lv - 1 } else h) })) })) }
      let r' := match r with
        | [] => []
        | o :: rest => passCaps l o :: rest
      match find s.teams t with
      | none => s
      | some tm =>
        (s.setTeam t { tm with levels := r', rbst := rb, passed := false }).release t (fun g => { g with pc := l.endA })

/-- Chains of the innermost level have not all ended (R399). -/
def State.levelChains (s : State) (t : Nat) : Bool :=
  (s.core (teamCore t)).chans.any (fun e => e.2.team = t && e.2.st ≠ .free &&
    e.2.headq.any (fun x => decide (s.depth t ≤ x.level) && decide (0 < x.level)))

/-- FGID of a failed `accept` (R399): the gid of the first member whose verdict is false, and where every verdict is true, for
poison or DOOM, that of the first member. DESIGN CHOICE (log 160). -/
def failGid (ms : List (Nat × Group)) : Nat :=
  match ms.find? (fun e => e.2.arr = some (.accept false)) with
  | some e => e.2.gid
  | none => match ms with
    | [] => 0
    | e :: _ => e.2.gid

/-- The decision point of `accept` (R389, R399). -/
def acceptAll (s : State) (g : Group) (ms : List (Nat × Group)) : Res :=
  match find s.teams g.seat with
  | none => .next s
  | some tm =>
    match tm.levels with
    | [] => .next (s.raiseAll ms 0x1d 0 0)
    | l :: r =>
      let pass := ms.all (fun e => e.2.arr = some (.accept true))
      if s.levelChains g.seat then .next s
      else if tm.fail.isSome then .next s
      else if !pass || l.pois || l.doom then
        .next (s.failAlt g.seat (r.length + 1) (if pass && !l.doom then 5 else 1) 0 (failGid ms))
      else
        match (if r.isEmpty then s.convOf g.seat else none) with
        | none => .next (s.acceptLevel g.seat)
        | some (_, cv) =>
          let s := s.setTeam g.seat { tm with passed := true }
          if cv.teams.all (fun u => match find s.teams u with
              | some v => v.passed && v.round = tm.round && v.alt1 = tm.alt1
              | none => false) then
            .next (cv.teams.foldl (fun s u => s.acceptLevel u) s)
          else block s g (waitRow (coreOf s.cur) 13 false true cv.idx [])

/-- R399. -/
def execAccept (a : XReg) (s : State) : Res :=
  withG s (fun g =>
    if s.depth g.seat = 0 then raise s 0x1d 0 0
    else if g.laneBusy then waitLane s g
    else if !(s.memberQuiet s.cur g) then .next s
    else
      let mine : Arrival := match g.arr with
        | some (.accept p) => .accept p
        | _ => .accept (g.x a ≠ 0)
      collect s g mine (fun s ms => acceptAll s { g with arr := some mine } ms))

/-! ### Conversations (R387, R388, R401) -/

/-- The wait of a joined member for its conversation (R388). -/
def joinWait (s : State) (g : Group) (idx d : Nat) : Res :=
  match s.convOf g.seat with
  | some (_, v) =>
    if v.ready then done s ({ g with arr := none }.setX (BitVec.ofNat 6 d) (BitVec.ofNat 64 idx))
    else block s g (waitRow (coreOf s.cur) 13 false true v.idx [])
  | none => done s ({ g with arr := none }.setX (BitVec.ofNat 6 d) (BitVec.ofNat 64 idx))

/-- Binds or finds the conversation of an object, and joins (R387, R401); a join has read the object, with or without
poison (R391). -/
def joinObject (s : State) (g : Group) (ms : List (Nat × Group)) (pa n : Nat) (pois : Bool) : Res :=
  let t := s.teamOf g
  let die := s.homeDie pa
  let joinTo (s : State) (c : Nat) (v : Conv) : Res :=
    let v' := { v with teams := v.teams ++ [g.seat], joined := v.joined + 1, ready := decide (v.nmem ≤ v.joined + 1) }
    let s : State := { s with convs := put s.convs c v' }
    let s := (s.setTeam g.seat { s.teamOf g with conv := some c, round := 0 }).consumeIf s.cur pois
    let s := s.mapMembers g.seat (fun h =>
      match h.arr with
      | some (.cvjoin _ d) => { h with arr := some (.joined v.joined d) }
      | _ => h)
    withG s (fun g =>
      match g.arr with
      | some (.joined i d) => joinWait s g i d
      | _ => .next s)
  match s.convs.find? (fun e => e.2.obj = pa && e.2.die = die) with
  | some (c, v) =>
    if v.ready || v.ctx ≠ t.ctx then .next (s.raiseAll ms 0x1c 0 (BitVec.ofNat 64 v.idx)) else joinTo s c v
  | none =>
    let idx := freshFrom ((s.convs.filter (fun e => e.2.die = die)).map (fun e => e.2.idx)) 16 0
    if 16 ≤ idx then withG s (fun g => block s g (waitRow (coreOf s.cur) 17 false true die []))
    else
      joinTo { s with nextUid := s.nextUid + 1 } s.nextUid { die := die, idx := idx, obj := pa, ctx := t.ctx, nmem := n }

/-- The act of a whole team at `cvjoin` (R401). -/
def cvjoinAll (s : State) (g : Group) (ms : List (Nat × Group)) : Res :=
  match Option.map (fun (e : Nat × Group) => e.2.arr) ms.head? with
  | some (some (Arrival.cvjoin obj _)) =>
    if (obj.truncate 57).signExtend 64 ≠ obj then .next (s.raiseAll ms 0x10 obj 0)
    else if obj.toNat % 64 ≠ 0 then .next (s.raiseAll ms 0x12 obj 0)
    else
      match s.translate (coreOf s.cur) (s.ctxId g) obj .read g.tclass with
      | .wait s => .next s
      | .fault s => .next (s.raiseAll ms 0x10 obj 0)
      | .ok s pa _ =>
        if !(isDevMem pa) then .next (s.raiseAll ms 0x10 obj 0)
        else
          match s.readDw s.cur g obj 8 false 8 with
          | .wait s => .next s
          | .trap s num a i => .next (s.raiseAll ms num a i)
          | .ok s l p =>
            let n := (l.headD 0).toNat
            if n < 2 || decide (16 < n) || (l.tail.any (fun x => x ≠ 0)) || (s.teamOf g).conv.isSome then
              .next (s.raiseAll ms 0x1c 0 0)
            else joinObject s g ms pa n p
  | _ => .next s

/-- R401. -/
def execCvjoin (d a : XReg) (s : State) : Res :=
  withG s (fun g =>
    if 0 < s.depth g.seat then raise s 0x1d 0 0
    else
      match g.arr with
      | some (.joined i j) => joinWait s g i j
      | _ => collect s g (.cvjoin (g.x a) d.toNat) (fun s ms => cvjoinAll s g ms))

/-- A team leaves its conversation, which ends with its last member (R388). -/
def State.leaveConv (s : State) (t : Nat) : State :=
  match find s.teams t with
  | none => s
  | some tm =>
    match tm.conv with
    | none => s
    | some c =>
      let s := s.setTeam t { tm with conv := none }
      match find s.convs c with
      | none => s
      | some v =>
        let ts := v.teams.filter (fun u => u ≠ t)
        { s with convs := if ts.isEmpty then del s.convs c else put s.convs c { v with teams := ts } }

/-- R401. -/
def execCvleave (s : State) : Res :=
  withG s (fun g =>
    if 0 < s.depth g.seat then raise s 0x1d 0 0
    else collect s g .cvleave (fun s _ => .next ((s.leaveConv g.seat).release g.seat (fun g => { g with pc := g.pc + 4 }))))

/-- R402. -/
def execChkerr (d : XReg) (s : State) : Res :=
  withG s (fun g =>
    if g.laneBusy then waitLane s g
    else if s.memberQuiet s.cur g && sget 0 g.cnt 4 = 0 then done s (g.setX d (s.ctxOf g).cir)
    else .next s)

end Sys2Proof.Machine
end

