-- ==== Sys2Proof/Machine/Admit.lean ====
section
/-! DEFINITION. The command processor's records and the admission of teams: context records (R416), launch
descriptors (R69, R70), placement and creation of groups (R331 to R333), seat release (R334). -/

namespace Sys2Proof.Machine

open Sys2Proof

/-! ### Records -/

/-- A byte of physical memory as the command processor reads it. -/
def State.homeByte (s : State) (a : Nat) : Byte := byteOf (s.homeRead (a / 4) none) (a % 4)

/-- Consecutive bytes of physical memory as the command processor reads them. -/
def State.homeBytes (s : State) (a n : Nat) : List Byte := (List.range n).map (fun i => s.homeByte (a + i))

/-- `n` bytes at offset `o` of a record as a number. -/
def numAt (l : List Byte) (o n : Nat) : Nat := ofBytes ((l.drop o).take n)

/-- A canonical virtual address (R206). -/
def canonA (a : DWord) : Bool := (a.truncate 57).signExtend 64 = a

/-- Reads a context record (R416); `none` when it breaks its limits. -/
def parseCtx (l : List Byte) : Option (Nat × Ctx) :=
  let root := numAt l 0 8
  let spill : DWord := BitVec.ofNat 64 (numAt l 8 8)
  let frame : DWord := BitVec.ofNat 64 (numAt l 16 8)
  let tvb : DWord := BitVec.ofNat 64 (numAt l 24 8)
  let bud := numAt l 32 4
  let id := numAt l 36 2
  let fl := numAt l 38 1
  if root % 4096 = 0 && canonA spill && spill.toNat % 8192 = 0 && canonA frame && frame.toNat % 128 = 0
      && tvb.toNat % 2048 = 0 && id ≠ 0 && fl < 2 && (l.drop 39).all (fun b => b = 0)
  then some (id, { root := root, spillB := spill, frameB := frame, tvb := tvb
                   budget := if bud = 0 then 1048576 else bud, sys := decide (fl = 1) })
  else none

/-- Group width of a width code (R70). -/
def widthOf (c : Nat) : Nat := 8 * 2 ^ c

/-- How reading a launch descriptor ends: the descriptor, or the refusal STATUS (R70, R452). -/
inductive DescRes where
  | ok (d : Desc)
  | refuse (status : Nat)
  deriving DecidableEq, Repr, Inhabited

/-- Reads a launch descriptor (R69, R70): a broken limit is STATUS 1, a nonzero reserved byte STATUS 2.
DEDUCED (log 32). An entry address may have any low bits. DESIGN CHOICE (log 125). So may a lane code base, whose lane words are
fetched at the addresses rounded down to multiples of 4. DESIGN CHOICE (log 169). -/
def parseDesc (l : List Byte) : DescRes :=
  let d : Desc :=
    { entry := BitVec.ofNat 64 (numAt l 0 8), lbase := BitVec.ofNat 64 (numAt l 8 8)
      argA := BitVec.ofNat 64 (numAt l 16 8), argN := numAt l 24 4
      groups := numAt l 28 1, width := widthOf (numAt l 29 1), rows := numAt l 30 1, cols := numAt l 31 1
      grid := numAt l 32 4, regs := numAt l 36 2, check := numAt l 38 1, spad := numAt l 40 4
      roles := ((l.drop 48).take 16).map (·.toNat) }
  let ok := decide (d.argN ≤ 4096) && decide (1 ≤ d.groups) && decide (d.groups ≤ 16) && decide (numAt l 29 1 ≤ 3)
    && decide (1 ≤ d.rows) && decide (d.rows ≤ 8) && decide (1 ≤ d.cols) && decide (d.cols ≤ 8)
    && decide (1 ≤ d.grid) && decide (d.grid ≤ 65535) && d.grid % (d.rows * d.cols) = 0
    && decide (32 ≤ d.regs) && decide (d.regs ≤ 256) && d.regs % 16 = 0 && decide (d.check ≤ 2)
    && decide (d.spad ≤ 2097152) && d.spad % 1024 = 0
  if !ok then .refuse 1
  else if numAt l 39 1 ≠ 0 || numAt l 44 4 ≠ 0 then .refuse 2
  else .ok d

/-- How a read of memory in a context by the command processor ends (R452, R456). -/
inductive CpRead where
  | ok (s : State) (l : List Byte)
  /-- A fault service is outstanding. -/
  | wait (s : State)
  /-- The read cannot be served: STATUS 0x0008. -/
  | fail (s : State)

/-- Reads `n` bytes at a virtual address of a context, in pieces that cross no page: `pieces` bounds them
(R452, R456). DEDUCED (log 31). -/
def State.cpRead (s : State) (ctx : Nat) (va : DWord) : Nat → Nat → List Byte → CpRead
  | _, 0, acc => .ok s acc
  | 0, _, acc => .ok s acc
  | p + 1, n, acc =>
    let m := Nat.min n (4096 - va.toNat % 4096)
    match s.translate (64 * s.cpDie) ctx va .read false with
    | .wait s => .wait { s with faults := s.faults.map (fun f =>
        if f.ctx = ctx && f.page = va.toNat % 2 ^ 57 / 4096 then { f with pkt := true } else f) }
    | .fault s => .fail s
    | .ok s pa _ =>
      if s.poolTrap pa ≠ 0 then .fail s
      else s.cpRead ctx (va + BitVec.ofNat 64 m) p (n - m) (acc ++ s.homeBytes pa m)

/-- Pieces that `n` bytes take at most. -/
def piecesOf (n : Nat) : Nat := n / 4096 + 2

/-! ### Placement and creation of groups (R331, R332) -/

/-- The cores of a rectangle with position 0 on core `c`, row-major; `none` when it leaves the die (R16, R331). -/
def rectOf (c rows cols : Nat) : Option (List Nat) :=
  if c % 64 / 8 + rows ≤ 8 && c % 8 + cols ≤ 8 && decide (c < 256) then
    some ((List.range (rows * cols)).map (fun p => c + 8 * (p / cols) + p % cols))
  else none

/-- Scratchpad bytes in use on a core, in whole units (R213). -/
def State.spadUsed (s : State) (c : Nat) : Nat :=
  ((s.teams.filter (fun e => teamCore e.1 = c)).map (fun e => roundUp e.2.spadB 65536)).sum

/-- The lowest free seat of a core. -/
def State.freeSeat (s : State) (c : Nat) : Option Nat :=
  let n := freshFrom ((s.teams.filter (fun e => teamCore e.1 = c)).map (fun e => e.1 % 16)) 16 0
  if n < 16 then some (16 * c + n) else none

/-- Firmware of some die restarts: no core enters or leaves gating, and none is calibrated (R474). -/
def State.restarting (s : State) : Bool := s.dies.any (fun e => e.2.restart)

/-- Whether a core has a seat and the scratchpad units for a team (R331, R435). -/
def State.seatFree (s : State) (c spad : Nat) : Bool :=
  !(s.coreOut.contains c) && bitOf s.live.toNat (c / 64) && !((s.core c).gated && s.restarting)
    && !(s.retireQ.any (fun (q, _) => (q.kind = 3 && q.core = c) || (q.kind = 5 && q.die = c / 64)))
    && (s.freeSeat c).isSome && decide (s.spadUsed c + roundUp spad 65536 ≤ 2097152)

/-- A vector that starts from another with a new own slot (R281, R285). -/
def startVec (serial : BitVec 24) (t : BitVec 40) (v : VVec) : VVec :=
  vvMerge { own := { serial := serial, time := t } } v

/-- The x registers of a new group (R332). -/
def argRegs (a n : DWord) : Map DWord := sset 0 (sset 0 [] 1 a) 2 n

/-- A newly launched group (R332, R333). -/
def newGroup (s : State) (t : Nat) (tm : Team) (entry : DWord) (role i p o : Nat) (serial : BitVec 24) (v : VVec) : Group :=
  { seat := t, gid := i, role := role, gw := tm.gw, pipe := p, soff := o, allot := tm.regs, lbase := tm.lbase
    pc := entry, xs := argRegs tm.argA tm.argN, k0 := firstLanes tm.gw, vv := startVec serial s.now v
    age := s.tsc.toNat, late := s.slow }

/-- Creates groups of a team with the given gids, in order (R331, R332). -/
def State.addGroups (s : State) (t : Nat) (tm : Team) (d : Desc) (v : VVec) : List Nat → Option State
  | [] => some s
  | i :: r =>
    let c := teamCore t
    match s.place c tm.gw tm.regs none, s.freeEntry c, s.freeSerial with
    | some (p, o), some e, some n =>
      let g := newGroup s t tm d.entry (d.roles.getD i 0) i p o n v
      let s : State := { s with groups := put s.groups (128 * c + e) g }
      (s.takeSerial n).addGroups t tm d v r
    | _, _, _ => none

/-- Seats one team of an instance on a core (R331, R333); the scratchpad units it takes leave the L1 (R214). -/
def State.seatTeam (s : State) (l inst k p c : Nat) (L : Launch) (v : VVec) : Option (State × Nat) :=
  let d := L.desc
  match s.freeSeat c with
  | none => none
  | some t =>
    if !(s.seatFree c d.spad) then none
    else
      let tm : Team :=
        { ctx := L.ctx, launch := l, tid := k * (d.rows * d.cols) + p, pos := p, inst := inst, spadB := d.spad
          argA := d.argA, argN := BitVec.ofNat 64 d.argN, gw := d.width, regs := d.regs, lbase := d.lbase }
      let s := (s.setCore c { s.core c with gated := false }).setTeam t tm
      let s := s.shrinkL1 c (s.l1Cap c) (linesOf (s.core c).l1).length
      (s.addGroups t tm d v (List.range d.groups)).map (fun s => (s, t))

/-- Seats the teams of an instance in rectangle order; `none` when one does not fit (R331). -/
def State.seatTeams (s : State) (l inst k : Nat) (L : Launch) (v : VVec) : Nat → List Nat → List Nat →
    Option (State × List Nat)
  | _, [], acc => some (s, acc)
  | p, c :: r, acc =>
    match s.seatTeam l inst k p c L v with
    | none => none
    | some (s, t) => s.seatTeams l inst k L v (p + 1) r (acc ++ [t])

/-- Whether a launch's check mode lets its first team in (R418). DEDUCED (log 50). -/
def State.checkOk (s : State) (l : Nat) (L : Launch) (cx : Ctx) : Bool :=
  !L.seated.isEmpty || cx.chk.toNat = L.desc.check
    || s.groups.all (fun e => match find s.teams e.2.seat with
        | some tm => tm.ctx ≠ L.ctx || tm.launch = l
        | none => true)

/-- Whether an accepted QUIESCE of the launch's context holds it back (R261). -/
def State.quiesceHolds (s : State) (l : Nat) (L : Launch) : Bool :=
  let id := match L.node with
    | some (gi, _) => gi
    | none => l
  s.quiesces.any (fun q => q.ctx = L.ctx && !q.ended && !(q.after.contains id))

/-- Reads the context record at the first launch's admission (R416). -/
def State.readCtx (s : State) (id : Nat) : State :=
  match find s.ctxs id with
  | none => s
  | some cx =>
    match cx.recA with
    | none => s
    | some a =>
      match parseCtx (s.homeBytes a 64) with
      | some (_, n) =>
        let c : Ctx := { cx with root := n.root, spillB := n.spillB, frameB := n.frameB, tvb := n.tvb
                                 budget := n.budget, sys := n.sys, recA := none }
        { s with ctxs := put s.ctxs id c }
      | none => { s with ctxs := put s.ctxs id { cx with recA := none } }

/-- `inval` of the flow regions of a node's incoming edges in the L1s of the cores that will run it (R259). -/
def State.invalFlow (s : State) (ctx : Nat) (regs : List (DWord × Nat × Nat)) (cores : List Nat) : State :=
  cores.foldl (fun s c => (regs.filter (fun r => r.2.2 = 0)).foldl (fun s r =>
    let lo := r.1.toNat
    s.cleanLines c (s.rangeLines c ctx lo (lo + r.2.1) ((lo + r.2.1 - 1) / 4096 + 1 - lo / 4096) (lo / 4096)) true) s) s

/-- Regions of the edges into a launch's node. -/
def State.flowInto (s : State) (L : Launch) : List (DWord × Nat × Nat) :=
  match L.node with
  | none => []
  | some (gi, n) =>
    match find s.graphs gi with
    | none => []
    | some g => (g.edges.filter (fun e => e.dst = n)).flatMap (·.regs)

/-- Admission of instance `k` of launch `l` with position 0 on core `c` (R331, R416, R418, R483); `none` when it
must wait. -/
def State.seatInst (s : State) (l k c : Nat) : Option State :=
  match find s.launches l with
  | none => none
  | some L =>
    match find s.ctxs L.ctx with
    | none => none
    | some cx =>
      let d := L.desc
      let n := d.grid / (d.rows * d.cols)
      if L.ended || cx.halted.isSome || decide (n ≤ k) || L.seated.contains k then none
      else if !(s.checkOk l L cx) || s.quiesceHolds l L then none
      else
        match rectOf c d.rows d.cols with
        | none => none
        | some cs =>
          let s := s.readCtx L.ctx
          let s := s.invalFlow L.ctx (s.flowInto L) cs
          let v := vvMerge L.lvec { floor := ((find s.ctxs L.ctx).getD {}).floor }
          let inst := s.nextUid
          match s.seatTeams l inst k L v 0 cs [] with
          | none => none
          | some (s, ts) =>
            let L' := { L with seated := L.seated ++ [k], start := some (L.start.getD s.now) }
            let chk := fun (c : Ctx) => if L.seated.isEmpty then { c with chk := BitVec.ofNat 2 d.check } else c
            let i : Inst := { launch := l, k := k, rows := d.rows, cols := d.cols, teams := ts }
            some { s with launches := put s.launches l L', insts := put s.insts inst i, nextUid := inst + 1
                          ctxs := upd s.ctxs L.ctx chk }

/-- Instances of a launch that have no seats yet. -/
def unseated (L : Launch) : List Nat :=
  (List.range (L.desc.grid / (L.desc.rows * L.desc.cols))).filter (fun k => !(L.seated.contains k))

/-- Cores of the live dies. -/
def State.liveCores (s : State) : List Nat := (List.range 256).filter (fun c => bitOf s.live.toNat (c / 64))

/-- The packet that a launch was accepted with (R331). -/
def acceptKey (l : Nat) (L : Launch) : Nat :=
  match L.node with
  | some (gi, _) => gi
  | none => l

/-- Waiting instances that come before instance `k` of launch `l` (R331). -/
def State.earlier (s : State) (l k : Nat) : List (Nat × Nat) :=
  match find s.launches l with
  | none => []
  | some L =>
    s.launches.flatMap (fun e => ((unseated e.2).filter (fun n =>
      let a := acceptKey e.1 e.2
      let b := acceptKey l L
      decide (a < b) || (a = b && (decide (e.1 < l) || (e.1 = l && decide (n < k)))))).map (fun n => (e.1, n)))

/-- Some live core takes an instance. -/
def State.placeable (s : State) (e : Nat × Nat) : Bool := s.liveCores.any (fun c => (s.seatInst e.1 e.2 c).isSome)

/-- R331: an instance is admitted when no earlier one can be. -/
def execTeamAdmit (l k c : Nat) (s : State) : Res :=
  if (s.earlier l k).any s.placeable then .next s
  else match s.seatInst l k c with
    | some s' => .next s'
    | none => .next s

/-! ### Seat release (R334) -/

/-- Whether a team's seat may be released (R334). -/
def State.seatDone (s : State) (t : Nat) : Bool :=
  let co := s.core (teamCore t)
  s.groups.all (fun e => e.2.seat ≠ t)
    && co.chans.all (fun e => e.2.team ≠ t || e.2.st = .free || e.2.headq.isEmpty)
    && co.gathers.all (fun e => e.2.team ≠ t)

/-- Releases a team's seat and counts it out of its launch (R334, R452). -/
def State.releaseSeat (s : State) (t : Nat) : State :=
  match find s.teams t with
  | none => s
  | some tm =>
    let s := (s.leaveConv t).dropTeam t
    match find s.launches tm.launch with
    | none => s
    | some L =>
      let s : State := { s with launches := put s.launches tm.launch { L with left := L.left - 1 } }
      if L.left ≤ 1 then s.endLaunch tm.launch 0 0 else s

/-- R334. -/
def execSeatRelease (t : Nat) (s : State) : Res := .next (if s.seatDone t then s.releaseSeat t else s)

end Sys2Proof.Machine
end

