-- ==== Sys2Proof/Machine/CopyEngine.lean ====
section
/-! DEFINITION. The copy engine's own steps: fetching, checking, registering and completing transfer records
(R309 to R321). -/

namespace Sys2Proof.Machine

open Sys2Proof

/-! ### Reading a record (R309, R310, R312) -/

/-- The word at a physical address as an engine reads it: at its home slice, with a registrant's word forwarded
(R314). -/
def State.engineWord (s : State) (pa : Nat) (cv : Option Nat) : Word := s.homeRead (pa / 4) cv

/-- Eight words of a record. -/
def State.engineWords (s : State) (pa n : Nat) (cv : Option Nat) : List Nat :=
  (List.range n).map (fun i => (s.engineWord (pa + 4 * i) cv).toNat)

/-- A 64-bit field of a record from its words. -/
def dwOf (l : List Nat) (i : Nat) : DWord := BitVec.ofNat 64 (l.getD i 0 + 2 ^ 32 * l.getD (i + 1) 0)

/-- A record's fields. -/
def parseRec (a : DWord) (l : List Nat) : CopyRec :=
  { addr := a, src := dwOf l 0, dst := dwOf l 2, bytes := l.getD 4 0, next := dwOf l 6
    flags := BitVec.ofNat 32 (l.getD 5 0) }

/-- The source lies in scratchpad (R310). -/
def CopyRec.fsp (r : CopyRec) : Bool := r.flags.getLsbD 1

/-- An address that a record may hold (R309). -/
def recAddrOk (sp : Bool) (a : DWord) : Bool := if sp then decide (a.toNat < 2 ^ 32) else canonA a

/-- Where a record's range begins: its space, its place in it. A scratchpad address is resolved, so that both its forms name
one place (R211). -/
def State.recPlace (s : State) (k : Chan) (sp : Bool) (a : DWord) : Option (Nat × Nat) :=
  if sp then s.spadAddr { seat := k.team } a.toNat else some (0, a.toNat)

/-- A record's source and destination overlap (R309). -/
def State.recOverlaps (s : State) (k : Chan) (r : CopyRec) : Bool :=
  r.fsp = r.tsp && (match s.recPlace k r.fsp r.src, s.recPlace k r.tsp r.dst with
    | some (t, a), some (u, b) => t = u && decide (a < b + r.bytes) && decide (b < a + r.bytes)
    | _, _ => false)

/-- The limits of R309 and R310. -/
def State.wellFormed (s : State) (k : Chan) (r : CopyRec) : Bool :=
  r.src.toNat % 4 = 0 && r.dst.toNat % 4 = 0 && r.bytes % 4 = 0 && decide (r.bytes ≤ 16777216)
    && r.flags.toNat < 8 && (r.next = 0 || (canonA r.next && r.next.toNat % 32 = 0))
    && recAddrOk r.fsp r.src && recAddrOk r.tsp r.dst && !(s.recOverlaps k r)

/-- The conversation a chain reads and writes for: its block's when it belongs to one (R319). -/
def State.chainConv (s : State) (k : Chan) (x : Chain) : Option Nat :=
  if x.level = 0 then none else some (teamConv s k.team)

/-- The hidden tag of a chain's writes (R319). -/
def State.chainHid (s : State) (k : Chan) (x : Chain) (w : Nat) : Option HidTag :=
  if x.level = 0 || !(s.isCell (4 * w)) then none
  else some { team := k.team, conv := teamConv s k.team, level := x.level }

/-- Every registration of a group on its way to a home is tested: an engine's access follows the accesses
before its command (R247). -/
def State.flushGroup (s : State) (g : Nat) : State := s.testAll (fun q => q.grp = g)

/-- An access that a chain follows has not been performed (R247). -/
def State.chainWaits (s : State) (x : Chain) : Bool :=
  s.regQ.any (fun q => q.grp = x.grp && !q.eng) || (match find s.groups x.grp with
    | some g => g.vv.own.serial = x.dot.serial && (s.ahead x.grp g).any (fun a => x.after.contains a)
    | none => false)

/-- The next record, fetched ahead, becomes the record at hand when the channel comes to it (R313). -/
def State.adoptNext (s : State) (c ch : Nat) : State :=
  let k := s.chan c ch
  match k.nrec, k.headq with
  | some r, x :: _ =>
    if r.addr = x.cur && k.crec.isNone then
      let co := s.core c
      let s := s.setCore c { co with locks := co.locks.map (fun l => if l.owner = .next ch then { l with owner := .chan ch } else l) }
      s.setChan c ch { k with crec := some r, nrec := none }
    else (s.unlock c (.next ch)).setChan c ch { s.chan c ch with nrec := none }
  | _, _ => s

/-- The running chain of a channel ends: its count retires and its batch may be done (R312, R316, R317). -/
def State.endRunning (s : State) (c ch : Nat) : State :=
  let k := s.chan c ch
  match k.headq with
  | [] => s
  | x :: r =>
    let s := s.retireChain x
    let k' := { k with headq := r, crec := none, wown := false }
    (s.setChan c ch { k' with done := chanDone k', st := if r.isEmpty then .idle else .running }).adoptNext c ch

/-- How the fetch of a record ends. -/
inductive FetchRes where
  | ok (s : State) (r : CopyRec)
  | wait (s : State)
  | bad (s : State)

/-- Reads the record at an address for a chain (R312, R313). Poison of its words is ignored. DESIGN CHOICE (log 119). -/
def State.readRec (s : State) (c : Nat) (k : Chan) (x : Chain) (a : DWord) : FetchRes :=
  if !(canonA a) || a.toNat % 32 ≠ 0 then .bad s
  else
    let s := s.flushGroup x.grp
    if s.chainWaits x then .wait s
    else
      match s.translate c (s.chanCtx k) a .read false with
      | .wait s => .wait s
      | .fault s => .bad s
      | .ok s pa _ => if s.poolTrap pa ≠ 0 then .bad s else .ok s (parseRec a (s.engineWords pa 8 (s.chainConv k x)))

/-- Fetches the record that the running chain names (R312, R313). -/
def State.fetchRec (s : State) (c ch : Nat) : State :=
  let k := s.chan c ch
  match k.headq with
  | [] => s
  | x :: _ =>
    if x.cur = 0 then s.endRunning c ch
    else match s.readRec c k x x.cur with
      | .wait s => s
      | .bad s => s.haltChan c ch 2 x.cur 0
      | .ok s r =>
        if r.flags.getLsbD 0 then s.setChan c ch { s.chan c ch with crec := some r, wown := false }
        else s.setChan c ch { s.chan c ch with wown := true }

/-- The chain and address of the record after the one in transfer: the chain's next, or the next chain's first. The record in
transfer itself is none: its OWN bit is still to be cleared (R312, R315). -/
def nextAfter (k : Chan) (r : CopyRec) : Option (Chain × DWord) :=
  let o := match k.headq with
    | [] => none
    | x :: l => if r.next ≠ 0 then some (x, r.next) else match l with
      | y :: _ => if y.cur = 0 then none else some (y, y.cur)
      | [] => none
  o.filter (fun e => e.2 ≠ r.addr)

/-- Fetches the next record during a transfer (R313, R322); one that cannot be fetched, or is not OWN, is left until the
channel comes to it. -/
def State.fetchNext (s : State) (c ch : Nat) (r : CopyRec) : State :=
  match nextAfter (s.chan c ch) r with
  | none => s
  | some (x, a) =>
    match s.readRec c (s.chan c ch) x a with
    | .ok s r => if r.flags.getLsbD 0 then s.setChan c ch { s.chan c ch with nrec := some r } else s
    | .wait s => s
    | .bad _ => s

/-- A `cpabort` of the team that holds a channel stops it, and awaits the words it has written (R328). -/
def State.stopping (s : State) (c ch : Nat) : Bool :=
  s.groups.any (fun e => coreOf e.1 = c && e.2.seat = (s.chan c ch).team && e.2.cpStop = some ch)

/-- Whether a channel walks its chains: it has one, was not squashed, and no drain limit of its team has passed (R321). -/
def State.chanRuns (s : State) (k : Chan) : Bool :=
  k.st = .running && !k.headq.isEmpty && !k.squash && (match (find s.teams k.team).bind (·.drain) with
    | some d => decide (s.tsc.toNat < d.toNat)
    | none => true)

/-- R312, R313: the record at hand is fetched, or during its transfer the next one. -/
def execCopyRecordFetch (c ch : Nat) (s : State) : Res :=
  let k := s.chan c ch
  .next (if !(s.chanRuns k) || s.stopping c ch || k.wown then s
    else match k.crec with
      | none => s.fetchRec c ch
      | some r => if r.reg && k.nrec.isNone then s.fetchNext c ch r else s)

/-- R312: the wait for OWN = 1 ends with another fetch. -/
def execCopyOwnRecheck (c ch : Nat) (s : State) : Res :=
  let k := s.chan c ch
  .next (if s.chanRuns k && !(s.stopping c ch) && k.crec.isNone && k.wown then s.fetchRec c ch else s)

/-! ### Checks and registration (R313) -/

/-- How the checks of a range end. -/
inductive RgChk where
  | ok (s : State)
  | wait (s : State)
  | bad (s : State) (code : Nat) (addr : DWord)

/-- The pages of a global range, each translated and permitted (R208, R313): `n` pieces from `va`.
DEDUCED (log 108). -/
def State.chkPages (s : State) (c ctx : Nat) (write : Bool) (va : DWord) (left : Nat) : Nat → RgChk
  | 0 => .ok s
  | n + 1 =>
    if left = 0 then .ok s
    else
      let m := Nat.min left (4096 - va.toNat % 4096)
      match s.translate c ctx va (if write then .write else .read) false with
      | .wait s => .wait s
      | .fault s => .bad s (if write then 4 else 3) va
      | .ok s pa _ =>
        if s.poolTrap pa = 0x14 then .bad s 6 va
        else if s.poolTrap pa ≠ 0 then .bad s (if write then 4 else 3) va
        else s.chkPages c ctx write (va + BitVec.ofNat 64 m) (left - m) n

/-- One range of a record: a global one must be canonical at both ends and translate; a scratchpad one must lie
in the named team's allocation (R313). The address of a failure is where the range starts, or the page that fails. DESIGN
CHOICE (log 120). -/
def State.chkRange (s : State) (c : Nat) (k : Chan) (write : Bool) (va : DWord) (n : Nat) : RgChk :=
  let last := va + BitVec.ofNat 64 (n - 1)
  if !(canonA last) || decide (last.toNat < va.toNat) then .bad s (if write then 4 else 3) va
  else s.chkPages c (s.chanCtx k) write va n (n / 4096 + 2)

/-- The scratchpad range of a record (R211, R313). -/
def State.recSpad (s : State) (k : Chan) (a : DWord) (n : Nat) : Option (Nat × Nat) :=
  s.spadRange { seat := k.team } a n

/-- The lock entry of one range of a record (R255). -/
def State.recLock (s : State) (k : Chan) (own : RlOwner) (sp write : Bool) (a : DWord) (n : Nat) : RangeLock :=
  let ctx := s.chanCtx k
  if sp then
    let (t, o) := (s.recSpad k a n).getD (0, 0)
    { sp := true, ctx := ctx, space := t, lo := o, hi := o + n, write := write, owner := own }
  else { sp := false, ctx := ctx, lo := a.toNat, hi := a.toNat + n, write := write, owner := own }

/-- The scratchpad ranges of a record are checked first, source then destination (R313). A record of no bytes has no range to
check. DESIGN CHOICE (log 147). -/
def State.chkSpads (s : State) (k : Chan) (r : CopyRec) : Option DWord :=
  if r.fsp && r.bytes ≠ 0 && (s.recSpad k r.src r.bytes).isNone then some r.src
  else if r.tsp && r.bytes ≠ 0 && (s.recSpad k r.dst r.bytes).isNone then some r.dst
  else none

/-- Both global ranges of a record (R313); a record of no bytes has none. DESIGN CHOICE (log 147). -/
def State.chkGlobals (s : State) (c : Nat) (k : Chan) (r : CopyRec) : RgChk :=
  match (if r.fsp || r.bytes = 0 then .ok s else s.chkRange c k false r.src r.bytes : RgChk) with
  | .ok s => if r.tsp || r.bytes = 0 then .ok s else s.chkRange c k true r.dst r.bytes
  | e => e

/-- How the registration of a record ends: registered, to be tried again, or a fault with its code and data address. -/
inductive RegRes where
  | ok (s : State)
  | wait (s : State)
  | bad (s : State) (code : Nat) (addr : DWord)

/-- The checks of a fetched record and the registration of its ranges for an owner, with the write-back of the lines it
covers (R313, R314). DEDUCED (log 89). -/
def State.tryRec (s : State) (c ch : Nat) (own : RlOwner) (r : CopyRec) : RegRes :=
  let k := s.chan c ch
  if !(s.wellFormed k r) then .bad s 1 0
  else
    match s.chkSpads k r with
    | some a => .bad s 5 a
    | none =>
      match s.chkGlobals c k r with
      | .wait s => .wait s
      | .bad s code a => .bad s code a
      | .ok s =>
        match s.tryLock c [s.recLock k own r.fsp false r.src r.bytes, s.recLock k own r.tsp true r.dst r.bytes] with
        | none => .wait s
        | some s =>
          let lo := r.dst.toNat
          .ok (if r.tsp || r.bytes = 0 then s
            else s.cleanLines c (s.rangeLines c (s.chanCtx k) lo (lo + r.bytes) ((lo + r.bytes - 1) / 4096 + 1 - lo / 4096)
              (lo / 4096)) true)

/-- Registers the record at hand; a fault halts the channel (R313, R318). -/
def State.registerRec (s : State) (c ch : Nat) (r : CopyRec) : State :=
  match s.tryRec c ch (.chan ch) r with
  | .ok s => s.setChan c ch { s.chan c ch with crec := some { r with reg := true }, again := false }
  | .wait s => s
  | .bad s code a =>
    let s := s.haltChan c ch code r.addr a
    s.setChan c ch { s.chan c ch with again := false }

/-- Registers the next record; a fault is left until the channel comes to it. -/
def State.registerNext (s : State) (c ch : Nat) (r : CopyRec) : State :=
  match s.tryRec c ch (.next ch) r with
  | .ok s => s.setChan c ch { s.chan c ch with nrec := some { r with reg := true } }
  | .wait s => s
  | .bad _ _ _ => s

/-- R313. -/
def execCopyRecordRegister (c ch : Nat) (s : State) : Res :=
  let k := s.chan c ch
  .next (if !(s.chanRuns k) || s.stopping c ch then s
    else match k.crec, k.nrec with
      | none, _ => s
      | some r, none => if r.reg then s else s.registerRec c ch r
      | some r, some n => if !r.reg then s.registerRec c ch r else if n.reg then s else s.registerNext c ch n)

/-! ### The transfer (R314, R315) -/

/-- How the transfer of one word ends. -/
inductive MvRes where
  | ok (s : State)
  /-- A replayable translation fault (R208). -/
  | wait (s : State)
  /-- A fault, with its code and the data address (R318). -/
  | bad (s : State) (code : Nat) (addr : DWord)
  /-- Sepia cannot hold the capture (R377). -/
  | full (s : State)

/-- After an engine's write of a word its core's L1 keeps no clean copy of it, and a hidden word of its own block that a hidden
write has replaced is renewed in its pinned line (R314, R381). -/
def State.afterEngine (s : State) (c w : Nat) (q : StoreReq) : State :=
  match s.l1At c w, q.hid with
  | none, _ => s
  | some y, some h =>
    if y.mask = 0 && !y.reg then s.delL1 c w
    else if tagged (tagOf h.team 0) y.hid && !((s.view w (some h.conv)).any y.fills) then s.unhide h.team w y
    else s
  | some y, none => if y.mask = 0 && !y.reg then s.delL1 c w else s

/-- One engine write of a global word with a chain's dot and vector (R278, R314), captured at the chain's level (R319): `none`
when the cell cannot hold it. -/
def State.engineStore (s : State) (c ch : Nat) (k : Chan) (x : Chain) (va : DWord) (pa : Nat) (v : Word) (pois rel : Bool) : MvRes :=
  let w := pa / 4
  let hid := s.chainHid k x w
  match (if x.level = 0 then some s else s.captureLineAt k.team x.level w hid.isSome) with
  | none => .full s
  | some s =>
    let s := if x.level = 0 then s else (s.noteWroteAt k.team x.level w).renewInside k.team x.level (.line (w / 32) []) w v
    let q : StoreReq := { core := c, grp := x.grp, w := w, va := va, val := v, dot := x.dot, vec := x.vec, rel := rel
                          hid := hid, eng := true, tag := ch, pois := pois }
    match s.storeAtHome q with
    | none => .bad s 7 va
    | some s => .ok (s.afterEngine c w q)

/-- Reads one source word: its value and poison (R314), or how its access fails (R318). A read of a record in transfer from a pool
region lost meanwhile completes with poison (R446). DEDUCED (log 89). -/
def State.sourceWord (s : State) (c : Nat) (k : Chan) (x : Chain) (r : CopyRec) (i : Nat) : MvRes × Word × Bool :=
  let va := r.src + BitVec.ofNat 64 (4 * i)
  if r.fsp then
    match (s.recSpad k va 4).bind (fun p => (find s.teams p.1).map (fun tm => (tm.spadWord p.2, tm.spadPois p.2 4))) with
    | some (v, p) => (.ok s, v, p)
    | none => (.bad s 5 va, 0, false)
  else
    match s.translate c (s.chanCtx k) va .read false with
    | .wait s => (.wait s, 0, false)
    | .fault s => (.bad s 3 va, 0, false)
    | .ok s pa _ =>
      if s.poolTrap pa = 0x14 then (.ok s.takeFree.2, Config.freeWord s.takeFree.1, true)
      else if s.poolTrap pa ≠ 0 then (.bad s 3 va, 0, false)
      else (.ok s, s.engineWord pa (s.chainConv k x), s.homePois (pa / 4) (s.chainConv k x))

/-- Writes one destination word (R314, R319), or how its access fails (R318). -/
def State.destWord (s : State) (c ch : Nat) (k : Chan) (x : Chain) (r : CopyRec) (i : Nat) (v : Word) (p : Bool) : MvRes :=
  let va := r.dst + BitVec.ofNat 64 (4 * i)
  if r.tsp then
    match s.recSpad k va 4 with
    | none => .bad s 5 va
    | some (t, o) =>
      match (if x.level = 0 then some s else s.captureSpadAt k.team x.level t [o]) with
      | none => .full s
      | some s =>
        let s := if x.level = 0 then s else s.renewInside k.team x.level (.spad t o 0) o v
        match find s.teams t with
        | none => .bad s 5 va
        | some tm =>
          let tm := tm.setSpad o 4 v.toNat
          .ok (s.setTeam t { tm with spadP := sset false tm.spadP (o / 4) p })
  else
    match s.translate c (s.chanCtx k) va .write false with
    | .wait s => .wait s
    | .fault s => .bad s 4 va
    | .ok s pa _ =>
      if s.poolTrap pa ≠ 0 then .bad s (if s.poolTrap pa = 0x14 then 6 else 4) va
      else s.engineStore c ch k x va pa v p false

/-- Moves `n` words of a record from index `i`: how it ends, and where. DESIGN CHOICE (log 34). -/
def State.moveWords (s : State) (c ch : Nat) (k : Chan) (x : Chain) (r : CopyRec) (i : Nat) : Nat → MvRes × Nat
  | 0 => (.ok s, i)
  | n + 1 =>
    match s.sourceWord c k x r i with
    | (.ok s, v, p) =>
      (match s.destWord c ch k x r i v p with
       | .ok s => s.moveWords c ch k x r (i + 1) n
       | e => (e, i))
    | (e, _, _) => (e, i)

/-- The vector of the write that clears OWN: the commanding group's with the write's dot (R315). -/
def ownVec (x : Chain) : VVec := storeVec x.vec x.dot

/-- The end of a record whose words are written and performed (R315): its ranges are released, OWN is cleared as a release at
dev scope, and the chain goes on at its next record. DEDUCED (log 35). A flags word that cannot be written halts the channel with
code 2. DESIGN CHOICE (log 145). -/
def State.finishRec (s : State) (c ch : Nat) (k : Chan) (x : Chain) (rest : List Chain) (r : CopyRec) : State :=
  match s.translate c (s.chanCtx k) (r.addr + 0x14) .write false with
  | .wait s => s
  | .fault s => s.haltChan c ch 2 r.addr 0
  | .ok s pa _ =>
    let x := { x with vec := ownVec x }
    if s.poolTrap pa ≠ 0 then s.haltChan c ch 2 r.addr 0
    else
    match (s.unlock c (.chan ch)).engineStore c ch k x (r.addr + 0x14) pa (r.flags &&& ~~~1) false true with
    | .full s => s.failAlt k.team x.level 6 0 x.gid
    | .bad s code a => s.haltChan c ch code r.addr a
    | .wait s => s
    | .ok s =>
      let s := s.setChan c ch { s.chan c ch with headq := { x with cur := r.next } :: rest, crec := none }
      if r.next = 0 then s.endRunning c ch else s.adoptNext c ch

/-- A record's transfer goes on (R314, R315): its words are moved, and once the host has acknowledged those it received the
record ends. -/
def State.completeRec (s : State) (c ch : Nat) (r : CopyRec) : State :=
  let k := s.chan c ch
  let n := r.bytes / 4
  match k.headq with
  | [] => s
  | x :: rest =>
    if r.pos < n then
      match s.moveWords c ch k x r r.pos (n - r.pos) with
      | (.bad s code a, _) => s.haltChan c ch code r.addr a
      | (.full s, _) => s.failAlt k.team x.level 6 0 x.gid
      | (.wait s, i) => s.setChan c ch { s.chan c ch with crec := some { r with pos := i } }
      | (.ok s, _) =>
        let r := { r with pos := n, host := if r.tsp then [] else s.hostWords c (s.chanCtx k) r.dst n }
        if r.host.isEmpty then s.finishRec c ch (s.chan c ch) x rest r else s.setChan c ch { s.chan c ch with crec := some r }
    else if s.awaits x.grp r.host then s
    else s.finishRec c ch k x rest r

/-- R315. -/
def execCopyRecordComplete (c ch : Nat) (s : State) : Res :=
  let k := s.chan c ch
  match k.crec with
  | none => .next s
  | some r => .next (if s.chanRuns k && !(s.stopping c ch) && r.reg then s.completeRec c ch r else s)

/-! ### The drain limit (R321) -/

/-- A record in transfer is abandoned: its ranges are released and it will be performed again from its first word (R321). -/
def State.squashChan (s : State) (c ch : Nat) : State :=
  let s := (s.unlock c (.chan ch)).unlock c (.next ch)
  let k := s.chan c ch
  s.setChan c ch { k with squash := true, nrec := none, again := k.again || k.crec.any (·.reg), crec := k.crec.map (fun r => { r with reg := false, pos := 0, host := [] }) }

/-- R321: time reaches the drain limit of a team under pre-emption. As an event of its own it sets the timestamp counter forward to
the limit. DESIGN CHOICE (log 170). -/
def execCopyDrainExpiry (c ch : Nat) (s : State) : Res :=
  let k := s.chan c ch
  match (find s.teams k.team).bind (·.drain) with
  | none => .next s
  | some d =>
    if k.st = .free || teamCore k.team ≠ c then .next s
    else
      let s1 : State := { s with tsc := if s.tsc.toNat < d.toNat then d else s.tsc }
      .next (s1.squashChan c ch)

end Sys2Proof.Machine
end

