-- ==== Sys2Proof/Machine/Suspend.lean ====
section
/-! DEFINITION. Pre-emption, saved images and restore (R321, R392, R419 to R421). -/

namespace Sys2Proof.Machine

open Sys2Proof

/-! ### Stopping and saving (R419) -/

/-- The teams that pre-emption of a team acts on: the seated teams of its instance (R419). -/
def State.preemptSet (s : State) (t : Nat) : List Nat :=
  match find s.teams t with
  | none => []
  | some tm =>
    match find s.insts tm.inst with
    | none => [t]
    | some i =>
      let l := i.teams.filter (fun u => match find s.teams u with | some v => v.inst = tm.inst | none => false)
      if l.contains t then l else [t]

/-- A member goes back to the start of level 1's current alternate (R392). -/
def restartMember (l : Level) (k : Nat) (g : Group) : Group :=
  if l.alt = 0 then
    match find l.frames k with
    | some f => { g with pc := f.pc, disp := f.disp }
    | none => g
  else { g with pc := l.alts.getD (l.alt - 1) g.pc, disp := true }

/-- Level 1's current alternate is rolled back with no failure counted, and starts again (R392). -/
def State.rewind (s : State) (t : Nat) : State :=
  let s := s.rollTo t 1
  match (find s.teams t).bind (fun tm => tm.levels.head?) with
  | none => s
  | some l =>
    let s := match find s.teams t with
      | some tm => s.setTeam t { tm with passed := false, stop := none }
      | none => s
    { s with groups := s.groups.map (fun e => if e.2.seat = t then (e.1, restartMember l e.1 e.2) else e) }

/-- The entry of a trap is given up before its handler is entered: a held trap stays pending, and an instruction that raised one
runs again with what it had kept (R419). -/
def Group.dropEntry (g : Group) : Group :=
  match g.entry with
  | none => g
  | some e => { g.resume (g.spcOf e) with entry := none }

/-- A group stops: a trap's entry is given up, its wait is abandoned, a nap is complete when it returns (R367, R419), and an entry handed to its pop
stays its own (R356). -/
def stopGroup (g : Group) : Group :=
  let g := g.dropEntry
  let g := if g.nap.isSome then g.next else g
  { g.abandon with stopReq := true }

/-- One team stops: its open blocks and those of its conversation are rolled back, its waits are abandoned, and
its channels begin to drain (R321, R392, R419 steps 1 to 3). The waiters of its queues keep their order (R356). -/
def State.stopTeam (s : State) (t : Nat) : State :=
  match find s.teams t with
  | none => s
  | some tm =>
    if tm.drain.isSome then s
    else
      let s := if tm.levels.isEmpty then s else (s.partners t 1).foldl (fun s u => s.rewind u) (s.rewind t)
      let s := ((s.members t).map (·.1)).foldl (fun s k => (s.unrequest k).unreserve k) s
      let s := s.mapMembers t stopGroup
      let lim := (s.core (teamCore t)).cpcfg.toNat
      let s := match find s.teams t with
        | some tm => s.setTeam t { tm with drain := some (s.tsc + BitVec.ofNat 64 (1000 * lim)) }
        | none => s
      if lim = 0 then
        (s.core (teamCore t)).chans.foldl (fun s e => if chanHeld e.2 t then s.squashChan (teamCore t) e.1 else s) s
      else s

/-- The chains of a team's channels have ended or were squashed (R321). -/
def State.drained (s : State) (t : Nat) : Bool :=
  (s.core (teamCore t)).chans.all (fun e => !(chanHeld e.2 t) || e.2.headq.isEmpty || e.2.squash)

/-- The streams of a team inside a block and those of its conversation's blocks stop for the pre-emption of team `p`, and parked
stores of the blocks are discarded (R385, steps 1 to 3, R392). -/
def State.haltBlocks (s : State) (p t : Nat) : State :=
  match find s.teams t with
  | none => s
  | some tm =>
    if tm.levels.isEmpty then s
    else (t :: s.partners t 1).foldl (fun s u =>
      ({ s with teams := upd s.teams u (fun x => { x with stop := some p }) } : State).dropParked u 1) s

/-- A failure of a team or of its conversation waits for its rollback, or a member inside a block cannot stop yet. -/
def State.unready (s : State) (t : Nat) : Bool :=
  match find s.teams t with
  | none => false
  | some tm => tm.fail.isSome || (s.partners t 1).any (fun u => ((find s.teams u).bind (·.fail)).isSome) || (!tm.levels.isEmpty && !(s.canRoll t && (s.partners t 1).all s.canRoll))

/-- An operand queue as it is saved: its buffered entries are discarded, to be fetched again (R237). -/
def saveQueue (gw : Nat) (q : OpQueue) : OpQueue :=
  { q with entries := [], slots := 0, nextE := q.popE, wait := none, left := []
           st := if q.st = .exhausted && decide (q.popE < patEntries q.pat gw) then .running else q.st }

/-- A group as it is saved (R420). DEDUCED (log 37). -/
def saveGroup (k : Nat) (g : Group) : Group :=
  { g with winS := [], winL := [], wf := {}, stopReq := false, fbuf := [], rdyS := none, rdyL := none
           opq := g.opq.map (fun e => (e.1, saveQueue g.gw e.2))
           frameK := if g.tclass then some (g.frameK.getD k) else none
           spillK := if g.spill = 0 then none else some (g.spillSlot k) }

/-- Bytes of a team's image (R420): 256 of header, 4,096 of its own, the scratchpad, and each group. -/
def imageBytes (tm : Team) (gs : List (Nat × Group)) : Nat :=
  4352 + roundUp tm.spadB 65536 + (gs.map (fun e => 16384 + e.2.allot * e.2.gw * 4)).sum

/-- Another name for a team key, in watches and conversations (R342, R388). DESIGN CHOICE (log 39). -/
def State.renameTeam (s : State) (t u core : Nat) : State :=
  { s with
    slices := s.slices.map (fun e => (e.1, { e.2 with watches := e.2.watches.map (fun w =>
      if w.2.team = t then (w.1, { w.2 with team := u, core := core }) else w) }))
    convs := s.convs.map (fun e => (e.1, { e.2 with teams := e.2.teams.map (fun x => if x = t then u else x) })) }

/-- Stands for a group of a saved team in host calls and acknowledgements while it is saved. DESIGN CHOICE (log 39). -/
def savedKey (uid k : Nat) : Nat := 2 ^ 21 + 128 * uid + k % 128

/-- Other keys for groups in host calls and acknowledgements. -/
def State.renameGroups (s : State) (m : List (Nat × Nat)) : State :=
  { s with hcalls := s.hcalls.map (fun e => (e.1, (find m e.2).getD e.2))
           acks := s.acks.map (fun a => { a with grp := (find m a.grp).getD a.grp }) }

/-- Saves a stopped team and releases its seat; its watches stay armed, and a `cpgo` that waits for one of its channels
takes it (R308, R419 steps 5 and 6). -/
def State.saveTeam (s : State) (t : Nat) : State :=
  match find s.teams t with
  | none => s
  | some tm =>
    let c := teamCore t
    let ks := (s.members t).map (·.1)
    let gs := s.members t
    let co := s.core c
    let uid := 4096 + s.nextUid
    let lv := tm.levels.map (fun l => { l with caps := [], wrote := [], spent := 0 })
    let sv : Saved :=
      { pos := tm.pos, key := t, uid := uid, inst := tm.inst
        instR := (find s.insts tm.inst).getD { launch := tm.launch }
        team := { tm with drain := none, saver := none, levels := lv }
        groups := gs.map (fun e => (e.1, saveGroup e.1 e.2))
        chans := co.chans.filter (fun e => chanHeld e.2 t)
        gathers := co.gathers.filter (fun e => e.2.team = t)
        replay := co.replay.filter (fun p => ks.contains p.grp) }
    let mine (x : RangeLock) : Bool :=
      match x.owner with
      | .chan ch => chanHeld (sget {} co.chans ch) t
      | .next ch => chanHeld (sget {} co.chans ch) t
      | .watch h => s.slices.any (fun e => e.2.watches.any (fun w => watchKey e.1 w.1 = h && w.2.team = t))
      | .queue g _ => ks.contains g
      | .bank g => ks.contains g
    let s := (s.dropCreates c t).setCore c { co with
      locks := co.locks.filter (fun x => !(mine x))
      gathers := co.gathers.filter (fun e => e.2.team ≠ t)
      replay := co.replay.filter (fun p => !(ks.contains p.grp))
      idleT := s.tsc }
    let s := ((s.freeChans c t).renameTeam t uid c).renameGroups (ks.map (fun k => (k, savedKey uid k)))
    { s with
      groups := s.groups.filter (fun e => e.2.seat ≠ t)
      teams := (del s.teams t).map (fun e => (e.1, e.2.unsave ks))
      saved := s.saved ++ [sv]
      nextUid := s.nextUid + 1 }

/-- Pre-emption of a team's instance as far as it can go now (R419): it answers whether the instance is saved. A store whose test
fails and that finds the replay queue full holds the save up until it is parked (R210). DEDUCED (log 36). -/
def State.preemptTeam (s : State) (t : Nat) : State × Bool :=
  let ts := s.preemptSet t
  let s := ts.foldl (fun s u => s.haltBlocks t u) s
  if ts.isEmpty || ts.any s.unready then (s, false)
  else
    let s := ts.foldl (fun s u => s.stopTeam u) s
    if ts.all s.drained && ts.all (fun u => (s.members u).all (fun e => !e.2.unsettled
        && s.acks.all (fun a => a.grp ≠ e.1 || !a.unc))) then
      let ks := ts.flatMap (fun u => (s.members u).map (·.1))
      let s := ks.foldl (fun s k => s.quietGroup k) s
      if s.regQ.any (fun q => ks.contains q.grp) then (s, false)
      else
        let inst := ((find s.teams t).map (·.inst)).getD 0
        let s := ts.foldl (fun s u => s.saveTeam u) s
        ({ s with insts := s.insts.filter (fun e => e.1 ≠ inst) }, true)
    else (s, false)

/-- The command processor's pre-emption: a save that a resident group's `ctxsv` has begun is left to it (R419, R436). -/
def State.cpPreempt (s : State) (t : Nat) : State :=
  if (s.preemptSet t).any (fun u => ((find s.teams u).bind (·.saver)).isSome) then s else (s.preemptTeam t).1

/-- R419. -/
def execPreempt (t : Nat) (s : State) : Res := .next (s.cpPreempt t)

/-! ### Restore (R421) -/

/-- The new name of a key. -/
def renOf (m : List (Nat × Nat)) (k : Nat) : Nat := (find m k).getD k

/-- Places the groups of a saved team on a core; the names that their keys take (R331, R421). -/
def State.placeSaved (s : State) (t : Nat) : List (Nat × Group) → List (Nat × Nat) → Option (State × List (Nat × Nat))
  | [], m => some (s, m)
  | (k, g) :: r, m =>
    let c := teamCore t
    match s.place c g.gw g.allot none, s.freeEntry c with
    | some (p, o), some e =>
      let n := 128 * c + e
      let s : State := { s with groups := put s.groups n { g with seat := t, pipe := p, soff := o } }
      s.placeSaved t r (m ++ [(k, n)])
    | _, _ => none

/-- A team's state under new group keys. -/
def renTeam (m : List (Nat × Nat)) (tm : Team) : Team :=
  { tm with
    bars := tm.bars.map (fun e => (e.1, { e.2 with wait := [], members := e.2.members.map (renOf m) }))
    nqs := tm.nqs.map (fun e => (e.1, { e.2 with pushers := e.2.pushers.map (renOf m), poppers := e.2.poppers.map (renOf m) }))
    levels := tm.levels.map (fun l => { l with frames := l.frames.map (fun f => (renOf m f.1, f.2)) }) }

/-- A channel's chains under new keys; a squashed record is to be registered again and performed again (R321). -/
def renChan (m : List (Nat × Nat)) (t : Nat) (k : Chan) : Chan :=
  { k with team := t, squash := false, headq := k.headq.map (fun x => { x with grp := renOf m x.grp }) }

/-- Registers the range of each running operand queue of a group and takes its slots (R235, R237). -/
def State.restoreQueues (s : State) (k : Nat) : List (Nat × OpQueue) → Option State
  | [] => some s
  | (q, o) :: r =>
    if o.st ≠ .running then s.restoreQueues k r
    else
      match find s.groups k with
      | none => some s
      | some g =>
        let need := if g.gw = 64 then 16 else 8
        match s.patLock k g (BitVec.ofNat 3 q) o.pat with
        | .error _ => s.restoreQueues k r
        | .ok l =>
          if 256 < s.slotsUsed k g + need then none
          else match s.tryLock (coreOf k) [l] with
            | none => none
            | some s =>
              let s : State := { s with groups := upd s.groups k (fun g =>
                g.setQueue (BitVec.ofNat 3 q) { o with slots := need }) }
              s.restoreQueues k r

/-- Registers the write ranges of a team's armed watches again (R255, R342). -/
def State.lockWatches (s : State) (c t : Nat) : Option State :=
  let ls := s.slices.flatMap (fun e => (e.2.watches.filter (fun w => w.2.team = t && w.2.armed)).map (fun w =>
    ({ sp := false, ctx := w.2.ctx, lo := w.2.va.toNat, hi := w.2.va.toNat + w.2.len, write := true
       owner := .watch (watchKey e.1 w.1) } : RangeLock)))
  s.tryLock c ls

/-- Hardware that a saved team needs is free on a core: its channels, gather slots, barriers, queues, replay
entries, and Sepia's granules for level 1's frames (R308, R338, R353, R356, R392). -/
def State.roomFor (s : State) (c : Nat) (sv : Saved) : Bool :=
  let co := s.core c
  sv.chans.all (fun e => (sget {} co.chans e.1).st = .free)
    && decide (co.gathers.length + sv.gathers.length ≤ 8)
    && decide (s.barsUsed c + sv.team.bars.length ≤ 64) && decide (s.nqsUsed c + sv.team.nqs.length ≤ 32)
    && decide (co.replay.length + sv.replay.length ≤ 32)
    && decide (teamGran sv.team ≤ s.quota c) && decide (s.coreGran c + teamGran sv.team ≤ 16384)

/-- Puts gathers into free slots. -/
def putGathers (m : List (Nat × Gather)) (t : Nat) : List (Nat × Gather) → List (Nat × Gather)
  | [] => m
  | (_, h) :: r => putGathers (put m (freshFrom (m.map (·.1)) 8 0) { h with team := t }) t r

/-- Reloads one saved team on a core (R421); its seat and the names of its groups, or `none` when it must wait. -/
def State.restoreTeam (s : State) (sv : Saved) (c inst : Nat) : Option (State × Nat × List (Nat × Nat)) :=
  match s.freeSeat c with
  | none => none
  | some t =>
    if !(s.seatFree c sv.team.spadB) || !(s.roomFor c sv) then none
    else
      let s := s.setCore c { s.core c with gated := false }
      let s := s.setTeam t { sv.team with inst := inst }
      match (s.shrinkL1 c (s.l1Cap c) (linesOf (s.core c).l1).length).placeSaved t sv.groups [] with
      | none => none
      | some (s, m) =>
        let s := s.setTeam t (renTeam m { sv.team with inst := inst })
        let s := (s.renameTeam sv.uid t c).dropStale c
        let co := s.core c
        let s := s.setCore c { co with
          chans := sv.chans.foldl (fun l e => sset {} l e.1 (renChan m t e.2)) co.chans
          gathers := putGathers co.gathers t sv.gathers
          replay := co.replay ++ sv.replay.map (fun p => { p with grp := renOf m p.grp }) }
        let s := sv.groups.foldl (fun s e => s.takeSerial e.2.vv.own.serial) s
        some ((s.renameGroups (m.map (fun e => (savedKey sv.uid e.1, e.2)))).joinRound t, t, m)

/-- Registers again what a restored team's queues and watches held, before any of its groups issues (R237, R342); `none` when
a registration must wait. Its channels register their abandoned records before a group of it issues (R321). -/
def State.resumeTeam (s : State) (t : Nat) (m : List (Nat × Nat)) : Option State :=
  let c := teamCore t
  match s.lockWatches c t with
  | none => none
  | some s =>
    m.foldl (fun (o : Option State) e => o.bind (fun s => match find s.groups e.2 with
      | none => some s
      | some g => s.restoreQueues e.2 g.opq)) (some s)

/-- Reloads the teams of a save, each at its position of the rectangle. -/
def State.restoreAll (s : State) (cs : List Nat) (inst : Nat) : List Saved → List (Nat × Nat) → List (Nat × Nat) →
    Option (State × List (Nat × Nat) × List (Nat × Nat))
  | [], ts, m => some (s, ts, m)
  | sv :: r, ts, m =>
    match cs[sv.pos]? with
    | none => none
    | some c =>
      match s.restoreTeam sv c inst with
      | none => none
      | some (s, t, m') => s.restoreAll cs inst r (ts ++ [(sv.key, t)]) (m ++ m')

/-- Registers again for each team of a save. -/
def State.resumeAll (s : State) (ts m : List (Nat × Nat)) : List Saved → Option State
  | [] => some s
  | sv :: r =>
    match s.resumeTeam (renOf ts sv.key) (m.filter (fun e => sv.groups.any (fun g => g.1 = e.1))) with
    | none => none
    | some s => s.resumeAll ts m r

/-- Restores the teams of a save under instance `inst`, with position 0 on core `c` (R421): the seat of position 0 or of the first
team, or `none` when it must wait. -/
def State.restoreList (s : State) (l : List Saved) (inst c : Nat) : Option (State × Nat) :=
  let i := (l.head?.map (·.instR)).getD { launch := 0 }
  match rectOf c i.rows i.cols with
  | none => none
  | some cs =>
    match s.restoreAll cs inst l [] [] with
    | none => none
    | some (s, ts, m) =>
      let cb := i.cbars.map (fun e => (e.1, { e.2 with arrd := e.2.arrd.map (renOf m) }))
      let i' := { i with teams := i.teams.map (renOf ts), cbars := cb }
      let s : State := { s with insts := put s.insts inst i' }
      (s.resumeAll ts m l).map (fun s => (s, ((ts.head?).map (·.2)).getD 0))

/-- Restores the save that a saved team belongs to (R421). -/
def State.restoreSave (s : State) (sv : Saved) (c : Nat) : Option (State × Nat) :=
  let s1 : State := { s with saved := s.saved.filter (fun x => x.inst ≠ sv.inst) }
  s1.restoreList (s.saved.filter (fun x => x.inst = sv.inst)) sv.inst c

/-- A saved team as an image of it is restored once more: it has left its conversation, and its launch counts it again. -/
def State.recall (s : State) (l : List Saved) : State × List Saved :=
  let s := l.foldl (fun (s : State) v => { s with launches := upd s.launches v.team.launch (fun L => { L with left := L.left + 1 }) }) s
  (s, l.map (fun v => { v with team := { v.team with conv := v.team.conv.filter (fun c =>
    ((find s.convs c).map (fun x => x.teams.contains v.uid)).getD false) } }))

/-- Restores the save that a list of images holds: the save that stands, or one that was restored before (R437).
DESIGN CHOICE (log 155). -/
def State.restoreImages (s : State) (l : List Saved) (c : Nat) : Option (State × Nat) :=
  match l.findSome? (fun v => s.saved.find? (fun x => x.uid = v.uid)) with
  | some sv => s.restoreSave sv c
  | none =>
    let inst := s.nextUid
    let (s, l) := s.recall l
    ({ s with nextUid := inst + 1 } : State).restoreList l inst c

/-- R421. -/
def execRestore (n c : Nat) (s : State) : Res :=
  match s.saved[n]? with
  | none => .next s
  | some sv =>
    match s.restoreSave sv c with
    | none => .next s
    | some (s, _) => .next s

end Sys2Proof.Machine
end

