-- ==== Sys2Proof/Machine/Operands.lean ====
section
/-! DEFINITION. What lane instructions share: active lanes, operand-queue pops, source operands of every kind, and
how a lane instruction completes (R40 to R44, R78, R115, R116, R140, R231 to R236). -/

namespace Sys2Proof.Machine

open Sys2Proof

/-! ### Lanes (R44, R78, R140) -/

/-- Lanes selected by a km field (R44). -/
def kmMask (g : Group) : Km → DWord
  | .all => BitVec.allOnes 64
  | .on k => g.k k
  | .off k => ~~~(g.k k)

/-- `execs(g)` of an entry (R140). -/
def execsOf (g : Group) (e : LaneEntry) : DWord := g.k0 &&& e.top &&& g.wMask

/-- `active(g)` of an entry (R78). -/
def activeOf (g : Group) (e : LaneEntry) (km : Km) : DWord := execsOf g e &&& kmMask g km

/-- The lanes of a mask, rising. -/
def lanesOf (m : DWord) : List Nat := bitsSet m.toNat 64

/-! ### Operand-queue pops (R41, R233, R236) -/

/-- The queue that a source names. -/
def srcQueue : Src → List QReg
  | .q i => [i]
  | _ => []

/-- The queues that an instruction names, each once (R41). -/
def queuesOf (o : LaneOp) : List QReg := (srcQueue o.a ++ srcQueue o.b ++ srcQueue o.c).dedup

/-- What pops deliver. -/
inductive PopRes where
  | ok (heads : List (QReg × QEntry))
  /-- A running queue has no entry yet. -/
  | wait
  | under (q : QReg)
  | mark (m : Mark)

/-- The head entries of the named queues (R233, R236). -/
def popHeads (g : Group) : List QReg → PopRes
  | [] => .ok []
  | q :: r =>
    let k := g.queue q
    match k.st, k.entries with
    | .running, [] => .wait
    | .running, e :: _ => (match e.mark with
        | some m => .mark m
        | none => match popHeads g r with
          | .ok l => .ok ((q, e) :: l)
          | x => x)
    | .exhausted, e :: _ => (match e.mark with
        | some m => .mark m
        | none => match popHeads g r with
          | .ok l => .ok ((q, e) :: l)
          | x => x)
    | _, _ => .under q

/-- Removes the head entries of the named queues. -/
def popQueues (g : Group) (qs : List QReg) : Group :=
  qs.foldl (fun g q => g.setQueue q { g.queue q with entries := (g.queue q).entries.tail, popE := (g.queue q).popE + 1 }) g

/-- An exhausted queue whose last entry has been popped releases its range (R232). -/
def State.releasePopped (s : State) (k : Nat) (qs : List QReg) : State :=
  match find s.groups k with
  | none => s
  | some g => qs.foldl (fun s q =>
      let o := g.queue q
      if o.st = .exhausted && o.entries.isEmpty then s.unlock (coreOf k) (.queue k q.toNat) else s) s

/-! ### The instruction at the head of the lane queue -/

/-- A lane instruction's operands as it executes: the group before it, its entry, its fields and the entries it
pops. -/
structure LaneIn where
  g     : Group
  e     : LaneEntry
  o     : LaneOp
  heads : List (QReg × QEntry)
  deriving DecidableEq, Repr

/-- `active(g)`, or `members(g)` of a cross-lane instruction. -/
def LaneIn.act (i : LaneIn) : DWord := activeOf i.g i.e i.o.km

/-- `execs(g)`. -/
def LaneIn.execs (i : LaneIn) : DWord := execsOf i.g i.e

/-- The active lanes, rising. -/
def LaneIn.lanes (i : LaneIn) : List Nat := lanesOf i.act

/-- The element of a queue's popped entry in a lane. -/
def LaneIn.popped (i : LaneIn) (q : QReg) (l : Nat) : Word :=
  match i.heads.find? (fun e => e.1 = q) with
  | some e => e.2.vals.getD l 0
  | none => 0

/-- An immediate of a type narrower than 32 bits stands in every element (R42). -/
def spread (w v : Nat) : Word := (List.range (32 / w)).foldl (fun p e => putN w p e v) 0

/-- The value of a kind-3 source (R42). -/
def immWord (t : Ty) (imm : BitVec 20) : Word :=
  match t with
  | .i16 => spread 16 (imm.toInt % 2 ^ 16).toNat
  | .n16 => spread 16 imm.toNat
  | .i8 => spread 8 (imm.toInt % 2 ^ 8).toNat
  | .n8 => spread 8 imm.toNat
  | .i4 => spread 4 (imm.toInt % 2 ^ 4).toNat
  | .i2 => spread 2 (imm.toInt % 2 ^ 2).toNat
  | .n32 => imm.zeroExtend 32
  | .f32 => imm.zeroExtend 32 <<< 12
  | .f16 => spread 16 imm.toNat
  | .bf16 => spread 16 imm.toNat
  | .e4m3 => spread 8 imm.toNat
  | .e5m2 => spread 8 imm.toNat
  | _ => imm.signExtend 32

/-- The 32-bit operand that a source delivers to a lane (R40 to R42); `bc` is the field's broadcast value. -/
def LaneIn.src (i : LaneIn) (t : Ty) (s : Src) (bc : DWord) (l : Nat) : Word :=
  match s with
  | .v r => i.g.v r.toNat l
  | .q r => i.popped r l
  | .x _ => bc.truncate 32
  | .lid => BitVec.ofNat 32 l
  | .imm => immWord t i.o.imm

/-- The 64-bit operand that a source delivers to a lane (R40, R42). DEDUCED (log 107). -/
def LaneIn.src64 (i : LaneIn) (s : Src) (bc : DWord) (l : Nat) : DWord :=
  match s with
  | .v r => i.g.v (r.toNat + 1) l ++ i.g.v r.toNat l
  | .q r => (i.popped r l).zeroExtend 64
  | .x _ => bc
  | .lid => BitVec.ofNat 64 l
  | .imm => i.o.imm.signExtend 64

/-- Source a in a lane. -/
def LaneIn.a (i : LaneIn) (t : Ty) (l : Nat) : Word := i.src t i.o.a i.e.bca l

/-- Source b in a lane. -/
def LaneIn.b (i : LaneIn) (t : Ty) (l : Nat) : Word := i.src t i.o.b i.e.bcb l

/-- Source c in a lane. -/
def LaneIn.c (i : LaneIn) (t : Ty) (l : Nat) : Word := i.src t i.o.c i.e.bcc l

/-- The destination register's number. -/
def LaneIn.vd (i : LaneIn) : Nat := i.o.d.toNat

/-- A group after its head lane instruction: the entry, the popped queue heads and a row of the wait-for table that
the lane stream wrote are gone (R349). DESIGN CHOICE (log 168). -/
def Group.laneNext (g : Group) (qs : List QReg) : Group :=
  popQueues { g with laneQ := g.laneQ.tail
                     wf := if g.wf.kind = 7 || g.wf.kind = 15 then {} else g.wf } qs

/-- The state after a lane instruction: `f` changes its group, its queues are popped, poisoned elements are consumed. -/
def LaneIn.after (i : LaneIn) (s : State) (f : Group → Group) : State :=
  let qs := i.heads.map (·.1)
  let s : State := { s with groups := upd s.groups s.cur (fun g => (f g).laneNext qs) }
  (s.releasePopped s.cur qs).consumeIf s.cur (i.heads.any (fun e => e.2.pois))

/-- A lane instruction completes. -/
def LaneIn.done (i : LaneIn) (s : State) (f : Group → Group) : Res := .next (i.after s f)

/-- A lane instruction raises a precise trap: it has no effect (R49). -/
def LaneIn.raise (i : LaneIn) (s : State) (num : BitVec 8) (addr info : DWord) : Res :=
  raiseLane s i.g i.e num addr info

/-- Executes the lane instruction at the head of the acting group's lane queue. -/
def withLane (s : State) (o : LaneOp) (f : LaneIn → Res) : Res :=
  withG s (fun g =>
    match g.laneQ with
    | [] => .fault .noLaneEntry
    | e :: _ =>
      match popHeads g (queuesOf o) with
      | .ok h => f { g := g, e := e, o := o, heads := h }
      | .wait => .next s
      | .under q => raiseLane s g e 0x19 0 (q.zeroExtend 64)
      | .mark m => raiseLane s g e m.num m.addr m.info)

/-- Writes one register in each lane of a mask. -/
def Group.setLanes (g : Group) (r : Nat) (m : DWord) (f : Nat → Word) : Group :=
  (lanesOf m).foldl (fun g l => g.setV r l (f l)) g

/-- A lane instruction that writes vd in each active lane from that lane's operands (R116). -/
def perLane (s : State) (o : LaneOp) (f : LaneIn → Nat → Word) : Res :=
  withLane s o (fun i => i.done s (fun g => g.setLanes i.vd i.act (f i)))

/-- A lane instruction that writes a mask register from a bit per active lane (R131). -/
def perLaneMask (s : State) (o : LaneOp) (f : LaneIn → Nat → Bool) : Res :=
  withLane s o (fun i => i.done s (fun g =>
    g.setK (BitVec.ofNat 3 i.vd) (maskOf (i.lanes.filter (f i)))))

/-- The old value of vd in a lane. -/
def LaneIn.old (i : LaneIn) (l : Nat) : Word := i.g.v i.vd l

/-- Whether the decision queue has room for one entry (R99). -/
def LaneIn.canPush (i : LaneIn) : Bool := decide (i.g.decQ.length < 64)

/-- A lane instruction that pushes one decision-queue entry: with the queue full it waits at the head (R98,
R99). -/
def LaneIn.push (i : LaneIn) (s : State) (v : DWord) : Res :=
  if i.canPush then i.done s (fun g => { g with decQ := g.decQ ++ [v] }) else .next s

end Sys2Proof.Machine
end

