-- ==== Sys2Proof/Machine/LaneAccess.lean ====
section
/-! DEFINITION. What matrix, narrow and lane memory instructions share: issuing octets, checks of scratchpad areas,
updates of scratchpad words, and how a load completes (R147, R154, R170, R180, R217). -/

namespace Sys2Proof.Machine

open Sys2Proof

/-! ### Loads -/

/-- A register write of a load in flight. -/
def Group.apply (g : Group) : RegWrite → Group
  | .x i v => g.setX (BitVec.ofNat 6 i) v
  | .v i l w => g.setV i l w

/-- What a load reads on one path: its register writes, poison, and physical words. -/
structure LoadPart where
  path  : Path
  ws    : List RegWrite
  pois  : Bool := false
  words : List Nat := []
  atoms : List AtomReq := []
  deriving DecidableEq, Repr, Inhabited

/-- Adds one access to the parts, one part to each path (R216, R226). -/
def addPart (x : LoadPart) : List LoadPart → List LoadPart
  | [] => [x]
  | y :: r =>
    if y.path = x.path then
      { path := y.path, ws := y.ws ++ x.ws, pois := y.pois || x.pois, words := y.words ++ x.words,
        atoms := y.atoms ++ x.atoms } :: r
    else y :: addPart x r

/-- The parts of a list of accesses. -/
def partsOf (l : List LoadPart) : List LoadPart := l.foldl (fun ps x => addPart x ps) []

/-- Counts one access on each path touched: the numbers, and the state (R216). -/
def State.countParts (s : State) (k : Nat) : List LoadPart → State × List (Nat × LoadPart)
  | [] => (s, [])
  | x :: r =>
    let (q, s) := s.countAcc k x.path
    let (s, l) := s.countParts k r
    (s, (q, x) :: l)

/-- The state after a lane load: its registers are written now, or when its data return (R55, R56, R217); `f` is what else
it does to its group. -/
def LaneIn.loaded (i : LaneIn) (s : State) (l : List LoadPart) (f : Group → Group) : State :=
  let (s, ps) := s.countParts s.cur (partsOf l)
  if i.g.late || l.any (fun x => !x.atoms.isEmpty) then
    i.after s (fun g0 => let g := f g0; { g with infl := g.infl ++ ps.map (fun e =>
      { lane := true, path := e.2.path, seq := e.1, writes := e.2.ws, pois := e.2.pois, words := e.2.words,
        atoms := e.2.atoms }) })
  else
    let s := s.consumeIf s.cur (ps.any (fun e => e.2.pois))
    i.after s (fun g => (ps.flatMap (fun e => e.2.ws)).foldl (fun g w => g.apply w) (f g))

/-- A lane load completes. -/
def LaneIn.finishWith (i : LaneIn) (s : State) (l : List LoadPart) (f : Group → Group) : Res := .next (i.loaded s l f)

/-- A lane load that does nothing else. -/
def LaneIn.finish (i : LaneIn) (s : State) (l : List LoadPart) : Res := i.finishWith s l (fun g => g)

/-- One access counted on each of several paths. -/
def State.countAll (s : State) (ps : List Path) : State := ps.dedup.foldl (fun s p => (s.countAcc s.cur p).2) s

/-- A lane instruction that touches paths without a load completes. -/
def LaneIn.touch (i : LaneIn) (s : State) (ps : List Path) (f : Group → Group) : Res := i.done (s.countAll ps) f

/-- A write that Sepia cannot hold: the instruction has no effect and its alternate fails (R377). At trap class it leaves the
lane queue. DEDUCED (log 139). -/
def LaneIn.overflow (i : LaneIn) (s : State) : Res :=
  let s := s.failAlt i.g.seat (s.depth i.g.seat) 6 0 i.g.gid
  if i.g.tclass then i.done s (fun g => g) else .next s

/-- Goes on with what Sepia holds. -/
def LaneIn.orOverflow (i : LaneIn) (s : State) (r : Option State) (f : State → Res) : Res :=
  match r with
  | none => i.overflow s
  | some s => f s

/-! ### Octets and scratchpad areas -/

/-- The issuing octets (R147). -/
def LaneIn.octets (i : LaneIn) : List Nat :=
  (List.range 8).filter (fun j => (i.act >>> (8 * j)) &&& 0xff ≠ 0)

/-- The active lanes of an octet. -/
def LaneIn.rows (i : LaneIn) (j : Nat) : List Nat := i.lanes.filter (fun l => l / 8 = j)

/-- The register number of a kind-0 source. -/
def srcV : Src → Nat
  | .v r => r.toNat
  | _ => 0

/-- (x[31:0] + j × stride) mod 2^32 for octet `j` (R154, R180), x the value captured for source c. -/
def LaneIn.area (i : LaneIn) (j : Nat) : Nat := (i.e.bcc.toNat + j * i.o.imm.toNat) % 2 ^ 32

/-- The areas of the issuing octets, each with the lowest lane it fails in. -/
def LaneIn.areas (i : LaneIn) : List (Nat × Nat) :=
  i.octets.map (fun j => ((i.rows j).headD (8 * j), i.area j))

/-- INFO of a lane trap on a memory access (R405). -/
def laneInfo (l : Nat) (write : Bool) : DWord := BitVec.ofNat 64 (l + (if write then 256 else 0))

/-- The offset of `n` bytes at a scratchpad address that must lie in the own scratchpad (R154). -/
def State.ownArea (s : State) (g : Group) (a n : Nat) : Option Nat :=
  match s.spadRange g (BitVec.ofNat 64 a) n with
  | some (t, o) => if t = g.seat then some o else none
  | none => none

/-- A trap of a scratchpad area. -/
structure AreaTrap where
  num  : BitVec 8
  addr : Nat
  lane : Nat
  deriving DecidableEq, Repr, Inhabited

/-- The first failing check of areas of `n` bytes: alignment, then range (R170, R200). DEDUCED (log 53). -/
def State.areaTrap (s : State) (g : Group) (l : List (Nat × Nat)) (n al : Nat) : Option AreaTrap :=
  match l.find? (fun e => e.2 % al ≠ 0) with
  | some e => some { num := 0x12, addr := e.2, lane := e.1 }
  | none =>
    match l.find? (fun e => (s.ownArea g e.2 n).isNone) with
    | some e => some { num := 0x11, addr := e.2, lane := e.1 }
    | none => none

/-- The first of the scratchpad ranges that an instruction touches, as lane, address and bytes, that an engine has
registered (R158, R200). -/
def State.touchTrap (s : State) (g : Group) (l : List (Nat × Nat × Nat)) (write : Bool) : Option AreaTrap :=
  match l.find? (fun e => decide (0 < e.2.2)
      && s.lockedS (coreOf s.cur) (s.ctxId g) g.seat (e.2.1 % 2 ^ 22) e.2.2 write) with
  | some e => some { num := 0x13, addr := e.2.1, lane := e.1 }
  | none => none

/-- The rows that active lanes touch in areas of `n` bytes (R154, R180). -/
def LaneIn.touched (i : LaneIn) (n : Nat) : List (Nat × Nat × Nat) :=
  i.octets.flatMap (fun j => (i.rows j).map (fun l => (l, i.area j + n / 8 * (l % 8), n / 8)))

/-- A trap of a scratchpad area is raised. -/
def LaneIn.raiseArea (i : LaneIn) (s : State) (write : Bool) (t : AreaTrap) : Res :=
  i.raise s t.num (BitVec.ofNat 64 t.addr) (laneInfo t.lane write)

/-- Runs an instruction once every area passes its checks and no scratchpad atomic of the group is in flight (R222). -/
def LaneIn.withAreas (i : LaneIn) (s : State) (n al : Nat) (write : Bool) (f : Res) : Res :=
  match s.areaTrap i.g i.areas n al with
  | some t => i.raiseArea s write t
  | none =>
    match s.touchTrap i.g (i.touched n) write with
    | some t => i.raiseArea s write t
    | none => if i.g.spadAtoms then .next s else f

/-- The scratchpad offset of the area of octet `j`. -/
def LaneIn.areaOff (i : LaneIn) (j : Nat) : Nat := i.area j % 2 ^ 22

/-- Changes one scratchpad word of the group's team, captured first (R158); `none` when Sepia cannot hold it.
DEDUCED (log 52). -/
def State.updSpad (s : State) (t : Nat) (o : Nat) (f : Word → Word) : Option State :=
  match find s.teams t with
  | none => some s
  | some tm => s.storeSpad t t o 4 (f (tm.spadWord o)).toNat

/-- Changes scratchpad words one after another (R157). -/
def State.updSpads (s : State) (t : Nat) : List (Nat × (Word → Word)) → Option State
  | [] => some s
  | (o, f) :: r =>
    match s.updSpad t o f with
    | none => none
    | some s => s.updSpads t r

/-- The path touched by an instruction with an issuing octet (R156). -/
def LaneIn.spPath (i : LaneIn) : List Path := if i.octets.isEmpty then [] else [.sp]

end Sys2Proof.Machine
end

