-- ==== Sys2Proof/Machine/Matrix.lean ====
section
/-! DEFINITION. The matrix instructions (R147 to R171). -/

namespace Sys2Proof.Machine

open Sys2Proof

/-! ### Fragments (R152, R153) -/

/-- K of an operand shape: 32 for the 16-bit types, 64 where 8-bit activations meet narrower weights, else
512 / w. -/
def shapeK (ta : Ty) : Nat := 512 / tyBits ta

/-- The pattern of A[r][k] of octet `j` in the window at `va` (R153). -/
def fragA (g : Group) (ta : Ty) (va j r k : Nat) : Nat :=
  elN (tyBits ta) (g.v (va + k * tyBits ta / 32) (8 * j + r)) (k * tyBits ta % 32 / tyBits ta)

/-- The pattern of B[k][n] of octet `b` in the window at `vb` (R153). -/
def fragB (g : Group) (tb : Ty) (K vb b k n : Nat) : Nat :=
  elN (tyBits tb) (g.v (vb + n % 2 * (K * tyBits tb / 32) + k * tyBits tb / 32) (8 * b + n / 2))
    (k * tyBits tb % 32 / tyBits tb)

/-- The B source octet of issuing octet `j` (R150). -/
def bOctet (fix : Bool) (c : BitVec 3) (j : Nat) : Nat := if fix then c.toNat else Nat.xor j c.toNat

/-- The operands of a multiply-accumulate: types, windows and B source. -/
structure Mma where
  ta  : Ty
  tb  : Ty
  fix : Bool
  c   : BitVec 3
  va  : Nat
  vb  : Nat
  deriving DecidableEq, Repr, Inhabited

/-- The exact float sum s(i, n) (R159, R160). -/
def Mma.fsum (m : Mma) (g : Group) (j r n : Nat) : Fl :=
  flSum ((List.range (shapeK m.ta)).map (fun k =>
    flMul (fval (fmtOf m.ta) (fragA g m.ta m.va j r k))
      (fval (fmtOf m.tb) (fragB g m.tb (shapeK m.ta) m.vb (bOctet m.fix m.c j) k n))))

/-- The exact integer sum s(i, n) (R159, R161). -/
def Mma.isum (m : Mma) (g : Group) (j r n : Nat) : Int :=
  ((List.range (shapeK m.ta)).map (fun k =>
    sgn (tyBits m.ta) (fragA g m.ta m.va j r k)
      * sgn (tyBits m.tb) (fragB g m.tb (shapeK m.ta) m.vb (bOctet m.fix m.c j) k n))).sum

/-- The float update of an accumulator word (R160). -/
def Mma.fupd (m : Mma) (g : Group) (j r n : Nat) (w : Word) : Word :=
  BitVec.ofNat 32 (addF32 w.toNat (roundNe fp32 (m.fsum g j r n)))

/-- The residue update of an accumulator word (R161). -/
def Mma.iupd (m : Mma) (g : Group) (j r n : Nat) (w : Word) : Word :=
  let s := m.isum g j r n
  rwacc w s s s

/-- The updates of every row of every issuing octet, `f` giving that of octet `j`, row `r`, column `n` (R154,
R157). -/
def LaneIn.tile (i : LaneIn) (f : Nat → Nat → Nat → Word → Word) : List (Nat × (Word → Word)) :=
  i.octets.flatMap (fun j => (i.rows j).flatMap (fun l => (List.range 16).map (fun n =>
    (i.areaOff j + 64 * (l % 8) + 4 * n, f j (l % 8) n))))

/-- The words that a tile's rows hold, by lane and column (R154). -/
def LaneIn.tileWords (i : LaneIn) : List (Nat × Nat × Nat) :=
  i.octets.flatMap (fun j => (i.rows j).flatMap (fun l => (List.range 16).map (fun n =>
    (l, n, i.areaOff j + 64 * (l % 8) + 4 * n))))

/-- A multiply-accumulate (R166): the legality checks, the area checks, then every update. -/
def mma (s : State) (o : LaneOp) (m : Mma) (service : Bool) (f : Mma → Group → Nat → Nat → Nat → Word → Word) : Res :=
  withLane s o (fun i =>
    if i.g.gw / 8 ≤ m.c.toNat || (service && s.reduced) then i.raise s 0x01 0 0
    else i.withAreas s 512 512 true
      (i.orOverflow s (s.updSpads i.g.seat (i.tile (f m i.g))) (fun s => i.touch s i.spPath (fun g => g))))

def execMmaF (tb ta : Ty) (fix : Bool) (c : BitVec 3) (o : LaneOp) (s : State) : Res :=
  mma s o { ta := ta, tb := tb, fix := fix, c := c, va := srcV o.a, vb := srcV o.b } true Mma.fupd
def execMmaH (ta : Ty) (fix : Bool) (c : BitVec 3) (o : LaneOp) (s : State) : Res :=
  mma s o { ta := ta, tb := ta, fix := fix, c := c, va := srcV o.a, vb := srcV o.b } false Mma.fupd
def execMmaI (tb ta : Ty) (fix : Bool) (c : BitVec 3) (o : LaneOp) (s : State) : Res :=
  mma s o { ta := ta, tb := tb, fix := fix, c := c, va := srcV o.a, vb := srcV o.b } true Mma.iupd

/-- R167. -/
def execMzero (o : LaneOp) (s : State) : Res :=
  withLane s o (fun i => i.withAreas s 512 512 true
    (i.orOverflow s (s.updSpads i.g.seat (i.tile (fun _ _ _ _ => 0))) (fun s => i.touch s i.spPath (fun g => g))))

/-! ### Fragment loads (R168) -/

/-- Registers of a fragment window. -/
def fragRegs (roleB k64 : Bool) : Nat := if roleB && !k64 then 32 else 16

/-- K of a fragment load. -/
def fragK (t : Ty) (k64 : Bool) : Nat := if k64 then 64 else 512 / tyBits t

/-- The element that register `reg`, element position `e`, of lane `i` of an octet holds: its coordinates (R153). -/
def fragCoord (roleB k64 : Bool) (t : Ty) (i reg e : Nat) : Nat × Nat :=
  let n := 32 / tyBits t
  if roleB then
    let h := fragK t k64 * tyBits t / 32
    (reg % h * n + e, 2 * i + reg / h)
  else (i, reg * n + e)

/-- The byte offset from the tile base, and the bit in the byte, of element (r, c) (R168). -/
def fragByte (tr : Bool) (t : Ty) (pitch r c : Nat) : Nat × Nat :=
  let w := tyBits t
  let major := if tr then c else r
  let minor := if tr then r else c
  (major * pitch + minor * w / 8, if w < 8 then minor * w % 8 else 0)

/-- The bytes that active lanes of octet `j` read: lane, register, element, address and bit. -/
structure FragEl where
  lane : Nat
  reg  : Nat
  e    : Nat
  addr : Nat
  bit  : Nat
  deriving DecidableEq, Repr, Inhabited

/-- The elements that a register of an active lane loads (R168). -/
def LaneIn.fragEls (i : LaneIn) (tr roleB : Bool) (t : Ty) (k64 : Bool) (l reg : Nat) : List FragEl :=
  let pitch := i.e.bcb.toNat % 2 ^ 32
  (List.range (32 / tyBits t)).map (fun e =>
    let (r, c) := fragCoord roleB k64 t (l % 8) reg e
    let (off, bit) := fragByte tr t pitch r c
    { lane := l, reg := reg, e := e, addr := (i.area (l / 8) + off) % 2 ^ 32, bit := bit })

/-- Bytes of one element's access. -/
def elBytes (t : Ty) : Nat := if tyBits t = 16 then 2 else 1

/-- A fragment load's checks, in the order of R170. DEDUCED (log 54). -/
def LaneIn.fragTrap (i : LaneIn) (s : State) (t : Ty) (els : List FragEl) : Option AreaTrap :=
  let pitch := i.e.bcb.toNat % 2 ^ 32
  match i.areas.find? (fun e => e.2 % 4 ≠ 0 || pitch % 4 ≠ 0) with
  | some e => some { num := 0x12, addr := e.2, lane := e.1 }
  | none =>
    match els.find? (fun e => (s.spadRange i.g (BitVec.ofNat 64 e.addr) (elBytes t)).isNone) with
    | some e => some { num := 0x11, addr := e.addr, lane := e.lane }
    | none =>
      match els.find? (fun e => match s.spadRange i.g (BitVec.ofNat 64 e.addr) (elBytes t) with
          | some (u, o) => s.lockedS (coreOf s.cur) (s.ctxId i.g) u o (elBytes t) false
          | none => false) with
      | some e => some { num := 0x13, addr := e.addr, lane := e.lane }
      | none => none

/-- One register of one lane built from its elements, with the paths touched and poison (R168). -/
def LaneIn.fragReg (i : LaneIn) (s : State) (t : Ty) (l reg : Nat) (els : List FragEl) : List LoadPart :=
  let read (e : FragEl) : Nat × Bool × Path :=
    match s.spadRange i.g (BitVec.ofNat 64 e.addr) (elBytes t) with
    | some (u, o) => let (v, p) := s.loadSpad u o (elBytes t)
                     (v / 2 ^ e.bit, p, spadPath s.cur u)
    | none => (0, false, .sp)
  let w := els.foldl (fun w e => putN (tyBits t) w e.e (read e).1) (0 : Word)
  let paths := (els.map (fun e => (read e).2.2)).dedup
  (paths.map (fun p => ({ path := p, ws := [], pois := els.any (fun e => (read e).2.1) } : LoadPart))).modifyHead
    (fun x => { x with ws := [.v (i.vd + reg) l w] })

/-- A fragment load (R168). -/
def fragLoad (s : State) (tr roleB : Bool) (t : Ty) (k64 : Bool) (o : LaneOp) : Res :=
  withLane s o (fun i =>
    let row (l reg : Nat) := i.fragEls tr roleB t k64 l reg
    let regs := List.range (fragRegs roleB k64)
    match i.fragTrap s t (i.lanes.flatMap (fun l => regs.flatMap (row l))) with
    | some x => i.raise s x.num (BitVec.ofNat 64 x.addr) (laneInfo x.lane false)
    | none =>
      if i.g.spadAtoms then .next s
      else i.finish s (i.lanes.flatMap (fun l => regs.flatMap (fun reg => i.fragReg s t l reg (row l reg)))))

def execMfrag (roleB : Bool) (t : Ty) (k64 : Bool) (o : LaneOp) (s : State) : Res := fragLoad s false roleB t k64 o
def execMtr (roleB : Bool) (t : Ty) (k64 : Bool) (o : LaneOp) (s : State) : Res := fragLoad s true roleB t k64 o

/-! ### Accumulator moves (R169) -/

/-- The word at an offset of the group's own scratchpad, with poison. -/
def LaneIn.ownWord (i : LaneIn) (s : State) (o : Nat) : Word × Bool :=
  let (v, p) := s.loadSpad i.g.seat o 4
  (BitVec.ofNat 32 v, p)

/-- R169. -/
def execMaccLd (o : LaneOp) (s : State) : Res :=
  withLane s o (fun i => i.withAreas s 512 512 false
    (i.finish s (i.tileWords.map (fun e =>
      { path := .sp, ws := [.v (i.vd + e.2.1) e.1 (i.ownWord s e.2.2).1], pois := (i.ownWord s e.2.2).2 }))))

/-- An accumulator update from the window at vd (R169). -/
def maccUpd (s : State) (o : LaneOp) (f : Word → Word → Word) : Res :=
  withLane s o (fun i => i.withAreas s 512 512 true
    (i.orOverflow s (s.updSpads i.g.seat (i.tile (fun j r n w => f w (i.g.v (i.vd + n) (8 * j + r)))))
      (fun s => i.touch s i.spPath (fun g => g))))

def execMaccSt (o : LaneOp) (s : State) : Res := maccUpd s o (fun _ x => x)

/-- R169. -/
def execMaccAdd (t : Ty) (o : LaneOp) (s : State) : Res := maccUpd s o (fun w x => atomNew .add t w x 0)

end Sys2Proof.Machine
end

