-- ==== Sys2Proof/Machine/Narrow.lean ====
section
/-! DEFINITION. Residue, scale and exact accumulation instructions (R172 to R202). -/

namespace Sys2Proof.Machine

open Sys2Proof

/-! ### Residue words (R189, R190) -/

/-- R189, register form. -/
def execCrt (o : LaneOp) (s : State) : Res := perLane s o (fun i l => w32 (crtDecode (i.a .rw l)))

/-- Reads words of the group's scratchpad in turn, each zeroed in the same step when `clr` (R187); `none` when Sepia cannot
hold a write. -/
def LaneIn.readClear (i : LaneIn) (clr : Bool) (n : Nat) : List (Nat × Nat × Nat) → State →
    Option (State × List (Nat × Nat × Nat × Bool))
  | [], s => some (s, [])
  | (l, c, o) :: r, s =>
    let (v, p) := s.loadSpad i.g.seat o n
    match (if clr then s.storeSpad i.g.seat i.g.seat o n 0 else some s) with
    | none => none
    | some s => (i.readClear clr n r s).map (fun e => (e.1, (l, c, v, p) :: e.2))

/-- R189, tile forms. -/
def execCrtAcc (clr : Bool) (o : LaneOp) (s : State) : Res :=
  withLane s o (fun i => i.withAreas s 512 512 clr
    (match i.readClear clr 4 i.tileWords s with
     | none => i.overflow s
     | some (s, l) => i.finish s (l.map (fun (l, n, v, p) =>
         { path := .sp, ws := [.v (i.vd + n) l (w32 (crtDecode (BitVec.ofNat 32 v)))], pois := p }))))

/-- R190. -/
def execRwadd (o : LaneOp) (s : State) : Res := perLane s o (fun i l => rwaddW (i.a .rw l) (i.b .rw l))

/-- R190. -/
def execRwfrom (o : LaneOp) (s : State) : Res :=
  perLane s o (fun i l => let x := (i.a .i32 l).toInt; rwacc 0 (x % 256) (x % 255) (x % 257))

/-! ### Fixed-point accumulators (R180, R181, R191 to R194) -/

/-- Offsets of the accumulators of every active row: octet, lane, column and offset (R180). -/
def LaneIn.fxCells (i : LaneIn) : List (Nat × Nat × Nat) :=
  i.octets.flatMap (fun j => (i.rows j).flatMap (fun l => (List.range 16).map (fun n =>
    (l, n, i.areaOff j + 256 * (l % 8) + 16 * n))))

/-- Changes accumulators one after another (R181). -/
def State.updFx (s : State) (t : Nat) (f : Nat → Nat → Nat → Nat) : List (Nat × Nat × Nat) → Option State
  | [] => some s
  | (l, n, o) :: r =>
    match s.storeSpad t t o 16 (f l n (s.loadSpad t o 16).1) with
    | none => none
    | some s => s.updFx t f r

/-- An instruction that updates accumulators and writes no register. -/
def fxUpdate (s : State) (o : LaneOp) (f : LaneIn → Nat → Nat → Nat → Nat) : Res :=
  withLane s o (fun i => i.withAreas s 2048 256 true
    (i.orOverflow s (s.updFx i.g.seat (f i) i.fxCells) (fun s => i.touch s i.spPath (fun g => g))))

/-- R191; vd names the column-scale pair. -/
def execSacc (pt : BitVec 7) (rb cb : BitVec 2) (o : LaneOp) (s : State) : Res :=
  fxUpdate s o (fun i l n F =>
    let sr := sbValue (byteN (i.g.v (srcV o.b) l) rb.toNat)
    let sc := sbValue (byteN (i.g.v (o.d.toNat + n % 2) (l / 8 * 8 + n / 2)) cb.toNat)
    fxAdd F ((i.g.v (srcV o.a + n) l).toInt * sr.1 * sc.1) (sr.2 + sc.2) pt.toNat)

/-- R192. -/
def execFxzero (o : LaneOp) (s : State) : Res := fxUpdate s o (fun _ _ _ _ => 0)

/-- The value that `fxadd` adds, as m × 2^e (R193). -/
def fxTerm (t : Ty) (p : Word) : Int × Int :=
  match t with
  | .rw => (crtDecode p, 0)
  | .f32 => (match fval fp32 p.toNat with
    | .fin neg m e => (sMant neg m, e)
    | _ => (0, 0))
  | _ => (p.toInt, 0)

/-- R193. -/
def execFxadd (t : Ty) (pt : BitVec 7) (o : LaneOp) (s : State) : Res :=
  fxUpdate s o (fun i l n F =>
    let z := fxTerm t (i.g.v (srcV o.a + n) l)
    fxAdd F z.1 z.2 pt.toNat)

/-- The rounded pattern of an accumulator (R194). -/
def fxPat (t : Ty) (pt : BitVec 7) (rm : Rm) (v : Nat) : Nat := roundMode (fmtOf t) rm false (fxValue v pt.toNat)

/-- The register writes of `fxcvt` from accumulators in column order: one column to a register, or two packed (R194). -/
def LaneIn.fxParts (i : LaneIn) (t : Ty) (f : Nat → Nat) : List (Nat × Nat × Nat × Bool) → List LoadPart
  | [] => []
  | [(l, n, v, p)] => [{ path := .sp, ws := [.v (i.vd + n) l (BitVec.ofNat 32 (f v))], pois := p }]
  | (l, n, v, p) :: (m, c, w, q) :: r =>
    if t = .f32 then
      { path := .sp, ws := [.v (i.vd + n) l (BitVec.ofNat 32 (f v)), .v (i.vd + c) m (BitVec.ofNat 32 (f w))], pois := p || q }
        :: i.fxParts t f r
    else
      { path := .sp, ws := [.v (i.vd + n / 2) l (putN 16 (BitVec.ofNat 32 (f v)) 1 (f w))], pois := p || q } :: i.fxParts t f r

/-- R194. -/
def execFxcvt (t : Ty) (pt : BitVec 7) (clr : Bool) (rm : Rm) (o : LaneOp) (s : State) : Res :=
  withLane s o (fun i => i.withAreas s 2048 256 clr
    (match i.readClear clr 16 i.fxCells s with
     | none => i.overflow s
     | some (s, l) => i.finish s (i.fxParts t (fxPat t pt rm) l)))

/-! ### Scale bytes (R195, R196) -/

/-- The FP32 pattern of a magnitude. -/
def magPat (v : Fl) : Nat :=
  match v with
  | .nan => fp32.nan
  | .inf _ => infP fp32 false
  | .fin _ m e => roundNe fp32 (.fin false m e)

/-- The greater of two FP32 magnitudes; a NaN stands. -/
def magMax (p q : Nat) : Nat := if p = fp32.nan || q = fp32.nan then fp32.nan else Nat.max p q

/-- r of one lane (R195). DEDUCED (log 57). -/
def sbmaxR (i : LaneIn) (t : Ty) (l : Nat) : Nat :=
  ((List.range (nel t)).map (fun e => magPat (fval (fmtOf t) (elN (tyBits t) (i.a t l) e)))).foldl magMax
    (magPat (fval fp32 (i.b .f32 l).toNat))

/-- R195. -/
def execSbmax (t : Ty) (oct : Bool) (o : LaneOp) (s : State) : Res :=
  if oct then
    withLane s o (fun i => i.done s (fun g =>
      g.setLanes i.vd i.execs (fun l =>
        if i.act.getLsbD l then BitVec.ofNat 32 (((i.rows (l / 8)).map (sbmaxR i t)).foldl magMax 0) else 0)))
  else perLane s o (fun i l => BitVec.ofNat 32 (sbmaxR i t l))

/-- R196. -/
def execSbcvt (t : Ty) (sel : BitVec 2) (o : LaneOp) (s : State) : Res :=
  perLane s o (fun i l => putN 8 (i.old l) sel.toNat (scaleByte t (i.a .f32 l).toNat))

/-! ### Quantisation and outliers (R182 to R184, R197 to R199) -/

/-- BASE, CAP and TAG of a region register (R182). -/
def regionBase (x : DWord) : Nat := field x.toNat 0 32
def regionCap (x : DWord) : Nat := field x.toNat 32 16
def regionTag (x : DWord) : Nat := field x.toNat 48 16

/-- The region checks, made at issue whatever lanes are active (R197, R199). DEDUCED (log 55). -/
def LaneIn.withRegion (i : LaneIn) (s : State) (write : Bool) (f : Res) : Res :=
  let x := i.e.bcc
  match s.areaTrap i.g [(i.lanes.headD 0, regionBase x)] (8 + 8 * regionCap x) 8 with
  | some t => i.raiseArea s write t
  | none => if i.g.spadAtoms then .next s else f

/-- The scratchpad offset of a region. -/
def LaneIn.regionOff (i : LaneIn) : Nat := regionBase i.e.bcc % 2 ^ 22

/-- The integer that a value quantises to, if it is in range (R197). -/
def qntEl (t : Ty) (rm : Rm) (b : Nat) (p : Nat) : Option Int :=
  match fval fp32 p with
  | .fin neg m e =>
    if m = 0 then some 0
    else
      let s := sbValue b
      if s.1 = 0 then none
      else
        let d := e - s.2
        let q := if 0 ≤ d then roundDiv rm neg (m * 2 ^ d.toNat) s.1 else roundDiv rm neg m (s.1 * 2 ^ (-d).toNat)
        let v : Int := if neg then -(q : Int) else q
        if tyMin t ≤ v && v ≤ tyMax t then some v else none
  | _ => none

/-- A record (R182). -/
def outRecord (p tag lane e gid : Nat) : Nat :=
  roundNe fp16 (fval fp32 p) + tag * 2 ^ 16 + lane * 2 ^ 32 + e * 2 ^ 38 + gid % 16 * 2 ^ 48

/-- The clamped element of an outlier that finds no slot (R197). -/
def clampEl (t : Ty) (p : Nat) : Int :=
  match fval fp32 p with
  | .nan => 0
  | v => if flNegative v then tyMin t else tyMax t

/-- How a claim ends (R183). -/
inductive ClaimRes where
  | took (s : State)
  | full
  /-- Sepia cannot hold a write. -/
  | lost
  /-- A byte that it touches is in a range of an engine (R200). -/
  | trap (t : AreaTrap)

/-- Takes a slot for lane `l` and writes its record (R183). -/
def LaneIn.claim (i : LaneIn) (s : State) (l record : Nat) : ClaimRes :=
  let o := i.regionOff
  let n := (s.loadSpad i.g.seat o 4).1
  let base := regionBase i.e.bcc
  let free := decide (n < regionCap i.e.bcc)
  match s.touchTrap i.g ((l, base, 4) :: (if free then [(l, base + 8 + 8 * n, 8)] else [])) true with
  | some t => .trap t
  | none =>
    if free then
      match (s.storeSpad i.g.seat i.g.seat o 4 (n + 1)).bind (fun s => s.storeSpad i.g.seat i.g.seat (o + 8 + 8 * n) 8 record) with
      | none => .lost
      | some s => .took s
    else .full

/-- How the elements of a `qnt` end. -/
inductive QntRes (α : Type) where
  | ok (s : State) (x : α) (clamped : Nat)
  | lost
  | trap (t : AreaTrap)

/-- The elements of one lane from `e` up: the state, the packed result and the number clamped (R197). -/
def LaneIn.qntLane (i : LaneIn) (t : Ty) (b : Nat) (rm : Rm) (l : Nat) : List Nat → State → Word → Nat → QntRes Word
  | [], s, w, n => .ok s w n
  | e :: r, s, w, n =>
    let p := (i.g.v (srcV i.o.a + e) l).toNat
    match qntEl t rm b p with
    | some q => i.qntLane t b rm l r s (put32 t w e q) n
    | none =>
      match i.claim s l (outRecord p (regionTag i.e.bcc) l e i.g.gid) with
      | .lost => .lost
      | .trap t => .trap t
      | .took s => i.qntLane t b rm l r s (put32 t w e 0) n
      | .full => i.qntLane t b rm l r s (put32 t w e (clampEl t p)) (n + 1)

/-- Every active lane in rising order: the results by lane and the number clamped. -/
def LaneIn.qntAll (i : LaneIn) (t : Ty) (sel : BitVec 2) (rm : Rm) :
    List Nat → State → List (Nat × Word) → Nat → QntRes (List (Nat × Word))
  | [], s, ws, n => .ok s ws n
  | l :: r, s, ws, n =>
    match i.qntLane t (byteN (i.g.v (srcV i.o.b) l) sel.toNat) rm l (List.range (nel t)) s 0 n with
    | .ok s w n => i.qntAll t sel rm r s (ws ++ [(l, w)]) n
    | .lost => .lost
    | .trap t => .trap t

/-- `ofc` after clamping `n` values (R184). -/
def raiseOfc (v : DWord) (n : Nat) : DWord := BitVec.ofNat 64 (Nat.min (v.toNat + n) (2 ^ 64 - 1))

/-- R197. -/
def execQnt (t : Ty) (sel : BitVec 2) (rm : Rm) (o : LaneOp) (s : State) : Res :=
  withLane s o (fun i => i.withRegion s true
    (match i.qntAll t sel rm i.lanes s [] 0 with
    | .lost => i.overflow s
    | .trap t => i.raiseArea s true t
    | .ok s ws n =>
      i.touch s (if i.lanes.isEmpty then [] else [.sp]) (fun g =>
        let g : Group := { g with ofc := raiseOfc g.ofc n }
        ws.foldl (fun g e => g.setV i.vd e.1 e.2) g)))

/-- A narrow element times a scale, exact in FP32 (R198). -/
def dqntEl (v : Int) (b : Nat) : Word :=
  let s := sbValue b
  BitVec.ofNat 32 (roundNe fp32 (.fin (decide (v < 0)) (v.natAbs * s.1) s.2))

/-- R198. The sources are read before any element is written. DESIGN CHOICE (log 117). -/
def execDqnt (t : Ty) (sel : BitVec 2) (o : LaneOp) (s : State) : Res :=
  withLane s o (fun i => i.done s (fun g =>
    (List.range (nel t)).foldl (fun g e => g.setLanes (i.vd + e) i.act (fun l =>
      dqntEl (el t (i.a t l) e) (byteN (i.b .b32 l) sel.toNat))) g))

/-- The value after the records of a lane and tag (R199). DEDUCED (log 56). -/
def olxSum (i : LaneIn) (l : Nat) : List Nat → Nat → Nat
  | [], a => a
  | x :: r, a =>
    if field x 32 6 = l && field x 16 16 = regionTag i.e.bcc then
      olxSum i l r (roundNe fp32 (flAdd false (fval fp32 a)
        (flMul (fval fp16 (field x 0 16)) (fval fp32 (i.g.v (srcV i.o.b + field x 38 4) l).toNat))))
    else olxSum i l r a

/-- The records that an `olx` reads, and the bytes it touches: the count and those records (R199, R200). -/
def LaneIn.olxRecords (i : LaneIn) (s : State) : List (Nat × Bool) × List (Nat × Nat × Nat) :=
  let n := Nat.min (s.loadSpad i.g.seat i.regionOff 4).1 (regionCap i.e.bcc)
  let l := i.lanes.headD 0
  ((List.range n).map (fun r => s.loadSpad i.g.seat (i.regionOff + 8 + 8 * r) 8),
    [(l, regionBase i.e.bcc, 4), (l, regionBase i.e.bcc + 8, 8 * n)])

/-- R199. Poison is consumed once when any record read is poisoned, one that does not match too; the count word consumes none (R391).
DESIGN CHOICE (log 143). -/
def execOlx (o : LaneOp) (s : State) : Res :=
  withLane s o (fun i => i.withRegion s false
    (if i.lanes.isEmpty then i.done s (fun g => g)
     else
      let (xs, t) := i.olxRecords s
      match s.touchTrap i.g t false with
      | some t => i.raiseArea s false t
      | none =>
        i.touch (s.consumeIf s.cur (xs.any (·.2))) [.sp] (fun g => g.setLanes i.vd i.act (fun l =>
          BitVec.ofNat 32 (olxSum i l (xs.map (·.1)) (roundNe fp32 (fval fp32 (i.old l).toNat)))))))

end Sys2Proof.Machine
end

