-- ==== Sys2Proof/Machine/LaneMem.lean ====
section
/-! DEFINITION. Lane memory instructions, lane atomics, lane cell loads, `vfence` and `spawn` (R219 to R228, R272,
R274, R299, R358, R359). -/

namespace Sys2Proof.Machine

open Sys2Proof

/-! ### Addresses and checks (R220, R221) -/

/-- `ea(l)` (R220). -/
def LaneIn.ea (i : LaneIn) (f : AddrForm) (l : Nat) : DWord :=
  let ix : Int := if f.un then (i.b .n32 l).toNat else (i.b .i32 l).toInt
  w64 (i.e.bca.toNat + ix * (2 ^ f.sc.toNat : Nat) + i.o.imm.toInt)

/-- Addresses of the `n` words of a row, or the one access of an element. -/
def rowOf (va : DWord) (n : Nat) : List DWord := (List.range n).map (fun w => va + BitVec.ofNat 64 (4 * w))

/-- A trap that a lane's checks raise. -/
structure LaneTrap where
  num  : BitVec 8
  addr : DWord
  info : DWord
  deriving DecidableEq, Repr, Inhabited

/-- Where one access of a lane goes: its virtual address, and its place unless the page waits for the host. -/
structure Place where
  va : DWord
  home : Option (Nat × Bool) := none
  deriving DecidableEq, Repr, Inhabited

/-- Where one scratchpad access goes: address, team and offset. -/
structure SPlace where
  va  : DWord
  t   : Nat
  off : Nat
  deriving DecidableEq, Repr, Inhabited

/-- Translates the accesses of one lane in turn (R221, check 4). -/
def State.transAll (s : State) (k : Nat) (g : Group) (write : Bool) : List DWord → State × Except DWord (List Place)
  | [] => (s, .ok [])
  | va :: r =>
    match s.translate (coreOf k) (s.ctxId g) va (if write then .write else .read) g.tclass with
    | .fault s => (s, .error va)
    | .wait s1 =>
      let (s2, x) := s1.transAll k g write r
      (s2, x.map (fun l => { va := va } :: l))
    | .ok s1 pa mt =>
      let (s2, x) := s1.transAll k g write r
      (s2, x.map (fun l => { va := va, home := some (pa, mt) } :: l))

/-- The pool trap of a place (R221, check 5). -/
def State.placeTrap (s : State) (p : Place) : Nat :=
  match p.home with
  | some (pa, _) => s.poolTrap pa
  | none => 0

/-- The region number that a pool-region fault reports (R405). -/
def placeRegion (p : Place) : Nat :=
  match p.home with
  | some (pa, _) => (poolOf pa).getD 0 * 65536
  | none => 0

/-- The checks of one lane's global accesses (R221). `perm` is the rule of R264 for atomics. A `vldc` follows this order too (R299),
not that of R306's rows. DEDUCED (log 144). -/
def State.chkLane (s : State) (k : Nat) (g : Group) (l n al : Nat) (write : Bool) (perm : Nat → Bool)
    (vas : List DWord) : State × Except LaneTrap (List Place) :=
  let info := laneInfo l write
  match vas.find? (fun va => (va.truncate 57).signExtend 64 ≠ va) with
  | some va => (s, .error { num := 0x10, addr := va, info := info })
  | none =>
    match vas.find? (fun va => va.toNat % al ≠ 0) with
    | some va => (s, .error { num := 0x12, addr := va, info := info })
    | none =>
      match s.transAll k g write vas with
      | (s, .error va) => (s, .error { num := 0x10, addr := va, info := info })
      | (s, .ok ps) =>
        match ps.find? (fun p => match p.home with | some (pa, _) => !(perm pa) | none => false) with
        | some p => (s, .error { num := 0x10, addr := p.va, info := info })
        | none =>
          match ps.find? (fun p => s.placeTrap p ≠ 0) with
          | some p => (s, .error { num := BitVec.ofNat 8 (s.placeTrap p), addr := p.va
                                   info := if s.placeTrap p = 0x14 then info + BitVec.ofNat 64 (placeRegion p) else info })
          | none =>
            match vas.find? (fun va => s.lockedG (coreOf k) (s.ctxId g) va n write) with
            | some va => (s, .error { num := 0x13, addr := va, info := info })
            | none => (s, .ok ps)

/-- The checks of every active lane; the lowest failing one is reported (R221). -/
def State.chkLanes (s : State) (k : Nat) (g : Group) (n al : Nat) (write : Bool) (perm : Nat → Bool) :
    List (Nat × List DWord) → State × Except LaneTrap (List (Nat × List Place))
  | [] => (s, .ok [])
  | (l, vas) :: r =>
    match s.chkLane k g l n al write perm vas with
    | (s, .error t) => (s, .error t)
    | (s1, .ok ps) =>
      let (s2, x) := s1.chkLanes k g n al write perm r
      (s2, x.map (fun t => (l, ps) :: t))

/-- The fields of a scratchpad address are as R211 allows: 32 bits, bits [31:29] 0, and CORE 0 with SELF. -/
def spadFields (va : DWord) : Bool :=
  decide (va.toNat < 2 ^ 29) && (!(va.getLsbD 28) || decide (field va.toNat 22 6 = 0))

/-- The checks of one lane's scratchpad accesses (R221): fields, alignment, range, range locks. -/
def State.chkSLane (s : State) (g : Group) (l n al : Nat) (write : Bool) (vas : List DWord) :
    Except LaneTrap (List SPlace) :=
  let info := laneInfo l write
  match vas.find? (fun va => !(spadFields va)) with
  | some va => .error { num := 0x11, addr := va, info := info }
  | none =>
    match vas.find? (fun va => va.toNat % al ≠ 0) with
    | some va => .error { num := 0x12, addr := va, info := info }
    | none =>
      match vas.find? (fun va => (s.spadRange g va n).isNone) with
      | some va => .error { num := 0x11, addr := va, info := info }
      | none =>
        let ps := vas.map (fun va => let p := (s.spadRange g va n).getD (0, 0); { va := va, t := p.1, off := p.2 : SPlace })
        match ps.find? (fun p => s.lockedS (coreOf s.cur) (s.ctxId g) p.t p.off n write) with
        | some p => .error { num := 0x13, addr := p.va, info := info }
        | none => .ok ps

/-- The scratchpad checks of every active lane. -/
def State.chkSLanes (s : State) (g : Group) (n al : Nat) (write : Bool) :
    List (Nat × List DWord) → Except LaneTrap (List (Nat × List SPlace))
  | [] => .ok []
  | (l, vas) :: r =>
    match s.chkSLane g l n al write vas with
    | .error t => .error t
    | .ok ps => (s.chkSLanes g n al write r).map (fun t => (l, ps) :: t)

/-- The accesses of the active lanes: rows of `m` words, or one element. -/
def LaneIn.vas (i : LaneIn) (f : AddrForm) (m : Nat) : List (Nat × List DWord) :=
  i.lanes.map (fun l => (l, rowOf (i.ea f l) m))

/-- Runs a global lane access after its checks. -/
def LaneIn.withGlobal (i : LaneIn) (s : State) (f : AddrForm) (m n al : Nat) (write : Bool) (perm : Nat → Bool)
    (r : State → List (Nat × List Place) → Res) : Res :=
  match s.chkLanes s.cur i.g n al write perm (i.vas f m) with
  | (s, .error t) => i.raise s t.num t.addr t.info
  | (s, .ok ps) => r s ps

/-- Runs a scratchpad lane access after its checks, behind the group's own atomics on its bytes (R222). -/
def LaneIn.withSpad (i : LaneIn) (s : State) (f : AddrForm) (m n al : Nat) (write : Bool)
    (r : List (Nat × List SPlace) → Res) : Res :=
  match s.chkSLanes i.g n al write (i.vas f m) with
  | .error t => i.raise s t.num t.addr t.info
  | .ok ps => if ps.any (fun e => e.2.any (fun p => s.spadAtomHit i.g p.t p.off n)) then .next s else r ps

/-- The lane stream waits at its head, with a row of the wait-for table (R349). -/
def LaneIn.block (_ : LaneIn) (s : State) (row : WaitRow) : Res :=
  .next { s with groups := upd s.groups s.cur (fun g => g.waiting s.tsc row) }

/-- A load's places all translate and none overlaps a parked store of its group, else it waits (R210, R221). -/
def LaneIn.ready (i : LaneIn) (s : State) (n : Nat) (ps : List (Nat × List Place)) (r : Res) : Res :=
  if ps.any (fun e => e.2.any (fun p => p.home.isNone)) then .next s
  else if ps.any (fun e => e.2.any (fun p => s.parkedHit s.cur p.va n)) then i.block s (memRow (coreOf s.cur))
  else r

/-- Accesses in a flat list: lane, position in the row, place. -/
def flatten {α : Type} (ps : List (Nat × List α)) : List (Nat × Nat × α) :=
  ps.flatMap (fun e => (e.2.zipIdx).map (fun p => (e.1, p.2, p.1)))

/-! ### Loads and stores (R225 to R227) -/

/-- Bytes of an element of a memory type. -/
def memBytes : Ty → Nat
  | .i8 => 1 | .n8 => 1 | .i16 => 2 | .n16 => 2
  | _ => 4

/-- A loaded element as its register holds it (R225). -/
def memExt (t : Ty) (v : Nat) : Word :=
  match t with
  | .i8 => (BitVec.ofNat 8 v).signExtend 32
  | .i16 => (BitVec.ofNat 16 v).signExtend 32
  | _ => BitVec.ofNat 32 v

/-- Reads every place in turn. -/
def State.readAll (s : State) (k n vd : Nat) (t : Ty) : List (Nat × Nat × Place) → State × List LoadPart
  | [] => (s, [])
  | (l, w, p) :: r =>
    let (pa, mt) := p.home.getD (0, false)
    let (s, v, q) := s.loadN k pa n mt
    let (s, xs) := s.readAll k n vd t r
    (s, { path := pathOfPa pa, ws := [.v (vd + w) l (memExt t v)], pois := q, words := [pa / 4] } :: xs)

/-- A global load of rows of `m` words, or of one element (R225, R227). -/
def laneLoad (s : State) (t : Ty) (f : AddrForm) (m : Nat) (o : LaneOp) : Res :=
  withLane s o (fun i =>
    i.withGlobal s f m (memBytes t) (memBytes t) false (fun _ => true) (fun s ps =>
      i.ready s (memBytes t) ps
        (let (s, xs) := s.readAll s.cur (memBytes t) i.vd t (flatten ps)
         i.finish s xs)))

/-- A scratchpad load (R226, R227). -/
def laneLoadS (s : State) (t : Ty) (f : AddrForm) (m : Nat) (o : LaneOp) : Res :=
  withLane s o (fun i =>
    i.withSpad s f m (memBytes t) (memBytes t) false (fun ps =>
      i.finish s ((flatten ps).map (fun e =>
        let (v, q) := s.loadSpad e.2.2.t e.2.2.off (memBytes t)
        { path := spadPath s.cur e.2.2.t, ws := [.v (i.vd + e.2.1) e.1 (memExt t v)], pois := q }))))

/-- Where a lane entry's stores stand (R49). -/
def LaneIn.pos (i : LaneIn) : LanePos := { lane := true, pc := i.e.lpc, idx := i.e.idx }

/-- One store of a lane: its place, its bytes as a number, and whether it parks. -/
structure LaneStore where
  p    : Place
  v    : Nat
  park : Bool
  deriving DecidableEq, Repr, Inhabited

/-- The numbers that an instruction's accesses take on the paths it touches (R216). -/
def State.countPaths (s : State) (k : Nat) : List Path → State × List (Path × Nat)
  | [] => (s, [])
  | p :: r =>
    let (q, s) := s.countAcc k p
    let (s, l) := s.countPaths k r
    (s, (p, q) :: l)

/-- The number on a path. -/
def seqOn (l : List (Path × Nat)) (p : Path) : Nat :=
  match l.find? (fun e => e.1 = p) with
  | some e => e.2
  | none => 0

/-- Performs the stores that do not park, in order (R222); `none` when Sepia cannot hold one. -/
def State.storeAll (s : State) (k n : Nat) (sq : List (Path × Nat)) (lp : LanePos) : List LaneStore → Option State
  | [] => some s
  | x :: r =>
    match x.p.home with
    | none => s.storeAll k n sq lp r
    | some (pa, mt) =>
      if x.park then s.storeAll k n sq lp r
      else
        match s.storeN k x.p.va pa n x.v (seqOn sq (pathOfPa pa)) mt lp with
        | none => none
        | some s => s.storeAll k n sq lp r

/-- The path that a store counts on: that of its page, or path 1 where it does not translate (R216). -/
def storePath (x : LaneStore) : Path :=
  match x.p.home with
  | some (pa, _) => pathOfPa pa
  | none => .gl

/-- The pages that an instruction parks on, each once (R210). -/
def parkPages (l : List LaneStore) : List Nat :=
  ((l.filter (·.park)).map (fun x => x.p.va.toNat / 4096)).dedup

/-- Parks one entry for each page (R210). DEDUCED (log 60). -/
def State.parkAll (s : State) (k n : Nat) (sq : List (Path × Nat)) (lp : LanePos) (l : List LaneStore) : List Nat → State
  | [] => s
  | pg :: r =>
    let xs := l.filter (fun x => x.park && x.p.va.toNat / 4096 = pg)
    let ctx := match find s.groups k with
      | some g => s.ctxId g
      | none => 0
    let why := if xs.any (fun x => x.p.home.isNone) then .fault else s.behindWhy (coreOf k) ctx pg
    let path := (xs.head?.map storePath).getD .gl
    (s.parkBytes k why (xs.flatMap (fun x => vBytes x.p.va n x.v)) false path (seqOn sq path) lp).parkAll k n sq lp l r

/-- A global store of rows of `m` words, or of one element (R210, R225, R227). -/
def laneStore (s : State) (t : Ty) (f : AddrForm) (m : Nat) (o : LaneOp) : Res :=
  withLane s o (fun i =>
    let n := memBytes t
    i.withGlobal s f m n n true (fun _ => true) (fun s ps =>
      let xs := (flatten ps).map (fun e =>
        let p := e.2.2
        { p := p, v := (i.g.v (i.vd + e.2.1) e.1).toNat % 2 ^ (8 * n)
          park := p.home.isNone || s.pageParked (coreOf s.cur) (s.ctxId i.g) p.va : LaneStore })
      if ps.any (fun e => e.2.any (fun p => s.atomHit s.cur p.va n)) then .next s
      else if 32 < (s.core (coreOf s.cur)).replay.length + (parkPages xs).length && !(parkPages xs).isEmpty then
        i.block s (memRow (coreOf s.cur))
      else
        let (s1, sq) := s.countPaths s.cur ((xs.map storePath).dedup)
        match s1.storeAll s.cur n sq i.pos xs with
        | none => i.overflow s
        | some s2 => i.done (s2.parkAll s.cur n sq i.pos xs (parkPages xs)) (fun g => g)))

/-- Writes scratchpad places in order; `none` when Sepia cannot hold one. -/
def State.storeSpads (s : State) (u n : Nat) : List (SPlace × Nat) → Option State
  | [] => some s
  | (p, v) :: r =>
    match s.storeSpad u p.t p.off n v with
    | none => none
    | some s => s.storeSpads u n r

/-- A scratchpad store (R226, R227). -/
def laneStoreS (s : State) (t : Ty) (f : AddrForm) (m : Nat) (o : LaneOp) : Res :=
  withLane s o (fun i =>
    let n := memBytes t
    i.withSpad s f m n n true (fun ps =>
      let xs := (flatten ps).map (fun e => (e.2.2, (i.g.v (i.vd + e.2.1) e.1).toNat % 2 ^ (8 * n)))
      i.orOverflow s (s.storeSpads i.g.seat n xs) (fun s =>
        i.touch s (xs.map (fun x => spadPath s.cur x.1.t)) (fun g => g))))

def execVld (t : Ty) (f : AddrForm) (o : LaneOp) (s : State) : Res := laneLoad s t f 1 o
def execVst (t : Ty) (f : AddrForm) (o : LaneOp) (s : State) : Res := laneStore s t f 1 o
def execVlds (t : Ty) (f : AddrForm) (o : LaneOp) (s : State) : Res := laneLoadS s t f 1 o
def execVsts (t : Ty) (f : AddrForm) (o : LaneOp) (s : State) : Res := laneStoreS s t f 1 o
def execVldr (c : BitVec 3) (sp : Bool) (f : AddrForm) (o : LaneOp) (s : State) : Res :=
  if sp then laneLoadS s .b32 f (2 ^ c.toNat) o else laneLoad s .b32 f (2 ^ c.toNat) o
def execVstr (c : BitVec 3) (sp : Bool) (f : AddrForm) (o : LaneOp) (s : State) : Res :=
  if sp then laneStoreS s .b32 f (2 ^ c.toNat) o else laneStore s .b32 f (2 ^ c.toNat) o

/-! ### Prefetch (R228) -/

/-- Fetches the lines of a prefetch into the L1; a lane whose address would fault, wait, or meet a range lock is
dropped, and every lane when no request is free (R228). DEDUCED (log 58). -/
def State.prefetch (s : State) (k : Nat) (g : Group) : List DWord → State
  | [] => s
  | va :: r =>
    if s.requestsFull (coreOf k) then s
    else match s.translate (coreOf k) (s.ctxId g) va .read g.tclass with
    | .ok s1 pa mt =>
      if mt || s1.poolTrap pa ≠ 0 || s1.lockedG (coreOf k) (s1.ctxId g) va 1 false then s.prefetch k g r
      else (s1.fillLine (coreOf k) (pa / 128) (s1.groupConv k)).prefetch k g r
    | _ => s.prefetch k g r

/-- R228: an underflowing pop drops every lane and pops nothing; a marked entry is consumed and drops every lane. -/
def execVpf (l2 : Bool) (f : AddrForm) (o : LaneOp) (s : State) : Res :=
  withG s (fun g =>
    match g.laneQ with
    | [] => .fault .noLaneEntry
    | e :: _ =>
      let i : LaneIn := { g := g, e := e, o := o, heads := [] }
      match popHeads g (queuesOf o) with
      | .ok h =>
        let i : LaneIn := { i with heads := h }
        i.done (if l2 then s else s.prefetch s.cur g (i.lanes.map (i.ea f))) (fun g => g)
      | .wait => .next s
      | .under _ => i.done s (fun g => g)
      | .mark _ =>
        LaneIn.done { i with heads := (queuesOf o).map (fun q => (q, { mark := none })) } s (fun g => g))

/-! ### vfence (R272) -/

/-- Every access of the group's lane stream is performed with respect to a scope (R272). DEDUCED (log 59). -/
def State.lanePerformed (s : State) (k : Nat) (g : Group) (sc : Nat) : Bool :=
  !(g.infl.any (·.lane))
    && s.regQ.all (fun q => !(q.grp = k && q.lane) || (decide (sc < 2) && q.words.all (fun w => !(s.homeless q w))))
    && (s.core (coreOf k)).replay.all (fun p => !(p.grp = k && p.lane))
    && s.acks.all (fun a => !(a.grp = k && ackNeeded sc a))

/-- R272. -/
def execVfence (sc : Scope) (o : LaneOp) (s : State) : Res :=
  withLane s o (fun i =>
    let s := s.pushOut s.cur (scopeNum sc)
    match s.lostAck s.cur (scopeNum sc) with
    | some r => i.raise s.freeAddr.2 0x14 s.freeAddr.1 (BitVec.ofNat 64 (r * 65536))
    | none =>
      if s.lanePerformed s.cur i.g (scopeNum sc) then
        i.done ((s.publishVec s.cur (scopeNum sc)).acquire s.cur (scopeNum sc)) (fun g => g)
      else .next s)

/-! ### vamo (R274) -/

/-- One atomic request of a lane. -/
def LaneIn.req (i : LaneIn) (op : AtomOp) (sc : Scope) (t : Ty) (l : Nat) (va : DWord) : AtomReq :=
  { op := op, ty := t, sc := sc, addr := va, b := i.c t l, cmp := i.old l, vd := some (i.vd, l) }

/-- Scratchpad atomics in ascending lane order. -/
def LaneIn.atomsS (i : LaneIn) (op : AtomOp) (t : Ty) : List (Nat × SPlace) → State → Option (State × List LoadPart)
  | [], s => some (s, [])
  | (l, p) :: r, s =>
    match s.atomSpad i.g.seat p.t p.off op t (i.c t l) (i.old l) with
    | none => none
    | some (s1, old) =>
      (i.atomsS op t r s1).map (fun e =>
        (e.1, { path := spadPath s.cur p.t, ws := [.v i.vd l old, .v (i.vd + 1) l 0] } :: e.2))

/-- Global atomics in ascending lane order. -/
def LaneIn.atomsG (i : LaneIn) (op : AtomOp) (t : Ty) : List (Nat × DWord × Nat) → State → Option (State × List LoadPart)
  | [], s => some (s, [])
  | (l, va, pa) :: r, s =>
    match s.atomGlobal s.cur va (pa / 4) op t (i.c t l) (i.old l) with
    | none => none
    | some (s1, old, cnt) =>
      (i.atomsG op t r s1).map (fun e =>
        (e.1, { path := pathOfPa pa, ws := [.v i.vd l old, .v (i.vd + 1) l (BitVec.ofNat 32 cnt)], words := [pa / 4] } :: e.2))

/-- R274. -/
def execVamo (op : AtomOp) (sc : Scope) (t : Ty) (f : AddrForm) (o : LaneOp) (s : State) : Res :=
  withLane s o (fun i =>
    if scopeNum sc < 2 then
      i.withSpad s f 1 4 4 true (fun ps =>
        let xs := (flatten ps).map (fun e => (e.1, e.2.2))
        if i.g.late then
          i.finish s (xs.map (fun e =>
            { path := spadPath s.cur e.2.t, ws := [], atoms := [i.req op sc t e.1 e.2.va] }))
        else
          match i.atomsS op t xs s with
          | none => i.overflow s
          | some (s, l) => i.finish s l)
    else
      i.withGlobal s f 1 4 4 true (scopePermits sc op) (fun s ps =>
        i.ready s 4 ps
          (let xs := (flatten ps).map (fun e => (e.1, e.2.2.va, (e.2.2.home.getD (0, false)).1))
           if i.g.late || decide (sc = .clus) then
             i.finish s (xs.map (fun e =>
               { path := pathOfPa e.2.2, ws := [], words := [e.2.2 / 4], atoms := [i.req op sc t e.1 e.2.1] }))
           else
             match i.atomsG op t xs s with
             | none => i.overflow s
             | some (s, l) => i.finish s l)))

/-! ### vldc (R299) -/

/-- Reads every cell: per lane its value, count, poison and word (R296, R299). -/
def State.readCells (s : State) (k : Nat) : List (Nat × Nat) → State × List (Nat × Word × Nat × Bool × Nat)
  | [] => (s, [])
  | (l, pa) :: r =>
    let s := s.settleWord (coreOf k) (pa / 4)
    let v := s.homeView (pa / 4) (s.groupConv k)
    let q := s.homePois (pa / 4) (s.groupConv k)
    let (s1, xs) := s.readCells k r
    (s1, (l, viewVal v, s.cntOf pa v, q, pa) :: xs)

/-- The checks and reads that both forms of `vldc` share. -/
def cellLoad (s : State) (f : AddrForm) (o : LaneOp)
    (r : LaneIn → State → List (Nat × Word × Nat × Bool × Nat) → Res) : Res :=
  withLane s o (fun i =>
    i.withGlobal s f 1 4 4 false (fun _ => true) (fun s ps =>
      i.ready s 4 ps
        (let (s, xs) := s.readCells s.cur ((flatten ps).map (fun e => (e.1, (e.2.2.home.getD (0, false)).1)))
         r i s xs)))

/-- R299, the form with a second destination. -/
def execVldc (f : AddrForm) (o : LaneOp) (s : State) : Res :=
  cellLoad s f o (fun i s xs => i.finish s (xs.map (fun (l, v, c, q, pa) =>
    { path := pathOfPa pa, ws := [.v i.vd l v, .v (i.vd + 1) l (BitVec.ofNat 32 c)], pois := q, words := [pa / 4] })))

/-- R299, `.dq`: with the decision queue full it waits at the head (R99). -/
def execVldcDq (f : AddrForm) (o : LaneOp) (s : State) : Res :=
  cellLoad s f o (fun i s' xs =>
    if i.canPush then
      i.finishWith s' (xs.map (fun (l, v, _, q, pa) =>
        { path := pathOfPa pa, ws := [.v i.vd l v], pois := q, words := [pa / 4] }))
        (fun g => { g with decQ := g.decQ ++ [maskOf ((xs.filter (fun e => e.2.2.1 ≠ 0)).map (·.1))] })
    else .next s)

/-! ### spawn (R358, R359) -/

/-- The argument record of a lane's task. -/
def LaneIn.taskArgs (i : LaneIn) (l : Nat) : List Word := (List.range 14).map (fun r => i.g.v (srcV i.o.b + r) l)

/-- Inserts the tasks of lanes in turn; stops at one that finds no slot, which is answered. -/
def LaneIn.spawnLanes (i : LaneIn) (e : DWord) : List Nat → State → State × Option Nat
  | [], s => (s, none)
  | l :: r, s =>
    match s.insertTask (coreOf s.cur) i.g.seat (s.teamOf i.g).gw e { args := i.taskArgs l, vec := i.g.vv } with
    | none => (s, some l)
    | some s => i.spawnLanes e r s

/-- R359. The entry is checked also with no active lane. DESIGN CHOICE (log 129). -/
def execSpawn (o : LaneOp) (s : State) : Res :=
  withLane s o (fun i =>
    let e := i.e.bca
    if e.toNat % 4 ≠ 0 then i.raise s 0x04 e 0
    else if (e.truncate 57).signExtend 64 ≠ e then i.raise s 0x10 e 0
    else if !(s.lanePerformed s.cur i.g 1) then .next s
    else
      match i.spawnLanes e (i.lanes.filter (fun l => decide (i.e.prog ≤ l))) s with
      | (s, none) => i.done s (fun g => g)
      | (s, some l) =>
        .next { s with groups := upd s.groups s.cur (fun g =>
          { g.waiting s.tsc (s.gatherRow i.g) with
                   laneQ := match g.laneQ with
                     | [] => []
                     | x :: r => { x with prog := l } :: r }) })

end Sys2Proof.Machine
end

