-- ==== Sys2Proof/Machine/Capability.lean ====
section
/-! DEFINITION. The capability list (R459), the region status word (R449), and which parts are live
(R435, R467, R481). -/

namespace Sys2Proof.Machine

open Sys2Proof

/-! ### Live parts -/

/-- A die is live (R481). -/
def State.dieLive (s : State) (d : Nat) : Bool := bitOf s.live.toNat d

/-- A core is live. -/
def State.coreLive (s : State) (c : Nat) : Bool := s.dieLive (c / 64) && !(s.coreOut.contains c)

/-- A pipe is live (`p` is 4 * core + pipe). -/
def State.pipeLive (s : State) (p : Nat) : Bool := s.coreLive (p / 4) && !(s.pipeOut.contains p)

/-- A word of one bit per number from `lo`. -/
def liveWord (f : Nat → Bool) (lo : Nat) : DWord := maskOf ((List.range 64).filter (fun i => f (lo + i)))

/-- Number of live dies. -/
def State.liveDies (s : State) : List Nat := (List.range 4).filter s.dieLive

/-! ### The capability list (R459) -/

/-- Whether a port is in service and its link active (R459, R481). DESIGN CHOICE (log 6). -/
def State.portUp (s : State) (p : Nat) : Bool := (sget {} s.ports p).up && s.dieLive (portDie p)

/-- Stranded lines that a port's buffer holds (R447). -/
def State.strandedAt (s : State) (p : Nat) : Nat :=
  ((s.regions.filter (fun e => e.2.port = p)).map (fun e => e.2.strand.length)).sum

/-- DRAM GiB usable on live dies: 192 per die, less the stranded buffers of R447. DESIGN CHOICE (log 45). -/
def State.dramGiB (s : State) : Nat :=
  192 * s.liveDies.length - (if s.dieLive 0 then 2 else 0) - (if s.dieLive 2 then 2 else 0)

/-- Near memory usable on live dies in units of 64 MiB: 64 per die, less the areas of R458. -/
def State.nearUnits (s : State) : Nat :=
  64 * s.liveDies.length - (if s.dieLive 0 then 1 else 0) - (if s.dieLive 2 then 1 else 0)

/-- The service word (R459). -/
def State.serviceWord (s : State) : DWord :=
  BitVec.ofNat 64 ((if s.reduced then 1 else 0) + s.live.toNat * 2 + (if s.reduced then 2 else 0) * 2 ^ 5
    + (if s.reduced then Nat.min Config.reducedRate.toNat 143 else 144) * 2 ^ 8 + (if s.reduced then 0 else 3 * 2 ^ 16)
    + s.dramGiB * 2 ^ 32 + s.nearUnits * 2 ^ 48)

/-- Whether a link is up (R459, R481). -/
def State.linkUp (s : State) (n : Nat) : Bool := (sget {} s.links n).up && s.dieLive (n / 6)

/-- Fabric numbers to which a Slate core of a live die has a route (R461). -/
def State.reached (s : State) : List Nat :=
  ((s.routes.filter (fun e => s.dieLive (e.1 / 4096) && e.2.link.isSome)).map (fun e => e.1 % 4096)).dedup

/-- The body words of the capability entry with an id (R459). DESIGN CHOICE (log 46). -/
def State.capBody (s : State) (id : Nat) : Option (List DWord) :=
  match id with
  | 1 => some [BitVec.ofNat 64 (0xdb10 + Config.stepping.toNat * 2 ^ 16 + s.fabric.toNat * 2 ^ 32),
               BitVec.ofNat 64 (s.winBase.toNat + s.winSize.toNat * 2 ^ 24)]
  | 2 => some [s.serviceWord]
  | 3 => some ((List.range 4).map (fun i => liveWord s.coreLive (64 * i))
          ++ (List.range 16).map (fun i => liveWord s.pipeLive (64 * i)))
  | 4 => some [BitVec.ofNat 64 ((if s.portUp 0 then 1 else 0) + (if s.portUp 1 then 2 else 0)
                 + (s.regions.filter (fun e => e.2.mode ≠ 0)).length * 2 ^ 8),
               BitVec.ofNat 64 (s.strandedAt 0 + s.strandedAt 1 * 2 ^ 32)]
  | 5 => some [maskOf ((List.range 24).filter s.linkUp
                 ++ ((List.range 24).filter (fun n => (sget {} s.links n).spare)).map (fun n => 24 + n)),
               BitVec.ofNat 64 s.reached.length]
  | 6 => some [maskOf ((List.range 4).filter (fun d => (s.die d).slotB)
                 ++ ((List.range 4).filter (fun d => (s.die d).verif)).map (fun d => 4 + d)),
               s.rollback]
  | _ => none

/-- Body words of the entry with an id (R459). -/
def capWords (id : Nat) : Nat := ([0, 2, 1, 20, 2, 2, 2] : List Nat).getD id 0

/-- Where the entry with an id stands, in 8-byte units from the DVSEC base (R459): the entries follow one another in ascending
order, each a header and its body words. DESIGN CHOICE (log 46). -/
def capAt (id : Nat) : Nat := 1 + Config.capBase % 128 + ((List.range (id - 1)).map (fun i => 1 + capWords (i + 1))).sum

/-- An entry's header: id, version 1, the next entry's offset, 0 at the last, and body words (R459). -/
def capHeader (id : Nat) : Nat := id + 2 ^ 16 + (if id = 6 then 0 else capAt (id + 1)) * 2 ^ 24 + capWords id * 2 ^ 32

/-- The part of a header that `capq` answers (R431). -/
def capHead (id : Nat) : Nat := capHeader id % 2 ^ 32

/-- The answer of `capq` (R431): the word and the status. -/
def State.capAnswer (s : State) (id k : Nat) : DWord × DWord :=
  match s.capBody id with
  | none => (0, 0)
  | some b =>
    if k = 0 then (BitVec.ofNat 64 (capHead id), 1)
    else match b[k - 1]? with
      | some w => (w, 1)
      | none => (0, 2)

/-- The capability list as the host reads it: each entry's header and body (R459). -/
def State.capList (s : State) : List DWord :=
  ([1, 2, 3, 4, 5, 6] : List Nat).flatMap (fun id => BitVec.ofNat 64 (capHeader id) :: (s.capBody id).getD [])

/-- The bytes of the capability list's bodies as attestation hashes them (R463). -/
def State.capBytes (s : State) : List Byte :=
  ([1, 2, 3, 4, 5, 6] : List Nat).flatMap (fun id => ((s.capBody id).getD []).flatMap (fun w => bytesOf w.toNat 8))

/-! ### Pool regions (R449) -/

/-- The number of a region's state (R449). -/
def rgNum : RgSt → Nat
  | .up => 0 | .lost => 1 | .rejoin => 2

/-- The status word of a pool region (R449). -/
def State.regionWord (s : State) (r : Nat) : DWord :=
  let g := s.region r
  BitVec.ofNat 64 (r % 65536 + g.mode * 2 ^ 16 + rgNum g.st * 2 ^ 18 + g.port * 2 ^ 20
    + (if g.strand.isEmpty then 0 else 2 ^ 21) + g.losses.toNat * 2 ^ 32)

/-! ### Retirement requests (R435) -/

/-- The part a descriptor names; `none` when it breaks a limit (R435). -/
def parsePart (v : DWord) : Option Part :=
  let w := v.toNat
  let p : Part := { kind := field w 0 3, core := field w 3 8, pipe := field w 11 2, part := field w 13 6, die := field w 19 2 }
  let ok := match p.kind with
    | 0 => decide (p.part ≤ 32) && p.die = 0
    | 1 => decide (p.part ≤ 4) && p.die = 0
    | 2 => p.part = 0 && p.die = 0
    | 3 => p.pipe = 0 && p.part = 0 && p.die = 0
    | 4 => p.core = 0 && p.pipe = 0 && p.part = 0 && (p.die = 0 || p.die = 2)
    | 5 => p.core = 0 && p.pipe = 0 && p.part = 0
    | _ => false
  if ok && w / 2 ^ 21 = 0 then some p else none

/-- The descriptor of a part (R425, R435). -/
def partWord (p : Part) : DWord :=
  BitVec.ofNat 64 (p.kind + p.core * 2 ^ 3 + p.pipe * 2 ^ 11 + p.part * 2 ^ 13 + p.die * 2 ^ 19)

/-- The retired lane of a pipe, if it has one (R122). -/
def laneOut (v : DWord) : Option Nat := if v.getLsbD 0 then some (field v.toNat 1 6) else none

/-- The retired octet unit of a pipe, if it has one (R122). -/
def octOut (v : DWord) : Option Nat := if v.getLsbD 7 then some (field v.toNat 8 3) else none

/-- Whether the part is out of service already (R435). -/
def State.partOut (s : State) (p : Part) : Bool :=
  let pipe := 4 * p.core + p.pipe
  match p.kind with
  | 0 => !(s.pipeLive pipe) || decide (laneOut (s.pipe pipe).psteer = some p.part)
  | 1 => !(s.pipeLive pipe) || decide (octOut (s.pipe pipe).psteer = some p.part)
  | 2 => !(s.pipeLive pipe)
  | 3 => !(s.coreLive p.core)
  | 4 => s.cpDead.contains p.die
  | _ => !(s.dieLive p.die)

/-- Whether a lane or unit of the pipe is retired or about to be, other than the one named (R435). -/
def State.otherOut (s : State) (p : Part) : Bool :=
  let pipe := 4 * p.core + p.pipe
  let pend := s.retireQ.any (fun (q, _) => q.kind = p.kind && q.core = p.core && q.pipe = p.pipe && q.part ≠ p.part)
  match p.kind with
  | 0 => (laneOut (s.pipe pipe).psteer).isSome || pend
  | 1 => (octOut (s.pipe pipe).psteer).isSome || pend
  | _ => false

/-- Whether a live core would remain without the part (R435). -/
def State.coreRemains (s : State) (p : Part) : Bool :=
  let goes (c : Nat) : Bool := (p.kind = 3 && c = p.core) || (p.kind = 5 && c / 64 = p.die)
    || s.retireQ.any (fun (q, _) => (q.kind = 3 && c = q.core) || (q.kind = 5 && c / 64 = q.die))
  (List.range 256).any (fun c => s.coreLive c && !(goes c))

/-- Whether a command processor would remain without the part and those about to be retired (R435). -/
def State.cpRemains (s : State) (p : Part) : Bool :=
  if p.kind = 4 || p.kind = 5 then
    let stays (d : Nat) : Bool := !(s.cpDead.contains d) && s.dieLive d
      && s.retireQ.all (fun (q, _) => !((q.kind = 4 || q.kind = 5) && q.die = d))
    (if p.die = 0 then stays 2 else if p.die = 2 then stays 0 else true)
  else true

/-- `retire`: 0 when nothing happens, 1 when the request is taken (R435). -/
def State.requestRetire (s : State) (p : Part) : State × Bool :=
  if s.partOut p || s.otherOut p || !(s.coreRemains p) || !(s.cpRemains p) then (s, false)
  else if s.retireQ.any (fun e => e.1 = p) then (s, true)
  else ({ s with retireQ := s.retireQ ++ [(p, s.tsc)] }, true)

end Sys2Proof.Machine
end

