-- ==== Sys2Proof/Machine/Sha3.lean ====
section
/-! DEFINITION. SHA3-512 of FIPS 202, which the manual names for images, firmware and attestation (R420, R437, R462, R463): the
rotations and round constants are that standard's. PRESUMED (log 42). -/

namespace Sys2Proof.Machine

open Sys2Proof

/-- Rotations of the lanes, by x + 5y. -/
def keccakRot : List Nat :=
  [0, 1, 62, 28, 27, 36, 44, 6, 55, 20, 3, 10, 43, 25, 39, 41, 45, 15, 21, 8, 18, 2, 61, 56, 14]

/-- The constants of the 24 rounds. -/
def keccakConst : List DWord :=
  [0x0000000000000001, 0x0000000000008082, 0x800000000000808a, 0x8000000080008000, 0x000000000000808b, 0x0000000080000001]
  ++ [0x8000000080008081, 0x8000000000008009, 0x000000000000008a, 0x0000000000000088, 0x0000000080008009, 0x000000008000000a]
  ++ [0x000000008000808b, 0x800000000000008b, 0x8000000000008089, 0x8000000000008003, 0x8000000000008002, 0x8000000000000080]
  ++ [0x000000000000800a, 0x800000008000000a, 0x8000000080008081, 0x8000000000008080, 0x0000000080000001, 0x8000000080008008]

/-- The column parities folded into the lanes, and each lane rotated. -/
def keccakTheta (a : List DWord) : List DWord :=
  let at5 (i : Nat) : DWord := a.getD i 0
  let c := (List.range 5).map (fun x => at5 x ^^^ at5 (x + 5) ^^^ at5 (x + 10) ^^^ at5 (x + 15) ^^^ at5 (x + 20))
  let d := (List.range 5).map (fun x => c.getD ((x + 4) % 5) 0 ^^^ (c.getD ((x + 1) % 5) 0).rotateLeft 1)
  (List.range 25).map (fun i => (at5 i ^^^ d.getD (i % 5) 0).rotateLeft (keccakRot.getD i 0))

/-- One round: the rotated lanes at their new places, combined along their rows, and the round's constant. -/
def keccakRound (a : List DWord) (rc : DWord) : List DWord :=
  let t := keccakTheta a
  let b := (List.range 25).map (fun i => t.getD ((i % 5 + 3 * (i / 5)) % 5 + 5 * (i % 5)) 0)
  let b5 (x y : Nat) : DWord := b.getD (x % 5 + 5 * y) 0
  (List.range 25).map (fun i =>
    let x := i % 5
    let y := i / 5
    b5 x y ^^^ (~~~(b5 (x + 1) y) &&& b5 (x + 2) y) ^^^ (if i = 0 then rc else 0))

/-- The permutation of 24 rounds. -/
def keccakF (a : List DWord) : List DWord := keccakConst.foldl keccakRound a

/-- Eight bytes as a lane, least significant first. -/
def keccakLane (l : List Byte) : DWord := BitVec.ofNat 64 ((l.take 8).foldr (fun b n => b.toNat + 256 * n) 0)

/-- The lanes of a block of 72 bytes. -/
def keccakBlock : Nat → List Byte → List DWord
  | 0, _ => []
  | n + 1, l => keccakLane l :: keccakBlock n (l.drop 8)

/-- The message with the padding of SHA-3, to a multiple of 72 bytes. -/
def keccakPad (l : List Byte) : List Byte :=
  let n := 71 - l.length % 72
  if n = 0 then l ++ [0x86] else l ++ [0x06] ++ List.replicate (n - 1) 0 ++ [0x80]

/-- Absorbs `n` blocks. -/
def keccakAbsorb : Nat → List DWord → List Byte → List DWord
  | 0, a, _ => a
  | n + 1, a, l =>
    let b := keccakBlock 9 l
    keccakAbsorb n (keccakF ((List.range 25).map (fun i => a.getD i 0 ^^^ b.getD i 0))) (l.drop 72)

/-- SHA3-512 of a byte string, its 64 bytes as a number, least significant first. -/
def sha3 (l : List Byte) : BitVec 512 :=
  let m := keccakPad l
  let a := keccakAbsorb (m.length / 72) (List.replicate 25 0) m
  BitVec.ofNat 512 (((a.take 8).map BitVec.toNat).foldr (fun v n => v + 2 ^ 64 * n) 0)

end Sys2Proof.Machine
end

