-- ==== Sys2Proof/Machine/System.lean ====
section
/-! DEFINITION. Software traps, privilege, and the system instructions (R415, R426 to R438, R449). -/

namespace Sys2Proof.Machine

open Sys2Proof

/-! ### Software traps, return, nop (R427 to R429) -/

/-- R427. -/
def execTrap (n : BitVec 7) (s : State) : Res := raiseNext s (0x80 + n.zeroExtend 8) (n.zeroExtend 64)

/-- R427. -/
def execBrk (n : BitVec 13) (s : State) : Res := raiseNext s 0x0e (n.zeroExtend 64)

/-- An instruction that needs trap class, and a SYS context when `sys` (R415). -/
def withClass (s : State) (sys : Bool) (f : Group → Res) : Res :=
  withG s (fun g => if !g.tclass || (sys && !(s.ctxOf g).sys) then raise s 0x0d 0 0 else f g)

/-- R428. -/
def execRti (s : State) : Res := withClass s false (fun g => returnTrap s g)

/-- R429. -/
def execNop (s : State) : Res := doneWith s (fun g => g)

/-- R430. -/
def execHalt (a : XReg) (s : State) : Res :=
  withClass s false (fun g => .next (s.endCtx (s.ctxId g) (haltStatus (g.x a)) (slateSrc s.cur)))

/-! ### capq, prgn (R431, R449) -/

/-- R431. -/
def execCapq (d a : XReg) (s : State) : Res :=
  withG s (fun g =>
    let q := (g.x a).toNat
    let r := s.capAnswer (field q 0 16) (field q 16 16)
    done s (g.setPair d r.1 r.2))

/-- R449. -/
def execPrgn (d a : XReg) (s : State) : Res :=
  withG s (fun g =>
    let va := g.x a
    match s.translate (coreOf s.cur) (s.ctxId g) va .read g.tclass with
    | .wait s => .next s
    | .fault s => raise s 0x10 va 0
    | .ok s pa _ =>
      doneWith s (fun g => g.setX d (match poolOf pa with | some r => s.regionWord r | none => 0)))

/-! ### hcall (R432) -/

/-- The body of an HCALL completion (R452). -/
def hcallBody (g : Group) (rid : DWord) (n : BitVec 13) : List Byte :=
  bytesOf rid.toNat 8 ++ bytesOf n.toNat 2 ++ List.replicate 6 0
    ++ (List.range 7).flatMap (fun i => bytesOf (g.x (BitVec.ofNat 6 (i + 1))).toNat 8)

/-- The wait for a reply (R350, R432). -/
def hcallRow (k : Nat) : WaitRow := waitRow (coreOf k) 16 true false 0 []

/-- Posts a host call after the release (R432). -/
def postHcall (s : State) (n : BitVec 13) : Res :=
  withG s (fun g =>
    let rid := s.nextRid
    let s := s.originate 64 (hcallBody g rid n)
    let s : State := { s with hcalls := s.hcalls ++ [(rid, s.cur)], nextRid := rid + 1 }
    block s { g with hcid := some rid } (hcallRow s.cur))

/-- R432. -/
def execHcall (n : BitVec 13) (s : State) : Res :=
  withG s (fun g =>
    match g.hcid, g.hrep with
    | some _, some (a, b) =>
      doneWith (s.acquire s.cur 4) (fun g => { (g.setX 1 a).setX 2 b with hcid := none, hrep := none })
    | some _, none => block s g (hcallRow s.cur)
    | none, _ => withRelease s g 4 (fun s => postHcall (s.acquire s.cur 4) n))

/-! ### chkmode, clkmode (R433, R434) -/

/-- R433. Every core applies the mode at once, as the instruction completes. DESIGN CHOICE (log 165). -/
def execChkmode (a : XReg) (s : State) : Res :=
  withClass s false (fun g =>
    if 2 < (g.x a).toNat then raise s 0x21 0 0
    else if g.laneBusy then waitLane s g
    else done (s.setCtx g (fun c => { c with chk := (g.x a).truncate 2 })) g)

/-- The ratio of a mode number (R434). -/
def ratioOf (n : Nat) : Ratio := if n = 0 then .double else if n = 1 then .equal else .half

/-- REFILL as it acts (R473). -/
def refillOf (c : Core) : Nat := Nat.min c.refill.toNat 256

/-- The allowance counter of a core now (R473). -/
def State.allowNow (s : State) (c : Nat) : Nat :=
  let k := s.core c
  Nat.min 65535 (k.allow.toNat + refillOf k * laneClocks (s.ratioNow c) k.fillT.toNat s.tsc.toNat)

/-- The allowance counter takes what it was refilled so far, before REFILL or the ratio changes. -/
def State.settleAllow (s : State) (c : Nat) : State :=
  s.setCore c { s.core c with allow := BitVec.ofNat 16 (s.allowNow c), fillT := s.tsc }

/-- R434. Under reduced service nothing is applied (R479). DEDUCED (log 43). -/
def execClkmode (d a : XReg) (s : State) : Res :=
  withClass s true (fun g =>
    let m := (g.x a).toNat
    let c := coreOf s.cur
    let co := s.core c
    if 2 < m then raise s 0x21 0 0
    else if s.reduced then done s (g.setX d 2)
    else if co.droop && m ≠ 2 then done (s.setCore c { co with recd := some (ratioOf m) }) (g.setX d 2)
    else done (s.setCore c { (s.settleAllow c).core c with ratio := ratioOf m, recd := none, chgClk := some (s.tsc + 1000) })
      (g.setX d (BitVec.ofNat 64 m)))

/-! ### retire (R435) -/

/-- R435. DEDUCED (log 44). -/
def execRetire (d a : XReg) (s : State) : Res :=
  withClass s true (fun g =>
    match parsePart (g.x a) with
    | none => raise s 0x21 0 0
    | some p =>
      let r := s.requestRetire p
      done r.1 (g.setX d (if r.2 then 1 else 0)))

/-! ### ctxsv, ctxld (R420, R436, R437) -/

/-- 64-bit words of bytes. -/
def dwords (l : List Byte) (n : Nat) : List DWord := (List.range n).map (fun i => BitVec.ofNat 64 (numAt l (8 * i) 8))

/-- The body of a saved team's image: its encoding is the device's own (R420). UNVERIFIED (log 41). -/
def imageBody (sv : Saved) : List Byte :=
  (List.range (imageBytes sv.team sv.groups - 256)).map (Config.imageByte sv.uid)

/-- The image of a saved team (R420). -/
def imageOf (s : State) (sv : Saved) (teams : Nat) : List Byte :=
  let cx := (find s.ctxs sv.team.ctx).getD {}
  let da := match find s.launches sv.team.launch with
    | some l => l.daddr
    | none => 0
  bytesOf 1 4 ++ bytesOf (imageBytes sv.team sv.groups) 4 ++ bytesOf (ctxImage sv.team.ctx cx).toNat 8
    ++ bytesOf teams 2 ++ bytesOf sv.pos 2 ++ bytesOf 0 4 ++ bytesOf da.toNat 8 ++ bytesOf s.tsc.toNat 8
    ++ List.replicate 24 0 ++ bytesOf (sha3 (imageBody sv)).toNat 64 ++ List.replicate 128 0 ++ imageBody sv

/-- Trap-class stores of 64-bit words, page by page, by group `k`, each behind a store that is parked on its page (R210): `false`
after a page fault, or the range-locked trap of a store, at trap class a double fault too (R257, R413, R436). -/
def State.storeImage (s : State) (k : Nat) (va : DWord) : Nat → List DWord → State × Bool
  | 0, _ => (s, true)
  | n + 1, l =>
    if l.isEmpty then (s, true)
    else
      match s.translate (coreOf k) (((find s.groups k).map s.ctxId).getD 0) va .write true with
      | .ok s pa mt =>
        if s.poolTrap pa ≠ 0 || s.lockedG (coreOf k) (((find s.groups k).map s.ctxId).getD 0) va (8 * (l.take 512).length) true then
          (s, false)
        else (s.storeFields k va pa mt (l.take 512)).storeImage k (va + 4096) n (l.drop 512)
      | .wait s => (s, false)
      | .fault s => (s, false)

/-- Writes the images of a save, each at a multiple of 4,096 bytes, and their total bytes (R420, R436). -/
def State.storeImages (s : State) (k : Nat) (va : DWord) (teams : Nat) : List Saved → Nat → State × Bool × Nat
  | [], tot => (s, true, tot)
  | sv :: r, tot =>
    let n := imageBytes sv.team sv.groups
    match s.storeImage k va (n / 4096 + 1) (dwords (imageOf s sv teams) (n / 8)) with
    | (s, false) => (s, false, tot)
    | (s, true) => s.storeImages k (va + BitVec.ofNat 64 (roundUp n 4096)) teams r (tot + n)

/-- The teams of a seat's instance are saved by the `ctxsv` of group `k` alone (R436). -/
def State.claimSave (s : State) (k t : Nat) : State :=
  (s.preemptSet t).foldl (fun s u => { s with teams := upd s.teams u (fun tm => { tm with saver := some k }) }) s

/-- The replay queue takes the pages of the images of a save at `va` that hold parked stores, behind which they go (R210). -/
def State.imagesFit (s : State) (k : Nat) (va : DWord) : Bool :=
  let c := coreOf k
  let ctx := ((find s.groups k).map s.ctxId).getD 0
  let inst := (s.saved.getLast?.map (·.inst)).getD 0
  let n := ((s.saved.filter (fun v => v.inst = inst)).map (fun v => roundUp (imageBytes v.team v.groups) 4096)).sum / 4096
  let pages := (((s.core c).replay.filter (fun p => p.ctx = ctx)).flatMap (fun p => p.bytes.map (fun b => b.1 / 4096))).dedup
  let m := (pages.filter (fun p => decide (va.toNat / 4096 ≤ p) && decide (p < va.toNat / 4096 + n))).length
  m = 0 || decide ((s.core c).replay.length + m ≤ 32)

/-- The images that a `ctxsv` has written are performed at dev scope: the instruction completes (R242, R436). -/
def endSave (s : State) (g : Group) : Res :=
  if s.acked s.cur 3 && s.regQ.all (fun q => q.grp ≠ s.cur) && (s.core (coreOf s.cur)).replay.all (fun p => p.grp ≠ s.cur) then
    done s { g with relW := false }
  else .next s

/-- Writes the images of the save made last, and their total bytes to xd (R420, R436). -/
def writeSave (d : XReg) (va : DWord) (s : State) : Res :=
  let inst := (s.saved.getLast?.map (·.inst)).getD 0
  let s : State := { s with saved := s.saved.map (fun v =>
    if v.inst = inst then { v with hash := some (sha3 (imageBody v)) } else v) }
  let l := s.saved.filter (fun v => v.inst = inst)
  match s.storeImages s.cur va l.length l 0 with
  | (s, false, _) => .next (s.doubleFault s.cur)
  | (s, true, n) =>
    let s : State := { s.flushGroup s.cur with images := s.images ++ [l] }
    withG s (fun g => .next (s.setGrp { g.setX d (BitVec.ofNat 64 n) with relW := true }))

/-- R436. DEDUCED (log 40). -/
def execCtxsv (d a b : XReg) (s : State) : Res :=
  withClass s true (fun g =>
    if g.relW then endSave s g
    else
      let h := (g.x a).toNat
      let va := g.x b
      let t := 16 * (h % 256) + h / 256 % 16
      let mineInst := (s.teamOf g).inst
      let held := match find s.teams t with
        | some tm => t ≠ g.seat && tm.inst ≠ mineInst
        | none => false
      if h / 4096 ≠ 0 || !held then raise s 0x21 0 0
      else if !(canonA va) then raise s 0x10 va 256
      else if va.toNat % 4096 ≠ 0 then raise s 0x12 va 256
      else
        match (s.claimSave s.cur t).preemptTeam t with
        | (s, false) => .next s
        | (s1, true) => if s1.imagesFit s.cur va then writeSave d va s1 else block s g (memRow (coreOf s.cur)))

/-- The header of an image is accepted (R437): FORMAT 1, zero reserved bytes, a matching hash. -/
def imageOk (h body : List Byte) : Bool :=
  numAt h 0 4 = 1 && numAt h 0x14 4 = 0 && ((h.drop 0x28).take 24).all (fun b => b = 0)
    && ((h.drop 0x80).take 128).all (fun b => b = 0) && numAt h 0x40 64 = (sha3 body).toNat

/-- The bytes of 64-bit words. -/
def bytesOfDws (l : List DWord) : List Byte := l.flatMap (fun w => bytesOf w.toNat 8)

/-- The core for position 0 of a load: the one named, or the first that admits the save (R437). -/
def State.loadCore (s : State) (l : List Saved) (b : DWord) : Option (State × Nat) :=
  if b = BitVec.allOnes 64 then (List.range 256).findSome? (fun c => s.restoreImages l c)
  else s.restoreImages l (b.toNat % 256)

/-- Whether a named core can ever hold the rectangle (R437). -/
def State.rectFits (s : State) (l : List Saved) (b : DWord) : Bool :=
  let i := (l.head?.map (·.instR)).getD { launch := 0 }
  b = BitVec.allOnes 64 ||
    (match rectOf (b.toNat % 256) i.rows i.cols with
     | some cs => cs.all s.coreLive
     | none => false)

/-- What the body of an image that this device did not write holds: its encoding is that of the device that wrote it (R420), so a
free value. UNVERIFIED (log 41). -/
opaque Config.imageTeam : List Byte → Saved

/-- How the images of a save that stand in memory read: as saved teams, with or without poison; as none; or not now, or a
trap. -/
inductive ImgRes where
  | ok (s : State) (pois : Bool) (l : List Saved)
  | bad
  | read (r : RdRes)

/-- Reads the images of a save of this device from an address on, each at a multiple of 4,096 bytes, and checks headers and hashes
(R420, R437). -/
def State.readImages (s : State) (k : Nat) (g : Group) (va : DWord) (all : List Saved) (pois : Bool) : List Saved → ImgRes
  | [] => .ok s pois all
  | sv :: r =>
    let n := imageBytes sv.team sv.groups
    match s.readDw k g va 8 false (n / 8) with
    | .ok s l p =>
      let b := bytesOfDws l
      if numAt b 4 4 = n && imageOk b (b.drop 256) && sv.hash = some (BitVec.ofNat 512 (numAt b 0x40 64)) then
        s.readImages k g (va + BitVec.ofNat 64 (roundUp n 4096)) all (pois || p) r
      else .bad
    | x => .read x

/-- The saved team of an image of another device: its header's context and position, and what its body holds, under a new number. -/
def foreignTeam (uid : Nat) (b : List Byte) : Saved :=
  let v := Config.imageTeam b
  { v with pos := numAt b 0x12 2, uid := uid, hash := some (BitVec.ofNat 512 (numAt b 0x40 64))
           instR := { v.instR with launch := 0 }, team := { v.team with ctx := numAt b 8 2, launch := 0 } }

/-- Reads `n` images of another device from an address on (R420, R437): FORMAT 1, zero reserved bytes and a matching hash, of a
context that runs here. DESIGN CHOICE (log 155). -/
def State.readForeign (s : State) (k : Nat) (g : Group) (va : DWord) (pois : Bool) : Nat → List Saved → ImgRes
  | 0, acc => if acc.isEmpty then .bad else .ok s pois acc.reverse
  | c + 1, acc =>
    match s.readDw k g va 8 false 32 with
    | .ok s h p =>
      let n := numAt (bytesOfDws h) 4 4
      match s.readDw k g va 8 false ((n + 7) / 8) with
      | .ok s l q =>
        let b := (bytesOfDws l).take n
        if 256 ≤ n && imageOk b (b.drop 256) && s.ctxOpen (numAt b 8 2) then
          ({ s with nextUid := s.nextUid + 1 } : State).readForeign k g (va + BitVec.ofNat 64 (roundUp n 4096)) (pois || p || q) c
            (foreignTeam (4096 + s.nextUid) b :: acc)
        else .bad
      | x => .read x
    | x => .read x

/-- Reads the images of the save whose first header is `h` (R437): those of a save that this device wrote, told by its hash, or of
another. -/
def State.loadImages (s : State) (k : Nat) (g : Group) (va : DWord) (h : List DWord) : ImgRes :=
  match s.images.find? (fun l => (l.head?.bind (·.hash)) = some (BitVec.ofNat 512 (numAt (bytesOfDws h) 0x40 64))) with
  | some l => s.readImages k g va l false l
  | none => s.readForeign k g va false (numAt (bytesOfDws h) 0x10 2) []

/-- R437. -/
def execCtxld (d a b : XReg) (s : State) : Res :=
  withClass s true (fun g =>
    withRead s (g.x a) 8 32 false (fun s g h _ =>
      match s.loadImages s.cur g (g.x a) h with
      | .bad => raise s 0x21 0 0
      | .read (.trap s num va i) => raise s num va i
      | .read _ => .next s
      | .ok s p l =>
        if !(s.rectFits l (g.x b)) then raise s 0x21 0 0
        else
          match s.loadCore l (g.x b) with
          | none => .next s
          | some (s, t) =>
            doneWith (s.consumeIf s.cur p) (fun g => g.setX d (BitVec.ofNat 64 (teamCore t + t % 16 * 256)))))

/-! ### tlbflush (R438) -/

/-- Whether an entry is selected by a `tlbflush` (R438). -/
def tlbSelects (mode ctx va : Nat) (e : TlbEnt) : Bool :=
  if mode = 0 then e.ctx = ctx && e.vpn = va % 2 ^ 57 / e.size
  else if mode = 1 then e.ctx = ctx
  else true

/-- Invalidates the selected entries of every L1 TLB and translation unit (R438). -/
def State.flushTlb (s : State) (mode ctx va : Nat) : State :=
  { s with
    cores := s.cores.map (fun e => (e.1, { e.2 with tlb := e.2.tlb.filter (fun x => !(tlbSelects mode ctx va x)) }))
    dtlb := s.dtlb.filter (fun x => !(tlbSelects mode ctx va x.2)) }

/-- R438. -/
def execTlbflush (a b : XReg) (s : State) : Res :=
  withClass s false (fun g =>
    let m := (g.x b).toNat
    let mode := m % 4
    if mode = 3 || m / 4 % 2 ^ 14 ≠ 0 || m / 2 ^ 32 ≠ 0 || (mode = 0 && !(canonA (g.x a))) then raise s 0x21 0 0
    else withRelease s g 3 (fun s =>
      doneWith ((s.acquire s.cur 3).flushTlb mode (field m 16 16) (g.x a).toNat) (fun g => g)))

end Sys2Proof.Machine
end

