-- ==== Sys2Proof/Machine/Streams.lean ====
section
/-! DEFINITION. What surrounds an instruction's meaning in its stream: the registers it names, lookahead windows and
stalls (R54 to R57), the register-range check (R335), Sepia's register captures (R378), the passing of time, the power
allowance (R347, R473) and twin-issue (R117 to R122, R162). -/

namespace Sys2Proof.Machine

open Sys2Proof

/-! ### The registers an instruction names (R55) -/

/-- The registers that an instruction reads and writes. -/
structure RegSets where
  xr : List XReg := []
  xw : List XReg := []
  kr : List KReg := []
  kw : List KReg := []
  vr : List Nat := []
  vw : List Nat := []
  /-- Scalar registers that the instruction writes without naming them. -/
  xi : List XReg := []
  deriving DecidableEq, Repr, Inhabited

/-- A scalar destination with its companion. -/
def pairOf (d : XReg) : List XReg := [d, d + 1]

/-- The destinations of an atomic with a count: none beside x0 when it names x0 (R273, R275). -/
def pairOr0 (d : XReg) : List XReg := if d = 0 then [0] else pairOf d

/-- An instruction with scalar sources and destinations. -/
def xs (r w : List XReg) : RegSets := { xr := r, xw := w }

/-- Registers of a scalar instruction of three operands. -/
def aluSets : Instr → Option RegSets
  | .add d a b => some (xs [a, b] [d]) | .sub d a b => some (xs [a, b] [d]) | .and d a b => some (xs [a, b] [d])
  | .or d a b => some (xs [a, b] [d]) | .xor d a b => some (xs [a, b] [d]) | .andn d a b => some (xs [a, b] [d])
  | .shl d a b => some (xs [a, b] [d]) | .shr d a b => some (xs [a, b] [d]) | .sar d a b => some (xs [a, b] [d])
  | .rol d a b => some (xs [a, b] [d]) | .min d a b => some (xs [a, b] [d]) | .max d a b => some (xs [a, b] [d])
  | .minn d a b => some (xs [a, b] [d]) | .maxn d a b => some (xs [a, b] [d]) | .mul d a b => some (xs [a, b] [d])
  | .mulh d a b => some (xs [a, b] [d]) | .mulhn d a b => some (xs [a, b] [d]) | .div d a b => some (xs [a, b] [d])
  | .divn d a b => some (xs [a, b] [d]) | .rem d a b => some (xs [a, b] [d]) | .remn d a b => some (xs [a, b] [d])
  | .clz d a => some (xs [a] [d]) | .ctz d a => some (xs [a] [d]) | .popc d a => some (xs [a] [d])
  | .sextI8 d a => some (xs [a] [d]) | .sextI16 d a => some (xs [a] [d]) | .sextI32 d a => some (xs [a] [d])
  | .zextN8 d a => some (xs [a] [d]) | .zextN16 d a => some (xs [a] [d]) | .zextN32 d a => some (xs [a] [d])
  | .addi d a _ => some (xs [a] [d]) | .andi d a _ => some (xs [a] [d]) | .ori d a _ => some (xs [a] [d])
  | .xori d a _ => some (xs [a] [d]) | .shli d a _ => some (xs [a] [d]) | .shri d a _ => some (xs [a] [d])
  | .sari d a _ => some (xs [a] [d]) | .lih d a _ => some (xs [a] [d]) | .adr d a _ => some (xs [a] [d])
  | .seq d a b => some (xs [a, b] [d]) | .sne d a b => some (xs [a, b] [d]) | .slt d a b => some (xs [a, b] [d])
  | .sltn d a b => some (xs [a, b] [d]) | .sle d a b => some (xs [a, b] [d]) | .slen d a b => some (xs [a, b] [d])
  | .sel d c a b => some (xs [c, a, b] [d])
  | .adrpc d _ => some (xs [] [d])
  | _ => none

/-- Registers of a control transfer or a mask instruction. DEDUCED (log 65). -/
def controlSets : Instr → Option RegSets
  | .beq a b _ => some (xs [a, b] []) | .bne a b _ => some (xs [a, b] []) | .blt a b _ => some (xs [a, b] [])
  | .bge a b _ => some (xs [a, b] []) | .bltn a b _ => some (xs [a, b] []) | .bgen a b _ => some (xs [a, b] [])
  | .bz a _ => some (xs [a] []) | .bnz a _ => some (xs [a] []) | .loop a _ => some (xs [a] [a])
  | .bkany k _ => some { kr := [k] } | .bkall k _ => some { kr := [k] } | .bknone k _ => some { kr := [k] }
  | .calli a => some (xs [a] []) | .jmpi a => some (xs [a] [])
  | .dpop d => some (xs [] [d])
  | .kpush k => some { kr := [k] }
  | .kmovKK d a => some { kr := [a], kw := [d] }
  | .kmovKX d a => some { xr := [a], kw := [d] }
  | .kmovXK d a => some { kr := [a], xw := [d] }
  | .kand d a b => some { kr := [a, b], kw := [d] }
  | .kor d a b => some { kr := [a, b], kw := [d] }
  | .kxor d a b => some { kr := [a, b], kw := [d] }
  | .knot d a => some { kr := [a], kw := [d] }
  | .kpopc d a => some { kr := [a], xw := [d] }
  | .mfs d _ => some (xs [] [d]) | .mts a _ => some (xs [a] [])
  | _ => none

/-- Registers of a scalar memory, ordering or cell instruction. DEDUCED (log 64). -/
def memorySets : Instr → Option RegSets
  | .ldx d a _ _ => some (xs [a] [d]) | .ldxI32 d a _ _ => some (xs [a] [d])
  | .ldxs d a _ _ => some (xs [a] [d]) | .ldxsI32 d a _ _ => some (xs [a] [d])
  | .stx d a _ => some (xs [d, a] []) | .stxB32 d a _ => some (xs [d, a] [])
  | .stxs d a _ => some (xs [d, a] []) | .stxsB32 d a _ => some (xs [d, a] [])
  | .acq _ d a _ => some (xs [a] [d]) | .rel _ d a => some (xs [d, a] [])
  | .amo op _ d a b => some (xs (if op = .cas then [d, a, b] else [a, b]) (pairOr0 d))
  | .ldc d a _ _ => some (xs [a] (pairOf d)) | .ldsib d a _ _ => some (xs [a] (pairOf d))
  | .rcn _ d a => some (xs [a] (pairOf d)) | .rcnw d a b => some (xs [d, a, b] [d])
  | .vvrd d a => some (xs [a] [d]) | .vvfold a => some (xs [a] [])
  | .clean a b => some (xs [a, b] []) | .inval a b => some (xs [a, b] [])
  | .spset _ a b => some (xs [a, b] [])
  | .wait _ a => some (xs [a] []) | .cntrd _ d => some (xs [] [d])
  | .bop _ d a b => some (xs [d, a, b] (if d = 0 then [0] else [d + 1])) | .bred _ d a b => some (xs [a, b] (pairOr0 d))
  | .await _ _ d a b => some (xs [a, b] [d])
  | _ => none

/-- Registers of a copy, work, recovery or system instruction. `hcall` reads x1 to x7 and writes x1 and x2 (R432); `rti` writes
x60 to x63 (R428). -/
def workSets : Instr → Option RegSets
  | .cpgo _ b => some (xs [b] []) | .cpseal d _ => some (xs [] [d]) | .cpwait d _ b => some (xs [b] [d])
  | .cpstat d _ => some (xs [] (pairOf d)) | .cpabort d _ => some (xs [] [d]) | .cpflt d _ => some (xs [] (pairOf d))
  | .tspawn a b => some (xs (a :: (List.range 7).map (fun i => b + BitVec.ofNat 6 i)) [])
  | .watch d a => some (xs [a] [d]) | .unwatch d a => some (xs [a] [d])
  | .claim d a => some (xs [a] [d]) | .give d a => some (xs [a] [d]) | .regroup d a => some (xs [a] [d])
  | .barinit _ b => some (xs [b] []) | .bararr d _ => some (xs [] [d]) | .barwait _ b => some (xs [b] [])
  | .qinit _ b => some (xs [b] []) | .qpush _ b => some (xs [b] []) | .qpop d _ => some (xs [] [d])
  | .qtry d _ => some (xs [] (pairOf d)) | .nap a => some (xs [a] [])
  | .ensure a b => some (xs [a, b] []) | .accept a => some (xs [a] [])
  | .cvjoin d a => some (xs [a] [d]) | .chkerr d => some (xs [] [d])
  | .hcall _ => some (xs [1, 2, 3, 4, 5, 6, 7] [1, 2])
  | .rti => some { xi := [60, 61, 62, 63] }
  | .halt a => some (xs [a] []) | .capq d a => some (xs [a] (pairOf d)) | .chkmode a => some (xs [a] [])
  | .clkmode d a => some (xs [a] [d]) | .retire d a => some (xs [a] [d])
  | .ctxsv d a b => some (xs [a, b] [d]) | .ctxld d a b => some (xs [a, b] [d])
  | .tlbflush a b => some (xs [a, b] []) | .prgn d a => some (xs [a] [d])
  | _ => none

/-- Whether vd's registers are sources alone. -/
def dstRead : Instr → Bool
  | .maccSt _ => true | .maccAdd _ _ => true | .vst _ _ _ => true | .vsts _ _ _ => true | .vstr _ _ _ _ => true
  | .sacc _ _ _ _ => true
  | _ => false

/-- Whether the windows of an instruction's rule are those of vd. -/
def dstWin : Instr → Bool
  | .mfrag _ _ _ _ => true | .mtr _ _ _ _ => true | .maccLd _ => true | .maccSt _ => true | .maccAdd _ _ => true
  | .crtAcc _ _ => true | .fxcvt _ _ _ _ _ => true | .dqnt _ _ _ => true
  | .vld _ _ _ => true | .vst _ _ _ => true | .vlds _ _ _ => true | .vsts _ _ _ => true
  | .vldr _ _ _ _ => true | .vstr _ _ _ _ => true | .vamo _ _ _ _ _ => true | .vldc _ _ => true | .vldcDq _ _ => true
  | _ => false

/-- The mask register that an entry reads beside km. -/
def kSource : Instr → List KReg
  | .vsel k _ => [k]
  | _ => []

/-- The register of a kind-0 source that the entry uses. -/
def srcRegs (k : Kinds) : Src → List Nat
  | .v r => if k = .unused then [] else [r.toNat]
  | _ => []

/-- The mask register of a km field. -/
def kmRegs : Km → List KReg
  | .all => []
  | .on k => [k]
  | .off k => [k]

/-- Registers of a lane instruction under its rule: windows and vd are sources too, which adds no dependence to what
it writes. -/
def laneSets (i : Instr) (o : LaneOp) (r : LaneRule) : RegSets :=
  let win := r.wins.flatMap (fun w => (List.range w.2.1).map (fun n => w.1 + n))
  let dst := if r.dst && !r.mdst then (if dstWin i then win else [o.d.toNat]) else []
  { vr := srcRegs r.ka o.a ++ srcRegs r.kb o.b ++ srcRegs r.kc o.c ++ win ++ dst
    vw := if dstRead i then [] else dst
    kr := kmRegs o.km ++ kSource i
    kw := if r.mdst then [BitVec.ofNat 3 o.d.toNat] else [] }

/-- The registers that an instruction names. -/
def setsOf (i : Instr) : RegSets :=
  match i.laneRule with
  | some (o, r) => laneSets i o r
  | none =>
    match aluSets i with
    | some x => x
    | none => match controlSets i with
      | some x => x
      | none => match memorySets i with
        | some x => x
        | none => (workSets i).getD {}

/-- The registers of R55: x0 and k0 are never a dependence. -/
def regIds (x : List XReg) (k : List KReg) (v : List Nat) : List RegId :=
  (x.filter (fun r => r ≠ 0)).map (fun r => RegId.x r.toNat) ++ (k.filter (fun r => r ≠ 0)).map (fun r => RegId.k r.toNat)
    ++ v.map RegId.v

/-- Registers read, as dependences. -/
def RegSets.reads (r : RegSets) : List RegId := regIds r.xr r.kr r.vr

/-- Destination registers that an instruction names. -/
def RegSets.dests (r : RegSets) : List RegId := regIds r.xw r.kw r.vw

/-- Registers written, as dependences. -/
def RegSets.writes (r : RegSets) : List RegId := r.dests ++ regIds r.xi [] []

/-- A writer: its entry gives it a destination register, x0 included (R55). -/
def RegSets.writer (r : RegSets) : Bool := !(r.xw.isEmpty && r.kw.isEmpty && r.vw.isEmpty)

/-- The lookahead field of an instruction (R54). -/
def lookaheadOf : Instr → Nat
  | .ldx _ _ la _ => la.toNat | .ldxI32 _ _ la _ => la.toNat | .ldxs _ _ la _ => la.toNat | .ldxsI32 _ _ la _ => la.toNat
  | .acq _ _ _ la => la.toNat | .ldc _ _ la _ => la.toNat | .ldsib _ _ la _ => la.toNat
  | i => match i.laneRule with
    | some (o, _) => o.la.toNat
    | none => 0

/-! ### Windows and stalls (R55 to R57) -/

/-- Whether an instruction depends on the one that opened a window. -/
def Window.hits (w : Window) (r : RegSets) : Bool :=
  (r.reads ++ r.writes).any (fun x => w.writes.contains x) || r.writes.any (fun x => w.reads.contains x)

/-- The windows after an instruction has issued: a writer is counted by each, and its own window opens; at most eight
stay open. -/
def noteWindows (l : List Window) (r : RegSets) (la : Nat) : List Window :=
  let l := if r.writer then (l.map (fun w => { w with left := w.left - 1 })).filter (fun w => w.left ≠ 0) else l
  if la = 0 then l else ({ writes := r.writes, reads := r.reads, left := la } :: l).take 8

/-- Registers that loads and atomics in flight will write (R55). -/
def pendingRegs (g : Group) : List RegId :=
  g.infl.flatMap (fun i =>
    i.writes.map (fun w => match w with | .x n _ => RegId.x n | .v n _ _ => RegId.v n)
    ++ i.atoms.flatMap (fun a => (match a.xd with | some n => [RegId.x n, RegId.x (n + 1)] | none => [])
      ++ (match a.vd with | some (n, _) => [RegId.v n, RegId.v (n + 1)] | none => [])))

/-- A dependent instruction beyond every window stalls until the pending registers clear (R56). -/
def stalls (g : Group) (r : RegSets) : Bool := (r.reads ++ r.writes).any (fun x => (pendingRegs g).contains x)

/-- The first register that a lane instruction names at or beyond the allotment (R335). DEDUCED (log 68). -/
def outOfRange (g : Group) (r : RegSets) : Option Nat := (r.vr ++ r.vw).find? (fun n => decide (g.allot ≤ n))

/-! ### Time (R20, R21, R375, R414, R473) -/

/-- A group's handler budget after some lane-clocks at trap class (R414). -/
def Group.spend (g : Group) (n : Nat) : Group := if g.tclass then { g with budget := g.budget + n } else g

/-- A team's current alternates after some lane-clocks (R375). -/
def Team.spend (t : Team) (n : Nat) : Team := if t.passed then t else { t with levels := t.levels.map (fun l => { l with spent := l.spent + n }) }

/-- Time passes: the counter of R21, handler budgets and the cycle counts of open alternates. -/
def State.pass (s : State) (n : Nat) : State :=
  let t := s.tsc.toNat
  let lc (c : Nat) : Nat := laneClocks (s.ratioNow c) t (t + n)
  { s with
    tsc := s.tsc + BitVec.ofNat 64 n
    groups := s.groups.map (fun e => (e.1, e.2.spend (lc (coreOf e.1))))
    teams := s.teams.map (fun e => (e.1, e.2.spend (lc (teamCore e.1)))) }

/-! ### The power allowance (R347, R473) -/

/-- Weight of an issue cycle of a lane instruction, and its issue cycles (R114, R186, R347); matrix-class instructions
weigh 32 for each issuing octet. -/
def weightOf : Instr → Nat × Nat
  | .fadd _ _ _ => (8, 1) | .fsub _ _ _ => (8, 1) | .fmul _ _ _ => (8, 1) | .ffma _ _ _ => (8, 1)
  | .fmin _ _ => (8, 1) | .fmax _ _ => (8, 1) | .fcmp _ _ => (8, 1) | .fint _ _ _ => (8, 1)
  | .fcvt _ _ _ _ _ _ _ => (8, 1) | .vcvt _ _ _ _ _ _ => (8, 1)
  | .frcp _ _ => (12, 4) | .frsq _ _ => (12, 4) | .fsqrt _ _ => (12, 4) | .fexp2 _ _ => (12, 4) | .flog2 _ _ => (12, 4)
  | .crt _ => (8, 1) | .crtAcc _ _ => (8, 1) | .rwadd _ => (8, 1) | .rwfrom _ => (8, 1) | .sbmax _ _ _ => (8, 1) | .sbcvt _ _ _ => (8, 1)
  | .qnt _ _ _ _ => (8, 1) | .dqnt _ _ _ => (8, 1) | .olx _ => (8, 1)
  | .sacc _ _ _ _ => (16, 8) | .fxzero _ => (16, 4) | .fxadd _ _ _ => (16, 8) | .fxcvt _ _ _ _ _ => (16, 4)
  | .vld _ _ _ => (6, 1) | .vst _ _ _ => (6, 1) | .vlds _ _ _ => (6, 1) | .vsts _ _ _ => (6, 1)
  | .vldr _ _ _ _ => (6, 1) | .vstr _ _ _ _ => (6, 1) | .vpf _ _ _ => (6, 1) | .vfence _ _ => (6, 1)
  | .vamo _ _ _ _ _ => (6, 1) | .vldc _ _ => (6, 1) | .vldcDq _ _ => (6, 1) | .spawn _ => (6, 1)
  | _ => (4, 1)

/-- Matrix-class instructions (R34, R147). -/
def isMatrix : Instr → Bool
  | .mmaF _ _ _ _ _ => true | .mmaH _ _ _ _ => true | .mmaI _ _ _ _ _ => true | .mzero _ => true
  | .mfrag _ _ _ _ => true | .mtr _ _ _ _ => true | .maccLd _ => true | .maccSt _ => true | .maccAdd _ _ => true
  | _ => false

/-- Instructions that run on octet units (R148, R162): every other matrix-class instruction runs on the lanes, and its
mismatches are in PCHKLOG. DESIGN CHOICE (log 142). -/
def onOctets : Instr → Bool
  | .mmaF _ _ _ _ _ => true | .mmaH _ _ _ _ => true | .mmaI _ _ _ _ _ => true
  | _ => false

/-- Issuing octets of a lane instruction in a half of a width-64 group, or in its only half (R147, R148). -/
def octetsIn (g : Group) (e : LaneEntry) (km : Km) (h : Nat) : Nat :=
  ((List.range 4).filter (fun j => (activeOf g e km >>> (8 * (4 * h + j))) &&& 0xff ≠ 0)).length

/-- A group that takes part in an issue cycle: its key, itself, its head entry and the instruction there. -/
abbrev Member := Nat × Group × LaneEntry × Instr

/-- Whether a group runs in a slot, or a slot octet (R111, R148). -/
def Group.inSlot (oct : Bool) (x : Nat) (g : Group) : Bool :=
  if oct then coversOct g.soff g.gw x else decide (g.soff ≤ x) && decide (x < g.soff + Nat.min g.gw 32)

/-- The lane that a lane-check fault names (R405): the logical lane of a slot, or the first lane of an octet. -/
def slotLane (g : Group) (oct : Bool) (slot half : Nat) : Nat :=
  if oct then 8 * (slot - g.soff / 8) + 32 * half else slot - g.soff + 32 * half

/-- Whether an instruction writes vd in every executing lane, members or not (R116, R195). -/
def crossWrites : Instr → Bool
  | .vshfl _ _ => true | .vshift _ _ => true | .vrot _ _ => true | .vbcast _ => true | .vredV _ _ _ => true
  | .vscan _ _ _ _ => true | .sbmax _ oct _ => oct
  | _ => false

/-- The lanes whose results an instruction gives: the active ones, or the executing ones where it writes them all (R116); a mask
or a decision-queue entry is made in every lane of the group (R119). -/
def lanesGiven (g : Group) (e : LaneEntry) (i : Instr) : DWord :=
  match i.laneRule with
  | none => 0
  | some (o, r) =>
    if r.mdst || entryPushes e.bits.toNat ≠ 0 then g.wMask
    else if crossWrites i then execsOf g e
    else activeOf g e o.km

/-- Whether an instruction of a cycle has results to compare in slot `x`, or in slot octet `x`, of half `h` (R111, R119, R147,
R148, R162). -/
def Member.issuesIn (h x : Nat) (m : Member) : Bool :=
  let oct := onOctets m.2.2.2
  m.2.1.inSlot oct x
    && (lanesGiven m.2.1 m.2.2.1 m.2.2.2 >>> slotLane m.2.1 oct x h) &&& (if oct then 0xff else 1) ≠ 0

/-- The registers that a lane instruction writes as it executes: no v register where it gives no lane a result (R378). -/
def writtenRegs (g : Group) (e : LaneEntry) (i : Instr) (r : RegSets) : List RegId :=
  if lanesGiven g e i = 0 then regIds r.xw r.kw [] else r.dests

/-- The weight of a half of a matrix-class instruction: 32 for each octet that issues in it (R347). -/
def Member.octWeight (h : Nat) (m : Member) : Nat :=
  match m.2.2.2.laneRule with
  | some (o, _) => 32 * octetsIn m.2.1 m.2.2.1 o.km h
  | none => 0

/-- The issue cycles that the instructions of a cycle take, led by `m` (R111, R114, R163, R186, R347): each counted issue cycle
is the list of the halves it runs, with their weights. A matrix-class instruction counts once (R162). DEDUCED (log 67). -/
def cyclesOf (m : Member) (l : List Member) : List (List (Nat × Nat)) :=
  let (_, g, _, i) := m
  let half (h : Nat) : Nat × Nat := (h, ((m :: l).map (Member.octWeight h)).sum)
  let (w, n) := weightOf i
  if isMatrix i then [if g.gw = 64 then [half 0, half 1] else [half 0]]
  else List.replicate n [(0, w)] ++ (if g.gw = 64 then List.replicate n [(1, w)] else [])

/-- The reservation of a core that still stands: its group waits to issue a lane instruction, or an instruction it issued
still takes issue cycles (R347). DEDUCED (log 69). -/
def State.reservation (s : State) (c : Nat) : Option (Nat × Nat) :=
  [0, 1, 2, 3].findSome? (fun p => (s.pipe (4 * c + p)).reserved.filter (fun r =>
    match find s.groups r.1 with
    | some g => !g.stopReq && (!g.laneQ.isEmpty || !(s.pipe (4 * c + p)).rest.isEmpty)
    | none => false))

/-- Whether the counter grants a candidate of a group (R347). -/
def State.granted (s : State) (k w : Nat) : Bool :=
  let c := coreOf k
  let held := match s.reservation c with
    | some (h, v) => if h = k then 0 else v
    | none => 0
  decide (w + held ≤ s.allowNow c)

/-- A granted candidate is debited; a reservation of its group on the pipe ends (R347). -/
def State.debit (s : State) (k w q : Nat) : State :=
  let c := q / 4
  let s := s.setCore c { s.core c with allow := BitVec.ofNat 16 (s.allowNow c - w), fillT := s.tsc }
  let p := s.pipe q
  s.setPipe q { p with reserved := p.reserved.filter (fun r => r.1 ≠ k) }

/-- The head entry of a group's lane queue is refused at time `t`, or no longer offered (R347). -/
def Group.refuse (t : Option DWord) (g : Group) : Group :=
  match g.laneQ with
  | [] => g
  | e :: r => { g with laneQ := { e with refused := t.map (fun t => e.refused.getD t) } :: r }

/-- Lane-clocks of pipe `q` since it last started or continued an instruction (R111). -/
def State.clocksSince (s : State) (q : Nat) : Nat :=
  match (s.pipe q).cycT with
  | none => 1
  | some t => laneClocks (s.ratioNow (q / 4)) t.toNat s.tsc.toNat

/-- The group whose instruction still takes issue cycles of pipe `q`. -/
def State.restOf (s : State) (q : Nat) : Nat := ((s.pipe q).lastL).getD 0

/-- A further issue cycle of the instruction that pipe `q` issued last is taken, or refused (R347). -/
def State.takeRest (s : State) (q : Nat) : State :=
  match (s.pipe q).rest with
  | [] => s
  | w :: r =>
    let k := s.restOf q
    if s.granted k w then
      let s := s.debit k w q
      s.setPipe q { s.pipe q with rest := r, restR := none, cycT := some s.tsc }
    else
      let p := s.pipe q
      s.setPipe q { p with restR := some (p.restR.getD s.tsc), cycT := some s.tsc }

/-- The issue cycles that the instruction issued last has taken in `n` lane-clocks gone by: one to a lane-clock, until one is
refused (R111, R347). DEDUCED (log 67). -/
def State.carryOn (s : State) (q : Nat) : Nat → State
  | 0 => s
  | n + 1 =>
    match (s.pipe q).rest with
    | [] => s
    | w :: r =>
      if s.granted (s.restOf q) w then
        let s := s.debit (s.restOf q) w q
        (s.setPipe q { s.pipe q with rest := r, restR := none }).carryOn q n
      else s

/-- A pipe may start an issue cycle (R111): its last instruction has taken its cycles, and no pipe of its core from it up has
started one in this lane-clock, so that issue order goes by pipe numbers (R157). -/
def State.pipeFree (s : State) (q : Nat) : Bool :=
  (s.pipe q).rest.isEmpty
    && ((List.range 4).filter (fun p => decide (q % 4 ≤ p))).all (fun p => decide (0 < s.clocksSince (q / 4 * 4 + p)))

/-! ### Twin-issue (R117 to R122, R162) -/

/-- A count that saturates at 0xffff, in the 16 bits of a register from `lo` (R122). -/
def bumpAt (v : DWord) (lo : Nat) : DWord :=
  if field v.toNat lo 16 = 65535 then v else v + BitVec.ofNat 64 (2 ^ lo)

/-- Bits `[lo + n - 1 : lo]` of a register replaced (R7). -/
def setField (v : DWord) (lo n x : Nat) : DWord :=
  BitVec.ofNat 64 (v.toNat - field v.toNat lo n * 2 ^ lo + x % 2 ^ n * 2 ^ lo)

/-- The check log of the unit that ran an instruction, changed. -/
def Pipe.logWith (p : Pipe) (oct : Bool) (f : DWord → DWord) : Pipe :=
  if oct then { p with poctlog := f p.poctlog } else { p with pchklog := f p.pchklog }

/-- Physical lanes of a pipe that are not retired, rising (R117, R122). -/
def Pipe.lanes (p : Pipe) : List Nat :=
  (List.range 33).filter (fun l => !(p.psteer.getLsbD 0 && l = field p.psteer.toNat 1 6))

/-- Octet units of a pipe that are not retired, rising (R122, R148). -/
def Pipe.units (p : Pipe) : List Nat :=
  (List.range 5).filter (fun u => !(p.psteer.getLsbD 7 && u = field p.psteer.toNat 8 3))

/-- The physical lane, or octet unit, that runs slot `x` in issue `n`: 0 the primary, 1 the secondary, 2 the third (R117,
R148). -/
def Pipe.unitOf (p : Pipe) (oct : Bool) (x n : Nat) : Nat :=
  let l := if oct then p.units else p.lanes
  l.getD ((x + n) % l.length) 0

/-- SUSPECT and SVALID name a unit (R122, R162). -/
def suspectLog (oct : Bool) (unit : Nat) (v : DWord) : DWord :=
  if oct then setField (setField v 32 3 unit) 35 1 1 else setField (setField v 32 6 unit) 38 1 1

/-- Source number of a pipe (R423). -/
def pipeSrc (q : Nat) : Nat := 0x1000 + q

/-- The next comparison's finding; agreement when none is listed. -/
def State.takeUpset (s : State) : Upset × State :=
  match s.upsets with
  | [] => (.agree, s)
  | u :: r => (u, { s with upsets := r })

/-- A part is recorded as suspect (R120, R465): at the third record within 24 hours firmware asks for its retirement, or for
that of its pipe, which has a retired part of the kind already. -/
def State.suspect (s : State) (p : Part) : State :=
  let s : State := { s with suspects := s.suspects ++ [(p, s.tsc)] }
  let n := (s.suspects.filter (fun e => e.1 = p && decide (s.tsc.toNat ≤ e.2.toNat + 86400000000000))).length
  if n < 3 then s
  else if s.otherOut p then (s.requestRetire { kind := 2, core := p.core, pipe := p.pipe, part := 0, die := 0 }).1
  else (s.requestRetire p).1

/-- What the comparison of a doubled issue cycle leaves (R120): the slots left unresolved, whether the accesses were
performed before that was found, and the further issues that weigh as the primary. -/
structure Checked where
  bad   : List Nat := []
  late  : Bool := false
  extra : Nat := 1
  deriving DecidableEq, Repr, Inhabited

/-- The unresolved end of a comparison on pipe `q` (R120). -/
def State.unresolvedAt (s : State) (q : Nat) (oct : Bool) : State :=
  (s.setPipe q ((s.pipe q).logWith oct (fun v => bumpAt v 48))).post (pipeSrc q) 3 (BitVec.allOnes 64)
    (BitVec.ofNat 64 (q % 4))

/-- A unit of pipe `q` is recorded as suspect (R120, R122, R162). -/
def State.recordUnit (s : State) (q : Nat) (oct : Bool) (u : Nat) : State :=
  let s := s.setPipe q ((s.pipe q).logWith oct (suspectLog oct u))
  s.suspect { kind := if oct then 1 else 0, core := q / 4, pipe := q % 4, part := u, die := 0 }

/-- A voted mismatch on pipe `q`: every unit that differs is recorded, and the event names the last (R120).
DEDUCED (log 103). -/
def State.voted (s : State) (q : Nat) (oct : Bool) (us : List Nat) : State :=
  let s := s.setPipe q ((s.pipe q).logWith oct (fun v => bumpAt v 16))
  let s := us.foldl (fun s u => s.recordUnit q oct u) s
  s.post (pipeSrc q) 2 (BitVec.ofNat 64 (us.getLastD 0)) (BitVec.ofNat 64 (q % 4))

/-- One doubled issue cycle on pipe `q` over the slots that `cov` accepts (R120): what it logs and posts. Nothing is compared
where nothing issues. -/
def State.compare (s : State) (q : Nat) (oct : Bool) (cov : Nat → Bool) : State × Checked :=
  let (u, t) := s.takeUpset
  let (u, s) := if (List.range 32).any cov then (u, t) else (.agree, s)
  match u with
  | .agree => (s, {})
  | .soft =>
    ((s.setPipe q ((s.pipe q).logWith oct (fun v => bumpAt v 0))).post (pipeSrc q) 1 (BitVec.allOnes 64)
      (BitVec.ofNat 64 (q % 4)), {})
  | .differ late odd =>
    let l := ((List.range 32).filter cov).flatMap (fun x => odd.filter (fun e => e.1 = x))
    let bad := ((l.filter (fun e => decide (2 < e.2))).map (·.1)).dedup
    if l.isEmpty then (s, {})
    else if bad.isEmpty then (s.voted q oct (l.map (fun e => (s.pipe q).unitOf oct e.1 e.2)).dedup, { extra := 2 })
    else (s.unresolvedAt q oct, { bad := bad, late := late, extra := 2 })

/-- Counts an issue cycle of a sampled-mode context: whether it is doubled (R118). -/
def State.sampled (s : State) (q : Nat) : Bool × State :=
  let p := s.pipe q
  let hit := p.sampN = p.sampW
  let p' : Pipe := if p.sampN = 15 then { p with sampN := 0, sampW := (p.sampW + 1) % 16 } else { p with sampN := p.sampN + 1 }
  (hit, s.setPipe q p')

/-- Whether the next issue cycle of a context in mode `m` is doubled (R118). -/
def State.doubles (s : State) (q m : Nat) : Bool × State :=
  if m = 2 then (true, s) else if m = 1 then s.sampled q else (false, s)

/-- What the issue cycles of a cycle's instructions leave: the unresolved slots with their half and whether the accesses were
performed, and the weights of all the issues in order. -/
structure CycleRes where
  bad : List (Nat × Nat × Bool) := []
  ws  : List Nat := []
  deriving DecidableEq, Repr, Inhabited

/-- Two results of issue cycles, one after the other. -/
def CycleRes.then (a b : CycleRes) : CycleRes := { bad := a.bad ++ b.bad, ws := a.ws ++ b.ws }

/-- The halves of a counted issue cycle, each compared apart when it is doubled (R118, R121). -/
def State.checkHalves (s : State) (q : Nat) (oct : Bool) (cov : Nat → Nat → Bool) (twice : Bool) : List (Nat × Nat) → State × CycleRes
  | [] => (s, {})
  | (h, w) :: r =>
    if twice then
      let (s, u) := s.compare q oct (cov h)
      let (s, x) := s.checkHalves q oct cov twice r
      (s, CycleRes.then { bad := u.bad.map (fun b => (b, h, u.late)), ws := List.replicate (1 + u.extra) w } x)
    else
      let (s, x) := s.checkHalves q oct cov twice r
      (s, CycleRes.then { ws := [w] } x)

/-- The issue cycles of a cycle's instructions, counted and compared under mode `m` (R118 to R121). Of an instruction of several
issue cycles, sampling doubles the one at its position alone. DESIGN CHOICE (log 140). -/
def State.checkCycles (s : State) (q m : Nat) (oct : Bool) (cov : Nat → Nat → Bool) : List (List (Nat × Nat)) → State × CycleRes
  | [] => (s, {})
  | c :: r =>
    let (d, s) := s.doubles q m
    let (s, x) := s.checkHalves q oct cov d c
    let (s, y) := s.checkCycles q m oct cov r
    (s, x.then y)

end Sys2Proof.Machine
end

