-- ==== Sys2Proof/Machine/Entry.lean ====
section
/-! DEFINITION. Steps of one group or core that its own clocks bring: pending traps and budgets (R410, R411, R414), `await`
and `nap` (R276, R367), clock changes (R434), overdue groups and reserved candidates (R345, R347), cycle limits and
rollbacks (R375, R385). -/

namespace Sys2Proof.Machine

open Sys2Proof

/-! ### Pending traps (R411) -/

/-- Drops the oldest pending trap of a group. -/
def State.dropPend (s : State) (k : Nat) : State :=
  { s with groups := upd s.groups k (fun g => { g with pend := g.pend.tail }) }

/-- The entry of a group's trap goes on; else the first pending trap of a group outside trap class is taken (R411), or fails the
open block (R374). -/
def State.takePending (s : State) (k : Nat) : State :=
  match find s.groups k with
  | none => s
  | some g =>
    match g.pend with
    | [] => s
    | p :: _ =>
      if g.tclass || g.stopd || g.stopReq then s
      else if g.entry.isSome then s.stepEntry k
      else if s.isContained g p.num then
        let s := s.failAlt g.seat (s.depth g.seat) 4 p.num.toNat g.gid
        { s.dropPend k with groups := upd (s.dropPend k).groups k (fun g => { g with frozen := g.pend.any (·.lane) }) }
      else s.startTrap k { trap := p, held := true }

/-- R410: a held trap is taken. -/
def execTrapEntry (g : Nat) (s : State) : Res := .next (s.takePending g)

/-- R414: a handler that has used its context's budget ends the context. -/
def execHandlerBudgetExpiry (k : Nat) (s : State) : Res :=
  match find s.groups k with
  | none => .next s
  | some g =>
    let cx := s.ctxOf g
    if g.tclass && !g.stopd && decide (cx.budget ≤ g.budget) then
      let s1 : State := { s with groups := upd s.groups k (fun g => { g with stopd := true }) }
      .next ((s1.post (slateSrc k) 5 (frameAddr cx (g.frameK.getD k)) (ctxImage (s.ctxId g) cx)).endCtx (s.ctxId g)
        0x80000001 (slateSrc k))
    else .next s

/-! ### Waits (R276, R367, R434) -/

/-- Records an issue in the scalar stream (R55, R345) of an instruction with lookahead `la`; `y` says that it ends its group's run
of issues, `busy` that another group of the pipe was ready. -/
def State.noteScalar (s : State) (k : Nat) (r : RegSets) (y : Bool) (la : Nat) (busy : Bool) : State :=
  match find s.groups k with
  | none => s
  | some g =>
    let q := 4 * coreOf k + g.pipe
    let run := if y then 0 else if (s.pipe q).lastS = some k then g.runS + (if busy then 1 else 0) else (if busy then 1 else 0)
    let g' := { g with winS := noteWindows g.winS r la, runS := run, dueS := none, rdyS := none }
    { s.setPipe q { s.pipe q with lastS := if y then none else some k } with groups := put s.groups k g' }

/-- The instruction of a waiting `await` runs again for its group (R276): its condition is read at the home. It writes one
register, which the open windows count (R55). -/
def recheckAwait (s : State) (g : Group) (a : AwaitRec) : Res :=
  match s.chkOrdered s.cur g a.addr 4 false anyMem with
  | .wait s => .next s
  | .trap s num i => raise s num a.addr i
  | .ok s pa mt =>
    let (s, x) := s.acqWord s.cur (pa / 4) 3 mt
    if awaitHolds a.cc x.val a.rhs then
      let s := if a.acq then (s.mergeRecords s.cur (pa / 4) x.found).acquire s.cur 3 else s
      withG (s.consumeIf s.cur x.pois) (fun g =>
        let g := { g.setX (BitVec.ofNat 6 a.d) (awaitVal a.cc x.val) with awt := none }
        .next (((s.consumeIf s.cur x.pois).setGrp g.next).noteScalar s.cur { xw := [BitVec.ofNat 6 a.d] } false 0 false))
    else .next s

/-- R276: a store to the word was performed, or 1 µs has passed. -/
def execAwaitRecheck (k : Nat) (s : State) : Res :=
  match find s.groups k with
  | none => .next s
  | some g =>
    match g.awt with
    | none => .next s
    | some a => recheckAwait { s with cur := k } g a

/-- R367: the group's scalar stream is ready again once its nap has passed. -/
def execNapExpiry (k : Nat) (s : State) : Res :=
  match find s.groups k with
  | none => .next s
  | some g =>
    match g.nap with
    | none => .next s
    | some t =>
      if t.toNat ≤ s.tsc.toNat then .next { s with groups := put s.groups k { g.next with nap := none } } else .next s

/-- R434: the core issues again 1,000 ns after `clkmode`. -/
def execClockChangeDone (c : Nat) (s : State) : Res :=
  match (s.core c).chgClk with
  | none => .next s
  | some t => if t.toNat ≤ s.tsc.toNat then .next (s.setCore c { s.core c with chgClk := none }) else .next s

/-! ### Pick order and allowance (R345, R347) -/

/-- Clocks of a stream between two times (R20): control-clocks stand at twice, once or half of 1.3 a nanosecond. -/
def streamClocks (r : Ratio) (lane : Bool) (t u : Nat) : Nat :=
  if lane then laneClocks r t u
  else match r with
    | .double => 13 * u / 5 - 13 * t / 5
    | _ => 13 * u / 10 - 13 * t / 10

/-- R345: a group that has been ready and not issued in the stream for 1,024 clocks is overdue. DEDUCED (log 95). -/
def execGroupOverdue (k : Nat) (lane : Bool) (s : State) : Res :=
  match find s.groups k with
  | none => .next s
  | some g =>
    match (if lane then g.rdyL else g.rdyS) with
    | none => .next s
    | some t =>
      if streamClocks (s.ratioNow (coreOf k)) lane t.toNat s.tsc.toNat < 1024 then .next s
      else
        let g' : Group := if lane then { g with dueL := some (g.dueL.getD s.tsc) } else { g with dueS := some (g.dueS.getD s.tsc) }
        .next { s with groups := put s.groups k g' }

/-- The weight of the first issue cycle of a group's head lane instruction. -/
def headWeight (k : Nat) (g : Group) : Nat :=
  match g.laneQ with
  | [] => 0
  | e :: _ => match decodeLane e.bits with
    | .ok i => ((((cyclesOf (k, g, e, i) []).head?).bind (·.head?)).map (·.2)).getD 0
    | .error _ => 0

/-- 256 lane-clocks of a core have passed since `t`. -/
def State.long (s : State) (c : Nat) (t : Option DWord) : Bool :=
  match t with
  | none => false
  | some t => decide (256 ≤ laneClocks (s.ratioNow c) t.toNat s.tsc.toNat)

/-- The candidate of a pipe that was refused in 256 consecutive lane-clocks: its group and weight (R347). -/
def State.starved (s : State) (q : Nat) : Option (Nat × Nat) :=
  let p := s.pipe q
  if s.long (q / 4) p.restR then p.rest.head?.map (fun w => (s.restOf q, w))
  else
    (s.groups.find? (fun e => coreOf e.1 = q / 4 && e.2.pipe = q % 4 && s.long (q / 4) (e.2.laneQ.head?.bind (·.refused)))).map
      (fun e => (e.1, headWeight e.1 e.2))

/-- R347: such a candidate is reserved, one to a core. -/
def execPowerReserve (c pipe : Nat) (s : State) : Res :=
  let q := 4 * c + pipe
  match s.starved q, s.reservation c with
  | some r, none => .next (s.setPipe q { s.pipe q with reserved := some r })
  | _, _ => .next s

/-! ### Recovery (R375, R385) -/

/-- R375: the cycle limit of a team's level passes. -/
def execCycleLimitExpiry (t level : Nat) (s : State) : Res :=
  match find s.teams t with
  | none => .next s
  | some tm =>
    if level = 0 || tm.levels.length < level then .next s
    else
      match tm.levels[tm.levels.length - level]? with
      | none => .next s
      | some l =>
        if l.limit ≠ 0 && decide (l.limit ≤ l.spent) && !tm.passed then .next (s.failAlt t level 2 0 0) else .next s

/-- R385. -/
def execAlternateRollback (t : Nat) (s : State) : Res := .next (s.rollTeam t)

end Sys2Proof.Machine
end

