-- ==== Sys2Proof/Machine/MemEvents.lean ====
section
/-! DEFINITION. Steps that the memory system takes of its own or that reach it from outside: returns of loads and atomics
(R217, R265), tests of stores at home slices and replays (R210, R288, R292), write-backs and acknowledgements (R242, R243,
R440), writes from outside the device (R278, R454), ageing of dots (R280), and errors in memory (R294, R469, R470). -/

namespace Sys2Proof.Machine

open Sys2Proof

/-! ### Loads and atomics in flight (R217, R265) -/

/-- Removes element `n` of a list. -/
def dropAt {α : Type} : Nat → List α → List α
  | _, [] => []
  | 0, _ :: r => r
  | n + 1, a :: r => a :: dropAt n r

/-- R217: the data of a load in flight arrive and its registers are written. -/
def execLoadDataReturn (k n : Nat) (s : State) : Res :=
  match find s.groups k with
  | none => .next s
  | some g =>
    match g.infl[n]? with
    | none => .next s
    | some x =>
      if !x.atoms.isEmpty then .next s
      else
        let g' := x.writes.foldl (fun g w => g.apply w) { g with infl := dropAt n g.infl }
        .next (({ s with groups := put s.groups k g' } : State).consumeIf k x.pois)

/-- Writes the old value and count of an atomic (R273, R274). -/
def Group.putAtom (g : Group) (r : AtomReq) (old : Word) (cnt : Nat) : Group :=
  match r.xd, r.vd with
  | some d, _ => g.setAmo (BitVec.ofNat 6 d) (amoOld r.op old) cnt
  | none, some (v, l) => (g.setV v l old).setV (v + 1) l (BitVec.ofNat 32 cnt)
  | none, none => g

/-- Performs one atomic of group `k` at its place; `w` is its physical word unless it is a scratchpad one. -/
def State.performAtom (s : State) (k : Nat) (r : AtomReq) (w : Option Nat) : Option State :=
  match find s.groups k with
  | none => some s
  | some g =>
    match w with
    | some w =>
      (s.atomGlobal k r.addr w r.op r.ty r.b r.cmp).map (fun x =>
        { x.1 with groups := upd x.1.groups k (fun g => g.putAtom r x.2.1 x.2.2) })
    | none =>
      match s.spadAddr g r.addr.toNat with
      | none => some s
      | some (t, o) =>
        (s.atomSpad g.seat t o r.op r.ty r.b r.cmp).map (fun x =>
          { x.1 with groups := upd x.1.groups k (fun g => g.putAtom r x.2 0) })

/-- Performs atomics in turn; a capture that Sepia cannot hold fails the alternate (R377). -/
def State.performAtoms (s : State) (k : Nat) : List (AtomReq × Option Nat) → State
  | [] => s
  | (r, w) :: l =>
    match s.performAtom k r w with
    | some s => s.performAtoms k l
    | none =>
      match find s.groups k with
      | none => s
      | some g => s.failAlt g.seat (s.depth g.seat) 6 0 g.gid

/-- Access `n` of group `k` is changed. -/
def State.setInfl (s : State) (k n : Nat) (x : Inflight) : State :=
  { s with groups := upd s.groups k (fun g => { g with infl := g.infl.set n x }) }

/-- The first atomic of access `n` ends: its results are written, and with the last one the access is done. -/
def State.endAtom (s : State) (k n : Nat) (x : Inflight) (r : AtomReq) (old : Word) (cnt : Nat) : State :=
  let s : State := { s with groups := upd s.groups k (fun g => g.putAtom r old cnt) }
  if x.atoms.length ≤ 1 then { s with groups := upd s.groups k (fun g => { g with infl := dropAt n g.infl }) }
  else s.setInfl k n { x with atoms := x.atoms.tail, words := x.words.tail }

/-- One step of the first atomic, at clus scope, of access `n` of group `k` (R265): the cluster unit reads the word, or writes
the result that it has computed. A capture that Sepia cannot hold fails the alternate, and the access ends (R377). -/
def State.clusStep (s : State) (k n : Nat) (g : Group) (x : Inflight) (r : AtomReq) (w : Nat) : State :=
  match r.rd with
  | none =>
    if s.clusHolds (coreOf k / 64) w then s
    else
      let (s, old, d, cnt) := s.atomRead k w
      if cnt ≠ 0 || atomNew r.op r.ty old r.b r.cmp = old then s.endAtom k n x r old cnt
      else s.setInfl k n { x with atoms := { r with rd := some (old, d) } :: x.atoms.tail }
  | some (old, d) =>
    match s.atomWrite k g r.addr w (atomNew r.op r.ty old r.b r.cmp) d with
    | some (s, cnt) => s.endAtom k n x r old cnt
    | none => { s.failAlt g.seat (s.depth g.seat) 6 0 g.gid with
        groups := upd s.groups k (fun g => { g with infl := dropAt n g.infl }) }

/-- R265: the atomics of an access in flight are performed and their results written. -/
def execAtomicAtPlace (k n : Nat) (s : State) : Res :=
  match find s.groups k with
  | none => .next s
  | some g =>
    match g.infl[n]? with
    | none => .next s
    | some x =>
      match pairAtoms x.atoms x.words with
      | [] => .next s
      | (r, w) :: l =>
        if isClus r then .next (match w with | some w => s.clusStep k n g x r w | none => s)
        else
          let s := s.performAtoms k ((r, w) :: l)
          .next { s with groups := upd s.groups k (fun g => { g with infl := dropAt n g.infl }) }

/-! ### Parked stores (R210, R292, R456) -/

/-- A run of bytes within one word: its address, bytes written, and value. -/
structure WordRun where
  va   : Nat
  mask : BitVec 4
  val  : Word
  deriving DecidableEq, Repr, Inhabited

/-- One byte as a run. -/
def runOf (b : Nat × Byte) : WordRun :=
  { va := b.1 / 4 * 4, mask := BitVec.ofNat 4 (2 ^ (b.1 % 4)), val := BitVec.ofNat 32 (b.2.toNat * 2 ^ (8 * (b.1 % 4))) }

/-- Bytes grouped into runs: a byte joins the run before it when it lies in the same word and comes later in it. -/
def runsOf : List (Nat × Byte) → List WordRun
  | [] => []
  | b :: r =>
    match runsOf r with
    | [] => [runOf b]
    | x :: l =>
      if x.va = b.1 / 4 * 4 && decide ((runOf b).mask.toNat < (x.mask &&& (0 - x.mask)).toNat) then
        { va := x.va, mask := x.mask ||| (runOf b).mask, val := x.val ||| (runOf b).val } :: l
      else runOf b :: x :: l

/-- The deferred report of a discarded parked store (R210, R409). DEDUCED (log 72). -/
def deferTrap (p : Parked) (num : BitVec 8) (info : DWord) : PendTrap :=
  { num := num, addr := BitVec.ofNat 64 (p.bytes.headD (0, 0)).1, info := 256 + info, defer := true,
    dlane := p.lane, lpc := p.pc, idx := p.idx }

/-- Tells a group of a discarded parked store. -/
def State.deferMem (s : State) (p : Parked) (num : BitVec 8) (info : DWord) : State := s.addPend p.grp (deferTrap p num info)

/-- The store request of one run of a parked store, which stays counted on the path it issued on (R216). -/
def parkedReq (c : Nat) (p : Parked) (x : WordRun) (pa : Nat) (hid : Option HidTag) : StoreReq :=
  { core := c, grp := p.grp, w := pa / 4, va := BitVec.ofNat 64 x.va, val := x.val, mask := x.mask, dot := p.dot
    vec := p.vec, hid := hid, pc := p.pc, lane := p.lane, idx := p.idx, path := p.path, seq := p.seq }

/-- One run of a parked store, with the second word of a 64-bit store (R105), is performed: captured and noted inside a block
(R378, R383), entered into the L1, or uncached on an uncached host page (R207). `none` when Sepia cannot hold the capture. -/
def State.performRun (s : State) (c : Nat) (p : Parked) (x : WordRun) (y : Option WordRun) (pa : Nat) (mt : Bool) :
    Option State :=
  match find s.groups p.grp with
  | none => some s
  | some g =>
    let hid := if s.isCell pa then p.hid else none
    match s.captureLine g.seat (pa / 4) hid.isSome with
    | none => none
    | some s =>
      let s := s.noteWrote g.seat (pa / 4)
      let s := if y.isSome then s.noteWrote g.seat (pa / 4 + 1) else s
      if mt then
        let s := (s.setWord (pa / 4) (mixBytes x.mask (s.word (pa / 4)) x.val)).setPois (pa / 4) (s.poisoned (pa / 4) && x.mask ≠ 0xf)
        some (match y with | some y => (s.setWord (pa / 4 + 1) y.val).setPois (pa / 4 + 1) false | none => s)
      else some (s.storeL1 { parkedReq c p x pa hid with pair := y.map (fun y => (pa / 4 + 1, y.val)) })

/-- The runs of a parked store whose page translates to `base` are performed; the two words of a 64-bit store together. -/
def State.performRuns (s : State) (c : Nat) (p : Parked) (base : Nat) (mt : Bool) : List WordRun → State
  | [] => s
  | x :: r =>
    match s.performRun c p x (if p.w64 then r.head? else none) (base / 4096 * 4096 + x.va % 4096) mt with
    | some s => if p.w64 then s else s.performRuns c p base mt r
    | none =>
      match find s.groups p.grp with
      | none => s
      | some g => s.failAlt g.seat (s.depth g.seat) 6 0 g.gid

/-- Whether one parked store has bytes on a page of another. -/
def pageMate (p q : Parked) : Bool := p.bytes.any (fun b => onPage p.ctx (b.1 / 4096) q)

/-- Whether a parked store waits for a page of a context. -/
def parkedOn (ctx page : Nat) (p : Parked) : Bool :=
  p.ctx = ctx && p.why = .fault && decide ((p.bytes.headD (0, 0)).1 % 2 ^ 57 / 4096 = page)

/-- The parked stores of every core and of every saved team. -/
def State.mapParked (s : State) (f : List Parked → List Parked) : State :=
  { s with cores := s.cores.map (fun e => (e.1, { e.2 with replay := f e.2.replay }))
           saved := s.saved.map (fun v => { v with replay := f v.replay }) }

/-- The parked stores of a served page are to be tried again, each in its turn (R210, R421, R456). -/
def State.wakePage (s : State) (ctx page : Nat) : State :=
  s.mapParked (fun l => l.map (fun p => if parkedOn ctx page p then { p with why := .behind } else p))

/-- The parked stores of a saved team for a page that cannot be provided leave it, each with the deferred memory fault. -/
def Saved.discard (ctx page : Nat) (v : Saved) : Saved :=
  v.replay.foldl (fun v p =>
    if parkedOn ctx page p then { v with groups := upd v.groups p.grp (fun g => { g with pend := g.pend ++ [deferTrap p 0x10 0] }) }
    else v) { v with replay := v.replay.filter (fun p => !(parkedOn ctx page p)) }

/-- The parked stores of a page that cannot be provided are discarded, each with the deferred memory fault (R210). -/
def State.discardPage (s : State) (ctx page : Nat) : State :=
  let l := s.cores.flatMap (fun e => e.2.replay.filter (parkedOn ctx page))
  let s : State := { s with cores := s.cores.map (fun e => (e.1, { e.2 with replay := e.2.replay.filter (fun p => !(parkedOn ctx page p)) }))
                            saved := s.saved.map (Saved.discard ctx page) }
  l.foldl (fun s p => s.deferMem p 0x10 0) s

/-- A parked store is discarded with the deferred fault of its pool region (R445, R446). -/
def State.deferPool (s : State) (p : Parked) (pa : Nat) : State :=
  s.deferMem p (BitVec.ofNat 8 (s.poolTrap pa)) (if s.poolTrap pa = 0x14 then BitVec.ofNat 64 ((poolOf pa).getD 0 * 65536) else 0)

/-- A store parked after a sibling overflow is tested again (R292): when it fails again it keeps its place, and its group is
told again. -/
def State.retest (s : State) (c n : Nat) (p : Parked) : State :=
  let drop (s : State) : State := s.setCore c { s.core c with replay := dropAt n (s.core c).replay }
  match runsOf p.bytes with
  | [] => drop s
  | x :: r =>
    match s.translate c p.ctx (BitVec.ofNat 64 x.va) .write true with
    | .ok s pa _ =>
      if s.poolTrap pa ≠ 0 then (drop s).deferPool p pa
      else
      let q := { parkedReq c p x pa p.hid with pair := r.head?.map (fun y => (pa / 4 + 1, y.val)) }
      match s.tryStore q with
      | .ok t => drop t
      | .error w =>
        (s.setCore c { s.core c with replay := (s.core c).replay.set n { p with retry := false } }).addPend p.grp (overflowTrap q w)
    | .wait s => s
    | .fault s => (drop s).deferMem p 0x10 0

/-- Parked stores that `f` accepts, given those before them in their queue: core, place, entry. -/
def State.parkedBy (s : State) (f : List Parked → Parked → Bool) : List (Nat × Nat × Parked) :=
  s.cores.flatMap (fun e => ((List.range e.2.replay.length).zip e.2.replay).filterMap (fun x =>
    if f (e.2.replay.take x.1) x.2 then some (e.1, x.1, x.2) else none))

/-- Stores parked after an overflow whose group has asked for the test again. -/
def State.retries (s : State) : List (Nat × Nat × Parked) := s.parkedBy (fun _ p => p.retry && p.why = .overflow)

/-- Stores parked behind another, or whose page was served, that have none before them on their page (R210). -/
def State.freed (s : State) : List (Nat × Nat × Parked) :=
  s.parkedBy (fun l p => p.why = .behind && !(l.any (pageMate p)))

/-- What a parked store does once its page translates: it is performed, or discarded with the deferred fault. -/
def State.performParked (s : State) (c : Nat) (p : Parked) (pa : Nat) (mt : Bool) : State :=
  if s.poolTrap pa ≠ 0 then s.deferPool p pa
  else
    let s := s.performRuns c p pa mt (runsOf p.bytes)
    if mt then { s with acks := s.acks ++ [{ grp := p.grp, w := pa / 4, unc := true, lane := p.lane }] } else s

/-- A store that has none before it on its page is tried (R210): performed, discarded, or left in its place while its page does
not translate. Those behind it keep their places. DEDUCED (log 73). -/
def State.goOn (s : State) (c n : Nat) (p : Parked) : State :=
  let l := (s.core c).replay
  let back (t : State) (mid : List Parked) : State :=
    t.setCore c { t.core c with replay := (t.core c).replay ++ mid ++ l.drop (n + 1) }
  match (s.setCore c { s.core c with replay := l.take n }).translate c p.ctx (BitVec.ofNat 64 (p.bytes.headD (0, 0)).1) .write p.tc with
  | .wait s => back s [{ p with why := .fault }]
  | .fault s => back (s.deferMem p 0x10 0) []
  | .ok s pa mt => back (s.performParked c p pa mt) []

/-! ### Tests at the home slice (R243, R288) -/

/-- Whether two requests of one core name a common word: they are tested in order. -/
def sameWord (q r : StoreReq) : Bool :=
  q.core = r.core && (reqHits r.core q.w r || (match q.pair with
    | some (w2, _) => reqHits r.core w2 r
    | none => false))

/-- R288: a registration on its way arrives at its home slice and is tested, or waits while a store that fails finds the
replay queue full (R210); past the registrations, the stores that are to be tested again after an overflow (R292), and those
that were parked behind one. -/
def execHomeStoreTest (n : Nat) (s : State) : Res :=
  match s.regQ[n]? with
  | some q =>
    if (s.regQ.take n).any (sameWord q) then .next s
    else
      let t : State := { s with regQ := dropAt n s.regQ }
      .next (match t.tryStore q with
        | .ok t => t
        | .error w => if t.replayFull q.core then s else t.parkFailed q w)
  | none =>
    match s.retries[n - s.regQ.length]? with
    | some (c, i, p) => .next (s.retest c i p)
    | none =>
      match s.freed[n - s.regQ.length - s.retries.length]? with
      | some (c, i, p) => .next (s.goOn c i p)
      | none => .next s

/-- R243: a core writes a dirty word home; its registration has been tested. -/
def execWriteBackMerge (c w : Nat) (s : State) : Res := .next (s.writeBack c w)

/-- R242: a store that the host or a pool device was sent is acknowledged. -/
def execStoreAcknowledgement (n : Nat) (s : State) : Res := .next { s with acks := dropAt n s.acks }

/-- The cores that hold dirty words of a line write them back, those whose registrations are on their way once they are tested
(R440). -/
def State.cleanLine (s : State) (line : Nat) : State :=
  (lineWords line).foldl (fun s w => (s.testAll (fun q => q.words.contains w)).writeBackAll w none) s

/-- A region's lowest free spill entries are taken for the parts of one cell (R442), whose encoding in an entry is not given.
DESIGN CHOICE (log 88). -/
def State.spillCell (s : State) (r base w : Nat) : Nat → State
  | 0 => s
  | n + 1 =>
    let m := freshFrom ((s.region r).spill.map (·.1)) 65536 0
    if 65536 ≤ m then s
    else
      let s := (List.range 4).foldl (fun s i =>
        let (f, s) := s.takeFree
        s.setWord ((base + 0xff00000 + 16 * m) / 4 + i) (Config.freeWord f)) s
      let g := s.region r
      ({ s with regions := sset {} s.regions r { g with spill := (m, w) :: g.spill } } : State).spillCell r base w n

/-- A line that the device owns leaves its ownership with summary dot `d` in its words' records (R443). -/
def State.giveUp (s : State) (line : Nat) (d : Dot) : State :=
  ((s.summarise line d).setSummary line {}).setOwned line (fun l => l.filter (fun x => x ≠ line))

/-- A line of a versioned-family region leaves the device's ownership: its words keep the summary dot, which is stored in
the region's side area, and its siblings, bases and vector records go to spill entries, which frees their slice's entries
(R442, R443). -/
def State.disown (s : State) (line : Nat) : State :=
  match poolOf (128 * line) with
  | none => s
  | some r =>
    if !(s.owns line) then s
    else
      let s := s.dropLine line
      let d := s.summaryOf line
      let s := (s.setBytes (sideAddr line) (bytesOf (dotBits d).toNat 8)).giveUp line d
      if s.spilled line then s
      else (lineWords line).foldl (fun s w => match find s.cells w with
        | some x => s.spillCell r (128 * line / 2 ^ 28 * 2 ^ 28) w (recEntries x)
        | none => s) s

/-- R440: a pool device's back-invalidation snoop of a line is answered after every L1 has written its dirty words back;
the copies go. The host's cache is outside the machine. DEDUCED (log 154). -/
def execPoolBiSnoop (l : Nat) (s : State) : Res :=
  let s := s.cleanLine l
  let pin (c : Core) : Bool := c.l1.any (fun e => e.1 / 32 = l && e.2.hid.isSome)
  let drop (c : Core) : Core :=
    if pin c then c else { c with l1 := c.l1.filter (fun x => !(x.1 / 32 = l && x.2.mask = 0)) }
  .next (({ s with cores := s.cores.map (fun e => (e.1, drop e.2)) } : State).disown l)

/-! ### Writes from outside (R278, R454) -/

/-- Whether a table, or one that it leads to through the given levels, has a leaf whose frame and size `f` accepts (R206, R207). -/
def State.mapsWhere (s : State) (f : Nat → Nat → Bool) : Nat → List Nat → Bool
  | _, [] => false
  | table, lv :: r =>
    (List.range 512).any (fun i =>
      let e := s.read64 (table + 8 * i)
      let frame := e / 2 ^ 12 % 2 ^ 40 * 4096
      bitOf e 0 && (if bitOf e 1 then f frame (leafSize lv (bitOf e 5)) else s.mapsWhere f frame r))

/-- The floor of the context that owns the page of a word: the first whose page table maps it (R278). DEDUCED (log 71). -/
def State.pageFloor (s : State) (w : Nat) : BitVec 40 :=
  match s.ctxs.find? (fun e => s.mapsWhere (fun a n => decide (a ≤ 4 * w) && decide (4 * w < a + n)) e.2.root [4, 3, 2, 1, 0]) with
  | none => 0
  | some e => e.2.floor

/-- A write of the bytes of `mask` of one word of device memory, from outside the device (R278): serial 0, the arrival
time, a vector that holds only a floor; the words of a side area, another device's dots, are no cells (R442). `none` when its cell
cannot hold it. DEDUCED (log 70). -/
def State.tryOutside (s : State) (w : Nat) (v : Word) (mask : BitVec 4) : Option State :=
  if s.unmapped (4 * w) || !(s.isCell (4 * w) || (poolOf (4 * w)).isSome) then some s
  else if s.sideKept (w / 32) && 0xf000000 ≤ 4 * w % 2 ^ 28 then some (s.setWord w (mixBytes mask (s.word w) v))
  else
    s.storeAtHome { core := noGroupKey, grp := noGroupKey, w := w, val := v, mask := mask
                    dot := { serial := 0, time := s.now }, vec := { floor := s.pageFloor w } }

/-- A write from outside the device arrives; one that its cell cannot hold waits. DESIGN CHOICE (log 99). -/
def State.outsideWrite (s : State) (w : Nat) (v : Word) (mask : BitVec 4) : State := (s.tryOutside w v mask).getD s

/-- R278. -/
def execHostDeviceWrite (w : Nat) (v : Word) (mask : BitVec 4) (s : State) : Res := .next (s.outsideWrite w v mask)

/-- R454: a word of a region that a producer device copies, to the same virtual address of the context of the same CTXID: `a` is
2^57 times the CTXID and the address's low 57 bits. -/
def execCopiedWriteArrival (a : Nat) (v : Word) (s : State) : Res :=
  .next (match s.translate (64 * s.cpDie) (a / 2 ^ 57) ((BitVec.ofNat 57 a).signExtend 64) .write false with
    | .ok s pa _ => if pa % 4 = 0 && isHost pa then (s.writeBackAll (pa / 4) none).setWord (pa / 4) v else s.outsideWrite (pa / 4) v 0xf
    | .wait s => s
    | .fault s => s)

/-! ### Ageing of dots (R280) -/

/-- The oldest dot time that is kept. -/
def State.oldest (s : State) : BitVec 40 := s.now - BitVec.ofNat 40 (2 ^ 37)

/-- A stored dot older than 2^37 units becomes (0, T − 2^37). -/
def State.ageDot (s : State) (d : Dot) : Dot :=
  if (d.serial ≠ 0 || d.time ≠ 0) && tooOld s.now d.time then { serial := 0, time := s.oldest } else d

/-- Entries of a vector older than 2^37 units are dropped, and such a floor becomes the null floor. -/
def State.ageVec (s : State) (v : VVec) : VVec :=
  { own := if tooOld s.now v.own.time then {} else v.own
    slots := v.slots.filter (fun d => !(tooOld s.now d.time))
    floor := if tooOld s.now v.floor then 0 else v.floor }

/-- A cell's dots and vectors after the scrubber's visit. -/
def State.ageRec (s : State) (r : CellRec) : CellRec :=
  { r with dot := s.ageDot r.dot
           vals := r.vals.map (fun v => { v with dot := s.ageDot v.dot })
           vrec := r.vrec.map (fun v => { v with vec := s.ageVec v.vec, dot := s.ageDot v.dot }) }

/-- A slice's summary dots, the write times of its dot array, and the vectors and triggers of its watches after the visit. -/
def State.ageSlice (s : State) (sl : Slice) : Slice :=
  { sl with summ := (sl.summ.map (fun e => (e.1, s.ageDot e.2))).filter (fun e => e.2 ≠ {})
            lines := sl.lines.map (fun e => (e.1, if tooOld s.now e.2 then s.oldest else e.2))
            watches := sl.watches.map (fun e => (e.1, { e.2 with
              vec := s.ageVec e.2.vec, trigs := e.2.trigs.map (fun t => (t.1, t.2.1, s.ageDot t.2.2)) })) }

/-- A slot of a vector that may be absent, aged. -/
def State.ageOpt (s : State) (v : Option VVec) : Option VVec := v.map s.ageVec

/-- A named barrier's and a queue's vectors, aged. -/
def State.ageBar (s : State) (b : Barrier) : Barrier :=
  { b with mrg := s.ageOpt b.mrg, held := b.held.map (fun e => (e.1, s.ageVec e.2)) }
def State.ageNq (s : State) (q : NQueue) : NQueue := { q with entries := q.entries.map (fun e => (e.1, s.ageVec e.2)) }

/-- A group's own vector, aged: slot 0 keeps the serial of its writes. -/
def State.ageOwn (s : State) (v : VVec) : VVec :=
  { s.ageVec v with own := if tooOld s.now v.own.time then { v.own with time := s.oldest } else v.own }

/-- The vectors of a group, aged. -/
def State.ageGroup (s : State) (g : Group) : Group :=
  { g with vv := s.ageOwn g.vv
           handed := g.handed.map (fun e => (e.1, e.2.1, s.ageVec e.2.2))
           bank := g.bank.map (fun r => { r with dot := s.ageDot r.dot, vec := s.ageVec r.vec })
           infl := g.infl.map (fun x => { x with atoms := x.atoms.map (fun a =>
             { a with rd := a.rd.map (fun e => (e.1, s.ageDot e.2)) }) }) }

/-- The vectors of a team, aged. -/
def State.ageTeam (s : State) (t : Team) : Team :=
  { t with vec := s.ageVec t.vec, bars := t.bars.map (fun e => (e.1, s.ageBar e.2)), nqs := t.nqs.map (fun e => (e.1, s.ageNq e.2)) }

/-- The dots and vectors of a channel's chains, a parked store and a registration on its way, aged. -/
def State.ageChan (s : State) (k : Chan) : Chan :=
  { k with headq := k.headq.map (fun x => { x with dot := s.ageDot x.dot, vec := s.ageVec x.vec }) }
def State.ageParked (s : State) (p : Parked) : Parked := { p with dot := s.ageDot p.dot, vec := s.ageVec p.vec }
def State.ageReq (s : State) (q : StoreReq) : StoreReq := { q with dot := s.ageDot q.dot, vec := s.ageVec q.vec }

/-- A gather's tasks, aged. -/
def State.ageGather (s : State) (h : Gather) : Gather := { h with tasks := h.tasks.map (fun t => { t with vec := s.ageVec t.vec }) }

/-- The L1 words of a core that have their home at slice `k`, aged. -/
def State.ageL1 (s : State) (k : Nat) (c : Core) : Core :=
  { c with l1 := c.l1.map (fun e => if s.homeSlice (4 * e.1) = k then (e.1, { e.2 with dot := s.ageDot e.2.dot }) else e) }

/-- The vectors that a core's units hold, aged. -/
def State.ageCore (s : State) (c : Core) : Core :=
  { c with replay := c.replay.map s.ageParked
           chans := c.chans.map (fun e => (e.1, s.ageChan e.2))
           gathers := c.gathers.map (fun e => (e.1, s.ageGather e.2)) }

/-- A cluster instance's vectors, aged. -/
def State.ageInst (s : State) (i : Inst) : Inst :=
  { i with cbars := i.cbars.map (fun e => (e.1, { e.2 with mrg := s.ageOpt e.2.mrg, last := s.ageOpt e.2.last })) }

/-- A stranded line's dots, aged. -/
def State.ageStrand (s : State) (x : Strand) : Strand :=
  { x with dot := s.ageDot x.dot, side := s.ageDot x.side, sibs := x.sibs.map (fun e => (e.1, { e.2 with dot := s.ageDot e.2.dot })), words := x.words.map (fun w => (w.1, w.2.1, w.2.2.1, s.ageDot w.2.2.2)) }

/-- A saved team's dots and vectors, aged. -/
def State.ageSaved (s : State) (v : Saved) : Saved :=
  { v with team := s.ageTeam v.team, groups := v.groups.map (fun e => (e.1, s.ageGroup e.2))
           instR := s.ageInst v.instR
           chans := v.chans.map (fun e => (e.1, s.ageChan e.2)), replay := v.replay.map s.ageParked
           gathers := v.gathers.map (fun e => (e.1, s.ageGather e.2)) }

/-- The registered words of a slice that hold, there or in their L1, a dot that is to be aged are written home first; a hidden
one stays in its pinned line (R381). -/
def State.sendOld (s : State) (k : Nat) : State :=
  let old (d : Dot) : Bool := decide (s.ageDot d ≠ d)
  s.cores.foldl (fun s c => (c.2.l1.filter (fun e => e.2.reg && s.homeSlice (4 * e.1) = k
      && (old e.2.dot || (s.allVals e.1).any (fun v => old v.dot)))).foldl (fun s e =>
    if e.2.hid.isSome then s.fill e.1 e.2 else s.writeBack c.1 e.1) s) s

/-- R280: the scrubber of a home slice ages what its slice stores, and the dots of that slice's words in the L1s and on their way;
what the core with the same number, its groups and its teams hold, the die's cluster vectors and instances, the vectors of launches, of registrations on their way and of saved teams, and
the floors of contexts are aged with it. DESIGN CHOICE (log 12). -/
def execDotScrub (die slice : Nat) (s : State) : Res :=
  let k := 64 * die + slice
  let s := s.sendOld k
  .next { s with
    cells := s.cells.map (fun e => if s.homeSlice (4 * e.1) = k then (e.1, s.ageRec e.2) else e)
    slices := s.slices.map (fun e => if e.1 = k then (e.1, s.ageSlice e.2) else e)
    groups := s.groups.map (fun e => if coreOf e.1 = k then (e.1, s.ageGroup e.2) else e)
    teams := s.teams.map (fun e => if teamCore e.1 = k then (e.1, s.ageTeam e.2) else e)
    cores := s.cores.map (fun e => (e.1, s.ageL1 k (if e.1 = k then s.ageCore e.2 else e.2)))
    insts := s.insts.map (fun e => if e.2.teams.any (fun t => teamCore t / 64 = die) then (e.1, s.ageInst e.2) else e)
    launches := s.launches.map (fun e => (e.1, { e.2 with exitV := s.ageVec e.2.exitV, lvec := s.ageVec e.2.lvec }))
    regQ := s.regQ.map (fun q => if s.homeSlice (4 * q.w) = k then s.ageReq q else q)
    saved := s.saved.map s.ageSaved
    images := s.images.map (fun l => l.map s.ageSaved)
    regions := s.regions.map (fun e => (e.1, { e.2 with strand := e.2.strand.map s.ageStrand }))
    cvecs := s.cvecs.map (fun e => if e.1.2 = die then (e.1, s.ageVec e.2) else e)
    ctxs := s.ctxs.map (fun e => (e.1, { e.2 with floor := if tooOld s.now e.2.floor then 0 else e.2.floor })) }

/-! ### Errors in registration records (R294) -/

/-- Cores that hold a dirty copy of a word, with their words, in dot order. -/
def State.dirtyHolders (s : State) (w : Nat) : List (Nat × L1Word) :=
  dotSort (fun e => e.2.dot) (s.cores.filterMap (fun e =>
    match find e.2.l1 w with
    | some x => if x.mask ≠ 0 && x.hid.isNone then some (e.1, x) else none
    | none => none))

/-- The word dots of a line become one summary dot (0, T). -/
def State.resetLineDots (s : State) (line : Nat) : State := s.summarise line { serial := 0, time := s.now }

/-- A copy's value over the word at its home. -/
def State.copyVal (s : State) (w : Nat) (x : L1Word) : Word := mixBytes x.mask (s.word w) x.val

/-- The values of a cell with those of the cores that answer: one that the home keeps under a core's serial takes that core's
value, the others join (R294, R295). -/
def State.joinVals (s : State) (w : Nat) (l : List (Nat × L1Word)) : List CellVal :=
  let old := (s.cellRec w).vals.filter (fun v => !(v.hid.isNone && l.any (fun e => e.2.dot.serial = v.dot.serial)))
  old ++ l.map (fun e => { val := s.copyVal w e.2, dot := e.2.dot, pois := e.2.pois })

/-- The values of the cores that answer take their places beside those that the home keeps, in dot order: several with no base, one
with the base that stands (R294). `none` when a view or the sibling store cannot hold them (R291, R292). -/
def State.joinSet (s : State) (w : Nat) (l : List (Nat × L1Word)) : Option State :=
  let vals := s.joinVals w l
  if !(viewsFit vals) then none
  else
    let (r, s) := s.withVals w (s.cellRec w) vals (if l.length ≤ 1 then (s.cellRec w).base else none)
    ((s.setRec w r).makeRoom (s.homeSlice (4 * w))).map (fun s => s.settle w (s.cellRec w))

/-- The longest first part of the answers that a word can hold: on memory that is no cell, all of them. -/
def State.joinable (s : State) (w : Nat) : Nat → List (Nat × L1Word) → List (Nat × L1Word)
  | 0, _ => []
  | n + 1, l =>
    if !(s.isCell (4 * w)) || (s.joinSet w (l.take (n + 1))).isSome then l.take (n + 1) else s.joinable w n l

/-- Several values become siblings in dot order beside those that the home keeps (R294). A value for which the cell has no room
stays in its L1, to be tested as a store (R292). -/
def State.siblingsOf (s : State) (w : Nat) (l : List (Nat × L1Word)) : State :=
  if l.isEmpty then s
  else if s.isCell (4 * w) then (s.joinSet w l).getD s
  else l.foldl (fun s e => s.setVal w { val := s.copyVal w e.2, pois := e.2.pois }) s

/-- The registration that an answering core's word sets out for. -/
def repairReq (w c : Nat) (x : L1Word) : StoreReq :=
  { core := c, grp := x.grp, w := w, val := x.val, mask := x.mask, dot := x.dot, vec := { own := x.dot }, pois := x.pois }

/-- A block's hidden copy of a word stands in some L1, whose core answers too. -/
def State.hiddenHeld (s : State) (w : Nat) : Bool := (s.registrants w).any (fun e => e.2.hid.isSome)

/-- A word that no core answers for is poisoned at its home, with every value that the home keeps of it (R294). -/
def State.poisonHome (s : State) (w : Nat) : State :=
  { s.setPois w true with cells := upd s.cells w (fun r => { r with vals := r.vals.map (fun v => { v with pois := true }) }) }

/-- The single value of a word that one core has answered with, registered to it again (R294). -/
def State.takeAnswer (s : State) (w c : Nat) (x : L1Word) : State :=
  let r := s.cellRec w
  ((s.setVal w { val := s.copyVal w x, pois := x.pois }).setRec w { r with dot := x.dot, prior := none, base := none, gen := 0 }).setL1 c w
    { x with reg := true }

/-- R294. Hidden values reach their homes. DEDUCED (log 74). -/
def execRegistrationRepair (w : Nat) (s : State) : Res :=
  let s := s.fillHidden w
  match s.dirtyHolders w with
  | [] => .next ((if s.hiddenHeld w then s else s.poisonHome w).resetLineDots (w / 32))
  | l =>
    match l, (s.cellRec w).vals.isEmpty with
    | [(c, x)], true => .next ((s.takeAnswer w c x).resetLineDots (w / 32))
    | _, _ =>
      let fit := s.joinable w l.length l
      let one := decide (l.length = 1)
      let s := fit.foldl (fun s e => s.setL1 e.1 w { e.2 with mask := if one then e.2.mask else 0, reg := one }) (s.siblingsOf w fit)
      let rest := l.drop fit.length
      let s := rest.foldl (fun s e => s.setL1 e.1 w { e.2 with reg := false }) s
      .next (({ s with regQ := s.regQ ++ rest.map (fun e => repairReq w e.1 e.2) } : State).resetLineDots (w / 32))

/-! ### Errors in memory (R469, R470) -/

/-- The bank of a near-memory address within its die (R204). -/
def bankOf (pa : Nat) : Nat := pa / 128 % 1024

/-- The row of a near-memory address within its bank: 64 lines of the bank in address order. DESIGN CHOICE (log 13). -/
def bankRow (pa : Nat) : Nat := pa % 2 ^ 32 / 2 ^ 23

/-- The lowest physical address of a near-memory row (R204, R469). -/
def rowAddr (die bank row : Nat) : Nat := die * 2 ^ 32 + row * 2 ^ 23 + bank * 128

/-- Spare rows left in a bank. -/
def State.sparesLeft (s : State) (die bank : Nat) : Nat :=
  8 - (s.rowOut.filter (fun e => e.1 = 1024 * die + bank)).length

/-- Source number of the slice that an address has its home in (R423). -/
def State.sliceSrc (s : State) (pa : Nat) : Nat := 0x2000 + s.homeSlice pa

/-- A bank has a spare row left, and module flash a repair record (R469, R470). -/
def State.canSpare (s : State) (die bank : Nat) : Bool := decide (0 < s.sparesLeft die bank) && decide (s.repairs < 16384)

/-- A row is copied into a spare with its data and poison, and redirected (R469). -/
def State.spareRow (s : State) (die bank row : Nat) : State :=
  let s : State := { s with
    rowOut := s.rowOut ++ [(1024 * die + bank, row)], repairs := s.repairs + 1
    corrected := s.corrected.filter (fun e => e.1 ≠ (1024 * die + bank, row)) }
  s.post (s.sliceSrc (rowAddr die bank row)) 33 (BitVec.ofNat 64 (rowAddr die bank row)) (BitVec.ofNat 64 (s.sparesLeft die bank))

/-- Corrected errors of a row within the last hour (R469). -/
def State.correctedIn (s : State) (die bank row : Nat) : Nat :=
  (s.corrected.filter (fun e => e.1 = (1024 * die + bank, row) && decide (e.2.toNat ≤ s.tsc.toNat)
    && decide (s.tsc.toNat ≤ e.2.toNat + 3600000000000))).length

/-- R469: after 8 corrected errors within an hour firmware spares a row; with no spare or repair record left, it is reported
(R470). DESIGN CHOICE (log 75). -/
def execRowSpare (die bank row : Nat) (s : State) : Res :=
  if 4 ≤ die || 1024 ≤ bank || 512 ≤ row || decide (s.correctedIn die bank row < 8) then .next s
  else if s.canSpare die bank then .next (s.spareRow die bank row)
  else .next (s.post (s.sliceSrc (rowAddr die bank row)) 34 (BitVec.ofNat 64 (rowAddr die bank row)) 2)

/-- An error that a row's ECC corrects is counted, and the eighth within an hour is acted on (R469). -/
def eccMove (s : State) : Res :=
  match s.eccFix with
  | [] => .next s
  | (b, row) :: r =>
    let t : State := { s with eccFix := r, corrected := ((b, row), s.tsc) :: s.corrected }
    if t.correctedIn (b / 1024) (b % 1024) row = 8 then execRowSpare (b / 1024) (b % 1024) row t else .next t

/-- A word whose data are lost: poisoned, its value a free value. DESIGN CHOICE (log 76). -/
def State.loseWord (s : State) (w : Nat) : State :=
  let (n, s) := s.takeFree
  (s.setWord w (Config.lostWord n)).setPois w true

/-- R469, R470: the words of a near-memory ECC word, or of a 64-byte DRAM block, are poisoned, and the error is reported, repaired
where a spare row or a repair record is left; a pool device or the host answers reads of a word with poison. -/
def execMemoryUncorrectable (w : Nat) (s : State) : Res :=
  let pa := 4 * w
  if s.unmapped pa then .next s
  else match kindOf pa with
    | .near =>
      let s := ([w / 2 * 2, w / 2 * 2 + 1] : List Nat).foldl (fun s u => s.loseWord u) s
      let die := pa / 2 ^ 32
      let bank := bankOf pa
      if s.canSpare die bank then .next ((s.post (s.sliceSrc pa) 34 (BitVec.ofNat 64 pa) 1).spareRow die bank (bankRow pa))
      else .next (s.post (s.sliceSrc pa) 34 (BitVec.ofNat 64 (rowAddr die bank (bankRow pa))) 2)
    | .dram _ =>
      let s := ((List.range 16).map (fun i => w / 16 * 16 + i)).foldl (fun s u => s.loseWord u) s
      if s.repairs < 16384 then
        .next (({ s with repairs := s.repairs + 1 } : State).post (s.sliceSrc pa) 34 (BitVec.ofNat 64 (64 * (pa / 64))) 1)
      else .next (s.post (s.sliceSrc pa) 34 (BitVec.ofNat 64 (64 * (pa / 64))) 2)
    | .pool _ => .next (s.loseWord w)
    | .host => .next (s.loseWord w)
    | .hole => .next s

end Sys2Proof.Machine
end

