-- ==== Sys2Proof/Machine/WorkEvents.lean ====
section
/-! DEFINITION. Steps of the engines that make work: fetches of stream patterns (R231, R236), watch triggers (R343), and the
task gatherer (R338, R339). -/

namespace Sys2Proof.Machine

open Sys2Proof

/-! ### Stream patterns (R231, R236) -/

/-- How the fetch of one pattern element ends. -/
inductive ElemRes where
  | ok (s : State) (v : Nat) (pois : Bool)
  | wait (s : State)
  | fail (s : State) (m : Mark)

/-- INFO of a failed pattern element (R405). -/
def elemInfo (l : Nat) : DWord := BitVec.ofNat 64 (1024 + l)

/-- Reads `n` bytes for lane `l` of group `k`'s pattern, from scratchpad or global memory. -/
def State.elemRead (s : State) (k : Nat) (g : Group) (l : Nat) (sp : Bool) (a : Int) (n : Nat) : ElemRes :=
  if sp then
    let va : DWord := BitVec.ofNat 64 (a % 2 ^ 32).toNat
    match s.spadRange g va n with
    | none => .fail s { num := 0x11, addr := va, info := elemInfo l }
    | some (t, o) =>
      let tm := (find s.teams t).getD { ctx := 0 }
      .ok s (tm.spadN o n) (tm.spadPois o n)
  else
    let va : DWord := w64 a
    match s.translate (coreOf k) (s.ctxId g) va .read g.tclass with
    | .wait s => .wait s
    | .fault s => .fail s { num := 0x10, addr := va, info := elemInfo l }
    | .ok s pa mt =>
      let t := s.poolTrap pa
      if t ≠ 0 then
        .fail s { num := BitVec.ofNat 8 t, addr := va
                  info := elemInfo l + (if t = 0x14 then BitVec.ofNat 64 ((poolOf pa).getD 0 * 65536) else 0) }
      else
        let (s, v, p) := s.loadN k pa n mt
        .ok s v p

/-- A fetched element extended to 32 bits (R231). -/
def elemWord (r : PatRec) (v : Nat) : Word :=
  if r.sgn then BitVec.ofInt 32 (Machine.sgn (8 * r.esize) v) else BitVec.ofNat 32 v

/-- Element `m` of a pattern, for lane `l` (R231). -/
def State.element (s : State) (k : Nat) (g : Group) (r : PatRec) (m l : Nat) : ElemRes :=
  if r.iesize = 0 then s.elemRead k g l r.dsp (r.base.toNat + patOffset r m) r.esize
  else
    match s.elemRead k g l r.isp (r.ibase.toNat + patOffset r m) r.iesize with
    | .ok s j p =>
      (match s.elemRead k g l r.dsp (r.base.toNat + Machine.sgn (8 * r.iesize) j * r.esize) r.esize with
       | .ok s v q => .ok s v (p || q)
       | x => x)
    | x => x

/-- The elements of one entry, lanes `l` onward; a lane beyond the last element receives 0. -/
def State.entryOf (s : State) (k : Nat) (g : Group) (r : PatRec) (e : Nat) : List Nat → List Word → Bool →
    State × Option QEntry
  | [], acc, p => (s, some { vals := acc.reverse, pois := p })
  | l :: ls, acc, p =>
    let m := e * g.gw + l
    if patCount r ≤ m then s.entryOf k g r e ls (0 :: acc) p
    else
      match s.element k g r m l with
      | .ok s v q => s.entryOf k g r e ls (elemWord r v :: acc) (p || q)
      | .wait s => (s, none)
      | .fail s x => (s, some { mark := some x })

/-- A fetch that waits for a replayable fault has issued: it is counted once among its group's pattern accesses (R216, R236). -/
def State.holdFetch (s : State) (k : Nat) (q : QReg) (o : OpQueue) : State :=
  if o.wait.isSome then s
  else
    let (n, s) := s.countAcc k .pat
    { s with groups := upd s.groups k (fun g => g.setQueue q { o with wait := some n }) }

/-- A fetch that a stop of its queue has abandoned goes on: it waits still, or it completes and is dropped (R236). -/
def State.dropFetch (s : State) (k : Nat) (q : QReg) (g : Group) (p : PatRec) (e : Nat) (r : List (Nat × PatRec × Nat)) : State :=
  match s.entryOf k g p e (List.range g.gw) [] false with
  | (s, none) => s
  | (s, some _) => { s with groups := upd s.groups k (fun g => g.setQueue q { g.queue q with left := r }) }

/-- A new fetch finds no free place on the pattern path, or no free memory request of its core (R215, R216). -/
def State.fetchFull (s : State) (k : Nat) (g : Group) (o : OpQueue) : Bool :=
  o.wait.isNone && (decide (1024 ≤ s.counter k g .pat)
    || (!(o.pat.dsp && (o.pat.isp || o.pat.iesize = 0)) && s.requestsFull (coreOf k)))

/-- R231: the next entry of a running queue with room is fetched, or marked when an element of it fails.
DESIGN CHOICE (log 22). -/
def execPatternElementFetch (k : Nat) (q : QReg) (s : State) : Res :=
  match find s.groups k with
  | none => .next s
  | some g =>
    let o := g.queue q
    match o.left with
    | (_, p, e) :: r => .next (s.dropFetch k q g p e r)
    | [] =>
    if o.st ≠ .running || 8 ≤ o.entries.length || g.stopReq || s.fetchFull k g o then .next s
    else
      match s.entryOf k g o.pat o.nextE (List.range g.gw) [] false with
      | (s, none) => .next (s.holdFetch k q o)
      | (s, some x) =>
        let s := if o.wait.isSome then s else (s.countAcc k .pat).2
        let last := decide (patEntries o.pat g.gw ≤ o.nextE + 1)
        .next { s with groups := upd s.groups k (fun g => g.setQueue q
          { o with entries := o.entries ++ [x], nextE := o.nextE + 1, wait := none, st := if last then .exhausted else .running }) }

/-! ### Watch triggers (R343) -/

/-- The argument record of a delivered trigger (R343). -/
def trigArgs (w : Watch) (a : DWord) (v : Word) (d : Dot) (h : DWord) : List Word :=
  let two (x : DWord) : List Word := [x.truncate 32, (x >>> 32).truncate 32]
  two w.tag ++ two a ++ [v, w.drops] ++ two (dotBits d) ++ two h ++ [0, 0, 0, 0]

/-- The unregistered copy of a word leaves a core's L1. -/
def State.dropCopy (s : State) (c w : Nat) : State :=
  match s.l1At c w with
  | some x => if x.reg || x.mask ≠ 0 || x.hid.isSome then s else s.delL1 c w
  | none => s

/-- R343: the oldest trigger of a watch becomes a task of the arming team, once the gatherer takes it.
The watch keeps its entry until then. DESIGN CHOICE (log 130). -/
def execWatchTriggerDeliver (die slice ent : Nat) (s : State) : Res :=
  let k := 64 * die + slice
  match find (s.slice k).watches ent with
  | none => .next s
  | some w =>
    match w.trigs, find s.teams w.team with
    | (a, v, d) :: r, some tm =>
      let x : Task := { args := trigArgs w a v d (watchHandle k ent w.gen), vec := mergeDot w.vec d }
      (match s.insertTask w.core w.team tm.gw w.entry x with
       | none => .next s
       | some s =>
         let s := s.dropCopy w.core ((w.lo + (a - w.va).toNat) / 4)
         let w' := { w with trigs := r, drops := 0 }
         let ws := if !w.armed && r.isEmpty then del (s.slice k).watches ent else put (s.slice k).watches ent w'
         .next (s.setSlice k { s.slice k with watches := ws }))
    | _, _ => .next s

/-! ### The gatherer (R338, R339) -/

/-- R338: a gather closes when its window has passed. -/
def execGatherWindowExpiry (c slot : Nat) (s : State) : Res :=
  let co := s.core c
  match find co.gathers slot with
  | none => .next s
  | some h =>
    if laneClocks (s.ratioNow c) h.since.toNat s.tsc.toNat < co.tgcfg.toNat then .next s
    else .next (s.setCore c { co with gathers := put co.gathers slot { h with closed := true } })

/-- Lane `l` of a task group holds the argument record of task `l` (R339). -/
def Group.setTask (g : Group) (l : Nat) (x : Task) : Group :=
  (List.range 14).foldl (fun g i => g.setV i l (x.args.getD i 0)) g

/-- The group of a closed gather (R339). -/
def taskGroup (s : State) (t : Nat) (tm : Team) (h : Gather) (i p o : Nat) (n : BitVec 24) : Group :=
  let v := h.tasks.foldl (fun v x => vvMerge v x.vec) {}
  let g := { newGroup s t tm h.entry 256 i p o n v with k0 := firstLanes h.tasks.length }
  ((List.range h.tasks.length).zip h.tasks).foldl (fun g e => g.setTask e.1 e.2) g

/-- Whether any group of a team waits at a `regroup` (R338). -/
def State.atRegroup (s : State) (t : Nat) : Bool :=
  (s.members t).any (fun e => match e.2.arr with
    | some (.regroup _ _) => true
    | _ => false)

/-- The request to create a gather's group leaves the queues of its core's pipes. -/
def State.dropCreate (s : State) (c slot : Nat) : State :=
  [0, 1, 2, 3].foldl (fun s p => s.setPipe (4 * c + p) { s.pipe (4 * c + p) with
    claims := (s.pipe (4 * c + p)).claims.filter (fun r => r ≠ .create slot) }) s

/-- The request enters the queue of every open pipe of its core, behind those that wait there (R336).
DESIGN CHOICE (log 121). -/
def State.addCreate (s : State) (c slot : Nat) : State :=
  ((List.range 4).filter (s.pipeOpen c)).foldl (fun s p =>
    let q := s.pipe (4 * c + p)
    if q.claims.contains (.create slot) then s else s.setPipe (4 * c + p) { q with claims := q.claims ++ [.create slot] }) s

/-- R339: a closed gather is launched as one group once an index, an entry, a serial and, in its turn, registers are free
(R336, R338). -/
def execGatherLaunch (c slot : Nat) (s : State) : Res :=
  match find (s.core c).gathers slot with
  | none => .next s
  | some h =>
    match find s.teams h.team with
    | none => .next s
    | some tm =>
      let i := freshFrom ((s.members h.team).map (fun e => e.2.gid)) 16 0
      if !h.closed || 16 ≤ i || s.atRegroup h.team || tm.drain.isSome then .next (s.dropCreate c slot)
      else
        match s.freeEntry c, s.freeSerial with
        | some e, some n =>
          (match s.place c tm.gw tm.regs (some (.create slot)) with
           | none => .next (s.addCreate c slot)
           | some (p, o) =>
             let g := taskGroup s h.team tm h i p o n
             let s : State := { s with groups := put s.groups (128 * c + e) g }
             let s := (s.takeSerial n).dropCreate c slot
             .next (s.setCore c { s.core c with gathers := del (s.core c).gathers slot }))
        | _, _ => .next (s.dropCreate c slot)

end Sys2Proof.Machine
end

