-- ==== Sys2Proof/Machine/PoolEvents.lean ====
section
/-! DEFINITION. Pool regions as their links fail and return (R384, R440 to R449, R455): detection of a loss, stranded
lines, rejoining, and what happens to accesses in flight. -/

namespace Sys2Proof.Machine

open Sys2Proof

/-! ### Accesses in flight to data that is gone (R446, R481) -/

/-- A register write with a free value. -/
def freeWrite (n : Nat) : RegWrite → RegWrite
  | .x i _ => .x i ((Config.freeWord n).zeroExtend 64)
  | .v i l _ => .v i l (Config.freeWord n)

/-- Registers that an atomic in flight would write, with free values. -/
def atomWrites (n : Nat) (r : AtomReq) : List RegWrite :=
  (match r.xd with
   | some d => [.x d ((Config.freeWord n).signExtend 64), .x (d + 1) ((Config.freeWord (n + 1)).zeroExtend 64)]
   | none => [])
  ++ (match r.vd with
   | some (v, l) => [.v v l (Config.freeWord n), .v (v + 1) l (Config.freeWord (n + 1))]
   | none => [])

/-- An access in flight completes with poisoned data: its values are free. -/
def poisonAcc (n : Nat) (x : Inflight) : Inflight :=
  { x with writes := x.writes.map (freeWrite n) ++ x.atoms.flatMap (atomWrites n), pois := true, atoms := [] }

/-- The atomics of lost accesses of a group: whether each was performed is a free value (R446). DESIGN CHOICE (log 87). -/
def State.loseAtoms (s : State) (k : Nat) (x : Inflight) : State :=
  let (n, s) := s.takeFree
  if (Config.freeWord n).getLsbD 0 && !x.atoms.isEmpty then
    match find s.groups k with
    | none => s
    | some g =>
      let s := s.performAtoms k (pairAtoms (x.atoms.map (fun a => { a with xd := none, vd := none })) x.words)
      { s with groups := upd s.groups k (fun h => { h with infl := g.infl }) }
  else s

/-- Accesses in flight to words that `p` accepts complete with poisoned data (R446, R481). -/
def State.poisonInfl (s : State) (p : Nat → Bool) : State :=
  let hit (x : Inflight) : Bool := x.words.any p
  let s := s.groups.foldl (fun s e => (e.2.infl.filter hit).foldl (fun s x => s.loseAtoms e.1 x) s) s
  let n := s.free
  { s with free := s.free + 2
           groups := s.groups.map (fun e => (e.1, { e.2 with infl := e.2.infl.map (fun x => if hit x then poisonAcc n x else x) })) }

/-! ### Stranded lines (R446, R447) -/

/-- Whether a word belongs to a pool region. -/
def inRegion (r w : Nat) : Bool := poolOf (4 * w) = some r

/-- Dirty words of a region in L1s, in dot order: core, word index, word (R446). -/
def State.dirtyOf (s : State) (r : Nat) : List (Nat × L1Word) :=
  dotSort (fun e => e.2.dot) (s.cores.flatMap (fun e => e.2.l1.filter (fun x =>
    inRegion r x.1 && x.2.mask ≠ 0 && x.2.hid.isNone)))

/-- A line's words after one more dirty word: bytes of the same word are merged. -/
def addStrand (l : List (Nat × Word × BitVec 4 × Dot)) (w : Nat) (v : Word) (m : BitVec 4) (d : Dot) :
    List (Nat × Word × BitVec 4 × Dot) :=
  match find l w with
  | some (u, n, _) => put l w (mixBytes m u v, n ||| m, d)
  | none => put l w (v, m, d)

/-- A line whose first dirty word becomes stranded, with what the device holds of it (R447): in a versioned-family region it leaves
the dot array with its summary dot, and the device's ownership, so that its words stand at the pool with the dot of the side area
(R443). -/
def State.newStrand (s : State) (mode line : Nat) : State × Strand :=
  let d := sumDots ((lineWords line).flatMap s.wordDots)
  let x : Strand := { line := line, words := [], dot := d, side := s.sideDot line
                      sibs := (lineWords line).flatMap (fun w => (s.cellRec w).vals.map (fun v => (w, v))) }
  (if mode = 2 then s.giveUp line (s.sideDot line) else s, x)

/-- Adds one dirty word to the stranded lines of a region. -/
def State.strandWord (s : State) (r w : Nat) (v : Word) (m : BitVec 4) (d : Dot) : State :=
  let line := w / 32
  let (s, l) := if (s.region r).strand.any (fun x => x.line = line) then (s, (s.region r).strand) else
    let (s, x) := s.newStrand (s.region r).mode line
    (s, (s.region r).strand ++ [x])
  let st := l.map (fun y => if y.line = line then { y with words := addStrand y.words w v m d } else y)
  { s with regions := sset {} s.regions r { s.region r with strand := st } }

/-- Words of a region in registrations on their way that no L1 holds, each with its writer, value, bytes and dot. -/
def State.looseOf (s : State) (r : Nat) : List (Nat × Nat × Word × BitVec 4 × Dot) :=
  (s.regQ.filter (fun q => q.hid.isNone && !q.eng)).flatMap (fun q =>
    let l := (q.w, q.val, q.mask) :: (match q.pair with | some (w2, v2) => [(w2, v2, 0xf)] | none => [])
    (l.filter (fun e => inRegion r e.1 && s.homeless q e.1)).map (fun e => (q.grp, e.1, e.2.1, e.2.2, q.dot)))

/-- A word of a region is stranded already: what is kept of it since an earlier loss stays (R445). -/
def State.isStranded (s : State) (r w : Nat) : Bool :=
  (s.region r).strand.any (fun x => x.words.any (fun e => e.1 = w))

/-- Stores of a region that are not at the pool become stranded lines: unacknowledged ones with their home value, then
dirty words of L1s, then stores that wait for their test (R446). A pool-scope release of their groups stays incomplete. -/
def State.strandAll (s : State) (r : Nat) : State :=
  let s := (s.acks.filter (fun a => inRegion r a.w && !(s.isStranded r a.w))).foldl (fun s a => s.strandWord r a.w (s.word a.w) a.mask (s.storedDot a.w)) s
  let l := (s.dirtyOf r).map (fun e => (e.2.grp, e.1, e.2.val, e.2.mask, e.2.dot)) ++ s.looseOf r
  l.foldl (fun s (k, w, v, m, d) =>
    let s := s.strandWord r w v m d
    { s with acks := s.acks ++ [{ grp := k, w := w }] }) s

/-- Lines of a region leave every L1 (R384, R446). -/
def State.dropRegion (s : State) (p : Nat → Bool) : State :=
  { s with
    cores := s.cores.map (fun e => (e.1, { e.2 with l1 := e.2.l1.filter (fun x => !(p x.1)) }))
    regQ := s.regQ.filter (fun q => !(p q.w)) }

/-- Teams with hidden words that `p` accepts, at their homes or in an L1. -/
def State.hidingOn (s : State) (p : Nat → Bool) : List Nat :=
  let at1 := s.cells.flatMap (fun e => if p e.1 then e.2.vals.filterMap (·.hid) else [])
  let at2 := s.cores.flatMap (fun c => (c.2.l1.filter (fun e => p e.1)).filterMap (fun e => e.2.hid))
  let tags := at1 ++ at2 ++ (s.regQ.filter (fun q => p q.w)).filterMap (·.hid)
  (tags.map (·.team)).dedup

/-- A region is lost under open blocks (R384): each team with hidden words there fails the alternate of its innermost open level
(R376), and those words and their registrations are dropped. DEDUCED (log 118). -/
def State.loseHidden (s : State) (p : Nat → Bool) : State :=
  (s.hidingOn p).foldl (fun s t =>
    let gid := match s.members t with
      | [] => 0
      | m :: _ => m.2.gid
    (s.failAlt t (s.depth t) 4 0x14 gid).takeBackOn t 1 p) s

/-- Source number of a port (R423). -/
def portSrc (p : Nat) : Nat := 0x3020 + p

/-- Lines of a region that hold a store which is not at the pool: unacknowledged, in an L1, or waiting for its test (R446). -/
def State.unsaved (s : State) (r : Nat) : List Nat :=
  ((s.acks.filter (fun a => inRegion r a.w)).map (fun a => a.w / 32)) ++ (s.dirtyOf r).map (fun e => e.1 / 32)
    ++ (s.looseOf r).map (fun e => e.2.1 / 32)

/-- The lines that a device owns in a versioned-family region and has written back whole leave its ownership with the region: their
summary dots and spill entries stand in the side area since the write-back (R443). -/
def State.leaveOwned (s : State) (r : Nat) : State :=
  let out := s.unsaved r
  ((s.region r).owned.filter (fun l => !(out.contains l))).foldl (fun s l => s.disown l) s

/-- Detection moves a region to LOST (R445, R446). -/
def State.loseRegion (s : State) (r : Nat) : State :=
  let g := s.region r
  if g.mode = 0 || g.st = .lost then s
  else
    let s := ((s.leaveOwned r).strandAll r).loseHidden (inRegion r)
    let s := (s.dropRegion (inRegion r)).poisonInfl (inRegion r)
    let g := s.region r
    let n := if g.losses = BitVec.allOnes 16 then g.losses else g.losses + 1
    let s : State := { s with regions := sset {} s.regions r { g with st := .lost, losses := n, flush := false } }
    s.post (portSrc g.port) 17 (BitVec.ofNat 64 r) (n.zeroExtend 64)

/-- Regions that a port serves, or that a pool device holds. -/
def State.regionsWhere (s : State) (f : Region → Bool) : List Nat :=
  (s.regions.filter (fun e => e.2.mode ≠ 0 && f e.2)).map (·.1)

/-- The CXL address that an event of kind 16 reports: that of the first region affected. DEDUCED (log 20). -/
def State.lostAddr (s : State) (l : List Nat) : DWord :=
  match l with
  | [] => 0
  | r :: _ => (s.region r).cxl

/-- Loss of regions with its event (R445, R464). -/
def State.loseRegions (s : State) (port : Nat) (l : List Nat) : State :=
  l.foldl (fun s r => s.loseRegion r) (s.post (portSrc port) 16 (BitVec.ofNat 64 port) (s.lostAddr l))

/-- Takes a port's link out of the active state. -/
def State.portDown (s : State) (p : Nat) : State :=
  ({ s with ports := sset {} s.ports p { sget {} s.ports p with up := false } } : State).loseRegions p
    (s.regionsWhere (fun g => g.port = p))

/-- R445: a port's CXL link leaves the active state. -/
def execPoolLinkDown (p : Nat) (s : State) : Res :=
  if (sget {} s.ports p).up then .next (s.portDown p) else .next s

/-- R445: a request to a pool device has gone unanswered for 2 ms. Event kind 16 names the port of the first region affected (R464).
DESIGN CHOICE (log 162). -/
def execPoolRequestTimeout (dev : Nat) (s : State) : Res :=
  let l := s.regionsWhere (fun g => Config.poolDev g.cxl = dev)
  match l with
  | [] => .next s
  | r :: _ => .next (s.loseRegions (s.region r).port l)

/-- R455: a port's link trains; which pool devices it reaches is found anew. -/
def execCxlLinkTraining (p : Nat) (reach : List Nat) (s : State) : Res :=
  if p < 2 && s.dieLive (portDie p) then .next { s with ports := sset {} s.ports p { up := true, reach := reach } }
  else .next s

/-! ### Rejoining (R448) -/

/-- The vector of a stranded line's flush (R448): exactly the dots that the device held for the line, its summary dot with that of
the side area and those of its siblings, and the null floor. DEDUCED (log 156). -/
def Strand.vec (x : Strand) : VVec := { slots := (x.dot :: x.side :: x.sibs.map (·.2.dot)).dedup }

/-- Writes one stranded word: in mode 1 it overwrites; in mode 2 it is tested with the dots held (R448). -/
def State.flushWord (s : State) (mode : Nat) (x : Strand) (e : Nat × Word × BitVec 4 × Dot) : Option State :=
  let (w, v, m, d) := e
  if mode = 2 then
    let y := s.mixStore w none m v false
    s.applyStore w none { val := y.1, dot := d, pois := y.2 } x.vec none
  else some ((s.setWord w (mixBytes m (s.word w) v)).setPois w (s.poisoned w && m ≠ 0xf))

/-- Writes the words of a stranded line; `none` when one cannot be held (R292). -/
def State.flushWords (s : State) (mode : Nat) (x : Strand) : List (Nat × Word × BitVec 4 × Dot) → Option State
  | [] => some s
  | e :: r =>
    match s.flushWord mode x e with
    | none => none
    | some s => s.flushWords mode x r

/-- A rejoined region has no stranded line left: it goes UP, and releases may complete (R445). -/
def State.regionUp (s : State) (r lines : Nat) : State :=
  let g := s.region r
  let s : State := { s with
    regions := sset {} s.regions r { g with st := .up, strand := [], flush := false, moved := 0 }
    acks := s.acks.filter (fun a => !(inRegion r a.w)) }
  s.post (portSrc g.port) 18 (BitVec.ofNat 64 r) (BitVec.ofNat 64 lines)

/-- Flushes one stranded line of a region in REJOIN: its words are performed; a line that cannot be written is held back and
reported once (R448). -/
def State.flushLine (s : State) (r : Nat) (x : Strand) : State :=
  let g := s.region r
  match s.flushWords g.mode x x.words with
  | some s =>
    let s : State := { s with acks := s.acks.filter (fun a => !(x.words.any (fun e => e.1 = a.w))) }
    let g := s.region r
    let st := g.strand.filter (fun y => y.line ≠ x.line)
    if st.isEmpty then s.regionUp r (g.moved + 1)
    else { s with regions := sset {} s.regions r { g with strand := st, moved := g.moved + 1 } }
  | none =>
    if x.heldBack then s
    else
      let st := g.strand.map (fun y => if y.line = x.line then { y with heldBack := true, told := true } else y)
      let s : State := { s with regions := sset {} s.regions r { g with strand := st } }
      if x.told then s else s.post (portSrc g.port) 19 (BitVec.ofNat 64 r) (BitVec.ofNat 64 (128 * x.line))

/-- R448: the flush of the stranded line with index `l` reaches the pool. -/
def execRejoinLineWritten (r l : Nat) (s : State) : Res :=
  let g := s.region r
  if g.st ≠ .rejoin || !g.flush then .next s
  else
    match g.strand.find? (fun x => x.line = l) with
    | none => .next s
    | some x => if x.heldBack then .next s else .next (s.flushLine r x)

/-- R448: every 1 ms the flush of held-back lines is tried again. -/
def execStrandedFlushRetry (r : Nat) (s : State) : Res :=
  let g := s.region r
  if g.st ≠ .rejoin then .next s
  else .next ((g.strand.filter (·.heldBack)).foldl (fun s x => if (s.region r).st = .rejoin then s.flushLine r x else s) s)

/-- A region enters REJOIN through a port (R448); with nothing to flush it goes UP. -/
def State.rejoin (s : State) (r port : Nat) : State :=
  let g := s.region r
  let st := g.strand.map (fun x => { x with heldBack := false })
  let s : State := { s with
    regions := sset {} s.regions r { g with st := .rejoin, port := port, flush := true, moved := 0, strand := st } }
  if g.strand.isEmpty then s.regionUp r 0 else s

/-- A region drops its stranded lines and goes UP (R445, R448). Event kind 18 counts the lines that were still stranded, not those that
a flush has written before (R464). DESIGN CHOICE (log 163). -/
def State.discardStrand (s : State) (r port : Nat) : State :=
  let g := s.region r
  ({ s with regions := sset {} s.regions r { g with port := port } } : State).regionUp r g.strand.length

end Sys2Proof.Machine
end

