-- ==== Sys2Proof/Machine/HwEvents.lean ====
section
/-! DEFINITION. Steps of power, clock, retirement, repair and watch-dog hardware and of the firmware that drives it (R122,
R162, R321, R338, R377, R435, R450, R457 to R461, R465 to R482), and the deadlock walker (R471, R472). -/

namespace Sys2Proof.Machine

open Sys2Proof

/-! ### Power allowance (R473, R474) -/

/-- Source number of the Slate core of a die (R423). -/
def dieSrc (d : Nat) : Nat := 0x3000 + d

/-- Restarted firmware of a die resumes (R474): event kind 37 with the count of dropped records, then the records held.
DEDUCED (log 77). -/
def State.resumeDie (s : State) (d : Nat) : State :=
  let x := s.die d
  if !x.restart then s
  else
    let s := s.setDie d { x with restart := false, hwq := [], dropped := 0 }
    (x.hwq.foldl (fun s e => s.forward e) s).post (dieSrc d) 37 (BitVec.ofNat 64 d) (BitVec.ofNat 64 x.dropped)

/-- A write of REFILL (R473, R474): HWDEF clears. -/
def State.setRefill (s : State) (c : Nat) (v : BitVec 9) : State :=
  let s := (s.resumeDie (c / 64)).settleAllow c
  s.setCore c { s.core c with refill := v, hwdef := false }

/-- R473: the die power manager's update of a core. -/
def execPowerBudgetUpdate (c : Nat) (v : BitVec 9) (s : State) : Res := .next (s.setRefill c v)

/-- R474: a write of PWRCTL sets REFILL, its one writable field. -/
def execPwrctlWrite (c : Nat) (v : DWord) (s : State) : Res := .next (s.setRefill c ((v >>> 16).truncate 9))

/-! ### Management registers (R7) -/

/-- A write of a check log (R122, R162): counts are RW, SVALID at bit `b` is W1C, the rest RO. -/
def logWrite (old v : DWord) (b : Nat) : DWord :=
  let rw : DWord := 0xffff0000ffffffff
  let w1c : DWord := 1 <<< b
  (v &&& rw) ||| (old &&& ~~~rw &&& ~~~(v &&& w1c))

/-- Any group is resident on pipe `q`. -/
def State.pipeBusy (s : State) (q : Nat) : Bool := s.groups.any (fun e => 4 * coreOf e.1 + e.2.pipe = q)

/-- R122: PSTEER, ignored while a group is resident or with a lane above 32. A write with OOUT = 1 and OCT 5 to 7, of which the
manual says nothing, is stored and retires no unit. DESIGN CHOICE (log 122). -/
def execPsteerWrite (c pipe : Nat) (v : DWord) (s : State) : Res :=
  let q := 4 * c + pipe
  if s.pipeBusy q || (v.getLsbD 0 && decide (32 < field v.toNat 1 6)) then .next s
  else .next (s.setPipe q { s.pipe q with psteer := v &&& 0x7ff })

/-- R7, R122, R162, R321, R338, R377, R450, R472, R477: a write sets the register's writable fields. -/
def execMgmtRegisterWrite (r : MgmtReg) (v : DWord) (s : State) : Res :=
  .next (match r with
  | .pchklog c p => s.setPipe (4 * c + p) { s.pipe (4 * c + p) with pchklog := logWrite (s.pipe (4 * c + p)).pchklog v 38 }
  | .poctlog c p => s.setPipe (4 * c + p) { s.pipe (4 * c + p) with poctlog := logWrite (s.pipe (4 * c + p)).poctlog v 35 }
  | .cpcfg c => s.setCore c { s.core c with cpcfg := v.truncate 16 }
  | .tgcfg c => s.setCore c { s.core c with tgcfg := v.truncate 16 }
  | .sepcfg c => s.setCore c { s.core c with sepcfg := v.truncate 15 }
  | .wdcfg => { s with wdcfg := v.truncate 16 }
  | .pgcfg d => s.setDie d { s.die d with pgcfg := v.truncate 16 }
  | .sqbase ch => s.setHostCh ch { s.hostCh ch with sqbase := v }
  | .sqlog ch => s.setHostCh ch { s.hostCh ch with sqlog := v.truncate 5 }
  | .cqbase ch => s.setHostCh ch { s.hostCh ch with cqbase := v }
  | .cqlog ch => s.setHostCh ch { s.hostCh ch with cqlog := v.truncate 5 })

/-! ### Limits in hardware (R474) -/

/-- The image in a slot of module flash: the one written last, or the one it came with (R462). -/
def State.slotImage (s : State) (slot : Nat) : List Byte :=
  match (s.fwPend.filter (fun e => e.1 = slot)).getLast? with
  | some e => e.2
  | none => Config.factoryImage slot

/-- The boot ROM's verification of an image (R462): its hash and signature, and its rollback number. UNVERIFIED (log 42). -/
def State.imageValid (s : State) (l : List Byte) : Bool :=
  Config.imageSigned (sha3 l) l && decide (s.rollback.toNat ≤ (Config.imageNumber l).toNat)

/-- A die's firmware starts from the newest valid image (R462): with a newer one in the other slot the slots switch, and the counter
takes its rollback number. DESIGN CHOICE (log 157). -/
def State.bootDie (s : State) (d : Nat) : State :=
  let x := s.die d
  match (s.fwPend.filter (fun e => s.imageValid e.2)).getLast? with
  | none => s
  | some (slot, l) =>
    let n := Config.imageNumber l
    let s : State := { s with rollback := if s.rollback.toNat < n.toNat then n else s.rollback }
    if decide (slot = 1) = x.slotB then s
    else (s.setDie d { x with slotB := decide (slot = 1), verif := true }).post (dieSrc d) 24 (BitVec.ofNat 64 d) (BitVec.ofNat 64 slot)

/-- R474: no heartbeat of a die's firmware for 50 ms. The firmware of a die runs unless the die is retired (R480). -/
def execHeartbeatWatchdog (d : Nat) (s : State) : Res :=
  if (s.die d).restart || 4 ≤ d || s.flash.any (fun p => p.kind = 5 && p.die = d) then .next s
  else
    let s := (List.range 64).foldl (fun s i =>
      let s := s.settleAllow (64 * d + i)
      s.setCore (64 * d + i) { s.core (64 * d + i) with refill := 153, hwdef := true }) s
    let s := s.setDie d { s.die d with restart := true }
    .next (s.bootDie d)

/-- R474: a core's supply droops. -/
def execDroopDetect (c : Nat) (s : State) : Res :=
  let k := (s.settleAllow c).core c
  if k.droop then .next s
  else .next ((s.setCore c { k with recd := some k.ratio, ratio := .half, droop := true }).post c 35 (BitVec.ofNat 64 c) 1)

/-- R474: the supply has held for 10 µs; the earlier or the recorded ratio is applied. -/
def execDroopRelease (c : Nat) (s : State) : Res :=
  let k := (s.settleAllow c).core c
  if !k.droop then .next s
  else .next ((s.setCore c { k with recd := none, ratio := k.recd.getD k.ratio, droop := false }).post c 35 (BitVec.ofNat 64 c) 0)

/-- R474: a sensor of a die reaches 115 °C. -/
def execThermalTrip (d : Nat) (s : State) : Res :=
  if (s.die d).tstop then .next s
  else .next ((s.setDie d { s.die d with tstop := true }).post (dieSrc d) 36 (BitVec.ofNat 64 d) 1)

/-- R474: every sensor of a die is at or below 110 °C. -/
def execThermalRelease (d : Nat) (s : State) : Res :=
  if !(s.die d).tstop then .next s
  else .next ((s.setDie d { s.die d with tstop := false }).post (dieSrc d) 36 (BitVec.ofNat 64 d) 0)

/-! ### Retirement (R435, R457, R458, R465 to R468) -/

/-- Nothing is resident on a part (R435). DEDUCED (log 80). -/
def State.partFree (s : State) (p : Part) : Bool :=
  match p.kind with
  | 3 => s.groups.all (fun e => coreOf e.1 ≠ p.core) && s.teams.all (fun e => teamCore e.1 ≠ p.core)
  | 4 => true
  | 5 => s.groups.all (fun e => coreOf e.1 / 64 ≠ p.die) && s.teams.all (fun e => teamCore e.1 / 64 ≠ p.die)
  | _ => !(s.pipeBusy (4 * p.core + p.pipe))

/-- The die of a part. -/
def partDie (p : Part) : Nat := if 4 ≤ p.kind then p.die else p.core / 64

/-- A route without one of its links: the next alternate takes the place of the primary (R461). -/
def Route.without (r : Route) (n : Nat) : Route :=
  match [r.link, r.alt1, r.alt2].filterMap (fun o => o.filter (fun m => m ≠ n)) with
  | [] => {}
  | [a] => { link := some a }
  | a :: b :: l => { link := some a, alt1 := some b, alt2 := l.head? }

/-- A device without a route: remote edges to it complete their graphs with STATUS 5, and copies on their way to it are dropped
(R461). -/
def State.unreach (s : State) (dev : Nat) : State :=
  let s : State := { s with sent := s.sent.filter (fun x => x.dev ≠ dev) }
  s.graphs.foldl (fun s g =>
    if !g.2.ended && g.2.edges.any (fun x => x.dev = dev && x.dev ≠ s.fabric.toNat && !x.sat) then
      ({ s with graphs := put s.graphs g.1 { g.2 with ended := true } } : State).complete g.2.ch g.2.tag 3 5 (bytesOf 0 4)
    else s) s

/-- The routes of a failed link move to their alternates in every Slate core's table, which posts the event of each destination; one
that no table reaches any more is unreachable (R461). DESIGN CHOICE (log 82). -/
def State.reroute (s : State) (n : Nat) : State :=
  s.routes.foldl (fun s e =>
    let r := e.2.without n
    let s : State := { s with routes := put s.routes e.1 r }
    let dev := e.1 % 4096
    if e.2.link ≠ some n || !(s.dieLive (e.1 / 4096)) then s
    else match r.link with
      | some m => s.post (dieSrc (e.1 / 4096)) 22 (BitVec.ofNat 64 dev) (BitVec.ofNat 64 m)
      | none =>
        let s := s.post (dieSrc (e.1 / 4096)) 23 (BitVec.ofNat 64 dev) 0
        if s.reached.contains dev then s else s.unreach dev) s

/-- Links go down with their events; then their routes move, in response (R424, R460, R461). -/
def State.linksDown (s : State) (l : List Nat) : State :=
  let l := l.filter (fun n => (sget {} s.links n).up)
  let s := l.foldl (fun s n =>
    let s : State := { s with links := sset {} s.links n { sget {} s.links n with up := false } }
    s.post (0x3100 + n) 21 (BitVec.ofNat 64 n) 0) s
  if l.isEmpty then s else s.inResponse (fun s => l.foldl (fun s n => s.reroute n) s)

/-- A link goes down (R460, R461). -/
def State.linkDown (s : State) (n : Nat) : State := s.linksDown [n]

/-- The links of a die (R423, R460). -/
def dieLinks (d : Nat) : List Nat := (List.range 6).map (fun i => 6 * d + i)

/-- The command processor of die 2 takes over from that of die 0 (R457, R458): it reads the ring registers again. DATA1 of its event
is the HEAD of a channel, which one is not stated. DEDUCED (log 81). -/
def State.takeOver (s : State) : State :=
  let (n, s) := s.takeFree
  let s : State := { s with cpDie := 2, cpDead := s.cpDead ++ [0]
                            chs := s.chs.map (fun e => (e.1, if e.2.en then { e.2 with ring := ringOf e.2 } else e.2)) }
  s.post (dieSrc 2) 25 2 ((s.hostCh (Config.originCh n).toNat).head.zeroExtend 64)

/-- A word is homed on a die. -/
def State.onDie (s : State) (d w : Nat) : Bool := kindOf (4 * w) ≠ PKind.hole && s.homeDie (4 * w) = d && !(isHost (4 * w))

/-- A die leaves service (R481): accesses in flight to its data complete poisoned, its lines leave every L1, its port and
links go down, in the order of their sources (R424). -/
def State.dieOut (s : State) (d : Nat) : State :=
  let p := fun w => s.onDie d w
  let s := (s.poisonInfl p).dropRegion p
  let s := if d = 0 then s.portDown 0 else if d = 2 then s.portDown 1 else s
  let s := s.linksDown (dieLinks d)
  { s with live := s.live &&& ~~~((1 : BitVec 4) <<< d) }

/-- A part is steered out or leaves the live map (R435). -/
def State.steerOut (s : State) (p : Part) : State :=
  let q := 4 * p.core + p.pipe
  let v := (s.pipe q).psteer
  match p.kind with
  | 0 => s.setPipe q { s.pipe q with psteer := setField (setField v 0 1 1) 1 6 p.part }
  | 1 => s.setPipe q { s.pipe q with psteer := setField (setField v 7 1 1) 8 3 p.part }
  | 2 => { s with pipeOut := s.pipeOut ++ [q] }
  | 3 => { s with coreOut := s.coreOut ++ [p.core] }
  | 4 => if p.die = 0 then s.takeOver else { s with cpDead := s.cpDead ++ [p.die] }
  | _ =>
    let s := if p.die = 0 && s.cpDie = 0 then s.takeOver
      else if p.die = 2 then { s with cpDead := s.cpDead ++ [2] } else s
    s.dieOut p.die

/-- A core with a second retired pipe is retired as a whole (R465). -/
def State.coreIfTwo (s : State) (p : Part) : State :=
  if p.kind = 2 && decide (2 ≤ ((List.range 4).filter (fun i => s.pipeOut.contains (4 * p.core + i))).length) then
    (s.requestRetire { kind := 3, core := p.core, pipe := 0, part := 0, die := 0 }).1
  else s

/-- The retirement of a part is carried out, recorded and reported (R435, R468); its event comes before those of the links and
ports that go with it, which respond to it (R424). -/
def State.retirePart (s : State) (p : Part) : State :=
  let s : State := { s with retireQ := s.retireQ.filter (fun e => e.1 ≠ p), flash := s.flash ++ [p] }
  ((s.post (dieSrc (partDie p)) 10 (partWord p) 0).inResponse (fun s => s.steerOut p)).coreIfTwo p

/-- R435. -/
def execRetireApply (n : Nat) (s : State) : Res :=
  match s.retireQ[n]? with
  | none => .next s
  | some (p, _) => .next (if s.partFree p then s.retirePart p else s)

/-- The teams with a group on a part. -/
def State.teamsOn (s : State) (p : Part) : List Nat :=
  ((s.groups.filter (fun e => match p.kind with
    | 3 => coreOf e.1 = p.core
    | 5 => coreOf e.1 / 64 = p.die
    | _ => coreOf e.1 = p.core && e.2.pipe = p.pipe)).map (fun e => e.2.seat)).dedup

/-- R466: groups still resident after 1 s are pre-empted, to be restored elsewhere. -/
def execRetireTimeout (n : Nat) (s : State) : Res :=
  match s.retireQ[n]? with
  | none => .next s
  | some (p, t) =>
    if s.tsc.toNat < t.toNat + 1000000000 || p.kind = 4 then .next s
    else .next ((s.teamsOn p).foldl (fun s t => s.cpPreempt t) s)

/-- Kernels that have begun and not ended, by launch number. -/
def State.running (s : State) : List (Nat × Launch) := s.launches.filter (fun e => e.2.start.isSome && !e.2.ended)

/-- A kernel that had begun under the retired command processor is halted (R430, R457): its LAUNCH completes with STATUS 7, or its
GRAPH does, of which no other node runs any more. -/
def State.haltKernel (s : State) (l : Nat) (L : Launch) (st : Word) : State :=
  let s := s.haltTeams (fun tm => tm.launch = l)
  match L.node with
  | none => s.endLaunch l 7 st
  | some (gi, _) =>
    let open_ := ((find s.graphs gi).map (fun g => !g.ended)).getD false
    let s : State := { s with
      launches := s.launches.map (fun e => if (e.2.node.map (·.1)) = some gi && !e.2.ended then
        (e.1, { e.2 with ended := true, status := st, left := 0, endT := some s.now }) else e)
      graphs := upd s.graphs gi (fun g => { g with ended := true }) }
    match find s.graphs gi with
    | some g => if open_ then s.complete g.ch g.tag 3 7 (bytesOf st.toNat 4) else s
    | none => s

/-- R458: die 0's command processor, under retirement, has not answered for 10 ms. Kernels that have begun are halted with their
fault services and host calls, and accepted QUIESCE packets complete with STATUS 7; contexts and packets not begun go on. -/
def execCpTakeoverForced (s : State) : Res :=
  match s.retireQ.find? (fun e => (e.1.kind = 4 || e.1.kind = 5) && e.1.die = 0 && s.partFree e.1) with
  | none => .next s
  | some (p, _) =>
    let l := s.running
    let ids := (l.map (fun e => e.2.ctx)).dedup
    let s := l.foldl (fun s e => s.haltKernel e.1 e.2 0x80000004) s
    let s := ids.foldl (fun s c => s.postHalt c 0x80000004 (dieSrc 2)) s
    let s := (s.quiesces.filter (fun q => !q.ended)).foldl (fun s q => s.complete q.ch q.tag 4 7 []) s
    let s : State := { s with quiesces := s.quiesces.map (fun q => { q with ended := true })
                              faults := s.faults.filter (fun f => f.pkt || !(ids.contains f.ctx)) }
    .next (s.retirePart p)

/-- A core-wide unit that fails uncorrectably, a scratchpad bank, the L1 tags, Sepia or the range-lock table: firmware requests the
retirement of its core (R465). -/
def State.unitFails (s : State) : State :=
  match s.broken with
  | [] => s
  | c :: r => (({ s with broken := r } : State).requestRetire { kind := 3, core := c, pipe := 0, part := 0, die := 0 }).1

/-- R465: suspects older than 24 hours are dropped. -/
def execSuspectCountAge (s : State) : Res :=
  .next { s with suspects := s.suspects.filter (fun e => decide (s.tsc.toNat ≤ e.2.toNat + 86400000000000)) }

/-! ### Links (R460, R461) -/

/-- R460: a lane of a link has failed: the spare takes it, or the link goes down. -/
def execUlunoezLaneFailed (n lane : Nat) (s : State) : Res :=
  let l := sget {} s.links n
  if 24 ≤ n || !l.up then .next s
  else if l.spare then .next (s.linkDown n)
  else .next (({ s with links := sset {} s.links n { l with spare := true } } : State).post (0x3100 + n) 20
    (BitVec.ofNat 64 n) (BitVec.ofNat 64 lane))

/-- R461. -/
def execUlunoezLinkFailed (n : Nat) (s : State) : Res := .next (if n < 24 then s.linkDown n else s)

/-! ### Calibration and gating (R476 to R478) -/

/-- A core that holds no team seat has been idle for some nanoseconds, and no die's firmware restarts (R474). -/
def State.idleFor (s : State) (c n : Nat) : Bool :=
  s.coreLive c && s.teams.all (fun e => teamCore e.1 ≠ c) && !s.restarting
    && decide ((s.core c).idleT.toNat + n ≤ s.tsc.toNat)

/-- The voltage at which the first pattern fails as firmware goes down from `v` in steps of 5 mV, where a pattern fails at `f` and
below (R476). -/
def failStep (v f : Nat) : Nat := if v ≤ f then v else v - (v - f + 4) / 5 * 5

/-- R476: calibration of an idle core, at most once in 24 hours; a pattern that fails at nominal voltage retires the pipe
(R465). DESIGN CHOICE (log 85). -/
def execCalibrate (c : Nat) (s : State) : Res :=
  let k := s.core c
  let due := match k.calT with
    | none => true
    | some t => decide (t.toNat + 86400000000000 ≤ s.tsc.toNat)
  if !(s.idleFor c 1000000) || !due || k.gated then .next s
  else
    let (n, s) := s.takeFree
    let f := (Config.failVolt n).toNat
    let v := failStep (k.calV.getD Config.nominal.toNat) f
    if Config.nominal.toNat ≤ f then
      .next ((s.setCore c { k with calT := some s.tsc }).requestRetire
        { kind := 2, core := c, pipe := (Config.failPipe n).toNat, part := 0, die := 0 }).1
    else
      let set := Nat.min Config.nominal.toNat (v + 40)
      .next ((s.setCore c { k with calV := some set, calT := some s.tsc }).post c 32 (BitVec.ofNat 64 c) (BitVec.ofNat 64 v))

/-- A core's registrations are tested and its dirty words written back. -/
def State.cleanCore (s : State) (c : Nat) : State :=
  let s := s.testAll (fun q => q.core = c)
  (s.core c).l1.foldl (fun s e => s.writeBack c e.1) s

/-- R477: an idle core is gated: its dirty words go home, its lines are dropped. -/
def execPowerGate (c : Nat) (s : State) : Res :=
  if !(s.idleFor c (1000 * (s.die (c / 64)).pgcfg.toNat)) || (s.core c).gated then .next s
  else
    let s := s.cleanCore c
    .next (s.setCore c { s.core c with l1 := [], gated := true })

/-! ### Reset and reduced service (R479, R480) -/

/-- Recorded retirements are applied at boot (R468); the links of a retired die are down, with their events (R481). -/
def State.applyFlash (s : State) : List Part → State
  | [] => s
  | p :: r =>
    (match p.kind with
     | 4 => { s with cpDead := s.cpDead ++ [p.die], cpDie := if p.die = 0 then 2 else s.cpDie }
     | 5 => ({ s with live := s.live &&& ~~~((1 : BitVec 4) <<< p.die), cpDie := if p.die = 0 then 2 else s.cpDie } : State).linksDown
         (dieLinks p.die)
     | _ => s.steerOut p : State).applyFlash r

/-- The module envelope in watts that boot reads from module flash: a valid lower one, else 2,400 (R473). DEDUCED (log 123). -/
def envelope (w : BitVec 16) : BitVec 16 :=
  if decide (1200 ≤ w.toNat) && decide (w.toNat ≤ 2350) && w.toNat % 50 = 0 then w else 2400

/-- R479: the module as it leaves reset. Module flash, host and pool memory, and what the agenda brings stay.
DESIGN CHOICE (log 7). -/
def execModuleReset (s : State) : Res :=
  let r : State := { State.reset with
    mem := s.mem.filter (fun e => isHost e.1 || (poolOf e.1).isSome)
    flash := s.flash, rowOut := s.rowOut, repairs := s.repairs, rollback := s.rollback, flashW := s.flashW
    envW := envelope s.flashW
    fwPend := s.fwPend, topo := s.topo, broken := s.broken, eccFix := s.eccFix, upsets := s.upsets, agenda := s.agenda, elapsed := s.elapsed, slow := s.slow, free := s.free
    dies := s.dies.map (fun e => (e.1, { ({} : Die) with slotB := e.2.slotB, verif := e.2.verif })) }
  .next (([0, 1, 2, 3] : List Nat).foldl (fun s d => s.bootDie d) (r.applyFlash s.flash))

/-- Dies that flash records as retired. -/
def State.diesRetired (s : State) : BitVec 4 :=
  s.flash.foldl (fun m p => if p.kind = 5 then m ||| ((1 : BitVec 4) <<< p.die) else m) 0

/-- R480: reduced service is lifted with no context on the device; dies that failed or are retired stay out, their links go down
(R481), and firmware sets the routes that it has found (R461). DESIGN CHOICE (log 84). -/
def execReducedServiceLift (dies : BitVec 4) (s : State) : Res :=
  let live := dies &&& ~~~s.diesRetired
  if !s.reduced || !(live.getLsbD 0) || s.ctxs.any (fun e => e.2.halted.isNone) then .next s
  else
    let s := (List.range 256).foldl (fun s c => s.settleAllow c) s
    let s : State := { s with live := live, reduced := false, routes := s.topo }
    let s := s.linksDown (((List.range 4).filter (fun d => !(live.getLsbD d))).flatMap dieLinks)
    .next (s.post (dieSrc 0) 38 (live.zeroExtend 64) 0)

/-! ### The deadlock walker (R471, R472) -/

/-- Groups of the teams in a list. -/
def State.groupsOf (s : State) (ts : List Nat) : List Nat := (s.groups.filter (fun e => ts.contains e.2.seat)).map (·.1)

/-- The groups whose bits a row names on its core (R349). -/
def rowSigs (c : Nat) (r : WaitRow) : List Nat :=
  (bitsSet r.sig0.toNat 64).map (fun i => 128 * c + i) ++ (bitsSet r.sig1.toNat 64).map (fun i => 128 * c + 64 + i)

/-- Groups of an instance that have not arrived at a cluster barrier. -/
def State.notAtCbar (s : State) (g : Group) (n : Nat) : List Nat :=
  match find s.insts (s.teamOf g).inst with
  | none => []
  | some i =>
    let here := match find i.cbars n with
      | some b => b.arrd
      | none => []
    (s.groupsOf i.teams).filter (fun k => !(here.contains k))

/-- The node of a copy channel in the walker's graph, beside the keys of groups (R471). -/
def chanNode (c ch : Nat) : Nat := 65536 + 8 * c + ch

/-- The nodes behind an entry of a core's range-lock table. -/
def State.lockNodes (s : State) (c : Nat) : RlOwner → List Nat
  | .chan ch => [chanNode c ch]
  | .next ch => [chanNode c ch]
  | .queue g _ => [g]
  | .bank g => [g]
  | .watch h =>
    match find (s.slice (h / 64)).watches (h % 64) with
    | some w => (s.members w.team).map (·.1)
    | none => []

/-- What a copy channel waits on (R256, R471): the owners of the ranges that its record at hand meets, or of all where the
table has no room; `none` when it does not wait, or waits on an `OWN` bit. -/
def State.chanSignallers (s : State) (c ch : Nat) : Option (List Nat) :=
  let k := s.chan c ch
  match k.crec with
  | none => none
  | some r =>
    if r.reg || k.wown || k.st ≠ .running || !(s.wellFormed k r) || (s.chkSpads k r).isSome then none
    else
      let ls := [s.recLock k (.chan ch) r.fsp false r.src r.bytes, s.recLock k (.chan ch) r.tsp true r.dst r.bytes]
      if (s.tryLock c ls).isSome then none
      else
        let locks := (s.core c).locks
        let met := locks.filter (fun l => ls.any (fun n => decide (n.lo < n.hi) && regBlocked l n))
        some ((if met.isEmpty then locks else met).flatMap (fun l => s.lockNodes c l.owner))

/-- The nodes of a core's running channels. -/
def State.runNodes (s : State) (c : Nat) : List Nat :=
  ((s.core c).chans.filter (fun e => e.2.st = .running)).map (fun e => chanNode c e.1)

/-- The expected signallers of a blocked group (R350, R471); `none` when one is a team not yet known, or saved.
DEDUCED (log 83). -/
def State.signallers (s : State) (k : Nat) (g : Group) : Option (List Nat) :=
  let r := g.wf
  let sigs := rowSigs (coreOf k) r
  if r.ext then none
  else if r.kind = 2 then some (s.notAtCbar g r.obj)
  else if r.kind = 13 then
    match s.convOf g.seat with
    | none => none
    | some (_, v) =>
      if !v.ready || v.teams.any (fun t => (find s.teams t).isNone) then none
      else some (s.groupsOf (v.teams.filter (fun t => match find s.teams t with
        | some tm => !tm.passed
        | none => false)))
  else if r.kind = 17 then
    let ts := (s.convs.filter (fun e => e.2.die = r.obj)).flatMap (fun e => e.2.teams)
    if ts.any (fun t => (find s.teams t).isNone) then none else some (s.groupsOf ts)
  else if r.kind = 7 then (if sigs.isEmpty then none else some sigs)
  else if r.kind = 8 then some (if sigs.isEmpty then [chanNode (coreOf k) r.obj] else sigs)
  else if r.kind = 9 then
    let l := sigs ++ s.runNodes (coreOf k)
    if l.isEmpty then none else some l
  else some sigs

/-- The signallers of a node of the walker's graph. -/
def State.nodeSignallers (s : State) (n : Nat) : Option (List Nat) :=
  if 65536 ≤ n then s.chanSignallers ((n - 65536) / 8) (n % 8) else (find s.groups n).bind (fun g => s.signallers n g)

/-- The greatest set of blocked nodes whose signallers all belong to it. -/
def shrink (f : Nat → Option (List Nat)) : Nat → List Nat → List Nat
  | 0, l => l
  | n + 1, l =>
    let m := l.filter (fun k => match f k with
      | some r => r.all (fun x => l.contains x)
      | none => false)
    if m.length = l.length then l else shrink f n m

/-- Members of `l` reached from a member, following signallers either way. -/
def reach (f : Nat → List Nat) (l : List Nat) : Nat → List Nat → List Nat
  | 0, m => m
  | n + 1, m =>
    let m' := l.filter (fun k => m.contains k || m.any (fun x => (f x).contains k || (f k).contains x))
    if m'.length = m.length then m else reach f l n m'

/-- A set cut into connected parts. -/
def parts (f : Nat → List Nat) : Nat → List Nat → List (List Nat)
  | _, [] => []
  | 0, _ => []
  | n + 1, k :: r =>
    let m := reach f (k :: r) (r.length + 1) [k]
    m :: parts f n (r.filter (fun x => !(m.contains x)))

/-- The sets of blocked groups and copy channels that wait on each other alone (R471); the groups stand first. -/
def State.cyclesNow (s : State) : List (List Nat) :=
  let l := (s.groups.filter (fun e => e.2.wf.kind ≠ 0)).map (·.1) ++ s.cores.flatMap (fun e => s.runNodes e.1)
  let m := shrink s.nodeSignallers l.length l
  (parts (fun k => (s.nodeSignallers k).getD []) m.length m).filter (fun p => p.any (fun k => decide (k < 65536)))

/-- What identifies a wait: its kind, object and beginning. -/
def waitId (r : WaitRow) : WaitRow := { kind := r.kind, obj := r.obj, since := r.since }

/-- The deadlock trap of one group (R405, R471): a double fault at trap class, else held for its pending registers. -/
def State.deadlockTrap (s : State) (k n : Nat) : State :=
  match find s.groups k with
  | none => s
  | some g =>
    if g.tclass then s.doubleFault k
    else (s.addPend k { num := 0x20, info := BitVec.ofNat 64 n }).takePending k

/-- A declared cycle (R471): event kind 7, then each team's open level fails, or its member is trapped. -/
def State.declare (s : State) (l : List Nat) : State :=
  let n := s.cycles + 1
  let g0 := l.headD 0
  let ctx := match find s.groups g0 with
    | some g => ctxImage (s.ctxId g) (s.ctxOf g)
    | none => 0
  let s : State := ({ s with cycles := n } : State).post (slateSrc g0) 7 (BitVec.ofNat 64 n) ctx
  l.foldl (fun s k =>
    match find s.groups k with
    | none => s
    | some g => if 0 < s.depth g.seat then s.failAlt g.seat (s.depth g.seat) 8 0 0 else s.deadlockTrap k n) s

/-- R471: one walk; a set that the walk before found too, each member in the same wait, is declared. -/
def execDeadlockWalk (s : State) : Res :=
  let rows (l : List Nat) : List (Nat × WaitRow) :=
    l.map (fun k => (k, match find s.groups k with | some g => waitId g.wf | none => {}))
  let now := s.cyclesNow
  let hit := now.filter (fun l => s.walk.contains (rows l))
  let s1 : State := { s with walk := (now.filter (fun l => !(s.walk.contains (rows l)))).map rows }
  .next (hit.foldl (fun s l => s.declare l) s1)

/-- R472: a group has been blocked for WDCFG.LONG seconds. -/
def execLongWait (k : Nat) (s : State) : Res :=
  match find s.groups k with
  | none => .next s
  | some g =>
    if g.wf.kind = 0 || g.wf.told || s.wdcfg = 0 || s.tsc.toNat < g.wf.since.toNat + 1000000000 * s.wdcfg.toNat then .next s
    else
      let s1 : State := { s with groups := put s.groups k { g with wf := { g.wf with told := true } } }
      .next (s1.post (coreOf k) 8 (BitVec.ofNat 64 (k % 128)) (ctxImage (s.ctxId g) (s.ctxOf g)))

end Sys2Proof.Machine
end

