-- ==== Sys2Proof/Machine/HostEvents.lean ====
section
/-! DEFINITION. Host channels, submission packets and what the command processor does with them (R258 to R262, R416,
R444, R450 to R463). -/

namespace Sys2Proof.Machine

open Sys2Proof

/-! ### Packets of a channel (R450, R451, R453) -/

/-- The kinds of packets with their fields (R453). -/
inductive PktBody where
  | ctx (addr : DWord)
  | launch (addr : DWord)
  | graph (addr : DWord)
  | quiesce
  | hreply (rid x1 x2 : DWord)
  | fdone (rid : DWord) (fail : Bool)
  | region (op r port : Nat) (cxl : DWord) (devs : List Nat)
  | devcfg (fabric base size : Nat)
  | attest (nonce report : DWord)
  | fwupd (addr : DWord) (bytes slot : Nat)
  deriving DecidableEq, Repr, Inhabited

/-- What 64 bytes of a submission ring are. -/
inductive Pkt where
  | ok (h : PktHdr) (b : PktBody)
  /-- A KIND not listed, or a body that no packet of its KIND has: STATUS 2. -/
  | bad (tag : Word) (kind : Nat)
  /-- A reply that is ignored (R453). -/
  | ignored
  deriving DecidableEq, Repr, Inhabited

/-- Every byte of a packet outside its header and the given fields is 0. -/
def onlyFields (l : List Byte) (fs : List (Nat × Nat)) : Bool :=
  (List.range 64).all (fun i => l.getD i 0 = 0 || i = 0 || (decide (2 ≤ i) && decide (i < 8))
    || fs.any (fun f => decide (f.1 ≤ i) && decide (i < f.1 + f.2)))

/-- The fields of each packet kind: offset and bytes (R453). -/
def pktFields (kind : Nat) : Option (List (Nat × Nat)) :=
  match kind with
  | 1 => some [(8, 8)] | 2 => some [(8, 8)] | 3 => some [(8, 8)] | 4 => some []
  | 5 => some [(8, 8), (16, 8), (24, 8)] | 6 => some [(8, 8), (16, 1)]
  | 7 => some [(8, 2), (10, 1), (11, 1), (12, 1), (16, 8), (24, 16)]
  | 8 => some [(8, 2), (12, 4), (16, 4)] | 9 => some [(8, 8), (16, 8)] | 10 => some [(8, 8), (16, 4), (20, 1)]
  | _ => none

/-- A 64-bit field of a packet. -/
def pktDw (l : List Byte) (o : Nat) : DWord := BitVec.ofNat 64 (numAt l o 8)

/-- The packet that 64 bytes on a channel hold (R451 to R453, R455). -/
def parsePkt (ch : Nat) (l : List Byte) : Pkt :=
  let kind := numAt l 0 1
  let tag : Word := BitVec.ofNat 32 (numAt l 4 4)
  let h : PktHdr := { ch := ch, tag := tag, ctxid := BitVec.ofNat 16 (numAt l 2 2) }
  let a := pktDw l 8
  match pktFields kind with
  | none => .bad tag kind
  | some fs =>
    if !(onlyFields l fs) then .bad tag kind
    else match kind with
      | 1 => .ok h (.ctx a)
      | 2 => .ok h (.launch a)
      | 3 => .ok h (.graph a)
      | 4 => .ok h .quiesce
      | 5 => .ok h (.hreply a (pktDw l 16) (pktDw l 24))
      | 6 => (match numAt l 16 1 with
          | 0 => .ok h (.fdone a false)
          | 1 => .ok h (.fdone a true)
          | _ => .ignored)
      | 7 =>
        let n := numAt l 12 1
        let op := numAt l 10 1
        let port := numAt l 11 1
        if 8 < n || 4 < op || 1 < port then .bad tag kind
        else
          let plain : Bool := decide (op ≤ 1)
          .ok h (.region op (numAt l 8 2) (if op = 2 then 0 else port) (if plain then pktDw l 16 else 0)
            (if plain then (List.range n).map (fun i => numAt l (24 + 2 * i) 2) else []))
      | 8 => .ok h (.devcfg (numAt l 8 2) (numAt l 12 4) (numAt l 16 4))
      | 9 => .ok h (.attest a (pktDw l 16))
      | _ => .ok h (.fwupd a (numAt l 16 4) (numAt l 20 1))

/-- The packet that the command processor reads next on a channel: the channel runs, its ring holds one, and completions
have room (R450). -/
def State.nextPkt (s : State) (ch : Nat) : Option Pkt :=
  let h := s.hostCh ch
  match h.ring with
  | none => none
  | some (sq, sqlog, _, _) =>
    if h.en && h.head ≠ h.tail && ringRoom h then
      some (parsePkt ch (s.homeBytes (sq + 64 * (h.head.toNat % 2 ^ sqlog)) 64))
    else none

/-- HEAD moves past a packet (R457). -/
def State.headOn (s : State) (ch : Nat) : State := s.setHostCh ch { s.hostCh ch with head := (s.hostCh ch).head + 1 }

/-- Packets that cannot be performed are passed over: STATUS 2, or nothing for a reply (R452, R453). DEDUCED (log 94). -/
def State.passBad (s : State) (ch : Nat) : Nat → State
  | 0 => s
  | n + 1 =>
    match s.nextPkt ch with
    | some (.bad tag kind) => ((s.headOn ch).complete ch tag kind 2 []).passBad ch n
    | some .ignored => (s.headOn ch).passBad ch n
    | _ => s

/-- A packet event: it acts when the packet stands at HEAD of its channel. -/
def withPkt (b : PktBody) (h : PktHdr) (s : State) (f : State → State) : Res :=
  if s.nextPkt h.ch = some (.ok h b) then .next ((f (s.headOn h.ch)).passBad h.ch 65536) else .next s

/-! ### Registers of a channel (R450) -/

def execChannelDoorbell (ch : Nat) (tail : Word) (s : State) : Res :=
  if 16 ≤ ch then .next s
  else .next ((s.setHostCh ch { s.hostCh ch with tail := tail }).passBad ch 65536)

def execChannelEnable (ch : Nat) (en : Bool) (s : State) : Res :=
  let h := s.hostCh ch
  if 16 ≤ ch then .next s
  else
    let h' := { h with en := en, ring := if en && !h.en then ringOf h else h.ring }
    .next (((s.setHostCh ch h').pump ch).passBad ch 65536)

def execCompletionHeadWrite (ch : Nat) (head : Word) (s : State) : Res :=
  if 16 ≤ ch then .next s
  else .next (((s.setHostCh ch { s.hostCh ch with cqhead := head }).pump ch).passBad ch 65536)

/-! ### Contexts (R416) -/

/-- Memory of the device or of the host (R453). -/
def inMemory (s : State) (pa : Nat) : Bool := !(s.unmapped pa) && (poolOf pa).isNone

/-- A context is named: a new one, or one whose record is to be read again at its first launch (R416). DEDUCED (log 33). -/
def State.nameCtx (s : State) (id a : Nat) (n : Ctx) : State :=
  match find s.ctxs id with
  | some c =>
    if c.halted.isNone then { s with ctxs := put s.ctxs id { c with recA := some a } }
    else { s with ctxs := put s.ctxs id { n with recA := some a } }
  | none => { s with ctxs := put s.ctxs id { n with recA := some a } }

def execCtxPkt (h : PktHdr) (addr : DWord) (s : State) : Res :=
  withPkt (.ctx addr) h s (fun s =>
    let a := addr.toNat
    if a % 64 ≠ 0 || !(inMemory s a) then s.complete h.ch h.tag 1 0x11 []
    else match parseCtx (s.homeBytes a 64) with
      | none => s.complete h.ch h.tag 1 0x11 []
      | some (id, n) => (s.nameCtx id a n).complete h.ch h.tag 1 0 [])

/-! ### Launches (R452) -/

/-- A descriptor at a virtual address of a context. -/
inductive DescRead where
  | ok (s : State) (d : Desc)
  | wait (s : State)
  | refuse (s : State) (status : Nat)

def State.readDesc (s : State) (ctx : Nat) (va : DWord) : DescRead :=
  match s.cpRead ctx va (piecesOf 64) 64 [] with
  | .wait s => .wait s
  | .fail s => .refuse s 8
  | .ok s l =>
    match parseDesc l with
    | .ok d => .ok s d
    | .refuse st => .refuse s st

/-- A packet whose structures wait for a fault service is held under its number. -/
def State.hold (s : State) (u : Nat) (h : PktHdr) (a : DWord) (graph : Bool) : State :=
  { s with held := s.held ++ [(u, h, a, graph)] }

/-- An accepted LAUNCH with number `u` is read and becomes a launch, is refused, or is held (R452, R457). An address that is not
aligned is refused before an unknown CTXID. DESIGN CHOICE (log 150). -/
def State.takeLaunch (s : State) (u : Nat) (h : PktHdr) (addr : DWord) : State :=
  let id := h.ctxid.toNat
  if addr.toNat % 64 ≠ 0 then s.complete h.ch h.tag 2 2 []
  else if !(s.ctxOpen id) then s.complete h.ch h.tag 2 3 []
  else
    match s.readDesc id addr with
    | .wait s => s.hold u h addr false
    | .refuse s st => s.complete h.ch h.tag 2 st []
    | .ok s d =>
      let l : Launch := { ctx := id, ch := h.ch, tag := h.tag, daddr := addr, desc := d, left := d.grid }
      { s with launches := put s.launches u l }

/-- A new number for a launch, a graph or a packet. -/
def State.newUid (s : State) : Nat × State := (s.nextUid, { s with nextUid := s.nextUid + 1 })

def execLaunchPkt (h : PktHdr) (addr : DWord) (s : State) : Res :=
  withPkt (.launch addr) h s (fun s => let (u, s) := s.newUid; s.takeLaunch u h addr)

/-! ### Graphs (R258, R454) -/

/-- A valid region entry (R258): base, length, direction. -/
def parseFlow (l : List Byte) : Option (DWord × Nat × Nat) :=
  let b := pktDw l 0
  let n := numAt l 8 6
  let d := numAt l 14 1
  if canonA b && b.toNat % 128 = 0 && n % 128 = 0 && decide (128 ≤ n) && decide (n ≤ 2 ^ 47) && decide (d ≤ 2)
    && numAt l 15 1 = 0 then some (b, n, d) else none

/-- Records of `n` bytes each. -/
def chunks (n : Nat) : Nat → List Byte → List (List Byte)
  | 0, _ => []
  | k + 1, l => l.take n :: chunks n k (l.drop n)

/-- How reading a part of a graph ends. -/
inductive GRead (α : Type) where
  | ok (s : State) (x : α)
  | wait (s : State)
  | refuse (s : State) (status : Nat)

/-- Reads bytes of a graph. -/
def State.graphBytes (s : State) (ctx : Nat) (va : DWord) (n : Nat) : GRead (List Byte) :=
  match s.cpRead ctx va (piecesOf n) n [] with
  | .wait s => .wait s
  | .fail s => .refuse s 8
  | .ok s l => .ok s l

/-- The nodes of a graph, each with its descriptor, context and descriptor address (R454). -/
def State.readNodes (s : State) (ctx : Nat) : List (List Byte) → List (Desc × Nat × DWord) → GRead (List (Desc × Nat × DWord))
  | [], acc => .ok s acc.reverse
  | r :: l, acc =>
    let id := numAt r 8 2
    if (r.drop 10).any (fun b => b ≠ 0) then .refuse s 2
    else if !(s.ctxOpen id) then .refuse s 3
    else
      match s.readDesc ctx (pktDw r 0) with
      | .wait s => .wait s
      | .refuse s st => .refuse s st
      | .ok s d => s.readNodes ctx l ((d, id, pktDw r 0) :: acc)

/-- The edges of a graph of `n` nodes, each with its regions (R258, R454). -/
def State.readEdges (s : State) (ctx n : Nat) : List (List Byte) → List Edge → GRead (List Edge)
  | [], acc => .ok s acc.reverse
  | r :: l, acc =>
    let src := numAt r 0 4
    let dst := numAt r 4 4
    let cnt := numAt r 16 4
    let dev := numAt r 20 2
    let fl := numAt r 22 1
    if (r.drop 23).any (fun b => b ≠ 0) || 4 ≤ fl then .refuse s 2
    else if n ≤ src || n ≤ dst || 65535 < cnt || (4095 < dev && dev ≠ 0xffff) then .refuse s 1
    else
      match s.graphBytes ctx (pktDw r 8) (16 * cnt) with
      | .wait s => .wait s
      | .refuse s st => .refuse s st
      | .ok s bs =>
        match (chunks 16 cnt bs).mapM parseFlow with
        | none => .refuse s 4
        | some fs => s.readEdges ctx n l ({ src := src, dst := dst, regs := fs, dev := dev, flags := fl } :: acc)

/-- A device of the edge's number other than this one. -/
def State.remote (s : State) (e : Edge) : Bool := e.dev ≠ 0xffff && e.dev ≠ s.fabric.toNat

/-- Nodes left when those without an incoming edge from another one left are taken away, as often as there are nodes. -/
def peel (es : List Edge) : Nat → List Nat → List Nat
  | 0, l => l
  | k + 1, l => peel es k (l.filter (fun n => es.any (fun e => e.dst = n && l.contains e.src)))

/-- No cycle of edges (R454). -/
def acyclic (n : Nat) (es : List Edge) : Bool := (peel es n (List.range n)).isEmpty

/-- The launch vector of a node (R285): the exit vectors of the producers of its incoming edges. -/
def State.nodeVec (s : State) (gi : Nat) (g : Graph) (n : Nat) : VVec :=
  (g.edges.filter (fun e => e.dst = n)).foldl (fun v e =>
    match s.launches.find? (fun l => l.2.node = some (gi, e.src)) with
    | some l => vvMerge v l.2.exitV
    | none => v) {}

/-- Admits the nodes of a graph whose incoming edges are satisfied (R454). -/
def State.admitNodes (s : State) (gi : Nat) : State :=
  match find s.graphs gi with
  | none => s
  | some g =>
    ((List.range g.nodes.length).zip g.nodes).foldl (fun s e =>
      let (n, d, id, adm, _) := e
      if adm || g.ended || (g.edges.any (fun x => x.dst = n && !x.sat)) then s
      else
        let (u, s) := s.newUid
        let l : Launch := { ctx := id, ch := g.ch, tag := g.tag, daddr := g.addrs.getD n 0, desc := d, left := d.grid, node := some (gi, n)
                            lvec := s.nodeVec gi g n }
        { s with launches := put s.launches u l
                 graphs := upd s.graphs gi (fun g => { g with nodes := modAt (fun x => (x.1, x.2.1, true, x.2.2.2)) n g.nodes }) }) s

/-- Reads a whole graph: header, nodes, edges (R454). -/
def State.readGraph (s : State) (ctx : Nat) (addr : DWord) : GRead (List (Desc × Nat × DWord) × List Edge) :=
  match s.graphBytes ctx addr 32 with
  | .wait s => .wait s
  | .refuse s st => .refuse s st
  | .ok s h =>
    if (h.drop 24).any (fun b => b ≠ 0) then .refuse s 2
    else
      match s.graphBytes ctx (pktDw h 8) (16 * numAt h 0 4) with
      | .wait s => .wait s
      | .refuse s st => .refuse s st
      | .ok s nb =>
        match s.readNodes ctx (chunks 16 (numAt h 0 4) nb) [] with
        | .wait s => .wait s
        | .refuse s st => .refuse s st
        | .ok s ns =>
          match s.graphBytes ctx (pktDw h 16) (32 * numAt h 4 4) with
          | .wait s => .wait s
          | .refuse s st => .refuse s st
          | .ok s eb =>
            match s.readEdges ctx ns.length (chunks 32 (numAt h 4 4) eb) [] with
            | .wait s => .wait s
            | .refuse s st => .refuse s st
            | .ok s es => .ok s (ns, es)

/-- Whether some route leads to a device (R461). -/
def State.routed (s : State) (dev : Nat) : Bool := s.reached.contains dev

/-- An accepted GRAPH with number `u` is read and its first nodes admitted, is refused, or is held (R452, R454). The order of the
refusals is that of a LAUNCH. DESIGN CHOICE (log 150). -/
def State.takeGraph (s : State) (u : Nat) (h : PktHdr) (addr : DWord) : State :=
  let id := h.ctxid.toNat
  if addr.toNat % 8 ≠ 0 then s.complete h.ch h.tag 3 2 []
  else if !(s.ctxOpen id) then s.complete h.ch h.tag 3 3 []
  else
    match s.readGraph id addr with
    | .wait s => s.hold u h addr true
    | .refuse s st => s.complete h.ch h.tag 3 st []
    | .ok s (ns, es) =>
      if !(acyclic ns.length es) then s.complete h.ch h.tag 3 6 []
      else if es.any (fun e => s.remote e && !(s.routed e.dev)) then s.complete h.ch h.tag 3 5 []
      else
        let g : Graph := { ctx := id, ch := h.ch, tag := h.tag, edges := es, addrs := ns.map (·.2.2)
                           nodes := ns.map (fun n => (n.1, n.2.1, false, false)) }
        (({ s with graphs := put s.graphs u g } : State).admitNodes u).finishGraph u 0 0

def execGraphPkt (h : PktHdr) (addr : DWord) (s : State) : Res :=
  withPkt (.graph addr) h s (fun s => let (u, s) := s.newUid; s.takeGraph u h addr)

/-- Held packets are read again once a fault service has ended (R456). DEDUCED (log 92). -/
def State.retryHeld (s : State) : State :=
  s.held.foldl (fun s e =>
    let (u, h, a, graph) := e
    if graph then s.takeGraph u h a else s.takeLaunch u h a) { s with held := [] }

/-! ### Edges and quiesce points (R259 to R262, R284) -/

/-- The launch that runs a node has ended. -/
def State.nodeEnded (s : State) (gi n : Nat) : Bool :=
  s.launches.any (fun l => l.2.node = some (gi, n) && l.2.ended)

/-- No group, engine, parked store or saved team of a context is left (R261). -/
def State.quiet (s : State) (ctx : Nat) : Bool :=
  s.teams.all (fun e => e.2.ctx ≠ ctx) && s.saved.all (fun v => v.team.ctx ≠ ctx)
    && s.cores.all (fun e => e.2.replay.all (fun p => p.ctx ≠ ctx) && e.2.locks.all (fun l => l.ctx ≠ ctx))

/-- Every registration is tested, and every L1 is cleaned and invalidated (R261). DEDUCED (log 93). -/
def State.cleanAll (s : State) : State :=
  let s := s.testAll (fun _ => true)
  let s := s.cores.foldl (fun s e => e.2.l1.foldl (fun s x => s.writeBack e.1 x.1) s) s
  { s with cores := s.cores.map (fun e => (e.1, { e.2 with l1 := e.2.l1.filter (fun x => x.2.hid.isSome) })) }

/-- The floor of a context at its quiesce point: S is taken over the grids of other contexts (R284). -/
def State.quiesceFloor (s : State) (id : Nat) (cx : Ctx) : BitVec 40 :=
  let starts := s.launches.filterMap (fun e =>
    if e.2.ctx = id then none
    else match e.2.start with
      | none => none
      | some st =>
        let gone := match e.2.endT, cx.lastQ with
          | some en, some q => timeLe en q && en ≠ q
          | _, _ => false
        if gone then none else some st)
  floorMax cx.floor (starts.foldl (fun m st => if timeLe st m then st else m) s.now - 1)

/-- A quiesce point of a context (R261, R284). -/
def State.quiesceNow (s : State) (id : Nat) : State :=
  let s := s.cleanAll
  { s with ctxs := upd s.ctxs id (fun c => { c with floor := s.quiesceFloor id c, lastQ := some s.now }) }

/-- The producer side of an edge (R259): flow and output regions are cleaned in every L1. DEDUCED (log 51). -/
def State.cleanEdge (s : State) (ctx : Nat) (e : Edge) : State :=
  (s.cores.map (·.1)).foldl (fun s c => (e.regs.filter (fun r => r.2.2 ≠ 1)).foldl (fun s r =>
    let lo := r.1.toNat
    s.cleanLines c (s.rangeLines c ctx lo (lo + r.2.1) ((lo + r.2.1 - 1) / 4096 + 1 - lo / 4096) (lo / 4096)) false) s) s

/-- An edge of a graph becomes satisfied; consumers that wait for nothing more are admitted. -/
def State.satisfy (s : State) (gi n : Nat) : State :=
  let s : State := { s with graphs := upd s.graphs gi (fun g => { g with edges := modAt (fun e => { e with sat := true }) n g.edges }) }
  s.admitNodes gi

/-- A node that another device runs counts as admitted and ended here. DEDUCED (log 91). -/
def State.elsewhere (s : State) (gi n : Nat) : State :=
  { s with graphs := upd s.graphs gi (fun g => { g with nodes := modAt (fun x => (x.1, x.2.1, true, true)) n g.nodes }) }

/-- The bytes of the flow and output regions of an edge, as they are copied to another device (R454). A region that cannot be read is
not copied. -/
def State.copyOut (s : State) (ctx : Nat) : List (DWord × Nat × Nat) → List (DWord × List Byte) → GRead (List (DWord × List Byte))
  | [], acc => .ok s acc.reverse
  | (b, n, d) :: r, acc =>
    if d = 1 then s.copyOut ctx r acc
    else match s.graphBytes ctx b n with
      | .ok s l => s.copyOut ctx r ((b, l) :: acc)
      | .wait s => .wait s
      | .refuse s _ => s.copyOut ctx r acc

/-- A remote edge's copies and its signal leave for the consumer's device, which runs the node (R454). -/
def State.sendEdge (s : State) (gi n : Nat) (e : Edge) (ctx : Nat) (c : List (DWord × List Byte)) : State :=
  let s : State := { s with sent := s.sent ++ [{ dev := e.dev, ctx := ctx, copies := c, graph := gi, edge := n }] }
  s.elsewhere gi e.dst

/-- The context of a node. -/
def nodeCtx (g : Graph) (n : Nat) : Nat :=
  match g.nodes[n]? with
  | some x => x.2.1
  | none => g.ctx

/-! ### Page moves (R262) -/

/-- `m` with the entries of keys `lo` to `lo + n - 1` also under the keys from `to` onward, in place of what stood there. -/
def copyKeys {α : Type} (lo n dst : Nat) (m : List (Nat × α)) : List (Nat × α) :=
  let mine := m.filter (fun e => decide (lo ≤ e.1) && decide (e.1 < lo + n))
  mine.foldl (fun m e => put m (dst + (e.1 - lo)) e.2) (m.filter (fun e => !(decide (dst ≤ e.1) && decide (e.1 < dst + n))))

/-- `m` without the keys `lo` to `lo + n - 1`. -/
def cutKeys {α : Type} (lo n : Nat) (m : List (Nat × α)) : List (Nat × α) :=
  m.filter (fun e => !(decide (lo ≤ e.1) && decide (e.1 < lo + n)))

/-- The record of a line moves to a new line: its place in the dot array and its summary dot (R262, R286). -/
def State.moveLine (s : State) (line dst : Nat) : State :=
  let k := s.homeSlice (128 * line)
  let sl := s.slice k
  let s := s.setSlice k { sl with lines := del sl.lines line, summ := sset {} sl.summ line {} }
  let j := s.homeSlice (128 * dst)
  let s := s.setSlice j { s.slice j with summ := sset {} (s.slice j).summ dst (summaryDot sl line) }
  match find sl.lines line with
  | some t => s.touchLine dst t
  | none => s

/-- A page's lines move to a new physical page: values, poison, registrations and sibling-store entries (R262). -/
def State.moveLines (s : State) (pa size dst : Nat) : State :=
  let s : State := { s with mem := copyKeys pa size dst s.mem
                            pois := copyKeys (pa / 4) (size / 4) (dst / 4) s.pois
                            cells := cutKeys (pa / 4) (size / 4) (copyKeys (pa / 4) (size / 4) (dst / 4) s.cells) }
  (List.range (size / 128)).foldl (fun s i => s.moveLine (pa / 128 + i) (dst / 128 + i)) s

/-- The leaf entries that map a page: one, or sixteen for a page of 64 KiB (R206). -/
def leafEnts (ea size : Nat) : List Nat :=
  if size = 65536 then (List.range 16).map (fun i => ea / 128 * 128 + 8 * i) else [ea]

/-- A leaf entry receives a new frame (R206, R262). -/
def State.setFrame (s : State) (ea dst : Nat) : State :=
  let e := s.read64 ea
  let e' := e - e / 2 ^ 12 % 2 ^ 40 * 4096 + dst
  (s.setWord (ea / 4) (BitVec.ofNat 32 e')).setWord (ea / 4 + 1) (BitVec.ofNat 32 (e' / 2 ^ 32))

/-- The TLB entries of a context for an address go (R262). -/
def State.dropTlb (s : State) (ctx va : Nat) : State :=
  let keep (e : TlbEnt) : Bool := !(e.ctx = ctx && e.vpn = va / e.size)
  { s with cores := s.cores.map (fun e => (e.1, { e.2 with tlb := e.2.tlb.filter keep }))
           dtlb := s.dtlb.filter (fun e => keep e.2) }

/-- The physical page of a size on a die that a moved page takes: of the same kind of memory, which one is not stated.
DESIGN CHOICE (log 27). -/
def newPage (n die pa size : Nat) : Nat :=
  if pa < 0x400000000 then die * 2 ^ 32 + Config.movedPage n % (2 ^ 32 / size) * size
  else 0x40000000000 + die * 0x4000000000 + Config.movedPage n % (0x3000000000 / size) * size

/-- The page at an address of a context moves to a die (R262), when it is device memory homed on another one; its bytes. -/
def State.movePage (s : State) (ctx va die : Nat) : State × Nat :=
  match (find s.ctxs ctx).map (fun c => s.walkFrom va c.root [4, 3, 2, 1, 0]) with
  | some (.leaf pa size _ _ _ _ ents) =>
    if !(isDevMem pa) || s.homeDie pa = die then (s, size)
    else
      let (n, s) := s.takeFree
      let dst := newPage n die pa size
      let s := (ents.flatMap (fun ea => leafEnts ea size)).foldl (fun s ea => s.setFrame ea dst) (s.moveLines pa size dst)
      (s.dropTlb ctx va, size)
  | _ => (s, 4096)

/-- The pages of a range move to a die; `n` bounds their number. -/
def State.movePages (s : State) (ctx die hi : Nat) : Nat → Nat → State
  | 0, _ => s
  | n + 1, va =>
    if hi ≤ va then s
    else
      let (s, size) := s.movePage ctx va die
      s.movePages ctx die hi n (va / size * size + size)

/-- The die that a placement hint names: the consumer's home die, a live one, which one is not stated.
DESIGN CHOICE (log 27). -/
def State.hintDie (s : State) : Nat :=
  let d := Config.movedPage s.free % 4
  if bitOf s.live.toNat d then d else s.cpDie

/-- The pages of an edge's flow regions move at its quiesce point (R262, R454). -/
def State.moveFlows (s : State) (ctx : Nat) (e : Edge) : State :=
  let die := s.hintDie
  let (_, s) := s.takeFree
  (e.regs.filter (fun r => r.2.2 = 0)).foldl (fun s r =>
    let lo := r.1.toNat % 2 ^ 57
    s.movePages ctx die (lo + r.2.1) (r.2.1 / 4096 + 2) lo) s

/-- R259: once the producer of an edge has ended, its side is done and the edge satisfied; an edge that asks for a quiesce
point has one, at which the pages of its flow regions move when it carries a placement hint (R262). -/
def execGraphEdgeSatisfy (gi n : Nat) (s : State) : Res :=
  match find s.graphs gi with
  | none => .next s
  | some g =>
    match g.edges[n]? with
    | none => .next s
    | some e =>
      let ctx := nodeCtx g e.src
      if e.sat || g.ended || !(s.nodeEnded gi e.src) || (e.flags % 2 = 1 && !(s.quiet ctx)) then .next s
      else
        let far := s.remote e
        let s := s.cleanEdge ctx e
        let s := if e.flags % 2 = 1 then s.quiesceNow ctx else s
        let s := if e.flags = 3 && !far then s.moveFlows ctx e else s
        if !far then .next ((s.satisfy gi n).finishGraph gi 0 0)
        else
          match s.copyOut ctx e.regs [] with
          | .ok s c => .next (((s.sendEdge gi n e ctx c).satisfy gi n).finishGraph gi 0 0)
          | .wait s => .next s
          | .refuse s _ => .next s

/-- R454: a producer device signals an edge whose consumer runs here. -/
def execRemoteEdgeSignal (gi n : Nat) (s : State) : Res :=
  match (find s.graphs gi).bind (fun g => g.edges[n]?) with
  | none => .next s
  | some e => if e.sat || s.remote e then .next s else .next (s.satisfy gi n)

/-- The launches, graphs and held packets of a context that have not ended, by number. -/
def State.openWork (s : State) (id : Nat) : List Nat :=
  ((s.launches.filter (fun e => e.2.ctx = id && !e.2.ended && e.2.node.isNone)).map (·.1))
    ++ ((s.graphs.filter (fun e => e.2.ctx = id && !e.2.ended)).map (·.1))
    ++ ((s.held.filter (fun e => e.2.1.ctxid.toNat = id)).map (·.1))

/-- R261. A QUIESCE of a context that has ended is taken: its CTXID is known. DESIGN CHOICE (log 152). -/
def execQuiescePkt (h : PktHdr) (s : State) : Res :=
  withPkt .quiesce h s (fun s =>
    let id := h.ctxid.toNat
    if (find s.ctxs id).isNone then s.complete h.ch h.tag 4 3 []
    else { s with quiesces := s.quiesces ++ [{ ctx := id, ch := h.ch, tag := h.tag, after := s.openWork id }] })

/-- Ends the first open QUIESCE of a context. -/
def endQuiesce (id : Nat) : List Quiesce → List Quiesce
  | [] => []
  | q :: r => if q.ctx = id && !q.ended then { q with ended := true } :: r else q :: endQuiesce id r

/-- R261. -/
def execQuiescePoint (id : Nat) (s : State) : Res :=
  match s.quiesces.find? (fun q => q.ctx = id && !q.ended) with
  | none => .next s
  | some q =>
    if q.after.any (fun u => (s.openWork id).contains u) || !(s.quiet id) then .next s
    else
      let s := s.quiesceNow id
      .next (({ s with quiesces := endQuiesce id s.quiesces } : State).complete q.ch q.tag 4 0 [])

/-! ### Replies (R432, R456) -/

/-- A group takes the reply to its host call, also while a handler has put the call off (R410, R432). -/
def Group.answer (rid : DWord) (r : DWord × DWord) (g : Group) : Group :=
  if g.hcid = some rid then { g with hrep := some r }
  else { g with kept := g.kept.map (fun x => if x.hcid = some rid then { x with hrep := some r } else x) }

/-- A host call's reply reaches its group, resident or saved (R432). -/
def State.reply (s : State) (rid x1 x2 : DWord) : State :=
  if s.hcalls.any (fun e => e.1 = rid) then
    { s with hcalls := s.hcalls.filter (fun e => e.1 ≠ rid)
             groups := s.groups.map (fun e => (e.1, e.2.answer rid (x1, x2)))
             saved := s.saved.map (fun v => { v with groups := v.groups.map (fun e => (e.1, e.2.answer rid (x1, x2))) }) }
  else s

def execHreplyPkt (h : PktHdr) (rid x1 x2 : DWord) (s : State) : Res :=
  withPkt (.hreply rid x1 x2) h s (fun s => s.reply rid x1 x2)

/-- A fault service ends (R210, R456): the access is replayed, or it receives the memory fault. -/
def State.endService (s : State) (rid : DWord) (fail : Bool) : State :=
  match s.faults.find? (fun f => f.rid = rid) with
  | none => s
  | some f =>
    let parks := f.acc = 1 && (s.cores.any (fun e => e.2.replay.any (parkedOn f.ctx f.page))
      || s.saved.any (fun v => v.replay.any (parkedOn f.ctx f.page)))
    let gone : State := { s with faults := s.faults.filter (fun x => x.rid ≠ rid) }
    let s := if !fail then gone.wakePage f.ctx f.page
      else if parks then gone.discardPage f.ctx f.page
      else { s with faults := s.faults.map (fun x => if x.rid = rid then { x with fail := true } else x) }
    s.retryHeld

def execFdonePkt (h : PktHdr) (rid : DWord) (fail : Bool) (s : State) : Res :=
  withPkt (.fdone rid fail) h s (fun s => s.endService rid fail)

/-! ### Pool regions (R441, R444, R448, R455) -/

/-- A completion of a REGION packet. -/
def State.regionDone (s : State) (h : PktHdr) (status : Nat) : State := s.complete h.ch h.tag 7 status []

/-- Maps a region (R444, R453, R455); its bytes stand under its number. DESIGN CHOICE (log 132). A region mapped already is refused
before a serial window or synchronisation that is missing. DESIGN CHOICE (log 149). -/
def State.mapRegion (s : State) (h : PktHdr) (r port : Nat) (cxl : DWord) (devs : List Nat) (mode : Nat) : State :=
  let g := s.region r
  if 2 ≤ port || cxl.toNat % 2 ^ 28 ≠ 0 || devs.any (fun d => decide (4095 < d)) then s.regionDone h 2
  else if g.mode ≠ 0 then s.regionDone h 0x24
  else if mode = 2 && (s.winSize = 0 || devs.any (fun d => !(Config.synced d))) then s.regionDone h 0x21
  else
    ({ s with regions := sset {} s.regions r { mode := mode, port := port, cxl := cxl, losses := g.losses } } : State).regionDone h 0

def execRegionMapPlain (h : PktHdr) (r port : Nat) (cxl : DWord) (devs : List Nat) (s : State) : Res :=
  withPkt (.region 0 r port cxl devs) h s (fun s => s.mapRegion h r port cxl devs 1)

def execRegionMapVersioned (h : PktHdr) (r port : Nat) (cxl : DWord) (devs : List Nat) (s : State) : Res :=
  withPkt (.region 1 r port cxl devs) h s (fun s => s.mapRegion h r port cxl devs 2)

/-- A translation of some context maps a region: its page table does, or a TLB of the device holds it (R455). DESIGN CHOICE (log 28). -/
def State.mapped (s : State) (r : Nat) : Bool :=
  let hit (a n : Nat) : Bool := (List.range (Nat.max 1 (n / 2 ^ 28))).any (fun i => decide (poolOf (a + i * 2 ^ 28) = some r))
  s.ctxs.any (fun e => e.2.halted.isNone && s.mapsWhere hit e.2.root [4, 3, 2, 1, 0])
    || s.dtlb.any (fun e => inRegion r (e.2.pa / 4)) || s.cores.any (fun e => e.2.tlb.any (fun x => inRegion r (x.pa / 4)))

def execRegionUnmap (h : PktHdr) (r : Nat) (s : State) : Res :=
  withPkt (.region 2 r 0 0 []) h s (fun s =>
    let g := s.region r
    if g.mode = 0 then s.regionDone h 0x28
    else if s.mapped r then s.regionDone h 0x23
    else
      let s := g.owned.foldl (fun s l => s.disown l) s
      let s : State := { s with regions := sset {} s.regions r { losses := g.losses }
                                acks := s.acks.filter (fun a => !(inRegion r a.w)) }
      s.regionDone h 0)

/-- The refusals that both rejoins share (R455): of a rejoin that fails more than one, 0x25 comes before 0x26, and that before 0x27.
DESIGN CHOICE (log 158). -/
def State.rejoinCheck (s : State) (g : Region) (port : Nat) (discard : Bool) : Nat :=
  if !(g.mode ≠ 0 && (g.st = .lost || (discard && g.st = .rejoin))) then 0x25
  else if !(s.portUp port) then 0x26
  else if !((sget {} s.ports port).reach.contains (Config.poolDev g.cxl)) then 0x27
  else 0

def execRegionRejoinFlush (h : PktHdr) (r port : Nat) (s : State) : Res :=
  withPkt (.region 3 r port 0 []) h s (fun s =>
    if 2 ≤ port then s.regionDone h 2
    else
      let st := s.rejoinCheck (s.region r) port false
      if st ≠ 0 then s.regionDone h st else (s.rejoin r port).regionDone h 0)

def execRegionRejoinDiscard (h : PktHdr) (r port : Nat) (s : State) : Res :=
  withPkt (.region 4 r port 0 []) h s (fun s =>
    if 2 ≤ port then s.regionDone h 2
    else
      let st := s.rejoinCheck (s.region r) port true
      if st ≠ 0 then s.regionDone h st else (s.discardStrand r port).regionDone h 0)

/-! ### DEVCFG, ATTEST, FWUPD (R444, R462, R463) -/

/-- R444, R452. The groups of saved teams exist too. DESIGN CHOICE (log 151). -/
def execDevcfgPkt (h : PktHdr) (fabric base size : Nat) (s : State) : Res :=
  withPkt (.devcfg fabric base size) h s (fun s =>
    let okW := (base = 0 && size = 0)
      || (decide (1 ≤ base) && decide (32768 ≤ size) && decide (base + size - 1 ≤ 0xffffff))
    if 4095 < fabric || !okW then s.complete h.ch h.tag 8 2 []
    else if !s.groups.isEmpty || !s.saved.isEmpty then s.complete h.ch h.tag 8 0x22 []
    else ({ s with fabric := BitVec.ofNat 12 fabric, winBase := BitVec.ofNat 24 base, winSize := BitVec.ofNat 24 size } : State).complete
      h.ch h.tag 8 0 [])

/-- Writes bytes to memory from the device, word by word at their homes; a word that is a cell carries serial 0 and the time
(R278). `none` when a cell cannot hold its word. DEDUCED (log 133). -/
def State.putBytesHome (s : State) (a : Nat) (l : List Byte) : Option State :=
  let ws := ((List.range ((a + l.length + 3) / 4 - a / 4)).map (fun i => a / 4 + i))
  if isHost a then some ((ws.foldl (fun s w => s.writeBackAll w none) s).setBytes a l)
  else ws.foldl (fun (o : Option State) w => o.bind (fun s =>
    let o := 4 * w - a
    let n := Nat.min 4 (l.length - o)
    s.tryOutside w (BitVec.ofNat 32 (numAt l o n)) (BitVec.ofNat 4 (2 ^ n - 1)))) (some s)

/-- The die whose Slate core signs reports (R463). -/
def State.reportDie (s : State) : Nat := if s.dieLive 0 then 0 else 2

/-- The image that runs on a die (R462). -/
def State.activeImage (s : State) (d : Nat) : List Byte := s.slotImage (if (s.die d).slotB then 1 else 0)

/-- The body of a report before its signature (R463). UNVERIFIED (log 42). -/
def reportBody (s : State) (nonce : List Byte) : List Byte :=
  let h (l : List Byte) : List Byte := bytesOf (sha3 l).toNat 64
  bytesOf 1 4 ++ bytesOf 4971 4 ++ nonce ++ h ((List.range 2592).map Config.keyByte)
    ++ h (Config.slatePart (s.activeImage s.reportDie)) ++ h (Config.cpPart (s.activeImage s.cpDie))
    ++ h s.capBytes ++ bytesOf s.rollback.toNat 8 ++ bytesOf s.tsc.toNat 8

/-- The report with its signature over what stands before it (R463). -/
def reportBytes (s : State) (n : Nat) (nonce : List Byte) : List Byte :=
  let b := reportBody s nonce
  b ++ (List.range 4627).map (Config.signByte n b)

/-- The report of a nonce at `a`, written at `b` (R463); `none` while a cell there cannot hold its word. -/
def State.attest (s : State) (a b : Nat) : Option State :=
  let (n, s) := s.takeFree
  s.putBytesHome b (reportBytes s n (s.homeBytes a 64))

/-- R463: a report that its memory cannot take yet waits at HEAD, for a write is not lost (R295). -/
def execAttestPkt (h : PktHdr) (nonce report : DWord) (s : State) : Res :=
  let a := nonce.toNat
  let b := report.toNat
  let bad := a % 64 ≠ 0 || b % 64 ≠ 0 || !(inMemory s a) || !(inMemory s b)
  if !bad && ((s.headOn h.ch).attest a b).isNone then .next s
  else withPkt (.attest nonce report) h s (fun s =>
    if bad then s.complete h.ch h.tag 9 2 [] else ((s.attest a b).getD s).complete h.ch h.tag 9 0 [])

/-- R453, R462: a body that breaks another limit completes with STATUS 2 though it names the active slot too.
DESIGN CHOICE (log 164). -/
def execFwupdPkt (h : PktHdr) (addr : DWord) (bytes slot : Nat) (s : State) : Res :=
  withPkt (.fwupd addr bytes slot) h s (fun s =>
    let a := addr.toNat
    if a % 4096 ≠ 0 || bytes = 0 || 67108864 < bytes || 1 < slot || !(inMemory s a) then s.complete h.ch h.tag 10 2 []
    else if decide (slot = 1) = (s.die s.cpDie).slotB then s.complete h.ch h.tag 10 0x32 []
    else if !(s.imageValid (s.homeBytes a bytes)) then s.complete h.ch h.tag 10 0x31 []
    else ({ s with fwPend := s.fwPend.filter (fun e => e.1 ≠ slot) ++ [(slot, s.homeBytes a bytes)] } : State).complete h.ch h.tag 10 0 [])

end Sys2Proof.Machine
end

