-- ==== Sys2Proof/Machine/Approx.lean ====
section
/-! DEFINITION. The approximation instructions' reference algorithm (R138, R139). Values of the algorithm are
exact: integers over a power of two, and over 60 for `flog2`. Table entries and constants are multiples of 2^-40,
held as their integer numerators. -/

namespace Sys2Proof.Machine

open Sys2Proof

/-! ### fix40 (R138) -/

/-- `n / d` rounded to the nearest integer with ties to even: `fix40` of a rational, given `n` = 2^40 times it. -/
def nearDiv (n d : Nat) : Nat := roundDiv .ne false n d

/-- The integer square root. -/
def isqrt (n : Nat) : Nat := Nat.sqrt n

/-- `fix40(1/c)` for c = a / b, as a numerator. -/
def fixRecip (a b : Nat) : Nat := nearDiv (2 ^ 40 * b) a

/-- `fix40(1/sqrt(c))` for c = a / b: the nearest integer to 2^40 sqrt(b / a), found from twice its floor. -/
def fixRsqrt (a b : Nat) : Nat := (isqrt (2 ^ 82 * b / a) + 1) / 2

/-- `fix40(2^(j/64))`: from the 64th root of 2^(64 * 41 + j), by six square roots. -/
def fixExp2 (j : Nat) : Nat :=
  (isqrt (isqrt (isqrt (isqrt (isqrt (isqrt (2 ^ (2624 + j))))))) + 1) / 2

/-- Guard bits of the series below. -/
def guardBits : Nat := 160

/-- 2^160 × Σ over odd i of x^i / i for x = a / b, up to `n` terms: half the natural logarithm of
(1 + x) / (1 − x). `p` is 2^160 × x^i. -/
def atanhSum (a b : Nat) : Nat → Nat → Nat → Nat
  | 0, _, _ => 0
  | n + 1, i, p => p / i + atanhSum a b n (i + 2) (p * a * a / (b * b))

/-- 2^160 × ln 2, from ln 2 = 2 atanh(1/3). -/
def lnTwo : Nat := 2 * atanhSum 1 3 64 1 (2 ^ 160 / 3)

/-- 2^160 × |ln(a / b)|, from 2 atanh(|a − b| / (a + b)). -/
def lnAbs (a b : Nat) : Nat :=
  let d := if b ≤ a then a - b else b - a
  2 * atanhSum d (a + b) 64 1 (2 ^ 160 * d / (a + b))

/-- `fix40(log2(c))` for c = a / b. -/
def fixLog2 (a b : Nat) : Int :=
  let q : Int := (nearDiv (2 ^ 40 * lnAbs a b) lnTwo : Nat)
  if b ≤ a then q else -q

/-- `fix40((ln 2)^n / n!)`. -/
def fixLnPow (n : Nat) : Nat :=
  match n with
  | 1 => nearDiv lnTwo (2 ^ 120)
  | 2 => nearDiv (lnTwo * lnTwo) (2 ^ 280 * 2)
  | 3 => nearDiv (lnTwo * lnTwo * lnTwo) (2 ^ 440 * 6)
  | _ => nearDiv (lnTwo * lnTwo * lnTwo * lnTwo) (2 ^ 600 * 24)

/-- `fix40(1/ln 2)`. -/
def fixInvLn2 : Nat := nearDiv (2 ^ 200) lnTwo

/-! ### The algorithms -/

/-- An exact value v / (q × 2^k) × 2^e, rounded to nearest even. -/
def roundVal (F : Fmt) (v : Int) (q k : Nat) (e : Int) : Nat :=
  if v = 0 then signP F false
  else roundPos F .ne false (decide (v < 0)) v.natAbs (q * 2 ^ k) e

/-- A positive finite value as m × 2^e with m in [1, 2), m held as its numerator over 2^23 (R138). Every format's
significand fits. -/
def normal (m : Nat) (e : Int) : Nat × Int :=
  let l := Nat.log2 m
  (m * 2 ^ (23 - l), e + (l : Int))

/-- `frcp` of a positive finite nonzero m × 2^e (R138). M is m × 2^23, T is t × 2^40, D is d × 2^63. -/
def frcpPos (F : Fmt) (neg : Bool) (m : Nat) (e : Int) : Nat :=
  let (M, e) := normal m e
  let i := (M - 2 ^ 23) / 2 ^ 16
  let T : Int := fixRecip (256 + 2 * i + 1) 256
  let D : Int := 2 ^ 63 - (M : Int) * T
  let z : Int := T * (2 ^ 189 + D * 2 ^ 126 + D * D * 2 ^ 63 + D * D * D)
  roundVal F (if neg then -z else z) 1 229 (-e)

/-- The common part of `frsq` and `fsqrt` (R138): M = m × 2^23 with m in [1, 4), the even exponent, T, and
H = 16 h × 2^(3 × 103). -/
def rsqParts (m : Nat) (e : Int) : Nat × Int × Int × Int :=
  let (M, e) := normal m e
  let (M, e) := if e % 2 ≠ 0 then (2 * M, e - 1) else (M, e)
  let i := (M - 2 ^ 23) / 2 ^ 17
  let T : Int := fixRsqrt (128 + 2 * i + 1) 128
  let D : Int := 2 ^ 103 - (M : Int) * T * T
  let H : Int := 16 * 2 ^ 309 + 8 * D * 2 ^ 206 + 6 * D * D * 2 ^ 103 + 5 * D * D * D
  (M, e, T, H)

/-- `frsq` of a positive finite nonzero value (R138). -/
def frsqPos (F : Fmt) (m : Nat) (e : Int) : Nat :=
  let (_, e, T, H) := rsqParts m e
  roundVal F (T * H) 16 349 (-(e / 2))

/-- `fsqrt` of a positive finite nonzero value (R138). -/
def fsqrtPos (F : Fmt) (m : Nat) (e : Int) : Nat :=
  let (M, e, T, H) := rsqParts m e
  roundVal F ((M : Int) * T * H) 16 372 (e / 2)

/-- `fexp2` of a finite value v / 2^k (R138). G is g × 2^k. -/
def fexp2Fin (F : Fmt) (v : Int) (k : Nat) : Nat :=
  let one : Int := (2 ^ k : Nat)
  let n := v / one
  let f := v - n * one
  let j := (64 * f / one).toNat
  -- g over 2^(k + 6)
  let G : Int := 64 * f - (j : Int) * one
  let w := k + 6
  let T : Int := fixExp2 j
  let z : Int := T * (2 ^ (40 + 4 * w) + fixLnPow 1 * G * 2 ^ (3 * w) + fixLnPow 2 * G ^ 2 * 2 ^ (2 * w)
    + fixLnPow 3 * G ^ 3 * 2 ^ w + fixLnPow 4 * G ^ 4)
  roundVal F z 1 (80 + 4 * w) n

/-- `flog2` of a positive finite nonzero value (R138). M is m × 2^24, U is u × 2^64. -/
def flog2Pos (F : Fmt) (m : Nat) (e : Int) : Nat :=
  let (M, e) := normal m e
  let big := decide (3 * 2 ^ 22 ≤ M)
  let (M, e) := if big then (M, e + 1) else (2 * M, e)
  let near := decide (((M : Int) - 2 ^ 24).natAbs < 2 ^ 17)
  let i := (M - 3 * 2 ^ 22) / 2 ^ 16
  let c := 384 + 2 * i + 1
  let T : Int := if near then 2 ^ 40 else fixRecip c 512
  let lc : Int := if near then 0 else fixLog2 c 512
  let U : Int := (M : Int) * T - 2 ^ 64
  let K : Int := fixInvLn2
  let s : Int := 60 * U * 2 ^ 256 - 30 * U ^ 2 * 2 ^ 192 + 20 * U ^ 3 * 2 ^ 128 - 15 * U ^ 4 * 2 ^ 64 + 12 * U ^ 5
  roundVal F ((e * 2 ^ 40 + lc) * 60 * 2 ^ 320 + K * s) 60 360 0

/-- Which approximation instruction. -/
inductive Approx where
  | rcp | rsq | sqrt | exp2 | log2
  deriving DecidableEq, Repr

/-- Special inputs and the reference algorithm (R138, R139). -/
def approx (k : Approx) (F : Fmt) (p : Nat) : Nat :=
  match fval F p with
  | .nan => F.nan
  | .inf neg =>
    match k with
    | .rcp => signP F neg
    | .rsq => if neg then F.nan else 0
    | .sqrt => if neg then F.nan else infP F false
    | .exp2 => if neg then 0 else infP F false
    | .log2 => if neg then F.nan else infP F false
  | .fin neg m e =>
    if m = 0 then
      match k with
      | .rcp => infP F neg
      | .rsq => infP F neg
      | .sqrt => signP F neg
      | .exp2 => roundNe F (.fin false 1 0)
      | .log2 => infP F true
    else
      match k with
      | .rcp => if !neg && flCmp (.fin false m e) (.fin false 1 0) = 0 then roundNe F (.fin false 1 0) else frcpPos F neg m e
      | .rsq => if neg then F.nan
                else if flCmp (.fin false m e) (.fin false 1 0) = 0 then roundNe F (.fin false 1 0) else frsqPos F m e
      | .sqrt => if neg then F.nan
                 else if flCmp (.fin false m e) (.fin false 1 0) = 0 then roundNe F (.fin false 1 0) else fsqrtPos F m e
      | .exp2 => if !neg && flCmp (.fin false m e) (.fin false 1 0) = 0 then roundNe F (.fin false 2 0)
                 else fexp2Fin F (sMant neg m * (2 ^ e.toNat : Nat)) (-e).toNat
      | .log2 => if neg then F.nan
                 else if flCmp (.fin false m e) (.fin false 1 0) = 0 then 0 else flog2Pos F m e

end Sys2Proof.Machine
end

