-- ==== Sys2Proof/Machine/LaneFloat.lean ====
section
/-! DEFINITION. The floating-point lane instructions (R133 to R139). -/

namespace Sys2Proof.Machine

open Sys2Proof

/-- Element `e` of a source as a value. -/
def flEl (t : Ty) (p : Word) (e : Nat) : Fl := fval (fmtOf t) (elN (tyBits t) p e)

/-- The element-wise float effect of R133: `f` gives the exact z. -/
def floatwise (s : State) (t : Ty) (rm : Rm) (o : LaneOp) (f : Fl → Fl → Fl → Fl) : Res :=
  perLane s o (fun i l => mapPat t (fun e =>
    roundMode (fmtOf t) rm false (f (flEl t (i.a t l) e) (flEl t (i.b t l) e) (flEl t (i.c t l) e))))

def execFadd (t : Ty) (rm : Rm) (o : LaneOp) (s : State) : Res :=
  floatwise s t rm o (fun a b _ => flAdd (rm = .rd) a b)
def execFsub (t : Ty) (rm : Rm) (o : LaneOp) (s : State) : Res :=
  floatwise s t rm o (fun a b _ => flAdd (rm = .rd) a (flNeg b))
def execFmul (t : Ty) (rm : Rm) (o : LaneOp) (s : State) : Res := floatwise s t rm o (fun a b _ => flMul a b)
def execFfma (t : Ty) (rm : Rm) (o : LaneOp) (s : State) : Res :=
  floatwise s t rm o (fun a b c => flAdd (rm = .rd) (flMul a b) c)

/-- An element-wise instruction on patterns. -/
def patternwise (s : State) (t : Ty) (o : LaneOp) (f : Nat → Nat → Nat) : Res :=
  perLane s o (fun i l => mapPat t (fun e => f (elN (tyBits t) (i.a t l) e) (elN (tyBits t) (i.b t l) e)))

def execFmin (t : Ty) (o : LaneOp) (s : State) : Res := patternwise s t o (minMaxP (fmtOf t) true)
def execFmax (t : Ty) (o : LaneOp) (s : State) : Res := patternwise s t o (minMaxP (fmtOf t) false)

/-- A float condition (R135). -/
def fccHolds (cc : FCc) (x y : Fl) : Bool :=
  let un := isNan x || isNan y
  let c := flCmp x y
  match cc with
  | .eq => !un && decide (c = 0) | .ne => un || decide (c ≠ 0)
  | .lt => !un && decide (c < 0) | .le => !un && decide (c ≤ 0)
  | .gt => !un && decide (0 < c) | .ge => !un && decide (0 ≤ c)
  | .un => un | .or => !un

def execFcmp (cc : FCc) (o : LaneOp) (s : State) : Res :=
  perLaneMask s o (fun i l => fccHolds cc (flEl .f32 (i.a .f32 l) 0) (flEl .f32 (i.b .f32 l) 0))

def execFrcp (t : Ty) (o : LaneOp) (s : State) : Res := patternwise s t o (fun a _ => approx .rcp (fmtOf t) a)
def execFrsq (t : Ty) (o : LaneOp) (s : State) : Res := patternwise s t o (fun a _ => approx .rsq (fmtOf t) a)
def execFsqrt (t : Ty) (o : LaneOp) (s : State) : Res := patternwise s t o (fun a _ => approx .sqrt (fmtOf t) a)
def execFexp2 (t : Ty) (o : LaneOp) (s : State) : Res := patternwise s t o (fun a _ => approx .exp2 (fmtOf t) a)
def execFlog2 (t : Ty) (o : LaneOp) (s : State) : Res := patternwise s t o (fun a _ => approx .log2 (fmtOf t) a)

/-- One element of `fcvt` (R137): `p` is the source element's pattern. -/
def cvtEl (td ts : Ty) (rm : Rm) (sf : Bool) (p : Nat) : Nat :=
  let v : Fl := if isFloat ts then fval (fmtOf ts) p
    else flOfInt (if tySigned ts then sgn (tyBits ts) p else (p : Nat))
  if isFloat td then roundMode (fmtOf td) rm sf v
  else
    match v with
    | .nan => 0
    | .inf neg => wrapN (tyBits td) (if neg then tyMin td else tyMax td)
    | .fin neg m e => wrapN (tyBits td) (satT td (flToInt rm neg m e))

def execFcvt (td ts : Ty) (rm : Rm) (sf : Bool) (ed es : BitVec 2) (o : LaneOp) (s : State) : Res :=
  perLane s o (fun i l =>
    putN (tyBits td) (i.old l) ed.toNat (cvtEl td ts rm sf (elN (tyBits ts) (i.a ts l) es.toNat)))

/-- One element of `fint` (R136). -/
def intEl (F : Fmt) (rm : Rm) (p : Nat) : Nat :=
  match fval F p with
  | .fin neg m e => roundMode F .ne false (.fin neg (flToInt rm neg m e).natAbs 0)
  | z => roundMode F .ne false z

def execFint (t : Ty) (rm : Rm) (o : LaneOp) (s : State) : Res := patternwise s t o (fun a _ => intEl (fmtOf t) rm a)

end Sys2Proof.Machine
end

