-- ==== Sys2Proof/Machine/LaneInt.lean ====
section
/-! DEFINITION. The integer lane instructions (R129 to R132). -/

namespace Sys2Proof.Machine

open Sys2Proof

/-- The element-wise effect of R129: `f` gives x from a, b and c of one element; `sat` clamps it. -/
def elementwise (s : State) (t : Ty) (sat : Bool) (o : LaneOp) (f : Int → Int → Int → Int) : Res :=
  perLane s o (fun i l => mapEl t (fun e =>
    let x := f (el t (i.a t l) e) (el t (i.b t l) e) (el t (i.c t l) e)
    if sat then satT t x else x))

def execVadd (t : Ty) (sat : Bool) (o : LaneOp) (s : State) : Res := elementwise s t sat o (fun a b _ => a + b)
def execVsub (t : Ty) (sat : Bool) (o : LaneOp) (s : State) : Res := elementwise s t sat o (fun a b _ => a - b)
def execVmul (t : Ty) (o : LaneOp) (s : State) : Res := elementwise s t false o (fun a b _ => a * b)
def execVmulh (t : Ty) (o : LaneOp) (s : State) : Res :=
  elementwise s t false o (fun a b _ => a * b / (2 ^ tyBits t : Nat))
def execVmad (t : Ty) (sat : Bool) (o : LaneOp) (s : State) : Res := elementwise s t sat o (fun a b c => a * b + c)

/-- A bitwise instruction (R129). -/
def bitwise (s : State) (o : LaneOp) (f : Word → Word → Word) : Res :=
  perLane s o (fun i l => f (i.a .b32 l) (i.b .b32 l))

def execVand (o : LaneOp) (s : State) : Res := bitwise s o (fun a b => a &&& b)
def execVor (o : LaneOp) (s : State) : Res := bitwise s o (fun a b => a ||| b)
def execVxor (o : LaneOp) (s : State) : Res := bitwise s o (fun a b => a ^^^ b)
def execVandn (o : LaneOp) (s : State) : Res := bitwise s o (fun a b => a &&& ~~~b)

/-- b mod w of an element (R129). -/
def shiftAmt (t : Ty) (b : Int) : Nat := (b % (tyBits t : Nat)).toNat

def execVshl (t : Ty) (o : LaneOp) (s : State) : Res :=
  elementwise s t false o (fun a b _ => a * (2 ^ shiftAmt t b : Nat))
def execVshr (t : Ty) (o : LaneOp) (s : State) : Res :=
  elementwise s t false o (fun a b _ => a / (2 ^ shiftAmt t b : Nat))
def execVsar (t : Ty) (o : LaneOp) (s : State) : Res :=
  elementwise s t false o (fun a b _ => a / (2 ^ shiftAmt t b : Nat))
def execVmin (t : Ty) (o : LaneOp) (s : State) : Res := elementwise s t false o (fun a b _ => min a b)
def execVmax (t : Ty) (o : LaneOp) (s : State) : Res := elementwise s t false o (fun a b _ => max a b)
def execVabs (t : Ty) (sat : Bool) (o : LaneOp) (s : State) : Res :=
  elementwise s t sat o (fun a _ _ => (a.natAbs : Nat))

/-- The sum of `vaddmin` and `vaddmax`: saturated, or wrapped, before the comparison (R129). -/
def sumFirst (t : Ty) (sat : Bool) (a b : Int) : Int :=
  if sat then satT t (a + b)
  else if tySigned t then sgn (tyBits t) (wrapN (tyBits t) (a + b)) else (wrapN (tyBits t) (a + b) : Nat)

def execVaddmin (t : Ty) (sat : Bool) (o : LaneOp) (s : State) : Res :=
  elementwise s t sat o (fun a b c => min (sumFirst t sat a b) c)
def execVaddmax (t : Ty) (sat : Bool) (o : LaneOp) (s : State) : Res :=
  elementwise s t sat o (fun a b c => max (sumFirst t sat a b) c)

/-! ### Bit fields, counts, selection (R130) -/

def execVclz (o : LaneOp) (s : State) : Res :=
  perLane s o (fun i l => BitVec.ofNat 32 (32 - bitLen (i.a .b32 l).toNat 32))
def execVpopc (o : LaneOp) (s : State) : Res :=
  perLane s o (fun i l => BitVec.ofNat 32 (popCount (i.a .b32 l).toNat 32))

/-- pos and len of a bit-field instruction (R130). -/
def fieldPos (b : Word) : Nat := b.toNat % 32

def fieldLen (b c : Word) : Nat := Nat.min (c.toNat % 64) (32 - fieldPos b)

/-- R130. -/
def bitField (t : Ty) (a b c : Word) : Word :=
  let n := fieldLen b c
  if n = 0 then 0
  else if t = .i32 then w32 (sgn n (field a.toNat (fieldPos b) n))
  else BitVec.ofNat 32 (field a.toNat (fieldPos b) n)

def execVbfx (t : Ty) (o : LaneOp) (s : State) : Res :=
  perLane s o (fun i l => bitField t (i.a t l) (i.b t l) (i.c t l))

/-- R130. -/
def bitInsert (old a b c : Word) : Word :=
  let p := fieldPos b
  let n := fieldLen b c
  BitVec.ofNat 32 (old.toNat - field old.toNat p n * 2 ^ p + a.toNat % 2 ^ n * 2 ^ p)

def execVbfi (o : LaneOp) (s : State) : Res :=
  perLane s o (fun i l => bitInsert (i.old l) (i.a .b32 l) (i.b .b32 l) (i.c .b32 l))
def execVsel (k : KReg) (o : LaneOp) (s : State) : Res :=
  perLane s o (fun i l => if (i.g.k k).getLsbD l then i.a .b32 l else i.b .b32 l)

/-- Σ |a_e − b_e| (R130). -/
def sumAbsDiff (t : Ty) (a b : Word) : Nat := ((List.range (nel t)).map (fun e => (el t a e - el t b e).natAbs)).sum

def execVsad (t : Ty) (o : LaneOp) (s : State) : Res :=
  perLane s o (fun i l => i.c .n32 l + BitVec.ofNat 32 (sumAbsDiff t (i.a t l) (i.b t l)))

/-! ### Comparison and conversion (R131, R132) -/

/-- A condition on two element values (R131). -/
def ccHolds (cc : Cc) (a b : Int) : Bool :=
  match cc with
  | .eq => decide (a = b) | .ne => decide (a ≠ b) | .lt => decide (a < b)
  | .le => decide (a ≤ b) | .gt => decide (b < a) | .ge => decide (b ≤ a)

def execVcmp (cc : Cc) (t : Ty) (o : LaneOp) (s : State) : Res :=
  perLaneMask s o (fun i l => ccHolds cc (el t (i.a t l) 0) (el t (i.b t l) 0))

def execVcvt (td ts : Ty) (sat : Bool) (ed es : BitVec 2) (o : LaneOp) (s : State) : Res :=
  perLane s o (fun i l =>
    let x := el ts (i.a ts l) es.toNat
    put32 td (i.old l) ed.toNat (if sat then satT td x else x))

end Sys2Proof.Machine
end

