-- ==== Sys2Proof/Machine/LaneMove.lean ====
section
/-! DEFINITION. Movement, votes, reductions and scans (R140 to R146). -/

namespace Sys2Proof.Machine

open Sys2Proof

/-- A cross-lane instruction: members receive `f`, executing non-members the identity `z` (R140). -/
def crossLane (s : State) (o : LaneOp) (z : Word) (f : LaneIn → Nat → Word) : Res :=
  withLane s o (fun i => i.done s (fun g =>
    g.setLanes i.vd i.execs (fun l => if i.act.getLsbD l then f i l else z)))

/-- sa of lane `n` when it names a member, else 0 (R141 to R143). -/
def fromMember (i : LaneIn) (n : Int) : Word :=
  if 0 ≤ n && decide (n < (i.g.gw : Int)) && i.act.getLsbD n.toNat then i.a .b32 n.toNat else 0

/-- The source lane of a shuffle (R141). -/
def shuffleSrc (m : ShMode) (l b : Nat) : Int :=
  match m with
  | .idx => b
  | .xor => (Nat.xor l (b % 64) : Nat)
  | .up => (l : Int) - b
  | .dn => (l : Int) + b

def execVshfl (m : ShMode) (o : LaneOp) (s : State) : Res :=
  crossLane s o 0 (fun i l => fromMember i (shuffleSrc m l (i.b .n32 l).toNat))

/-- R142. -/
def execVshift (dn : Bool) (o : LaneOp) (s : State) : Res :=
  crossLane s o 0 (fun i l =>
    let n : Int := (i.b .n32 l).toNat
    let src : Int := if dn then l + n else l - n
    if src < 0 || decide ((i.g.gw : Int) ≤ src) then i.c .b32 l else fromMember i src)

/-- R142. -/
def execVrot (dn : Bool) (o : LaneOp) (s : State) : Res :=
  crossLane s o 0 (fun i l =>
    let n : Int := (i.b .n32 l).toNat
    fromMember i ((if dn then l + n else l - n) % (i.g.gw : Int)))

/-- R143. -/
def execVbcast (o : LaneOp) (s : State) : Res :=
  crossLane s o 0 (fun i l => fromMember i ((i.b .n32 l).toNat : Nat))

/-! ### Votes (R144) -/

/-- The ballot of a vote (R144). -/
def ballot (i : LaneIn) : DWord := maskOf (i.lanes.filter (fun l => i.a .b32 l ≠ 0))

def execVoteK (o : LaneOp) (s : State) : Res :=
  withLane s o (fun i => i.done s (fun g => g.setK (BitVec.ofNat 3 i.vd) (ballot i)))
def execVoteBallot (o : LaneOp) (s : State) : Res := withLane s o (fun i => i.push s (ballot i))
def execVoteAny (o : LaneOp) (s : State) : Res :=
  withLane s o (fun i => i.push s (if ballot i ≠ 0 then 1 else 0))
def execVoteAll (o : LaneOp) (s : State) : Res :=
  withLane s o (fun i => i.push s (if ballot i = i.act then 1 else 0))
def execVoteCount (o : LaneOp) (s : State) : Res :=
  withLane s o (fun i => i.push s (BitVec.ofNat 64 (popCount (ballot i).toNat 64)))

/-! ### Reductions and scans (R145) -/

/-- The identity of an operation on a type (R145). -/
def redId (op : RedOp) (t : Ty) : Word :=
  match op with
  | .add => if t = .f32 then 0x80000000 else 0
  | .min => if t = .f32 then 0x7f800000 else if t = .i32 then 0x7fffffff else 0xffffffff
  | .max => if t = .f32 then 0xff800000 else if t = .i32 then 0x80000000 else 0
  | .and => 0xffffffff
  | .or => 0
  | .xor => 0

/-- One combination (R145): integer add wraps, float add rounds to nearest, float min and max follow R134.
DEDUCED (log 47). -/
def redOp (op : RedOp) (t : Ty) (x y : Word) : Word :=
  match op with
  | .add => if t = .f32 then BitVec.ofNat 32 (addF32 x.toNat y.toNat) else x + y
  | .min => if t = .f32 then BitVec.ofNat 32 (minMaxP fp32 true x.toNat y.toNat)
            else if t = .i32 then (if x.toInt ≤ y.toInt then x else y) else (if x.toNat ≤ y.toNat then x else y)
  | .max => if t = .f32 then BitVec.ofNat 32 (minMaxP fp32 false x.toNat y.toNat)
            else if t = .i32 then (if y.toInt ≤ x.toInt then x else y) else (if y.toNat ≤ x.toNat then x else y)
  | .and => x &&& y
  | .or => x ||| y
  | .xor => x ^^^ y

/-- One level of the fixed tree: adjacent pairs combine (R145). -/
def pairUp (f : Word → Word → Word) : List Word → List Word
  | a :: b :: r => f a b :: pairUp f r
  | l => l

/-- The fixed tree over a list, `n` levels at most. -/
def treeOf (f : Word → Word → Word) : Nat → List Word → List Word
  | 0, l => l
  | n + 1, l => treeOf f n (pairUp f l)

/-- A first value before any other joins it: a NaN becomes canonical (R125). -/
def firstOf (op : RedOp) (t : Ty) (x : Word) : Word :=
  if t = .f32 then (if op = .add then redOp .add .f32 (redId .add .f32) x else redOp op t x x) else x

/-- The combination of values in order; the identity of none. -/
def foldOp (op : RedOp) (t : Ty) : List Word → Word
  | [] => redId op t
  | x :: r => r.foldl (redOp op t) (firstOf op t x)

/-- The reduction over the lanes 0 to gw − 1, a non-member giving the identity; float add in the fixed tree
(R145). -/
def reduced (op : RedOp) (t : Ty) (i : LaneIn) : Word :=
  let vs := (List.range i.g.gw).map (fun l => if i.act.getLsbD l then i.a t l else redId op t)
  if op = .add then ((treeOf (redOp op t) 6 vs).head?).getD (redId op t) else foldOp op t vs

/-- The pushed form of a result (R145). -/
def redWord (t : Ty) (w : Word) : DWord := if t = .i32 then w.signExtend 64 else w.zeroExtend 64

def execVred (op : RedOp) (t : Ty) (o : LaneOp) (s : State) : Res :=
  withLane s o (fun i => i.push s (redWord t (reduced op t i)))
def execVredV (op : RedOp) (t : Ty) (o : LaneOp) (s : State) : Res :=
  crossLane s o (redId op t) (fun i _ => reduced op t i)

/-- R145. -/
def execVscan (op : RedOp) (t : Ty) (ex : Bool) (o : LaneOp) (s : State) : Res :=
  crossLane s o (redId op t) (fun i l =>
    foldOp op t ((i.lanes.filter (fun m => if ex then decide (m < l) else decide (m ≤ l))).map (i.a t)))

end Sys2Proof.Machine
end

