-- ==== Sys2Proof/Machine/ScalarAlu.lean ====
section
/-! DEFINITION. The integer, immediate, compare, select and address instructions of the scalar
stream (R82 to R90). -/

namespace Sys2Proof.Machine

open Sys2Proof

/-! ### The values they compute -/

/-- Shift left by `c` (R83). -/
def shlV (a : DWord) (c : Nat) : DWord := a <<< c
/-- Logical shift right by `c` (R83). -/
def shrV (a : DWord) (c : Nat) : DWord := a >>> c
/-- Arithmetic shift right by `c` (R83). -/
def sarV (a : DWord) (c : Nat) : DWord := a.sshiftRight c
/-- Rotate left by `c` (R83). -/
def rolV (a : DWord) (c : Nat) : DWord := if c = 0 then a else a <<< c ||| a >>> (64 - c)
/-- Shift count of a register operand: bits [5:0] (R83). -/
def cnt6 (b : DWord) : Nat := b.toNat % 64
/-- High half of the signed product (R84). -/
def mulhV (a b : DWord) : DWord := w64 (a.toInt * b.toInt / (2 ^ 64 : Nat))
/-- High half of the unsigned product (R84). -/
def mulhnV (a b : DWord) : DWord := BitVec.ofNat 64 (a.toNat * b.toNat / 2 ^ 64)
/-- Signed division (R84). -/
def divV (a b : DWord) : DWord := if b = 0 then BitVec.allOnes 64 else w64 (Int.tdiv a.toInt b.toInt)
/-- Signed remainder (R84). -/
def remV (a b : DWord) : DWord :=
  if b = 0 then a else w64 (a.toInt - b.toInt * Int.tdiv a.toInt b.toInt)
/-- Unsigned division (R84). -/
def divnV (a b : DWord) : DWord := if b = 0 then BitVec.allOnes 64 else BitVec.ofNat 64 (a.toNat / b.toNat)
/-- Unsigned remainder (R84). -/
def remnV (a b : DWord) : DWord := if b = 0 then a else BitVec.ofNat 64 (a.toNat % b.toNat)
/-- Leading zeros (R85). -/
def clzV (a : DWord) : DWord := BitVec.ofNat 64 (64 - bitLen a.toNat 64)
/-- Trailing zeros (R85). -/
def ctzV (a : DWord) : DWord := BitVec.ofNat 64 (trailZ a.toNat 64)
/-- One bits (R85). -/
def popcV (a : DWord) : DWord := BitVec.ofNat 64 (popCount a.toNat 64)
/-- A truth value as 1 or 0 (R87). -/
def boolV (p : Bool) : DWord := if p then 1 else 0
/-- The low `n` bits, sign-extended (R85). -/
def sextV (n : Nat) (a : DWord) : DWord := (a.truncate n).signExtend 64
/-- The low `n` bits, zero-extended (R85). -/
def zextV (n : Nat) (a : DWord) : DWord := (a.truncate n).zeroExtend 64
/-- A 13-bit immediate, sign-extended (R38). -/
def se13 (i : BitVec 13) : DWord := i.signExtend 64
/-- A 13-bit immediate, zero-extended (R38). -/
def ze13 (i : BitVec 13) : DWord := i.zeroExtend 64
/-- The canonical form of a virtual address: bits [63:57] equal to bit 56 (R89). -/
def signExt57 (a : DWord) : DWord := (a.truncate 57).signExtend 64

/-! ### Majors 0x01 to 0x03 -/

def execAdd (d a b : XReg) (s : State) : Res := alu s d (fun g => g.x a + g.x b)
def execSub (d a b : XReg) (s : State) : Res := alu s d (fun g => g.x a - g.x b)
def execAnd (d a b : XReg) (s : State) : Res := alu s d (fun g => g.x a &&& g.x b)
def execOr (d a b : XReg) (s : State) : Res := alu s d (fun g => g.x a ||| g.x b)
def execXor (d a b : XReg) (s : State) : Res := alu s d (fun g => g.x a ^^^ g.x b)
def execAndn (d a b : XReg) (s : State) : Res := alu s d (fun g => g.x a &&& ~~~(g.x b))
def execShl (d a b : XReg) (s : State) : Res := alu s d (fun g => shlV (g.x a) (cnt6 (g.x b)))
def execShr (d a b : XReg) (s : State) : Res := alu s d (fun g => shrV (g.x a) (cnt6 (g.x b)))
def execSar (d a b : XReg) (s : State) : Res := alu s d (fun g => sarV (g.x a) (cnt6 (g.x b)))
def execRol (d a b : XReg) (s : State) : Res := alu s d (fun g => rolV (g.x a) (cnt6 (g.x b)))
def execMin (d a b : XReg) (s : State) : Res :=
  alu s d (fun g => if (g.x a).slt (g.x b) then g.x a else g.x b)
def execMax (d a b : XReg) (s : State) : Res :=
  alu s d (fun g => if (g.x a).slt (g.x b) then g.x b else g.x a)
def execMinn (d a b : XReg) (s : State) : Res :=
  alu s d (fun g => if (g.x a).ult (g.x b) then g.x a else g.x b)
def execMaxn (d a b : XReg) (s : State) : Res :=
  alu s d (fun g => if (g.x a).ult (g.x b) then g.x b else g.x a)
def execMul (d a b : XReg) (s : State) : Res := alu s d (fun g => g.x a * g.x b)
def execMulh (d a b : XReg) (s : State) : Res := alu s d (fun g => mulhV (g.x a) (g.x b))
def execMulhn (d a b : XReg) (s : State) : Res := alu s d (fun g => mulhnV (g.x a) (g.x b))
def execDiv (d a b : XReg) (s : State) : Res := alu s d (fun g => divV (g.x a) (g.x b))
def execDivn (d a b : XReg) (s : State) : Res := alu s d (fun g => divnV (g.x a) (g.x b))
def execRem (d a b : XReg) (s : State) : Res := alu s d (fun g => remV (g.x a) (g.x b))
def execRemn (d a b : XReg) (s : State) : Res := alu s d (fun g => remnV (g.x a) (g.x b))
def execClz (d a : XReg) (s : State) : Res := alu s d (fun g => clzV (g.x a))
def execCtz (d a : XReg) (s : State) : Res := alu s d (fun g => ctzV (g.x a))
def execPopc (d a : XReg) (s : State) : Res := alu s d (fun g => popcV (g.x a))
def execSextI8 (d a : XReg) (s : State) : Res := alu s d (fun g => sextV 8 (g.x a))
def execSextI16 (d a : XReg) (s : State) : Res := alu s d (fun g => sextV 16 (g.x a))
def execSextI32 (d a : XReg) (s : State) : Res := alu s d (fun g => sextV 32 (g.x a))
def execZextN8 (d a : XReg) (s : State) : Res := alu s d (fun g => zextV 8 (g.x a))
def execZextN16 (d a : XReg) (s : State) : Res := alu s d (fun g => zextV 16 (g.x a))
def execZextN32 (d a : XReg) (s : State) : Res := alu s d (fun g => zextV 32 (g.x a))

/-! ### Immediates, majors 0x20 to 0x27 -/

def execAddi (d a : XReg) (i : BitVec 13) (s : State) : Res := alu s d (fun g => g.x a + se13 i)
def execAndi (d a : XReg) (i : BitVec 13) (s : State) : Res := alu s d (fun g => g.x a &&& ze13 i)
def execOri (d a : XReg) (i : BitVec 13) (s : State) : Res := alu s d (fun g => g.x a ||| ze13 i)
def execXori (d a : XReg) (i : BitVec 13) (s : State) : Res := alu s d (fun g => g.x a ^^^ ze13 i)
def execShli (d a : XReg) (n : BitVec 6) (s : State) : Res := alu s d (fun g => shlV (g.x a) n.toNat)
def execShri (d a : XReg) (n : BitVec 6) (s : State) : Res := alu s d (fun g => shrV (g.x a) n.toNat)
def execSari (d a : XReg) (n : BitVec 6) (s : State) : Res := alu s d (fun g => sarV (g.x a) n.toNat)
def execLih (d a : XReg) (i : BitVec 13) (s : State) : Res :=
  alu s d (fun g => g.x a <<< 13 ||| ze13 i)

/-! ### Compares, select, addresses -/

def execSeq (d a b : XReg) (s : State) : Res := alu s d (fun g => boolV (g.x a == g.x b))
def execSne (d a b : XReg) (s : State) : Res := alu s d (fun g => boolV (g.x a != g.x b))
def execSlt (d a b : XReg) (s : State) : Res := alu s d (fun g => boolV ((g.x a).slt (g.x b)))
def execSltn (d a b : XReg) (s : State) : Res := alu s d (fun g => boolV ((g.x a).ult (g.x b)))
def execSle (d a b : XReg) (s : State) : Res := alu s d (fun g => boolV ((g.x a).sle (g.x b)))
def execSlen (d a b : XReg) (s : State) : Res := alu s d (fun g => boolV ((g.x a).ule (g.x b)))
/-- R88. -/
def execSel (d c a b : XReg) (s : State) : Res :=
  alu s d (fun g => if g.x c ≠ 0 then g.x a else g.x b)
/-- R89. -/
def execAdr (d a : XReg) (i : BitVec 13) (s : State) : Res := alu s d (fun g => signExt57 (g.x a + se13 i))
/-- R90. -/
def execAdrpc (d : XReg) (i : BitVec 13) (s : State) : Res := alu s d (fun g => g.pc + se13 i * 4)

end Sys2Proof.Machine
end

