-- ==== Sys2Proof/Machine/Dispatch.lean ====
section
/-! DEFINITION. The meaning of every instruction and step: one arm per constructor of `Instr`. -/

namespace Sys2Proof.Machine

open Sys2Proof

def exec (i : Instr) (s : State) : Host.Outcome State Fault Refusal :=
  match i with
  | .add d a b => Sys2Proof.Machine.execAdd d a b s
  | .sub d a b => Sys2Proof.Machine.execSub d a b s
  | .and d a b => Sys2Proof.Machine.execAnd d a b s
  | .or d a b => Sys2Proof.Machine.execOr d a b s
  | .xor d a b => Sys2Proof.Machine.execXor d a b s
  | .andn d a b => Sys2Proof.Machine.execAndn d a b s
  | .shl d a b => Sys2Proof.Machine.execShl d a b s
  | .shr d a b => Sys2Proof.Machine.execShr d a b s
  | .sar d a b => Sys2Proof.Machine.execSar d a b s
  | .rol d a b => Sys2Proof.Machine.execRol d a b s
  | .min d a b => Sys2Proof.Machine.execMin d a b s
  | .max d a b => Sys2Proof.Machine.execMax d a b s
  | .minn d a b => Sys2Proof.Machine.execMinn d a b s
  | .maxn d a b => Sys2Proof.Machine.execMaxn d a b s
  | .mul d a b => Sys2Proof.Machine.execMul d a b s
  | .mulh d a b => Sys2Proof.Machine.execMulh d a b s
  | .mulhn d a b => Sys2Proof.Machine.execMulhn d a b s
  | .div d a b => Sys2Proof.Machine.execDiv d a b s
  | .divn d a b => Sys2Proof.Machine.execDivn d a b s
  | .rem d a b => Sys2Proof.Machine.execRem d a b s
  | .remn d a b => Sys2Proof.Machine.execRemn d a b s
  | .clz d a => Sys2Proof.Machine.execClz d a s
  | .ctz d a => Sys2Proof.Machine.execCtz d a s
  | .popc d a => Sys2Proof.Machine.execPopc d a s
  | .sextI8 d a => Sys2Proof.Machine.execSextI8 d a s
  | .sextI16 d a => Sys2Proof.Machine.execSextI16 d a s
  | .sextI32 d a => Sys2Proof.Machine.execSextI32 d a s
  | .zextN8 d a => Sys2Proof.Machine.execZextN8 d a s
  | .zextN16 d a => Sys2Proof.Machine.execZextN16 d a s
  | .zextN32 d a => Sys2Proof.Machine.execZextN32 d a s
  | .addi d a imm => Sys2Proof.Machine.execAddi d a imm s
  | .andi d a imm => Sys2Proof.Machine.execAndi d a imm s
  | .ori d a imm => Sys2Proof.Machine.execOri d a imm s
  | .xori d a imm => Sys2Proof.Machine.execXori d a imm s
  | .shli d a n => Sys2Proof.Machine.execShli d a n s
  | .shri d a n => Sys2Proof.Machine.execShri d a n s
  | .sari d a n => Sys2Proof.Machine.execSari d a n s
  | .lih d a imm => Sys2Proof.Machine.execLih d a imm s
  | .seq d a b => Sys2Proof.Machine.execSeq d a b s
  | .sne d a b => Sys2Proof.Machine.execSne d a b s
  | .slt d a b => Sys2Proof.Machine.execSlt d a b s
  | .sltn d a b => Sys2Proof.Machine.execSltn d a b s
  | .sle d a b => Sys2Proof.Machine.execSle d a b s
  | .slen d a b => Sys2Proof.Machine.execSlen d a b s
  | .sel d c a b => Sys2Proof.Machine.execSel d c a b s
  | .adr d a imm => Sys2Proof.Machine.execAdr d a imm s
  | .adrpc d imm => Sys2Proof.Machine.execAdrpc d imm s
  | .b off => Sys2Proof.Machine.execB off s
  | .call off => Sys2Proof.Machine.execCall off s
  | .beq a b off => Sys2Proof.Machine.execBeq a b off s
  | .bne a b off => Sys2Proof.Machine.execBne a b off s
  | .blt a b off => Sys2Proof.Machine.execBlt a b off s
  | .bge a b off => Sys2Proof.Machine.execBge a b off s
  | .bltn a b off => Sys2Proof.Machine.execBltn a b off s
  | .bgen a b off => Sys2Proof.Machine.execBgen a b off s
  | .bz a off => Sys2Proof.Machine.execBz a off s
  | .bnz a off => Sys2Proof.Machine.execBnz a off s
  | .loop a off => Sys2Proof.Machine.execLoop a off s
  | .bkany k off => Sys2Proof.Machine.execBkany k off s
  | .bkall k off => Sys2Proof.Machine.execBkall k off s
  | .bknone k off => Sys2Proof.Machine.execBknone k off s
  | .calli a => Sys2Proof.Machine.execCalli a s
  | .ret => Sys2Proof.Machine.execRet s
  | .jmpi a => Sys2Proof.Machine.execJmpi a s
  | .ldx d a la imm => Sys2Proof.Machine.execLdx d a la imm s
  | .ldxI32 d a la imm => Sys2Proof.Machine.execLdxI32 d a la imm s
  | .ldxs d a la imm => Sys2Proof.Machine.execLdxs d a la imm s
  | .ldxsI32 d a la imm => Sys2Proof.Machine.execLdxsI32 d a la imm s
  | .stx d a imm => Sys2Proof.Machine.execStx d a imm s
  | .stxB32 d a imm => Sys2Proof.Machine.execStxB32 d a imm s
  | .stxs d a imm => Sys2Proof.Machine.execStxs d a imm s
  | .stxsB32 d a imm => Sys2Proof.Machine.execStxsB32 d a imm s
  | .acq sc d a la => Sys2Proof.Machine.execAcq sc d a la s
  | .rel sc d a => Sys2Proof.Machine.execRel sc d a s
  | .amo op sc d a b => Sys2Proof.Machine.execAmo op sc d a b s
  | .ldc d a la imm => Sys2Proof.Machine.execLdc d a la imm s
  | .ldsib d a la k => Sys2Proof.Machine.execLdsib d a la k s
  | .mfs d r => Sys2Proof.Machine.execMfs d r s
  | .mts a r => Sys2Proof.Machine.execMts a r s
  | .fence sc => Sys2Proof.Machine.execFence sc s
  | .rcn op d a => Sys2Proof.Machine.execRcn op d a s
  | .rcnw d a b => Sys2Proof.Machine.execRcnw d a b s
  | .vvrd d a => Sys2Proof.Machine.execVvrd d a s
  | .vvfold a => Sys2Proof.Machine.execVvfold a s
  | .clean a b => Sys2Proof.Machine.execClean a b s
  | .inval a b => Sys2Proof.Machine.execInval a b s
  | .lrun count off => Sys2Proof.Machine.execLrun count off s
  | .lsync => Sys2Proof.Machine.execLsync s
  | .dpop d => Sys2Proof.Machine.execDpop d s
  | .kpush k => Sys2Proof.Machine.execKpush k s
  | .kelse => Sys2Proof.Machine.execKelse s
  | .kpop => Sys2Proof.Machine.execKpop s
  | .kmovKK d a => Sys2Proof.Machine.execKmovKK d a s
  | .kmovKX d a => Sys2Proof.Machine.execKmovKX d a s
  | .kmovXK d a => Sys2Proof.Machine.execKmovXK d a s
  | .kand d a b => Sys2Proof.Machine.execKand d a b s
  | .kor d a b => Sys2Proof.Machine.execKor d a b s
  | .kxor d a b => Sys2Proof.Machine.execKxor d a b s
  | .knot d a => Sys2Proof.Machine.execKnot d a s
  | .kpopc d a => Sys2Proof.Machine.execKpopc d a s
  | .spset q a b => Sys2Proof.Machine.execSpset q a b s
  | .spgo q => Sys2Proof.Machine.execSpgo q s
  | .spstop q => Sys2Proof.Machine.execSpstop q s
  | .wait p a => Sys2Proof.Machine.execWait p a s
  | .cntrd p d => Sys2Proof.Machine.execCntrd p d s
  | .cpgo c b => Sys2Proof.Machine.execCpgo c b s
  | .cpseal d c => Sys2Proof.Machine.execCpseal d c s
  | .cpwait d c b => Sys2Proof.Machine.execCpwait d c b s
  | .cpstat d c => Sys2Proof.Machine.execCpstat d c s
  | .cpabort d c => Sys2Proof.Machine.execCpabort d c s
  | .cpflt d c => Sys2Proof.Machine.execCpflt d c s
  | .bop op d a b => Sys2Proof.Machine.execBop op d a b s
  | .bred op d a b => Sys2Proof.Machine.execBred op d a b s
  | .await cc acq d a b => Sys2Proof.Machine.execAwait cc acq d a b s
  | .tspawn a b => Sys2Proof.Machine.execTspawn a b s
  | .watch d a => Sys2Proof.Machine.execWatch d a s
  | .unwatch d a => Sys2Proof.Machine.execUnwatch d a s
  | .claim d a => Sys2Proof.Machine.execClaim d a s
  | .give d a => Sys2Proof.Machine.execGive d a s
  | .regroup d a => Sys2Proof.Machine.execRegroup d a s
  | .exit => Sys2Proof.Machine.execExit s
  | .barinit n b => Sys2Proof.Machine.execBarinit n b s
  | .bararr d n => Sys2Proof.Machine.execBararr d n s
  | .barwait n b => Sys2Proof.Machine.execBarwait n b s
  | .barsync n => Sys2Proof.Machine.execBarsync n s
  | .cbar c => Sys2Proof.Machine.execCbar c s
  | .qinit q b => Sys2Proof.Machine.execQinit q b s
  | .qpush q b => Sys2Proof.Machine.execQpush q b s
  | .qpop d q => Sys2Proof.Machine.execQpop d q s
  | .qtry d q => Sys2Proof.Machine.execQtry d q s
  | .nap a => Sys2Proof.Machine.execNap a s
  | .yield => Sys2Proof.Machine.execYield s
  | .ensure a b => Sys2Proof.Machine.execEnsure a b s
  | .elseby => Sys2Proof.Machine.execElseby s
  | .elseerr => Sys2Proof.Machine.execElseerr s
  | .accept a => Sys2Proof.Machine.execAccept a s
  | .rbfail => Sys2Proof.Machine.execRbfail s
  | .cvjoin d a => Sys2Proof.Machine.execCvjoin d a s
  | .cvleave => Sys2Proof.Machine.execCvleave s
  | .chkerr d => Sys2Proof.Machine.execChkerr d s
  | .trap n => Sys2Proof.Machine.execTrap n s
  | .brk n => Sys2Proof.Machine.execBrk n s
  | .hcall n => Sys2Proof.Machine.execHcall n s
  | .rti => Sys2Proof.Machine.execRti s
  | .nop => Sys2Proof.Machine.execNop s
  | .halt a => Sys2Proof.Machine.execHalt a s
  | .capq d a => Sys2Proof.Machine.execCapq d a s
  | .chkmode a => Sys2Proof.Machine.execChkmode a s
  | .clkmode d a => Sys2Proof.Machine.execClkmode d a s
  | .retire d a => Sys2Proof.Machine.execRetire d a s
  | .ctxsv d a b => Sys2Proof.Machine.execCtxsv d a b s
  | .ctxld d a b => Sys2Proof.Machine.execCtxld d a b s
  | .tlbflush a b => Sys2Proof.Machine.execTlbflush a b s
  | .prgn d a => Sys2Proof.Machine.execPrgn d a s
  | .vadd t sat o => Sys2Proof.Machine.execVadd t sat o s
  | .vsub t sat o => Sys2Proof.Machine.execVsub t sat o s
  | .vmul t o => Sys2Proof.Machine.execVmul t o s
  | .vmulh t o => Sys2Proof.Machine.execVmulh t o s
  | .vmad t sat o => Sys2Proof.Machine.execVmad t sat o s
  | .vand o => Sys2Proof.Machine.execVand o s
  | .vor o => Sys2Proof.Machine.execVor o s
  | .vxor o => Sys2Proof.Machine.execVxor o s
  | .vandn o => Sys2Proof.Machine.execVandn o s
  | .vshl t o => Sys2Proof.Machine.execVshl t o s
  | .vshr t o => Sys2Proof.Machine.execVshr t o s
  | .vsar t o => Sys2Proof.Machine.execVsar t o s
  | .vmin t o => Sys2Proof.Machine.execVmin t o s
  | .vmax t o => Sys2Proof.Machine.execVmax t o s
  | .vabs t sat o => Sys2Proof.Machine.execVabs t sat o s
  | .vaddmin t sat o => Sys2Proof.Machine.execVaddmin t sat o s
  | .vaddmax t sat o => Sys2Proof.Machine.execVaddmax t sat o s
  | .vclz o => Sys2Proof.Machine.execVclz o s
  | .vpopc o => Sys2Proof.Machine.execVpopc o s
  | .vbfx t o => Sys2Proof.Machine.execVbfx t o s
  | .vbfi o => Sys2Proof.Machine.execVbfi o s
  | .vsel k o => Sys2Proof.Machine.execVsel k o s
  | .vsad t o => Sys2Proof.Machine.execVsad t o s
  | .vcmp cc t o => Sys2Proof.Machine.execVcmp cc t o s
  | .vcvt td ts sat ed es o => Sys2Proof.Machine.execVcvt td ts sat ed es o s
  | .fadd t rm o => Sys2Proof.Machine.execFadd t rm o s
  | .fsub t rm o => Sys2Proof.Machine.execFsub t rm o s
  | .fmul t rm o => Sys2Proof.Machine.execFmul t rm o s
  | .ffma t rm o => Sys2Proof.Machine.execFfma t rm o s
  | .fmin t o => Sys2Proof.Machine.execFmin t o s
  | .fmax t o => Sys2Proof.Machine.execFmax t o s
  | .fcmp cc o => Sys2Proof.Machine.execFcmp cc o s
  | .frcp t o => Sys2Proof.Machine.execFrcp t o s
  | .frsq t o => Sys2Proof.Machine.execFrsq t o s
  | .fsqrt t o => Sys2Proof.Machine.execFsqrt t o s
  | .fexp2 t o => Sys2Proof.Machine.execFexp2 t o s
  | .flog2 t o => Sys2Proof.Machine.execFlog2 t o s
  | .fcvt td ts rm sf ed es o => Sys2Proof.Machine.execFcvt td ts rm sf ed es o s
  | .fint t rm o => Sys2Proof.Machine.execFint t rm o s
  | .vshfl m o => Sys2Proof.Machine.execVshfl m o s
  | .vshift dn o => Sys2Proof.Machine.execVshift dn o s
  | .vrot dn o => Sys2Proof.Machine.execVrot dn o s
  | .vbcast o => Sys2Proof.Machine.execVbcast o s
  | .voteK o => Sys2Proof.Machine.execVoteK o s
  | .voteBallot o => Sys2Proof.Machine.execVoteBallot o s
  | .voteAny o => Sys2Proof.Machine.execVoteAny o s
  | .voteAll o => Sys2Proof.Machine.execVoteAll o s
  | .voteCount o => Sys2Proof.Machine.execVoteCount o s
  | .vred op t o => Sys2Proof.Machine.execVred op t o s
  | .vredV op t o => Sys2Proof.Machine.execVredV op t o s
  | .vscan op t ex o => Sys2Proof.Machine.execVscan op t ex o s
  | .mmaF tb ta fix c o => Sys2Proof.Machine.execMmaF tb ta fix c o s
  | .mmaH ta fix c o => Sys2Proof.Machine.execMmaH ta fix c o s
  | .mmaI tb ta fix c o => Sys2Proof.Machine.execMmaI tb ta fix c o s
  | .mzero o => Sys2Proof.Machine.execMzero o s
  | .mfrag roleB t k64 o => Sys2Proof.Machine.execMfrag roleB t k64 o s
  | .mtr roleB t k64 o => Sys2Proof.Machine.execMtr roleB t k64 o s
  | .maccLd o => Sys2Proof.Machine.execMaccLd o s
  | .maccSt o => Sys2Proof.Machine.execMaccSt o s
  | .maccAdd t o => Sys2Proof.Machine.execMaccAdd t o s
  | .crt o => Sys2Proof.Machine.execCrt o s
  | .crtAcc clr o => Sys2Proof.Machine.execCrtAcc clr o s
  | .rwadd o => Sys2Proof.Machine.execRwadd o s
  | .rwfrom o => Sys2Proof.Machine.execRwfrom o s
  | .sacc pt rb cb o => Sys2Proof.Machine.execSacc pt rb cb o s
  | .fxzero o => Sys2Proof.Machine.execFxzero o s
  | .fxadd t pt o => Sys2Proof.Machine.execFxadd t pt o s
  | .fxcvt t pt clr rm o => Sys2Proof.Machine.execFxcvt t pt clr rm o s
  | .sbmax t oct o => Sys2Proof.Machine.execSbmax t oct o s
  | .sbcvt t sel o => Sys2Proof.Machine.execSbcvt t sel o s
  | .qnt t sel rm o => Sys2Proof.Machine.execQnt t sel rm o s
  | .dqnt t sel o => Sys2Proof.Machine.execDqnt t sel o s
  | .olx o => Sys2Proof.Machine.execOlx o s
  | .vld t f o => Sys2Proof.Machine.execVld t f o s
  | .vst t f o => Sys2Proof.Machine.execVst t f o s
  | .vlds t f o => Sys2Proof.Machine.execVlds t f o s
  | .vsts t f o => Sys2Proof.Machine.execVsts t f o s
  | .vldr c sp f o => Sys2Proof.Machine.execVldr c sp f o s
  | .vstr c sp f o => Sys2Proof.Machine.execVstr c sp f o s
  | .vpf l2 f o => Sys2Proof.Machine.execVpf l2 f o s
  | .vfence sc o => Sys2Proof.Machine.execVfence sc o s
  | .vamo op sc t f o => Sys2Proof.Machine.execVamo op sc t f o s
  | .vldc f o => Sys2Proof.Machine.execVldc f o s
  | .vldcDq f o => Sys2Proof.Machine.execVldcDq f o s
  | .spawn o => Sys2Proof.Machine.execSpawn o s
  | .loadDataReturn g n => Sys2Proof.Machine.execLoadDataReturn g n s
  | .atomicAtPlace g n => Sys2Proof.Machine.execAtomicAtPlace g n s
  | .homeStoreTest n => Sys2Proof.Machine.execHomeStoreTest n s
  | .writeBackMerge c w => Sys2Proof.Machine.execWriteBackMerge c w s
  | .dotScrub die slice => Sys2Proof.Machine.execDotScrub die slice s
  | .registrationRepair w => Sys2Proof.Machine.execRegistrationRepair w s
  | .copyRecordFetch c ch => Sys2Proof.Machine.execCopyRecordFetch c ch s
  | .copyOwnRecheck c ch => Sys2Proof.Machine.execCopyOwnRecheck c ch s
  | .copyRecordRegister c ch => Sys2Proof.Machine.execCopyRecordRegister c ch s
  | .copyRecordComplete c ch => Sys2Proof.Machine.execCopyRecordComplete c ch s
  | .copyDrainExpiry c ch => Sys2Proof.Machine.execCopyDrainExpiry c ch s
  | .patternElementFetch g q => Sys2Proof.Machine.execPatternElementFetch g q s
  | .watchTriggerDeliver die slice ent => Sys2Proof.Machine.execWatchTriggerDeliver die slice ent s
  | .gatherWindowExpiry c slot => Sys2Proof.Machine.execGatherWindowExpiry c slot s
  | .gatherLaunch c slot => Sys2Proof.Machine.execGatherLaunch c slot s
  | .teamAdmit l k c => Sys2Proof.Machine.execTeamAdmit l k c s
  | .seatRelease t => Sys2Proof.Machine.execSeatRelease t s
  | .groupOverdue g ln => Sys2Proof.Machine.execGroupOverdue g ln s
  | .powerReserve c pipe => Sys2Proof.Machine.execPowerReserve c pipe s
  | .powerBudgetUpdate c refill => Sys2Proof.Machine.execPowerBudgetUpdate c refill s
  | .pwrctlWrite c v => Sys2Proof.Machine.execPwrctlWrite c v s
  | .psteerWrite c pipe v => Sys2Proof.Machine.execPsteerWrite c pipe v s
  | .mgmtRegisterWrite r v => Sys2Proof.Machine.execMgmtRegisterWrite r v s
  | .trapEntry g => Sys2Proof.Machine.execTrapEntry g s
  | .handlerBudgetExpiry g => Sys2Proof.Machine.execHandlerBudgetExpiry g s
  | .awaitRecheck g => Sys2Proof.Machine.execAwaitRecheck g s
  | .napExpiry g => Sys2Proof.Machine.execNapExpiry g s
  | .clockChangeDone c => Sys2Proof.Machine.execClockChangeDone c s
  | .cycleLimitExpiry t level => Sys2Proof.Machine.execCycleLimitExpiry t level s
  | .alternateRollback t => Sys2Proof.Machine.execAlternateRollback t s
  | .preempt t => Sys2Proof.Machine.execPreempt t s
  | .restore n c => Sys2Proof.Machine.execRestore n c s
  | .poolLinkDown port => Sys2Proof.Machine.execPoolLinkDown port s
  | .poolRequestTimeout dev => Sys2Proof.Machine.execPoolRequestTimeout dev s
  | .strandedFlushRetry region => Sys2Proof.Machine.execStrandedFlushRetry region s
  | .rejoinLineWritten region l => Sys2Proof.Machine.execRejoinLineWritten region l s
  | .poolBiSnoop l => Sys2Proof.Machine.execPoolBiSnoop l s
  | .hostDeviceWrite w v mask => Sys2Proof.Machine.execHostDeviceWrite w v mask s
  | .channelDoorbell ch tail => Sys2Proof.Machine.execChannelDoorbell ch tail s
  | .channelEnable ch en => Sys2Proof.Machine.execChannelEnable ch en s
  | .completionHeadWrite ch head => Sys2Proof.Machine.execCompletionHeadWrite ch head s
  | .ctxPkt h addr => Sys2Proof.Machine.execCtxPkt h addr s
  | .launchPkt h addr => Sys2Proof.Machine.execLaunchPkt h addr s
  | .graphPkt h addr => Sys2Proof.Machine.execGraphPkt h addr s
  | .quiescePkt h => Sys2Proof.Machine.execQuiescePkt h s
  | .hreplyPkt h rid x1 x2 => Sys2Proof.Machine.execHreplyPkt h rid x1 x2 s
  | .fdonePkt h rid fail => Sys2Proof.Machine.execFdonePkt h rid fail s
  | .regionMapPlain h r port cxl devs => Sys2Proof.Machine.execRegionMapPlain h r port cxl devs s
  | .regionMapVersioned h r port cxl devs => Sys2Proof.Machine.execRegionMapVersioned h r port cxl devs s
  | .regionUnmap h r => Sys2Proof.Machine.execRegionUnmap h r s
  | .regionRejoinFlush h r port => Sys2Proof.Machine.execRegionRejoinFlush h r port s
  | .regionRejoinDiscard h r port => Sys2Proof.Machine.execRegionRejoinDiscard h r port s
  | .devcfgPkt h fabric base size => Sys2Proof.Machine.execDevcfgPkt h fabric base size s
  | .attestPkt h nonce report => Sys2Proof.Machine.execAttestPkt h nonce report s
  | .fwupdPkt h addr bytes slot => Sys2Proof.Machine.execFwupdPkt h addr bytes slot s
  | .graphEdgeSatisfy graph edge => Sys2Proof.Machine.execGraphEdgeSatisfy graph edge s
  | .remoteEdgeSignal graph edge => Sys2Proof.Machine.execRemoteEdgeSignal graph edge s
  | .quiescePoint ctxid => Sys2Proof.Machine.execQuiescePoint ctxid s
  | .retireApply n => Sys2Proof.Machine.execRetireApply n s
  | .cpTakeoverForced => Sys2Proof.Machine.execCpTakeoverForced s
  | .retireTimeout n => Sys2Proof.Machine.execRetireTimeout n s
  | .suspectCountAge => Sys2Proof.Machine.execSuspectCountAge s
  | .ulunoezLaneFailed link ln => Sys2Proof.Machine.execUlunoezLaneFailed link ln s
  | .ulunoezLinkFailed link => Sys2Proof.Machine.execUlunoezLinkFailed link s
  | .moduleReset => Sys2Proof.Machine.execModuleReset s
  | .reducedServiceLift dies => Sys2Proof.Machine.execReducedServiceLift dies s
  | .heartbeatWatchdog die => Sys2Proof.Machine.execHeartbeatWatchdog die s
  | .droopDetect c => Sys2Proof.Machine.execDroopDetect c s
  | .droopRelease c => Sys2Proof.Machine.execDroopRelease c s
  | .thermalTrip die => Sys2Proof.Machine.execThermalTrip die s
  | .thermalRelease die => Sys2Proof.Machine.execThermalRelease die s
  | .rowSpare die bank row => Sys2Proof.Machine.execRowSpare die bank row s
  | .memoryUncorrectable w => Sys2Proof.Machine.execMemoryUncorrectable w s
  | .deadlockWalk => Sys2Proof.Machine.execDeadlockWalk s
  | .longWait g => Sys2Proof.Machine.execLongWait g s
  | .calibrate c => Sys2Proof.Machine.execCalibrate c s
  | .powerGate c => Sys2Proof.Machine.execPowerGate c s
  | .cxlLinkTraining port reach => Sys2Proof.Machine.execCxlLinkTraining port reach s
  | .storeAcknowledgement n => Sys2Proof.Machine.execStoreAcknowledgement n s
  | .copiedWriteArrival w v => Sys2Proof.Machine.execCopiedWriteArrival w v s

end Sys2Proof.Machine
end

