-- ==== Sys2Proof/Machine/Issue.lean ====
section
/-! DEFINITION. Issue of one instruction of a group's scalar or lane stream: fetch, decoding, what stops it before its
meaning, its meaning, and what its issue leaves in the stream (R22, R49, R54 to R57, R117 to R121, R335, R345, R347). -/

namespace Sys2Proof.Machine

open Sys2Proof

/-- Whether a core issues: its clocks are settled and the thermal trip does not stop it (R434, R474). -/
def State.coreIssues (s : State) (c : Nat) : Bool :=
  (match (s.core c).chgClk with
   | none => true
   | some t => decide (t.toNat ≤ s.tsc.toNat)) && !(s.die (c / 64)).tstop

/-- A channel of a team has an abandoned record to register again before the team issues (R321). -/
def State.rejoining (s : State) (c t : Nat) : Bool := (s.core c).chans.any (fun e => chanHeld e.2 t && e.2.again)

/-- Whether a group's streams issue: not stopped for pre-emption, by a double fault, for a rollback (but at trap class, R385) or past
its handler budget, nor before its team's copy channels are as they were at a save (R321, R385, R413, R414, R419). -/
def State.mayIssue (s : State) (k : Nat) (g : Group) : Bool :=
  s.coreIssues (coreOf k) && !g.stopReq && !g.stopd && !(s.rejoining (coreOf k) g.seat)
    && !(g.tclass && decide ((s.ctxOf g).budget ≤ g.budget))
    && (g.tclass || (match find s.teams g.seat with
      | some t => t.fail.isNone && t.stop.isNone
      | none => false))

/-! ### What an access needs of its core (R215, R216) -/

/-- The in-flight paths that an instruction's accesses count on. -/
def accPaths : Instr → List Path
  | .ldx _ _ _ _ => [.gl, .pl] | .ldxI32 _ _ _ _ => [.gl, .pl] | .stx _ _ _ => [.gl, .pl] | .stxB32 _ _ _ => [.gl, .pl]
  | .ldxs _ _ _ _ => [.sp, .rsp] | .ldxsI32 _ _ _ _ => [.sp, .rsp] | .stxs _ _ _ => [.sp, .rsp] | .stxsB32 _ _ _ => [.sp, .rsp]
  | .acq _ _ _ _ => [.gl, .pl] | .rel _ _ _ => [.gl, .pl] | .ldc _ _ _ _ => [.gl, .pl] | .ldsib _ _ _ _ => [.gl, .pl]
  | .rcn _ _ _ => [.gl, .pl] | .rcnw _ _ _ => [.gl, .pl] | .vvfold _ => [.gl, .pl] | .bop _ _ _ _ => [.gl, .pl]
  | .bred _ _ _ _ => [.gl, .pl] | .await _ _ _ _ _ => [.gl, .pl] | .spset _ _ _ => [.pat] | .clean _ _ => [.gl] | .watch _ _ => [.gl, .pl]
  | .amo _ sc _ _ _ => if onGlobal sc then [.gl, .pl] else [.sp, .rsp]
  | .vld _ _ _ => [.gl, .pl] | .vst _ _ _ => [.gl, .pl] | .vldc _ _ => [.gl, .pl] | .vldcDq _ _ => [.gl, .pl]
  | .vlds _ _ _ => [.sp, .rsp] | .vsts _ _ _ => [.sp, .rsp]
  | .vldr _ sp _ _ => if sp then [.sp, .rsp] else [.gl, .pl] | .vstr _ sp _ _ => if sp then [.sp, .rsp] else [.gl, .pl]
  | .vamo _ sc _ _ _ => if onGlobal sc then [.gl, .pl] else [.sp, .rsp]
  | .mmaF _ _ _ _ _ => [.sp] | .mmaH _ _ _ _ => [.sp] | .mmaI _ _ _ _ _ => [.sp] | .mzero _ => [.sp]
  | .mfrag _ _ _ _ => [.sp, .rsp] | .mtr _ _ _ _ => [.sp, .rsp] | .maccLd _ => [.sp] | .maccSt _ => [.sp] | .maccAdd _ _ => [.sp]
  | .crtAcc _ _ => [.sp] | .sacc _ _ _ _ => [.sp] | .fxzero _ => [.sp] | .fxadd _ _ _ => [.sp] | .fxcvt _ _ _ _ _ => [.sp]
  | .qnt _ _ _ _ => [.sp] | .olx _ => [.sp]
  | .cpgo _ _ => [.cp]
  | _ => []

/-- An access waits at issue: its core has no memory request free, or a counter of its group stands at 1,024 (R215, R216).
DEDUCED (log 116). -/
def State.waitsAtIssue (s : State) (k : Nat) (g : Group) (i : Instr) : Bool :=
  let ps := accPaths i
  ((ps.contains .gl || ps.contains .pat) && s.requestsFull (coreOf k)) || ps.any (fun p => decide (1024 ≤ s.counter k g p))

/-! ### The scalar stream -/

/-- The broadcast registers that the fields of lane words name (R41). -/
def bcRegs (l : List (BitVec 96)) : List XReg :=
  l.flatMap (fun w => ([66, 56, 46].filter (fun lo => field w.toNat lo 10 / 256 = 2 && decide (field w.toNat lo 10 % 256 < 64))).map
    (fun lo => BitVec.ofNat 6 (field w.toNat lo 10)))

/-- The registers an instruction names; an `lrun` reads those that its block's fields broadcast (R41, R96).
DEDUCED (log 38). -/
def State.setsAt (s : State) (k : Nat) (g : Group) (i : Instr) : RegSets :=
  match i with
  | .lrun count off =>
    match s.fetchWords k g (g.lbase + BitVec.ofNat 64 (12 * off.toNat)) (3 * (count.toNat + 1)) [] with
    | (_, some ws, _) => { xr := bcRegs (laneWords ws) }
    | _ => {}
  | i => setsOf i

/-- Whether an instruction can leave the PC where it stands. -/
def isLoop : Instr → Bool
  | .loop _ _ => true
  | _ => false

/-- Whether a scalar instruction completed in its group: not waiting, and no trap entered or left. -/
def ranScalar (i : Instr) (g h : Group) : Bool := g.tclass = h.tclass && g.entry = h.entry && (g.pc ≠ h.pc || isLoop i)

/-- An instruction that ends its group's run of issues (R345, R367). -/
def yields (g : Group) : Instr → Bool
  | .yield => true
  | .nap a => g.x a &&& 0xffffffff = 0
  | _ => false

/-- The meaning of a decoded scalar instruction, with what its issue leaves behind. -/
def State.runScalar (s : State) (g : Group) (i : Instr) (r : RegSets) (busy : Bool) : Res :=
  match exec i s with
  | .next t =>
    match find t.groups s.cur with
    | some h =>
      if s.overRequests t (coreOf s.cur) then .next s
      else .next (if ranScalar i g h then t.noteScalar s.cur r (yields h i) (lookaheadOf i) busy else t)
    | none => .next t
  | .fault f => .fault f
  | .refused f => .refused f

/-- Whether a scalar instruction writes a register of its group, or completes, as it executes from `s`. -/
def State.writesNow (s : State) (g : Group) (i : Instr) : Bool :=
  match exec i s with
  | .next t =>
    match find t.groups s.cur with
    | some h => !(s.overRequests t (coreOf s.cur)) && (ranScalar i g h || (g.tclass = h.tclass && g.entry = h.entry && decide (g.xs ≠ h.xs)))
    | none => false
  | _ => false

/-- A scalar instruction stands at the PC: the lookahead rule and stalls come before its meaning (R56), and inside a recovery block
the capture of the registers that it now writes (R378). -/
def State.dispatchScalar (s : State) (g : Group) (i : Instr) (busy : Bool) : Res :=
  let r := if g.winS.isEmpty && g.infl.isEmpty then setsOf i else s.setsAt s.cur g i
  if g.winS.any (fun w => w.hits r) then raise s 0x02 0 0
  else if stalls g r || s.waitsAtIssue s.cur g i then .next s
  else
    match (if s.depth g.seat = 0 || !(s.writesNow g i) then some s else s.captureRegs s.cur g r.dests) with
    | none => overflow s g
    | some s => s.runScalar g i r busy

/-- The scalar word at the PC is decoded (R49). -/
def State.runWord (s : State) (g : Group) (w : Word) (busy : Bool) : Res :=
  match decodeScalar w with
  | .error _ => raise s 0x01 0 0
  | .ok i => s.dispatchScalar g i busy

/-- The word that a fetch of `w` at `a` delivers: a word that the group's buffer holds may be another, where the code has changed
since it was fetched; which of the two it is, is a free value (R71). DESIGN CHOICE (log 124). -/
def State.buffered (s : State) (g : Group) (a : DWord) (w : Word) : State × Word :=
  match (g.fbuf.find? (fun e => e.1 = a)).map (·.2) with
  | some v =>
    if v = w then (s, w)
    else
      let (n, s) := s.takeFree
      (s, if (Config.freeWord n).getLsbD 0 then v else w)
  | none => (s, w)

/-- A group's fetch buffer after a fetch: eight words, the last one first (R71). -/
def Group.fetched (g : Group) (a : DWord) (w : Word) : Group :=
  { g with fbuf := ((a, w) :: g.fbuf.filter (fun e => e.1 ≠ a)).take 8 }

/-- The scalar word at the PC of group `k` is fetched and runs (R49, R71). -/
def State.fetchRun (s : State) (k : Nat) (g : Group) (busy : Bool) : Res :=
  match s.fetchWord k g g.pc with
  | .wait s => .next s
  | .fault s => raise s 0x05 g.pc 0
  | .ok s w =>
    let (s, w) := s.buffered g g.pc w
    let g := g.fetched g.pc w
    State.runWord { s with groups := put s.groups k g } g w busy

/-- The scalar stream of group `k` issues, or takes a pending trap (R22, R411); a group that a `regroup` left out exits
(R351). -/
def State.issueScalar (s : State) (k : Nat) (busy : Bool) : Res :=
  let s : State := { s with cur := k }
  withG s (fun g =>
    if g.midway then (if s.coreIssues (coreOf k) && !g.stopd then s.fetchRun k g busy else .next s)
    else if g.entry.isSome then .next (if s.coreIssues (coreOf k) && !g.stopReq && !g.stopd then s.stepEntry k else s)
    else if !(s.mayIssue k g) then .next s
    else if !g.pend.isEmpty && !g.tclass then .next (s.takePending k)
    else if g.leaving = some g.tclass then execExit s
    else s.fetchRun k g busy)

/-! ### The lane stream -/

/-- The lead of an issue cycle and the group that had issued last before it. -/
structure Lead where
  lead : Nat
  prev : Option Nat

/-- Records an issue in the lane stream of a group (R55, R345, R346); the lead of the cycle counts as the group that issued
last. DESIGN CHOICE (log 146). A reservation for the group ends (R347). -/
def State.noteLane (s : State) (k : Nat) (m : Lead) (i : Instr) (r : RegSets) (busy : Bool) : State :=
  match find s.groups k with
  | none => s
  | some g =>
    let q := 4 * coreOf k + g.pipe
    let p := s.pipe q
    let run := if m.prev = some k then g.runL + (if busy then 1 else 0) else (if busy then 1 else 0)
    let g' := { g with winL := noteWindows g.winL r (lookaheadOf i), runL := run, dueL := none, rdyL := none }
    { s.setPipe q { p with lastL := some m.lead, reserved := p.reserved.filter (fun r => r.1 ≠ k) } with groups := put s.groups k g' }

/-- Whether a lane instruction left the lane queue of its group, without a trap. -/
def ranLane (g : Group) (t : State) (k : Nat) : Bool :=
  match find t.groups k with
  | none => false
  | some h => g.tclass = h.tclass && decide (h.laneQ.length < g.laneQ.length)

/-- A lane-check fault (R120). -/
def State.laneCheck (s : State) (g : Group) (e : LaneEntry) (lane : Nat) : Res := raiseLane s g e 0x16 0 (BitVec.ofNat 64 lane)

/-- An instruction that performs atomics, whose effects stand after an unresolved write-back (R274). -/
def isVamo : Instr → Bool
  | .vamo _ _ _ _ _ => true
  | _ => false

/-- A prefetch, which never traps (R228). -/
def isVpf : Instr → Bool
  | .vpf _ _ _ => true
  | _ => false

/-- The group after a `vamo` whose write-back was not resolved: the atomics stand, its registers and pops do not (R119, R274). -/
def Group.withoutBack (h g : Group) : Group :=
  { h with vs := g.vs, laneQ := g.laneQ, opq := g.opq
           infl := g.infl ++ (h.infl.drop g.infl.length).map (fun x =>
             { x with atoms := x.atoms.map (fun a => { a with vd := none }) }) }

/-- The machine after a `vamo` of group `k` whose write-back was not resolved: what its pops freed is held again, and nothing was
consumed (R119, R274). -/
def State.withoutBack (t s : State) (k : Nat) (g : Group) : State :=
  let c := coreOf k
  let kept := (s.core c).locks.filter (fun l => (match l.owner with | .queue h _ => h = k | _ => false) && !((t.core c).locks.contains l))
  let t := t.setCore c { t.core c with locks := (t.core c).locks ++ kept }
  let old := (s.teamOf g).levels
  { t with
    ctxs := s.ctxs
    groups := upd t.groups k (fun h => h.withoutBack g)
    teams := upd t.teams g.seat (fun tm =>
      { tm with levels := List.zipWith (fun (l m : Level) => { l with pois := m.pois }) tm.levels old }) }

/-- What makes a decoded lane instruction illegal for its group: an octet of B that it has not, or service that is reduced (R150,
R170). -/
def State.unserved (s : State) (g : Group) : Instr → Bool
  | .mmaF _ _ _ c _ => decide (g.gw / 8 ≤ c.toNat) || s.reduced
  | .mmaH _ _ c _ => decide (g.gw / 8 ≤ c.toNat)
  | .mmaI _ _ _ c _ => decide (g.gw / 8 ≤ c.toNat) || s.reduced
  | _ => false

/-- What the head of a lane stream does when its pipe comes to it. -/
inductive LaneTry where
  /-- It is not ready. -/
  | idle
  /-- It takes no issue cycle: a trap, a further task of a `spawn`. -/
  | act (r : Res)
  /-- It can issue: the instruction and the registers it names. -/
  | go (i : Instr) (r : RegSets)

/-- A register capture of a lane instruction that Sepia cannot hold (R377). -/
def laneOverflow (s : State) (g : Group) (e : LaneEntry) (i : Instr) : Res :=
  match i.laneRule with
  | none => .next s
  | some (o, _) =>
    let h : List (QReg × QEntry) := match popHeads g (queuesOf o) with
      | .ok h => h
      | _ => []
    LaneIn.overflow { g := g, e := e, o := o, heads := h } s

/-- The decoded head of a lane queue: what stops it before its meaning comes first, in the order of R48 (R49, R56, R335). -/
def State.tryInstr (s : State) (g : Group) (e : LaneEntry) (i : Instr) : LaneTry :=
  let r := setsOf i
  if s.unserved g i then .act (raiseLane s g e 0x01 0 0)
  else if g.winL.any (fun w => w.hits r) then .act (raiseLane s g e 0x02 0 0)
  else
    match outOfRange g r with
    | some n => .act (raiseLane s g e 0x03 0 (BitVec.ofNat 64 n))
    | none =>
      if stalls g r || s.waitsAtIssue s.cur g i then .idle
      else
        match exec i s with
        | .next t =>
          if s.overRequests t (coreOf s.cur) then .idle
          else if ranLane g t s.cur then .go i r else .act (.next t)
        | x => .act x

/-- The head of the acting group's lane queue, where its stream may issue (R22). -/
def State.tryHead (s : State) (g : Group) : LaneTry :=
  match g.laneQ with
  | [] => .idle
  | e :: _ =>
    if !(s.mayIssue s.cur g) || g.frozen then .idle
    else match decodeLane e.bits with
      | .error _ => .act (raiseLane s g e 0x01 0 0)
      | .ok i => s.tryInstr g e i

/-- A lane instruction takes effect, once Sepia holds the registers that it writes (R377, R378). -/
def State.effectHead (s : State) (m : Lead) (g : Group) (e : LaneEntry) (i : Instr) (r : RegSets) (busy : Bool) : Res :=
  match s.captureRegs s.cur g (writtenRegs g e i r) with
  | none => laneOverflow s g e i
  | some s =>
    match exec i s with
    | .next t => .next (t.noteLane s.cur m i r busy)
    | x => x

/-- A group of an issue cycle has its instruction take effect, its comparisons done (R119 to R121): one with an unresolved slot
takes the fault, but for a prefetch. -/
def State.finishHead (s : State) (m : Lead) (g : Group) (e : LaneEntry) (i : Instr) (r : RegSets) (c : CycleRes) (busy : Bool) :
    Res :=
  match (if isVpf i then none else c.bad.find? (fun b => Member.issuesIn b.2.1 b.1 (s.cur, g, e, i))) with
  | none => s.effectHead m g e i r busy
  | some (slot, half, late) =>
    let lane := slotLane g (onOctets i) slot half
    if late && isVamo i then
      match exec i s with
      | .next t =>
        let t := t.withoutBack s s.cur g
        (match find t.groups s.cur with
         | some h => t.laneCheck h e lane
         | none => .next t)
      | x => x
    else s.laneCheck g e lane

/-- The head of group `k` in a cycle. -/
def State.runHead (s : State) (k : Nat) (m : Lead) (c : CycleRes) (busy : Bool) : Res :=
  let s : State := { s with cur := k }
  withG s (fun g =>
    match s.tryHead g, g.laneQ with
    | .go i r, e :: _ => s.finishHead m g e i r c busy
    | .act r, _ => r
    | _, _ => .next s)

/-- The heads of the groups of a cycle, one after another. -/
def runHeads (m : Lead) (c : CycleRes) (busy : Bool) : List Nat → State → Res
  | [], s => .next s
  | k :: r, s =>
    match s.runHead k m c busy with
    | .next s => runHeads m c busy r s
    | x => x

/-! ### Issue cycles (R111, R112, R346) -/

/-- The fields in which packed instructions agree: op12, ty, md, la, and the kinds of sa, sb and sc (R112). -/
def packKey (b : BitVec 96) : List Nat :=
  let w := b.toNat
  [field w 84 12, field w 32 6, field w 20 12, field w 38 4, field w 74 2, field w 64 2, field w 54 2]

/-- Two groups hold disjoint slot positions (R111). -/
def apart (g h : Group) : Bool := decide (g.soff + g.gw ≤ h.soff) || decide (h.soff + h.gw ≤ g.soff)

/-- The instruction of `x` packs into a cycle led by `m` (R112). -/
def State.packs (s : State) (m x : Member) : Bool :=
  decide (m.2.1.gw ≤ 16) && decide (x.2.1.gw ≤ 16) && s.ctxId m.2.1 = s.ctxId x.2.1
    && decide (packKey m.2.2.1.bits = packKey x.2.2.1.bits)

/-- A group whose head is ready, as a member of an issue cycle. -/
def State.memberOf (s : State) (k : Nat) : Option Member :=
  let s : State := { s with cur := k }
  match find s.groups k with
  | none => none
  | some g =>
    match s.tryHead g, g.laneQ with
    | .go i _, e :: _ => some (k, g, e, i)
    | _, _ => none

/-- Inserts a group by its age. -/
def insAge (e : Nat × Group) : List (Nat × Group) → List (Nat × Group)
  | [] => [e]
  | f :: r => if e.2.age < f.2.age then e :: f :: r else f :: insAge e r

/-- The narrow groups that share the cycle of `m`, oldest first, while slot positions are left (R346). -/
def State.mates112 (s : State) (m : Member) : List Member :=
  if 16 < m.2.1.gw then []
  else
    let l := s.groups.filter (fun e => e.1 ≠ m.1 && coreOf e.1 = coreOf m.1 && e.2.pipe = m.2.1.pipe && !e.2.laneQ.isEmpty)
    let l := l.foldl (fun l e => insAge e l) []
    (l.filterMap (fun e => s.memberOf e.1)).foldl (fun acc x =>
      if s.packs m x && (m :: acc).all (fun y => apart y.2.1 x.2.1) then acc ++ [x] else acc) []

/-- Members of a cycle by slot offset. -/
def insOff (x : Member) : List Member → List Member
  | [] => [x]
  | y :: r => if x.2.1.soff < y.2.1.soff then x :: y :: r else y :: insOff x r

/-- The weight of the first issue cycle. -/
def firstWeight (l : List (List (Nat × Nat))) : Nat := (((l.head?).bind (·.head?)).map (·.2)).getD 0

/-- An issue cycle of pipe `q` starts, granted: its instructions are compared when doubled, the issue cycles that they take
beyond it are left to the pipe, and each takes effect (R111, R118 to R121, R347), those of the lower slot offset first.
DESIGN CHOICE (log 141). -/
def State.startCycle (s : State) (q : Nat) (m : Member) (l : List Member) (busy : Bool) : Res :=
  let oct := onOctets m.2.2.2
  let cov (h x : Nat) : Bool := (m :: l).any (Member.issuesIn h x)
  let prev := (s.pipe q).lastL
  let (s, c) := s.checkCycles q (s.ctxOf m.2.1).chk.toNat oct cov (cyclesOf m l)
  let s := s.setPipe q { s.pipe q with cycT := some s.tsc, rest := c.ws.tail, restR := none }
  runHeads { lead := m.1, prev := prev } c busy (((m :: l).foldl (fun l x => insOff x l) []).map (·.1)) s

/-- The lane stream of group `k` leads an issue cycle of its pipe, where the pipe is free and the allowance grants it (R22,
R347). -/
def State.issueLane (s : State) (k : Nat) (busy : Bool) : Res :=
  let s : State := { s with cur := k }
  withG s (fun g =>
    let q := 4 * coreOf k + g.pipe
    let s := s.carryOn q (s.clocksSince q - 1)
    if !(s.pipe q).rest.isEmpty then .next (if 0 < s.clocksSince q then s.takeRest q else s)
    else if !(s.pipeFree q) then .next s
    else
      match s.tryHead g, g.laneQ with
      | .act r, _ => r
      | .go i _, e :: _ =>
        let m : Member := (k, g, e, i)
        let l := s.mates112 m
        let w := firstWeight (cyclesOf m l)
        if s.granted k w then (s.debit k w q).startCycle q m l busy
        else .next { s with groups := upd s.groups k (Group.refuse (some s.tsc)) }
      | _, _ => .next s)

end Sys2Proof.Machine
end

