-- ==== Sys2Proof/Machine/Schedule.lean ====
section
/-! DEFINITION. What moves next. The agenda of the state names the agents of the coming steps; when it is empty the device
moves of its own: its engines, timers and command processor, and the picks of its pipes (R345). -/

namespace Sys2Proof.Machine

open Sys2Proof

/-- A step that some agent of the device can take. -/
abbrev Move := State → Res

/-! ### Picks of a pipe (R345) -/

/-- What two groups are compared by: trap class, overdue and since when, issued last with a short run, age. -/
def pickRank (last : Option Nat) (lane : Bool) (e : Nat × Group) : Nat × Nat :=
  let g := e.2
  let due := if lane then g.dueL else g.dueS
  let run := if lane then g.runL else g.runS
  if g.tclass then (0, g.age)
  else match due with
    | some t => (1, t.toNat)
    | none => if last = some e.1 && decide (run < 64) then (2, 0) else (3, g.age)

/-- `a` is picked before `b`, or neither before the other. -/
def rankLe (a b : Nat × Nat) : Bool := decide (a.1 < b.1) || (a.1 = b.1 && decide (a.2 ≤ b.2))

/-- Inserts a candidate into a list in pick order. -/
def insertRank (f : Nat × Group → Nat × Nat) (e : Nat × Group) : List (Nat × Group) → List (Nat × Group)
  | [] => [e]
  | x :: r => if rankLe (f e) (f x) then e :: x :: r else x :: insertRank f e r

/-- Groups of a pipe in pick order. -/
def State.pickOrder (s : State) (q : Nat) (lane : Bool) : List Nat :=
  let p := s.pipe q
  let f := pickRank (if lane then p.lastL else p.lastS) lane
  let l := s.groups.filter (fun e => 4 * coreOf e.1 + e.2.pipe = q && (!lane || !e.2.laneQ.isEmpty))
  (l.foldr (fun e acc => insertRank f e acc) []).map (·.1)

/-- Whether a step leaves the machine as it was, but for the group that is named as executing. -/
def stays (s : State) : Res → Bool
  | .next t => { t with cur := s.cur } = s
  | _ => false

/-- A group's scalar stream is ready: its turn would do something. -/
def State.readyS (s : State) (k : Nat) : Bool := !(stays s (s.issueScalar k false))

/-- Notes since when the groups of a pipe have been ready in a stream and not issued (R345). -/
def State.markReady (s : State) (q : Nat) (lane : Bool) (ready : List Nat) : State :=
  let since (k : Nat) (t : Option DWord) : Option DWord := if ready.contains k then some (t.getD s.tsc) else none
  { s with groups := s.groups.map (fun e =>
      if 4 * coreOf e.1 + e.2.pipe = q then
        (e.1, if lane then { e.2 with rdyL := since e.1 e.2.rdyL } else { e.2 with rdyS := since e.1 e.2.rdyS })
      else e) }

/-- The pick of a pipe's scalar stream (R345). -/
def scalarMove (q : Nat) : Move := fun s =>
  let ready := (s.pickOrder q false).filter s.readyS
  let s := s.markReady q false ready
  match ready with
  | [] => .next s
  | k :: r => s.issueScalar k (!r.isEmpty)

/-! ### A core's lane-clock (R345 to R347) -/

/-- The head of group `k` as it stands. -/
def State.tryGroup (s : State) (k : Nat) : LaneTry :=
  let s : State := { s with cur := k }
  match find s.groups k with
  | none => .idle
  | some g => s.tryHead g

/-- A group's lane stream is ready: its head can issue, or its turn would do something. -/
def State.readyL (s : State) (k : Nat) : Bool :=
  match s.tryGroup k with
  | .idle => false
  | .act r => !(stays s r)
  | .go _ _ => true

/-- What a pipe does in a lane-clock. -/
inductive PipeDo where
  | nothing
  /-- Its lead takes no issue cycle. -/
  | act (k : Nat)
  /-- It offers an issue cycle of weight `w` for group `k`: one that it starts, or a further one of the instruction before. -/
  | offer (k w : Nat) (start : Option (Member × List Member))

/-- A pipe in one lane-clock, with whether more than one of its groups was ready. -/
structure PipeTurn where
  q    : Nat
  todo : PipeDo
  busy : Bool := false

/-- What pipe `q` does in this lane-clock, given its ready groups in pick order. -/
def State.turnOf (s : State) (q : Nat) (ready : List Nat) : PipeTurn :=
  let p := s.pipe q
  match p.rest with
  | w :: _ => { q := q, todo := if 0 < s.clocksSince q then .offer (s.restOf q) w none else .nothing }
  | [] =>
    if !(s.pipeFree q) then { q := q, todo := .nothing }
    else
      match ready with
      | [] => { q := q, todo := .nothing }
      | k :: r =>
        { q := q, busy := !r.isEmpty, todo := match s.memberOf k with
            | none => .act k
            | some m => let l := s.mates112 m; .offer k (firstWeight (cyclesOf m l)) (some (m, l)) }

/-- The order in which a core takes its candidates: the reserved one first, then ascending weight, then pipe (R347). -/
def offerKey (res : Option (Nat × Nat)) (x : PipeTurn) : Nat :=
  match x.todo with
  | .offer k w _ => if res.map (·.1) = some k then 0 else 1 + 4 * w + x.q % 4
  | _ => 0

/-- Inserts a turn in the order of its candidate. -/
def insTurn (f : PipeTurn → Nat) (x : PipeTurn) : List PipeTurn → List PipeTurn
  | [] => [x]
  | y :: r => if f x < f y then x :: y :: r else y :: insTurn f x r

/-- The candidates of a core are granted or refused in turn (R347): the pipes that start an issue cycle. -/
def State.grantTurns (s : State) : List PipeTurn → State × List Nat
  | [] => (s, [])
  | x :: r =>
    match x.todo with
    | .offer _ _ none => (s.takeRest x.q).grantTurns r
    | .offer k w (some _) =>
      if s.granted k w then
        let (s, l) := (s.debit k w x.q).grantTurns r
        (s, x.q :: l)
      else ({ s with groups := upd s.groups k (Group.refuse (some s.tsc)) } : State).grantTurns r
    | _ => s.grantTurns r

/-- What the pipes do takes effect, in the order of their numbers (R157). -/
def runTurns (go : List Nat) : List PipeTurn → State → Res
  | [], s => .next s
  | x :: r, s =>
    let res : Res := match x.todo with
      | .act k => (match s.tryGroup k with | .act r => r | _ => .next s)
      | .offer _ _ (some (m, l)) => if go.contains x.q then s.startCycle x.q m l x.busy else .next s
      | _ => .next s
    match res with
    | .next s => runTurns go r s
    | y => y

/-- Candidates that a pipe does not offer in this lane-clock are no longer refused without a break (R347). -/
def State.unrefuse (s : State) (x : PipeTurn) : State :=
  let lead : Option Nat := match x.todo with
    | .offer k _ (some _) => some k
    | _ => none
  { s with groups := s.groups.map (fun e =>
      if 4 * coreOf e.1 + e.2.pipe = x.q && lead ≠ some e.1 then (e.1, e.2.refuse none) else e) }

/-- One lane-clock of a core: each pipe picks its lead and fills its cycle, the core grants what its allowance covers, and the
granted cycles start (R345 to R347). -/
def laneMove (c : Nat) : Move := fun s =>
  let qs := [4 * c, 4 * c + 1, 4 * c + 2, 4 * c + 3]
  let s := qs.foldl (fun s q => s.carryOn q (s.clocksSince q - 1)) s
  let ready := qs.map (fun q => (q, (s.pickOrder q true).filter s.readyL))
  let turns := ready.map (fun e => s.turnOf e.1 e.2)
  let s := ready.foldl (fun s e => s.markReady e.1 true e.2) s
  let s := turns.foldl (fun s x => s.unrefuse x) s
  let key := offerKey (s.reservation c)
  let (s, go) := s.grantTurns (turns.foldl (fun l x => insTurn key x l) [])
  runTurns go turns s

/-! ### Moves of the device -/

/-- Places of a list. -/
def placesOf {α : Type} (l : List α) : List Nat := List.range l.length

/-- Moves of one group: data that return, queue fetches, held traps, timers. -/
def groupMoves (e : Nat × Group) : List Move :=
  let k := e.1
  [execTrapEntry k, execHandlerBudgetExpiry k, execAwaitRecheck k, execNapExpiry k, execLoadDataReturn k 0,
    execAtomicAtPlace k 0, execLongWait k]
  ++ e.2.opq.map (fun o => execPatternElementFetch k (BitVec.ofNat 3 o.1))
  ++ (if e.2.dueS.isNone then [execGroupOverdue k false] else [])
  ++ (if e.2.dueL.isNone then [execGroupOverdue k true] else [])

/-- A drain limit that has passed (R321). -/
def drainMove (c ch : Nat) : Move := fun s =>
  match (find s.teams (s.chan c ch).team).bind (·.drain) with
  | some d => if d.toNat ≤ s.tsc.toNat && (s.chan c ch).st = .running && !(s.chan c ch).squash then execCopyDrainExpiry c ch s else .next s
  | none => .next s

/-- Moves of one core: its copy channels, gathers, clocks and reservations. -/
def coreMoves (e : Nat × Core) : List Move :=
  let c := e.1
  e.2.chans.flatMap (fun k => [drainMove c k.1, execCopyRecordFetch c k.1, execCopyOwnRecheck c k.1,
    execCopyRecordRegister c k.1, execCopyRecordComplete c k.1])
  ++ e.2.gathers.flatMap (fun h => [execGatherWindowExpiry c h.1, execGatherLaunch c h.1])
  ++ [execClockChangeDone c] ++ ([0, 1, 2, 3].map (fun p => execPowerReserve c p))

/-- A pre-emption under way goes on (R321, R419). -/
def preemptMove (t : Nat) : Move := fun s =>
  match (find s.teams t).bind (·.stop), (find s.teams t).bind (·.drain) with
  | some p, _ =>
    if (find s.teams p).isSome then execPreempt p s
    else .next { s with teams := upd s.teams t (fun x => { x with stop := none }) }
  | none, some _ => execPreempt t s
  | none, none => .next s

/-- Moves of one team: rollbacks, cycle limits, pre-emption, the release of its seat. -/
def teamMoves (e : Nat × Team) : List Move :=
  let t := e.1
  [execAlternateRollback t, preemptMove t, execSeatRelease t]
  ++ (placesOf e.2.levels).map (fun n => execCycleLimitExpiry t (n + 1))

/-- The first instance in order of acceptance that a core takes is seated on the first such core (R331).
DESIGN CHOICE (log 49). -/
def admitMove : Move := fun s =>
  let l := s.launches.flatMap (fun e => (unseated e.2).map (fun n => (e.1, n)))
  match l.find? (fun e => s.placeable e && !((s.earlier e.1 e.2).any s.placeable)) with
  | none => .next s
  | some (l, k) =>
    match s.liveCores.find? (fun c => (s.seatInst l k c).isSome) with
    | some c => execTeamAdmit l k c s
    | none => .next s

/-- A saved team is restored on the first core that takes it (R421); one that `ctxsv` saved waits for its `ctxld` (R437). -/
def restoreMove (n : Nat) : Move := fun s =>
  match s.saved[n]? with
  | none => .next s
  | some sv =>
    if sv.hash.isSome then .next s
    else
      match s.liveCores.find? (fun c => (s.restoreSave sv c).isSome) with
      | some c => execRestore n c s
      | none => .next s

/-- The packet at HEAD of a channel is performed (R450 to R453). DESIGN CHOICE (log 98). -/
def packetMove (ch : Nat) : Move := fun s =>
  match s.nextPkt ch with
  | some (.ok h b) =>
    (match b with
     | .ctx a => execCtxPkt h a s
     | .launch a => execLaunchPkt h a s
     | .graph a => execGraphPkt h a s
     | .quiesce => execQuiescePkt h s
     | .hreply rid x y => execHreplyPkt h rid x y s
     | .fdone rid f => execFdonePkt h rid f s
     | .region 0 r p c d => execRegionMapPlain h r p c d s
     | .region 1 r p c d => execRegionMapVersioned h r p c d s
     | .region 2 r _ _ _ => execRegionUnmap h r s
     | .region 3 r p _ _ => execRegionRejoinFlush h r p s
     | .region _ r p _ _ => execRegionRejoinDiscard h r p s
     | .devcfg f b n => execDevcfgPkt h f b n s
     | .attest n r => execAttestPkt h n r s
     | .fwupd a n sl => execFwupdPkt h a n sl s)
  | _ => .next s

/-- Moves of the command processor (R450 to R461). -/
def State.hostMoves (s : State) : List Move :=
  s.chs.map (fun e => packetMove e.1)
  ++ s.graphs.flatMap (fun e => (placesOf e.2.edges).map (fun n => execGraphEdgeSatisfy e.1 n))
  ++ s.ctxs.map (fun e => execQuiescePoint e.1)
  ++ [admitMove, fun s => .next s.unitFails]
  ++ (placesOf s.saved).map restoreMove
  ++ (placesOf s.retireQ).flatMap (fun n => [execRetireApply n, execRetireTimeout n])

/-- Moves of the memory system and of pool regions (R288, R343, R448). -/
def State.memoryMoves (s : State) : List Move :=
  [execHomeStoreTest 0, execStoreAcknowledgement 0, eccMove]
  ++ s.slices.flatMap (fun e => e.2.watches.map (fun w => execWatchTriggerDeliver (e.1 / 64) (e.1 % 64) w.1))
  ++ s.regions.flatMap (fun e => (e.2.strand.filter (fun x => !x.heldBack)).map (fun x => execRejoinLineWritten e.1 x.line))

/-- Steps that a millisecond of the timestamp counter brings (R448, R471). DESIGN CHOICE (log 79). -/
def State.tickMoves (s : State) : List Move := [execDeadlockWalk] ++ s.regions.map (fun e => execStrandedFlushRetry e.1)

/-- Turns of the pipes and cores that hold groups. -/
def State.pickMoves (s : State) : List Move :=
  ((s.groups.map (fun e => coreOf e.1)).eraseDups).map laneMove
    ++ ((s.groups.map (fun e => 4 * coreOf e.1 + e.2.pipe)).eraseDups).map scalarMove

/-- Every move that the device may take of its own. -/
def State.moves (s : State) : List Move :=
  s.memoryMoves ++ s.groups.flatMap groupMoves ++ s.teams.flatMap teamMoves ++ s.cores.flatMap coreMoves
    ++ s.hostMoves ++ s.pickMoves

/-- The first move of a list that does something; when none does, only time passes. -/
def firstMove (s : State) : List Move → Res
  | [] => .next s
  | m :: r => if stays s (m s) then firstMove s r else m s

/-- A list begun at another place. -/
def rotate {α : Type} (n : Nat) (l : List α) : List α := l.drop (n % l.length) ++ l.take (n % l.length)

/-- Every move of a list is taken in turn. -/
def allMoves (s : State) : List Move → Res
  | [] => .next s
  | m :: r =>
    match m s with
    | .next s => allMoves s r
    | x => x

/-- The device moves of its own, a millisecond's steps first. The choice among moves that the manual leaves to timing goes
round with the timestamp counter. DESIGN CHOICE (log 3). -/
def State.ownMove (s : State) (ms : Bool) : Res :=
  match allMoves s (if ms then s.tickMoves else []) with
  | .next t => if t = s then firstMove s (rotate s.tsc.toNat s.moves) else .next t
  | x => x

/-! ### A step -/

/-- Time passes before a step (R21). DESIGN CHOICE (log 4). DESIGN CHOICE (log 5). -/
def State.tick (s : State) : State := ({ s with elapsed := s.elapsed.tail } : State).pass (s.elapsed.headD 1)

/-- What an agent named by the agenda does. DESIGN CHOICE (log 78). -/
def State.act (s : State) : Action → Res
  | .scalar k => s.issueScalar k false
  | .lane k => s.issueLane k false
  | .event i => exec i s

/-- One step: time passes, then the next agent of the agenda moves, or the device of its own. -/
def State.stepNow (s : State) : Res :=
  let t := s.tick
  match t.agenda with
  | a :: r => ({ t with agenda := r } : State).act a
  | [] => t.ownMove (decide (s.tsc.toNat / 1000000 ≠ t.tsc.toNat / 1000000))

end Sys2Proof.Machine
end

