-- ==== Sys2Proof/Machine/Load.lean ====
section
/-! DEFINITION. Placing one instruction where the next step runs it: the load of a program from outside the machine, cut down
to one instruction (log 2). -/

namespace Sys2Proof.Machine

open Sys2Proof

/-- A launch of one team of one group of width 8, in context 1 with a trap vector, admitted on core 0. -/
def State.withLaunch (s : State) : State :=
  let u := s.nextUid
  let L : Launch := { ctx := 1, desc := { entry := 0x10000, lbase := 0x20000 }, left := 1 }
  let cx := (find s.ctxs 1).getD { frameB := 0x40000, spillB := 0x50000, tvb := 0x30000 }
  let s1 : State := { s with nextUid := u + 1, launches := put s.launches u L, ctxs := put s.ctxs 1 { cx with halted := none } }
  match s1.seatInst u 0 0 with
  | some t => { t with cur := 0 }
  | none => s

/-- The group that executes, or else a new one. -/
def State.withGroup (s : State) : State :=
  match find s.groups s.cur with
  | some _ => s
  | none => s.withLaunch

/-- Nothing holds the executing group's streams back: no trap pending, no window open, no stop of its core. -/
def State.unheld (s : State) : State :=
  let c := coreOf s.cur
  let f (g : Group) : Group :=
    { g with pend := [], winS := [], winL := [], infl := [], stopReq := false, stopd := false, frozen := false
             bank := none, relW := false, leaving := none, fbuf := [] }
  let clear (k : Chan) : Chan := { k with again := false }
  let s := [0, 1, 2, 3].foldl (fun s p => s.setPipe (4 * c + p) { s.pipe (4 * c + p) with rest := [], cycT := none }) s
  let t := ({ s with groups := upd s.groups s.cur f } : State).setCore c { s.core c with
    chgClk := none, chans := (s.core c).chans.map (fun e => (e.1, clear e.2)) }
  { t with dies := sset {} t.dies (c / 64) { t.die (c / 64) with tstop := false } }

/-- The physical page of 1 GiB that holds a placed instruction: near memory of the core's die (R203). -/
def placedPage (c : Nat) : Nat := c / 64 * 2 ^ 32

/-- A TLB entry that maps the 1 GiB page of an address, with every permission. -/
def placedEntry (c ctx va : Nat) : TlbEnt :=
  { ctx := ctx, vpn := va / 2 ^ 30, size := 2 ^ 30, pa := placedPage c, w := true, x := true, prg := true, mt := false, d := true }

/-- A scalar word stands at the PC of the executing group, in a page that its core's TLB maps. -/
def State.placeScalar (s : State) (w : Word) : State :=
  let s := s.withGroup.unheld
  match find s.groups s.cur with
  | none => s
  | some g =>
    let c := coreOf s.cur
    let va := g.pc.toNat % 2 ^ 57
    let s := (s.tlbInsert c (placedEntry c (s.ctxId g) va)).setBytes (placedPage c + va % 2 ^ 30) (bytesOf w.toNat 4)
    { s with agenda := [.scalar s.cur] }

/-- A lane word is the only entry of the executing group's lane queue; 1,000 ns pass, in which the power allowance
fills. -/
def State.placeLane (s : State) (w : BitVec 96) : State :=
  let s := s.withGroup.unheld
  match find s.groups s.cur with
  | none => s
  | some g =>
    let c := coreOf s.cur
    let s := s.tlbInsert c (placedEntry c (s.ctxId g) (g.pc.toNat % 2 ^ 57))
    { s with groups := put s.groups s.cur { g with laneQ := [mkEntry g w 0] }
             agenda := [.lane s.cur]
             elapsed := [1000] }

end Sys2Proof.Machine
end

