-- ==== Sys2Proof/Machine/Step.lean ====
section
/-! DEFINITION. The step function. -/

namespace Sys2Proof.Machine

open Sys2Proof

/-- One step of the module: the agent that moves next does its part. -/
def step (s : State) : Host.Outcome State Fault Refusal := s.stepNow

/-- The instruction with bits `w` placed where the next step fetches: a scalar word at the PC, a lane word at the head of
the lane queue. -/
def State.withFetchWord (s : State) (nbits w : Nat) : State :=
  if nbits ≤ 32 then s.placeScalar (BitVec.ofNat 32 w) else s.placeLane (BitVec.ofNat 96 w)

end Sys2Proof.Machine
end

