-- ==== Sys2Proof/Safety.lean ====
section
/-! DEFINITION. What the claims call a machine in order, a step that goes on, and the states that instructions leave. -/

namespace Sys2Proof.Machine

open Sys2Proof

/-- What a scalar word decodes to. -/
def decoded (w : Word) : Option Instr := (decodeScalar w).toOption

/-- The word of shape SA (R37). -/
def wordSA (op : BitVec 7) (d a b : BitVec 6) (fn : BitVec 7) : Word := op ++ d ++ a ++ b ++ fn

/-- The word of shape SI (R37), with `imm13`, and of shape SB, with `xa`, `xb` and `off13`. -/
def wordSI (op : BitVec 7) (d a : BitVec 6) (i : BitVec 13) : Word := op ++ d ++ a ++ i

/-- The outcome is a next state: the machine has neither stopped nor been refused. -/
def goesOn (r : Res) : Bool :=
  match r with
  | .next _ => true
  | _ => false

/-- A next state has a property; a fault and a refusal have every property. -/
def afterwards (r : Res) (P : State → Prop) : Prop :=
  match r with
  | .next s => P s
  | _ => True

/-- The memory is in its canonical form. -/
def State.tidy (s : State) : Bool := Memory.wf s.mem

/-- A scalar instruction has run to its end: the issuing group is as `g` says, its PC stands at the next instruction and it
waits for nothing. -/
def ends (s : State) (g : Group) : Res := .next (s.setGrp { g with pc := g.pc + 4, wf := {}, waitN := none })

/-- A scalar instruction has run to its end and the issuing group goes on at `a`. -/
def endsAt (s : State) (g : Group) (a : DWord) : Res := .next (s.setGrp { g with pc := a, wf := {}, waitN := none })

/-- A release at scope number `sc` has nothing left to wait for: no lane instruction is queued or in flight, no lost pool
region is awaited, and every access of the group is performed at the scope (R248). -/
def State.releasable (s : State) (g : Group) (sc : Nat) : Prop :=
  g.laneBusy = false ∧ (s.pushOut s.cur sc).lostAck (s.pushOut s.cur sc).cur sc = none
    ∧ (s.pushOut s.cur sc).performed (s.pushOut s.cur sc).cur g sc = true

/-- What such a release leaves: the words its scope needs are written back and the vectors are published (R242, R285). -/
def State.releasedAt (s : State) (sc : Nat) : State := (s.pushOut s.cur sc).publishVec (s.pushOut s.cur sc).cur sc

/-- `i` is the lane instruction with fields `o` at the head of the acting group's lane queue, with the operand-queue entries
that it pops at hand (R41). -/
def LaneIn.atHead (i : LaneIn) (s : State) (o : LaneOp) : Prop :=
  s.grp = some i.g ∧ i.o = o ∧ i.g.laneQ.head? = some i.e ∧ popHeads i.g (queuesOf o) = .ok i.heads

/-- A lane instruction has run to its end (R116): `vd` holds `f l` in each active lane `l`. -/
def LaneIn.writes (i : LaneIn) (s : State) (f : Nat → Word) : Res :=
  .next (i.after s (fun g => g.setLanes i.vd i.act f))

/-- The destination of an instruction that computes one scalar register from registers and its own PC (R83 to R90). -/
def scalarDest : Instr → Option XReg
  | .add d _ _ | .sub d _ _ | .and d _ _ | .or d _ _ | .xor d _ _ | .andn d _ _ | .shl d _ _ | .shr d _ _ | .sar d _ _
  | .rol d _ _ | .min d _ _ | .max d _ _ | .minn d _ _ | .maxn d _ _ | .mul d _ _ | .mulh d _ _ | .mulhn d _ _
  | .div d _ _ | .divn d _ _ | .rem d _ _ | .remn d _ _ | .seq d _ _ | .sne d _ _ | .slt d _ _ | .sltn d _ _
  | .sle d _ _ | .slen d _ _ | .sel d _ _ _ => some d
  | .clz d _ | .ctz d _ | .popc d _ | .sextI8 d _ | .sextI16 d _ | .sextI32 d _ | .zextN8 d _ | .zextN16 d _
  | .zextN32 d _ => some d
  | .addi d _ _ | .andi d _ _ | .ori d _ _ | .xori d _ _ | .lih d _ _ | .adr d _ _ => some d
  | .shli d _ _ | .shri d _ _ | .sari d _ _ => some d
  | .adrpc d _ => some d
  | _ => none

/-- The fields of a lane instruction that writes vd in each active lane from that lane's operands (R116). -/
def vectorOp : Instr → Option LaneOp
  | .vand o | .vor o | .vxor o | .vandn o | .vclz o | .vpopc o | .vbfi o | .crt o | .rwadd o | .rwfrom o => some o
  | .vadd _ _ o | .vsub _ _ o | .vmad _ _ o | .vabs _ _ o | .vaddmin _ _ o | .vaddmax _ _ o => some o
  | .vmul _ o | .vmulh _ o | .vshl _ o | .vshr _ o | .vsar _ o | .vmin _ o | .vmax _ o | .vbfx _ o | .vsad _ o => some o
  | .vsel _ o | .fmin _ o | .fmax _ o | .frcp _ o | .frsq _ o | .fsqrt _ o | .fexp2 _ o | .flog2 _ o => some o
  | .fadd _ _ o | .fsub _ _ o | .fmul _ _ o | .ffma _ _ o | .fint _ _ o | .sbcvt _ _ o => some o
  | .vcvt _ _ _ _ _ o | .fcvt _ _ _ _ _ _ o => some o
  | _ => none

/-- One byte of a team's scratchpad; absent teams have none. -/
def State.spadByte (s : State) (t b : Nat) : Option Byte := (find s.teams t).map (fun m => m.spadByte b)

end Sys2Proof.Machine
end

