-- ==== Sys2Proof/Certificates/Slice0/Obligations.lean ====
section
/-! DEFINITION. The statements about the model, each a proposition that formalises rules of the specification. -/

open Sys2Proof Sys2Proof.Machine

/-! ### The machine as a whole -/

/-- R14, R20, R450, R473 and R479, with the register maps of R122, R162, R321, R338, R377, R472 and R477: what module reset
leaves.
Model's choices it rests on: log 1, 2, 4. -/
def Obligations.ResetState : Prop :=
  let s := State.reset
  s.live = 1 ∧ s.reduced = true ∧ s.cpDie = 0 ∧ s.hostDie = 0 ∧ s.wdcfg = 10
  ∧ s.groups = [] ∧ s.teams = [] ∧ s.ctxs = [] ∧ s.launches = [] ∧ s.tidy = true
  ∧ (∀ c, s.ratioNow c = .half ∧ (s.core c).ratio = .equal ∧ (s.core c).l1 = [] ∧ (s.core c).allow = 0
    ∧ (s.core c).refill = 153 ∧ (s.core c).hwdef = true ∧ (s.core c).droop = false ∧ (s.core c).gated = false
    ∧ (s.core c).cpcfg = 100 ∧ (s.core c).tgcfg = 256
    ∧ (s.core c).sepcfg = 16384)
  ∧ (∀ p, (s.pipe p).psteer = 0 ∧ (s.pipe p).pchklog = 0 ∧ (s.pipe p).poctlog = 0 ∧ (s.pipe p).sampW = 0)
  ∧ (∀ d, (s.die d).pgcfg = 100 ∧ (s.die d).tstop = false)
  ∧ (∀ c, let h := s.hostCh c
    h.sqbase = 0 ∧ h.sqlog = 0 ∧ h.cqbase = 0 ∧ h.cqlog = 0 ∧ h.tail = 0 ∧ h.head = 0 ∧ h.cqtail = 0 ∧ h.cqhead = 0
      ∧ h.en = false)

/-- R37 to R54: the bytes of every well-formed instruction that has an encoding decode to it, and bytes that decode are those
of the well-formed instruction they give. -/
def Obligations.DecodeEncode : Prop :=
  (∀ (i : Instr) (st : Stream) (r : List Byte), i.wf = true → i.stream = some st → decode st (i.bytes ++ r) = .ok (i, r))
  ∧ (∀ (st : Stream) (bs r : List Byte) (i : Instr), decode st bs = .ok (i, r) →
    i.wf = true ∧ i.stream = some st ∧ bs = i.bytes ++ r)

/-- Words of each major and of the lane families, written out from the encodings of R37 to R54. -/
def Obligations.DecodedWords : Prop :=
  decodeTableWord 32 0x40287ffc = some (.addi 5 3 (-4))
  ∧ decodeTableWord 32 0x66381ff8 = some (.bne 7 0 (-8))
  ∧ decodeTableWord 32 0x80212402 = some (.ldx 4 9 2 2)
  ∧ decodeTableWord 32 0xa0300005 = some (.lrun 6 5)
  ∧ decodeTableWord 32 0x94212283 = some (.amo .add .dev 4 9 5)
  ∧ decodeTableWord 32 0xe0000005 = some (.trap 5)
  ∧ decodeTableWord 32 0xe6000000 = some .rti
  ∧ decodeTableWord 32 0xe6000011 = none
  ∧ decodeTableWord 96 0x01b02007_00000001_02000000 =
      some (.vcmp .lt .i32 { d := 2, a := .v 1, b := .imm, c := .v 0, km := .all, la := 0, imm := 0 })
  ∧ decodeTableWord 96 0x1030a009_01816c10_00000000 =
      some (.ffma .f32 .ne { d := 10, a := .v 2, b := .q 1, c := .x 5, km := .off 3, la := 0, imm := 0 })
  ∧ decodeTableWord 96 0x38004826_40000083_04000040 =
      some (.vld .b32 { sc := 2, un := false } { d := 4, a := .x 9, b := .lid, c := .v 0, km := .all, la := 2, imm := 64 })

/-- R22, R49, R56 and R57: a step whose agent is a group's scalar stream runs the instruction that the word at its PC decodes
to, and raises 0x01 where it decodes to none; the word is the one in memory, unless the fetch buffer holds another. A group that
is entering a handler goes on with that instead. A step whose agent is a lane stream runs the instruction at the head of the lane
queue, once the pipe is free and its power allowance grants the first issue cycle.
The clauses that run the instruction on the state in which Sepia has captured the registers that it writes (`captureRegs`) are the
model's choice of when it captures them, log 66.
Model's choices it rests on: log 3, 4, 66, 67, 96, 116, 124. -/
def Obligations.StepRuns : Prop :=
  (∀ (s u : State) (k : Nat) (r : List Action) (g : Group) (w : Word), s.tick.agenda = .scalar k :: r →
    let t : State := { s.tick with agenda := r, cur := k }
    t.grp = some g →
    let up := t.coreIssues (coreOf k) = true ∧ g.stopd = false
    let free := g.entry = none ∧ t.mayIssue k g = true ∧ (g.pend = [] ∨ g.tclass = true)
    (g.midway = false → free → g.leaving = some g.tclass → step s = execExit t)
    ∧ (g.midway = false → g.entry ≠ none → up → g.stopReq = false → step s = .next (t.stepEntry k))
    ∧ ((g.midway = true ∧ up ∨ free ∧ g.leaving ≠ some g.tclass) → t.fetchWord k g g.pc = .ok u w →
      let b := u.buffered g g.pc w
      let h := g.fetched g.pc b.2
      let v : State := { b.1 with groups := put b.1.groups k h }
      ((∀ e ∈ g.fbuf, e.1 = g.pc → e.2 = w) → b = (u, w))
      ∧ (∀ e, decodeScalar b.2 = .error e → step s = raise v 0x01 0 0)
      ∧ (∀ i y, decodeScalar b.2 = .ok i →
        let rs := if h.winS.isEmpty && h.infl.isEmpty then setsOf i else v.setsAt v.cur h i
        (∀ x ∈ h.winS, x.hits rs = false) → stalls h rs = false → v.waitsAtIssue v.cur h i = false →
        (v.depth h.seat = 0 ∨ v.writesNow h i = false → y = v) →
        (v.depth h.seat ≠ 0 → v.writesNow h i = true → v.captureRegs v.cur h rs.dests = some y) →
        step s = match exec i y with
          | .next x => .next (match find x.groups y.cur with
            | some j => if y.overRequests x (coreOf y.cur) then y
              else if ranScalar i h j then x.noteScalar y.cur rs (yields j i) (lookaheadOf i) false else x
            | none => x)
          | .fault f => .fault f
          | .refused f => .refused f)))
  ∧ (∀ (s : State) (k : Nat) (r : List Action) (g : Group) (e : LaneEntry) (q : List LaneEntry),
    s.tick.agenda = .lane k :: r →
    let t : State := { s.tick with agenda := r, cur := k }
    let p := 4 * coreOf k + g.pipe
    t.grp = some g → g.laneQ = e :: q → t.pipeFree p = true → t.mayIssue k g = true → g.frozen = false →
    (∀ x, decodeLane e.bits = .error x → step s = raiseLane t g e 0x01 0 0)
    ∧ (∀ i y, decodeLane e.bits = .ok i →
      let rs := setsOf i
      t.unserved g i = false → (∀ y ∈ g.winL, y.hits rs = false) → outOfRange g rs = none → stalls g rs = false →
      t.waitsAtIssue k g i = false → exec i t = .next y →
      t.overRequests y (coreOf k) = false →
      (ranLane g y k = false → step s = .next y)
      ∧ (ranLane g y k = true →
        let l := t.mates112 (k, g, e, i)
        let cs := cyclesOf (k, g, e, i) l
        (t.granted k (firstWeight cs) = false →
          step s = .next { t with groups := upd t.groups k (Group.refuse (some t.tsc)) })
        ∧ (t.granted k (firstWeight cs) = true → l = [] → (t.ctxOf g).chk = 0 →
          let d := t.debit k (firstWeight cs) p
          let c := d.setPipe p { d.pipe p with
            cycT := some d.tsc, restR := none, rest := (cs.flatMap (fun x => x.map (·.2))).tail }
          ∀ z a x, exec i c = .next z → c.overRequests z (coreOf k) = false → ranLane g z k = true →
            c.captureRegs k g (writtenRegs g e i rs) = some a → exec i a = .next x →
            step s = .next (x.noteLane a.cur { lead := k, prev := (d.pipe p).lastL } i rs false)))))

/-- R5 and R203: memory as a table of bytes. A byte written is read back and every other stays; a word written is read back
and every other word stays; two memories in canonical form that read alike are equal.
Model's choices it rests on: log 1. -/
def Obligations.MemoryBytes : Prop :=
  ∀ (s t : State),
    (∀ a b c, (s.setByte a b).byte c = if c = a then b else s.byte c)
    ∧ (∀ w v c, (s.setWord w v).word c = if c = w then v else s.word c)
    ∧ (∀ a l c, (s.setBytes a l).byte c = if a ≤ c ∧ c < a + l.length then l.getD (c - a) 0 else s.byte c)
    ∧ (s.tidy = true → t.tidy = true → (∀ a, s.byte a = t.byte a) → s.mem = t.mem)

/-- R58 and R101: the register files. x0 reads 0 and discards writes; k0 is the live lanes and cannot be written; a mask register
holds nothing at or above the group width; a write changes the one register, or the one lane of one vector register, it names. -/
def Obligations.RegisterFiles : Prop :=
  ∀ (g : Group),
    g.x 0 = 0 ∧ g.k 0 = g.k0
    ∧ (∀ (r q : XReg) (v : DWord), (g.setX r v).x q = if q = r ∧ r ≠ 0 then v else g.x q)
    ∧ (∀ (r q : KReg) (v : DWord), (g.setK r v).k q = if q = r ∧ r ≠ 0 then v &&& g.wMask else g.k q)
    ∧ (∀ j < 64, g.wMask.getLsbD j = decide (j < g.gw))
    ∧ (∀ (r q l m : Nat) (w : Word), l < 64 → m < 64 → (g.setV r l w).v q m = if q = r ∧ m = l then w else g.v q m)
    ∧ (∀ (r q l : Nat) (m : DWord) (f : Nat → Word), l < 64 →
      (g.setLanes r m f).v q l = if q = r ∧ m.getLsbD l = true then f l else g.v q l)

/-- What the instructions that compute one scalar register leave alone (R83 to R90): every other scalar register, every other
register of the group, every other group, and all of memory, scratchpad, caches and control state. That the group's row of the
wait-for table is cleared for both its streams is the model's choice (log 168).
Model's choices it rests on: log 168. -/
def Obligations.ScalarFrame : Prop :=
  ∀ (s t : State) (g : Group) (i : Instr) (d : XReg), scalarDest i = some d → s.grp = some g → exec i s = .next t →
    ∃ h, t.grp = some h ∧ (∀ r, r ≠ d → h.x r = g.x r)
      ∧ h = { g with xs := h.xs, pc := g.pc + 4, wf := {}, waitN := none }
      ∧ (∀ k, k ≠ s.cur → find t.groups k = find s.groups k)
      ∧ (∀ a, t.byte a = s.byte a) ∧ (∀ m b, t.spadByte m b = s.spadByte m b)
      ∧ t = { s with groups := t.groups }

/-- What the instructions that write vd lane by lane leave alone (R116): every other vector register, the inactive lanes of vd,
every scalar and mask register, every other group and all of memory. Only what the popped queue entries bring may change
beside: range locks, and the poison records of R391. The row of the wait-for table, one for both streams, is the model's choice
(log 168).
Model's choices it rests on: log 168. -/
def Obligations.LaneFrame : Prop :=
  ∀ (s t : State) (i : LaneIn) (o : LaneOp) (n : Instr), vectorOp n = some o → i.atHead s o → exec n s = .next t →
    ∃ h, t.grp = some h
      ∧ (∀ r l, l < 64 → (r ≠ i.vd ∨ i.act.getLsbD l = false) → h.v r l = i.g.v r l)
      ∧ h = { i.g with vs := h.vs, laneQ := i.g.laneQ.tail, opq := h.opq, wf := h.wf }
      ∧ (∀ k, k ≠ s.cur → find t.groups k = find s.groups k)
      ∧ (∀ a, t.byte a = s.byte a) ∧ (∀ m b, t.spadByte m b = s.spadByte m b)
      ∧ (∀ c, t.core c = { s.core c with locks := (t.core c).locks })
      ∧ t = { s with groups := t.groups, cores := t.cores, ctxs := t.ctxs, teams := t.teams }
      ∧ ((∀ e ∈ i.heads, e.2.pois = false) → t.ctxs = s.ctxs ∧ t.teams = s.teams)
      ∧ (i.heads = [] → t.cores = s.cores)

/-- Where a store goes and what it leaves alone (R102, R211, R242, R243, R264): the scalar stores and atomics, at the address
that their operand gives. An uncached store changes the bytes it names; a cached one, in an L1 that has room for its line and
holds its words, if at all, as copies or as the group's own dirty words, changes no byte at its home, but for its own words where the
L1 holds one of the two registered, and no other word of an L1; what a store's bytes read back as is said by `ScalarStores`; a scratchpad store or atomic changes the scratchpad bytes it names; an atomic on memory, with no registration on its way,
the word it names. Other groups keep their registers: a store of theirs that is tested on the way may leave a pending trap.
Model's choices it rests on: log 1. -/
def Obligations.StoreFrame : Prop :=
  ∀ (s t : State) (g : Group) (d a b : XReg) (i : BitVec 9) (n : Nat), s.grp = some g → (n = 4 ∨ n = 8) →
    let va : DWord := BitVec.ofInt 64 ((g.x a).toInt + i.toInt * n)
    let v := (g.x d).toNat % 2 ^ (8 * n)
    let ownRegs : Prop := (∃ h, t.grp = some h ∧ h.xs = g.xs ∧ h.vs = g.vs ∧ h.ks = g.ks ∧ h.k0 = g.k0 ∧ h.act = g.act
        ∧ h.pc = g.pc + 4)
      ∧ ∀ k f, k ≠ s.cur → find s.groups k = some f → ∃ h, find t.groups k = some h ∧ h = { f with pend := h.pend }
    (∀ s1 s3 pa mt, exec (if n = 8 then .stx d a i else .stxB32 d a i) s = .next t →
      s.chkGlobal s.cur g va n n true true = .ok s1 pa mt → s1.pageParked (coreOf s1.cur) (s1.ctxId g) va = false →
      s1.atomHit s1.cur va n = false →
      let c := s1.countAcc s1.cur (pathOfPa pa)
      c.2.storeN c.2.cur va pa n v c.1 mt { pc := g.pc } = some s3 →
      ownRegs ∧ (∀ m x, t.spadByte m x = s1.spadByte m x)
      ∧ (mt = true → (∀ x, (x < pa ∨ pa + n ≤ x) → t.byte x = s1.byte x) ∧ ∀ k w, t.l1At k w = s1.l1At k w)
      ∧ (mt = false →
        ((linesOf (s1.core (coreOf s1.cur)).l1).contains (pa / 128) = true
          ∨ (linesOf (s1.core (coreOf s1.cur)).l1).length < s1.l1Cap (coreOf s1.cur)) →
        (∀ w, (w = pa / 4 ∨ (n = 8 ∧ w = pa / 4 + 1)) → ∀ x, s1.l1At (coreOf s1.cur) w = some x →
          l1Visible x (s1.groupConv s1.cur) = true
          ∧ (x.mask = 0 ∨ (x.dot.serial = g.vv.own.serial ∧ x.hid = s1.hidTag g.seat (pa / 4)))) →
        let kept (w : Nat) : Prop := ∃ x, s1.l1At (coreOf s1.cur) w = some x ∧ x.mask ≠ 0 ∧ x.reg = true
        (pa % 4 = 0 → ∀ x, (x < pa ∨ pa + n ≤ x) → t.byte x = s1.byte x)
        ∧ ((n = 8 → (kept (pa / 4) ↔ kept (pa / 4 + 1))) → ∀ x, t.byte x = s1.byte x)
        ∧ ∀ k w x, (k ≠ coreOf s1.cur ∨ (w ≠ pa / 4 ∧ (n = 8 → w ≠ pa / 4 + 1))) → s1.l1At k w = some x →
          t.l1At k w = some x))
    ∧ (∀ s1 u o, exec (if n = 8 then .stxs d a i else .stxsB32 d a i) s = .next t → s.chkSpad g va n true = .ok u o →
      s.spadAtomHit g u o n = false → s.storeSpad g.seat u o n v = some s1 →
      ownRegs ∧ (∀ x, t.byte x = s.byte x) ∧ (∀ k, t.core k = s.core k)
      ∧ ∀ m x, (m ≠ u ∨ x < o ∨ o + n ≤ x) → t.spadByte m x = s.spadByte m x)
    ∧ (∀ (op : AtomOp) (sc : Scope) s1 old u o, scopeNum sc < 2 → g.late = false → exec (.amo op sc d a b) s = .next t →
      s.chkSpadAtom g (g.x a) = .ok u o →
      s.atomSpad g.seat u o op (amoTy op) ((g.x b).truncate 32) ((g.x d).truncate 32) = some (s1, old) →
      (∀ x, t.byte x = s.byte x) ∧ ∀ m x, (m ≠ u ∨ x < o ∨ o + 4 ≤ x) → t.spadByte m x = s.spadByte m x)
    ∧ (∀ (op : AtomOp) (sc : Scope) s1 s2 old cnt pa mt, 2 ≤ scopeNum sc → g.late = false →
      exec (.amo op sc d a b) s = .next t → s.chkOrdered s.cur g (g.x a) 4 true (scopePermits sc op) = .ok s1 pa mt →
      s1.parkedHit s1.cur (g.x a) 4 = false → s1.regQ = [] →
      s1.atomGlobal s1.cur (g.x a) (pa / 4) op (amoTy op) ((g.x b).truncate 32) ((g.x d).truncate 32) = some (s2, old, cnt) →
      (∀ x, x / 4 ≠ pa / 4 → t.byte x = s1.byte x) ∧ ∀ m x, t.spadByte m x = s1.spadByte m x)

/-- Every step keeps the memory in its canonical form: its entries rise in address, and none holds the value that an unlisted
byte reads as (log 1).
Model's choices it rests on: log 1. -/
def Obligations.StepKeepsMemory : Prop :=
  ∀ s t : State, s.tidy = true → step s = .next t → t.tidy = true

/-! ### Scalar arithmetic -/

/-- R83: major 0x01 encodes fourteen rows and no other; each writes its value to xd and goes on at the next instruction; shift
counts are xb[5:0]. -/
def Obligations.IntegerRows : Prop :=
  (∀ (d a b : XReg) (f : BitVec 7), decoded (wordSA 0x01 d a b f) = match f.toNat with
    | 0x00 => some (.add d a b) | 0x01 => some (.sub d a b) | 0x02 => some (.and d a b) | 0x03 => some (.or d a b)
    | 0x04 => some (.xor d a b) | 0x05 => some (.andn d a b) | 0x06 => some (.shl d a b) | 0x07 => some (.shr d a b)
    | 0x08 => some (.sar d a b) | 0x09 => some (.rol d a b) | 0x0a => some (.min d a b) | 0x0b => some (.max d a b)
    | 0x0c => some (.minn d a b) | 0x0d => some (.maxn d a b) | _ => none)
  ∧ ∀ (s : State) (g : Group) (d a b : XReg), s.grp = some g →
    let x := g.x a
    let y := g.x b
    let c := y.toNat % 64
    let res (v : DWord) := ends s (g.setX d v)
    exec (.add d a b) s = res (BitVec.ofInt 64 (x.toInt + y.toInt))
    ∧ exec (.sub d a b) s = res (BitVec.ofInt 64 (x.toInt - y.toInt))
    ∧ exec (.and d a b) s = res (x &&& y)
    ∧ exec (.or d a b) s = res (x ||| y)
    ∧ exec (.xor d a b) s = res (x ^^^ y)
    ∧ exec (.andn d a b) s = res (x &&& ~~~y)
    ∧ exec (.shl d a b) s = res (BitVec.ofNat 64 (x.toNat * 2 ^ c))
    ∧ exec (.shr d a b) s = res (BitVec.ofNat 64 (x.toNat / 2 ^ c))
    ∧ exec (.sar d a b) s = res (BitVec.ofInt 64 (x.toInt / 2 ^ c))
    ∧ exec (.rol d a b) s = res (if c = 0 then x else x <<< c ||| x >>> (64 - c))
    ∧ exec (.min d a b) s = res (BitVec.ofInt 64 (min x.toInt y.toInt))
    ∧ exec (.max d a b) s = res (BitVec.ofInt 64 (max x.toInt y.toInt))
    ∧ exec (.minn d a b) s = res (BitVec.ofNat 64 (min x.toNat y.toNat))
    ∧ exec (.maxn d a b) s = res (BitVec.ofNat 64 (max x.toNat y.toNat))

/-- R84: major 0x02 encodes multiplication and division; a zero divisor gives all ones or the dividend, without a trap. -/
def Obligations.MultiplyDivide : Prop :=
  (∀ (d a b : XReg) (f : BitVec 7), decoded (wordSA 0x02 d a b f) = match f.toNat with
    | 0 => some (.mul d a b) | 1 => some (.mulh d a b) | 2 => some (.mulhn d a b) | 3 => some (.div d a b)
    | 4 => some (.divn d a b) | 5 => some (.rem d a b) | 6 => some (.remn d a b) | _ => none)
  ∧ ∀ (s : State) (g : Group) (d a b : XReg), s.grp = some g →
    let x := g.x a
    let y := g.x b
    let res (v : DWord) := ends s (g.setX d v)
    exec (.mul d a b) s = res (BitVec.ofInt 64 (x.toInt * y.toInt))
    ∧ exec (.mulh d a b) s = res (BitVec.ofInt 64 (x.toInt * y.toInt / 2 ^ 64))
    ∧ exec (.mulhn d a b) s = res (BitVec.ofNat 64 (x.toNat * y.toNat / 2 ^ 64))
    ∧ exec (.div d a b) s = res (if y = 0 then 0xffffffffffffffff else BitVec.ofInt 64 (x.toInt.tdiv y.toInt))
    ∧ exec (.rem d a b) s =
        res (if y = 0 then x else BitVec.ofInt 64 (x.toInt - y.toInt * x.toInt.tdiv y.toInt))
    ∧ exec (.divn d a b) s = res (if y = 0 then 0xffffffffffffffff else BitVec.ofNat 64 (x.toNat / y.toNat))
    ∧ exec (.remn d a b) s = res (if y = 0 then x else BitVec.ofNat 64 (x.toNat % y.toNat))

/-- R85: major 0x03, with xb reserved: the counts of leading zeros, trailing zeros and ones, by what they say of the bits of xa, and the extensions. -/
def Obligations.CountsExtends : Prop :=
  (∀ (d a b : XReg) (f : BitVec 7), decoded (wordSA 0x03 d a b f) = if b ≠ 0 then none else match f.toNat with
    | 0x00 => some (.clz d a) | 0x01 => some (.ctz d a) | 0x02 => some (.popc d a)
    | 0x10 => some (.sextI8 d a) | 0x11 => some (.sextI16 d a) | 0x12 => some (.sextI32 d a)
    | 0x18 => some (.zextN8 d a) | 0x19 => some (.zextN16 d a) | 0x1a => some (.zextN32 d a) | _ => none)
  ∧ ∀ (s : State) (g : Group) (d a : XReg), s.grp = some g →
    let x := g.x a
    let res (v : DWord) := ends s (g.setX d v)
    (∃ n : Nat, exec (.clz d a) s = res (BitVec.ofNat 64 n) ∧ n ≤ 64
      ∧ (∀ i < n, x.getMsbD i = false) ∧ (n < 64 → x.getMsbD n = true))
    ∧ (∃ n : Nat, exec (.ctz d a) s = res (BitVec.ofNat 64 n) ∧ n ≤ 64
      ∧ (∀ i < n, x.getLsbD i = false) ∧ (n < 64 → x.getLsbD n = true))
    ∧ exec (.popc d a) s = res (BitVec.ofNat 64 ((List.range 64).countP (fun i => x.getLsbD i)))
    ∧ exec (.sextI8 d a) s = res (BitVec.ofInt 64 (x.truncate 8 : BitVec 8).toInt)
    ∧ exec (.sextI16 d a) s = res (BitVec.ofInt 64 (x.truncate 16 : BitVec 16).toInt)
    ∧ exec (.sextI32 d a) s = res (BitVec.ofInt 64 (x.truncate 32 : BitVec 32).toInt)
    ∧ exec (.zextN8 d a) s = res (BitVec.ofNat 64 (x.toNat % 2 ^ 8))
    ∧ exec (.zextN16 d a) s = res (BitVec.ofNat 64 (x.toNat % 2 ^ 16))
    ∧ exec (.zextN32 d a) s = res (BitVec.ofNat 64 (x.toNat % 2 ^ 32))

/-- R86: the immediate rows, with se the sign-extended and ze the zero-extended immediate. -/
def Obligations.Immediates : Prop :=
  ∀ (s : State) (g : Group) (d a : XReg) (i : BitVec 13) (n : BitVec 6), s.grp = some g →
    let x := g.x a
    let ze : DWord := BitVec.ofNat 64 i.toNat
    let res (v : DWord) := ends s (g.setX d v)
    exec (.addi d a i) s = res (BitVec.ofInt 64 (x.toInt + i.toInt))
    ∧ exec (.andi d a i) s = res (x &&& ze)
    ∧ exec (.ori d a i) s = res (x ||| ze)
    ∧ exec (.xori d a i) s = res (x ^^^ ze)
    ∧ exec (.shli d a n) s = res (BitVec.ofNat 64 (x.toNat * 2 ^ n.toNat))
    ∧ exec (.shri d a n) s = res (BitVec.ofNat 64 (x.toNat / 2 ^ n.toNat))
    ∧ exec (.sari d a n) s = res (BitVec.ofInt 64 (x.toInt / 2 ^ n.toNat))
    ∧ exec (.lih d a i) s = res (BitVec.ofNat 64 (x.toNat * 2 ^ 13) ||| ze)

/-- R87, R88 and R89: majors 0x28, 0x29 and 0x2a: the relations as 1 or 0, the select, whose condition register is fn[5:0] with
fn[6] reserved, and the canonical address (bits 63 to 57 equal to bit 56). The last clause is the value of `adrpc`, the
PC-relative address of R90. -/
def Obligations.ComparesAddresses : Prop :=
  (∀ (d a b : XReg) (f : BitVec 7) (i : BitVec 13),
    (decoded (wordSA 0x28 d a b f) = match f.toNat with
      | 0 => some (.seq d a b) | 1 => some (.sne d a b) | 2 => some (.slt d a b) | 3 => some (.sltn d a b)
      | 4 => some (.sle d a b) | 5 => some (.slen d a b) | _ => none)
    ∧ decoded (wordSA 0x29 d a b f) = (if f.toNat < 64 then some (.sel d (BitVec.ofNat 6 f.toNat) a b) else none)
    ∧ decoded (wordSI 0x2a d a i) = some (.adr d a i))
  ∧ ∀ (s : State) (g : Group) (d a b c : XReg) (i : BitVec 13), s.grp = some g →
    let x := g.x a
    let y := g.x b
    let res (v : DWord) := ends s (g.setX d v)
    let sum : DWord := BitVec.ofInt 64 (x.toInt + i.toInt)
    exec (.seq d a b) s = res (if x = y then 1 else 0)
    ∧ exec (.sne d a b) s = res (if x ≠ y then 1 else 0)
    ∧ exec (.slt d a b) s = res (if x.toInt < y.toInt then 1 else 0)
    ∧ exec (.sltn d a b) s = res (if x.toNat < y.toNat then 1 else 0)
    ∧ exec (.sle d a b) s = res (if x.toInt ≤ y.toInt then 1 else 0)
    ∧ exec (.slen d a b) s = res (if x.toNat ≤ y.toNat then 1 else 0)
    ∧ exec (.sel d c a b) s = res (if g.x c ≠ 0 then x else y)
    ∧ (∃ v : DWord, exec (.adr d a i) s = res v ∧ ∀ j < 64, v.getLsbD j = sum.getLsbD (min j 56))
    ∧ exec (.adrpc d i) s = res (BitVec.ofInt 64 (g.pc.toNat + 4 * i.toInt))

/-! ### Control transfers -/

/-- R92, R93 and R94: majors 0x32 to 0x3d: where the conditional branches, `loop` and the mask branches go; a mask branch waits
while a lane instruction of its group that names kj has yet to run (R74), and then tests A, the stack top ANDed with k0. The
first clause of the second part is the target of `b`, of R91. -/
def Obligations.Branches : Prop :=
  (∀ (a b : XReg) (o : BitVec 13),
    decoded (wordSI 0x32 a b o) = some (.beq a b o) ∧ decoded (wordSI 0x33 a b o) = some (.bne a b o)
    ∧ decoded (wordSI 0x34 a b o) = some (.blt a b o) ∧ decoded (wordSI 0x35 a b o) = some (.bge a b o)
    ∧ decoded (wordSI 0x36 a b o) = some (.bltn a b o) ∧ decoded (wordSI 0x37 a b o) = some (.bgen a b o)
    ∧ decoded (wordSI 0x38 a b o) = (if b = 0 then some (.bz a o) else none)
    ∧ decoded (wordSI 0x39 a b o) = (if b = 0 then some (.bnz a o) else none)
    ∧ decoded (wordSI 0x3a a b o) = (if b = 0 then some (.loop a o) else none)
    ∧ (let j : KReg := BitVec.ofNat 3 a.toNat
      let ok (i : Instr) : Option Instr := if b = 0 ∧ a.toNat < 8 then some i else none
      decoded (wordSI 0x3b a b o) = ok (.bkany j o) ∧ decoded (wordSI 0x3c a b o) = ok (.bkall j o)
      ∧ decoded (wordSI 0x3d a b o) = ok (.bknone j o)))
  ∧ (∀ (s : State) (g : Group) (a b : XReg) (o : BitVec 13) (p : BitVec 25), s.grp = some g →
    let x := g.x a
    let y := g.x b
    let taken : DWord := BitVec.ofInt 64 (g.pc.toNat + 4 * o.toInt)
    let br (c : Prop) [Decidable c] := if c then endsAt s g taken else ends s g
    let t := x - 1
    exec (.b p) s = endsAt s g (BitVec.ofInt 64 (g.pc.toNat + 4 * p.toInt))
    ∧ exec (.beq a b o) s = br (x = y)
    ∧ exec (.bne a b o) s = br (x ≠ y)
    ∧ exec (.blt a b o) s = br (x.toInt < y.toInt)
    ∧ exec (.bge a b o) s = br (y.toInt ≤ x.toInt)
    ∧ exec (.bltn a b o) s = br (x.toNat < y.toNat)
    ∧ exec (.bgen a b o) s = br (y.toNat ≤ x.toNat)
    ∧ exec (.bz a o) s = br (x = 0)
    ∧ exec (.bnz a o) s = br (x ≠ 0)
    ∧ exec (.loop a o) s = if t ≠ 0 then endsAt s (g.setX a t) taken else ends s (g.setX a t))
  ∧ (∀ (s : State) (g : Group) (j : KReg) (o : BitVec 13), s.grp = some g → g.kFree j = true →
    let m := g.top &&& g.k0
    let br (c : Prop) [Decidable c] :=
      if c then endsAt s g (BitVec.ofInt 64 (g.pc.toNat + 4 * o.toInt)) else ends s g
    exec (.bkany j o) s = br (m &&& g.k j ≠ 0)
    ∧ exec (.bkall j o) s = br (m &&& ~~~(g.k j) = 0)
    ∧ exec (.bknone j o) s = br (m &&& g.k j = 0))
  ∧ (∀ (s : State) (g : Group) (j : KReg) (o : BitVec 13), s.grp = some g → g.kFree j = false → g.frozen = false →
    blockedPush g = false →
    exec (.bkany j o) s = .next s ∧ exec (.bkall j o) s = .next s ∧ exec (.bknone j o) s = .next s)

/-- R100: the activity-stack operations, fn 0x02 to 0x04 of major 0x51, with their overflow (0x09) and underflow (0x0a) traps. -/
def Obligations.ActivityStack : Prop :=
  (∀ d a b : XReg,
    decoded (wordSA 0x51 d a b 2) = (if d = 0 ∧ b = 0 ∧ a.toNat < 8 then some (.kpush (BitVec.ofNat 3 a.toNat)) else none)
    ∧ decoded (wordSA 0x51 d a b 3) = (if d = 0 ∧ a = 0 ∧ b = 0 then some .kelse else none)
    ∧ decoded (wordSA 0x51 d a b 4) = (if d = 0 ∧ a = 0 ∧ b = 0 then some .kpop else none))
  ∧ ∀ (s : State) (g : Group) (j : KReg), s.grp = some g →
    (g.kFree j = false → g.frozen = false → blockedPush g = false → exec (.kpush j) s = .next s)
    ∧ (g.kFree j = true → g.act.length < 32 → exec (.kpush j) s = ends s { g with act := (g.top &&& g.k j) :: g.act })
    ∧ (g.kFree j = true → 32 ≤ g.act.length → exec (.kpush j) s = raise s 0x09 0 0)
    ∧ (g.act = [] → exec .kelse s = raise s 0x0a 0 0 ∧ exec .kpop s = raise s 0x0a 0 0)
    ∧ (∀ t r, g.act = t :: r →
        exec .kelse s = ends s { g with act := (r.headD g.k0 &&& ~~~t) :: r }
        ∧ exec .kpop s = ends s { g with act := r })

/-- R101: the mask operations, fn 0x05 to 0x0c of major 0x51, and no higher fn. Each waits while a lane instruction of its group
that names a mask register it names has yet to run (R74); a written mask register has no bit at or above the group width, and
k0 as kd is illegal (R47). -/
def Obligations.MaskOperations : Prop :=
  (∀ (d a b : XReg) (f : BitVec 7), 5 ≤ f.toNat →
    let k (x : XReg) : KReg := BitVec.ofNat 3 x.toNat
    let m (x : XReg) : Bool := decide (x.toNat < 8)
    let w (x : XReg) : Bool := m x && decide (x ≠ 0)
    let one (c : Bool) (i : Instr) : Option Instr := if c then some i else none
    decoded (wordSA 0x51 d a b f) = match f.toNat with
      | 0x05 => one (w d && m a && b = 0) (.kmovKK (k d) (k a)) | 0x06 => one (w d && b = 0) (.kmovKX (k d) a)
      | 0x07 => one (m a && b = 0) (.kmovXK d (k a)) | 0x08 => one (w d && m a && m b) (.kand (k d) (k a) (k b))
      | 0x09 => one (w d && m a && m b) (.kor (k d) (k a) (k b)) | 0x0a => one (w d && m a && m b) (.kxor (k d) (k a) (k b))
      | 0x0b => one (w d && m a && b = 0) (.knot (k d) (k a)) | 0x0c => one (m a && b = 0) (.kpopc d (k a)) | _ => none)
  ∧ (∀ (s : State) (g : Group) (d a b : KReg) (x : XReg), s.grp = some g →
    let res (v : DWord) := ends s (g.setK d v)
    let free (i : Instr) (ks : List KReg) (r : Res) : Prop :=
      ((∀ j ∈ ks, g.kFree j = true) → exec i s = r)
      ∧ ((∃ j ∈ ks, g.kFree j = false) → g.frozen = false → blockedPush g = false → exec i s = .next s)
    free (.kmovKK d a) [d, a] (res (g.k a))
    ∧ free (.kmovKX d x) [d] (res (g.x x))
    ∧ free (.kmovXK x a) [a] (ends s (g.setX x (g.k a)))
    ∧ free (.kand d a b) [d, a, b] (res (g.k a &&& g.k b))
    ∧ free (.kor d a b) [d, a, b] (res (g.k a ||| g.k b))
    ∧ free (.kxor d a b) [d, a, b] (res (g.k a ^^^ g.k b))
    ∧ free (.knot d a) [d, a] (res (~~~(g.k a)))
    ∧ free (.kpopc x a) [a] (ends s (g.setX x (BitVec.ofNat 64 ((List.range 64).countP (fun i => (g.k a).getLsbD i))))))
  ∧ (∀ (g : Group) (d : KReg) (v : DWord), d ≠ 0 → (g.setK d v).k d = v &&& g.wMask)
  ∧ (∀ (g : Group), ∀ j < 64, g.wMask.getLsbD j = decide (j < g.gw))

/-- R52, R80, R81, R91 and R95: calls push the address of the next instruction and `ret` pops it, on the chip, and by way of the
spill area when the sixteen entries on the chip are full or all but empty, where no store parked on the page stands in the way; and where
they trap: a misaligned target (0x04), a full return stack (0x06), an empty one (0x07), in that order.
The address in the spill area (`spillSlot`) is the model's choice for a group that a restore moved to another entry, log 37.
Model's choices it rests on: log 10, 15, 37. -/
def Obligations.CallsReturns : Prop :=
  (∀ (s : State) (g : Group) (a : XReg) (o : BitVec 25), s.grp = some g →
    let to_o : DWord := BitVec.ofInt 64 (g.pc.toNat + 4 * o.toInt)
    let pushed : Group := { g with ret := (g.pc + 4) :: g.ret }
    (g.retDepth < 1040 → g.ret.length < 16 →
      exec (.call o) s = endsAt s pushed to_o
      ∧ ((g.x a).toNat % 4 = 0 → exec (.calli a) s = endsAt s pushed (g.x a)))
    ∧ (∀ s1 g2 pa mt, g.retDepth < 1040 → 16 ≤ g.ret.length →
        let va := spillAddr (s.ctxOf g) (g.spillSlot s.cur) + BitVec.ofNat 64 (8 * g.spill)
        s.translate (coreOf s.cur) (s.ctxId g) va .write true = .ok s1 pa mt → s1.poolTrap pa = 0 →
        s1.noRoomBehind s1.cur (s1.ctxId g) va = false →
        let s2 := s1.storeFields s.cur va pa mt [g.ret.getLastD 0]
        let moved : Group := { g2 with ret := (g.pc + 4) :: g.ret.dropLast, spill := g2.spill + 1
                                       spillK := if g2.spill = 0 then none else g2.spillK }
        s2.grp = some g2 →
        exec (.call o) s = endsAt s2 moved to_o
        ∧ ((g.x a).toNat % 4 = 0 → exec (.calli a) s = endsAt s2 moved (g.x a)))
    ∧ (∀ b r, g.ret = b :: r → b.toNat % 4 = 0 → s.floorDepth s.cur g < g.retDepth → (r ≠ [] ∨ g.spill = 0) →
        exec .ret s = endsAt s { g with ret := r } b)
    ∧ (∀ b s1 g2 pa mt, g.ret = [b] → b.toNat % 4 = 0 → s.floorDepth s.cur g < g.retDepth → g.spill ≠ 0 →
        let va := spillAddr (s.ctxOf g) (g.spillSlot s.cur) + BitVec.ofNat 64 (8 * (g.spill - 1))
        s.translate (coreOf s.cur) (s.ctxId g) va .read true = .ok s1 pa mt → s1.poolTrap pa = 0 →
        s1.parkedHit s1.cur va 8 = false →
        let ld := s1.takeDw s.cur pa mt
        ld.1.grp = some g2 → exec .ret s = endsAt ld.1 { g2 with ret := [ld.2], spill := g2.spill - 1 } b)
    ∧ ((g.x a).toNat % 4 = 0 → exec (.jmpi a) s = endsAt s g (g.x a)))
  ∧ (∀ (s : State) (g : Group) (a : XReg) (o : BitVec 25), s.grp = some g →
    ((g.x a).toNat % 4 ≠ 0 → exec (.calli a) s = raise s 0x04 (g.x a) 0 ∧ exec (.jmpi a) s = raise s 0x04 (g.x a) 0)
    ∧ (1040 ≤ g.retDepth → exec (.call o) s = raise s 0x06 0 0)
    ∧ (1040 ≤ g.retDepth → (g.x a).toNat % 4 = 0 → exec (.calli a) s = raise s 0x06 0 0)
    ∧ (g.ret = [] → exec .ret s = raise s 0x07 0 0)
    ∧ (∀ b r, g.ret = b :: r → b.toNat % 4 ≠ 0 → exec .ret s = raise s 0x04 b 0))

/-! ### The lane stream as the scalar stream sees it, and special registers -/

/-- R96, R97 and R98: `lrun` enqueues its whole block once it has room and its words are fetched, each with the stack top and
its broadcast values; `lsync` ends once the lane stream is idle and its stores are performed for the group, and waits until they
are; `dpop` takes the oldest decision, and in a handler with the lane stream frozen it is a double fault (R412). -/
def Obligations.LaneStreamControl : Prop :=
  ∀ (s : State) (g : Group) (count : BitVec 6) (off : BitVec 19) (d : XReg), s.grp = some g →
    (∀ s1 ws w, g.laneQ.length + (count.toNat + 1) ≤ 256 →
      s.fetchWords s.cur g (g.lbase + BitVec.ofNat 64 (12 * off.toNat)) (3 * (count.toNat + 1)) [] = (s1, some ws, w) →
      exec (.lrun count off) s = ends s1 { g with laneQ := g.laneQ ++ mkEntries g 0 (laneWords ws) })
    ∧ (g.laneBusy = false → s.laneQuiet s.cur g = true → exec .lsync s = ends s g)
    ∧ (g.laneBusy = false → s.laneQuiet s.cur g = false → exec .lsync s = .next s)
    ∧ (g.tclass = true → g.frozen = true → exec (.dpop d) s = .next (s.doubleFault s.cur))
    ∧ (∀ v r, g.tclass = false ∨ g.frozen = false → g.decQ = v :: r →
      exec (.dpop d) s = ends s ({ g with decQ := r }.setX d v))

/-- R59, R60, R106 and R107: what each special register reads, `ofc` and `cir` once the lane stream is idle; the writes of `ofc`,
`cir` and `tvb`, and the privilege trap (0x0d) of the last two outside trap class. -/
def Obligations.SpecialRegisters : Prop :=
  (∀ (s : State) (g : Group) (d : XReg), s.grp = some g →
    let res (v : DWord) := ends s (g.setX d v)
    exec (.mfs d .gid) s = res (BitVec.ofNat 64 (g.gid % 16))
    ∧ exec (.mfs d .tid) s = res (tidWord (s.teamOf g))
    ∧ exec (.mfs d .gw) s = res (BitVec.ofNat 64 g.gw)
    ∧ exec (.mfs d .role) s = res (BitVec.ofNat 64 (g.role % 512))
    ∧ exec (.mfs d .tsc) s = res s.tsc
    ∧ exec (.mfs d .rbst) s = res (rbstWord (s.teamOf g))
    ∧ exec (.mfs d .chk) s = res ((s.ctxOf g).chk.zeroExtend 64)
    ∧ exec (.mfs d .tvb) s = res (s.ctxOf g).tvb
    ∧ exec (.mfs d .ctx) s = res (ctxImage (s.ctxId g) (s.ctxOf g))
    ∧ (g.laneBusy = false → exec (.mfs d .ofc) s = res g.ofc ∧ exec (.mfs d .cir) s = res (s.ctxOf g).cir))
  ∧ (∀ (s : State) (g : Group) (a : XReg), s.grp = some g →
    (g.laneBusy = false → exec (.mts a .ofc) s = ends s { g with ofc := g.x a })
    ∧ (g.tclass = true → g.laneBusy = false →
        exec (.mts a .cir) s = ends (s.setCtx g (fun c => { c with cir := g.x a &&& 0x000000ffffff0001 })) g)
    ∧ (g.tclass = true →
        exec (.mts a .tvb) s = ends (s.setCtx g (fun c => { c with tvb := g.x a &&& 0xfffffffffffff800 })) g)
    ∧ (g.tclass = false → exec (.mts a .cir) s = raise s 0x0d 0 0 ∧ exec (.mts a .tvb) s = raise s 0x0d 0 0))


/-! ### Scalar memory accesses -/

/-- R102 and R103: a global load whose address passes its checks, and which meets no parked or homeless store and no atomic in
flight of its own group, writes its
value (the 32-bit form sign-extended) and counts on its path; where the group's loads return later, the register write stands
in flight instead; and the scratchpad loads.
Model's choices it rests on: log 4, 24. -/
def Obligations.ScalarLoads : Prop :=
  (∀ (s s1 : State) (g g2 : Group) (d a : XReg) (la : BitVec 4) (i : BitVec 9) (n pa : Nat) (mt : Bool),
    s.grp = some g → (n = 4 ∨ n = 8) →
    let va : DWord := BitVec.ofInt 64 ((g.x a).toInt + i.toInt * n)
    s.chkGlobal s.cur g va n n false true = .ok s1 pa mt → s1.parkedHit s1.cur va n = false →
    let ld := s1.loadN s1.cur pa n mt
    let s2 := (ld.1.countAcc ld.1.cur (pathOfPa pa)).2
    let seq := (ld.1.countAcc ld.1.cur (pathOfPa pa)).1
    let v : DWord := if n = 8 then BitVec.ofNat 64 ld.2.1 else (BitVec.ofNat 32 ld.2.1).signExtend 64
    let out := exec (if n = 8 then .ldx d a la i else .ldxI32 d a la i) s
    s2.grp = some g2 →
    (∀ g3, g2.late = false → (s2.consumeIf s2.cur ld.2.2).grp = some g3 →
      out = ends (s2.consumeIf s2.cur ld.2.2) (g3.setX d v))
    ∧ (g2.late = true →
      out = ends s2 { g2 with infl := g2.infl ++ [{ lane := false, path := pathOfPa pa, seq := seq, pois := ld.2.2
                                                    words := [pa / 4], writes := [.x d.toNat v] }] }))
  ∧ (∀ (s : State) (g g2 : Group) (d a : XReg) (la : BitVec 4) (i : BitVec 9) (n t o : Nat),
    s.grp = some g → (n = 4 ∨ n = 8) →
    let va : DWord := BitVec.ofInt 64 ((g.x a).toInt + i.toInt * n)
    s.chkSpad g va n false = .ok t o → s.spadAtomHit g t o n = false →
    let ld := s.loadSpad t o n
    let s2 := (s.countAcc s.cur (spadPath s.cur t)).2
    let seq := (s.countAcc s.cur (spadPath s.cur t)).1
    let v : DWord := if n = 8 then BitVec.ofNat 64 ld.1 else (BitVec.ofNat 32 ld.1).signExtend 64
    let out := exec (if n = 8 then .ldxs d a la i else .ldxsI32 d a la i) s
    s2.grp = some g2 →
    (∀ g3, g2.late = false → (s2.consumeIf s2.cur ld.2).grp = some g3 →
      out = ends (s2.consumeIf s2.cur ld.2) (g3.setX d v))
    ∧ (g2.late = true →
      out = ends s2 { g2 with infl := g2.infl ++ [{ lane := false, path := spadPath s.cur t, seq := seq, pois := ld.2
                                                    writes := [.x d.toNat v] }] }))

/-- R102, R103 and R243: a global store that passes its checks, with no store parked on its page and no atomic of its group in
flight on its words, ends with the low bytes of xd stored: on an uncached host page the bytes at its address read back its value;
on a cached one its core's L1 holds it, where the L1 held its words, if at all, as copies or under the group's own tag, and a load
of its core reads it back where no word stood registered. A scratchpad store that passes its checks leaves its value in the
scratchpad, where a load reads it back. The address keeps its place within the page, so an aligned store is aligned in memory. -/
def Obligations.ScalarStores : Prop :=
  ∀ (s : State) (g : Group) (d a : XReg) (i : BitVec 9) (n : Nat), s.grp = some g → (n = 4 ∨ n = 8) →
    let va : DWord := BitVec.ofInt 64 ((g.x a).toInt + i.toInt * n)
    let v := (g.x d).toNat % 2 ^ (8 * n)
    (∀ s1 s3 g3 pa mt, s.chkGlobal s.cur g va n n true true = .ok s1 pa mt →
      s1.pageParked (coreOf s1.cur) (s1.ctxId g) va = false → s1.atomHit s1.cur va n = false →
      let s2 := (s1.countAcc s1.cur (pathOfPa pa)).2
      let seq := (s1.countAcc s1.cur (pathOfPa pa)).1
      s2.storeN s2.cur va pa n v seq mt { pc := g.pc } = some s3 → s3.grp = some g3 →
      let c := coreOf s2.cur
      let held (regd : Bool) : Prop := ∀ w x, (w = pa / 4 ∨ (n = 8 ∧ w = pa / 4 + 1)) → s2.l1At c w = some x →
        l1Visible x (s2.groupConv s2.cur) = true ∧ (x.mask = 0
          ∨ (x.dot.serial = g.vv.own.serial ∧ x.hid = s2.hidTag g.seat (pa / 4) ∧ (x.reg = true → regd = true)))
      exec (if n = 8 then .stx d a i else .stxB32 d a i) s = ends s3 g3
      ∧ (mt = true → s3.rawN pa n = v)
      ∧ (mt = false → pa % n = 0 →
        (held true → ∀ j < n, ∃ y, s3.l1At c ((pa + j) / 4) = some y
          ∧ y.val.extractLsb' (8 * ((pa + j) % 4)) 8 = BitVec.ofNat 8 (v / 2 ^ (8 * j)))
        ∧ (held false → (s3.loadN s3.cur pa n false).2.1 = v)))
    ∧ (∀ s1 g3 t o, s.chkSpad g va n true = .ok t o → s.spadAtomHit g t o n = false → s.storeSpad g.seat t o n v = some s1 →
      let s2 := (s1.countAcc s1.cur (spadPath s1.cur t)).2
      s2.grp = some g3 → exec (if n = 8 then .stxs d a i else .stxsB32 d a i) s = ends s2 g3 ∧ (s2.loadSpad t o n).1 = v)

/-- R103: the traps of scalar accesses of 4 and 8 bytes, each with the address and, in INFO, 0x100 for a store. A global one
raises 0x10 off the canonical form, then 0x12 off its alignment, then 0x10 where the page does not translate or permit it, then
the trap of its pool region (R444, R446), then 0x13 in a registered range (R221, R257). A scratchpad one raises 0x11 outside the
range or with bits above 31, then 0x12 off its alignment, then 0x13 in a registered range.
Model's choices it rests on: log 14, 61, 105. -/
def Obligations.AccessTraps : Prop :=
  ∀ (s : State) (g : Group) (d a : XReg) (la : BitVec 4) (i : BitVec 9) (n : Nat), s.grp = some g → (n = 4 ∨ n = 8) →
    let va : DWord := BitVec.ofInt 64 ((g.x a).toInt + i.toInt * n)
    let canon := (va.truncate 57).signExtend 64 = va
    let ld : Instr := if n = 8 then .ldx d a la i else .ldxI32 d a la i
    let st : Instr := if n = 8 then .stx d a i else .stxB32 d a i
    let lds : Instr := if n = 8 then .ldxs d a la i else .ldxsI32 d a la i
    let sts : Instr := if n = 8 then .stxs d a i else .stxsB32 d a i
    let global (w : Bool) (op : Instr) : Prop :=
      let info : DWord := if w then 256 else 0
      let go := s.translate (coreOf s.cur) (s.ctxId g) va (if w then .write else .read) g.tclass
      (¬canon → exec op s = raise s 0x10 va info)
      ∧ (canon → va.toNat % n ≠ 0 → exec op s = raise s 0x12 va info)
      ∧ (canon → va.toNat % n = 0 →
        (∀ s1, go = .fault s1 → exec op s = raise s1 0x10 va info)
        ∧ (∀ s1, go = .wait s1 → s1.lockedG (coreOf s.cur) (s1.ctxId g) va n w = true → exec op s = raise s1 0x13 va info)
        ∧ (∀ s1 pa mt, go = .ok s1 pa mt →
          (s1.poolTrap pa ≠ 0 → exec op s = raise s1 (BitVec.ofNat 8 (s1.poolTrap pa)) va
            (if s1.poolTrap pa = 0x14 then info ||| BitVec.ofNat 64 ((poolOf pa).getD 0 * 65536) else info))
          ∧ (s1.poolTrap pa = 0 → s1.lockedG (coreOf s.cur) (s1.ctxId g) va n w = true →
            exec op s = raise s1 0x13 va info)))
    let spad (w : Bool) (op : Instr) : Prop :=
      let info : DWord := if w then 256 else 0
      (2 ^ 32 ≤ va.toNat → exec op s = raise s 0x11 va info)
      ∧ (s.spadRange g va n = none → exec op s = raise s 0x11 va info)
      ∧ (∀ t o, s.spadRange g va n = some (t, o) →
        (va.toNat % n ≠ 0 → exec op s = raise s 0x12 va info)
        ∧ (va.toNat % n = 0 → s.lockedS (coreOf s.cur) (s.ctxId g) t o n w = true → exec op s = raise s 0x13 va info))
    global false ld ∧ global true st ∧ spad false lds ∧ spad true sts

/-! ### Order, acquires and releases, atomics -/

/-- R242, R244, R248, R270 and R271: `fence` and `rel` once every access is performed at the scope, and `acq`. A fence
publishes and acquires; an acquire reads the two words past stale copies at clus scope or wider and merges what they carry; a
release store is tested at its home in its own step, and the release ends when the store too is performed at the scope, with
the vectors published.
Model's choices it rests on: log 17, 23, 26, 138. -/
def Obligations.AcquireRelease : Prop :=
  ∀ (s s1 : State) (g : Group) (sc : Scope) (d a : XReg) (la : BitVec 4) (pa : Nat) (mt : Bool), s.grp = some g →
    let n := scopeNum sc
    let va := g.x a
    let ended (t : State) : Prop := t.lostAck t.cur n = none →
      (t.acked t.cur n = true → ∀ g3, (t.publishVec t.cur n).grp = some g3 →
        exec (.rel sc d a) s = ends (t.publishVec t.cur n) { g3 with relW := false })
      ∧ (t.acked t.cur n = false →
        exec (.rel sc d a) s = .next { t with groups := upd t.groups t.cur (fun h => { h with relW := true }) })
    (∀ g2, s.releasable g n → let t := (s.releasedAt n).acquire (s.releasedAt n).cur n
      t.grp = some g2 → exec (.fence sc) s = ends t g2)
    ∧ (s.chkOrdered s.cur g va 8 false anyMem = .ok s1 pa mt → s1.parkedHit s1.cur va 8 = false →
      let lo := s1.acqWord s1.cur (pa / 4) n mt
      let hi := lo.1.acqWord lo.1.cur (pa / 4 + 1) n mt
      let m := (hi.1.mergeRecords hi.1.cur (pa / 4) lo.2.found)
      let m := m.mergeRecords m.cur (pa / 4 + 1) hi.2.found
      let t := ((m.acquire m.cur n).countAcc (m.acquire m.cur n).cur (pathOfPa pa)).2
      ∀ g2, (t.consumeIf t.cur (lo.2.pois || hi.2.pois)).grp = some g2 →
        exec (.acq sc d a la) s = ends (t.consumeIf t.cur (lo.2.pois || hi.2.pois)) (g2.setX d (hi.2.val ++ lo.2.val)))
    ∧ (g.relW = true → ended s)
    ∧ (g.relW = false → s.chkOrdered s.cur g va 8 true anyMem = .ok s1 pa mt → s1.releasable g n →
      let s2 := s1.pushOut s1.cur n
      let act := s2.relAct s2.cur g va pa mt (g.x d)
      (∀ s3 s5, mt = false → s2.captureLine g.seat (pa / 4) (s2.hidTag g.seat (pa / 4)).isSome = some s3 →
        let s4 := (s3.noteWrote g.seat (pa / 4)).noteWrote g.seat (pa / 4 + 1)
        let q : StoreReq := { s4.reqOf s2.cur g va pa with
          val := (g.x d).truncate 32, hid := s2.hidTag g.seat (pa / 4), rel := true
          pair := some (pa / 4 + 1, (g.x d >>> 32).truncate 32) }
        s4.relStore q = .ok s5 → act = .ok (s5.stampDot s2.cur q.dot))
      ∧ (∀ s6, act = .ok s6 → ended (s6.countAcc s6.cur (pathOfPa pa)).2))

/-- R265 and R273: a scalar atomic at grp or team scope acts on a scratchpad word, at a wider scope on a global word that its
scope permits; xd receives the old value and the next register the sibling count; where the group's atomics return later, and at clus scope, it
issues and stays in flight, its operation left to the place where it is performed. There it reads the old word and leaves the new one,
of a single value or of no cell; a sibling set stays as it is. R267: the new word of each operation, for each of its types, and the
type that the scalar form takes.
That the old value arrives at once or later (`late`, log 4), what a hidden or failed write leaves (log 16) and that poison is not
consumed (log 128) are the model's choices.
Model's choices it rests on: log 4, 16, 128. -/
def Obligations.ScalarAtomics : Prop :=
  (∀ (s : State) (g g2 : Group) (op : AtomOp) (sc : Scope) (d a b : XReg), s.grp = some g →
    let va := g.x a
    let bv : Word := (g.x b).truncate 32
    let cmp : Word := (g.x d).truncate 32
    let req : AtomReq := { op := op, ty := amoTy op, sc := sc, addr := va, b := bv, cmp := cmp, xd := some d.toNat }
    (∀ t o, scopeNum sc < 2 → s.chkSpadAtom g va = .ok t o → s.spadAtomHit g t o 4 = false →
      (∀ s1 old, g.late = false → s.atomSpad g.seat t o op (amoTy op) bv cmp = some (s1, old) →
        let s2 := (s1.countAcc s1.cur (spadPath s1.cur t)).2
        s2.grp = some g2 → exec (.amo op sc d a b) s = ends s2 (g2.setAmo d (amoOld op old) 0))
      ∧ (g.late = true →
        let c := s.countAcc s.cur (spadPath s.cur t)
        c.2.grp = some g2 → exec (.amo op sc d a b) s = ends c.2 { g2 with infl := g.infl ++ [
          { lane := false, path := spadPath s.cur t, seq := c.1, atoms := [req] }] }))
    ∧ (∀ s1 pa mt, 2 ≤ scopeNum sc → s.chkOrdered s.cur g va 4 true (scopePermits sc op) = .ok s1 pa mt →
      s1.parkedHit s1.cur va 4 = false →
      (∀ s2 old cnt, g.late = false → sc ≠ .clus → s1.atomGlobal s1.cur va (pa / 4) op (amoTy op) bv cmp = some (s2, old, cnt) →
        let s3 := (s2.countAcc s2.cur (pathOfPa pa)).2
        s3.grp = some g2 → exec (.amo op sc d a b) s = ends s3 (g2.setAmo d (amoOld op old) cnt))
      ∧ (g.late = true ∨ sc = .clus →
        let c := s1.countAcc s1.cur (pathOfPa pa)
        c.2.grp = some g2 → exec (.amo op sc d a b) s = ends c.2 { g2 with infl := g.infl ++ [
          { lane := false, path := pathOfPa pa, seq := c.1, words := [pa / 4], atoms := [req] }] })))
  ∧ (∀ (s s1 : State) (u t o : Nat) (op : AtomOp) (ty : Ty) (b cmp old : Word), (find s.teams t).isSome = true →
    s.atomSpad u t o op ty b cmp = some (s1, old) →
    old.toNat = (s.loadSpad t o 4).1 ∧ (s1.loadSpad t o 4).1 = (atomNew op ty old b cmp).toNat)
  ∧ (∀ (s s1 : State) (g : Group) (k w cnt : Nat) (va : DWord) (op : AtomOp) (ty : Ty) (b cmp old : Word),
    find s.groups k = some g → s.atomGlobal k va w op ty b cmp = some (s1, old, cnt) →
    let r := s.bringHome (coreOf k) w
    old = viewVal (r.view w (s.groupConv k)) ∧ (1 < (r.view w (s.groupConv k)).length → s.isCell (4 * w) = true → s1 = r)
    ∧ ((r.cellRec w).vals = [] → r.hidTag g.seat w = none → cnt = 0 → old = r.word w ∧ s1.word w = atomNew op ty old b cmp))
  ∧ (∀ (t : Ty) (old b cmp : Word),
    let f (op : AtomOp) (u : Ty) : Word := atomNew op u old b cmp
    let rne (z : Fl) : Word := BitVec.ofNat 32 (roundMode fp32 .ne false z)
    let part (w : Word) (lo n : Nat) : Nat := w.toNat / 2 ^ lo % 2 ^ n
    ((t = .i32 ∨ t = .n32) → f .add t = BitVec.ofNat 32 (old.toNat + b.toNat))
    ∧ f .add .f32 = rne (flAdd false (fval fp32 old.toNat) (fval fp32 b.toNat))
    ∧ f .add .rw = BitVec.ofNat 32 ((part old 0 8 + part b 0 8) % 256 + (part old 8 8 + part b 8 8) % 255 * 2 ^ 8
        + (part old 16 9 + part b 16 9) % 257 * 2 ^ 16)
    ∧ (f .min .i32).toInt = min old.toInt b.toInt ∧ (f .max .i32).toInt = max old.toInt b.toInt
    ∧ (f .minn .n32).toNat = min old.toNat b.toNat ∧ (f .maxn .n32).toNat = max old.toNat b.toNat
    ∧ (let x := fval fp32 old.toNat
       let y := fval fp32 b.toNat
       let nan : Word := 0x7fc00000
       (isNan x = true → isNan y = true → f .min .f32 = nan ∧ f .max .f32 = nan)
       ∧ (isNan x = true → isNan y = false → f .min .f32 = b ∧ f .max .f32 = b)
       ∧ (isNan x = false → isNan y = true → f .min .f32 = old ∧ f .max .f32 = old)
       ∧ (isNan x = false → isNan y = false →
         (flCmp x y < 0 → f .min .f32 = old ∧ f .max .f32 = b) ∧ (0 < flCmp x y → f .min .f32 = b ∧ f .max .f32 = old)
         ∧ (flCmp x y = 0 → old = 0x80000000 → f .min .f32 = old ∧ f .max .f32 = b)
         ∧ (flCmp x y = 0 → b = 0x80000000 → f .min .f32 = b ∧ f .max .f32 = old)))
    ∧ f .and .b32 = old &&& b ∧ f .or .b32 = old ||| b ∧ f .xor .b32 = old ^^^ b
    ∧ f .xchg .b32 = b ∧ f .cas .b32 = (if old = cmp then b else old))
  ∧ (∀ op : AtomOp, amoTy op = (if op ∈ [AtomOp.add, .min, .max] then .i32 else if op ∈ [AtomOp.minn, .maxn] then .n32 else .b32))

/-- R275: the bank operations on a range of near memory that passes its checks, registered in the range-lock table until they
end: `bop` leaves the count of skipped cells in the register after xd, `bred` the reduced value in xd and the count of sibling
sets after it; x0 discards both. Where the group's accesses take their time, an operation goes on word by word. The new word of
each `bop` and the result of each `bred` are those of the table of R275. That `bred` consumes poison (`consumeIf r.1.cur r.2.pois`) is the model's choice, log 128.
Model's choices it rests on: log 4, 128. -/
def Obligations.BankOperations : Prop :=
  (∀ (s : State) (g : Group) (op : BankOp) (d a b : XReg), s.grp = some g →
    let out (t : State) (f : Group → Group) : Res → Prop := fun r =>
      ∀ g2, (t.unlock (coreOf t.cur) (.bank t.cur)).grp = some g2 →
        r = ends (t.unlock (coreOf t.cur) (.bank t.cur)) { f g2 with bank := none }
    let more (t : State) (x : BankRun) : Res :=
      .next { t with groups := upd t.groups t.cur (fun h => { h with bank := some x }) }
    let bops (t : State) (x : BankRun) : Prop :=
      ∀ u y, t.bopRun t.cur op ((g.x d).truncate 32) (bankWords g x) x = some (u, y) →
        (y.words = [] → out u (fun g2 => if d = 0 then g2 else g2.setX (d + 1) (BitVec.ofNat 64 y.cnt)) (exec (.bop op d a b) s))
        ∧ (y.words ≠ [] → exec (.bop op d a b) s = more u y)
    let breds (t : State) (x : BankRun) : Prop :=
      let r := t.bredRun t.cur (bankWords g x) x
      (r.2.words = [] → out (r.1.consumeIf r.1.cur r.2.pois) (fun g2 => if d = 0 then g2
          else (g2.setX d (bankReduce op r.2.vals)).setX (d + 1) (BitVec.ofNat 64 r.2.cnt)) (exec (.bred op d a b) s))
      ∧ (r.2.words ≠ [] → exec (.bred op d a b) s = more r.1 r.2)
    (∀ x, g.bank = some x → bops s x ∧ breds s x)
    ∧ (g.bank = none → (g.x a).toNat % 4 = 0 → (g.x b).toNat % 4 = 0 → (g.x b).toNat ≤ 16777216 →
      ∀ write s1 ws s2, s.nearWords s.cur g write (g.x a) ((g.x b).toNat / 4) [] = .ok s1 ws →
        s1.engineClear s1.cur g = true →
        s1.tryLock (coreOf s1.cur) [{ sp := false, ctx := s1.ctxId g, lo := (g.x a).toNat
                                      hi := (g.x a).toNat + (g.x b).toNat, write := write, owner := .bank s1.cur }] = some s2 →
        let x (act : Option (BankOp × Word)) : BankRun :=
          { words := ws, va := g.x a, dot := newDot s2 g, vec := storeVec g.vv (newDot s2 g), act := act }
        (write = true → bops s2 (x (some (op, (g.x d).truncate 32)))) ∧ (write = false → breds s2 (x none))))
  ∧ (∀ (w b : Word),
    let new (op : BankOp) : Word := bankNew op w b
    let part (w : Word) (lo n : Nat) : Nat := w.toNat / 2 ^ lo % 2 ^ n
    new .fill = b ∧ new .addI32 = BitVec.ofNat 32 (w.toNat + b.toNat)
    ∧ new .addF32 = BitVec.ofNat 32 (roundMode fp32 .ne false (flAdd false (fval fp32 w.toNat) (fval fp32 b.toNat)))
    ∧ new .addRw = BitVec.ofNat 32 ((part w 0 8 + part b 0 8) % 256 + (part w 8 8 + part b 8 8) % 255 * 2 ^ 8
        + (part w 16 9 + part b 16 9) % 257 * 2 ^ 16)
    ∧ (new .min).toInt = min w.toInt b.toInt ∧ (new .max).toInt = max w.toInt b.toInt
    ∧ (new .minn).toNat = min w.toNat b.toNat ∧ (new .maxn).toNat = max w.toNat b.toNat
    ∧ new .and = w &&& b ∧ new .or = w ||| b ∧ new .xor = w ^^^ b)
  ∧ (∀ l : List Word,
    let res (op : BankOp) : DWord := bankReduce op l
    let ch (lo n m : Nat) : Nat := (l.map (fun w => w.toNat / 2 ^ lo % 2 ^ n)).sum % m
    let xs := l.map (fun w => fval fp32 w.toNat)
    res .addI32 = BitVec.ofInt 64 ((l.map BitVec.toInt).sum)
    ∧ res .addF32 = BitVec.ofNat 64 (roundMode fp32 .ne false (flSum xs))
    ∧ ((∃ x ∈ xs, isNan x = true) ∨ (Fl.inf false ∈ xs ∧ Fl.inf true ∈ xs) → flSum xs = .nan)
    ∧ (∀ n : Bool, (∀ x ∈ xs, isNan x = false ∧ x ≠ .inf (!n)) → Fl.inf n ∈ xs → flSum xs = .inf n)
    ∧ ((∀ x ∈ xs, isNan x = false ∧ x ≠ .inf false ∧ x ≠ .inf true) → ∃ n m e, flSum xs = .fin n m e
      ∧ (m = 0 → (n = true ↔ ∀ x ∈ xs, isNegZero x = true))
      ∧ ∀ u ≤ e, (∀ x ∈ xs, ∀ p q k, x = .fin p q k → u ≤ k) →
        (if n then -(m : Int) else m) * 2 ^ (e - u).toNat = (xs.map (inUnits u)).sum)
    ∧ res .addRw = BitVec.ofNat 64 (ch 0 8 256 + ch 8 8 255 * 2 ^ 8 + ch 16 9 257 * 2 ^ 16)
    ∧ (res .min).toInt = (l.map BitVec.toInt).foldl min (2 ^ 31 - 1) ∧ (res .max).toInt = (l.map BitVec.toInt).foldl max (-2 ^ 31)
    ∧ (res .minn).toNat = (l.map BitVec.toNat).foldl min (2 ^ 32 - 1) ∧ (res .maxn).toNat = (l.map BitVec.toNat).foldl max 0
    ∧ ∀ j < 64, (res .and).getLsbD j = (decide (j < 32) && l.all (·.getLsbD j))
      ∧ (res .or).getLsbD j = l.any (·.getLsbD j)
      ∧ (res .xor).getLsbD j = decide (l.countP (·.getLsbD j) % 2 = 1))

/-- R276: an `await` whose condition holds of the word at its home ends, with the word in xd; one whose condition does not hold
waits at its place, and its condition is read again, at the home, when it is rechecked; ended so, it counts as an instruction
of the scalar stream that has written xd (R55). -/
def Obligations.Awaits : Prop :=
  ∀ (s s1 : State) (g : Group) (cc : AwaitCond) (acq : Bool) (va : DWord) (rhs : Word) (d : XReg) (pa : Nat) (mt : Bool),
    s.grp = some g → s.chkOrdered s.cur g va 4 false anyMem = .ok s1 pa mt →
    let ld := s1.acqWord s1.cur (pa / 4) 3 mt
    let v := ld.2.val
    let signed := ¬(cc = .ltn ∨ cc = .gen)
    let holds : Bool := match cc with
      | .eq => v == rhs | .ne => v != rhs
      | .lt => decide (v.toInt < rhs.toInt) | .ge => decide (rhs.toInt ≤ v.toInt)
      | .ltn => decide (v.toNat < rhs.toNat) | .gen => decide (rhs.toNat ≤ v.toNat)
    let m := ld.1.mergeRecords ld.1.cur (pa / 4) ld.2.found
    let u := if acq then m.acquire m.cur 3 else ld.1
    let t := u.consumeIf u.cur ld.2.pois
    let set (g2 : Group) : Group := { g2.setX d (if signed then v.signExtend 64 else v.zeroExtend 64) with awt := none }
    (∀ a b : XReg, va = g.x a → rhs = (g.x b).truncate 32 → s1.parkedHit s1.cur va 4 = false →
      (holds = true → ∀ g2, t.grp = some g2 → exec (.await cc acq d a b) s = ends t (set g2))
      ∧ (holds = false → afterwards (exec (.await cc acq d a b) s) (fun t =>
        ∀ h, t.grp = some h → h.pc = g.pc ∧ h.xs = g.xs ∧ h.wf.kind = 12)))
    ∧ (g.awt = some { cc := cc, acq := acq, d := d.toNat, addr := va, rhs := rhs } →
      (holds = true → ∀ g2, t.grp = some g2 → exec (.awaitRecheck s.cur) s =
        .next ((t.setGrp { set g2 with pc := g2.pc + 4, wf := {}, waitN := none }).noteScalar u.cur { xw := [d] } false 0 false))
      ∧ (holds = false → exec (.awaitRecheck s.cur) s = .next ld.1))

/-! ### Versioned cells, vectors and lines -/

/-- R296 to R302: the instructions on cells. `ldc` gives the first value and CNT, `ldsib` sibling k and the status word; `rcn` on
a sibling set that it can collapse leaves the result and the status word found, and otherwise the value found; `rcnw` writes
1 when the set is still the one its status word names, else 0. The result of each `rcn` is that of the table of R301; a collapse on
a cell without hidden writes, outside every recovery block, leaves the result as its single value, with dot (own serial, now) and
prior the base, and the group's vector merges every sibling's dot. That `rcn` records no consumption of poison is the model's choice, log 171.
Model's choices it rests on: log 4, 100, 171. -/
def Obligations.CellInstructions : Prop :=
  (∀ (s s1 : State) (g : Group) (d a b : XReg) (la : BitVec 4) (i : BitVec 9) (k : BitVec 2) (op : RcnOp) (pa : Nat) (mt : Bool),
    s.grp = some g →
    let va := g.x a + off9 i 4
    (s.chkOrdered s.cur g va 4 false anyMem = .ok s1 pa mt → s1.parkedHit s1.cur va 4 = false →
      let s2 := s1.settleWord (coreOf s1.cur) (pa / 4)
      let v := s2.homeView (pa / 4) (s2.groupConv s2.cur)
      let t := (s2.countAcc s2.cur (pathOfPa pa)).2
      ∀ g2 g3, t.grp = some g2 → g2.late = false → (t.consumeIf t.cur (viewPois v)).grp = some g3 →
        exec (.ldc d a la i) s = ends (t.consumeIf t.cur (viewPois v))
          ((g3.setX d ((viewVal v).signExtend 64)).setX (d + 1) (BitVec.ofNat 64 (s2.cntOf pa v)))
        ∧ (i = 0 → exec (.ldsib d a la k) s = ends (t.consumeIf t.cur (viewPois v))
          ((g3.setX d (sibling v k.toNat)).setX (d + 1) (s2.statusOf pa v))))
    ∧ (s.chkOrdered s.cur g (g.x a) 4 true s.isCell = .ok s1 pa mt → s1.atomHit s1.cur (g.x a) 4 = false →
      let s2 := s1.bringHome (coreOf s1.cur) (pa / 4)
      let v := s2.view (pa / 4) (s2.groupConv s2.cur)
      let base := (s2.cellRec (pa / 4)).base
      let s3 := (s2.countAcc s2.cur (pathOfPa pa)).2
      (∀ g2, viewCnt v = 0 ∨ (op = .add ∧ base = none) → s3.grp = some g2 →
        exec (.rcn op d a) s = ends s3 (g2.setPair d ((viewVal v).signExtend 64) (s2.statusOf pa v)))
      ∧ (∀ t g2, viewCnt v ≠ 0 → ¬(op = .add ∧ base = none) →
        let r := rcnVal op (base.getD 0) (v.map (·.val))
        s3.collapse s3.cur g (g.x a) (pa / 4) v r = .ok t → t.grp = some g2 →
        exec (.rcn op d a) s = ends t (g2.setPair d (r.signExtend 64) (s2.statusOf pa v)))
      ∧ (∀ r t, s3.collapse s3.cur g (g.x a) (pa / 4) v r = .ok t → s3.depth g.seat = 0 →
        (∀ x ∈ s3.allVals (pa / 4), x.hid = none ∧ x.disp = []) →
        let c := t.cellRec (pa / 4)
        t.word (pa / 4) = r ∧ c.vals = [] ∧ c.dot = newDot s3 g ∧ c.prior = base
        ∧ ∀ g2, t.grp = some g2 → g2.vv = v.foldl (fun m x => mergeDot m x.dot) { g.vv with own := newDot s3 g })
      ∧ (let same := 2 ≤ viewCnt v ∧ viewCnt v = ((g.x d) >>> 32).toNat % 8
           ∧ (s2.cellRec (pa / 4)).gen.toNat = ((g.x d) >>> 40).toNat
        (∀ g2, ¬same → s3.grp = some g2 → exec (.rcnw d a b) s = ends s3 (g2.setX d 0))
        ∧ (∀ t g2, same → s3.collapse s3.cur g (g.x a) (pa / 4) v ((g.x b).truncate 32) = .ok t → t.grp = some g2 →
          exec (.rcnw d a b) s = ends t (g2.setX d 1)))))
  ∧ (∀ (base : Word) (l : List Word),
    let r (op : RcnOp) : Word := rcnVal op base l
    r .add = BitVec.ofInt 32 ((base.toNat : Int) + (l.map (fun x => (x.toNat : Int) - base.toNat)).sum)
    ∧ (l ≠ [] → r .min ∈ l ∧ r .max ∈ l ∧ ∀ x ∈ l, (r .min).toInt ≤ x.toInt ∧ x.toInt ≤ (r .max).toInt)
    ∧ (∀ j < 32, (r .or).getLsbD j = l.any (·.getLsbD j) ∧ (r .and).getLsbD j = l.all (·.getLsbD j))
    ∧ r .first = l.headD 0 ∧ r .last = l.getLastD 0)

/-- R303 and R304: `vvrd` reads an entry of the group's version vector, its floor (8) or a new dot (9), and 0 at the other
numbers; `vvfold` merges the eight dots it reads, but those without a serial and those too old. R238: `clean` and `inval` of an
empty range do nothing; of a range whose two ends are canonical, in either half of the address space, they write back, and
`inval` drops, the lines that its translated pages hold in the L1; of a range that wraps, or an end of which is not canonical,
both raise 0x10. -/
def Obligations.VectorsLines : Prop :=
  (∀ (s : State) (g : Group) (d a : XReg), s.grp = some g →
    let n := (g.x a).toNat % 16
    (n < 8 → exec (.vvrd d a) s = ends s (g.setX d (((vecEntries g.vv)[n]?.map dotBits).getD 0)))
    ∧ (n = 8 → exec (.vvrd d a) s = ends s (g.setX d (dotBits { time := g.vv.floor })))
    ∧ (n = 9 → exec (.vvrd d a) s = ends s (g.setX d (dotBits (newDot s g))))
    ∧ (9 < n → exec (.vvrd d a) s = ends s (g.setX d 0))
    ∧ (∀ s1 l p g2, s.readDw s.cur g (g.x a) 8 true 8 = .ok s1 l p → s.parkedHit s.cur (g.x a) 64 = false →
      let ds := (l.map bitsDot).filter (fun e => e.serial ≠ 0 && !(tooOld s1.now e.time))
      let t := ((s1.consumeIf s1.cur p).countAcc s1.cur (s1.pathAt s1.cur g (g.x a))).2
      t.grp = some g2 → exec (.vvfold a) s = ends t { g2 with vv := mergeEntries g2.vv ds 0 }))
  ∧ (∀ (s : State) (g g2 : Group) (a b : XReg), s.grp = some g →
    let va := g.x a
    let n := (g.x b).toNat
    let lo := va.toNat
    let last := va.toNat + n - 1
    let canon (v : DWord) : Prop := (v.truncate 57).signExtend 64 = v
    let ok := last < 2 ^ 64 ∧ canon va ∧ canon (BitVec.ofNat 64 last)
    let lines := s.rangeLines (coreOf s.cur) (s.ctxId g) lo (lo + n) ((lo + n - 1) / 4096 + 1 - lo / 4096) (lo / 4096)
    (n = 0 → exec (.clean a b) s = ends s g ∧ exec (.inval a b) s = ends s g)
    ∧ (n ≠ 0 → ok →
      let t := s.cleanLines (coreOf s.cur) lines false
      ((t.countAcc t.cur .gl).2.grp = some g2 → exec (.clean a b) s = ends (t.countAcc t.cur .gl).2 g2)
      ∧ ((s.cleanLines (coreOf s.cur) lines true).grp = some g2 →
        exec (.inval a b) s = ends (s.cleanLines (coreOf s.cur) lines true) g2))
    ∧ (n ≠ 0 → ¬ok → exec (.clean a b) s = raise s 0x10 va 0 ∧ exec (.inval a b) s = raise s 0x10 va 0))


/-! ### Operand queues, counters and copy channels -/

/-- R218, and R234 to R236: `spset` arms a queue with a record that keeps the rules, `spgo` starts it once its slots and its
range are free, `spstop` makes it idle; `wait` ends at or below its bound and `cntrd` reads the counter.
Model's choices it rests on: log 48, 127. -/
def Obligations.PatternInstructions : Prop :=
  ∀ (s : State) (g : Group) (q : QReg) (a b : XReg) (p : Path), s.grp = some g →
    (∀ s1 l z r g2, s.readDw s.cur g (g.x a) 8 true 8 = .ok s1 l z → s.parkedHit s.cur (g.x a) 64 = false →
      parsePattern l (g.x b) = some r →
      let t := ((s1.stopQueue s1.cur q .armed).countAcc s1.cur .pat).2
      (t.consumeIf t.cur z).grp = some g2 →
      exec (.spset q a b) s = ends (t.consumeIf t.cur z) (g2.setQueue q { g2.queue q with st := .armed, pat := r }))
    ∧ (∀ l g1 s2, (g.queue q).st ≠ .idle → s.patLock s.cur g q (g.queue q).pat = .ok l →
      s.engineClear s.cur g = true →
      let s1 := s.stopQueue s.cur q (g.queue q).st
      let need := if g.gw = 64 then 16 else 8
      find s1.groups s.cur = some g1 → s1.slotsUsed s.cur g1 + need ≤ 256 → s1.tryLock (coreOf s.cur) [l] = some s2 →
      exec (.spgo q) s = ends s2 (g1.setQueue q { g1.queue q with st := .running, slots := need }))
    ∧ ((g.queue q).st = .idle → exec (.spgo q) s = raise s 0x18 0 (q.zeroExtend 64))
    ∧ (∀ g1, (s.stopQueue s.cur q .idle).grp = some g1 → exec (.spstop q) s = ends (s.stopQueue s.cur q .idle) g1)
    ∧ (s.waitCount g p ≤ (g.x a).toNat → exec (.wait p a) s = ends s g)
    ∧ exec (.cntrd p a) s = ends s (g.setX a (BitVec.ofNat 64 (s.counter s.cur g p)))

/-- R308, R316, R317 and R324: `cpgo` of a canonical, 32-byte aligned record on a channel that the team holds, or that is free,
appends a chain with the group's dot and vector, which its earlier accesses precede, and counts it on path 4. R325 to
R329: the other copy instructions on a channel that the team holds, and `cpstat` on any channel, `cpabort` once the words that the
record in transfer has written are performed; on a channel that it does not hold the rest raise 0x1a.
Model's choices it rests on: log 21. -/
def Obligations.CopyChannels : Prop :=
  (∀ (s : State) (g g2 : Group) (c : BitVec 3) (b : XReg), s.grp = some g →
    let va := g.x b
    let cr := coreOf s.cur
    let k0 := s.chan cr c.toNat
    let k := if k0.st = .free then ({ team := g.seat, st := .idle } : Chan) else k0
    (va.truncate 57).signExtend 64 = va → va.toNat % 32 = 0 →
    chanHeld k g.seat = true → k.headq.length < 8 → k.st ≠ .halted →
    let u := (s.unrequest s.cur).setChan cr c.toNat k
    let d := newDot u g
    let x : Chain := { cur := va, batch := k.sealed + 1, grp := s.cur, gid := g.gid, dot := d, vec := storeVec g.vv d
                       level := u.depth g.seat, after := u.ahead s.cur g }
    let v := u.setChan cr c.toNat { k with headq := k.headq ++ [x], st := .running }
    let t : State := { v with groups := upd v.groups s.cur (fun h =>
      { h with vv := { h.vv with own := d }, cnt := sset 0 h.cnt 4 (sget 0 h.cnt 4 + 1) }) }
    t.grp = some g2 → exec (.cpgo c b) s = ends t g2)
  ∧ (∀ (s : State) (g g2 : Group) (c : BitVec 3) (d b : XReg), s.grp = some g →
    let cr := coreOf s.cur
    let k := s.chan cr c.toNat
    let n : BitVec 32 := (g.x b).truncate 32
    (chanHeld k g.seat = true →
      (let k1 := { k with sealed := k.sealed + 1 }
        let t := s.setChan cr c.toNat { k1 with done := chanDone k1 }
        t.grp = some g2 → exec (.cpseal d c) s = ends t (g2.setX d ((k.sealed + 1).zeroExtend 64)))
      ∧ (n = 0 → exec (.cpwait d c b) s = ends s (g.setX d 0))
      ∧ (n ≠ 0 → ¬0 < (n - k.sealed).toInt → ¬(k.done - n).toInt < 0 →
          exec (.cpwait d c b) s = ends s (g.setX d (if k.fb ≠ 0 ∧ ¬(n - k.fb).toInt < 0 then 1 else 0)))
      ∧ (n ≠ 0 → 0 < (n - k.sealed).toInt → exec (.cpwait d c b) s = raise s 0x1a 0 (c.zeroExtend 64))
      ∧ (s.unperformed cr k = true → exec (.cpabort d c) s = .next (s.setGrp { g with cpStop := some c.toNat }))
      ∧ (let a := recInTransfer k
        let s1 := (s.endChains cr c.toNat true (fun _ => true)).unlock cr (.chan c.toNat)
        let k1 := s1.chan cr c.toNat
        let k2 := if k.fcode = 0 then { k1 with fcode := 8, frec := a, fdata := 0 } else k1
        let t := s1.setChan cr c.toNat { k2 with st := .idle, crec := none, nrec := none, wown := false }
        s.unperformed cr k = false → t.grp = some g2 →
        exec (.cpabort d c) s = ends t { g2.setX d a with cpStop := none })
      ∧ (let t := s.setChan cr c.toNat { k with fcode := 0, frec := 0, fdata := 0, fb := 0
                                                st := if k.st = .halted then .idle else k.st }
        t.grp = some g2 → exec (.cpflt d c) s = ends t (g2.setPair d k.frec k.fdata)))
    ∧ exec (.cpstat d c) s = ends s (g.setPair d (chanStatus k g.seat) (chanCounters k g.seat))
    ∧ (chanHeld k g.seat = false →
      exec (.cpseal d c) s = raise s 0x1a 0 (c.zeroExtend 64) ∧ exec (.cpabort d c) s = raise s 0x1a 0 (c.zeroExtend 64)
      ∧ exec (.cpwait d c b) s = raise s 0x1a 0 (c.zeroExtend 64)
      ∧ exec (.cpflt d c) s = raise s 0x1a 0 (c.zeroExtend 64)))

/-! ### Work, scheduling and synchronisation -/

/-- R344, R359, R360 and R361: `tspawn` hands its task to the gatherer after a team release; `watch` arms an entry of the home
slice and answers its handle, or 0 with no entry free; `unwatch` disarms a live watch of the team and answers 1, and for a free
entry, a handle of another GEN, another team's watch, a one-shot watch that has fired and the handle 0 it answers 0 with no
effect. -/
def Obligations.TasksWatches : Prop :=
  ∀ (s : State) (g g2 : Group) (a b d : XReg), s.grp = some g →
    (∀ g1 s2, let e := g.x a
      e.toNat % 4 = 0 → (e.truncate 57).signExtend 64 = e → s.releasable g 1 → (s.releasedAt 1).grp = some g1 →
      let r := s.releasedAt 1
      r.insertTask (coreOf r.cur) g1.seat (r.teamOf g1).gw e { args := argWords g1 b, vec := g1.vv } = some s2 →
      s2.grp = some g2 → exec (.tspawn a b) s = ends s2 g2)
    ∧ (let arms (t : State) (h : Group) (r : WatchRec) : Prop :=
        ∀ t1 pa mt, t.translate (coreOf t.cur) (t.ctxId h) r.base .read h.tclass = .ok t1 pa mt → isDevMem pa = true →
          let k := t1.homeSlice pa
          let ent := freshFrom ((t1.slice k).watches.map (·.1)) 64 0
          (64 ≤ ent → ∀ h1, (t1.readWatch r).grp = some h1 →
            exec (.watch d a) s = ends (t1.readWatch r) ({ h1 with wrec := none }.setX d 0))
          ∧ (∀ t2, ent < 64 → t1.engineClear t1.cur h = true →
            t1.tryLock (coreOf t1.cur) [{ sp := false, ctx := t1.ctxId h, lo := r.base.toNat, hi := r.base.toNat + r.len
                                          write := true, owner := .watch (watchKey k ent) }] = some t2 →
            let gen := nextGen (t1.slice k).wgen
            let w : Watch := { core := coreOf t2.cur, team := h.seat, ctx := t2.ctxId h, lo := pa, len := r.len, va := r.base
                               entry := r.entry, tag := r.tag, pers := r.pers, gen := gen, vec := h.vv }
            let t3 := (t2.setSlice k { t2.slice k with wgen := gen, watches := put (t2.slice k).watches ent w }).readWatch r
            ∀ h1, t3.grp = some h1 → exec (.watch d a) s = ends t3 ({ h1 with wrec := none }.setX d (watchHandle k ent gen)))
      (∀ r, g.wrec = some r → arms s g r)
      ∧ (∀ s1 l p r, g.wrec = none → s.readDw s.cur g (g.x a) 32 false 4 = .ok s1 l p →
        s.parkedHit s.cur (g.x a) 32 = false → Machine.parseWatch l = some r →
        arms s1 g { r with pois := p, path := s1.pathAt s1.cur g (g.x a) }))
    ∧ (let k := dw (g.x a) 6 6 + 64 * dw (g.x a) 12 2
      let ent := dw (g.x a) 0 6
      (∀ w, find (s.slice k).watches ent = some w → watchHandle k ent w.gen = g.x a → w.team = g.seat → w.armed = true →
        let s1 := s.setSlice k { s.slice k with watches := del (s.slice k).watches ent }
        (s1.unlock w.core (.watch (watchKey k ent))).grp = some g2 →
        exec (.unwatch d a) s = ends (s1.unlock w.core (.watch (watchKey k ent))) (g2.setX d 1))
      ∧ (find (s.slice k).watches ent = none → exec (.unwatch d a) s = ends s (g.setX d 0))
      ∧ (∀ w, find (s.slice k).watches ent = some w →
        watchHandle k ent w.gen ≠ g.x a ∨ w.team ≠ g.seat ∨ w.armed = false → exec (.unwatch d a) s = ends s (g.setX d 0))
      ∧ (g.x a = 0 → (∀ w, find (s.slice 0).watches 0 = some w → w.gen ≠ 0) → exec (.unwatch d a) s = ends s (g.setX d 0)))

/-- R336 and R362: `claim` and `give` of a target they allow complete once the group's lane stream is idle: a claim at or below
the allotment changes nothing, one above it takes rows that fit in its turn on the pipe; a give below it lowers the allotment and
drops the registers above; xd receives the allotment that results. Any other target raises 0x03. R351, R352, R363, R364 and R394:
`exit` of a group that has nothing left to wait for ends the group; a `regroup` that every other member has reached, at register
counts that fit every allotment, compacts the team. Inside a recovery block all four raise 0x1d. The compaction of R351: the live
lanes at the activity-stack tops, in order, fill the survivors, of the lowest gids, with their v and k registers; every other member
exits, or waits to. The end of a group: it leaves the device, folds its vector into the team's and the grid's exit vector, retires
its serial and frees its ranges.
Model's choices it rests on: log 18. -/
def Obligations.RowsAndGroups : Prop :=
  (∀ (s : State) (g : Group) (d a : XReg), s.grp = some g →
    let t := g.x a
    let ok := t.toNat % 16 = 0 ∧ 16 ≤ t.toNat ∧ t.toNat ≤ 256
    let q := 4 * coreOf s.cur + g.pipe
    let p := s.pipe q
    (ok → s.depth g.seat = 0 → g.laneBusy = false → t.toNat ≤ g.allot → exec (.claim d a) s = ends s (g.setX d (BitVec.ofNat 64 g.allot)))
    ∧ (ok → s.depth g.seat = 0 → g.laneBusy = false → g.allot < t.toNat → (p.claims = [] ∨ p.claims.head? = some (.claim s.cur t.toNat)) →
      s.rowsFit (coreOf s.cur) g.pipe g.soff g.gw (t.toNat - g.allot) = true →
      exec (.claim d a) s = ends (s.unrequest s.cur) ({ g with allot := t.toNat }.setX d t))
    ∧ (ok → s.depth g.seat = 0 → g.laneBusy = false → t.toNat < g.allot →
      exec (.give d a) s = ends s ((({ g with allot := t.toNat }).cutRegs t.toNat).setX d t))
    ∧ (ok → s.depth g.seat = 0 → g.laneBusy = false → g.allot ≤ t.toNat → exec (.give d a) s = ends s (g.setX d (BitVec.ofNat 64 g.allot)))
    ∧ (ok → 0 < s.depth g.seat → exec (.claim d a) s = raise s 0x1d 0 0 ∧ exec (.give d a) s = raise s 0x1d 0 0)
    ∧ (¬ok → exec (.claim d a) s = raise s 0x03 0 (t &&& 0x1ff) ∧ exec (.give d a) s = raise s 0x03 0 (t &&& 0x1ff)))
  ∧ (∀ (s : State) (g : Group) (d a : XReg), s.grp = some g →
    (s.depth g.seat = 0 → g.laneBusy = false → g.infl = [] →
      (∀ p : Path, p ≠ .cp → s.counter s.cur g p = 0) →
      (s.core (coreOf s.cur)).replay.all (fun p => p.grp ≠ s.cur) = true → s.acked s.cur 1 = true →
      exec .exit s = .next (s.endGroup s.cur))
    ∧ (s.depth g.seat = 0 → g.laneBusy = false → s.mayRegroup s.cur g = true →
      let s1 := s.setGrp { g with arr := some (.regroup ((g.x a).toNat % 512) d.toNat) }
      let ms := s1.members g.seat
      let low := (ms.head?.bind (fun e => e.2.regroupN)).getD 0
      low ≤ 256 → (∀ e ∈ ms, ∃ n, e.2.regroupN = some n ∧ n ≤ e.2.allot ∧ low ≤ e.2.allot) →
      exec (.regroup d a) s = .next (s1.compactTeam g.seat low))
    ∧ (0 < s.depth g.seat → exec .exit s = raise s 0x1d 0 0 ∧ exec (.regroup d a) s = raise s 0x1d 0 0))
  ∧ (∀ (s : State) (t n gw : Nat),
    let ms := s.members t
    (ms.map (·.1)).Nodup → (∀ e ∈ ms, find s.groups e.1 = some e.2) → ms ≠ [] → 0 < gw → gw ≤ 64 → (∀ e ∈ ms, e.2.gw = gw) →
    let L := ms.flatMap (fun e =>
      ((List.range gw).filter (fun l => e.2.k0.getLsbD l && e.2.top.getLsbD l)).map (fun l => (e.2, l)))
    let S := (L.length + gw - 1) / gw
    let u := s.compactTeam t n
    ∀ i k g, ms[i]? = some (k, g) →
      (i < S → ∃ h, find u.groups k = some h
        ∧ (let c := min gw (L.length - gw * i)
          (∀ l < 64, h.k0.getLsbD l = decide (l < c)) ∧ h.act = []
          ∧ (∀ r, ∀ l < 64, c ≤ l ∨ n ≤ r → h.v r l = 0) ∧ (∀ j : KReg, j ≠ 0 → ∀ l < 64, c ≤ l → (h.k j).getLsbD l = false)
          ∧ ∀ l < c, ∀ f m, L[gw * i + l]? = some (f, m) →
            (∀ r < n, h.v r l = f.v r m) ∧ ∀ j : KReg, j ≠ 0 → (h.k j).getLsbD l = (f.k j).getLsbD m)
        ∧ (∀ d b, g.arr = some (.regroup b d) → d < 64 → ∀ r : XReg,
          h.x r = if r ≠ 0 ∧ r.toNat = d then BitVec.ofNat 64 L.length else g.x r)
        ∧ h.pc = g.pc + 4 ∧ h.ret = g.ret ∧ h.gid = g.gid ∧ h.pipe = g.pipe ∧ h.soff = g.soff ∧ h.allot = g.allot ∧ h.cnt = g.cnt
        ∧ h.decQ = [] ∧ (∀ e ∈ h.opq, e.2.st = .idle ∧ e.2.entries = [])
        ∧ h.vv = ms.foldl (fun v e => vvMerge v e.2.vv) g.vv
        ∧ h.ofc = BitVec.ofNat 64 (min (ms.map (fun e => e.2.ofc.toNat)).sum (2 ^ 64 - 1)))
      ∧ (S ≤ i → find u.groups k = none ∨ ∃ h, find u.groups k = some h ∧ h.leaving = some g.tclass ∧ h.decQ = []
        ∧ ∀ e ∈ h.opq, e.2.st = .idle ∧ e.2.entries = []))
  ∧ (∀ (s : State) (k : Nat) (g : Group) (tm : Team), find s.groups k = some g → find s.teams g.seat = some tm →
    let u := s.endGroup k
    find u.groups k = none
    ∧ (∀ j f, j ≠ k → find s.groups j = some f → ∃ h, find u.groups j = some h ∧ h = { f with handed := h.handed })
    ∧ (∀ L, find s.launches tm.launch = some L →
      find u.launches tm.launch = some { L with exitV := vvMerge L.exitV g.vv })
    ∧ (∃ x, find u.teams g.seat = some x ∧ x.vec = vvMerge tm.vec g.vv)
    ∧ (∀ e ∈ u.serials, e.1 = g.vv.own.serial → e.2 = some s.now)
    ∧ (∀ l ∈ (u.core (coreOf k)).locks, l.owner ≠ .bank k ∧ ∀ q, l.owner ≠ .queue k q)
    ∧ ∀ a, u.byte a = s.byte a)

/-- R353 to R355 and R365: the barriers: `barinit` binds, `bararr` arrives after a team release and answers the phase,
`barwait` ends once the phase has passed, `barsync` and `cbar` end once the phase they arrived in has. An arrival (R353, R354) counts,
and the one that makes the arrivals equal the count advances the phase by one, returns them to 0 and holds the phase's merged vector,
of the last four phases. -/
def Obligations.Barriers : Prop :=
  (∀ (s : State) (g g2 : Group) (n : BitVec 6) (c : BitVec 3) (d b : XReg), s.grp = some g →
    let t := s.teamOf g
    (1 ≤ (g.x b).toNat → (g.x b).toNat ≤ 65535 → find t.bars n.toNat = none → s.barsUsed (coreOf s.cur) < 64 →
      exec (.barinit n b) s = ends (s.setTeam g.seat { t with bars := put t.bars n.toNat { count := (g.x b).toNat } }) g)
    ∧ (∀ x, find t.bars n.toNat = some x →
      (1 ≤ (g.x b).toNat → (g.x b).toNat ≤ 65535 → x.arrd = 0 → x.wait = [] →
        exec (.barinit n b) s =
          ends (s.setTeam g.seat { t with bars := put t.bars n.toNat { count := (g.x b).toNat } }) g)
      ∧ (s.releasable g 1 → let r := (s.releasedAt 1).arrive (s.releasedAt 1).cur n.toNat x
        r.grp = some g2 → exec (.bararr d n) s = ends r (g2.setX d (x.phase.zeroExtend 64)))
      ∧ (let p : BitVec 32 := (g.x b).truncate 32
        after32 x.phase p = true → (s.endBarWait s.cur n.toNat p).grp = some g2 →
        exec (.barwait n b) s = ends (s.endBarWait s.cur n.toNat p) { g2 with arr := none })
      ∧ (∀ p, g.arr = some (.bar n.toNat p) → after32 x.phase p = true → (s.endBarWait s.cur n.toNat p).grp = some g2 →
        exec (.barsync n) s = ends (s.endBarWait s.cur n.toNat p) { g2 with arr := none }))
    ∧ (∀ ph x, g.arr = some (.cbar c.toNat ph) →
      let s1 := s.closeCbar t.inst c.toNat
      (find s1.insts t.inst).bind (fun i => find i.cbars c.toNat) = some x → ph < x.phase →
      let s2 := s1.acquire s1.cur 2
      let s3 := match x.last with | some v => s2.mergeVec s2.cur v | none => s2
      s3.grp = some g2 → exec (.cbar c) s = ends s3 { g2 with arr := none })
    ∧ (find t.bars n.toNat = none → exec (.bararr d n) s = raise s 0x1c 0 (n.zeroExtend 64)
      ∧ exec (.barwait n b) s = raise s 0x1c 0 (n.zeroExtend 64) ∧ exec (.barsync n) s = raise s 0x1c 0 (n.zeroExtend 64)))
  ∧ (∀ (s : State) (k n : Nat) (x : Barrier) (g : Group), find s.groups k = some g →
    ∃ y, find ((s.arrive k n x).teamOf g).bars n = some y ∧ y.count = x.count ∧ y.wait = x.wait
      ∧ (let m := vvMerge (x.mrg.getD {}) g.vv
        (x.arrd + 1 < x.count → y.arrd = x.arrd + 1 ∧ y.phase = x.phase ∧ y.held = x.held ∧ y.mrg = some m)
        ∧ (x.count ≤ x.arrd + 1 → y.arrd = 0 ∧ y.phase = x.phase + 1 ∧ y.held = ((x.phase, m) :: x.held).take 4 ∧ y.mrg = none)))

/-- R356, R366 and R367: the named queues: `qinit` binds, `qpush` appends after a team release, `qpop` and `qtry` take the oldest
entry as acquires; an unbound queue raises 0x1c; and `nap` of 0, a nap that has passed, and `yield`. -/
def Obligations.QueuesNaps : Prop :=
  ∀ (s : State) (g g2 : Group) (q : BitVec 5) (d b : XReg), s.grp = some g →
    let t := s.teamOf g
    (1 ≤ (g.x b).toNat → (g.x b).toNat ≤ 16 → find t.nqs q.toNat = none → s.nqsUsed (coreOf s.cur) < 32 →
      exec (.qinit q b) s = ends (s.setTeam g.seat { t with nqs := put t.nqs q.toNat { depth := (g.x b).toNat } }) g)
    ∧ (∀ x, find t.nqs q.toNat = some x →
      (∀ g1 y, x.entries.length < x.depth → (x.pushers = [] ∨ x.pushers.head? = some s.cur) → s.releasable g 1 →
        let r := s.releasedAt 1
        r.grp = some g1 → find (r.teamOf g1).nqs q.toNat = some y →
        let u := r.pushEntry g1 q { y with pushers := y.pushers.filter (fun h => h ≠ r.cur) } (g1.x b, g1.vv)
        u.grp = some g2 → exec (.qpush q b) s = ends u g2)
      ∧ (∀ p v r, x.entries = (p, v) :: r →
        let u := (s.setNq g q { x with entries := r }).tookEntry s.cur v
        u.grp = some g2 →
        (g.handedFrom q = none → exec (.qpop d q) s = ends u (g2.setX d p)) ∧ exec (.qtry d q) s = ends u (g2.setPair d p 1))
      ∧ (∀ p v, g.handedFrom q = some (p, v) → (s.tookEntry s.cur v).grp = some g2 →
        exec (.qpop d q) s = ends (s.tookEntry s.cur v) ({ g2 with handed := none }.setX d p))
      ∧ (x.entries = [] → exec (.qtry d q) s = ends s (g.setPair d 0 0)))
    ∧ (find t.nqs q.toNat = none → exec (.qpush q b) s = raise s 0x1c 0 (q.zeroExtend 64)
      ∧ exec (.qpop d q) s = raise s 0x1c 0 (q.zeroExtend 64) ∧ exec (.qtry d q) s = raise s 0x1c 0 (q.zeroExtend 64))
    ∧ (g.nap = none → (g.x b).toNat % 2 ^ 32 = 0 → exec (.nap b) s = ends s { g with age := s.tsc.toNat, runS := 0 })
    ∧ (∀ u, g.nap = some u → u.toNat ≤ s.tsc.toNat → exec (.nap b) s = ends s { g with nap := none })
    ∧ exec .yield s = ends s { g with age := s.tsc.toNat, runS := 0 }

/-! ### Recovery blocks -/

/-- R397 to R402: once every member has arrived, `ensure` opens a level on a table that keeps the rules, which traps in every member
on one that does not, and `accept` with every verdict true closes its level, at level 1 of a conversation once every member of it has
passed, and with a false one, poison or DOOM fails the alternate; `elseby` and `elseerr` end where their group was dispatched;
`rbfail` fails the open alternate, and a handler goes on after it; `cvleave` leaves the conversation; `chkerr` reads `cir` when
nothing of its group is in flight. R388 and R401: a member that has joined a conversation goes on once the conversation is ready,
with its join index in xd. R376, R377, R379 and R382: what opening and accepting a level and a recorded failure do to the team.
Model's choices it rests on: log 131, 160, 161. -/
def Obligations.RecoveryInstructions : Prop :=
  (∀ (s : State) (g : Group) (a b d : XReg), s.grp = some g →
    (s.depth g.seat < 8 → g.laneBusy = false → s.memberQuiet s.cur g = true →
      let s1 := s.setGrp { g with arr := some (.ensure (g.x a) (g.x b)), wf := if g.wf.kind = 13 || g.wf.kind = 17 then g.wf else {} }
      let ms := s1.members g.seat
      (∀ e ∈ ms, ∃ l, e.2.arr = some (.ensure l (g.x b))) →
      (∀ s2 s3 h p as q e r al lim tab, Option.map (fun (x : Nat × Group) => x.2.arr) ms.head? = some (some (.ensure lim tab)) →
        (tab.truncate 57).signExtend 64 = tab → tab.toNat % 8 = 0 → s1.readDw s1.cur g tab 8 false 1 = .ok s2 h p →
        s2.readDw s2.cur g (tab + 8) 8 false ((h.headD 0).toNat % 256 + 2) = .ok s3 as q → parseTable (h ++ as) = some (e, r, al) →
        exec (.ensure a b) s = .next ((s3.consumeIf s3.cur (p || q)).openLevel g.seat ms lim e r al))
      ∧ (∀ lim tab, Option.map (fun (x : Nat × Group) => x.2.arr) ms.head? = some (some (.ensure lim tab)) →
        let canon := (tab.truncate 57).signExtend 64 = tab
        (¬canon → exec (.ensure a b) s = .next (s1.raiseAll ms 0x10 tab 0))
        ∧ (canon → tab.toNat % 8 ≠ 0 → exec (.ensure a b) s = .next (s1.raiseAll ms 0x12 tab 0))
        ∧ (∀ s2 s3 h p as q, canon → tab.toNat % 8 = 0 → s1.readDw s1.cur g tab 8 false 1 = .ok s2 h p →
          s2.readDw s2.cur g (tab + 8) 8 false ((h.headD 0).toNat % 256 + 2) = .ok s3 as q →
          parseTable (h ++ as) = none → exec (.ensure a b) s = .next (s3.raiseAll ms 0x1f tab 0))))
    ∧ (g.disp = true → exec .elseby s = ends s { g with disp := false } ∧ exec .elseerr s = ends s { g with disp := false })
    ∧ (g.disp = false → exec .elseby s = raise s 0x1e 0 0 ∧ exec .elseerr s = raise s 0x1e 0 0)
    ∧ (0 < s.depth g.seat → g.tclass = false → exec .rbfail s = .next (s.failAlt g.seat (s.depth g.seat) 3 0 g.gid))
    ∧ (0 < s.depth g.seat → g.tclass = true → exec .rbfail s = ends (s.failAlt g.seat (s.depth g.seat) 3 0 g.gid) g)
    ∧ (∀ tm l r, 0 < s.depth g.seat → g.laneBusy = false → s.memberQuiet s.cur g = true → (∀ p, g.arr ≠ some (.accept p)) →
      let s1 := s.setGrp { g with
        arr := some (.accept (decide (g.x a ≠ 0))), wf := if g.wf.kind = 13 || g.wf.kind = 17 then g.wf else {} }
      let ms := s1.members g.seat
      let out := exec (.accept a) s
      (∀ e ∈ ms, ∃ p, e.2.arr = some (.accept p)) → find s1.teams g.seat = some tm → tm.levels = l :: r →
      let pass := ∀ e ∈ ms, e.2.arr = some (.accept true)
      (s1.levelChains g.seat = true → out = .next s1)
      ∧ (s1.levelChains g.seat = false → tm.fail = none →
        (∀ e, ms.find? (fun e => e.2.arr = some (.accept false)) = some e →
          out = .next (s1.failAlt g.seat (r.length + 1) 1 0 e.2.gid))
        ∧ (∀ e, pass → ms.head? = some e → l.pois = true ∨ l.doom = true →
          out = .next (s1.failAlt g.seat (r.length + 1) (if l.doom then 1 else 5) 0 e.2.gid))
        ∧ (pass → l.pois = false → l.doom = false →
          (r ≠ [] ∨ tm.conv = none → out = .next (s1.acceptLevel g.seat))
          ∧ (∀ c v, r = [] → tm.conv = some c → find s1.convs c = some v →
            let s2 := s1.setTeam g.seat { tm with passed := true }
            let all := ∀ u ∈ v.teams, ∃ x, find s2.teams u = some x ∧ x.passed = true ∧ x.round = tm.round ∧ x.alt1 = tm.alt1
            (all → out = .next (v.teams.foldl (fun s u => s.acceptLevel u) s2))
            ∧ (¬all → afterwards out (fun t => ∀ h, t.grp = some h → h.pc = g.pc ∧ h.wf.kind = 13))))))
    ∧ (s.depth g.seat = 0 →
      let s1 := s.setGrp { g with arr := some .cvleave, wf := if g.wf.kind = 13 || g.wf.kind = 17 then g.wf else {} }
      (∀ e ∈ s1.members g.seat, e.2.arr = some .cvleave) →
      exec .cvleave s = .next ((s1.leaveConv g.seat).release g.seat (fun g => { g with pc := g.pc + 4 })))
    ∧ (g.laneBusy = false → s.memberQuiet s.cur g = true → sget 0 g.cnt 4 = 0 →
      exec (.chkerr d) s = ends s (g.setX d (s.ctxOf g).cir)))
  ∧ (∀ (s : State) (g : Group) (d a : XReg) (i j c : Nat) (v : Conv), s.grp = some g → s.depth g.seat = 0 →
    g.arr = some (.joined i j) → (s.teamOf g).conv = some c → find s.convs c = some v → v.ready = true →
    exec (.cvjoin d a) s = ends s ({ g with arr := none }.setX (BitVec.ofNat 6 j) (BitVec.ofNat 64 i)))
  ∧ (∀ (s : State) (t : Nat) (tm : Team) (ms : List (Nat × Group)) (lim e r : DWord) (as : List DWord), find s.teams t = some tm →
    tm.conv = none ∨ tm.levels ≠ [] →
    let u := s.openLevel t ms lim e r as
    let goes (a : DWord → DWord) (d : Bool → Bool) : Prop := ∀ k g, find s.groups k = some g → g.seat = t →
      ∃ h, find u.groups k = some h ∧ h.pc = a g.pc ∧ h.disp = d g.disp ∧ h.arr = none
    ∃ x, find u.teams t = some x
    ∧ (s.granFit t (32 * ms.length) = true → goes (· + 4) id ∧ x.rbst = tm.rbst
      ∧ x.levels = { endA := e, errA := r, alts := as, limit := lim.toNat % 2 ^ 48, frames := ms.map (fun e => (e.1,
          { act := e.2.act, ret := e.2.ret, spill := e.2.spill, pc := e.2.pc + 4, disp := e.2.disp })) } :: tm.levels)
    ∧ (s.granFit t (32 * ms.length) = false → goes (fun _ => r) (fun _ => true)
      ∧ x.rbst.cause = 6 ∧ x.rbst.outcome = 2 ∧ x.rbst.ldepth = tm.levels.length + 1
      ∧ x.levels = (match tm.levels with | [] => [] | l :: o => { l with doom := true } :: o)))
  ∧ (∀ (s : State) (t : Nat) (tm : Team) (l : Level) (r : List Level), find s.teams t = some tm → tm.levels = l :: r →
    let u := s.acceptLevel t
    (∀ k g, find s.groups k = some g → g.seat = t → ∃ h, find u.groups k = some h ∧ h.pc = l.endA ∧ h.arr = none)
    ∧ (∀ w c, find u.cells w = some c → ∀ v ∈ c.vals, ∀ h, v.hid = some h → h.team = t → r ≠ [] ∧ h.level ≤ r.length)
    ∧ ∃ x, find u.teams t = some x
      ∧ x.rbst = { tm.rbst with outcome := 1, lalt := l.alt, ldepth := r.length + 1, nfail := l.nfail }
      ∧ x.levels = (match r with
        | [] => []
        | o :: q => { o with caps := l.caps.filter (fun c => !(o.caps.any (sameCap c))) ++ o.caps
                             wrote := (l.wrote ++ o.wrote).dedup } :: q))
  ∧ (∀ (s : State) (t lv cause ftrap fgid : Nat) (tm : Team), find s.teams t = some tm → tm.fail = none → lv ≠ 1 ∨ tm.conv = none →
    s.failAlt t lv cause ftrap fgid = s.setTeam t { tm with fail := some { level := lv, time := s.tsc, cause := cause
                                                                           ftrap := ftrap, fgid := fgid } })

/-! ### Traps and system instructions -/

/-- R427 to R429: `trap`, `brk` and `nop`, and `rti` at trap class, which is the return of R428. -/
def Obligations.SoftwareTraps : Prop :=
  ∀ (s : State) (g : Group) (n : BitVec 7) (m : BitVec 13), s.grp = some g →
    exec (.trap n) s = .next (s.takeTrap s.cur g
      { num := BitVec.ofNat 8 (128 + n.toNat), info := BitVec.ofNat 64 n.toNat } (g.pc + 4) false)
    ∧ exec (.brk m) s = .next (s.takeTrap s.cur g { num := 0x0e, info := BitVec.ofNat 64 m.toNat } (g.pc + 4) false)
    ∧ exec .nop s = ends s g
    ∧ (g.tclass = true → exec .rti s = returnTrap s g)

/-- R415: outside trap class the privileged instructions raise 0x0d, and at trap class those that need a SYS context raise it
in any other. -/
def Obligations.Privilege : Prop :=
  ∀ (s : State) (g : Group) (d a b : XReg), s.grp = some g →
    let trap := raise s 0x0d 0 0
    (g.tclass = false →
      exec .rti s = trap ∧ exec (.halt a) s = trap ∧ exec (.chkmode a) s = trap ∧ exec (.tlbflush a b) s = trap)
    ∧ (g.tclass = false ∨ (s.ctxOf g).sys = false →
      exec (.clkmode d a) s = trap ∧ exec (.retire d a) s = trap ∧ exec (.ctxsv d a b) s = trap
      ∧ exec (.ctxld d a b) s = trap)

/-- R405, R406, R408 to R413: taking a trap. At trap class a trap that is neither delivered later nor of an entry enqueued before
is a double fault; else the scalar stream stops, what waits is abandoned, and the entry goes on once register writes have settled:
the sixteen fields of the frame go out as one store of the group, whose bytes on an uncached host page are those of the fields, then
the vector is read, a page that waits holding each up, and a null, an ill-formed or an unreadable one ending the context. Then the
group stands at the handler in trap class, x60 holds the frame's address, x61 the trap number, x62 ADDR and x63 INFO, and its lane
stream is frozen for a lane trap. Its other registers, both stacks, its queues and every other group stand as the vector's load
leaves them.
Model's choices it rests on: log 10, 11, 96, 115. -/
def Obligations.TrapEntry : Prop :=
  (∀ (s : State) (k : Nat) (g : Group) (p : PendTrap) (spc : DWord) (old : Bool), s.isContained g p.num = false →
    let t := s.takeTrap k g p spc old
    (g.tclass = true → p.defer = false → (p.lane = false ∨ old = false) → t = s.doubleFault k)
    ∧ (g.tclass = false → p.lane = false → t = s.startTrap k { trap := p, spc := some spc })
    ∧ (g.tclass = false → p.lane = true → g.entry = none → t = (s.holdTrap k p).startTrap k { trap := p, held := true }))
  ∧ (∀ (s : State) (k : Nat) (g : Group) (e : Entering), find s.groups k = some g → g.relW = false → g.bank = none →
    ∃ (t : State) (h : Group), s.startTrap k e = t.stepEntry k ∧ find t.groups k = some h ∧ h.entry = some e ∧ h.wf = {} ∧ h.arr = none
      ∧ h.nap = none ∧ h.awt = none ∧ h.hcid = none ∧ h.kept = g.abandon.keep (g.spcOf e) ∧ h.pc = g.pc ∧ h.xs = g.xs ∧ h.vs = g.vs
      ∧ h.ks = g.ks ∧ h.k0 = g.k0 ∧ h.ret = g.ret ∧ h.act = g.act ∧ h.laneQ = g.laneQ ∧ h.decQ = g.decQ ∧ h.opq = g.opq
      ∧ h.infl = g.infl ∧ (∀ a, t.byte a = s.byte a))
  ∧ (∀ (s s1 : State) (k : Nat) (g : Group) (e : Entering) (pa : Nat) (mt : Bool), find s.groups k = some g → g.entry = some e →
    let p := e.trap
    let fa := frameAddr (s.ctxOf g) k
    let at_ := s.translate (coreOf k) (s.ctxId g) fa .write true
    let out := s.stepEntry k
    (g.unsettled = true → out = s)
    ∧ (g.unsettled = false →
      (e.framed = true → out = s.enterVector k g e)
      ∧ (e.framed = false →
        (at_ = .wait s1 → out = s1) ∧ (at_ = .fault s1 → out = s1.doubleFault k)
        ∧ (at_ = .ok s1 pa mt →
          (s1.poolTrap pa ≠ 0 → out = s1.doubleFault k)
          ∧ (s1.poolTrap pa = 0 → s1.noRoomBehind k (s1.ctxId g) fa = false →
            let tnum : DWord := BitVec.ofNat 64 (p.num.toNat + (if p.lane then 256 else 0) + (if p.defer then 512 else 0)
              + (if p.dlane then 2048 else 0) + (p.idx % 64) * 65536)
            let fields : List DWord :=
              [g.spcOf e, tnum, p.lpc, p.addr, p.info, s1.tsc, g.x 60, g.x 61, g.x 62, g.x 63, 0, 0, 0, 0, 0, 0]
            let s2 := s1.storeFields k fa pa mt fields
            let f : Entering := { e with framed := true }
            let s3 : State := { s2 with groups := upd s2.groups k (fun h => { h with entry := some f, wf := {} }) }
            (mt = true → s1.pageParked (coreOf k) (s1.ctxId g) fa = false → (find s1.groups k).isSome = true →
              ∀ i < 16, ∀ j < 8, s2.byte (pa + 8 * i + j) = (fields.getD i 0).extractLsb' (8 * j) 8)
            ∧ out = s3.enterVector k g f)))))
  ∧ (∀ (s s1 : State) (k : Nat) (g : Group) (e : Entering) (vpa : Nat) (mt : Bool),
    let p := e.trap
    let fa := frameAddr (s.ctxOf g) k
    let va := (s.ctxOf g).tvb + 8 * p.num.zeroExtend 64
    let at_ := s.translate (coreOf k) (s.ctxId g) va .read true
    let out := s.enterVector k g e
    (at_ = .wait s1 → out = s1) ∧ (at_ = .fault s1 → out = s1.doubleFault k)
    ∧ (at_ = .ok s1 vpa mt →
      (s1.poolTrap vpa ≠ 0 → out = s1.doubleFault k)
      ∧ (s1.poolTrap vpa = 0 → s1.parkedHit k va 8 = false →
        let ld := s1.takeDw k vpa mt
        let h := ld.2
        let good := (h.truncate 57).signExtend 64 = h ∧ h.toNat % 4 = 0
        (h = 0 → out = ld.1.escalate k 0x80000003)
        ∧ (h ≠ 0 → ¬good → out = ld.1.doubleFault k)
        ∧ (h ≠ 0 → good → ∀ g3, find ld.1.groups k = some g3 →
          (∃ g4, find out.groups k = some g4 ∧ g4.pc = h ∧ g4.tclass = true ∧ g4.entry = none
            ∧ g4.pend = (if e.held then g3.pend.erase p else g3.pend)
            ∧ g4.frozen = (g3.frozen || p.lane) ∧ g4.x 60 = fa ∧ g4.x 61 = p.num.zeroExtend 64 ∧ g4.x 62 = p.addr
            ∧ g4.x 63 = p.info ∧ (∀ r : XReg, r.toNat < 60 → g4.x r = g3.x r)
            ∧ g4.ret = g3.ret ∧ g4.act = g3.act ∧ g4.vs = g3.vs ∧ g4.ks = g3.ks ∧ g4.k0 = g3.k0 ∧ g4.opq = g3.opq
            ∧ g4.laneQ = g3.laneQ ∧ g4.decQ = g3.decQ)
          ∧ ∀ n, n ≠ k → find out.groups n = find ld.1.groups n))))

/-- R428: the return from a trap: the group goes on at the frame's SPC outside trap class, with x60 to x63 as the frame saved
them, and without its frozen head entry where the frame's LANE and SKIP say so; where no store of its own to the frame is parked. Its
lane entries count as enqueued before a later handler (R411, R413). That a group that was restored while in its handler reads the frame at its former entry
(`frameK`) is the model's choice, log 37.
Model's choices it rests on: log 37, 115. -/
def Obligations.TrapReturn : Prop :=
  ∀ (s s1 : State) (g g2 : Group) (pa : Nat) (mt : Bool), s.grp = some g → g.tclass = true →
    let fa := frameAddr (s.ctxOf g) (g.frameK.getD s.cur)
    s.translate (coreOf s.cur) (s.ctxId g) fa .read true = .ok s1 pa mt → s1.poolTrap pa = 0 →
    s1.parkedHit s.cur fa 128 = false →
    let r0 := s1.takeDw s.cur pa mt
    let r1 := r0.1.takeDw s.cur (pa + 8) mt
    let r2 := r1.1.takeDw s.cur (pa + 0x30) mt
    let r3 := r2.1.takeDw s.cur (pa + 0x38) mt
    let r4 := r3.1.takeDw s.cur (pa + 0x40) mt
    let r5 := r4.1.takeDw s.cur (pa + 0x48) mt
    r0.2.toNat % 4 = 0 → find r5.1.groups s.cur = some g2 →
    ∃ t g3, exec .rti s = .next t ∧ find t.groups s.cur = some g3 ∧ g3.pc = r0.2 ∧ g3.tclass = false
      ∧ g3.x 60 = r2.2 ∧ g3.x 61 = r3.2 ∧ g3.x 62 = r4.2 ∧ g3.x 63 = r5.2
      ∧ g3.laneQ = (if r1.2.getLsbD 8 && r1.2.getLsbD 10 then g2.laneQ.tail else g2.laneQ).map (fun e => { e with tcl := false })
      ∧ (∀ r : XReg, r.toNat < 60 → g3.x r = g2.x r)

/-- R430 to R435 and R449: the system instructions that answer in registers: `capq` and `prgn`, `chkmode`, `clkmode` and
`retire` at trap class, `halt`, and an `hcall` whose reply has come.
R432: an `hcall` without one first releases at sys scope and then posts its request under the next request id; its group
waits.
Model's choices it rests on: log 29, 43, 44, 45, 46, 165. -/
def Obligations.SystemInstructions : Prop :=
  (∀ (s : State) (g g2 : Group) (d a : XReg) (n : BitVec 13), s.grp = some g →
    exec (.capq d a) s = ends s (g.setPair d (s.capAnswer ((g.x a).toNat % 65536) ((g.x a).toNat / 65536 % 65536)).1
      (s.capAnswer ((g.x a).toNat % 65536) ((g.x a).toNat / 65536 % 65536)).2)
    ∧ (∀ s1 pa mt, s.translate (coreOf s.cur) (s.ctxId g) (g.x a) .read g.tclass = .ok s1 pa mt → s1.grp = some g2 →
      exec (.prgn d a) s = ends s1 (g2.setX d (match poolOf pa with | some r => s1.regionWord r | none => 0)))
    ∧ (g.tclass = true → exec (.halt a) s = .next (s.endCtx (s.ctxId g) (haltStatus (g.x a)) (slateSrc s.cur)))
    ∧ (g.tclass = true → (g.x a).toNat ≤ 2 → g.laneBusy = false →
      exec (.chkmode a) s = ends (s.setCtx g (fun c => { c with chk := (g.x a).truncate 2 })) g)
    ∧ (g.tclass = true → (s.ctxOf g).sys = true →
      let c := coreOf s.cur
      let m := (g.x a).toNat
      (m ≤ 2 → s.reduced = true → exec (.clkmode d a) s = ends s (g.setX d 2))
      ∧ (m ≤ 2 → s.reduced = false → ((s.core c).droop = false ∨ m = 2) →
        exec (.clkmode d a) s = ends (s.setCore c { (s.settleAllow c).core c with
          ratio := ratioOf m, recd := none, chgClk := some (s.tsc + 1000) }) (g.setX d (BitVec.ofNat 64 m)))
      ∧ (∀ p, parsePart (g.x a) = some p →
        exec (.retire d a) s = ends (s.requestRetire p).1 (g.setX d (if (s.requestRetire p).2 then 1 else 0))))
    ∧ (∀ id x y, g.hcid = some id → g.hrep = some (x, y) → (s.acquire s.cur 4).grp = some g2 →
      exec (.hcall n) s = ends (s.acquire s.cur 4) { (g2.setX 1 x).setX 2 y with hcid := none, hrep := none }))
  ∧ (∀ (s : State) (g g2 : Group) (n : BitVec 13), s.grp = some g → g.hcid = none → s.releasable g 4 →
    let s1 := (s.releasedAt 4).acquire (s.releasedAt 4).cur 4
    s1.grp = some g2 →
    let s2 := s1.originate 64 (hcallBody g2 s1.nextRid n)
    let s3 : State := { s2 with hcalls := s2.hcalls ++ [(s1.nextRid, s2.cur)], nextRid := s1.nextRid + 1 }
    exec (.hcall n) s = .next (s3.setGrp ({ g2 with hcid := some s1.nextRid }.waiting s3.tsc (hcallRow s3.cur))))

/-- R436, R437 and R438: `ctxsv` of a resident team of another instance, once pre-empted, stores the images and answers their
bytes, and completes when they are performed; `ctxld` of the images of a save restores it and answers where position 0 stands,
and raises 0x21 where a header or hash is wrong or the rectangle cannot fit; `tlbflush` releases and acquires at device scope
and drops the selected translations.
Model's choices it rests on: log 40, 41, 42, 155. -/
def Obligations.ContextInstructions : Prop :=
  ∀ (s : State) (g g2 : Group) (d a b : XReg), s.grp = some g → g.tclass = true →
    (∀ s1 s2 n tm, (s.ctxOf g).sys = true → g.relW = false →
      let h := (g.x a).toNat
      let t := 16 * (h % 256) + h / 256 % 16
      h < 4096 → find s.teams t = some tm → t ≠ g.seat → tm.inst ≠ (s.teamOf g).inst →
      canonA (g.x b) = true → (g.x b).toNat % 4096 = 0 → (s.claimSave s.cur t).preemptTeam t = (s1, true) →
      s1.imagesFit s.cur (g.x b) = true →
      let inst := (s1.saved.getLast?.map (·.inst)).getD 0
      let v : State := { s1 with
        saved := s1.saved.map (fun v => if v.inst = inst then { v with hash := some (sha3 (imageBody v)) } else v) }
      let l := v.saved.filter (fun v => v.inst = inst)
      v.storeImages v.cur (g.x b) l.length l 0 = (s2, true, n) →
      let s3 : State := { s2.flushGroup s2.cur with images := s2.images ++ [l] }
      s3.grp = some g2 → exec (.ctxsv d a b) s = .next (s3.setGrp { g2.setX d (BitVec.ofNat 64 n) with relW := true }))
    ∧ ((s.ctxOf g).sys = true → g.relW = true →
      let fin := s.acked s.cur 3 && s.regQ.all (fun q => q.grp ≠ s.cur)
        && (s.core (coreOf s.cur)).replay.all (fun p => p.grp ≠ s.cur)
      (fin = true → exec (.ctxsv d a b) s = ends s { g with relW := false })
      ∧ (fin = false → exec (.ctxsv d a b) s = .next s))
    ∧ (∀ s1 h p, (s.ctxOf g).sys = true →
      s.readDw s.cur g (g.x a) 8 false 32 = .ok s1 h p → s.parkedHit s.cur (g.x a) 256 = false →
      (s1.loadImages s1.cur g (g.x a) h = .bad → exec (.ctxld d a b) s = raise s1 0x21 0 0)
      ∧ (∀ l s2 s3 q t, s1.loadImages s1.cur g (g.x a) h = .ok s2 q l →
        (s2.rectFits l (g.x b) = false → exec (.ctxld d a b) s = raise s2 0x21 0 0)
        ∧ (s2.rectFits l (g.x b) = true → s2.loadCore l (g.x b) = some (s3, t) →
          (s3.consumeIf s3.cur q).grp = some g2 →
          exec (.ctxld d a b) s = ends (s3.consumeIf s3.cur q) (g2.setX d (BitVec.ofNat 64 (teamCore t + t % 16 * 256))))))
    ∧ (let m := (g.x b).toNat
      m % 4 ≠ 3 → m / 4 % 2 ^ 14 = 0 → m < 2 ^ 32 → (m % 4 = 0 → canonA (g.x a) = true) → s.releasable g 3 →
      let t := ((s.releasedAt 3).acquire (s.releasedAt 3).cur 3).flushTlb (m % 4) (m / 65536 % 65536) (g.x a).toNat
      t.grp = some g2 → exec (.tlbflush a b) s = ends t g2)


/-! ### Lane arithmetic -/

/-- R123, R129: each element of vd, in each active lane, takes the exact result of its row, saturated with `.sat` and else
reduced modulo 2^w; the bitwise rows and the .b32 shifts act on whole registers. -/
def Obligations.LaneIntegers : Prop :=
  ∀ (s : State) (i : LaneIn) (o : LaneOp) (t : Ty) (sat : Bool), i.atHead s o →
    t ∈ [Ty.i32, Ty.n32, Ty.i16, Ty.n16, Ty.i8, Ty.n8] →
    let w := tyBits t
    let a (l e : Nat) : Int := el t (i.a t l) e
    let b (l e : Nat) : Int := el t (i.b t l) e
    let c (l e : Nat) : Int := el t (i.c t l) e
    let sh (l e : Nat) : Int := 2 ^ (b l e % w).toNat
    let puts (r : Res) (x : Nat → Nat → Int) : Prop :=
      ∃ f : Nat → Word, r = i.writes s f ∧ ∀ l e, e < 32 / w → elN w (f l) e = wrapN w (x l e)
    let clamp (x : Int) : Int := if sat then max (tyMin t) (min (tyMax t) x) else x
    let narrow (x : Int) : Int :=
      if sat then clamp x else if tySigned t then sgn w (wrapN w x) else ((wrapN w x : Nat) : Int)
    puts (exec (.vadd t sat o) s) (fun l e => clamp (a l e + b l e))
    ∧ puts (exec (.vsub t sat o) s) (fun l e => clamp (a l e - b l e))
    ∧ puts (exec (.vmul t o) s) (fun l e => a l e * b l e)
    ∧ puts (exec (.vmulh t o) s) (fun l e => a l e * b l e / 2 ^ w)
    ∧ puts (exec (.vmad t sat o) s) (fun l e => clamp (a l e * b l e + c l e))
    ∧ puts (exec (.vshl t o) s) (fun l e => a l e * sh l e)
    ∧ (tySigned t = false → puts (exec (.vshr t o) s) (fun l e => a l e / sh l e))
    ∧ (tySigned t = true → puts (exec (.vsar t o) s) (fun l e => a l e / sh l e))
    ∧ puts (exec (.vmin t o) s) (fun l e => min (a l e) (b l e))
    ∧ puts (exec (.vmax t o) s) (fun l e => max (a l e) (b l e))
    ∧ puts (exec (.vabs t sat o) s) (fun l e => clamp |a l e|)
    ∧ puts (exec (.vaddmin t sat o) s) (fun l e => min (narrow (a l e + b l e)) (c l e))
    ∧ puts (exec (.vaddmax t sat o) s) (fun l e => max (narrow (a l e + b l e)) (c l e))
    ∧ exec (.vand o) s = i.writes s (fun l => i.a .b32 l &&& i.b .b32 l)
    ∧ exec (.vor o) s = i.writes s (fun l => i.a .b32 l ||| i.b .b32 l)
    ∧ exec (.vxor o) s = i.writes s (fun l => i.a .b32 l ^^^ i.b .b32 l)
    ∧ exec (.vandn o) s = i.writes s (fun l => i.a .b32 l &&& ~~~(i.b .b32 l))
    ∧ exec (.vshl .b32 o) s = i.writes s (fun l => i.a .b32 l <<< ((i.b .b32 l).toNat % 32))
    ∧ exec (.vshr .b32 o) s = i.writes s (fun l => i.a .b32 l >>> ((i.b .b32 l).toNat % 32))

/-- R130, R131 and R132, by bits: counts, bit-field extraction and insertion, selection, the sum of absolute differences, the
integer comparison into a mask, and the conversion of one element. That a kind-3 source gives a value for each operand type is the
model's choice (log 106).
Model's choices it rests on: log 106. -/
def Obligations.LaneBits : Prop :=
  ∀ (s : State) (i : LaneIn) (o : LaneOp) (t : Ty), i.atHead s o →
    let p (l : Nat) (u : Ty) : Nat := (i.b u l).toNat % 32
    let n (l : Nat) (u : Ty) : Nat := min ((i.c u l).toNat % 64) (32 - p l u)
    (∃ f : Nat → Word, exec (.vclz o) s = i.writes s f
      ∧ ∀ l, (f l).toNat ≤ 32 ∧ (∀ j < (f l).toNat, (i.a .b32 l).getMsbD j = false)
        ∧ ((f l).toNat < 32 → (i.a .b32 l).getMsbD (f l).toNat = true))
    ∧ exec (.vpopc o) s =
        i.writes s (fun l => BitVec.ofNat 32 ((List.range 32).countP (fun j => (i.a .b32 l).getLsbD j)))
    ∧ (∃ f : Nat → Word, exec (.vbfx t o) s = i.writes s f
      ∧ ∀ l, ∀ j < 32, (f l).getLsbD j =
          if j < n l t then (i.a t l).getLsbD (p l t + j)
          else decide (t = .i32 ∧ n l t ≠ 0) && (i.a t l).getLsbD (p l t + n l t - 1))
    ∧ (∃ f : Nat → Word, exec (.vbfi o) s = i.writes s f
      ∧ ∀ l, ∀ j < 32, (f l).getLsbD j =
          if p l .b32 ≤ j ∧ j < p l .b32 + n l .b32 then (i.a .b32 l).getLsbD (j - p l .b32) else (i.old l).getLsbD j)
    ∧ (∀ k : KReg, exec (.vsel k o) s = i.writes s (fun l => if (i.g.k k).getLsbD l then i.a .b32 l else i.b .b32 l))
    ∧ exec (.vsad t o) s = i.writes s (fun l => i.c .n32 l
        + BitVec.ofNat 32 ((List.range (32 / tyBits t)).map (fun e => (el t (i.a t l) e - el t (i.b t l) e).natAbs)).sum)
    ∧ (∀ cc : Cc, ∃ m : DWord, exec (.vcmp cc t o) s = .next (i.after s (fun g => g.setK (BitVec.ofNat 3 i.vd) m))
      ∧ ∀ l < 64, m.getLsbD l = (i.act.getLsbD l && (
          let x := el t (i.a t l) 0
          let y := el t (i.b t l) 0
          match cc with
          | .eq => decide (x = y) | .ne => decide (x ≠ y) | .lt => decide (x < y)
          | .le => decide (x ≤ y) | .gt => decide (x > y) | .ge => decide (x ≥ y))))
    ∧ (∀ (ts : Ty) (sat : Bool) (ed es : BitVec 2), (ed.toNat + 1) * tyBits t ≤ 32 →
      ∃ f : Nat → Word, exec (.vcvt t ts sat ed es o) s = i.writes s f
        ∧ ∀ l, elN (tyBits t) (f l) ed.toNat = wrapN (tyBits t)
              (let x := el ts (i.a ts l) es.toNat; if sat then max (tyMin t) (min (tyMax t) x) else x)
          ∧ ∀ j < 32, j / tyBits t ≠ ed.toNat → (f l).getLsbD j = (i.old l).getLsbD j)

/-- R124 to R127 and R133 to R139: the float rows, element by element, each an exact result rounded once in the row's format;
comparisons into a mask; conversion of one element. The results that R139 fixes for special inputs of the approximations, of each type
that has them, and those of −1 by R138. -/
def Obligations.LaneFloats : Prop :=
  (∀ (s : State) (i : LaneIn) (o : LaneOp) (t : Ty) (rm : Rm), i.atHead s o → isFloat t = true →
    let w := tyBits t
    let F := fmtOf t
    let pa (l e : Nat) : Nat := elN w (i.a t l) e
    let pb (l e : Nat) : Nat := elN w (i.b t l) e
    let a (l e : Nat) : Fl := fval F (pa l e)
    let b (l e : Nat) : Fl := fval F (pb l e)
    let c (l e : Nat) : Fl := fval F (elN w (i.c t l) e)
    let puts (r : Res) (x : Nat → Nat → Nat) : Prop :=
      ∃ f : Nat → Word, r = i.writes s f ∧ ∀ l e, e < 32 / w → elN w (f l) e = x l e % 2 ^ w
    let round (z : Fl) : Nat := roundMode F rm false z
    let down : Bool := decide (rm = .rd)
    puts (exec (.fadd t rm o) s) (fun l e => round (flAdd down (a l e) (b l e)))
    ∧ puts (exec (.fsub t rm o) s) (fun l e => round (flAdd down (a l e) (flNeg (b l e))))
    ∧ puts (exec (.fmul t rm o) s) (fun l e => round (flMul (a l e) (b l e)))
    ∧ puts (exec (.ffma t rm o) s) (fun l e => round (flAdd down (flMul (a l e) (b l e)) (c l e)))
    ∧ puts (exec (.fmin t o) s) (fun l e => minMaxP F true (pa l e) (pb l e))
    ∧ puts (exec (.fmax t o) s) (fun l e => minMaxP F false (pa l e) (pb l e))
    ∧ puts (exec (.frcp t o) s) (fun l e => approx .rcp F (pa l e))
    ∧ puts (exec (.frsq t o) s) (fun l e => approx .rsq F (pa l e))
    ∧ puts (exec (.fsqrt t o) s) (fun l e => approx .sqrt F (pa l e))
    ∧ puts (exec (.fexp2 t o) s) (fun l e => approx .exp2 F (pa l e))
    ∧ puts (exec (.flog2 t o) s) (fun l e => approx .log2 F (pa l e))
    ∧ puts (exec (.fint t rm o) s) (fun l e => match a l e with
        | .fin neg m x => roundMode F .ne false (.fin neg (flToInt rm neg m x).natAbs 0)
        | z => roundMode F .ne false z)
    ∧ (∀ cc : FCc, ∃ m : DWord, exec (.fcmp cc o) s = .next (i.after s (fun g => g.setK (BitVec.ofNat 3 i.vd) m))
      ∧ ∀ l < 64, m.getLsbD l = (i.act.getLsbD l && (
          let x := fval fp32 (i.a .f32 l).toNat
          let y := fval fp32 (i.b .f32 l).toNat
          let un := isNan x || isNan y
          match cc with
          | .eq => !un && decide (flCmp x y = 0) | .ne => un || decide (flCmp x y ≠ 0)
          | .lt => !un && decide (flCmp x y < 0) | .le => !un && decide (flCmp x y ≤ 0)
          | .gt => !un && decide (flCmp x y > 0) | .ge => !un && decide (flCmp x y ≥ 0)
          | .un => un | .or => !un)))
    ∧ (∀ (td ts : Ty) (sf : Bool) (ed es : BitVec 2), (ed.toNat + 1) * tyBits td ≤ 32 →
      ∃ f : Nat → Word, exec (.fcvt td ts rm sf ed es o) s = i.writes s f
        ∧ ∀ l, elN (tyBits td) (f l) ed.toNat = cvtEl td ts rm sf (elN (tyBits ts) (i.a ts l) es.toNat) % 2 ^ tyBits td
          ∧ ∀ j < 32, j / tyBits td ≠ ed.toNat → (f l).getLsbD j = (i.old l).getLsbD j))
  ∧ (let special (F : Fmt) (sg inf one two half nan : Nat) : Prop :=
      let row (p rcp rsq sqrt exp2 log2 : Nat) : Prop := approx .rcp F p = rcp ∧ approx .rsq F p = rsq ∧ approx .sqrt F p = sqrt
        ∧ approx .exp2 F p = exp2 ∧ approx .log2 F p = log2
      row 0 inf inf 0 one (sg + inf) ∧ row sg (sg + inf) (sg + inf) sg one (sg + inf)
      ∧ row inf 0 0 inf inf inf ∧ row (sg + inf) sg nan nan 0 nan
      ∧ row one one one one two 0 ∧ row (sg + one) (sg + one) nan nan half nan
      ∧ (∀ p, sg < p → p < sg + inf → approx .rsq F p = nan ∧ approx .sqrt F p = nan ∧ approx .log2 F p = nan)
      ∧ (∀ p, isNan (fval F p) = true → row p nan nan nan nan nan)
    special fp32 0x80000000 0x7f800000 0x3f800000 0x40000000 0x3f000000 0x7fc00000
      ∧ special fp16 0x8000 0x7c00 0x3c00 0x4000 0x3800 0x7e00
      ∧ special bf16 0x8000 0x7f80 0x3f80 0x4000 0x3f00 0x7fc0)

/-! ### Movement, votes, reductions -/

/-- R140 to R143: members of a cross-lane movement receive the value of the member that their operand names, or 0, and
executing non-members 0; `vshift` delivers sc where the source lane falls outside the group. That a kind-3 source gives a value for
each operand type is the model's choice (log 106).
Model's choices it rests on: log 106. -/
def Obligations.LaneMovement : Prop :=
  ∀ (s : State) (i : LaneIn) (o : LaneOp), i.atHead s o →
    let gives (v : Nat → Word) : Res :=
      .next (i.after s (fun g => g.setLanes i.vd i.execs (fun l => if i.act.getLsbD l then v l else 0)))
    let lane (n : Int) : Word := if 0 ≤ n ∧ n < i.g.gw ∧ i.act.getLsbD n.toNat = true then i.a .b32 n.toNat else 0
    let b (l : Nat) : Int := ((i.b .n32 l).toNat : Int)
    let shifted (l : Nat) (n : Int) : Word := if n < 0 ∨ (i.g.gw : Int) ≤ n then i.c .b32 l else lane n
    exec (.vshfl .idx o) s = gives (fun l => lane (b l))
    ∧ exec (.vshfl .xor o) s = gives (fun l => lane (Nat.xor l ((i.b .n32 l).toNat % 64) : Nat))
    ∧ exec (.vshfl .up o) s = gives (fun l => lane (l - b l))
    ∧ exec (.vshfl .dn o) s = gives (fun l => lane (l + b l))
    ∧ exec (.vshift false o) s = gives (fun l => shifted l (l - b l))
    ∧ exec (.vshift true o) s = gives (fun l => shifted l (l + b l))
    ∧ exec (.vrot false o) s = gives (fun l => lane ((l - b l) % i.g.gw))
    ∧ exec (.vrot true o) s = gives (fun l => lane ((l + b l) % i.g.gw))
    ∧ exec (.vbcast o) s = gives (fun l => lane (b l))

/-- R98, R99, R144 and R145: the ballot and the other votes, reductions and scans; a push appends one entry while the decision
queue has room, and at 64 entries its instruction waits and changes nothing. The value reduced, of each operation and type: sums
modulo 2^32, least and greatest values, bitwise results; the float sum in the fixed tree, lanes that are no members giving −0; the
least or greatest float, NaNs giving way, −0 below +0, lanes that are no members giving the infinity.
That the infinity of a lane that is no member takes part beside members that are all NaN is the model's choice (log 47).
Model's choices it rests on: log 47. -/
def Obligations.VotesReductions : Prop :=
  ∀ (s : State) (i : LaneIn) (o : LaneOp) (op : RedOp) (t : Ty), i.atHead s o →
    let pushed (v : DWord) : Res := .next (i.after s (fun g => { g with decQ := g.decQ ++ [v] }))
    let all (z : Word) (v : Nat → Word) : Res :=
      .next (i.after s (fun g => g.setLanes i.vd i.execs (fun l => if i.act.getLsbD l then v l else z)))
    let r := reduced op t i
    (∃ m : DWord, (∀ l < 64, m.getLsbD l = (i.act.getLsbD l && decide (i.a .b32 l ≠ 0)))
      ∧ exec (.voteK o) s = .next (i.after s (fun g => g.setK (BitVec.ofNat 3 i.vd) m))
      ∧ (i.g.decQ.length < 64 →
        exec (.voteBallot o) s = pushed m ∧ exec (.voteAny o) s = pushed (if m ≠ 0 then 1 else 0)
        ∧ exec (.voteAll o) s = pushed (if m = i.act then 1 else 0)
        ∧ exec (.voteCount o) s = pushed (BitVec.ofNat 64 ((List.range 64).countP (fun l => m.getLsbD l)))
        ∧ exec (.vred op t o) s = pushed (if t = .i32 then r.signExtend 64 else r.zeroExtend 64)))
    ∧ (64 ≤ i.g.decQ.length → exec (.voteBallot o) s = .next s ∧ exec (.voteAny o) s = .next s ∧ exec (.voteAll o) s = .next s
      ∧ exec (.voteCount o) s = .next s ∧ exec (.vred op t o) s = .next s)
    ∧ exec (.vredV op t o) s = all (redId op t) (fun _ => r)
    ∧ (∀ ex : Bool, exec (.vscan op t ex o) s = all (redId op t) (fun l =>
        foldOp op t (((lanesOf i.act).filter (fun m => if ex then decide (m < l) else decide (m ≤ l))).map (i.a t))))
    ∧ (i.g.gw ≤ 64 → t ≠ .f32 →
      reduced .add t i = BitVec.ofNat 32 ((lanesOf i.act).map (fun l => (i.a t l).toNat)).sum
      ∧ ∀ j < 32, (reduced .and t i).getLsbD j = (lanesOf i.act).all (fun l => (i.a t l).getLsbD j)
        ∧ (reduced .or t i).getLsbD j = (lanesOf i.act).any (fun l => (i.a t l).getLsbD j)
        ∧ (reduced .xor t i).getLsbD j = decide ((lanesOf i.act).countP (fun l => (i.a t l).getLsbD j) % 2 = 1))
    ∧ (i.g.gw ≤ 64 →
      (let xs := (lanesOf i.act).map (fun l => (i.a .i32 l).toInt)
       (reduced .min .i32 i).toInt = xs.foldl min (2 ^ 31 - 1) ∧ (reduced .max .i32 i).toInt = xs.foldl max (-2 ^ 31))
      ∧ (let xs := (lanesOf i.act).map (fun l => (i.a .n32 l).toNat)
         (reduced .min .n32 i).toNat = xs.foldl min (2 ^ 32 - 1) ∧ (reduced .max .n32 i).toNat = xs.foldl max 0))
    ∧ (∀ k ≤ 6, i.g.gw = 2 ^ k → ∃ T : Nat → Nat → Word,
      (∀ l < i.g.gw, T 0 l = if i.act.getLsbD l then i.a .f32 l else 0x80000000)
      ∧ (∀ n < k, ∀ j < 2 ^ (k - n - 1), T (n + 1) j = BitVec.ofNat 32 (roundNe fp32
          (flAdd false (fval fp32 (T n (2 * j)).toNat) (fval fp32 (T n (2 * j + 1)).toNat))))
      ∧ reduced .add .f32 i = T k 0)
    ∧ (0 < i.g.gw → ∀ least : Bool,
      let v (l : Nat) : Word := if i.act.getLsbD l then i.a .f32 l else if least then 0x7f800000 else 0xff800000
      let x (w : Word) : Fl := fval fp32 w.toNat
      let R := reduced (if least then .min else .max) .f32 i
      ((∀ l < i.g.gw, isNan (x (v l)) = true) → R = 0x7fc00000)
      ∧ ((∃ l < i.g.gw, isNan (x (v l)) = false) → isNan (x R) = false ∧ (∃ l < i.g.gw, R = v l)
        ∧ ∀ l < i.g.gw, isNan (x (v l)) = false →
          (if least then flCmp (x R) (x (v l)) ≤ 0 else 0 ≤ flCmp (x R) (x (v l)))
          ∧ (flCmp (x R) (x (v l)) = 0 → v l = (if least then 0x80000000 else 0) → R = v l)))

/-! ### Matrix and narrow arithmetic -/

/-- R153 to R169: the matrix instructions, once every area of an issuing octet passes its checks, no scratchpad atomic of the
group is in flight, and Sepia holds what they overwrite: each accumulator word takes the rounded exact sum, or the residues of the sum; `mzero` clears them; the fragment
loads and `macc.ld` write their registers, `macc.st` and `macc.add` the words.
Model's choices it rests on: log 52, 53, 54. -/
def Obligations.MatrixInstructions : Prop :=
  ∀ (s s1 : State) (i : LaneIn) (o : LaneOp), i.atHead s o →
    let out : Res := .next (i.after (s1.countAll i.spPath) (fun g => g))
    let area (write : Bool) : Prop := s.areaTrap i.g i.areas 512 512 = none ∧ s.touchTrap i.g (i.touched 512) write = none
      ∧ i.g.spadAtoms = false
    let tile (f : Nat → Nat → Nat → Word → Word) : Prop := s.updSpads i.g.seat (i.tile f) = some s1
    let entry (va : Nat) (t : Ty) (j r k : Nat) : Nat :=
      elN (tyBits t) (i.g.v (va + k * tyBits t / 32) (8 * j + r)) (k * tyBits t % 32 / tyBits t)
    let col (vb K : Nat) (t : Ty) (j k n : Nat) : Nat :=
      elN (tyBits t) (i.g.v (vb + n % 2 * (K * tyBits t / 32) + k * tyBits t / 32) (8 * j + n / 2))
        (k * tyBits t % 32 / tyBits t)
    (∀ (ta tb : Ty) (fix : Bool) (c : BitVec 3), c.toNat < i.g.gw / 8 → area true →
      let K := 512 / tyBits ta
      let from_ (j : Nat) : Nat := if fix then c.toNat else Nat.xor j c.toNat
      let facc (tb : Ty) (j r n : Nat) (w : Word) : Word := BitVec.ofNat 32 (addF32 w.toNat (roundNe fp32 (flSum
        ((List.range K).map (fun k => flMul (fval (fmtOf ta) (entry (srcV o.a) ta j r k))
          (fval (fmtOf tb) (col (srcV o.b) K tb (from_ j) k n)))))))
      let sum (j r n : Nat) : Int := ((List.range K).map (fun k =>
        sgn (tyBits ta) (entry (srcV o.a) ta j r k) * sgn (tyBits tb) (col (srcV o.b) K tb (from_ j) k n))).sum
      (s.reduced = false → tile (facc tb) → exec (.mmaF tb ta fix c o) s = out)
      ∧ (tile (facc ta) → exec (.mmaH ta fix c o) s = out)
      ∧ (s.reduced = false → tile (fun j r n w => rwacc w (sum j r n) (sum j r n) (sum j r n)) →
        exec (.mmaI tb ta fix c o) s = out))
    ∧ (area true →
      (tile (fun _ _ _ _ => 0) → exec (.mzero o) s = out)
      ∧ (tile (fun j r n _ => i.g.v (i.vd + n) (8 * j + r)) → exec (.maccSt o) s = out)
      ∧ (∀ t : Ty, tile (fun j r n w => atomNew .add t w (i.g.v (i.vd + n) (8 * j + r)) 0) → exec (.maccAdd t o) s = out))
    ∧ (area false → exec (.maccLd o) s = .next (i.loaded s (i.tileWords.map (fun e =>
        { path := .sp, ws := [.v (i.vd + e.2.1) e.1 (i.ownWord s e.2.2).1], pois := (i.ownWord s e.2.2).2 })) (fun g => g)))
    ∧ (∀ (roleB k64 : Bool) (t : Ty),
      let regs := List.range (fragRegs roleB k64)
      let load (tr : Bool) : Res := .next (i.loaded s (i.lanes.flatMap (fun l => regs.flatMap (fun r =>
        i.fragReg s t l r (i.fragEls tr roleB t k64 l r)))) (fun g => g))
      let clear (tr : Bool) : Prop := i.g.spadAtoms = false
        ∧ i.fragTrap s t (i.lanes.flatMap (fun l => regs.flatMap (i.fragEls tr roleB t k64 l))) = none
      (clear false → exec (.mfrag roleB t k64 o) s = load false) ∧ (clear true → exec (.mtr roleB t k64 o) s = load true))
    ∧ (∀ (t : Ty) (c : BitVec 3), i.g.gw / 8 ≤ c.toNat → exec (.mmaH t false c o) s = raiseLane s i.g i.e 0x01 0 0)

/-- R173 to R199: residue words, fixed-point accumulators, scale bytes, quantisation and outlier records, once their areas
pass the checks, no scratchpad atomic of the group is in flight, and Sepia holds what they overwrite; `.clr` reads and zeroes
its words in turn.
That `olx` consumes the poison of any record it reads is the model's choice (log 143).
Model's choices it rests on: log 52, 53, 55, 56, 57, 117, 143. -/
def Obligations.NarrowInstructions : Prop :=
  ∀ (s s1 : State) (i : LaneIn) (o : LaneOp) (t : Ty) (pt : BitVec 7) (sel : BitVec 2) (rm : Rm), i.atHead s o →
    let out : Res := .next (i.after (s1.countAll i.spPath) (fun g => g))
    let tileFree (write : Bool) : Prop := s.areaTrap i.g i.areas 512 512 = none
      ∧ s.touchTrap i.g (i.touched 512) write = none ∧ i.g.spadAtoms = false
    let fxFree (write : Bool) : Prop := s.areaTrap i.g i.areas 2048 256 = none
      ∧ s.touchTrap i.g (i.touched 2048) write = none ∧ i.g.spadAtoms = false
    let fx (f : Nat → Nat → Nat → Nat) : Prop :=
      fxFree true ∧ s.updFx i.g.seat f i.fxCells = some s1
    let part (e : Nat × Nat × Nat × Bool) : LoadPart :=
      { path := .sp, ws := [.v (i.vd + e.2.1) e.1 (BitVec.ofInt 32 (crtDecode (BitVec.ofNat 32 e.2.2.1)))], pois := e.2.2.2 }
    let held (n : Nat) (l : List (Nat × Nat × Nat)) : List (Nat × Nat × Nat × Bool) :=
      l.map (fun e => (e.1, e.2.1, s.loadSpad i.g.seat e.2.2 n))
    let region : Prop := i.g.spadAtoms = false
      ∧ s.areaTrap i.g [(i.lanes.headD 0, regionBase i.e.bcc)] (8 + 8 * regionCap i.e.bcc) 8 = none
    exec (.crt o) s = i.writes s (fun l => BitVec.ofInt 32 (crtDecode (i.a .rw l)))
    ∧ exec (.rwadd o) s = i.writes s (fun l => rwaddW (i.a .rw l) (i.b .rw l))
    ∧ exec (.rwfrom o) s = i.writes s (fun l =>
        let x := (i.a .i32 l).toInt
        BitVec.ofNat 32 ((x % 256).toNat + (x % 255).toNat * 2 ^ 8 + (x % 257).toNat * 2 ^ 16))
    ∧ (tileFree false → exec (.crtAcc false o) s = .next (i.loaded s ((held 4 i.tileWords).map part) (fun g => g)))
    ∧ (∀ l, tileFree true → i.readClear true 4 i.tileWords s = some (s1, l) →
        exec (.crtAcc true o) s = .next (i.loaded s1 (l.map part) (fun g => g)))
    ∧ (∀ rb cb : BitVec 2, fx (fun l n F =>
        let sr := sbValue (byteN (i.g.v (srcV o.b) l) rb.toNat)
        let sc := sbValue (byteN (i.g.v (o.d.toNat + n % 2) (l / 8 * 8 + n / 2)) cb.toNat)
        fxAdd F ((i.g.v (srcV o.a + n) l).toInt * sr.1 * sc.1) (sr.2 + sc.2) pt.toNat) →
      exec (.sacc pt rb cb o) s = out)
    ∧ (fx (fun _ _ _ => 0) → exec (.fxzero o) s = out)
    ∧ (fx (fun l n F => fxAdd F (fxTerm t (i.g.v (srcV o.a + n) l)).1 (fxTerm t (i.g.v (srcV o.a + n) l)).2 pt.toNat) →
      exec (.fxadd t pt o) s = out)
    ∧ (fxFree false →
      exec (.fxcvt t pt false rm o) s = .next (i.loaded s (i.fxParts t (fxPat t pt rm) (held 16 i.fxCells)) (fun g => g)))
    ∧ (∀ l, fxFree true → i.readClear true 16 i.fxCells s = some (s1, l) →
      exec (.fxcvt t pt true rm o) s = .next (i.loaded s1 (i.fxParts t (fxPat t pt rm) l) (fun g => g)))
    ∧ exec (.sbmax t false o) s = i.writes s (fun l => BitVec.ofNat 32 (sbmaxR i t l))
    ∧ exec (.sbmax t true o) s = .next (i.after s (fun g => g.setLanes i.vd i.execs (fun l =>
        if i.act.getLsbD l then BitVec.ofNat 32 (((i.rows (l / 8)).map (sbmaxR i t)).foldl magMax 0) else 0)))
    ∧ (∃ f : Nat → Word, exec (.sbcvt t sel o) s = i.writes s f
      ∧ ∀ l, byteN (f l) sel.toNat = scaleByte t (i.a .f32 l).toNat % 256
        ∧ ∀ j < 4, j ≠ sel.toNat → byteN (f l) j = byteN (i.old l) j)
    ∧ (∀ ws n, region → i.qntAll t sel rm i.lanes s [] 0 = .ok s1 ws n →
      exec (.qnt t sel rm o) s = .next (i.after (s1.countAll (if i.lanes.isEmpty then [] else [.sp])) (fun g =>
        ws.foldl (fun (g : Group) e => g.setV i.vd e.1 e.2)
          { g with ofc := BitVec.ofNat 64 (min (g.ofc.toNat + n) (2 ^ 64 - 1)) })))
    ∧ exec (.dqnt t sel o) s = .next (i.after s (fun g => (List.range (32 / tyBits t)).foldl (fun g e =>
        g.setLanes (i.vd + e) i.act (fun l => dqntEl (el t (i.a t l) e) (byteN (i.b .b32 l) sel.toNat))) g))
    ∧ (region → i.lanes = [] → exec (.olx o) s = .next (i.after s (fun g => g)))
    ∧ (region → i.lanes ≠ [] →
      let n := min (s.loadSpad i.g.seat i.regionOff 4).1 (regionCap i.e.bcc)
      let l := i.lanes.headD 0
      let xs := (List.range n).map (fun r => s.loadSpad i.g.seat (i.regionOff + 8 + 8 * r) 8)
      s.touchTrap i.g [(l, regionBase i.e.bcc, 4), (l, regionBase i.e.bcc + 8, 8 * n)] false = none →
      exec (.olx o) s = .next (i.after ((s.consumeIf s.cur (xs.any (·.2))).countAll [.sp])
        (fun g => g.setLanes i.vd i.act (fun l =>
          BitVec.ofNat 32 (olxSum i l (xs.map (·.1)) (roundNe fp32 (fval fp32 (i.old l).toNat)))))))

/-! ### Lane memory -/

/-- R219 to R227: the lane loads, once every active lane's accesses pass the checks: each register takes its element, extended
by its type, now or when the data return. Else the trap is that of the lowest active lane whose checks fail: every lower active lane
has passed its own, and INFO names it.
That a global load's trap is raised from the state that the checks' translations leave, with the A bits they set, is the model's
choice (log 105).
Model's choices it rests on: log 105. -/
def Obligations.LaneLoads : Prop :=
  ∀ (s s1 : State) (i : LaneIn) (o : LaneOp) (f : AddrForm) (t : Ty), i.atHead s o →
    let global (u : Ty) (m : Nat) (r : Res) : Prop :=
      ∀ ps, s.chkLanes s.cur i.g (memBytes u) (memBytes u) false (fun _ => true) (i.vas f m) = (s1, .ok ps) →
        (∀ e ∈ ps, ∀ p ∈ e.2, p.home.isSome = true ∧ s1.parkedHit s1.cur p.va (memBytes u) = false) →
        let x := s1.readAll s1.cur (memBytes u) i.vd u (flatten ps)
        r = .next (i.loaded x.1 x.2 (fun g => g))
    let spad (u : Ty) (m : Nat) (r : Res) : Prop :=
      ∀ ps, s.chkSLanes i.g (memBytes u) (memBytes u) false (i.vas f m) = .ok ps →
        (∀ e ∈ ps, ∀ p ∈ e.2, s.spadAtomHit i.g p.t p.off (memBytes u) = false) →
        r = .next (i.loaded s ((flatten ps).map (fun e =>
          { path := spadPath s.cur e.2.2.t
            ws := [.v (i.vd + e.2.1) e.1 (memExt u (s.loadSpad e.2.2.t e.2.2.off (memBytes u)).1)]
            pois := (s.loadSpad e.2.2.t e.2.2.off (memBytes u)).2 })) (fun g => g))
    let below (l : Nat) (pre : List (Nat × List DWord)) : Prop :=
      l < 64 ∧ i.act.getLsbD l = true ∧ ∀ j < 64, i.act.getLsbD j = true → (j < l ↔ ∃ e ∈ pre, e.1 = j)
    let globalTrap (u : Ty) (m : Nat) (r : Res) : Prop :=
      ∀ x, s.chkLanes s.cur i.g (memBytes u) (memBytes u) false (fun _ => true) (i.vas f m) = (s1, .error x) →
        r = raiseLane s1 i.g i.e x.num x.addr x.info
        ∧ ∃ pre l post s0 ps, i.vas f m = pre ++ (l, rowOf (i.ea f l) m) :: post ∧ below l pre
          ∧ s.chkLanes s.cur i.g (memBytes u) (memBytes u) false (fun _ => true) pre = (s0, .ok ps)
          ∧ s0.chkLane s.cur i.g l (memBytes u) (memBytes u) false (fun _ => true) (rowOf (i.ea f l) m) = (s1, .error x)
          ∧ x.info.toNat % 256 = l
    let spadTrap (u : Ty) (m : Nat) (r : Res) : Prop :=
      ∀ x, s.chkSLanes i.g (memBytes u) (memBytes u) false (i.vas f m) = .error x →
        r = raiseLane s i.g i.e x.num x.addr x.info
        ∧ ∃ pre l post ps, i.vas f m = pre ++ (l, rowOf (i.ea f l) m) :: post ∧ below l pre
          ∧ s.chkSLanes i.g (memBytes u) (memBytes u) false pre = .ok ps
          ∧ s.chkSLane i.g l (memBytes u) (memBytes u) false (rowOf (i.ea f l) m) = .error x
          ∧ x.info.toNat = l
    global t 1 (exec (.vld t f o) s) ∧ spad t 1 (exec (.vlds t f o) s)
    ∧ globalTrap t 1 (exec (.vld t f o) s) ∧ spadTrap t 1 (exec (.vlds t f o) s)
    ∧ ∀ c : BitVec 3, global .b32 (2 ^ c.toNat) (exec (.vldr c false f o) s)
      ∧ spad .b32 (2 ^ c.toNat) (exec (.vldr c true f o) s)
      ∧ globalTrap .b32 (2 ^ c.toNat) (exec (.vldr c false f o) s)
      ∧ spadTrap .b32 (2 ^ c.toNat) (exec (.vldr c true f o) s)

/-- R210 and R219 to R227: the lane stores, once every active lane's accesses pass the checks: the low bytes of vd are stored in
lane order; stores to pages that wait for the host park, while the replay queue has room.
Model's choices it rests on: log 25, 60, 61. -/
def Obligations.LaneStores : Prop :=
  ∀ (s s1 s2 : State) (i : LaneIn) (o : LaneOp) (f : AddrForm) (t : Ty), i.atHead s o →
    let low (u : Ty) (r l : Nat) : Nat := (i.g.v (i.vd + r) l).toNat % 2 ^ (8 * memBytes u)
    let global (u : Ty) (m : Nat) (out : Res) : Prop :=
      ∀ ps, s.chkLanes s.cur i.g (memBytes u) (memBytes u) true (fun _ => true) (i.vas f m) = (s1, .ok ps) →
        (∀ e ∈ ps, ∀ p ∈ e.2, s1.atomHit s1.cur p.va (memBytes u) = false) →
        let xs : List LaneStore := (flatten ps).map (fun e =>
          { p := e.2.2, v := low u e.2.1 e.1
            park := e.2.2.home.isNone || s1.pageParked (coreOf s1.cur) (s1.ctxId i.g) e.2.2.va })
        let c := s1.countPaths s1.cur ((xs.map storePath).dedup)
        ((s1.core (coreOf s1.cur)).replay.length + (parkPages xs).length ≤ 32 ∨ parkPages xs = []) →
        c.1.storeAll s1.cur (memBytes u) c.2 i.pos xs = some s2 →
        out = .next (i.after (s2.parkAll s1.cur (memBytes u) c.2 i.pos xs (parkPages xs)) (fun g => g))
    let spad (u : Ty) (m : Nat) (out : Res) : Prop :=
      ∀ ps, s.chkSLanes i.g (memBytes u) (memBytes u) true (i.vas f m) = .ok ps →
        (∀ e ∈ ps, ∀ p ∈ e.2, s.spadAtomHit i.g p.t p.off (memBytes u) = false) →
        let xs := (flatten ps).map (fun e => (e.2.2, low u e.2.1 e.1))
        s.storeSpads i.g.seat (memBytes u) xs = some s2 →
        out = .next (i.after (s2.countAll (xs.map (fun x => spadPath s2.cur x.1.t))) (fun g => g))
    global t 1 (exec (.vst t f o) s) ∧ spad t 1 (exec (.vsts t f o) s)
    ∧ (∀ c : BitVec 3, global .b32 (2 ^ c.toNat) (exec (.vstr c false f o) s)
      ∧ spad .b32 (2 ^ c.toNat) (exec (.vstr c true f o) s))

/-- R228, R272, R274, R299 and R359: prefetches, `vfence`, lane atomics in ascending lane order, lane cell loads with counts or
with a pushed mask, and `spawn`. A lane's atomic leaves in vd the old word, in vd + 1 the count, and at its place the new word of the
table of R267, which stands here again.
That a group's results arrive at once or later (`late`, log 4), what a hidden or failed write leaves (log 16) and that poison is not
consumed by an atomic (log 128) are the model's choices.
Model's choices it rests on: log 4, 16, 58, 59, 128, 129. -/
def Obligations.LaneOrdered : Prop :=
  (∀ (s s1 : State) (i : LaneIn) (o : LaneOp) (f : AddrForm), i.atHead s o →
    (∀ l2 : Bool, exec (.vpf l2 f o) s =
      .next (i.after (if l2 then s else s.prefetch s.cur i.g (i.lanes.map (i.ea f))) (fun g => g)))
    ∧ (∀ sc : Scope, let n := scopeNum sc
      let r := s.pushOut s.cur n
      r.lostAck r.cur n = none → r.lanePerformed r.cur i.g n = true →
      exec (.vfence sc o) s = .next (i.after ((r.publishVec r.cur n).acquire r.cur n) (fun g => g)))
    ∧ (∀ (op : AtomOp) (sc : Scope) (t : Ty), scopeNum sc < 2 → ∀ ps, s.chkSLanes i.g 4 4 true (i.vas f 1) = .ok ps →
      (∀ e ∈ ps, ∀ p ∈ e.2, s.spadAtomHit i.g p.t p.off 4 = false) →
      let xs := (flatten ps).map (fun e => (e.1, e.2.2))
      (∀ parts, i.g.late = false → i.atomsS op t xs s = some (s1, parts) →
        exec (.vamo op sc t f o) s = .next (i.loaded s1 parts (fun g => g)))
      ∧ (i.g.late = true → exec (.vamo op sc t f o) s = .next (i.loaded s (xs.map (fun e =>
          { path := spadPath s.cur e.2.t, ws := [], atoms := [i.req op sc t e.1 e.2.va] })) (fun g => g))))
    ∧ (∀ (op : AtomOp) (sc : Scope) (t : Ty), 2 ≤ scopeNum sc → ∀ ps,
      s.chkLanes s.cur i.g 4 4 true (scopePermits sc op) (i.vas f 1) = (s1, .ok ps) →
      (∀ e ∈ ps, ∀ p ∈ e.2, p.home.isSome = true ∧ s1.parkedHit s1.cur p.va 4 = false) →
      let xs := (flatten ps).map (fun e => (e.1, e.2.2.va, (e.2.2.home.getD (0, false)).1))
      (∀ s2 parts, i.g.late = false → sc ≠ .clus → i.atomsG op t xs s1 = some (s2, parts) →
        exec (.vamo op sc t f o) s = .next (i.loaded s2 parts (fun g => g)))
      ∧ (i.g.late = true ∨ sc = .clus → exec (.vamo op sc t f o) s = .next (i.loaded s1 (xs.map (fun e =>
          { path := pathOfPa e.2.2, ws := [], words := [e.2.2 / 4], atoms := [i.req op sc t e.1 e.2.1] })) (fun g => g))))
    ∧ (∀ ps, s.chkLanes s.cur i.g 4 4 false (fun _ => true) (i.vas f 1) = (s1, .ok ps) →
      (∀ e ∈ ps, ∀ p ∈ e.2, p.home.isSome = true ∧ s1.parkedHit s1.cur p.va 4 = false) →
      let x := s1.readCells s1.cur ((flatten ps).map (fun e => (e.1, (e.2.2.home.getD (0, false)).1)))
      exec (.vldc f o) s = .next (i.loaded x.1 (x.2.map (fun (l, v, c, q, pa) =>
        { path := pathOfPa pa, ws := [.v i.vd l v, .v (i.vd + 1) l (BitVec.ofNat 32 c)], pois := q, words := [pa / 4] }))
        (fun g => g))
      ∧ (i.g.decQ.length < 64 → exec (.vldcDq f o) s = .next (i.loaded x.1 (x.2.map (fun (l, v, _, q, pa) =>
        { path := pathOfPa pa, ws := [.v i.vd l v], pois := q, words := [pa / 4] }))
        (fun g => { g with decQ := g.decQ ++ [maskOf ((x.2.filter (fun e => e.2.2.1 ≠ 0)).map (·.1))] }))))
    ∧ (let e := i.e.bca
      (e.toNat % 4 ≠ 0 → exec (.spawn o) s = raiseLane s i.g i.e 0x04 e 0)
      ∧ (e.toNat % 4 = 0 → (e.truncate 57).signExtend 64 = e → s.lanePerformed s.cur i.g 1 = true →
        i.spawnLanes e (i.lanes.filter (fun l => decide (i.e.prog ≤ l))) s = (s1, none) →
        exec (.spawn o) s = .next (i.after s1 (fun g => g)))))
  ∧ (∀ (s : State) (i : LaneIn) (op : AtomOp) (t : Ty) (l : Nat),
    (∀ p r, i.atomsS op t ((l, p) :: r) s = (s.atomSpad i.g.seat p.t p.off op t (i.c t l) (i.old l)).bind (fun x =>
      (i.atomsS op t r x.1).map (fun e => (e.1, { path := spadPath s.cur p.t, ws := [.v i.vd l x.2, .v (i.vd + 1) l 0] } :: e.2))))
    ∧ (∀ va pa r, i.atomsG op t ((l, va, pa) :: r) s =
      (s.atomGlobal s.cur va (pa / 4) op t (i.c t l) (i.old l)).bind (fun x => (i.atomsG op t r x.1).map (fun e =>
        (e.1, { path := pathOfPa pa, ws := [.v i.vd l x.2.1, .v (i.vd + 1) l (BitVec.ofNat 32 x.2.2)], words := [pa / 4] } :: e.2)))))
  ∧ (∀ (s s1 : State) (u t o : Nat) (op : AtomOp) (ty : Ty) (b cmp old : Word), (find s.teams t).isSome = true →
    s.atomSpad u t o op ty b cmp = some (s1, old) →
    old.toNat = (s.loadSpad t o 4).1 ∧ (s1.loadSpad t o 4).1 = (atomNew op ty old b cmp).toNat)
  ∧ (∀ (s s1 : State) (g : Group) (k w cnt : Nat) (va : DWord) (op : AtomOp) (ty : Ty) (b cmp old : Word),
    find s.groups k = some g → s.atomGlobal k va w op ty b cmp = some (s1, old, cnt) →
    let r := s.bringHome (coreOf k) w
    old = viewVal (r.view w (s.groupConv k)) ∧ (1 < (r.view w (s.groupConv k)).length → s.isCell (4 * w) = true → s1 = r)
    ∧ ((r.cellRec w).vals = [] → r.hidTag g.seat w = none → cnt = 0 → old = r.word w ∧ s1.word w = atomNew op ty old b cmp))
  ∧ (∀ (t : Ty) (old b cmp : Word),
    let f (op : AtomOp) (u : Ty) : Word := atomNew op u old b cmp
    let rne (z : Fl) : Word := BitVec.ofNat 32 (roundMode fp32 .ne false z)
    let part (w : Word) (lo n : Nat) : Nat := w.toNat / 2 ^ lo % 2 ^ n
    ((t = .i32 ∨ t = .n32) → f .add t = BitVec.ofNat 32 (old.toNat + b.toNat))
    ∧ f .add .f32 = rne (flAdd false (fval fp32 old.toNat) (fval fp32 b.toNat))
    ∧ f .add .rw = BitVec.ofNat 32 ((part old 0 8 + part b 0 8) % 256 + (part old 8 8 + part b 8 8) % 255 * 2 ^ 8
        + (part old 16 9 + part b 16 9) % 257 * 2 ^ 16)
    ∧ (f .min .i32).toInt = min old.toInt b.toInt ∧ (f .max .i32).toInt = max old.toInt b.toInt
    ∧ (f .minn .n32).toNat = min old.toNat b.toNat ∧ (f .maxn .n32).toNat = max old.toNat b.toNat
    ∧ (let x := fval fp32 old.toNat
       let y := fval fp32 b.toNat
       let nan : Word := 0x7fc00000
       (isNan x = true → isNan y = true → f .min .f32 = nan ∧ f .max .f32 = nan)
       ∧ (isNan x = true → isNan y = false → f .min .f32 = b ∧ f .max .f32 = b)
       ∧ (isNan x = false → isNan y = true → f .min .f32 = old ∧ f .max .f32 = old)
       ∧ (isNan x = false → isNan y = false →
         (flCmp x y < 0 → f .min .f32 = old ∧ f .max .f32 = b) ∧ (0 < flCmp x y → f .min .f32 = b ∧ f .max .f32 = old)
         ∧ (flCmp x y = 0 → old = 0x80000000 → f .min .f32 = old ∧ f .max .f32 = b)
         ∧ (flCmp x y = 0 → b = 0x80000000 → f .min .f32 = b ∧ f .max .f32 = old)))
    ∧ f .and .b32 = old &&& b ∧ f .or .b32 = old ||| b ∧ f .xor .b32 = old ^^^ b
    ∧ f .xchg .b32 = b ∧ f .cas .b32 = (if old = cmp then b else old))


/-! ### Steps of the memory system, the engines and the outside -/

/-- R217, R243, R265, R278, R280, R288, R294, R440, R454, R469 and R470: what each step of the memory system, and each access to
memory from outside, leaves.
Model's choices it rests on: log 9, 12, 13, 70, 71, 74, 75, 76, 78, 88, 154. -/
def Obligations.MemoryEvents : Prop :=
  ∀ (s : State) (k n w : Nat), (∀ (g : Group) (x : Inflight), find s.groups k = some g → g.infl[n]? = some x →
      (x.atoms = [] →
        let h := x.writes.foldl (fun (g : Group) w => g.apply w) { g with infl := g.infl.eraseIdx n }
        exec (.loadDataReturn k n) s = .next (({ s with groups := put s.groups k h } : State).consumeIf k x.pois))
      ∧ (∀ r w' l, pairAtoms x.atoms x.words = (r, w') :: l →
        (isClus r = false →
          let t := s.performAtoms k ((r, w') :: l)
          exec (.atomicAtPlace k n) s =
            .next { t with groups := upd t.groups k (fun g => { g with infl := g.infl.eraseIdx n }) })
        ∧ (isClus r = true → ∀ u, w' = some u → exec (.atomicAtPlace k n) s = .next (s.clusStep k n g x r u))))
    ∧ (∀ q, s.regQ[n]? = some q → (∀ r ∈ s.regQ.take n, sameWord q r = false) →
      let t : State := { s with regQ := s.regQ.eraseIdx n }
      (∀ u, t.tryStore q = .ok u → exec (.homeStoreTest n) s = .next u)
      ∧ (∀ m, t.tryStore q = .error m → t.replayFull q.core = false → exec (.homeStoreTest n) s = .next (t.parkFailed q m)))
    ∧ (∀ c i p, s.regQ[n]? = none → s.retries[n - s.regQ.length]? = some (c, i, p) →
      exec (.homeStoreTest n) s = .next (s.retest c i p))
    ∧ (∀ c i p, s.regQ[n]? = none → s.retries[n - s.regQ.length]? = none →
      s.freed[n - s.regQ.length - s.retries.length]? = some (c, i, p) → exec (.homeStoreTest n) s = .next (s.goOn c i p))
    ∧ (∀ c x, s.l1At c w = some x → x.reg = true → x.hid = none →
      exec (.writeBackMerge c w) s =
        .next (((s.fill w x).setL1 c w { x with mask := 0, reg := false, whole := false }).expectAck x.grp w x.mask))
    ∧ exec (.storeAcknowledgement n) s = .next { s with acks := s.acks.eraseIdx n }
    ∧ (∀ v m t, s.unmapped (4 * w) = false → (s.isCell (4 * w) = true ∨ (poolOf (4 * w)).isSome = true) →
      (s.sideKept (w / 32) = false ∨ 4 * w % 2 ^ 28 < 0xf000000) →
      s.storeAtHome { core := noGroupKey, grp := noGroupKey, w := w, val := v, mask := m
                      dot := { serial := 0, time := s.now }, vec := { floor := s.pageFloor w } } = some t →
      exec (.hostDeviceWrite w v m) s = .next t)
    ∧ (∀ v s1 pa mt, s.translate (64 * s.cpDie) (n / 2 ^ 57) ((BitVec.ofNat 57 n).signExtend 64) .write false = .ok s1 pa mt →
      (isHost pa = false → exec (.copiedWriteArrival n v) s = exec (.hostDeviceWrite (pa / 4) v 0xf) s1)
      ∧ (isHost pa = true → pa % 4 = 0 →
        exec (.copiedWriteArrival n v) s = .next ((s1.writeBackAll (pa / 4) none).setWord (pa / 4) v)))
    ∧ (let u := s.sendOld w
      ((∀ c ∈ s.cores, ∀ e ∈ c.2.l1, e.2.reg = true → s.homeSlice (4 * e.1) = w →
        s.ageDot e.2.dot = e.2.dot ∧ ∀ v ∈ s.allVals e.1, s.ageDot v.dot = v.dot) → u = s)
      ∧ ∃ t, exec (.dotScrub (w / 64) (w % 64)) s = .next t ∧ t.mem = u.mem
        ∧ ∀ y r, find u.cells y = some r → find t.cells y = some (if u.homeSlice (4 * y) = w then u.ageRec r else r))
    ∧ (let u := s.fillHidden w
      (u.dirtyHolders w = [] → exec (.registrationRepair w) s =
        .next ((if u.hiddenHeld w = true then u else { u.setPois w true with cells := upd u.cells w (fun r =>
          { r with vals := r.vals.map (fun v => { v with pois := true }) }) }).resetLineDots (w / 32)))
      ∧ (∀ c x, u.dirtyHolders w = [(c, x)] →
        let val := u.setVal w { val := u.copyVal w x, pois := x.pois }
        ((u.cellRec w).vals = [] → exec (.registrationRepair w) s = .next (((val.setRec w { u.cellRec w with
          dot := x.dot, prior := none, base := none, gen := 0 }).setL1 c w { x with reg := true }).resetLineDots (w / 32)))
        ∧ ((u.cellRec w).vals ≠ [] → u.isCell (4 * w) = true →
          (∀ t, u.joinSet w [(c, x)] = some t →
            exec (.registrationRepair w) s = .next ((t.setL1 c w { x with reg := true }).resetLineDots (w / 32)))
          ∧ (u.joinSet w [(c, x)] = none → let v := u.setL1 c w { x with reg := false }
            exec (.registrationRepair w) s =
              .next (({ v with regQ := v.regQ ++ [repairReq w c x] } : State).resetLineDots (w / 32))))))
    ∧ (∀ d0, 4 * w < 0x400000000 → s.unmapped (4 * w) = false → d0 = 4 * w / 2 ^ 32 →
      let t := (s.loseWord (w / 2 * 2)).loseWord (w / 2 * 2 + 1)
      let row := rowAddr d0 (bankOf (4 * w)) (bankRow (4 * w))
      (t.canSpare d0 (bankOf (4 * w)) = true → exec (.memoryUncorrectable w) s =
        .next ((t.post (t.sliceSrc (4 * w)) 34 (BitVec.ofNat 64 (4 * w)) 1).spareRow d0 (bankOf (4 * w)) (bankRow (4 * w))))
      ∧ (t.canSpare d0 (bankOf (4 * w)) = false → exec (.memoryUncorrectable w) s =
        .next (t.post (t.sliceSrc (4 * w)) 34 (BitVec.ofNat 64 row) 2)))
    ∧ (∀ d, kindOf (4 * w) = .dram d → s.unmapped (4 * w) = false →
      let t := ((List.range 16).map (fun i => w / 16 * 16 + i)).foldl (fun s u => s.loseWord u) s
      let u : State := { t with repairs := t.repairs + 1 }
      let block : DWord := BitVec.ofNat 64 (64 * (4 * w / 64))
      (t.repairs < 16384 → exec (.memoryUncorrectable w) s = .next (u.post (u.sliceSrc (4 * w)) 34 block 1))
      ∧ (16384 ≤ t.repairs → exec (.memoryUncorrectable w) s = .next (t.post (t.sliceSrc (4 * w)) 34 block 2)))
    ∧ (∀ r, kindOf (4 * w) = .host ∨ kindOf (4 * w) = .pool r → s.unmapped (4 * w) = false →
      exec (.memoryUncorrectable w) s = .next (s.loseWord w))
    ∧ (∀ d b r, d < 4 → b < 1024 → r < 512 → 8 ≤ s.correctedIn d b r →
      let at_ : DWord := BitVec.ofNat 64 (rowAddr d b r)
      let t : State := { s with rowOut := s.rowOut ++ [(1024 * d + b, r)], repairs := s.repairs + 1
                                corrected := s.corrected.filter (fun e => e.1 ≠ (1024 * d + b, r)) }
      (s.sparesLeft d b ≠ 0 → s.repairs < 16384 → exec (.rowSpare d b r) s =
        .next (t.post (t.sliceSrc (rowAddr d b r)) 33 at_ (BitVec.ofNat 64 (t.sparesLeft d b))))
      ∧ (s.sparesLeft d b = 0 ∨ 16384 ≤ s.repairs →
        exec (.rowSpare d b r) s = .next (s.post (s.sliceSrc (rowAddr d b r)) 34 at_ 2)))
    ∧ (let t := s.cleanLine w
      exec (.poolBiSnoop w) s = .next (({ t with cores := t.cores.map (fun e => (e.1,
        if e.2.l1.any (fun x => x.1 / 32 = w && x.2.hid.isSome) then e.2
        else { e.2 with l1 := e.2.l1.filter (fun x => !(x.1 / 32 = w && x.2.mask = 0)) })) } : State).disown w))

/-- R231, R236, R312, R313, R315, R318, R321, R338, R339 and R343: the steps of copy channels, operand queues, watches and the task
gatherer. A fetched record becomes the record at hand when its OWN bit is 1, and else the channel waits for it (R312); a record is
checked in the order of R313, a failure halting the channel with its code of R318, and then its ranges are registered and the
destination's lines written back; a record whose words are performed releases its ranges and has OWN written 0, as a release with the
group's vector and the write's dot (R315).
The drain deadline that a team keeps (log 36) and that a `copyDrainExpiry` sets the timestamp counter forward to it (log 170) are the
model's choices.
Model's choices it rests on: log 22, 34, 35, 36, 89, 102, 108, 119, 120, 121, 130, 145, 147, 170. -/
def Obligations.EngineEvents : Prop :=
  ∀ (s : State) (c ch : Nat),
    let k := s.chan c ch
    let halts (t : State) (code : Nat) (a d : DWord) : State := t.haltChan c ch code a d
    (∀ (code : Nat) (a d : DWord), k.headq ≠ [] →
      let u := halts s code a d
      (u.chan c ch).st = .halted ∧ (u.chan c ch).fcode = code ∧ (u.chan c ch).frec = a ∧ (u.chan c ch).fdata = d
        ∧ (u.chan c ch).headq = [] ∧ (u.chan c ch).crec = none ∧ (u.chan c ch).nrec = none
        ∧ ∀ l ∈ (u.core c).locks, l.owner ≠ .chan ch ∧ l.owner ≠ .next ch)
    ∧ ((s.chanRuns k = true ↔ k.st = .running ∧ k.headq ≠ [] ∧ k.squash = false
        ∧ ∀ tm d, find s.teams k.team = some tm → tm.drain = some d → s.tsc.toNat < d.toNat)
      ∧ ((s.chanRuns k = false ∨ s.stopping c ch = true) → exec (.copyRecordFetch c ch) s = .next s
        ∧ exec (.copyOwnRecheck c ch) s = .next s ∧ exec (.copyRecordRegister c ch) s = .next s
        ∧ exec (.copyRecordComplete c ch) s = .next s)
      ∧ (s.chanRuns k = true → s.stopping c ch = false → ∀ x rest, k.headq = x :: rest →
        (∀ out : Res, (k.wown = false ∧ out = exec (.copyRecordFetch c ch) s ∨ k.wown = true ∧ out = exec (.copyOwnRecheck c ch) s) →
          k.crec = none →
          let va := x.cur
          let ok := canonA va = true ∧ va.toNat % 32 = 0
          let s2 := s.flushGroup x.grp
          let at_ := s2.translate c (s2.chanCtx k) va .read false
          (va = 0 → out = .next (s.endRunning c ch))
          ∧ (va ≠ 0 → ¬ok → out = .next (halts s 2 va 0))
          ∧ (va ≠ 0 → ok → s2.chainWaits x = true → out = .next s2)
          ∧ (∀ s3, va ≠ 0 → ok → s2.chainWaits x = false →
            (at_ = .wait s3 → out = .next s3) ∧ (at_ = .fault s3 → out = .next (halts s3 2 va 0))
            ∧ ∀ pa mt, at_ = .ok s3 pa mt →
              (s3.poolTrap pa ≠ 0 → out = .next (halts s3 2 va 0))
              ∧ (s3.poolTrap pa = 0 →
                let W (i : Nat) : Word := s3.homeRead (pa / 4 + i) (s3.chainConv k x)
                let r : CopyRec := { addr := va, src := W 1 ++ W 0, dst := W 3 ++ W 2, bytes := (W 4).toNat, flags := W 5
                                     next := W 7 ++ W 6 }
                let j := s3.chan c ch
                out = .next (s3.setChan c ch (if (W 5).getLsbD 0 then { j with crec := some r, wown := false }
                  else { j with wown := true })))))
        ∧ (∀ r, k.crec = some r → r.reg = false →
          let out := exec (.copyRecordRegister c ch) s
          let fails (t : State) (code : Nat) (a : DWord) : Prop :=
            let u := halts t code r.addr a
            out = .next (u.setChan c ch { u.chan c ch with again := false })
          let limits := r.src.toNat % 4 = 0 ∧ r.dst.toNat % 4 = 0 ∧ r.bytes % 4 = 0 ∧ r.bytes ≤ 16777216 ∧ r.flags.toNat < 8
            ∧ (r.next = 0 ∨ canonA r.next = true ∧ r.next.toNat % 32 = 0)
            ∧ (if r.flags.getLsbD 1 then r.src.toNat < 2 ^ 32 else canonA r.src = true)
            ∧ (if r.flags.getLsbD 2 then r.dst.toNat < 2 ^ 32 else canonA r.dst = true) ∧ s.recOverlaps k r = false
          let bad (on : Bool) (a : DWord) := on = true ∧ r.bytes ≠ 0 ∧ s.recSpad k a r.bytes = none
          (¬limits → fails s 1 0)
          ∧ (limits → bad (r.flags.getLsbD 1) r.src → fails s 5 r.src)
          ∧ (limits → ¬bad (r.flags.getLsbD 1) r.src → bad (r.flags.getLsbD 2) r.dst → fails s 5 r.dst)
          ∧ (limits → ¬bad (r.flags.getLsbD 1) r.src → ¬bad (r.flags.getLsbD 2) r.dst →
            (∀ s1 code a, s.chkGlobals c k r = .bad s1 code a → fails s1 code a ∧ (code = 3 ∨ code = 4 ∨ code = 6))
            ∧ (∀ s1, s.chkGlobals c k r = .wait s1 → out = .next s1)
            ∧ (∀ s1, s.chkGlobals c k r = .ok s1 →
              let ls := [s1.recLock k (.chan ch) (r.flags.getLsbD 1) false r.src r.bytes,
                s1.recLock k (.chan ch) (r.flags.getLsbD 2) true r.dst r.bytes]
              (s1.tryLock c ls = none → out = .next s1)
              ∧ ∀ s2, s1.tryLock c ls = some s2 →
                let lo := r.dst.toNat
                let s3 := if r.flags.getLsbD 2 || r.bytes = 0 then s2 else s2.cleanLines c (s2.rangeLines c (s2.chanCtx k) lo
                  (lo + r.bytes) ((lo + r.bytes - 1) / 4096 + 1 - lo / 4096) (lo / 4096)) true
                out = .next (s3.setChan c ch { s3.chan c ch with crec := some { r with reg := true }, again := false }))))
        ∧ (∀ r, k.crec = some r → r.reg = true →
          (k.nrec = none → k.wown = false → exec (.copyRecordFetch c ch) s = .next (s.fetchNext c ch r))
          ∧ (∀ n, k.nrec = some n → n.reg = false → exec (.copyRecordRegister c ch) s = .next (s.registerNext c ch n))
          ∧ (let out := exec (.copyRecordComplete c ch) s
            (r.pos < r.bytes / 4 → out = .next (s.completeRec c ch r))
            ∧ (r.bytes / 4 ≤ r.pos → s.awaits x.grp r.host = true → out = .next s)
            ∧ (∀ s1 pa mt, r.bytes / 4 ≤ r.pos → s.awaits x.grp r.host = false →
              s.translate c (s.chanCtx k) (r.addr + 0x14) .write false = .ok s1 pa mt →
              (s1.poolTrap pa ≠ 0 → out = .next (halts s1 2 r.addr 0))
              ∧ (s1.poolTrap pa = 0 →
                let y : Chain := { x with vec := { x.vec with own := x.dot } }
                let s2 := s1.unlock c (.chan ch)
                let s3 := s2.writeBackAll (pa / 4) none
                ∀ s4, s2.engineStore c ch k y (r.addr + 0x14) pa (r.flags &&& ~~~1) false true = .ok s4 →
                  let t := s4.setChan c ch { s4.chan c ch with headq := { y with cur := r.next } :: rest, crec := none }
                  out = .next (if r.next = 0 then t.endRunning c ch else t.adoptNext c ch)
                  ∧ (∀ l ∈ (t.core c).locks, l.owner ≠ .chan ch)
                  ∧ (x.level = 0 → s1.isCell pa = false → s4.word (pa / 4) = r.flags &&& ~~~1)
                  ∧ (x.level = 0 → s1.isCell pa = true →
                    (s3.reown (pa / 4 / 32)).entriesUsed (s3.homeSlice (4 * (pa / 4))) + 5 ≤ 16384 →
                    (∀ v ∈ s3.allVals (pa / 4), v.hid = none ∧ v.disp = [] ∧ dominates y.vec v.dot = true) →
                    s4.word (pa / 4) = r.flags &&& ~~~1
                    ∧ { vec := y.vec, dot := x.dot, hid := none } ∈ (s4.cellRec (pa / 4)).vrec)))))))
    ∧ (∀ tm d, find s.teams k.team = some tm → tm.drain = some d → k.st ≠ .free → teamCore k.team = c →
      exec (.copyDrainExpiry c ch) s =
        .next (({ s with tsc := if s.tsc.toNat < d.toNat then d else s.tsc } : State).squashChan c ch))
    ∧ (∀ (n : Nat) (q : QReg) (g : Group) (s1 : State), find s.groups n = some g →
      let o := g.queue q
      (∀ m p e r, o.left = (m, p, e) :: r →
        (∀ x, s.entryOf n g p e (List.range g.gw) [] false = (s1, some x) → exec (.patternElementFetch n q) s =
          .next { s1 with groups := upd s1.groups n (fun g => g.setQueue q { g.queue q with left := r }) })
        ∧ (s.entryOf n g p e (List.range g.gw) [] false = (s1, none) → exec (.patternElementFetch n q) s = .next s1))
      ∧ (o.left = [] → o.st = .running → o.entries.length < 8 → g.stopReq = false → s.fetchFull n g o = false →
      (∀ x, s.entryOf n g o.pat o.nextE (List.range g.gw) [] false = (s1, some x) →
        let t := if o.wait = none then (s1.countAcc n .pat).2 else s1
        exec (.patternElementFetch n q) s = .next { t with groups := upd t.groups n (fun g => g.setQueue q
          { o with entries := o.entries ++ [x], nextE := o.nextE + 1, wait := none
                   st := if patEntries o.pat g.gw ≤ o.nextE + 1 then .exhausted else .running }) })
      ∧ (s.entryOf n g o.pat o.nextE (List.range g.gw) [] false = (s1, none) →
        let t := (s1.countAcc n .pat).2
        exec (.patternElementFetch n q) s = .next (if o.wait = none
          then { t with groups := upd t.groups n (fun g => g.setQueue q { o with wait := some (s1.countAcc n .pat).1 }) }
          else s1))))
    ∧ (∀ (die slice ent : Nat) (v : Watch) (a : DWord) (u : Word) (d : Dot) (r : List (DWord × Word × Dot)) (tm : Team)
        (s1 : State),
      let j := 64 * die + slice
      find (s.slice j).watches ent = some v → v.trigs = (a, u, d) :: r → find s.teams v.team = some tm →
      s.insertTask v.core v.team tm.gw v.entry
        { args := trigArgs v a u d (watchHandle j ent v.gen), vec := mergeDot v.vec d } = some s1 →
      let t := s1.dropCopy v.core ((v.lo + (a - v.va).toNat) / 4)
      let ws := if v.armed = false ∧ r = [] then del (t.slice j).watches ent
        else put (t.slice j).watches ent { v with trigs := r, drops := 0 }
      exec (.watchTriggerDeliver die slice ent) s = .next (t.setSlice j { t.slice j with watches := ws }))
    ∧ (∀ h, find (s.core c).gathers ch = some h →
      ((s.core c).tgcfg.toNat ≤ laneClocks (s.ratioNow c) h.since.toNat s.tsc.toNat →
        exec (.gatherWindowExpiry c ch) s =
          .next (s.setCore c { s.core c with gathers := put (s.core c).gathers ch { h with closed := true } }))
      ∧ (∀ tm p o e n, find s.teams h.team = some tm → h.closed = true → s.atRegroup h.team = false → tm.drain = none →
        let i := freshFrom ((s.members h.team).map (fun e => e.2.gid)) 16 0
        i < 16 → s.place c tm.gw tm.regs (some (.create ch)) = some (p, o) → s.freeEntry c = some e → s.freeSerial = some n →
        let t : State := { s with groups := put s.groups (128 * c + e) (taskGroup s h.team tm h i p o n) }
        let u := (t.takeSerial n).dropCreate c ch
        exec (.gatherLaunch c ch) s = .next (u.setCore c { u.core c with gathers := del (u.core c).gathers ch })))

/-! ### Steps of teams and of a group's clocks -/

/-- R276, R331, R334, R345, R347, R367, R375, R385, R410, R414, R419, R421, R434, R471 and R472: admission, release, pre-emption
and restore of teams, held traps, rollback of an alternate (what it leaves is said for a team outside any conversation, at its only
open level), and the steps that a group's or core's clocks bring. What `startTrap` and `stepEntry` do is said by `TrapEntry`.
These clauses are the model's choices: a `preempt` of a team that a `ctxsv` saves leaves the machine as it is (log 40), the frame's
address that a `handlerBudgetExpiry` reports (log 37), a reservation only where the core holds none (log 69), and that a trap waits
for the group's unsettled work (log 11, 96).
Model's choices it rests on: log 11, 36, 37, 39, 40, 49, 50, 69, 83, 95, 96, 109, 167. -/
def Obligations.TeamEvents : Prop :=
  ∀ (s s1 : State) (k t c : Nat),
    (∀ l i, ((∀ x ∈ s.earlier l i, s.placeable x = false) → s.seatInst l i c = some s1 →
        exec (.teamAdmit l i c) s = .next s1
        ∧ ∃ L0 L1, find s.launches l = some L0 ∧ find s1.launches l = some L1 ∧ L1.seated = L0.seated ++ [i]
          ∧ ∃ e ∈ s1.insts, e.2.launch = l ∧ e.2.k = i ∧ ∀ u ∈ e.2.teams, ∃ tm, find s1.teams u = some tm
            ∧ tm.launch = l ∧ tm.ctx = L0.ctx ∧ tm.inst = e.1 ∧ tm.spadB = L0.desc.spad)
      ∧ (∀ L, find s.launches l = some L → L.ended = true ∨ i ∈ L.seated → exec (.teamAdmit l i c) s = .next s))
    ∧ (s.seatDone t = true → ∀ tm, find s.teams t = some tm →
      ∃ u, exec (.seatRelease t) s = .next u ∧ find u.teams t = none
        ∧ ∀ L, find s.launches tm.launch = some L → 1 < L.left →
          find u.launches tm.launch = some { L with left := L.left - 1 })
    ∧ (s.seatDone t = false → exec (.seatRelease t) s = .next s)
    ∧ (∀ g, find s.groups k = some g →
      (g.pend = [] → exec (.trapEntry k) s = .next s)
      ∧ (∀ p r, g.pend = p :: r → g.tclass = false → g.stopd = false → g.stopReq = false →
        (∀ e, g.entry = some e → exec (.trapEntry k) s = .next (s.stepEntry k))
        ∧ (g.entry = none → s.isContained g p.num = true → ∃ u h, exec (.trapEntry k) s = .next u
          ∧ u.teams = (s.failAlt g.seat (s.depth g.seat) 4 p.num.toNat g.gid).teams
          ∧ find u.groups k = some h ∧ h.pend = r ∧ h.frozen = r.any (·.lane) ∧ h.pc = g.pc ∧ h.tclass = false)
        ∧ (g.entry = none → s.isContained g p.num = false →
          exec (.trapEntry k) s = .next (s.startTrap k { trap := p, held := true }))))
    ∧ (∀ tm, find s.teams t = some tm →
      (tm.fail = none → exec (.alternateRollback t) s = .next s)
      ∧ (∀ f l, tm.fail = some f → tm.levels = [l] → f.level = 1 → tm.conv = none → (s.dropParked t 1).canRoll t = true →
        ∃ u, exec (.alternateRollback t) s = .next u ∧ (∀ v, find u.teams t = some v → v.fail = none)
          ∧ (∀ k g, find s.groups k = some g → ∃ h, find u.groups k = some h
            ∧ (∀ i v, .x k i v ∈ l.caps → (∀ w, .x k i w ∈ l.caps → w = v) → sget 0 h.xs i = v)
            ∧ ∀ i, (∀ v, .x k i v ∉ l.caps) → sget 0 h.xs i = sget 0 g.xs i)
          ∧ (∀ w i v vals, w = 32 * i + v → v < 32 → .line i vals ∈ l.caps → (∀ z, .line i z ∈ l.caps → z = vals) →
            l.wrote.contains w = true → s.poolTrap (4 * w) = 0 → s.isCell (4 * w) = false → find s.cells w = none →
            u.word w = vals.getD v 0)))
    ∧ ((s.preemptSet t).any (fun u => ((find s.teams u).bind (·.saver)).isSome) = true → exec (.preempt t) s = .next s)
    ∧ ((s.preemptSet t).any (fun u => ((find s.teams u).bind (·.saver)).isSome) = false → ∀ u b, s.preemptTeam t = (u, b) →
      exec (.preempt t) s = .next u
      ∧ (b = true → find u.teams t = none ∧ (∀ e ∈ u.groups, e.2.seat ≠ t) ∧ ∃ sv ∈ u.saved, sv.key = t))
    ∧ (∀ n sv, s.saved[n]? = some sv →
      (∀ u, s.restoreSave sv c = some (s1, u) → exec (.restore n c) s = .next s1
        ∧ (∀ x ∈ s1.saved, x.inst ≠ sv.inst) ∧ (find s1.teams u).isSome = true)
      ∧ (s.restoreSave sv c = none → exec (.restore n c) s = .next s))
    ∧ (∀ g, find s.groups k = some g →
      (g.tclass = true → g.stopd = false → (s.ctxOf g).budget ≤ g.budget →
        let r : State := { s with groups := upd s.groups k (fun g => { g with stopd := true }) }
        exec (.handlerBudgetExpiry k) s = .next ((r.post (slateSrc k) 5 (frameAddr (s.ctxOf g) (g.frameK.getD k))
          (ctxImage (s.ctxId g) (s.ctxOf g))).endCtx (s.ctxId g) 0x80000001 (slateSrc k)))
      ∧ (∀ a, g.awt = some a → exec (.awaitRecheck k) s = recheckAwait { s with cur := k } g a)
      ∧ (∀ u, g.nap = some u → u.toNat ≤ s.tsc.toNat →
        let h : Group := { g with pc := g.pc + 4, wf := {}, waitN := none, nap := none }
        exec (.napExpiry k) s = .next { s with groups := put s.groups k h })
      ∧ (∀ u, g.rdyS = some u → 1024 ≤ streamClocks (s.ratioNow (coreOf k)) false u.toNat s.tsc.toNat →
        exec (.groupOverdue k false) s = .next { s with groups := put s.groups k { g with dueS := some (g.dueS.getD s.tsc) } })
      ∧ (∀ u, g.rdyL = some u → 1024 ≤ streamClocks (s.ratioNow (coreOf k)) true u.toNat s.tsc.toNat →
        exec (.groupOverdue k true) s = .next { s with groups := put s.groups k { g with dueL := some (g.dueL.getD s.tsc) } })
      ∧ (g.wf.kind ≠ 0 → g.wf.told = false → s.wdcfg ≠ 0 → g.wf.since.toNat + 1000000000 * s.wdcfg.toNat ≤ s.tsc.toNat →
        let r : State := { s with groups := put s.groups k { g with wf := { g.wf with told := true } } }
        exec (.longWait k) s = .next (r.post (coreOf k) 8 (BitVec.ofNat 64 (k % 128)) (ctxImage (s.ctxId g) (s.ctxOf g)))))
    ∧ (∀ u, (s.core c).chgClk = some u → u.toNat ≤ s.tsc.toNat →
      exec (.clockChangeDone c) s = .next (s.setCore c { s.core c with chgClk := none }))
    ∧ (∀ p r, s.starved (4 * c + p) = some r → s.reservation c = none →
      exec (.powerReserve c p) s = .next (s.setPipe (4 * c + p) { s.pipe (4 * c + p) with reserved := some r }))
    ∧ (∀ tm n l, find s.teams t = some tm → 1 ≤ n → n ≤ tm.levels.length → tm.levels[tm.levels.length - n]? = some l →
      l.limit ≠ 0 → l.limit ≤ l.spent → tm.passed = false →
      exec (.cycleLimitExpiry t n) s = .next (s.failAlt t n 2 0 0))
    ∧ (let rows (l : List Nat) : List (Nat × WaitRow) :=
        l.map (fun k => (k, match find s.groups k with | some g => waitId g.wf | none => {}))
      exec .deadlockWalk s = .next ((s.cyclesNow.filter (fun l => s.walk.contains (rows l))).foldl (fun s l => s.declare l)
        { s with walk := (s.cyclesNow.filter (fun l => !(s.walk.contains (rows l)))).map rows }))

/-! ### Power, reset and repair -/

/-- R7, R122, R465 and R473 to R480: the steps of power management and of the watchdogs, the writes of management registers,
calibration, gating, reset and the lifting of reduced service.
Model's choices it rests on: log 7, 77, 78, 79, 84, 85, 122, 123, 157. -/
def Obligations.PowerEvents : Prop :=
  ∀ (s : State) (c d : Nat) (v : DWord),
    (∀ r : BitVec 9, let t := (s.resumeDie (c / 64)).settleAllow c
      exec (.powerBudgetUpdate c r) s = .next (t.setCore c { t.core c with refill := r, hwdef := false })
      ∧ (r = (v >>> 16).truncate 9 → exec (.pwrctlWrite c v) s =
        .next (t.setCore c { t.core c with refill := r, hwdef := false })))
    ∧ (∀ p, (s.pipeBusy (4 * c + p) = false → (v.getLsbD 0 = true → v.toNat / 2 % 64 ≤ 32) →
        exec (.psteerWrite c p v) s = .next (s.setPipe (4 * c + p) { s.pipe (4 * c + p) with psteer := v &&& 0x7ff }))
      ∧ (s.pipeBusy (4 * c + p) = true ∨ v.getLsbD 0 = true ∧ 32 < v.toNat / 2 % 64 → exec (.psteerWrite c p v) s = .next s))
    ∧ (∀ p, ∃ x y : DWord,
      exec (.mgmtRegisterWrite (.pchklog c p) v) s = .next (s.setPipe (4 * c + p) { s.pipe (4 * c + p) with pchklog := x })
      ∧ exec (.mgmtRegisterWrite (.poctlog c p) v) s = .next (s.setPipe (4 * c + p) { s.pipe (4 * c + p) with poctlog := y })
      ∧ (∀ i < 64, x.getLsbD i = if i < 32 ∨ 48 ≤ i then v.getLsbD i
          else (s.pipe (4 * c + p)).pchklog.getLsbD i && !(decide (i = 38) && v.getLsbD 38))
      ∧ (∀ i < 64, y.getLsbD i = if i < 32 ∨ 48 ≤ i then v.getLsbD i
          else (s.pipe (4 * c + p)).poctlog.getLsbD i && !(decide (i = 35) && v.getLsbD 35)))
    ∧ exec (.mgmtRegisterWrite (.cpcfg c) v) s = .next (s.setCore c { s.core c with cpcfg := v.truncate 16 })
    ∧ exec (.mgmtRegisterWrite (.tgcfg c) v) s = .next (s.setCore c { s.core c with tgcfg := v.truncate 16 })
    ∧ exec (.mgmtRegisterWrite (.sepcfg c) v) s = .next (s.setCore c { s.core c with sepcfg := v.truncate 15 })
    ∧ exec (.mgmtRegisterWrite .wdcfg v) s = .next { s with wdcfg := v.truncate 16 }
    ∧ exec (.mgmtRegisterWrite (.pgcfg d) v) s = .next (s.setDie d { s.die d with pgcfg := v.truncate 16 })
    ∧ exec (.mgmtRegisterWrite (.sqbase c) v) s = .next (s.setHostCh c { s.hostCh c with sqbase := v })
    ∧ exec (.mgmtRegisterWrite (.sqlog c) v) s = .next (s.setHostCh c { s.hostCh c with sqlog := v.truncate 5 })
    ∧ exec (.mgmtRegisterWrite (.cqbase c) v) s = .next (s.setHostCh c { s.hostCh c with cqbase := v })
    ∧ exec (.mgmtRegisterWrite (.cqlog c) v) s = .next (s.setHostCh c { s.hostCh c with cqlog := v.truncate 5 })
    ∧ ((s.die d).restart = false → d < 4 → (∀ p ∈ s.flash, ¬ (p.kind = 5 ∧ p.die = d)) →
      let t := (List.range 64).foldl (fun (s : State) i => (s.settleAllow (64 * d + i)).setCore (64 * d + i)
        { (s.settleAllow (64 * d + i)).core (64 * d + i) with refill := 153, hwdef := true }) s
      exec (.heartbeatWatchdog d) s = .next ((t.setDie d { t.die d with restart := true }).bootDie d))
    ∧ (let k := (s.settleAllow c).core c
      (k.droop = false → exec (.droopDetect c) s = .next ((s.setCore c
        { k with recd := some k.ratio, ratio := .half, droop := true }).post c 35 (BitVec.ofNat 64 c) 1))
      ∧ (k.droop = true → exec (.droopRelease c) s = .next ((s.setCore c
        { k with recd := none, ratio := k.recd.getD k.ratio, droop := false }).post c 35 (BitVec.ofNat 64 c) 0)))
    ∧ ((s.die d).tstop = false → exec (.thermalTrip d) s =
        .next ((s.setDie d { s.die d with tstop := true }).post (0x3000 + d) 36 (BitVec.ofNat 64 d) 1))
    ∧ ((s.die d).tstop = true → exec (.thermalRelease d) s =
        .next ((s.setDie d { s.die d with tstop := false }).post (0x3000 + d) 36 (BitVec.ofNat 64 d) 0))
    ∧ exec .suspectCountAge s =
        .next { s with suspects := s.suspects.filter (fun e => decide (s.tsc.toNat ≤ e.2.toNat + 86400000000000)) }
    ∧ ((∀ u, (s.core c).calT = some u → u.toNat + 86400000000000 ≤ s.tsc.toNat) →
      s.idleFor c 1000000 = true → (s.core c).gated = false →
      let fails := (Config.failVolt s.free).toNat
      let f := failStep ((s.core c).calV.getD Config.nominal.toNat) fails
      let t : State := { s with free := s.free + 1 }
      exec (.calibrate c) s = .next (if Config.nominal.toNat ≤ fails
        then ((t.setCore c { s.core c with calT := some s.tsc }).requestRetire
          { kind := 2, core := c, pipe := (Config.failPipe s.free).toNat, part := 0, die := 0 }).1
        else (t.setCore c { s.core c with calV := some (min Config.nominal.toNat (f + 40)), calT := some s.tsc }).post c 32
          (BitVec.ofNat 64 c) (BitVec.ofNat 64 f)))
    ∧ (∀ u, (s.core c).calT = some u → s.tsc.toNat < u.toNat + 86400000000000 → exec (.calibrate c) s = .next s)
    ∧ (s.restarting = true → exec (.calibrate c) s = .next s ∧ exec (.powerGate c) s = .next s)
    ∧ (s.idleFor c (1000 * (s.die (c / 64)).pgcfg.toNat) = true → (s.core c).gated = false →
      exec (.powerGate c) s = .next ((s.cleanCore c).setCore c { (s.cleanCore c).core c with l1 := [], gated := true }))
    ∧ (∃ t, exec .moduleReset s = .next t ∧ t.groups = [] ∧ t.teams = [] ∧ t.ctxs = [] ∧ t.launches = []
      ∧ t.mem = s.mem.filter (fun e => isHost e.1 || (poolOf e.1).isSome) ∧ t.flash = s.flash ∧ t.tsc = 0 ∧ t.envW = envelope s.flashW)
    ∧ (∀ dies lv : BitVec 4, lv = dies &&& ~~~s.diesRetired →
      s.reduced = true → lv.getLsbD 0 = true → (∀ e ∈ s.ctxs, e.2.halted ≠ none) →
      let t := (List.range 256).foldl (fun (s : State) c => s.settleAllow c) s
      exec (.reducedServiceLift dies) s =
        .next ((({ t with live := lv, reduced := false, routes := t.topo } : State).linksDown
          (((List.range 4).filter (fun i => !(lv.getLsbD i))).flatMap dieLinks)).post 0x3000 38 (lv.zeroExtend 64) 0))


/-! ### Pool regions, host channels, graphs and retirement -/

/-- R440 to R448 and R455: losing, rejoining, mapping and unmapping pool regions, with the completion STATUS of the REGION
packets. The order of a rejoin's refusals (log 158), the port that an unanswered request reports (log 162), and the count of a discard
(log 163) are the model's choices.
Model's choices it rests on: log 20, 28, 86, 88, 118, 132, 149, 156, 158, 162, 163. -/
def Obligations.PoolEvents : Prop :=
  ∀ (s : State) (p r : Nat) (h : PktHdr),
    ((sget {} s.ports p).up = true → exec (.poolLinkDown p) s =
      .next (({ s with ports := sset {} s.ports p { sget {} s.ports p with up := false } } : State).loseRegions p
        (s.regionsWhere (fun g => g.port = p))))
    ∧ (∀ dev x l, s.regionsWhere (fun g => Config.poolDev g.cxl = dev) = x :: l →
      exec (.poolRequestTimeout dev) s = .next (s.loseRegions (s.region x).port (x :: l)))
    ∧ (p < 2 → s.dieLive (portDie p) = true → ∀ reach,
      exec (.cxlLinkTraining p reach) s = .next { s with ports := sset {} s.ports p { up := true, reach := reach } })
    ∧ (∀ l x, (s.region r).st = .rejoin → (s.region r).flush = true →
      (s.region r).strand.find? (fun x => x.line = l) = some x → x.heldBack = false →
      exec (.rejoinLineWritten r l) s = .next (s.flushLine r x))
    ∧ ((s.region r).st = .rejoin → exec (.strandedFlushRetry r) s =
      .next (((s.region r).strand.filter (·.heldBack)).foldl (fun s x =>
        if (s.region r).st = .rejoin then s.flushLine r x else s) s))
    ∧ (let t := s.headOn h.ch
      let g := t.region r
      let ends_ (u : State) (status : Nat) : Res := .next ((u.complete h.ch h.tag 7 status []).passBad h.ch 65536)
      (∀ (cxl : DWord) (devs : List Nat) (b : PktBody) (i : Instr) (mode : Nat),
        (b = .region 0 r p cxl devs ∧ i = .regionMapPlain h r p cxl devs ∧ mode = 1
          ∨ b = .region 1 r p cxl devs ∧ i = .regionMapVersioned h r p cxl devs ∧ mode = 2) →
        s.nextPkt h.ch = some (.ok h b) → p < 2 → cxl.toNat % 2 ^ 28 = 0 → (∀ d ∈ devs, d ≤ 4095) →
        (g.mode ≠ 0 → exec i s = ends_ t 0x24)
        ∧ (g.mode = 0 → mode = 2 → t.winSize = 0 ∨ (∃ d ∈ devs, Config.synced d = false) → exec i s = ends_ t 0x21)
        ∧ (g.mode = 0 → (mode = 2 → t.winSize ≠ 0 ∧ ∀ d ∈ devs, Config.synced d = true) → exec i s = ends_ { t with
            regions := sset {} t.regions r { mode := mode, port := p, cxl := cxl, losses := g.losses } } 0))
      ∧ (s.nextPkt h.ch = some (.ok h (.region 2 r 0 0 [])) →
        (g.mode = 0 → exec (.regionUnmap h r) s = ends_ t 0x28)
        ∧ (g.mode ≠ 0 → t.mapped r = true → exec (.regionUnmap h r) s = ends_ t 0x23)
        ∧ (g.mode ≠ 0 → t.mapped r = false → exec (.regionUnmap h r) s = ends_ { t with
            regions := sset {} t.regions r { losses := g.losses }
            acks := t.acks.filter (fun a => !(inRegion r a.w)) } 0))
      ∧ (p < 2 → g.mode ≠ 0 → t.portUp p = true → (sget {} t.ports p).reach.contains (Config.poolDev g.cxl) = true →
        (s.nextPkt h.ch = some (.ok h (.region 3 r p 0 [])) → g.st = .lost →
          exec (.regionRejoinFlush h r p) s = ends_ (t.rejoin r p) 0)
        ∧ (s.nextPkt h.ch = some (.ok h (.region 4 r p 0 [])) → g.st = .lost ∨ g.st = .rejoin →
          exec (.regionRejoinDiscard h r p) s = ends_ (t.discardStrand r p) 0))
      ∧ (∀ (i : Instr) (op : Nat), (op = 3 ∧ i = .regionRejoinFlush h r p ∨ op = 4 ∧ i = .regionRejoinDiscard h r p) →
        s.nextPkt h.ch = some (.ok h (.region op r p 0 [])) → p < 2 →
        let fits := g.mode ≠ 0 ∧ (g.st = .lost ∨ op = 4 ∧ g.st = .rejoin)
        (¬ fits → exec i s = ends_ t 0x25)
        ∧ (fits → t.portUp p = false → exec i s = ends_ t 0x26)
        ∧ (fits → t.portUp p = true → (sget {} t.ports p).reach.contains (Config.poolDev g.cxl) = false →
          exec i s = ends_ t 0x27)))

/-- R416, R432, R444, R450 to R453, R456, R462 and R463: channel registers and the packets other than REGION, with their
completion STATUS; a packet is performed when it stands at HEAD of its channel, and HEAD then moves on. The serial and time of
an attestation report's words are the model's choice (log 133).
Model's choices it rests on: log 31, 32, 33, 42, 90, 92, 94, 125, 133, 150, 151, 152, 164. -/
def Obligations.ChannelEvents : Prop :=
  ∀ (s : State) (ch : Nat) (h : PktHdr) (addr : DWord),
    (ch < 16 →
      (∀ tail, exec (.channelDoorbell ch tail) s =
        .next ((s.setHostCh ch { s.hostCh ch with tail := tail }).passBad ch 65536))
      ∧ (∀ head, exec (.completionHeadWrite ch head) s =
        .next (((s.setHostCh ch { s.hostCh ch with cqhead := head }).pump ch).passBad ch 65536))
      ∧ (∀ en, exec (.channelEnable ch en) s = .next (((s.setHostCh ch { s.hostCh ch with
          en := en, ring := if en ∧ (s.hostCh ch).en = false then ringOf (s.hostCh ch) else (s.hostCh ch).ring }).pump
            ch).passBad ch 65536)))
    ∧ (let t := s.headOn h.ch
      let ends_ (u : State) : Res := .next (u.passBad h.ch 65536)
      let n := h.ctxid.toNat
      (s.nextPkt h.ch = some (.ok h (.ctx addr)) →
        (∀ id cx, addr.toNat % 64 = 0 → inMemory t addr.toNat = true → parseCtx (t.homeBytes addr.toNat 64) = some (id, cx) →
          exec (.ctxPkt h addr) s = ends_ ((t.nameCtx id addr.toNat cx).complete h.ch h.tag 1 0 []))
        ∧ (addr.toNat % 64 ≠ 0 → exec (.ctxPkt h addr) s = ends_ (t.complete h.ch h.tag 1 0x11 [])))
      ∧ (s.nextPkt h.ch = some (.ok h (.launch addr)) →
        let u : State := { t with nextUid := t.nextUid + 1 }
        (addr.toNat % 64 ≠ 0 → exec (.launchPkt h addr) s = ends_ (u.complete h.ch h.tag 2 2 []))
        ∧ (addr.toNat % 64 = 0 → u.ctxOpen n = false → exec (.launchPkt h addr) s = ends_ (u.complete h.ch h.tag 2 3 []))
        ∧ (∀ v d, addr.toNat % 64 = 0 → u.ctxOpen n = true → u.readDesc n addr = .ok v d →
          let l : Launch := { ctx := n, ch := h.ch, tag := h.tag, daddr := addr, desc := d, left := d.grid }
          exec (.launchPkt h addr) s = ends_ { v with launches := put v.launches t.nextUid l }))
      ∧ (∀ v ns es, s.nextPkt h.ch = some (.ok h (.graph addr)) →
        let u : State := { t with nextUid := t.nextUid + 1 }
        addr.toNat % 8 = 0 → u.ctxOpen n = true → u.readGraph n addr = .ok v (ns, es) → acyclic ns.length es = true →
        (∀ e ∈ es, v.remote e = true → v.routed e.dev = true) →
        let g : Graph := { ctx := n, ch := h.ch, tag := h.tag, edges := es, addrs := ns.map (·.2.2)
                           nodes := ns.map (fun x => (x.1, x.2.1, false, false)) }
        exec (.graphPkt h addr) s = ends_ ((({ v with graphs := put v.graphs t.nextUid g } : State).admitNodes
          t.nextUid).finishGraph t.nextUid 0 0))
      ∧ (s.nextPkt h.ch = some (.ok h .quiesce) → ((find t.ctxs n).isSome = true → exec (.quiescePkt h) s = ends_ { t with
          quiesces := t.quiesces ++ [{ ctx := n, ch := h.ch, tag := h.tag, after := t.openWork n }] }))
      ∧ (∀ rid x y, s.nextPkt h.ch = some (.ok h (.hreply rid x y)) → exec (.hreplyPkt h rid x y) s = ends_ (t.reply rid x y))
      ∧ (∀ rid f, s.nextPkt h.ch = some (.ok h (.fdone rid f)) → exec (.fdonePkt h rid f) s = ends_ (t.endService rid f))
      ∧ (∀ fab base size, s.nextPkt h.ch = some (.ok h (.devcfg fab base size)) → fab ≤ 4095 →
        (base = 0 ∧ size = 0 ∨ 1 ≤ base ∧ 32768 ≤ size ∧ base + size - 1 ≤ 0xffffff) →
        (t.groups = [] → t.saved = [] → exec (.devcfgPkt h fab base size) s = ends_ (({ t with
            fabric := BitVec.ofNat 12 fab, winBase := BitVec.ofNat 24 base, winSize := BitVec.ofNat 24 size } : State).complete
              h.ch h.tag 8 0 []))
        ∧ (t.groups ≠ [] ∨ t.saved ≠ [] → exec (.devcfgPkt h fab base size) s = ends_ (t.complete h.ch h.tag 8 0x22 [])))
      ∧ (∀ rep : DWord, s.nextPkt h.ch = some (.ok h (.attest addr rep)) → addr.toNat % 64 = 0 → rep.toNat % 64 = 0 →
        inMemory t addr.toNat = true → inMemory t rep.toNat = true →
        let u : State := { t with free := t.free + 1 }
        let put_ := u.putBytesHome rep.toNat (reportBytes u t.free (u.homeBytes addr.toNat 64))
        (∀ v, put_ = some v → exec (.attestPkt h addr rep) s = ends_ (v.complete h.ch h.tag 9 0 []))
        ∧ (put_ = none → exec (.attestPkt h addr rep) s = .next s))
      ∧ (∀ bytes slot, s.nextPkt h.ch = some (.ok h (.fwupd addr bytes slot)) → addr.toNat % 4096 = 0 → 1 ≤ bytes →
        bytes ≤ 67108864 → slot ≤ 1 → inMemory t addr.toNat = true → ((t.die t.cpDie).slotB = true ↔ slot = 0) →
        exec (.fwupdPkt h addr bytes slot) s = ends_ (if t.imageValid (t.homeBytes addr.toNat bytes) = true
          then ({ t with fwPend := t.fwPend.filter (fun e => e.1 ≠ slot) ++ [(slot, t.homeBytes addr.toNat bytes)] } : State).complete h.ch h.tag 10 0 []
          else t.complete h.ch h.tag 10 0x31 [])))

/-- R259 to R262, R435, R454, R457, R458, R460, R461, R465 and R466: edges and quiesce points of graphs, retirement of parts,
the forced takeover, and failing links. That an edge cleans in every L1 of the device is the model's choice (log 51).
Model's choices it rests on: log 27, 51, 80, 81, 82, 91, 93. -/
def Obligations.GraphRetireEvents : Prop :=
  ∀ (s : State) (i n : Nat),
    (∀ g e, find s.graphs i = some g → g.edges[n]? = some e → e.sat = false →
      let cx := nodeCtx g e.src
      (g.ended = false → s.nodeEnded i e.src = true → (e.flags % 2 = 1 → s.quiet cx = true) →
        let t := s.cleanEdge cx e
        let u := if e.flags % 2 = 1 then t.quiesceNow cx else t
        let v := if e.flags = 3 ∧ s.remote e = false then u.moveFlows cx e else u
        (s.remote e = false → exec (.graphEdgeSatisfy i n) s = .next ((v.satisfy i n).finishGraph i 0 0))
        ∧ (s.remote e = true → ∀ w c, v.copyOut cx e.regs [] = .ok w c →
          exec (.graphEdgeSatisfy i n) s = .next (((w.sendEdge i n e cx c).satisfy i n).finishGraph i 0 0)))
      ∧ (s.remote e = false → exec (.remoteEdgeSignal i n) s = .next (s.satisfy i n)))
    ∧ (∀ q, s.quiesces.find? (fun q => q.ctx = i && !q.ended) = some q → (∀ u ∈ q.after, u ∉ s.openWork i) →
      s.quiet i = true →
      let t := s.quiesceNow i
      exec (.quiescePoint i) s =
        .next (({ t with quiesces := endQuiesce i t.quiesces } : State).complete q.ch q.tag 4 0 []))
    ∧ (∀ p t, s.retireQ[n]? = some (p, t) →
      (s.partFree p = true → exec (.retireApply n) s = .next (s.retirePart p))
      ∧ (t.toNat + 1000000000 ≤ s.tsc.toNat → p.kind ≠ 4 → exec (.retireTimeout n) s =
        .next ((s.teamsOn p).foldl (fun s u => s.cpPreempt u) s)))
    ∧ (∀ p t, s.retireQ.find? (fun e => (e.1.kind = 4 || e.1.kind = 5) && e.1.die = 0 && s.partFree e.1) = some (p, t) →
      let ids := (s.running.map (fun e => e.2.ctx)).dedup
      let a := ids.foldl (fun s c => s.postHalt c 0x80000004 0x3002) (s.running.foldl (fun s e => s.haltKernel e.1 e.2 0x80000004) s)
      let b := (a.quiesces.filter (fun q => !q.ended)).foldl (fun s q => s.complete q.ch q.tag 4 7 []) a
      exec .cpTakeoverForced s = .next (({ b with quiesces := b.quiesces.map (fun q => { q with ended := true })
                                                  faults := b.faults.filter (fun f => f.pkt || !(ids.contains f.ctx)) } : State).retirePart p))
    ∧ (n < 24 → ∀ lane,
      exec (.ulunoezLinkFailed n) s = .next (s.linkDown n)
      ∧ ((sget {} s.links n).up = true → exec (.ulunoezLaneFailed n lane) s = .next (
        if (sget {} s.links n).spare = true then s.linkDown n
        else ({ s with links := sset {} s.links n { sget {} s.links n with spare := true } } : State).post (0x3100 + n) 20
          (BitVec.ofNat 64 n) (BitVec.ofNat 64 lane))))
end

