-- ==== Sys2Proof/Laws/Maps.lean ====
section
/-! SUPPORT. What the table operations do to look-ups, and that they keep the canonical form. -/

namespace Sys2Proof.Machine

variable {α : Type}

/-! ### Look-ups -/

@[simp] theorem find_nil (k : Nat) : find ([] : List (Nat × α)) k = none := rfl

@[simp] theorem find_del (m : List (Nat × α)) (k j : Nat) : find (del m k) j = if j = k then none else find m j := by
  induction m with
  | nil => simp [del]
  | cons e r ih =>
    by_cases h : e.1 = k
    · simp only [del, h, if_true, ih, find]
      split <;> simp_all [eq_comm]
    · simp only [del, h, if_false, find, ih]
      split <;> simp_all

theorem find_ins (m : List (Nat × α)) (k j : Nat) (v : α) (h : find m k = none) :
    find (ins m k v) j = if j = k then some v else find m j := by
  induction m with
  | nil => simp [ins, find, eq_comm]
  | cons e r ih =>
    have hk : e.1 ≠ k := fun c => by simp [find, c] at h
    have hr : find r k = none := by simpa [find, hk] using h
    by_cases hl : k < e.1
    · simp [ins, hl, find, eq_comm]
    · by_cases hj : e.1 = j
      · subst hj
        simp [ins, hl, find, hk]
      · simp [ins, hl, find, hj, ih hr]

@[simp] theorem find_put (m : List (Nat × α)) (k j : Nat) (v : α) :
    find (put m k v) j = if j = k then some v else find m j := by
  rw [put, find_ins _ _ _ _ (by simp), find_del]
  split <;> simp_all

@[simp] theorem find_upd (m : List (Nat × α)) (k j : Nat) (f : α → α) :
    find (upd m k f) j = if j = k then (find m k).map f else find m j := by
  rw [upd]
  split <;> split <;> simp_all

@[simp] theorem sget_sset [DecidableEq α] (d : α) (m : List (Nat × α)) (k j : Nat) (v : α) :
    sget d (sset d m k v) j = if j = k then v else sget d m j := by
  rw [sset]
  split <;> simp only [sget, find_del, find_put] <;> split <;> simp_all

@[simp] theorem sget_nil (d : α) (k : Nat) : sget d [] k = d := rfl

/-! ### The canonical form -/

/-- Every key of a table is at least `k`. -/
def keysFrom (k : Nat) (m : List (Nat × α)) : Prop := ∀ e ∈ m, k ≤ e.1

theorem rising_cons (e : Nat × α) (m : List (Nat × α)) : rising (e :: m) = true ↔ keysFrom (e.1 + 1) m ∧ rising m = true := by
  induction m generalizing e with
  | nil => simp [rising, keysFrom]
  | cons f r ih =>
    constructor
    · intro h
      have h1 : e.1 < f.1 ∧ rising (f :: r) = true := by simpa [rising] using h
      refine ⟨fun x hx => ?_, h1.2⟩
      rcases List.mem_cons.mp hx with rfl | hx
      · exact h1.1
      · exact le_trans h1.1 (le_trans (Nat.le_succ _) (((ih f).mp h1.2).1 x hx))
    · intro h
      have h1 : e.1 < f.1 := h.1 f List.mem_cons_self
      simpa [rising] using And.intro h1 h.2

theorem del_subset (m : List (Nat × α)) (k : Nat) : ∀ e ∈ del m k, e ∈ m := by
  induction m with
  | nil => simp [del]
  | cons f r ih =>
    intro e h
    by_cases hf : f.1 = k
    · simp only [del, hf, if_true] at h
      exact List.mem_cons_of_mem _ (ih e h)
    · simp only [del, hf, if_false, List.mem_cons] at h
      rcases h with rfl | h
      · exact List.mem_cons_self
      · exact List.mem_cons_of_mem _ (ih e h)

theorem rising_del (m : List (Nat × α)) (k : Nat) (h : rising m = true) : rising (del m k) = true := by
  induction m with
  | nil => rfl
  | cons f r ih =>
    have h1 := (rising_cons f r).mp h
    by_cases hf : f.1 = k
    · simpa [del, hf] using ih h1.2
    · simpa [del, hf] using (rising_cons f (del r k)).mpr ⟨fun e he => h1.1 e (del_subset r k e he), ih h1.2⟩

theorem mem_ins (m : List (Nat × α)) (k : Nat) (v : α) (e : Nat × α) : e ∈ ins m k v ↔ e = (k, v) ∨ e ∈ m := by
  induction m with
  | nil => simp [ins]
  | cons f r ih =>
    by_cases hl : k < f.1
    · simp [ins, hl]
    · simp only [ins, hl, if_false, List.mem_cons, ih]
      tauto

theorem rising_ins (m : List (Nat × α)) (k : Nat) (v : α) (h : rising m = true) (hk : find m k = none) :
    rising (ins m k v) = true := by
  induction m with
  | nil => rfl
  | cons f r ih =>
    have hf : f.1 ≠ k := fun c => by simp [find, c] at hk
    have hr : find r k = none := by simpa [find, hf] using hk
    have h1 := (rising_cons f r).mp h
    by_cases hl : k < f.1
    · have : rising ((k, v) :: f :: r) = true :=
        (rising_cons (k, v) (f :: r)).mpr ⟨fun e he => by
          rcases List.mem_cons.mp he with rfl | he
          · exact hl
          · exact le_trans hl (le_trans (Nat.le_succ _) (h1.1 e he)), h⟩
      simpa [ins, hl] using this
    · have : rising (f :: ins r k v) = true :=
        (rising_cons f (ins r k v)).mpr ⟨fun e he => by
          rcases (mem_ins r k v e).mp he with rfl | he
          · exact Nat.lt_of_le_of_ne (Nat.le_of_not_lt hl) hf
          · exact h1.1 e he, ih h1.2 hr⟩
      simpa [ins, hl] using this

theorem canon_iff [DecidableEq α] (d : α) (m : List (Nat × α)) :
    canon d m = true ↔ rising m = true ∧ ∀ e ∈ m, e.2 ≠ d := by
  simp [canon]

/-- A removal keeps the canonical form. -/
theorem canon_del [DecidableEq α] (d : α) (m : List (Nat × α)) (k : Nat) (h : canon d m = true) : canon d (del m k) = true := by
  rw [canon_iff] at *
  exact ⟨rising_del m k h.1, fun e he => h.2 e (del_subset m k e he)⟩

/-- A write of a value other than the default keeps the canonical form. -/
theorem canon_put [DecidableEq α] (d : α) (m : List (Nat × α)) (k : Nat) (v : α) (hv : v ≠ d) (h : canon d m = true) :
    canon d (put m k v) = true := by
  have hd := (canon_iff d _).mp (canon_del d m k h)
  rw [canon_iff, put]
  refine ⟨rising_ins _ k v hd.1 (by simp), fun e he => ?_⟩
  rcases (mem_ins _ k v e).mp he with rfl | he
  · exact hv
  · exact hd.2 e he

/-- A write to a sparse table keeps the canonical form. -/
theorem canon_sset [DecidableEq α] (d : α) (m : List (Nat × α)) (k : Nat) (v : α) (h : canon d m = true) :
    canon d (sset d m k v) = true := by
  rw [sset]
  split
  · exact canon_del d m k h
  · exact canon_put d m k v ‹_› h

/-- A part of a table in canonical form is in canonical form. -/
theorem canon_filter [DecidableEq α] (d : α) (m : List (Nat × α)) (p : Nat × α → Bool) (h : canon d m = true) :
    canon d (m.filter p) = true := by
  rw [canon_iff] at *
  refine ⟨?_, fun e he => h.2 e (List.mem_filter.mp he).1⟩
  have hr := h.1
  clear h
  induction m with
  | nil => rfl
  | cons f r ih =>
    have h1 := (rising_cons f r).mp hr
    by_cases hp : p f
    · rw [List.filter_cons_of_pos hp, rising_cons]
      exact ⟨fun e he => h1.1 e (List.mem_filter.mp he).1, ih h1.2⟩
    · rw [List.filter_cons_of_neg hp]
      exact ih h1.2

end Sys2Proof.Machine
end

