-- ==== Sys2Proof/Laws/State.lean ====
section
/-! SUPPORT. What each update of the state and of a group leaves in each field, and what the accessors read after it. -/

namespace Sys2Proof.Machine

/-! ### setGrp -/

@[simp] theorem State.setGrp_cur (s : State) (g : Group) : (s.setGrp g).cur = s.cur := rfl
@[simp] theorem State.setGrp_groups (s : State) (g : Group) : (s.setGrp g).groups = put s.groups s.cur g := rfl
@[simp] theorem State.setGrp_teams (s : State) (g : Group) : (s.setGrp g).teams = s.teams := rfl
@[simp] theorem State.setGrp_insts (s : State) (g : Group) : (s.setGrp g).insts = s.insts := rfl
@[simp] theorem State.setGrp_convs (s : State) (g : Group) : (s.setGrp g).convs = s.convs := rfl
@[simp] theorem State.setGrp_cores (s : State) (g : Group) : (s.setGrp g).cores = s.cores := rfl
@[simp] theorem State.setGrp_pipes (s : State) (g : Group) : (s.setGrp g).pipes = s.pipes := rfl
@[simp] theorem State.setGrp_slices (s : State) (g : Group) : (s.setGrp g).slices = s.slices := rfl
@[simp] theorem State.setGrp_cvecs (s : State) (g : Group) : (s.setGrp g).cvecs = s.cvecs := rfl
@[simp] theorem State.setGrp_mem (s : State) (g : Group) : (s.setGrp g).mem = s.mem := rfl
@[simp] theorem State.setGrp_cells (s : State) (g : Group) : (s.setGrp g).cells = s.cells := rfl
@[simp] theorem State.setGrp_pois (s : State) (g : Group) : (s.setGrp g).pois = s.pois := rfl
@[simp] theorem State.setGrp_regQ (s : State) (g : Group) : (s.setGrp g).regQ = s.regQ := rfl
@[simp] theorem State.setGrp_acks (s : State) (g : Group) : (s.setGrp g).acks = s.acks := rfl
@[simp] theorem State.setGrp_dtlb (s : State) (g : Group) : (s.setGrp g).dtlb = s.dtlb := rfl
@[simp] theorem State.setGrp_regions (s : State) (g : Group) : (s.setGrp g).regions = s.regions := rfl
@[simp] theorem State.setGrp_ports (s : State) (g : Group) : (s.setGrp g).ports = s.ports := rfl
@[simp] theorem State.setGrp_ctxs (s : State) (g : Group) : (s.setGrp g).ctxs = s.ctxs := rfl
@[simp] theorem State.setGrp_launches (s : State) (g : Group) : (s.setGrp g).launches = s.launches := rfl
@[simp] theorem State.setGrp_graphs (s : State) (g : Group) : (s.setGrp g).graphs = s.graphs := rfl
@[simp] theorem State.setGrp_quiesces (s : State) (g : Group) : (s.setGrp g).quiesces = s.quiesces := rfl
@[simp] theorem State.setGrp_saved (s : State) (g : Group) : (s.setGrp g).saved = s.saved := rfl
@[simp] theorem State.setGrp_images (s : State) (g : Group) : (s.setGrp g).images = s.images := rfl
@[simp] theorem State.setGrp_faults (s : State) (g : Group) : (s.setGrp g).faults = s.faults := rfl
@[simp] theorem State.setGrp_hcalls (s : State) (g : Group) : (s.setGrp g).hcalls = s.hcalls := rfl
@[simp] theorem State.setGrp_nextRid (s : State) (g : Group) : (s.setGrp g).nextRid = s.nextRid := rfl
@[simp] theorem State.setGrp_serials (s : State) (g : Group) : (s.setGrp g).serials = s.serials := rfl
@[simp] theorem State.setGrp_winBase (s : State) (g : Group) : (s.setGrp g).winBase = s.winBase := rfl
@[simp] theorem State.setGrp_winSize (s : State) (g : Group) : (s.setGrp g).winSize = s.winSize := rfl
@[simp] theorem State.setGrp_fabric (s : State) (g : Group) : (s.setGrp g).fabric = s.fabric := rfl
@[simp] theorem State.setGrp_chs (s : State) (g : Group) : (s.setGrp g).chs = s.chs := rfl
@[simp] theorem State.setGrp_held (s : State) (g : Group) : (s.setGrp g).held = s.held := rfl
@[simp] theorem State.setGrp_heldC (s : State) (g : Group) : (s.setGrp g).heldC = s.heldC := rfl
@[simp] theorem State.setGrp_events (s : State) (g : Group) : (s.setGrp g).events = s.events := rfl
@[simp] theorem State.setGrp_nextUid (s : State) (g : Group) : (s.setGrp g).nextUid = s.nextUid := rfl
@[simp] theorem State.setGrp_tsc (s : State) (g : Group) : (s.setGrp g).tsc = s.tsc := rfl
@[simp] theorem State.setGrp_cpDie (s : State) (g : Group) : (s.setGrp g).cpDie = s.cpDie := rfl
@[simp] theorem State.setGrp_cpDead (s : State) (g : Group) : (s.setGrp g).cpDead = s.cpDead := rfl
@[simp] theorem State.setGrp_live (s : State) (g : Group) : (s.setGrp g).live = s.live := rfl
@[simp] theorem State.setGrp_reduced (s : State) (g : Group) : (s.setGrp g).reduced = s.reduced := rfl
@[simp] theorem State.setGrp_coreOut (s : State) (g : Group) : (s.setGrp g).coreOut = s.coreOut := rfl
@[simp] theorem State.setGrp_pipeOut (s : State) (g : Group) : (s.setGrp g).pipeOut = s.pipeOut := rfl
@[simp] theorem State.setGrp_dies (s : State) (g : Group) : (s.setGrp g).dies = s.dies := rfl
@[simp] theorem State.setGrp_retireQ (s : State) (g : Group) : (s.setGrp g).retireQ = s.retireQ := rfl
@[simp] theorem State.setGrp_flash (s : State) (g : Group) : (s.setGrp g).flash = s.flash := rfl
@[simp] theorem State.setGrp_suspects (s : State) (g : Group) : (s.setGrp g).suspects = s.suspects := rfl
@[simp] theorem State.setGrp_links (s : State) (g : Group) : (s.setGrp g).links = s.links := rfl
@[simp] theorem State.setGrp_routes (s : State) (g : Group) : (s.setGrp g).routes = s.routes := rfl
@[simp] theorem State.setGrp_topo (s : State) (g : Group) : (s.setGrp g).topo = s.topo := rfl
@[simp] theorem State.setGrp_sent (s : State) (g : Group) : (s.setGrp g).sent = s.sent := rfl
@[simp] theorem State.setGrp_broken (s : State) (g : Group) : (s.setGrp g).broken = s.broken := rfl
@[simp] theorem State.setGrp_rowOut (s : State) (g : Group) : (s.setGrp g).rowOut = s.rowOut := rfl
@[simp] theorem State.setGrp_corrected (s : State) (g : Group) : (s.setGrp g).corrected = s.corrected := rfl
@[simp] theorem State.setGrp_eccFix (s : State) (g : Group) : (s.setGrp g).eccFix = s.eccFix := rfl
@[simp] theorem State.setGrp_repairs (s : State) (g : Group) : (s.setGrp g).repairs = s.repairs := rfl
@[simp] theorem State.setGrp_wdcfg (s : State) (g : Group) : (s.setGrp g).wdcfg = s.wdcfg := rfl
@[simp] theorem State.setGrp_cycles (s : State) (g : Group) : (s.setGrp g).cycles = s.cycles := rfl
@[simp] theorem State.setGrp_walk (s : State) (g : Group) : (s.setGrp g).walk = s.walk := rfl
@[simp] theorem State.setGrp_rollback (s : State) (g : Group) : (s.setGrp g).rollback = s.rollback := rfl
@[simp] theorem State.setGrp_fwPend (s : State) (g : Group) : (s.setGrp g).fwPend = s.fwPend := rfl
@[simp] theorem State.setGrp_flashW (s : State) (g : Group) : (s.setGrp g).flashW = s.flashW := rfl
@[simp] theorem State.setGrp_envW (s : State) (g : Group) : (s.setGrp g).envW = s.envW := rfl
@[simp] theorem State.setGrp_upsets (s : State) (g : Group) : (s.setGrp g).upsets = s.upsets := rfl
@[simp] theorem State.setGrp_agenda (s : State) (g : Group) : (s.setGrp g).agenda = s.agenda := rfl
@[simp] theorem State.setGrp_elapsed (s : State) (g : Group) : (s.setGrp g).elapsed = s.elapsed := rfl
@[simp] theorem State.setGrp_slow (s : State) (g : Group) : (s.setGrp g).slow = s.slow := rfl
@[simp] theorem State.setGrp_free (s : State) (g : Group) : (s.setGrp g).free = s.free := rfl

/-! ### setTeam -/

@[simp] theorem State.setTeam_cur (s : State) (t : Nat) (v : Team) : (s.setTeam t v).cur = s.cur := rfl
@[simp] theorem State.setTeam_groups (s : State) (t : Nat) (v : Team) : (s.setTeam t v).groups = s.groups := rfl
@[simp] theorem State.setTeam_teams (s : State) (t : Nat) (v : Team) : (s.setTeam t v).teams = put s.teams t v := rfl
@[simp] theorem State.setTeam_insts (s : State) (t : Nat) (v : Team) : (s.setTeam t v).insts = s.insts := rfl
@[simp] theorem State.setTeam_convs (s : State) (t : Nat) (v : Team) : (s.setTeam t v).convs = s.convs := rfl
@[simp] theorem State.setTeam_cores (s : State) (t : Nat) (v : Team) : (s.setTeam t v).cores = s.cores := rfl
@[simp] theorem State.setTeam_pipes (s : State) (t : Nat) (v : Team) : (s.setTeam t v).pipes = s.pipes := rfl
@[simp] theorem State.setTeam_slices (s : State) (t : Nat) (v : Team) : (s.setTeam t v).slices = s.slices := rfl
@[simp] theorem State.setTeam_cvecs (s : State) (t : Nat) (v : Team) : (s.setTeam t v).cvecs = s.cvecs := rfl
@[simp] theorem State.setTeam_mem (s : State) (t : Nat) (v : Team) : (s.setTeam t v).mem = s.mem := rfl
@[simp] theorem State.setTeam_cells (s : State) (t : Nat) (v : Team) : (s.setTeam t v).cells = s.cells := rfl
@[simp] theorem State.setTeam_pois (s : State) (t : Nat) (v : Team) : (s.setTeam t v).pois = s.pois := rfl
@[simp] theorem State.setTeam_regQ (s : State) (t : Nat) (v : Team) : (s.setTeam t v).regQ = s.regQ := rfl
@[simp] theorem State.setTeam_acks (s : State) (t : Nat) (v : Team) : (s.setTeam t v).acks = s.acks := rfl
@[simp] theorem State.setTeam_dtlb (s : State) (t : Nat) (v : Team) : (s.setTeam t v).dtlb = s.dtlb := rfl
@[simp] theorem State.setTeam_regions (s : State) (t : Nat) (v : Team) : (s.setTeam t v).regions = s.regions := rfl
@[simp] theorem State.setTeam_ports (s : State) (t : Nat) (v : Team) : (s.setTeam t v).ports = s.ports := rfl
@[simp] theorem State.setTeam_ctxs (s : State) (t : Nat) (v : Team) : (s.setTeam t v).ctxs = s.ctxs := rfl
@[simp] theorem State.setTeam_launches (s : State) (t : Nat) (v : Team) : (s.setTeam t v).launches = s.launches := rfl
@[simp] theorem State.setTeam_graphs (s : State) (t : Nat) (v : Team) : (s.setTeam t v).graphs = s.graphs := rfl
@[simp] theorem State.setTeam_quiesces (s : State) (t : Nat) (v : Team) : (s.setTeam t v).quiesces = s.quiesces := rfl
@[simp] theorem State.setTeam_saved (s : State) (t : Nat) (v : Team) : (s.setTeam t v).saved = s.saved := rfl
@[simp] theorem State.setTeam_images (s : State) (t : Nat) (v : Team) : (s.setTeam t v).images = s.images := rfl
@[simp] theorem State.setTeam_faults (s : State) (t : Nat) (v : Team) : (s.setTeam t v).faults = s.faults := rfl
@[simp] theorem State.setTeam_hcalls (s : State) (t : Nat) (v : Team) : (s.setTeam t v).hcalls = s.hcalls := rfl
@[simp] theorem State.setTeam_nextRid (s : State) (t : Nat) (v : Team) : (s.setTeam t v).nextRid = s.nextRid := rfl
@[simp] theorem State.setTeam_serials (s : State) (t : Nat) (v : Team) : (s.setTeam t v).serials = s.serials := rfl
@[simp] theorem State.setTeam_winBase (s : State) (t : Nat) (v : Team) : (s.setTeam t v).winBase = s.winBase := rfl
@[simp] theorem State.setTeam_winSize (s : State) (t : Nat) (v : Team) : (s.setTeam t v).winSize = s.winSize := rfl
@[simp] theorem State.setTeam_fabric (s : State) (t : Nat) (v : Team) : (s.setTeam t v).fabric = s.fabric := rfl
@[simp] theorem State.setTeam_chs (s : State) (t : Nat) (v : Team) : (s.setTeam t v).chs = s.chs := rfl
@[simp] theorem State.setTeam_held (s : State) (t : Nat) (v : Team) : (s.setTeam t v).held = s.held := rfl
@[simp] theorem State.setTeam_heldC (s : State) (t : Nat) (v : Team) : (s.setTeam t v).heldC = s.heldC := rfl
@[simp] theorem State.setTeam_events (s : State) (t : Nat) (v : Team) : (s.setTeam t v).events = s.events := rfl
@[simp] theorem State.setTeam_nextUid (s : State) (t : Nat) (v : Team) : (s.setTeam t v).nextUid = s.nextUid := rfl
@[simp] theorem State.setTeam_tsc (s : State) (t : Nat) (v : Team) : (s.setTeam t v).tsc = s.tsc := rfl
@[simp] theorem State.setTeam_cpDie (s : State) (t : Nat) (v : Team) : (s.setTeam t v).cpDie = s.cpDie := rfl
@[simp] theorem State.setTeam_cpDead (s : State) (t : Nat) (v : Team) : (s.setTeam t v).cpDead = s.cpDead := rfl
@[simp] theorem State.setTeam_live (s : State) (t : Nat) (v : Team) : (s.setTeam t v).live = s.live := rfl
@[simp] theorem State.setTeam_reduced (s : State) (t : Nat) (v : Team) : (s.setTeam t v).reduced = s.reduced := rfl
@[simp] theorem State.setTeam_coreOut (s : State) (t : Nat) (v : Team) : (s.setTeam t v).coreOut = s.coreOut := rfl
@[simp] theorem State.setTeam_pipeOut (s : State) (t : Nat) (v : Team) : (s.setTeam t v).pipeOut = s.pipeOut := rfl
@[simp] theorem State.setTeam_dies (s : State) (t : Nat) (v : Team) : (s.setTeam t v).dies = s.dies := rfl
@[simp] theorem State.setTeam_retireQ (s : State) (t : Nat) (v : Team) : (s.setTeam t v).retireQ = s.retireQ := rfl
@[simp] theorem State.setTeam_flash (s : State) (t : Nat) (v : Team) : (s.setTeam t v).flash = s.flash := rfl
@[simp] theorem State.setTeam_suspects (s : State) (t : Nat) (v : Team) : (s.setTeam t v).suspects = s.suspects := rfl
@[simp] theorem State.setTeam_links (s : State) (t : Nat) (v : Team) : (s.setTeam t v).links = s.links := rfl
@[simp] theorem State.setTeam_routes (s : State) (t : Nat) (v : Team) : (s.setTeam t v).routes = s.routes := rfl
@[simp] theorem State.setTeam_topo (s : State) (t : Nat) (v : Team) : (s.setTeam t v).topo = s.topo := rfl
@[simp] theorem State.setTeam_sent (s : State) (t : Nat) (v : Team) : (s.setTeam t v).sent = s.sent := rfl
@[simp] theorem State.setTeam_broken (s : State) (t : Nat) (v : Team) : (s.setTeam t v).broken = s.broken := rfl
@[simp] theorem State.setTeam_rowOut (s : State) (t : Nat) (v : Team) : (s.setTeam t v).rowOut = s.rowOut := rfl
@[simp] theorem State.setTeam_corrected (s : State) (t : Nat) (v : Team) : (s.setTeam t v).corrected = s.corrected := rfl
@[simp] theorem State.setTeam_eccFix (s : State) (t : Nat) (v : Team) : (s.setTeam t v).eccFix = s.eccFix := rfl
@[simp] theorem State.setTeam_repairs (s : State) (t : Nat) (v : Team) : (s.setTeam t v).repairs = s.repairs := rfl
@[simp] theorem State.setTeam_wdcfg (s : State) (t : Nat) (v : Team) : (s.setTeam t v).wdcfg = s.wdcfg := rfl
@[simp] theorem State.setTeam_cycles (s : State) (t : Nat) (v : Team) : (s.setTeam t v).cycles = s.cycles := rfl
@[simp] theorem State.setTeam_walk (s : State) (t : Nat) (v : Team) : (s.setTeam t v).walk = s.walk := rfl
@[simp] theorem State.setTeam_rollback (s : State) (t : Nat) (v : Team) : (s.setTeam t v).rollback = s.rollback := rfl
@[simp] theorem State.setTeam_fwPend (s : State) (t : Nat) (v : Team) : (s.setTeam t v).fwPend = s.fwPend := rfl
@[simp] theorem State.setTeam_flashW (s : State) (t : Nat) (v : Team) : (s.setTeam t v).flashW = s.flashW := rfl
@[simp] theorem State.setTeam_envW (s : State) (t : Nat) (v : Team) : (s.setTeam t v).envW = s.envW := rfl
@[simp] theorem State.setTeam_upsets (s : State) (t : Nat) (v : Team) : (s.setTeam t v).upsets = s.upsets := rfl
@[simp] theorem State.setTeam_agenda (s : State) (t : Nat) (v : Team) : (s.setTeam t v).agenda = s.agenda := rfl
@[simp] theorem State.setTeam_elapsed (s : State) (t : Nat) (v : Team) : (s.setTeam t v).elapsed = s.elapsed := rfl
@[simp] theorem State.setTeam_slow (s : State) (t : Nat) (v : Team) : (s.setTeam t v).slow = s.slow := rfl
@[simp] theorem State.setTeam_free (s : State) (t : Nat) (v : Team) : (s.setTeam t v).free = s.free := rfl

/-! ### setCore -/

@[simp] theorem State.setCore_cur (s : State) (c : Nat) (k : Core) : (s.setCore c k).cur = s.cur := rfl
@[simp] theorem State.setCore_groups (s : State) (c : Nat) (k : Core) : (s.setCore c k).groups = s.groups := rfl
@[simp] theorem State.setCore_teams (s : State) (c : Nat) (k : Core) : (s.setCore c k).teams = s.teams := rfl
@[simp] theorem State.setCore_insts (s : State) (c : Nat) (k : Core) : (s.setCore c k).insts = s.insts := rfl
@[simp] theorem State.setCore_convs (s : State) (c : Nat) (k : Core) : (s.setCore c k).convs = s.convs := rfl
@[simp] theorem State.setCore_cores (s : State) (c : Nat) (k : Core) : (s.setCore c k).cores = sset {} s.cores c k := rfl
@[simp] theorem State.setCore_pipes (s : State) (c : Nat) (k : Core) : (s.setCore c k).pipes = s.pipes := rfl
@[simp] theorem State.setCore_slices (s : State) (c : Nat) (k : Core) : (s.setCore c k).slices = s.slices := rfl
@[simp] theorem State.setCore_cvecs (s : State) (c : Nat) (k : Core) : (s.setCore c k).cvecs = s.cvecs := rfl
@[simp] theorem State.setCore_mem (s : State) (c : Nat) (k : Core) : (s.setCore c k).mem = s.mem := rfl
@[simp] theorem State.setCore_cells (s : State) (c : Nat) (k : Core) : (s.setCore c k).cells = s.cells := rfl
@[simp] theorem State.setCore_pois (s : State) (c : Nat) (k : Core) : (s.setCore c k).pois = s.pois := rfl
@[simp] theorem State.setCore_regQ (s : State) (c : Nat) (k : Core) : (s.setCore c k).regQ = s.regQ := rfl
@[simp] theorem State.setCore_acks (s : State) (c : Nat) (k : Core) : (s.setCore c k).acks = s.acks := rfl
@[simp] theorem State.setCore_dtlb (s : State) (c : Nat) (k : Core) : (s.setCore c k).dtlb = s.dtlb := rfl
@[simp] theorem State.setCore_regions (s : State) (c : Nat) (k : Core) : (s.setCore c k).regions = s.regions := rfl
@[simp] theorem State.setCore_ports (s : State) (c : Nat) (k : Core) : (s.setCore c k).ports = s.ports := rfl
@[simp] theorem State.setCore_ctxs (s : State) (c : Nat) (k : Core) : (s.setCore c k).ctxs = s.ctxs := rfl
@[simp] theorem State.setCore_launches (s : State) (c : Nat) (k : Core) : (s.setCore c k).launches = s.launches := rfl
@[simp] theorem State.setCore_graphs (s : State) (c : Nat) (k : Core) : (s.setCore c k).graphs = s.graphs := rfl
@[simp] theorem State.setCore_quiesces (s : State) (c : Nat) (k : Core) : (s.setCore c k).quiesces = s.quiesces := rfl
@[simp] theorem State.setCore_saved (s : State) (c : Nat) (k : Core) : (s.setCore c k).saved = s.saved := rfl
@[simp] theorem State.setCore_images (s : State) (c : Nat) (k : Core) : (s.setCore c k).images = s.images := rfl
@[simp] theorem State.setCore_faults (s : State) (c : Nat) (k : Core) : (s.setCore c k).faults = s.faults := rfl
@[simp] theorem State.setCore_hcalls (s : State) (c : Nat) (k : Core) : (s.setCore c k).hcalls = s.hcalls := rfl
@[simp] theorem State.setCore_nextRid (s : State) (c : Nat) (k : Core) : (s.setCore c k).nextRid = s.nextRid := rfl
@[simp] theorem State.setCore_serials (s : State) (c : Nat) (k : Core) : (s.setCore c k).serials = s.serials := rfl
@[simp] theorem State.setCore_winBase (s : State) (c : Nat) (k : Core) : (s.setCore c k).winBase = s.winBase := rfl
@[simp] theorem State.setCore_winSize (s : State) (c : Nat) (k : Core) : (s.setCore c k).winSize = s.winSize := rfl
@[simp] theorem State.setCore_fabric (s : State) (c : Nat) (k : Core) : (s.setCore c k).fabric = s.fabric := rfl
@[simp] theorem State.setCore_chs (s : State) (c : Nat) (k : Core) : (s.setCore c k).chs = s.chs := rfl
@[simp] theorem State.setCore_held (s : State) (c : Nat) (k : Core) : (s.setCore c k).held = s.held := rfl
@[simp] theorem State.setCore_heldC (s : State) (c : Nat) (k : Core) : (s.setCore c k).heldC = s.heldC := rfl
@[simp] theorem State.setCore_events (s : State) (c : Nat) (k : Core) : (s.setCore c k).events = s.events := rfl
@[simp] theorem State.setCore_nextUid (s : State) (c : Nat) (k : Core) : (s.setCore c k).nextUid = s.nextUid := rfl
@[simp] theorem State.setCore_tsc (s : State) (c : Nat) (k : Core) : (s.setCore c k).tsc = s.tsc := rfl
@[simp] theorem State.setCore_cpDie (s : State) (c : Nat) (k : Core) : (s.setCore c k).cpDie = s.cpDie := rfl
@[simp] theorem State.setCore_cpDead (s : State) (c : Nat) (k : Core) : (s.setCore c k).cpDead = s.cpDead := rfl
@[simp] theorem State.setCore_live (s : State) (c : Nat) (k : Core) : (s.setCore c k).live = s.live := rfl
@[simp] theorem State.setCore_reduced (s : State) (c : Nat) (k : Core) : (s.setCore c k).reduced = s.reduced := rfl
@[simp] theorem State.setCore_coreOut (s : State) (c : Nat) (k : Core) : (s.setCore c k).coreOut = s.coreOut := rfl
@[simp] theorem State.setCore_pipeOut (s : State) (c : Nat) (k : Core) : (s.setCore c k).pipeOut = s.pipeOut := rfl
@[simp] theorem State.setCore_dies (s : State) (c : Nat) (k : Core) : (s.setCore c k).dies = s.dies := rfl
@[simp] theorem State.setCore_retireQ (s : State) (c : Nat) (k : Core) : (s.setCore c k).retireQ = s.retireQ := rfl
@[simp] theorem State.setCore_flash (s : State) (c : Nat) (k : Core) : (s.setCore c k).flash = s.flash := rfl
@[simp] theorem State.setCore_suspects (s : State) (c : Nat) (k : Core) : (s.setCore c k).suspects = s.suspects := rfl
@[simp] theorem State.setCore_links (s : State) (c : Nat) (k : Core) : (s.setCore c k).links = s.links := rfl
@[simp] theorem State.setCore_routes (s : State) (c : Nat) (k : Core) : (s.setCore c k).routes = s.routes := rfl
@[simp] theorem State.setCore_topo (s : State) (c : Nat) (k : Core) : (s.setCore c k).topo = s.topo := rfl
@[simp] theorem State.setCore_sent (s : State) (c : Nat) (k : Core) : (s.setCore c k).sent = s.sent := rfl
@[simp] theorem State.setCore_broken (s : State) (c : Nat) (k : Core) : (s.setCore c k).broken = s.broken := rfl
@[simp] theorem State.setCore_rowOut (s : State) (c : Nat) (k : Core) : (s.setCore c k).rowOut = s.rowOut := rfl
@[simp] theorem State.setCore_corrected (s : State) (c : Nat) (k : Core) : (s.setCore c k).corrected = s.corrected := rfl
@[simp] theorem State.setCore_eccFix (s : State) (c : Nat) (k : Core) : (s.setCore c k).eccFix = s.eccFix := rfl
@[simp] theorem State.setCore_repairs (s : State) (c : Nat) (k : Core) : (s.setCore c k).repairs = s.repairs := rfl
@[simp] theorem State.setCore_wdcfg (s : State) (c : Nat) (k : Core) : (s.setCore c k).wdcfg = s.wdcfg := rfl
@[simp] theorem State.setCore_cycles (s : State) (c : Nat) (k : Core) : (s.setCore c k).cycles = s.cycles := rfl
@[simp] theorem State.setCore_walk (s : State) (c : Nat) (k : Core) : (s.setCore c k).walk = s.walk := rfl
@[simp] theorem State.setCore_rollback (s : State) (c : Nat) (k : Core) : (s.setCore c k).rollback = s.rollback := rfl
@[simp] theorem State.setCore_fwPend (s : State) (c : Nat) (k : Core) : (s.setCore c k).fwPend = s.fwPend := rfl
@[simp] theorem State.setCore_flashW (s : State) (c : Nat) (k : Core) : (s.setCore c k).flashW = s.flashW := rfl
@[simp] theorem State.setCore_envW (s : State) (c : Nat) (k : Core) : (s.setCore c k).envW = s.envW := rfl
@[simp] theorem State.setCore_upsets (s : State) (c : Nat) (k : Core) : (s.setCore c k).upsets = s.upsets := rfl
@[simp] theorem State.setCore_agenda (s : State) (c : Nat) (k : Core) : (s.setCore c k).agenda = s.agenda := rfl
@[simp] theorem State.setCore_elapsed (s : State) (c : Nat) (k : Core) : (s.setCore c k).elapsed = s.elapsed := rfl
@[simp] theorem State.setCore_slow (s : State) (c : Nat) (k : Core) : (s.setCore c k).slow = s.slow := rfl
@[simp] theorem State.setCore_free (s : State) (c : Nat) (k : Core) : (s.setCore c k).free = s.free := rfl

/-! ### setPipe -/

@[simp] theorem State.setPipe_cur (s : State) (p : Nat) (v : Pipe) : (s.setPipe p v).cur = s.cur := rfl
@[simp] theorem State.setPipe_groups (s : State) (p : Nat) (v : Pipe) : (s.setPipe p v).groups = s.groups := rfl
@[simp] theorem State.setPipe_teams (s : State) (p : Nat) (v : Pipe) : (s.setPipe p v).teams = s.teams := rfl
@[simp] theorem State.setPipe_insts (s : State) (p : Nat) (v : Pipe) : (s.setPipe p v).insts = s.insts := rfl
@[simp] theorem State.setPipe_convs (s : State) (p : Nat) (v : Pipe) : (s.setPipe p v).convs = s.convs := rfl
@[simp] theorem State.setPipe_cores (s : State) (p : Nat) (v : Pipe) : (s.setPipe p v).cores = s.cores := rfl
@[simp] theorem State.setPipe_pipes (s : State) (p : Nat) (v : Pipe) : (s.setPipe p v).pipes = sset {} s.pipes p v := rfl
@[simp] theorem State.setPipe_slices (s : State) (p : Nat) (v : Pipe) : (s.setPipe p v).slices = s.slices := rfl
@[simp] theorem State.setPipe_cvecs (s : State) (p : Nat) (v : Pipe) : (s.setPipe p v).cvecs = s.cvecs := rfl
@[simp] theorem State.setPipe_mem (s : State) (p : Nat) (v : Pipe) : (s.setPipe p v).mem = s.mem := rfl
@[simp] theorem State.setPipe_cells (s : State) (p : Nat) (v : Pipe) : (s.setPipe p v).cells = s.cells := rfl
@[simp] theorem State.setPipe_pois (s : State) (p : Nat) (v : Pipe) : (s.setPipe p v).pois = s.pois := rfl
@[simp] theorem State.setPipe_regQ (s : State) (p : Nat) (v : Pipe) : (s.setPipe p v).regQ = s.regQ := rfl
@[simp] theorem State.setPipe_acks (s : State) (p : Nat) (v : Pipe) : (s.setPipe p v).acks = s.acks := rfl
@[simp] theorem State.setPipe_dtlb (s : State) (p : Nat) (v : Pipe) : (s.setPipe p v).dtlb = s.dtlb := rfl
@[simp] theorem State.setPipe_regions (s : State) (p : Nat) (v : Pipe) : (s.setPipe p v).regions = s.regions := rfl
@[simp] theorem State.setPipe_ports (s : State) (p : Nat) (v : Pipe) : (s.setPipe p v).ports = s.ports := rfl
@[simp] theorem State.setPipe_ctxs (s : State) (p : Nat) (v : Pipe) : (s.setPipe p v).ctxs = s.ctxs := rfl
@[simp] theorem State.setPipe_launches (s : State) (p : Nat) (v : Pipe) : (s.setPipe p v).launches = s.launches := rfl
@[simp] theorem State.setPipe_graphs (s : State) (p : Nat) (v : Pipe) : (s.setPipe p v).graphs = s.graphs := rfl
@[simp] theorem State.setPipe_quiesces (s : State) (p : Nat) (v : Pipe) : (s.setPipe p v).quiesces = s.quiesces := rfl
@[simp] theorem State.setPipe_saved (s : State) (p : Nat) (v : Pipe) : (s.setPipe p v).saved = s.saved := rfl
@[simp] theorem State.setPipe_images (s : State) (p : Nat) (v : Pipe) : (s.setPipe p v).images = s.images := rfl
@[simp] theorem State.setPipe_faults (s : State) (p : Nat) (v : Pipe) : (s.setPipe p v).faults = s.faults := rfl
@[simp] theorem State.setPipe_hcalls (s : State) (p : Nat) (v : Pipe) : (s.setPipe p v).hcalls = s.hcalls := rfl
@[simp] theorem State.setPipe_nextRid (s : State) (p : Nat) (v : Pipe) : (s.setPipe p v).nextRid = s.nextRid := rfl
@[simp] theorem State.setPipe_serials (s : State) (p : Nat) (v : Pipe) : (s.setPipe p v).serials = s.serials := rfl
@[simp] theorem State.setPipe_winBase (s : State) (p : Nat) (v : Pipe) : (s.setPipe p v).winBase = s.winBase := rfl
@[simp] theorem State.setPipe_winSize (s : State) (p : Nat) (v : Pipe) : (s.setPipe p v).winSize = s.winSize := rfl
@[simp] theorem State.setPipe_fabric (s : State) (p : Nat) (v : Pipe) : (s.setPipe p v).fabric = s.fabric := rfl
@[simp] theorem State.setPipe_chs (s : State) (p : Nat) (v : Pipe) : (s.setPipe p v).chs = s.chs := rfl
@[simp] theorem State.setPipe_held (s : State) (p : Nat) (v : Pipe) : (s.setPipe p v).held = s.held := rfl
@[simp] theorem State.setPipe_heldC (s : State) (p : Nat) (v : Pipe) : (s.setPipe p v).heldC = s.heldC := rfl
@[simp] theorem State.setPipe_events (s : State) (p : Nat) (v : Pipe) : (s.setPipe p v).events = s.events := rfl
@[simp] theorem State.setPipe_nextUid (s : State) (p : Nat) (v : Pipe) : (s.setPipe p v).nextUid = s.nextUid := rfl
@[simp] theorem State.setPipe_tsc (s : State) (p : Nat) (v : Pipe) : (s.setPipe p v).tsc = s.tsc := rfl
@[simp] theorem State.setPipe_cpDie (s : State) (p : Nat) (v : Pipe) : (s.setPipe p v).cpDie = s.cpDie := rfl
@[simp] theorem State.setPipe_cpDead (s : State) (p : Nat) (v : Pipe) : (s.setPipe p v).cpDead = s.cpDead := rfl
@[simp] theorem State.setPipe_live (s : State) (p : Nat) (v : Pipe) : (s.setPipe p v).live = s.live := rfl
@[simp] theorem State.setPipe_reduced (s : State) (p : Nat) (v : Pipe) : (s.setPipe p v).reduced = s.reduced := rfl
@[simp] theorem State.setPipe_coreOut (s : State) (p : Nat) (v : Pipe) : (s.setPipe p v).coreOut = s.coreOut := rfl
@[simp] theorem State.setPipe_pipeOut (s : State) (p : Nat) (v : Pipe) : (s.setPipe p v).pipeOut = s.pipeOut := rfl
@[simp] theorem State.setPipe_dies (s : State) (p : Nat) (v : Pipe) : (s.setPipe p v).dies = s.dies := rfl
@[simp] theorem State.setPipe_retireQ (s : State) (p : Nat) (v : Pipe) : (s.setPipe p v).retireQ = s.retireQ := rfl
@[simp] theorem State.setPipe_flash (s : State) (p : Nat) (v : Pipe) : (s.setPipe p v).flash = s.flash := rfl
@[simp] theorem State.setPipe_suspects (s : State) (p : Nat) (v : Pipe) : (s.setPipe p v).suspects = s.suspects := rfl
@[simp] theorem State.setPipe_links (s : State) (p : Nat) (v : Pipe) : (s.setPipe p v).links = s.links := rfl
@[simp] theorem State.setPipe_routes (s : State) (p : Nat) (v : Pipe) : (s.setPipe p v).routes = s.routes := rfl
@[simp] theorem State.setPipe_topo (s : State) (p : Nat) (v : Pipe) : (s.setPipe p v).topo = s.topo := rfl
@[simp] theorem State.setPipe_sent (s : State) (p : Nat) (v : Pipe) : (s.setPipe p v).sent = s.sent := rfl
@[simp] theorem State.setPipe_broken (s : State) (p : Nat) (v : Pipe) : (s.setPipe p v).broken = s.broken := rfl
@[simp] theorem State.setPipe_rowOut (s : State) (p : Nat) (v : Pipe) : (s.setPipe p v).rowOut = s.rowOut := rfl
@[simp] theorem State.setPipe_corrected (s : State) (p : Nat) (v : Pipe) : (s.setPipe p v).corrected = s.corrected := rfl
@[simp] theorem State.setPipe_eccFix (s : State) (p : Nat) (v : Pipe) : (s.setPipe p v).eccFix = s.eccFix := rfl
@[simp] theorem State.setPipe_repairs (s : State) (p : Nat) (v : Pipe) : (s.setPipe p v).repairs = s.repairs := rfl
@[simp] theorem State.setPipe_wdcfg (s : State) (p : Nat) (v : Pipe) : (s.setPipe p v).wdcfg = s.wdcfg := rfl
@[simp] theorem State.setPipe_cycles (s : State) (p : Nat) (v : Pipe) : (s.setPipe p v).cycles = s.cycles := rfl
@[simp] theorem State.setPipe_walk (s : State) (p : Nat) (v : Pipe) : (s.setPipe p v).walk = s.walk := rfl
@[simp] theorem State.setPipe_rollback (s : State) (p : Nat) (v : Pipe) : (s.setPipe p v).rollback = s.rollback := rfl
@[simp] theorem State.setPipe_fwPend (s : State) (p : Nat) (v : Pipe) : (s.setPipe p v).fwPend = s.fwPend := rfl
@[simp] theorem State.setPipe_flashW (s : State) (p : Nat) (v : Pipe) : (s.setPipe p v).flashW = s.flashW := rfl
@[simp] theorem State.setPipe_envW (s : State) (p : Nat) (v : Pipe) : (s.setPipe p v).envW = s.envW := rfl
@[simp] theorem State.setPipe_upsets (s : State) (p : Nat) (v : Pipe) : (s.setPipe p v).upsets = s.upsets := rfl
@[simp] theorem State.setPipe_agenda (s : State) (p : Nat) (v : Pipe) : (s.setPipe p v).agenda = s.agenda := rfl
@[simp] theorem State.setPipe_elapsed (s : State) (p : Nat) (v : Pipe) : (s.setPipe p v).elapsed = s.elapsed := rfl
@[simp] theorem State.setPipe_slow (s : State) (p : Nat) (v : Pipe) : (s.setPipe p v).slow = s.slow := rfl
@[simp] theorem State.setPipe_free (s : State) (p : Nat) (v : Pipe) : (s.setPipe p v).free = s.free := rfl

/-! ### setSlice -/

@[simp] theorem State.setSlice_cur (s : State) (k : Nat) (v : Slice) : (s.setSlice k v).cur = s.cur := rfl
@[simp] theorem State.setSlice_groups (s : State) (k : Nat) (v : Slice) : (s.setSlice k v).groups = s.groups := rfl
@[simp] theorem State.setSlice_teams (s : State) (k : Nat) (v : Slice) : (s.setSlice k v).teams = s.teams := rfl
@[simp] theorem State.setSlice_insts (s : State) (k : Nat) (v : Slice) : (s.setSlice k v).insts = s.insts := rfl
@[simp] theorem State.setSlice_convs (s : State) (k : Nat) (v : Slice) : (s.setSlice k v).convs = s.convs := rfl
@[simp] theorem State.setSlice_cores (s : State) (k : Nat) (v : Slice) : (s.setSlice k v).cores = s.cores := rfl
@[simp] theorem State.setSlice_pipes (s : State) (k : Nat) (v : Slice) : (s.setSlice k v).pipes = s.pipes := rfl
@[simp] theorem State.setSlice_slices (s : State) (k : Nat) (v : Slice) : (s.setSlice k v).slices = sset {} s.slices k v := rfl
@[simp] theorem State.setSlice_cvecs (s : State) (k : Nat) (v : Slice) : (s.setSlice k v).cvecs = s.cvecs := rfl
@[simp] theorem State.setSlice_mem (s : State) (k : Nat) (v : Slice) : (s.setSlice k v).mem = s.mem := rfl
@[simp] theorem State.setSlice_cells (s : State) (k : Nat) (v : Slice) : (s.setSlice k v).cells = s.cells := rfl
@[simp] theorem State.setSlice_pois (s : State) (k : Nat) (v : Slice) : (s.setSlice k v).pois = s.pois := rfl
@[simp] theorem State.setSlice_regQ (s : State) (k : Nat) (v : Slice) : (s.setSlice k v).regQ = s.regQ := rfl
@[simp] theorem State.setSlice_acks (s : State) (k : Nat) (v : Slice) : (s.setSlice k v).acks = s.acks := rfl
@[simp] theorem State.setSlice_dtlb (s : State) (k : Nat) (v : Slice) : (s.setSlice k v).dtlb = s.dtlb := rfl
@[simp] theorem State.setSlice_regions (s : State) (k : Nat) (v : Slice) : (s.setSlice k v).regions = s.regions := rfl
@[simp] theorem State.setSlice_ports (s : State) (k : Nat) (v : Slice) : (s.setSlice k v).ports = s.ports := rfl
@[simp] theorem State.setSlice_ctxs (s : State) (k : Nat) (v : Slice) : (s.setSlice k v).ctxs = s.ctxs := rfl
@[simp] theorem State.setSlice_launches (s : State) (k : Nat) (v : Slice) : (s.setSlice k v).launches = s.launches := rfl
@[simp] theorem State.setSlice_graphs (s : State) (k : Nat) (v : Slice) : (s.setSlice k v).graphs = s.graphs := rfl
@[simp] theorem State.setSlice_quiesces (s : State) (k : Nat) (v : Slice) : (s.setSlice k v).quiesces = s.quiesces := rfl
@[simp] theorem State.setSlice_saved (s : State) (k : Nat) (v : Slice) : (s.setSlice k v).saved = s.saved := rfl
@[simp] theorem State.setSlice_images (s : State) (k : Nat) (v : Slice) : (s.setSlice k v).images = s.images := rfl
@[simp] theorem State.setSlice_faults (s : State) (k : Nat) (v : Slice) : (s.setSlice k v).faults = s.faults := rfl
@[simp] theorem State.setSlice_hcalls (s : State) (k : Nat) (v : Slice) : (s.setSlice k v).hcalls = s.hcalls := rfl
@[simp] theorem State.setSlice_nextRid (s : State) (k : Nat) (v : Slice) : (s.setSlice k v).nextRid = s.nextRid := rfl
@[simp] theorem State.setSlice_serials (s : State) (k : Nat) (v : Slice) : (s.setSlice k v).serials = s.serials := rfl
@[simp] theorem State.setSlice_winBase (s : State) (k : Nat) (v : Slice) : (s.setSlice k v).winBase = s.winBase := rfl
@[simp] theorem State.setSlice_winSize (s : State) (k : Nat) (v : Slice) : (s.setSlice k v).winSize = s.winSize := rfl
@[simp] theorem State.setSlice_fabric (s : State) (k : Nat) (v : Slice) : (s.setSlice k v).fabric = s.fabric := rfl
@[simp] theorem State.setSlice_chs (s : State) (k : Nat) (v : Slice) : (s.setSlice k v).chs = s.chs := rfl
@[simp] theorem State.setSlice_held (s : State) (k : Nat) (v : Slice) : (s.setSlice k v).held = s.held := rfl
@[simp] theorem State.setSlice_heldC (s : State) (k : Nat) (v : Slice) : (s.setSlice k v).heldC = s.heldC := rfl
@[simp] theorem State.setSlice_events (s : State) (k : Nat) (v : Slice) : (s.setSlice k v).events = s.events := rfl
@[simp] theorem State.setSlice_nextUid (s : State) (k : Nat) (v : Slice) : (s.setSlice k v).nextUid = s.nextUid := rfl
@[simp] theorem State.setSlice_tsc (s : State) (k : Nat) (v : Slice) : (s.setSlice k v).tsc = s.tsc := rfl
@[simp] theorem State.setSlice_cpDie (s : State) (k : Nat) (v : Slice) : (s.setSlice k v).cpDie = s.cpDie := rfl
@[simp] theorem State.setSlice_cpDead (s : State) (k : Nat) (v : Slice) : (s.setSlice k v).cpDead = s.cpDead := rfl
@[simp] theorem State.setSlice_live (s : State) (k : Nat) (v : Slice) : (s.setSlice k v).live = s.live := rfl
@[simp] theorem State.setSlice_reduced (s : State) (k : Nat) (v : Slice) : (s.setSlice k v).reduced = s.reduced := rfl
@[simp] theorem State.setSlice_coreOut (s : State) (k : Nat) (v : Slice) : (s.setSlice k v).coreOut = s.coreOut := rfl
@[simp] theorem State.setSlice_pipeOut (s : State) (k : Nat) (v : Slice) : (s.setSlice k v).pipeOut = s.pipeOut := rfl
@[simp] theorem State.setSlice_dies (s : State) (k : Nat) (v : Slice) : (s.setSlice k v).dies = s.dies := rfl
@[simp] theorem State.setSlice_retireQ (s : State) (k : Nat) (v : Slice) : (s.setSlice k v).retireQ = s.retireQ := rfl
@[simp] theorem State.setSlice_flash (s : State) (k : Nat) (v : Slice) : (s.setSlice k v).flash = s.flash := rfl
@[simp] theorem State.setSlice_suspects (s : State) (k : Nat) (v : Slice) : (s.setSlice k v).suspects = s.suspects := rfl
@[simp] theorem State.setSlice_links (s : State) (k : Nat) (v : Slice) : (s.setSlice k v).links = s.links := rfl
@[simp] theorem State.setSlice_routes (s : State) (k : Nat) (v : Slice) : (s.setSlice k v).routes = s.routes := rfl
@[simp] theorem State.setSlice_topo (s : State) (k : Nat) (v : Slice) : (s.setSlice k v).topo = s.topo := rfl
@[simp] theorem State.setSlice_sent (s : State) (k : Nat) (v : Slice) : (s.setSlice k v).sent = s.sent := rfl
@[simp] theorem State.setSlice_broken (s : State) (k : Nat) (v : Slice) : (s.setSlice k v).broken = s.broken := rfl
@[simp] theorem State.setSlice_rowOut (s : State) (k : Nat) (v : Slice) : (s.setSlice k v).rowOut = s.rowOut := rfl
@[simp] theorem State.setSlice_corrected (s : State) (k : Nat) (v : Slice) : (s.setSlice k v).corrected = s.corrected := rfl
@[simp] theorem State.setSlice_eccFix (s : State) (k : Nat) (v : Slice) : (s.setSlice k v).eccFix = s.eccFix := rfl
@[simp] theorem State.setSlice_repairs (s : State) (k : Nat) (v : Slice) : (s.setSlice k v).repairs = s.repairs := rfl
@[simp] theorem State.setSlice_wdcfg (s : State) (k : Nat) (v : Slice) : (s.setSlice k v).wdcfg = s.wdcfg := rfl
@[simp] theorem State.setSlice_cycles (s : State) (k : Nat) (v : Slice) : (s.setSlice k v).cycles = s.cycles := rfl
@[simp] theorem State.setSlice_walk (s : State) (k : Nat) (v : Slice) : (s.setSlice k v).walk = s.walk := rfl
@[simp] theorem State.setSlice_rollback (s : State) (k : Nat) (v : Slice) : (s.setSlice k v).rollback = s.rollback := rfl
@[simp] theorem State.setSlice_fwPend (s : State) (k : Nat) (v : Slice) : (s.setSlice k v).fwPend = s.fwPend := rfl
@[simp] theorem State.setSlice_flashW (s : State) (k : Nat) (v : Slice) : (s.setSlice k v).flashW = s.flashW := rfl
@[simp] theorem State.setSlice_envW (s : State) (k : Nat) (v : Slice) : (s.setSlice k v).envW = s.envW := rfl
@[simp] theorem State.setSlice_upsets (s : State) (k : Nat) (v : Slice) : (s.setSlice k v).upsets = s.upsets := rfl
@[simp] theorem State.setSlice_agenda (s : State) (k : Nat) (v : Slice) : (s.setSlice k v).agenda = s.agenda := rfl
@[simp] theorem State.setSlice_elapsed (s : State) (k : Nat) (v : Slice) : (s.setSlice k v).elapsed = s.elapsed := rfl
@[simp] theorem State.setSlice_slow (s : State) (k : Nat) (v : Slice) : (s.setSlice k v).slow = s.slow := rfl
@[simp] theorem State.setSlice_free (s : State) (k : Nat) (v : Slice) : (s.setSlice k v).free = s.free := rfl

/-! ### setRec -/

@[simp] theorem State.setRec_cur (s : State) (w : Nat) (r : CellRec) : (s.setRec w r).cur = s.cur := rfl
@[simp] theorem State.setRec_groups (s : State) (w : Nat) (r : CellRec) : (s.setRec w r).groups = s.groups := rfl
@[simp] theorem State.setRec_teams (s : State) (w : Nat) (r : CellRec) : (s.setRec w r).teams = s.teams := rfl
@[simp] theorem State.setRec_insts (s : State) (w : Nat) (r : CellRec) : (s.setRec w r).insts = s.insts := rfl
@[simp] theorem State.setRec_convs (s : State) (w : Nat) (r : CellRec) : (s.setRec w r).convs = s.convs := rfl
@[simp] theorem State.setRec_cores (s : State) (w : Nat) (r : CellRec) : (s.setRec w r).cores = s.cores := rfl
@[simp] theorem State.setRec_pipes (s : State) (w : Nat) (r : CellRec) : (s.setRec w r).pipes = s.pipes := rfl
@[simp] theorem State.setRec_slices (s : State) (w : Nat) (r : CellRec) : (s.setRec w r).slices = s.slices := rfl
@[simp] theorem State.setRec_cvecs (s : State) (w : Nat) (r : CellRec) : (s.setRec w r).cvecs = s.cvecs := rfl
@[simp] theorem State.setRec_mem (s : State) (w : Nat) (r : CellRec) : (s.setRec w r).mem = s.mem := rfl
@[simp] theorem State.setRec_cells (s : State) (w : Nat) (r : CellRec) : (s.setRec w r).cells = put s.cells w r := rfl
@[simp] theorem State.setRec_pois (s : State) (w : Nat) (r : CellRec) : (s.setRec w r).pois = s.pois := rfl
@[simp] theorem State.setRec_regQ (s : State) (w : Nat) (r : CellRec) : (s.setRec w r).regQ = s.regQ := rfl
@[simp] theorem State.setRec_acks (s : State) (w : Nat) (r : CellRec) : (s.setRec w r).acks = s.acks := rfl
@[simp] theorem State.setRec_dtlb (s : State) (w : Nat) (r : CellRec) : (s.setRec w r).dtlb = s.dtlb := rfl
@[simp] theorem State.setRec_regions (s : State) (w : Nat) (r : CellRec) : (s.setRec w r).regions = s.regions := rfl
@[simp] theorem State.setRec_ports (s : State) (w : Nat) (r : CellRec) : (s.setRec w r).ports = s.ports := rfl
@[simp] theorem State.setRec_ctxs (s : State) (w : Nat) (r : CellRec) : (s.setRec w r).ctxs = s.ctxs := rfl
@[simp] theorem State.setRec_launches (s : State) (w : Nat) (r : CellRec) : (s.setRec w r).launches = s.launches := rfl
@[simp] theorem State.setRec_graphs (s : State) (w : Nat) (r : CellRec) : (s.setRec w r).graphs = s.graphs := rfl
@[simp] theorem State.setRec_quiesces (s : State) (w : Nat) (r : CellRec) : (s.setRec w r).quiesces = s.quiesces := rfl
@[simp] theorem State.setRec_saved (s : State) (w : Nat) (r : CellRec) : (s.setRec w r).saved = s.saved := rfl
@[simp] theorem State.setRec_images (s : State) (w : Nat) (r : CellRec) : (s.setRec w r).images = s.images := rfl
@[simp] theorem State.setRec_faults (s : State) (w : Nat) (r : CellRec) : (s.setRec w r).faults = s.faults := rfl
@[simp] theorem State.setRec_hcalls (s : State) (w : Nat) (r : CellRec) : (s.setRec w r).hcalls = s.hcalls := rfl
@[simp] theorem State.setRec_nextRid (s : State) (w : Nat) (r : CellRec) : (s.setRec w r).nextRid = s.nextRid := rfl
@[simp] theorem State.setRec_serials (s : State) (w : Nat) (r : CellRec) : (s.setRec w r).serials = s.serials := rfl
@[simp] theorem State.setRec_winBase (s : State) (w : Nat) (r : CellRec) : (s.setRec w r).winBase = s.winBase := rfl
@[simp] theorem State.setRec_winSize (s : State) (w : Nat) (r : CellRec) : (s.setRec w r).winSize = s.winSize := rfl
@[simp] theorem State.setRec_fabric (s : State) (w : Nat) (r : CellRec) : (s.setRec w r).fabric = s.fabric := rfl
@[simp] theorem State.setRec_chs (s : State) (w : Nat) (r : CellRec) : (s.setRec w r).chs = s.chs := rfl
@[simp] theorem State.setRec_held (s : State) (w : Nat) (r : CellRec) : (s.setRec w r).held = s.held := rfl
@[simp] theorem State.setRec_heldC (s : State) (w : Nat) (r : CellRec) : (s.setRec w r).heldC = s.heldC := rfl
@[simp] theorem State.setRec_events (s : State) (w : Nat) (r : CellRec) : (s.setRec w r).events = s.events := rfl
@[simp] theorem State.setRec_nextUid (s : State) (w : Nat) (r : CellRec) : (s.setRec w r).nextUid = s.nextUid := rfl
@[simp] theorem State.setRec_tsc (s : State) (w : Nat) (r : CellRec) : (s.setRec w r).tsc = s.tsc := rfl
@[simp] theorem State.setRec_cpDie (s : State) (w : Nat) (r : CellRec) : (s.setRec w r).cpDie = s.cpDie := rfl
@[simp] theorem State.setRec_cpDead (s : State) (w : Nat) (r : CellRec) : (s.setRec w r).cpDead = s.cpDead := rfl
@[simp] theorem State.setRec_live (s : State) (w : Nat) (r : CellRec) : (s.setRec w r).live = s.live := rfl
@[simp] theorem State.setRec_reduced (s : State) (w : Nat) (r : CellRec) : (s.setRec w r).reduced = s.reduced := rfl
@[simp] theorem State.setRec_coreOut (s : State) (w : Nat) (r : CellRec) : (s.setRec w r).coreOut = s.coreOut := rfl
@[simp] theorem State.setRec_pipeOut (s : State) (w : Nat) (r : CellRec) : (s.setRec w r).pipeOut = s.pipeOut := rfl
@[simp] theorem State.setRec_dies (s : State) (w : Nat) (r : CellRec) : (s.setRec w r).dies = s.dies := rfl
@[simp] theorem State.setRec_retireQ (s : State) (w : Nat) (r : CellRec) : (s.setRec w r).retireQ = s.retireQ := rfl
@[simp] theorem State.setRec_flash (s : State) (w : Nat) (r : CellRec) : (s.setRec w r).flash = s.flash := rfl
@[simp] theorem State.setRec_suspects (s : State) (w : Nat) (r : CellRec) : (s.setRec w r).suspects = s.suspects := rfl
@[simp] theorem State.setRec_links (s : State) (w : Nat) (r : CellRec) : (s.setRec w r).links = s.links := rfl
@[simp] theorem State.setRec_routes (s : State) (w : Nat) (r : CellRec) : (s.setRec w r).routes = s.routes := rfl
@[simp] theorem State.setRec_topo (s : State) (w : Nat) (r : CellRec) : (s.setRec w r).topo = s.topo := rfl
@[simp] theorem State.setRec_sent (s : State) (w : Nat) (r : CellRec) : (s.setRec w r).sent = s.sent := rfl
@[simp] theorem State.setRec_broken (s : State) (w : Nat) (r : CellRec) : (s.setRec w r).broken = s.broken := rfl
@[simp] theorem State.setRec_rowOut (s : State) (w : Nat) (r : CellRec) : (s.setRec w r).rowOut = s.rowOut := rfl
@[simp] theorem State.setRec_corrected (s : State) (w : Nat) (r : CellRec) : (s.setRec w r).corrected = s.corrected := rfl
@[simp] theorem State.setRec_eccFix (s : State) (w : Nat) (r : CellRec) : (s.setRec w r).eccFix = s.eccFix := rfl
@[simp] theorem State.setRec_repairs (s : State) (w : Nat) (r : CellRec) : (s.setRec w r).repairs = s.repairs := rfl
@[simp] theorem State.setRec_wdcfg (s : State) (w : Nat) (r : CellRec) : (s.setRec w r).wdcfg = s.wdcfg := rfl
@[simp] theorem State.setRec_cycles (s : State) (w : Nat) (r : CellRec) : (s.setRec w r).cycles = s.cycles := rfl
@[simp] theorem State.setRec_walk (s : State) (w : Nat) (r : CellRec) : (s.setRec w r).walk = s.walk := rfl
@[simp] theorem State.setRec_rollback (s : State) (w : Nat) (r : CellRec) : (s.setRec w r).rollback = s.rollback := rfl
@[simp] theorem State.setRec_fwPend (s : State) (w : Nat) (r : CellRec) : (s.setRec w r).fwPend = s.fwPend := rfl
@[simp] theorem State.setRec_flashW (s : State) (w : Nat) (r : CellRec) : (s.setRec w r).flashW = s.flashW := rfl
@[simp] theorem State.setRec_envW (s : State) (w : Nat) (r : CellRec) : (s.setRec w r).envW = s.envW := rfl
@[simp] theorem State.setRec_upsets (s : State) (w : Nat) (r : CellRec) : (s.setRec w r).upsets = s.upsets := rfl
@[simp] theorem State.setRec_agenda (s : State) (w : Nat) (r : CellRec) : (s.setRec w r).agenda = s.agenda := rfl
@[simp] theorem State.setRec_elapsed (s : State) (w : Nat) (r : CellRec) : (s.setRec w r).elapsed = s.elapsed := rfl
@[simp] theorem State.setRec_slow (s : State) (w : Nat) (r : CellRec) : (s.setRec w r).slow = s.slow := rfl
@[simp] theorem State.setRec_free (s : State) (w : Nat) (r : CellRec) : (s.setRec w r).free = s.free := rfl

/-! ### setPois -/

@[simp] theorem State.setPois_cur (s : State) (w : Nat) (p : Bool) : (s.setPois w p).cur = s.cur := rfl
@[simp] theorem State.setPois_groups (s : State) (w : Nat) (p : Bool) : (s.setPois w p).groups = s.groups := rfl
@[simp] theorem State.setPois_teams (s : State) (w : Nat) (p : Bool) : (s.setPois w p).teams = s.teams := rfl
@[simp] theorem State.setPois_insts (s : State) (w : Nat) (p : Bool) : (s.setPois w p).insts = s.insts := rfl
@[simp] theorem State.setPois_convs (s : State) (w : Nat) (p : Bool) : (s.setPois w p).convs = s.convs := rfl
@[simp] theorem State.setPois_cores (s : State) (w : Nat) (p : Bool) : (s.setPois w p).cores = s.cores := rfl
@[simp] theorem State.setPois_pipes (s : State) (w : Nat) (p : Bool) : (s.setPois w p).pipes = s.pipes := rfl
@[simp] theorem State.setPois_slices (s : State) (w : Nat) (p : Bool) : (s.setPois w p).slices = s.slices := rfl
@[simp] theorem State.setPois_cvecs (s : State) (w : Nat) (p : Bool) : (s.setPois w p).cvecs = s.cvecs := rfl
@[simp] theorem State.setPois_mem (s : State) (w : Nat) (p : Bool) : (s.setPois w p).mem = s.mem := rfl
@[simp] theorem State.setPois_cells (s : State) (w : Nat) (p : Bool) : (s.setPois w p).cells = s.cells := rfl
@[simp] theorem State.setPois_pois (s : State) (w : Nat) (p : Bool) : (s.setPois w p).pois = sset false s.pois w p := rfl
@[simp] theorem State.setPois_regQ (s : State) (w : Nat) (p : Bool) : (s.setPois w p).regQ = s.regQ := rfl
@[simp] theorem State.setPois_acks (s : State) (w : Nat) (p : Bool) : (s.setPois w p).acks = s.acks := rfl
@[simp] theorem State.setPois_dtlb (s : State) (w : Nat) (p : Bool) : (s.setPois w p).dtlb = s.dtlb := rfl
@[simp] theorem State.setPois_regions (s : State) (w : Nat) (p : Bool) : (s.setPois w p).regions = s.regions := rfl
@[simp] theorem State.setPois_ports (s : State) (w : Nat) (p : Bool) : (s.setPois w p).ports = s.ports := rfl
@[simp] theorem State.setPois_ctxs (s : State) (w : Nat) (p : Bool) : (s.setPois w p).ctxs = s.ctxs := rfl
@[simp] theorem State.setPois_launches (s : State) (w : Nat) (p : Bool) : (s.setPois w p).launches = s.launches := rfl
@[simp] theorem State.setPois_graphs (s : State) (w : Nat) (p : Bool) : (s.setPois w p).graphs = s.graphs := rfl
@[simp] theorem State.setPois_quiesces (s : State) (w : Nat) (p : Bool) : (s.setPois w p).quiesces = s.quiesces := rfl
@[simp] theorem State.setPois_saved (s : State) (w : Nat) (p : Bool) : (s.setPois w p).saved = s.saved := rfl
@[simp] theorem State.setPois_images (s : State) (w : Nat) (p : Bool) : (s.setPois w p).images = s.images := rfl
@[simp] theorem State.setPois_faults (s : State) (w : Nat) (p : Bool) : (s.setPois w p).faults = s.faults := rfl
@[simp] theorem State.setPois_hcalls (s : State) (w : Nat) (p : Bool) : (s.setPois w p).hcalls = s.hcalls := rfl
@[simp] theorem State.setPois_nextRid (s : State) (w : Nat) (p : Bool) : (s.setPois w p).nextRid = s.nextRid := rfl
@[simp] theorem State.setPois_serials (s : State) (w : Nat) (p : Bool) : (s.setPois w p).serials = s.serials := rfl
@[simp] theorem State.setPois_winBase (s : State) (w : Nat) (p : Bool) : (s.setPois w p).winBase = s.winBase := rfl
@[simp] theorem State.setPois_winSize (s : State) (w : Nat) (p : Bool) : (s.setPois w p).winSize = s.winSize := rfl
@[simp] theorem State.setPois_fabric (s : State) (w : Nat) (p : Bool) : (s.setPois w p).fabric = s.fabric := rfl
@[simp] theorem State.setPois_chs (s : State) (w : Nat) (p : Bool) : (s.setPois w p).chs = s.chs := rfl
@[simp] theorem State.setPois_held (s : State) (w : Nat) (p : Bool) : (s.setPois w p).held = s.held := rfl
@[simp] theorem State.setPois_heldC (s : State) (w : Nat) (p : Bool) : (s.setPois w p).heldC = s.heldC := rfl
@[simp] theorem State.setPois_events (s : State) (w : Nat) (p : Bool) : (s.setPois w p).events = s.events := rfl
@[simp] theorem State.setPois_nextUid (s : State) (w : Nat) (p : Bool) : (s.setPois w p).nextUid = s.nextUid := rfl
@[simp] theorem State.setPois_tsc (s : State) (w : Nat) (p : Bool) : (s.setPois w p).tsc = s.tsc := rfl
@[simp] theorem State.setPois_cpDie (s : State) (w : Nat) (p : Bool) : (s.setPois w p).cpDie = s.cpDie := rfl
@[simp] theorem State.setPois_cpDead (s : State) (w : Nat) (p : Bool) : (s.setPois w p).cpDead = s.cpDead := rfl
@[simp] theorem State.setPois_live (s : State) (w : Nat) (p : Bool) : (s.setPois w p).live = s.live := rfl
@[simp] theorem State.setPois_reduced (s : State) (w : Nat) (p : Bool) : (s.setPois w p).reduced = s.reduced := rfl
@[simp] theorem State.setPois_coreOut (s : State) (w : Nat) (p : Bool) : (s.setPois w p).coreOut = s.coreOut := rfl
@[simp] theorem State.setPois_pipeOut (s : State) (w : Nat) (p : Bool) : (s.setPois w p).pipeOut = s.pipeOut := rfl
@[simp] theorem State.setPois_dies (s : State) (w : Nat) (p : Bool) : (s.setPois w p).dies = s.dies := rfl
@[simp] theorem State.setPois_retireQ (s : State) (w : Nat) (p : Bool) : (s.setPois w p).retireQ = s.retireQ := rfl
@[simp] theorem State.setPois_flash (s : State) (w : Nat) (p : Bool) : (s.setPois w p).flash = s.flash := rfl
@[simp] theorem State.setPois_suspects (s : State) (w : Nat) (p : Bool) : (s.setPois w p).suspects = s.suspects := rfl
@[simp] theorem State.setPois_links (s : State) (w : Nat) (p : Bool) : (s.setPois w p).links = s.links := rfl
@[simp] theorem State.setPois_routes (s : State) (w : Nat) (p : Bool) : (s.setPois w p).routes = s.routes := rfl
@[simp] theorem State.setPois_topo (s : State) (w : Nat) (p : Bool) : (s.setPois w p).topo = s.topo := rfl
@[simp] theorem State.setPois_sent (s : State) (w : Nat) (p : Bool) : (s.setPois w p).sent = s.sent := rfl
@[simp] theorem State.setPois_broken (s : State) (w : Nat) (p : Bool) : (s.setPois w p).broken = s.broken := rfl
@[simp] theorem State.setPois_rowOut (s : State) (w : Nat) (p : Bool) : (s.setPois w p).rowOut = s.rowOut := rfl
@[simp] theorem State.setPois_corrected (s : State) (w : Nat) (p : Bool) : (s.setPois w p).corrected = s.corrected := rfl
@[simp] theorem State.setPois_eccFix (s : State) (w : Nat) (p : Bool) : (s.setPois w p).eccFix = s.eccFix := rfl
@[simp] theorem State.setPois_repairs (s : State) (w : Nat) (p : Bool) : (s.setPois w p).repairs = s.repairs := rfl
@[simp] theorem State.setPois_wdcfg (s : State) (w : Nat) (p : Bool) : (s.setPois w p).wdcfg = s.wdcfg := rfl
@[simp] theorem State.setPois_cycles (s : State) (w : Nat) (p : Bool) : (s.setPois w p).cycles = s.cycles := rfl
@[simp] theorem State.setPois_walk (s : State) (w : Nat) (p : Bool) : (s.setPois w p).walk = s.walk := rfl
@[simp] theorem State.setPois_rollback (s : State) (w : Nat) (p : Bool) : (s.setPois w p).rollback = s.rollback := rfl
@[simp] theorem State.setPois_fwPend (s : State) (w : Nat) (p : Bool) : (s.setPois w p).fwPend = s.fwPend := rfl
@[simp] theorem State.setPois_flashW (s : State) (w : Nat) (p : Bool) : (s.setPois w p).flashW = s.flashW := rfl
@[simp] theorem State.setPois_envW (s : State) (w : Nat) (p : Bool) : (s.setPois w p).envW = s.envW := rfl
@[simp] theorem State.setPois_upsets (s : State) (w : Nat) (p : Bool) : (s.setPois w p).upsets = s.upsets := rfl
@[simp] theorem State.setPois_agenda (s : State) (w : Nat) (p : Bool) : (s.setPois w p).agenda = s.agenda := rfl
@[simp] theorem State.setPois_elapsed (s : State) (w : Nat) (p : Bool) : (s.setPois w p).elapsed = s.elapsed := rfl
@[simp] theorem State.setPois_slow (s : State) (w : Nat) (p : Bool) : (s.setPois w p).slow = s.slow := rfl
@[simp] theorem State.setPois_free (s : State) (w : Nat) (p : Bool) : (s.setPois w p).free = s.free := rfl

/-! ### setByte -/

@[simp] theorem State.setByte_cur (s : State) (a : Nat) (b : Byte) : (s.setByte a b).cur = s.cur := rfl
@[simp] theorem State.setByte_groups (s : State) (a : Nat) (b : Byte) : (s.setByte a b).groups = s.groups := rfl
@[simp] theorem State.setByte_teams (s : State) (a : Nat) (b : Byte) : (s.setByte a b).teams = s.teams := rfl
@[simp] theorem State.setByte_insts (s : State) (a : Nat) (b : Byte) : (s.setByte a b).insts = s.insts := rfl
@[simp] theorem State.setByte_convs (s : State) (a : Nat) (b : Byte) : (s.setByte a b).convs = s.convs := rfl
@[simp] theorem State.setByte_cores (s : State) (a : Nat) (b : Byte) : (s.setByte a b).cores = s.cores := rfl
@[simp] theorem State.setByte_pipes (s : State) (a : Nat) (b : Byte) : (s.setByte a b).pipes = s.pipes := rfl
@[simp] theorem State.setByte_slices (s : State) (a : Nat) (b : Byte) : (s.setByte a b).slices = s.slices := rfl
@[simp] theorem State.setByte_cvecs (s : State) (a : Nat) (b : Byte) : (s.setByte a b).cvecs = s.cvecs := rfl
@[simp] theorem State.setByte_mem (s : State) (a : Nat) (b : Byte) : (s.setByte a b).mem = sset emptyByte s.mem a b := rfl
@[simp] theorem State.setByte_cells (s : State) (a : Nat) (b : Byte) : (s.setByte a b).cells = s.cells := rfl
@[simp] theorem State.setByte_pois (s : State) (a : Nat) (b : Byte) : (s.setByte a b).pois = s.pois := rfl
@[simp] theorem State.setByte_regQ (s : State) (a : Nat) (b : Byte) : (s.setByte a b).regQ = s.regQ := rfl
@[simp] theorem State.setByte_acks (s : State) (a : Nat) (b : Byte) : (s.setByte a b).acks = s.acks := rfl
@[simp] theorem State.setByte_dtlb (s : State) (a : Nat) (b : Byte) : (s.setByte a b).dtlb = s.dtlb := rfl
@[simp] theorem State.setByte_regions (s : State) (a : Nat) (b : Byte) : (s.setByte a b).regions = s.regions := rfl
@[simp] theorem State.setByte_ports (s : State) (a : Nat) (b : Byte) : (s.setByte a b).ports = s.ports := rfl
@[simp] theorem State.setByte_ctxs (s : State) (a : Nat) (b : Byte) : (s.setByte a b).ctxs = s.ctxs := rfl
@[simp] theorem State.setByte_launches (s : State) (a : Nat) (b : Byte) : (s.setByte a b).launches = s.launches := rfl
@[simp] theorem State.setByte_graphs (s : State) (a : Nat) (b : Byte) : (s.setByte a b).graphs = s.graphs := rfl
@[simp] theorem State.setByte_quiesces (s : State) (a : Nat) (b : Byte) : (s.setByte a b).quiesces = s.quiesces := rfl
@[simp] theorem State.setByte_saved (s : State) (a : Nat) (b : Byte) : (s.setByte a b).saved = s.saved := rfl
@[simp] theorem State.setByte_images (s : State) (a : Nat) (b : Byte) : (s.setByte a b).images = s.images := rfl
@[simp] theorem State.setByte_faults (s : State) (a : Nat) (b : Byte) : (s.setByte a b).faults = s.faults := rfl
@[simp] theorem State.setByte_hcalls (s : State) (a : Nat) (b : Byte) : (s.setByte a b).hcalls = s.hcalls := rfl
@[simp] theorem State.setByte_nextRid (s : State) (a : Nat) (b : Byte) : (s.setByte a b).nextRid = s.nextRid := rfl
@[simp] theorem State.setByte_serials (s : State) (a : Nat) (b : Byte) : (s.setByte a b).serials = s.serials := rfl
@[simp] theorem State.setByte_winBase (s : State) (a : Nat) (b : Byte) : (s.setByte a b).winBase = s.winBase := rfl
@[simp] theorem State.setByte_winSize (s : State) (a : Nat) (b : Byte) : (s.setByte a b).winSize = s.winSize := rfl
@[simp] theorem State.setByte_fabric (s : State) (a : Nat) (b : Byte) : (s.setByte a b).fabric = s.fabric := rfl
@[simp] theorem State.setByte_chs (s : State) (a : Nat) (b : Byte) : (s.setByte a b).chs = s.chs := rfl
@[simp] theorem State.setByte_held (s : State) (a : Nat) (b : Byte) : (s.setByte a b).held = s.held := rfl
@[simp] theorem State.setByte_heldC (s : State) (a : Nat) (b : Byte) : (s.setByte a b).heldC = s.heldC := rfl
@[simp] theorem State.setByte_events (s : State) (a : Nat) (b : Byte) : (s.setByte a b).events = s.events := rfl
@[simp] theorem State.setByte_nextUid (s : State) (a : Nat) (b : Byte) : (s.setByte a b).nextUid = s.nextUid := rfl
@[simp] theorem State.setByte_tsc (s : State) (a : Nat) (b : Byte) : (s.setByte a b).tsc = s.tsc := rfl
@[simp] theorem State.setByte_cpDie (s : State) (a : Nat) (b : Byte) : (s.setByte a b).cpDie = s.cpDie := rfl
@[simp] theorem State.setByte_cpDead (s : State) (a : Nat) (b : Byte) : (s.setByte a b).cpDead = s.cpDead := rfl
@[simp] theorem State.setByte_live (s : State) (a : Nat) (b : Byte) : (s.setByte a b).live = s.live := rfl
@[simp] theorem State.setByte_reduced (s : State) (a : Nat) (b : Byte) : (s.setByte a b).reduced = s.reduced := rfl
@[simp] theorem State.setByte_coreOut (s : State) (a : Nat) (b : Byte) : (s.setByte a b).coreOut = s.coreOut := rfl
@[simp] theorem State.setByte_pipeOut (s : State) (a : Nat) (b : Byte) : (s.setByte a b).pipeOut = s.pipeOut := rfl
@[simp] theorem State.setByte_dies (s : State) (a : Nat) (b : Byte) : (s.setByte a b).dies = s.dies := rfl
@[simp] theorem State.setByte_retireQ (s : State) (a : Nat) (b : Byte) : (s.setByte a b).retireQ = s.retireQ := rfl
@[simp] theorem State.setByte_flash (s : State) (a : Nat) (b : Byte) : (s.setByte a b).flash = s.flash := rfl
@[simp] theorem State.setByte_suspects (s : State) (a : Nat) (b : Byte) : (s.setByte a b).suspects = s.suspects := rfl
@[simp] theorem State.setByte_links (s : State) (a : Nat) (b : Byte) : (s.setByte a b).links = s.links := rfl
@[simp] theorem State.setByte_routes (s : State) (a : Nat) (b : Byte) : (s.setByte a b).routes = s.routes := rfl
@[simp] theorem State.setByte_topo (s : State) (a : Nat) (b : Byte) : (s.setByte a b).topo = s.topo := rfl
@[simp] theorem State.setByte_sent (s : State) (a : Nat) (b : Byte) : (s.setByte a b).sent = s.sent := rfl
@[simp] theorem State.setByte_broken (s : State) (a : Nat) (b : Byte) : (s.setByte a b).broken = s.broken := rfl
@[simp] theorem State.setByte_rowOut (s : State) (a : Nat) (b : Byte) : (s.setByte a b).rowOut = s.rowOut := rfl
@[simp] theorem State.setByte_corrected (s : State) (a : Nat) (b : Byte) : (s.setByte a b).corrected = s.corrected := rfl
@[simp] theorem State.setByte_eccFix (s : State) (a : Nat) (b : Byte) : (s.setByte a b).eccFix = s.eccFix := rfl
@[simp] theorem State.setByte_repairs (s : State) (a : Nat) (b : Byte) : (s.setByte a b).repairs = s.repairs := rfl
@[simp] theorem State.setByte_wdcfg (s : State) (a : Nat) (b : Byte) : (s.setByte a b).wdcfg = s.wdcfg := rfl
@[simp] theorem State.setByte_cycles (s : State) (a : Nat) (b : Byte) : (s.setByte a b).cycles = s.cycles := rfl
@[simp] theorem State.setByte_walk (s : State) (a : Nat) (b : Byte) : (s.setByte a b).walk = s.walk := rfl
@[simp] theorem State.setByte_rollback (s : State) (a : Nat) (b : Byte) : (s.setByte a b).rollback = s.rollback := rfl
@[simp] theorem State.setByte_fwPend (s : State) (a : Nat) (b : Byte) : (s.setByte a b).fwPend = s.fwPend := rfl
@[simp] theorem State.setByte_flashW (s : State) (a : Nat) (b : Byte) : (s.setByte a b).flashW = s.flashW := rfl
@[simp] theorem State.setByte_envW (s : State) (a : Nat) (b : Byte) : (s.setByte a b).envW = s.envW := rfl
@[simp] theorem State.setByte_upsets (s : State) (a : Nat) (b : Byte) : (s.setByte a b).upsets = s.upsets := rfl
@[simp] theorem State.setByte_agenda (s : State) (a : Nat) (b : Byte) : (s.setByte a b).agenda = s.agenda := rfl
@[simp] theorem State.setByte_elapsed (s : State) (a : Nat) (b : Byte) : (s.setByte a b).elapsed = s.elapsed := rfl
@[simp] theorem State.setByte_slow (s : State) (a : Nat) (b : Byte) : (s.setByte a b).slow = s.slow := rfl
@[simp] theorem State.setByte_free (s : State) (a : Nat) (b : Byte) : (s.setByte a b).free = s.free := rfl

/-! ### setBytes and setWord -/

/-- Writing bytes changes the memory alone. -/
theorem State.setBytes_frame (s : State) (a : Nat) (l : List Byte) : s.setBytes a l = { s with mem := (s.setBytes a l).mem } := by
  induction l generalizing s a with
  | nil => rfl
  | cons b r ih => exact ih (s.setByte a b) (a + 1)

@[simp] theorem State.setBytes_cur (s : State) (a : Nat) (l : List Byte) : (s.setBytes a l).cur = s.cur := by rw [setBytes_frame]
@[simp] theorem State.setBytes_groups (s : State) (a : Nat) (l : List Byte) : (s.setBytes a l).groups = s.groups := by rw [setBytes_frame]
@[simp] theorem State.setBytes_teams (s : State) (a : Nat) (l : List Byte) : (s.setBytes a l).teams = s.teams := by rw [setBytes_frame]
@[simp] theorem State.setBytes_insts (s : State) (a : Nat) (l : List Byte) : (s.setBytes a l).insts = s.insts := by rw [setBytes_frame]
@[simp] theorem State.setBytes_convs (s : State) (a : Nat) (l : List Byte) : (s.setBytes a l).convs = s.convs := by rw [setBytes_frame]
@[simp] theorem State.setBytes_cores (s : State) (a : Nat) (l : List Byte) : (s.setBytes a l).cores = s.cores := by rw [setBytes_frame]
@[simp] theorem State.setBytes_pipes (s : State) (a : Nat) (l : List Byte) : (s.setBytes a l).pipes = s.pipes := by rw [setBytes_frame]
@[simp] theorem State.setBytes_slices (s : State) (a : Nat) (l : List Byte) : (s.setBytes a l).slices = s.slices := by rw [setBytes_frame]
@[simp] theorem State.setBytes_cvecs (s : State) (a : Nat) (l : List Byte) : (s.setBytes a l).cvecs = s.cvecs := by rw [setBytes_frame]
@[simp] theorem State.setBytes_cells (s : State) (a : Nat) (l : List Byte) : (s.setBytes a l).cells = s.cells := by rw [setBytes_frame]
@[simp] theorem State.setBytes_pois (s : State) (a : Nat) (l : List Byte) : (s.setBytes a l).pois = s.pois := by rw [setBytes_frame]
@[simp] theorem State.setBytes_regQ (s : State) (a : Nat) (l : List Byte) : (s.setBytes a l).regQ = s.regQ := by rw [setBytes_frame]
@[simp] theorem State.setBytes_acks (s : State) (a : Nat) (l : List Byte) : (s.setBytes a l).acks = s.acks := by rw [setBytes_frame]
@[simp] theorem State.setBytes_dtlb (s : State) (a : Nat) (l : List Byte) : (s.setBytes a l).dtlb = s.dtlb := by rw [setBytes_frame]
@[simp] theorem State.setBytes_regions (s : State) (a : Nat) (l : List Byte) : (s.setBytes a l).regions = s.regions := by rw [setBytes_frame]
@[simp] theorem State.setBytes_ports (s : State) (a : Nat) (l : List Byte) : (s.setBytes a l).ports = s.ports := by rw [setBytes_frame]
@[simp] theorem State.setBytes_ctxs (s : State) (a : Nat) (l : List Byte) : (s.setBytes a l).ctxs = s.ctxs := by rw [setBytes_frame]
@[simp] theorem State.setBytes_launches (s : State) (a : Nat) (l : List Byte) : (s.setBytes a l).launches = s.launches := by rw [setBytes_frame]
@[simp] theorem State.setBytes_graphs (s : State) (a : Nat) (l : List Byte) : (s.setBytes a l).graphs = s.graphs := by rw [setBytes_frame]
@[simp] theorem State.setBytes_quiesces (s : State) (a : Nat) (l : List Byte) : (s.setBytes a l).quiesces = s.quiesces := by rw [setBytes_frame]
@[simp] theorem State.setBytes_saved (s : State) (a : Nat) (l : List Byte) : (s.setBytes a l).saved = s.saved := by rw [setBytes_frame]
@[simp] theorem State.setBytes_images (s : State) (a : Nat) (l : List Byte) : (s.setBytes a l).images = s.images := by rw [setBytes_frame]
@[simp] theorem State.setBytes_faults (s : State) (a : Nat) (l : List Byte) : (s.setBytes a l).faults = s.faults := by rw [setBytes_frame]
@[simp] theorem State.setBytes_hcalls (s : State) (a : Nat) (l : List Byte) : (s.setBytes a l).hcalls = s.hcalls := by rw [setBytes_frame]
@[simp] theorem State.setBytes_nextRid (s : State) (a : Nat) (l : List Byte) : (s.setBytes a l).nextRid = s.nextRid := by rw [setBytes_frame]
@[simp] theorem State.setBytes_serials (s : State) (a : Nat) (l : List Byte) : (s.setBytes a l).serials = s.serials := by rw [setBytes_frame]
@[simp] theorem State.setBytes_winBase (s : State) (a : Nat) (l : List Byte) : (s.setBytes a l).winBase = s.winBase := by rw [setBytes_frame]
@[simp] theorem State.setBytes_winSize (s : State) (a : Nat) (l : List Byte) : (s.setBytes a l).winSize = s.winSize := by rw [setBytes_frame]
@[simp] theorem State.setBytes_fabric (s : State) (a : Nat) (l : List Byte) : (s.setBytes a l).fabric = s.fabric := by rw [setBytes_frame]
@[simp] theorem State.setBytes_chs (s : State) (a : Nat) (l : List Byte) : (s.setBytes a l).chs = s.chs := by rw [setBytes_frame]
@[simp] theorem State.setBytes_held (s : State) (a : Nat) (l : List Byte) : (s.setBytes a l).held = s.held := by rw [setBytes_frame]
@[simp] theorem State.setBytes_heldC (s : State) (a : Nat) (l : List Byte) : (s.setBytes a l).heldC = s.heldC := by rw [setBytes_frame]
@[simp] theorem State.setBytes_events (s : State) (a : Nat) (l : List Byte) : (s.setBytes a l).events = s.events := by rw [setBytes_frame]
@[simp] theorem State.setBytes_nextUid (s : State) (a : Nat) (l : List Byte) : (s.setBytes a l).nextUid = s.nextUid := by rw [setBytes_frame]
@[simp] theorem State.setBytes_tsc (s : State) (a : Nat) (l : List Byte) : (s.setBytes a l).tsc = s.tsc := by rw [setBytes_frame]
@[simp] theorem State.setBytes_cpDie (s : State) (a : Nat) (l : List Byte) : (s.setBytes a l).cpDie = s.cpDie := by rw [setBytes_frame]
@[simp] theorem State.setBytes_cpDead (s : State) (a : Nat) (l : List Byte) : (s.setBytes a l).cpDead = s.cpDead := by rw [setBytes_frame]
@[simp] theorem State.setBytes_live (s : State) (a : Nat) (l : List Byte) : (s.setBytes a l).live = s.live := by rw [setBytes_frame]
@[simp] theorem State.setBytes_reduced (s : State) (a : Nat) (l : List Byte) : (s.setBytes a l).reduced = s.reduced := by rw [setBytes_frame]
@[simp] theorem State.setBytes_coreOut (s : State) (a : Nat) (l : List Byte) : (s.setBytes a l).coreOut = s.coreOut := by rw [setBytes_frame]
@[simp] theorem State.setBytes_pipeOut (s : State) (a : Nat) (l : List Byte) : (s.setBytes a l).pipeOut = s.pipeOut := by rw [setBytes_frame]
@[simp] theorem State.setBytes_dies (s : State) (a : Nat) (l : List Byte) : (s.setBytes a l).dies = s.dies := by rw [setBytes_frame]
@[simp] theorem State.setBytes_retireQ (s : State) (a : Nat) (l : List Byte) : (s.setBytes a l).retireQ = s.retireQ := by rw [setBytes_frame]
@[simp] theorem State.setBytes_flash (s : State) (a : Nat) (l : List Byte) : (s.setBytes a l).flash = s.flash := by rw [setBytes_frame]
@[simp] theorem State.setBytes_suspects (s : State) (a : Nat) (l : List Byte) : (s.setBytes a l).suspects = s.suspects := by rw [setBytes_frame]
@[simp] theorem State.setBytes_links (s : State) (a : Nat) (l : List Byte) : (s.setBytes a l).links = s.links := by rw [setBytes_frame]
@[simp] theorem State.setBytes_routes (s : State) (a : Nat) (l : List Byte) : (s.setBytes a l).routes = s.routes := by rw [setBytes_frame]
@[simp] theorem State.setBytes_topo (s : State) (a : Nat) (l : List Byte) : (s.setBytes a l).topo = s.topo := by rw [setBytes_frame]
@[simp] theorem State.setBytes_sent (s : State) (a : Nat) (l : List Byte) : (s.setBytes a l).sent = s.sent := by rw [setBytes_frame]
@[simp] theorem State.setBytes_broken (s : State) (a : Nat) (l : List Byte) : (s.setBytes a l).broken = s.broken := by rw [setBytes_frame]
@[simp] theorem State.setBytes_rowOut (s : State) (a : Nat) (l : List Byte) : (s.setBytes a l).rowOut = s.rowOut := by rw [setBytes_frame]
@[simp] theorem State.setBytes_corrected (s : State) (a : Nat) (l : List Byte) : (s.setBytes a l).corrected = s.corrected := by rw [setBytes_frame]
@[simp] theorem State.setBytes_eccFix (s : State) (a : Nat) (l : List Byte) : (s.setBytes a l).eccFix = s.eccFix := by rw [setBytes_frame]
@[simp] theorem State.setBytes_repairs (s : State) (a : Nat) (l : List Byte) : (s.setBytes a l).repairs = s.repairs := by rw [setBytes_frame]
@[simp] theorem State.setBytes_wdcfg (s : State) (a : Nat) (l : List Byte) : (s.setBytes a l).wdcfg = s.wdcfg := by rw [setBytes_frame]
@[simp] theorem State.setBytes_cycles (s : State) (a : Nat) (l : List Byte) : (s.setBytes a l).cycles = s.cycles := by rw [setBytes_frame]
@[simp] theorem State.setBytes_walk (s : State) (a : Nat) (l : List Byte) : (s.setBytes a l).walk = s.walk := by rw [setBytes_frame]
@[simp] theorem State.setBytes_rollback (s : State) (a : Nat) (l : List Byte) : (s.setBytes a l).rollback = s.rollback := by rw [setBytes_frame]
@[simp] theorem State.setBytes_fwPend (s : State) (a : Nat) (l : List Byte) : (s.setBytes a l).fwPend = s.fwPend := by rw [setBytes_frame]
@[simp] theorem State.setBytes_flashW (s : State) (a : Nat) (l : List Byte) : (s.setBytes a l).flashW = s.flashW := by rw [setBytes_frame]
@[simp] theorem State.setBytes_envW (s : State) (a : Nat) (l : List Byte) : (s.setBytes a l).envW = s.envW := by rw [setBytes_frame]
@[simp] theorem State.setBytes_upsets (s : State) (a : Nat) (l : List Byte) : (s.setBytes a l).upsets = s.upsets := by rw [setBytes_frame]
@[simp] theorem State.setBytes_agenda (s : State) (a : Nat) (l : List Byte) : (s.setBytes a l).agenda = s.agenda := by rw [setBytes_frame]
@[simp] theorem State.setBytes_elapsed (s : State) (a : Nat) (l : List Byte) : (s.setBytes a l).elapsed = s.elapsed := by rw [setBytes_frame]
@[simp] theorem State.setBytes_slow (s : State) (a : Nat) (l : List Byte) : (s.setBytes a l).slow = s.slow := by rw [setBytes_frame]
@[simp] theorem State.setBytes_free (s : State) (a : Nat) (l : List Byte) : (s.setBytes a l).free = s.free := by rw [setBytes_frame]

@[simp] theorem State.setWord_cur (s : State) (w : Nat) (v : Word) : (s.setWord w v).cur = s.cur := setBytes_cur s _ _
@[simp] theorem State.setWord_groups (s : State) (w : Nat) (v : Word) : (s.setWord w v).groups = s.groups := setBytes_groups s _ _
@[simp] theorem State.setWord_teams (s : State) (w : Nat) (v : Word) : (s.setWord w v).teams = s.teams := setBytes_teams s _ _
@[simp] theorem State.setWord_insts (s : State) (w : Nat) (v : Word) : (s.setWord w v).insts = s.insts := setBytes_insts s _ _
@[simp] theorem State.setWord_convs (s : State) (w : Nat) (v : Word) : (s.setWord w v).convs = s.convs := setBytes_convs s _ _
@[simp] theorem State.setWord_cores (s : State) (w : Nat) (v : Word) : (s.setWord w v).cores = s.cores := setBytes_cores s _ _
@[simp] theorem State.setWord_pipes (s : State) (w : Nat) (v : Word) : (s.setWord w v).pipes = s.pipes := setBytes_pipes s _ _
@[simp] theorem State.setWord_slices (s : State) (w : Nat) (v : Word) : (s.setWord w v).slices = s.slices := setBytes_slices s _ _
@[simp] theorem State.setWord_cvecs (s : State) (w : Nat) (v : Word) : (s.setWord w v).cvecs = s.cvecs := setBytes_cvecs s _ _
@[simp] theorem State.setWord_cells (s : State) (w : Nat) (v : Word) : (s.setWord w v).cells = s.cells := setBytes_cells s _ _
@[simp] theorem State.setWord_pois (s : State) (w : Nat) (v : Word) : (s.setWord w v).pois = s.pois := setBytes_pois s _ _
@[simp] theorem State.setWord_regQ (s : State) (w : Nat) (v : Word) : (s.setWord w v).regQ = s.regQ := setBytes_regQ s _ _
@[simp] theorem State.setWord_acks (s : State) (w : Nat) (v : Word) : (s.setWord w v).acks = s.acks := setBytes_acks s _ _
@[simp] theorem State.setWord_dtlb (s : State) (w : Nat) (v : Word) : (s.setWord w v).dtlb = s.dtlb := setBytes_dtlb s _ _
@[simp] theorem State.setWord_regions (s : State) (w : Nat) (v : Word) : (s.setWord w v).regions = s.regions := setBytes_regions s _ _
@[simp] theorem State.setWord_ports (s : State) (w : Nat) (v : Word) : (s.setWord w v).ports = s.ports := setBytes_ports s _ _
@[simp] theorem State.setWord_ctxs (s : State) (w : Nat) (v : Word) : (s.setWord w v).ctxs = s.ctxs := setBytes_ctxs s _ _
@[simp] theorem State.setWord_launches (s : State) (w : Nat) (v : Word) : (s.setWord w v).launches = s.launches := setBytes_launches s _ _
@[simp] theorem State.setWord_graphs (s : State) (w : Nat) (v : Word) : (s.setWord w v).graphs = s.graphs := setBytes_graphs s _ _
@[simp] theorem State.setWord_quiesces (s : State) (w : Nat) (v : Word) : (s.setWord w v).quiesces = s.quiesces := setBytes_quiesces s _ _
@[simp] theorem State.setWord_saved (s : State) (w : Nat) (v : Word) : (s.setWord w v).saved = s.saved := setBytes_saved s _ _
@[simp] theorem State.setWord_images (s : State) (w : Nat) (v : Word) : (s.setWord w v).images = s.images := setBytes_images s _ _
@[simp] theorem State.setWord_faults (s : State) (w : Nat) (v : Word) : (s.setWord w v).faults = s.faults := setBytes_faults s _ _
@[simp] theorem State.setWord_hcalls (s : State) (w : Nat) (v : Word) : (s.setWord w v).hcalls = s.hcalls := setBytes_hcalls s _ _
@[simp] theorem State.setWord_nextRid (s : State) (w : Nat) (v : Word) : (s.setWord w v).nextRid = s.nextRid := setBytes_nextRid s _ _
@[simp] theorem State.setWord_serials (s : State) (w : Nat) (v : Word) : (s.setWord w v).serials = s.serials := setBytes_serials s _ _
@[simp] theorem State.setWord_winBase (s : State) (w : Nat) (v : Word) : (s.setWord w v).winBase = s.winBase := setBytes_winBase s _ _
@[simp] theorem State.setWord_winSize (s : State) (w : Nat) (v : Word) : (s.setWord w v).winSize = s.winSize := setBytes_winSize s _ _
@[simp] theorem State.setWord_fabric (s : State) (w : Nat) (v : Word) : (s.setWord w v).fabric = s.fabric := setBytes_fabric s _ _
@[simp] theorem State.setWord_chs (s : State) (w : Nat) (v : Word) : (s.setWord w v).chs = s.chs := setBytes_chs s _ _
@[simp] theorem State.setWord_held (s : State) (w : Nat) (v : Word) : (s.setWord w v).held = s.held := setBytes_held s _ _
@[simp] theorem State.setWord_heldC (s : State) (w : Nat) (v : Word) : (s.setWord w v).heldC = s.heldC := setBytes_heldC s _ _
@[simp] theorem State.setWord_events (s : State) (w : Nat) (v : Word) : (s.setWord w v).events = s.events := setBytes_events s _ _
@[simp] theorem State.setWord_nextUid (s : State) (w : Nat) (v : Word) : (s.setWord w v).nextUid = s.nextUid := setBytes_nextUid s _ _
@[simp] theorem State.setWord_tsc (s : State) (w : Nat) (v : Word) : (s.setWord w v).tsc = s.tsc := setBytes_tsc s _ _
@[simp] theorem State.setWord_cpDie (s : State) (w : Nat) (v : Word) : (s.setWord w v).cpDie = s.cpDie := setBytes_cpDie s _ _
@[simp] theorem State.setWord_cpDead (s : State) (w : Nat) (v : Word) : (s.setWord w v).cpDead = s.cpDead := setBytes_cpDead s _ _
@[simp] theorem State.setWord_live (s : State) (w : Nat) (v : Word) : (s.setWord w v).live = s.live := setBytes_live s _ _
@[simp] theorem State.setWord_reduced (s : State) (w : Nat) (v : Word) : (s.setWord w v).reduced = s.reduced := setBytes_reduced s _ _
@[simp] theorem State.setWord_coreOut (s : State) (w : Nat) (v : Word) : (s.setWord w v).coreOut = s.coreOut := setBytes_coreOut s _ _
@[simp] theorem State.setWord_pipeOut (s : State) (w : Nat) (v : Word) : (s.setWord w v).pipeOut = s.pipeOut := setBytes_pipeOut s _ _
@[simp] theorem State.setWord_dies (s : State) (w : Nat) (v : Word) : (s.setWord w v).dies = s.dies := setBytes_dies s _ _
@[simp] theorem State.setWord_retireQ (s : State) (w : Nat) (v : Word) : (s.setWord w v).retireQ = s.retireQ := setBytes_retireQ s _ _
@[simp] theorem State.setWord_flash (s : State) (w : Nat) (v : Word) : (s.setWord w v).flash = s.flash := setBytes_flash s _ _
@[simp] theorem State.setWord_suspects (s : State) (w : Nat) (v : Word) : (s.setWord w v).suspects = s.suspects := setBytes_suspects s _ _
@[simp] theorem State.setWord_links (s : State) (w : Nat) (v : Word) : (s.setWord w v).links = s.links := setBytes_links s _ _
@[simp] theorem State.setWord_routes (s : State) (w : Nat) (v : Word) : (s.setWord w v).routes = s.routes := setBytes_routes s _ _
@[simp] theorem State.setWord_topo (s : State) (w : Nat) (v : Word) : (s.setWord w v).topo = s.topo := setBytes_topo s _ _
@[simp] theorem State.setWord_sent (s : State) (w : Nat) (v : Word) : (s.setWord w v).sent = s.sent := setBytes_sent s _ _
@[simp] theorem State.setWord_broken (s : State) (w : Nat) (v : Word) : (s.setWord w v).broken = s.broken := setBytes_broken s _ _
@[simp] theorem State.setWord_rowOut (s : State) (w : Nat) (v : Word) : (s.setWord w v).rowOut = s.rowOut := setBytes_rowOut s _ _
@[simp] theorem State.setWord_corrected (s : State) (w : Nat) (v : Word) : (s.setWord w v).corrected = s.corrected := setBytes_corrected s _ _
@[simp] theorem State.setWord_eccFix (s : State) (w : Nat) (v : Word) : (s.setWord w v).eccFix = s.eccFix := setBytes_eccFix s _ _
@[simp] theorem State.setWord_repairs (s : State) (w : Nat) (v : Word) : (s.setWord w v).repairs = s.repairs := setBytes_repairs s _ _
@[simp] theorem State.setWord_wdcfg (s : State) (w : Nat) (v : Word) : (s.setWord w v).wdcfg = s.wdcfg := setBytes_wdcfg s _ _
@[simp] theorem State.setWord_cycles (s : State) (w : Nat) (v : Word) : (s.setWord w v).cycles = s.cycles := setBytes_cycles s _ _
@[simp] theorem State.setWord_walk (s : State) (w : Nat) (v : Word) : (s.setWord w v).walk = s.walk := setBytes_walk s _ _
@[simp] theorem State.setWord_rollback (s : State) (w : Nat) (v : Word) : (s.setWord w v).rollback = s.rollback := setBytes_rollback s _ _
@[simp] theorem State.setWord_fwPend (s : State) (w : Nat) (v : Word) : (s.setWord w v).fwPend = s.fwPend := setBytes_fwPend s _ _
@[simp] theorem State.setWord_flashW (s : State) (w : Nat) (v : Word) : (s.setWord w v).flashW = s.flashW := setBytes_flashW s _ _
@[simp] theorem State.setWord_envW (s : State) (w : Nat) (v : Word) : (s.setWord w v).envW = s.envW := setBytes_envW s _ _
@[simp] theorem State.setWord_upsets (s : State) (w : Nat) (v : Word) : (s.setWord w v).upsets = s.upsets := setBytes_upsets s _ _
@[simp] theorem State.setWord_agenda (s : State) (w : Nat) (v : Word) : (s.setWord w v).agenda = s.agenda := setBytes_agenda s _ _
@[simp] theorem State.setWord_elapsed (s : State) (w : Nat) (v : Word) : (s.setWord w v).elapsed = s.elapsed := setBytes_elapsed s _ _
@[simp] theorem State.setWord_slow (s : State) (w : Nat) (v : Word) : (s.setWord w v).slow = s.slow := setBytes_slow s _ _
@[simp] theorem State.setWord_free (s : State) (w : Nat) (v : Word) : (s.setWord w v).free = s.free := setBytes_free s _ _

/-! ### Groups -/

@[simp] theorem Group.next_seat (g : Group) : (g.next).seat = g.seat := rfl
@[simp] theorem Group.next_gid (g : Group) : (g.next).gid = g.gid := rfl
@[simp] theorem Group.next_role (g : Group) : (g.next).role = g.role := rfl
@[simp] theorem Group.next_gw (g : Group) : (g.next).gw = g.gw := rfl
@[simp] theorem Group.next_pipe (g : Group) : (g.next).pipe = g.pipe := rfl
@[simp] theorem Group.next_soff (g : Group) : (g.next).soff = g.soff := rfl
@[simp] theorem Group.next_allot (g : Group) : (g.next).allot = g.allot := rfl
@[simp] theorem Group.next_lbase (g : Group) : (g.next).lbase = g.lbase := rfl
@[simp] theorem Group.next_pc (g : Group) : (g.next).pc = g.pc + 4 := rfl
@[simp] theorem Group.next_xs (g : Group) : (g.next).xs = g.xs := rfl
@[simp] theorem Group.next_vs (g : Group) : (g.next).vs = g.vs := rfl
@[simp] theorem Group.next_ks (g : Group) : (g.next).ks = g.ks := rfl
@[simp] theorem Group.next_k0 (g : Group) : (g.next).k0 = g.k0 := rfl
@[simp] theorem Group.next_act (g : Group) : (g.next).act = g.act := rfl
@[simp] theorem Group.next_ret (g : Group) : (g.next).ret = g.ret := rfl
@[simp] theorem Group.next_spill (g : Group) : (g.next).spill = g.spill := rfl
@[simp] theorem Group.next_laneQ (g : Group) : (g.next).laneQ = g.laneQ := rfl
@[simp] theorem Group.next_decQ (g : Group) : (g.next).decQ = g.decQ := rfl
@[simp] theorem Group.next_opq (g : Group) : (g.next).opq = g.opq := rfl
@[simp] theorem Group.next_cnt (g : Group) : (g.next).cnt = g.cnt := rfl
@[simp] theorem Group.next_waitN (g : Group) : (g.next).waitN = none := rfl
@[simp] theorem Group.next_cpStop (g : Group) : (g.next).cpStop = g.cpStop := rfl
@[simp] theorem Group.next_vv (g : Group) : (g.next).vv = g.vv := rfl
@[simp] theorem Group.next_ofc (g : Group) : (g.next).ofc = g.ofc := rfl
@[simp] theorem Group.next_disp (g : Group) : (g.next).disp = g.disp := rfl
@[simp] theorem Group.next_tclass (g : Group) : (g.next).tclass = g.tclass := rfl
@[simp] theorem Group.next_frozen (g : Group) : (g.next).frozen = g.frozen := rfl
@[simp] theorem Group.next_budget (g : Group) : (g.next).budget = g.budget := rfl
@[simp] theorem Group.next_pend (g : Group) : (g.next).pend = g.pend := rfl
@[simp] theorem Group.next_entry (g : Group) : (g.next).entry = g.entry := rfl
@[simp] theorem Group.next_stopd (g : Group) : (g.next).stopd = g.stopd := rfl
@[simp] theorem Group.next_winS (g : Group) : (g.next).winS = g.winS := rfl
@[simp] theorem Group.next_winL (g : Group) : (g.next).winL = g.winL := rfl
@[simp] theorem Group.next_infl (g : Group) : (g.next).infl = g.infl := rfl
@[simp] theorem Group.next_late (g : Group) : (g.next).late = g.late := rfl
@[simp] theorem Group.next_wf (g : Group) : (g.next).wf = {} := rfl
@[simp] theorem Group.next_nap (g : Group) : (g.next).nap = g.nap := rfl
@[simp] theorem Group.next_arr (g : Group) : (g.next).arr = g.arr := rfl
@[simp] theorem Group.next_handed (g : Group) : (g.next).handed = g.handed := rfl
@[simp] theorem Group.next_kept (g : Group) : (g.next).kept = g.kept := rfl
@[simp] theorem Group.next_wrec (g : Group) : (g.next).wrec = g.wrec := rfl
@[simp] theorem Group.next_leaving (g : Group) : (g.next).leaving = g.leaving := rfl
@[simp] theorem Group.next_awt (g : Group) : (g.next).awt = g.awt := rfl
@[simp] theorem Group.next_bank (g : Group) : (g.next).bank = g.bank := rfl
@[simp] theorem Group.next_relW (g : Group) : (g.next).relW = g.relW := rfl
@[simp] theorem Group.next_hcid (g : Group) : (g.next).hcid = g.hcid := rfl
@[simp] theorem Group.next_hrep (g : Group) : (g.next).hrep = g.hrep := rfl
@[simp] theorem Group.next_age (g : Group) : (g.next).age = g.age := rfl
@[simp] theorem Group.next_runS (g : Group) : (g.next).runS = g.runS := rfl
@[simp] theorem Group.next_runL (g : Group) : (g.next).runL = g.runL := rfl
@[simp] theorem Group.next_dueS (g : Group) : (g.next).dueS = g.dueS := rfl
@[simp] theorem Group.next_dueL (g : Group) : (g.next).dueL = g.dueL := rfl
@[simp] theorem Group.next_rdyS (g : Group) : (g.next).rdyS = g.rdyS := rfl
@[simp] theorem Group.next_rdyL (g : Group) : (g.next).rdyL = g.rdyL := rfl
@[simp] theorem Group.next_fbuf (g : Group) : (g.next).fbuf = g.fbuf := rfl
@[simp] theorem Group.next_stopReq (g : Group) : (g.next).stopReq = g.stopReq := rfl
@[simp] theorem Group.next_frameK (g : Group) : (g.next).frameK = g.frameK := rfl
@[simp] theorem Group.next_spillK (g : Group) : (g.next).spillK = g.spillK := rfl

@[simp] theorem Group.jump_seat (g : Group) (a : DWord) : (g.jump a).seat = g.seat := rfl
@[simp] theorem Group.jump_gid (g : Group) (a : DWord) : (g.jump a).gid = g.gid := rfl
@[simp] theorem Group.jump_role (g : Group) (a : DWord) : (g.jump a).role = g.role := rfl
@[simp] theorem Group.jump_gw (g : Group) (a : DWord) : (g.jump a).gw = g.gw := rfl
@[simp] theorem Group.jump_pipe (g : Group) (a : DWord) : (g.jump a).pipe = g.pipe := rfl
@[simp] theorem Group.jump_soff (g : Group) (a : DWord) : (g.jump a).soff = g.soff := rfl
@[simp] theorem Group.jump_allot (g : Group) (a : DWord) : (g.jump a).allot = g.allot := rfl
@[simp] theorem Group.jump_lbase (g : Group) (a : DWord) : (g.jump a).lbase = g.lbase := rfl
@[simp] theorem Group.jump_pc (g : Group) (a : DWord) : (g.jump a).pc = a := rfl
@[simp] theorem Group.jump_xs (g : Group) (a : DWord) : (g.jump a).xs = g.xs := rfl
@[simp] theorem Group.jump_vs (g : Group) (a : DWord) : (g.jump a).vs = g.vs := rfl
@[simp] theorem Group.jump_ks (g : Group) (a : DWord) : (g.jump a).ks = g.ks := rfl
@[simp] theorem Group.jump_k0 (g : Group) (a : DWord) : (g.jump a).k0 = g.k0 := rfl
@[simp] theorem Group.jump_act (g : Group) (a : DWord) : (g.jump a).act = g.act := rfl
@[simp] theorem Group.jump_ret (g : Group) (a : DWord) : (g.jump a).ret = g.ret := rfl
@[simp] theorem Group.jump_spill (g : Group) (a : DWord) : (g.jump a).spill = g.spill := rfl
@[simp] theorem Group.jump_laneQ (g : Group) (a : DWord) : (g.jump a).laneQ = g.laneQ := rfl
@[simp] theorem Group.jump_decQ (g : Group) (a : DWord) : (g.jump a).decQ = g.decQ := rfl
@[simp] theorem Group.jump_opq (g : Group) (a : DWord) : (g.jump a).opq = g.opq := rfl
@[simp] theorem Group.jump_cnt (g : Group) (a : DWord) : (g.jump a).cnt = g.cnt := rfl
@[simp] theorem Group.jump_waitN (g : Group) (a : DWord) : (g.jump a).waitN = none := rfl
@[simp] theorem Group.jump_cpStop (g : Group) (a : DWord) : (g.jump a).cpStop = g.cpStop := rfl
@[simp] theorem Group.jump_vv (g : Group) (a : DWord) : (g.jump a).vv = g.vv := rfl
@[simp] theorem Group.jump_ofc (g : Group) (a : DWord) : (g.jump a).ofc = g.ofc := rfl
@[simp] theorem Group.jump_disp (g : Group) (a : DWord) : (g.jump a).disp = g.disp := rfl
@[simp] theorem Group.jump_tclass (g : Group) (a : DWord) : (g.jump a).tclass = g.tclass := rfl
@[simp] theorem Group.jump_frozen (g : Group) (a : DWord) : (g.jump a).frozen = g.frozen := rfl
@[simp] theorem Group.jump_budget (g : Group) (a : DWord) : (g.jump a).budget = g.budget := rfl
@[simp] theorem Group.jump_pend (g : Group) (a : DWord) : (g.jump a).pend = g.pend := rfl
@[simp] theorem Group.jump_entry (g : Group) (a : DWord) : (g.jump a).entry = g.entry := rfl
@[simp] theorem Group.jump_stopd (g : Group) (a : DWord) : (g.jump a).stopd = g.stopd := rfl
@[simp] theorem Group.jump_winS (g : Group) (a : DWord) : (g.jump a).winS = g.winS := rfl
@[simp] theorem Group.jump_winL (g : Group) (a : DWord) : (g.jump a).winL = g.winL := rfl
@[simp] theorem Group.jump_infl (g : Group) (a : DWord) : (g.jump a).infl = g.infl := rfl
@[simp] theorem Group.jump_late (g : Group) (a : DWord) : (g.jump a).late = g.late := rfl
@[simp] theorem Group.jump_wf (g : Group) (a : DWord) : (g.jump a).wf = {} := rfl
@[simp] theorem Group.jump_nap (g : Group) (a : DWord) : (g.jump a).nap = g.nap := rfl
@[simp] theorem Group.jump_arr (g : Group) (a : DWord) : (g.jump a).arr = g.arr := rfl
@[simp] theorem Group.jump_handed (g : Group) (a : DWord) : (g.jump a).handed = g.handed := rfl
@[simp] theorem Group.jump_kept (g : Group) (a : DWord) : (g.jump a).kept = g.kept := rfl
@[simp] theorem Group.jump_wrec (g : Group) (a : DWord) : (g.jump a).wrec = g.wrec := rfl
@[simp] theorem Group.jump_leaving (g : Group) (a : DWord) : (g.jump a).leaving = g.leaving := rfl
@[simp] theorem Group.jump_awt (g : Group) (a : DWord) : (g.jump a).awt = g.awt := rfl
@[simp] theorem Group.jump_bank (g : Group) (a : DWord) : (g.jump a).bank = g.bank := rfl
@[simp] theorem Group.jump_relW (g : Group) (a : DWord) : (g.jump a).relW = g.relW := rfl
@[simp] theorem Group.jump_hcid (g : Group) (a : DWord) : (g.jump a).hcid = g.hcid := rfl
@[simp] theorem Group.jump_hrep (g : Group) (a : DWord) : (g.jump a).hrep = g.hrep := rfl
@[simp] theorem Group.jump_age (g : Group) (a : DWord) : (g.jump a).age = g.age := rfl
@[simp] theorem Group.jump_runS (g : Group) (a : DWord) : (g.jump a).runS = g.runS := rfl
@[simp] theorem Group.jump_runL (g : Group) (a : DWord) : (g.jump a).runL = g.runL := rfl
@[simp] theorem Group.jump_dueS (g : Group) (a : DWord) : (g.jump a).dueS = g.dueS := rfl
@[simp] theorem Group.jump_dueL (g : Group) (a : DWord) : (g.jump a).dueL = g.dueL := rfl
@[simp] theorem Group.jump_rdyS (g : Group) (a : DWord) : (g.jump a).rdyS = g.rdyS := rfl
@[simp] theorem Group.jump_rdyL (g : Group) (a : DWord) : (g.jump a).rdyL = g.rdyL := rfl
@[simp] theorem Group.jump_fbuf (g : Group) (a : DWord) : (g.jump a).fbuf = g.fbuf := rfl
@[simp] theorem Group.jump_stopReq (g : Group) (a : DWord) : (g.jump a).stopReq = g.stopReq := rfl
@[simp] theorem Group.jump_frameK (g : Group) (a : DWord) : (g.jump a).frameK = g.frameK := rfl
@[simp] theorem Group.jump_spillK (g : Group) (a : DWord) : (g.jump a).spillK = g.spillK := rfl

@[simp] theorem Group.setV_vs (g : Group) (r l : Nat) (w : Word) : (g.setV r l w).vs = sset 0 g.vs (vKey r l) w := rfl
@[simp] theorem Group.setV_seat (g : Group) (r l : Nat) (w : Word) : (g.setV r l w).seat = g.seat := rfl
@[simp] theorem Group.setV_gid (g : Group) (r l : Nat) (w : Word) : (g.setV r l w).gid = g.gid := rfl
@[simp] theorem Group.setV_role (g : Group) (r l : Nat) (w : Word) : (g.setV r l w).role = g.role := rfl
@[simp] theorem Group.setV_gw (g : Group) (r l : Nat) (w : Word) : (g.setV r l w).gw = g.gw := rfl
@[simp] theorem Group.setV_pipe (g : Group) (r l : Nat) (w : Word) : (g.setV r l w).pipe = g.pipe := rfl
@[simp] theorem Group.setV_soff (g : Group) (r l : Nat) (w : Word) : (g.setV r l w).soff = g.soff := rfl
@[simp] theorem Group.setV_allot (g : Group) (r l : Nat) (w : Word) : (g.setV r l w).allot = g.allot := rfl
@[simp] theorem Group.setV_lbase (g : Group) (r l : Nat) (w : Word) : (g.setV r l w).lbase = g.lbase := rfl
@[simp] theorem Group.setV_pc (g : Group) (r l : Nat) (w : Word) : (g.setV r l w).pc = g.pc := rfl
@[simp] theorem Group.setV_xs (g : Group) (r l : Nat) (w : Word) : (g.setV r l w).xs = g.xs := rfl
@[simp] theorem Group.setV_ks (g : Group) (r l : Nat) (w : Word) : (g.setV r l w).ks = g.ks := rfl
@[simp] theorem Group.setV_k0 (g : Group) (r l : Nat) (w : Word) : (g.setV r l w).k0 = g.k0 := rfl
@[simp] theorem Group.setV_act (g : Group) (r l : Nat) (w : Word) : (g.setV r l w).act = g.act := rfl
@[simp] theorem Group.setV_ret (g : Group) (r l : Nat) (w : Word) : (g.setV r l w).ret = g.ret := rfl
@[simp] theorem Group.setV_spill (g : Group) (r l : Nat) (w : Word) : (g.setV r l w).spill = g.spill := rfl
@[simp] theorem Group.setV_laneQ (g : Group) (r l : Nat) (w : Word) : (g.setV r l w).laneQ = g.laneQ := rfl
@[simp] theorem Group.setV_decQ (g : Group) (r l : Nat) (w : Word) : (g.setV r l w).decQ = g.decQ := rfl
@[simp] theorem Group.setV_opq (g : Group) (r l : Nat) (w : Word) : (g.setV r l w).opq = g.opq := rfl
@[simp] theorem Group.setV_cnt (g : Group) (r l : Nat) (w : Word) : (g.setV r l w).cnt = g.cnt := rfl
@[simp] theorem Group.setV_waitN (g : Group) (r l : Nat) (w : Word) : (g.setV r l w).waitN = g.waitN := rfl
@[simp] theorem Group.setV_cpStop (g : Group) (r l : Nat) (w : Word) : (g.setV r l w).cpStop = g.cpStop := rfl
@[simp] theorem Group.setV_vv (g : Group) (r l : Nat) (w : Word) : (g.setV r l w).vv = g.vv := rfl
@[simp] theorem Group.setV_ofc (g : Group) (r l : Nat) (w : Word) : (g.setV r l w).ofc = g.ofc := rfl
@[simp] theorem Group.setV_disp (g : Group) (r l : Nat) (w : Word) : (g.setV r l w).disp = g.disp := rfl
@[simp] theorem Group.setV_tclass (g : Group) (r l : Nat) (w : Word) : (g.setV r l w).tclass = g.tclass := rfl
@[simp] theorem Group.setV_frozen (g : Group) (r l : Nat) (w : Word) : (g.setV r l w).frozen = g.frozen := rfl
@[simp] theorem Group.setV_budget (g : Group) (r l : Nat) (w : Word) : (g.setV r l w).budget = g.budget := rfl
@[simp] theorem Group.setV_pend (g : Group) (r l : Nat) (w : Word) : (g.setV r l w).pend = g.pend := rfl
@[simp] theorem Group.setV_entry (g : Group) (r l : Nat) (w : Word) : (g.setV r l w).entry = g.entry := rfl
@[simp] theorem Group.setV_stopd (g : Group) (r l : Nat) (w : Word) : (g.setV r l w).stopd = g.stopd := rfl
@[simp] theorem Group.setV_winS (g : Group) (r l : Nat) (w : Word) : (g.setV r l w).winS = g.winS := rfl
@[simp] theorem Group.setV_winL (g : Group) (r l : Nat) (w : Word) : (g.setV r l w).winL = g.winL := rfl
@[simp] theorem Group.setV_infl (g : Group) (r l : Nat) (w : Word) : (g.setV r l w).infl = g.infl := rfl
@[simp] theorem Group.setV_late (g : Group) (r l : Nat) (w : Word) : (g.setV r l w).late = g.late := rfl
@[simp] theorem Group.setV_wf (g : Group) (r l : Nat) (w : Word) : (g.setV r l w).wf = g.wf := rfl
@[simp] theorem Group.setV_nap (g : Group) (r l : Nat) (w : Word) : (g.setV r l w).nap = g.nap := rfl
@[simp] theorem Group.setV_arr (g : Group) (r l : Nat) (w : Word) : (g.setV r l w).arr = g.arr := rfl
@[simp] theorem Group.setV_handed (g : Group) (r l : Nat) (w : Word) : (g.setV r l w).handed = g.handed := rfl
@[simp] theorem Group.setV_kept (g : Group) (r l : Nat) (w : Word) : (g.setV r l w).kept = g.kept := rfl
@[simp] theorem Group.setV_wrec (g : Group) (r l : Nat) (w : Word) : (g.setV r l w).wrec = g.wrec := rfl
@[simp] theorem Group.setV_leaving (g : Group) (r l : Nat) (w : Word) : (g.setV r l w).leaving = g.leaving := rfl
@[simp] theorem Group.setV_awt (g : Group) (r l : Nat) (w : Word) : (g.setV r l w).awt = g.awt := rfl
@[simp] theorem Group.setV_bank (g : Group) (r l : Nat) (w : Word) : (g.setV r l w).bank = g.bank := rfl
@[simp] theorem Group.setV_relW (g : Group) (r l : Nat) (w : Word) : (g.setV r l w).relW = g.relW := rfl
@[simp] theorem Group.setV_hcid (g : Group) (r l : Nat) (w : Word) : (g.setV r l w).hcid = g.hcid := rfl
@[simp] theorem Group.setV_hrep (g : Group) (r l : Nat) (w : Word) : (g.setV r l w).hrep = g.hrep := rfl
@[simp] theorem Group.setV_age (g : Group) (r l : Nat) (w : Word) : (g.setV r l w).age = g.age := rfl
@[simp] theorem Group.setV_runS (g : Group) (r l : Nat) (w : Word) : (g.setV r l w).runS = g.runS := rfl
@[simp] theorem Group.setV_runL (g : Group) (r l : Nat) (w : Word) : (g.setV r l w).runL = g.runL := rfl
@[simp] theorem Group.setV_dueS (g : Group) (r l : Nat) (w : Word) : (g.setV r l w).dueS = g.dueS := rfl
@[simp] theorem Group.setV_dueL (g : Group) (r l : Nat) (w : Word) : (g.setV r l w).dueL = g.dueL := rfl
@[simp] theorem Group.setV_rdyS (g : Group) (r l : Nat) (w : Word) : (g.setV r l w).rdyS = g.rdyS := rfl
@[simp] theorem Group.setV_rdyL (g : Group) (r l : Nat) (w : Word) : (g.setV r l w).rdyL = g.rdyL := rfl
@[simp] theorem Group.setV_fbuf (g : Group) (r l : Nat) (w : Word) : (g.setV r l w).fbuf = g.fbuf := rfl
@[simp] theorem Group.setV_stopReq (g : Group) (r l : Nat) (w : Word) : (g.setV r l w).stopReq = g.stopReq := rfl
@[simp] theorem Group.setV_frameK (g : Group) (r l : Nat) (w : Word) : (g.setV r l w).frameK = g.frameK := rfl
@[simp] theorem Group.setV_spillK (g : Group) (r l : Nat) (w : Word) : (g.setV r l w).spillK = g.spillK := rfl

/-- A register write changes the register file alone. -/
theorem Group.setX_frame (g : Group) (r : XReg) (v : DWord) : g.setX r v = { g with xs := (g.setX r v).xs } := by
  unfold Group.setX
  split <;> rfl

@[simp] theorem Group.setX_seat (g : Group) (r : XReg) (v : DWord) : (g.setX r v).seat = g.seat := by rw [setX_frame]
@[simp] theorem Group.setX_gid (g : Group) (r : XReg) (v : DWord) : (g.setX r v).gid = g.gid := by rw [setX_frame]
@[simp] theorem Group.setX_role (g : Group) (r : XReg) (v : DWord) : (g.setX r v).role = g.role := by rw [setX_frame]
@[simp] theorem Group.setX_gw (g : Group) (r : XReg) (v : DWord) : (g.setX r v).gw = g.gw := by rw [setX_frame]
@[simp] theorem Group.setX_pipe (g : Group) (r : XReg) (v : DWord) : (g.setX r v).pipe = g.pipe := by rw [setX_frame]
@[simp] theorem Group.setX_soff (g : Group) (r : XReg) (v : DWord) : (g.setX r v).soff = g.soff := by rw [setX_frame]
@[simp] theorem Group.setX_allot (g : Group) (r : XReg) (v : DWord) : (g.setX r v).allot = g.allot := by rw [setX_frame]
@[simp] theorem Group.setX_lbase (g : Group) (r : XReg) (v : DWord) : (g.setX r v).lbase = g.lbase := by rw [setX_frame]
@[simp] theorem Group.setX_pc (g : Group) (r : XReg) (v : DWord) : (g.setX r v).pc = g.pc := by rw [setX_frame]
@[simp] theorem Group.setX_vs (g : Group) (r : XReg) (v : DWord) : (g.setX r v).vs = g.vs := by rw [setX_frame]
@[simp] theorem Group.setX_ks (g : Group) (r : XReg) (v : DWord) : (g.setX r v).ks = g.ks := by rw [setX_frame]
@[simp] theorem Group.setX_k0 (g : Group) (r : XReg) (v : DWord) : (g.setX r v).k0 = g.k0 := by rw [setX_frame]
@[simp] theorem Group.setX_act (g : Group) (r : XReg) (v : DWord) : (g.setX r v).act = g.act := by rw [setX_frame]
@[simp] theorem Group.setX_ret (g : Group) (r : XReg) (v : DWord) : (g.setX r v).ret = g.ret := by rw [setX_frame]
@[simp] theorem Group.setX_spill (g : Group) (r : XReg) (v : DWord) : (g.setX r v).spill = g.spill := by rw [setX_frame]
@[simp] theorem Group.setX_laneQ (g : Group) (r : XReg) (v : DWord) : (g.setX r v).laneQ = g.laneQ := by rw [setX_frame]
@[simp] theorem Group.setX_decQ (g : Group) (r : XReg) (v : DWord) : (g.setX r v).decQ = g.decQ := by rw [setX_frame]
@[simp] theorem Group.setX_opq (g : Group) (r : XReg) (v : DWord) : (g.setX r v).opq = g.opq := by rw [setX_frame]
@[simp] theorem Group.setX_cnt (g : Group) (r : XReg) (v : DWord) : (g.setX r v).cnt = g.cnt := by rw [setX_frame]
@[simp] theorem Group.setX_waitN (g : Group) (r : XReg) (v : DWord) : (g.setX r v).waitN = g.waitN := by rw [setX_frame]
@[simp] theorem Group.setX_cpStop (g : Group) (r : XReg) (v : DWord) : (g.setX r v).cpStop = g.cpStop := by rw [setX_frame]
@[simp] theorem Group.setX_vv (g : Group) (r : XReg) (v : DWord) : (g.setX r v).vv = g.vv := by rw [setX_frame]
@[simp] theorem Group.setX_ofc (g : Group) (r : XReg) (v : DWord) : (g.setX r v).ofc = g.ofc := by rw [setX_frame]
@[simp] theorem Group.setX_disp (g : Group) (r : XReg) (v : DWord) : (g.setX r v).disp = g.disp := by rw [setX_frame]
@[simp] theorem Group.setX_tclass (g : Group) (r : XReg) (v : DWord) : (g.setX r v).tclass = g.tclass := by rw [setX_frame]
@[simp] theorem Group.setX_frozen (g : Group) (r : XReg) (v : DWord) : (g.setX r v).frozen = g.frozen := by rw [setX_frame]
@[simp] theorem Group.setX_budget (g : Group) (r : XReg) (v : DWord) : (g.setX r v).budget = g.budget := by rw [setX_frame]
@[simp] theorem Group.setX_pend (g : Group) (r : XReg) (v : DWord) : (g.setX r v).pend = g.pend := by rw [setX_frame]
@[simp] theorem Group.setX_entry (g : Group) (r : XReg) (v : DWord) : (g.setX r v).entry = g.entry := by rw [setX_frame]
@[simp] theorem Group.setX_stopd (g : Group) (r : XReg) (v : DWord) : (g.setX r v).stopd = g.stopd := by rw [setX_frame]
@[simp] theorem Group.setX_winS (g : Group) (r : XReg) (v : DWord) : (g.setX r v).winS = g.winS := by rw [setX_frame]
@[simp] theorem Group.setX_winL (g : Group) (r : XReg) (v : DWord) : (g.setX r v).winL = g.winL := by rw [setX_frame]
@[simp] theorem Group.setX_infl (g : Group) (r : XReg) (v : DWord) : (g.setX r v).infl = g.infl := by rw [setX_frame]
@[simp] theorem Group.setX_late (g : Group) (r : XReg) (v : DWord) : (g.setX r v).late = g.late := by rw [setX_frame]
@[simp] theorem Group.setX_wf (g : Group) (r : XReg) (v : DWord) : (g.setX r v).wf = g.wf := by rw [setX_frame]
@[simp] theorem Group.setX_nap (g : Group) (r : XReg) (v : DWord) : (g.setX r v).nap = g.nap := by rw [setX_frame]
@[simp] theorem Group.setX_arr (g : Group) (r : XReg) (v : DWord) : (g.setX r v).arr = g.arr := by rw [setX_frame]
@[simp] theorem Group.setX_handed (g : Group) (r : XReg) (v : DWord) : (g.setX r v).handed = g.handed := by rw [setX_frame]
@[simp] theorem Group.setX_kept (g : Group) (r : XReg) (v : DWord) : (g.setX r v).kept = g.kept := by rw [setX_frame]
@[simp] theorem Group.setX_wrec (g : Group) (r : XReg) (v : DWord) : (g.setX r v).wrec = g.wrec := by rw [setX_frame]
@[simp] theorem Group.setX_leaving (g : Group) (r : XReg) (v : DWord) : (g.setX r v).leaving = g.leaving := by rw [setX_frame]
@[simp] theorem Group.setX_awt (g : Group) (r : XReg) (v : DWord) : (g.setX r v).awt = g.awt := by rw [setX_frame]
@[simp] theorem Group.setX_bank (g : Group) (r : XReg) (v : DWord) : (g.setX r v).bank = g.bank := by rw [setX_frame]
@[simp] theorem Group.setX_relW (g : Group) (r : XReg) (v : DWord) : (g.setX r v).relW = g.relW := by rw [setX_frame]
@[simp] theorem Group.setX_hcid (g : Group) (r : XReg) (v : DWord) : (g.setX r v).hcid = g.hcid := by rw [setX_frame]
@[simp] theorem Group.setX_hrep (g : Group) (r : XReg) (v : DWord) : (g.setX r v).hrep = g.hrep := by rw [setX_frame]
@[simp] theorem Group.setX_age (g : Group) (r : XReg) (v : DWord) : (g.setX r v).age = g.age := by rw [setX_frame]
@[simp] theorem Group.setX_runS (g : Group) (r : XReg) (v : DWord) : (g.setX r v).runS = g.runS := by rw [setX_frame]
@[simp] theorem Group.setX_runL (g : Group) (r : XReg) (v : DWord) : (g.setX r v).runL = g.runL := by rw [setX_frame]
@[simp] theorem Group.setX_dueS (g : Group) (r : XReg) (v : DWord) : (g.setX r v).dueS = g.dueS := by rw [setX_frame]
@[simp] theorem Group.setX_dueL (g : Group) (r : XReg) (v : DWord) : (g.setX r v).dueL = g.dueL := by rw [setX_frame]
@[simp] theorem Group.setX_rdyS (g : Group) (r : XReg) (v : DWord) : (g.setX r v).rdyS = g.rdyS := by rw [setX_frame]
@[simp] theorem Group.setX_rdyL (g : Group) (r : XReg) (v : DWord) : (g.setX r v).rdyL = g.rdyL := by rw [setX_frame]
@[simp] theorem Group.setX_fbuf (g : Group) (r : XReg) (v : DWord) : (g.setX r v).fbuf = g.fbuf := by rw [setX_frame]
@[simp] theorem Group.setX_stopReq (g : Group) (r : XReg) (v : DWord) : (g.setX r v).stopReq = g.stopReq := by rw [setX_frame]
@[simp] theorem Group.setX_frameK (g : Group) (r : XReg) (v : DWord) : (g.setX r v).frameK = g.frameK := by rw [setX_frame]
@[simp] theorem Group.setX_spillK (g : Group) (r : XReg) (v : DWord) : (g.setX r v).spillK = g.spillK := by rw [setX_frame]

/-- A register write changes the register file alone. -/
theorem Group.setK_frame (g : Group) (r : KReg) (v : DWord) : g.setK r v = { g with ks := (g.setK r v).ks } := by
  unfold Group.setK
  split <;> rfl

@[simp] theorem Group.setK_seat (g : Group) (r : KReg) (v : DWord) : (g.setK r v).seat = g.seat := by rw [setK_frame]
@[simp] theorem Group.setK_gid (g : Group) (r : KReg) (v : DWord) : (g.setK r v).gid = g.gid := by rw [setK_frame]
@[simp] theorem Group.setK_role (g : Group) (r : KReg) (v : DWord) : (g.setK r v).role = g.role := by rw [setK_frame]
@[simp] theorem Group.setK_gw (g : Group) (r : KReg) (v : DWord) : (g.setK r v).gw = g.gw := by rw [setK_frame]
@[simp] theorem Group.setK_pipe (g : Group) (r : KReg) (v : DWord) : (g.setK r v).pipe = g.pipe := by rw [setK_frame]
@[simp] theorem Group.setK_soff (g : Group) (r : KReg) (v : DWord) : (g.setK r v).soff = g.soff := by rw [setK_frame]
@[simp] theorem Group.setK_allot (g : Group) (r : KReg) (v : DWord) : (g.setK r v).allot = g.allot := by rw [setK_frame]
@[simp] theorem Group.setK_lbase (g : Group) (r : KReg) (v : DWord) : (g.setK r v).lbase = g.lbase := by rw [setK_frame]
@[simp] theorem Group.setK_pc (g : Group) (r : KReg) (v : DWord) : (g.setK r v).pc = g.pc := by rw [setK_frame]
@[simp] theorem Group.setK_xs (g : Group) (r : KReg) (v : DWord) : (g.setK r v).xs = g.xs := by rw [setK_frame]
@[simp] theorem Group.setK_vs (g : Group) (r : KReg) (v : DWord) : (g.setK r v).vs = g.vs := by rw [setK_frame]
@[simp] theorem Group.setK_k0 (g : Group) (r : KReg) (v : DWord) : (g.setK r v).k0 = g.k0 := by rw [setK_frame]
@[simp] theorem Group.setK_act (g : Group) (r : KReg) (v : DWord) : (g.setK r v).act = g.act := by rw [setK_frame]
@[simp] theorem Group.setK_ret (g : Group) (r : KReg) (v : DWord) : (g.setK r v).ret = g.ret := by rw [setK_frame]
@[simp] theorem Group.setK_spill (g : Group) (r : KReg) (v : DWord) : (g.setK r v).spill = g.spill := by rw [setK_frame]
@[simp] theorem Group.setK_laneQ (g : Group) (r : KReg) (v : DWord) : (g.setK r v).laneQ = g.laneQ := by rw [setK_frame]
@[simp] theorem Group.setK_decQ (g : Group) (r : KReg) (v : DWord) : (g.setK r v).decQ = g.decQ := by rw [setK_frame]
@[simp] theorem Group.setK_opq (g : Group) (r : KReg) (v : DWord) : (g.setK r v).opq = g.opq := by rw [setK_frame]
@[simp] theorem Group.setK_cnt (g : Group) (r : KReg) (v : DWord) : (g.setK r v).cnt = g.cnt := by rw [setK_frame]
@[simp] theorem Group.setK_waitN (g : Group) (r : KReg) (v : DWord) : (g.setK r v).waitN = g.waitN := by rw [setK_frame]
@[simp] theorem Group.setK_cpStop (g : Group) (r : KReg) (v : DWord) : (g.setK r v).cpStop = g.cpStop := by rw [setK_frame]
@[simp] theorem Group.setK_vv (g : Group) (r : KReg) (v : DWord) : (g.setK r v).vv = g.vv := by rw [setK_frame]
@[simp] theorem Group.setK_ofc (g : Group) (r : KReg) (v : DWord) : (g.setK r v).ofc = g.ofc := by rw [setK_frame]
@[simp] theorem Group.setK_disp (g : Group) (r : KReg) (v : DWord) : (g.setK r v).disp = g.disp := by rw [setK_frame]
@[simp] theorem Group.setK_tclass (g : Group) (r : KReg) (v : DWord) : (g.setK r v).tclass = g.tclass := by rw [setK_frame]
@[simp] theorem Group.setK_frozen (g : Group) (r : KReg) (v : DWord) : (g.setK r v).frozen = g.frozen := by rw [setK_frame]
@[simp] theorem Group.setK_budget (g : Group) (r : KReg) (v : DWord) : (g.setK r v).budget = g.budget := by rw [setK_frame]
@[simp] theorem Group.setK_pend (g : Group) (r : KReg) (v : DWord) : (g.setK r v).pend = g.pend := by rw [setK_frame]
@[simp] theorem Group.setK_entry (g : Group) (r : KReg) (v : DWord) : (g.setK r v).entry = g.entry := by rw [setK_frame]
@[simp] theorem Group.setK_stopd (g : Group) (r : KReg) (v : DWord) : (g.setK r v).stopd = g.stopd := by rw [setK_frame]
@[simp] theorem Group.setK_winS (g : Group) (r : KReg) (v : DWord) : (g.setK r v).winS = g.winS := by rw [setK_frame]
@[simp] theorem Group.setK_winL (g : Group) (r : KReg) (v : DWord) : (g.setK r v).winL = g.winL := by rw [setK_frame]
@[simp] theorem Group.setK_infl (g : Group) (r : KReg) (v : DWord) : (g.setK r v).infl = g.infl := by rw [setK_frame]
@[simp] theorem Group.setK_late (g : Group) (r : KReg) (v : DWord) : (g.setK r v).late = g.late := by rw [setK_frame]
@[simp] theorem Group.setK_wf (g : Group) (r : KReg) (v : DWord) : (g.setK r v).wf = g.wf := by rw [setK_frame]
@[simp] theorem Group.setK_nap (g : Group) (r : KReg) (v : DWord) : (g.setK r v).nap = g.nap := by rw [setK_frame]
@[simp] theorem Group.setK_arr (g : Group) (r : KReg) (v : DWord) : (g.setK r v).arr = g.arr := by rw [setK_frame]
@[simp] theorem Group.setK_handed (g : Group) (r : KReg) (v : DWord) : (g.setK r v).handed = g.handed := by rw [setK_frame]
@[simp] theorem Group.setK_kept (g : Group) (r : KReg) (v : DWord) : (g.setK r v).kept = g.kept := by rw [setK_frame]
@[simp] theorem Group.setK_wrec (g : Group) (r : KReg) (v : DWord) : (g.setK r v).wrec = g.wrec := by rw [setK_frame]
@[simp] theorem Group.setK_leaving (g : Group) (r : KReg) (v : DWord) : (g.setK r v).leaving = g.leaving := by rw [setK_frame]
@[simp] theorem Group.setK_awt (g : Group) (r : KReg) (v : DWord) : (g.setK r v).awt = g.awt := by rw [setK_frame]
@[simp] theorem Group.setK_bank (g : Group) (r : KReg) (v : DWord) : (g.setK r v).bank = g.bank := by rw [setK_frame]
@[simp] theorem Group.setK_relW (g : Group) (r : KReg) (v : DWord) : (g.setK r v).relW = g.relW := by rw [setK_frame]
@[simp] theorem Group.setK_hcid (g : Group) (r : KReg) (v : DWord) : (g.setK r v).hcid = g.hcid := by rw [setK_frame]
@[simp] theorem Group.setK_hrep (g : Group) (r : KReg) (v : DWord) : (g.setK r v).hrep = g.hrep := by rw [setK_frame]
@[simp] theorem Group.setK_age (g : Group) (r : KReg) (v : DWord) : (g.setK r v).age = g.age := by rw [setK_frame]
@[simp] theorem Group.setK_runS (g : Group) (r : KReg) (v : DWord) : (g.setK r v).runS = g.runS := by rw [setK_frame]
@[simp] theorem Group.setK_runL (g : Group) (r : KReg) (v : DWord) : (g.setK r v).runL = g.runL := by rw [setK_frame]
@[simp] theorem Group.setK_dueS (g : Group) (r : KReg) (v : DWord) : (g.setK r v).dueS = g.dueS := by rw [setK_frame]
@[simp] theorem Group.setK_dueL (g : Group) (r : KReg) (v : DWord) : (g.setK r v).dueL = g.dueL := by rw [setK_frame]
@[simp] theorem Group.setK_rdyS (g : Group) (r : KReg) (v : DWord) : (g.setK r v).rdyS = g.rdyS := by rw [setK_frame]
@[simp] theorem Group.setK_rdyL (g : Group) (r : KReg) (v : DWord) : (g.setK r v).rdyL = g.rdyL := by rw [setK_frame]
@[simp] theorem Group.setK_fbuf (g : Group) (r : KReg) (v : DWord) : (g.setK r v).fbuf = g.fbuf := by rw [setK_frame]
@[simp] theorem Group.setK_stopReq (g : Group) (r : KReg) (v : DWord) : (g.setK r v).stopReq = g.stopReq := by rw [setK_frame]
@[simp] theorem Group.setK_frameK (g : Group) (r : KReg) (v : DWord) : (g.setK r v).frameK = g.frameK := by rw [setK_frame]
@[simp] theorem Group.setK_spillK (g : Group) (r : KReg) (v : DWord) : (g.setK r v).spillK = g.spillK := by rw [setK_frame]

/-! ### Reading after an update -/

@[simp] theorem State.grp_setGrp (s : State) (g : Group) : (s.setGrp g).grp = some g := by simp [State.grp]

@[simp] theorem State.grp_setTeam (s : State) (t : Nat) (v : Team) : (s.setTeam t v).grp = s.grp := rfl

@[simp] theorem State.core_setCore (s : State) (c d : Nat) (k : Core) :
    (s.setCore c k).core d = if d = c then k else s.core d := by simp [State.core]

@[simp] theorem State.pipe_setPipe (s : State) (p q : Nat) (v : Pipe) :
    (s.setPipe p v).pipe q = if q = p then v else s.pipe q := by simp [State.pipe]

@[simp] theorem State.slice_setSlice (s : State) (k j : Nat) (v : Slice) :
    (s.setSlice k v).slice j = if j = k then v else s.slice j := by simp [State.slice]

@[simp] theorem State.poisoned_setPois (s : State) (w j : Nat) (p : Bool) :
    (s.setPois w p).poisoned j = if j = w then p else s.poisoned j := by simp [State.poisoned]

@[simp] theorem State.core_setGrp (s : State) (g : Group) (c : Nat) : (s.setGrp g).core c = s.core c := rfl
@[simp] theorem State.core_setTeam (s : State) (t : Nat) (v : Team) (c : Nat) : (s.setTeam t v).core c = s.core c := rfl
@[simp] theorem State.core_setByte (s : State) (a : Nat) (b : Byte) (c : Nat) : (s.setByte a b).core c = s.core c := rfl
@[simp] theorem State.byte_setGrp (s : State) (g : Group) (a : Nat) : (s.setGrp g).byte a = s.byte a := rfl
@[simp] theorem State.byte_setTeam (s : State) (t : Nat) (v : Team) (a : Nat) : (s.setTeam t v).byte a = s.byte a := rfl
@[simp] theorem State.byte_setCore (s : State) (c : Nat) (k : Core) (a : Nat) : (s.setCore c k).byte a = s.byte a := rfl
@[simp] theorem State.byte_setPipe (s : State) (p : Nat) (v : Pipe) (a : Nat) : (s.setPipe p v).byte a = s.byte a := rfl
@[simp] theorem State.byte_setSlice (s : State) (k : Nat) (v : Slice) (a : Nat) : (s.setSlice k v).byte a = s.byte a := rfl
@[simp] theorem State.byte_setRec (s : State) (w : Nat) (r : CellRec) (a : Nat) : (s.setRec w r).byte a = s.byte a := rfl
@[simp] theorem State.byte_setPois (s : State) (w : Nat) (p : Bool) (a : Nat) : (s.setPois w p).byte a = s.byte a := rfl

end Sys2Proof.Machine
end

