-- ==== Sys2Proof/Laws/Ops.lean ====
section
/-! SUPPORT. What the shared operations of the meanings do, once each: how an instruction completes, transfers control, waits
or traps, and how a lane instruction runs. -/

namespace Sys2Proof.Machine

open Sys2Proof

/-! ### Scalar instructions -/

theorem withG_some {s : State} {g : Group} (h : s.grp = some g) (f : Group → Res) : withG s f = f g := by
  simp only [withG, h]

/-- An instruction that goes on has a resident group. -/
theorem withG_next {s t : State} {f : Group → Res} (h : withG s f = .next t) : ∃ g, s.grp = some g ∧ f g = .next t := by
  unfold withG at h
  split at h
  · cases h
  · exact ⟨_, ‹_›, h⟩

theorem done_ends (s : State) (g : Group) : done s g = ends s g := rfl

theorem goto_ends (s : State) (g : Group) (a : DWord) : goto s g a = endsAt s g a := rfl

theorem doneWith_ends {s : State} {g : Group} (h : s.grp = some g) (f : Group → Group) : doneWith s f = ends s (f g) :=
  withG_some h _

/-- An instruction that computes one scalar register from its group's registers. -/
theorem alu_ends {s : State} {g : Group} (h : s.grp = some g) (d : XReg) (f : Group → DWord) :
    alu s d f = ends s (g.setX d (f g)) := withG_some h _

theorem block_next (s : State) (g : Group) (row : WaitRow) : block s g row = .next (s.setGrp (g.waiting s.tsc row)) := rfl

/-- A scalar trap: the machine goes on, with the trap taken, held or contained. -/
theorem raise_next {s : State} {g : Group} (h : s.grp = some g) (n : BitVec 8) (a i : DWord) :
    raise s n a i = .next (s.takeTrap s.cur g { num := n, addr := a, info := i } g.pc false) := withG_some h _

/-- A software trap resumes after its instruction. -/
theorem raiseNext_next {s : State} {g : Group} (h : s.grp = some g) (n : BitVec 8) (i : DWord) :
    raiseNext s n i = .next (s.takeTrap s.cur g { num := n, info := i } (g.pc + 4) false) := withG_some h _

/-- All that taking a trap can do (R408, R411 to R413). -/
theorem takeTrap_cases (s : State) (k : Nat) (g : Group) (p : PendTrap) (pc : DWord) (old : Bool) :
    (s.isContained g p.num = true ∧ s.takeTrap k g p pc old = s.failAlt g.seat (s.depth g.seat) 4 p.num.toNat g.gid)
    ∨ (s.isContained g p.num = false ∧ g.tclass = true ∧ (p.defer = true ∨ p.lane = true ∧ old = true)
      ∧ s.takeTrap k g p pc old = s.holdTrap k p)
    ∨ (s.isContained g p.num = false ∧ g.tclass = true ∧ p.defer = false ∧ (p.lane = false ∨ old = false)
      ∧ s.takeTrap k g p pc old = s.doubleFault k)
    ∨ (s.isContained g p.num = false ∧ g.tclass = false ∧ p.lane = false
      ∧ s.takeTrap k g p pc old = s.startTrap k { trap := p, spc := some pc })
    ∨ (s.isContained g p.num = false ∧ g.tclass = false ∧ p.lane = true ∧ g.entry ≠ none
      ∧ s.takeTrap k g p pc old = s.holdTrap k p)
    ∨ (s.isContained g p.num = false ∧ g.tclass = false ∧ p.lane = true ∧ g.entry = none
      ∧ s.takeTrap k g p pc old = (s.holdTrap k p).startTrap k { trap := p, held := true }) := by
  unfold State.takeTrap
  cases s.isContained g p.num <;> cases g.tclass <;> cases p.lane <;> cases p.defer <;> cases old <;> cases g.entry <;> simp

/-- A trap of the scalar stream outside trap class and outside every open recovery level has its entry begin. -/
theorem takeTrap_enters (s : State) (k : Nat) (g : Group) (p : PendTrap) (pc : DWord) (old : Bool) (h1 : s.isContained g p.num = false)
    (h2 : g.tclass = false) (h3 : p.lane = false) : s.takeTrap k g p pc old = s.startTrap k { trap := p, spc := some pc } := by
  simp [State.takeTrap, h1, h2, h3]

/-- A trap inside an open recovery level fails the level's alternate instead. -/
theorem takeTrap_contained (s : State) (k : Nat) (g : Group) (p : PendTrap) (pc : DWord) (old : Bool)
    (h : s.isContained g p.num = true) : s.takeTrap k g p pc old = s.failAlt g.seat (s.depth g.seat) 4 p.num.toNat g.gid := by
  simp [State.takeTrap, h]

/-! ### Lane instructions -/

/-- The instruction at the head of the lane queue runs with the operands that `atHead` names. -/
theorem withLane_atHead {s : State} {i : LaneIn} {o : LaneOp} (h : i.atHead s o) (f : LaneIn → Res) : withLane s o f = f i := by
  obtain ⟨h1, h2, h3, h4⟩ := h
  rw [withLane, withG_some h1]
  cases hq : i.g.laneQ with
  | nil => simp [hq] at h3
  | cons e r =>
    simp only [hq, List.head?_cons, Option.some.injEq] at h3
    simp only [h4]
    subst h3
    subst h2
    rfl

theorem perLane_writes {s : State} {i : LaneIn} {o : LaneOp} (h : i.atHead s o) (f : LaneIn → Nat → Word) :
    perLane s o f = i.writes s (f i) := withLane_atHead h _

theorem perLaneMask_writes {s : State} {i : LaneIn} {o : LaneOp} (h : i.atHead s o) (f : LaneIn → Nat → Bool) :
    perLaneMask s o f = .next (i.after s (fun g => g.setK (BitVec.ofNat 3 i.vd) (maskOf (i.lanes.filter (f i))))) :=
  withLane_atHead h _

theorem bitwise_writes {s : State} {i : LaneIn} {o : LaneOp} (h : i.atHead s o) (f : Word → Word → Word) :
    bitwise s o f = i.writes s (fun l => f (i.a .b32 l) (i.b .b32 l)) := perLane_writes h _

theorem crossLane_writes {s : State} {i : LaneIn} {o : LaneOp} (h : i.atHead s o) (z : Word) (f : LaneIn → Nat → Word) :
    crossLane s o z f = .next (i.after s (fun g =>
      g.setLanes i.vd i.execs (fun l => if i.act.getLsbD l then f i l else z))) := withLane_atHead h _

/-- A push waits, changing nothing, while the decision queue is full. -/
theorem push_next (i : LaneIn) (s : State) (v : DWord) :
    i.push s v = if i.g.decQ.length < 64 then .next (i.after s (fun g => { g with decQ := g.decQ ++ [v] })) else .next s := by
  simp [LaneIn.push, LaneIn.canPush, LaneIn.done]

/-- A trap of a lane instruction: the machine goes on. -/
theorem raiseLane_next (s : State) (g : Group) (e : LaneEntry) (n : BitVec 8) (a i : DWord) :
    raiseLane s g e n a i = .next (s.takeTrap s.cur g
      { num := n, addr := a, info := i, lane := true, lpc := e.lpc, idx := e.idx } g.pc (!e.tcl)) := rfl

end Sys2Proof.Machine
end

