-- ==== Sys2Proof/Laws/Access.lean ====
section
/-! SUPPORT. What the shared guards of the meanings let through: modes, releases, masks in use, checked accesses. -/

namespace Sys2Proof.Machine

open Sys2Proof

/-- A trap-class instruction runs at trap class, and one of a system context in such a context. -/
theorem withClass_runs {s : State} {g : Group} (h : s.grp = some g) (sys : Bool) (f : Group → Res) (ht : g.tclass = true)
    (hs : sys = true → (s.ctxOf g).sys = true) : withClass s sys f = f g := by
  rw [withClass, withG_some h]
  cases sys <;> simp_all

/-- Elsewhere it raises the privilege trap. -/
theorem withClass_traps {s : State} {g : Group} (h : s.grp = some g) (sys : Bool) (f : Group → Res)
    (hn : g.tclass = false ∨ (sys = true ∧ (s.ctxOf g).sys = false)) : withClass s sys f = raise s 0x0d 0 0 := by
  rw [withClass, withG_some h]
  rcases hn with h1 | ⟨h1, h2⟩ <;> simp [*]

/-- A release with nothing left to wait for goes on from the state it leaves. -/
theorem withRelease_runs (s : State) (g : Group) (n : Nat) (f : State → Res) (h : s.releasable g n) :
    withRelease s g n f = f (s.releasedAt n) := by
  obtain ⟨h1, h2, h3⟩ := h
  simp only [withRelease, awaitRelease, h1, h2, h3, Bool.false_eq_true, if_false, if_true, State.releasedAt]

theorem needK_free (s : State) (g : Group) (j : KReg) (r : Res) (h : g.kFree j = true) : needK s g j r = r := by
  simp [needK, h]

theorem needK_waits (s : State) (g : Group) (j : KReg) (r : Res) (h : g.kFree j = false) : needK s g j r = waitLane s g := by
  simp [needK, h]

/-- A wait for the lane stream outside a frozen handler, with no blocked push, changes nothing. -/
theorem waitLane_next (s : State) (g : Group) (h1 : g.frozen = false) (h2 : blockedPush g = false) : waitLane s g = .next s := by
  simp [waitLane, h1, h2]

/-- An access that passes its checks has a canonical, aligned address. -/
theorem chkGlobal_ok {s t : State} {k : Nat} {g : Group} {va : DWord} {n al pa : Nat} {w l mt : Bool}
    (h : s.chkGlobal k g va n al w l = .ok t pa mt) : (va.truncate 57).signExtend 64 = va ∧ va.toNat % al = 0 := by
  unfold State.chkGlobal at h
  split at h
  · cases h
  · split at h
    · cases h
    · rename_i h1 h2
      exact ⟨by simpa [canonical] using h1, not_not.mp h2⟩

/-- A scratchpad access that passes its checks has an aligned address inside the range that its place names. -/
theorem chkSpad_ok {s : State} {g : Group} {a : DWord} {n t o : Nat} {w : Bool} (h : s.chkSpad g a n w = .ok t o) :
    s.spadRange g a n = some (t, o) ∧ a.toNat % n = 0 ∧ s.lockedS (coreOf s.cur) (s.ctxId g) t o n w = false := by
  unfold State.chkSpad at h
  split at h
  · cases h
  · split at h
    · cases h
    · split at h
      · cases h
      · cases h
        exact ⟨‹_›, not_not.mp ‹_›, eq_false_of_ne_true ‹_›⟩

/-- A load whose places are all translated and clear of parked stores goes on. -/
theorem ready_runs (i : LaneIn) (s : State) (n : Nat) (ps : List (Nat × List Place)) (r : Res)
    (h : ∀ e ∈ ps, ∀ p ∈ e.2, p.home.isSome = true ∧ s.parkedHit s.cur p.va n = false) : i.ready s n ps r = r := by
  have h1 : (ps.any (fun e => e.2.any (fun p => p.home.isNone))) = false := by
    simp only [List.any_eq_false, List.any_eq_true, not_exists, not_and]
    intro e he p hp hn
    have := (h e he p hp).1
    simp_all
  have h2 : (ps.any (fun e => e.2.any (fun p => s.parkedHit s.cur p.va n))) = false := by
    simp only [List.any_eq_false, List.any_eq_true, not_exists, not_and]
    intro e he p hp hn
    simp [(h e he p hp).2] at hn
  simp [LaneIn.ready, h1, h2]

end Sys2Proof.Machine
end

