-- ==== Sys2Proof/Laws/Encoding.lean ====
section
/-! SUPPORT. The fields of a word and the word of fields: reading the fields of a packed word gives the fields back
(R37, R39), piece by piece and for the shapes of a scalar word. -/

namespace Sys2Proof

/-- A field above the low part of a concatenation. -/
theorem extract_append_high {m n : Nat} (a : BitVec m) (b : BitVec n) (s k : Nat) :
    (a ++ b).extractLsb' (s + n) k = a.extractLsb' s k := by
  ext i hi
  simp only [BitVec.getElem_extractLsb', BitVec.getLsbD_append]
  rw [if_neg (by omega)]
  congr 1; omega

/-- The low part of a concatenation. -/
theorem extract_append_low {m n : Nat} (a : BitVec m) (b : BitVec n) : (a ++ b).extractLsb' 0 n = b := by
  ext i hi
  simp only [BitVec.getElem_extractLsb', BitVec.getLsbD_append]
  rw [if_pos (by omega)]; simp [BitVec.getLsbD_eq_getElem hi]

/-- All of a bit vector. -/
theorem extract_all {n : Nat} (a : BitVec n) : a.extractLsb' 0 n = a := by
  ext i hi; simp

/-- Two adjoining fields are the field that covers both. -/
theorem extract_split {n : Nat} (a : BitVec n) (s k l : Nat) :
    a.extractLsb' (s + k) l ++ a.extractLsb' s k = (a.extractLsb' s (l + k)) := by
  ext i hi
  simp only [BitVec.getElem_append, BitVec.getElem_extractLsb']
  split
  · rfl
  · congr 1; omega

/-- Reading the fields of a scalar word gives the fields it was made of (R37). -/
theorem SWord.ofWord_word (f : SWord) : SWord.ofWord f.word = f := by
  obtain ⟨o, d, a, b, n⟩ := f
  simp only [SWord.ofWord, SWord.word, SWord.mk.injEq]
  refine ⟨?_, ?_, ?_, ?_, ?_⟩
  · exact (extract_append_high _ _ 18 7).trans <| (extract_append_high _ _ 12 7).trans <|
      (extract_append_high _ _ 6 7).trans <| (extract_append_high _ _ 0 7).trans (extract_all _)
  · exact (extract_append_high _ _ 12 6).trans <| (extract_append_high _ _ 6 6).trans <|
      (extract_append_high _ _ 0 6).trans <| extract_append_low _ _
  · exact (extract_append_high _ _ 6 6).trans <| (extract_append_high _ _ 0 6).trans <| extract_append_low _ _
  · exact (extract_append_high _ _ 0 6).trans <| extract_append_low _ _
  · exact extract_append_low _ _

/-- Reading the fields of a lane word gives the fields it was made of (R39). -/
theorem LWord.ofWord_word (f : LWord) : LWord.ofWord f.word = f := by
  obtain ⟨op, vd, sa, sb, sc, km, la, ty, md, im⟩ := f
  simp only [LWord.ofWord, LWord.word, LWord.mk.injEq]
  refine ⟨?_, ?_, ?_, ?_, ?_, ?_, ?_, ?_, ?_, ?_⟩
  · exact ((extract_append_high _ _ 64 12).trans <|
      ((extract_append_high _ _ 52 12).trans <|
      ((extract_append_high _ _ 46 12).trans <|
      ((extract_append_high _ _ 42 12).trans <|
      ((extract_append_high _ _ 38 12).trans <|
      ((extract_append_high _ _ 28 12).trans <|
      ((extract_append_high _ _ 18 12).trans <|
      ((extract_append_high _ _ 8 12).trans <|
      ((extract_append_high _ _ 0 12).trans <|
      (extract_all _))))))))))
  · exact ((extract_append_high _ _ 56 8).trans <|
      ((extract_append_high _ _ 44 8).trans <|
      ((extract_append_high _ _ 38 8).trans <|
      ((extract_append_high _ _ 34 8).trans <|
      ((extract_append_high _ _ 30 8).trans <|
      ((extract_append_high _ _ 20 8).trans <|
      ((extract_append_high _ _ 10 8).trans <|
      ((extract_append_high _ _ 0 8).trans <|
      (extract_append_low _ _)))))))))
  · exact ((extract_append_high _ _ 46 10).trans <|
      ((extract_append_high _ _ 34 10).trans <|
      ((extract_append_high _ _ 28 10).trans <|
      ((extract_append_high _ _ 24 10).trans <|
      ((extract_append_high _ _ 20 10).trans <|
      ((extract_append_high _ _ 10 10).trans <|
      ((extract_append_high _ _ 0 10).trans <|
      (extract_append_low _ _))))))))
  · exact ((extract_append_high _ _ 36 10).trans <|
      ((extract_append_high _ _ 24 10).trans <|
      ((extract_append_high _ _ 18 10).trans <|
      ((extract_append_high _ _ 14 10).trans <|
      ((extract_append_high _ _ 10 10).trans <|
      ((extract_append_high _ _ 0 10).trans <|
      (extract_append_low _ _)))))))
  · exact ((extract_append_high _ _ 26 10).trans <|
      ((extract_append_high _ _ 14 10).trans <|
      ((extract_append_high _ _ 8 10).trans <|
      ((extract_append_high _ _ 4 10).trans <|
      ((extract_append_high _ _ 0 10).trans <|
      (extract_append_low _ _))))))
  · exact ((extract_append_high _ _ 22 4).trans <|
      ((extract_append_high _ _ 10 4).trans <|
      ((extract_append_high _ _ 4 4).trans <|
      ((extract_append_high _ _ 0 4).trans <|
      (extract_append_low _ _)))))
  · exact ((extract_append_high _ _ 18 4).trans <|
      ((extract_append_high _ _ 6 4).trans <|
      ((extract_append_high _ _ 0 4).trans <|
      (extract_append_low _ _))))
  · exact ((extract_append_high _ _ 12 6).trans <|
      ((extract_append_high _ _ 0 6).trans <|
      (extract_append_low _ _)))
  · exact ((extract_append_high _ _ 0 12).trans <| (extract_append_low _ _))
  · exact (extract_append_low _ _)

/-- The immediate of shape SI (R37). -/
theorem imm13_fSI (op : BitVec 7) (d a : BitVec 6) (i : BitVec 13) : (fSI op d a i).imm13 = i :=
  (extract_split i 0 7 6).trans (extract_all i)

/-- The offset of shape SJ (R37). -/
theorem off25_fSJ (op : BitVec 7) (o : BitVec 25) : (fSJ op o).off25 = o := by
  have h1 := extract_split o 13 6 6
  have h2 := extract_split o 7 6 12
  have h3 := extract_split o 0 7 18
  simp only [SWord.off25, fSJ]
  exact ((congrArg (· ++ o.extractLsb' 0 7) ((congrArg (· ++ o.extractLsb' 7 6) h1).trans h2)).trans h3).trans (extract_all o)

/-- The offset of shape SL (R37). -/
theorem imm19_fSL (op : BitVec 7) (n : BitVec 6) (o : BitVec 19) : (fSL op n o).imm19 = o := by
  have h2 := extract_split o 7 6 6
  have h3 := extract_split o 0 7 12
  simp only [SWord.imm19, fSL]
  exact ((congrArg (· ++ o.extractLsb' 0 7) h2).trans h3).trans (extract_all o)

/-- The lookahead of shape SM (R37). -/
theorem la_fSM (op : BitVec 7) (d a : BitVec 6) (la : BitVec 4) (i : BitVec 9) : (fSM op d a la i).la = la := by
  simp only [SWord.la, fSM]
  exact (extract_append_high _ _ 0 4).trans (extract_all _)

/-- The immediate of shape SM (R37). -/
theorem imm9_fSM (op : BitVec 7) (d a : BitVec 6) (la : BitVec 4) (i : BitVec 9) : (fSM op d a la i).imm9 = i := by
  simp only [SWord.imm9, fSM]
  have h := extract_append_low la (i.extractLsb' 7 2)
  exact ((congrArg (· ++ i.extractLsb' 0 7) h).trans (extract_split i 0 7 2)).trans (extract_all i)

end Sys2Proof
end

