-- ==== Sys2Proof/Laws/Layout.lean ====
section
/-! SUPPORT. The codes and the md layouts of instruction words: every code names what it encodes (R45, R46, R51), and every
field of an md layout reads back what was put there (R39, R53). -/

namespace Sys2Proof

theorem scopeOf_code (x : Scope) : scopeOf x.code = some x := by cases x <;> rfl
theorem atomOf_code (x : AtomOp) : atomOf x.code = some x := by cases x <;> rfl
theorem rcnOf_code (x : RcnOp) : rcnOf x.code = some x := by cases x <;> rfl
theorem bankOf_code (x : BankOp) : bankOf x.code = some x := by cases x <;> rfl
theorem awaitOf_code (x : AwaitCond) : awaitOf x.code = some x := by cases x <;> rfl
theorem pathOf_code (x : Path) : pathOf x.code = some x := by cases x <;> rfl
theorem sregOf_code (x : SReg) : sregOf x.code = some x := by cases x <;> rfl
theorem tyOf_code (x : Ty) : tyOf x.code = some x := by cases x <;> rfl
theorem rmOf_code (x : Rm) : rmOf x.code = some x := by cases x <;> rfl
theorem ccOf_code (x : Cc) : ccOf x.code = some x := by cases x <;> rfl
theorem fccOf_code (x : FCc) : fccOf x.code = some x := by cases x <;> rfl
theorem shOf_code (x : ShMode) : shOf x.code = some x := by cases x <;> rfl
theorem redOf_code (x : RedOp) : redOf x.code = some x := by cases x <;> rfl

/-! ### Bits of a concatenation -/

theorem get_append_high {m n : Nat} (a : BitVec m) (b : BitVec n) (s : Nat) : (a ++ b).getLsbD (s + n) = a.getLsbD s := by
  simp [BitVec.getLsbD_append]

theorem get_append_flag {m : Nat} (a : BitVec m) (x : Bool) : (a ++ b1 x).getLsbD 0 = x := by
  rw [BitVec.getLsbD_append]; cases x <;> rfl

theorem extract_flag {m : Nat} (a : BitVec m) (x : Bool) (b : BitVec 3) : (a ++ b1 x ++ b).getLsbD 3 = x :=
  (get_append_high _ _ 0).trans (get_append_flag _ _)

/-! ### Layouts of md -/

theorem md23_flag (x : Bool) : (md23 x).getLsbD 3 = x := by cases x <;> rfl
theorem mdRm_rm (r : Rm) : rmOf ((mdRm r).extractLsb' 0 3) = some r := by cases r <;> rfl
theorem mdCc_code (c : BitVec 4) : (mdCc c).extractLsb' 4 4 = c :=
  (extract_append_high _ _ 0 4).trans (extract_append_low _ _)
theorem mdSel_code (c : BitVec 3) : (mdSel c).extractLsb' 4 3 = c :=
  (extract_append_high _ _ 0 3).trans (extract_append_low _ _)
theorem md2_code (c : BitVec 2) : (md2 c).extractLsb' 4 2 = c :=
  (extract_append_high _ _ 0 2).trans (extract_append_low _ _)
theorem md24_flag (x : Bool) : (md24 x).getLsbD 4 = x := by cases x <;> rfl

theorem mdConv_ty (t : Ty) (es : BitVec 2) (x : Bool) (r : BitVec 3) : (mdConv t es x r).extractLsb' 6 6 = t.code :=
  (extract_append_high _ _ 3 6).trans <| (extract_append_high _ _ 2 6).trans <|
    (extract_append_high _ _ 0 6).trans (extract_all _)
theorem mdConv_es (t : Ty) (es : BitVec 2) (x : Bool) (r : BitVec 3) : (mdConv t es x r).extractLsb' 4 2 = es :=
  (extract_append_high _ _ 1 2).trans <| (extract_append_high _ _ 0 2).trans (extract_append_low _ _)
theorem mdConv_flag (t : Ty) (es : BitVec 2) (x : Bool) (r : BitVec 3) : (mdConv t es x r).getLsbD 3 = x :=
  extract_flag _ _ _
theorem mdConv_rm (t : Ty) (es : BitVec 2) (x : Bool) (r : BitVec 3) : (mdConv t es x r).extractLsb' 0 3 = r :=
  extract_append_low _ _

theorem mdRed_op (op : RedOp) (x : Bool) : redOf ((mdRed op x).extractLsb' 5 3) = some op := by cases op <;> cases x <;> rfl
theorem mdRed_flag (op : RedOp) (x : Bool) : (mdRed op x).getLsbD 4 = x := by cases op <;> cases x <;> rfl

theorem mdMma_ty (t : BitVec 6) (fix : Bool) (c : BitVec 3) : (mdMma t fix c).extractLsb' 6 6 = t :=
  (extract_append_high _ _ 4 6).trans <| (extract_append_high _ _ 1 6).trans <|
    (extract_append_high _ _ 0 6).trans (extract_all _)
theorem mdMma_fix (t : BitVec 6) (fix : Bool) (c : BitVec 3) : (mdMma t fix c).getLsbD 5 = fix :=
  (get_append_high _ _ 3).trans (extract_flag _ _ _)
theorem mdMma_c (t : BitVec 6) (fix : Bool) (c : BitVec 3) : (mdMma t fix c).extractLsb' 2 3 = c :=
  (extract_append_high _ _ 0 3).trans (extract_append_low _ _)

theorem mdFrag_role (a b : Bool) : (mdFrag a b).getLsbD 4 = a := by cases a <;> cases b <;> rfl
theorem mdFrag_k64 (a b : Bool) : (mdFrag a b).getLsbD 3 = b := by cases a <;> cases b <;> rfl

theorem mdSacc_pt (p : BitVec 7) (a b : BitVec 2) : (mdSacc p a b).extractLsb' 5 7 = p :=
  (extract_append_high _ _ 4 7).trans <| (extract_append_high _ _ 2 7).trans <|
    (extract_append_high _ _ 0 7).trans (extract_all _)
theorem mdSacc_rb (p : BitVec 7) (a b : BitVec 2) : (mdSacc p a b).extractLsb' 3 2 = a :=
  (extract_append_high _ _ 2 2).trans <| (extract_append_high _ _ 0 2).trans (extract_append_low _ _)
theorem mdSacc_cb (p : BitVec 7) (a b : BitVec 2) : (mdSacc p a b).extractLsb' 1 2 = b :=
  (extract_append_high _ _ 0 2).trans (extract_append_low _ _)

theorem mdFx_pt (p : BitVec 7) (x : Bool) (r : BitVec 3) : (mdFx p x r).extractLsb' 5 7 = p :=
  (extract_append_high _ _ 2 7).trans <| (extract_append_high _ _ 1 7).trans <|
    (extract_append_high _ _ 0 7).trans (extract_all _)
theorem mdFx_clr (p : BitVec 7) (x : Bool) (r : BitVec 3) : (mdFx p x r).getLsbD 4 = x :=
  (get_append_high _ _ 1).trans <| (get_append_high _ _ 0).trans (get_append_flag _ _)
theorem mdFx_rm (p : BitVec 7) (x : Bool) (r : BitVec 3) : (mdFx p x r).extractLsb' 0 3 = r := extract_append_low _ _

theorem mdNar_ty (t : Ty) (c : BitVec 2) (r : BitVec 3) : (mdNar t c r).extractLsb' 6 6 = t.code :=
  (extract_append_high _ _ 3 6).trans <| (extract_append_high _ _ 2 6).trans <|
    (extract_append_high _ _ 0 6).trans (extract_all _)
theorem mdNar_sel (t : Ty) (c : BitVec 2) (r : BitVec 3) : (mdNar t c r).extractLsb' 4 2 = c :=
  (extract_append_high _ _ 1 2).trans <| (extract_append_high _ _ 0 2).trans (extract_append_low _ _)
theorem mdNar_rm (t : Ty) (c : BitVec 2) (r : BitVec 3) : (mdNar t c r).extractLsb' 0 3 = r := extract_append_low _ _

theorem mdMem_code (c : BitVec 4) (f : AddrForm) (x : Bool) (r : BitVec 3) : (mdMem c f x r).extractLsb' 8 4 = c :=
  (extract_append_high _ _ 5 4).trans <| (extract_append_high _ _ 4 4).trans <|
    (extract_append_high _ _ 3 4).trans <| (extract_append_high _ _ 0 4).trans (extract_all _)
theorem mdMem_code3 (c : BitVec 3) (f : AddrForm) (x : Bool) (r : BitVec 3) :
    (mdMem (c.zeroExtend 4) f x r).extractLsb' 8 3 = c :=
  ((extract_append_high _ _ 5 3).trans <| (extract_append_high _ _ 4 3).trans <|
    (extract_append_high _ _ 3 3).trans (extract_append_high _ _ 0 3)).trans (by ext i hi; simp [hi, BitVec.getLsbD_eq_getElem]; omega)
theorem mdMem_sc (c : BitVec 4) (f : AddrForm) (x : Bool) (r : BitVec 3) : (mdMem c f x r).extractLsb' 5 3 = f.sc :=
  (extract_append_high _ _ 2 3).trans <| (extract_append_high _ _ 1 3).trans <|
    (extract_append_high _ _ 0 3).trans (extract_append_low _ _)
theorem mdMem_un (c : BitVec 4) (f : AddrForm) (x : Bool) (r : BitVec 3) : (mdMem c f x r).getLsbD 4 = f.un :=
  (get_append_high _ _ 1).trans <| (get_append_high _ _ 0).trans (get_append_flag _ _)
theorem mdMem_flag (c : BitVec 4) (f : AddrForm) (x : Bool) (r : BitVec 3) : (mdMem c f x r).getLsbD 3 = x :=
  extract_flag _ _ _
theorem mdMem_low (c : BitVec 4) (f : AddrForm) (x : Bool) (r : BitVec 3) : (mdMem c f x r).extractLsb' 0 3 = r :=
  extract_append_low _ _

/-! ### The common fields (R40, R44) -/

theorem srcOf_bits (x : Src) : srcOf x.bits = x := by
  cases x with
  | v i =>
    have h : ((0 : BitVec 2) ++ i).extractLsb' 8 2 = (0 : BitVec 2) := (extract_append_high _ _ 0 2).trans (extract_all _)
    have h2 : ((0 : BitVec 2) ++ i).truncate 8 = i := by
      rw [show ((0 : BitVec 2) ++ i).truncate 8 = ((0 : BitVec 2) ++ i).extractLsb' 0 8 from by ext; simp]
      exact extract_append_low _ _
    simp only [Src.bits, srcOf]
    erw [h]; exact congrArg Src.v h2
  | q i => revert i; decide
  | x i => revert i; decide
  | lid => rfl
  | imm => rfl

theorem kmOf_bits (x : Km) (h : x.ok = true) : kmOf x.bits = x := by
  cases x with
  | all => rfl
  | on k => revert h; revert k; decide
  | off k => revert h; revert k; decide

/-- The common fields of a lane word (R39). -/
theorem common_fL (op : BitVec 12) (t : Ty) (md : BitVec 12) (o : LaneOp) (h : o.km.ok = true) : (fL op t md o).common = o := by
  simp [LWord.common, fL, srcOf_bits, kmOf_bits _ h]

/-- A lane instruction that passes its rule has a permitted km field (R44). -/
theorem km_ok_of_check (r : LaneRule) (o : LaneOp) (h : r.check o = none) : o.km.ok = true := by
  by_contra hk
  simp [LaneRule.check] at h
  split at h <;> try split at h
  all_goals simp_all

end Sys2Proof
end

