-- ==== Sys2Proof/Laws/Memory.lean ====
section
/-! SUPPORT. Bytes of memory after a write, and that every operation over memory keeps its canonical form. -/

namespace Sys2Proof.Machine

open Sys2Proof

/-! ### Bytes -/

@[simp] theorem State.byte_setByte (s : State) (a c : Nat) (b : Byte) :
    (s.setByte a b).byte c = if c = a then b else s.byte c := by simp [State.byte]

/-- Bytes below the first one written, and from the end on, stay. -/
theorem State.byte_setBytes_outside (s : State) (a c : Nat) (l : List Byte) (h : c < a ∨ a + l.length ≤ c) :
    (s.setBytes a l).byte c = s.byte c := by
  induction l generalizing s a with
  | nil => rfl
  | cons b r ih =>
    have h1 : c < a + 1 ∨ a + 1 + r.length ≤ c := by simp only [List.length_cons] at h; omega
    rw [State.setBytes, ih (s.setByte a b) (a + 1) h1, State.byte_setByte, if_neg (by simp only [List.length_cons] at h; omega)]

/-! ### Steps that leave the memory as it is -/

/-- Two states with one memory are in canonical form together. -/
theorem State.tidy_of_mem {s t : State} (h : t.mem = s.mem) (hs : s.tidy = true) : t.tidy = true := by
  unfold State.tidy at *
  rw [h]
  exact hs

theorem State.mem_foldl {β : Type} (f : State → β → State) (l : List β) (s : State) (h : ∀ s x, (f s x).mem = s.mem) :
    (l.foldl f s).mem = s.mem := by
  induction l generalizing s with
  | nil => rfl
  | cons x r ih => exact (ih (f s x)).trans (h s x)

theorem State.tidy_foldl {β : Type} (f : State → β → State) (l : List β) (s : State) (hs : s.tidy = true)
    (h : ∀ s x, s.tidy = true → (f s x).tidy = true) : (l.foldl f s).tidy = true := by
  induction l generalizing s with
  | nil => exact hs
  | cons x r ih => exact ih (f s x) (h s x hs)

/-! ### Writes keep the canonical form -/

theorem State.reset_tidy : State.reset.tidy = true := rfl

theorem State.tidy_setByte (s : State) (a : Nat) (b : Byte) (h : s.tidy = true) : (s.setByte a b).tidy = true :=
  canon_sset emptyByte s.mem a b h

theorem State.tidy_setBytes (s : State) (a : Nat) (l : List Byte) (h : s.tidy = true) : (s.setBytes a l).tidy = true := by
  induction l generalizing s a with
  | nil => exact h
  | cons b r ih => exact ih (s.setByte a b) (a + 1) (s.tidy_setByte a b h)

theorem State.tidy_setWord (s : State) (w : Nat) (v : Word) (h : s.tidy = true) : (s.setWord w v).tidy = true :=
  s.tidy_setBytes (4 * w) _ h

@[simp] theorem State.tidy_setPois (s : State) (w : Nat) (p : Bool) : (s.setPois w p).tidy = s.tidy := rfl
@[simp] theorem State.tidy_setRec (s : State) (w : Nat) (r : CellRec) : (s.setRec w r).tidy = s.tidy := rfl
@[simp] theorem State.tidy_setCore (s : State) (c : Nat) (k : Core) : (s.setCore c k).tidy = s.tidy := rfl
@[simp] theorem State.tidy_setPipe (s : State) (p : Nat) (v : Pipe) : (s.setPipe p v).tidy = s.tidy := rfl
@[simp] theorem State.tidy_setSlice (s : State) (k : Nat) (v : Slice) : (s.setSlice k v).tidy = s.tidy := rfl
@[simp] theorem State.tidy_setTeam (s : State) (t : Nat) (v : Team) : (s.setTeam t v).tidy = s.tidy := rfl
@[simp] theorem State.tidy_setGrp (s : State) (g : Group) : (s.setGrp g).tidy = s.tidy := rfl
@[simp] theorem State.tidy_setL1 (s : State) (c w : Nat) (v : L1Word) : (s.setL1 c w v).tidy = s.tidy := rfl
@[simp] theorem State.tidy_delL1 (s : State) (c w : Nat) : (s.delL1 c w).tidy = s.tidy := rfl
@[simp] theorem State.tidy_unlock (s : State) (c : Nat) (o : RlOwner) : (s.unlock c o).tidy = s.tidy := rfl
@[simp] theorem State.tidy_dirty (s : State) (q : StoreReq) (w : Nat) (m : BitVec 4) (v : Word) (x : L1Word) :
    (s.dirty q w m v x).tidy = s.tidy := rfl
@[simp] theorem State.tidy_parkFailed (s : State) (q : StoreReq) (w : Nat) : (s.parkFailed q w).tidy = s.tidy := rfl

/-! ### Cells -/

@[simp] theorem State.tidy_dropLine (s : State) (l : Nat) : (s.dropLine l).tidy = s.tidy := rfl

@[simp] theorem State.tidy_setSummary (s : State) (l : Nat) (d : Dot) : (s.setSummary l d).tidy = s.tidy := rfl

@[simp] theorem State.tidy_setOwned (s : State) (l : Nat) (f : List Nat → List Nat) : (s.setOwned l f).tidy = s.tidy := by
  unfold State.setOwned
  split <;> rfl

@[simp] theorem State.tidy_reown (s : State) (l : Nat) : (s.reown l).tidy = s.tidy := by
  unfold State.reown
  split
  · dsimp only
    have h := ((s.setSummary l (s.sideDot l)).tidy_setOwned l (fun x => l :: x)).trans (s.tidy_setSummary l (s.sideDot l))
    split <;> exact h
  · rfl

@[simp] theorem State.tidy_touchLine (s : State) (l : Nat) (t : BitVec 40) : (s.touchLine l t).tidy = s.tidy := by
  unfold State.touchLine
  dsimp only
  rw [State.tidy_setSlice]
  have h := s.tidy_reown l
  split
  · exact h
  · split
    · exact h
    · split
      · exact h
      · rw [State.tidy_dropLine]; exact h

theorem State.tidy_setVal (s : State) (w : Nat) (v : CellVal) (h : s.tidy = true) : (s.setVal w v).tidy = true :=
  s.tidy_setWord w v.val h

theorem State.tidy_settle (s : State) (w : Nat) (r : CellRec) (h : s.tidy = true) : (s.settle w r).tidy = true := by
  have h1 (v : CellVal) := s.tidy_setVal w v h
  unfold State.settle
  dsimp only
  split
  · split
    · rw [State.tidy_touchLine, State.tidy_setRec]; exact h1 _
    · rw [State.tidy_setRec]; exact h
  · split
    · rw [State.tidy_setRec]; exact h1 _
    · rw [State.tidy_setRec]; exact h

@[simp] theorem State.tidy_evictRecs (s : State) (k n : Nat) : (s.evictRecs k n).tidy = s.tidy := by
  induction n generalizing s with
  | zero => rfl
  | succ n ih =>
    unfold State.evictRecs
    split
    · rfl
    · split
      · rfl
      · exact ih _

theorem State.tidy_makeRoom (s t : State) (k : Nat) (h : s.tidy = true) (ht : s.makeRoom k = some t) : t.tidy = true := by
  unfold State.makeRoom at ht
  dsimp only at ht
  split at ht
  · cases ht; rw [State.tidy_evictRecs]; exact h
  · cases ht

theorem State.tidy_withVals (s : State) (w : Nat) (r : CellRec) (vals : List CellVal) (b : Option Word) :
    (s.withVals w r vals b).2.tidy = s.tidy := by
  unfold State.withVals
  split
  · dsimp only
    split <;> rfl
  · rfl

theorem State.tidy_applyVals {s t : State} {w : Nat} {nv : CellVal} {x : List CellVal × Option Word} {rv : Option VVec}
    (h : s.tidy = true) (ht : s.applyVals w nv x rv = some t) : t.tidy = true := by
  unfold State.applyVals at ht
  dsimp only at ht
  split at ht
  · cases ht
  · split at ht
    · cases ht
    · rename_i s1 hm
      have h1 := State.tidy_makeRoom _ _ _ (by rw [State.tidy_setRec, State.tidy_withVals, State.tidy_reown]; exact h) hm
      split at ht
      · cases ht
        rw [State.tidy_touchLine]
        exact State.tidy_settle _ _ _ h1
      · cases ht

theorem State.tidy_applyStore {s t : State} {w : Nat} {cv : Option Nat} {nv : CellVal} {V : VVec} {rv : Option VVec}
    (h : s.tidy = true) (ht : s.applyStore w cv nv V rv = some t) : t.tidy = true := State.tidy_applyVals h ht

theorem State.tidy_rework (s : State) (w : Nat) (p : HidTag → Bool) (f : List CellVal → List CellVal)
    (g : Option HidTag → Option HidTag) (h : s.tidy = true) : (s.rework w p f g).tidy = true := by
  unfold State.rework
  split
  · exact h
  · split
    · dsimp only
      rw [State.tidy_evictRecs]
      exact State.tidy_settle _ _ _ ((State.tidy_withVals _ _ _ _ _).trans h)
    · exact h

theorem State.tidy_publish (s : State) (t : Nat) (h : s.tidy = true) : (s.publish t).tidy = true :=
  State.tidy_foldl _ _ _ h (fun s w hs => s.tidy_rework w _ _ _ hs)

theorem State.tidy_takeBackOn (s : State) (t lv : Nat) (q : Nat → Bool) (h : s.tidy = true) :
    (s.takeBackOn t lv q).tidy = true := State.tidy_foldl _ _ _ h (fun s w hs => s.tidy_rework w _ _ _ hs)

theorem State.tidy_takeBack (s : State) (t lv : Nat) (h : s.tidy = true) : (s.takeBack t lv).tidy = true :=
  s.tidy_takeBackOn t lv _ h

theorem State.tidy_passOut (s : State) (t lv : Nat) (h : s.tidy = true) : (s.passOut t lv).tidy = true :=
  State.tidy_foldl _ _ _ h (fun s w hs => by
    split
    · exact hs
    · exact s.tidy_settle _ _ hs)

/-! ### Caches and registrations -/

theorem State.tidy_fill (s : State) (w : Nat) (x : L1Word) (h : s.tidy = true) : (s.fill w x).tidy = true := by
  have h1 (v : Word) := s.tidy_setWord w v h
  unfold State.fill
  dsimp only
  split
  · exact h
  · split
    · split
      · split
        · split
          · rw [State.tidy_setPois]; exact h1 _
          · rw [State.tidy_touchLine, State.tidy_setRec, State.tidy_setPois]; exact h1 _
        · exact h
      · exact s.tidy_settle _ _ h
    · rw [State.tidy_setPois]; exact h1 _

@[simp] theorem State.tidy_expectAck (s : State) (g w : Nat) (m : BitVec 4) : (s.expectAck g w m).tidy = s.tidy := by
  unfold State.expectAck
  split <;> rfl

theorem State.tidy_writeBack (s : State) (c w : Nat) (h : s.tidy = true) : (s.writeBack c w).tidy = true := by
  unfold State.writeBack
  split
  · exact h
  · split
    · rw [State.tidy_expectAck, State.tidy_setL1]; exact s.tidy_fill w _ h
    · exact h

theorem State.tidy_writeBackAll (s : State) (w : Nat) (k : Option Nat) (h : s.tidy = true) : (s.writeBackAll w k).tidy = true :=
  State.tidy_foldl _ _ _ h (fun s e hs => by
    split
    · exact hs
    · exact s.tidy_writeBack _ _ hs)

/-- What a store leaves, if it leaves anything, is in canonical form. -/
def tidyOk (r : Except Nat State) : Prop := ∀ t, r = .ok t → t.tidy = true

theorem State.tidy_homeStore {s t : State} {w : Nat} {cv : Option Nat} {q : StoreReq} {m : BitVec 4} {v : Word}
    (h : s.tidy = true) (ht : s.homeStore w cv q m v = some t) : t.tidy = true := by
  unfold State.homeStore at ht
  have h1 := s.tidy_writeBackAll w (some q.core) h
  dsimp only at ht
  split at ht
  · exact State.tidy_applyStore h1 ht
  · cases ht
    rw [State.tidy_setPois]
    exact State.tidy_setWord _ _ _ h1

theorem State.tidy_tryWords (s : State) (cv : Option Nat) (q : StoreReq) (h : s.tidy = true) : tidyOk (s.tryWords cv q) := by
  intro t ht
  unfold State.tryWords at ht
  split at ht
  · cases ht
  · rename_i s1 h1
    have t1 := State.tidy_homeStore h h1
    split at ht
    · cases ht; exact t1
    · split at ht
      · cases ht
      · rename_i s2 h2
        cases ht
        exact State.tidy_homeStore t1 h2

theorem State.tidy_triggerAs (s : State) (ws : List Nat) (d : Dot) (v : Nat → Word) (h : s.tidy = true) :
    (s.triggerAs ws d v).tidy = true := by
  unfold State.triggerAs
  refine State.tidy_foldl _ _ _ h (fun t e hs => ?_)
  dsimp only
  split
  · exact hs
  · split
    · rw [State.tidy_setSlice]; exact hs
    · rw [State.tidy_unlock, State.tidy_setSlice]; exact hs

theorem State.tidy_trigger (s : State) (ws : List Nat) (d : Dot) (h : s.tidy = true) : (s.trigger ws d).tidy = true :=
  s.tidy_triggerAs _ _ _ h

theorem State.tidy_fires (s : State) (q : StoreReq) (h : s.tidy = true) : (s.fires q).tidy = true := by
  unfold State.fires
  split
  · exact s.tidy_trigger _ _ h
  · exact h

theorem State.tidy_register (s : State) (c w g : Nat) (m : BitVec 4) (h : s.tidy = true) : (s.register c w g m).tidy = true := by
  unfold State.register
  split
  · split
    · rw [State.tidy_setL1]; exact h
    · rw [State.tidy_expectAck]; exact h
  · rw [State.tidy_expectAck]; exact h

theorem State.tidy_tryStore (s : State) (q : StoreReq) (h : s.tidy = true) : tidyOk (s.tryStore q) := by
  intro t ht
  unfold State.tryStore at ht
  cases hw : s.tryWords (s.reqConv q) q with
  | error e => rw [hw] at ht; cases ht
  | ok u =>
    rw [hw] at ht
    cases ht
    exact State.tidy_fires _ _ (State.tidy_foldl _ _ _ (s.tidy_tryWords _ _ h u hw) (fun s w hs => s.tidy_register _ _ _ _ hs))

theorem State.tidy_testStore (s : State) (q : StoreReq) (h : s.tidy = true) : (s.testStore q).tidy = true := by
  unfold State.testStore
  split
  · rename_i t ht
    exact s.tidy_tryStore q h t ht
  · split
    · exact h
    · rw [State.tidy_parkFailed]; exact h

theorem State.tidy_testAll (s : State) (p : StoreReq → Bool) (h : s.tidy = true) : (s.testAll p).tidy = true :=
  State.tidy_foldl _ _ _ (by exact h) (fun s q hs => s.tidy_testStore q hs)

theorem State.tidy_flushReqs (s : State) (c w : Nat) (h : s.tidy = true) : (s.flushReqs c w).tidy = true :=
  s.tidy_testAll _ h

theorem State.tidy_evictLine (s : State) (c l : Nat) (h : s.tidy = true) : (s.evictLine c l).tidy = true := by
  unfold State.evictLine
  dsimp only
  rw [State.tidy_setCore]
  exact State.tidy_foldl _ _ _ h (fun s w hs => State.tidy_writeBack _ _ _ (s.tidy_flushReqs _ _ hs))

theorem State.tidy_shrinkL1 (s : State) (c n f : Nat) (h : s.tidy = true) : (s.shrinkL1 c n f).tidy = true := by
  induction f generalizing s with
  | zero => exact h
  | succ f ih =>
    unfold State.shrinkL1
    dsimp only
    split
    · exact h
    · split
      · exact h
      · exact ih _ (State.tidy_evictLine _ _ _ (by exact h))

theorem State.tidy_makeLine (s : State) (c l : Nat) (h : s.tidy = true) : (s.makeLine c l).tidy = true := by
  unfold State.makeLine
  split
  · exact h
  · exact s.tidy_shrinkL1 _ _ _ h

theorem State.tidy_fillLine (s : State) (c l : Nat) (cv : Option Nat) (h : s.tidy = true) : (s.fillLine c l cv).tidy = true := by
  unfold State.fillLine
  refine State.tidy_foldl _ _ _ (s.tidy_makeLine c l h) (fun t w hs => ?_)
  split
  · exact hs
  · split
    · rw [State.tidy_setL1]; exact hs
    · exact hs

theorem State.tidy_loadWord (s : State) (c w : Nat) (cv : Option Nat) (h : s.tidy = true) : (s.loadWord c w cv).1.tidy = true := by
  unfold State.loadWord
  split
  · exact h
  · dsimp only
    split
    · exact s.tidy_fillLine _ _ _ h
    · exact h

theorem State.tidy_loadHome (s : State) (c w : Nat) (cv : Option Nat) (h : s.tidy = true) : (s.loadHome c w cv).1.tidy = true := by
  unfold State.loadHome
  split
  · exact h
  · dsimp only
    split
    · split
      · rw [State.tidy_setL1]; exact h
      · exact h
    · exact h

theorem State.tidy_freshWord (s : State) (q : StoreReq) (w : Nat) (m : BitVec 4) (v : Word) (h : s.tidy = true) :
    (s.freshWord q w m v).1.tidy = true := by
  unfold State.freshWord
  dsimp only
  rw [State.tidy_dirty]
  exact s.tidy_loadWord _ _ _ h

theorem State.tidy_storeWord (s : State) (q : StoreReq) (w : Nat) (m : BitVec 4) (v : Word) (h : s.tidy = true) :
    (s.storeWord q w m v).1.tidy = true := by
  unfold State.storeWord
  dsimp only
  split
  · exact s.tidy_freshWord _ _ _ _ h
  · rename_i x _
    split
    · exact h
    · split
      · rw [State.tidy_dirty]; exact h
      · split
        · rw [State.tidy_dirty]; exact h
        · split
          · split
            · rw [State.tidy_dirty, State.tidy_expectAck]; exact s.tidy_fill _ _ h
            · rw [State.tidy_dirty]; exact h
          · have h1 := s.tidy_flushReqs q.core w h
            split
            · exact State.tidy_freshWord _ _ _ _ _ h1
            · rename_i y _
              have h2 : (if y.hid.isNone = true then (s.flushReqs q.core w).writeBack q.core w
                  else (s.flushReqs q.core w).fill w y).tidy = true := by
                split
                · exact State.tidy_writeBack _ _ _ h1
                · exact State.tidy_fill _ _ _ h1
              split
              · rw [State.tidy_delL1]; exact h2
              · rw [State.tidy_dirty]; exact h2

theorem State.tidy_enterWords (s : State) (q : StoreReq) (h : s.tidy = true) : (s.enterWords q).1.tidy = true := by
  unfold State.enterWords
  dsimp only
  split
  · exact s.tidy_storeWord _ _ _ _ h
  · exact State.tidy_storeWord _ _ _ _ _ (s.tidy_storeWord _ _ _ _ h)

theorem State.tidy_unkeep (s : State) (q : StoreReq) (w : Nat) (h : s.tidy = true) : (s.unkeep q w).tidy = true := by
  unfold State.unkeep
  split
  · split
    · rw [State.tidy_expectAck, State.tidy_setL1]; exact s.tidy_fill _ _ h
    · exact h
  · exact h

theorem State.tidy_enterL1 (s : State) (q : StoreReq) (h : s.tidy = true) : (s.enterL1 q).1.tidy = true := by
  have h1 := s.tidy_enterWords q h
  unfold State.enterL1
  split
  · rename_i e; rw [e] at h1; exact h1
  · rename_i e
    rw [e] at h1
    split
    · exact h1
    · exact State.tidy_enterWords _ _ (State.tidy_foldl _ _ _ h (fun s w hs => s.tidy_unkeep _ _ hs))

theorem State.tidy_storeL1 (s : State) (q : StoreReq) (h : s.tidy = true) : (s.storeL1 q).tidy = true := by
  have h1 := s.tidy_enterL1 q h
  unfold State.storeL1
  split
  · rename_i e
    rw [e] at h1
    split
    · exact State.tidy_triggerAs _ _ _ _ h1
    · exact h1
  · rename_i e; rw [e] at h1; exact h1
  · rename_i e
    rw [e] at h1
    exact State.tidy_testStore _ _ (State.tidy_foldl _ _ _ h1 (fun s w hs => s.tidy_flushReqs _ _ hs))

theorem State.tidy_storeAtHome {s t : State} {q : StoreReq} (h : s.tidy = true) (ht : s.storeAtHome q = some t) :
    t.tidy = true := by
  unfold State.storeAtHome at ht
  split at ht
  · rename_i u hu
    cases ht
    exact State.tidy_fires _ _ (by rw [State.tidy_expectAck]; exact State.tidy_tryWords _ _ _ (s.tidy_writeBackAll _ _ h) u hu)
  · cases ht

/-! ### Translation -/

theorem State.tidy_orEntry (s : State) (f : BitVec 40) (pa b : Nat) (h : s.tidy = true) : (s.orEntry f pa b).tidy = true := by
  unfold State.orEntry
  dsimp only
  split
  · exact h
  · generalize hq : s.storeAtHome _ = o
    cases o with
    | none => exact h
    | some u => exact State.tidy_storeAtHome h hq

end Sys2Proof.Machine
end

