-- ==== Sys2Proof/Laws/PerInstr.lean ====
section
/-! SUPPORT. Encoding and decoding agree, instruction by instruction: the bytes of a well-formed instruction decode to it, and
a row without an encoding has no words (R37 to R54). -/

namespace Sys2Proof

/-- Decoding the bytes of a well-formed instruction gives the instruction and the bytes after it. -/
def Laws.RoundTrip.Statement (i : Instr) : Prop :=
  i.wf = true → match i.stream with
    | some st => ∀ r, decode st (i.bytes ++ r) = .ok (i, r)
    | none => encode i = []

theorem leWord_wordBytes (w : Word) : leWord (w.extractLsb' 0 8) (w.extractLsb' 8 8) (w.extractLsb' 16 8) (w.extractLsb' 24 8) = w := by
  have h1 := extract_split w 16 8 8
  have h2 := extract_split w 8 8 16
  have h3 := extract_split w 0 8 24
  exact ((congrArg (· ++ w.extractLsb' 0 8) ((congrArg (· ++ w.extractLsb' 8 8) h1).trans h2)).trans h3).trans (extract_all w)

theorem three_words (w : BitVec 96) : w.extractLsb' 64 32 ++ w.extractLsb' 32 32 ++ w.extractLsb' 0 32 = w := by
  have h2 := extract_split w 32 32 32
  have h3 := extract_split w 0 32 64
  exact ((congrArg (· ++ w.extractLsb' 0 32) h2).trans h3).trans (extract_all w)

theorem check_of_wf (i : Instr) (h : i.wf = true) : i.check = none := by simpa [Instr.wf] using h

/-- A scalar instruction whose fields parse to it decodes to itself. -/
theorem scalar_trip (i : Instr) (f : SWord) (h : encScalar i = some f) (hp : parseScalar f = .ok i) :
    Laws.RoundTrip.Statement i := by
  intro hw
  have hc := check_of_wf i hw
  have hd : decodeScalar f.word = .ok i := by
    simp only [decodeScalar, SWord.ofWord_word, hp, hc]
    rw [if_pos h]
  simp only [Instr.stream, h, Option.isSome_some, if_true]
  intro r
  simp only [Instr.bytes, encode, h, List.flatMap_cons, List.flatMap_nil, wordBytes, List.cons_append, List.nil_append,
    decode, leWord_wordBytes, hd]
  rfl

/-- A lane instruction whose fields parse to it decodes to itself. -/
theorem lane_trip (i : Instr) (f : LWord) (o : LaneOp) (r : LaneRule) (hs : encScalar i = none) (h : encLane i = some f)
    (hr : i.laneRule = some (o, r)) (hp : r.check o = none → parseLane f = .ok i) : Laws.RoundTrip.Statement i := by
  intro hw
  have hc := check_of_wf i hw
  have hc' : r.check o = none := by simpa [Instr.check, hr] using hc
  have hd : decodeLane f.word = .ok i := by
    simp only [decodeLane, LWord.ofWord_word, hp hc', hc]
    rw [if_pos h]
  simp only [Instr.stream, h, hs, Option.isSome_some, Option.isSome_none, if_true]
  intro r
  simp only [Instr.bytes, encode, h, hs, List.flatMap_cons, List.flatMap_nil, wordBytes, List.cons_append, List.nil_append,
    decode, leWord_wordBytes, three_words, hd]
  rfl

/-- A row without an encoding has no words. -/
theorem no_trip (i : Instr) (hs : encScalar i = none) (h : encLane i = none) : Laws.RoundTrip.Statement i := by
  intro _
  simp [Instr.stream, encode, h, hs]

theorem withTy_code (t : Ty) (f : Ty → Except DecodeError Instr) : withTy t.code f = f t := by simp [withTy, tyOf_code]

theorem withTy_of (c : BitVec 6) (t : Ty) (h : c = t.code) (f : Ty → Except DecodeError Instr) : withTy c f = f t := by
  rw [h, withTy_code]

theorem withCode_of {α : Type} (c : Option α) (x : α) (h : c = some x) (f : α → Except DecodeError Instr) :
    withCode c f = f x := by rw [h]; rfl

theorem trunc36 (k : BitVec 3) : (k.zeroExtend 6).truncate 3 = k := by revert k; decide
theorem trunc56 (k : BitVec 5) : (k.zeroExtend 6).truncate 5 = k := by revert k; decide
theorem trunc613 (k : BitVec 6) : (k.zeroExtend 13).truncate 6 = k := by revert k; decide
theorem trunc713 (k : BitVec 7) : (k.zeroExtend 13).truncate 7 = k := by revert k; decide
theorem trunc67 (k : BitVec 6) : (k.zeroExtend 7).truncate 6 = k := by revert k; decide
theorem trunc39 (k : BitVec 3) : (k.zeroExtend 9).truncate 3 = k := by revert k; decide
theorem trunc29 (k : BitVec 2) : (k.zeroExtend 9).truncate 2 = k := by revert k; decide
theorem trunc220 (k : BitVec 2) : (k.zeroExtend 20).truncate 2 = k := by revert k; decide

/-- The scope code below an operation code (R51). -/
theorem scope_of_amo (op : AtomOp) (sc : Scope) : scopeOf ((op.code ++ sc.code : BitVec 7).truncate 3) = some sc := by
  cases op <;> cases sc <;> decide

theorem class0 (f : LWord) (t : Ty) (ht : f.ty = t.code) (h : f.op.toNat / 128 = 0) : parseLane f = parseInt f t := by
  simp only [parseLane, ht, withTy_code, h]
theorem class2 (f : LWord) (t : Ty) (ht : f.ty = t.code) (h : f.op.toNat / 128 = 2) : parseLane f = parseFloat f t := by
  simp only [parseLane, ht, withTy_code, h]
theorem class4 (f : LWord) (t : Ty) (ht : f.ty = t.code) (h : f.op.toNat / 128 = 4) : parseLane f = parseMove f t := by
  simp only [parseLane, ht, withTy_code, h]
theorem class5 (f : LWord) (t : Ty) (ht : f.ty = t.code) (h : f.op.toNat / 128 = 5) : parseLane f = parseMatrix f t := by
  simp only [parseLane, ht, withTy_code, h]
theorem class6 (f : LWord) (t : Ty) (ht : f.ty = t.code) (h : f.op.toNat / 128 = 6) : parseLane f = parseNarrow f t := by
  simp only [parseLane, ht, withTy_code, h]
theorem class7 (f : LWord) (t : Ty) (ht : f.ty = t.code) (h : f.op.toNat / 128 = 7) : parseLane f = parseMem f t := by
  simp only [parseLane, ht, withTy_code, h]
theorem class8 (f : LWord) (t : Ty) (ht : f.ty = t.code) (h : f.op.toNat / 128 = 8) : parseLane f = parseMem f t := by
  simp only [parseLane, ht, withTy_code, h]
theorem class9 (f : LWord) (t : Ty) (ht : f.ty = t.code) (h : f.op.toNat / 128 = 9) : parseLane f = parseMem f t := by
  simp only [parseLane, ht, withTy_code, h]

theorem d_fSA (op : BitVec 7) (d a b : BitVec 6) (fn : BitVec 7) : (fSA op d a b fn).d = d := rfl
theorem a_fSA (op : BitVec 7) (d a b : BitVec 6) (fn : BitVec 7) : (fSA op d a b fn).a = a := rfl
theorem b_fSA (op : BitVec 7) (d a b : BitVec 6) (fn : BitVec 7) : (fSA op d a b fn).b = b := rfl
theorem fn_fSA (op : BitVec 7) (d a b : BitVec 6) (fn : BitVec 7) : (fSA op d a b fn).fn = fn := rfl
theorem d_fSI (op : BitVec 7) (d a : BitVec 6) (i : BitVec 13) : (fSI op d a i).d = d := rfl
theorem a_fSI (op : BitVec 7) (d a : BitVec 6) (i : BitVec 13) : (fSI op d a i).a = a := rfl
theorem d_fSL (op : BitVec 7) (n : BitVec 6) (o : BitVec 19) : (fSL op n o).d = n := rfl
theorem d_fSM (op : BitVec 7) (d a : BitVec 6) (la : BitVec 4) (i : BitVec 9) : (fSM op d a la i).d = d := rfl
theorem a_fSM (op : BitVec 7) (d a : BitVec 6) (la : BitVec 4) (i : BitVec 9) : (fSM op d a la i).a = a := rfl
theorem md_fL (op : BitVec 12) (t : Ty) (md : BitVec 12) (o : LaneOp) : (fL op t md o).md = md := rfl

/-- The common fields of a conversion (R132, R137). -/
theorem convOp_fConv (op : BitVec 12) (td ts : Ty) (es ed : BitVec 2) (x : Bool) (r : BitVec 3) (o : LaneOp)
    (h : o.km.ok = true) (hi : o.imm = 0) : (fConv op td ts es ed x r o).convOp = o := by
  simp only [LWord.convOp, LWord.common, fConv, fL, srcOf_bits, kmOf_bits _ h]
  rw [← hi]

/-- A conversion that passes its rule has no immediate. -/
theorem imm_of_conv (ok : Bool) (td ts : Ty) (ed es : BitVec 2) (o : LaneOp)
    (h : (conv ok td ts ed es o).check o = none) : o.imm = 0 := by
  by_contra hi
  simp only [conv, LaneRule.check, LaneRule.immCheck, hi] at h
  repeat' split at h
  all_goals simp_all

end Sys2Proof

namespace Sys2Proof.Laws.RoundTrip

open Sys2Proof

theorem add (d : XReg) (a : XReg) (b : XReg) : Statement (.add d a b) := scalar_trip _ _ rfl rfl

theorem sub (d : XReg) (a : XReg) (b : XReg) : Statement (.sub d a b) := scalar_trip _ _ rfl rfl

theorem and (d : XReg) (a : XReg) (b : XReg) : Statement (.and d a b) := scalar_trip _ _ rfl rfl

theorem or (d : XReg) (a : XReg) (b : XReg) : Statement (.or d a b) := scalar_trip _ _ rfl rfl

theorem xor (d : XReg) (a : XReg) (b : XReg) : Statement (.xor d a b) := scalar_trip _ _ rfl rfl

theorem andn (d : XReg) (a : XReg) (b : XReg) : Statement (.andn d a b) := scalar_trip _ _ rfl rfl

theorem shl (d : XReg) (a : XReg) (b : XReg) : Statement (.shl d a b) := scalar_trip _ _ rfl rfl

theorem shr (d : XReg) (a : XReg) (b : XReg) : Statement (.shr d a b) := scalar_trip _ _ rfl rfl

theorem sar (d : XReg) (a : XReg) (b : XReg) : Statement (.sar d a b) := scalar_trip _ _ rfl rfl

theorem rol (d : XReg) (a : XReg) (b : XReg) : Statement (.rol d a b) := scalar_trip _ _ rfl rfl

theorem min (d : XReg) (a : XReg) (b : XReg) : Statement (.min d a b) := scalar_trip _ _ rfl rfl

theorem max (d : XReg) (a : XReg) (b : XReg) : Statement (.max d a b) := scalar_trip _ _ rfl rfl

theorem minn (d : XReg) (a : XReg) (b : XReg) : Statement (.minn d a b) := scalar_trip _ _ rfl rfl

theorem maxn (d : XReg) (a : XReg) (b : XReg) : Statement (.maxn d a b) := scalar_trip _ _ rfl rfl

theorem mul (d : XReg) (a : XReg) (b : XReg) : Statement (.mul d a b) := scalar_trip _ _ rfl rfl

theorem mulh (d : XReg) (a : XReg) (b : XReg) : Statement (.mulh d a b) := scalar_trip _ _ rfl rfl

theorem mulhn (d : XReg) (a : XReg) (b : XReg) : Statement (.mulhn d a b) := scalar_trip _ _ rfl rfl

theorem div (d : XReg) (a : XReg) (b : XReg) : Statement (.div d a b) := scalar_trip _ _ rfl rfl

theorem divn (d : XReg) (a : XReg) (b : XReg) : Statement (.divn d a b) := scalar_trip _ _ rfl rfl

theorem rem (d : XReg) (a : XReg) (b : XReg) : Statement (.rem d a b) := scalar_trip _ _ rfl rfl

theorem remn (d : XReg) (a : XReg) (b : XReg) : Statement (.remn d a b) := scalar_trip _ _ rfl rfl

theorem clz (d : XReg) (a : XReg) : Statement (.clz d a) := scalar_trip _ _ rfl rfl

theorem ctz (d : XReg) (a : XReg) : Statement (.ctz d a) := scalar_trip _ _ rfl rfl

theorem popc (d : XReg) (a : XReg) : Statement (.popc d a) := scalar_trip _ _ rfl rfl

theorem sextI8 (d : XReg) (a : XReg) : Statement (.sextI8 d a) := scalar_trip _ _ rfl rfl

theorem sextI16 (d : XReg) (a : XReg) : Statement (.sextI16 d a) := scalar_trip _ _ rfl rfl

theorem sextI32 (d : XReg) (a : XReg) : Statement (.sextI32 d a) := scalar_trip _ _ rfl rfl

theorem zextN8 (d : XReg) (a : XReg) : Statement (.zextN8 d a) := scalar_trip _ _ rfl rfl

theorem zextN16 (d : XReg) (a : XReg) : Statement (.zextN16 d a) := scalar_trip _ _ rfl rfl

theorem zextN32 (d : XReg) (a : XReg) : Statement (.zextN32 d a) := scalar_trip _ _ rfl rfl

theorem addi (d : XReg) (a : XReg) (imm : BitVec 13) : Statement (.addi d a imm) := by
  refine scalar_trip _ _ rfl ?_
  refine congrArg Except.ok ?_
  simp only [imm13_fSI, d_fSI, a_fSI]

theorem andi (d : XReg) (a : XReg) (imm : BitVec 13) : Statement (.andi d a imm) := by
  refine scalar_trip _ _ rfl ?_
  refine congrArg Except.ok ?_
  simp only [imm13_fSI, d_fSI, a_fSI]

theorem ori (d : XReg) (a : XReg) (imm : BitVec 13) : Statement (.ori d a imm) := by
  refine scalar_trip _ _ rfl ?_
  refine congrArg Except.ok ?_
  simp only [imm13_fSI, d_fSI, a_fSI]

theorem xori (d : XReg) (a : XReg) (imm : BitVec 13) : Statement (.xori d a imm) := by
  refine scalar_trip _ _ rfl ?_
  refine congrArg Except.ok ?_
  simp only [imm13_fSI, d_fSI, a_fSI]

theorem shli (d : XReg) (a : XReg) (n : BitVec 6) : Statement (.shli d a n) := by
  refine scalar_trip _ _ rfl ?_
  refine congrArg Except.ok ?_
  simp only [imm13_fSI, d_fSI, a_fSI, trunc613]

theorem shri (d : XReg) (a : XReg) (n : BitVec 6) : Statement (.shri d a n) := by
  refine scalar_trip _ _ rfl ?_
  refine congrArg Except.ok ?_
  simp only [imm13_fSI, d_fSI, a_fSI, trunc613]

theorem sari (d : XReg) (a : XReg) (n : BitVec 6) : Statement (.sari d a n) := by
  refine scalar_trip _ _ rfl ?_
  refine congrArg Except.ok ?_
  simp only [imm13_fSI, d_fSI, a_fSI, trunc613]

theorem lih (d : XReg) (a : XReg) (imm : BitVec 13) : Statement (.lih d a imm) := by
  refine scalar_trip _ _ rfl ?_
  refine congrArg Except.ok ?_
  simp only [imm13_fSI, d_fSI, a_fSI]

theorem seq (d : XReg) (a : XReg) (b : XReg) : Statement (.seq d a b) := scalar_trip _ _ rfl rfl

theorem sne (d : XReg) (a : XReg) (b : XReg) : Statement (.sne d a b) := scalar_trip _ _ rfl rfl

theorem slt (d : XReg) (a : XReg) (b : XReg) : Statement (.slt d a b) := scalar_trip _ _ rfl rfl

theorem sltn (d : XReg) (a : XReg) (b : XReg) : Statement (.sltn d a b) := scalar_trip _ _ rfl rfl

theorem sle (d : XReg) (a : XReg) (b : XReg) : Statement (.sle d a b) := scalar_trip _ _ rfl rfl

theorem slen (d : XReg) (a : XReg) (b : XReg) : Statement (.slen d a b) := scalar_trip _ _ rfl rfl

theorem sel (d : XReg) (c : XReg) (a : XReg) (b : XReg) : Statement (.sel d c a b) := by
  refine scalar_trip _ _ rfl ?_
  refine congrArg Except.ok ?_
  simp only [d_fSA, a_fSA, b_fSA, fn_fSA, trunc67]

theorem adr (d : XReg) (a : XReg) (imm : BitVec 13) : Statement (.adr d a imm) := by
  refine scalar_trip _ _ rfl ?_
  refine congrArg Except.ok ?_
  simp only [imm13_fSI, d_fSI, a_fSI]

theorem adrpc (d : XReg) (imm : BitVec 13) : Statement (.adrpc d imm) := by
  refine scalar_trip _ _ rfl ?_
  refine congrArg Except.ok ?_
  simp only [imm13_fSI, d_fSI]

theorem b (off : BitVec 25) : Statement (.b off) := by
  refine scalar_trip _ _ rfl ?_
  refine congrArg Except.ok ?_
  simp only [off25_fSJ]

theorem call (off : BitVec 25) : Statement (.call off) := by
  refine scalar_trip _ _ rfl ?_
  refine congrArg Except.ok ?_
  simp only [off25_fSJ]

theorem beq (a : XReg) (b : XReg) (off : BitVec 13) : Statement (.beq a b off) := by
  refine scalar_trip _ _ rfl ?_
  refine congrArg Except.ok ?_
  simp only [imm13_fSI, d_fSI, a_fSI]

theorem bne (a : XReg) (b : XReg) (off : BitVec 13) : Statement (.bne a b off) := by
  refine scalar_trip _ _ rfl ?_
  refine congrArg Except.ok ?_
  simp only [imm13_fSI, d_fSI, a_fSI]

theorem blt (a : XReg) (b : XReg) (off : BitVec 13) : Statement (.blt a b off) := by
  refine scalar_trip _ _ rfl ?_
  refine congrArg Except.ok ?_
  simp only [imm13_fSI, d_fSI, a_fSI]

theorem bge (a : XReg) (b : XReg) (off : BitVec 13) : Statement (.bge a b off) := by
  refine scalar_trip _ _ rfl ?_
  refine congrArg Except.ok ?_
  simp only [imm13_fSI, d_fSI, a_fSI]

theorem bltn (a : XReg) (b : XReg) (off : BitVec 13) : Statement (.bltn a b off) := by
  refine scalar_trip _ _ rfl ?_
  refine congrArg Except.ok ?_
  simp only [imm13_fSI, d_fSI, a_fSI]

theorem bgen (a : XReg) (b : XReg) (off : BitVec 13) : Statement (.bgen a b off) := by
  refine scalar_trip _ _ rfl ?_
  refine congrArg Except.ok ?_
  simp only [imm13_fSI, d_fSI, a_fSI]

theorem bz (a : XReg) (off : BitVec 13) : Statement (.bz a off) := by
  refine scalar_trip _ _ rfl ?_
  refine congrArg Except.ok ?_
  simp only [imm13_fSI, d_fSI]

theorem bnz (a : XReg) (off : BitVec 13) : Statement (.bnz a off) := by
  refine scalar_trip _ _ rfl ?_
  refine congrArg Except.ok ?_
  simp only [imm13_fSI, d_fSI]

theorem loop (a : XReg) (off : BitVec 13) : Statement (.loop a off) := by
  refine scalar_trip _ _ rfl ?_
  refine congrArg Except.ok ?_
  simp only [imm13_fSI, d_fSI]

theorem bkany (k : KReg) (off : BitVec 13) : Statement (.bkany k off) := by
  refine scalar_trip _ _ rfl ?_
  refine congrArg Except.ok ?_
  simp only [imm13_fSI, d_fSI, trunc36]

theorem bkall (k : KReg) (off : BitVec 13) : Statement (.bkall k off) := by
  refine scalar_trip _ _ rfl ?_
  refine congrArg Except.ok ?_
  simp only [imm13_fSI, d_fSI, trunc36]

theorem bknone (k : KReg) (off : BitVec 13) : Statement (.bknone k off) := by
  refine scalar_trip _ _ rfl ?_
  refine congrArg Except.ok ?_
  simp only [imm13_fSI, d_fSI, trunc36]

theorem calli (a : XReg) : Statement (.calli a) := scalar_trip _ _ rfl rfl

theorem ret : Statement (.ret) := scalar_trip _ _ rfl rfl

theorem jmpi (a : XReg) : Statement (.jmpi a) := scalar_trip _ _ rfl rfl

theorem ldx (d : XReg) (a : XReg) (la : BitVec 4) (imm : BitVec 9) : Statement (.ldx d a la imm) := by
  refine scalar_trip _ _ rfl ?_
  refine congrArg Except.ok ?_
  simp only [imm9_fSM, la_fSM, d_fSM, a_fSM]

theorem ldxI32 (d : XReg) (a : XReg) (la : BitVec 4) (imm : BitVec 9) : Statement (.ldxI32 d a la imm) := by
  refine scalar_trip _ _ rfl ?_
  refine congrArg Except.ok ?_
  simp only [imm9_fSM, la_fSM, d_fSM, a_fSM]

theorem ldxs (d : XReg) (a : XReg) (la : BitVec 4) (imm : BitVec 9) : Statement (.ldxs d a la imm) := by
  refine scalar_trip _ _ rfl ?_
  refine congrArg Except.ok ?_
  simp only [imm9_fSM, la_fSM, d_fSM, a_fSM]

theorem ldxsI32 (d : XReg) (a : XReg) (la : BitVec 4) (imm : BitVec 9) : Statement (.ldxsI32 d a la imm) := by
  refine scalar_trip _ _ rfl ?_
  refine congrArg Except.ok ?_
  simp only [imm9_fSM, la_fSM, d_fSM, a_fSM]

theorem stx (d : XReg) (a : XReg) (imm : BitVec 9) : Statement (.stx d a imm) := by
  refine scalar_trip _ _ rfl ?_
  refine congrArg Except.ok ?_
  simp only [imm9_fSM, d_fSM, a_fSM]

theorem stxB32 (d : XReg) (a : XReg) (imm : BitVec 9) : Statement (.stxB32 d a imm) := by
  refine scalar_trip _ _ rfl ?_
  refine congrArg Except.ok ?_
  simp only [imm9_fSM, d_fSM, a_fSM]

theorem stxs (d : XReg) (a : XReg) (imm : BitVec 9) : Statement (.stxs d a imm) := by
  refine scalar_trip _ _ rfl ?_
  refine congrArg Except.ok ?_
  simp only [imm9_fSM, d_fSM, a_fSM]

theorem stxsB32 (d : XReg) (a : XReg) (imm : BitVec 9) : Statement (.stxsB32 d a imm) := by
  refine scalar_trip _ _ rfl ?_
  refine congrArg Except.ok ?_
  simp only [imm9_fSM, d_fSM, a_fSM]

theorem acq (sc : Scope) (d : XReg) (a : XReg) (la : BitVec 4) : Statement (.acq sc d a la) := by
  refine scalar_trip _ _ rfl ?_
  refine (withCode_of _ sc ((congrArg (fun x : BitVec 9 => scopeOf (x.truncate 3)) (imm9_fSM _ _ _ _ _)).trans (by cases sc <;> rfl)) _).trans ?_
  exact congrArg (fun x => Except.ok (Instr.acq sc d a x)) (la_fSM _ _ _ _ _)

theorem rel (sc : Scope) (d : XReg) (a : XReg) : Statement (.rel sc d a) := by
  refine scalar_trip _ _ rfl ?_
  exact withCode_of _ sc ((congrArg (fun x : BitVec 9 => scopeOf (x.truncate 3)) (imm9_fSM _ _ _ _ _)).trans (by cases sc <;> rfl)) _

theorem amo (op : AtomOp) (sc : Scope) (d : XReg) (a : XReg) (b : XReg) : Statement (.amo op sc d a b) := by
  refine scalar_trip _ _ rfl ?_
  refine (withCode_of _ op ((congrArg atomOf ((extract_append_high op.code sc.code 0 4).trans (extract_all _))).trans (atomOf_code op)) _).trans ?_
  exact withCode_of _ sc (scope_of_amo op sc) _

theorem ldc (d : XReg) (a : XReg) (la : BitVec 4) (imm : BitVec 9) : Statement (.ldc d a la imm) := by
  refine scalar_trip _ _ rfl ?_
  refine congrArg Except.ok ?_
  simp only [imm9_fSM, la_fSM, d_fSM, a_fSM]

theorem ldsib (d : XReg) (a : XReg) (la : BitVec 4) (k : BitVec 2) : Statement (.ldsib d a la k) := by
  refine scalar_trip _ _ rfl ?_
  refine congrArg Except.ok ?_
  simp only [imm9_fSM, la_fSM, d_fSM, a_fSM, trunc29]

theorem mfs (d : XReg) (r : SReg) : Statement (.mfs d r) := by
  refine scalar_trip _ _ rfl ?_
  exact withCode_of _ r ((congrArg sregOf (imm13_fSI _ _ _ _)).trans (sregOf_code r)) _

theorem mts (a : XReg) (r : SReg) : Statement (.mts a r) := by
  refine scalar_trip _ _ rfl ?_
  exact withCode_of _ r ((congrArg sregOf (imm13_fSI _ _ _ _)).trans (sregOf_code r)) _

theorem fence (sc : Scope) : Statement (.fence sc) := by
  refine scalar_trip _ _ rfl ?_
  show parseOrder _ = _
  unfold parseOrder
  rw [fn_fSA, show (BitVec.extractLsb' 4 3 ((0 : BitVec 4) ++ sc.code : BitVec 7)).toNat = 0 from by cases sc <;> decide]
  exact withCode_of _ sc (show scopeOf (BitVec.truncate 3 ((0 : BitVec 4) ++ sc.code : BitVec 7)) = some sc from by cases sc <;> decide) _

theorem rcn (op : RcnOp) (d : XReg) (a : XReg) : Statement (.rcn op d a) := by
  refine scalar_trip _ _ rfl ?_
  show parseOrder _ = _
  unfold parseOrder
  rw [fn_fSA, show (BitVec.extractLsb' 4 3 ((2 : BitVec 4) ++ op.code : BitVec 7)).toNat = 1 from by cases op <;> decide]
  exact withCode_of _ op (show rcnOf (BitVec.truncate 3 ((2 : BitVec 4) ++ op.code : BitVec 7)) = some op from by cases op <;> decide) _

theorem rcnw (d : XReg) (a : XReg) (b : XReg) : Statement (.rcnw d a b) := by
  refine scalar_trip _ _ rfl ?_
  show parseOrder _ = _
  unfold parseOrder
  rw [fn_fSA, show ((0x20 : BitVec 7).extractLsb' 4 3).toNat = 2 from by decide]
  rfl

theorem vvrd (d : XReg) (a : XReg) : Statement (.vvrd d a) := by
  refine scalar_trip _ _ rfl ?_
  show parseOrder _ = _
  unfold parseOrder
  rw [fn_fSA, show ((0x30 : BitVec 7).extractLsb' 4 3).toNat = 3 from by decide]
  rfl

theorem vvfold (a : XReg) : Statement (.vvfold a) := by
  refine scalar_trip _ _ rfl ?_
  show parseOrder _ = _
  unfold parseOrder
  rw [fn_fSA, show ((0x40 : BitVec 7).extractLsb' 4 3).toNat = 4 from by decide]
  rfl

theorem clean (a : XReg) (b : XReg) : Statement (.clean a b) := by
  refine scalar_trip _ _ rfl ?_
  show parseOrder _ = _
  unfold parseOrder
  rw [fn_fSA, show ((0x50 : BitVec 7).extractLsb' 4 3).toNat = 5 from by decide]
  rfl

theorem inval (a : XReg) (b : XReg) : Statement (.inval a b) := by
  refine scalar_trip _ _ rfl ?_
  show parseOrder _ = _
  unfold parseOrder
  rw [fn_fSA, show ((0x60 : BitVec 7).extractLsb' 4 3).toNat = 6 from by decide]
  rfl

theorem lrun (count : BitVec 6) (off : BitVec 19) : Statement (.lrun count off) := by
  refine scalar_trip _ _ rfl ?_
  refine congrArg Except.ok ?_
  simp only [imm19_fSL, d_fSL]

theorem lsync : Statement (.lsync) := scalar_trip _ _ rfl rfl

theorem dpop (d : XReg) : Statement (.dpop d) := scalar_trip _ _ rfl rfl

theorem kpush (k : KReg) : Statement (.kpush k) := by
  refine scalar_trip _ _ rfl ?_
  refine congrArg Except.ok ?_
  simp only [a_fSA, trunc36]

theorem kelse : Statement (.kelse) := scalar_trip _ _ rfl rfl

theorem kpop : Statement (.kpop) := scalar_trip _ _ rfl rfl

theorem kmovKK (d : KReg) (a : KReg) : Statement (.kmovKK d a) := by
  refine scalar_trip _ _ rfl ?_
  refine congrArg Except.ok ?_
  simp only [d_fSA, a_fSA, trunc36]

theorem kmovKX (d : KReg) (a : XReg) : Statement (.kmovKX d a) := by
  refine scalar_trip _ _ rfl ?_
  refine congrArg Except.ok ?_
  simp only [d_fSA, a_fSA, trunc36]

theorem kmovXK (d : XReg) (a : KReg) : Statement (.kmovXK d a) := by
  refine scalar_trip _ _ rfl ?_
  refine congrArg Except.ok ?_
  simp only [d_fSA, a_fSA, trunc36]

theorem kand (d : KReg) (a : KReg) (b : KReg) : Statement (.kand d a b) := by
  refine scalar_trip _ _ rfl ?_
  refine congrArg Except.ok ?_
  simp only [d_fSA, a_fSA, b_fSA, trunc36]

theorem kor (d : KReg) (a : KReg) (b : KReg) : Statement (.kor d a b) := by
  refine scalar_trip _ _ rfl ?_
  refine congrArg Except.ok ?_
  simp only [d_fSA, a_fSA, b_fSA, trunc36]

theorem kxor (d : KReg) (a : KReg) (b : KReg) : Statement (.kxor d a b) := by
  refine scalar_trip _ _ rfl ?_
  refine congrArg Except.ok ?_
  simp only [d_fSA, a_fSA, b_fSA, trunc36]

theorem knot (d : KReg) (a : KReg) : Statement (.knot d a) := by
  refine scalar_trip _ _ rfl ?_
  refine congrArg Except.ok ?_
  simp only [d_fSA, a_fSA, trunc36]

theorem kpopc (d : XReg) (a : KReg) : Statement (.kpopc d a) := by
  refine scalar_trip _ _ rfl ?_
  refine congrArg Except.ok ?_
  simp only [d_fSA, a_fSA, trunc36]

theorem spset (q : QReg) (a : XReg) (b : XReg) : Statement (.spset q a b) := by
  refine scalar_trip _ _ rfl ?_
  refine congrArg Except.ok ?_
  simp only [d_fSA, a_fSA, b_fSA, trunc36]

theorem spgo (q : QReg) : Statement (.spgo q) := by
  refine scalar_trip _ _ rfl ?_
  refine congrArg Except.ok ?_
  simp only [d_fSA, trunc36]

theorem spstop (q : QReg) : Statement (.spstop q) := by
  refine scalar_trip _ _ rfl ?_
  refine congrArg Except.ok ?_
  simp only [d_fSA, trunc36]

theorem wait (p : Path) (a : XReg) : Statement (.wait p a) := by
  refine scalar_trip _ _ rfl ?_
  show parsePath _ = _
  unfold parsePath
  rw [fn_fSA, show (BitVec.extractLsb' 3 4 ((0 : BitVec 4) ++ p.code : BitVec 7)).toNat = 0 from by cases p <;> decide]
  exact withCode_of _ p (show pathOf (BitVec.truncate 3 ((0 : BitVec 4) ++ p.code : BitVec 7)) = some p from by cases p <;> decide) _

theorem cntrd (p : Path) (d : XReg) : Statement (.cntrd p d) := by
  refine scalar_trip _ _ rfl ?_
  show parsePath _ = _
  unfold parsePath
  rw [fn_fSA, show (BitVec.extractLsb' 3 4 ((1 : BitVec 4) ++ p.code : BitVec 7)).toNat = 1 from by cases p <;> decide]
  exact withCode_of _ p (show pathOf (BitVec.truncate 3 ((1 : BitVec 4) ++ p.code : BitVec 7)) = some p from by cases p <;> decide) _

theorem cpgo (c : BitVec 3) (b : XReg) : Statement (.cpgo c b) := by
  refine scalar_trip _ _ rfl ?_
  refine congrArg Except.ok ?_
  simp only [a_fSA, b_fSA, trunc36]

theorem cpseal (d : XReg) (c : BitVec 3) : Statement (.cpseal d c) := by
  refine scalar_trip _ _ rfl ?_
  refine congrArg Except.ok ?_
  simp only [d_fSA, a_fSA, trunc36]

theorem cpwait (d : XReg) (c : BitVec 3) (b : XReg) : Statement (.cpwait d c b) := by
  refine scalar_trip _ _ rfl ?_
  refine congrArg Except.ok ?_
  simp only [d_fSA, a_fSA, b_fSA, trunc36]

theorem cpstat (d : XReg) (c : BitVec 3) : Statement (.cpstat d c) := by
  refine scalar_trip _ _ rfl ?_
  refine congrArg Except.ok ?_
  simp only [d_fSA, a_fSA, trunc36]

theorem cpabort (d : XReg) (c : BitVec 3) : Statement (.cpabort d c) := by
  refine scalar_trip _ _ rfl ?_
  refine congrArg Except.ok ?_
  simp only [d_fSA, a_fSA, trunc36]

theorem cpflt (d : XReg) (c : BitVec 3) : Statement (.cpflt d c) := by
  refine scalar_trip _ _ rfl ?_
  refine congrArg Except.ok ?_
  simp only [d_fSA, a_fSA, trunc36]

theorem bop (op : BankOp) (d : XReg) (a : XReg) (b : XReg) : Statement (.bop op d a b) := by
  refine scalar_trip _ _ rfl ?_
  show parseBank _ = _
  unfold parseBank
  rw [fn_fSA, show (BitVec.extractLsb' 4 3 ((0 : BitVec 3) ++ op.code : BitVec 7)).toNat = 0 from by cases op <;> decide]
  exact withCode_of _ op (show bankOf (BitVec.truncate 4 ((0 : BitVec 3) ++ op.code : BitVec 7)) = some op from by cases op <;> decide) _

theorem bred (op : BankOp) (d : XReg) (a : XReg) (b : XReg) : Statement (.bred op d a b) := by
  refine scalar_trip _ _ rfl ?_
  show parseBank _ = _
  unfold parseBank
  rw [fn_fSA, show (BitVec.extractLsb' 4 3 ((1 : BitVec 3) ++ op.code : BitVec 7)).toNat = 1 from by cases op <;> decide]
  exact withCode_of _ op (show bankOf (BitVec.truncate 4 ((1 : BitVec 3) ++ op.code : BitVec 7)) = some op from by cases op <;> decide) _

theorem await (cc : AwaitCond) (acq : Bool) (d : XReg) (a : XReg) (b : XReg) : Statement (.await cc acq d a b) := by
  refine scalar_trip _ _ rfl ?_
  show parseBank _ = _
  unfold parseBank
  rw [fn_fSA, show (BitVec.extractLsb' 4 3 ((2 : BitVec 3) ++ BitVec.ofBool acq ++ cc.code : BitVec 7)).toNat = 2 from by
    cases cc <;> cases acq <;> decide]
  refine (withCode_of _ cc (show awaitOf (BitVec.truncate 3 ((2 : BitVec 3) ++ BitVec.ofBool acq ++ cc.code : BitVec 7)) = some cc
    from by cases cc <;> cases acq <;> decide) _).trans ?_
  exact congrArg (fun x => Except.ok (Instr.await cc x d a b))
    (show BitVec.getLsbD ((2 : BitVec 3) ++ BitVec.ofBool acq ++ cc.code : BitVec 7) 3 = acq from by
      cases cc <;> cases acq <;> decide)

theorem tspawn (a : XReg) (b : XReg) : Statement (.tspawn a b) := scalar_trip _ _ rfl rfl

theorem watch (d : XReg) (a : XReg) : Statement (.watch d a) := scalar_trip _ _ rfl rfl

theorem unwatch (d : XReg) (a : XReg) : Statement (.unwatch d a) := scalar_trip _ _ rfl rfl

theorem claim (d : XReg) (a : XReg) : Statement (.claim d a) := scalar_trip _ _ rfl rfl

theorem give (d : XReg) (a : XReg) : Statement (.give d a) := scalar_trip _ _ rfl rfl

theorem regroup (d : XReg) (a : XReg) : Statement (.regroup d a) := scalar_trip _ _ rfl rfl

theorem exit : Statement (.exit) := scalar_trip _ _ rfl rfl

theorem barinit (n : BitVec 6) (b : XReg) : Statement (.barinit n b) := scalar_trip _ _ rfl rfl

theorem bararr (d : XReg) (n : BitVec 6) : Statement (.bararr d n) := scalar_trip _ _ rfl rfl

theorem barwait (n : BitVec 6) (b : XReg) : Statement (.barwait n b) := scalar_trip _ _ rfl rfl

theorem barsync (n : BitVec 6) : Statement (.barsync n) := scalar_trip _ _ rfl rfl

theorem cbar (c : BitVec 3) : Statement (.cbar c) := by
  refine scalar_trip _ _ rfl ?_
  refine congrArg Except.ok ?_
  simp only [a_fSA, trunc36]

theorem qinit (q : BitVec 5) (b : XReg) : Statement (.qinit q b) := by
  refine scalar_trip _ _ rfl ?_
  refine congrArg Except.ok ?_
  simp only [a_fSA, b_fSA, trunc56]

theorem qpush (q : BitVec 5) (b : XReg) : Statement (.qpush q b) := by
  refine scalar_trip _ _ rfl ?_
  refine congrArg Except.ok ?_
  simp only [a_fSA, b_fSA, trunc56]

theorem qpop (d : XReg) (q : BitVec 5) : Statement (.qpop d q) := by
  refine scalar_trip _ _ rfl ?_
  refine congrArg Except.ok ?_
  simp only [d_fSA, a_fSA, trunc56]

theorem qtry (d : XReg) (q : BitVec 5) : Statement (.qtry d q) := by
  refine scalar_trip _ _ rfl ?_
  refine congrArg Except.ok ?_
  simp only [d_fSA, a_fSA, trunc56]

theorem nap (a : XReg) : Statement (.nap a) := scalar_trip _ _ rfl rfl

theorem yield : Statement (.yield) := scalar_trip _ _ rfl rfl

theorem ensure (a : XReg) (b : XReg) : Statement (.ensure a b) := scalar_trip _ _ rfl rfl

theorem elseby : Statement (.elseby) := scalar_trip _ _ rfl rfl

theorem elseerr : Statement (.elseerr) := scalar_trip _ _ rfl rfl

theorem accept (a : XReg) : Statement (.accept a) := scalar_trip _ _ rfl rfl

theorem rbfail : Statement (.rbfail) := scalar_trip _ _ rfl rfl

theorem cvjoin (d : XReg) (a : XReg) : Statement (.cvjoin d a) := scalar_trip _ _ rfl rfl

theorem cvleave : Statement (.cvleave) := scalar_trip _ _ rfl rfl

theorem chkerr (d : XReg) : Statement (.chkerr d) := scalar_trip _ _ rfl rfl

theorem trap (n : BitVec 7) : Statement (.trap n) := by
  refine scalar_trip _ _ rfl ?_
  refine congrArg Except.ok ?_
  simp only [imm13_fSI, trunc713]

theorem brk (n : BitVec 13) : Statement (.brk n) := by
  refine scalar_trip _ _ rfl ?_
  refine congrArg Except.ok ?_
  simp only [imm13_fSI]

theorem hcall (n : BitVec 13) : Statement (.hcall n) := by
  refine scalar_trip _ _ rfl ?_
  refine congrArg Except.ok ?_
  simp only [imm13_fSI]

theorem rti : Statement (.rti) := scalar_trip _ _ rfl rfl

theorem nop : Statement (.nop) := scalar_trip _ _ rfl rfl

theorem halt (a : XReg) : Statement (.halt a) := scalar_trip _ _ rfl rfl

theorem capq (d : XReg) (a : XReg) : Statement (.capq d a) := scalar_trip _ _ rfl rfl

theorem chkmode (a : XReg) : Statement (.chkmode a) := scalar_trip _ _ rfl rfl

theorem clkmode (d : XReg) (a : XReg) : Statement (.clkmode d a) := scalar_trip _ _ rfl rfl

theorem retire (d : XReg) (a : XReg) : Statement (.retire d a) := scalar_trip _ _ rfl rfl

theorem ctxsv (d : XReg) (a : XReg) (b : XReg) : Statement (.ctxsv d a b) := scalar_trip _ _ rfl rfl

theorem ctxld (d : XReg) (a : XReg) (b : XReg) : Statement (.ctxld d a b) := scalar_trip _ _ rfl rfl

theorem tlbflush (a : XReg) (b : XReg) : Statement (.tlbflush a b) := scalar_trip _ _ rfl rfl

theorem prgn (d : XReg) (a : XReg) : Statement (.prgn d a) := scalar_trip _ _ rfl rfl

theorem vadd (t : Ty) (sat : Bool) (o : LaneOp) : Statement (.vadd t sat o) := by
  refine lane_trip _ _ _ _ rfl rfl rfl ?_
  intro hc
  have hk := km_ok_of_check _ _ hc
  refine (class0 _ t rfl (show (0x001 : BitVec 12).toNat / 128 = 0 from by decide)).trans ?_
  refine congrArg Except.ok ?_
  simp only [common_fL _ _ _ _ hk, LWord.b23, md_fL, md23_flag]

theorem vsub (t : Ty) (sat : Bool) (o : LaneOp) : Statement (.vsub t sat o) := by
  refine lane_trip _ _ _ _ rfl rfl rfl ?_
  intro hc
  have hk := km_ok_of_check _ _ hc
  refine (class0 _ t rfl (show (0x002 : BitVec 12).toNat / 128 = 0 from by decide)).trans ?_
  refine congrArg Except.ok ?_
  simp only [common_fL _ _ _ _ hk, LWord.b23, md_fL, md23_flag]

theorem vmul (t : Ty) (o : LaneOp) : Statement (.vmul t o) := by
  refine lane_trip _ _ _ _ rfl rfl rfl ?_
  intro hc
  have hk := km_ok_of_check _ _ hc
  refine (class0 _ t rfl (show (0x003 : BitVec 12).toNat / 128 = 0 from by decide)).trans ?_
  refine congrArg Except.ok ?_
  simp only [common_fL _ _ _ _ hk]

theorem vmulh (t : Ty) (o : LaneOp) : Statement (.vmulh t o) := by
  refine lane_trip _ _ _ _ rfl rfl rfl ?_
  intro hc
  have hk := km_ok_of_check _ _ hc
  refine (class0 _ t rfl (show (0x004 : BitVec 12).toNat / 128 = 0 from by decide)).trans ?_
  refine congrArg Except.ok ?_
  simp only [common_fL _ _ _ _ hk]

theorem vmad (t : Ty) (sat : Bool) (o : LaneOp) : Statement (.vmad t sat o) := by
  refine lane_trip _ _ _ _ rfl rfl rfl ?_
  intro hc
  have hk := km_ok_of_check _ _ hc
  refine (class0 _ t rfl (show (0x005 : BitVec 12).toNat / 128 = 0 from by decide)).trans ?_
  refine congrArg Except.ok ?_
  simp only [common_fL _ _ _ _ hk, LWord.b23, md_fL, md23_flag]

theorem vand (o : LaneOp) : Statement (.vand o) := by
  refine lane_trip _ _ _ _ rfl rfl rfl ?_
  intro hc
  have hk := km_ok_of_check _ _ hc
  refine (class0 _ Ty.b32 rfl (show (0x008 : BitVec 12).toNat / 128 = 0 from by decide)).trans ?_
  refine congrArg Except.ok ?_
  simp only [common_fL _ _ _ _ hk]

theorem vor (o : LaneOp) : Statement (.vor o) := by
  refine lane_trip _ _ _ _ rfl rfl rfl ?_
  intro hc
  have hk := km_ok_of_check _ _ hc
  refine (class0 _ Ty.b32 rfl (show (0x009 : BitVec 12).toNat / 128 = 0 from by decide)).trans ?_
  refine congrArg Except.ok ?_
  simp only [common_fL _ _ _ _ hk]

theorem vxor (o : LaneOp) : Statement (.vxor o) := by
  refine lane_trip _ _ _ _ rfl rfl rfl ?_
  intro hc
  have hk := km_ok_of_check _ _ hc
  refine (class0 _ Ty.b32 rfl (show (0x00a : BitVec 12).toNat / 128 = 0 from by decide)).trans ?_
  refine congrArg Except.ok ?_
  simp only [common_fL _ _ _ _ hk]

theorem vandn (o : LaneOp) : Statement (.vandn o) := by
  refine lane_trip _ _ _ _ rfl rfl rfl ?_
  intro hc
  have hk := km_ok_of_check _ _ hc
  refine (class0 _ Ty.b32 rfl (show (0x00b : BitVec 12).toNat / 128 = 0 from by decide)).trans ?_
  refine congrArg Except.ok ?_
  simp only [common_fL _ _ _ _ hk]

theorem vshl (t : Ty) (o : LaneOp) : Statement (.vshl t o) := by
  refine lane_trip _ _ _ _ rfl rfl rfl ?_
  intro hc
  have hk := km_ok_of_check _ _ hc
  refine (class0 _ t rfl (show (0x00c : BitVec 12).toNat / 128 = 0 from by decide)).trans ?_
  refine congrArg Except.ok ?_
  simp only [common_fL _ _ _ _ hk]

theorem vshr (t : Ty) (o : LaneOp) : Statement (.vshr t o) := by
  refine lane_trip _ _ _ _ rfl rfl rfl ?_
  intro hc
  have hk := km_ok_of_check _ _ hc
  refine (class0 _ t rfl (show (0x00d : BitVec 12).toNat / 128 = 0 from by decide)).trans ?_
  refine congrArg Except.ok ?_
  simp only [common_fL _ _ _ _ hk]

theorem vsar (t : Ty) (o : LaneOp) : Statement (.vsar t o) := by
  refine lane_trip _ _ _ _ rfl rfl rfl ?_
  intro hc
  have hk := km_ok_of_check _ _ hc
  refine (class0 _ t rfl (show (0x00e : BitVec 12).toNat / 128 = 0 from by decide)).trans ?_
  refine congrArg Except.ok ?_
  simp only [common_fL _ _ _ _ hk]

theorem vmin (t : Ty) (o : LaneOp) : Statement (.vmin t o) := by
  refine lane_trip _ _ _ _ rfl rfl rfl ?_
  intro hc
  have hk := km_ok_of_check _ _ hc
  refine (class0 _ t rfl (show (0x010 : BitVec 12).toNat / 128 = 0 from by decide)).trans ?_
  refine congrArg Except.ok ?_
  simp only [common_fL _ _ _ _ hk]

theorem vmax (t : Ty) (o : LaneOp) : Statement (.vmax t o) := by
  refine lane_trip _ _ _ _ rfl rfl rfl ?_
  intro hc
  have hk := km_ok_of_check _ _ hc
  refine (class0 _ t rfl (show (0x011 : BitVec 12).toNat / 128 = 0 from by decide)).trans ?_
  refine congrArg Except.ok ?_
  simp only [common_fL _ _ _ _ hk]

theorem vabs (t : Ty) (sat : Bool) (o : LaneOp) : Statement (.vabs t sat o) := by
  refine lane_trip _ _ _ _ rfl rfl rfl ?_
  intro hc
  have hk := km_ok_of_check _ _ hc
  refine (class0 _ t rfl (show (0x012 : BitVec 12).toNat / 128 = 0 from by decide)).trans ?_
  refine congrArg Except.ok ?_
  simp only [common_fL _ _ _ _ hk, LWord.b23, md_fL, md23_flag]

theorem vaddmin (t : Ty) (sat : Bool) (o : LaneOp) : Statement (.vaddmin t sat o) := by
  refine lane_trip _ _ _ _ rfl rfl rfl ?_
  intro hc
  have hk := km_ok_of_check _ _ hc
  refine (class0 _ t rfl (show (0x020 : BitVec 12).toNat / 128 = 0 from by decide)).trans ?_
  refine congrArg Except.ok ?_
  simp only [common_fL _ _ _ _ hk, LWord.b23, md_fL, md23_flag]

theorem vaddmax (t : Ty) (sat : Bool) (o : LaneOp) : Statement (.vaddmax t sat o) := by
  refine lane_trip _ _ _ _ rfl rfl rfl ?_
  intro hc
  have hk := km_ok_of_check _ _ hc
  refine (class0 _ t rfl (show (0x021 : BitVec 12).toNat / 128 = 0 from by decide)).trans ?_
  refine congrArg Except.ok ?_
  simp only [common_fL _ _ _ _ hk, LWord.b23, md_fL, md23_flag]

theorem vclz (o : LaneOp) : Statement (.vclz o) := by
  refine lane_trip _ _ _ _ rfl rfl rfl ?_
  intro hc
  have hk := km_ok_of_check _ _ hc
  refine (class0 _ Ty.b32 rfl (show (0x013 : BitVec 12).toNat / 128 = 0 from by decide)).trans ?_
  refine congrArg Except.ok ?_
  simp only [common_fL _ _ _ _ hk]

theorem vpopc (o : LaneOp) : Statement (.vpopc o) := by
  refine lane_trip _ _ _ _ rfl rfl rfl ?_
  intro hc
  have hk := km_ok_of_check _ _ hc
  refine (class0 _ Ty.b32 rfl (show (0x014 : BitVec 12).toNat / 128 = 0 from by decide)).trans ?_
  refine congrArg Except.ok ?_
  simp only [common_fL _ _ _ _ hk]

theorem vbfx (t : Ty) (o : LaneOp) : Statement (.vbfx t o) := by
  refine lane_trip _ _ _ _ rfl rfl rfl ?_
  intro hc
  have hk := km_ok_of_check _ _ hc
  refine (class0 _ t rfl (show (0x018 : BitVec 12).toNat / 128 = 0 from by decide)).trans ?_
  refine congrArg Except.ok ?_
  simp only [common_fL _ _ _ _ hk]

theorem vbfi (o : LaneOp) : Statement (.vbfi o) := by
  refine lane_trip _ _ _ _ rfl rfl rfl ?_
  intro hc
  have hk := km_ok_of_check _ _ hc
  refine (class0 _ Ty.b32 rfl (show (0x019 : BitVec 12).toNat / 128 = 0 from by decide)).trans ?_
  refine congrArg Except.ok ?_
  simp only [common_fL _ _ _ _ hk]

theorem vsel (k : KReg) (o : LaneOp) : Statement (.vsel k o) := by
  refine lane_trip _ _ _ _ rfl rfl rfl ?_
  intro hc
  have hk := km_ok_of_check _ _ hc
  refine (class0 _ Ty.b32 rfl (show (0x01a : BitVec 12).toNat / 128 = 0 from by decide)).trans ?_
  refine congrArg Except.ok ?_
  simp only [common_fL _ _ _ _ hk, LWord.m, md_fL, Nat.reduceSub, mdSel_code]

theorem vsad (t : Ty) (o : LaneOp) : Statement (.vsad t o) := by
  refine lane_trip _ _ _ _ rfl rfl rfl ?_
  intro hc
  have hk := km_ok_of_check _ _ hc
  refine (class0 _ t rfl (show (0x022 : BitVec 12).toNat / 128 = 0 from by decide)).trans ?_
  refine congrArg Except.ok ?_
  simp only [common_fL _ _ _ _ hk]

theorem vcmp (cc : Cc) (t : Ty) (o : LaneOp) : Statement (.vcmp cc t o) := by
  refine lane_trip _ _ _ _ rfl rfl rfl ?_
  intro hc
  have hk := km_ok_of_check _ _ hc
  refine (class0 _ t rfl (show (0x01b : BitVec 12).toNat / 128 = 0 from by decide)).trans ?_
  refine (withCode_of _ cc ((congrArg ccOf (mdCc_code _)).trans (ccOf_code cc)) _).trans ?_
  refine congrArg Except.ok ?_
  simp only [common_fL _ _ _ _ hk]

theorem vcvt (td : Ty) (ts : Ty) (sat : Bool) (ed : BitVec 2) (es : BitVec 2) (o : LaneOp) : Statement (.vcvt td ts sat ed es o) := by
  refine lane_trip _ _ _ _ rfl rfl rfl ?_
  intro hc
  have hk := km_ok_of_check _ _ hc
  refine (class0 _ ts rfl (show (0x030 : BitVec 12).toNat / 128 = 0 from by decide)).trans ?_
  refine (withTy_of _ td (mdConv_ty _ _ _ _) _).trans ?_
  refine congrArg Except.ok ?_
  have hi := imm_of_conv _ _ _ _ _ _ hc
  rw [convOp_fConv _ _ _ _ _ _ _ _ hk hi]
  simp only [LWord.m, LWord.b23, fConv, fL, mdConv_es, mdConv_flag, trunc220, Nat.reduceSub]

theorem fadd (t : Ty) (rm : Rm) (o : LaneOp) : Statement (.fadd t rm o) := by
  refine lane_trip _ _ _ _ rfl rfl rfl ?_
  intro hc
  have hk := km_ok_of_check _ _ hc
  refine (class2 _ t rfl (show (0x100 : BitVec 12).toNat / 128 = 2 from by decide)).trans ?_
  refine (withCode_of _ rm (mdRm_rm rm) _).trans ?_
  refine congrArg Except.ok ?_
  simp only [common_fL _ _ _ _ hk]

theorem fsub (t : Ty) (rm : Rm) (o : LaneOp) : Statement (.fsub t rm o) := by
  refine lane_trip _ _ _ _ rfl rfl rfl ?_
  intro hc
  have hk := km_ok_of_check _ _ hc
  refine (class2 _ t rfl (show (0x101 : BitVec 12).toNat / 128 = 2 from by decide)).trans ?_
  refine (withCode_of _ rm (mdRm_rm rm) _).trans ?_
  refine congrArg Except.ok ?_
  simp only [common_fL _ _ _ _ hk]

theorem fmul (t : Ty) (rm : Rm) (o : LaneOp) : Statement (.fmul t rm o) := by
  refine lane_trip _ _ _ _ rfl rfl rfl ?_
  intro hc
  have hk := km_ok_of_check _ _ hc
  refine (class2 _ t rfl (show (0x102 : BitVec 12).toNat / 128 = 2 from by decide)).trans ?_
  refine (withCode_of _ rm (mdRm_rm rm) _).trans ?_
  refine congrArg Except.ok ?_
  simp only [common_fL _ _ _ _ hk]

theorem ffma (t : Ty) (rm : Rm) (o : LaneOp) : Statement (.ffma t rm o) := by
  refine lane_trip _ _ _ _ rfl rfl rfl ?_
  intro hc
  have hk := km_ok_of_check _ _ hc
  refine (class2 _ t rfl (show (0x103 : BitVec 12).toNat / 128 = 2 from by decide)).trans ?_
  refine (withCode_of _ rm (mdRm_rm rm) _).trans ?_
  refine congrArg Except.ok ?_
  simp only [common_fL _ _ _ _ hk]

theorem fmin (t : Ty) (o : LaneOp) : Statement (.fmin t o) := by
  refine lane_trip _ _ _ _ rfl rfl rfl ?_
  intro hc
  have hk := km_ok_of_check _ _ hc
  refine (class2 _ t rfl (show (0x104 : BitVec 12).toNat / 128 = 2 from by decide)).trans ?_
  refine congrArg Except.ok ?_
  simp only [common_fL _ _ _ _ hk]

theorem fmax (t : Ty) (o : LaneOp) : Statement (.fmax t o) := by
  refine lane_trip _ _ _ _ rfl rfl rfl ?_
  intro hc
  have hk := km_ok_of_check _ _ hc
  refine (class2 _ t rfl (show (0x105 : BitVec 12).toNat / 128 = 2 from by decide)).trans ?_
  refine congrArg Except.ok ?_
  simp only [common_fL _ _ _ _ hk]

theorem fcmp (cc : FCc) (o : LaneOp) : Statement (.fcmp cc o) := by
  refine lane_trip _ _ _ _ rfl rfl rfl ?_
  intro hc
  have hk := km_ok_of_check _ _ hc
  refine (class2 _ Ty.f32 rfl (show (0x106 : BitVec 12).toNat / 128 = 2 from by decide)).trans ?_
  refine (withCode_of _ cc ((congrArg fccOf (mdCc_code _)).trans (fccOf_code cc)) _).trans ?_
  refine congrArg Except.ok ?_
  simp only [common_fL _ _ _ _ hk]

theorem frcp (t : Ty) (o : LaneOp) : Statement (.frcp t o) := by
  refine lane_trip _ _ _ _ rfl rfl rfl ?_
  intro hc
  have hk := km_ok_of_check _ _ hc
  refine (class2 _ t rfl (show (0x110 : BitVec 12).toNat / 128 = 2 from by decide)).trans ?_
  refine congrArg Except.ok ?_
  simp only [common_fL _ _ _ _ hk]

theorem frsq (t : Ty) (o : LaneOp) : Statement (.frsq t o) := by
  refine lane_trip _ _ _ _ rfl rfl rfl ?_
  intro hc
  have hk := km_ok_of_check _ _ hc
  refine (class2 _ t rfl (show (0x111 : BitVec 12).toNat / 128 = 2 from by decide)).trans ?_
  refine congrArg Except.ok ?_
  simp only [common_fL _ _ _ _ hk]

theorem fsqrt (t : Ty) (o : LaneOp) : Statement (.fsqrt t o) := by
  refine lane_trip _ _ _ _ rfl rfl rfl ?_
  intro hc
  have hk := km_ok_of_check _ _ hc
  refine (class2 _ t rfl (show (0x112 : BitVec 12).toNat / 128 = 2 from by decide)).trans ?_
  refine congrArg Except.ok ?_
  simp only [common_fL _ _ _ _ hk]

theorem fexp2 (t : Ty) (o : LaneOp) : Statement (.fexp2 t o) := by
  refine lane_trip _ _ _ _ rfl rfl rfl ?_
  intro hc
  have hk := km_ok_of_check _ _ hc
  refine (class2 _ t rfl (show (0x113 : BitVec 12).toNat / 128 = 2 from by decide)).trans ?_
  refine congrArg Except.ok ?_
  simp only [common_fL _ _ _ _ hk]

theorem flog2 (t : Ty) (o : LaneOp) : Statement (.flog2 t o) := by
  refine lane_trip _ _ _ _ rfl rfl rfl ?_
  intro hc
  have hk := km_ok_of_check _ _ hc
  refine (class2 _ t rfl (show (0x114 : BitVec 12).toNat / 128 = 2 from by decide)).trans ?_
  refine congrArg Except.ok ?_
  simp only [common_fL _ _ _ _ hk]

theorem fcvt (td : Ty) (ts : Ty) (rm : Rm) (sf : Bool) (ed : BitVec 2) (es : BitVec 2) (o : LaneOp) : Statement (.fcvt td ts rm sf ed es o) := by
  refine lane_trip _ _ _ _ rfl rfl rfl ?_
  intro hc
  have hk := km_ok_of_check _ _ hc
  refine (class2 _ ts rfl (show (0x120 : BitVec 12).toNat / 128 = 2 from by decide)).trans ?_
  refine (withTy_of _ td (mdConv_ty _ _ _ _) _).trans ?_
  refine (withCode_of _ rm ((congrArg rmOf (mdConv_rm _ _ _ _)).trans (rmOf_code rm)) _).trans ?_
  refine congrArg Except.ok ?_
  have hi := imm_of_conv _ _ _ _ _ _ hc
  rw [convOp_fConv _ _ _ _ _ _ _ _ hk hi]
  simp only [LWord.m, LWord.b23, fConv, fL, mdConv_es, mdConv_flag, trunc220, Nat.reduceSub]

theorem fint (t : Ty) (rm : Rm) (o : LaneOp) : Statement (.fint t rm o) := by
  refine lane_trip _ _ _ _ rfl rfl rfl ?_
  intro hc
  have hk := km_ok_of_check _ _ hc
  refine (class2 _ t rfl (show (0x121 : BitVec 12).toNat / 128 = 2 from by decide)).trans ?_
  refine (withCode_of _ rm (mdRm_rm rm) _).trans ?_
  refine congrArg Except.ok ?_
  simp only [common_fL _ _ _ _ hk]

theorem vshfl (m : ShMode) (o : LaneOp) : Statement (.vshfl m o) := by
  refine lane_trip _ _ _ _ rfl rfl rfl ?_
  intro hc
  have hk := km_ok_of_check _ _ hc
  refine (class4 _ Ty.b32 rfl (show (0x200 : BitVec 12).toNat / 128 = 4 from by decide)).trans ?_
  refine (withCode_of _ m ((congrArg shOf (md2_code _)).trans (shOf_code m)) _).trans ?_
  refine congrArg Except.ok ?_
  simp only [common_fL _ _ _ _ hk]

theorem vshift (dn : Bool) (o : LaneOp) : Statement (.vshift dn o) := by
  refine lane_trip _ _ _ _ rfl rfl rfl ?_
  intro hc
  have hk := km_ok_of_check _ _ hc
  refine (class4 _ Ty.b32 rfl (show (0x201 : BitVec 12).toNat / 128 = 4 from by decide)).trans ?_
  refine congrArg Except.ok ?_
  simp only [common_fL _ _ _ _ hk, LWord.b24, md_fL, md24_flag]

theorem vrot (dn : Bool) (o : LaneOp) : Statement (.vrot dn o) := by
  refine lane_trip _ _ _ _ rfl rfl rfl ?_
  intro hc
  have hk := km_ok_of_check _ _ hc
  refine (class4 _ Ty.b32 rfl (show (0x202 : BitVec 12).toNat / 128 = 4 from by decide)).trans ?_
  refine congrArg Except.ok ?_
  simp only [common_fL _ _ _ _ hk, LWord.b24, md_fL, md24_flag]

theorem vbcast (o : LaneOp) : Statement (.vbcast o) := by
  refine lane_trip _ _ _ _ rfl rfl rfl ?_
  intro hc
  have hk := km_ok_of_check _ _ hc
  refine (class4 _ Ty.b32 rfl (show (0x203 : BitVec 12).toNat / 128 = 4 from by decide)).trans ?_
  refine congrArg Except.ok ?_
  simp only [common_fL _ _ _ _ hk]

theorem voteK (o : LaneOp) : Statement (.voteK o) := by
  refine lane_trip _ _ _ _ rfl rfl rfl ?_
  intro hc
  have hk := km_ok_of_check _ _ hc
  refine (class4 _ Ty.b32 rfl (show (0x210 : BitVec 12).toNat / 128 = 4 from by decide)).trans ?_
  show parseVote _ = _
  unfold parseVote
  rw [show LWord.m (fL 0x210 .b32 (mdSel 0) o) 24 3 = (0 : BitVec 3) from mdSel_code _]
  refine congrArg Except.ok ?_
  simp only [common_fL _ _ _ _ hk]

theorem voteBallot (o : LaneOp) : Statement (.voteBallot o) := by
  refine lane_trip _ _ _ _ rfl rfl rfl ?_
  intro hc
  have hk := km_ok_of_check _ _ hc
  refine (class4 _ Ty.b32 rfl (show (0x210 : BitVec 12).toNat / 128 = 4 from by decide)).trans ?_
  show parseVote _ = _
  unfold parseVote
  rw [show LWord.m (fL 0x210 .b32 (mdSel 1) o) 24 3 = (1 : BitVec 3) from mdSel_code _]
  refine congrArg Except.ok ?_
  simp only [common_fL _ _ _ _ hk]

theorem voteAny (o : LaneOp) : Statement (.voteAny o) := by
  refine lane_trip _ _ _ _ rfl rfl rfl ?_
  intro hc
  have hk := km_ok_of_check _ _ hc
  refine (class4 _ Ty.b32 rfl (show (0x210 : BitVec 12).toNat / 128 = 4 from by decide)).trans ?_
  show parseVote _ = _
  unfold parseVote
  rw [show LWord.m (fL 0x210 .b32 (mdSel 2) o) 24 3 = (2 : BitVec 3) from mdSel_code _]
  refine congrArg Except.ok ?_
  simp only [common_fL _ _ _ _ hk]

theorem voteAll (o : LaneOp) : Statement (.voteAll o) := by
  refine lane_trip _ _ _ _ rfl rfl rfl ?_
  intro hc
  have hk := km_ok_of_check _ _ hc
  refine (class4 _ Ty.b32 rfl (show (0x210 : BitVec 12).toNat / 128 = 4 from by decide)).trans ?_
  show parseVote _ = _
  unfold parseVote
  rw [show LWord.m (fL 0x210 .b32 (mdSel 3) o) 24 3 = (3 : BitVec 3) from mdSel_code _]
  refine congrArg Except.ok ?_
  simp only [common_fL _ _ _ _ hk]

theorem voteCount (o : LaneOp) : Statement (.voteCount o) := by
  refine lane_trip _ _ _ _ rfl rfl rfl ?_
  intro hc
  have hk := km_ok_of_check _ _ hc
  refine (class4 _ Ty.b32 rfl (show (0x210 : BitVec 12).toNat / 128 = 4 from by decide)).trans ?_
  show parseVote _ = _
  unfold parseVote
  rw [show LWord.m (fL 0x210 .b32 (mdSel 4) o) 24 3 = (4 : BitVec 3) from mdSel_code _]
  refine congrArg Except.ok ?_
  simp only [common_fL _ _ _ _ hk]

theorem vred (op : RedOp) (t : Ty) (o : LaneOp) : Statement (.vred op t o) := by
  refine lane_trip _ _ _ _ rfl rfl rfl ?_
  intro hc
  have hk := km_ok_of_check _ _ hc
  refine (class4 _ t rfl (show (0x211 : BitVec 12).toNat / 128 = 4 from by decide)).trans ?_
  refine (withCode_of _ op (mdRed_op op _) _).trans ?_
  simp only [LWord.b24, md_fL, mdRed_flag, common_fL _ _ _ _ hk]; rfl

theorem vredV (op : RedOp) (t : Ty) (o : LaneOp) : Statement (.vredV op t o) := by
  refine lane_trip _ _ _ _ rfl rfl rfl ?_
  intro hc
  have hk := km_ok_of_check _ _ hc
  refine (class4 _ t rfl (show (0x211 : BitVec 12).toNat / 128 = 4 from by decide)).trans ?_
  refine (withCode_of _ op (mdRed_op op _) _).trans ?_
  simp only [LWord.b24, md_fL, mdRed_flag, common_fL _ _ _ _ hk]; rfl

theorem vscan (op : RedOp) (t : Ty) (ex : Bool) (o : LaneOp) : Statement (.vscan op t ex o) := by
  refine lane_trip _ _ _ _ rfl rfl rfl ?_
  intro hc
  have hk := km_ok_of_check _ _ hc
  refine (class4 _ t rfl (show (0x212 : BitVec 12).toNat / 128 = 4 from by decide)).trans ?_
  refine (withCode_of _ op (mdRed_op op _) _).trans ?_
  refine congrArg Except.ok ?_
  simp only [common_fL _ _ _ _ hk, LWord.b24, md_fL, mdRed_flag]

theorem mmaF (tb : Ty) (ta : Ty) (fix : Bool) (c : BitVec 3) (o : LaneOp) : Statement (.mmaF tb ta fix c o) := by
  refine lane_trip _ _ _ _ rfl rfl rfl ?_
  intro hc
  have hk := km_ok_of_check _ _ hc
  refine (class5 _ ta rfl (show (0x280 : BitVec 12).toNat / 128 = 5 from by decide)).trans ?_
  refine (withTy_of _ tb (mdMma_ty _ _ _) _).trans ?_
  refine congrArg Except.ok ?_
  simp only [common_fL _ _ _ _ hk, LWord.m, md_fL, Nat.reduceSub, mdMma_fix, mdMma_c]

theorem mmaH (ta : Ty) (fix : Bool) (c : BitVec 3) (o : LaneOp) : Statement (.mmaH ta fix c o) := by
  refine lane_trip _ _ _ _ rfl rfl rfl ?_
  intro hc
  have hk := km_ok_of_check _ _ hc
  refine (class5 _ ta rfl (show (0x281 : BitVec 12).toNat / 128 = 5 from by decide)).trans ?_
  refine congrArg Except.ok ?_
  simp only [common_fL _ _ _ _ hk, LWord.m, md_fL, Nat.reduceSub, mdMma_fix, mdMma_c]

theorem mmaI (tb : Ty) (ta : Ty) (fix : Bool) (c : BitVec 3) (o : LaneOp) : Statement (.mmaI tb ta fix c o) := by
  refine lane_trip _ _ _ _ rfl rfl rfl ?_
  intro hc
  have hk := km_ok_of_check _ _ hc
  refine (class5 _ ta rfl (show (0x282 : BitVec 12).toNat / 128 = 5 from by decide)).trans ?_
  refine (withTy_of _ tb (mdMma_ty _ _ _) _).trans ?_
  refine congrArg Except.ok ?_
  simp only [common_fL _ _ _ _ hk, LWord.m, md_fL, Nat.reduceSub, mdMma_fix, mdMma_c]

theorem mzero (o : LaneOp) : Statement (.mzero o) := by
  refine lane_trip _ _ _ _ rfl rfl rfl ?_
  intro hc
  have hk := km_ok_of_check _ _ hc
  refine (class5 _ Ty.none rfl (show (0x288 : BitVec 12).toNat / 128 = 5 from by decide)).trans ?_
  refine congrArg Except.ok ?_
  simp only [common_fL _ _ _ _ hk]

theorem mfrag (roleB : Bool) (t : Ty) (k64 : Bool) (o : LaneOp) : Statement (.mfrag roleB t k64 o) := by
  refine lane_trip _ _ _ _ rfl rfl rfl ?_
  intro hc
  have hk := km_ok_of_check _ _ hc
  refine (class5 _ t rfl (show (0x289 : BitVec 12).toNat / 128 = 5 from by decide)).trans ?_
  refine congrArg Except.ok ?_
  simp only [common_fL _ _ _ _ hk, LWord.b23, LWord.b24, md_fL, mdFrag_role, mdFrag_k64]

theorem mtr (roleB : Bool) (t : Ty) (k64 : Bool) (o : LaneOp) : Statement (.mtr roleB t k64 o) := by
  refine lane_trip _ _ _ _ rfl rfl rfl ?_
  intro hc
  have hk := km_ok_of_check _ _ hc
  refine (class5 _ t rfl (show (0x28a : BitVec 12).toNat / 128 = 5 from by decide)).trans ?_
  refine congrArg Except.ok ?_
  simp only [common_fL _ _ _ _ hk, LWord.b23, LWord.b24, md_fL, mdFrag_role, mdFrag_k64]

theorem maccLd (o : LaneOp) : Statement (.maccLd o) := by
  refine lane_trip _ _ _ _ rfl rfl rfl ?_
  intro hc
  have hk := km_ok_of_check _ _ hc
  refine (class5 _ Ty.b32 rfl (show (0x28b : BitVec 12).toNat / 128 = 5 from by decide)).trans ?_
  show parseMacc _ _ = _
  unfold parseMacc
  rw [show LWord.m (fL 0x28b .b32 (md2 0) o) 24 2 = (0 : BitVec 2) from md2_code _]
  refine congrArg Except.ok ?_
  simp only [common_fL _ _ _ _ hk]

theorem maccSt (o : LaneOp) : Statement (.maccSt o) := by
  refine lane_trip _ _ _ _ rfl rfl rfl ?_
  intro hc
  have hk := km_ok_of_check _ _ hc
  refine (class5 _ Ty.b32 rfl (show (0x28b : BitVec 12).toNat / 128 = 5 from by decide)).trans ?_
  show parseMacc _ _ = _
  unfold parseMacc
  rw [show LWord.m (fL 0x28b .b32 (md2 1) o) 24 2 = (1 : BitVec 2) from md2_code _]
  refine congrArg Except.ok ?_
  simp only [common_fL _ _ _ _ hk]

theorem maccAdd (t : Ty) (o : LaneOp) : Statement (.maccAdd t o) := by
  refine lane_trip _ _ _ _ rfl rfl rfl ?_
  intro hc
  have hk := km_ok_of_check _ _ hc
  refine (class5 _ t rfl (show (0x28b : BitVec 12).toNat / 128 = 5 from by decide)).trans ?_
  show parseMacc _ _ = _
  unfold parseMacc
  rw [show LWord.m (fL 0x28b t (md2 2) o) 24 2 = (2 : BitVec 2) from md2_code _]
  refine congrArg Except.ok ?_
  simp only [common_fL _ _ _ _ hk]

theorem crt (o : LaneOp) : Statement (.crt o) := by
  refine lane_trip _ _ _ _ rfl rfl rfl ?_
  intro hc
  have hk := km_ok_of_check _ _ hc
  refine (class6 _ Ty.rw rfl (show (0x300 : BitVec 12).toNat / 128 = 6 from by decide)).trans ?_
  show parseCrt _ = _
  unfold parseCrt
  rw [show LWord.m (fL 0x300 .rw (md2 0) o) 24 2 = (0 : BitVec 2) from md2_code _]
  refine congrArg Except.ok ?_
  simp only [common_fL _ _ _ _ hk]

theorem crtAcc (clr : Bool) (o : LaneOp) : Statement (.crtAcc clr o) := by
  refine lane_trip _ _ _ _ rfl rfl rfl ?_
  intro hc
  have hk := km_ok_of_check _ _ hc
  refine (class6 _ Ty.rw rfl (show (0x300 : BitVec 12).toNat / 128 = 6 from by decide)).trans ?_
  show parseCrt _ = _
  cases clr
  · unfold parseCrt
    rw [show LWord.m (fL 0x300 .rw (md2 (if false = true then 2 else 1)) o) 24 2 = (1 : BitVec 2) from md2_code _]
    refine congrArg Except.ok ?_
    simp only [common_fL _ _ _ _ hk]
  · unfold parseCrt
    rw [show LWord.m (fL 0x300 .rw (md2 (if true = true then 2 else 1)) o) 24 2 = (2 : BitVec 2) from md2_code _]
    refine congrArg Except.ok ?_
    simp only [common_fL _ _ _ _ hk]

theorem rwadd (o : LaneOp) : Statement (.rwadd o) := by
  refine lane_trip _ _ _ _ rfl rfl rfl ?_
  intro hc
  have hk := km_ok_of_check _ _ hc
  refine (class6 _ Ty.rw rfl (show (0x301 : BitVec 12).toNat / 128 = 6 from by decide)).trans ?_
  refine congrArg Except.ok ?_
  simp only [common_fL _ _ _ _ hk]

theorem rwfrom (o : LaneOp) : Statement (.rwfrom o) := by
  refine lane_trip _ _ _ _ rfl rfl rfl ?_
  intro hc
  have hk := km_ok_of_check _ _ hc
  refine (class6 _ Ty.i32 rfl (show (0x302 : BitVec 12).toNat / 128 = 6 from by decide)).trans ?_
  refine congrArg Except.ok ?_
  simp only [common_fL _ _ _ _ hk]

theorem sacc (pt : BitVec 7) (rb : BitVec 2) (cb : BitVec 2) (o : LaneOp) : Statement (.sacc pt rb cb o) := by
  refine lane_trip _ _ _ _ rfl rfl rfl ?_
  intro hc
  have hk := km_ok_of_check _ _ hc
  refine (class6 _ Ty.i32 rfl (show (0x308 : BitVec 12).toNat / 128 = 6 from by decide)).trans ?_
  refine congrArg Except.ok ?_
  simp only [common_fL _ _ _ _ hk, LWord.m, md_fL, Nat.reduceSub, mdSacc_pt, mdSacc_rb, mdSacc_cb]

theorem fxzero (o : LaneOp) : Statement (.fxzero o) := by
  refine lane_trip _ _ _ _ rfl rfl rfl ?_
  intro hc
  have hk := km_ok_of_check _ _ hc
  refine (class6 _ Ty.fx rfl (show (0x310 : BitVec 12).toNat / 128 = 6 from by decide)).trans ?_
  refine congrArg Except.ok ?_
  simp only [common_fL _ _ _ _ hk]

theorem fxadd (t : Ty) (pt : BitVec 7) (o : LaneOp) : Statement (.fxadd t pt o) := by
  refine lane_trip _ _ _ _ rfl rfl rfl ?_
  intro hc
  have hk := km_ok_of_check _ _ hc
  refine (class6 _ t rfl (show (0x311 : BitVec 12).toNat / 128 = 6 from by decide)).trans ?_
  refine congrArg Except.ok ?_
  simp only [common_fL _ _ _ _ hk, LWord.m, md_fL, Nat.reduceSub, mdFx_pt]

theorem fxcvt (t : Ty) (pt : BitVec 7) (clr : Bool) (rm : Rm) (o : LaneOp) : Statement (.fxcvt t pt clr rm o) := by
  refine lane_trip _ _ _ _ rfl rfl rfl ?_
  intro hc
  have hk := km_ok_of_check _ _ hc
  refine (class6 _ t rfl (show (0x312 : BitVec 12).toNat / 128 = 6 from by decide)).trans ?_
  refine (withCode_of _ rm ((congrArg rmOf (mdFx_rm _ _ _)).trans (rmOf_code rm)) _).trans ?_
  refine congrArg Except.ok ?_
  simp only [common_fL _ _ _ _ hk, LWord.m, LWord.b24, md_fL, Nat.reduceSub, mdFx_pt, mdFx_clr]

theorem sbmax (t : Ty) (oct : Bool) (o : LaneOp) : Statement (.sbmax t oct o) := by
  refine lane_trip _ _ _ _ rfl rfl rfl ?_
  intro hc
  have hk := km_ok_of_check _ _ hc
  refine (class6 _ t rfl (show (0x318 : BitVec 12).toNat / 128 = 6 from by decide)).trans ?_
  refine congrArg Except.ok ?_
  simp only [common_fL _ _ _ _ hk, LWord.b24, md_fL, md24_flag]

theorem sbcvt (t : Ty) (sel : BitVec 2) (o : LaneOp) : Statement (.sbcvt t sel o) := by
  refine lane_trip _ _ _ _ rfl rfl rfl ?_
  intro hc
  have hk := km_ok_of_check _ _ hc
  refine (class6 _ Ty.f32 rfl (show (0x319 : BitVec 12).toNat / 128 = 6 from by decide)).trans ?_
  refine (withTy_of _ t (mdNar_ty _ _ _) _).trans ?_
  refine congrArg Except.ok ?_
  simp only [common_fL _ _ _ _ hk, LWord.m, md_fL, Nat.reduceSub, mdNar_sel]

theorem qnt (t : Ty) (sel : BitVec 2) (rm : Rm) (o : LaneOp) : Statement (.qnt t sel rm o) := by
  refine lane_trip _ _ _ _ rfl rfl rfl ?_
  intro hc
  have hk := km_ok_of_check _ _ hc
  refine (class6 _ Ty.f32 rfl (show (0x320 : BitVec 12).toNat / 128 = 6 from by decide)).trans ?_
  refine (withTy_of _ t (mdNar_ty _ _ _) _).trans ?_
  refine (withCode_of _ rm ((congrArg rmOf (mdNar_rm _ _ _)).trans (rmOf_code rm)) _).trans ?_
  refine congrArg Except.ok ?_
  simp only [common_fL _ _ _ _ hk, LWord.m, md_fL, Nat.reduceSub, mdNar_sel]

theorem dqnt (t : Ty) (sel : BitVec 2) (o : LaneOp) : Statement (.dqnt t sel o) := by
  refine lane_trip _ _ _ _ rfl rfl rfl ?_
  intro hc
  have hk := km_ok_of_check _ _ hc
  refine (class6 _ t rfl (show (0x321 : BitVec 12).toNat / 128 = 6 from by decide)).trans ?_
  refine congrArg Except.ok ?_
  simp only [common_fL _ _ _ _ hk, LWord.m, md_fL, Nat.reduceSub, mdNar_sel]

theorem olx (o : LaneOp) : Statement (.olx o) := by
  refine lane_trip _ _ _ _ rfl rfl rfl ?_
  intro hc
  have hk := km_ok_of_check _ _ hc
  refine (class6 _ Ty.f32 rfl (show (0x322 : BitVec 12).toNat / 128 = 6 from by decide)).trans ?_
  refine congrArg Except.ok ?_
  simp only [common_fL _ _ _ _ hk]

theorem vld (t : Ty) (f : AddrForm) (o : LaneOp) : Statement (.vld t f o) := by
  refine lane_trip _ _ _ _ rfl rfl rfl ?_
  intro hc
  have hk := km_ok_of_check _ _ hc
  refine (class7 _ t rfl (show (0x380 : BitVec 12).toNat / 128 = 7 from by decide)).trans ?_
  refine congrArg Except.ok ?_
  simp only [common_fL _ _ _ _ hk, LWord.m, LWord.form, md_fL, Nat.reduceSub, mdMem_sc, mdMem_un]

theorem vst (t : Ty) (f : AddrForm) (o : LaneOp) : Statement (.vst t f o) := by
  refine lane_trip _ _ _ _ rfl rfl rfl ?_
  intro hc
  have hk := km_ok_of_check _ _ hc
  refine (class7 _ t rfl (show (0x381 : BitVec 12).toNat / 128 = 7 from by decide)).trans ?_
  refine congrArg Except.ok ?_
  simp only [common_fL _ _ _ _ hk, LWord.m, LWord.form, md_fL, Nat.reduceSub, mdMem_sc, mdMem_un]

theorem vlds (t : Ty) (f : AddrForm) (o : LaneOp) : Statement (.vlds t f o) := by
  refine lane_trip _ _ _ _ rfl rfl rfl ?_
  intro hc
  have hk := km_ok_of_check _ _ hc
  refine (class7 _ t rfl (show (0x382 : BitVec 12).toNat / 128 = 7 from by decide)).trans ?_
  refine congrArg Except.ok ?_
  simp only [common_fL _ _ _ _ hk, LWord.m, LWord.form, md_fL, Nat.reduceSub, mdMem_sc, mdMem_un]

theorem vsts (t : Ty) (f : AddrForm) (o : LaneOp) : Statement (.vsts t f o) := by
  refine lane_trip _ _ _ _ rfl rfl rfl ?_
  intro hc
  have hk := km_ok_of_check _ _ hc
  refine (class7 _ t rfl (show (0x383 : BitVec 12).toNat / 128 = 7 from by decide)).trans ?_
  refine congrArg Except.ok ?_
  simp only [common_fL _ _ _ _ hk, LWord.m, LWord.form, md_fL, Nat.reduceSub, mdMem_sc, mdMem_un]

theorem vldr (c : BitVec 3) (sp : Bool) (f : AddrForm) (o : LaneOp) : Statement (.vldr c sp f o) := by
  refine lane_trip _ _ _ _ rfl rfl rfl ?_
  intro hc
  have hk := km_ok_of_check _ _ hc
  refine (class7 _ Ty.b32 rfl (show (0x384 : BitVec 12).toNat / 128 = 7 from by decide)).trans ?_
  refine congrArg Except.ok ?_
  simp only [common_fL _ _ _ _ hk, LWord.m, LWord.b23, LWord.form, md_fL, Nat.reduceSub, mdMem_code3, mdMem_sc, mdMem_un, mdMem_flag]

theorem vstr (c : BitVec 3) (sp : Bool) (f : AddrForm) (o : LaneOp) : Statement (.vstr c sp f o) := by
  refine lane_trip _ _ _ _ rfl rfl rfl ?_
  intro hc
  have hk := km_ok_of_check _ _ hc
  refine (class7 _ Ty.b32 rfl (show (0x385 : BitVec 12).toNat / 128 = 7 from by decide)).trans ?_
  refine congrArg Except.ok ?_
  simp only [common_fL _ _ _ _ hk, LWord.m, LWord.b23, LWord.form, md_fL, Nat.reduceSub, mdMem_code3, mdMem_sc, mdMem_un, mdMem_flag]

theorem vpf (l2 : Bool) (f : AddrForm) (o : LaneOp) : Statement (.vpf l2 f o) := by
  refine lane_trip _ _ _ _ rfl rfl rfl ?_
  intro hc
  have hk := km_ok_of_check _ _ hc
  refine (class7 _ Ty.none rfl (show (0x388 : BitVec 12).toNat / 128 = 7 from by decide)).trans ?_
  refine congrArg Except.ok ?_
  simp only [common_fL _ _ _ _ hk, LWord.m, LWord.b23, LWord.form, md_fL, Nat.reduceSub, mdMem_sc, mdMem_un, mdMem_flag]

theorem vfence (sc : Scope) (o : LaneOp) : Statement (.vfence sc o) := by
  refine lane_trip _ _ _ _ rfl rfl rfl ?_
  intro hc
  have hk := km_ok_of_check _ _ hc
  refine (class8 _ Ty.none rfl (show (0x400 : BitVec 12).toNat / 128 = 8 from by decide)).trans ?_
  refine (withCode_of _ sc (by cases sc <;> rfl) _).trans ?_
  refine congrArg Except.ok ?_
  simp only [common_fL _ _ _ _ hk]

theorem vamo (op : AtomOp) (sc : Scope) (t : Ty) (f : AddrForm) (o : LaneOp) : Statement (.vamo op sc t f o) := by
  refine lane_trip _ _ _ _ rfl rfl rfl ?_
  intro hc
  have hk := km_ok_of_check _ _ hc
  refine (class8 _ t rfl (show (0x401 : BitVec 12).toNat / 128 = 8 from by decide)).trans ?_
  refine (withCode_of _ op ((congrArg atomOf (mdMem_code _ _ _ _)).trans (atomOf_code op)) _).trans ?_
  refine (withCode_of _ sc ((congrArg scopeOf (mdMem_low _ _ _ _)).trans (scopeOf_code sc)) _).trans ?_
  refine congrArg Except.ok ?_
  simp only [common_fL _ _ _ _ hk, LWord.m, LWord.form, md_fL, Nat.reduceSub, mdMem_sc, mdMem_un]

theorem vldc (f : AddrForm) (o : LaneOp) : Statement (.vldc f o) := by
  refine lane_trip _ _ _ _ rfl rfl rfl ?_
  intro hc
  have hk := km_ok_of_check _ _ hc
  refine (class8 _ Ty.b32 rfl (show (0x408 : BitVec 12).toNat / 128 = 8 from by decide)).trans ?_
  refine congrArg Except.ok ?_
  simp only [LWord.b23, LWord.form, LWord.m, md_fL, mdMem_flag, mdMem_sc, mdMem_un, Nat.reduceSub, common_fL _ _ _ _ hk]; rfl

theorem vldcDq (f : AddrForm) (o : LaneOp) : Statement (.vldcDq f o) := by
  refine lane_trip _ _ _ _ rfl rfl rfl ?_
  intro hc
  have hk := km_ok_of_check _ _ hc
  refine (class8 _ Ty.b32 rfl (show (0x408 : BitVec 12).toNat / 128 = 8 from by decide)).trans ?_
  refine congrArg Except.ok ?_
  simp only [LWord.b23, LWord.form, LWord.m, md_fL, mdMem_flag, mdMem_sc, mdMem_un, Nat.reduceSub, common_fL _ _ _ _ hk]; rfl

theorem spawn (o : LaneOp) : Statement (.spawn o) := by
  refine lane_trip _ _ _ _ rfl rfl rfl ?_
  intro hc
  have hk := km_ok_of_check _ _ hc
  refine (class9 _ Ty.none rfl (show (0x480 : BitVec 12).toNat / 128 = 9 from by decide)).trans ?_
  refine congrArg Except.ok ?_
  simp only [common_fL _ _ _ _ hk]

theorem loadDataReturn (g : Nat) (n : Nat) : Statement (.loadDataReturn g n) := no_trip _ rfl rfl

theorem atomicAtPlace (g : Nat) (n : Nat) : Statement (.atomicAtPlace g n) := no_trip _ rfl rfl

theorem homeStoreTest (n : Nat) : Statement (.homeStoreTest n) := no_trip _ rfl rfl

theorem writeBackMerge (c : Nat) (w : Nat) : Statement (.writeBackMerge c w) := no_trip _ rfl rfl

theorem dotScrub (die : Nat) (slice : Nat) : Statement (.dotScrub die slice) := no_trip _ rfl rfl

theorem registrationRepair (w : Nat) : Statement (.registrationRepair w) := no_trip _ rfl rfl

theorem copyRecordFetch (c : Nat) (ch : Nat) : Statement (.copyRecordFetch c ch) := no_trip _ rfl rfl

theorem copyOwnRecheck (c : Nat) (ch : Nat) : Statement (.copyOwnRecheck c ch) := no_trip _ rfl rfl

theorem copyRecordRegister (c : Nat) (ch : Nat) : Statement (.copyRecordRegister c ch) := no_trip _ rfl rfl

theorem copyRecordComplete (c : Nat) (ch : Nat) : Statement (.copyRecordComplete c ch) := no_trip _ rfl rfl

theorem copyDrainExpiry (c : Nat) (ch : Nat) : Statement (.copyDrainExpiry c ch) := no_trip _ rfl rfl

theorem patternElementFetch (g : Nat) (q : QReg) : Statement (.patternElementFetch g q) := no_trip _ rfl rfl

theorem watchTriggerDeliver (die : Nat) (slice : Nat) (ent : Nat) : Statement (.watchTriggerDeliver die slice ent) := no_trip _ rfl rfl

theorem gatherWindowExpiry (c : Nat) (slot : Nat) : Statement (.gatherWindowExpiry c slot) := no_trip _ rfl rfl

theorem gatherLaunch (c : Nat) (slot : Nat) : Statement (.gatherLaunch c slot) := no_trip _ rfl rfl

theorem teamAdmit (l : Nat) (k : Nat) (c : Nat) : Statement (.teamAdmit l k c) := no_trip _ rfl rfl

theorem seatRelease (t : Nat) : Statement (.seatRelease t) := no_trip _ rfl rfl

theorem groupOverdue (g : Nat) (lane : Bool) : Statement (.groupOverdue g lane) := no_trip _ rfl rfl

theorem powerReserve (c : Nat) (pipe : Nat) : Statement (.powerReserve c pipe) := no_trip _ rfl rfl

theorem powerBudgetUpdate (c : Nat) (refill : BitVec 9) : Statement (.powerBudgetUpdate c refill) := no_trip _ rfl rfl

theorem pwrctlWrite (c : Nat) (v : DWord) : Statement (.pwrctlWrite c v) := no_trip _ rfl rfl

theorem psteerWrite (c : Nat) (pipe : Nat) (v : DWord) : Statement (.psteerWrite c pipe v) := no_trip _ rfl rfl

theorem mgmtRegisterWrite (r : MgmtReg) (v : DWord) : Statement (.mgmtRegisterWrite r v) := no_trip _ rfl rfl

theorem trapEntry (g : Nat) : Statement (.trapEntry g) := no_trip _ rfl rfl

theorem handlerBudgetExpiry (g : Nat) : Statement (.handlerBudgetExpiry g) := no_trip _ rfl rfl

theorem awaitRecheck (g : Nat) : Statement (.awaitRecheck g) := no_trip _ rfl rfl

theorem napExpiry (g : Nat) : Statement (.napExpiry g) := no_trip _ rfl rfl

theorem clockChangeDone (c : Nat) : Statement (.clockChangeDone c) := no_trip _ rfl rfl

theorem cycleLimitExpiry (t : Nat) (level : Nat) : Statement (.cycleLimitExpiry t level) := no_trip _ rfl rfl

theorem alternateRollback (t : Nat) : Statement (.alternateRollback t) := no_trip _ rfl rfl

theorem preempt (t : Nat) : Statement (.preempt t) := no_trip _ rfl rfl

theorem restore (n : Nat) (c : Nat) : Statement (.restore n c) := no_trip _ rfl rfl

theorem poolLinkDown (port : Nat) : Statement (.poolLinkDown port) := no_trip _ rfl rfl

theorem poolRequestTimeout (dev : Nat) : Statement (.poolRequestTimeout dev) := no_trip _ rfl rfl

theorem strandedFlushRetry (region : Nat) : Statement (.strandedFlushRetry region) := no_trip _ rfl rfl

theorem rejoinLineWritten (region : Nat) (l : Nat) : Statement (.rejoinLineWritten region l) := no_trip _ rfl rfl

theorem poolBiSnoop (l : Nat) : Statement (.poolBiSnoop l) := no_trip _ rfl rfl

theorem hostDeviceWrite (w : Nat) (v : Word) (mask : BitVec 4) : Statement (.hostDeviceWrite w v mask) := no_trip _ rfl rfl

theorem channelDoorbell (ch : Nat) (tail : BitVec 32) : Statement (.channelDoorbell ch tail) := no_trip _ rfl rfl

theorem channelEnable (ch : Nat) (en : Bool) : Statement (.channelEnable ch en) := no_trip _ rfl rfl

theorem completionHeadWrite (ch : Nat) (head : BitVec 32) : Statement (.completionHeadWrite ch head) := no_trip _ rfl rfl

theorem ctxPkt (h : PktHdr) (addr : DWord) : Statement (.ctxPkt h addr) := no_trip _ rfl rfl

theorem launchPkt (h : PktHdr) (addr : DWord) : Statement (.launchPkt h addr) := no_trip _ rfl rfl

theorem graphPkt (h : PktHdr) (addr : DWord) : Statement (.graphPkt h addr) := no_trip _ rfl rfl

theorem quiescePkt (h : PktHdr) : Statement (.quiescePkt h) := no_trip _ rfl rfl

theorem hreplyPkt (h : PktHdr) (rid : DWord) (x1 : DWord) (x2 : DWord) : Statement (.hreplyPkt h rid x1 x2) := no_trip _ rfl rfl

theorem fdonePkt (h : PktHdr) (rid : DWord) (fail : Bool) : Statement (.fdonePkt h rid fail) := no_trip _ rfl rfl

theorem regionMapPlain (h : PktHdr) (r : Nat) (port : Nat) (cxl : DWord) (devs : List Nat) : Statement (.regionMapPlain h r port cxl devs) := no_trip _ rfl rfl

theorem regionMapVersioned (h : PktHdr) (r : Nat) (port : Nat) (cxl : DWord) (devs : List Nat) : Statement (.regionMapVersioned h r port cxl devs) := no_trip _ rfl rfl

theorem regionUnmap (h : PktHdr) (r : Nat) : Statement (.regionUnmap h r) := no_trip _ rfl rfl

theorem regionRejoinFlush (h : PktHdr) (r : Nat) (port : Nat) : Statement (.regionRejoinFlush h r port) := no_trip _ rfl rfl

theorem regionRejoinDiscard (h : PktHdr) (r : Nat) (port : Nat) : Statement (.regionRejoinDiscard h r port) := no_trip _ rfl rfl

theorem devcfgPkt (h : PktHdr) (fabric : Nat) (base : Nat) (size : Nat) : Statement (.devcfgPkt h fabric base size) := no_trip _ rfl rfl

theorem attestPkt (h : PktHdr) (nonce : DWord) (report : DWord) : Statement (.attestPkt h nonce report) := no_trip _ rfl rfl

theorem fwupdPkt (h : PktHdr) (addr : DWord) (bytes : Nat) (slot : Nat) : Statement (.fwupdPkt h addr bytes slot) := no_trip _ rfl rfl

theorem graphEdgeSatisfy (graph : Nat) (edge : Nat) : Statement (.graphEdgeSatisfy graph edge) := no_trip _ rfl rfl

theorem remoteEdgeSignal (graph : Nat) (edge : Nat) : Statement (.remoteEdgeSignal graph edge) := no_trip _ rfl rfl

theorem quiescePoint (ctxid : Nat) : Statement (.quiescePoint ctxid) := no_trip _ rfl rfl

theorem retireApply (n : Nat) : Statement (.retireApply n) := no_trip _ rfl rfl

theorem cpTakeoverForced : Statement (.cpTakeoverForced) := no_trip _ rfl rfl

theorem retireTimeout (n : Nat) : Statement (.retireTimeout n) := no_trip _ rfl rfl

theorem suspectCountAge : Statement (.suspectCountAge) := no_trip _ rfl rfl

theorem ulunoezLaneFailed (link : Nat) (lane : Nat) : Statement (.ulunoezLaneFailed link lane) := no_trip _ rfl rfl

theorem ulunoezLinkFailed (link : Nat) : Statement (.ulunoezLinkFailed link) := no_trip _ rfl rfl

theorem moduleReset : Statement (.moduleReset) := no_trip _ rfl rfl

theorem reducedServiceLift (dies : BitVec 4) : Statement (.reducedServiceLift dies) := no_trip _ rfl rfl

theorem heartbeatWatchdog (die : Nat) : Statement (.heartbeatWatchdog die) := no_trip _ rfl rfl

theorem droopDetect (c : Nat) : Statement (.droopDetect c) := no_trip _ rfl rfl

theorem droopRelease (c : Nat) : Statement (.droopRelease c) := no_trip _ rfl rfl

theorem thermalTrip (die : Nat) : Statement (.thermalTrip die) := no_trip _ rfl rfl

theorem thermalRelease (die : Nat) : Statement (.thermalRelease die) := no_trip _ rfl rfl

theorem rowSpare (die : Nat) (bank : Nat) (row : Nat) : Statement (.rowSpare die bank row) := no_trip _ rfl rfl

theorem memoryUncorrectable (w : Nat) : Statement (.memoryUncorrectable w) := no_trip _ rfl rfl

theorem deadlockWalk : Statement (.deadlockWalk) := no_trip _ rfl rfl

theorem longWait (g : Nat) : Statement (.longWait g) := no_trip _ rfl rfl

theorem calibrate (c : Nat) : Statement (.calibrate c) := no_trip _ rfl rfl

theorem powerGate (c : Nat) : Statement (.powerGate c) := no_trip _ rfl rfl

theorem cxlLinkTraining (port : Nat) (reach : List Nat) : Statement (.cxlLinkTraining port reach) := no_trip _ rfl rfl

theorem storeAcknowledgement (n : Nat) : Statement (.storeAcknowledgement n) := no_trip _ rfl rfl

theorem copiedWriteArrival (w : Nat) (v : Word) : Statement (.copiedWriteArrival w v) := no_trip _ rfl rfl

end Sys2Proof.Laws.RoundTrip
end

