-- ==== Sys2Proof/Tests/Slice0.lean ====
section
/-! SUPPORT. Tests: words written out from the encodings of the manual, ill-formed terms, the manual's worked examples, and states
that meet the hypotheses of the statements. -/

namespace Sys2Proof.Tests

open Sys2Proof Sys2Proof.Machine

set_option maxRecDepth 20000

/-! ### Decoding: words from the encodings of R37 to R54 and the examples of the entries -/

/-- The fields of a lane instruction with the given destination and sources, under every live lane. -/
def op (d : Nat) (a : Src := .v 0) (b : Src := .v 0) (c : Src := .v 0) : LaneOp :=
  { d := BitVec.ofNat 8 d, a := a, b := b, c := c, km := .all, la := 0, imm := 0 }

theorem test_decode_integers :
    decodeTableWord 32 0x02000000 = some (.add 0 0 0) ∧ decodeTableWord 32 0x40287ffc = some (.addi 5 3 (-4))
    ∧ decodeTableWord 32 0x52086202 = some (.sel 1 2 3 4) ∧ decodeTableWord 32 0x4e0831a2 = some (.lih 1 1 0x11a2) := by decide

theorem test_decode_control :
    decodeTableWord 32 0x66381ff8 = some (.bne 7 0 (-8)) ∧ decodeTableWord 32 0x62000020 = some (.call 0x20)
    ∧ decodeTableWord 32 0x74181ffc = some (.loop 3 (-4)) ∧ decodeTableWord 32 0xa0300005 = some (.lrun 6 5)
    ∧ decodeTableWord 32 0xe6000001 = some .nop := by decide

theorem test_decode_masks :
    decodeTableWord 32 0xa2084006 = some (.kmovKX 1 2) ∧ decodeTableWord 32 0xa2002002 = some (.kpush 1)
    ∧ decodeTableWord 32 0xa2000003 = some .kelse ∧ decodeTableWord 32 0xa2000004 = some .kpop := by decide

theorem test_decode_memory :
    decodeTableWord 32 0x80212402 = some (.ldx 4 9 2 2) ∧ decodeTableWord 32 0x90190202 = some (.acq .clus 3 8 1)
    ∧ decodeTableWord 32 0x92190002 = some (.rel .clus 3 8) ∧ decodeTableWord 32 0x94212283 = some (.amo .add .dev 4 9 5)
    ∧ decodeTableWord 32 0x9e000003 = some (.fence .dev) ∧ decodeTableWord 32 0xaa31_4581 = some (.bop .addI32 6 10 11)
    ∧ decodeTableWord 32 0xaa508292 = some (.bred .addF32 10 4 5)
    ∧ decodeTableWord 32 0xaa3043ab = some (.await .ge true 6 2 7) := by decide

theorem test_decode_cells :
    decodeTableWord 32 0x96304202 = some (.ldc 6 2 1 2) ∧ decodeTableWord 32 0x98304001 = some (.ldsib 6 2 0 1)
    ∧ decodeTableWord 32 0x9e212010 = some (.rcn .add 4 9) ∧ decodeTableWord 32 0x9e304420 = some (.rcnw 6 2 8)
    ∧ decodeTableWord 32 0x9e286030 = some (.vvrd 5 3) ∧ decodeTableWord 32 0x9e00e040 = some (.vvfold 7)
    ∧ decodeTableWord 32 0x9e0082d0 = some (.clean 4 5) := by decide

theorem test_decode_special_registers :
    decodeTableWord 32 0x9a380005 = some (.mfs 7 .tsc) ∧ decodeTableWord 32 0xa600a001 = some (.wait .gl 5)
    ∧ decodeTableWord 32 0xa6380009 = some (.cntrd .gl 7) := by decide

theorem test_decode_queues_and_channels :
    decodeTableWord 32 0xa4008000 = some (.spset 0 4 0) ∧ decodeTableWord 32 0xa4000001 = some (.spgo 0)
    ∧ decodeTableWord 32 0xa8004280 = some (.cpgo 2 5) ∧ decodeTableWord 32 0xa8304001 = some (.cpseal 6 2)
    ∧ decodeTableWord 32 0xa8384302 = some (.cpwait 7 2 6) ∧ decodeTableWord 32 0xa8404003 = some (.cpstat 8 2)
    ∧ decodeTableWord 32 0xa8484004 = some (.cpabort 9 2) ∧ decodeTableWord 32 0xa8504005 = some (.cpflt 10 2) := by decide

theorem test_decode_recovery :
    decodeTableWord 32 0xd0008280 = some (.ensure 4 5) ∧ decodeTableWord 32 0xd0000001 = some .elseby
    ∧ decodeTableWord 32 0xd0000002 = some .elseerr ∧ decodeTableWord 32 0xd000e003 = some (.accept 7)
    ∧ decodeTableWord 32 0xd0000004 = some .rbfail ∧ decodeTableWord 32 0xd0310005 = some (.cvjoin 6 8)
    ∧ decodeTableWord 32 0xd0000006 = some .cvleave ∧ decodeTableWord 32 0xd0480007 = some (.chkerr 9) := by decide

theorem test_decode_system :
    decodeTableWord 32 0xe0000005 = some (.trap 5) ∧ decodeTableWord 32 0xe2000003 = some (.brk 3)
    ∧ decodeTableWord 32 0xe400000c = some (.hcall 12) ∧ decodeTableWord 32 0xe6000000 = some .rti
    ∧ decodeTableWord 32 0xe6008002 = some (.halt 4) ∧ decodeTableWord 32 0xe6308003 = some (.capq 6 4)
    ∧ decodeTableWord 32 0xe6008004 = some (.chkmode 4) ∧ decodeTableWord 32 0xe6288005 = some (.clkmode 5 4)
    ∧ decodeTableWord 32 0xe6288006 = some (.retire 5 4) ∧ decodeTableWord 32 0xe6288307 = some (.ctxsv 5 4 6)
    ∧ decodeTableWord 32 0xe6288308 = some (.ctxld 5 4 6) ∧ decodeTableWord 32 0xe6008309 = some (.tlbflush 4 6)
    ∧ decodeTableWord 32 0xe628800a = some (.prgn 5 4) := by decide

theorem test_decode_lane_arithmetic :
    decodeTableWord 96 0x01b02007_00000001_02000000 = some (.vcmp .lt .i32 { op 2 (.v 1) .imm with imm := 0 })
    ∧ decodeTableWord 96 0x1030a009_01816c10_00000000 =
      some (.ffma .f32 .ne { op 10 (.v 2) (.q 1) (.x 5) with km := .off 3 }) := by decide

theorem test_decode_lane_matrix :
    decodeTableWord 96 0x28100080_40820012_02000200 = some (.mmaH .bf16 true 0 { op 0 (.v 32) (.v 64) (.x 8) with imm := 512 })
    ∧ decodeTableWord 96 0x3081a080_18820001_80c00800 = some (.sacc 64 1 2 { op 26 (.v 32) (.v 24) (.x 8) with imm := 2048 }) := by decide

theorem test_decode_lane_memory :
    decodeTableWord 96 0x38004826_40000083_04000040 =
      some (.vld .b32 { sc := 2, un := false } { op 4 (.x 9) .lid with la := 2, imm := 64 })
    ∧ decodeTableWord 96 0x40806808_04000003_04000000 = some (.vldc { sc := 2, un := false } (op 6 (.x 2) (.v 4)))
    ∧ decodeTableWord 96 0x40806808_04000003_04800000 = some (.vldcDq { sc := 2, un := false } (op 6 (.x 2) (.v 4)))
    ∧ decodeTableWord 96 0x40000000_00000000_00200000 = some (.vfence .clus (op 0))
    ∧ decodeTableWord 96 0x40106808_04028001_04300000 =
      some (.vamo .add .dev .i32 { sc := 2, un := false } (op 6 (.x 2) (.v 4) (.v 10)))
    ∧ decodeTableWord 96 0x4800080c_14000800_00000000 = some (.spawn { op 0 (.x 3) (.v 20) with km := .on 2 }) := by decide

/-! ### The words that the manual prints beside its programs: R487, R497, R500, and the sender and receiver of R483 to R502 -/

theorem test_words_filter :
    encode (.kpush 2) = [0xa2004002] ∧ encode (.regroup 8 7) = [0xc640e000]
    ∧ encode (.voteBallot { op 0 .imm with km := .on 3, imm := 1 }) = [0x01000001, 0x00000c03, 0x21000c00] := by decide

theorem test_words_stab :
    encode (.await .ne true 5 22 0) = [0xaa2ac029] ∧ encode (.fence .team) = [0x9e000001] ∧ encode (.vvrd 5 4) = [0x9e288030]
    ∧ encode (.nap 9) = [0xcc012000] ∧ encode (.amo .add .team 0 12 13) = [0x94018681] ∧ encode (.rcn .add 6 20) = [0x9e328010]
    ∧ encode (.vld .b32 { sc := 2, un := false } { op 1 (.x 20) .lid with km := .on 1 }) = [0x04000000, 0x40000403, 0x38001852] := by
  decide

theorem test_words_minv :
    encode (.ensure 0 5) = [0xd0000280] ∧ encode (.accept 7) = [0xd000e003] ∧ encode .elseby = [0xd0000001]
    ∧ encode .elseerr = [0xd0000002] ∧ encode (.ctz 17 17) = [0x068a2001]
    ∧ encode (.vshfl .idx (op 22 (.v 11) (.v 21))) = [0x00000000, 0x15000003, 0x2001602c]
    ∧ encode (.fcmp .ge { op 7 (.v 17) .imm with km := .on 6, imm := 0xbc800 }) = [0x050bc800, 0x00001810, 0x10607047] := by decide

theorem test_words_programs :
    encode (.rel .clus 16 22) = [0x9282c002] ∧ encode (.await .ne false 5 22 0) = [0xaa2ac021] ∧ encode (.acq .clus 5 22 0) = [0x902ac002]
    ∧ encode (.cbar 0) = [0xc8000004] ∧ encode (.give 6 7) = [0xc430e001] ∧ encode (.claim 5 4) = [0xc4288000]
    ∧ encode (.qpop 6 0) = [0xca300002] ∧ encode (.qpush 1 9) = [0xca002481] := by decide

/-! ### Words that are no instruction (R47) -/

theorem test_decode_zero_words : decodeTableWord 32 0 = none ∧ decodeTableWord 96 0 = none := by decide
theorem test_decode_reserved_fn : decodeTableWord 32 0xe600000b = none ∧ decodeTableWord 32 0xfe000000 = none := by decide
theorem test_decode_reserved_field : decodeTableWord 32 0xa2086003 = none ∧ decodeTableWord 32 0xe0004005 = none := by decide
theorem test_decode_mask_code : decodeTableWord 96 0x01b02007_00002001_02000000 = none := by decide

/-! ### Ill-formed terms: one for each check -/

theorem test_illformed_pair : (Instr.ldc 63 0 0 0).wf = false ∧ (Instr.amo .add .dev 63 0 0).wf = false := by decide
theorem test_illformed_window_of_arguments : (Instr.tspawn 0 58).wf = false ∧ (Instr.tspawn 0 57).wf = true := by decide
theorem test_illformed_mask_destination : (Instr.kand 0 1 2).wf = false ∧ (Instr.vcmp .lt .i32 (op 8)).wf = false := by decide
theorem test_illformed_operation : (Instr.bred .fill 0 0 0).wf = false := by decide
theorem test_illformed_special : (Instr.mts 0 .gid).wf = false ∧ (Instr.mts 0 .tvb).wf = true := by decide
theorem test_illformed_type : (Instr.vadd .f32 false (op 1)).wf = false ∧ (Instr.vred .min .b32 (op 0)).wf = false := by decide
theorem test_illformed_kind : (Instr.vld .b32 { sc := 0, un := false } (op 1 (.v 0))).wf = false := by decide
theorem test_illformed_mask : (Instr.vand { op 1 with km := .off 0 }).wf = false := by decide
theorem test_illformed_lookahead : (Instr.vand { op 1 with la := 1 }).wf = false := by decide
theorem test_illformed_immediate : (Instr.vand { op 1 with imm := 1 }).wf = false := by decide
theorem test_illformed_window : (Instr.vldr 4 false { sc := 0, un := false } (op 241 (.x 0))).wf = false
    ∧ (Instr.vldr 4 false { sc := 0, un := false } (op 240 (.x 0))).wf = true := by decide
theorem test_illformed_destination : (Instr.voteAny (op 1)).wf = false := by decide
theorem test_illformed_stride : (Instr.mzero { op 0 (c := .x 1) with imm := 511 }).wf = false := by decide
theorem test_illformed_selector : (Instr.vcvt .i32 .i8 false 0 1 (op 1)).wf = true
    ∧ (Instr.vcvt .i32 .i32 false 0 1 (op 1)).wf = false := by decide


/-! ### A small machine -/

/-- A translation of the first gigabyte to the memory of die 0, writable and executable. -/
def page : TlbEnt := { ctx := 1, vpn := 0, size := 2 ^ 30, pa := 0, w := true, x := true, prg := true, mt := false, d := true }

/-- A group of eight lanes. -/
def grp0 : Group := { seat := 0, gw := 8, k0 := 0xff, pc := 0x10000 }

/-- A machine with one context, one team and one group, on core 0. -/
def machine (g : Group) (t : Team := { ctx := 1 }) (c : Ctx := {}) : State :=
  { State.reset with groups := [(0, g)], teams := [(0, t)], ctxs := [(1, c)], cores := [(0, { tlb := [page] })] }

/-- A group with values in its scalar registers. -/
def xs (l : List (XReg × DWord)) (g : Group := grp0) : Group := l.foldl (fun h p => h.setX p.1 p.2) g

/-- A group with one word of a vector register per lane, from lane 0 on. -/
def vs (r : Nat) (l : List Word) (g : Group := grp0) : Group :=
  (List.range l.length).foldl (fun h n => h.setV r n (l.getD n 0)) g

/-- A group whose lane queue holds one word, enqueued with the group's activity-stack top and its broadcast values. -/
def lane (o : LaneOp) (g : Group) : Group :=
  let src (s : Src) : DWord := match s with | .x r => g.x r | _ => 0
  { g with laneQ := [{ bits := 0, top := g.top, bca := src o.a, bcb := src o.b, bcc := src o.c }] }

/-- The outcome is a next state that passes the check. -/
def leaves (r : Res) (p : State → Bool) : Bool :=
  match r with
  | .next t => p t
  | _ => false

/-- The next state's acting group passes the check. -/
def leavesG (r : Res) (p : Group → Bool) : Bool :=
  leaves r (fun t => match t.grp with
    | some g => p g
    | none => false)

def someAnd {α : Type} (o : Option α) (p : α → Bool) : Bool :=
  match o with
  | some a => p a
  | none => false

def okAnd (c : Chk) (p : State → Nat → Bool → Bool) : Bool :=
  match c with
  | .ok s pa mt => p s pa mt
  | _ => false

def trapAnd (c : Chk) (p : State → BitVec 8 → DWord → Bool) : Bool :=
  match c with
  | .trap s n i => p s n i
  | _ => false

/-- What the last three say: the value exists and meets the check. -/
theorem someAnd_iff {α : Type} (o : Option α) (p : α → Bool) : someAnd o p = true ↔ ∃ a, o = some a ∧ p a = true := by
  cases o <;> simp [someAnd]

theorem okAnd_iff (c : Chk) (p : State → Nat → Bool → Bool) :
    okAnd c p = true ↔ ∃ s pa mt, c = .ok s pa mt ∧ p s pa mt = true := by
  cases c with
  | ok s pa mt => exact ⟨fun h => ⟨s, pa, mt, rfl, h⟩, fun ⟨_, _, _, e, h⟩ => by cases e; exact h⟩
  | _ => simp [okAnd]

theorem trapAnd_iff (c : Chk) (p : State → BitVec 8 → DWord → Bool) :
    trapAnd c p = true ↔ ∃ s n i, c = .trap s n i ∧ p s n i = true := by
  cases c with
  | trap s n i => exact ⟨fun h => ⟨s, n, i, rfl, h⟩, fun ⟨_, _, _, e, h⟩ => by cases e; exact h⟩
  | _ => simp [trapAnd]

/-! ### Scalar instructions: the manual's corners and examples -/

theorem test_step_places_and_runs_addi :
    leavesG (step ((machine (xs [(3, 10)])).withFetchWord 32 0x40287ffc))
      (fun g => decide (g.x 5 = 6) && decide (g.x 3 = 10)) = true := by decide

theorem test_lih_builds_constants :
    leavesG (exec (.lih 1 1 0x567) (machine (xs [(1, 0x91a2)]))) (fun g => decide (g.x 1 = 0x12344567)) = true
    ∧ leavesG (exec (.lih 1 1 0x1678) (machine (xs [(1, 0x91a2)]))) (fun g => decide (g.x 1 = 0x12345678)) = true := by decide

theorem test_add_wraps :
    leavesG (exec (.add 1 2 3) (machine (xs [(2, 0x8000000000000000), (3, 0x8000000000000001)])))
      (fun g => decide (g.x 1 = 1)) = true := by decide

theorem test_division_by_zero :
    leavesG (exec (.div 1 2 3) (machine (xs [(2, 7)]))) (fun g => decide (g.x 1 = 0xffffffffffffffff)) = true
    ∧ leavesG (exec (.rem 1 2 3) (machine (xs [(2, 7)]))) (fun g => decide (g.x 1 = 7)) = true := by decide

theorem test_division_of_most_negative :
    leavesG (exec (.div 1 2 3) (machine (xs [(2, 0x8000000000000000), (3, 0xffffffffffffffff)])))
      (fun g => decide (g.x 1 = 0x8000000000000000)) = true
    ∧ leavesG (exec (.rem 1 2 3) (machine (xs [(2, 0x8000000000000000), (3, 0xffffffffffffffff)])))
      (fun g => decide (g.x 1 = 0)) = true := by decide

theorem test_remainder_takes_sign_of_dividend :
    leavesG (exec (.rem 1 2 3) (machine (xs [(2, 0xfffffffffffffff9), (3, 2)])))
      (fun g => decide (g.x 1 = 0xffffffffffffffff)) = true := by decide

theorem test_adr_extends_bit_56 :
    leavesG (exec (.adr 1 2 0) (machine (xs [(2, 0x0100000000000000)])))
      (fun g => decide (g.x 1 = 0xff00000000000000)) = true := by decide

theorem test_loop_ends_at_zero :
    leavesG (exec (.loop 3 (-4)) (machine (xs [(3, 1)]))) (fun g => decide (g.x 3 = 0) && decide (g.pc = 0x10004)) = true
    ∧ leavesG (exec (.loop 3 (-4)) (machine (xs [(3, 0)])))
      (fun g => decide (g.x 3 = 0xffffffffffffffff) && decide (g.pc = 0xfff0)) = true := by decide

theorem test_x0_discards :
    leavesG (exec (.addi 0 0 5) (machine grp0)) (fun g => decide (g.x 0 = 0) && decide (g.pc = 0x10004)) = true := by decide

/-- R100's example: `kpush` of 0x0f, then `kelse`, then `kpop` under eight live lanes. -/
theorem test_activity_stack :
    leavesG (exec (.kpush 1) (machine (grp0.setK 1 0x0f))) (fun g => decide (g.top = 0x0f)) = true
    ∧ leavesG (exec .kelse (machine { grp0 with act := [0x0f] })) (fun g => decide (g.top = 0xf0)) = true
    ∧ leavesG (exec .kpop (machine { grp0 with act := [0xf0] })) (fun g => decide (g.top = 0xff)) = true := by decide

theorem test_knot_stays_within_width :
    leavesG (exec (.knot 2 1) (machine (grp0.setK 1 0x0f))) (fun g => decide (g.k 2 = 0xf0)) = true := by decide

theorem test_call_and_ret :
    leavesG (exec (.call 4) (machine grp0)) (fun g => decide (g.pc = 0x10010) && decide (g.ret = [0x10004])) = true
    ∧ leavesG (exec .ret (machine { grp0 with ret := [0x20000] })) (fun g => decide (g.pc = 0x20000) && decide (g.ret = [])) = true := by
  decide

/-- R497: the second instruction of `upd` takes x10 as it stands at its own `lrun`. -/
theorem test_capture_at_lrun :
    (let w := ((encLane (.vadd .i32 false { op 1 (.v 1) (.x 10) with km := .on 1 })).map LWord.word).getD 0
     (mkEntry (xs [(10, 100)]) w 1).bcb = 100 ∧ (mkEntry (xs [(10, 1)]) w 1).bcb = 1) := by decide

/-! ### SHA3-512: the value that FIPS 202 gives for the empty message, its first two bytes -/

theorem test_sha3_empty : (sha3 []).toNat % 65536 = 0x9fa6 := by decide +kernel
/-! ### Lane instructions: the manual's worked examples -/

/-- One 32-bit word in a team's scratchpad. -/
def spadWord (off : Nat) (w : Word) (t : Team) : Team :=
  (List.range 4).foldl (fun u n => { u with spad := sset 0 u.spad (off + n) ((w >>> (8 * n)).truncate 8) }) t

/-- A scratchpad word of team 0. -/
def wordOf (s : State) (off : Nat) : Nat :=
  match find s.teams 0 with
  | some t => ofBytes ((List.range 4).map (fun n => t.spadByte (off + n)))
  | none => 0

/-- A team with a scratchpad of 64 KiB. -/
def team0 : Team := { ctx := 1, spadB := 65536 }

/-- Lane 0 of the destination after a lane instruction of one active lane with operands a, b and c in v1, v2 and v3. -/
def lane0 (i : LaneOp → Instr) (a : Word) (b : Word := 0) (c : Word := 0) : Word :=
  let o := op 9 (.v 1) (.v 2) (.v 3)
  let g := vs 1 [a] (vs 2 [b] (vs 3 [c] { grp0 with k0 := 1 }))
  match exec (i o) (machine (lane o g)) with
  | .next t => match t.grp with
    | some h => h.v 9 0
    | none => 0
  | _ => 0

theorem test_vadd_wraps_and_saturates :
    lane0 (.vadd .i32 false) 0x7fffffff 1 = 0x80000000 ∧ lane0 (.vadd .i8 true) 0x7f80ff01 0x01ff0101 = 0x7f800002 := by decide

theorem test_fadd_rounds_to_even : lane0 (.fadd .f32 .ne) 0x40400000 0x3f800001 = 0x40800000 := by decide

theorem test_fmul_zero_by_infinity : lane0 (.fmul .f32 .ne) 0 0x7f800000 = 0x7fc00000 := by decide

/-- The example of `fcvt` at the top of E4M3: 470.0 and 464.0. -/
theorem test_fcvt_top_of_e4m3 :
    lane0 (.fcvt .e4m3 .f32 .ne false 0 0) 0x43eb0000 = 0x7f ∧ lane0 (.fcvt .e4m3 .f32 .ne true 0 0) 0x43eb0000 = 0x7e
    ∧ lane0 (.fcvt .e4m3 .f32 .ne false 0 0) 0x43e80000 = 0x7e ∧ lane0 (.fcvt .e4m3 .f32 .ra false 0 0) 0x43e80000 = 0x7f
    ∧ lane0 (.fcvt .e4m3 .f32 .ne false 0 0) 0x43e60000 = 0x7e := by decide

/-- The residue words of 1,000 and −1. -/
theorem test_rwfrom_examples :
    lane0 (fun o => .rwfrom { o with b := .v 0, c := .v 0 }) 1000 = 0x00e5ebe8
    ∧ lane0 (fun o => .rwfrom { o with b := .v 0, c := .v 0 }) 0xffffffff = 0x0100feff := by decide

/-- What `crt` decodes of the residues of 2^31 − 1, −2^31 and 8,388,608. -/
theorem test_crt_wraps :
    lane0 .crt (lane0 .rwfrom 0x7fffffff) = 32767 ∧ lane0 .crt (lane0 .rwfrom 0x80000000) = 0xffff8000
    ∧ lane0 .crt (lane0 .rwfrom 8388608) = BitVec.ofInt 32 (-8388352) := by decide

/-- The group of the example after R146: lane 6 has exited, v1 holds 10 + l, k1 = 0x7c; v2 and v3 hold 99. -/
def voter : Group :=
  vs 1 [10, 11, 12, 13, 14, 15, 16, 17] (vs 2 [99, 99, 99, 99, 99, 99, 99, 99]
    (vs 3 [99, 99, 99, 99, 99, 99, 99, 99] ({ grp0 with k0 := 0xbf }.setK 1 0x7c)))

theorem test_vscan_example :
    let o := { op 2 (.v 1) with km := .on 1 }
    leavesG (exec (.vscan .add .i32 false o) (machine (lane o voter)))
      (fun g => decide ((List.range 8).map (g.v 2) = [0, 0, 12, 25, 39, 54, 99, 0])) = true := by decide

theorem test_vshfl_example :
    let o := { op 3 (.v 1) .imm with km := .on 1, imm := 1 }
    leavesG (exec (.vshfl .up o) (machine (lane o voter)))
      (fun g => decide ((List.range 8).map (g.v 3) = [0, 0, 0, 12, 13, 14, 99, 0])) = true := by decide

theorem test_vred_example :
    let o := { op 0 (.v 1) with km := .on 1 }
    leavesG (exec (.vred .add .i32 o) (machine (lane o voter))) (fun g => decide (g.decQ = [54])) = true := by decide

theorem test_vote_count_example :
    let o := { op 0 (.v 1) with km := .on 1 }
    leavesG (exec (.voteCount o) (machine (lane o voter))) (fun g => decide (g.decQ = [4])) = true := by decide

theorem test_vcmp_leaves_inactive_bits :
    let o := { op 2 (.v 1) .imm with km := .on 1, imm := 13 }
    leavesG (exec (.vcmp .lt .i32 o) (machine (lane o voter))) (fun g => decide (g.k 2 = 0x04)) = true := by decide

set_option exponentiation.threshold 600 in
/-- The example of `mma.h.bf16`: 1 + 2^−24 + 2^−24 added to an accumulator word of 3.0. -/
theorem test_mma_example :
    let o := op 0 (.v 32) (.v 64) (.x 8)
    let g := vs 64 [0x3f803f80] (vs 65 [0x00003f80] (vs 32 [0x33803f80] (vs 33 [0x00003380] (xs [(8, 0x10000000)] { grp0 with k0 := 1 }))))
    leaves (exec (.mmaH .bf16 false 0 o) (machine (lane o { g with allot := 128 }) (spadWord 0 0x40400000 team0)))
      (fun t => decide (wordOf t 0 = 0x40800000) && decide (wordOf t 64 = 0)) = true := by decide

/-- The first `sacc` of the example of R194: 1,000 × 2.0 × 0.625. -/
theorem test_sacc_example :
    let o := op 26 (.v 32) (.v 24) (.x 8)
    let g := vs 26 [0x7d] (vs 24 [0x84] (vs 32 [1000] (xs [(8, 0x10000000)] { grp0 with k0 := 1 })))
    leaves (exec (.sacc 64 0 0 o) (machine (lane o { g with allot := 128 }) team0))
      (fun t => decide (wordOf t 0 = 0) && decide (wordOf t 4 = 0) && decide (wordOf t 8 = 0x4e2) && decide (wordOf t 12 = 0)) = true := by
  decide

/-- The conversions of the accumulator that the second `sacc` leaves. -/
theorem test_fxcvt_example :
    let o := op 40 (.v 0) (.v 0) (.x 8)
    let g : Group := { xs [(8, 0x10000000)] { grp0 with k0 := 1 } with allot := 128 }
    let t := spadWord 0 0x80000000 (spadWord 4 2 (spadWord 8 0x4e2 team0))
    leavesG (exec (.fxcvt .f32 64 false .ne o) (machine (lane o g) t)) (fun h => decide (h.v 40 0 = 0x449c4000)) = true
    ∧ leavesG (exec (.fxcvt .f32 64 false .ru o) (machine (lane o g) t)) (fun h => decide (h.v 40 0 = 0x449c4001)) = true
    ∧ leavesG (exec (.fxcvt .bf16 64 false .ne o) (machine (lane o g) t)) (fun h => decide (h.v 40 0 = 0x449c)) = true := by
  decide

/-- The example of `qnt.i4.f32`: two outliers, of which the region holds one. -/
theorem test_qnt_example :
    let o := op 40 (.v 8) (.v 6) (.x 12)
    let put5 (r : Nat) (w : Word) (g : Group) : Group := g.setV r 5 w
    let g := put5 6 0x7c (put5 8 0x3f800000 (put5 9 0xc04ccccd (put5 10 0x4059999a (put5 11 0x41100000 (put5 12 0xc0833333
      (put5 13 0x3e75c28f (put5 14 0x40a00000 (put5 15 0xbf400000 (xs [(12, 0x0003000100002000)]
        { grp0 with k0 := 0x20, allot := 128 })))))))))
    leaves (exec (.qnt .i4 0 .ne o) (machine (lane o g) team0))
      (fun t => decide (wordOf t 0x2000 = 1) && decide (wordOf t 0x2008 = 0x00034880) && decide (wordOf t 0x200c = 0xc5)
        && (match t.grp with
          | some h => decide (h.v 40 5 = 0xe70807a2) && decide (h.ofc = 1)
          | none => false)) = true := by decide

/-! ### Memory, cells, groups and traps: the manual's examples -/

theorem test_ldx_i32_extends_sign :
    leavesG (exec (.ldxI32 4 9 0 (-1)) ((machine (xs [(9, 0x1004)])).setWord 0x400 0x80000000))
      (fun g => decide (g.x 4 = 0xffffffff80000000)) = true := by decide

theorem test_stx_is_little_endian :
    leaves (exec (.stx 4 9 0) (machine (xs [(4, 0x1122334455667788), (9, 0x1000)])))
      (fun t => decide ((t.l1At 0 0x400).map (·.val) = some 0x55667788)
        && decide ((t.l1At 0 0x401).map (·.val) = some 0x11223344)) = true := by decide

/-- The trap frame and the vector of number `n`, mapped, with a handler at 0x30000. -/
def trapping (n : Nat) (g : Group) : State :=
  (machine g team0 { frameB := 0x100000, tvb := 0x200000 }).setWord (0x80000 + 2 * n) 0x30000

/-- Words 0, 2, 4, 6 and 8 of the frame at the home or in the L1. -/
def frameWords (t : State) : List Nat :=
  [0, 2, 4, 6, 8].map (fun n => match t.l1At 0 (0x40000 + n) with
    | some w => w.val.toNat
    | none => (t.word (0x40000 + n)).toNat)

theorem test_misaligned_load_traps :
    leaves (exec (.ldx 4 9 0 0) (trapping 0x12 (xs [(9, 0x1004)])))
      (fun t => decide (frameWords t = [0x10000, 0x12, 0, 0x1004, 0]) && (match t.grp with
        | some g => decide (g.pc = 0x30000) && g.tclass && decide (g.x 60 = 0x100000) && decide (g.x 61 = 0x12)
          && decide (g.x 62 = 0x1004) && decide (g.x 63 = 0)
        | none => false)) = true := by decide

theorem test_trap_resumes_after_itself :
    leaves (exec (.trap 5) (trapping 0x85 grp0))
      (fun t => decide (frameWords t = [0x10004, 0x85, 0, 0, 5]) && (match t.grp with
        | some g => decide (g.pc = 0x30000)
        | none => false)) = true := by decide

theorem test_privileged_instruction_traps_outside_trap_class :
    leavesG (exec .rti (trapping 0x0d (xs []))) (fun g => decide (g.x 61 = 0x0d) && g.tclass) = true := by decide

/-- The lane trap worked after R439: a `vld` with lanes 3 to 7 on an unmapped page, second of its block. -/
theorem test_lane_trap_frame :
    let o := op 4 (.x 9) .lid
    let g := lane o (xs [(9, 0x3ffffff4)] { grp0 with pc := 0x200108 })
    let g := { g with laneQ := g.laneQ.map (fun e => { e with lpc := 0x200100, idx := 1 }) }
    leaves (raiseLane (trapping 0x10 g) g (g.laneQ.headD { bits := 0, top := 0 }) 0x10 0x40000000 3)
      (fun t => decide (frameWords t = [0x200108, 0x00010110, 0x200100, 0x40000000, 3]) && (match t.grp with
        | some h => h.frozen && decide (h.laneQ.length = 1)
        | none => false)) = true := by decide

theorem test_rti_skips_frozen_entry :
    let g := { lane (op 4) grp0 with tclass := true, frozen := true }
    let s := ((trapping 0x10 g).setWord 0x40000 0x200108).setWord 0x40002 0x00010510
    leavesG (exec .rti s) (fun h => decide (h.pc = 0x200108) && !h.tclass && !h.frozen && decide (h.laneQ = [])) = true := by decide

/-- The example of `amo.cas`. -/
theorem test_amo_cas_example :
    leaves (exec (.amo .cas .dev 4 9 6) ((machine (xs [(4, 5), (6, 9), (9, 0x1000)])).setWord 0x400 5))
      (fun t => decide (t.word 0x400 = 9) && (match t.grp with
        | some g => decide (g.x 4 = 5) && decide (g.x 5 = 0)
        | none => false)) = true := by decide

theorem test_amo_cas_on_siblings :
    leaves (exec (.amo .cas .dev 4 9 6) { (machine (xs [(4, 5), (6, 9), (9, 0x1000)])).setWord 0x400 5 with
        cells := [(0x400, { vals := [{ val := 5, dot := ⟨1, 10⟩ }, { val := 7, dot := ⟨2, 10⟩ }], gen := 1 })] })
      (fun t => decide (t.word 0x400 = 5) && (match t.grp with
        | some g => decide (g.x 4 = 5) && decide (g.x 5 = 2)
        | none => false)) = true := by decide

/-- The `rcn.add` of the example after R295: base 10, siblings 11 and 12. -/
theorem test_rcn_example :
    leaves (exec (.rcn .add 4 9) { machine (xs [(9, 0x1000)]) with
        cells := [(0x400, { base := some 10, gen := 0x16
                            vals := [{ val := 11, dot := ⟨0x102, 170⟩ }, { val := 12, dot := ⟨0x103, 190⟩ }] })] })
      (fun t => decide (t.word 0x400 = 13) && (match t.grp with
        | some g => decide (g.x 4 = 13) && decide (g.x 5 = 0x0000160a0000000a)
        | none => false)) = true := by decide

/-- The `bred.add.f32` example: 1.0, 2^−24, 2^−24 and −1.0. -/
theorem test_bred_example : bankReduce .addF32 [0x3f800000, 0x33800000, 0x33800000, 0xbf800000] = 0x34000000 := by decide

/-- The pattern example after R237: lane 5 of width 16 finds the word at row 1, column 1, then at row 1, column 5. -/
theorem test_pattern_example :
    (Machine.parsePattern [0, 0, 0x0000000800000004, 0x0000000100000001, 0x0000000400000040, 0, 4, 0] 0).map
      (fun r => (patEntries r 16, patOffset r 5, patOffset r 21)) = some (2, 64 + 4, 64 + 20) := by decide

/-- The `regroup` example: three groups of eight lanes, of which nine are active. -/
theorem test_regroup_example :
    let g (n k : Nat) : Group := vs 5 ((List.range 8).map (fun l => BitVec.ofNat 32 (100 * n + l)))
      (xs [(6, 8)] { grp0 with gid := n, k0 := BitVec.ofNat 64 k, arr := some (.regroup 8 7) })
    leaves (exec (.regroup 7 6) { machine grp0 with groups := [(0, g 0 0x12), (1, g 1 0xed), (2, g 2 0x80)] })
      (fun t => match find t.groups 0, find t.groups 1 with
        | some a, some b => decide ((List.range 8).map (a.v 5) = [1, 4, 100, 102, 103, 105, 106, 107])
          && decide ((List.range 8).map (b.v 5) = [207, 0, 0, 0, 0, 0, 0, 0]) && decide (a.k0 = 0xff) && decide (b.k0 = 1)
          && decide (a.x 7 = 9) && decide (b.x 7 = 9) && (find t.groups 2).isNone
        | _, _ => false) = true := by decide

/-- The `prgn` example: region 0x0123 of the versioned family, LOST, served by port 1, stranded lines, second loss. -/
theorem test_prgn_example :
    ({ State.reset with regions := [(0x123, { mode := 2, st := .lost, port := 1, losses := 2
                                              strand := [{ line := 0, words := [] }] })] } : State).regionWord 0x123
      = 0x0000000200360123 := by decide

/-- The scratchpad example of R211: core 6 of a 2 × 4 cluster is row 1, column 2. -/
theorem test_scratchpad_own_core :
    leavesG (exec (.ldxsI32 4 9 0 0) (machine (xs [(9, 0x10000400)]) (spadWord 0x400 7 team0)))
      (fun g => decide (g.x 4 = 7)) = true := by decide

theorem test_elseby_outside_dispatch_traps :
    leavesG (exec .elseby (trapping 0x1e grp0)) (fun g => decide (g.x 61 = 0x1e)) = true
    ∧ leavesG (exec .elseby (trapping 0x1e { grp0 with disp := true })) (fun g => decide (g.pc = 0x10004) && !g.disp) = true := by
  decide

/-! ### States that meet the hypotheses of the statements -/

def running : State := machine grp0

/-- A machine whose next step is the scalar stream of group 0. -/
def atScalar : State := { (running.setWord 0x4000 0x40287ffc) with agenda := [.scalar 0] }

def fetched (r : FRes) (p : State → Word → Bool) : Bool :=
  match r with
  | .ok s w => p s w
  | _ => false

theorem witness_DecodeEncode :
    (Instr.addi 5 3 (-4)).wf = true ∧ (Instr.addi 5 3 (-4)).stream = some .scalar
    ∧ (Instr.vadd .i32 false (op 255 (.v 255))).wf = true ∧ (Instr.vadd .i32 false (op 255 (.v 255))).stream = some .lane
    ∧ (match decode .scalar ((Instr.addi 5 3 (-4)).bytes ++ [1]) with
      | .ok (_, r) => decide (r = [1])
      | .error _ => false) = true := by decide

theorem witness_MemoryBytes : State.reset.tidy = true ∧ (running.setWord 1 7).tidy = true := by decide

theorem witness_RegisterFiles : (63 : Nat) < 64 ∧ grp0.wMask.getLsbD 7 = true ∧ grp0.wMask.getLsbD 8 = false := by decide

theorem witness_StepRuns_scalar :
    atScalar.tick.agenda = .scalar 0 :: [] ∧
    (let t : State := { atScalar.tick with agenda := [], cur := 0 }
     someAnd t.grp (fun g => decide (g.entry = none) && t.mayIssue 0 g && decide (g.pend = []) && decide (g.leaving ≠ some g.tclass)
       && fetched (t.fetchWord 0 g g.pc) (fun u w =>
       let b := u.buffered g g.pc w
       let h := g.fetched g.pc b.2
       let v : State := { b.1 with groups := put b.1.groups 0 h }
       decide (g.fbuf = []) && (match decodeScalar b.2 with
       | .ok i =>
         let rs := if h.winS.isEmpty && h.infl.isEmpty then setsOf i else v.setsAt v.cur h i
         h.winS.all (fun x => !(x.hits rs)) && !(stalls h rs) && !(v.waitsAtIssue v.cur h i)
         && decide (v.depth h.seat = 0)
         && leaves (exec i v) (fun x => someAnd (find x.groups v.cur) (fun j => ranScalar i h j))
       | .error _ => false)))) = true := by decide

/-- A group that is entering a handler. -/
theorem witness_StepRuns_entering :
    (let go (g : Group) : State := { ({ machine g with agenda := [.scalar 0] } : State).tick with agenda := [], cur := 0 }
     let e : Group := { grp0 with entry := some { trap := { num := 0x0c } } }
     decide (e.entry ≠ none) && decide (e.midway = false) && (go e).coreIssues 0 && !e.stopd && !e.stopReq) = true := by decide

theorem witness_StepRuns_leaving :
    (let t : State := { ({ machine { grp0 with leaving := some false } with agenda := [.scalar 0] } : State).tick with agenda := [], cur := 0 }
     someAnd t.grp (fun g => t.mayIssue 0 g && decide (g.pend = []) && decide (g.leaving = some g.tclass) && !g.midway)) = true := by decide

theorem witness_StepRuns_no_instruction :
    (let t : State := { ({ running with agenda := [.scalar 0] } : State).tick with agenda := [], cur := 0 }
     someAnd t.grp (fun g => t.mayIssue 0 g && decide (g.pend = []) && fetched (t.fetchWord 0 g g.pc) (fun _ w =>
       match decodeScalar w with
       | .ok _ => false
       | .error _ => true))) = true := by decide

/-- A machine whose next step is the lane stream of group 0, with a `vadd` at the head of its lane queue and an allowance. -/
def atLane (allow : BitVec 16) : State :=
  let s := { running with groups := [(0, { grp0 with laneQ := [{ bits := ((encLane (.vadd .i32 false (op 2 (.v 1) (.v 1)))).map LWord.word).getD 0, top := 0xff }] })]
                          cores := [(0, { tlb := [page], allow := allow, refill := 0 })], agenda := [.lane 0] }
  s

theorem witness_StepRuns_lane :
    (let s := atLane 60000
     let t : State := { s.tick with agenda := [], cur := 0 }
     someAnd t.grp (fun g => t.pipeFree 0 && t.mayIssue 0 g && !g.frozen && someAnd g.laneQ.head? (fun e => match decodeLane e.bits with
       | .ok i =>
         let rs := setsOf i
         let l := t.mates112 (0, g, e, i)
         let cs := cyclesOf (0, g, e, i) l
         let d := t.debit 0 (firstWeight cs) 0
         let c := d.setPipe 0 { d.pipe 0 with cycT := some d.tsc, restR := none, rest := (cs.flatMap (fun x => x.map (·.2))).tail }
         !(t.unserved g i) && g.winL.all (fun y => !(y.hits rs)) && decide (outOfRange g rs = none) && !(stalls g rs)
         && !(t.waitsAtIssue 0 g i) && t.granted 0 (firstWeight cs) && l.isEmpty && decide ((t.ctxOf g).chk = 0)
         && leaves (exec i t) (fun x => ranLane g x 0 && !(t.overRequests x 0))
         && leaves (exec i c) (fun x => ranLane g x 0 && !(c.overRequests x 0))
         && someAnd (c.captureRegs 0 g (writtenRegs g e i rs)) (fun v => leaves (exec i v) (fun _ => true))
       | .error _ => false))) = true := by decide

theorem witness_StepRuns_lane_refused :
    (let s := atLane 0
     let t : State := { s.tick with agenda := [], cur := 0 }
     someAnd t.grp (fun g => t.pipeFree 0 && t.mayIssue 0 g && someAnd g.laneQ.head? (fun e => match decodeLane e.bits with
       | .ok i => !(t.granted 0 (firstWeight (cyclesOf (0, g, e, i) (t.mates112 (0, g, e, i)))))
         && leaves (exec i t) (fun x => ranLane g x 0)
       | .error _ => false))) = true := by decide

/-- A lane instruction that waits: its push finds 64 decisions. -/
theorem witness_StepRuns_lane_waits :
    (let e : LaneEntry := { bits := ((encLane (.voteCount (op 0 (.v 1)))).map LWord.word).getD 0, top := 0xff }
     let s : State := { machine { grp0 with laneQ := [e], decQ := List.replicate 64 0 } with agenda := [.lane 0] }
     let t : State := { s.tick with agenda := [], cur := 0 }
     someAnd t.grp (fun g => t.pipeFree 0 && t.mayIssue 0 g && !g.frozen && (match decodeLane e.bits with
       | .ok i => !(t.unserved g i) && decide (outOfRange g (setsOf i) = none) && !(stalls g (setsOf i)) && !(t.waitsAtIssue 0 g i)
         && leaves (exec i t) (fun y => !(ranLane g y 0))
       | .error _ => false))) = true := by decide

theorem witness_StepRuns_lane_no_instruction :
    (let s := { running with groups := [(0, { grp0 with laneQ := [{ bits := 0, top := 0xff }] })], agenda := [.lane 0] }
     let t : State := { s.tick with agenda := [], cur := 0 }
     someAnd t.grp (fun g => t.mayIssue 0 g && !g.frozen && someAnd g.laneQ.head? (fun e => match decodeLane e.bits with
       | .ok _ => false
       | .error _ => true))) = true := by decide

theorem witness_ScalarFrame :
    scalarDest (.add 0 1 2) = some 0 ∧ running.grp = some grp0 ∧ leaves (exec (.add 0 1 2) running) (fun _ => true) = true := by
  decide

/-- The fields and state of a lane instruction of `machine` with one queue entry. -/
def laneIn (o : LaneOp) (g : Group) : LaneIn :=
  { g := lane o g, o := o, e := (lane o g).laneQ.headD { bits := 0, top := 0 }, heads := [] }

/-- The same with the entry of operand queue 0 that it pops. -/
def poppedIn (o : LaneOp) (g : Group) (x : QEntry) : LaneIn :=
  let h : Group := { lane o g with opq := [(0, { st := .exhausted, entries := [x] })] }
  { g := h, o := o, e := h.laneQ.headD { bits := 0, top := 0 }, heads := [(0, x)] }

theorem witness_LaneFrame :
    vectorOp (.vand (op 2 (.v 1))) = some (op 2 (.v 1))
    ∧ (laneIn (op 2 (.v 1)) grp0).atHead (machine (laneIn (op 2 (.v 1)) grp0).g) (op 2 (.v 1))
    ∧ leaves (exec (.vand (op 2 (.v 1))) (machine (laneIn (op 2 (.v 1)) grp0).g)) (fun _ => true) = true := by
  refine ⟨by decide, ⟨by decide, by decide, by decide, rfl⟩, by decide⟩

theorem witness_LaneFrame_queue :
    (poppedIn (op 2 (.q 0)) grp0 { vals := [5] }).atHead (machine (poppedIn (op 2 (.q 0)) grp0 { vals := [5] }).g) (op 2 (.q 0))
    ∧ leaves (exec (.vand (op 2 (.q 0))) (machine (poppedIn (op 2 (.q 0)) grp0 { vals := [5] }).g)) (fun _ => true) = true := by
  refine ⟨⟨by decide, by decide, by decide, rfl⟩, by decide⟩

/-- A group whose x9 points into memory and x10 into its own scratchpad, with 5 in x4. -/
def pointing : Group := xs [(4, 5), (6, 9), (9, 0x1000), (10, 0x10000400)]

def memMachine : State := machine pointing team0

/-- The same machine with its page uncached. -/
def uncached : State := { memMachine with cores := [(0, { tlb := [{ page with mt := true }] })] }

theorem witness_StoreFrame_cached :
    okAnd (memMachine.chkGlobal 0 pointing 0x1000 8 8 true true) (fun s1 pa mt =>
      !mt && !(s1.pageParked (coreOf s1.cur) (s1.ctxId pointing) 0x1000)
      && !(s1.atomHit s1.cur 0x1000 8) && decide ((linesOf (s1.core 0).l1).length < s1.l1Cap 0)
      && someAnd ((s1.countAcc s1.cur (pathOfPa pa)).2.storeN s1.cur 0x1000 pa 8 5 (s1.countAcc s1.cur (pathOfPa pa)).1 mt
        { pc := pointing.pc }) (fun _ => decide (s1.l1At 0 (pa / 4) = none)))
    && leaves (exec (.stx 4 9 0) memMachine) (fun _ => true) = true := by decide

theorem witness_StoreFrame_uncached :
    okAnd (uncached.chkGlobal 0 pointing 0x1000 4 4 true true) (fun s1 pa mt =>
      mt && !(s1.pageParked (coreOf s1.cur) (s1.ctxId pointing) 0x1000) && !(s1.atomHit s1.cur 0x1000 4)
      && someAnd ((s1.countAcc s1.cur (pathOfPa pa)).2.storeN s1.cur 0x1000 pa 4 5 (s1.countAcc s1.cur (pathOfPa pa)).1 mt
        { pc := pointing.pc }) (fun _ => true))
    && leaves (exec (.stxB32 4 9 0) uncached) (fun _ => true) = true := by decide

theorem witness_StoreFrame_scratchpad :
    memMachine.chkSpad pointing 0x10000400 8 true = .ok 0 0x400 ∧ memMachine.spadAtomHit pointing 0 0x400 8 = false
    ∧ someAnd (memMachine.storeSpad pointing.seat 0 0x400 8 5) (fun _ => true) = true
    ∧ leaves (exec (.stxs 4 10 0) memMachine) (fun _ => true) = true
    ∧ memMachine.chkSpadAtom pointing 0x10000400 = .ok 0 0x400
    ∧ leaves (exec (.amo .add .team 4 10 6) memMachine) (fun _ => true) = true
    ∧ someAnd (memMachine.atomSpad pointing.seat 0 0x400 .add (amoTy .add) 9 5) (fun _ => true) = true := by decide

theorem witness_StoreFrame_atomic :
    okAnd (memMachine.chkOrdered 0 pointing 0x1000 4 true (scopePermits .dev .add)) (fun s1 pa _ =>
      !(s1.parkedHit s1.cur 0x1000 4) && decide (s1.regQ = [])
      && someAnd (s1.atomGlobal s1.cur 0x1000 (pa / 4) .add (amoTy .add) 9 5) (fun _ => true))
    && leaves (exec (.amo .add .dev 4 9 6) memMachine) (fun _ => true) = true := by decide

theorem witness_StepKeepsMemory : atScalar.tidy = true ∧ leaves (step atScalar) (fun t => !t.mem.isEmpty) = true := by decide

/-- Values that the integer rows treat apart: a zero divisor, the most negative number, a shift count of 63. -/
theorem witness_integer_rows :
    (machine (xs [(2, 0x8000000000000000), (3, 0)])).grp = some (xs [(2, 0x8000000000000000), (3, 0)])
    ∧ (machine (xs [(2, 0x8000000000000000), (3, 0xffffffffffffffff)])).grp
      = some (xs [(2, 0x8000000000000000), (3, 0xffffffffffffffff)]) := by decide

/-- IntegerRows, MultiplyDivide, CountsExtends, Immediates and ComparesAddresses ask only for an acting group. -/
theorem witness_acting_group : running.grp = some grp0 := by decide

theorem witness_Branches : running.grp = some grp0 ∧ grp0.kFree 0 = true ∧ grp0.kFree 7 = true := by decide

theorem witness_ActivityStack :
    (machine { grp0 with act := List.replicate 31 0x0f }).grp = some { grp0 with act := List.replicate 31 0x0f }
    ∧ ({ grp0 with act := List.replicate 31 0x0f } : Group).kFree 1 = true
    ∧ ({ grp0 with act := List.replicate 32 0x0f } : Group).kFree 1 = true
    ∧ (machine { grp0 with act := List.replicate 32 0x0f }).grp = some { grp0 with act := List.replicate 32 0x0f }
    ∧ grp0.act = [] ∧ ({ grp0 with act := [0x0f] } : Group).act = 0x0f :: [] := by decide

/-- A group whose lane queue holds a `vcmp` into k2. -/
def comparing : Group := { grp0 with laneQ := [{ bits := 0x01b02007_00000001_02000000, top := 0x0f }] }

theorem witness_mask_waits : (machine comparing).grp = some comparing ∧ comparing.kFree 2 = false ∧ comparing.kFree 1 = true
    ∧ comparing.frozen = false ∧ blockedPush comparing = false ∧ 5 ≤ (5 : BitVec 7).toNat := by decide

theorem witness_MaskOperations : running.grp = some grp0 ∧ grp0.kFree 1 = true ∧ grp0.kFree 2 = true ∧ grp0.kFree 0 = true := by
  decide

def callers (n : Nat) (sp : Nat) : Group := { xs [(1, 0x20000), (2, 0x20002)] with ret := List.replicate n 0x30000, spill := sp }

theorem witness_CallsReturns_on_chip :
    (machine (callers 15 0)).grp = some (callers 15 0) ∧ (callers 15 0).retDepth < 1040 ∧ (callers 15 0).ret.length < 16
    ∧ ((callers 15 0).x 1).toNat % 4 = 0 ∧ ((callers 15 0).x 2).toNat % 4 ≠ 0
    ∧ (machine (callers 15 0)).floorDepth 0 (callers 15 0) < (callers 15 0).retDepth := by decide

/-- A spill area in the mapped page. -/
def spilling (g : Group) : State := machine g team0 { spillB := 0x100000 }

def mapped (r : Tr) (p : State → Nat → Bool → Bool) : Bool :=
  match r with
  | .ok s pa mt => p s pa mt
  | _ => false

theorem witness_CallsReturns_spill :
    (callers 16 1023).retDepth < 1040 ∧ 16 ≤ (callers 16 1023).ret.length
    ∧ mapped ((spilling (callers 16 1023)).translate 0 1 (spillAddr ((spilling (callers 16 1023)).ctxOf (callers 16 1023))
        ((callers 16 1023).spillSlot 0) + BitVec.ofNat 64 (8 * (callers 16 1023).spill)) .write true)
      (fun s1 pa _ => decide (s1.poolTrap pa = 0)
        && !(s1.noRoomBehind s1.cur 1 (spillAddr ((spilling (callers 16 1023)).ctxOf (callers 16 1023))
          ((callers 16 1023).spillSlot 0) + BitVec.ofNat 64 (8 * (callers 16 1023).spill)))) = true
    ∧ (callers 1 1).ret = [0x30000] ∧ (spilling (callers 1 1)).floorDepth 0 (callers 1 1) < (callers 1 1).retDepth
    ∧ mapped ((spilling (callers 1 1)).translate 0 1 (spillAddr ((spilling (callers 1 1)).ctxOf (callers 1 1))
        ((callers 1 1).spillSlot 0) + BitVec.ofNat 64 (8 * ((callers 1 1).spill - 1))) .read true)
      (fun s1 pa _ => decide (s1.poolTrap pa = 0)
        && !(s1.parkedHit s1.cur (spillAddr ((spilling (callers 1 1)).ctxOf (callers 1 1))
          ((callers 1 1).spillSlot 0) + BitVec.ofNat 64 (8 * ((callers 1 1).spill - 1))) 8)) = true := by decide

theorem witness_CallsReturns_traps :
    1040 ≤ (callers 16 1024).retDepth ∧ (machine (callers 16 1024)).grp = some (callers 16 1024)
    ∧ (callers 0 0).ret = [] ∧ ({ grp0 with ret := [0x30002] } : Group).ret = 0x30002 :: [] := by decide

theorem witness_LaneStreamControl :
    grp0.laneQ.length + ((0 : BitVec 6).toNat + 1) ≤ 256
    ∧ ({ grp0 with laneQ := List.replicate 255 { bits := 0, top := 0 } } : Group).laneQ.length + ((0 : BitVec 6).toNat + 1) ≤ 256
    ∧ (running.fetchWords 0 grp0 (grp0.lbase + BitVec.ofNat 64 (12 * (5 : BitVec 19).toNat)) 3 []).2.1.isSome = true
    ∧ grp0.laneBusy = false ∧ ({ grp0 with decQ := [7] } : Group).decQ = 7 :: []
    ∧ running.laneQuiet 0 grp0 = true
    ∧ ({ running with acks := [{ grp := 0, w := 0x40000, unc := true, lane := true }] } : State).laneQuiet 0 grp0 = false
    ∧ ({ grp0 with tclass := true, frozen := true } : Group).frozen = true ∧ grp0.frozen = false := by decide

theorem witness_SpecialRegisters :
    running.grp = some grp0 ∧ grp0.laneBusy = false ∧ grp0.tclass = false
    ∧ (machine { grp0 with tclass := true }).grp = some { grp0 with tclass := true }
    ∧ ({ grp0 with tclass := true } : Group).laneBusy = false := by decide

/-! ### Memory statements -/

def late : State := machine { pointing with late := true } team0

theorem witness_ScalarLoads :
    okAnd (memMachine.chkGlobal 0 pointing 0x1000 8 8 false true) (fun s1 pa mt =>
      !(s1.parkedHit s1.cur 0x1000 8) &&
      (let ld := s1.loadN s1.cur pa 8 mt
       let s2 := (ld.1.countAcc ld.1.cur (pathOfPa pa)).2
       someAnd s2.grp (fun g2 => !g2.late && (s2.consumeIf s2.cur ld.2.2).grp.isSome))) = true
    ∧ okAnd (late.chkGlobal 0 { pointing with late := true } 0x1000 4 4 false true) (fun s1 pa mt =>
      !(s1.parkedHit s1.cur 0x1000 4) &&
      (let ld := s1.loadN s1.cur pa 4 mt
       someAnd (ld.1.countAcc ld.1.cur (pathOfPa pa)).2.grp (fun g2 => g2.late))) = true := by decide

theorem witness_ScalarLoads_scratchpad :
    memMachine.chkSpad pointing 0x10000400 8 false = .ok 0 0x400
    ∧ someAnd (memMachine.countAcc 0 (spadPath 0 0)).2.grp (fun g2 => !g2.late
      && ((memMachine.countAcc 0 (spadPath 0 0)).2.consumeIf 0 (memMachine.loadSpad 0 0x400 8).2).grp.isSome) = true
    ∧ someAnd (late.countAcc 0 (spadPath 0 0)).2.grp (fun g2 => g2.late) = true := by decide

theorem witness_ScalarStores :
    okAnd (memMachine.chkGlobal 0 pointing 0x1000 8 8 true true) (fun s1 pa mt =>
      !(s1.pageParked (coreOf s1.cur) (s1.ctxId pointing) 0x1000)
      && someAnd ((s1.countAcc s1.cur (pathOfPa pa)).2.storeN s1.cur 0x1000 pa 8 5 (s1.countAcc s1.cur (pathOfPa pa)).1 mt
        { pc := pointing.pc }) (fun s3 => s3.grp.isSome)) = true
    ∧ someAnd (memMachine.storeSpad pointing.seat 0 0x400 4 5) (fun s1 => (s1.countAcc s1.cur (spadPath s1.cur 0)).2.grp.isSome)
      = true := by decide

/-- The read-back clauses: an uncached page, words that the L1 does not hold, and one that it holds registered under the group's
own tag. -/
theorem witness_ScalarStores_read_back :
    okAnd (uncached.chkGlobal 0 pointing 0x1000 4 4 true true) (fun s1 pa mt => mt
      && someAnd ((s1.countAcc s1.cur (pathOfPa pa)).2.storeN s1.cur 0x1000 pa 4 5 (s1.countAcc s1.cur (pathOfPa pa)).1 mt
        { pc := pointing.pc }) (fun s3 => s3.grp.isSome && decide (s3.rawN pa 4 = 5))) = true
    ∧ (∀ held : Bool, let x : L1Word := { val := 0, dot := pointing.vv.own, mask := 0xf, reg := true }
      let m : State := if held then memMachine.setCore 0 { memMachine.core 0 with l1 := [(0x400, x)] } else memMachine
      okAnd (m.chkGlobal 0 pointing 0x1000 4 4 true true) (fun s1 pa mt => !mt && decide (pa % 4 = 0) && !(s1.atomHit s1.cur 0x1000 4)
        && !(s1.pageParked 0 (s1.ctxId pointing) 0x1000)
        && (let s2 := (s1.countAcc s1.cur (pathOfPa pa)).2
            (match s2.l1At 0 (pa / 4) with
              | some y => held && y.reg && l1Visible y (s2.groupConv s2.cur) && decide (y.dot.serial = pointing.vv.own.serial)
                  && decide (y.hid = s2.hidTag pointing.seat (pa / 4))
              | none => !held)
            && someAnd (s2.storeN s1.cur 0x1000 pa 4 5 (s1.countAcc s1.cur (pathOfPa pa)).1 mt { pc := pointing.pc })
              (fun s3 => s3.grp.isSome && (held || decide ((s3.loadN s3.cur pa 4 false).2.1 = 5))))) = true) := by decide

def faulted (r : Tr) (p : State → Bool) : Bool :=
  match r with
  | .fault s => p s
  | _ => false

/-- The same machine with a range registered by a watch: global bytes 0x1000 to 0x100f, or scratchpad bytes 0x400 to 0x40f. -/
def registered (sp : Bool) : State :=
  let lo : Nat := if sp then 0x400 else 0x1000
  { memMachine with
    cores := [(0, { tlb := [page], locks := [{ sp := sp, ctx := 1, lo := lo, hi := lo + 16, write := true, owner := .watch 0 }] })] }

/-- The same machine with a page that no memory stands behind. -/
def beyond : State := { memMachine with cores := [(0, { tlb := [{ page with vpn := 1, pa := 2 ^ 32 }] })] }

theorem witness_AccessTraps_global :
    (((0x0200000000000000 : DWord).truncate 57 : BitVec 57)).signExtend 64 ≠ (0x0200000000000000 : DWord)
    ∧ (((0x1004 : DWord).truncate 57 : BitVec 57)).signExtend 64 = (0x1004 : DWord) ∧ (0x1004 : DWord).toNat % 8 ≠ 0
    ∧ (0x1002 : DWord).toNat % 4 ≠ 0
    ∧ (∀ w : Bool, faulted (beyond.translate 0 1 0x40000000 (if w then .write else .read) false) (fun _ => true) = true
      ∧ mapped ((registered false).translate 0 1 0x1008 (if w then .write else .read) false)
        (fun s1 pa _ => decide (s1.poolTrap pa = 0) && s1.lockedG 0 1 0x1008 8 w) = true) := by decide

/-- A page whose translation awaits the host, in a registered range. -/
theorem witness_AccessTraps_waits :
    (let s : State := { (registered false).setCore 0 { (registered false).core 0 with tlb := [] } with
       faults := [{ rid := 0, ctx := 1, page := 1, acc := accNum .read }, { rid := 1, ctx := 1, page := 1, acc := 3 },
         { rid := 2, ctx := 1, page := 1, acc := accNum .write }] }
     ∀ w : Bool, (match s.translate 0 1 0x1008 (if w then .write else .read) false with
       | .wait s1 => s1.lockedG 0 1 0x1008 8 w
       | _ => false) = true) := by decide

theorem witness_AccessTraps_scratchpad :
    2 ^ 32 ≤ (0x100000000 : DWord).toNat ∧ memMachine.spadRange pointing 0x10010000 8 = none
    ∧ memMachine.spadRange pointing 0x1000fffc 8 = none
    ∧ memMachine.spadRange pointing 0x10000404 8 = some (0, 0x404) ∧ (0x10000404 : DWord).toNat % 8 ≠ 0
    ∧ (registered true).spadRange pointing 0x10000408 8 = some (0, 0x408)
    ∧ (∀ w : Bool, (registered true).lockedS 0 ((registered true).ctxId pointing) 0 0x408 8 w = true) := by decide +kernel

theorem test_access_traps :
    (∀ i : Instr, i ∈ [.ldx 4 9 0 0, .stx 4 9 0] → leavesG (exec i (trapping 0x12 (xs [(9, 0x1004)]))) (fun g => decide (g.x 61 = 0x12)) = true)
    ∧ (∀ i : Instr, i ∈ [.ldxs 4 9 0 0, .ldxsI32 4 9 0 0, .stxs 4 9 0, .stxsB32 4 9 0] →
      leavesG (exec i (trapping 0x11 (xs [(9, 0x10010000)]))) (fun g => decide (g.x 61 = 0x11) && decide (g.x 62 = 0x10010000)) = true) := by
  decide

theorem releasable_memMachine (n : Fin 5) : memMachine.releasable pointing n.val :=
  ⟨by decide, by revert n; decide, by revert n; decide⟩

theorem witness_AcquireRelease_fence :
    ((memMachine.releasedAt 3).acquire (memMachine.releasedAt 3).cur 3).grp.isSome = true := by decide

theorem witness_AcquireRelease_acq :
    okAnd (memMachine.chkOrdered 0 pointing 0x1000 8 false anyMem) (fun s1 pa mt =>
      !(s1.parkedHit s1.cur 0x1000 8) &&
      (let lo := s1.acqWord s1.cur (pa / 4) 3 mt
       let hi := lo.1.acqWord lo.1.cur (pa / 4 + 1) 3 mt
       let m := hi.1.mergeRecords hi.1.cur (pa / 4) lo.2.found
       let m := m.mergeRecords m.cur (pa / 4 + 1) hi.2.found
       let t := ((m.acquire m.cur 3).countAcc (m.acquire m.cur 3).cur (pathOfPa pa)).2
       (t.consumeIf t.cur (lo.2.pois || hi.2.pois)).grp.isSome)) = true := by decide

/-- A release that is performed at once, and one whose store awaits an acknowledgement of the host. -/
theorem witness_AcquireRelease_rel :
    okAnd (memMachine.chkOrdered 0 pointing 0x1000 8 true anyMem) (fun s1 pa mt =>
      !mt && !(pointing.relW) &&
      (let s2 := s1.pushOut s1.cur 3
       someAnd (s2.captureLine pointing.seat (pa / 4) (s2.hidTag pointing.seat (pa / 4)).isSome) (fun s3 =>
        let s4 := (s3.noteWrote pointing.seat (pa / 4)).noteWrote pointing.seat (pa / 4 + 1)
        let q : StoreReq := { s4.reqOf s2.cur pointing 0x1000 pa with
          val := (pointing.x 4).truncate 32, hid := s2.hidTag pointing.seat (pa / 4), rel := true
          pair := some (pa / 4 + 1, (pointing.x 4 >>> 32).truncate 32) }
        (match s4.relStore q with
        | .error _ => false
        | .ok s5 =>
          let t : State := ((s5.stampDot s2.cur q.dot).countAcc s2.cur (pathOfPa pa)).2
          decide (t.lostAck t.cur 3 = none) && t.acked t.cur 3 && (t.publishVec t.cur 3).grp.isSome)))) = true := by decide

theorem witness_AcquireRelease_waits :
    (let s : State := { machine { pointing with relW := true } with acks := [{ grp := 0, w := 0x400, unc := true }] }
     decide (s.lostAck s.cur 4 = none) && !(s.acked s.cur 4)) = true
    ∧ leavesG (exec (.rel .sys 4 9) { machine { pointing with relW := true } with acks := [{ grp := 0, w := 0x400, unc := true }] })
      (fun g => g.relW && decide (g.pc = 0x10000)) = true
    ∧ leavesG (exec (.rel .sys 4 9) (machine { pointing with relW := true })) (fun g => !g.relW && decide (g.pc = 0x10004)) = true := by
  decide

theorem witness_ScalarAtomics :
    pointing.late = false ∧ scopeNum .team < 2 ∧ memMachine.chkSpadAtom pointing 0x10000400 = .ok 0 0x400
    ∧ memMachine.spadAtomHit pointing 0 0x400 4 = false
    ∧ someAnd (memMachine.atomSpad pointing.seat 0 0x400 .cas (amoTy .cas) 9 5) (fun r =>
      (r.1.countAcc r.1.cur (spadPath r.1.cur 0)).2.grp.isSome) = true
    ∧ okAnd (memMachine.chkOrdered 0 pointing 0x1000 4 true (scopePermits .dev .cas)) (fun s0 pa _ =>
      !(s0.parkedHit s0.cur 0x1000 4)
      && someAnd (s0.atomGlobal s0.cur 0x1000 (pa / 4) .cas (amoTy .cas) 9 5) (fun r =>
        (r.1.countAcc r.1.cur (pathOfPa pa)).2.grp.isSome)) = true
    ∧ okAnd (memMachine.chkOrdered 0 pointing 0x1000 4 true (scopePermits .clus .add)) (fun s1 pa _ =>
      !(s1.parkedHit s1.cur 0x1000 4) && (s1.countAcc s1.cur (pathOfPa pa)).2.grp.isSome) = true := by
  decide

def bank : Group := xs [(10, 0x1000), (11, 8), (6, 1)]

def bankLock (c : Nat) (w : Bool) (k : Nat) : RangeLock :=
  { sp := false, ctx := c, lo := 0x1000, hi := 0x1008, write := w, owner := .bank k }

theorem witness_BankOperations :
    (∀ w : Bool, (match (machine bank).nearWords 0 bank w 0x1000 2 [] with
      | .ok s1 ws => decide (ws.length = 2) && s1.engineClear s1.cur bank
        && someAnd (s1.tryLock 0 [bankLock (s1.ctxId bank) w s1.cur]) (fun s2 =>
            let x : BankRun := { words := ws, va := 0x1000, dot := newDot s2 bank, vec := storeVec bank.vv (newDot s2 bank)
                                 act := if w then some (.addI32, 1) else none }
            if w then someAnd (s2.bopRun s2.cur .addI32 1 (bankWords bank x) x) (fun r =>
              decide (r.2.words = []) && (r.1.unlock 0 (.bank r.1.cur)).grp.isSome)
            else (let r := s2.bredRun s2.cur (bankWords bank x) x
              decide (r.2.words = []) && ((r.1.consumeIf r.1.cur r.2.pois).unlock 0 (.bank r.1.cur)).grp.isSome))
      | _ => false) = true)
    ∧ (16777216 : DWord).toNat ≤ 16777216 ∧ ((0 : DWord).toNat ≤ 16777216 ∧ (0 : DWord).toNat % 4 = 0) := by decide

/-- An operation under way in a group whose accesses take their time: a word is left, then none. -/
def banking (ws : List Nat) : BankRun := { words := ws, va := 0x1000, dot := ⟨1, 1⟩, vec := {} }

theorem witness_BankOperations_under_way :
    (∀ ws ∈ [[0x400, 0x401], [0x401]], let g : Group := { bank with late := true, bank := some (banking ws) }
      leavesG (exec (.bop .addI32 6 10 11) (machine g)) (fun h => decide (h.bank.isSome = decide (ws.length = 2))
        && decide (h.pc = if ws.length = 2 then 0x10000 else 0x10004)) = true
      ∧ leavesG (exec (.bred .addI32 6 10 11) (machine g)) (fun h => decide (h.bank.isSome = decide (ws.length = 2))
        && decide (h.pc = if ws.length = 2 then 0x10000 else 0x10004)) = true) := by decide

theorem witness_Awaits :
    okAnd (memMachine.chkOrdered 0 pointing 0x1000 4 false anyMem) (fun s1 pa mt =>
      !(s1.parkedHit s1.cur 0x1000 4) &&
      (let ld := s1.acqWord s1.cur (pa / 4) 3 mt
       ld.2.val == 0 && (ld.1.consumeIf ld.1.cur ld.2.pois).grp.isSome
       && (let m := ld.1.mergeRecords ld.1.cur (pa / 4) ld.2.found
           let t := m.acquire ld.1.cur 3
           (t.consumeIf t.cur ld.2.pois).grp.isSome))) = true
    ∧ leavesG (exec (.await .eq false 4 9 0) memMachine) (fun g => decide (g.pc = 0x10004)) = true
    ∧ leavesG (exec (.await .ne false 4 9 0) memMachine) (fun g => decide (g.pc = 0x10000)) = true := by decide

/-- A group blocked at an `await` on the word at 0x1000, which holds 0. -/
def blocked (cc : AwaitCond) : Group :=
  { pointing with awt := some { cc := cc, acq := true, d := 4, addr := 0x1000, rhs := 0 }, wf := { kind := 12 } }

theorem witness_Awaits_recheck :
    (machine (blocked .eq) team0).grp = some (blocked .eq)
    ∧ okAnd ((machine (blocked .eq) team0).chkOrdered 0 (blocked .eq) 0x1000 4 false anyMem) (fun _ _ _ => true) = true
    ∧ leavesG (exec (.awaitRecheck 0) (machine (blocked .eq) team0)) (fun g => decide (g.pc = 0x10004) && decide (g.x 4 = 0)) = true
    ∧ leavesG (exec (.awaitRecheck 0) (machine (blocked .ne) team0)) (fun g => decide (g.pc = 0x10000) && g.awt.isSome) = true := by
  decide

/-- A cell with two siblings at 0x1000, of generation 1. -/
def siblings : State := { memMachine with
  cells := [(0x400, { base := some 10, gen := 1, vals := [{ val := 11, dot := ⟨0x102, 170⟩ }, { val := 12, dot := ⟨0x103, 190⟩ }] })] }

/-- The words that the two kinds of atomic act on: the scratchpad's, and at the home one that is no cell. -/
theorem witness_ScalarAtomics_words :
    (find memMachine.teams 0).isSome = true ∧ memMachine.grp = some pointing
    ∧ someAnd (memMachine.atomSpad pointing.seat 0 0x400 .add .i32 9 5) (fun _ => true) = true
    ∧ someAnd (memMachine.atomGlobal 0 0x1000 0x400 .add .i32 9 5) (fun r => decide (r.2.2 = 0)) = true
    ∧ ((memMachine.bringHome 0 0x400).cellRec 0x400).vals = [] ∧ (memMachine.bringHome 0 0x400).hidTag pointing.seat 0x400 = none
    ∧ someAnd (siblings.atomGlobal 0 0x1000 0x400 .add .i32 9 5) (fun _ => (siblings.bringHome 0 0x400).isCell 0x1000) = true
    ∧ 1 < ((siblings.bringHome 0 0x400).view 0x400 (siblings.groupConv 0)).length := by decide

theorem witness_CellInstructions_loads :
    okAnd (siblings.chkOrdered 0 pointing 0x1000 4 false anyMem) (fun s1 pa _ =>
      !(s1.parkedHit s1.cur 0x1000 4) &&
      (let s2 := s1.settleWord (coreOf s1.cur) (pa / 4)
       let t := (s2.countAcc s2.cur (pathOfPa pa)).2
       someAnd t.grp (fun g2 => !g2.late)
       && (t.consumeIf t.cur (viewPois (s2.homeView (pa / 4) (s2.groupConv s2.cur)))).grp.isSome)) = true := by decide

def collapsed (r : Collapse) : Bool :=
  match r with
  | .ok t => t.grp.isSome
  | _ => false

theorem witness_CellInstructions_reconciles :
    okAnd (siblings.chkOrdered 0 pointing 0x1000 4 true siblings.isCell) (fun s1 pa _ =>
      !(s1.atomHit s1.cur 0x1000 4) &&
      (let s2 := s1.bringHome (coreOf s1.cur) (pa / 4)
       let v := s2.view (pa / 4) (s2.groupConv s2.cur)
       let s3 := (s2.countAcc s2.cur (pathOfPa pa)).2
       decide (viewCnt v = 2) && decide ((s2.cellRec (pa / 4)).base = some 10)
       && collapsed (s3.collapse s3.cur pointing 0x1000 (pa / 4) v 13) && decide (s3.depth pointing.seat = 0)
       && (s3.allVals (pa / 4)).all (fun x => decide (x.hid = none) && decide (x.disp = []))
       && decide (2 ≤ viewCnt v ∧ viewCnt v = ((0x0000010200000000 : DWord) >>> 32).toNat % 8
         ∧ (s2.cellRec (pa / 4)).gen.toNat = ((0x0000010200000000 : DWord) >>> 40).toNat))) = true
    ∧ okAnd (memMachine.chkOrdered 0 pointing 0x1000 4 true memMachine.isCell) (fun s1 pa _ =>
      let s2 := s1.bringHome (coreOf s1.cur) (pa / 4)
      !(s1.atomHit s1.cur 0x1000 4) && decide (viewCnt (s2.view (pa / 4) (s2.groupConv s2.cur)) = 0)
      && (s2.countAcc s2.cur (pathOfPa pa)).2.grp.isSome) = true := by decide

def readOk (r : RdRes) (p : State → List DWord → Bool → Bool) : Bool :=
  match r with
  | .ok s l z => p s l z
  | _ => false

theorem witness_VectorsLines :
    memMachine.grp = some pointing
    ∧ readOk (memMachine.readDw 0 pointing 0x1000 8 true 8) (fun s1 l p => decide (l.length = 8)
      && (((s1.consumeIf s1.cur p).countAcc s1.cur (s1.pathAt s1.cur pointing 0x1000)).2.grp.isSome)) = true
    ∧ memMachine.parkedHit 0 0x1000 64 = false
    ∧ (let lines := memMachine.rangeLines 0 1 0x1000 0x1004 1 1
       let t := memMachine.cleanLines 0 lines false
       (t.countAcc t.cur .gl).2.grp.isSome = true ∧ (memMachine.cleanLines 0 lines true).grp.isSome = true)
    ∧ (((0x0200000000000000 : DWord).truncate 57 : BitVec 57)).signExtend 64 ≠ (0x0200000000000000 : DWord) := by decide

/-- Ranges at the bounds of the canonical form: in the upper half, up to the last address, and one that wraps or crosses into the
hole between the halves. -/
theorem witness_VectorsLines_bounds :
    (let canon (v : DWord) : Bool := decide ((v.truncate 57).signExtend 64 = v)
     let ok (va n : Nat) : Bool := decide (va + n - 1 < 2 ^ 64) && canon (BitVec.ofNat 64 va) && canon (BitVec.ofNat 64 (va + n - 1))
     ok 0xff00000000000000 0x80 = true ∧ ok 0xffffffffffffffff 1 = true ∧ ok 0xffffffffffffffff 2 = false
     ∧ ok 0x00ffffffffffffff 1 = true ∧ ok 0x00ffffffffffffff 2 = false ∧ ok 0xfeffffffffffffff 2 = false) := by decide

theorem test_clean_outside_canonical_form :
    (∀ i : Instr, i ∈ [.clean 9 6, .inval 9 6] →
      leavesG (exec i (trapping 0x10 (xs [(9, 0xffffffffffffffff), (6, 2)]))) (fun g => decide (g.x 61 = 0x10)) = true
      ∧ leavesG (exec i (trapping 0x10 (xs [(9, 0xffffffffffffffff), (6, 1)]))) (fun g => decide (g.pc = 0x10004)) = true) := by
  decide

/-! ### Queues, channels, teams, recovery blocks and traps -/

/-- Words placed in memory from an address on. -/
def place (s : State) (a : Nat) (l : List Word) : State :=
  (List.range l.length).foldl (fun t n => t.setWord (a / 4 + n) (l.getD n 0)) s

/-- A pattern record at 0x1000: four words at 0x2000. -/
def patterned (g : Group) : State := place (machine g team0) 0x1000 [0x2000, 0, 0, 0, 4, 1, 1, 1, 4, 0, 0, 0, 4, 0, 0, 0]

def armed : Group := { pointing with
  opq := [(0, { st := .armed, pat := { base := 0x2000, n0 := 4, s0 := 4, esize := 4 } })] }

theorem witness_PatternInstructions_spset :
    readOk ((patterned pointing).readDw 0 pointing 0x1000 8 true 8) (fun s1 l z =>
      (Machine.parsePattern l 0).isSome && (let t := ((s1.stopQueue s1.cur 0 .armed).countAcc s1.cur .pat).2
        (t.consumeIf t.cur z).grp.isSome)) = true ∧ (patterned pointing).parkedHit 0 0x1000 64 = false := by decide

theorem witness_PatternInstructions_spgo :
    (armed.queue 0).st ≠ .idle ∧ (machine armed).engineClear 0 armed = true ∧ (match (machine armed).patLock 0 armed 0 (armed.queue 0).pat with
      | .ok l => let s1 := (machine armed).stopQueue 0 0 (armed.queue 0).st
        someAnd (find s1.groups 0) (fun g1 => decide (s1.slotsUsed 0 g1 + 8 ≤ 256) && (s1.tryLock 0 [l]).isSome)
      | .error _ => false) = true
    ∧ (grp0.queue 0).st = .idle ∧ ((machine armed).stopQueue 0 0 .idle).grp.isSome = true
    ∧ running.waitCount grp0 .gl ≤ (grp0.x 0).toNat := by decide

/-- A team that holds channel 1, with a record address in x9 and a batch in x4. -/
def copier (k : Chan) : State := { memMachine with cores := [(0, { tlb := [page], chans := [(1, k)] })] }

theorem witness_CopyChannels_cpgo :
    memMachine.grp = some pointing ∧ (0x1000 : DWord).toNat % 32 = 0
    ∧ (((0x1000 : DWord).truncate 57 : BitVec 57)).signExtend 64 = (0x1000 : DWord)
    ∧ (memMachine.chan 0 1).st = .free
    ∧ chanHeld { team := pointing.seat, st := .idle } pointing.seat = true
    ∧ chanHeld ((copier { st := .running, team := 0, headq := List.replicate 7 { cur := 0, batch := 1, grp := 0, gid := 0, dot := {}, vec := {} } }).chan 0 1) 0 = true
    ∧ ((List.replicate 7 ({ cur := 0, batch := 1, grp := 0, gid := 0, dot := {}, vec := {} } : Chain)).length < 8)
    ∧ leavesG (exec (.cpgo 1 9) memMachine) (fun g => decide (sget 0 g.cnt 4 = 1)) = true := by decide

theorem witness_CopyChannels_held :
    chanHeld ((copier { st := .idle, team := 0, sealed := 5, done := 5 }).chan 0 1) 0 = true
    ∧ ((pointing.x 4).truncate 32 : BitVec 32) ≠ 0 ∧ ¬0 < (((pointing.x 4).truncate 32 : BitVec 32) - 5).toInt
    ∧ ¬((5 : BitVec 32) - (pointing.x 4).truncate 32).toInt < 0 ∧ 0 < (((pointing.x 4).truncate 32 : BitVec 32) - 4).toInt
    ∧ ((0 : DWord).truncate 32 : BitVec 32) = 0
    ∧ (copier { st := .idle, team := 0 }).grp.isSome = true
    ∧ chanHeld ((copier { st := .idle, team := 3 }).chan 0 1) 0 = false ∧ chanHeld (memMachine.chan 0 1) 0 = false
    ∧ leavesG (exec (.cpabort 5 1) (copier { st := .running, team := 0 })) (fun _ => true) = true
    ∧ leavesG (exec (.cpflt 5 1) (copier { st := .halted, team := 0 })) (fun _ => true) = true
    ∧ leavesG (exec (.cpseal 5 1) (copier { st := .idle, team := 0 })) (fun g => decide (g.x 5 = 1)) = true := by decide

theorem witness_TasksWatches_tspawn :
    (0x1000 : DWord).toNat % 4 = 0 ∧ someAnd (memMachine.releasedAt 1).grp (fun g1 =>
      let r := memMachine.releasedAt 1
      someAnd (r.insertTask (coreOf r.cur) g1.seat (r.teamOf g1).gw 0x1000 { args := argWords g1 6, vec := g1.vv }) (fun s2 =>
        s2.grp.isSome)) = true := by decide

/-- A watch record at 0x1000 on 128 bytes from 0x2000, with entry 0x3000. -/
def watching : State := place memMachine 0x1000 [0x2000, 0, 0x3000, 0, 7, 0, 128, 0]

def watchLock (c k e : Nat) : RangeLock := { sp := false, ctx := c, lo := 0x2000, hi := 0x2080, write := true, owner := .watch (watchKey k e) }

/-- The watch that a record arms at a state. -/
def arming (s : State) (g : Group) (r : WatchRec) : Bool :=
  mapped (s.translate (coreOf s.cur) (s.ctxId g) r.base .read g.tclass) (fun s2 pa _ =>
    let k := s2.homeSlice pa
    let ent := freshFrom ((s2.slice k).watches.map (·.1)) 64 0
    isDevMem pa && decide (ent < 64) && s2.engineClear s2.cur g
    && (s2.tryLock (coreOf s2.cur) [watchLock (s2.ctxId g) k ent]).isSome)

theorem witness_TasksWatches_watch :
    pointing.wrec = none
    ∧ readOk (watching.readDw 0 pointing 0x1000 32 false 4) (fun s1 l p => someAnd (Machine.parseWatch l) (fun w =>
      let r : WatchRec := { w with pois := p, path := s1.pathAt s1.cur pointing 0x1000 }
      decide (w.base = 0x2000) && decide (w.len = 128) && arming s1 pointing r && (s1.readWatch r).grp.isSome
      && arming (watching.setGrp { pointing with wrec := some w }) { pointing with wrec := some w } w)) = true
    ∧ watching.parkedHit 0 0x1000 32 = false
    ∧ leavesG (exec (.watch 5 9) watching) (fun h => decide (h.x 5 ≠ 0) && decide (h.wrec = none)) = true := by decide

def watchAt (team gen : Nat) : Watch :=
  { core := 0, team := team, ctx := 1, lo := 0x2000, len := 4, va := 0x2000, entry := 0x3000, tag := 0, pers := false
    gen := BitVec.ofNat 24 gen, vec := {} }

/-- Every entry of the slice of 0x2000 is taken. -/
theorem witness_TasksWatches_full :
    64 ≤ freshFrom ((({ watching with slices := (List.range 64).map (fun k => (k, { watches := (List.range 64).map (fun n => (n, watchAt 0 1)) })) } : State).slice
      (watching.homeSlice 0x2000)).watches.map (·.1)) 64 0 := by decide

theorem witness_TasksWatches_unwatch :
    (let s : State := { machine (xs [(9, watchHandle 0 63 1)]) with slices := [(0, { watches := [(63, watchAt 0 1)] })] }
     someAnd s.grp (fun g => decide (dw (g.x 9) 6 6 + 64 * dw (g.x 9) 12 2 = 0) && decide (dw (g.x 9) 0 6 = 63)
       && decide (find (s.slice 0).watches 63 = some (watchAt 0 1)) && decide (watchHandle 0 63 (watchAt 0 1).gen = g.x 9))
     && leavesG (exec (.unwatch 5 9) s) (fun g => decide (g.x 5 = 1))) = true
    ∧ find (running.slice 0).watches 0 = none := by decide

/-- What `unwatch` of entry 63 of slice 0 answers where the entry holds a watch, for a handle of one GEN. -/
def unwatched (h : Nat) (w : Watch) : Bool :=
  let s : State := { machine (xs [(9, watchHandle 0 63 (BitVec.ofNat 24 h))]) with slices := [(0, { watches := [(63, w)] })] }
  leaves (exec (.unwatch 5 9) s) (fun t => decide (t.slices = s.slices)
    && (match t.grp with
      | some g => decide (g.x 5 = 0) && decide (g.pc = 0x10004)
      | none => false))

/-- A stale GEN, another team's watch, a one-shot watch that has fired, and the handle 0 beside a watch of entry 0. -/
theorem witness_TasksWatches_unwatch_none :
    unwatched 2 (watchAt 0 1) = true ∧ unwatched 1 (watchAt 3 1) = true ∧ unwatched 1 { watchAt 0 1 with armed := false } = true
    ∧ (let s : State := { machine (xs []) with slices := [(0, { watches := [(0, watchAt 0 1)] })] }
       decide ((find (s.slice 0).watches 0).map (·.gen) = some 1)
       && leavesG (exec (.unwatch 5 9) s) (fun g => decide (g.x 5 = 0) && decide (g.pc = 0x10004))) = true := by decide

def claimer (n : DWord) (g : Group := grp0) : Group := xs [(1, n)] g

theorem witness_RowsAndGroups :
    (machine (claimer 16)).grp = some (claimer 16) ∧ (claimer 16).laneQ = [] ∧ ((claimer 16).x 1).toNat ≤ (claimer 16).allot
    ∧ (machine (claimer 16)).depth (claimer 16).seat = 0 ∧ (claimer 256).allot < ((claimer 256).x 1).toNat ∧ ((claimer 256).x 1).toNat ≤ 256
    ∧ ((machine (claimer 256)).pipe 0).claims = [] ∧ (machine (claimer 256)).rowsFit 0 0 0 8 (256 - 32) = true
    ∧ ((claimer 16).x 1).toNat < (claimer 16).allot ∧ (claimer 32).allot ≤ ((claimer 32).x 1).toNat
    ∧ ¬(((claimer 272).x 1).toNat ≤ 256) ∧ ¬(((claimer 40).x 1).toNat % 16 = 0) ∧ ¬(16 ≤ ((claimer 0).x 1).toNat) := by decide

/-- A claim in its turn behind nothing, and one that waits at the head of its pipe's requests. -/
theorem witness_RowsAndGroups_turn :
    (let s : State := { machine (claimer 256) with pipes := [(0, { claims := [.claim 0 256] })] }
     decide ((s.pipe 0).claims.head? = some (.claim 0 256)) && s.rowsFit 0 0 0 8 (256 - 32)
       && leavesG (exec (.claim 5 1) s) (fun g => decide (g.allot = 256) && decide (g.x 5 = 256))) = true
    ∧ leavesG (exec (.give 5 1) (machine (claimer 16))) (fun g => decide (g.allot = 16) && decide (g.x 5 = 16)) = true := by decide

theorem witness_RowsAndGroups_ends :
    running.depth grp0.seat = 0 ∧ grp0.laneBusy = false ∧ grp0.infl = []
    ∧ (∀ p ∈ [Path.sp, .gl, .rsp, .pat, .pl], running.counter 0 grp0 p = 0)
    ∧ (running.core 0).replay.all (fun p => p.grp ≠ 0) = true ∧ running.acked running.cur 1 = true
    ∧ (let s1 := (machine (claimer 32)).setGrp { claimer 32 with arr := some (.regroup 32 5) }
       let ms := s1.members 0
       (ms.head?.bind (fun e => e.2.regroupN)).getD 0 = 32 ∧ (ms.all (fun e => match e.2.regroupN with
         | some n => decide (n ≤ e.2.allot) && decide (32 ≤ e.2.allot)
         | none => false)) = true ∧ ms ≠ []) := by decide

/-- Three groups of eight lanes, nine of them live: two survive a compaction and one does not. -/
def compacting : State :=
  let g (n : Nat) (k : DWord) : Group := { grp0 with gid := n, k0 := k, arr := some (.regroup 8 7) }
  { machine grp0 with groups := [(0, g 0 0x12), (1, g 1 0xed), (2, g 2 0x80)] }

theorem witness_RowsAndGroups_compaction :
    (let ms := compacting.members 0
     let L := ms.flatMap (fun e => ((List.range 8).filter (fun l => e.2.k0.getLsbD l && e.2.top.getLsbD l)).map (fun l => (e.1, l)))
     decide ((ms.map (·.1)).Nodup) && ms.all (fun e => decide (find compacting.groups e.1 = some e.2)) && decide (ms.length = 3) && ms.all (fun e => decide (e.2.gw = 8))
       && decide ((L.length + 8 - 1) / 8 = 2) && decide (L[8]? = some (2, 7))) = true := by decide

theorem witness_RowsAndGroups_end :
    (let s : State := { compacting with launches := [(0, { ctx := 1 })] }
     (find s.groups 1).isSome && someAnd (find s.teams 0) (fun t => (find s.launches t.launch).isSome)
       && (find (s.endGroup 1).groups 1).isNone && (find (s.endGroup 1).groups 0).isSome) = true := by decide

/-- An open recovery level. -/
def level1 : Level := { endA := 0x20000, errA := 0x20010, alts := [0x20020], limit := 0 }

def inBlock (g : Group) : State := machine g { team0 with levels := [level1] }

/-- StepRuns in a block at level 1, where Sepia captures the register before the write. -/
theorem witness_StepRuns_captures :
    (let s : State := inBlock grp0
     let rs := setsOf (.addi 5 3 (-4))
     decide (s.depth grp0.seat ≠ 0) && s.writesNow grp0 (.addi 5 3 (-4))
     && someAnd (s.captureRegs 0 grp0 rs.dests) (fun y => leaves (exec (.addi 5 3 (-4)) y) (fun _ => true))) = true := by
  decide

theorem witness_RowsAndGroups_in_block : 0 < (inBlock grp0).depth 0 ∧ (inBlock grp0).grp = some grp0
    ∧ 0 < (inBlock (claimer 32)).depth 0 ∧ ((claimer 32).x 1).toNat = 32 := by decide

def barred (b : Barrier) (g : Group) : State := machine g { team0 with bars := [(63, b)] }

theorem witness_Barriers :
    1 ≤ ((claimer 65535).x 1).toNat ∧ ((claimer 65535).x 1).toNat ≤ 65535 ∧ find team0.bars 63 = none
    ∧ (machine (claimer 65535) team0).barsUsed 0 < 64
    ∧ find ((barred { count := 2 } (claimer 1)).teamOf (claimer 1)).bars 63 = some { count := 2 }
    ∧ (({ count := 2 } : Barrier).arrd = 0 ∧ ({ count := 2 } : Barrier).wait = [])
    ∧ ((barred { count := 2 } grp0).releasedAt 1).grp.isSome = true
    ∧ (((barred { count := 2 } grp0).releasedAt 1).arrive 0 63 { count := 2 }).grp.isSome = true
    ∧ after32 (1 : BitVec 32) 0 = true ∧ ((barred { count := 2, phase := 1 } grp0).endBarWait 0 63 0).grp.isSome = true
    ∧ ({ grp0 with arr := some (.bar 63 0) } : Group).arr = some (.bar 63 0) := by decide

theorem releasable_barred : (barred { count := 2 } grp0).releasable grp0 1 := ⟨by decide, by decide, by decide⟩

theorem witness_Barriers_cbar :
    (let g : Group := { grp0 with arr := some (.cbar 7 0) }
     let s : State := { machine g with insts := [(0, { launch := 0, teams := [0], cbars := [(7, { phase := 1 })] })] }
     let s1 := s.closeCbar 0 7
     someAnd ((find s1.insts 0).bind (fun i => find i.cbars 7)) (fun x => decide (0 < x.phase))
       && (s1.acquire s1.cur 2).grp.isSome && leavesG (exec (.cbar 7) s) (fun h => decide (h.arr = none))) = true := by decide

theorem witness_Barriers_arrival :
    find (barred { count := 2 } grp0).groups 0 = some grp0 ∧ ({ count := 2 } : Barrier).arrd + 1 < 2 ∧ 2 ≤ ({ count := 2, arrd := 1 } : Barrier).arrd + 1 := by
  decide

def queued (q : NQueue) (g : Group) : State := machine g { team0 with nqs := [(31, q)] }

theorem witness_QueuesNaps :
    1 ≤ ((claimer 16).x 1).toNat ∧ ((claimer 16).x 1).toNat ≤ 16 ∧ find team0.nqs 31 = none ∧ (machine (claimer 16) team0).nqsUsed 0 < 32
    ∧ find ((queued { depth := 1 } grp0).teamOf grp0).nqs 31 = some { depth := 1 } ∧ ({ depth := 1 } : NQueue).entries.length < 1
    ∧ leavesG (exec (.qpush 31 1) (queued { depth := 1 } (claimer 9))) (fun g => decide (g.pc = 0x10004)) = true
    ∧ (((queued { entries := [(9, {})] } grp0).setNq grp0 31 { entries := [] }).tookEntry 0 {}).grp.isSome = true
    ∧ grp0.handedFrom 31 = none ∧ find ((queued {} grp0).teamOf grp0).nqs 30 = none
    ∧ grp0.nap = none ∧ (grp0.x 1).toNat % 2 ^ 32 = 0 ∧ (0 : DWord).toNat ≤ running.tsc.toNat := by decide

theorem releasable_queued : (queued { depth := 1 } grp0).releasable grp0 1 := ⟨by decide, by decide, by decide⟩

/-- A table of alternates at 0x1000: one alternate. -/
def tabled : State := place (machine (xs [(4, 100), (5, 0x1000)]) team0) 0x1000 [1, 0, 0x20000, 0, 0x20010, 0, 0x20020, 0]

theorem witness_RecoveryInstructions_ensure :
    (let g := xs [(4, 100), (5, 0x1000)]
     let s1 := tabled.setGrp { g with arr := some (.ensure 100 0x1000), wf := {} }
     decide (tabled.depth 0 < 8) && !g.laneBusy && tabled.memberQuiet 0 g
     && (s1.members 0).all (fun e => decide (e.2.arr = some (.ensure 100 0x1000)))
     && decide (Option.map (fun (x : Nat × Group) => x.2.arr) (s1.members 0).head? = some (some (.ensure 100 0x1000)))
     && readOk (s1.readDw 0 g 0x1000 8 false 1) (fun s2 h _ => decide ((h.headD 0).toNat = 1)
       && readOk (s2.readDw s2.cur g (0x1000 + 8) 8 false 3) (fun _ as _ => (parseTable (h ++ as)).isSome))) = true := by decide

/-- Tables that `ensure` refuses: off the canonical form, misaligned, without an alternate. -/
theorem witness_RecoveryInstructions_tables :
    (((0x0200000000000000 : DWord).truncate 57 : BitVec 57)).signExtend 64 ≠ (0x0200000000000000 : DWord) ∧ (0x1004 : DWord).toNat % 8 ≠ 0
    ∧ (let g := xs [(4, 100), (5, 0x1000)]
       let s1 := (place (machine g team0) 0x1000 [0, 0]).setGrp { g with arr := some (.ensure 100 0x1000), wf := {} }
       readOk (s1.readDw 0 g 0x1000 8 false 1) (fun s2 h _ =>
         readOk (s2.readDw s2.cur g (0x1000 + 8) 8 false 2) (fun _ as _ => (parseTable (h ++ as)).isNone))) = true := by decide

/-- Accepts that do not pass: a verdict of 0, poison, a set DOOM, a chain of the level, a partner that has not passed; and the last
of two levels, and a conversation whose members have all passed. -/
theorem witness_RecoveryInstructions_accepts :
    (let g := claimer 1
     let s (t : Team) (p : Bool) : State := (machine g t).setGrp { g with arr := some (.accept p), wf := {} }
     let v : Conv := { die := 0, idx := 0, obj := 0, ctx := 1, nmem := 1, ready := true }
     decide (((s { team0 with levels := [level1] } false).members 0).find? (fun e => e.2.arr = some (.accept false)) ≠ none)
     && ({ level1 with doom := true } : Level).doom && ({ level1 with pois := true } : Level).pois
     && decide (({ team0 with levels := [level1, level1] } : Team).levels ≠ [level1])
     && leaves (exec (.accept 1) (machine g { team0 with levels := [level1, level1] }))
       (fun t => someAnd (find t.teams 0) (fun x => decide (x.levels.length = 1) && decide (x.rbst.ldepth = 2)))
     && leaves (exec (.accept 1) { machine g { team0 with levels := [level1], conv := some 3 } with convs := [(3, v)] })
       (fun t => someAnd (find t.teams 0) (fun x => decide (x.passed = true)))
     && (find ({ machine g { team0 with levels := [level1], conv := some 3 } with convs := [(3, { v with teams := [0] })] } : State).convs 3).isSome)
     = true := by decide

/-- An `ensure` at a level whose frames fit the capture space, and one whose frames do not; and a failure recorded at once. -/
theorem witness_RecoveryInstructions_opens :
    running.granFit 0 32 = true ∧ (find running.teams 0).isSome = true
    ∧ ((inBlock grp0).granFit 0 (32 * 100000)) = false
    ∧ someAnd (find (inBlock grp0).teams 0) (fun tm => decide (tm.fail = none) && decide (tm.conv = none) && decide (tm.levels = [level1]))
      = true := by decide

theorem witness_RecoveryInstructions_ends :
    ({ grp0 with disp := true } : Group).disp = true ∧ grp0.disp = false ∧ 0 < (inBlock grp0).depth 0 ∧ grp0.tclass = false
    ∧ 0 < (inBlock { grp0 with tclass := true }).depth 0
    ∧ (let s1 := (inBlock (claimer 1)).setGrp { claimer 1 with arr := some (.accept true), wf := {} }
       (inBlock (claimer 1)).memberQuiet 0 (claimer 1) = true ∧ (claimer 1).laneBusy = false ∧ (claimer 1).x 1 ≠ 0
       ∧ (s1.members 0).all (fun e => decide (e.2.arr = some (.accept true))) = true ∧ s1.levelChains 0 = false
       ∧ someAnd (find s1.teams 0) (fun tm => decide (tm.levels = [level1]) && decide (tm.fail = none) && decide (tm.conv = none)) = true
       ∧ level1.pois = false ∧ level1.doom = false)
    ∧ (let s1 := running.setGrp { grp0 with arr := some .cvleave, wf := {} }
       (s1.members 0).all (fun e => decide (e.2.arr = some .cvleave)) = true)
    ∧ running.memberQuiet 0 grp0 = true ∧ sget 0 grp0.cnt 4 = 0 := by decide

theorem witness_RecoveryInstructions_cvjoin :
    (let g : Group := { grp0 with arr := some (.joined 2 5) }
     let v : Conv := { die := 0, idx := 0, obj := 0, ctx := 1, nmem := 1, ready := true }
     let s : State := { machine g { team0 with conv := some 3 } with convs := [(3, v)] }
     decide (s.grp = some g) && decide (s.depth 0 = 0) && decide ((s.teamOf g).conv = some 3) && decide (find s.convs 3 = some v)) = true := by
  decide

theorem witness_SoftwareTraps : running.grp = some grp0 ∧ (machine { grp0 with tclass := true }).grp = some { grp0 with tclass := true } := by
  decide

theorem witness_Privilege :
    grp0.tclass = false ∧ (running.ctxOf grp0).sys = false
    ∧ ((machine { grp0 with tclass := true }).ctxOf { grp0 with tclass := true }).sys = false := by decide

/-- The trapping machine with its page cached or not. -/
def framed (mt : Bool) : State := { trapping 0x12 grp0 with cores := [(0, { tlb := [{ page with mt := mt }] })] }

theorem witness_TrapEntry_taken :
    (framed false).isContained grp0 0x12 = false ∧ grp0.tclass = false ∧ grp0.entry = none ∧ grp0.relW = false ∧ grp0.bank = none
    ∧ (framed false).isContained { grp0 with tclass := true } 0x12 = false ∧ find (framed false).groups 0 = some grp0 := by decide

/-- A group whose entry is under way, its frame to be written (the vector's page cached or not) or written already. -/
def entering (mt f : Bool) : State :=
  { framed mt with groups := [(0, { grp0 with entry := some { trap := { num := 0x12 }, spc := some 0x10000, framed := f } })] }

theorem witness_TrapEntry_frame :
    (∀ mt : Bool, someAnd (find (entering mt false).groups 0) (fun g => !g.unsettled && someAnd g.entry (fun e => !e.framed)
      && mapped ((entering mt false).translate 0 1 (frameAddr ((entering mt false).ctxOf g) 0) .write true) (fun s1 pa m =>
        decide (m = mt) && decide (s1.poolTrap pa = 0) && !(s1.pageParked 0 1 (frameAddr ((entering mt false).ctxOf g) 0))
        && !(s1.noRoomBehind 0 1 (frameAddr ((entering mt false).ctxOf g) 0)) && (find s1.groups 0).isSome)) = true)
    ∧ ({ grp0 with infl := [{ lane := false, path := .gl, seq := 0, writes := [.x 4 0] }] } : Group).unsettled = true
    ∧ faulted ({ framed false with cores := [] }.translate 0 1 0x0200000000000000 .write true) (fun _ => true) = true := by decide

theorem witness_TrapEntry_vector :
    (∀ mt : Bool, (let s := entering mt true
     let va := (s.ctxOf grp0).tvb + 8 * (0x12 : BitVec 8).zeroExtend 64
     mapped (s.translate 0 1 va .read true) (fun s1 vpa m => decide (m = mt) && decide (s1.poolTrap vpa = 0) && !(s1.parkedHit 0 va 8)
       && decide ((s1.takeDw 0 vpa m).2 = 0x30000) && (find (s1.takeDw 0 vpa m).1.groups 0).isSome
       && decide (((s1.setWord (vpa / 4) 0).takeDw 0 vpa m).2 = 0) && decide (((s1.setWord (vpa / 4) 2).takeDw 0 vpa m).2 = 2))) = true) := by
  decide

theorem witness_TrapReturn :
    (∀ mt : Bool, (let g : Group := { grp0 with tclass := true }
     let s : State := { (trapping 0x12 g).setWord 0x40000 0x200108 with cores := [(0, { tlb := [{ page with mt := mt }] })] }
     let fa := frameAddr (s.ctxOf g) (g.frameK.getD s.cur)
     mapped (s.translate 0 1 fa .read true) (fun s1 pa m =>
       let r0 := s1.takeDw 0 pa m
       let r5 := ((((r0.1.takeDw 0 (pa + 8) m).1.takeDw 0 (pa + 0x30) m).1.takeDw 0 (pa + 0x38) m).1.takeDw 0 (pa + 0x40) m).1.takeDw 0
         (pa + 0x48) m
       decide (s1.poolTrap pa = 0) && !(s1.parkedHit 0 fa 128) && decide (r0.2.toNat % 4 = 0) && (find r5.1.groups 0).isSome)) = true) := by
  decide

def handler (l : List (XReg × DWord)) : Group := { xs l with tclass := true }

def sysMachine (g : Group) : State := machine g team0 { sys := true }

theorem witness_SystemInstructions :
    mapped (memMachine.translate 0 1 0x1000 .read false) (fun s1 _ _ => s1.grp.isSome) = true
    ∧ (handler [(1, 2)]).tclass = true ∧ ((handler [(1, 2)]).x 1).toNat ≤ 2 ∧ (handler [(1, 2)]).laneBusy = false
    ∧ ((sysMachine (handler [(1, 2)])).ctxOf (handler [(1, 2)])).sys = true ∧ (sysMachine (handler [(1, 2)])).reduced = true
    ∧ ((sysMachine (handler [(1, 2)])).core 0).droop = false
    ∧ ({ sysMachine (handler [(1, 2)]) with reduced := false } : State).grp = some (handler [(1, 2)]) ∧ (parsePart (2 + 3 * 8)).isSome = true ∧ (parsePart 0).isSome = true
    ∧ ((sysMachine grp0).acquire 0 4).grp.isSome = true
    ∧ ({ grp0 with hcid := some 1, hrep := some (5, 6) } : Group).hrep = some (5, 6) ∧ grp0.hcid = none
    ∧ ((running.releasedAt 4).acquire (running.releasedAt 4).cur 4).grp.isSome = true := by decide

theorem releasable_running (n : Fin 5) : running.releasable grp0 n.val := ⟨by decide, by revert n; decide, by revert n; decide⟩

theorem witness_ContextInstructions_tlbflush :
    (let g := handler [(1, 0x1000), (2, 0x10000)]
     let s := machine g
     let m := (g.x 2).toNat
     decide (s.grp = some g) && decide (m % 4 ≠ 3 ∧ m / 4 % 2 ^ 14 = 0 ∧ m < 2 ^ 32) && canonA (g.x 1)
     && (((s.releasedAt 3).acquire (s.releasedAt 3).cur 3).flushTlb (m % 4) (m / 65536 % 65536) (g.x 1).toNat).grp.isSome) = true := by
  decide

/-! ### Lane statements -/

theorem laneIn_atHead (o : LaneOp) (g : Group) (t : Team) (c : Ctx) (h : queuesOf o = []) :
    (laneIn o g).atHead (machine (lane o g) t c) o :=
  ⟨rfl, rfl, rfl, by rw [h]; rfl⟩

/-- LaneIntegers, LaneBits, LaneFloats, LaneMovement and VotesReductions: a lane instruction at the head, of three vector sources. -/
theorem witness_lane_at_head :
    (laneIn (op 9 (.v 1) (.v 2) (.v 3)) grp0).atHead (machine (lane (op 9 (.v 1) (.v 2) (.v 3)) grp0)) (op 9 (.v 1) (.v 2) (.v 3)) :=
  laneIn_atHead _ _ _ _ (by decide)

theorem witness_LaneIntegers : Ty.n8 ∈ [Ty.i32, Ty.n32, Ty.i16, Ty.n16, Ty.i8, Ty.n8] ∧ tySigned .n8 = false ∧ tySigned .i32 = true := by
  decide

theorem witness_LaneBits :
    ((3 : BitVec 2).toNat + 1) * tyBits .i8 ≤ 32 ∧ ((1 : BitVec 2).toNat + 1) * tyBits .n16 ≤ 32 ∧ ((0 : BitVec 2).toNat + 1) * tyBits .i32 ≤ 32 := by
  decide

theorem witness_LaneFloats :
    isFloat .f32 = true ∧ isFloat .e5m2 = true ∧ ((3 : BitVec 2).toNat + 1) * tyBits .e5m2 ≤ 32
    ∧ ((0 : BitVec 2).toNat + 1) * tyBits .f32 ≤ 32 := by decide

theorem witness_VotesReductions :
    (laneIn (op 0) { grp0 with decQ := List.replicate 63 1 }).g.decQ.length < 64
    ∧ 64 ≤ (laneIn (op 0) { grp0 with decQ := List.replicate 64 1 }).g.decQ.length
    ∧ (laneIn (op 0) { grp0 with gw := 64 }).g.gw ≤ 64 ∧ (laneIn (op 0) grp0).g.gw = 2 ^ 3 ∧ 0 < (laneIn (op 0) grp0).g.gw
    ∧ isNan (fval fp32 0x7f800001) = true ∧ isNan (fval fp32 0x80000000) = false := by decide

/-- A matrix instruction on the accumulator at 0x400 of the own scratchpad, for a group of one octet. -/
def matrix : LaneIn := laneIn (op 0 (.v 32) (.v 64) (.x 8)) { xs [(8, 0x10000400)] { grp0 with k0 := 1 } with allot := 128 }

def matrixState (r : Bool) : State := { machine matrix.g team0 with reduced := r }

theorem witness_MatrixInstructions_at_head : matrix.atHead (matrixState true) matrix.o ∧ matrix.atHead (matrixState false) matrix.o :=
  ⟨⟨rfl, rfl, rfl, rfl⟩, ⟨rfl, rfl, rfl, rfl⟩⟩

theorem witness_MatrixInstructions :
    (0 : BitVec 3).toNat < matrix.g.gw / 8 ∧ matrix.g.gw / 8 ≤ (1 : BitVec 3).toNat
    ∧ (matrixState false).areaTrap matrix.g matrix.areas 512 512 = none
    ∧ (∀ w : Bool, (matrixState false).touchTrap matrix.g (matrix.touched 512) w = none) ∧ matrix.g.spadAtoms = false
    ∧ ((matrixState false).updSpads matrix.g.seat (matrix.tile (fun _ _ _ w => rwacc w 1 1 1))).isSome = true
    ∧ (matrixState true).areaTrap matrix.g matrix.areas 512 512 = none
    ∧ (matrixState true).touchTrap matrix.g (matrix.touched 512) true = none
    ∧ ((matrixState true).updSpads matrix.g.seat (matrix.tile (fun _ _ _ _ => 0))).isSome = true := by decide

/-- A fragment load from 0x400 of the own scratchpad. -/
def fragment : LaneIn := laneIn (op 32 (.v 0) (.x 9) (.x 8)) { xs [(8, 0x10000400), (9, 64)] { grp0 with k0 := 1 } with allot := 128 }

theorem witness_MatrixInstructions_fragments :
    fragment.g.spadAtoms = false ∧ ∀ tr : Bool, fragment.fragTrap (machine fragment.g team0) .i8
      (fragment.lanes.flatMap (fun l => (List.range 16).flatMap (fragment.fragEls tr false .i8 true l))) = none := by decide

theorem witness_NarrowInstructions :
    (matrixState true).areaTrap matrix.g matrix.areas 2048 256 = none
    ∧ (∀ w : Bool, (matrixState true).touchTrap matrix.g (matrix.touched 2048) w = none)
    ∧ ((matrixState true).updFx matrix.g.seat (fun _ _ _ => 0) matrix.fxCells).isSome = true
    ∧ (matrix.readClear true 16 matrix.fxCells (matrixState true)).isSome = true
    ∧ (matrix.readClear true 4 matrix.tileWords (matrixState true)).isSome = true
    ∧ ((matrixState true).updSpads matrix.g.seat (matrix.tile (fun _ _ _ _ => 0))).isSome = true := by decide

def qntOk {α : Type} (r : QntRes α) : Bool :=
  match r with
  | .ok _ _ _ => true
  | _ => false

/-- An outlier region of one record at 0x2000. -/
def outlier : LaneIn := laneIn (op 40 (.v 8) (.v 6) (.x 12)) { xs [(12, 0x0003000100002000)] { grp0 with k0 := 0x20 } with allot := 128 }

theorem witness_NarrowInstructions_outliers :
    outlier.atHead (machine outlier.g team0) outlier.o
    ∧ outlier.g.spadAtoms = false
    ∧ (machine outlier.g team0).areaTrap outlier.g [(outlier.lanes.headD 0, regionBase outlier.e.bcc)]
        (8 + 8 * regionCap outlier.e.bcc) 8 = none
    ∧ outlier.lanes ≠ [] ∧ (laneIn (op 40 (.v 8) (.v 6) (.x 12)) { outlier.g with k0 := 0 }).lanes = []
    ∧ (∀ n : Fin 2, (machine outlier.g team0).touchTrap outlier.g
        [(5, regionBase outlier.e.bcc, 4), (5, regionBase outlier.e.bcc + 8, 8 * n.val)] false = none)
    ∧ qntOk (outlier.qntAll .i4 0 .ne outlier.lanes (machine outlier.g team0) [] 0) = true :=
  ⟨⟨rfl, rfl, rfl, rfl⟩, by decide, by decide, by decide, by decide, by decide, by decide⟩

/-- A lane access at x9 + 4 * lid, and one at the scratchpad address x10 + 4 * lid. -/
def access (a : XReg) (g : Group := pointing) : LaneIn := laneIn (op 4 (.x a) .lid) g

def form : AddrForm := { sc := 2, un := false }

def lanesOk (x : State × Except LaneTrap (List (Nat × List Place))) (p : State → List (Nat × List Place) → Bool) : Bool :=
  match x.2 with
  | .ok ps => p x.1 ps
  | .error _ => false

def slanesOk (x : Except LaneTrap (List (Nat × List SPlace))) (p : List (Nat × List SPlace) → Bool) : Bool :=
  match x with
  | .ok ps => p ps
  | .error _ => false

def atHome (s1 : State) (n : Nat) (ps : List (Nat × List Place)) : Bool :=
  ps.all (fun e => e.2.all (fun p => p.home.isSome && !(s1.parkedHit s1.cur p.va n)))

theorem witness_lane_access_at_head (a : XReg) (g : Group) (t : Team) (c : Ctx) :
    (access a g).atHead (machine (access a g).g t c) (op 4 (.x a) .lid) := laneIn_atHead _ _ _ _ (by rfl)

theorem witness_LaneLoads :
    (∀ m ∈ [1, 2], lanesOk ((machine (access 9).g team0).chkLanes 0 (access 9).g 4 4 false (fun _ => true) ((access 9).vas form m))
      (fun s1 ps => decide (ps.length = 8) && atHome s1 4 ps) = true)
    ∧ (∀ m ∈ [1, 2], slanesOk ((machine (access 10).g team0).chkSLanes (access 10).g 4 4 false ((access 10).vas form m))
      (fun ps => decide (ps.length = 8) && ps.all (fun e => e.2.all (fun p =>
        !((machine (access 10).g team0).spadAtomHit (access 10).g p.t p.off 4)))) = true)
    ∧ lanesOk ((machine (access 6).g team0).chkLanes 0 (access 6).g 4 4 false (fun _ => true) ((access 6).vas form 1)) (fun _ _ => true) = false
    ∧ slanesOk ((machine (access 6).g team0).chkSLanes (access 6).g 4 4 false ((access 6).vas form 1)) (fun _ => true) = false := by decide

/-- Accesses of which lanes 0 to 2 pass and lane 3 is the lowest that fails: at the end of the lower half of the address space, and
at the end of the scratchpad range. -/
theorem witness_LaneLoads_traps :
    (let g (a : DWord) : Group := xs [(9, a)]
     let s : State := { machine (access 9 (g 0x00fffffffffffff4)).g team0 with cores := [(0, { tlb := [{ page with vpn := 2 ^ 26 - 1 }] })] }
     (match (s.chkLanes 0 (access 9 (g 0x00fffffffffffff4)).g 4 4 false (fun _ => true)
         ((access 9 (g 0x00fffffffffffff4)).vas form 1)).2 with
       | .error x => decide (x.info.toNat % 256 = 3)
       | .ok _ => false)
     && (match (machine (access 9 (g 0x1000fff4)).g team0).chkSLanes (access 9 (g 0x1000fff4)).g 4 4 false
         ((access 9 (g 0x1000fff4)).vas form 1) with
       | .error x => decide (x.info.toNat = 3)
       | .ok _ => false)) = true := by decide

theorem witness_LaneStores :
    (∀ m ∈ [1, 2], lanesOk ((machine (access 9).g team0).chkLanes 0 (access 9).g 4 4 true (fun _ => true) ((access 9).vas form m)) (fun s1 ps =>
      let xs : List LaneStore := (flatten ps).map (fun e =>
        { p := e.2.2, v := 7, park := e.2.2.home.isNone || s1.pageParked (coreOf s1.cur) (s1.ctxId (access 9).g) e.2.2.va })
      let c := s1.countPaths s1.cur ((xs.map storePath).dedup)
      ps.all (fun e => e.2.all (fun p => !(s1.atomHit s1.cur p.va 4))) && decide (parkPages xs = []) && (c.1.storeAll s1.cur 4 c.2 (access 9).pos xs).isSome) = true)
    ∧ (∀ m ∈ [1, 2], slanesOk ((machine (access 10).g team0).chkSLanes (access 10).g 4 4 true ((access 10).vas form m)) (fun ps =>
      ((machine (access 10).g team0).storeSpads 0 4 ((flatten ps).map (fun e => (e.2.2, 7)))).isSome) = true) := by decide

/-- The machine with no translation of the page, whose fault is being served: its stores park, in the 32 places of an empty replay
queue. -/
def pageless : State := { machine (access 9).g team0 with cores := [], faults := [{ rid := 1, ctx := 1, page := 1, acc := 3 }] }

theorem witness_LaneStores_parked :
    (∀ m ∈ [1, 2], lanesOk (pageless.chkLanes 0 (access 9).g 4 4 true (fun _ => true) ((access 9).vas form m)) (fun s1 ps =>
      let xs : List LaneStore := (flatten ps).map (fun e =>
        { p := e.2.2, v := 7, park := e.2.2.home.isNone || s1.pageParked (coreOf s1.cur) (s1.ctxId (access 9).g) e.2.2.va })
      let c := s1.countPaths s1.cur ((xs.map storePath).dedup)
      decide (ps.length = 8) && ps.all (fun e => e.2.all (fun p => !(s1.atomHit s1.cur p.va 4))) && decide (parkPages xs ≠ [])
      && decide ((s1.core 0).replay.length + (parkPages xs).length ≤ 32) && (c.1.storeAll s1.cur 4 c.2 (access 9).pos xs).isSome) = true)
    ∧ leaves (exec (.vst .b32 form (op 4 (.x 9) .lid)) pageless) (fun t => decide ((t.core 0).replay.map (fun (p : Parked) => p.bytes.length) = [32])) = true := by
  decide +kernel

theorem witness_LaneOrdered :
    ((machine (access 9).g team0).pushOut 0 3).lostAck 0 3 = none
    ∧ ((machine (access 9).g team0).pushOut 0 3).lanePerformed 0 (access 9).g 3 = true
    ∧ scopeNum .team < 2 ∧ (access 10).g.late = false
    ∧ slanesOk ((machine (access 10).g team0).chkSLanes (access 10).g 4 4 true ((access 10).vas form 1)) (fun ps =>
      ((access 10).atomsS .add .i32 ((flatten ps).map (fun e => (e.1, e.2.2))) (machine (access 10).g team0)).isSome) = true
    ∧ lanesOk ((machine (access 9).g team0).chkLanes 0 (access 9).g 4 4 true (scopePermits .dev .add) ((access 9).vas form 1)) (fun s1 ps =>
      atHome s1 4 ps && ((access 9).atomsG .add .i32 ((flatten ps).map (fun e => (e.1, e.2.2.va, (e.2.2.home.getD (0, false)).1))) s1).isSome) = true
    ∧ lanesOk ((machine (access 9).g team0).chkLanes 0 (access 9).g 4 4 true (scopePermits .clus .add) ((access 9).vas form 1)) (fun s1 ps =>
      atHome s1 4 ps) = true
    ∧ (access 9 { pointing with late := true }).g.late = true := by decide

theorem witness_LaneOrdered_spawn :
    (let i := laneIn (op 0 (.x 9) (.v 20)) pointing
     let s := machine i.g team0
     decide (i.e.bca = 0x1000) && s.lanePerformed 0 i.g 1 && (i.spawnLanes 0x1000 (i.lanes.filter (fun l => decide (i.e.prog ≤ l))) s).2.isNone) = true
    ∧ (laneIn (op 0 (.x 6) (.v 20)) pointing).e.bca.toNat % 4 ≠ 0 := by decide

/-! ### Steps of the memory system, the engines and the outside -/

def inFlight (x : Inflight) : State := machine { pointing with infl := [x] } team0

/-- A registration of word 0x400 on its way. -/
def pendingReg : StoreReq := { core := 0, grp := 0, w := 0x400, val := 7, dot := ⟨1, 5⟩, vec := {} }

def overflowed : Parked := { grp := 0, ctx := 1, why := .overflow, bytes := [(0x1000, 7)], dot := {}, vec := {}, retry := true }

/-- A parked store that nothing keeps waiting any longer. -/
def freed1 : Parked := { grp := 0, ctx := 1, why := .behind, bytes := [(0x1000, 7)], dot := {}, vec := {} }

/-- A cell of four siblings that the store dominates none of. -/
def crowded : State := { memMachine with
  cells := [(0x400, { gen := 1, vals := (List.range 4).map (fun n => { val := 5, dot := ⟨BitVec.ofNat 24 (n + 2), 10⟩ }) })] }

/-- A core that holds a dirty word 0x400. -/
def dirty : State := { memMachine with cores := [(0, { tlb := [page], l1 := [(0x400, { val := 9, mask := 0xf, reg := true, dot := ⟨1, 5⟩ })] })] }

theorem witness_MemoryEvents_flight :
    (∀ x ∈ [({ lane := false, path := .gl, writes := [.x 5 7] } : Inflight),
        { lane := false, path := .gl, words := [0x400], atoms := [{ op := .add, ty := .i32, sc := .dev, addr := 0x1000, b := 1, cmp := 0, xd := some 6 }] },
        { lane := false, path := .gl, words := [0x400], atoms := [{ op := .add, ty := .i32, sc := .clus, addr := 0x1000, b := 1, cmp := 0, xd := some 6 }] }],
      someAnd (find (inFlight x).groups 0) (fun g => decide (g.infl[0]? = some x)) = true)
    ∧ leavesG (exec (.loadDataReturn 0 0) (inFlight { lane := false, path := .gl, writes := [.x 5 7] })) (fun g => decide (g.x 5 = 7) && decide (g.infl = []))
      = true := by decide

theorem witness_MemoryEvents_tests :
    ({ memMachine with regQ := [pendingReg] } : State).regQ[0]? = some pendingReg
    ∧ (({ memMachine with regQ := [pendingReg] } : State).regQ.take 0).all (fun r => !(sameWord pendingReg r)) = true
    ∧ ({ memMachine with regQ := [pendingReg, { pendingReg with w := 0x401 }] } : State).regQ[1]? = some { pendingReg with w := 0x401 }
    ∧ sameWord { pendingReg with w := 0x401 } pendingReg = false
    ∧ (match memMachine.tryStore pendingReg with
      | .ok _ => true
      | .error _ => false) = true
    ∧ (match crowded.tryStore pendingReg with
      | .ok _ => false
      | .error w => decide (w = 0x400) && !(crowded.replayFull 0)) = true
    ∧ ({ memMachine with cores := [(0, { tlb := [page], replay := [overflowed] })] } : State).retries[0]? = some (0, 0, overflowed)
    ∧ (let s : State := { memMachine with cores := [(0, { tlb := [page], replay := [freed1] })] }
       decide (s.retries[0]? = none) && decide (s.freed[0]? = some (0, 0, freed1))) = true
    ∧ someAnd (dirty.l1At 0 0x400) (fun x => x.reg && decide (x.hid = none)) = true := by decide

/-- The scrub of slice 0: nothing old, and an old registered word that it sends home. -/
theorem witness_MemoryEvents_scrub :
    ((dirty.core 0).l1.all (fun e => !e.2.reg || decide (dirty.ageDot e.2.dot = e.2.dot))) = true
    ∧ (find siblings.cells 0x400).isSome = true
    ∧ (let s : State := { dirty with cells := [(0x400, { vals := [{ val := 1, dot := ⟨2, 5⟩ }, { val := 2, dot := ⟨3, 5⟩ }], gen := 1 })] }
       ((s.fillHidden 0x400).dirtyHolders 0x400).length = 1 ∧ ((s.fillHidden 0x400).cellRec 0x400).vals ≠ []
       ∧ (s.fillHidden 0x400).isCell 0x1000 = true
       ∧ ((s.fillHidden 0x400).joinSet 0x400 ((s.fillHidden 0x400).dirtyHolders 0x400)).isSome = true) := by decide

/-- A repair whose cell is full of values that the registered word does not dominate, and one with no copy; a line kept at its side. -/
theorem witness_MemoryEvents_repair :
    (let s : State := { crowded with cores := dirty.cores }
     let u := s.fillHidden 0x400
     (u.joinSet 0x400 (u.dirtyHolders 0x400)) = none ∧ (u.dirtyHolders 0x400).length = 1 ∧ u.isCell 0x1000 = true)
    ∧ (memMachine.fillHidden 0x400).dirtyHolders 0x400 = [] ∧ (memMachine.fillHidden 0x400).hiddenHeld 0x400 = false
    ∧ memMachine.sideKept 0x20 = false := by decide

/-- A word of a context's region, whose page is device memory or host memory. -/
theorem witness_MemoryEvents_copied :
    mapped (memMachine.translate 0 ((2 ^ 57 + 0x1000) / 2 ^ 57) ((BitVec.ofNat 57 (2 ^ 57 + 0x1000)).signExtend 64) .write false)
      (fun _ pa _ => decide (pa = 0x1000) && !(isHost pa)) = true
    ∧ mapped (({ memMachine with cores := [(0, { tlb := [{ page with pa := 0x800000000000 }] })] } : State).translate 0 1 0x1000 .write false)
      (fun _ pa _ => isHost pa && decide (pa % 4 = 0)) = true := by decide

def outsideReq : StoreReq :=
  { core := noGroupKey, grp := noGroupKey, w := 0x400, val := 1, mask := 0xf, dot := { serial := 0, time := memMachine.now }
    vec := { floor := memMachine.pageFloor 0x400 } }

theorem witness_MemoryEvents_outside :
    memMachine.unmapped 0x1000 = false ∧ memMachine.isCell 0x1000 = true
    ∧ (memMachine.storeAtHome outsideReq).isSome = true
    ∧ memMachine.dirtyHolders 0x400 = [] ∧ someAnd (dirty.dirtyHolders 0x400).head? (fun e => decide (dirty.dirtyHolders 0x400 = [e])) = true
    ∧ (4 * 0xffffffff < 0x400000000 ∧ ({ memMachine with live := 0xf } : State).unmapped (4 * 0xffffffff) = false ∧ memMachine.unmapped (4 * 0) = false)
    ∧ kindOf (4 * 0x10000000000) = .dram 0 ∧ memMachine.unmapped (4 * 0x10000000000) = false
    ∧ memMachine.sparesLeft 3 1023 ≠ 0 ∧ memMachine.repairs < 16384
    ∧ kindOf (4 * 0x200000000000) = .host ∧ memMachine.unmapped (4 * 0x200000000000) = false := by decide

/-- Eight corrected errors of a row, and a bank whose spares or a flash whose repair records are used up. -/
def worn (n r : Nat) : State := { memMachine with
  corrected := List.replicate 8 ((1024 * 3 + 1023, 511), 0), rowOut := List.replicate n (1024 * 3 + 1023, 0), repairs := r }

theorem witness_MemoryEvents_rows :
    (8 ≤ (worn 0 0).correctedIn 3 1023 511 ∧ (worn 0 0).sparesLeft 3 1023 ≠ 0 ∧ (worn 8 0).sparesLeft 3 1023 = 0)
    ∧ ((memMachine.loseWord 0).loseWord 1).canSpare 0 (Machine.bankOf 0) = true
    ∧ ((({ memMachine with repairs := 16384 } : State).loseWord 0).loseWord 1).canSpare 0 (Machine.bankOf 0) = false
    ∧ 16384 ≤ ({ memMachine with repairs := 16384 } : State).repairs := by decide

/-- A running channel 0 with one chain. -/
def chain1 : Chain := { cur := 0x1000, batch := 1, grp := 0, gid := 0, dot := {}, vec := {} }

def engine (k : Chan) (d : Option DWord := none) : State :=
  { machine pointing { team0 with drain := d } with cores := [(0, { tlb := [page], chans := [(0, k)] })] }

def runningChan : Chan := { st := .running, headq := [chain1] }

def record1 : CopyRec := { addr := 0x1000, src := 0x2000, dst := 0x3000, bytes := 64, next := 0, flags := 0 }

theorem witness_EngineEvents_runs :
    (engine runningChan).chanRuns runningChan = true ∧ (engine runningChan (some 9)).chanRuns runningChan = true
    ∧ (engine runningChan (some 0)).chanRuns runningChan = false
    ∧ (engine { runningChan with crec := some { record1 with reg := true } }).chanRuns
        { runningChan with crec := some { record1 with reg := true } } = true
    ∧ ((engine { runningChan with crec := some { record1 with reg := true }, nrec := some record1 }).chan 0 0).nrec = some record1 := by decide

theorem witness_EngineEvents_channels :
    ((engine runningChan).chan 0 0) = runningChan ∧ runningChan.headq ≠ [] ∧ runningChan.squash = false ∧ runningChan.crec = none
    ∧ runningChan.wown = false ∧ ((engine { runningChan with wown := true }).chan 0 0).wown = true
    ∧ ((engine { runningChan with crec := some record1 }).chan 0 0).crec = some record1
    ∧ ((engine { runningChan with crec := some { record1 with reg := true } }).chan 0 0).crec = some { record1 with reg := true }
    ∧ someAnd (find (engine runningChan (some 9)).teams 0) (fun tm => decide (tm.drain = some 9)) = true ∧ teamCore 0 = 0 := by decide

/-- A channel whose chain stands at a record at 0x1000, its OWN bit set or not. -/
def owning (b : Bool) : State := place (engine runningChan) 0x1000 [0x2000, 0, 0x3000, 0, 64, if b then 1 else 0, 0, 0]

theorem witness_EngineEvents_fetch :
    (∀ own : Bool, ((owning own).stopping 0 0 = false ∧ (owning own).chanRuns ((owning own).chan 0 0) = true
      ∧ ((owning own).chan 0 0).headq = chain1 :: []) ∧ ((owning own).flushGroup 0).chainWaits chain1 = false
      ∧ mapped (((owning own).flushGroup 0).translate 0 (((owning own).flushGroup 0).chanCtx runningChan) 0x1000 .read false)
        (fun s3 pa _ => decide (s3.poolTrap pa = 0) && decide (s3.homeRead (pa / 4 + 5) (s3.chainConv runningChan chain1) = if own then 1 else 0)) = true)
    := by decide

/-- An address off the canonical form, one off its alignment, one whose page faults, and a chain that waits for no earlier access. -/
theorem witness_EngineEvents_fetch_stops :
    canonA 0x1000 = true ∧ (0x1000 : DWord).toNat % 32 = 0 ∧ canonA 0x0200000000000000 = false ∧ (0x1010 : DWord).toNat % 32 ≠ 0
    ∧ faulted ((engine runningChan).translate 0 5 0x40000000 .read false) (fun _ => true) = true := by decide

/-- A record in memory registers; one in the scratchpad that reaches past it, one of a length that is no multiple of 4, and one whose
range is taken do not. -/
theorem witness_EngineEvents_register :
    (let s := engine { runningChan with crec := some record1 }
     let k := s.chan 0 0
     decide (k.crec = some record1) && !(s.recOverlaps k record1) && (match s.chkGlobals 0 k record1 with
       | .ok s1 => (s1.tryLock 0 [s1.recLock k (.chan 0) false false 0x2000 64, s1.recLock k (.chan 0) false true 0x3000 64]).isSome
         && (({ s1 with cores := [(0, { s1.core 0 with locks := [{ sp := false, ctx := 1, lo := 0x3000, hi := 0x3010, write := true, owner := .watch 0 }] })] }
           : State).tryLock 0 [s1.recLock k (.chan 0) false false 0x2000 64, s1.recLock k (.chan 0) false true 0x3000 64]).isNone
       | _ => false)
     && (match (s.setCore 0 { s.core 0 with tlb := [{ page with w := false }] }).chkGlobals 0 k record1 with
       | .bad _ code _ => decide (code = 4)
       | _ => false)) = true
    ∧ (engine runningChan).recSpad runningChan 0x1000fff0 64 = none ∧ (engine runningChan).recSpad runningChan 0x10000000 64 ≠ none
    ∧ ¬((62 : Nat) % 4 = 0) ∧ (8 : Word).toNat = 8 := by decide

/-- A record all of whose words are performed: its ranges go and its OWN bit is written. -/
theorem witness_EngineEvents_complete :
    (let r : CopyRec := { record1 with reg := true, pos := 16, flags := 1 }
     let s := engine { runningChan with crec := some r }
     let k := s.chan 0 0
     let y : Chain := { chain1 with vec := { chain1.vec with own := chain1.dot } }
     decide (r.bytes / 4 ≤ r.pos) && !(s.awaits chain1.grp r.host)
     && mapped (s.translate 0 (s.chanCtx k) (r.addr + 0x14) .write false) (fun s1 pa _ => decide (s1.poolTrap pa = 0) && s1.isCell pa
       && (let s2 := s1.unlock 0 (.chan 0)
           let s3 := s2.writeBackAll (pa / 4) none
           decide ((s3.reown (pa / 4 / 32)).entriesUsed (s3.homeSlice (4 * (pa / 4))) + 5 ≤ 16384)
           && (s3.allVals (pa / 4)).all (fun v => decide (v.hid = none) && decide (v.disp = []) && dominates y.vec v.dot)
           && (match s2.engineStore 0 0 k y (r.addr + 0x14) pa (r.flags &&& ~~~1) false true with
             | .ok s4 => decide (s4.word (pa / 4) = 0)
             | _ => false)))) = true := by decide

def fetching : Group := { pointing with
  opq := [(0, { st := .running, slots := 8, pat := { base := 0x2000, n0 := 4, s0 := 4, esize := 4 } })] }

theorem witness_EngineEvents_patterns :
    find (machine fetching team0).groups 0 = some fetching ∧ (fetching.queue 0).st = .running ∧ (fetching.queue 0).entries.length < 8
    ∧ fetching.stopReq = false
    ∧ ((machine fetching team0).entryOf 0 fetching (fetching.queue 0).pat 0 (List.range fetching.gw) [] false).2.isSome = true
    ∧ (let s : State := { machine fetching team0 with cores := [] }
       (s.entryOf 0 fetching (fetching.queue 0).pat 0 (List.range fetching.gw) [] false).2.isNone) = true
    ∧ (fetching.queue 0).left = [] ∧ (machine fetching team0).fetchFull 0 fetching (fetching.queue 0) = false := by decide

/-- A fetch that a stop has abandoned: it completes, and it waits still. -/
theorem witness_EngineEvents_left :
    (let p : PatRec := { base := 0x2000, n0 := 4, s0 := 4, esize := 4 }
     let g : Group := { pointing with opq := [(0, { left := [(7, p, 0)] })] }
     let s := machine g team0
     let u : State := { s with cores := [], faults := [{ rid := 1, ctx := 1, page := 2, acc := 3 }] }
     decide ((g.queue 0).left = (7, p, 0) :: []) && (s.entryOf 0 g p 0 (List.range g.gw) [] false).2.isSome
     && (u.entryOf 0 g p 0 (List.range g.gw) [] false).2.isNone
     && leavesG (exec (.patternElementFetch 0 0) s) (fun h => decide ((h.queue 0).left = []))) = true := by decide +kernel

theorem witness_EngineEvents_watches :
    (let v : Watch := { watchAt 0 1 with trigs := [(0x2000, 7, ⟨1, 5⟩)] }
     let s : State := { memMachine with slices := [(0, { watches := [(63, v)] })] }
     someAnd (find (s.slice 0).watches 63) (fun w => decide (w = v))
       && someAnd (find s.teams 0) (fun tm => (s.insertTask 0 0 tm.gw v.entry
         { args := trigArgs v 0x2000 7 ⟨1, 5⟩ (watchHandle 0 63 v.gen), vec := mergeDot v.vec ⟨1, 5⟩ }).isSome)) = true := by decide

def gathering (h : Gather) : State :=
  { memMachine with
    cores := [(0, { tlb := [page], tgcfg := 1, gathers := [(7, h)] })]
    tsc := 100000
    serials := (List.range 4).map (fun n => (BitVec.ofNat 24 (n + 1), none))
    winBase := 1
    winSize := 32768 }

theorem witness_EngineEvents_gathers :
    (let h : Gather := { team := 0, entry := 0x3000, tasks := [{ args := [], vec := {} }], closed := true }
     let s := gathering h
     decide (find (s.core 0).gathers 7 = some h)
     && decide ((s.core 0).tgcfg.toNat ≤ laneClocks (s.ratioNow 0) h.since.toNat s.tsc.toNat)
     && someAnd (find s.teams 0) (fun tm => !(s.atRegroup 0) && decide (tm.drain = none) && (s.place 0 tm.gw tm.regs (some (.create 7))).isSome)
     && decide (freshFrom ((s.members 0).map (fun e => e.2.gid)) 16 0 < 16) && (s.freeEntry 0).isSome && s.freeSerial.isSome) = true := by
  decide

/-- A context and a launch of one team of one group, not seated. -/
def unseated1 : State := { State.reset with
  ctxs := [(1, {})], cores := [(0, { tlb := [page] })], launches := [(5, { ctx := 1, left := 1 })], winBase := 1, winSize := 32768 }

theorem witness_TeamEvents_seats :
    (unseated1.seatInst 5 0 0).isSome = true ∧ (unseated1.earlier 5 0).all (fun x => !(unseated1.placeable x)) = true ∧ ({ State.reset with teams := [(0, team0)] } : State).seatDone 0 = true
    ∧ someAnd ((memMachine.preemptTeam 0).1.saved[0]?) (fun sv => ((memMachine.preemptTeam 0).1.restoreSave sv 0).isSome) = true := by decide

/-- A seat whose launch has two teams left, a team that a `ctxsv` saves, and a save that finds no room. -/
theorem witness_TeamEvents_more :
    (let s : State := { State.reset with teams := [(0, { team0 with launch := 5 })], launches := [(5, { ctx := 1, left := 2 })] }
     s.seatDone 0 = true ∧ someAnd (find s.launches 5) (fun L => decide (1 < L.left)) = true ∧ memMachine.seatDone 0 = false)
    ∧ (({ State.reset with launches := [(5, { ctx := 1, left := 1, ended := true })] } : State).launches.any (fun e => e.2.ended)) = true
    ∧ ((memMachine.claimSave 0 0).preemptSet 0).any (fun u => ((find (memMachine.claimSave 0 0).teams u).bind (·.saver)).isSome) = true
    ∧ (memMachine.preemptSet 0).any (fun u => ((find memMachine.teams u).bind (·.saver)).isSome) = false
    ∧ (memMachine.preemptTeam 0).2 = true
    ∧ someAnd ((memMachine.preemptTeam 0).1.saved[0]?) (fun sv =>
      (({ (memMachine.preemptTeam 0).1 with teams := (List.range 16).map (fun n => (n, team0)) } : State).restoreSave sv 0).isNone) = true := by
  decide

/-- A held trap: contained by an open level, waiting for a write in flight, and taken. -/
theorem witness_TeamEvents_held :
    (let p : PendTrap := { num := 0x12, lane := true }
     let g : Group := { grp0 with pend := [p, { num := 0x15 }], frozen := true }
     (inBlock g).isContained g p.num = true ∧ (trapping 0x12 g).isContained g p.num = false ∧ g.unsettled = false
     ∧ ({ g with relW := true } : Group).unsettled = true ∧ grp0.pend = []
     ∧ someAnd (find (machine { g with entry := some { trap := p, held := true } }).groups 0) (fun h => h.entry.isSome && !h.tclass
       && !h.stopd && !h.stopReq) = true ∧ g.entry = none
     ∧ leavesG (exec (.trapEntry 0) (inBlock g)) (fun h => decide (h.pend = [{ num := 0x15 }]) && !h.frozen) = true
     ∧ leavesG (exec (.trapEntry 0) (trapping 0x12 g)) (fun h => decide (h.pend = [{ num := 0x15 }]) && h.tclass && decide (h.pc = 0x30000)) = true) := by
  decide

/-- A level that has captured x5 and a line of host memory that its alternate wrote, and has failed. -/
def rolling : State :=
  let hostLine : Nat := 0x800000000000 / 128
  let l : Level := { level1 with caps := [.x 0 5 77, .line hostLine (List.replicate 32 9)], wrote := [32 * hostLine + 31] }
  machine (xs [(5, 1), (6, 2)]) { team0 with levels := [l], fail := some { level := 1, time := 0, cause := 3 } }

theorem witness_TeamEvents_rollback :
    (rolling.dropParked 0 1).canRoll 0 = true ∧ rolling.poolTrap 0x800000000000 = 0 ∧ rolling.isCell 0x800000000000 = false
    ∧ find rolling.cells 0x200000000000 = none
    ∧ leaves (exec (.alternateRollback 0) rolling) (fun t => decide (t.word (0x800000000000 / 4 + 31) = 9)
      && decide ((find t.teams 0).map (·.fail) = some none)
      && (match find t.groups 0 with
        | some h => decide (h.x 5 = 77) && decide (h.x 6 = 2) && decide (h.pc = 0x20020)
        | none => false)) = true := by decide +kernel

theorem witness_TeamEvents_groups :
    (let g : Group := { grp0 with tclass := true, budget := 1048576 }
     find (machine g).groups 0 = some g ∧ g.stopd = false ∧ ((machine g).ctxOf g).budget ≤ g.budget)
    ∧ (let g : Group := { grp0 with awt := some { cc := .eq, acq := false, d := 4, addr := 0x1000, rhs := 1 }, nap := some 0 }
       find (machine g).groups 0 = some g ∧ (0 : DWord).toNat ≤ (machine g).tsc.toNat)
    ∧ (let g : Group := { grp0 with rdyS := some 0, rdyL := some 0 }
       let s : State := { machine g with tsc := 100000 }
       find s.groups 0 = some g ∧ 1024 ≤ streamClocks (s.ratioNow 0) false (0 : DWord).toNat s.tsc.toNat
       ∧ 1024 ≤ streamClocks (s.ratioNow 0) true (0 : DWord).toNat s.tsc.toNat)
    ∧ (let g : Group := { grp0 with wf := { kind := 1 } }
       let s : State := { machine g with tsc := 10000000000 }
       g.wf.kind ≠ 0 ∧ g.wf.told = false ∧ s.wdcfg ≠ 0 ∧ g.wf.since.toNat + 1000000000 * s.wdcfg.toNat ≤ s.tsc.toNat)
    ∧ (({ running with cores := [(0, { chgClk := some 0 })] } : State).core 0).chgClk = some 0
    ∧ (let l : Level := { level1 with limit := 5, spent := 5 }
       someAnd (find (machine grp0 { team0 with levels := [l] }).teams 0) (fun tm => decide (tm.levels[tm.levels.length - 1]? = some l)
         && decide (l.limit ≠ 0 ∧ l.limit ≤ l.spent) && !tm.passed) = true) := by decide

/-- A group whose lane entry the power allowance has refused long enough for its pipe to reserve. -/
def starving : State := { machine { grp0 with
  laneQ := [{ bits := ((encLane (.vadd .i32 false (op 2 (.v 1) (.v 1)))).map LWord.word).getD 0, top := 0xff, refused := some 0 }] } with
  tsc := 100000 }

theorem witness_TeamEvents_power : (starving.starved 0).isSome = true ∧ starving.reservation 0 = none := by decide

theorem witness_PowerEvents :
    (((0x00ff0000 : DWord) >>> 16).truncate 9 : BitVec 9) = 255
    ∧ State.reset.pipeBusy 0 = false ∧ ((65 : DWord).getLsbD 0 = true ∧ (65 : DWord).toNat / 2 % 64 ≤ 32)
    ∧ ((67 : DWord).getLsbD 0 = true ∧ 32 < (67 : DWord).toNat / 2 % 64) ∧ running.pipeBusy 0 = true
    ∧ (State.reset.die 0).restart = false ∧ State.reset.flash = []
    ∧ (State.reset.core 0).droop = false ∧ (({ State.reset with cores := [(0, { droop := true })] } : State).core 0).droop = true
    ∧ (State.reset.die 0).tstop = false ∧ (({ State.reset with dies := [(0, { tstop := true })] } : State).die 0).tstop = true
    ∧ ({ State.reset with tsc := 100000000 } : State).idleFor 0 1000000 = true ∧ (State.reset.core 0).calT = none
    ∧ ((0 : DWord).toNat + 86400000000000 ≤ (86400000000000 : DWord).toNat) ∧ ({ State.reset with dies := [(1, { restart := true })] } : State).restarting = true
    ∧ (State.reset.core 0).gated = false
    ∧ ({ State.reset with tsc := 100000000 } : State).idleFor 0 (1000 * (State.reset.die 0).pgcfg.toNat) = true
    ∧ State.reset.reduced = true ∧ ((0xf : BitVec 4) &&& ~~~State.reset.diesRetired).getLsbD 0 = true ∧ State.reset.ctxs = [] := by decide

/-! ### Pool regions and host channels -/

/-- A channel 0 that runs, with 64 bytes at HEAD of its submission ring in host memory. -/
def ring (l : List Byte) (s : State := memMachine) : State :=
  { s.setBytes 0x800000000000 l with
    chs := [(0, { en := true, tail := 1, ring := some (0x800000000000, 6, 0x800000010000, 6) })]
    ports := [(0, { up := true, reach := [Config.poolDev 0] })] }

def hdr (c : BitVec 16 := 0) : PktHdr := { ch := 0, tag := 0, ctxid := c }

/-- A packet of one kind for context 1 or none, with 8-byte fields from offset 8 on. -/
def packet (kind ctx : Nat) (l : List Nat) : List Byte :=
  (bytesOf kind 1 ++ [0] ++ bytesOf ctx 2 ++ bytesOf 0 4 ++ l.flatMap (fun n => bytesOf n 8) ++ List.replicate 64 0).take 64

theorem witness_PoolEvents_links :
    (sget {} (ring []).ports 0).up = true ∧ State.reset.dieLive (portDie 0) = true
    ∧ (let s : State := { State.reset with regions := [(3, { mode := 1, st := .rejoin, flush := true, strand := [{ line := 7, words := [] }] })] }
       (s.region 3).st = .rejoin ∧ (s.region 3).flush = true
       ∧ ((s.region 3).strand.find? (fun x => x.line = 7)).map (·.heldBack) = some false) := by decide

theorem witness_PoolEvents_timeout :
    ({ State.reset with regions := [(3, { mode := 1 })] } : State).regionsWhere (fun g => Config.poolDev g.cxl = Config.poolDev 0) = [3] := by
  simp [State.regionsWhere]

def mapFields (op r port : Nat) : Nat := r + op * 2 ^ 16 + port * 2 ^ 24

theorem witness_PoolEvents_packets :
    (ring (packet 7 0 [mapFields 0 3 0])).nextPkt 0 = some (.ok hdr (.region 0 3 0 0 []))
    ∧ (ring (packet 7 0 [mapFields 1 3 1])).nextPkt 0 = some (.ok hdr (.region 1 3 1 0 []))
    ∧ (0 : DWord).toNat % 2 ^ 28 = 0
    ∧ ((ring (packet 7 0 [mapFields 1 3 1]) { memMachine with winSize := 32768 }).headOn 0).winSize ≠ 0
    ∧ (((ring []).headOn 0).region 3).mode = 0
    ∧ (((ring [] { memMachine with regions := [(3, { mode := 1 })] }).headOn 0).region 3).mode ≠ 0
    ∧ (ring (packet 7 0 [mapFields 2 3 0])).nextPkt 0 = some (.ok hdr (.region 2 3 0 0 []))
    ∧ ((ring [] { memMachine with regions := [(3, { mode := 1 })] }).headOn 0).mapped 3 = false
    ∧ ((ring [] { memMachine with regions := [(3, { mode := 1 })], dtlb := [(0, { page with pa := 0x100030000000, size := 4096 })] }).headOn 0).mapped 3 = true
    ∧ (ring (packet 7 0 [mapFields 3 3 0])).nextPkt 0 = some (.ok hdr (.region 3 3 0 0 []))
    ∧ (ring (packet 7 0 [mapFields 4 3 0])).nextPkt 0 = some (.ok hdr (.region 4 3 0 0 [])) := by decide

theorem witness_PoolEvents_rejoin :
    (let t := (ring [] { memMachine with regions := [(3, { mode := 2, st := .lost })] }).headOn 0
     (t.region 3).mode ≠ 0 ∧ (t.region 3).st = .lost ∧ t.portUp 0 = true ∧ (sget {} t.ports 0).reach.contains (Config.poolDev (t.region 3).cxl) = true) := by
  refine ⟨by decide, by decide, by decide, ?_⟩
  show [Config.poolDev 0].contains (Config.poolDev 0) = true
  simp

/-- The other refusals: no serial window, a region that is not lost, a port that is down, a device that the port does not reach. -/
theorem witness_PoolEvents_refusals :
    ((ring []).headOn 0).winSize = 0
    ∧ (let t := (ring [] { memMachine with regions := [(3, { mode := 2, st := .lost })] }).headOn 0
       (t.region 3).st = .lost ∧ t.portUp 0 = true ∧ t.portUp 1 = false
       ∧ ({ t with ports := [(0, { up := true, reach := [] })] } : State).portUp 0 = true)
    ∧ ¬((((ring [] { memMachine with regions := [(3, { mode := 2 })] }).headOn 0).region 3).st = .lost) := by decide

/-- A context record at 0x2000: no page table, tables of its own, number 1. -/
def ctxRecord : List Byte := bytesOf 0 36 ++ bytesOf 1 2 ++ List.replicate 26 0

/-- A launch descriptor at 0x2000: one team of one group of width 8 on one core. -/
def descriptor : List Byte := bytesOf 0 28 ++ [1, 0, 1, 1] ++ bytesOf 1 4 ++ bytesOf 32 2 ++ List.replicate 26 0

def launchRead (r : DescRead) : Bool :=
  match r with
  | .ok _ d => decide (d.grid = 1 ∧ d.groups = 1 ∧ d.width = 8)
  | _ => false

theorem witness_ChannelEvents_ctx :
    (let s := ring (packet 1 0 [0x2000]) (memMachine.setBytes 0x2000 ctxRecord)
     s.nextPkt 0 = some (.ok hdr (.ctx 0x2000)) ∧ inMemory (s.headOn 0) 0x2000 = true
     ∧ (parseCtx ((s.headOn 0).homeBytes 0x2000 64)).isSome = true)
    ∧ (ring (packet 1 0 [0x2020])).nextPkt 0 = some (.ok hdr (.ctx 0x2020)) ∧ (0x2020 : DWord).toNat % 64 ≠ 0 := by decide

theorem witness_ChannelEvents_launch :
    (let s := ring (packet 2 1 [0x2000]) (memMachine.setBytes 0x2000 descriptor)
     let t := s.headOn 0
     let u : State := { t with nextUid := t.nextUid + 1 }
     s.nextPkt 0 = some (.ok (hdr 1) (.launch 0x2000)) ∧ u.ctxOpen 1 = true ∧ launchRead (u.readDesc 1 0x2000) = true)
    ∧ (ring (packet 2 1 [0x2001])).nextPkt 0 = some (.ok (hdr 1) (.launch 0x2001))
    ∧ (ring (packet 2 2 [0x2000])).nextPkt 0 = some (.ok (hdr 2) (.launch 0x2000)) ∧ memMachine.ctxOpen 2 = false := by decide

/-- A graph of one node at 0x3000, whose descriptor stands at 0x2000. -/
def graphBytes1 : List Byte := bytesOf 1 4 ++ bytesOf 0 4 ++ bytesOf 0x3020 8 ++ bytesOf 0x3030 8 ++ List.replicate 8 0
  ++ bytesOf 0x2000 8 ++ bytesOf 1 2 ++ List.replicate 6 0

theorem witness_ChannelEvents_graph :
    (let s := ring (packet 3 1 [0x3000]) ((memMachine.setBytes 0x2000 descriptor).setBytes 0x3000 graphBytes1)
     let t := s.headOn 0
     let u : State := { t with nextUid := t.nextUid + 1 }
     decide (s.nextPkt 0 = some (.ok (hdr 1) (.graph 0x3000))) && u.ctxOpen 1 && (match u.readGraph 1 0x3000 with
       | .ok _ (ns, es) => acyclic ns.length es && es.isEmpty
       | _ => false)) = true := by decide

theorem put_none_of_first (s : State) (a : Nat) (l : List Byte) (hh : isHost a = false) (ha : a % 4 = 0) (hl : 4 ≤ l.length)
    (h : ∀ v, s.tryOutside (a / 4) v 0xf = none) : s.putBytesHome a l = none := by
  obtain ⟨n, hn⟩ : ∃ n, (a + l.length + 3) / 4 - a / 4 = n + 1 := ⟨(a + l.length + 3) / 4 - a / 4 - 1, by omega⟩
  have hz : ∀ (ws : List Nat) (f : State → Nat → Option State), ws.foldl (fun (o : Option State) w => o.bind (fun s => f s w)) none = none :=
    fun ws f => by induction ws with
      | nil => rfl
      | cons w r ih => simpa using ih
  unfold State.putBytesHome
  simp only [hh, hn, List.range_succ_eq_map, List.map_cons, List.foldl_cons, Bool.false_eq_true, if_false]
  have hm : Nat.min 4 (l.length - (4 * (a / 4 + 0) - a)) = 4 := by
    have : 4 * (a / 4 + 0) - a = 0 := by omega
    rw [this]; exact Nat.min_eq_left (by omega)
  rw [hm, Nat.add_zero, Option.bind_some, show BitVec.ofNat 4 (2 ^ 4 - 1) = 0xf from rfl, h]
  exact hz _ (fun s w => s.tryOutside w (BitVec.ofNat 32 (numAt l (4 * w - a) (Nat.min 4 (l.length - (4 * w - a)))))
    (BitVec.ofNat 4 (2 ^ Nat.min 4 (l.length - (4 * w - a)) - 1)))

/-- A report that host memory takes, and one whose first word's cell of four siblings cannot hold it. -/
theorem witness_ChannelEvents_attest (b : List Byte) (hb : 4 ≤ b.length) :
    (∃ v, memMachine.putBytesHome 0x800000000000 b = some v) ∧ crowded.putBytesHome 0x1000 b = none := by
  refine ⟨⟨_, by unfold State.putBytesHome; exact if_pos (by decide)⟩, put_none_of_first _ _ _ (by decide) (by decide) hb (fun v => ?_)⟩
  rfl

theorem witness_ChannelEvents_rest :
    (ring (packet 4 1 [])).nextPkt 0 = some (.ok (hdr 1) .quiesce) ∧ (find memMachine.ctxs 1).isSome = true
    ∧ (ring (packet 5 0 [1, 2, 3])).nextPkt 0 = some (.ok hdr (.hreply 1 2 3))
    ∧ (ring (packet 6 0 [1, 1])).nextPkt 0 = some (.ok hdr (.fdone 1 true))
    ∧ (ring (packet 8 0 [4095 + 1 * 2 ^ 32, 0xffffff])).nextPkt 0 = some (.ok hdr (.devcfg 4095 1 0xffffff))
    ∧ (ring (packet 8 0 [0, 0])).nextPkt 0 = some (.ok hdr (.devcfg 0 0 0)) ∧ (ring [] State.reset).groups = [] ∧ (ring [] State.reset).saved = [] ∧ (ring []).groups ≠ []
    ∧ (ring (packet 9 0 [0x2000, 0x2040])).nextPkt 0 = some (.ok hdr (.attest 0x2000 0x2040)) ∧ inMemory (ring []) 0x2040 = true
    ∧ (ring (packet 10 0 [0x2000, 67108864 + 1 * 2 ^ 32])).nextPkt 0 = some (.ok hdr (.fwupd 0x2000 67108864 1))
    ∧ (((ring []).headOn 0).die ((ring []).headOn 0).cpDie).slotB = false := by decide

/-! ### Graphs, quiesce points, retirement, links -/

/-- A graph of two nodes and one edge, whose producer has ended. -/
def graphed (fl dev : Nat) : State := { memMachine with
  teams := [], groups := []
  graphs := [(5, { ctx := 1, nodes := [({}, 1, true, true), ({}, 1, false, false)], edges := [{ src := 0, dst := 1, regs := [], dev := dev, flags := fl }] })]
  launches := [(6, { ctx := 1, node := some (5, 0), ended := true })] }

theorem witness_GraphRetireEvents :
    (∀ fl ∈ [0, 1, 3], someAnd (find (graphed fl 0xffff).graphs 5) (fun g => !g.ended && someAnd g.edges[0]? (fun e => !e.sat
      && (graphed fl 0xffff).nodeEnded 5 e.src && (graphed fl 0xffff).quiet (nodeCtx g e.src) && !((graphed fl 0xffff).remote e))) = true)
    ∧ someAnd (find (graphed 0 9).graphs 5) (fun g => someAnd g.edges[0]? (fun e => (graphed 0 9).remote e)) = true
    ∧ (let s : State := { graphed 0 0xffff with graphs := [], quiesces := [{ ctx := 1, ch := 0, tag := 0, after := [6] }] }
       someAnd (s.quiesces.find? (fun q => q.ctx = 1 && !q.ended)) (fun q => q.after.all (fun u => !((s.openWork 1).contains u))) && s.quiet 1) = true
    ∧ (let p : Part := { kind := 3, core := 5, pipe := 0, part := 0, die := 0 }
       let s : State := { State.reset with retireQ := [(p, 0)], tsc := 1000000000 }
       s.retireQ[0]? = some (p, 0) ∧ s.partFree p = true ∧ (0 : DWord).toNat + 1000000000 ≤ s.tsc.toNat ∧ p.kind ≠ 4)
    ∧ (let p : Part := { kind := 4, core := 0, pipe := 0, part := 0, die := 0 }
       let s : State := { State.reset with retireQ := [(p, 0)] }
       s.retireQ.find? (fun e => (e.1.kind = 4 || e.1.kind = 5) && e.1.die = 0 && s.partFree e.1) = some (p, 0))
    ∧ (sget {} State.reset.links 23).up = true := by decide

/-- A far edge whose one output region, of 128 bytes, is read. -/
theorem witness_GraphRetireEvents_far :
    (let s : State := { graphed 0 9 with cores := [(0, { tlb := [page] })] }
     (match s.copyOut 1 [(0x1000, 128, 2)] [] with
      | .ok _ c => decide (c.map (fun x => (x.1, x.2.length)) = [(0x1000, 128)])
      | _ => false)) = true := by decide +kernel


/-! ### A save of a context (R436) -/

/-- The page of the images, uncached. -/
def pageU : TlbEnt := { page with mt := true }

/-- A SYS handler that saves team 1 at 0x100000. -/
def saver : Group := handler [(1, 256), (2, 0x100000)]

/-- Its machine. -/
def saving : State := { sysMachine saver with
  teams := [(0, team0), (1, { ctx := 1, inst := 1 })], cores := [(0, { allow := 1, tlb := [pageU] })] }

/-- That machine once team 1 is pre-empted. -/
def stopped : State := ((saving.claimSave 0 1).preemptTeam 1).1

theorem stopped_facts :
    ((saving.claimSave 0 1).preemptTeam 1).2 = true ∧ stopped.groups = [(0, saver)] ∧ stopped.regQ = [] ∧ stopped.cur = 0
    ∧ stopped.cores = saving.cores ∧ stopped.teams = [(0, team0)] ∧ stopped.regions = [] ∧ stopped.pois = [] ∧ stopped.unmapped 0x100000 = false
    ∧ stopped.unmapped 0x101000 = false ∧ stopped.saved.map (fun v => (v.team.spadB, v.groups, v.inst)) = [(0, [], 1)] := by
  decide +kernel

/-- That machine with the hash of the save in its list. -/
def hashed : State := { stopped with
  saved := stopped.saved.map (fun v => if v.inst = 1 then { v with hash := some (sha3 (imageBody v)) } else v) }

/-- A machine in which only group 0's vector, memory and the writes not acknowledged differ. -/
def tail (b : State) (v : VVec) (m : List Host.Cell) (a : List AckReq) : State :=
  { b with groups := [(0, { saver with vv := v })], mem := m, acks := a, cores := saving.cores, teams := [(0, team0)], regions := [], pois := [] }

theorem hashed_tail : hashed = tail hashed saver.vv hashed.mem hashed.acks := by
  obtain ⟨-, h1, -, -, h2, h3, h4, h5, -⟩ := stopped_facts
  unfold tail hashed
  simp only [← h1, ← h2, ← h3, ← h4, ← h5]

theorem storeDwords_tail (b : State) (mt : Bool) (hm : mt = true) (ws : List DWord) : ∀ v m a (va : DWord) pa,
    ∃ v' m' a', (tail b v m a).storeDwords 0 va pa mt ws = tail b v' m' a' := by
  induction ws with
  | nil => intro v m a va pa; exact ⟨v, m, a, rfl⟩
  | cons w r ih =>
    intro v m a va pa
    unfold State.storeDwords
    rw [show find (tail b v m a).groups 0 = some { saver with vv := v } from rfl]
    simp only [hm, if_true]
    unfold State.storeRaw
    rw [State.setBytes_frame]
    exact hm ▸ ih _ _ _ _ _

theorem storeFields_tail (b : State) (mt : Bool) (hm : mt = true) (ws : List DWord) (v m a) (va : DWord) (pa : Nat) :
    ∃ v' m' a', (tail b v m a).storeFields 0 va pa mt ws = tail b v' m' a' := storeDwords_tail b mt hm ws v m a va pa

theorem translate_tail (b : State) (v : VVec) (m : List Host.Cell) (a : List AckReq) (va : DWord)
    (h : va = 0x100000 ∨ va = 0x101000) (hu : (tail b v m a).unmapped va.toNat = false) :
    (tail b v m a).translate 0 1 va .write true = .ok (tail b v m a) va.toNat true := by
  rcases h with rfl | rfl
  all_goals
    unfold State.translate
    rw [if_neg (by decide), show ((tail b v m a).core 0).tlb = [pageU] from rfl, show tlbFind 1 _ [pageU] = some pageU from by decide]
    simp only [show pageU.d = true from rfl, Bool.not_true, Bool.and_false, Bool.false_and, Bool.false_eq_true, if_false]
    rw [show (tail b v m a).tlbInsert 0 pageU = tail b v m a from rfl]
    unfold State.useEntry
    rw [if_neg (by decide)]
    erw [hu]
    rfl

theorem storeImage_tail (b : State) (v : VVec) (m : List Host.Cell) (a : List AckReq) (ws : List DWord) (hl : ws.length = 544)
    (hu : ∀ v m a, (tail b v m a).unmapped 0x100000 = false ∧ (tail b v m a).unmapped 0x101000 = false) :
    ∃ v' m' a', (tail b v m a).storeImage 0 0x100000 2 ws = (tail b v' m' a', true) := by
  obtain ⟨v1, m1, a1, e1⟩ := storeFields_tail b true rfl (ws.take 512) v m a 0x100000 0x100000
  obtain ⟨v2, m2, a2, e2⟩ := storeFields_tail b true rfl ((ws.drop 512).take 512) v1 m1 a1 0x101000 0x101000
  refine ⟨v2, m2, a2, ?_⟩
  have n1 : ws.isEmpty = false := by cases ws <;> simp at hl ⊢
  have n2 : (ws.drop 512).isEmpty = false := by
    have h2 : (ws.drop 512).length = 32 := by simp [hl]
    generalize ws.drop 512 = r at h2 ⊢
    cases r <;> simp at h2 ⊢
  have p (v m a) : (tail b v m a).poolTrap 0x100000 = 0 ∧ (tail b v m a).poolTrap 0x101000 = 0 := ⟨rfl, rfl⟩
  have c (v m a) : ((find (tail b v m a).groups 0).map (tail b v m a).ctxId).getD 0 = 1 := rfl
  have q (v m a va n) : (tail b v m a).lockedG 0 (((find (tail b v m a).groups 0).map (tail b v m a).ctxId).getD 0) va n true = false := rfl
  unfold State.storeImage
  rw [n1, c, show coreOf 0 = 0 from rfl, translate_tail b _ _ _ _ (Or.inl rfl) (hu _ _ _).1]
  simp only
  rw [if_neg (by decide), if_neg (by simp [(p _ _ _).1, q])]
  erw [e1]
  unfold State.storeImage
  rw [n2, c, show coreOf 0 = 0 from rfl, show (0x100000 : DWord) + 4096 = 0x101000 from by decide,
    translate_tail b _ _ _ _ (Or.inr rfl) (hu _ _ _).2]
  simp only
  rw [if_neg (by decide), if_neg (by simp [(p _ _ _).2, q])]
  erw [e2]
  rfl

theorem hashed_unmapped (v : VVec) (m : List Host.Cell) (a : List AckReq) :
    (tail hashed v m a).unmapped 0x100000 = false ∧ (tail hashed v m a).unmapped 0x101000 = false := by
  obtain ⟨-, -, -, -, -, -, -, -, h1, h2, -⟩ := stopped_facts
  exact ⟨h1, h2⟩

theorem hashed_saved : ∃ sv, hashed.saved = [sv] ∧ sv.inst = 1 ∧ imageBytes sv.team sv.groups = 4352 := by
  have h := stopped_facts.2.2.2.2.2.2.2.2.2.2
  obtain ⟨x, hx⟩ : ∃ x, stopped.saved = [x] := by
    match h' : stopped.saved with
    | [] => rw [h'] at h; simp at h
    | [x] => exact ⟨x, rfl⟩
    | _ :: _ :: _ => rw [h'] at h; simp at h
  rw [hx] at h
  simp only [List.map_cons, List.map_nil, List.cons.injEq, and_true, Prod.mk.injEq] at h
  obtain ⟨h1, h2, h3⟩ := h
  refine ⟨{ x with hash := some (sha3 (imageBody x)) }, ?_, h3, ?_⟩
  · unfold hashed
    rw [hx]
    simp [h3]
  · simp only [imageBytes, h1, h2]
    decide

theorem witness_ContextInstructions_ctxsv :
    (saving.ctxOf saver).sys = true ∧ saving.grp = some saver ∧ saver.tclass = true ∧ saver.relW = false ∧ (saver.x 1).toNat < 4096
    ∧ 16 * ((saver.x 1).toNat % 256) + (saver.x 1).toNat / 256 % 16 = 1
    ∧ find saving.teams 1 = some { ctx := 1, inst := 1 } ∧ 1 ≠ saver.seat ∧ 1 ≠ (saving.teamOf saver).inst
    ∧ canonA (saver.x 2) = true ∧ (saver.x 2).toNat % 4096 = 0
    ∧ ∃ s1 s2 n, (saving.claimSave saving.cur 1).preemptTeam 1 = (s1, true) ∧ s1.imagesFit saving.cur (saver.x 2) = true ∧
      (let inst := (s1.saved.getLast?.map (·.inst)).getD 0
       let v : State := { s1 with
         saved := s1.saved.map (fun v => if v.inst = inst then { v with hash := some (sha3 (imageBody v)) } else v) }
       let l := v.saved.filter (fun v => v.inst = inst)
       v.storeImages v.cur (saver.x 2) l.length l 0 = (s2, true, n)
       ∧ (({ s2.flushGroup s2.cur with images := s2.images ++ [l] } : State).grp).isSome = true) := by
  refine ⟨by rfl, by rfl, by rfl, by rfl, by decide, by decide, by rfl, by decide, by decide, by decide, by decide, ?_⟩
  obtain ⟨f1, -, f3, f4, -⟩ := stopped_facts
  obtain ⟨sv, hs, hi, hn⟩ := hashed_saved
  have hlast : (stopped.saved.getLast?.map (·.inst)).getD 0 = 1 := by decide +kernel
  obtain ⟨v, m, a, he⟩ := storeImage_tail hashed saver.vv hashed.mem hashed.acks (dwords (imageOf hashed sv 1) (4352 / 8))
    (by simp [dwords]) hashed_unmapped
  rw [← hashed_tail] at he
  refine ⟨stopped, tail hashed v m a, 4352, Prod.ext rfl f1, by decide +kernel, ?_⟩
  simp only [hlast]
  have e : ({ stopped with saved := stopped.saved.map (fun v => if v.inst = 1 then { v with hash := some (sha3 (imageBody v)) } else v) } : State)
      = hashed := rfl
  simp only [e]
  have hf : hashed.saved.filter (fun v => decide (v.inst = 1)) = [sv] := by rw [hs]; simp [hi]
  have hf2 : (stopped.saved.map (fun v => if v.inst = 1 then { v with hash := some (sha3 (imageBody v)) } else v)).filter
      (fun v => decide (v.inst = 1)) = [sv] := hf
  simp only [hf2, f4]
  constructor
  · unfold State.storeImages
    simp only [hn, List.length_cons, List.length_nil]
    have e2 : hashed.storeImage 0 (saver.x 2) (4352 / 4096 + 1) (dwords (imageOf hashed sv (0 + 1)) (4352 / 8))
        = (tail hashed v m a, true) := he
    rw [e2]
    rfl
  · have hq : (tail hashed v m a).regQ = [] := f3
    unfold State.flushGroup State.testAll
    simp only [hq, List.filter_nil, List.foldl_nil]
    rfl

/-- The same group once its images are written: performed or not. -/
theorem witness_ContextInstructions_save_ends :
    (let g : Group := { saver with relW := true }
     let s : State := sysMachine g
     let fin (s : State) : Bool := s.acked s.cur 3 && s.regQ.all (fun q => q.grp ≠ s.cur)
       && (s.core (coreOf s.cur)).replay.all (fun p => p.grp ≠ s.cur)
     (s.ctxOf g).sys = true ∧ g.relW = true ∧ fin s = true
     ∧ fin { s with acks := [{ grp := 0, w := 0x40000, unc := true, lane := false }] } = false) := by decide

/-! ### A load of a context (R437) -/

theorem length_bytesOf (v n : Nat) : (bytesOf v n).length = n := by
  induction n generalizing v with
  | zero => rfl
  | succ n ih => simp [bytesOf, ih]

theorem ofBytes_bytesOf (v n : Nat) : ofBytes (bytesOf v n) = v % 256 ^ n := by
  induction n generalizing v with
  | zero => simp [bytesOf, ofBytes, Nat.mod_one]
  | succ n ih =>
    simp only [bytesOf, ofBytes, ih, BitVec.toNat_ofNat]
    rw [Nat.pow_succ 256 n, Nat.mul_comm (256 ^ n) 256, Nat.mod_mul]

theorem bytesOf_ofBytes (l : List Byte) : bytesOf (ofBytes l) l.length = l := by
  induction l with
  | nil => rfl
  | cons b l ih =>
    have hb := b.isLt
    simp only [ofBytes, List.length_cons, bytesOf]
    rw [show (b.toNat + 256 * ofBytes l) / 256 = ofBytes l by omega, ih]
    congr 1
    apply BitVec.eq_of_toNat_eq
    simp only [BitVec.toNat_ofNat]
    omega

theorem ofBytes_lt (l : List Byte) : ofBytes l < 256 ^ l.length := by
  induction l with
  | nil => simp [ofBytes]
  | cons b l ih =>
    have hb := b.isLt
    simp only [ofBytes, List.length_cons, Nat.pow_succ]
    omega

/-- An image with its hash: FORMAT 1, 4,352 bytes, one team, a body of zeros. -/
def img (h : BitVec 512) : List Byte :=
  bytesOf 1 4 ++ bytesOf 4352 4 ++ List.replicate 56 0 ++ bytesOf h.toNat 64 ++ List.replicate 4224 0

theorem img_length (h : BitVec 512) : (img h).length = 4352 := by
  simp only [img, List.length_append, length_bytesOf, List.length_replicate]

/-- The body of that image. -/
def imgBody : List Byte := List.replicate 4096 0

theorem slice {l a b c : List Byte} {n m : Nat} (h : l = a ++ (b ++ c)) (ha : a.length = n) (hb : b.length = m) :
    (l.drop n).take m = b := by
  subst h ha hb
  simp

set_option exponentiation.threshold 600 in
theorem hash_bytes (h : BitVec 512) : ofBytes (bytesOf h.toNat 64) = h.toNat := by
  rw [ofBytes_bytesOf, Nat.mod_eq_of_lt]
  exact lt_of_lt_of_eq h.isLt (by rw [show (256 : Nat) = 2 ^ 8 from rfl, ← Nat.pow_mul])

theorem img_parts (h : BitVec 512) (k : Nat) (b : List Byte)
    (e : b = bytesOf 1 4 ++ (bytesOf 4352 4 ++ (List.replicate 56 0 ++ (bytesOf h.toNat 64 ++ (List.replicate 128 0 ++ List.replicate k 0))))) :
    numAt b 0 4 = 1 ∧ numAt b 4 4 = 4352 ∧ numAt b 0x14 4 = 0 ∧ (b.drop 0x28).take 24 = List.replicate 24 0
    ∧ numAt b 0x40 64 = h.toNat ∧ (b.drop 0x80).take 128 = List.replicate 128 0 ∧ b.drop 256 = List.replicate k 0 := by
  let z := List.replicate 128 0 ++ List.replicate k (0 : Byte)
  have z1 : List.replicate 56 (0 : Byte) = List.replicate 12 0 ++ (List.replicate 4 0 ++ List.replicate 40 0) := rfl
  have z2 : List.replicate 56 (0 : Byte) = List.replicate 32 0 ++ List.replicate 24 0 := rfl
  have p1 : (b.drop 0).take 4 = bytesOf 1 4 := slice (a := []) e rfl rfl
  have p2 : (b.drop 4).take 4 = bytesOf 4352 4 := slice e rfl rfl
  have p3 : (b.drop 0x14).take 4 = List.replicate 4 0 :=
    slice (a := bytesOf 1 4 ++ (bytesOf 4352 4 ++ List.replicate 12 0)) (c := List.replicate 40 0 ++ (bytesOf h.toNat 64 ++ z))
      (e.trans (by rw [z1]; simp only [List.append_assoc, z])) rfl rfl
  have p4 : (b.drop 0x28).take 24 = List.replicate 24 0 :=
    slice (a := bytesOf 1 4 ++ (bytesOf 4352 4 ++ List.replicate 32 0)) (c := bytesOf h.toNat 64 ++ z)
      (e.trans (by rw [z2]; simp only [List.append_assoc, z])) rfl rfl
  have p5 : (b.drop 0x40).take 64 = bytesOf h.toNat 64 :=
    slice (a := bytesOf 1 4 ++ (bytesOf 4352 4 ++ List.replicate 56 0)) (c := z)
      (e.trans (by simp only [List.append_assoc, z])) rfl (length_bytesOf _ _)
  have p6 : (b.drop 0x80).take 128 = List.replicate 128 0 :=
    slice (a := bytesOf 1 4 ++ (bytesOf 4352 4 ++ (List.replicate 56 0 ++ bytesOf h.toNat 64))) (c := List.replicate k 0)
      (e.trans (by simp only [List.append_assoc])) (by simp [length_bytesOf]) rfl
  refine ⟨?_, ?_, ?_, p4, ?_, p6, ?_⟩
  · unfold numAt; rw [p1]; rfl
  · unfold numAt; rw [p2]; rfl
  · unfold numAt; rw [p3]; rfl
  · unfold numAt; rw [p5]; exact hash_bytes h
  · rw [e, show ∀ a b c d e f : List Byte, a ++ (b ++ (c ++ (d ++ (e ++ f)))) = (a ++ b ++ c ++ d ++ e) ++ f by simp]
    exact List.drop_left' (by simp [length_bytesOf])

theorem img_eq (h : BitVec 512) : img h = bytesOf 1 4 ++ (bytesOf 4352 4 ++ (List.replicate 56 0 ++ (bytesOf h.toNat 64 ++
    (List.replicate 128 0 ++ List.replicate 4096 0)))) := by
  simp only [img, List.append_assoc, List.replicate_append_replicate]

/-- The first 256 bytes: the header. -/
theorem img_head (h : BitVec 512) : (img h).take 256 = bytesOf 1 4 ++ (bytesOf 4352 4 ++ (List.replicate 56 0 ++ (bytesOf h.toNat 64 ++
    (List.replicate 128 0 ++ List.replicate 0 0)))) := by
  rw [img_eq, show ∀ a b c d e f : List Byte, a ++ (b ++ (c ++ (d ++ (e ++ f)))) = (a ++ b ++ c ++ d ++ e) ++ f by simp,
    List.take_left' (by simp [length_bytesOf])]
  simp only [List.append_assoc, List.replicate_zero, List.append_nil]

theorem image_ok (h : BitVec 512) (e : h = sha3 imgBody) : imageOk (img h) ((img h).drop 256) = true := by
  obtain ⟨p1, -, p3, p4, p5, p6, p7⟩ := img_parts h 4096 _ (img_eq h)
  unfold imageOk
  rw [p1, p3, p4, p5, p6, p7, e]
  simp [imgBody]

/-! The machine and its reads. -/

/-- A SYS handler that loads the image at 0x100000 onto core 0. -/
def loader : Group := handler [(1, 0x100000), (2, 0)]

/-- The save of team 1, under a hash. -/
def savedTeam (h : BitVec 512) : Saved :=
  { pos := 0, key := 1, uid := 4097, inst := 1, instR := { launch := 0, teams := [1] }, hash := some h
    team := { ctx := 1, inst := 1 }, groups := [], chans := [], gathers := [], replay := [] }

/-- Its machine: the image stands in memory, and the team it names is saved. -/
def loading (h : BitVec 512) : State := { sysMachine loader with
  saved := [savedTeam h], images := [[savedTeam h]], teams := [(0, { ctx := 1 })], cores := [(0, { allow := 1, tlb := [pageU] })]
  mem := (List.range' 0 4352).map (fun n => (0x100000 + n, (img h).getD n 0)) }

theorem find_block {α : Type} (b : Nat) (f : Nat → α) : ∀ n a k, a ≤ k → k < a + n →
    find ((List.range' a n).map (fun i => (b + i, f i))) (b + k) = some (f k) := by
  intro n
  induction n with
  | zero => intro a k h1 h2; omega
  | succ n ih =>
    intro a k h1 h2
    simp only [List.range'_succ, List.map_cons, find]
    by_cases h : a = k
    · simp [h]
    · rw [if_neg (by omega)]
      exact ih (a + 1) k (by omega) (by omega)

theorem loading_byte (h : BitVec 512) (n : Nat) (hn : n < 4352) : (loading h).byte (0x100000 + n) = (img h).getD n 0 := by
  unfold State.byte sget
  rw [show (loading h).mem = (List.range' 0 4352).map (fun n => (0x100000 + n, (img h).getD n 0)) from rfl,
    find_block _ (fun n => (img h).getD n 0) 4352 0 n (by omega) (by omega)]
  rfl

/-- The address of a 64-bit word of the image. -/
def slot (j : Nat) : DWord := 0x100000 + BitVec.ofNat 64 (8 * j)

theorem slot_facts (j : Nat) (hj : j < 544) : canonical (slot j) = true ∧ (slot j).toNat = 0x100000 + 8 * j
    ∧ tlbFind 1 ((slot j).toNat % 2 ^ 57) [pageU] = some pageU ∧ pageU.pa + (slot j).toNat % 2 ^ 57 % pageU.size = 0x100000 + 8 * j := by
  have e : (slot j).toNat = 0x100000 + 8 * j := by
    simp only [slot, BitVec.toNat_add, BitVec.toNat_ofNat, show (0x100000 : DWord).toNat = 0x100000 from rfl]
    omega
  refine ⟨?_, e, ?_, ?_⟩
  · unfold canonical
    rw [decide_eq_true_eq]
    apply BitVec.eq_of_toInt_eq
    rw [BitVec.toInt_signExtend_of_le (by omega), BitVec.toInt_eq_toNat_of_lt, BitVec.toInt_eq_toNat_of_lt] <;>
      simp only [BitVec.truncate_eq_setWidth, BitVec.toNat_setWidth, e] <;> omega
  · rw [e, Nat.mod_eq_of_lt (by omega)]
    have : 0 = (0x100000 + 8 * j) / 2 ^ 30 := by omega
    exact List.find?_cons_of_pos (by
      simp only [pageU, page, decide_true, Bool.true_and]
      exact decide_eq_true this)
  · rw [e]
    show 0 + (0x100000 + 8 * j) % 2 ^ 57 % 2 ^ 30 = _
    omega

theorem loading_unmapped (h : BitVec 512) (j : Nat) (hj : j < 544) : (loading h).unmapped (0x100000 + 8 * j) = false := by
  have : ∀ j : Fin 544, (sysMachine loader).unmapped (0x100000 + 8 * j.val) = false := by decide +kernel
  exact this ⟨j, hj⟩

theorem loading_pool (h : BitVec 512) (j : Nat) (hj : j < 544) : (loading h).poolTrap (0x100000 + 8 * j) = 0 := by
  have : ∀ j : Fin 544, (sysMachine loader).poolTrap (0x100000 + 8 * j.val) = 0 := by decide +kernel
  exact this ⟨j, hj⟩

theorem loading_translate (h : BitVec 512) (j : Nat) (hj : j < 544) :
    (loading h).translate 0 1 (slot j) .read true = .ok (loading h) (0x100000 + 8 * j) true := by
  obtain ⟨f1, -, f3, f4⟩ := slot_facts j hj
  have hu := loading_unmapped h j hj
  unfold canonical at f1
  rw [decide_eq_true_eq] at f1
  unfold State.translate
  rw [if_neg (by simp [f1]), show ((loading h).core 0).tlb = [pageU] from rfl, f3]
  simp only [reduceCtorEq, decide_false, Bool.false_and, Bool.false_eq_true, if_false]
  rw [show (loading h).tlbInsert 0 pageU = loading h from rfl]
  unfold State.useEntry
  rw [if_neg (by decide), f4]
  simp only [hu, Bool.false_eq_true, if_false]
  rfl

theorem loading_chk (h : BitVec 512) (j : Nat) (hj : j < 544) :
    (loading h).chkPage 0 loader (slot j) 8 false true anyMem = .ok (loading h) (0x100000 + 8 * j) true := by
  unfold State.chkPage
  rw [show coreOf 0 = 0 from rfl, show (loading h).ctxId loader = 1 from rfl, show loader.tclass = true from rfl]
  simp only [Bool.false_eq_true, if_false]
  rw [loading_translate h j hj]
  unfold State.chkPlace
  simp only [loading_pool h j hj, anyMem, ne_eq, not_true_eq_false, if_false, Bool.not_true, Bool.false_eq_true]
  rfl

/-- The check of a word of the image. -/
def slotChk (j : Nat) : SpanChk := { va := slot j, home := some (0x100000 + 8 * j, true) }

theorem loading_span (h : BitVec 512) : ∀ l : List Nat, (∀ j ∈ l, j < 544) →
    (loading h).chkSpan 0 loader (l.map slot) = (loading h, l.map slotChk) := by
  intro l
  induction l with
  | nil => intro _; rfl
  | cons j l ih =>
    intro hl
    simp only [List.map_cons]
    unfold State.chkSpan
    rw [loading_chk h j (hl j (by simp))]
    simp only [ih (fun i hi => hl i (by simp [hi]))]
    rfl

theorem firstChk_good : ∀ (l : List SpanChk) (o : Option SpanChk), (∀ x ∈ l, x.rank = 4) → (∀ y, o = some y → y.rank = 4) → ∀ y,
    l.foldl (fun o x => match o with
      | none => some x
      | some y => if x.rank < y.rank then some x else some y) o = some y → y.rank = 4 := by
  intro l
  induction l with
  | nil => intro o _ ho y hy; exact ho y hy
  | cons x l ih =>
    intro o hl ho y hy
    refine ih _ (fun z hz => hl z (by simp [hz])) ?_ y hy
    intro z hz
    cases o with
    | none => cases hz; exact hl x (by simp)
    | some w =>
      simp only at hz
      split at hz
      · cases hz; exact hl x (by simp)
      · cases hz; exact ho _ rfl

/-- A 64-bit word of the image. -/
def imgWord (h : BitVec 512) (j : Nat) : DWord := BitVec.ofNat 64 (ofBytes ((List.range 8).map (fun i => (img h).getD (8 * j + i) 0)))

theorem loading_raw (h : BitVec 512) (j : Nat) (hj : j < 544) : BitVec.ofNat 64 ((loading h).rawN (0x100000 + 8 * j) 8) = imgWord h j := by
  have e : (List.range 8).map (fun i => (loading h).byte (0x100000 + 8 * j + i)) = (List.range 8).map (fun i => (img h).getD (8 * j + i) 0) := by
    refine List.map_congr_left (fun i hi => ?_)
    have := List.mem_range.mp hi
    rw [Nat.add_assoc, loading_byte h _ (by omega)]
  unfold State.rawN imgWord
  rw [e]

theorem loading_at (h : BitVec 512) : ∀ (l : List Nat) acc, (∀ j ∈ l, j < 544) →
    (loading h).readAt 0 (l.map (fun j => (0x100000 + 8 * j, true))) acc false = .ok (loading h) (acc.reverse ++ l.map (imgWord h)) false := by
  intro l
  induction l with
  | nil => intro acc _; simp [State.readAt]
  | cons j l ih =>
    intro acc hl
    simp only [List.map_cons]
    unfold State.readAt State.loadN
    simp only [if_true, loading_raw h j (hl j (by simp)), show (loading h).rawPois (0x100000 + 8 * j) 8 = false from rfl, Bool.or_false]
    rw [ih _ (fun i hi => hl i (by simp [hi]))]
    simp

theorem loading_read (h : BitVec 512) (n : Nat) (hn : n ≤ 544) :
    (loading h).readDw 0 loader 0x100000 8 false n = .ok (loading h) ((List.range n).map (imgWord h)) false := by
  have hl : ∀ j ∈ List.range n, j < 544 := fun j hj => by have := List.mem_range.mp hj; omega
  have hv : ((List.range n).map slot).find? (fun a => !(canonical a)) = none := by
    rw [List.find?_eq_none]
    intro x hx
    obtain ⟨j, hj, rfl⟩ := List.mem_map.mp hx
    simp [(slot_facts j (hl j hj)).1]
  have hr : ∀ x ∈ (List.range n).map slotChk, x.rank = 4 := by
    intro x hx
    obtain ⟨j, _, rfl⟩ := List.mem_map.mp hx
    rfl
  have hf : (firstChk ((List.range n).map slotChk)).filter (fun x => decide (x.rank < 4)) = none := by
    cases hc : firstChk ((List.range n).map slotChk) with
    | none => rfl
    | some y =>
      have := firstChk_good _ none hr (by simp) y hc
      simp [this]
  unfold State.readDw
  have hs : (List.range n).map (fun i => (0x100000 : DWord) + BitVec.ofNat 64 (8 * i)) = (List.range n).map slot := rfl
  have ho : ¬((0x100000 : DWord).toNat % 8 ≠ 0) := by decide
  simp only [hs, hv, if_neg ho, Bool.false_eq_true, if_false, Option.map_none, Option.or_none]
  rw [loading_span h _ hl]
  simp only [hf, List.map_map]
  exact loading_at h _ [] hl

theorem range_bytes (f : Nat → Byte) (n : Nat) :
    (List.range n).flatMap (fun j => (List.range 8).map (fun i => f (8 * j + i))) = (List.range (8 * n)).map f := by
  induction n with
  | zero => rfl
  | succ n ih =>
    rw [List.range_succ (n := n), List.flatMap_append, ih, show 8 * (n + 1) = 8 * n + 8 by omega, List.range_add, List.map_append, List.map_map]
    simp [Function.comp_def]

theorem bytes_imgWord (h : BitVec 512) (j : Nat) : bytesOf (imgWord h j).toNat 8 = (List.range 8).map (fun i => (img h).getD (8 * j + i) 0) := by
  have e := bytesOf_ofBytes ((List.range 8).map (fun i => (img h).getD (8 * j + i) 0))
  have l := ofBytes_lt ((List.range 8).map (fun i => (img h).getD (8 * j + i) 0))
  simp only [List.length_map, List.length_range] at e l
  unfold imgWord
  rw [BitVec.toNat_ofNat, Nat.mod_eq_of_lt (lt_of_lt_of_eq l (by decide)), e]

theorem loaded_bytes (h : BitVec 512) (n : Nat) (hn : 8 * n ≤ 4352) : bytesOfDws ((List.range n).map (imgWord h)) = (img h).take (8 * n) := by
  unfold bytesOfDws
  simp only [List.flatMap_map, bytes_imgWord]
  rw [range_bytes (fun i => (img h).getD i 0)]
  apply List.ext_getElem
  · simp [img_length]; omega
  · intro i h1 h2
    simp only [List.length_map, List.length_range] at h1
    simp [List.getElem_take, List.getD_eq_getElem?_getD, List.getElem?_eq_getElem (show i < (img h).length by rw [img_length]; omega)]

theorem image_bytes (h : BitVec 512) : bytesOfDws ((List.range 544).map (imgWord h)) = img h := by
  have e := loaded_bytes h 544 (by omega)
  rwa [show 8 * 544 = (img h).length from (img_length h).symm, List.take_length] at e

theorem image_size (h : BitVec 512) : imageBytes (savedTeam h).team (savedTeam h).groups = 4352 := by
  show imageBytes { ctx := 1, inst := 1 } [] = 4352
  decide

theorem image_good (h : BitVec 512) (e : h = sha3 imgBody) : (numAt (img h) 4 4 = 4352 && imageOk (img h) ((img h).drop 256)
    && (savedTeam h).hash = some (BitVec.ofNat 512 (numAt (img h) 0x40 64))) = true := by
  obtain ⟨-, p2, -, -, p5, -⟩ := img_parts h 4096 _ (img_eq h)
  rw [p2, image_ok h e, p5, BitVec.ofNat_toNat, BitVec.setWidth_eq]
  simp [savedTeam]

theorem readImages_one (s : State) (k : Nat) (g : Group) (va : DWord) (sv : Saved) (l : List DWord)
    (h : s.readDw k g va 8 false (imageBytes sv.team sv.groups / 8) = .ok s l false)
    (c : (numAt (bytesOfDws l) 4 4 = imageBytes sv.team sv.groups && imageOk (bytesOfDws l) ((bytesOfDws l).drop 256)
      && sv.hash = some (BitVec.ofNat 512 (numAt (bytesOfDws l) 0x40 64))) = true) :
    s.readImages k g va [sv] false [sv] = .ok s false [sv] := by
  unfold State.readImages
  simp only [h, c, if_true]
  unfold State.readImages
  rfl

theorem loading_images (h : BitVec 512) (e : h = sha3 imgBody) :
    (loading h).readImages 0 loader 0x100000 [savedTeam h] false [savedTeam h] = .ok (loading h) false [savedTeam h] := by
  refine readImages_one _ _ _ _ _ ((List.range 544).map (imgWord h)) ?_ ?_
  · rw [image_size]
    exact loading_read h 544 (le_refl _)
  · rw [image_bytes, image_size]
    exact image_good h e

/-- The hash of the body. -/
def hash0 : BitVec 512 := sha3 imgBody

theorem load_answers :
    ((loading hash0).loadCore [savedTeam hash0] (loader.x 2)).map (fun e => ((e.1.consumeIf e.1.cur false).grp).isSome) = some true := by
  decide +kernel

theorem load_fits :
    (loading hash0).rectFits [savedTeam hash0] (loader.x 2) = true
    ∧ ({ loading hash0 with coreOut := [0] } : State).rectFits [savedTeam hash0] (loader.x 2) = false
    ∧ (loading hash0).parkedHit (loading hash0).cur (loader.x 1) 256 = false := by decide +kernel

theorem loaded_hash (h : BitVec 512) : BitVec.ofNat 512 (numAt (bytesOfDws ((List.range 32).map (imgWord h))) 0x40 64) = h := by
  obtain ⟨-, -, -, -, p5, -⟩ := img_parts h 0 _ (img_head h)
  rw [loaded_bytes h 32 (by omega), show 8 * 32 = 256 from rfl, p5, BitVec.ofNat_toNat, BitVec.setWidth_eq]

theorem loading_known (h : BitVec 512) :
    (loading h).loadImages 0 loader 0x100000 ((List.range 32).map (imgWord h)) =
      (loading h).readImages 0 loader 0x100000 [savedTeam h] false [savedTeam h] := by
  unfold State.loadImages
  rw [loaded_hash, show (loading h).images = [[savedTeam h]] from rfl, List.find?_cons_of_pos (by simp [savedTeam])]

/-- A load of the images of a save, and a rectangle that does not fit. -/
theorem witness_ContextInstructions_ctxld :
    let s := loading hash0
    let h := (List.range 32).map (imgWord hash0)
    (s.ctxOf loader).sys = true ∧ s.grp = some loader ∧ loader.tclass = true
    ∧ s.readDw s.cur loader (loader.x 1) 8 false 32 = .ok s h false
    ∧ s.parkedHit s.cur (loader.x 1) 256 = false
    ∧ s.loadImages s.cur loader (loader.x 1) h = .ok s false [savedTeam hash0]
    ∧ s.rectFits [savedTeam hash0] (loader.x 2) = true ∧ ({ s with coreOut := [0] } : State).rectFits [savedTeam hash0] (loader.x 2) = false
    ∧ (∃ s3 t, s.loadCore [savedTeam hash0] (loader.x 2) = some (s3, t) ∧ ((s3.consumeIf s3.cur false).grp).isSome = true) := by
  have a := load_answers
  have f := load_fits
  have e : hash0 = sha3 imgBody := rfl
  generalize hash0 = h at a f e ⊢
  refine ⟨rfl, rfl, rfl, loading_read h 32 (by omega), f.2.2, ?_, f.1, f.2.1, ?_⟩
  · exact (loading_known h).trans (loading_images h e)
  · cases c : (loading h).loadCore [savedTeam h] (loader.x 2) with
    | none => rw [c] at a; cases a
    | some r => rw [c] at a; exact ⟨r.1, r.2, rfl, Option.some.inj a⟩

theorem image_wrong (h : BitVec 512) (e : h ≠ sha3 imgBody) : imageOk (img h) ((img h).drop 256) = false := by
  obtain ⟨p1, -, p3, p4, p5, p6, p7⟩ := img_parts h 4096 _ (img_eq h)
  unfold imageOk
  rw [p1, p3, p4, p5, p6, p7]
  rw [show List.replicate 4096 (0 : Byte) = imgBody from rfl]
  generalize sha3 imgBody = z at e ⊢
  have : ¬ h.toNat = z.toNat := fun x => e (BitVec.eq_of_toNat_eq x)
  rw [decide_eq_false this, Bool.and_false]

theorem readImages_wrong (s : State) (k : Nat) (g : Group) (va : DWord) (sv : Saved) (l : List DWord)
    (h : s.readDw k g va 8 false (imageBytes sv.team sv.groups / 8) = .ok s l false)
    (c : imageOk (bytesOfDws l) ((bytesOfDws l).drop 256) = false) : s.readImages k g va [sv] false [sv] = .bad := by
  unfold State.readImages
  simp [h, c]

/-- An image whose hash is not that of its body. -/
theorem witness_ContextInstructions_wrong : ∃ h0,
    let s := loading h0
    let h := (List.range 32).map (imgWord h0)
    s.readDw s.cur loader (loader.x 1) 8 false 32 = .ok s h false ∧ s.loadImages s.cur loader (loader.x 1) h = .bad := by
  obtain ⟨h, e⟩ : ∃ h, h ≠ sha3 imgBody := by
    generalize sha3 imgBody = z
    refine ⟨~~~z, fun x => ?_⟩
    have := congrArg (fun v : BitVec 512 => v.getLsbD 0) x
    simp at this
  refine ⟨h, loading_read h 32 (by omega), ?_⟩
  refine (loading_known h).trans ?_
  refine readImages_wrong _ _ _ _ _ ((List.range 544).map (imgWord h)) ?_ ?_
  · rw [image_size]
    exact loading_read h 544 (le_refl _)
  · rw [image_bytes]
    exact image_wrong h e
end Sys2Proof.Tests
end

section
/-! Memory as a table of bytes (R5, R203): what a write of bytes or of a word is read back as, and that two tables in
canonical form that read alike are equal. -/

namespace Sys2Proof.Machine

open Sys2Proof

/-! ### Tables that read alike -/

section
variable {α : Type}

theorem sget_cons (d : α) (e : Nat × α) (m : List (Nat × α)) (k : Nat) :
    sget d (e :: m) k = if e.1 = k then e.2 else sget d m k := by
  simp only [sget, find]
  split <;> rfl

/-- A key below all of a table's keys is absent. -/
theorem sget_below (d : α) {m : List (Nat × α)} {k j : Nat} (h : keysFrom j m) (hk : k < j) : sget d m k = d := by
  induction m with
  | nil => rfl
  | cons e r ih =>
    have he : j ≤ e.1 := h e List.mem_cons_self
    rw [sget_cons, if_neg (by omega), ih (fun x hx => h x (List.mem_cons_of_mem e hx))]

theorem canon_cons [DecidableEq α] (d : α) (e : Nat × α) (m : List (Nat × α)) :
    canon d (e :: m) = true ↔ e.2 ≠ d ∧ keysFrom (e.1 + 1) m ∧ canon d m = true := by
  simp only [canon_iff, rising_cons, List.forall_mem_cons]
  tauto

/-- A first entry that is no default is not read from a table whose keys are all greater. -/
theorem sget_ne_of_below [DecidableEq α] {d : α} {e : Nat × α} {r m : List (Nat × α)} {j : Nat}
    (he : e.2 ≠ d) (hm : keysFrom j m) (hj : e.1 < j) : sget d (e :: r) e.1 ≠ sget d m e.1 := by
  rwa [sget_cons, if_pos rfl, sget_below d hm hj]

theorem keysFrom_cons {j : Nat} {e : Nat × α} {m : List (Nat × α)} (he : j ≤ e.1) (hm : keysFrom (e.1 + 1) m) :
    keysFrom j (e :: m) := by
  intro x hx
  rcases List.mem_cons.mp hx with rfl | hx
  · exact he
  · exact le_trans (le_trans he (Nat.le_succ _)) (hm x hx)

/-- The first entries of two tables in canonical form that read alike have one key. -/
theorem head_key_eq [DecidableEq α] {d : α} {e f : Nat × α} {m n : List (Nat × α)} (hm : canon d (e :: m) = true)
    (hn : canon d (f :: n) = true) (h : ∀ k, sget d (e :: m) k = sget d (f :: n) k) : e.1 = f.1 := by
  obtain ⟨he, hem, -⟩ := (canon_cons d e m).mp hm
  obtain ⟨hf, hfn, -⟩ := (canon_cons d f n).mp hn
  rcases Nat.lt_trichotomy e.1 f.1 with hlt | heq | hgt
  · exact absurd (h e.1) (sget_ne_of_below he (keysFrom_cons (le_refl f.1) hfn) hlt)
  · exact heq
  · exact absurd (h f.1).symm (sget_ne_of_below hf (keysFrom_cons (le_refl e.1) hem) hgt)

/-- A canonical table is determined by what its keys read as. -/
theorem canon_ext [DecidableEq α] {d : α} {m n : List (Nat × α)} (hm : canon d m = true) (hn : canon d n = true)
    (h : ∀ k, sget d m k = sget d n k) : m = n := by
  induction m generalizing n with
  | nil =>
    cases n with
    | nil => rfl
    | cons f n =>
      have hf := ((canon_cons d f n).mp hn).1
      exact absurd (h f.1).symm (by rwa [sget_cons, if_pos rfl, sget_nil])
  | cons e m ih =>
    cases n with
    | nil =>
      have he := ((canon_cons d e m).mp hm).1
      exact absurd (h e.1) (by rwa [sget_cons, if_pos rfl, sget_nil])
    | cons f n =>
      have hkey : e.1 = f.1 := head_key_eq hm hn h
      obtain ⟨-, hem, hm'⟩ := (canon_cons d e m).mp hm
      obtain ⟨-, hfn, hn'⟩ := (canon_cons d f n).mp hn
      have hval : e.2 = f.2 := by simpa [sget_cons, hkey] using h f.1
      have htail : ∀ k, sget d m k = sget d n k := by
        intro k
        by_cases hk : e.1 = k
        · rw [sget_below d hem (by omega), sget_below d hfn (by omega)]
        · have hkf : ¬ f.1 = k := hkey ▸ hk
          simpa [sget_cons, hk, hkf] using h k
      rw [ih hm' hn' htail, Prod.ext hkey hval]

end

/-! ### Bytes and words of memory -/

theorem State.byte_setBytes_inside (s : State) (a i : Nat) (l : List Byte) (h : i < l.length) :
    (s.setBytes a l).byte (a + i) = l.getD i 0 := by
  induction l generalizing s a i with
  | nil => simp at h
  | cons b r ih =>
    cases i with
    | zero => simp [State.setBytes, State.byte_setBytes_outside]
    | succ i =>
      have hi : i < r.length := by simpa using h
      rw [State.setBytes, show a + (i + 1) = a + 1 + i by omega, ih _ _ _ hi, List.getD_cons_succ]

theorem State.byte_setBytes (s : State) (a c : Nat) (l : List Byte) :
    (s.setBytes a l).byte c = if a ≤ c ∧ c < a + l.length then l.getD (c - a) 0 else s.byte c := by
  split
  · next h => simpa [Nat.add_sub_cancel' h.1] using s.byte_setBytes_inside a (c - a) l (by omega)
  · next h => exact s.byte_setBytes_outside a c l (by omega)

/-- A word is the four bytes it is cut into (R5). -/
theorem wordOf_byteOf (v : Word) : wordOf (byteOf v 0) (byteOf v 1) (byteOf v 2) (byteOf v 3) = v := by
  apply BitVec.eq_of_getLsbD_eq
  intro i hi
  simp only [wordOf, byteOf, BitVec.getLsbD_append, BitVec.truncate_eq_setWidth, BitVec.getLsbD_setWidth,
    BitVec.getLsbD_ushiftRight]
  split_ifs
  all_goals
    rw [decide_eq_true (by omega), Bool.true_and]
    congr 1
    omega

theorem State.word_setWord (s : State) (w c : Nat) (v : Word) :
    (s.setWord w v).word c = if c = w then v else s.word c := by
  have hbyte (i : Nat) (hi : i < 4) : (s.setWord w v).byte (4 * c + i) = if c = w then byteOf v i else s.byte (4 * c + i) := by
    split
    · next hc =>
      subst hc
      rw [State.setWord, State.byte_setBytes_inside _ _ _ _ hi]
      interval_cases i <;> rfl
    · next hc => exact s.byte_setBytes_outside _ _ _ (by simp only [List.length_cons, List.length_nil]; omega)
  have hfirst : (s.setWord w v).byte (4 * c) = if c = w then byteOf v 0 else s.byte (4 * c) := hbyte 0 (by omega)
  rw [State.word, hfirst, hbyte 1 (by omega), hbyte 2 (by omega), hbyte 3 (by omega)]
  split
  · exact wordOf_byteOf v
  · rfl

/-- Two memories in canonical form that read alike are equal. -/
theorem State.mem_ext {s t : State} (hs : s.tidy = true) (ht : t.tidy = true) (h : ∀ a, s.byte a = t.byte a) : s.mem = t.mem :=
  canon_ext hs ht h

/-- Settles O5, from what a write of bytes reads back as and from `canon_ext`. -/
theorem memoryBytes : Obligations.MemoryBytes := by
  unfold Obligations.MemoryBytes
  intro s t
  exact ⟨fun a b c => s.byte_setByte a c b, fun w v c => s.word_setWord w c v, fun a l c => s.byte_setBytes a c l,
    State.mem_ext⟩

end Sys2Proof.Machine
end

section
/-! What a boot of the module leaves alone (R479): no step of it brings a group, a context or a kernel, or writes memory,
flash, the clock or the envelope. -/

namespace Sys2Proof.Machine

open Sys2Proof

/-- `s` is a state that a boot of the module passes through: nothing runs or is open, no ring is set up, and memory, flash,
envelope and clock stand as in `r`, where the boot began. -/
def State.Booting (r s : State) : Prop :=
  (s.groups = [] ∧ s.teams = [] ∧ s.ctxs = [] ∧ s.launches = [] ∧ s.graphs = [] ∧ s.regions = [] ∧ s.chs = [])
    ∧ s.mem = r.mem ∧ s.flash = r.flash ∧ s.envW = r.envW ∧ s.tsc = r.tsc

namespace State.Booting

variable {r s : State}

theorem regions_nil (h : Booting r s) : s.regions = [] := by
  obtain ⟨⟨-, -, -, -, -, hr, -⟩, -⟩ := h
  exact hr

theorem chs_nil (h : Booting r s) : s.chs = [] := by
  obtain ⟨⟨-, -, -, -, -, -, hc⟩, -⟩ := h
  exact hc

theorem foldl {β : Type} {f : State → β → State} (hf : ∀ s x, Booting r s → Booting r (f s x)) (l : List β)
    (h : Booting r s) : Booting r (l.foldl f s) := by
  induction l generalizing s with
  | nil => exact h
  | cons x l ih => exact ih (hf s x h)

/-! ### Events -/

/-- Where no channel has a ring, every completion is held. -/
theorem pumpList_of_chs_nil (hc : s.chs = []) (ch : Nat) (l : List Completion) : s.pumpList ch l = (s, l) := by
  have hroom : ringRoom (s.hostCh ch) = false := by rw [State.hostCh, hc]; rfl
  induction l with
  | nil => rfl
  | cons c l ih => simp only [State.pumpList, hroom, Bool.and_false, Bool.false_eq_true, if_false, ih]

theorem pump (h : Booting r s) (ch : Nat) : Booting r (s.pump ch) := by
  rw [State.pump, pumpList_of_chs_nil h.chs_nil]
  exact h

theorem complete (h : Booting r s) (ch : Nat) (tag : Word) (kind status : Nat) (body : List Byte) :
    Booting r (s.complete ch tag kind status body) := by
  refine pump ?_ ch
  exact h

theorem forward (h : Booting r s) (e : Event) : Booting r (s.forward e) := by
  refine complete ?_ _ _ _ _ _
  exact h

theorem post (h : Booting r s) (src kind : Nat) (d0 d1 : DWord) : Booting r (s.post src kind d0 d1) := by
  unfold State.post
  dsimp only
  split
  · split <;> exact h
  · exact h.forward _

/-- What is posted in response changes the clock only while it is posted. -/
theorem inResponse {f : State → State} (hf : ∀ {r s}, Booting r s → Booting r (f s)) (h : Booting r s) :
    Booting r (s.inResponse f) := by
  have hlate : Booting { r with tsc := s.tsc + 1 } { s with tsc := s.tsc + 1 } := by
    obtain ⟨hnil, hm, hfl, he, -⟩ := h
    exact ⟨hnil, hm, hfl, he, rfl⟩
  obtain ⟨hnil, hm, hfl, he, -⟩ := hf hlate
  obtain ⟨-, -, -, -, htsc⟩ := h
  exact ⟨hnil, hm, hfl, he, htsc⟩

/-! ### Links, dies and retired parts -/

theorem unreach (h : Booting r s) (dev : Nat) : Booting r (s.unreach dev) := by
  obtain ⟨⟨hg, ht, hc, hl, hgr, hopen⟩, hkept⟩ := h
  simp only [State.unreach, hgr, List.foldl_nil]
  exact ⟨⟨hg, ht, hc, hl, rfl, hopen⟩, hkept⟩

theorem reroute (h : Booting r s) (n : Nat) : Booting r (s.reroute n) := by
  refine foldl (fun s e h => ?_) s.routes h
  have hput : Booting r { s with routes := put s.routes e.1 (e.2.without n) } := h
  dsimp only
  split
  · exact hput
  · split
    · exact hput.post _ _ _ _
    · split
      · exact hput.post _ _ _ _
      · exact (hput.post _ _ _ _).unreach _

theorem linkLost (h : Booting r s) (n : Nat) :
    Booting r (({ s with links := sset {} s.links n { sget {} s.links n with up := false } } : State).post (0x3100 + n) 21
      (BitVec.ofNat 64 n) 0) := by
  refine post ?_ _ _ _ _
  exact h

theorem linksDown (h : Booting r s) (l : List Nat) : Booting r (s.linksDown l) := by
  unfold State.linksDown
  dsimp only
  have hlost := foldl (fun _ n hs => hs.linkLost n) (l.filter (fun n => (sget {} s.links n).up)) h
  split
  · exact hlost
  · exact hlost.inResponse (fun hs => foldl (fun _ n hs => hs.reroute n) _ hs)

theorem portDown (h : Booting r s) (p : Nat) : Booting r (s.portDown p) := by
  have hnone : s.regionsWhere (fun g => g.port = p) = [] := by simp [State.regionsWhere, h.regions_nil]
  rw [State.portDown, hnone]
  refine post ?_ _ _ _ _
  exact h

theorem takeOver (h : Booting r s) : Booting r s.takeOver := by
  simp only [State.takeOver, State.takeFree, h.chs_nil, List.map_nil]
  obtain ⟨⟨hg, ht, hc, hl, hgr, hrg, -⟩, hkept⟩ := h
  refine post ?_ _ _ _ _
  exact ⟨⟨hg, ht, hc, hl, hgr, hrg, rfl⟩, hkept⟩

theorem poisonInfl (h : Booting r s) (p : Nat → Bool) : Booting r (s.poisonInfl p) := by
  obtain ⟨⟨hg, hopen⟩, hkept⟩ := h
  simp only [State.poisonInfl, hg, List.foldl_nil, List.map_nil]
  exact ⟨⟨rfl, hopen⟩, hkept⟩

theorem setLive (h : Booting r s) (m : BitVec 4) : Booting r { s with live := m } := h

theorem dieOut (h : Booting r s) (d : Nat) : Booting r (s.dieOut d) := by
  have hdrop : Booting r ((s.poisonInfl (fun w => s.onDie d w)).dropRegion (fun w => s.onDie d w)) := h.poisonInfl _
  unfold State.dieOut
  dsimp only
  refine setLive (linksDown ?_ _) _
  split
  · exact hdrop.portDown 0
  · split
    · exact hdrop.portDown 1
    · exact hdrop

theorem steerOut (h : Booting r s) (p : Part) : Booting r (s.steerOut p) := by
  unfold State.steerOut
  dsimp only
  split
  · exact h
  · exact h
  · exact h
  · exact h
  · split
    · exact h.takeOver
    · exact h
  · refine dieOut ?_ _
    split
    · exact h.takeOver
    · split <;> exact h

theorem applyFlash (h : Booting r s) (l : List Part) : Booting r (s.applyFlash l) := by
  induction l generalizing s with
  | nil => exact h
  | cons p l ih =>
    refine ih ?_
    split
    · exact h
    · refine linksDown ?_ _
      exact h
    · exact h.steerOut p

theorem bootDie (h : Booting r s) (d : Nat) : Booting r (s.bootDie d) := by
  unfold State.bootDie
  dsimp only
  split
  · exact h
  · split
    · exact h
    · refine post ?_ _ _ _ _
      exact h

end State.Booting

/-- The state a module reset boots from (R479). -/
def State.atReset (s : State) : State :=
  { State.reset with
    mem := s.mem.filter (fun e => isHost e.1 || (poolOf e.1).isSome)
    flash := s.flash, rowOut := s.rowOut, repairs := s.repairs, rollback := s.rollback, flashW := s.flashW
    envW := envelope s.flashW
    fwPend := s.fwPend, topo := s.topo, broken := s.broken, eccFix := s.eccFix, upsets := s.upsets, agenda := s.agenda
    elapsed := s.elapsed, slow := s.slow, free := s.free
    dies := s.dies.map (fun e => (e.1, { ({} : Die) with slotB := e.2.slotB, verif := e.2.verif })) }

theorem exec_moduleReset (s : State) : exec .moduleReset s =
    .next (([0, 1, 2, 3] : List Nat).foldl (fun s d => s.bootDie d) (s.atReset.applyFlash s.flash)) := rfl

/-- A module reset leaves a state that its boot passes through. -/
theorem moduleReset_booting (s : State) : ∃ t, exec .moduleReset s = .next t ∧ s.atReset.Booting t := by
  have hstart : s.atReset.Booting s.atReset := ⟨⟨rfl, rfl, rfl, rfl, rfl, rfl, rfl⟩, rfl, rfl, rfl, rfl⟩
  exact ⟨_, exec_moduleReset s, State.Booting.foldl (fun _ d h => h.bootDie d) _ (hstart.applyFlash s.flash)⟩

end Sys2Proof.Machine
end

section
/-! The steps of power management, of the watchdogs, of management registers and of reset (R7, R122, R465, R473 to R480):
what each does in each of its cases. -/

namespace Sys2Proof.Machine

open Sys2Proof

/-! ### Power allowance and management registers -/

theorem exec_powerBudgetUpdate (s : State) (c : Nat) (r : BitVec 9) :
    exec (.powerBudgetUpdate c r) s = .next (s.setRefill c r) := rfl

theorem exec_pwrctlWrite (s : State) (c : Nat) (v : DWord) :
    exec (.pwrctlWrite c v) s = .next (s.setRefill c ((v >>> 16).truncate 9)) := rfl

/-- A write of PSTEER is ignored exactly when a group is resident or the lane is above 32 (R122). -/
theorem exec_psteerWrite (s : State) (c p : Nat) (v : DWord) :
    exec (.psteerWrite c p v) s =
      if s.pipeBusy (4 * c + p) = true ∨ v.getLsbD 0 = true ∧ 32 < v.toNat / 2 % 64 then .next s
      else .next (s.setPipe (4 * c + p) { s.pipe (4 * c + p) with psteer := v &&& 0x7ff }) := by
  change execPsteerWrite c p v s = _
  simp only [execPsteerWrite, Bool.or_eq_true, Bool.and_eq_true, decide_eq_true_eq]
  rfl

/-- The bits that a write of a check log sets, as a mask. -/
theorem logCounts_getLsbD : ∀ i < 64, (0xffff0000ffffffff : DWord).getLsbD i = decide (i < 32 ∨ 48 ≤ i) := by decide

/-- A write of a check log sets the counts, and clears SVALID, bit `b`, where it writes 1 (R122, R162). -/
theorem logWrite_getLsbD (old v : DWord) (b i : Nat) (hi : i < 64) :
    (logWrite old v b).getLsbD i =
      if i < 32 ∨ 48 ≤ i then v.getLsbD i else old.getLsbD i && !(decide (i = b) && v.getLsbD b) := by
  have hbit : (BitVec.ofNat 64 (1 <<< b)).getLsbD i = decide (i = b) := by
    simp only [BitVec.getLsbD_ofNat, hi, decide_true, Bool.true_and, Nat.one_shiftLeft, Nat.testBit_two_pow, eq_comm]
  simp only [logWrite, BitVec.getLsbD_or, BitVec.getLsbD_and, BitVec.getLsbD_not, BitVec.natCast_eq_ofNat,
    logCounts_getLsbD i hi, hi, hbit, decide_true, Bool.true_and]
  by_cases hc : i < 32 ∨ 48 ≤ i
  · simp [hc]
  · by_cases h : i = b
    · subst h
      simp [hc]
    · simp [hc, h]

/-! ### Limits in hardware (R474) -/

/-- A die whose firmware is running and that is not retired loses it: each core has the default allowance, and the die boots. -/
theorem exec_heartbeatWatchdog (s : State) (d : Nat) (hr : (s.die d).restart = false) (hd : d < 4)
    (hf : ∀ p ∈ s.flash, ¬ (p.kind = 5 ∧ p.die = d)) :
    let t := (List.range 64).foldl (fun (s : State) i => (s.settleAllow (64 * d + i)).setCore (64 * d + i)
      { (s.settleAllow (64 * d + i)).core (64 * d + i) with refill := 153, hwdef := true }) s
    exec (.heartbeatWatchdog d) s = .next ((t.setDie d { t.die d with restart := true }).bootDie d) := by
  have hflash : s.flash.any (fun p => p.kind = 5 && p.die = d) = false := by simpa using hf
  change execHeartbeatWatchdog d s = _
  simp only [execHeartbeatWatchdog, hr, hflash, Nat.not_le.mpr hd, decide_false, Bool.or_false, Bool.false_eq_true, if_false]

theorem exec_droopDetect (s : State) (c : Nat) (h : ((s.settleAllow c).core c).droop = false) :
    let k := (s.settleAllow c).core c
    exec (.droopDetect c) s = .next ((s.setCore c { k with recd := some k.ratio, ratio := .half, droop := true }).post c 35
      (BitVec.ofNat 64 c) 1) :=
  if_neg (by simp [h])

theorem exec_droopRelease (s : State) (c : Nat) (h : ((s.settleAllow c).core c).droop = true) :
    let k := (s.settleAllow c).core c
    exec (.droopRelease c) s = .next ((s.setCore c
      { k with recd := none, ratio := k.recd.getD k.ratio, droop := false }).post c 35 (BitVec.ofNat 64 c) 0) :=
  if_neg (by simp [h])

theorem exec_thermalTrip (s : State) (d : Nat) (h : (s.die d).tstop = false) : exec (.thermalTrip d) s =
    .next ((s.setDie d { s.die d with tstop := true }).post (0x3000 + d) 36 (BitVec.ofNat 64 d) 1) :=
  if_neg (by simp [h])

theorem exec_thermalRelease (s : State) (d : Nat) (h : (s.die d).tstop = true) : exec (.thermalRelease d) s =
    .next ((s.setDie d { s.die d with tstop := false }).post (0x3000 + d) 36 (BitVec.ofNat 64 d) 0) :=
  if_neg (by simp [h])

/-! ### Calibration and gating (R476 to R478) -/

/-- While a die's firmware restarts no core counts as idle. -/
theorem idleFor_restarting {s : State} (h : s.restarting = true) (c n : Nat) : s.idleFor c n = false := by
  simp [State.idleFor, h]

/-- A core that was never calibrated, or at least 24 hours ago, is due. -/
theorem exec_calibrate_due (s : State) (c : Nat)
    (hdue : ∀ u, (s.core c).calT = some u → u.toNat + 86400000000000 ≤ s.tsc.toNat)
    (hidle : s.idleFor c 1000000 = true) (hgate : (s.core c).gated = false) :
    let fails := (Config.failVolt s.free).toNat
    let f := failStep ((s.core c).calV.getD Config.nominal.toNat) fails
    let t : State := { s with free := s.free + 1 }
    exec (.calibrate c) s = .next (if Config.nominal.toNat ≤ fails
      then ((t.setCore c { s.core c with calT := some s.tsc }).requestRetire
        { kind := 2, core := c, pipe := (Config.failPipe s.free).toNat, part := 0, die := 0 }).1
      else (t.setCore c { s.core c with calV := some (min Config.nominal.toNat (f + 40)), calT := some s.tsc }).post c 32
        (BitVec.ofNat 64 c) (BitVec.ofNat 64 f)) := by
  intro fails f t
  refine (if_neg ?_).trans (apply_ite Host.Outcome.next _ _ _).symm
  cases hT : (s.core c).calT with
  | none => simp [hidle, hgate]
  | some u => simp [hidle, hgate, hdue u hT]

theorem exec_calibrate_early (s : State) (c : Nat) (u : DWord) (hT : (s.core c).calT = some u)
    (hu : s.tsc.toNat < u.toNat + 86400000000000) : exec (.calibrate c) s = .next s := by
  change execCalibrate c s = _
  simp only [execCalibrate, hT, Nat.not_le.mpr hu, decide_false, Bool.not_false, Bool.or_true, Bool.true_or, if_true]

theorem exec_calibrate_busy (s : State) (c : Nat) (h : s.idleFor c 1000000 = false) : exec (.calibrate c) s = .next s := by
  change execCalibrate c s = _
  simp only [execCalibrate, h, Bool.not_false, Bool.true_or, if_true]

theorem exec_powerGate_idle (s : State) (c : Nat) (hidle : s.idleFor c (1000 * (s.die (c / 64)).pgcfg.toNat) = true)
    (hgate : (s.core c).gated = false) :
    exec (.powerGate c) s = .next ((s.cleanCore c).setCore c { (s.cleanCore c).core c with l1 := [], gated := true }) :=
  if_neg (by simp [hidle, hgate])

theorem exec_powerGate_busy (s : State) (c : Nat) (h : s.idleFor c (1000 * (s.die (c / 64)).pgcfg.toNat) = false) :
    exec (.powerGate c) s = .next s :=
  if_pos (by simp [h])

/-! ### Reduced service (R480) -/

/-- With every context halted and die 0 among the dies that stay in service, reduced service is lifted. -/
theorem exec_reducedServiceLift (s : State) (dies : BitVec 4) (hred : s.reduced = true)
    (hzero : (dies &&& ~~~s.diesRetired).getLsbD 0 = true) (hhalt : ∀ e ∈ s.ctxs, e.2.halted ≠ none) :
    let lv := dies &&& ~~~s.diesRetired
    let t := (List.range 256).foldl (fun (s : State) c => s.settleAllow c) s
    exec (.reducedServiceLift dies) s =
      .next ((({ t with live := lv, reduced := false, routes := t.topo } : State).linksDown
        (((List.range 4).filter (fun i => !(lv.getLsbD i))).flatMap dieLinks)).post 0x3000 38 (lv.zeroExtend 64) 0) :=
  if_neg (by
    rw [hred, hzero]
    simpa using hhalt)

/-- A module reset leaves no work, and keeps what stands outside the module; the envelope comes from flash (R473, R479). -/
theorem exec_moduleReset_leaves (s : State) : ∃ t, exec .moduleReset s = .next t ∧ t.groups = [] ∧ t.teams = []
    ∧ t.ctxs = [] ∧ t.launches = [] ∧ t.mem = s.mem.filter (fun e => isHost e.1 || (poolOf e.1).isSome) ∧ t.flash = s.flash
    ∧ t.tsc = 0 ∧ t.envW = envelope s.flashW := by
  obtain ⟨t, ht, ⟨hg, htm, hc, hl, -⟩, hm, hf, he, htsc⟩ := moduleReset_booting s
  exact ⟨t, ht, hg, htm, hc, hl, hm, hf, htsc, he⟩

/-- Settles O57, one step at a time: each clause is the step's own lemma above; a write of a plain management register is
its definition. -/
theorem powerEvents : Obligations.PowerEvents := by
  unfold Obligations.PowerEvents
  intro s c d v
  refine ⟨fun r => ⟨exec_powerBudgetUpdate s c r, fun hr => ?_⟩, fun p => ⟨fun hbusy hlane => ?_, fun h => ?_⟩,
    fun p => ⟨logWrite _ v 38, logWrite _ v 35, rfl, rfl, fun i hi => logWrite_getLsbD _ v 38 i hi,
      fun i hi => logWrite_getLsbD _ v 35 i hi⟩,
    rfl, rfl, rfl, rfl, rfl, rfl, rfl, rfl, rfl,
    exec_heartbeatWatchdog s d, ⟨exec_droopDetect s c, exec_droopRelease s c⟩,
    exec_thermalTrip s d, exec_thermalRelease s d, rfl,
    exec_calibrate_due s c, exec_calibrate_early s c, fun h => ⟨?_, ?_⟩, exec_powerGate_idle s c,
    exec_moduleReset_leaves s, ?_⟩
  · rw [hr]
    exact exec_pwrctlWrite s c v
  · rw [exec_psteerWrite, if_neg]
    rintro (hb | ⟨h0, hl⟩)
    · simp [hbusy] at hb
    · exact absurd (hlane h0) (Nat.not_le.mpr hl)
  · rw [exec_psteerWrite, if_pos h]
  · exact exec_calibrate_busy s c (idleFor_restarting h c _)
  · exact exec_powerGate_busy s c (idleFor_restarting h c _)
  · rintro dies lv rfl hred hzero hhalt
    exact exec_reducedServiceLift s dies hred hzero hhalt

end Sys2Proof.Machine
end

section
/-! What module reset leaves (R14, R20, R450, R473, R479): every table of it is empty, so that each core, pipe, die and host
channel reads as its registers' reset values. -/

namespace Sys2Proof.Machine

open Sys2Proof

theorem core_reset (c : Nat) : State.reset.core c = {} := rfl

theorem pipe_reset (p : Nat) : State.reset.pipe p = {} := rfl

theorem die_reset (d : Nat) : State.reset.die d = {} := rfl

theorem hostCh_reset (c : Nat) : State.reset.hostCh c = {} := rfl

/-- Reduced service holds every core at the half ratio (R20, R479). -/
theorem ratioNow_reduced {s : State} (h : s.reduced = true) (c : Nat) : s.ratioNow c = .half := if_pos h

/-- Settles O1, from what a core, a pipe, a die and a host channel read as where their tables are empty. -/
theorem resetState : Obligations.ResetState := by
  unfold Obligations.ResetState
  refine ⟨rfl, rfl, rfl, rfl, rfl, rfl, rfl, rfl, rfl, rfl, fun c => ?_, fun p => ?_, fun d => ?_, fun c => ?_⟩
  · rw [core_reset, ratioNow_reduced rfl]
    decide
  · rw [pipe_reset]
    decide
  · rw [die_reset]
    decide
  · rw [hostCh_reset]
    decide

end Sys2Proof.Machine
end

section
/-! What a step of the agenda runs (R22, R49, R56, R57): from the agent that moves, through the fetch, the decoder and the
guards of issue, to the meaning of the instruction. -/

namespace Sys2Proof.Machine

open Sys2Proof

/-! ### The agent of a step -/

theorem step_scalar {s : State} {k : Nat} {r : List Action} (h : s.tick.agenda = .scalar k :: r) :
    step s = ({ s.tick with agenda := r, cur := k } : State).issueScalar k false := by
  rw [step, State.stepNow, h]
  rfl

theorem step_lane {s : State} {k : Nat} {r : List Action} (h : s.tick.agenda = .lane k :: r) :
    step s = ({ s.tick with agenda := r, cur := k } : State).issueLane k false := by
  rw [step, State.stepNow, h]
  rfl

/-! ### Issue of a scalar stream -/

section
variable {s u y : State} {g : Group} {busy : Bool}

/-- A group issues only where its core issues and it is not stopped by a double fault. -/
theorem mayIssue_up {k : Nat} (h : s.mayIssue k g = true) : s.coreIssues (coreOf k) = true ∧ g.stopd = false := by
  simp only [State.mayIssue, Bool.and_eq_true, Bool.not_eq_true'] at h
  tauto

/-- Held traps do not come before the instruction of a group with none, or at trap class. -/
theorem not_takesPending (h : g.pend = [] ∨ g.tclass = true) : (!g.pend.isEmpty && !g.tclass) = false := by
  rcases h with h | h <;> simp [h]

theorem issueScalar_midway (hg : s.grp = some g) (hmid : g.midway = true)
    (hup : s.coreIssues (coreOf s.cur) = true ∧ g.stopd = false) : s.issueScalar s.cur busy = s.fetchRun s.cur g busy := by
  refine (withG_some hg _).trans ?_
  rw [if_pos hmid, hup.1, hup.2]
  rfl

theorem issueScalar_entering (hg : s.grp = some g) (hmid : g.midway = false) (hentry : g.entry ≠ none)
    (hup : s.coreIssues (coreOf s.cur) = true ∧ g.stopd = false) (hstop : g.stopReq = false) :
    s.issueScalar s.cur busy = .next (s.stepEntry s.cur) := by
  refine (withG_some hg _).trans ?_
  rw [hmid, if_neg Bool.false_ne_true, if_pos (Option.isSome_iff_ne_none.mpr hentry), hup.1, hup.2, hstop]
  rfl

/-- A group in no long operation that may issue leaves its trap class by an exit, or else fetches. -/
theorem issueScalar_free (hg : s.grp = some g) (hmid : g.midway = false) (hentry : g.entry = none)
    (hmay : s.mayIssue s.cur g = true) (hpend : g.pend = [] ∨ g.tclass = true) :
    s.issueScalar s.cur busy = if g.leaving = some g.tclass then execExit s else s.fetchRun s.cur g busy := by
  refine (withG_some hg _).trans ?_
  rw [hmid, hentry, hmay, not_takesPending hpend]
  rfl

/-- A group that fetches: in a long operation of a core that issues, or free to issue and not leaving. -/
theorem issueScalar_fetches (hg : s.grp = some g)
    (h : g.midway = true ∧ s.coreIssues (coreOf s.cur) = true ∧ g.stopd = false
      ∨ (g.entry = none ∧ s.mayIssue s.cur g = true ∧ (g.pend = [] ∨ g.tclass = true)) ∧ g.leaving ≠ some g.tclass) :
    s.issueScalar s.cur busy = s.fetchRun s.cur g busy := by
  rcases h with ⟨hmid, hup⟩ | ⟨⟨hentry, hmay, hpend⟩, hleave⟩
  · exact issueScalar_midway hg hmid hup
  · cases hmid : g.midway with
    | true => exact issueScalar_midway hg hmid (mayIssue_up hmay)
    | false => rw [issueScalar_free hg hmid hentry hmay hpend, if_neg hleave]

/-! ### The fetched word -/

/-- A buffer that holds no other word at the address delivers the word in memory (R71). -/
theorem buffered_same {a : DWord} {w : Word} (h : ∀ e ∈ g.fbuf, e.1 = a → e.2 = w) : u.buffered g a w = (u, w) := by
  unfold State.buffered
  cases hf : g.fbuf.find? (fun e => e.1 = a) with
  | none => rfl
  | some e =>
    have he : e.2 = w := h e (List.mem_of_find?_eq_some hf) (by simpa using List.find?_some hf)
    simp [he]

theorem fetchRun_ok {k : Nat} {w : Word} (h : s.fetchWord k g g.pc = .ok u w) :
    s.fetchRun k g busy =
      let b := u.buffered g g.pc w
      let h := g.fetched g.pc b.2
      State.runWord { b.1 with groups := put b.1.groups k h } h b.2 busy := by
  rw [State.fetchRun, h]

theorem runWord_error {w : Word} {e : DecodeError} (h : decodeScalar w = .error e) : s.runWord g w busy = raise s 0x01 0 0 := by
  rw [State.runWord, h]

theorem runWord_ok {w : Word} {i : Instr} (h : decodeScalar w = .ok i) : s.runWord g w busy = s.dispatchScalar g i busy := by
  rw [State.runWord, h]

/-! ### The guards of a scalar instruction -/

theorem noWindow {l : List Window} {r : RegSets} (h : ∀ x ∈ l, x.hits r = false) : l.any (fun w => w.hits r) = false :=
  List.any_eq_false.mpr (fun x hx => Bool.eq_false_iff.mp (h x hx))

/-- An instruction that no window, stall or full counter stops runs on the state `y` in which the registers that it writes are
captured. -/
theorem dispatchScalar_runs {i : Instr} {r : RegSets}
    (hr : (if g.winS.isEmpty && g.infl.isEmpty then setsOf i else s.setsAt s.cur g i) = r)
    (hwin : ∀ x ∈ g.winS, x.hits r = false) (hstall : stalls g r = false) (hwait : s.waitsAtIssue s.cur g i = false)
    (hsame : s.depth g.seat = 0 ∨ s.writesNow g i = false → y = s)
    (hcap : s.depth g.seat ≠ 0 → s.writesNow g i = true → s.captureRegs s.cur g r.dests = some y) :
    s.dispatchScalar g i busy = y.runScalar g i r busy := by
  have hcaptured : (if s.depth g.seat = 0 || !(s.writesNow g i) then some s else s.captureRegs s.cur g r.dests) = some y := by
    by_cases hd : s.depth g.seat = 0
    · simp [hd, hsame (.inl hd)]
    · cases hw : s.writesNow g i with
      | false => simp [hsame (.inr hw)]
      | true => simpa [hd] using hcap hd hw
  simp only [State.dispatchScalar, hr, noWindow hwin, hstall, hwait, hcaptured, Bool.or_self, Bool.false_eq_true, if_false]

/-- What a scalar instruction leaves is what its meaning leaves, with its issue noted where it completed. -/
theorem runScalar_eq (i : Instr) (r : RegSets) :
    s.runScalar g i r busy = match exec i s with
      | .next x => .next (match find x.groups s.cur with
        | some j => if s.overRequests x (coreOf s.cur) then s
          else if ranScalar i g j then x.noteScalar s.cur r (yields j i) (lookaheadOf i) busy else x
        | none => x)
      | .fault f => .fault f
      | .refused f => .refused f := by
  unfold State.runScalar
  cases exec i s with
  | next x =>
    cases hj : find x.groups s.cur with
    | none => simp only [hj]
    | some j =>
      simp only [hj]
      split <;> rfl
  | fault f => rfl
  | refused f => rfl

/-! ### The head of a lane queue -/

/-- The first entry of a group's lane queue decodes to an instruction that nothing stops before its meaning (R48, R56, R335). -/
structure State.HeadClear (s : State) (g : Group) (e : LaneEntry) (i : Instr) : Prop where
  head : g.laneQ.head? = some e
  may : s.mayIssue s.cur g = true
  awake : g.frozen = false
  decoded : decodeLane e.bits = .ok i
  served : s.unserved g i = false
  windows : ∀ x ∈ g.winL, x.hits (setsOf i) = false
  inRange : outOfRange g (setsOf i) = none
  noStall : stalls g (setsOf i) = false
  noWait : s.waitsAtIssue s.cur g i = false

theorem tryHead_undecoded {e : LaneEntry} {x : DecodeError} (hq : g.laneQ.head? = some e) (hmay : s.mayIssue s.cur g = true)
    (hawake : g.frozen = false) (hdec : decodeLane e.bits = .error x) : s.tryHead g = .act (raiseLane s g e 0x01 0 0) := by
  obtain ⟨q, hq⟩ := List.head?_eq_some_iff.mp hq
  simp [State.tryHead, hq, hmay, hawake, hdec]

/-- A clear head runs: it issues where its meaning takes it out of the queue, and acts at once where it does not. -/
theorem State.HeadClear.tryHead {e : LaneEntry} {i : Instr} (h : s.HeadClear g e i) (hexec : exec i s = .next y)
    (hreq : s.overRequests y (coreOf s.cur) = false) :
    s.tryHead g = if ranLane g y s.cur then .go i (setsOf i) else .act (.next y) := by
  obtain ⟨q, hq⟩ := List.head?_eq_some_iff.mp h.head
  simp only [State.tryHead, hq, h.may, h.awake, h.decoded, State.tryInstr, h.served, noWindow h.windows, h.inRange, h.noStall,
    h.noWait, hexec, hreq, Bool.not_true, Bool.or_self, Bool.false_eq_true, if_false]

/-! ### Issue of a lane stream -/

theorem pipeFree_rest {q : Nat} (h : s.pipeFree q = true) : (s.pipe q).rest = [] := by
  simp only [State.pipeFree, Bool.and_eq_true, List.isEmpty_iff] at h
  exact h.1

/-- A pipe whose last instruction has taken its cycles carries nothing on. -/
theorem carryOn_rested {q : Nat} (h : (s.pipe q).rest = []) (n : Nat) : s.carryOn q n = s := by
  cases n with
  | zero => rfl
  | succ n => rw [State.carryOn, h]

theorem issueLane_act {r : Res} (hg : s.grp = some g) (hfree : s.pipeFree (4 * coreOf s.cur + g.pipe) = true)
    (htry : s.tryHead g = .act r) : s.issueLane s.cur busy = r := by
  refine (withG_some hg _).trans ?_
  have hrest := pipeFree_rest hfree
  simp only [carryOn_rested hrest, hrest, hfree, htry, List.isEmpty_nil, Bool.not_true, Bool.false_eq_true, if_false]

/-- A head that can issue starts its cycle where the allowance grants it, and else is refused (R347). -/
theorem issueLane_go {e : LaneEntry} {i : Instr} {rs : RegSets} (hg : s.grp = some g)
    (hfree : s.pipeFree (4 * coreOf s.cur + g.pipe) = true) (hq : g.laneQ.head? = some e) (htry : s.tryHead g = .go i rs) :
    s.issueLane s.cur busy =
      let m : Member := (s.cur, g, e, i)
      let l := s.mates112 m
      let w := firstWeight (cyclesOf m l)
      let q := 4 * coreOf s.cur + g.pipe
      if s.granted s.cur w then (s.debit s.cur w q).startCycle q m l busy
      else .next { s with groups := upd s.groups s.cur (Group.refuse (some s.tsc)) } := by
  refine (withG_some hg _).trans ?_
  obtain ⟨q, hq⟩ := List.head?_eq_some_iff.mp hq
  have hrest := pipeFree_rest hfree
  simp only [carryOn_rested hrest, hrest, hfree, htry, hq, List.isEmpty_nil, Bool.not_true, Bool.false_eq_true, if_false]

/-! ### An issue cycle of one undoubled instruction -/

theorem checkHalves_single (q : Nat) (oct : Bool) (cov : Nat → Nat → Bool) (c : List (Nat × Nat)) :
    s.checkHalves q oct cov false c = (s, { ws := c.map (·.2) }) := by
  induction c with
  | nil => rfl
  | cons c r ih => simp [State.checkHalves, ih, CycleRes.then]

/-- In mode 0 no issue cycle is compared, and each is taken once (R118). -/
theorem checkCycles_single (q : Nat) (oct : Bool) (cov : Nat → Nat → Bool) (cs : List (List (Nat × Nat))) :
    s.checkCycles q 0 oct cov cs = (s, { ws := cs.flatMap (fun x => x.map (·.2)) }) := by
  induction cs with
  | nil => rfl
  | cons c r ih => simp [State.checkCycles, State.doubles, checkHalves_single, ih, CycleRes.then]

/-- The state in which the instruction of a granted cycle takes effect: its first weight debited, the others left to the pipe. -/
def State.cycleStarted (s : State) (k q : Nat) (cs : List (List (Nat × Nat))) : State :=
  let d := s.debit k (firstWeight cs) q
  d.setPipe q { d.pipe q with cycT := some d.tsc, restR := none, rest := (cs.flatMap (fun x => x.map (·.2))).tail }

/-- A granted cycle changes of a core its counter alone. -/
theorem State.core_cycleStarted (s : State) (k q : Nat) (cs : List (List (Nat × Nat))) (c : Nat) : ∃ a t,
    (s.cycleStarted k q cs).core c = { s.core c with allow := a, fillT := t } := by
  have hcore : (s.cycleStarted k q cs).core c = if c = q / 4 then
      { s.core (q / 4) with allow := BitVec.ofNat 16 (s.allowNow (q / 4) - firstWeight cs), fillT := s.tsc } else s.core c :=
    s.core_setCore (q / 4) c _
  rw [hcore]
  split
  · next h => exact ⟨_, _, by rw [h]⟩
  · exact ⟨_, _, rfl⟩

theorem mayIssue_cycleStarted (s : State) (k q : Nat) (cs : List (List (Nat × Nat))) (j : Nat) (g : Group) :
    (s.cycleStarted k q cs).mayIssue j g = s.mayIssue j g := by
  obtain ⟨a, t, hcore⟩ := s.core_cycleStarted k q cs (coreOf j)
  simp only [State.mayIssue, State.coreIssues, State.rejoining, hcore]
  rfl

theorem waitsAtIssue_cycleStarted (s : State) (k q : Nat) (cs : List (List (Nat × Nat))) (j : Nat) (g : Group) (i : Instr) :
    (s.cycleStarted k q cs).waitsAtIssue j g i = s.waitsAtIssue j g i := by
  obtain ⟨a, t, hcore⟩ := s.core_cycleStarted k q cs (coreOf j)
  have hcount (p : Path) : (s.cycleStarted k q cs).counter j g p = s.counter j g p := by
    simp only [State.counter, State.unretired, State.openAccs, hcore]
    rfl
  simp only [State.waitsAtIssue, hcount]
  rfl

/-- A granted cycle stops nothing that was clear. -/
theorem State.HeadClear.cycleStarted {e : LaneEntry} {i : Instr} (h : s.HeadClear g e i) (k q : Nat)
    (cs : List (List (Nat × Nat))) : (s.cycleStarted k q cs).HeadClear g e i :=
  { h with
    may := (mayIssue_cycleStarted s k q cs s.cur g).trans h.may
    noWait := (waitsAtIssue_cycleStarted s k q cs s.cur g i).trans h.noWait }

/-- An undoubled instruction that shares its cycle with no other: its head runs in the started cycle. -/
theorem startCycle_alone (s : State) (k q : Nat) (e : LaneEntry) (i : Instr) (hchk : (s.ctxOf g).chk = 0) :
    let cs := cyclesOf (k, g, e, i) []
    let d := s.debit k (firstWeight cs) q
    d.startCycle q (k, g, e, i) [] busy =
      runHeads { lead := k, prev := (d.pipe q).lastL } { ws := cs.flatMap (fun x => x.map (·.2)) } busy [k]
        (s.cycleStarted k q cs) := by
  intro cs d
  have hmode : (d.ctxOf g).chk.toNat = 0 := by
    rw [show d.ctxOf g = s.ctxOf g from rfl, hchk]
    rfl
  simp only [State.startCycle, hmode, checkCycles_single]
  rfl

/-- A head whose comparisons found nothing has its instruction take effect once its registers are captured. -/
theorem runHead_clean {m : Lead} {ws : List Nat} {e : LaneEntry} {i : Instr} {r : RegSets} {a x : State} (hg : s.grp = some g)
    (hq : g.laneQ.head? = some e) (htry : s.tryHead g = .go i r)
    (hcap : s.captureRegs s.cur g (writtenRegs g e i r) = some a) (hexec : exec i a = .next x) :
    s.runHead s.cur m { ws := ws } busy = .next (x.noteLane a.cur m i r busy) := by
  refine (withG_some hg _).trans ?_
  obtain ⟨q, hq⟩ := List.head?_eq_some_iff.mp hq
  simp only [htry, hq, State.finishHead, List.find?_nil, ite_self, State.effectHead, hcap, hexec]

theorem runHeads_one {m : Lead} {c : CycleRes} {k : Nat} {x : State} (h : s.runHead k m c busy = .next x) :
    runHeads m c busy [k] s = .next x := by
  rw [runHeads, h]
  rfl

/-- The only head of an undoubled cycle takes effect in the started cycle, where its meaning takes it out of the queue there
too. -/
theorem startCycle_runs {q : Nat} {e : LaneEntry} {i : Instr} {z a x : State} {l : List Member} (hg : s.grp = some g)
    (h : s.HeadClear g e i) (halone : l = []) (hchk : (s.ctxOf g).chk = 0) :
    let cs := cyclesOf (s.cur, g, e, i) l
    let d := s.debit s.cur (firstWeight cs) q
    let c := s.cycleStarted s.cur q cs
    exec i c = .next z → c.overRequests z (coreOf s.cur) = false → ranLane g z s.cur = true →
    c.captureRegs s.cur g (writtenRegs g e i (setsOf i)) = some a → exec i a = .next x →
    d.startCycle q (s.cur, g, e, i) l busy =
      .next (x.noteLane a.cur { lead := s.cur, prev := (d.pipe q).lastL } i (setsOf i) busy) := by
  intro cs d c hexec hreq hran hcap hx
  subst halone
  have hc : c.HeadClear g e i := h.cycleStarted s.cur q cs
  have htry : c.tryHead g = .go i (setsOf i) := (hc.tryHead hexec hreq).trans (if_pos hran)
  rw [startCycle_alone s s.cur q e i hchk]
  exact runHeads_one (runHead_clean (s := c) hg hc.head htry hcap hx)

end

/-! ### The statement -/

/-- Settles O4, clause by clause: the agent of the step, what its stream does, and the fetch, the guards and the meaning that
this comes to. -/
theorem stepRuns : Obligations.StepRuns := by
  unfold Obligations.StepRuns
  constructor
  · intro s u k r g w hag t hg up free
    refine ⟨?leaving, ?entering, ?running⟩
    case leaving =>
      rintro hmid ⟨hentry, hmay, hpend⟩ hleave
      exact (step_scalar hag).trans ((issueScalar_free hg hmid hentry hmay hpend).trans (if_pos hleave))
    case entering =>
      intro hmid hentry hup hstop
      exact (step_scalar hag).trans (issueScalar_entering hg hmid hentry hup hstop)
    case running =>
      intro hissue hword b h v
      have hrun : step s = v.runWord h b.2 false :=
        (step_scalar hag).trans ((issueScalar_fetches hg hissue).trans (fetchRun_ok hword))
      refine ⟨buffered_same, fun e hdec => hrun.trans (runWord_error hdec), ?_⟩
      intro i y hdec rs hwin hstall hwait hsame hcap
      have hdispatch : v.dispatchScalar h i false = y.runScalar h i rs false :=
        dispatchScalar_runs rfl hwin hstall hwait hsame hcap
      exact hrun.trans ((runWord_ok hdec).trans (hdispatch.trans (runScalar_eq i rs)))
  · intro s k r g e q hag t p hg hq hfree hmay hawake
    have hhead : g.laneQ.head? = some e := by rw [hq]; rfl
    refine ⟨?undecoded, ?decoded⟩
    case undecoded =>
      intro x hdec
      exact (step_lane hag).trans (issueLane_act hg hfree (tryHead_undecoded hhead hmay hawake hdec))
    case decoded =>
      intro i y hdec rs hserved hwin hrange hstall hwait hexec hreq
      have hclear : t.HeadClear g e i := ⟨hhead, hmay, hawake, hdec, hserved, hwin, hrange, hstall, hwait⟩
      have htry : t.tryHead g = if ranLane g y k then .go i rs else .act (.next y) := hclear.tryHead hexec hreq
      refine ⟨fun hstays => ?_, fun hran => ?_⟩
      · exact (step_lane hag).trans (issueLane_act hg hfree (htry.trans (by rw [hstays]; rfl)))
      · have hgo : step s = _ := (step_lane hag).trans (issueLane_go hg hfree hhead (htry.trans (if_pos hran)))
        intro l cs
        refine ⟨fun hrefused => hgo.trans (if_neg (Bool.eq_false_iff.mp hrefused)), ?_⟩
        intro hgrant halone hchk d c z a x hz hzreq hzran hcap hx
        exact (hgo.trans (if_pos hgrant)).trans (startCycle_runs hg hclear halone hchk hz hzreq hzran hcap hx)

end Sys2Proof.Machine
end

section
/-! Decoding and encoding agree (R37 to R54). The rows' own round trips give one direction; for the other, the decoder accepts a
word only where the encoder gives its fields back, so what is left is that fields, words and bytes determine each other. -/

namespace Sys2Proof

/-! ### Fields, words and bytes -/

/-- A scalar word is the word of its fields (R37). -/
theorem SWord.word_ofWord (w : Word) : (SWord.ofWord w).word = w := by
  simp only [SWord.word, SWord.ofWord]
  rw [extract_split w 19 6 7, extract_split w 13 6 13, extract_split w 7 6 19, extract_split w 0 7 25]
  exact extract_all w

/-- A lane word is the word of its fields (R39). -/
theorem LWord.word_ofWord (w : BitVec 96) : (LWord.ofWord w).word = w := by
  simp only [LWord.word, LWord.ofWord]
  rw [extract_split w 76 8 12, extract_split w 66 10 20, extract_split w 56 10 30, extract_split w 46 10 40,
    extract_split w 42 4 50, extract_split w 38 4 54, extract_split w 32 6 58, extract_split w 20 12 64, extract_split w 0 20 76]
  exact extract_all w

/-- The bytes of a little-endian word are the bytes it was read from (R5). -/
theorem wordBytes_leWord (a b c d : Byte) : wordBytes (leWord a b c d) = [a, b, c, d] := by
  have ha : (d ++ c ++ b ++ a).extractLsb' 0 8 = a := extract_append_low _ _
  have hb : (d ++ c ++ b ++ a).extractLsb' 8 8 = b := (extract_append_high _ _ 0 8).trans (extract_append_low _ _)
  have hc : (d ++ c ++ b ++ a).extractLsb' 16 8 = c :=
    (extract_append_high _ _ 8 8).trans ((extract_append_high _ _ 0 8).trans (extract_append_low _ _))
  have hd : (d ++ c ++ b ++ a).extractLsb' 24 8 = d :=
    (extract_append_high _ _ 16 8).trans ((extract_append_high _ _ 8 8).trans
      ((extract_append_high _ _ 0 8).trans (extract_all _)))
  simp only [wordBytes, leWord, ha, hb, hc, hd]

/-- The first word of a lane word, at the lowest address (R39). -/
theorem word0_append (x y z : Word) : (x ++ y ++ z).extractLsb' 0 32 = z := extract_append_low _ _

/-- The second word of a lane word (R39). -/
theorem word1_append (x y z : Word) : (x ++ y ++ z).extractLsb' 32 32 = y :=
  (extract_append_high _ _ 0 32).trans (extract_append_low _ _)

/-- The third word of a lane word (R39). -/
theorem word2_append (x y z : Word) : (x ++ y ++ z).extractLsb' 64 32 = x :=
  (extract_append_high _ _ 32 32).trans ((extract_append_high _ _ 0 32).trans (extract_all _))

/-! ### What the decoders accept -/

/-- No row has both a scalar and a lane encoding: the last case is that of the rows without a lane encoding. -/
theorem encScalar_of_encLane {i : Instr} {f : LWord} (h : encLane i = some f) : encScalar i = none := by
  unfold encLane at h
  split at h
  case h_86 => cases h
  all_goals rfl

theorem decodeScalar_ok {w : Word} {i : Instr} (h : decodeScalar w = .ok i) :
    i.wf = true ∧ encScalar i = some (SWord.ofWord w) := by
  unfold decodeScalar at h
  split at h
  · cases h
  · split at h
    · cases h
    · split at h
      · cases h
        exact ⟨decide_eq_true ‹_›, ‹_›⟩
      · cases h

theorem decodeLane_ok {w : BitVec 96} {i : Instr} (h : decodeLane w = .ok i) :
    i.wf = true ∧ encLane i = some (LWord.ofWord w) := by
  unfold decodeLane at h
  split at h
  · cases h
  · split at h
    · cases h
    · split at h
      · cases h
        exact ⟨decide_eq_true ‹_›, ‹_›⟩
      · cases h

theorem exists_of_map_ok {α β ε : Type} {x : Except ε α} {f : α → β} {y : β} (h : x.map f = .ok y) :
    ∃ a, x = .ok a ∧ f a = y := by
  cases x with
  | error e => cases h
  | ok a => exact ⟨a, rfl, Except.ok.inj h⟩

theorem decode_scalar_ok {bs r : List Byte} {i : Instr} (h : decode .scalar bs = .ok (i, r)) :
    i.wf = true ∧ i.stream = some .scalar ∧ bs = i.bytes ++ r := by
  unfold decode at h
  split at h
  case h_1 a b c d t hs =>
    obtain ⟨j, hj, heq⟩ := exists_of_map_ok h
    cases heq
    obtain ⟨hwf, henc⟩ := decodeScalar_ok hj
    refine ⟨hwf, by simp [Instr.stream, henc], ?_⟩
    simp only [Instr.bytes, encode, henc, SWord.word_ofWord, List.flatMap_cons, List.flatMap_nil, wordBytes_leWord,
      List.append_nil, List.cons_append, List.nil_append]
  case h_2 hs => cases hs
  case h_3 => cases h

theorem decode_lane_ok {bs r : List Byte} {i : Instr} (h : decode .lane bs = .ok (i, r)) :
    i.wf = true ∧ i.stream = some .lane ∧ bs = i.bytes ++ r := by
  unfold decode at h
  split at h
  case h_1 hs => cases hs
  case h_2 =>
    obtain ⟨j, hj, heq⟩ := exists_of_map_ok h
    cases heq
    obtain ⟨hwf, henc⟩ := decodeLane_ok hj
    have hns := encScalar_of_encLane henc
    refine ⟨hwf, by simp [Instr.stream, henc, hns], ?_⟩
    simp only [Instr.bytes, encode, henc, hns, LWord.word_ofWord, word0_append, word1_append, word2_append, List.flatMap_cons,
      List.flatMap_nil, wordBytes_leWord, List.append_nil, List.cons_append, List.nil_append]
  case h_3 => cases h

end Sys2Proof

namespace Sys2Proof.Laws.RoundTrip

open Sys2Proof

/-- Every row's bytes decode to it, or it has none (R37 to R54): row by row. -/
theorem statement_all : ∀ i : Instr, Statement i
  | .add d a b => add d a b | .sub d a b => sub d a b | .and d a b => and d a b | .or d a b => or d a b
  | .xor d a b => xor d a b | .andn d a b => andn d a b | .shl d a b => shl d a b | .shr d a b => shr d a b
  | .sar d a b => sar d a b | .rol d a b => rol d a b | .min d a b => min d a b | .max d a b => max d a b
  | .minn d a b => minn d a b | .maxn d a b => maxn d a b | .mul d a b => mul d a b | .mulh d a b => mulh d a b
  | .mulhn d a b => mulhn d a b | .div d a b => div d a b | .divn d a b => divn d a b | .rem d a b => rem d a b
  | .remn d a b => remn d a b | .clz d a => clz d a | .ctz d a => ctz d a | .popc d a => popc d a | .sextI8 d a => sextI8 d a
  | .sextI16 d a => sextI16 d a | .sextI32 d a => sextI32 d a | .zextN8 d a => zextN8 d a | .zextN16 d a => zextN16 d a
  | .zextN32 d a => zextN32 d a | .addi d a imm => addi d a imm | .andi d a imm => andi d a imm | .ori d a imm => ori d a imm
  | .xori d a imm => xori d a imm | .shli d a n => shli d a n | .shri d a n => shri d a n | .sari d a n => sari d a n
  | .lih d a imm => lih d a imm | .seq d a b => seq d a b | .sne d a b => sne d a b | .slt d a b => slt d a b
  | .sltn d a b => sltn d a b | .sle d a b => sle d a b | .slen d a b => slen d a b | .sel d c a b => sel d c a b
  | .adr d a imm => adr d a imm | .adrpc d imm => adrpc d imm | .b off => b off | .call off => call off
  | .beq a b off => beq a b off | .bne a b off => bne a b off | .blt a b off => blt a b off | .bge a b off => bge a b off
  | .bltn a b off => bltn a b off | .bgen a b off => bgen a b off | .bz a off => bz a off | .bnz a off => bnz a off
  | .loop a off => loop a off | .bkany k off => bkany k off | .bkall k off => bkall k off | .bknone k off => bknone k off
  | .calli a => calli a | .ret => ret | .jmpi a => jmpi a | .ldx d a la imm => ldx d a la imm
  | .ldxI32 d a la imm => ldxI32 d a la imm | .ldxs d a la imm => ldxs d a la imm | .ldxsI32 d a la imm => ldxsI32 d a la imm
  | .stx d a imm => stx d a imm | .stxB32 d a imm => stxB32 d a imm | .stxs d a imm => stxs d a imm
  | .stxsB32 d a imm => stxsB32 d a imm | .acq sc d a la => acq sc d a la | .rel sc d a => rel sc d a
  | .amo op sc d a b => amo op sc d a b | .ldc d a la imm => ldc d a la imm | .ldsib d a la k => ldsib d a la k
  | .mfs d r => mfs d r | .mts a r => mts a r | .fence sc => fence sc | .rcn op d a => rcn op d a | .rcnw d a b => rcnw d a b
  | .vvrd d a => vvrd d a | .vvfold a => vvfold a | .clean a b => clean a b | .inval a b => inval a b
  | .lrun count off => lrun count off | .lsync => lsync | .dpop d => dpop d | .kpush k => kpush k | .kelse => kelse
  | .kpop => kpop | .kmovKK d a => kmovKK d a | .kmovKX d a => kmovKX d a | .kmovXK d a => kmovXK d a
  | .kand d a b => kand d a b | .kor d a b => kor d a b | .kxor d a b => kxor d a b | .knot d a => knot d a
  | .kpopc d a => kpopc d a | .spset q a b => spset q a b | .spgo q => spgo q | .spstop q => spstop q | .wait p a => wait p a
  | .cntrd p d => cntrd p d | .cpgo c b => cpgo c b | .cpseal d c => cpseal d c | .cpwait d c b => cpwait d c b
  | .cpstat d c => cpstat d c | .cpabort d c => cpabort d c | .cpflt d c => cpflt d c | .bop op d a b => bop op d a b
  | .bred op d a b => bred op d a b | .await cc acq d a b => await cc acq d a b | .tspawn a b => tspawn a b
  | .watch d a => watch d a | .unwatch d a => unwatch d a | .claim d a => claim d a | .give d a => give d a
  | .regroup d a => regroup d a | .exit => exit | .barinit n b => barinit n b | .bararr d n => bararr d n
  | .barwait n b => barwait n b | .barsync n => barsync n | .cbar c => cbar c | .qinit q b => qinit q b
  | .qpush q b => qpush q b | .qpop d q => qpop d q | .qtry d q => qtry d q | .nap a => nap a | .yield => yield
  | .ensure a b => ensure a b | .elseby => elseby | .elseerr => elseerr | .accept a => accept a | .rbfail => rbfail
  | .cvjoin d a => cvjoin d a | .cvleave => cvleave | .chkerr d => chkerr d | .trap n => trap n | .brk n => brk n
  | .hcall n => hcall n | .rti => rti | .nop => nop | .halt a => halt a | .capq d a => capq d a | .chkmode a => chkmode a
  | .clkmode d a => clkmode d a | .retire d a => retire d a | .ctxsv d a b => ctxsv d a b | .ctxld d a b => ctxld d a b
  | .tlbflush a b => tlbflush a b | .prgn d a => prgn d a | .vadd t sat o => vadd t sat o | .vsub t sat o => vsub t sat o
  | .vmul t o => vmul t o | .vmulh t o => vmulh t o | .vmad t sat o => vmad t sat o | .vand o => vand o | .vor o => vor o
  | .vxor o => vxor o | .vandn o => vandn o | .vshl t o => vshl t o | .vshr t o => vshr t o | .vsar t o => vsar t o
  | .vmin t o => vmin t o | .vmax t o => vmax t o | .vabs t sat o => vabs t sat o | .vaddmin t sat o => vaddmin t sat o
  | .vaddmax t sat o => vaddmax t sat o | .vclz o => vclz o | .vpopc o => vpopc o | .vbfx t o => vbfx t o | .vbfi o => vbfi o
  | .vsel k o => vsel k o | .vsad t o => vsad t o | .vcmp cc t o => vcmp cc t o
  | .vcvt td ts sat ed es o => vcvt td ts sat ed es o | .fadd t rm o => fadd t rm o | .fsub t rm o => fsub t rm o
  | .fmul t rm o => fmul t rm o | .ffma t rm o => ffma t rm o | .fmin t o => fmin t o | .fmax t o => fmax t o
  | .fcmp cc o => fcmp cc o | .frcp t o => frcp t o | .frsq t o => frsq t o | .fsqrt t o => fsqrt t o
  | .fexp2 t o => fexp2 t o | .flog2 t o => flog2 t o | .fcvt td ts rm sf ed es o => fcvt td ts rm sf ed es o
  | .fint t rm o => fint t rm o | .vshfl m o => vshfl m o | .vshift dn o => vshift dn o | .vrot dn o => vrot dn o
  | .vbcast o => vbcast o | .voteK o => voteK o | .voteBallot o => voteBallot o | .voteAny o => voteAny o
  | .voteAll o => voteAll o | .voteCount o => voteCount o | .vred op t o => vred op t o | .vredV op t o => vredV op t o
  | .vscan op t ex o => vscan op t ex o | .mmaF tb ta fix c o => mmaF tb ta fix c o | .mmaH ta fix c o => mmaH ta fix c o
  | .mmaI tb ta fix c o => mmaI tb ta fix c o | .mzero o => mzero o | .mfrag roleB t k64 o => mfrag roleB t k64 o
  | .mtr roleB t k64 o => mtr roleB t k64 o | .maccLd o => maccLd o | .maccSt o => maccSt o | .maccAdd t o => maccAdd t o
  | .crt o => crt o | .crtAcc clr o => crtAcc clr o | .rwadd o => rwadd o | .rwfrom o => rwfrom o
  | .sacc pt rb cb o => sacc pt rb cb o | .fxzero o => fxzero o | .fxadd t pt o => fxadd t pt o
  | .fxcvt t pt clr rm o => fxcvt t pt clr rm o | .sbmax t oct o => sbmax t oct o | .sbcvt t sel o => sbcvt t sel o
  | .qnt t sel rm o => qnt t sel rm o | .dqnt t sel o => dqnt t sel o | .olx o => olx o | .vld t f o => vld t f o
  | .vst t f o => vst t f o | .vlds t f o => vlds t f o | .vsts t f o => vsts t f o | .vldr c sp f o => vldr c sp f o
  | .vstr c sp f o => vstr c sp f o | .vpf l2 f o => vpf l2 f o | .vfence sc o => vfence sc o
  | .vamo op sc t f o => vamo op sc t f o | .vldc f o => vldc f o | .vldcDq f o => vldcDq f o | .spawn o => spawn o
  | .loadDataReturn g n => loadDataReturn g n | .atomicAtPlace g n => atomicAtPlace g n | .homeStoreTest n => homeStoreTest n
  | .writeBackMerge c w => writeBackMerge c w | .dotScrub die slice => dotScrub die slice
  | .registrationRepair w => registrationRepair w | .copyRecordFetch c ch => copyRecordFetch c ch
  | .copyOwnRecheck c ch => copyOwnRecheck c ch | .copyRecordRegister c ch => copyRecordRegister c ch
  | .copyRecordComplete c ch => copyRecordComplete c ch | .copyDrainExpiry c ch => copyDrainExpiry c ch
  | .patternElementFetch g q => patternElementFetch g q
  | .watchTriggerDeliver die slice ent => watchTriggerDeliver die slice ent
  | .gatherWindowExpiry c slot => gatherWindowExpiry c slot | .gatherLaunch c slot => gatherLaunch c slot
  | .teamAdmit l k c => teamAdmit l k c | .seatRelease t => seatRelease t | .groupOverdue g lane => groupOverdue g lane
  | .powerReserve c pipe => powerReserve c pipe | .powerBudgetUpdate c refill => powerBudgetUpdate c refill
  | .pwrctlWrite c v => pwrctlWrite c v | .psteerWrite c pipe v => psteerWrite c pipe v
  | .mgmtRegisterWrite r v => mgmtRegisterWrite r v | .trapEntry g => trapEntry g
  | .handlerBudgetExpiry g => handlerBudgetExpiry g | .awaitRecheck g => awaitRecheck g | .napExpiry g => napExpiry g
  | .clockChangeDone c => clockChangeDone c | .cycleLimitExpiry t level => cycleLimitExpiry t level
  | .alternateRollback t => alternateRollback t | .preempt t => preempt t | .restore n c => restore n c
  | .poolLinkDown port => poolLinkDown port | .poolRequestTimeout dev => poolRequestTimeout dev
  | .strandedFlushRetry region => strandedFlushRetry region | .rejoinLineWritten region l => rejoinLineWritten region l
  | .poolBiSnoop l => poolBiSnoop l | .hostDeviceWrite w v mask => hostDeviceWrite w v mask
  | .channelDoorbell ch tail => channelDoorbell ch tail | .channelEnable ch en => channelEnable ch en
  | .completionHeadWrite ch head => completionHeadWrite ch head | .ctxPkt h addr => ctxPkt h addr
  | .launchPkt h addr => launchPkt h addr | .graphPkt h addr => graphPkt h addr | .quiescePkt h => quiescePkt h
  | .hreplyPkt h rid x1 x2 => hreplyPkt h rid x1 x2 | .fdonePkt h rid fail => fdonePkt h rid fail
  | .regionMapPlain h r port cxl devs => regionMapPlain h r port cxl devs
  | .regionMapVersioned h r port cxl devs => regionMapVersioned h r port cxl devs | .regionUnmap h r => regionUnmap h r
  | .regionRejoinFlush h r port => regionRejoinFlush h r port | .regionRejoinDiscard h r port => regionRejoinDiscard h r port
  | .devcfgPkt h fabric base size => devcfgPkt h fabric base size | .attestPkt h nonce report => attestPkt h nonce report
  | .fwupdPkt h addr bytes slot => fwupdPkt h addr bytes slot | .graphEdgeSatisfy graph edge => graphEdgeSatisfy graph edge
  | .remoteEdgeSignal graph edge => remoteEdgeSignal graph edge | .quiescePoint ctxid => quiescePoint ctxid
  | .retireApply n => retireApply n | .cpTakeoverForced => cpTakeoverForced | .retireTimeout n => retireTimeout n
  | .suspectCountAge => suspectCountAge | .ulunoezLaneFailed link lane => ulunoezLaneFailed link lane
  | .ulunoezLinkFailed link => ulunoezLinkFailed link | .moduleReset => moduleReset
  | .reducedServiceLift dies => reducedServiceLift dies | .heartbeatWatchdog die => heartbeatWatchdog die
  | .droopDetect c => droopDetect c | .droopRelease c => droopRelease c | .thermalTrip die => thermalTrip die
  | .thermalRelease die => thermalRelease die | .rowSpare die bank row => rowSpare die bank row
  | .memoryUncorrectable w => memoryUncorrectable w | .deadlockWalk => deadlockWalk | .longWait g => longWait g
  | .calibrate c => calibrate c | .powerGate c => powerGate c | .cxlLinkTraining port reach => cxlLinkTraining port reach
  | .storeAcknowledgement n => storeAcknowledgement n | .copiedWriteArrival w v => copiedWriteArrival w v

end Sys2Proof.Laws.RoundTrip

namespace Sys2Proof

theorem decode_bytes {i : Instr} {st : Stream} (r : List Byte) (hwf : i.wf = true) (hst : i.stream = some st) :
    decode st (i.bytes ++ r) = .ok (i, r) := by
  have h := Laws.RoundTrip.statement_all i hwf
  rw [hst] at h
  exact h r

/-- Settles O2: the round trips of the rows one way, the decoders' own comparison with the encoder the other way. -/
theorem decodeEncode : Obligations.DecodeEncode := by
  unfold Obligations.DecodeEncode
  refine ⟨fun i st r hwf hst => decode_bytes r hwf hst, fun st bs r i h => ?_⟩
  cases st with
  | scalar => exact decode_scalar_ok h
  | lane => exact decode_lane_ok h

end Sys2Proof
end

section
/-! Words written out from the encodings (R37 to R54). -/

namespace Sys2Proof

/-- Settles O3: each word decodes, by computation, to the instruction that the encodings give it. -/
theorem decodedWords : Obligations.DecodedWords := by
  unfold Obligations.DecodedWords
  decide

end Sys2Proof
end

section
/-! The register files (R58, R101): what a read returns after a write to the same and to another register. -/

namespace Sys2Proof.Machine

open Sys2Proof

theorem Group.x_zero (g : Group) : g.x 0 = 0 := rfl

theorem Group.k_zero (g : Group) : g.k 0 = g.k0 := rfl

theorem Group.x_of_ne (g : Group) {r : XReg} (h : r ≠ 0) : g.x r = sget 0 g.xs r.toNat := if_neg h

theorem Group.k_of_ne (g : Group) {r : KReg} (h : r ≠ 0) : g.k r = sget 0 g.ks r.toNat := if_neg h

theorem Group.xs_setX (g : Group) {r : XReg} (v : DWord) (h : r ≠ 0) : (g.setX r v).xs = sset 0 g.xs r.toNat v := by
  rw [Group.setX, if_neg h]

theorem Group.ks_setK (g : Group) {r : KReg} (v : DWord) (h : r ≠ 0) :
    (g.setK r v).ks = sset 0 g.ks r.toNat (v &&& g.wMask) := by
  rw [Group.setK, if_neg h]

theorem Group.x_setX (g : Group) (r q : XReg) (v : DWord) : (g.setX r v).x q = if q = r ∧ r ≠ 0 then v else g.x q := by
  by_cases hr : r = 0
  · rw [if_neg (fun h => h.2 hr), Group.setX, if_pos hr]
  · by_cases hq : q = 0
    · rw [if_neg (fun h => hr (h.1.symm.trans hq)), hq, Group.x_zero, Group.x_zero]
    · rw [Group.x_of_ne _ hq, Group.x_of_ne _ hq, Group.xs_setX _ _ hr, sget_sset]
      simp only [BitVec.toNat_inj, ne_eq, hr, not_false_eq_true, and_true]

theorem Group.k_setK (g : Group) (r q : KReg) (v : DWord) :
    (g.setK r v).k q = if q = r ∧ r ≠ 0 then v &&& g.wMask else g.k q := by
  by_cases hr : r = 0
  · rw [if_neg (fun h => h.2 hr), Group.setK, if_pos hr]
  · by_cases hq : q = 0
    · rw [if_neg (fun h => hr (h.1.symm.trans hq)), hq, Group.k_zero, Group.k_zero, Group.setK_k0]
    · rw [Group.k_of_ne _ hq, Group.k_of_ne _ hq, Group.ks_setK _ _ hr, sget_sset]
      simp only [BitVec.toNat_inj, ne_eq, hr, not_false_eq_true, and_true]

/-- The mask of the group width holds the lanes below it (R101). -/
theorem Group.getLsbD_wMask (g : Group) (j : Nat) (hj : j < 64) : g.wMask.getLsbD j = decide (j < g.gw) := by
  unfold Group.wMask
  split
  · next h => rw [BitVec.getLsbD_allOnes, decide_eq_true hj, decide_eq_true (by omega)]
  · rw [BitVec.getLsbD_ofNat, Nat.testBit_two_pow_sub_one, decide_eq_true hj, Bool.true_and]

theorem vKey_inj {r q l m : Nat} (hl : l < 64) (hm : m < 64) : vKey q m = vKey r l ↔ q = r ∧ m = l := by
  unfold vKey
  omega

theorem Group.v_setV (g : Group) (r q l m : Nat) (w : Word) (hl : l < 64) (hm : m < 64) :
    (g.setV r l w).v q m = if q = r ∧ m = l then w else g.v q m := by
  simp [Group.v, vKey_inj hl hm]

theorem mem_lanesOf {m : DWord} {l : Nat} : l ∈ lanesOf m ↔ l < 64 ∧ m.getLsbD l = true := by
  simp [lanesOf, bitsSet, bitOf, BitVec.getLsbD, Nat.testBit_eq_decide_div_mod_eq]

/-- Writing lane after lane of one register leaves each lane of the list with its value, and every other lane as it was. -/
theorem Group.v_foldl_setV (r q l : Nat) (f : Nat → Word) (ls : List Nat) (hls : ∀ j ∈ ls, j < 64) (hl : l < 64) (g : Group) :
    (ls.foldl (fun g j => g.setV r j (f j)) g).v q l = if q = r ∧ l ∈ ls then f l else g.v q l := by
  induction ls generalizing g with
  | nil => simp
  | cons j js ih =>
    obtain ⟨hj, hjs⟩ := List.forall_mem_cons.mp hls
    rw [List.foldl_cons, ih hjs, Group.v_setV g r q j l (f j) hj hl]
    by_cases hlj : l = j
    · subst hlj
      by_cases hq : q = r <;> simp [hq]
    · simp only [List.mem_cons, hlj, false_or, and_false, if_false]

theorem Group.v_setLanes (g : Group) (r q l : Nat) (m : DWord) (f : Nat → Word) (hl : l < 64) :
    (g.setLanes r m f).v q l = if q = r ∧ m.getLsbD l = true then f l else g.v q l := by
  rw [Group.setLanes, Group.v_foldl_setV r q l f _ (fun j hj => (mem_lanesOf.mp hj).1) hl]
  simp only [mem_lanesOf, hl, true_and]

/-- Settles O6, from what each register file reads after a write. -/
theorem registerFiles : Obligations.RegisterFiles := by
  unfold Obligations.RegisterFiles
  intro g
  exact ⟨g.x_zero, g.k_zero, g.x_setX, g.k_setK, g.getLsbD_wMask, fun r q l m w => g.v_setV r q l m w,
    fun r q l m f => g.v_setLanes r q l m f⟩

end Sys2Proof.Machine
end

section
/-! Special registers (R59, R60, R106, R107): which of them wait for the lane stream, and which `mts` writes, under what mode. -/

namespace Sys2Proof.Machine

open Sys2Proof

section
variable {s : State} {g : Group}

/-- A read of a special register that does not wait for the lane stream, or finds it idle. -/
theorem exec_mfs (hg : s.grp = some g) (d : XReg) (r : SReg) (h : waitsLane r = false ∨ g.laneBusy = false) :
    exec (.mfs d r) s = ends s (g.setX d (s.special g r)) := by
  have hgo : (waitsLane r && g.laneBusy) = false := by rcases h with h | h <;> simp [h]
  refine (withG_some hg _).trans ?_
  rw [hgo]
  rfl

theorem exec_mts_ofc (hg : s.grp = some g) (a : XReg) (hidle : g.laneBusy = false) :
    exec (.mts a .ofc) s = ends s { g with ofc := g.x a } := by
  refine (withG_some hg _).trans ?_
  rw [hidle]
  rfl

theorem exec_mts_cir (hg : s.grp = some g) (a : XReg) (htrap : g.tclass = true) (hidle : g.laneBusy = false) :
    exec (.mts a .cir) s = ends (s.setCtx g (fun c => { c with cir := g.x a &&& cirMask })) g := by
  refine (withG_some hg _).trans ?_
  rw [htrap, hidle]
  rfl

theorem exec_mts_tvb (hg : s.grp = some g) (a : XReg) (htrap : g.tclass = true) :
    exec (.mts a .tvb) s = ends (s.setCtx g (fun c => { c with tvb := g.x a &&& tvbMask })) g := by
  refine (withG_some hg _).trans ?_
  rw [htrap]
  rfl

/-- Outside trap class `cir` and `tvb` are not written. -/
theorem exec_mts_privileged (hg : s.grp = some g) (a : XReg) (h : g.tclass = false) :
    exec (.mts a .cir) s = raise s 0x0d 0 0 ∧ exec (.mts a .tvb) s = raise s 0x0d 0 0 := by
  constructor
  all_goals
    refine (withG_some hg _).trans ?_
    rw [h]
    rfl

end

/-- Settles O21, from what `mfs` reads of each register and what `mts` does to each writable one. -/
theorem specialRegisters : Obligations.SpecialRegisters := by
  unfold Obligations.SpecialRegisters
  refine ⟨fun s g d hg => ?reads, fun s g a hg => ?writes⟩
  case reads =>
    have hread (r : SReg) (hr : waitsLane r = false) := exec_mfs hg d r (.inl hr)
    refine ⟨hread .gid rfl, hread .tid rfl, hread .gw rfl, hread .role rfl, hread .tsc rfl, hread .rbst rfl, hread .chk rfl,
      hread .tvb rfl, hread .ctx rfl, fun hidle => ?_⟩
    exact ⟨exec_mfs hg d .ofc (.inr hidle), exec_mfs hg d .cir (.inr hidle)⟩
  case writes =>
    exact ⟨exec_mts_ofc hg a, exec_mts_cir hg a, exec_mts_tvb hg a, exec_mts_privileged hg a⟩

end Sys2Proof.Machine
end

section
/-! `await` (R276): its condition, the value it leaves, and how it ends or waits, at issue and when it is rechecked. -/

namespace Sys2Proof.Machine

open Sys2Proof

/-! ### The condition and the value -/

/-- The comparisons of `await` in numbers (R276). -/
theorem awaitHolds_eq (cc : AwaitCond) (v b : Word) : awaitHolds cc v b = match cc with
    | .eq => v == b | .ne => v != b
    | .lt => decide (v.toInt < b.toInt) | .ge => decide (b.toInt ≤ v.toInt)
    | .ltn => decide (v.toNat < b.toNat) | .gen => decide (b.toNat ≤ v.toNat) := by
  cases cc with
  | eq | ne | lt | ltn => rfl
  | ge => simp only [awaitHolds, BitVec.slt, ← decide_not, not_lt]
  | gen => simp only [awaitHolds, BitVec.ult, ← decide_not, not_lt]

/-- The value in xd is sign-extended but for the unsigned comparisons (R276). -/
theorem awaitVal_eq (cc : AwaitCond) (v : Word) :
    awaitVal cc v = if ¬(cc = .ltn ∨ cc = .gen) then v.signExtend 64 else v.zeroExtend 64 := by
  cases cc <;> rfl

/-! ### Merging vectors -/

theorem State.mergeRecords_cur (s : State) (k w : Nat) (l : List (Dot × Option HidTag)) : (s.mergeRecords k w l).cur = s.cur := by
  unfold State.mergeRecords
  split
  · generalize (s.cellRec w).vrec = vs
    clear * -
    induction vs generalizing s with
    | nil => rfl
    | cons v vs ih =>
      rw [List.foldl_cons, ih]
      split <;> rfl
  · rfl

/-! ### Issue -/

/-- What an `await` that ends has merged and dropped, where it is also an acquire. -/
def State.awaitMerged (s : State) (w : Nat) (acq : Bool) (x : AcqWord) : State :=
  if acq then (s.mergeRecords s.cur w x.found).acquire s.cur 3 else s

/-- The state in which an `await` ends that has read `x`: a consumption of poison beside. -/
def State.awaited (s : State) (w : Nat) (acq : Bool) (x : AcqWord) : State :=
  (s.awaitMerged w acq x).consumeIf (s.awaitMerged w acq x).cur x.pois

/-- What an ended `await` leaves of its group. -/
def Group.awaitEnds (g : Group) (cc : AwaitCond) (d : XReg) (v : Word) : Group := { g.setX d (awaitVal cc v) with awt := none }

theorem Group.awaitEnds_next (g : Group) (cc : AwaitCond) (d : XReg) (v : Word) :
    (g.awaitEnds cc d v).next = { g.awaitEnds cc d v with pc := g.pc + 4, wf := {}, waitN := none } := by
  rw [Group.next, show (g.awaitEnds cc d v).pc = g.pc from g.setX_pc d _]

section
variable {s s1 : State} {g : Group} {cc : AwaitCond} {acq : Bool} {d a b : XReg} {pa : Nat} {mt : Bool}

theorem exec_await_read (hg : s.grp = some g) (hchk : s.chkOrdered s.cur g (g.x a) 4 false anyMem = .ok s1 pa mt)
    (hclear : s1.parkedHit s1.cur (g.x a) 4 = false) :
    exec (.await cc acq d a b) s =
      let ld := s1.acqWord s1.cur (pa / 4) 3 mt
      if awaitHolds cc ld.2.val ((g.x b).truncate 32) then
        doneWith (ld.1.awaited (pa / 4) acq ld.2) (fun h => h.awaitEnds cc d ld.2.val)
      else
        block ld.1 { g with awt := some { cc := cc, acq := acq, d := d.toNat, addr := g.x a, rhs := (g.x b).truncate 32 } }
          (waitRow (coreOf ld.1.cur) 12 true false 0 []) := by
  refine (withG_some hg _).trans ?_
  dsimp only
  rw [hchk]
  dsimp only
  rw [hclear]
  rfl

/-- A group that waits has its row of the wait-for table and else stands as it was (R349). -/
theorem afterwards_block (s : State) (g : Group) (row : WaitRow) (P : State → Prop)
    (h : P (s.setGrp (g.waiting s.tsc row))) : afterwards (block s g row) P := h

theorem waiting_kind (g : Group) (t : DWord) (row : WaitRow) : (g.waiting t row).wf.kind = row.kind := by
  unfold Group.waiting
  split <;> rfl

/-! ### Recheck -/

theorem exec_recheck_read {va : DWord} {rhs : Word} (hg : s.grp = some g)
    (hawt : g.awt = some { cc := cc, acq := acq, d := d.toNat, addr := va, rhs := rhs })
    (hchk : s.chkOrdered s.cur g va 4 false anyMem = .ok s1 pa mt) :
    exec (.awaitRecheck s.cur) s =
      let ld := s1.acqWord s1.cur (pa / 4) 3 mt
      if awaitHolds cc ld.2.val rhs then
        withG (ld.1.awaited (pa / 4) acq ld.2) (fun h =>
          .next (((ld.1.awaited (pa / 4) acq ld.2).setGrp (h.awaitEnds cc d ld.2.val).next).noteScalar
            (ld.1.awaitMerged (pa / 4) acq ld.2).cur { xw := [d] } false 0 false))
      else .next ld.1 := by
  have hfind : find s.groups s.cur = some g := hg
  change execAwaitRecheck s.cur s = _
  rw [execAwaitRecheck, hfind]
  dsimp only
  rw [hawt]
  change recheckAwait s g _ = _
  rw [recheckAwait, hchk]
  simp only [BitVec.ofNat_toNat, BitVec.setWidth_eq]
  rfl

end

/-- Settles O28: an `await` reads one word, at issue and when it is rechecked, and its condition on that word decides. -/
theorem awaits : Obligations.Awaits := by
  unfold Obligations.Awaits
  intro s s1 g cc acq va rhs d pa mt hg hchk ld v signed holds m u t set
  have hholds : awaitHolds cc v rhs = holds := awaitHolds_eq cc v rhs
  have hset (h : Group) : h.awaitEnds cc d v = set h := by
    rw [Group.awaitEnds, awaitVal_eq]
  have hu : ld.1.awaitMerged (pa / 4) acq ld.2 = u := by
    have hcur : m.cur = ld.1.cur := State.mergeRecords_cur ..
    simp only [u, hcur]
    rfl
  have ht : ld.1.awaited (pa / 4) acq ld.2 = t := by
    rw [State.awaited, hu]
  refine ⟨?issue, ?recheck⟩
  case issue =>
    rintro a b rfl rfl hclear
    have hexec := exec_await_read (cc := cc) (acq := acq) (d := d) (b := b) hg hchk hclear
    refine ⟨fun h g2 hg2 => ?_, fun h => ?_⟩
    · refine hexec.trans ((if_pos (hholds.trans h)).trans ?_)
      rw [← hset]
      exact (congrArg (doneWith · _) ht).trans (doneWith_ends hg2 _)
    · rw [hexec]
      dsimp only
      rw [if_neg (by rw [hholds, h]; exact Bool.false_ne_true)]
      refine afterwards_block _ _ _ _ (fun w hw => ?_)
      rw [State.grp_setGrp, Option.some.injEq] at hw
      subst hw
      exact ⟨rfl, rfl, waiting_kind _ _ _⟩
  case recheck =>
    intro hawt
    have hexec := exec_recheck_read hg hawt hchk
    refine ⟨fun h g2 hg2 => ?_, fun h => ?_⟩
    · refine hexec.trans ((if_pos (hholds.trans h)).trans ?_)
      rw [← hset, ht, hu]
      refine (withG_some hg2 _).trans ?_
      rw [Group.awaitEnds_next]
    · exact hexec.trans (if_neg (by rw [hholds, h]; exact Bool.false_ne_true))

end Sys2Proof.Machine
end

section
/-! What the memory system leaves of every group (R210, R281, R292, R411): a store that travels to its home, and a translation,
change a group's vector and its pending traps, and nothing else of it. -/

namespace Sys2Proof.Machine

open Sys2Proof

/-! ### The relation -/

/-- A group without what the memory system changes of it: its vector (R281) and its pending traps (R411). -/
def Group.settled (g : Group) : Group := { g with vv := {}, pend := [] }

/-- `t` has the acting group and the groups of `s`, each as it stands in `s` but for its vector and pending traps. -/
def State.GroupsKept (s t : State) : Prop :=
  t.cur = s.cur ∧ ∀ k, (find t.groups k).map Group.settled = (find s.groups k).map Group.settled

namespace State.GroupsKept

theorem refl (s : State) : GroupsKept s s := ⟨rfl, fun _ => rfl⟩

theorem trans {s t u : State} (h : GroupsKept s t) (h' : GroupsKept t u) : GroupsKept s u :=
  ⟨h'.1.trans h.1, fun k => (h'.2 k).trans (h.2 k)⟩

theorem of_eq {s t : State} (hcur : t.cur = s.cur) (hgroups : t.groups = s.groups) : GroupsKept s t :=
  ⟨hcur, fun _ => by rw [hgroups]⟩

/-- A group changed in its vector or its pending traps. -/
theorem of_upd (s : State) (k : Nat) (f : Group → Group) (hf : ∀ g, (f g).settled = g.settled) :
    GroupsKept s { s with groups := upd s.groups k f } := by
  refine ⟨rfl, fun j => ?_⟩
  dsimp only
  rw [find_upd]
  split
  · next h => rw [h, Option.map_map]; exact Option.map_congr (fun g _ => hf g)
  · rfl

theorem foldl {β : Type} (f : State → β → State) (h : ∀ s x, GroupsKept s (f s x)) (l : List β) (s : State) :
    GroupsKept s (l.foldl f s) := by
  induction l generalizing s with
  | nil => exact refl s
  | cons x r ih => exact (h s x).trans (ih (f s x))

section
variable {s t : State} (h : GroupsKept s t)
include h

theorem setSlice (k : Nat) (v : Slice) : GroupsKept s (t.setSlice k v) := h
theorem setRec (w : Nat) (r : CellRec) : GroupsKept s (t.setRec w r) := h
theorem setPois (w : Nat) (p : Bool) : GroupsKept s (t.setPois w p) := h
theorem setCore (c : Nat) (k : Core) : GroupsKept s (t.setCore c k) := h
theorem setL1 (c w : Nat) (x : L1Word) : GroupsKept s (t.setL1 c w x) := h
theorem delL1 (c w : Nat) : GroupsKept s (t.delL1 c w) := h
theorem dirty (q : StoreReq) (w : Nat) (m : BitVec 4) (v : Word) (x : L1Word) : GroupsKept s (t.dirty q w m v x) := h

end

/-- The acting group is there after as before, as it stood but for its vector and pending traps. -/
theorem grp {s t : State} {g : Group} (h : GroupsKept s t) (hg : s.grp = some g) :
    ∃ g', t.grp = some g' ∧ g'.settled = g.settled := by
  have hk := h.2 s.cur
  rw [show find s.groups s.cur = some g from hg] at hk
  obtain ⟨g', hfind, heq⟩ := Option.map_eq_some_iff.mp hk
  exact ⟨g', by rw [State.grp, h.1, hfind], heq⟩

end State.GroupsKept

open State (GroupsKept)

/-! ### Cells -/

namespace State

theorem groupsKept_setOwned (s : State) (l : Nat) (f : List Nat → List Nat) : GroupsKept s (s.setOwned l f) := by
  unfold setOwned
  split
  · exact .of_eq rfl rfl
  · exact .refl s

theorem groupsKept_reown (s : State) (l : Nat) : GroupsKept s (s.reown l) := by
  have h := (s.setSummary l (s.sideDot l)).groupsKept_setOwned l (fun x => l :: x)
  unfold reown
  split
  · dsimp only
    split <;> exact h
  · exact .refl s

theorem groupsKept_summarise (s : State) (l : Nat) (d : Dot) : GroupsKept s (s.summarise l d) := .of_eq rfl rfl

theorem groupsKept_dropLine (s : State) (l : Nat) : GroupsKept s (s.dropLine l) := by
  unfold dropLine
  exact s.groupsKept_summarise l _

theorem groupsKept_touchLine (s : State) (l : Nat) (t : BitVec 40) : GroupsKept s (s.touchLine l t) := by
  have h := s.groupsKept_reown l
  unfold touchLine
  dsimp only
  refine GroupsKept.setSlice ?_ _ _
  split
  · exact h
  · split
    · exact h
    · split
      · exact h
      · exact h.trans (groupsKept_dropLine _ _)

theorem groupsKept_setWord (s : State) (w : Nat) (v : Word) : GroupsKept s (s.setWord w v) :=
  .of_eq (s.setWord_cur w v) (s.setWord_groups w v)

theorem groupsKept_setVal (s : State) (w : Nat) (v : CellVal) : GroupsKept s (s.setVal w v) := s.groupsKept_setWord w v.val

theorem groupsKept_settle (s : State) (w : Nat) (r : CellRec) : GroupsKept s (s.settle w r) := by
  unfold settle
  dsimp only
  split
  · split
    · exact ((s.groupsKept_setVal w _).setRec w _).trans (groupsKept_touchLine _ _ _)
    · exact (GroupsKept.refl s).setRec w _
  · split
    · exact (s.groupsKept_setVal w _).setRec w _
    · exact (GroupsKept.refl s).setRec w _

theorem groupsKept_evictRecs (s : State) (k n : Nat) : GroupsKept s (s.evictRecs k n) := by
  induction n generalizing s with
  | zero => exact .refl s
  | succ n ih =>
    unfold evictRecs
    split
    · exact .refl s
    · split
      · exact .refl s
      · exact ih _

theorem groupsKept_makeRoom {s t : State} {k : Nat} (h : s.makeRoom k = some t) : GroupsKept s t := by
  unfold makeRoom at h
  dsimp only at h
  split at h
  · cases h
    exact s.groupsKept_evictRecs k 4096
  · cases h

theorem groupsKept_withVals (s : State) (w : Nat) (r : CellRec) (vals : List CellVal) (b : Option Word) :
    GroupsKept s (s.withVals w r vals b).2 := by
  unfold withVals
  split
  · dsimp only
    split
    · exact .of_eq rfl rfl
    · exact .refl s
  · exact .refl s

theorem groupsKept_applyVals {s t : State} {w : Nat} {nv : CellVal} {x : List CellVal × Option Word} {rv : Option VVec}
    (h : s.applyVals w nv x rv = some t) : GroupsKept s t := by
  unfold applyVals at h
  dsimp only at h
  split at h
  · cases h
  · split at h
    · cases h
    · next u hroom =>
      split at h
      · cases h
        have hvals := (s.groupsKept_reown (w / 32)).trans (groupsKept_withVals _ w ((s.reown (w / 32)).cellRec w) x.1 x.2)
        have hu : GroupsKept s u := (hvals.setRec w _).trans (groupsKept_makeRoom hroom)
        exact hu.trans ((groupsKept_settle _ _ _).trans (groupsKept_touchLine _ _ _))
      · cases h

theorem groupsKept_applyStore {s t : State} {w : Nat} {cv : Option Nat} {nv : CellVal} {V : VVec} {rv : Option VVec}
    (h : s.applyStore w cv nv V rv = some t) : GroupsKept s t := by
  unfold applyStore at h
  exact groupsKept_applyVals h

/-! ### Caches and registrations -/

theorem groupsKept_fill (s : State) (w : Nat) (x : L1Word) : GroupsKept s (s.fill w x) := by
  have h (v : Word) := s.groupsKept_setWord w v
  unfold fill
  dsimp only
  split
  · exact .refl s
  · split
    · split
      · split
        · split
          · exact (h _).setPois w _
          · exact (((h _).setPois w _).setRec w _).trans (groupsKept_touchLine _ _ _)
        · exact .refl s
      · exact s.groupsKept_settle _ _
    · exact (h _).setPois w _

theorem groupsKept_expectAck (s : State) (g w : Nat) (m : BitVec 4) : GroupsKept s (s.expectAck g w m) := by
  unfold expectAck
  split
  · exact .of_eq rfl rfl
  · exact .refl s

theorem groupsKept_writeBack (s : State) (c w : Nat) : GroupsKept s (s.writeBack c w) := by
  unfold writeBack
  split
  · exact .refl s
  · split
    · exact ((s.groupsKept_fill w _).setL1 c w _).trans (groupsKept_expectAck _ _ _ _)
    · exact .refl s

theorem groupsKept_writeBackAll (s : State) (w : Nat) (k : Option Nat) : GroupsKept s (s.writeBackAll w k) :=
  .foldl _ (fun t e => by
    split
    · exact .refl t
    · exact t.groupsKept_writeBack _ _) _ s

theorem groupsKept_homeStore {s t : State} {w : Nat} {cv : Option Nat} {q : StoreReq} {m : BitVec 4} {v : Word}
    (h : s.homeStore w cv q m v = some t) : GroupsKept s t := by
  have hback := s.groupsKept_writeBackAll w (some q.core)
  unfold homeStore at h
  dsimp only at h
  split at h
  · exact hback.trans (groupsKept_applyStore h)
  · cases h
    refine GroupsKept.setPois ?_ w _
    exact hback.trans (groupsKept_setWord _ w _)

theorem groupsKept_tryWords {s t : State} {cv : Option Nat} {q : StoreReq} (h : s.tryWords cv q = .ok t) : GroupsKept s t := by
  unfold tryWords at h
  split at h
  · cases h
  · next u hfirst =>
    split at h
    · cases h
      exact groupsKept_homeStore hfirst
    · split at h
      · cases h
      · next hsecond =>
        cases h
        exact (groupsKept_homeStore hfirst).trans (groupsKept_homeStore hsecond)

theorem groupsKept_triggerAs (s : State) (ws : List Nat) (d : Dot) (v : Nat → Word) : GroupsKept s (s.triggerAs ws d v) :=
  .foldl _ (fun t e => by
    dsimp only
    split
    · exact .refl t
    · split <;> exact .of_eq rfl rfl) _ s

theorem groupsKept_fires (s : State) (q : StoreReq) : GroupsKept s (s.fires q) := by
  unfold fires
  split
  · exact s.groupsKept_triggerAs _ _ _
  · exact .refl s

theorem groupsKept_register (s : State) (c w g : Nat) (m : BitVec 4) : GroupsKept s (s.register c w g m) := by
  unfold register
  split
  · split
    · exact (GroupsKept.refl s).setL1 c w _
    · exact s.groupsKept_expectAck _ _ _
  · exact s.groupsKept_expectAck _ _ _

theorem groupsKept_tryStore {s t : State} {q : StoreReq} (h : s.tryStore q = .ok t) : GroupsKept s t := by
  unfold tryStore at h
  cases hw : s.tryWords (s.reqConv q) q with
  | error e => rw [hw] at h; cases h
  | ok u =>
    rw [hw] at h
    cases h
    exact (groupsKept_tryWords hw).trans ((GroupsKept.foldl _ (fun t w => t.groupsKept_register _ _ _ _) _ u).trans
      (groupsKept_fires _ _))

theorem groupsKept_addPend (s : State) (g : Nat) (p : PendTrap) : GroupsKept s (s.addPend g p) := .of_upd s g _ (fun _ => rfl)

theorem groupsKept_stampDot (s : State) (k : Nat) (d : Dot) : GroupsKept s (s.stampDot k d) := .of_upd s k _ (fun _ => rfl)

theorem groupsKept_parkFailed (s : State) (q : StoreReq) (w : Nat) : GroupsKept s (s.parkFailed q w) :=
  ((GroupsKept.refl s).setCore q.core _).trans (groupsKept_addPend _ _ _)

theorem groupsKept_testStore (s : State) (q : StoreReq) : GroupsKept s (s.testStore q) := by
  unfold testStore
  split
  · next h => exact groupsKept_tryStore h
  · split
    · exact .of_eq rfl rfl
    · exact s.groupsKept_parkFailed q _

theorem groupsKept_flushReqs (s : State) (c w : Nat) : GroupsKept s (s.flushReqs c w) :=
  GroupsKept.foldl _ groupsKept_testStore _ { s with regQ := _ }

theorem groupsKept_evictLine (s : State) (c l : Nat) : GroupsKept s (s.evictLine c l) :=
  GroupsKept.foldl (fun s w => (s.flushReqs c w).writeBack c w)
    (fun t w => (t.groupsKept_flushReqs c w).trans (groupsKept_writeBack _ c w)) _ s |>.setCore c _

theorem groupsKept_shrinkL1 (s : State) (c n fuel : Nat) : GroupsKept s (s.shrinkL1 c n fuel) := by
  induction fuel generalizing s with
  | zero => exact .refl s
  | succ fuel ih =>
    unfold shrinkL1
    dsimp only
    split
    · exact .refl s
    · split
      · exact .of_eq rfl rfl
      · exact (groupsKept_evictLine s.takeFree.2 c _).trans (ih _)

theorem groupsKept_makeLine (s : State) (c l : Nat) : GroupsKept s (s.makeLine c l) := by
  unfold makeLine
  split
  · exact .refl s
  · exact s.groupsKept_shrinkL1 _ _ _

theorem groupsKept_fillLine (s : State) (c l : Nat) (cv : Option Nat) : GroupsKept s (s.fillLine c l cv) :=
  (s.groupsKept_makeLine c l).trans (.foldl _ (fun t w => by
    split
    · exact .refl t
    · split
      · exact (GroupsKept.refl t).setL1 c w _
      · exact .refl t) _ _)

theorem groupsKept_loadWord (s : State) (c w : Nat) (cv : Option Nat) : GroupsKept s (s.loadWord c w cv).1 := by
  unfold loadWord
  split
  · exact .refl s
  · dsimp only
    split
    · exact s.groupsKept_fillLine _ _ _
    · exact .refl s

/-! ### Stores -/

theorem groupsKept_freshWord (s : State) (q : StoreReq) (w : Nat) (m : BitVec 4) (v : Word) : GroupsKept s (s.freshWord q w m v).1 :=
  (s.groupsKept_loadWord q.core w (s.reqConv q)).dirty q w m v _

theorem groupsKept_storeWord (s : State) (q : StoreReq) (w : Nat) (m : BitVec 4) (v : Word) :
    GroupsKept s (s.storeWord q w m v).1 := by
  have hflush := s.groupsKept_flushReqs q.core w
  unfold storeWord
  dsimp only
  split
  · exact s.groupsKept_freshWord _ _ _ _
  · next x _ =>
    split
    · exact .refl s
    · split
      · exact (GroupsKept.refl s).dirty q w m v _
      · split
        · exact (GroupsKept.refl s).dirty q w m v _
        · split
          · split
            · exact ((s.groupsKept_fill w x).trans (groupsKept_expectAck _ x.grp w x.mask)).dirty q w m v _
            · exact (GroupsKept.refl s).dirty q w m v _
          · split
            · exact hflush.trans (groupsKept_freshWord _ _ _ _ _)
            · next y _ =>
              have hhome : GroupsKept s (if y.hid.isNone = true then (s.flushReqs q.core w).writeBack q.core w
                  else (s.flushReqs q.core w).fill w y) := by
                split
                · exact hflush.trans (groupsKept_writeBack _ _ _)
                · exact hflush.trans (groupsKept_fill _ _ _)
              split
              · exact hhome.delL1 q.core w
              · exact hhome.dirty q w m v _

theorem groupsKept_enterWords (s : State) (q : StoreReq) : GroupsKept s (s.enterWords q).1 := by
  unfold enterWords
  dsimp only
  split
  · exact s.groupsKept_storeWord _ _ _ _
  · exact (s.groupsKept_storeWord _ _ _ _).trans (groupsKept_storeWord _ _ _ _ _)

theorem groupsKept_unkeep (s : State) (q : StoreReq) (w : Nat) : GroupsKept s (s.unkeep q w) := by
  unfold unkeep
  split
  · split
    · exact ((s.groupsKept_fill w _).setL1 q.core w _).trans (groupsKept_expectAck _ _ _ _)
    · exact .refl s
  · exact .refl s

theorem groupsKept_enterL1 (s : State) (q : StoreReq) : GroupsKept s (s.enterL1 q).1 := by
  have h := s.groupsKept_enterWords q
  unfold enterL1
  split
  · next e => rw [e] at h; exact h
  · next e =>
    rw [e] at h
    split
    · exact h
    · exact (GroupsKept.foldl _ (fun t w => t.groupsKept_unkeep q w) q.words s).trans (groupsKept_enterWords _ q)

theorem groupsKept_storeL1 (s : State) (q : StoreReq) : GroupsKept s (s.storeL1 q) := by
  have h := s.groupsKept_enterL1 q
  unfold storeL1
  split
  · next e =>
    rw [e] at h
    split
    · exact h.trans (groupsKept_triggerAs _ _ _ _)
    · exact h
  · next e => rw [e] at h; exact h
  · next e =>
    rw [e] at h
    exact h.trans ((GroupsKept.foldl _ (fun t w => t.groupsKept_flushReqs q.core w) q.words _).trans (groupsKept_testStore _ q))

theorem groupsKept_storeAtHome {s t : State} {q : StoreReq} (h : s.storeAtHome q = some t) : GroupsKept s t := by
  unfold storeAtHome at h
  split at h
  · next u hu =>
    cases h
    exact (s.groupsKept_writeBackAll q.w none).trans ((groupsKept_tryWords hu).trans
      ((u.groupsKept_expectAck q.grp q.w q.mask).trans (groupsKept_fires _ q)))
  · cases h

/-! ### Translation -/

theorem groupsKept_orEntry (s : State) (f : BitVec 40) (pa b : Nat) : GroupsKept s (s.orEntry f pa b) := by
  unfold orEntry
  dsimp only
  split
  · exact .refl s
  · generalize hq : s.storeAtHome _ = o
    cases o with
    | none => exact .refl s
    | some u => exact groupsKept_storeAtHome hq

theorem useEntry_ok {s t : State} {e : TlbEnt} {va pa : Nat} {acc : AccK} {tc mt : Bool}
    (h : s.useEntry e va acc tc = .ok t pa mt) : t = s := by
  unfold useEntry at h
  dsimp only at h
  split at h
  · cases h
  · split at h
    · cases h
    · cases h
      rfl

theorem groupsKept_translate {s t : State} {c ctx pa : Nat} {va : DWord} {acc : AccK} {tc mt : Bool}
    (h : s.translate c ctx va acc tc = .ok t pa mt) : GroupsKept s t := by
  unfold translate at h
  dsimp only at h
  split at h
  · cases h
  · split at h
    · rw [useEntry_ok h]
      exact .of_eq rfl rfl
    · split at h
      · cases h
      · split at h
        · unfold postFault at h
          dsimp only at h
          split at h
          · split at h <;> cases h
          · cases h
        · cases h
        · split at h
          · cases h
          · split at h
            · cases h
            · rw [useEntry_ok h]
              exact GroupsKept.foldl _ (fun u ea => u.groupsKept_orEntry _ ea _) _ s

/-! ### Stores that the device makes for a group -/

theorem groupsKept_storeRaw (s : State) (k pa n v : Nat) (lane : Bool) : GroupsKept s (s.storeRaw k pa n v lane) := by
  have h : GroupsKept s (s.setBytes pa (bytesOf v n)) := .of_eq (s.setBytes_cur _ _) (s.setBytes_groups _ _)
  unfold storeRaw
  dsimp only
  split <;> exact h

theorem groupsKept_storeDwords (s : State) (k : Nat) (va : DWord) (pa : Nat) (mt : Bool) (l : List DWord) :
    GroupsKept s (s.storeDwords k va pa mt l) := by
  induction l generalizing s va pa with
  | nil => exact .refl s
  | cons v r ih =>
    unfold storeDwords
    split
    · exact .refl s
    · next g _ =>
      dsimp only
      refine (s.groupsKept_stampDot k (s.reqOf k g va pa).dot).trans (GroupsKept.trans ?_ (ih _ _ _))
      split
      · exact groupsKept_storeRaw _ _ _ _ _ _
      · exact groupsKept_storeL1 _ _

theorem groupsKept_storeFields (s : State) (k : Nat) (va : DWord) (pa : Nat) (mt : Bool) (l : List DWord) :
    GroupsKept s (s.storeFields k va pa mt l) := by
  unfold storeFields
  split
  · exact .refl s
  · split
    · exact ((GroupsKept.refl s).setCore _ _).trans (groupsKept_stampDot _ k _)
    · exact s.groupsKept_storeDwords k va pa mt l

end State

end Sys2Proof.Machine
end

section
/-! Calls and returns (R80, R81, R91, R95): pushes and pops of the return stack on the chip, through the spill area, and their
traps. -/

namespace Sys2Proof.Machine

open Sys2Proof

/-- A word offset of 25 bits from a PC (R38). -/
theorem pc_add_off25 (pc : DWord) (o : BitVec 25) : pc + off25 o = BitVec.ofInt 64 (pc.toNat + 4 * o.toInt) := by
  rw [off25, BitVec.signExtend, BitVec.ofInt_add, BitVec.ofInt_natCast, BitVec.ofNat_toNat, BitVec.setWidth_eq, BitVec.ofInt_mul,
    BitVec.mul_comm]
  rfl

theorem gotoWith_endsAt {s : State} {g : Group} (hg : s.grp = some g) (f : Group → Group) (a : DWord) :
    gotoWith s f a = endsAt s (f g) a := withG_some hg _

section
variable {s s1 : State} {g : Group}

/-! ### The spill area -/

/-- The place of entry `n` of a group's spill area (R409). -/
def State.spillPlace (s : State) (g : Group) (n : Nat) : DWord :=
  spillAddr (s.ctxOf g) (g.spillSlot s.cur) + BitVec.ofNat 64 (8 * n)

theorem withSpill_write {n pa : Nat} {mt : Bool} (f : State → Nat → Bool → Res)
    (htr : s.translate (coreOf s.cur) (s.ctxId g) (s.spillPlace g n) .write true = .ok s1 pa mt) (hpool : s1.poolTrap pa = 0)
    (hroom : s1.noRoomBehind s1.cur (s1.ctxId g) (s.spillPlace g n) = false) : withSpill s g n .write f = f s1 pa mt := by
  have hheld : s1.spillHeld g (s.spillPlace g n) .write = false := hroom
  unfold State.spillPlace at *
  simp only [withSpill, htr, hpool, hheld, ne_eq, not_true_eq_false, if_false, Bool.false_eq_true]

theorem withSpill_read {n pa : Nat} {mt : Bool} (f : State → Nat → Bool → Res)
    (htr : s.translate (coreOf s.cur) (s.ctxId g) (s.spillPlace g n) .read true = .ok s1 pa mt) (hpool : s1.poolTrap pa = 0)
    (hclear : s1.parkedHit s1.cur (s.spillPlace g n) 8 = false) : withSpill s g n .read f = f s1 pa mt := by
  have hheld : s1.spillHeld g (s.spillPlace g n) .read = false := hclear
  unfold State.spillPlace at *
  simp only [withSpill, htr, hpool, hheld, ne_eq, not_true_eq_false, if_false, Bool.false_eq_true]

/-! ### Pushes -/

theorem withPush_overflows (a : DWord) (f : State → (Group → Group) → Res) (h : 1040 ≤ g.retDepth) :
    withPush s g a f = raise s 0x06 0 0 := if_pos h

/-- A push while the chip has room (R80). -/
theorem withPush_onChip (a : DWord) (hdepth : g.retDepth < 1040) (hroom : g.ret.length < 16) (hg : s.grp = some g) (dest : DWord) :
    withPush s g a (fun s f => gotoWith s f dest) = endsAt s { g with ret := a :: g.ret } dest := by
  rw [withPush, if_neg (Nat.not_le.mpr hdepth), if_pos hroom, gotoWith_endsAt hg]

/-- A spill leaves the group's return stack on the chip, which the push then changes. -/
theorem ret_of_groupsKept {t : State} {h : Group} (hkept : s.GroupsKept t) (hg : s.grp = some g) (hh : t.grp = some h) :
    h.ret = g.ret := by
  obtain ⟨h', hh', heq⟩ := hkept.grp hg
  cases hh.symm.trans hh'
  exact (congrArg Group.ret heq :)

/-- A push while the chip is full: its oldest entry goes to the spill area (R80). -/
theorem withPush_spills {g2 : Group} {pa : Nat} {mt : Bool} (a : DWord) (hdepth : g.retDepth < 1040) (hfull : 16 ≤ g.ret.length)
    (hg : s.grp = some g)
    (htr : s.translate (coreOf s.cur) (s.ctxId g) (s.spillPlace g g.spill) .write true = .ok s1 pa mt)
    (hpool : s1.poolTrap pa = 0) (hroom : s1.noRoomBehind s1.cur (s1.ctxId g) (s.spillPlace g g.spill) = false)
    (hg2 : (s1.storeFields s.cur (s.spillPlace g g.spill) pa mt [g.ret.getLastD 0]).grp = some g2) (dest : DWord) :
    withPush s g a (fun s f => gotoWith s f dest) =
      endsAt (s1.storeFields s.cur (s.spillPlace g g.spill) pa mt [g.ret.getLastD 0])
        { g2 with ret := a :: g.ret.dropLast, spill := g2.spill + 1, spillK := if g2.spill = 0 then none else g2.spillK } dest := by
  have hret : g2.ret = g.ret :=
    ret_of_groupsKept ((State.groupsKept_translate htr).trans (State.groupsKept_storeFields _ _ _ _ _ _)) hg hg2
  rw [withPush, if_neg (Nat.not_le.mpr hdepth), if_neg (Nat.not_lt.mpr hfull)]
  refine (withSpill_write _ htr hpool hroom).trans ((gotoWith_endsAt hg2 _ dest).trans ?_)
  rw [hret]

/-! ### Pops -/

theorem withPop_empty (f : State → (Group → Group) → DWord → Res) (h : g.ret = []) : withPop s g f = raise s 0x07 0 0 := by
  rw [withPop, h]

theorem withPop_misaligned {b : DWord} {r : List DWord} (f : State → (Group → Group) → DWord → Res) (h : g.ret = b :: r)
    (hal : b.toNat % 4 ≠ 0) : withPop s g f = raise s 0x04 b 0 := by
  simp only [withPop, h, if_pos hal]

/-- A pop whose target is aligned, of a stack above its floor (R95, R393). -/
theorem withPop_aligned {b : DWord} {r : List DWord} (f : State → (Group → Group) → DWord → Res) (h : g.ret = b :: r)
    (hal : b.toNat % 4 = 0) (hfloor : s.floorDepth s.cur g < g.retDepth) :
    withPop s g f = if r.isEmpty && g.spill ≠ 0 then
        withSpill s g (g.spill - 1) .read (fun t pa mt =>
          f (t.takeDw s.cur pa mt).1 (fun g => { g with ret := [(t.takeDw s.cur pa mt).2], spill := g.spill - 1 }) b)
      else f s (fun g => { g with ret := r }) b := by
  simp only [withPop, h, if_neg (not_not.mpr hal), if_neg (Nat.not_le.mpr hfloor)]

end

/-! ### The instructions -/

section
variable {s : State} {g : Group} (hg : s.grp = some g)
include hg

theorem exec_call (o : BitVec 25) :
    exec (.call o) s = withPush s g (g.pc + 4) (fun s f => gotoWith s f (BitVec.ofInt 64 (g.pc.toNat + 4 * o.toInt))) := by
  rw [← pc_add_off25]
  exact withG_some hg _

theorem exec_calli (a : XReg) (h : (g.x a).toNat % 4 = 0) :
    exec (.calli a) s = withPush s g (g.pc + 4) (fun s f => gotoWith s f (g.x a)) :=
  (withG_some hg _).trans (if_neg (not_not.mpr h))

theorem exec_calli_misaligned (a : XReg) (h : (g.x a).toNat % 4 ≠ 0) : exec (.calli a) s = raise s 0x04 (g.x a) 0 :=
  (withG_some hg _).trans (if_pos h)

theorem exec_jmpi (a : XReg) (h : (g.x a).toNat % 4 = 0) : exec (.jmpi a) s = endsAt s g (g.x a) :=
  (withG_some hg _).trans (if_neg (not_not.mpr h))

theorem exec_jmpi_misaligned (a : XReg) (h : (g.x a).toNat % 4 ≠ 0) : exec (.jmpi a) s = raise s 0x04 (g.x a) 0 :=
  (withG_some hg _).trans (if_pos h)

theorem exec_ret : exec .ret s = withPop s g (fun s f a => gotoWith s f a) := withG_some hg _

/-- `ret` while an entry stays on the chip, or none is in the spill area (R80). -/
theorem exec_ret_onChip {b : DWord} {r : List DWord} (h : g.ret = b :: r) (hal : b.toNat % 4 = 0)
    (hfloor : s.floorDepth s.cur g < g.retDepth) (hstays : r ≠ [] ∨ g.spill = 0) :
    exec .ret s = endsAt s { g with ret := r } b := by
  have hno : (r.isEmpty && decide (g.spill ≠ 0)) = false := by
    rcases hstays with hr | hz
    · simp [hr]
    · simp [hz]
  rw [exec_ret hg, withPop_aligned _ h hal hfloor, hno]
  exact gotoWith_endsAt hg _ b

/-- `ret` of the last entry on the chip reads the next back from the spill area (R80). -/
theorem exec_ret_refills {s1 : State} {g2 : Group} {b : DWord} {pa : Nat} {mt : Bool} (h : g.ret = [b]) (hal : b.toNat % 4 = 0)
    (hfloor : s.floorDepth s.cur g < g.retDepth) (hspill : g.spill ≠ 0)
    (htr : s.translate (coreOf s.cur) (s.ctxId g) (s.spillPlace g (g.spill - 1)) .read true = .ok s1 pa mt)
    (hpool : s1.poolTrap pa = 0) (hclear : s1.parkedHit s1.cur (s.spillPlace g (g.spill - 1)) 8 = false)
    (hg2 : (s1.takeDw s.cur pa mt).1.grp = some g2) :
    exec .ret s = endsAt (s1.takeDw s.cur pa mt).1 { g2 with ret := [(s1.takeDw s.cur pa mt).2], spill := g2.spill - 1 } b := by
  have hlast : (([] : List DWord).isEmpty && decide (g.spill ≠ 0)) = true := by simp [hspill]
  rw [exec_ret hg, withPop_aligned _ h hal hfloor, hlast, if_pos rfl, withSpill_read _ htr hpool hclear]
  exact gotoWith_endsAt hg2 _ b

end

/-- Settles O19: a call is a push, on the chip or by way of the spill area, and a `ret` a pop; a spill leaves the group's stack as
it was, since a store keeps the groups (`State.GroupsKept`). -/
theorem callsReturns : Obligations.CallsReturns := by
  unfold Obligations.CallsReturns
  refine ⟨fun s g a o hg => ⟨?onChip, ?spills, ?pops, ?refills, exec_jmpi hg a⟩,
    fun s g a o hg => ⟨?misaligned, ?callFull, ?calliFull, ?empty, ?retMisaligned⟩⟩
  case onChip =>
    intro hdepth hroom
    exact ⟨(exec_call hg o).trans (withPush_onChip _ hdepth hroom hg _),
      fun hal => (exec_calli hg a hal).trans (withPush_onChip _ hdepth hroom hg _)⟩
  case spills =>
    intro s1 g2 pa mt hdepth hfull va htr hpool hroom s2 moved hg2
    have hpush := withPush_spills (g.pc + 4) hdepth hfull hg htr hpool hroom hg2
    exact ⟨(exec_call hg o).trans (hpush _), fun hal => (exec_calli hg a hal).trans (hpush _)⟩
  case pops =>
    intro b r h hal hfloor hstays
    exact exec_ret_onChip hg h hal hfloor hstays
  case refills =>
    intro b s1 g2 pa mt h hal hfloor hspill va htr hpool hclear ld hg2
    exact exec_ret_refills hg h hal hfloor hspill htr hpool hclear hg2
  case misaligned =>
    intro h
    exact ⟨exec_calli_misaligned hg a h, exec_jmpi_misaligned hg a h⟩
  case callFull =>
    intro h
    exact (exec_call hg o).trans (withPush_overflows _ _ h)
  case calliFull =>
    intro h hal
    exact (exec_calli hg a hal).trans (withPush_overflows _ _ h)
  case empty =>
    intro h
    exact (exec_ret hg).trans (withPop_empty _ h)
  case retMisaligned =>
    intro b r h hal
    exact (exec_ret hg).trans (withPop_misaligned _ h hal)

end Sys2Proof.Machine
end

section
/-! Decoding by majors (R37, R47, R50): a word decodes where its fields parse to a well-formed instruction with those fields, so
each major's rows follow from what its fields parse to. -/

namespace Sys2Proof.Machine

open Sys2Proof

theorem wordSA_eq (op : BitVec 7) (d a b : BitVec 6) (fn : BitVec 7) : wordSA op d a b fn = (fSA op d a b fn).word := rfl

theorem wordSI_eq (op : BitVec 7) (d a : BitVec 6) (i : BitVec 13) : wordSI op d a i = (fSI op d a i).word := by
  refine BitVec.eq_of_getLsbD_eq (fun j _ => ?_)
  have hi : i.getLsbD j = (i.extractLsb' 7 6 ++ i.extractLsb' 0 7).getLsbD j :=
    congrArg (BitVec.getLsbD · j) (imm13_fSI op d a i).symm
  simp only [wordSI, fSI, SWord.word, BitVec.getLsbD_append, hi]
  grind

theorem fSA_inj {op op' : BitVec 7} {d a b d' a' b' : BitVec 6} {fn fn' : BitVec 7} :
    fSA op d a b fn = fSA op' d' a' b' fn' ↔ op = op' ∧ d = d' ∧ a = a' ∧ b = b' ∧ fn = fn' := by
  simp only [fSA, SWord.mk.injEq]

theorem fSI_inj {op op' : BitVec 7} {d a d' a' : BitVec 6} {i i' : BitVec 13} :
    fSI op d a i = fSI op' d' a' i' ↔ op = op' ∧ d = d' ∧ a = a' ∧ i = i' := by
  refine ⟨fun h => ?_, fun ⟨hop, hd, ha, hi⟩ => by rw [hop, hd, ha, hi]⟩
  have hi := congrArg SWord.imm13 h
  rw [imm13_fSI, imm13_fSI] at hi
  exact ⟨congrArg SWord.op h, congrArg SWord.d h, congrArg SWord.a h, hi⟩

theorem decoded_of_error {f : SWord} {e : DecodeError} (h : parseScalar f = .error e) : decoded f.word = none := by
  rw [decoded, decodeScalar, SWord.ofWord_word, h]
  rfl

/-- A word whose fields parse to a row decodes to it where the row passes its checks and has those fields (R47). -/
theorem decoded_of_parse {f e : SWord} {i : Instr} (hp : parseScalar f = .ok i) (he : encScalar i = some e) :
    decoded f.word = if i.check = none ∧ e = f then some i else none := by
  rw [decoded, decodeScalar, SWord.ofWord_word, hp]
  cases hc : i.check with
  | some x => simp [Except.toOption, hc]
  | none =>
    by_cases hf : e = f <;> simp [Except.toOption, hc, he, hf]

/-- A row without reserved fields. -/
theorem decoded_row {f : SWord} {i : Instr} (hp : parseScalar f = .ok i) (hc : i.check = none) (he : encScalar i = some f) :
    decoded f.word = some i := (decoded_of_parse hp he).trans (if_pos ⟨hc, rfl⟩)

/-- A row whose reserved fields must be 0, as `p` says. -/
theorem decoded_row_if {f e : SWord} {i : Instr} {p : Prop} [Decidable p] (hp : parseScalar f = .ok i) (hc : i.check = none)
    (he : encScalar i = some e) (h : e = f ↔ p) : decoded f.word = if p then some i else none := by
  rw [decoded_of_parse hp he]
  exact if_congr ((and_iff_right hc).trans h) rfl rfl

theorem ofNat_of_toNat {w n : Nat} {f : BitVec w} (h : f.toNat = n) : f = BitVec.ofNat w n := by
  rw [← h, BitVec.ofNat_toNat, BitVec.setWidth_eq]

/-- Major 0x01 (R83). -/
theorem decoded_alu (d a b : XReg) (f : BitVec 7) : decoded (wordSA 0x01 d a b f) = match f.toNat with
    | 0x00 => some (.add d a b) | 0x01 => some (.sub d a b) | 0x02 => some (.and d a b) | 0x03 => some (.or d a b)
    | 0x04 => some (.xor d a b) | 0x05 => some (.andn d a b) | 0x06 => some (.shl d a b) | 0x07 => some (.shr d a b)
    | 0x08 => some (.sar d a b) | 0x09 => some (.rol d a b) | 0x0a => some (.min d a b) | 0x0b => some (.max d a b)
    | 0x0c => some (.minn d a b) | 0x0d => some (.maxn d a b) | _ => none := by
  split
  case h_15 =>
    refine decoded_of_error (f := fSA 0x01 d a b f) (e := .function) ?_
    change parseAlu _ = _
    unfold parseAlu
    split <;> first | rfl | contradiction
  all_goals
    next hf =>
    rw [ofNat_of_toNat hf]
    exact decoded_row (f := fSA 0x01 d a b _) rfl rfl rfl

/-- Major 0x02 (R84). -/
theorem decoded_mul (d a b : XReg) (f : BitVec 7) : decoded (wordSA 0x02 d a b f) = match f.toNat with
    | 0 => some (.mul d a b) | 1 => some (.mulh d a b) | 2 => some (.mulhn d a b) | 3 => some (.div d a b)
    | 4 => some (.divn d a b) | 5 => some (.rem d a b) | 6 => some (.remn d a b) | _ => none := by
  split
  case h_8 =>
    refine decoded_of_error (f := fSA 0x02 d a b f) (e := .function) ?_
    change parseMul _ = _
    unfold parseMul
    split <;> first | rfl | contradiction
  all_goals
    next hf =>
    rw [ofNat_of_toNat hf]
    exact decoded_row (f := fSA 0x02 d a b _) rfl rfl rfl

/-- The rows of major 0x03 encode with xb = 0. -/
theorem parseBits_reserves {f : SWord} {i : Instr} (h : parseBits f = .ok i) : ∃ e, encScalar i = some e ∧ e.b = 0 := by
  unfold parseBits at h
  split at h
  case h_10 => cases h
  all_goals
    cases h
    exact ⟨_, rfl, rfl⟩

/-- Major 0x03 (R85). -/
theorem decoded_bits (d a b : XReg) (f : BitVec 7) :
    decoded (wordSA 0x03 d a b f) = if b ≠ 0 then none else match f.toNat with
      | 0x00 => some (.clz d a) | 0x01 => some (.ctz d a) | 0x02 => some (.popc d a)
      | 0x10 => some (.sextI8 d a) | 0x11 => some (.sextI16 d a) | 0x12 => some (.sextI32 d a)
      | 0x18 => some (.zextN8 d a) | 0x19 => some (.zextN16 d a) | 0x1a => some (.zextN32 d a) | _ => none := by
  by_cases hb : b = 0
  · subst hb
    rw [if_neg (not_not.mpr rfl)]
    split
    case h_10 =>
      refine decoded_of_error (f := fSA 0x03 d a 0 f) (e := .function) ?_
      change parseBits _ = _
      unfold parseBits
      split <;> first | rfl | contradiction
    all_goals
      next hf =>
      rw [ofNat_of_toNat hf]
      exact decoded_row (f := fSA 0x03 d a 0 _) rfl rfl rfl
  · rw [if_pos hb]
    have hmajor : parseScalar (fSA 0x03 d a b f) = parseBits (fSA 0x03 d a b f) := rfl
    rw [wordSA_eq]
    cases hp : parseBits (fSA 0x03 d a b f) with
    | error e => exact decoded_of_error (hmajor.trans hp)
    | ok i =>
      obtain ⟨e, he, hzero⟩ := parseBits_reserves hp
      refine (decoded_of_parse (hmajor.trans hp) he).trans (if_neg (fun h => hb ?_))
      rw [← hzero, h.2, b_fSA]

/-- Major 0x28 (R87). -/
theorem decoded_set (d a b : XReg) (f : BitVec 7) : decoded (wordSA 0x28 d a b f) = match f.toNat with
      | 0 => some (.seq d a b) | 1 => some (.sne d a b) | 2 => some (.slt d a b) | 3 => some (.sltn d a b)
      | 4 => some (.sle d a b) | 5 => some (.slen d a b) | _ => none := by
  split
  case h_7 =>
    refine decoded_of_error (f := fSA 0x28 d a b f) (e := .function) ?_
    change parseSet _ = _
    unfold parseSet
    split <;> first | rfl | contradiction
  all_goals
    next hf =>
    rw [ofNat_of_toNat hf]
    exact decoded_row (f := fSA 0x28 d a b _) rfl rfl rfl

/-- A 6-bit register number in a 7-bit field leaves the field's top bit 0. -/
theorem sel_field (f : BitVec 7) : (f.truncate 6).zeroExtend 7 = f ↔ f.toNat < 64 := by
  revert f
  decide

/-- A mask register's number in a 6-bit field leaves the field's high bits 0. -/
theorem mask_field (a : BitVec 6) : (a.truncate 3).zeroExtend 6 = a ↔ a.toNat < 8 := by
  revert a
  decide

/-- Major 0x29 (R88). -/
theorem decoded_sel (d a b : XReg) (f : BitVec 7) :
    decoded (wordSA 0x29 d a b f) = if f.toNat < 64 then some (.sel d (BitVec.ofNat 6 f.toNat) a b) else none := by
  rw [BitVec.ofNat_toNat]
  exact decoded_row_if (f := fSA 0x29 d a b f) rfl rfl rfl (fSA_inj.trans (by simp [← sel_field]))

/-- A row of shape SI or SB without reserved fields. -/
theorem decoded_rowSI {op : BitVec 7} {d a : BitVec 6} {o : BitVec 13} {i : BitVec 13 → Instr}
    (hp : parseScalar (fSI op d a o) = .ok (i (fSI op d a o).imm13)) (hc : (i o).check = none)
    (he : encScalar (i o) = some (fSI op d a o)) : decoded (wordSI op d a o) = some (i o) := by
  rw [imm13_fSI] at hp
  rw [wordSI_eq]
  exact decoded_row hp hc he

/-- A row of shape SB whose reserved fields must be 0, as `p` says. -/
theorem decoded_rowSI_if {op : BitVec 7} {d a d' a' : BitVec 6} {o : BitVec 13} {i : BitVec 13 → Instr} {p : Prop} [Decidable p]
    (hp : parseScalar (fSI op d a o) = .ok (i (fSI op d a o).imm13)) (hc : (i o).check = none)
    (he : encScalar (i o) = some (fSI op d' a' o)) (h : d' = d ∧ a' = a ↔ p) :
    decoded (wordSI op d a o) = if p then some (i o) else none := by
  rw [imm13_fSI] at hp
  rw [wordSI_eq]
  exact decoded_row_if hp hc he (fSI_inj.trans (by simpa using h))

/-- Major 0x2a (R89). -/
theorem decoded_adr (d a : XReg) (i : BitVec 13) : decoded (wordSI 0x2a d a i) = some (.adr d a i) :=
  decoded_rowSI (i := .adr d a) rfl rfl rfl

/-- Majors 0x32 to 0x37 (R92). -/
theorem decoded_branches (a b : XReg) (o : BitVec 13) :
    decoded (wordSI 0x32 a b o) = some (.beq a b o) ∧ decoded (wordSI 0x33 a b o) = some (.bne a b o)
    ∧ decoded (wordSI 0x34 a b o) = some (.blt a b o) ∧ decoded (wordSI 0x35 a b o) = some (.bge a b o)
    ∧ decoded (wordSI 0x36 a b o) = some (.bltn a b o) ∧ decoded (wordSI 0x37 a b o) = some (.bgen a b o) :=
  ⟨decoded_rowSI (i := .beq a b) rfl rfl rfl, decoded_rowSI (i := .bne a b) rfl rfl rfl,
    decoded_rowSI (i := .blt a b) rfl rfl rfl, decoded_rowSI (i := .bge a b) rfl rfl rfl,
    decoded_rowSI (i := .bltn a b) rfl rfl rfl, decoded_rowSI (i := .bgen a b) rfl rfl rfl⟩

/-- Majors 0x38 to 0x3a (R92, R93). -/
theorem decoded_zero_branches (a b : XReg) (o : BitVec 13) :
    decoded (wordSI 0x38 a b o) = (if b = 0 then some (.bz a o) else none)
    ∧ decoded (wordSI 0x39 a b o) = (if b = 0 then some (.bnz a o) else none)
    ∧ decoded (wordSI 0x3a a b o) = (if b = 0 then some (.loop a o) else none) := by
  have hb : a = a ∧ (0 : BitVec 6) = b ↔ b = 0 := by tauto
  exact ⟨decoded_rowSI_if (i := .bz a) rfl rfl rfl hb, decoded_rowSI_if (i := .bnz a) rfl rfl rfl hb,
    decoded_rowSI_if (i := .loop a) rfl rfl rfl hb⟩

/-- Majors 0x3b to 0x3d (R94). -/
theorem decoded_mask_branches (a b : XReg) (o : BitVec 13) :
    let j : KReg := BitVec.ofNat 3 a.toNat
    let ok (i : Instr) : Option Instr := if b = 0 ∧ a.toNat < 8 then some i else none
    decoded (wordSI 0x3b a b o) = ok (.bkany j o) ∧ decoded (wordSI 0x3c a b o) = ok (.bkall j o)
      ∧ decoded (wordSI 0x3d a b o) = ok (.bknone j o) := by
  have hb : (a.truncate 3).zeroExtend 6 = a ∧ (0 : BitVec 6) = b ↔ b = 0 ∧ a.toNat < 8 := by
    rw [mask_field]
    tauto
  rw [BitVec.ofNat_toNat]
  exact ⟨decoded_rowSI_if (i := .bkany (a.truncate 3)) rfl rfl rfl hb,
    decoded_rowSI_if (i := .bkall (a.truncate 3)) rfl rfl rfl hb, decoded_rowSI_if (i := .bknone (a.truncate 3)) rfl rfl rfl hb⟩

/-- Major 0x51, fn 0x02 to 0x04 (R100). -/
theorem decoded_activity (d a b : XReg) :
    decoded (wordSA 0x51 d a b 2) = (if d = 0 ∧ b = 0 ∧ a.toNat < 8 then some (.kpush (BitVec.ofNat 3 a.toNat)) else none)
    ∧ decoded (wordSA 0x51 d a b 3) = (if d = 0 ∧ a = 0 ∧ b = 0 then some .kelse else none)
    ∧ decoded (wordSA 0x51 d a b 4) = (if d = 0 ∧ a = 0 ∧ b = 0 then some .kpop else none) := by
  have hpush : fSA 0x51 0 ((a.truncate 3).zeroExtend 6) 0 2 = fSA 0x51 d a b 2 ↔ d = 0 ∧ b = 0 ∧ a.toNat < 8 := by
    rw [fSA_inj, mask_field]
    tauto
  have hnone (fn : BitVec 7) : fSA 0x51 0 0 0 fn = fSA 0x51 d a b fn ↔ d = 0 ∧ a = 0 ∧ b = 0 := by
    rw [fSA_inj]
    tauto
  rw [BitVec.ofNat_toNat]
  exact ⟨decoded_row_if (f := fSA 0x51 d a b 2) rfl rfl rfl hpush, decoded_row_if (f := fSA 0x51 d a b 3) rfl rfl rfl (hnone 3),
    decoded_row_if (f := fSA 0x51 d a b 4) rfl rfl rfl (hnone 4)⟩

/-- A mask register that may be written is one of k1 to k7 (R47, R101). -/
theorem maskOk_truncate (d : BitVec 6) (h : d.toNat < 8) : maskOk (d.truncate 3) = none ↔ d ≠ 0 := by
  revert d
  decide

/-- Major 0x51 from fn 0x05 up (R101). -/
theorem decoded_mask (d a b : XReg) (f : BitVec 7) (hf : 5 ≤ f.toNat) :
    let k (x : XReg) : KReg := BitVec.ofNat 3 x.toNat
    let m (x : XReg) : Bool := decide (x.toNat < 8)
    let w (x : XReg) : Bool := m x && decide (x ≠ 0)
    let one (c : Bool) (i : Instr) : Option Instr := if c then some i else none
    decoded (wordSA 0x51 d a b f) = match f.toNat with
      | 0x05 => one (w d && m a && b = 0) (.kmovKK (k d) (k a)) | 0x06 => one (w d && b = 0) (.kmovKX (k d) a)
      | 0x07 => one (m a && b = 0) (.kmovXK d (k a)) | 0x08 => one (w d && m a && m b) (.kand (k d) (k a) (k b))
      | 0x09 => one (w d && m a && m b) (.kor (k d) (k a) (k b)) | 0x0a => one (w d && m a && m b) (.kxor (k d) (k a) (k b))
      | 0x0b => one (w d && m a && b = 0) (.knot (k d) (k a)) | 0x0c => one (m a && b = 0) (.kpopc d (k a)) | _ => none := by
  intro k m w one
  have hk (x : XReg) : k x = x.truncate 3 := BitVec.ofNat_toNat 3 x
  have hm (x : XReg) : m x = true ↔ (x.truncate 3).zeroExtend 6 = x := by simp only [m, decide_eq_true_eq, mask_field]
  have hw (x : XReg) : w x = true ↔ maskOk (x.truncate 3) = none ∧ (x.truncate 3).zeroExtend 6 = x := by
    rw [mask_field]
    by_cases hx : x.toNat < 8 <;> simp [w, m, hx, maskOk_truncate]
  simp only [hk]
  split
  case h_9 =>
    refine decoded_of_error (f := fSA 0x51 d a b f) (e := .function) ?_
    change parseMask _ = _
    unfold parseMask
    rw [fn_fSA]
    split <;> first | rfl | omega | contradiction
  all_goals
    next hn =>
    rw [ofNat_of_toNat hn]
    refine (decoded_of_parse (f := fSA 0x51 d a b _) rfl rfl).trans (if_congr ?_ rfl rfl)
    simp only [Instr.check, Instr.laneRule, Instr.scalarCheck, fSA_inj, Bool.and_eq_true, hw, hm, decide_eq_true_eq,
      eq_comm (a := (0 : BitVec 6)), and_assoc]
    tauto

end Sys2Proof.Machine
end

section
/-! Scalar arithmetic (R82 to R90): what each row of the arithmetic majors computes, in numbers and in bits, and what it leaves
alone. -/

namespace Sys2Proof.Machine

open Sys2Proof

/-! ### Integer arithmetic in numbers (R82) -/

theorem add_eq_ofInt (x y : DWord) : x + y = BitVec.ofInt 64 (x.toInt + y.toInt) := by
  rw [BitVec.ofInt_add, BitVec.ofInt_toInt, BitVec.ofInt_toInt]

theorem sub_eq_ofInt (x y : DWord) : x - y = BitVec.ofInt 64 (x.toInt - y.toInt) := by
  rw [sub_eq_add_neg x.toInt, BitVec.ofInt_add, BitVec.ofInt_neg, BitVec.ofInt_toInt, BitVec.ofInt_toInt, BitVec.sub_eq_add_neg]

theorem mul_eq_ofInt (x y : DWord) : x * y = BitVec.ofInt 64 (x.toInt * y.toInt) := by
  rw [BitVec.ofInt_mul, BitVec.ofInt_toInt, BitVec.ofInt_toInt]

theorem shlV_eq (x : DWord) (c : Nat) : shlV x c = BitVec.ofNat 64 (x.toNat * 2 ^ c) := by
  apply BitVec.eq_of_toNat_eq
  rw [shlV, BitVec.toNat_shiftLeft, BitVec.toNat_ofNat, Nat.shiftLeft_eq]

theorem shrV_eq (x : DWord) (c : Nat) : shrV x c = BitVec.ofNat 64 (x.toNat / 2 ^ c) := by
  apply BitVec.eq_of_toNat_eq
  rw [shrV, BitVec.toNat_ushiftRight, BitVec.toNat_ofNat, Nat.shiftRight_eq_div_pow,
    Nat.mod_eq_of_lt (Nat.lt_of_le_of_lt (Nat.div_le_self _ _) x.isLt)]

theorem sarV_eq (x : DWord) (c : Nat) : sarV x c = BitVec.ofInt 64 (x.toInt / 2 ^ c) := by
  rw [sarV, BitVec.sshiftRight, Int.shiftRight_eq_div_pow, Nat.cast_pow, Nat.cast_ofNat]

theorem minSigned_eq (x y : DWord) : (if x.slt y then x else y) = BitVec.ofInt 64 (min x.toInt y.toInt) := by
  split
  · next h => rw [min_eq_left (BitVec.slt_iff_toInt_lt.mp h).le, BitVec.ofInt_toInt]
  · next h => rw [min_eq_right (not_lt.mp (mt BitVec.slt_iff_toInt_lt.mpr h)), BitVec.ofInt_toInt]

theorem maxSigned_eq (x y : DWord) : (if x.slt y then y else x) = BitVec.ofInt 64 (max x.toInt y.toInt) := by
  split
  · next h => rw [max_eq_right (BitVec.slt_iff_toInt_lt.mp h).le, BitVec.ofInt_toInt]
  · next h => rw [max_eq_left (not_lt.mp (mt BitVec.slt_iff_toInt_lt.mpr h)), BitVec.ofInt_toInt]

theorem ofNat_toNat_self (x : DWord) : BitVec.ofNat 64 x.toNat = x := by
  rw [BitVec.ofNat_toNat, BitVec.setWidth_eq]

theorem minUnsigned_eq (x y : DWord) : (if x.ult y then x else y) = BitVec.ofNat 64 (min x.toNat y.toNat) := by
  split
  · next h => rw [min_eq_left (BitVec.ult_iff_toNat_lt.mp h).le, ofNat_toNat_self]
  · next h => rw [min_eq_right (not_lt.mp (mt BitVec.ult_iff_toNat_lt.mpr h)), ofNat_toNat_self]

theorem maxUnsigned_eq (x y : DWord) : (if x.ult y then y else x) = BitVec.ofNat 64 (max x.toNat y.toNat) := by
  split
  · next h => rw [max_eq_right (BitVec.ult_iff_toNat_lt.mp h).le, ofNat_toNat_self]
  · next h => rw [max_eq_left (not_lt.mp (mt BitVec.ult_iff_toNat_lt.mpr h)), ofNat_toNat_self]

/-! ### Counts of bits (R85) -/

/-- The significant bits of a number are the least power of 2 above it. -/
theorem bitLen_le_iff (n : Nat) : ∀ w k : Nat, w < 2 ^ n → (bitLen w n ≤ k ↔ w < 2 ^ k) := by
  induction n with
  | zero => intro w k h; simp [bitLen, show w = 0 by simpa using h]
  | succ n ih =>
    intro w k h
    by_cases hw : w = 0
    · simp [bitLen, hw]
    · rw [bitLen, if_neg hw]
      cases k with
      | zero => simp; omega
      | succ k =>
        rw [Nat.add_comm 1, Nat.add_le_add_iff_right, ih (w / 2) k (by rw [pow_succ] at h; omega), pow_succ]
        omega

/-- The trailing zeros of a number are zeros, and a one follows them. -/
theorem trailZ_spec (n : Nat) : ∀ w : Nat, trailZ w n ≤ n ∧ (∀ i < trailZ w n, w.testBit i = false)
    ∧ (trailZ w n < n → w.testBit (trailZ w n) = true) := by
  induction n with
  | zero => intro w; simp [trailZ]
  | succ n ih =>
    intro w
    by_cases hw : w % 2 = 1
    · simp [trailZ, hw, Nat.testBit_zero]
    · obtain ⟨hle, hzero, hone⟩ := ih (w / 2)
      rw [trailZ, if_neg hw, Nat.add_comm 1]
      refine ⟨by omega, fun i hi => ?_, fun h => ?_⟩
      · cases i with
        | zero => simp [Nat.testBit_zero, hw]
        | succ i => rw [Nat.testBit_succ]; exact hzero i (by omega)
      · rw [Nat.testBit_succ]; exact hone (by omega)

/-- The ones of a number, bit by bit. -/
theorem popCount_eq_countP (n : Nat) : ∀ w : Nat, popCount w n = (List.range n).countP (fun i => w.testBit i) := by
  induction n with
  | zero => intro w; rfl
  | succ n ih =>
    intro w
    have htail : (fun i => w.testBit i) ∘ Nat.succ = fun i => (w / 2).testBit i := funext (Nat.testBit_succ w)
    have hhead : (if w.testBit 0 = true then 1 else 0) = w % 2 := by
      rcases Nat.mod_two_eq_zero_or_one w with h | h <;> simp [Nat.testBit_zero, h]
    rw [popCount, List.range_succ_eq_map, List.countP_cons, List.countP_map, ih (w / 2), htail, hhead, Nat.add_comm]

theorem popcV_eq (x : DWord) : popcV x = BitVec.ofNat 64 ((List.range 64).countP (fun i => x.getLsbD i)) := by
  rw [popcV, popCount_eq_countP]
  rfl

/-- The leading zeros are the bits above the significant ones. -/
theorem clzV_spec (x : DWord) : ∃ n : Nat, clzV x = BitVec.ofNat 64 n ∧ n ≤ 64
    ∧ (∀ i < n, x.getMsbD i = false) ∧ (n < 64 → x.getMsbD n = true) := by
  have hle (k : Nat) := bitLen_le_iff 64 x.toNat k x.isLt
  have hlen : bitLen x.toNat 64 ≤ 64 := (hle 64).mpr x.isLt
  have hlt : x.toNat < 2 ^ bitLen x.toNat 64 := (hle _).mp le_rfl
  refine ⟨64 - bitLen x.toNat 64, rfl, by omega, fun i hi => ?_, fun h => ?_⟩
  · have hz : x.toNat.testBit (64 - 1 - i) = false :=
      Nat.testBit_lt_two_pow (Nat.lt_of_lt_of_le hlt (Nat.pow_le_pow_right (by omega) (by omega)))
    rw [BitVec.getMsbD_eq_getLsbD, BitVec.getLsbD, hz, Bool.and_false]
  · have hge : 2 ^ (bitLen x.toNat 64 - 1) ≤ x.toNat := by
      have := mt (hle (bitLen x.toNat 64 - 1)).mpr (by omega)
      omega
    have hone : x.toNat.testBit (bitLen x.toNat 64 - 1) = true := by
      rw [Nat.testBit_eq_decide_div_mod_eq, decide_eq_true_eq]
      have hquot : x.toNat / 2 ^ (bitLen x.toNat 64 - 1) < 2 := by
        rw [Nat.div_lt_iff_lt_mul (by positivity), ← pow_succ', show bitLen x.toNat 64 - 1 + 1 = bitLen x.toNat 64 by omega]
        exact hlt
      have hpos : 0 < x.toNat / 2 ^ (bitLen x.toNat 64 - 1) := Nat.div_pos hge (by positivity)
      omega
    rw [BitVec.getMsbD_eq_getLsbD, BitVec.getLsbD, decide_eq_true (by omega), Bool.true_and,
      show 64 - 1 - (64 - bitLen x.toNat 64) = bitLen x.toNat 64 - 1 by omega, hone]

theorem ctzV_spec (x : DWord) : ∃ n : Nat, ctzV x = BitVec.ofNat 64 n ∧ n ≤ 64
    ∧ (∀ i < n, x.getLsbD i = false) ∧ (n < 64 → x.getLsbD n = true) :=
  ⟨trailZ x.toNat 64, rfl, trailZ_spec 64 x.toNat⟩

/-- The low `n` bits of a word, zero-extended (R85). -/
theorem zextV_eq (n : Nat) (x : DWord) : zextV n x = BitVec.ofNat 64 (x.toNat % 2 ^ n) := by
  rw [zextV, BitVec.truncate_eq_setWidth, BitVec.zeroExtend_eq_setWidth, ← BitVec.ofNat_toNat, BitVec.toNat_setWidth]

/-! ### Immediates, truth values and addresses (R86 to R90) -/

theorem addImm_eq (x : DWord) (i : BitVec 13) : x + se13 i = BitVec.ofInt 64 (x.toInt + i.toInt) := by
  rw [BitVec.ofInt_add, BitVec.ofInt_toInt]
  rfl

theorem ze13_eq (i : BitVec 13) : ze13 i = BitVec.ofNat 64 i.toNat := by
  rw [ze13, BitVec.zeroExtend_eq_setWidth, ← BitVec.ofNat_toNat]

theorem boolV_eq {p : Bool} {q : Prop} [Decidable q] (h : p = true ↔ q) : boolV p = if q then 1 else 0 :=
  if_congr h rfl rfl

/-- A canonical address repeats its bit 56 above (R89). -/
theorem getLsbD_signExt57 (v : DWord) (j : Nat) (hj : j < 64) : (signExt57 v).getLsbD j = v.getLsbD (min j 56) := by
  rw [signExt57, BitVec.getLsbD_signExtend, decide_eq_true hj, Bool.true_and]
  split
  · next h => rw [BitVec.truncate_eq_setWidth, BitVec.getLsbD_setWidth, decide_eq_true h, Bool.true_and, min_eq_left (by omega)]
  · next h => rw [BitVec.msb_eq_getLsbD_last, BitVec.truncate_eq_setWidth, BitVec.getLsbD_setWidth, min_eq_right (by omega)]; rfl

/-- A word offset of 13 bits from a PC (R38). -/
theorem pc_add_off13 (pc : DWord) (o : BitVec 13) : pc + off13 o = BitVec.ofInt 64 (pc.toNat + 4 * o.toInt) := by
  rw [BitVec.ofInt_add, BitVec.ofInt_natCast, ofNat_toNat_self, BitVec.ofInt_mul, BitVec.mul_comm]
  rfl

/-! ### The instructions -/

/-- An instruction that computes one scalar register ends with the value in it. -/
theorem alu_of_value {s : State} {g : Group} (hg : s.grp = some g) (d : XReg) {f : Group → DWord} {v : DWord} (h : f g = v) :
    alu s d f = ends s (g.setX d v) := (alu_ends hg d f).trans (by rw [h])

/-- Settles O11: the rows of major 0x01, and each row's value in numbers. -/
theorem integerRows : Obligations.IntegerRows := by
  unfold Obligations.IntegerRows
  refine ⟨decoded_alu, fun s g d a b hg => ?_⟩
  have row {f : Group → DWord} {v : DWord} (h : f g = v) := alu_of_value hg d h
  exact ⟨row (add_eq_ofInt _ _), row (sub_eq_ofInt _ _), row rfl, row rfl, row rfl, row rfl, row (shlV_eq _ _), row (shrV_eq _ _),
    row (sarV_eq _ _), row rfl, row (minSigned_eq _ _), row (maxSigned_eq _ _), row (minUnsigned_eq _ _),
    row (maxUnsigned_eq _ _)⟩

/-- Settles O12: the rows of major 0x02, and each row's value in numbers. -/
theorem multiplyDivide : Obligations.MultiplyDivide := by
  unfold Obligations.MultiplyDivide
  refine ⟨decoded_mul, fun s g d a b hg => ?_⟩
  have row {f : Group → DWord} {v : DWord} (h : f g = v) := alu_of_value hg d h
  exact ⟨row (mul_eq_ofInt _ _), row rfl, row rfl, row rfl, row rfl, row rfl, row rfl⟩

/-- Settles O13: the rows of major 0x03, the counts from what they say of the bits of xa. -/
theorem countsExtends : Obligations.CountsExtends := by
  unfold Obligations.CountsExtends
  refine ⟨decoded_bits, fun s g d a hg => ?_⟩
  have row {f : Group → DWord} {v : DWord} (h : f g = v) := alu_of_value hg d h
  obtain ⟨n, hclz, hn⟩ := clzV_spec (g.x a)
  obtain ⟨m, hctz, hm⟩ := ctzV_spec (g.x a)
  exact ⟨⟨n, row hclz, hn⟩, ⟨m, row hctz, hm⟩, row (popcV_eq _), row rfl, row rfl, row rfl, row (zextV_eq 8 _),
    row (zextV_eq 16 _), row (zextV_eq 32 _)⟩

/-- Settles O14: each immediate row's value, with its sign- or zero-extended immediate. -/
theorem immediates : Obligations.Immediates := by
  unfold Obligations.Immediates
  intro s g d a i n hg x ze res
  have row {f : Group → DWord} {v : DWord} (h : f g = v) := alu_of_value hg d h
  have hze : ze13 i = ze := ze13_eq i
  exact ⟨row (addImm_eq _ i), row (congrArg (g.x a &&& ·) hze), row (congrArg (g.x a ||| ·) hze),
    row (congrArg (g.x a ^^^ ·) hze), row (shlV_eq _ _), row (shrV_eq _ _), row (sarV_eq _ _),
    row (congrArg₂ (· ||| ·) (shlV_eq _ 13) hze)⟩

/-- Settles O15: the rows of majors 0x28 to 0x2a, each relation as the comparison of numbers that it is. -/
theorem comparesAddresses : Obligations.ComparesAddresses := by
  unfold Obligations.ComparesAddresses
  refine ⟨fun d a b f i => ⟨decoded_set d a b f, decoded_sel d a b f, decoded_adr d a i⟩, fun s g d a b c i hg => ?_⟩
  have row {f : Group → DWord} {v : DWord} (h : f g = v) := alu_of_value hg d h
  refine ⟨row (boolV_eq beq_iff_eq), row (boolV_eq bne_iff_ne), row (boolV_eq BitVec.slt_iff_toInt_lt),
    row (boolV_eq BitVec.ult_iff_toNat_lt), row (boolV_eq BitVec.sle_iff_toInt_le), row (boolV_eq BitVec.ule_iff_toNat_le), row rfl,
    ⟨_, row rfl, fun j hj => ?_⟩, row (pc_add_off13 _ i)⟩
  rw [getLsbD_signExt57 _ j hj, addImm_eq]

/-- Every instruction that computes one scalar register ends with a value in it, and changes nothing else (R83 to R90). -/
theorem exec_scalarDest {s : State} {g : Group} {i : Instr} {d : XReg} (hg : s.grp = some g) (hd : scalarDest i = some d) :
    ∃ v, exec i s = ends s (g.setX d v) := by
  unfold scalarDest at hd
  split at hd
  case h_48 => cases hd
  all_goals
    cases hd
    exact ⟨_, alu_ends hg d _⟩

/-- Settles O7: an instruction that computes one scalar register sets it, goes on, and writes its group back. -/
theorem scalarFrame : Obligations.ScalarFrame := by
  unfold Obligations.ScalarFrame
  intro s t g i d hd hg ht
  obtain ⟨v, hv⟩ := exec_scalarDest hg hd
  rw [hv] at ht
  cases ht
  refine ⟨_, State.grp_setGrp _ _, fun r hr => ?_, ?_, fun k hk => ?_, fun _ => rfl, fun _ _ => rfl, rfl⟩
  · exact (g.x_setX d r v).trans (if_neg (fun h => hr h.1))
  · rw [Group.setX_frame]
  · exact (find_put s.groups s.cur k _).trans (if_neg hk)

end Sys2Proof.Machine
end

section
/-! Branches, the activity stack, the mask operations and the lane-stream controls (R91 to R94, R96 to R101), with the interlock on
mask registers that enqueued lane instructions name (R74). -/

namespace Sys2Proof.Machine

open Sys2Proof

section
variable {s : State} {g : Group} (hg : s.grp = some g)
include hg

/-! ### Branches -/

/-- A conditional branch goes to the address of the branch plus 4 × off13 where its condition holds (R92). -/
theorem branch_of_cond (o : BitVec 13) {c : Group → Bool} {p : Prop} [Decidable p] (h : c g = true ↔ p) :
    branch s o c = if p then endsAt s g (BitVec.ofInt 64 (g.pc.toNat + 4 * o.toInt)) else ends s g := by
  rw [← pc_add_off13]
  exact (withG_some hg _).trans (if_congr h rfl rfl)

theorem exec_b (o : BitVec 25) : exec (.b o) s = endsAt s g (BitVec.ofInt 64 (g.pc.toNat + 4 * o.toInt)) := by
  rw [← pc_add_off25]
  exact withG_some hg _

theorem exec_loop (a : XReg) (o : BitVec 13) :
    exec (.loop a o) s = if g.x a - 1 ≠ 0 then endsAt s (g.setX a (g.x a - 1)) (BitVec.ofInt 64 (g.pc.toNat + 4 * o.toInt))
      else ends s (g.setX a (g.x a - 1)) := by
  rw [← pc_add_off13]
  exact withG_some hg _

/-- A mask branch tests the stack top ANDed with the live lanes, once no enqueued lane instruction names its register (R74, R94). -/
theorem maskBranch_of_cond (j : KReg) (o : BitVec 13) {c : DWord → DWord → Bool} {p : Prop} [Decidable p]
    (hfree : g.kFree j = true) (h : c (g.top &&& g.k0) (g.k j) = true ↔ p) :
    maskBranch s j o c = if p then endsAt s g (BitVec.ofInt 64 (g.pc.toNat + 4 * o.toInt)) else ends s g :=
  (withG_some hg _).trans ((needK_free s g j _ hfree).trans (branch_of_cond hg o h))

theorem maskBranch_waits (j : KReg) (o : BitVec 13) (c : DWord → DWord → Bool) (hbusy : g.kFree j = false)
    (hfrozen : g.frozen = false) (hpush : blockedPush g = false) : maskBranch s j o c = .next s :=
  (withG_some hg _).trans ((needK_waits s g j _ hbusy).trans (waitLane_next s g hfrozen hpush))

end

theorem exec_bkany (s : State) (j : KReg) (o : BitVec 13) :
    exec (.bkany j o) s = maskBranch s j o (fun a k => a &&& k != 0) := rfl

theorem exec_bkall (s : State) (j : KReg) (o : BitVec 13) :
    exec (.bkall j o) s = maskBranch s j o (fun a k => a &&& ~~~k == 0) := rfl

theorem exec_bknone (s : State) (j : KReg) (o : BitVec 13) :
    exec (.bknone j o) s = maskBranch s j o (fun a k => a &&& k == 0) := rfl

theorem not_slt_iff (x y : DWord) : (!x.slt y) = true ↔ y.toInt ≤ x.toInt := by
  rw [Bool.not_eq_true', ← Bool.not_eq_true, BitVec.slt_iff_toInt_lt, not_lt]

theorem not_ult_iff (x y : DWord) : (!x.ult y) = true ↔ y.toNat ≤ x.toNat := by
  rw [Bool.not_eq_true', ← Bool.not_eq_true, BitVec.ult_iff_toNat_lt, not_lt]

/-- Settles O16: the rows of majors 0x32 to 0x3d, each branch by its condition, a mask branch after its interlock. -/
theorem branches : Obligations.Branches := by
  unfold Obligations.Branches
  refine ⟨?encodings, ?conditional, ?free, ?waits⟩
  case encodings =>
    intro a b o
    obtain ⟨heq, hne, hlt, hge, hltn, hgen⟩ := decoded_branches a b o
    obtain ⟨hz, hnz, hloop⟩ := decoded_zero_branches a b o
    exact ⟨heq, hne, hlt, hge, hltn, hgen, hz, hnz, hloop, decoded_mask_branches a b o⟩
  case conditional =>
    intro s g a b o p hg
    exact ⟨exec_b hg p, branch_of_cond hg o beq_iff_eq, branch_of_cond hg o bne_iff_ne,
      branch_of_cond hg o BitVec.slt_iff_toInt_lt, branch_of_cond hg o (not_slt_iff _ _),
      branch_of_cond hg o BitVec.ult_iff_toNat_lt, branch_of_cond hg o (not_ult_iff _ _), branch_of_cond hg o beq_iff_eq,
      branch_of_cond hg o bne_iff_ne, exec_loop hg a o⟩
  case free =>
    intro s g j o hg hfree
    rw [exec_bkany, exec_bkall, exec_bknone]
    exact ⟨maskBranch_of_cond hg j o hfree bne_iff_ne, maskBranch_of_cond hg j o hfree beq_iff_eq,
      maskBranch_of_cond hg j o hfree beq_iff_eq⟩
  case waits =>
    intro s g j o hg hbusy hfrozen hpush
    rw [exec_bkany, exec_bkall, exec_bknone]
    exact ⟨maskBranch_waits hg j o _ hbusy hfrozen hpush, maskBranch_waits hg j o _ hbusy hfrozen hpush,
      maskBranch_waits hg j o _ hbusy hfrozen hpush⟩

/-! ### The activity stack (R100) -/

section
variable {s : State} {g : Group} (hg : s.grp = some g)
include hg

theorem exec_kpush (j : KReg) (hfree : g.kFree j = true) :
    exec (.kpush j) s = if 32 ≤ g.act.length then raise s 0x09 0 0 else ends s { g with act := (g.top &&& g.k j) :: g.act } :=
  (withG_some hg _).trans (needK_free s g j _ hfree)

theorem exec_kpush_waits (j : KReg) (hbusy : g.kFree j = false) (hfrozen : g.frozen = false) (hpush : blockedPush g = false) :
    exec (.kpush j) s = .next s :=
  (withG_some hg _).trans ((needK_waits s g j _ hbusy).trans (waitLane_next s g hfrozen hpush))

theorem exec_pops_empty (h : g.act = []) : exec .kelse s = raise s 0x0a 0 0 ∧ exec .kpop s = raise s 0x0a 0 0 := by
  constructor
  all_goals
    refine (withG_some hg _).trans ?_
    simp only [h]

/-- The entry below the top is the live lanes where the stack holds no other (R76). -/
theorem exec_kelse {t : DWord} {r : List DWord} (h : g.act = t :: r) :
    exec .kelse s = ends s { g with act := (r.headD g.k0 &&& ~~~t) :: r } := by
  refine (withG_some hg _).trans ?_
  simp only [h]
  cases r <;> rfl

theorem exec_kpop {t : DWord} {r : List DWord} (h : g.act = t :: r) : exec .kpop s = ends s { g with act := r } := by
  refine (withG_some hg _).trans ?_
  simp only [h]
  rfl

end

/-- Settles O17: the rows of `kpush`, `kelse` and `kpop`, and each by the depth of the stack. -/
theorem activityStack : Obligations.ActivityStack := by
  unfold Obligations.ActivityStack
  refine ⟨decoded_activity, fun s g j hg => ⟨exec_kpush_waits hg j, ?pushes, ?overflows, exec_pops_empty hg, ?pops⟩⟩
  case pushes =>
    intro hfree hroom
    exact (exec_kpush hg j hfree).trans (if_neg (Nat.not_le.mpr hroom))
  case overflows =>
    intro hfree hfull
    exact (exec_kpush hg j hfree).trans (if_pos hfull)
  case pops =>
    intro t r h
    exact ⟨exec_kelse hg h, exec_kpop hg h⟩

/-! ### Mask operations (R101) -/

/-- An instruction that names several mask registers goes on when all are free, and waits while one is not (R74). -/
theorem needK_each (s : State) (g : Group) (ks : List KReg) (r : Res) :
    ((∀ j ∈ ks, g.kFree j = true) → ks.foldr (needK s g) r = r)
    ∧ ((∃ j ∈ ks, g.kFree j = false) → g.frozen = false → blockedPush g = false → ks.foldr (needK s g) r = .next s) := by
  induction ks with
  | nil => exact ⟨fun _ => rfl, fun ⟨j, hj, _⟩ => absurd hj List.not_mem_nil⟩
  | cons k ks ih =>
    rw [List.foldr_cons, List.forall_mem_cons, List.exists_mem_cons_iff]
    refine ⟨fun ⟨hk, hks⟩ => (needK_free s g k _ hk).trans (ih.1 hks), fun h hfrozen hpush => ?_⟩
    cases hk : g.kFree k with
    | false => exact (needK_waits s g k _ hk).trans (waitLane_next s g hfrozen hpush)
    | true =>
      refine (needK_free s g k _ hk).trans (ih.2 (h.resolve_left fun hbusy => ?_) hfrozen hpush)
      simp [hk] at hbusy

/-- Settles O18: the rows from fn 0x05 up, each operation after the interlock on the registers it names, and what a written mask
register holds. -/
theorem maskOperations : Obligations.MaskOperations := by
  unfold Obligations.MaskOperations
  refine ⟨decoded_mask, fun s g d a b x hg => ?_, fun g d v hd => ?_, Group.getLsbD_wMask⟩
  · have row {i : Instr} (ks : List KReg) (r : Res) (h : exec i s = ks.foldr (needK s g) r) :
        ((∀ j ∈ ks, g.kFree j = true) → exec i s = r)
        ∧ ((∃ j ∈ ks, g.kFree j = false) → g.frozen = false → blockedPush g = false → exec i s = .next s) := by
      rw [h]
      exact needK_each s g ks r
    refine ⟨row [d, a] _ (withG_some hg _), row [d] _ (withG_some hg _), row [a] _ (withG_some hg _),
      row [d, a, b] _ (withG_some hg _), row [d, a, b] _ (withG_some hg _), row [d, a, b] _ (withG_some hg _),
      row [d, a] _ (withG_some hg _), row [a] _ ((withG_some hg _).trans ?_)⟩
    exact congrArg (fun v => needK s g a (ends s (g.setX x v))) (popcV_eq (g.k a))
  · rw [g.k_setK d d v, if_pos ⟨rfl, hd⟩]

/-! ### Lane-stream control (R96 to R98) -/

section
variable {s : State} {g : Group} (hg : s.grp = some g)
include hg

theorem exec_lrun {s1 : State} {ws : List Word} {w : Bool} (count : BitVec 6) (off : BitVec 19)
    (hroom : g.laneQ.length + (count.toNat + 1) ≤ 256)
    (hfetch : s.fetchWords s.cur g (g.lbase + BitVec.ofNat 64 (12 * off.toNat)) (3 * (count.toNat + 1)) [] = (s1, some ws, w)) :
    exec (.lrun count off) s = ends s1 { g with laneQ := g.laneQ ++ mkEntries g 0 (laneWords ws) } := by
  refine (withG_some hg _).trans ((if_neg (Nat.not_lt.mpr hroom)).trans ?_)
  simp only [hfetch]
  rfl

theorem exec_lsync (hidle : g.laneBusy = false) :
    exec .lsync s = if s.laneQuiet s.cur g = true then ends s g else .next s :=
  (withG_some hg _).trans (if_neg (by rw [hidle]; exact Bool.false_ne_true))

theorem exec_dpop_frozen (d : XReg) (htrap : g.tclass = true) (hfrozen : g.frozen = true) :
    exec (.dpop d) s = .next (s.doubleFault s.cur) :=
  (withG_some hg _).trans (if_pos (by rw [htrap, hfrozen]; rfl))

theorem exec_dpop (d : XReg) {v : DWord} {r : List DWord} (hruns : g.tclass = false ∨ g.frozen = false) (h : g.decQ = v :: r) :
    exec (.dpop d) s = ends s ({ g with decQ := r }.setX d v) := by
  have hno : ¬(g.tclass && g.frozen) = true := by rcases hruns with h | h <;> simp [h]
  refine (withG_some hg _).trans ((if_neg hno).trans ?_)
  simp only [h]
  rfl

end

/-- Settles O20: `lrun` by its fetch, `lsync` by what the lane stream has left to do, `dpop` by the decision queue. -/
theorem laneStreamControl : Obligations.LaneStreamControl := by
  unfold Obligations.LaneStreamControl
  intro s g count off d hg
  exact ⟨fun s1 ws w => exec_lrun hg count off, fun hidle hquiet => (exec_lsync hg hidle).trans (if_pos hquiet),
    fun hidle hbusy => (exec_lsync hg hidle).trans (if_neg (by rw [hbusy]; exact Bool.false_ne_true)), exec_dpop_frozen hg d,
    fun v r => exec_dpop hg d⟩

end Sys2Proof.Machine
end

section
/-! Scalar loads (R102, R103) and the traps of scalar accesses: what the checks of an access answer, what an access does with each
answer, and when the data of a load arrive. -/

namespace Sys2Proof.Machine

open Sys2Proof

/-- The address of a scalar access: its base and its scaled immediate (R38, R102). -/
theorem add_off9 (x : DWord) (i : BitVec 9) (n : Nat) : x + off9 i n = BitVec.ofInt 64 (x.toInt + i.toInt * n) := by
  rw [BitVec.ofInt_add, BitVec.ofInt_toInt, BitVec.ofInt_mul, BitVec.ofInt_natCast]
  rfl

/-! ### The accesses of 4 and 8 bytes -/

/-- The value of a load of `n` bytes: a 32-bit one is sign-extended (R102). -/
def loadExt (n : Nat) : Nat → DWord := if n = 8 then id64 else sx32

theorem loadExt_eq (n v : Nat) : loadExt n v = if n = 8 then BitVec.ofNat 64 v else (BitVec.ofNat 32 v).signExtend 64 := by
  unfold loadExt
  split <;> rfl

section
variable {n : Nat} (hn : n = 4 ∨ n = 8) (s : State) (d a : XReg) (la : BitVec 4) (i : BitVec 9)
include hn

theorem exec_load : exec (if n = 8 then .ldx d a la i else .ldxI32 d a la i) s = loadGlobal s d a (off9 i n) n (loadExt n) := by
  rcases hn with rfl | rfl <;> rfl

theorem exec_loadSpad : exec (if n = 8 then .ldxs d a la i else .ldxsI32 d a la i) s
    = loadScratch s d a (off9 i n) n (loadExt n) := by
  rcases hn with rfl | rfl <;> rfl

theorem exec_store : exec (if n = 8 then .stx d a i else .stxB32 d a i) s = storeGlobal s d a (off9 i n) n := by
  rcases hn with rfl | rfl <;> rfl

theorem exec_storeSpad : exec (if n = 8 then .stxs d a i else .stxsB32 d a i) s = storeScratch s d a (off9 i n) n := by
  rcases hn with rfl | rfl <;> rfl

end

/-! ### The checks of a global access -/

section
variable {s s1 : State} {k : Nat} {g : Group} {va : DWord} {n al pa : Nat} {w lock mt : Bool}

theorem chkGlobal_noncanonical (h : (va.truncate 57).signExtend 64 ≠ va) :
    s.chkGlobal k g va n al w lock = .trap s 0x10 (wInfo w) := if_pos (by simpa [canonical] using h)

theorem chkGlobal_canonical (h : (va.truncate 57).signExtend 64 = va) : s.chkGlobal k g va n al w lock =
    if va.toNat % al ≠ 0 then .trap s 0x12 (wInfo w) else s.chkPage k g va n w lock (fun _ => true) :=
  if_neg (by simpa [canonical] using h)

theorem chkPage_fault {perm : Nat → Bool} (h : s.translate (coreOf k) (s.ctxId g) va (if w then .write else .read) g.tclass = .fault s1) :
    s.chkPage k g va n w lock perm = .trap s1 0x10 (wInfo w) := by
  simp only [State.chkPage, h]

/-- A page that waits does not keep a registered range from being found (log 61). -/
theorem chkPage_wait_locked {perm : Nat → Bool}
    (h : s.translate (coreOf k) (s.ctxId g) va (if w then .write else .read) g.tclass = .wait s1)
    (hlock : s1.lockedG (coreOf k) (s1.ctxId g) va n w = true) :
    s.chkPage k g va n w true perm = .trap s1 0x13 (wInfo w) := by
  simp [State.chkPage, h, hlock]

theorem chkPage_ok {perm : Nat → Bool}
    (h : s.translate (coreOf k) (s.ctxId g) va (if w then .write else .read) g.tclass = .ok s1 pa mt) :
    s.chkPage k g va n w lock perm = s1.chkPlace k g va n w lock perm pa mt := by
  simp only [State.chkPage, h]

theorem chkPlace_pool (h : s.poolTrap pa ≠ 0) : s.chkPlace k g va n w lock (fun _ => true) pa mt =
    .trap s (BitVec.ofNat 8 (s.poolTrap pa))
      (if s.poolTrap pa = 0x14 then wInfo w ||| BitVec.ofNat 64 ((poolOf pa).getD 0 * 65536) else wInfo w) := by
  simp [State.chkPlace, h]

theorem chkPlace_locked (h : s.poolTrap pa = 0) (hlock : s.lockedG (coreOf k) (s.ctxId g) va n w = true) :
    s.chkPlace k g va n w true (fun _ => true) pa mt = .trap s 0x13 (wInfo w) := by
  simp [State.chkPlace, h, hlock]

end

/-! ### The checks of a scratchpad access -/

section
variable {s : State} {g : Group} {va : DWord} {n t o : Nat} {w : Bool}

/-- A scratchpad address has no bit above 31 (R211). -/
theorem spadRange_high (h : 2 ^ 32 ≤ va.toNat) : s.spadRange g va n = none :=
  if_pos (Nat.ne_of_gt (Nat.div_pos h (by positivity)))

theorem chkSpad_outside (h : s.spadRange g va n = none) : s.chkSpad g va n w = .trap 0x11 := by
  simp only [State.chkSpad, h]

theorem chkSpad_inside (h : s.spadRange g va n = some (t, o)) : s.chkSpad g va n w =
    if va.toNat % n ≠ 0 then .trap 0x12 else if s.lockedS (coreOf s.cur) (s.ctxId g) t o n w then .trap 0x13 else .ok t o := by
  simp only [State.chkSpad, h]

end

/-! ### What an access does with the answer of its checks -/

section
variable {s : State} {g : Group} (hg : s.grp = some g) {d a : XReg} {off : DWord} {n : Nat} {ext : Nat → DWord}
include hg

theorem loadGlobal_trap {s1 : State} {num : BitVec 8} {i : DWord}
    (h : s.chkGlobal s.cur g (g.x a + off) n n false true = .trap s1 num i) :
    loadGlobal s d a off n ext = raise s1 num (g.x a + off) i := by
  refine (withG_some hg _).trans ?_
  simp only [h]

theorem storeGlobal_trap {s1 : State} {num : BitVec 8} {i : DWord}
    (h : s.chkGlobal s.cur g (g.x a + off) n n true true = .trap s1 num i) :
    storeGlobal s d a off n = raise s1 num (g.x a + off) i := by
  refine (withG_some hg _).trans ?_
  simp only [h]

theorem loadScratch_trap {num : BitVec 8} (h : s.chkSpad g (g.x a + off) n false = .trap num) :
    loadScratch s d a off n ext = raise s num (g.x a + off) 0 := by
  refine (withG_some hg _).trans ?_
  simp only [h]

theorem storeScratch_trap {num : BitVec 8} (h : s.chkSpad g (g.x a + off) n true = .trap num) :
    storeScratch s d a off n = raise s num (g.x a + off) 256 := by
  refine (withG_some hg _).trans ?_
  simp only [h]

theorem loadGlobal_ok {s1 : State} {pa : Nat} {mt : Bool} (h : s.chkGlobal s.cur g (g.x a + off) n n false true = .ok s1 pa mt)
    (hclear : s1.parkedHit s1.cur (g.x a + off) n = false) :
    loadGlobal s d a off n ext = finishLoad (s1.loadN s1.cur pa n mt).1 (pathOfPa pa) (s1.loadN s1.cur pa n mt).2.2 [pa / 4]
      [(d, ext (s1.loadN s1.cur pa n mt).2.1)] := by
  refine (withG_some hg _).trans ?_
  simp only [h, hclear, Bool.false_eq_true, if_false]

theorem loadScratch_ok {t o : Nat} (h : s.chkSpad g (g.x a + off) n false = .ok t o) (hclear : s.spadAtomHit g t o n = false) :
    loadScratch s d a off n ext = finishLoad s (spadPath s.cur t) (s.loadSpad t o n).2 [] [(d, ext (s.loadSpad t o n).1)] := by
  refine (withG_some hg _).trans ?_
  simp only [h, hclear, Bool.false_eq_true, if_false]

end

/-! ### The data of a load -/

section
variable {s : State} {p : Path} {pois : Bool} {words : List Nat} {d : XReg} {v : DWord} {g2 : Group}
  (hg : (s.countAcc s.cur p).2.grp = some g2)
include hg

/-- The data arrive at once, with the poison they bring consumed (R217, R391). -/
theorem finishLoad_now {g3 : Group} (hnow : g2.late = false)
    (hg3 : ((s.countAcc s.cur p).2.consumeIf (s.countAcc s.cur p).2.cur pois).grp = some g3) :
    finishLoad s p pois words [(d, v)] =
      ends ((s.countAcc s.cur p).2.consumeIf (s.countAcc s.cur p).2.cur pois) (g3.setX d v) :=
  (withG_some hg _).trans ((if_neg (by rw [hnow]; exact Bool.false_ne_true)).trans (doneWith_ends hg3 _))

/-- The data arrive in a later step (R56, R217). -/
theorem finishLoad_later (hlate : g2.late = true) :
    finishLoad s p pois words [(d, v)] = ends (s.countAcc s.cur p).2
      { g2 with infl := g2.infl ++ [{ lane := false, path := p, seq := (s.countAcc s.cur p).1, pois := pois, words := words
                                      writes := [.x d.toNat v] }] } :=
  (withG_some hg _).trans (if_pos hlate)

end

/-- Settles O22: a load that passes its checks reads its bytes, counts its access and delivers the value, now or later. -/
theorem scalarLoads : Obligations.ScalarLoads := by
  unfold Obligations.ScalarLoads
  refine ⟨?global, ?scratchpad⟩
  case global =>
    intro s s1 g g2 d a la i n pa mt hg hn va hchk hclear ld s2 seq v out hg2
    have hva : g.x a + off9 i n = va := add_off9 _ i n
    have hout : out = finishLoad ld.1 (pathOfPa pa) ld.2.2 [pa / 4] [(d, v)] := by
      rw [← hva] at hchk hclear
      have hv : loadExt n ld.2.1 = v := loadExt_eq n _
      rw [← hv]
      exact (exec_load hn s d a la i).trans (loadGlobal_ok hg hchk hclear)
    exact ⟨fun g3 hnow hg3 => hout.trans (finishLoad_now hg2 hnow hg3), fun hlate => hout.trans (finishLoad_later hg2 hlate)⟩
  case scratchpad =>
    intro s g g2 d a la i n t o hg hn va hchk hclear ld s2 seq v out hg2
    have hva : g.x a + off9 i n = va := add_off9 _ i n
    have hout : out = finishLoad s (spadPath s.cur t) ld.2 [] [(d, v)] := by
      rw [← hva] at hchk
      have hv : loadExt n ld.1 = v := loadExt_eq n _
      rw [← hv]
      exact (exec_loadSpad hn s d a la i).trans (loadScratch_ok hg hchk hclear)
    exact ⟨fun g3 hnow hg3 => hout.trans (finishLoad_now hg2 hnow hg3), fun hlate => hout.trans (finishLoad_later hg2 hlate)⟩

/-- Settles O24: the checks of an access answer each trap in the order of R103, and the access raises what they answer. -/
theorem accessTraps : Obligations.AccessTraps := by
  unfold Obligations.AccessTraps
  intro s g d a la i n hg hn va canon ld st lds sts global spad
  have hva : g.x a + off9 i n = va := add_off9 _ i n
  have hglobal {w : Bool} {op : Instr}
      (hop : ∀ s1 num j, s.chkGlobal s.cur g va n n w true = .trap s1 num j → exec op s = raise s1 num va j) : global w op := by
    have hpage (hc : canon) (hal : va.toNat % n = 0) : s.chkGlobal s.cur g va n n w true = s.chkPage s.cur g va n w true _ :=
      (chkGlobal_canonical hc).trans (if_neg (not_not.mpr hal))
    refine ⟨fun hc => hop _ _ _ (chkGlobal_noncanonical hc), fun hc hal => hop _ _ _ ((chkGlobal_canonical hc).trans (if_pos hal)),
      fun hc hal => ⟨fun s1 hgo => hop _ _ _ ((hpage hc hal).trans (chkPage_fault hgo)),
        fun s1 hgo hlock => hop _ _ _ ((hpage hc hal).trans (chkPage_wait_locked hgo hlock)),
        fun s1 pa mt hgo => ⟨fun hpool => ?_, fun hpool hlock => ?_⟩⟩⟩
    · exact hop _ _ _ ((hpage hc hal).trans ((chkPage_ok hgo).trans (chkPlace_pool hpool)))
    · exact hop _ _ _ ((hpage hc hal).trans ((chkPage_ok hgo).trans (chkPlace_locked hpool hlock)))
  have hspad {w : Bool} {op : Instr}
      (hop : ∀ num, s.chkSpad g va n w = .trap num → exec op s = raise s num va (wInfo w)) : spad w op := by
    refine ⟨fun hhigh => hop _ (chkSpad_outside (spadRange_high hhigh)), fun hout => hop _ (chkSpad_outside hout),
      fun t o hin => ⟨fun hal => hop _ ((chkSpad_inside hin).trans (if_pos hal)), fun hal hlock => hop _ ?_⟩⟩
    exact (chkSpad_inside hin).trans ((if_neg (not_not.mpr hal)).trans (if_pos hlock))
  refine ⟨hglobal ?load, hglobal ?store, hspad ?loadSpad, hspad ?storeSpad⟩
  all_goals rw [← hva]
  case load => exact fun s1 num j h => (exec_load hn s d a la i).trans (loadGlobal_trap hg h)
  case store => exact fun s1 num j h => (exec_store hn s d a i).trans (storeGlobal_trap hg h)
  case loadSpad => exact fun num h => (exec_loadSpad hn s d a la i).trans (loadScratch_trap hg h)
  case storeSpad => exact fun num h => (exec_storeSpad hn s d a i).trans (storeScratch_trap hg h)

end Sys2Proof.Machine
end

section
/-! SUPPORT. What votes, reductions and scans deliver (R98, R99, R144, R145). -/

namespace Sys2Proof.Machine

open Sys2Proof

/-! ### Masks and lists of lanes -/

theorem getLsbD_foldl_or (l : List Nat) (z : DWord) (j : Nat) (hj : j < 64) :
    (l.foldl (fun m i => m ||| ((1 : DWord) <<< i)) z).getLsbD j = (z.getLsbD j || decide (j ∈ l)) := by
  induction l generalizing z with
  | nil => simp
  | cons i l ih =>
    have hbit : ((1 : DWord) <<< i).getLsbD j = decide (j = i) := by
      have h : (1 : DWord) <<< i = BitVec.twoPow 64 i := (BitVec.twoPow_eq 64 i).symm
      rw [h, BitVec.getLsbD_twoPow, ← Bool.decide_and]
      exact decide_eq_decide.mpr (by omega)
    rw [List.foldl_cons, ih, BitVec.getLsbD_or, hbit]
    simp only [List.mem_cons, Bool.decide_or, Bool.or_assoc]

theorem getLsbD_maskOf (l : List Nat) (j : Nat) (hj : j < 64) : (maskOf l).getLsbD j = decide (j ∈ l) := by
  have h0 : (0 : DWord).getLsbD j = false := BitVec.getLsbD_zero
  rw [maskOf, getLsbD_foldl_or l 0 j hj, h0, Bool.false_or]

theorem getLsbD_ballot (i : LaneIn) (l : Nat) (hl : l < 64) :
    (ballot i).getLsbD l = (i.act.getLsbD l && decide (i.a .b32 l ≠ 0)) := by
  rw [ballot, getLsbD_maskOf _ _ hl, LaneIn.lanes]
  simp only [List.mem_filter, mem_lanesOf, hl, true_and, decide_eq_true_eq, Bool.decide_and, Bool.decide_eq_true]

/-- No lane at or above the group width is active (R78). -/
theorem act_of_gw_le (i : LaneIn) (l : Nat) (hl : l < 64) (h : i.g.gw ≤ l) : i.act.getLsbD l = false := by
  have hw : i.g.wMask.getLsbD l = false := by
    rw [i.g.getLsbD_wMask l hl]
    exact decide_eq_false (by omega)
  simp [LaneIn.act, activeOf, execsOf, hw]

/-- The active lanes lie below the group width. -/
theorem lanesOf_act (i : LaneIn) (h : i.g.gw ≤ 64) : lanesOf i.act = (List.range i.g.gw).filter (fun l => i.act.getLsbD l) := by
  have hsplit : (List.range 64).filter (fun l => i.act.getLsbD l) = (List.range i.g.gw).filter (fun l => i.act.getLsbD l) := by
    obtain ⟨d, hd⟩ := Nat.exists_eq_add_of_le h
    have hr : List.range 64 = List.range i.g.gw ++ (List.range d).map (i.g.gw + ·) := hd ▸ List.range_add
    have hnone : ((List.range d).map (i.g.gw + ·)).filter (fun l => i.act.getLsbD l) = [] := by
      rw [List.filter_eq_nil_iff]
      intro l hl
      obtain ⟨c, hc, rfl⟩ := List.mem_map.mp hl
      have := List.mem_range.mp hc
      simp [act_of_gw_le i (i.g.gw + c) (by omega) (by omega)]
    rw [hr, List.filter_append, hnone, List.append_nil]
  rw [← hsplit]
  simp only [lanesOf, bitsSet, bitOf, BitVec.getLsbD, Nat.testBit_eq_decide_div_mod_eq]

/-! ### Folds over the lanes, a lane that is no member giving the identity -/

theorem foldl_members {α : Type} (f : α → α → α) (z : α) (hz : ∀ x, f x z = x) (p : Nat → Bool) (v : Nat → α) (l : List Nat)
    (a : α) : (l.map (fun j => if p j then v j else z)).foldl f a = ((l.filter p).map v).foldl f a := by
  induction l generalizing a with
  | nil => rfl
  | cons j l ih =>
    cases hp : p j
    · simp only [List.map_cons, List.foldl_cons, hp, Bool.false_eq_true, if_false, hz, ih, List.filter_cons]
    · simp only [List.map_cons, List.foldl_cons, hp, if_true, ih, List.filter_cons]

/-- A fold that does not canonicalise starts from the identity. -/
theorem foldOp_eq_foldl {op : RedOp} {t : Ty} (ht : t ≠ .f32) (hid : ∀ x, redOp op t (redId op t) x = x) (l : List Word) :
    foldOp op t l = l.foldl (redOp op t) (redId op t) := by
  cases l with
  | nil => rfl
  | cons x r => rw [foldOp, firstOf, if_neg ht, List.foldl_cons, hid]

/-- A reduction whose identity leaves every word as it is combines the members alone. -/
theorem reduced_eq_foldl {op : RedOp} {t : Ty} (i : LaneIn) (hop : op ≠ .add) (ht : t ≠ .f32) (hg : i.g.gw ≤ 64)
    (hl : ∀ x, redOp op t (redId op t) x = x) (hr : ∀ x, redOp op t x (redId op t) = x) :
    reduced op t i = ((lanesOf i.act).map (i.a t)).foldl (redOp op t) (redId op t) := by
  simp only [reduced, if_neg hop]
  rw [foldOp_eq_foldl ht hl, foldl_members _ _ hr, lanesOf_act i hg]

theorem getLsbD_foldl_and (l : List Word) (z : Word) (j : Nat) :
    (l.foldl (· &&& ·) z).getLsbD j = (z.getLsbD j && l.all (fun x => x.getLsbD j)) := by
  induction l generalizing z with
  | nil => simp
  | cons x l ih => rw [List.foldl_cons, ih, BitVec.getLsbD_and, List.all_cons, Bool.and_assoc]

theorem getLsbD_foldl_lor (l : List Word) (z : Word) (j : Nat) :
    (l.foldl (· ||| ·) z).getLsbD j = (z.getLsbD j || l.any (fun x => x.getLsbD j)) := by
  induction l generalizing z with
  | nil => simp
  | cons x l ih => rw [List.foldl_cons, ih, BitVec.getLsbD_or, List.any_cons, Bool.or_assoc]

theorem getLsbD_foldl_xor (l : List Word) (z : Word) (j : Nat) :
    (l.foldl (· ^^^ ·) z).getLsbD j = (z.getLsbD j ^^ decide (l.countP (fun x => x.getLsbD j) % 2 = 1)) := by
  induction l generalizing z with
  | nil => simp
  | cons x l ih =>
    rw [List.foldl_cons, ih, BitVec.getLsbD_xor, List.countP_cons]
    rcases Nat.mod_two_eq_zero_or_one (l.countP fun x => x.getLsbD j) with h | h <;>
      cases x.getLsbD j <;> simp [Nat.add_mod, h]

/-- The bitwise reductions, bit by bit (R145). -/
theorem reduced_bitwise (i : LaneIn) (t : Ty) (hg : i.g.gw ≤ 64) (ht : t ≠ .f32) (j : Nat) (hj : j < 32) :
    (reduced .and t i).getLsbD j = (lanesOf i.act).all (fun l => (i.a t l).getLsbD j)
    ∧ (reduced .or t i).getLsbD j = (lanesOf i.act).any (fun l => (i.a t l).getLsbD j)
    ∧ (reduced .xor t i).getLsbD j = decide ((lanesOf i.act).countP (fun l => (i.a t l).getLsbD j) % 2 = 1) := by
  have hones : (redId .and t).getLsbD j = true := by
    exact (BitVec.getLsbD_allOnes (v := 32)).trans (decide_eq_true hj)
  have hand : ∀ x : Word, x &&& redId .and t = x := fun x => BitVec.and_allOnes
  have hor : ∀ x : Word, x ||| redId .or t = x := fun x => BitVec.or_zero
  have hxor : ∀ x : Word, x ^^^ redId .xor t = x := fun x => BitVec.xor_zero
  refine ⟨?_, ?_, ?_⟩
  · rw [reduced_eq_foldl (op := .and) i (by decide) ht hg (fun x => (BitVec.and_comm _ _).trans (hand x)) hand]
    exact (getLsbD_foldl_and _ _ j).trans (by rw [hones, Bool.true_and, List.all_map]; rfl)
  · rw [reduced_eq_foldl (op := .or) i (by decide) ht hg (fun x => (BitVec.or_comm _ _).trans (hor x)) hor]
    exact (getLsbD_foldl_lor _ _ j).trans (by rw [List.any_map]; simp [redId]; rfl)
  · rw [reduced_eq_foldl (op := .xor) i (by decide) ht hg (fun x => (BitVec.xor_comm _ _).trans (hxor x)) hxor]
    exact (getLsbD_foldl_xor _ _ j).trans (by rw [List.countP_map]; simp [redId]; rfl)

/-- A combination that takes the one of two words whose value `f` takes folds to the fold of the values. -/
theorem map_foldl_pick {α β : Type} (c : α → α → α) (f : β → β → β) (val : α → β) (h : ∀ x y, val (c x y) = f (val x) (val y))
    (l : List α) (z : α) : val (l.foldl c z) = (l.map val).foldl f (val z) := by
  rw [List.foldl_map, List.foldl_hom val (fun x y => (h x y).symm)]

/-- The least and greatest signed values (R145). -/
theorem reduced_signed (i : LaneIn) (hg : i.g.gw ≤ 64) :
    (reduced .min .i32 i).toInt = ((lanesOf i.act).map (fun l => (i.a .i32 l).toInt)).foldl min (2 ^ 31 - 1)
    ∧ (reduced .max .i32 i).toInt = ((lanesOf i.act).map (fun l => (i.a .i32 l).toInt)).foldl max (-2 ^ 31) := by
  have hmin : ∀ x y, (redOp .min .i32 x y).toInt = min x.toInt y.toInt := fun x y => by
    simp only [redOp, reduceCtorEq, if_false, if_true, Int.min_def, apply_ite BitVec.toInt]
  have hmax : ∀ x y, (redOp .max .i32 x y).toInt = max x.toInt y.toInt := fun x y => by
    simp only [redOp, reduceCtorEq, if_false, if_true, max_def', apply_ite BitVec.toInt]
  have hle : ∀ x : Word, x.toInt ≤ (redId .min .i32).toInt ∧ (redId .max .i32).toInt ≤ x.toInt := fun x => by
    have h := BitVec.toInt_lt (x := x)
    have h' := BitVec.le_toInt x
    have e : (redId .min .i32).toInt = 2 ^ 31 - 1 ∧ (redId .max .i32).toInt = -2 ^ 31 := by decide
    omega
  constructor
  · rw [reduced_eq_foldl i (by decide) (by decide) hg (fun x => BitVec.eq_of_toInt_eq (by rw [hmin, min_eq_right (hle x).1]))
      (fun x => BitVec.eq_of_toInt_eq (by rw [hmin, min_eq_left (hle x).1])), map_foldl_pick _ _ _ hmin, List.map_map]
    rfl
  · rw [reduced_eq_foldl i (by decide) (by decide) hg (fun x => BitVec.eq_of_toInt_eq (by rw [hmax, max_eq_right (hle x).2]))
      (fun x => BitVec.eq_of_toInt_eq (by rw [hmax, max_eq_left (hle x).2])), map_foldl_pick _ _ _ hmax, List.map_map]
    rfl

/-- The least and greatest unsigned values (R145). -/
theorem reduced_unsigned (i : LaneIn) (hg : i.g.gw ≤ 64) :
    (reduced .min .n32 i).toNat = ((lanesOf i.act).map (fun l => (i.a .n32 l).toNat)).foldl min (2 ^ 32 - 1)
    ∧ (reduced .max .n32 i).toNat = ((lanesOf i.act).map (fun l => (i.a .n32 l).toNat)).foldl max 0 := by
  have hmin : ∀ x y, (redOp .min .n32 x y).toNat = min x.toNat y.toNat := fun x y => by
    simp only [redOp, reduceCtorEq, if_false, Nat.min_def, apply_ite BitVec.toNat]
  have hmax : ∀ x y, (redOp .max .n32 x y).toNat = max x.toNat y.toNat := fun x y => by
    simp only [redOp, reduceCtorEq, if_false, max_def', apply_ite BitVec.toNat]
  have hle : ∀ x : Word, x.toNat ≤ (redId .min .n32).toNat ∧ (redId .max .n32).toNat ≤ x.toNat := fun x => by
    have h := x.isLt
    have e : (redId .min .n32).toNat = 2 ^ 32 - 1 ∧ (redId .max .n32).toNat = 0 := by decide
    omega
  constructor
  · rw [reduced_eq_foldl i (by decide) (by decide) hg (fun x => BitVec.eq_of_toNat_eq (by rw [hmin, min_eq_right (hle x).1]))
      (fun x => BitVec.eq_of_toNat_eq (by rw [hmin, min_eq_left (hle x).1])), map_foldl_pick _ _ _ hmin, List.map_map]
    rfl
  · rw [reduced_eq_foldl i (by decide) (by decide) hg (fun x => BitVec.eq_of_toNat_eq (by rw [hmax, max_eq_right (hle x).2]))
      (fun x => BitVec.eq_of_toNat_eq (by rw [hmax, max_eq_left (hle x).2])), map_foldl_pick _ _ _ hmax, List.map_map]
    rfl

/-! ### The fixed tree -/

theorem treeOf_eq_iterate (f : Word → Word → Word) (n : Nat) (l : List Word) : treeOf f n l = (pairUp f)^[n] l := by
  induction n generalizing l with
  | zero => rfl
  | succ n ih => rw [treeOf, ih, Function.iterate_succ_apply]

theorem length_pairUp (f : Word → Word → Word) (l : List Word) : (pairUp f l).length = (l.length + 1) / 2 := by
  induction l using pairUp.induct with
  | case1 a b r ih => simp only [pairUp, List.length_cons, ih]; omega
  | case2 l h =>
    match l, h with
    | [], _ => rfl
    | [_], _ => simp [pairUp]
    | a :: b :: r, h => exact (h a b r rfl).elim

theorem pairUp_of_length_le_one (f : Word → Word → Word) {l : List Word} (h : l.length ≤ 1) : pairUp f l = l := by
  match l, h with
  | [], _ => rfl
  | [_], _ => rfl

theorem getD_pairUp (f : Word → Word → Word) (z : Word) (l : List Word) (j : Nat) (h : 2 * j + 1 < l.length) :
    (pairUp f l).getD j z = f (l.getD (2 * j) z) (l.getD (2 * j + 1) z) := by
  induction l using pairUp.induct generalizing j with
  | case1 a b r ih =>
    cases j with
    | zero => rfl
    | succ j =>
      rw [List.length_cons, List.length_cons] at h
      exact ih j (by omega)
  | case2 l h' =>
    match l, h, h' with
    | [], h, _ => simp at h
    | [_], h, _ => simp at h
    | a :: b :: r, _, h' => exact (h' a b r rfl).elim

theorem sum_pairUp (l : List Word) : (pairUp (· + ·) l).sum = l.sum := by
  induction l using pairUp.induct with
  | case1 a b r ih => simp only [pairUp, List.sum_cons, ih, add_assoc]
  | case2 l h =>
    match l, h with
    | [], _ => rfl
    | [_], _ => rfl
    | a :: b :: r, h => exact (h a b r rfl).elim

/-- Each level of a tree has half the entries of the level below. -/
theorem length_iterate_pairUp (f : Word → Word → Word) (k n : Nat) (l : List Word) (hn : n ≤ k) (h : l.length ≤ 2 ^ k) :
    ((pairUp f)^[n] l).length ≤ 2 ^ (k - n) := by
  induction n with
  | zero => exact h
  | succ n ih =>
    have hp : 2 ^ (k - n) = 2 * 2 ^ (k - (n + 1)) := by rw [← pow_succ']; congr 1; omega
    have := ih (by omega)
    rw [Function.iterate_succ_apply', length_pairUp]
    omega

theorem le_length_iterate_pairUp (f : Word → Word → Word) (k n : Nat) (l : List Word) (hn : n ≤ k) (h : 2 ^ k ≤ l.length) :
    2 ^ (k - n) ≤ ((pairUp f)^[n] l).length := by
  induction n with
  | zero => exact h
  | succ n ih =>
    have hp : 2 ^ (k - n) = 2 * 2 ^ (k - (n + 1)) := by rw [← pow_succ']; congr 1; omega
    have := ih (by omega)
    rw [Function.iterate_succ_apply', length_pairUp]
    omega

theorem sum_iterate_pairUp (n : Nat) (l : List Word) : ((pairUp (· + ·))^[n] l).sum = l.sum := by
  induction n with
  | zero => rfl
  | succ n ih => rw [Function.iterate_succ_apply', sum_pairUp, ih]

/-- The tree of six levels over at most 64 words that wrap is their sum. -/
theorem treeOf_add (l : List Word) (h : l.length ≤ 64) : ((treeOf (· + ·) 6 l).head?).getD 0 = l.sum := by
  have hlen := length_iterate_pairUp (· + ·) 6 6 l (by omega) h
  rw [treeOf_eq_iterate, ← sum_iterate_pairUp 6 l]
  match (pairUp (· + ·))^[6] l, hlen with
  | [], _ => rfl
  | [x], _ => simp

theorem sum_words (l : List Word) : l.sum = BitVec.ofNat 32 (l.map BitVec.toNat).sum := by
  induction l with
  | nil => rfl
  | cons x l ih => rw [List.sum_cons, ih, List.map_cons, List.sum_cons, BitVec.ofNat_add, BitVec.ofNat_toNat, BitVec.setWidth_eq]

/-- A sum over the lanes is taken modulo 2^32 (R145). -/
theorem reduced_add (i : LaneIn) (t : Ty) (hg : i.g.gw ≤ 64) (ht : t ≠ .f32) :
    reduced .add t i = BitVec.ofNat 32 ((lanesOf i.act).map (fun l => (i.a t l).toNat)).sum := by
  have hop : redOp .add t = (· + ·) := by funext x y; simp [redOp, ht]
  have hid : redId .add t = 0 := by simp [redId, ht]
  have hmem : ((List.range i.g.gw).map (fun l => if i.act.getLsbD l then i.a t l else 0)).sum = ((lanesOf i.act).map (i.a t)).sum := by
    rw [List.sum_eq_foldl, List.sum_eq_foldl, lanesOf_act i hg]
    exact foldl_members (· + ·) 0 (fun x => add_zero x) _ _ _ 0
  simp only [reduced, if_true, hop, hid]
  rw [treeOf_add _ (by simpa using hg), hmem, sum_words, List.map_map]
  rfl

/-- The sum of FP32 values is taken in the fixed tree of adjacent pairs, −0 standing for a lane that is no member (R145). -/
theorem reduced_add_f32 (i : LaneIn) (k : Nat) (hk : k ≤ 6) (hg : i.g.gw = 2 ^ k) : ∃ T : Nat → Nat → Word,
    (∀ l < i.g.gw, T 0 l = if i.act.getLsbD l then i.a .f32 l else 0x80000000)
    ∧ (∀ n < k, ∀ j < 2 ^ (k - n - 1), T (n + 1) j = BitVec.ofNat 32 (roundNe fp32
        (flAdd false (fval fp32 (T n (2 * j)).toNat) (fval fp32 (T n (2 * j + 1)).toNat))))
    ∧ reduced .add .f32 i = T k 0 := by
  let vs := (List.range i.g.gw).map (fun l => if i.act.getLsbD l then i.a .f32 l else 0x80000000)
  let f := redOp .add .f32
  have hlen : vs.length = 2 ^ k := by simp [vs, hg]
  refine ⟨fun n j => ((pairUp f)^[n] vs).getD j 0x80000000, fun l hl => ?_, fun n hn j hj => ?_, ?_⟩
  · simp [vs, hl]
  · have hp : 2 ^ (k - n) = 2 * 2 ^ (k - n - 1) := by rw [← pow_succ']; congr 1; omega
    have hj' : 2 * j + 1 < ((pairUp f)^[n] vs).length := by
      have := le_length_iterate_pairUp f k n vs (by omega) hlen.ge
      omega
    simp only [Function.iterate_succ_apply', getD_pairUp f _ _ j hj']
    rfl
  · have hone : ((pairUp f)^[k] vs).length ≤ 1 := by simpa using length_iterate_pairUp f k k vs le_rfl hlen.le
    have htop : (pairUp f)^[6] vs = (pairUp f)^[k] vs := by
      rw [← Nat.sub_add_cancel hk, Function.iterate_add_apply,
        Function.iterate_fixed (pairUp_of_length_le_one f hone)]
    have hred : reduced .add .f32 i = ((treeOf f 6 vs).head?).getD 0x80000000 := rfl
    rw [hred, treeOf_eq_iterate, htop, List.head?_eq_getElem?]
    rfl

/-! ### Least and greatest floats -/

/-- More than every finite FP32 value, in units of the least subnormal. -/
def flTop : Nat := 2 ^ 24 * 2 ^ 254

/-- An FP32 value in units of the least subnormal, the infinities beyond every finite one. -/
def flNum : Fl → Int
  | .nan => 0
  | .inf neg => sMant neg flTop
  | .fin neg m e => sMant neg (m * 2 ^ (e + 149).toNat)

/-- The order of R134: by value, −0 below +0. -/
def flKey (x : Fl) : Int := 2 * flNum x + if flNegative x then 0 else 1

/-- What the value of an FP32 pattern is: no finer than the least subnormal, and less than `flTop` units. -/
def FlRanged : Fl → Prop
  | .fin _ m e => -149 ≤ e ∧ m * 2 ^ (e + 149).toNat < flTop
  | _ => True

/-- R124, for FP32. -/
theorem fval_fp32 (p : Nat) : fval fp32 p =
    if p % 2 ^ 31 ≤ 0x7f7fffff then
      (if p % 2 ^ 31 / 2 ^ 23 = 0 then .fin (bitOf p 31) (p % 2 ^ 31 % 2 ^ 23) (-149)
       else .fin (bitOf p 31) (2 ^ 23 + p % 2 ^ 31 % 2 ^ 23) (-149 + ((p % 2 ^ 31 / 2 ^ 23 : Nat) : Int) - 1))
    else if p % 2 ^ 31 % 2 ^ 23 = 0 then .inf (bitOf p 31) else .nan := by
  have hemin : fp32.emin = -149 := rfl
  simp only [fval, hemin]
  simp only [fp32, Bool.true_and, Nat.reduceSub]
  congr 2
  exact propext decide_eq_true_iff

theorem flRanged_fval (p : Nat) : FlRanged (fval fp32 p) := by
  have hfr : p % 2 ^ 31 % 2 ^ 23 < 2 ^ 23 := Nat.mod_lt _ (by decide)
  have hranged : ∀ (neg : Bool) (m : Nat) (e : Int), m < 2 ^ 24 → -149 ≤ e → e ≤ 105 → FlRanged (.fin neg m e) :=
    fun neg m e hm he h => ⟨he, Nat.mul_lt_mul_of_lt_of_le hm (Nat.pow_le_pow_right (by decide) (by omega)) (by positivity)⟩
  rw [fval_fp32]
  split_ifs with hmag hex
  · exact hranged _ _ _ (by omega) (by omega) (by omega)
  · exact hranged _ _ _ (by omega) (by omega) (by omega)
  · trivial
  · trivial

theorem flNum_fin_lt {neg : Bool} {m : Nat} {e : Int} (h : FlRanged (.fin neg m e)) :
    flNum (.fin neg m e) < flTop ∧ -flTop < flNum (.fin neg m e) := by
  obtain ⟨-, hm⟩ := h
  cases neg
  · simp only [flNum, sMant, Bool.false_eq_true, if_false]; omega
  · simp only [flNum, sMant, if_true]; omega

/-- Values on a common scale compare as they do in units of the least subnormal. -/
theorem flNum_scaled (a : Bool) (m : Nat) {e lo : Int} (hlo : -149 ≤ lo) (he : lo ≤ e) :
    flNum (.fin a m e) = sMant a m * (2 ^ (e - lo).toNat : Nat) * (2 ^ (lo + 149).toNat : Nat) := by
  have hsum : (e + 149).toNat = (e - lo).toNat + (lo + 149).toNat := by omega
  rw [flNum, hsum, pow_add]
  cases a <;> simp [sMant, mul_assoc]

/-- Numeric comparison compares the values (R134). -/
theorem flCmp_eq {x y : Fl} (hx : FlRanged x) (hy : FlRanged y) (nx : isNan x = false) (ny : isNan y = false) :
    flCmp x y = if flNum x < flNum y then -1 else if flNum y < flNum x then 1 else 0 := by
  have htop : (0 : Int) < flTop := by simp [flTop]
  match x, y, nx, ny with
  | .inf a, .inf b, _, _ => cases a <;> cases b <;> simp [flCmp, flNum, sMant] <;> omega
  | .inf a, .fin b n f, _, _ =>
    obtain ⟨h1, h2⟩ := flNum_fin_lt hy
    cases a
    · rw [if_neg (show ¬ flNum (.inf false) < flNum (.fin b n f) from not_lt.mpr h1.le), if_pos (by exact h1)]; rfl
    · rw [if_pos (by exact h2)]; rfl
  | .fin a m e, .inf b, _, _ =>
    obtain ⟨h1, h2⟩ := flNum_fin_lt hx
    cases b
    · rw [if_pos (by exact h1)]; rfl
    · rw [if_neg (show ¬ flNum (.fin a m e) < flNum (.inf true) from not_lt.mpr h2.le), if_pos (by exact h2)]; rfl
  | .fin a m e, .fin b n f, _, _ =>
    have hlo : -149 ≤ min e f := le_min hx.1 hy.1
    have hpos : (0 : Int) < (2 ^ (min e f + 149).toNat : Nat) := by positivity
    rw [flNum_scaled a m hlo (min_le_left e f), flNum_scaled b n hlo (min_le_right e f)]
    simp only [mul_lt_mul_iff_left₀ hpos]
    rfl

/-- A pattern of value zero is one of the two zeros. -/
theorem eq_zero_of_flNum {w : Word} (hn : isNan (fval fp32 w.toNat) = false) (h : flNum (fval fp32 w.toNat) = 0) :
    w = if flNegative (fval fp32 w.toNat) then 0x80000000 else 0 := by
  have hsign : ∀ (neg : Bool) (m : Nat), sMant neg m = 0 → m = 0 := fun neg m hm => by
    cases neg <;> simpa [sMant] using hm
  have hw := w.isLt
  have hbit : bitOf w.toNat 31 = decide (2 ^ 31 ≤ w.toNat) := by
    rw [bitOf]
    exact decide_eq_decide.mpr (by omega)
  rw [fval_fp32] at hn h ⊢
  split at hn
  · split at hn
    · next hmag hex =>
      rw [if_pos hmag, if_pos hex] at h ⊢
      have hm := hsign _ _ h
      apply BitVec.eq_of_toNat_eq
      simp only [flNegative, hbit, decide_eq_true_eq, apply_ite BitVec.toNat]
      have hzero : w.toNat % 2 ^ 31 % 2 ^ 23 = 0 := by simpa using hm
      split
      · change w.toNat = 2 ^ 31; omega
      · change w.toNat = 0; omega
    · next hmag hex =>
      rw [if_pos hmag, if_neg hex] at h
      have hm := hsign _ _ h
      simp at hm
  · next hmag =>
    split at hn
    · next hinf =>
      rw [if_neg hmag, if_pos hinf] at h
      exact absurd (hsign _ _ h) (by simp [flTop])
    · cases hn

/-- A comparison that puts −0 below +0 (R134) compares in the order of `flKey`. -/
theorem tied_iff {x y : Fl} (hx : FlRanged x) (hy : FlRanged y) (nx : isNan x = false) (ny : isNan y = false) (c : Int)
    (hc : c = if flCmp x y = 0 then (if flNegative x = flNegative y then 0 else if flNegative x then -1 else 1) else flCmp x y) :
    (c ≤ 0 ↔ flKey x ≤ flKey y) ∧ (0 ≤ c ↔ flKey y ≤ flKey x) := by
  rw [flCmp_eq hx hy nx ny] at hc
  unfold flKey
  rcases lt_trichotomy (flNum x) (flNum y) with h | h | h
  · rw [if_pos h, if_neg (by decide)] at hc
    split_ifs <;> omega
  · rw [if_neg h.not_lt, if_neg h.not_gt, if_pos rfl] at hc
    cases hnx : flNegative x <;> cases hny : flNegative y <;> simp [hnx, hny] at hc ⊢ <;> omega
  · rw [if_neg h.not_gt, if_pos h, if_neg (by decide)] at hc
    split_ifs <;> omega

/-- The lesser or greater of two patterns that are no NaN, by the order of R134. -/
theorem minMaxP_eq {p q : Nat} (lt : Bool) (hp : isNan (fval fp32 p) = false) (hq : isNan (fval fp32 q) = false) :
    minMaxP fp32 lt p q = if (if lt then flKey (fval fp32 p) ≤ flKey (fval fp32 q) else flKey (fval fp32 q) ≤ flKey (fval fp32 p))
      then p else q := by
  obtain ⟨hle, hge⟩ := tied_iff (flRanged_fval p) (flRanged_fval q) hp hq _ rfl
  simp only [minMaxP, hp, hq, Bool.and_self, Bool.false_eq_true, if_false]
  cases lt
  · simp only [Bool.false_eq_true, if_false]
    exact if_congr hge rfl rfl
  · simp only [if_true]
    exact if_congr hle rfl rfl

/-- A word read as an FP32 value. -/
def floatOf (w : Word) : Fl := fval fp32 w.toNat

/-- Whether `x` stands at or before `y`: at or below for the least, at or above for the greatest. -/
def Precedes (least : Bool) (x y : Fl) : Prop := if least then flKey x ≤ flKey y else flKey y ≤ flKey x

theorem Precedes.refl (least : Bool) (x : Fl) : Precedes least x x := by
  cases least <;> simp [Precedes]

theorem Precedes.trans {least : Bool} {x y z : Fl} (h : Precedes least x y) (h' : Precedes least y z) : Precedes least x z := by
  cases least
  · exact le_trans (b := flKey y) h' h
  · exact le_trans (b := flKey y) h h'

theorem Precedes.of_not {least : Bool} {x y : Fl} (h : ¬ Precedes least x y) : Precedes least y x := by
  cases least
  · exact (lt_of_not_ge (a := flKey x) (b := flKey y) h).le
  · exact (lt_of_not_ge (a := flKey y) (b := flKey x) h).le

/-- The least or greatest of FP32 words: canonical NaN when none is a number, else one of the numbers that precedes them all. -/
def IsExtreme (least : Bool) (vs : List Word) (R : Word) : Prop :=
  ((∀ v ∈ vs, isNan (floatOf v) = true) ∧ R = 0x7fc00000)
  ∨ (isNan (floatOf R) = false ∧ R ∈ vs ∧ ∀ v ∈ vs, isNan (floatOf v) = false → Precedes least (floatOf R) (floatOf v))

/-- The combination of a reduction that takes the least or the greatest float. -/
def pick (least : Bool) (x y : Word) : Word := redOp (if least then .min else .max) .f32 x y

theorem pick_eq (least : Bool) (x y : Word) : pick least x y = BitVec.ofNat 32 (minMaxP fp32 least x.toNat y.toNat) := by
  cases least <;> rfl

theorem pick_nan_nan {least : Bool} {x y : Word} (hx : isNan (floatOf x) = true) (hy : isNan (floatOf y) = true) :
    pick least x y = 0x7fc00000 := by
  rw [floatOf] at hx hy
  simp only [pick_eq, minMaxP, hx, hy, Bool.and_self, if_true]
  rfl

theorem pick_nan_left {least : Bool} {x y : Word} (hx : isNan (floatOf x) = true) (hy : isNan (floatOf y) = false) :
    pick least x y = y := by
  rw [floatOf] at hx hy
  simp [pick_eq, minMaxP, hx, hy]

theorem pick_nan_right {least : Bool} {x y : Word} (hx : isNan (floatOf x) = false) (hy : isNan (floatOf y) = true) :
    pick least x y = x := by
  rw [floatOf] at hx hy
  simp [pick_eq, minMaxP, hx, hy]

/-- Of two numbers, the one that precedes the other. -/
theorem pick_numbers {least : Bool} {x y : Word} (hx : isNan (floatOf x) = false) (hy : isNan (floatOf y) = false) :
    (pick least x y = x ∧ Precedes least (floatOf x) (floatOf y)) ∨ (pick least x y = y ∧ Precedes least (floatOf y) (floatOf x)) := by
  rw [pick_eq, minMaxP_eq least hx hy]
  by_cases h : Precedes least (floatOf x) (floatOf y)
  · left
    exact ⟨by rw [if_pos (by cases least <;> exact h)]; simp, h⟩
  · right
    exact ⟨by rw [if_neg (by cases least <;> exact h)]; simp, Precedes.of_not h⟩

theorem isExtreme_singleton (least : Bool) (x : Word) : IsExtreme least [x] (pick least x x) := by
  cases hx : isNan (floatOf x)
  · have hp : pick least x x = x := (pick_numbers hx hx).elim And.left And.left
    rw [hp]
    exact .inr ⟨hx, List.mem_singleton_self x, fun v hv _ => List.mem_singleton.mp hv ▸ .refl _ _⟩
  · exact .inl ⟨by simpa using hx, pick_nan_nan hx hx⟩

/-- One more word joins. -/
theorem IsExtreme.append {least : Bool} {vs : List Word} {R : Word} (h : IsExtreme least vs R) (w : Word) :
    IsExtreme least (vs ++ [w]) (pick least R w) := by
  have hnan : isNan (floatOf 0x7fc00000) = true := by decide
  have hmem : ∀ v ∈ vs ++ [w], v ∈ vs ∨ v = w := fun v hv => by simpa using hv
  rcases h with ⟨hall, rfl⟩ | ⟨hR, hin, hpre⟩
  · cases hw : isNan (floatOf w)
    · rw [pick_nan_left hnan hw]
      refine .inr ⟨hw, by simp, fun v hv hn => ?_⟩
      rcases hmem v hv with h | rfl
      · rw [hall v h] at hn; cases hn
      · exact .refl _ _
    · exact .inl ⟨fun v hv => (hmem v hv).elim (hall v) (fun e => e ▸ hw), pick_nan_nan hnan hw⟩
  · cases hw : isNan (floatOf w)
    · rcases pick_numbers (least := least) hR hw with ⟨he, hp⟩ | ⟨he, hp⟩ <;> rw [he]
      · exact .inr ⟨hR, by simp [hin], fun v hv hn => (hmem v hv).elim (fun h => hpre v h hn) (fun e => e ▸ hp)⟩
      · exact .inr ⟨hw, by simp, fun v hv hn =>
          (hmem v hv).elim (fun h => hp.trans (hpre v h hn)) (fun e => e ▸ .refl _ _)⟩
    · rw [pick_nan_right hR hw]
      refine .inr ⟨hR, by simp [hin], fun v hv hn => ?_⟩
      rcases hmem v hv with h | rfl
      · exact hpre v h hn
      · rw [hw] at hn; cases hn

theorem IsExtreme.foldl {least : Bool} (l : List Word) {vs : List Word} {R : Word} (h : IsExtreme least vs R) :
    IsExtreme least (vs ++ l) (l.foldl (pick least) R) := by
  induction l generalizing vs R with
  | nil => simpa using h
  | cons w l ih => simpa using ih (h.append w)

/-- What a lane holds for a least or greatest float: a lane that is no member the infinity (R145). -/
def memberFloat (least : Bool) (i : LaneIn) (l : Nat) : Word :=
  if i.act.getLsbD l then i.a .f32 l else if least then 0x7f800000 else 0xff800000

/-- The least or greatest float over the lanes (R145). -/
theorem isExtreme_reduced (i : LaneIn) (hg : 0 < i.g.gw) (least : Bool) :
    IsExtreme least ((List.range i.g.gw).map (memberFloat least i)) (reduced (if least then .min else .max) .f32 i) := by
  have hred : reduced (if least then .min else .max) .f32 i
      = foldOp (if least then .min else .max) .f32 ((List.range i.g.gw).map (memberFloat least i)) := by
    cases least <;> rfl
  rw [hred]
  cases hl : (List.range i.g.gw).map (memberFloat least i) with
  | nil => simp at hl; omega
  | cons x r =>
    have hfold : foldOp (if least then .min else .max) .f32 (x :: r) = r.foldl (pick least) (pick least x x) := by
      cases least <;> rfl
    rw [hfold]
    exact (isExtreme_singleton least x).foldl r

theorem flNum_of_flKey_le {x y : Fl} (h : flKey x ≤ flKey y) :
    flNum x ≤ flNum y ∧ (flNum x = flNum y → flNegative y = true → flNegative x = true) := by
  unfold flKey at h
  constructor
  · split_ifs at h <;> omega
  · intro he hy
    by_contra hx
    rw [if_neg hx, if_pos hy, he] at h
    omega

/-- What a comparison of two numbers says of their values. -/
theorem flCmp_iff {x y : Fl} (hx : FlRanged x) (hy : FlRanged y) (nx : isNan x = false) (ny : isNan y = false) :
    (flCmp x y ≤ 0 ↔ flNum x ≤ flNum y) ∧ (0 ≤ flCmp x y ↔ flNum y ≤ flNum x) ∧ (flCmp x y = 0 ↔ flNum x = flNum y) := by
  rw [flCmp_eq hx hy nx ny]
  rcases lt_trichotomy (flNum x) (flNum y) with h | h | h
  · rw [if_pos h]; omega
  · rw [if_neg h.not_lt, if_neg h.not_gt]; omega
  · rw [if_neg h.not_gt, if_pos h]; omega

/-- A number that precedes another is not on its far side, and of two equal ones is the zero that does (R134). -/
theorem flCmp_of_precedes {least : Bool} {R v : Word} (h : Precedes least (floatOf R) (floatOf v))
    (hR : isNan (floatOf R) = false) (hv : isNan (floatOf v) = false) :
    (if least then flCmp (floatOf R) (floatOf v) ≤ 0 else 0 ≤ flCmp (floatOf R) (floatOf v))
    ∧ (flCmp (floatOf R) (floatOf v) = 0 → v = (if least then 0x80000000 else 0) → R = v) := by
  obtain ⟨hle, hge, heq⟩ := flCmp_iff (flRanged_fval R.toNat) (flRanged_fval v.toNat) hR hv
  have hzero : ∀ z : Word, z = (if least then 0x80000000 else 0) →
      flNum (floatOf z) = 0 ∧ flNegative (floatOf z) = least := fun z hz => by cases least <;> subst hz <;> decide
  have hR0 : flNum (floatOf R) = 0 → R = if flNegative (floatOf R) then 0x80000000 else 0 := eq_zero_of_flNum hR
  have hsame : flNegative (floatOf R) = least → flCmp (floatOf R) (floatOf v) = 0 →
      v = (if least then 0x80000000 else 0) → R = v := fun hs hc hvz => by
    rw [hR0 ((heq.mp hc).trans (hzero v hvz).1), hs, hvz]
  cases least
  · obtain ⟨hnum, hneg⟩ := flNum_of_flKey_le (x := floatOf v) (y := floatOf R) h
    refine ⟨hge.mpr hnum, fun hc hvz => hsame (Bool.eq_false_iff.mpr fun ht => ?_) hc hvz⟩
    exact Bool.false_ne_true ((hzero v hvz).2.symm.trans (hneg (heq.mp hc).symm ht))
  · obtain ⟨hnum, hneg⟩ := flNum_of_flKey_le (x := floatOf R) (y := floatOf v) h
    exact ⟨hle.mpr hnum, fun hc hvz => hsame (hneg (heq.mp hc) (hzero v hvz).2) hc hvz⟩

/-! ### The instructions -/

/-- A push at the head of the lane queue (R98, R99). -/
theorem push_atHead {s : State} {i : LaneIn} {o : LaneOp} (h : i.atHead s o) (v : LaneIn → DWord) :
    withLane s o (fun i => i.push s (v i))
      = if i.g.decQ.length < 64 then .next (i.after s (fun g => { g with decQ := g.decQ ++ [v i] })) else .next s :=
  (withLane_atHead h _).trans (push_next i s (v i))

/-- What the votes and reductions push. -/
theorem exec_pushes {s : State} {i : LaneIn} {o : LaneOp} (h : i.atHead s o) (op : RedOp) (t : Ty) (r : DWord → Res)
    (hr : ∀ v, r v = if i.g.decQ.length < 64 then .next (i.after s (fun g => { g with decQ := g.decQ ++ [v] })) else .next s) :
    exec (.voteBallot o) s = r (ballot i) ∧ exec (.voteAny o) s = r (if ballot i ≠ 0 then 1 else 0)
    ∧ exec (.voteAll o) s = r (if ballot i = i.act then 1 else 0)
    ∧ exec (.voteCount o) s = r (BitVec.ofNat 64 ((List.range 64).countP (fun l => (ballot i).getLsbD l)))
    ∧ exec (.vred op t o) s = r (if t = .i32 then (reduced op t i).signExtend 64 else (reduced op t i).zeroExtend 64) := by
  simp only [hr]
  refine ⟨?_, ?_, ?_, ?_, ?_⟩
  · exact (show execVoteBallot o s = _ from push_atHead h ballot)
  · exact (show execVoteAny o s = _ from push_atHead h _)
  · exact (show execVoteAll o s = _ from push_atHead h _)
  · rw [← popcV_eq]
    exact (show execVoteCount o s = _ from push_atHead h (fun i => popcV (ballot i)))
  · exact (show execVred op t o s = _ from push_atHead h (fun i => redWord t (reduced op t i)))

/-- Settles O48: the masks and folds of the lanes that are members, the fixed tree level by level, and the floats in the order of
their values in units of the least subnormal. -/
theorem votesReductions : Obligations.VotesReductions := by
  unfold Obligations.VotesReductions
  intro s i o op t h
  have hpush := exec_pushes h op t _ (fun _ => rfl)
  refine ⟨⟨ballot i, getLsbD_ballot i, ?_, fun hq => ?_⟩, fun hq => ?_, ?_, ?_,
    fun hg ht => ⟨reduced_add i t hg ht, fun j hj => reduced_bitwise i t hg ht j hj⟩,
    fun hg => ⟨reduced_signed i hg, reduced_unsigned i hg⟩, fun k hk hg => reduced_add_f32 i k hk hg, fun hg least => ?_⟩
  · exact (show execVoteK o s = _ from withLane_atHead h _)
  · simpa only [if_pos hq] using hpush
  · simpa only [if_neg (Nat.not_lt.mpr hq)] using hpush
  · exact (show execVredV op t o s = _ from crossLane_writes h _ _)
  · exact fun ex => (show execVscan op t ex o s = _ from crossLane_writes h _ _)
  · have hin : ∀ l < i.g.gw, memberFloat least i l ∈ (List.range i.g.gw).map (memberFloat least i) := fun l hl =>
      List.mem_map_of_mem (List.mem_range.mpr hl)
    rcases isExtreme_reduced i hg least with ⟨hnan, hR⟩ | ⟨hR, hmem, hpre⟩
    · refine ⟨fun _ => hR, fun ⟨l, hl, hn⟩ => ?_⟩
      exact absurd (hnan _ (hin l hl)) (by rw [show isNan (floatOf (memberFloat least i l)) = false from hn]; decide)
    · obtain ⟨l, hl, hlR⟩ := List.mem_map.mp hmem
      refine ⟨fun hnan => ?_, fun _ => ⟨hR, ⟨l, List.mem_range.mp hl, hlR.symm⟩, fun j hj hn => ?_⟩⟩
      · have := hnan l (List.mem_range.mp hl)
        rw [← hlR, show isNan (floatOf (memberFloat least i l)) = true from this] at hR
        cases hR
      · exact flCmp_of_precedes (hpre _ (hin j hj) hn) hR hn

end Sys2Proof.Machine
end

section
/-! SUPPORT. What the memory system leaves exactly as it was (R206 to R210, R243, R285 to R292): a write at a home changes the home's
own records, and what travels between the L1s and the homes leaves every team and brings no word into an L1. -/

namespace Sys2Proof.Machine

open Sys2Proof

/-! ### Writes at a home -/

/-- `t` is `s` but for what homes keep: memory, its poison, the cells' records, the slices and the pool regions. -/
def State.HomeOnly (s t : State) : Prop :=
  ∃ m p c sl r, t = { s with mem := m, pois := p, cells := c, slices := sl, regions := r }

namespace State.HomeOnly

theorem refl (s : State) : HomeOnly s s := ⟨_, _, _, _, _, rfl⟩

theorem trans {s t u : State} (h : HomeOnly s t) (h' : HomeOnly t u) : HomeOnly s u := by
  obtain ⟨_, _, _, _, _, rfl⟩ := h
  obtain ⟨_, _, _, _, _, rfl⟩ := h'
  exact ⟨_, _, _, _, _, rfl⟩

section
variable {s t : State} (h : HomeOnly s t)
include h

theorem setSlice (k : Nat) (v : Slice) : HomeOnly s (t.setSlice k v) := h.trans ⟨_, _, _, _, _, rfl⟩
theorem setRec (w : Nat) (r : CellRec) : HomeOnly s (t.setRec w r) := h.trans ⟨_, _, _, _, _, rfl⟩
theorem setPois (w : Nat) (p : Bool) : HomeOnly s (t.setPois w p) := h.trans ⟨_, _, _, _, _, rfl⟩
theorem setWord (w : Nat) (v : Word) : HomeOnly s (t.setWord w v) :=
  h.trans ⟨_, _, _, _, _, t.setBytes_frame (4 * w) _⟩
theorem setVal (w : Nat) (v : CellVal) : HomeOnly s (t.setVal w v) := (h.setWord w v.val).setPois w v.pois

theorem cores : t.cores = s.cores := by obtain ⟨_, _, _, _, _, rfl⟩ := h; rfl
theorem groups : t.groups = s.groups := by obtain ⟨_, _, _, _, _, rfl⟩ := h; rfl
theorem teams : t.teams = s.teams := by obtain ⟨_, _, _, _, _, rfl⟩ := h; rfl
theorem cur : t.cur = s.cur := by obtain ⟨_, _, _, _, _, rfl⟩ := h; rfl

end

end State.HomeOnly

open State (HomeOnly)

namespace State

theorem homeOnly_setOwned (s : State) (l : Nat) (f : List Nat → List Nat) : HomeOnly s (s.setOwned l f) := by
  unfold setOwned
  split
  · exact ⟨_, _, _, _, _, rfl⟩
  · exact .refl s

theorem homeOnly_reown (s : State) (l : Nat) : HomeOnly s (s.reown l) := by
  unfold reown
  split
  · have h := ((HomeOnly.refl s).setSlice _ _ : HomeOnly s (s.setSummary l (s.sideDot l))).trans
      (homeOnly_setOwned _ l (fun x => l :: x))
    dsimp only
    split
    · exact h.trans ⟨_, _, _, _, _, rfl⟩
    · exact h
  · exact .refl s

theorem homeOnly_dropLine (s : State) (l : Nat) : HomeOnly s (s.dropLine l) := ⟨_, _, _, _, _, rfl⟩

theorem homeOnly_touchLine (s : State) (l : Nat) (t : BitVec 40) : HomeOnly s (s.touchLine l t) := by
  have h := s.homeOnly_reown l
  unfold touchLine
  dsimp only
  refine HomeOnly.setSlice ?_ _ _
  split
  · exact h
  · split
    · exact h
    · split
      · exact h
      · exact h.trans (homeOnly_dropLine _ _)

theorem homeOnly_settle (s : State) (w : Nat) (r : CellRec) : HomeOnly s (s.settle w r) := by
  have h := HomeOnly.refl s
  unfold settle
  dsimp only
  split
  · split
    · exact ((h.setVal w _).setRec w _).trans (homeOnly_touchLine _ _ _)
    · exact h.setRec w _
  · split
    · exact (h.setVal w _).setRec w _
    · exact h.setRec w _

theorem homeOnly_evictRecs (s : State) (k n : Nat) : HomeOnly s (s.evictRecs k n) := by
  induction n generalizing s with
  | zero => exact .refl s
  | succ n ih =>
    unfold evictRecs
    split
    · exact .refl s
    · split
      · exact .refl s
      · exact .trans ⟨_, _, _, _, _, rfl⟩ (ih _)

theorem homeOnly_makeRoom {s t : State} {k : Nat} (h : s.makeRoom k = some t) : HomeOnly s t := by
  unfold makeRoom at h
  dsimp only at h
  split at h
  · cases h
    exact s.homeOnly_evictRecs k 4096
  · cases h

theorem homeOnly_withVals (s : State) (w : Nat) (r : CellRec) (vals : List CellVal) (b : Option Word) :
    HomeOnly s (s.withVals w r vals b).2 := by
  unfold withVals
  split
  · dsimp only
    split
    · exact (HomeOnly.refl s).setSlice _ _
    · exact .refl s
  · exact .refl s

theorem homeOnly_applyVals {s t : State} {w : Nat} {nv : CellVal} {x : List CellVal × Option Word} {rv : Option VVec}
    (h : s.applyVals w nv x rv = some t) : HomeOnly s t := by
  unfold applyVals at h
  dsimp only at h
  split at h
  · cases h
  · split at h
    · cases h
    · next u hroom =>
      split at h
      · cases h
        have hvals := (s.homeOnly_reown (w / 32)).trans (homeOnly_withVals _ w ((s.reown (w / 32)).cellRec w) x.1 x.2)
        have hu : HomeOnly s u := (hvals.setRec w _).trans (homeOnly_makeRoom hroom)
        exact hu.trans ((homeOnly_settle _ _ _).trans (homeOnly_touchLine _ _ _))
      · cases h

theorem homeOnly_applyStore {s t : State} {w : Nat} {cv : Option Nat} {nv : CellVal} {V : VVec} {rv : Option VVec}
    (h : s.applyStore w cv nv V rv = some t) : HomeOnly s t := homeOnly_applyVals h

theorem homeOnly_fill (s : State) (w : Nat) (x : L1Word) : HomeOnly s (s.fill w x) := by
  have h (v : Word) := (HomeOnly.refl s).setWord w v
  unfold fill
  dsimp only
  split
  · exact .refl s
  · split
    · split
      · split
        · split
          · exact (h _).setPois w _
          · exact (((h _).setPois w _).setRec w _).trans (homeOnly_touchLine _ _ _)
        · exact .refl s
      · exact s.homeOnly_settle _ _
    · exact (h _).setPois w _

end State

/-! ### Words on their way between the L1s and the homes -/

/-- `t` has the teams and the acting group of `s`, and no L1 a word that it lacked. -/
structure State.TeamsKept (s t : State) : Prop where
  teams : t.teams = s.teams
  cur : t.cur = s.cur
  absent : ∀ c w, s.l1At c w = none → t.l1At c w = none

/-- `t` has the groups of `s` as well. -/
structure State.AllKept (s t : State) : Prop extends State.TeamsKept s t where
  groups : t.groups = s.groups

namespace State.TeamsKept

theorem refl (s : State) : TeamsKept s s := ⟨rfl, rfl, fun _ _ h => h⟩

theorem trans {s t u : State} (h : TeamsKept s t) (h' : TeamsKept t u) : TeamsKept s u :=
  ⟨h'.teams.trans h.teams, h'.cur.trans h.cur, fun c w hn => h'.absent c w (h.absent c w hn)⟩

theorem foldl {β : Type} (f : State → β → State) (h : ∀ s x, TeamsKept s (f s x)) (l : List β) (s : State) :
    TeamsKept s (l.foldl f s) := by
  induction l generalizing s with
  | nil => exact refl s
  | cons x r ih => exact (h s x).trans (ih (f s x))

/-- A core whose L1 lacks what it lacked. -/
theorem setCore (s : State) (c : Nat) (k : Core) (h : ∀ w, s.l1At c w = none → find k.l1 w = none) : TeamsKept s (s.setCore c k) := by
  refine ⟨rfl, rfl, fun d w hn => ?_⟩
  unfold l1At
  rw [core_setCore]
  split
  · next hd => exact h w (hd ▸ hn)
  · exact hn

end State.TeamsKept

namespace State.AllKept

theorem refl (s : State) : AllKept s s := ⟨.refl s, rfl⟩

theorem trans {s t u : State} (h : AllKept s t) (h' : AllKept t u) : AllKept s u :=
  ⟨h.toTeamsKept.trans h'.toTeamsKept, h'.groups.trans h.groups⟩

theorem foldl {β : Type} (f : State → β → State) (h : ∀ s x, AllKept s (f s x)) (l : List β) (s : State) :
    AllKept s (l.foldl f s) := by
  induction l generalizing s with
  | nil => exact refl s
  | cons x r ih => exact (h s x).trans (ih (f s x))

theorem of_homeOnly {s t : State} (h : State.HomeOnly s t) : AllKept s t :=
  ⟨⟨h.teams, h.cur, fun c w hn => by rw [l1At, core, h.cores]; exact hn⟩, h.groups⟩

theorem setCore (s : State) (c : Nat) (k : Core) (h : ∀ w, s.l1At c w = none → find k.l1 w = none) : AllKept s (s.setCore c k) :=
  ⟨.setCore s c k h, rfl⟩

/-- A word that an L1 holds changes there. -/
theorem setL1 (s : State) (c w : Nat) (x : L1Word) (h : s.l1At c w ≠ none) : AllKept s (s.setL1 c w x) :=
  .setCore s c _ (fun u hu => by
    have hne : u ≠ w := fun e => h (by rw [← e]; exact hu)
    rw [find_put, if_neg hne]
    exact hu)

end State.AllKept

open State (TeamsKept AllKept)

namespace State

theorem l1At_setL1 (s : State) (c d w u : Nat) (x : L1Word) :
    (s.setL1 c w x).l1At d u = if d = c ∧ u = w then some x else s.l1At d u := by
  unfold l1At setL1
  rw [core_setCore]
  by_cases hd : d = c
  · subst hd
    simp only [if_true, find_put, true_and]
  · simp only [hd, if_false, false_and]

theorem allKept_expectAck (s : State) (g w : Nat) (m : BitVec 4) : AllKept s (s.expectAck g w m) := by
  unfold expectAck
  split
  · exact ⟨⟨rfl, rfl, fun _ _ h => h⟩, rfl⟩
  · exact .refl s

theorem l1At_fill (s : State) (w : Nat) (x : L1Word) (c u : Nat) : (s.fill w x).l1At c u = s.l1At c u := by
  rw [l1At, core, (s.homeOnly_fill w x).cores]
  rfl

theorem allKept_writeBack (s : State) (c w : Nat) : AllKept s (s.writeBack c w) := by
  unfold writeBack
  split
  · exact .refl s
  · next x hx =>
    split
    · refine ((AllKept.of_homeOnly (s.homeOnly_fill w x)).trans (.setL1 _ c w _ ?_)).trans (allKept_expectAck _ _ _ _)
      rw [l1At_fill, hx]
      exact Option.some_ne_none x
    · exact .refl s

theorem allKept_writeBackAll (s : State) (w : Nat) (k : Option Nat) : AllKept s (s.writeBackAll w k) :=
  .foldl _ (fun t e => by
    split
    · exact .refl t
    · exact t.allKept_writeBack _ _) _ s

theorem allKept_homeStore {s t : State} {w : Nat} {cv : Option Nat} {q : StoreReq} {m : BitVec 4} {v : Word}
    (h : s.homeStore w cv q m v = some t) : AllKept s t := by
  have hback := s.allKept_writeBackAll w (some q.core)
  unfold homeStore at h
  dsimp only at h
  split at h
  · exact hback.trans (.of_homeOnly (homeOnly_applyStore h))
  · cases h
    exact hback.trans (.of_homeOnly (((HomeOnly.refl _).setWord w _).setPois w _))

theorem allKept_tryWords {s t : State} {cv : Option Nat} {q : StoreReq} (h : s.tryWords cv q = .ok t) : AllKept s t := by
  unfold tryWords at h
  split at h
  · cases h
  · next u hfirst =>
    split at h
    · cases h
      exact allKept_homeStore hfirst
    · split at h
      · cases h
      · next hsecond =>
        cases h
        exact (allKept_homeStore hfirst).trans (allKept_homeStore hsecond)

theorem allKept_triggerAs (s : State) (ws : List Nat) (d : Dot) (v : Nat → Word) : AllKept s (s.triggerAs ws d v) :=
  .foldl _ (fun t e => by
    dsimp only
    split
    · exact .refl t
    · split
      · exact .of_homeOnly ((HomeOnly.refl t).setSlice _ _)
      · exact (AllKept.of_homeOnly ((HomeOnly.refl t).setSlice _ _)).trans (.setCore _ _ _ (fun _ hn => hn))) _ s

theorem allKept_fires (s : State) (q : StoreReq) : AllKept s (s.fires q) := by
  unfold fires
  split
  · exact s.allKept_triggerAs _ _ _
  · exact .refl s

theorem allKept_register (s : State) (c w g : Nat) (m : BitVec 4) : AllKept s (s.register c w g m) := by
  unfold register
  split
  · next x hx =>
    split
    · exact .setL1 s c w _ (by rw [hx]; exact Option.some_ne_none x)
    · exact s.allKept_expectAck _ _ _
  · exact s.allKept_expectAck _ _ _

theorem allKept_tryStore {s t : State} {q : StoreReq} (h : s.tryStore q = .ok t) : AllKept s t := by
  unfold tryStore at h
  cases hw : s.tryWords (s.reqConv q) q with
  | error e => rw [hw] at h; cases h
  | ok u =>
    rw [hw] at h
    cases h
    exact (allKept_tryWords hw).trans ((AllKept.foldl _ (fun t w => t.allKept_register _ _ _ _) _ u).trans
      (allKept_fires _ _))

theorem allKept_storeAtHome {s t : State} {q : StoreReq} (h : s.storeAtHome q = some t) : AllKept s t := by
  unfold storeAtHome at h
  split at h
  · next u hu =>
    cases h
    exact (s.allKept_writeBackAll q.w none).trans ((allKept_tryWords hu).trans
      ((u.allKept_expectAck q.grp q.w q.mask).trans (allKept_fires _ q)))
  · cases h

/-! ### Registrations, and room in an L1 -/

theorem find_filter_none {α : Type} {m : List (Nat × α)} {w : Nat} (p : Nat × α → Bool) (h : find m w = none) :
    find (m.filter p) w = none := by
  induction m with
  | nil => rfl
  | cons e r ih =>
    obtain ⟨j, v⟩ := e
    have hj : j ≠ w := fun c => by simp [find, c] at h
    have hr : find r w = none := by simpa [find, hj] using h
    rw [List.filter_cons]
    split
    · simpa [find, hj] using ih hr
    · exact ih hr

theorem teamsKept_parkFailed (s : State) (q : StoreReq) (w : Nat) : TeamsKept s (s.parkFailed q w) := by
  refine ⟨rfl, rfl, fun c u hn => ?_⟩
  rw [l1At, parkFailed, addPend]
  change find ((s.setCore q.core _).core c).l1 u = none
  rw [core_setCore]
  split
  · next hc => exact find_filter_none _ (hc ▸ hn)
  · exact hn

theorem teamsKept_testStore (s : State) (q : StoreReq) : TeamsKept s (s.testStore q) := by
  unfold testStore
  split
  · next h => exact (allKept_tryStore h).toTeamsKept
  · split
    · exact ⟨rfl, rfl, fun _ _ h => h⟩
    · exact s.teamsKept_parkFailed q _

theorem teamsKept_flushReqs (s : State) (c w : Nat) : TeamsKept s (s.flushReqs c w) := by
  have h := TeamsKept.foldl testStore teamsKept_testStore (s.regQ.filter (reqHits c w))
    { s with regQ := s.regQ.filter (fun q => !(reqHits c w q)) }
  exact ⟨h.teams, h.cur, h.absent⟩

theorem teamsKept_evictLine (s : State) (c l : Nat) : TeamsKept s (s.evictLine c l) :=
  (TeamsKept.foldl (fun s w => (s.flushReqs c w).writeBack c w)
    (fun t w => (t.teamsKept_flushReqs c w).trans (allKept_writeBack _ c w).toTeamsKept) _ s).trans
    (.setCore _ c _ (fun _ hn => find_filter_none _ hn))

theorem teamsKept_shrinkL1 (s : State) (c n fuel : Nat) : TeamsKept s (s.shrinkL1 c n fuel) := by
  induction fuel generalizing s with
  | zero => exact .refl s
  | succ fuel ih =>
    have hfree : TeamsKept s s.takeFree.2 := ⟨rfl, rfl, fun _ _ h => h⟩
    unfold shrinkL1
    dsimp only
    split
    · exact .refl s
    · split
      · exact hfree
      · exact hfree.trans ((teamsKept_evictLine _ c _).trans (ih _))

theorem teamsKept_makeLine (s : State) (c l : Nat) : TeamsKept s (s.makeLine c l) := by
  unfold makeLine
  split
  · exact .refl s
  · exact s.teamsKept_shrinkL1 _ _ _

/-! ### Translation -/

theorem allKept_orEntry (s : State) (f : BitVec 40) (pa b : Nat) : AllKept s (s.orEntry f pa b) := by
  unfold orEntry
  dsimp only
  split
  · exact .refl s
  · generalize hq : s.storeAtHome _ = o
    cases o with
    | none => exact .refl s
    | some u => exact allKept_storeAtHome hq

theorem AllKept.tlbInsert {s t : State} (h : AllKept s t) (c : Nat) (e : TlbEnt) : AllKept s (t.tlbInsert c e) :=
  h.trans (.setCore t c _ (fun _ h => h))

theorem AllKept.dtlbInsert {s t : State} (h : AllKept s t) (d : Nat) (e : TlbEnt) : AllKept s (t.dtlbInsert d e) :=
  h.trans ⟨⟨rfl, rfl, fun _ _ h => h⟩, rfl⟩

/-- A translation leaves every group and team as it stood. -/
theorem allKept_translate {s t : State} {c ctx pa : Nat} {va : DWord} {acc : AccK} {tc mt : Bool}
    (h : s.translate c ctx va acc tc = .ok t pa mt) : AllKept s t := by
  unfold translate at h
  dsimp only at h
  split at h
  · cases h
  · split at h
    · rw [useEntry_ok h]
      exact (AllKept.refl s).tlbInsert _ _
    · split at h
      · cases h
      · split at h
        · unfold postFault at h
          dsimp only at h
          split at h
          · split at h <;> cases h
          · cases h
        · cases h
        · split at h
          · cases h
          · split at h
            · cases h
            · rw [useEntry_ok h]
              exact ((AllKept.foldl _ (fun u ea => u.allKept_orEntry _ ea _) _ s).tlbInsert c _).dtlbInsert _ _

end State

end Sys2Proof.Machine
end

section
/-! A refutation of O9: inside a recovery block the result of an atomic is hidden (R380) and stays in a line of its writer's L1 (R381).
Where that L1 has no room for the line, another line leaves it, and the dirty words of that line are written home: bytes that the
atomic does not name. -/

namespace Sys2Proof.Machine

open Sys2Proof

/-! ### An L1 full of dirty host words -/

/-- A host word that a core holds registered and dirty, with the value 1. -/
def dirtyOne : L1Word := { val := 1, mask := 0xf, reg := true, whole := true }

/-- The first word of each of the `n` host lines from line `l` on, dirty. -/
def dirtyLines (l n : Nat) : Map L1Word := (List.range' l n).map (fun i => (32 * i, dirtyOne))

theorem dirtyLines_succ (l n : Nat) : dirtyLines l (n + 1) = (32 * l, dirtyOne) :: dirtyLines (l + 1) n := rfl

theorem find_dirtyLines (l n w : Nat) :
    find (dirtyLines l n) w = if w % 32 = 0 ∧ l ≤ w / 32 ∧ w / 32 < l + n then some dirtyOne else none := by
  induction n generalizing l with
  | zero => rw [if_neg (by omega)]; rfl
  | succ n ih =>
    rw [dirtyLines_succ, find, ih]
    by_cases h : 32 * l = w
    · rw [if_pos h, if_pos (by omega)]
    · rw [if_neg h]
      exact if_congr (by omega) rfl rfl

theorem linesOf_dirtyLines (l n : Nat) : linesOf (dirtyLines l n) = List.range' l n := by
  induction n generalizing l with
  | zero => rfl
  | succ n ih =>
    cases n with
    | zero => simp [dirtyLines, linesOf]
    | succ n =>
      have h := ih (l + 1)
      have hne : ¬ (32 * l / 32 = 32 * (l + 1) / 32) := by omega
      rw [dirtyLines_succ] at h ⊢
      rw [dirtyLines_succ, linesOf, if_neg hne, h, Nat.mul_div_cancel_left l (by decide)]
      rfl

theorem pinnedLines_dirtyLines (l n : Nat) : pinnedLines (dirtyLines l n) = [] := by
  have h : (dirtyLines l n).filter (fun e => e.2.hid.isSome) = [] := by
    rw [List.filter_eq_nil_iff]
    intro e he
    obtain ⟨i, -, rfl⟩ := List.mem_map.mp he
    exact Bool.false_ne_true
  rw [pinnedLines, h]
  rfl

/-! ### A line leaves -/

namespace State

/-- An L1 that holds `dirtyLines` and nothing else, with no registration on its way. -/
def Crowded (s : State) (c l n : Nat) : Prop := (s.core c).l1 = dirtyLines l n ∧ s.regQ = []

theorem flushReqs_none {s : State} (h : s.regQ = []) (c w : Nat) : s.flushReqs c w = s := by
  rw [flushReqs, testAll, h]
  cases s
  cases h
  rfl

/-- Every line of host memory below the 2^20th is outside the cells. -/
theorem isCell_host (s : State) (i : Nat) (h : i < 2 ^ 20) : s.isCell (4 * (32 * (2 ^ 40 + i))) = false := by
  have hk : kindOf (4 * (32 * (2 ^ 40 + i))) = .host := by
    unfold kindOf
    rw [if_neg (by omega), if_neg (by omega), if_neg (by omega), if_neg (by omega), if_neg (by omega), if_neg (by omega),
      if_pos (by omega)]
  simp only [isCell, hk]

theorem byte_fill_dirtyOne (s : State) (i : Nat) (h : i < 2 ^ 20) :
    (s.fill (32 * (2 ^ 40 + i)) dirtyOne).byte (4 * (32 * (2 ^ 40 + i))) = 1 := by
  have hw : ∀ v, (s.setWord (32 * (2 ^ 40 + i)) v).byte (4 * (32 * (2 ^ 40 + i))) = byteOf v 0 := fun v =>
    s.byte_setBytes_inside (4 * (32 * (2 ^ 40 + i))) 0 _ (by simp)
  unfold fill
  dsimp only
  rw [if_neg (by decide), isCell_host s i h, if_neg (by decide), byte_setPois, hw]
  simp [mixBytes, dirtyOne, wordOf, byteOf]

/-- Whether an L1 holds a word with dirty bytes. -/
def holdsDirty (s : State) (c w : Nat) : Bool :=
  match s.l1At c w with
  | some x => x.mask ≠ 0
  | none => false

/-- A line that leaves an L1: its dirty words go home first. -/
theorem byte_evictLine (s : State) (c l a : Nat) : (s.evictLine c l).byte a
    = (((lineWords l).filter (s.holdsDirty c)).foldl (fun s w => (s.flushReqs c w).writeBack c w) s).byte a := rfl

theorem filter_holdsDirty {s : State} {c n i : Nat} (h : s.Crowded c (2 ^ 40) n) (hi : i < n) :
    (lineWords (2 ^ 40 + i)).filter (s.holdsDirty c) = [32 * (2 ^ 40 + i)] := by
  have hat : ∀ j < 32, s.holdsDirty c (32 * (2 ^ 40 + i) + j) = decide (j = 0) := fun j hj => by
    have hl1 : s.l1At c (32 * (2 ^ 40 + i) + j) = if j = 0 then some dirtyOne else none := by
      rw [l1At, h.1, find_dirtyLines]
      exact if_congr (by omega) rfl rfl
    unfold holdsDirty
    rw [hl1]
    by_cases hj0 : j = 0
    · simp [hj0, dirtyOne]
    · simp [hj0]
  have hmap : ∀ l : List Nat, (∀ j ∈ l, j < 32) →
      (l.map (fun j => 32 * (2 ^ 40 + i) + j)).filter (s.holdsDirty c)
        = (l.filter (fun j => decide (j = 0))).map (fun j => 32 * (2 ^ 40 + i) + j) := by
    intro l hl
    rw [List.filter_map]
    exact congrArg _ (List.filter_congr (fun j hj => hat j (hl j hj)))
  exact (hmap _ (fun j hj => List.mem_range.mp hj)).trans rfl

/-- The dirty word of a line that leaves reaches its home. -/
theorem byte_evictLine_dirty {s : State} {c n i : Nat} (h : s.Crowded c (2 ^ 40) n) (hn : n ≤ 2 ^ 20) (hi : i < n) :
    (s.evictLine c (2 ^ 40 + i)).byte (4 * (32 * (2 ^ 40 + i))) = 1 := by
  have hat : s.l1At c (32 * (2 ^ 40 + i)) = some dirtyOne := by
    rw [l1At, h.1, find_dirtyLines, if_pos (by omega)]
  have hack : ∀ (t : State) (g w a : Nat) (m : BitVec 4), (t.expectAck g w m).byte a = t.byte a := fun t g w a m => by
    unfold expectAck
    split <;> rfl
  rw [byte_evictLine, filter_holdsDirty h hi, List.foldl_cons, List.foldl_nil, flushReqs_none h.2, writeBack, hat]
  dsimp only
  rw [if_pos (by decide), hack]
  exact s.byte_fill_dirtyOne i (by omega)

/-- Room made for a line in an L1 that is full: the dirty word of one of its lines reaches its home. -/
theorem byte_makeLine {s : State} {c l n : Nat} (h : s.Crowded c (2 ^ 40) n) (hn : n ≤ 2 ^ 20) (hcap : s.l1Cap c ≤ n) (h0 : 0 < n)
    (hl : l < 2 ^ 40) : ∃ i < n, (s.makeLine c l).byte (4 * (32 * (2 ^ 40 + i))) = 1 := by
  have hlines : linesOf (s.core c).l1 = List.range' (2 ^ 40) n := by rw [h.1, linesOf_dirtyLines]
  have hfree : (List.range' (2 ^ 40) n).filter (fun l => !((pinnedLines (s.core c).l1).contains l)) = List.range' (2 ^ 40) n := by
    rw [h.1, pinnedLines_dirtyLines]
    simp
  have habsent : (linesOf (s.core c).l1).contains l = false := by
    rw [hlines]
    simp [List.mem_range']
    omega
  have hi : Config.victim s.free % n < n := Nat.mod_lt _ h0
  refine ⟨_, hi, ?_⟩
  rw [makeLine, habsent, if_neg (by decide), shrinkL1]
  dsimp only
  rw [hlines, if_neg (by rw [List.length_range']; omega)]
  have hget : (List.range' (2 ^ 40) n)[Config.victim s.free % n]? = some (2 ^ 40 + Config.victim s.free % n) := by
    rw [List.getElem?_range' hi, Nat.one_mul]
  rw [hfree, List.length_range', show s.takeFree.1 = s.free from rfl, hget]
  exact byte_evictLine_dirty (s := s.takeFree.2) h hn hi

end State

/-! ### The atomic -/

/-- A page of near memory, writable. -/
def nearPage : TlbEnt := { ctx := 1, vpn := 0, size := 2 ^ 30, pa := 0, w := true, x := true, prg := true, mt := false, d := true }

/-- A group whose x9 points at a word of near memory that nothing has written, and whose x6 holds 9. -/
def adder : Group := (({ seat := 0, gw := 8, k0 := 0xff, pc := 0x10000 } : Group).setX 9 0x1000).setX 6 9

/-- A team inside one recovery block. -/
def guardedTeam (caps : List Cap) : Team := { ctx := 1, levels := [{ endA := 0, errA := 0, alts := [], limit := 0, caps := caps }] }

/-- Its core's L1 is full: 24,576 lines with a dirty word each. -/
def crowded (caps : List Cap) : State :=
  { State.reset with
    groups := [(0, adder)], ctxs := [(1, {})], teams := [(0, guardedTeam caps)]
    cores := [(0, { l1 := dirtyLines (2 ^ 40) 24576, tlb := [nearPage] })] }

theorem crowded_l1 (caps : List Cap) : (crowded caps).Crowded 0 (2 ^ 40) 24576 := ⟨rfl, rfl⟩

theorem translate_crowded (caps : List Cap) : (crowded caps).translate 0 1 0x1000 .write false = .ok (crowded caps) 0x1000 false := by
  have hunmapped : (crowded caps).unmapped 0x1000 = false := (rfl : _ = (crowded []).unmapped 0x1000).trans (by decide)
  have huse : (crowded caps).useEntry nearPage 0x1000 .write false = .ok (crowded caps) 0x1000 false := by
    unfold State.useEntry
    dsimp only
    rw [if_neg (by decide), if_neg (show ¬ (crowded caps).unmapped (nearPage.pa + 0x1000 % nearPage.size) = true by
      rw [show nearPage.pa + 0x1000 % nearPage.size = 0x1000 from rfl, hunmapped]; decide)]
    rfl
  unfold State.translate
  dsimp only
  rw [if_neg (by decide)]
  exact huse

/-- The checks of the atomic pass. -/
theorem chkOrdered_crowded (caps : List Cap) :
    (crowded caps).chkOrdered 0 adder 0x1000 4 true (scopePermits .dev .add) = .ok (crowded caps) 0x1000 false := by
  unfold State.chkOrdered
  rw [if_neg (by decide), if_neg (by decide), chkPage_ok (translate_crowded caps)]
  unfold State.chkPlace
  rw [if_neg (by decide), if_neg (show ¬ (crowded caps).poolTrap 0x1000 ≠ 0 from fun h => h rfl)]
  exact if_neg Bool.false_ne_true

theorem registrants_one {s : State} {c w : Nat} {k : Core} (hc : s.cores = [(c, k)]) (hw : find k.l1 w = none) :
    s.registrants w = [] := by
  simp only [State.registrants, hc, List.filterMap_cons, hw, List.filterMap_nil]

theorem find_crowded : find (dirtyLines (2 ^ 40) 24576) 0x400 = none := by
  rw [find_dirtyLines, if_neg (by omega)]

theorem registrants_crowded (caps : List Cap) : (crowded caps).registrants 0x400 = [] := registrants_one rfl find_crowded

/-- What the block captures of the atomic's line. -/
def lineBefore : Cap := .line 32 ((lineWords 32).map (fun u => ((crowded []).loadWord 0 u (some 0)).2.1))

theorem captureLine_crowded : (crowded []).captureLine 0 0x400 true = some (crowded [lineBefore]) := by
  have hpinned : (crowded []).pinned (teamCore 0) = [] := pinnedLines_dirtyLines _ _
  have hfit : (crowded []).granFit 0 (capGran lineBefore) = true := by decide
  have hat : (crowded []).captureAt 0 1 lineBefore = some (crowded [lineBefore]) := by
    rw [State.captureAt, show find (crowded []).teams 0 = some (guardedTeam []) from rfl]
    dsimp only [guardedTeam, List.length_cons, List.length_nil, List.drop]
    refine (if_neg Bool.false_ne_true).trans ((if_pos hfit).trans ?_)
    rfl
  rw [State.captureLine, show (crowded []).depth 0 = 1 from rfl, State.captureLineAt,
    show find (crowded []).teams 0 = some (guardedTeam []) from rfl]
  dsimp only [guardedTeam, List.length_cons, List.length_nil, List.drop]
  rw [hpinned]
  exact (if_neg Bool.false_ne_true).trans ((if_neg Bool.false_ne_true).trans hat)

theorem writeBackAll_none {s : State} {w : Nat} (h : s.registrants w = []) (k : Option Nat) : s.writeBackAll w k = s := by
  rw [State.writeBackAll, h, List.foldl_nil]

/-- A word that no L1 holds and no registration names is at its home. -/
theorem bringHome_none {s : State} {c w : Nat} (hq : s.regQ = []) (hr : s.registrants w = []) (hl : s.l1At c w = none) :
    s.bringHome c w = s := by
  have h : ((s.flushReqs c w).writeBackAll w none).fillHidden w = s := by
    rw [State.flushReqs_none hq, writeBackAll_none hr, State.fillHidden, hr, List.foldl_nil]
  unfold State.bringHome
  dsimp only
  rw [h, hl]

theorem l1At_crowded (caps : List Cap) : (crowded caps).l1At 0 0x400 = none := find_crowded

theorem atomRead_crowded : (crowded []).atomRead 0 0x400 = (crowded [], 0, {}, 0) := by
  have hval : viewVal ((crowded []).view 0x400 ((crowded []).groupConv 0)) = 0 := by decide
  have hdot : (((crowded []).view 0x400 ((crowded []).groupConv 0)).map (·.dot)).headD {} = {} := by decide
  have hcnt : viewCnt ((crowded []).view 0x400 ((crowded []).groupConv 0)) = 0 := by decide
  unfold State.atomRead
  dsimp only
  rw [show coreOf 0 = 0 from rfl, bringHome_none rfl (registrants_crowded []) (l1At_crowded []), hval, hdot, hcnt, ite_self]

/-- The write of an atomic's result at its home (R265). -/
def atomReq (s : State) (k : Nat) (g : Group) (va : DWord) (w : Nat) (new : Word) (rd : Dot) (hid : Option HidTag) : StoreReq :=
  { s.reqOf k g va (4 * w) with val := new, hid := hid, dot := newDot s g, vec := domVec (storeVec g.vv (newDot s g)) rd }

theorem atomWrite_ok {s s1 t : State} {k w : Nat} {g : Group} {va : DWord} {new : Word} {rd : Dot} {q : StoreReq}
    (hcap : s.captureLine g.seat w (s.hidTag g.seat w).isSome = some s1)
    (hq : atomReq (s1.noteWrote g.seat w) k g va w new rd (s.hidTag g.seat w) = q)
    (hhome : (s1.noteWrote g.seat w).storeAtHome q = some t) :
    s.atomWrite k g va w new rd = some ((t.keepHidden w q).stampDot k q.dot, 0) := by
  subst hq
  unfold atomReq at hhome ⊢
  simp only [State.atomWrite, hcap, hhome]

theorem exec_amo_home {s s1 s2 : State} {g : Group} {op : AtomOp} {sc : Scope} {d a b : XReg} {pa cnt : Nat} {mt : Bool}
    {old : Word}
    (hg : s.grp = some g) (hsc : ¬ scopeNum sc < 2) (hclus : sc ≠ .clus) (hlate : g.late = false)
    (hchk : s.chkOrdered s.cur g (g.x a) 4 true (scopePermits sc op) = .ok s1 pa mt) (hpark : s1.parkedHit s1.cur (g.x a) 4 = false)
    (hatom : s1.atomGlobal s1.cur (g.x a) (pa / 4) op (amoTy op) ((g.x b).truncate 32) ((g.x d).truncate 32)
      = some (s2, old, cnt)) :
    exec (.amo op sc d a b) s
      = doneWith (s2.countAcc s2.cur (pathOfPa pa)).2 (fun g => g.setAmo d (amoOld op old) cnt) := by
  change execAmo op sc d a b s = _
  rw [execAmo, withG_some hg]
  simp only [if_neg hsc, hchk, hpark, hlate, isClus, decide_eq_false hclus, hatom, Bool.or_self, Bool.false_eq_true, if_false]

/-- The write of the atomic's result, hidden under the block. -/
def hiddenAdd : StoreReq := atomReq (crowded [lineBefore]) 0 adder 0x1000 0x400 9 {} (some { team := 0, conv := 0, level := 1 })

/-- What a store puts in its cell (R288, R290). -/
def cellValOf (s : State) (cv : Option Nat) (q : StoreReq) : CellVal :=
  { val := (s.mixStore q.w cv q.mask q.val q.pois).1, dot := q.dot, hid := q.hid
    pois := (s.mixStore q.w cv q.mask q.val q.pois).2, pair := q.words.find? (fun u => u ≠ q.w) }

/-- A hidden write of one cell that no L1 holds registered is one store at its home. -/
theorem storeAtHome_hidden {s t : State} {q : StoreReq} (hreg : s.registrants q.w = []) (hcell : s.isCell (4 * q.w) = true)
    (hpair : q.pair = none) (hhid : q.hid.isNone = false) (hhost : (isHost (4 * q.w) || (poolOf (4 * q.w)).isSome) = false)
    (h : s.applyStore q.w (s.reqConv q) (cellValOf s (s.reqConv q) q) q.vec (if q.rel then some q.vec else none) = some t) :
    s.storeAtHome q = some t := by
  have hhome : s.homeStore q.w (s.reqConv q) q q.mask q.val = some t := by
    unfold State.homeStore
    dsimp only
    rw [writeBackAll_none hreg, if_pos hcell]
    exact h
  simp only [State.storeAtHome, writeBackAll_none hreg, State.tryWords, hhome, hpair, State.expectAck, hhost, State.fires, hhid,
    Bool.false_eq_true, if_false]

/-- The result is written at its home, which leaves the L1s as they were. -/
theorem storeAtHome_crowded : ∃ u, (crowded [lineBefore]).storeAtHome hiddenAdd = some u ∧ State.HomeOnly (crowded [lineBefore]) u := by
  have hsome : ((crowded [lineBefore]).applyStore hiddenAdd.w ((crowded [lineBefore]).reqConv hiddenAdd)
      (cellValOf (crowded [lineBefore]) ((crowded [lineBefore]).reqConv hiddenAdd) hiddenAdd) hiddenAdd.vec
      (if hiddenAdd.rel then some hiddenAdd.vec else none)).isSome = true := by decide
  obtain ⟨u, hu⟩ := Option.isSome_iff_exists.mp hsome
  have hreg : (crowded [lineBefore]).registrants hiddenAdd.w = [] := registrants_crowded [lineBefore]
  exact ⟨u, storeAtHome_hidden hreg (by decide) rfl rfl (by decide) hu, State.homeOnly_applyStore hu⟩

/-- The atomic's line makes another leave: the dirty word of a host line goes home. -/
theorem atomGlobal_crowded : ∃ u, (crowded []).atomGlobal 0 0x1000 0x400 .add .i32 9 0 = some (u, 0, 0)
    ∧ State.GroupsKept (crowded []) u ∧ ∃ i < 24576, u.byte (4 * (32 * (2 ^ 40 + i))) = 1 := by
  obtain ⟨v, hv, hhome⟩ := storeAtHome_crowded
  have hl1 : v.l1At 0 0x400 = none := by
    rw [State.l1At, State.core, hhome.cores]
    exact l1At_crowded []
  have hfull : v.Crowded 0 (2 ^ 40) 24576 := by
    obtain ⟨_, _, _, _, _, rfl⟩ := hhome
    exact ⟨rfl, rfl⟩
  have hcap : v.l1Cap 0 ≤ 24576 := by
    unfold State.l1Cap
    omega
  obtain ⟨i, hi, hbyte⟩ := State.byte_makeLine (l := 32) hfull (by decide) hcap (by decide) (by decide)
  have hkeep : ∃ x, v.keepHidden 0x400 hiddenAdd = (v.makeLine 0 32).setL1 0 0x400 x := by
    unfold State.keepHidden
    rw [show hiddenAdd.core = 0 from rfl, hl1]
    exact ⟨_, rfl⟩
  obtain ⟨x, hx⟩ := hkeep
  have hwrite : (crowded []).atomWrite 0 adder 0x1000 0x400 9 {}
      = some ((v.keepHidden 0x400 hiddenAdd).stampDot 0 hiddenAdd.dot, 0) := atomWrite_ok captureLine_crowded rfl hv
  refine ⟨(v.keepHidden 0x400 hiddenAdd).stampDot 0 hiddenAdd.dot, ?_, ?_, i, hi, ?_⟩
  · unfold State.atomGlobal
    rw [show find (crowded []).groups 0 = some adder from rfl]
    dsimp only
    rw [atomRead_crowded]
    dsimp only
    rw [if_neg (by decide), show atomNew .add .i32 0 9 0 = 9 from rfl, if_neg (by decide), hwrite]
    rfl
  · have hcaps : State.GroupsKept (crowded []) v := .of_eq hhome.cur hhome.groups
    rw [hx]
    exact (hcaps.trans ((State.groupsKept_makeLine v 0 32).setL1 0 0x400 x)).trans (State.groupsKept_stampDot _ _ _)
  · rw [hx]
    exact hbyte

/-- Refutes O9: an atomic inside a recovery block, where the L1 of its core is full of dirty host lines. Its hidden result takes a
line, and the line that leaves changes a byte of host memory. -/
theorem not_storeFrame : ¬ Obligations.StoreFrame := by
  unfold Obligations.StoreFrame
  intro h
  obtain ⟨u, hu, hkept, i, hi, hbyte⟩ := atomGlobal_crowded
  have hgrp : (crowded []).grp = some adder := rfl
  obtain ⟨t, ht, htb⟩ : ∃ t, exec (.amo .add .dev 4 9 6) (crowded []) = .next t ∧ ∀ a, t.byte a = u.byte a := by
    obtain ⟨g2, hg2, hbytes⟩ : ∃ g2, (u.countAcc u.cur (pathOfPa 0x1000)).2.grp = some g2
        ∧ ∀ a, (u.countAcc u.cur (pathOfPa 0x1000)).2.byte a = u.byte a := by
      obtain ⟨g2, hg2, -⟩ := hkept.grp hgrp
      have hfind : find u.groups u.cur = some g2 := hg2
      simp only [State.countAcc, hfind]
      exact ⟨_, by rw [State.grp, find_put, if_pos rfl], fun _ => rfl⟩
    have hexec : exec (.amo .add .dev 4 9 6) (crowded [])
        = doneWith (u.countAcc u.cur (pathOfPa 0x1000)).2 (fun g => g.setAmo 4 (amoOld .add 0) 0) :=
      exec_amo_home hgrp (by decide) (by decide) rfl (chkOrdered_crowded []) rfl hu
    rw [hexec, doneWith_ends hg2]
    exact ⟨_, rfl, hbytes⟩
  obtain ⟨-, -, -, hatomic⟩ := h (crowded []) t adder 4 9 6 0 4 hgrp (.inl rfl)
  have hsame := (hatomic .add .dev (crowded []) u 0 0 0x1000 false (by decide) rfl ht (chkOrdered_crowded []) rfl rfl hu).1
    (4 * (32 * (2 ^ 40 + i))) (by omega)
  rw [htb, hbyte] at hsame
  exact absurd hsame (show (1 : Byte) ≠ 0 by decide)

end Sys2Proof.Machine
end

section
/-! A store that enters its core's L1 (R243, R287): where the L1 held the words of it as copies or as the storing group's own, it
holds them with the value stored. -/

namespace Sys2Proof.Machine

open Sys2Proof

/-! ### Conversations -/

/-- Every group belongs to the conversation that it belonged to. -/
def State.ConvKept (s t : State) : Prop := ∀ k, t.groupConv k = s.groupConv k

namespace State.ConvKept

theorem refl (s : State) : ConvKept s s := fun _ => rfl

theorem trans {s t u : State} (h : ConvKept s t) (h' : ConvKept t u) : ConvKept s u := fun k => (h' k).trans (h k)

/-- The teams and the groups' seats say which. -/
theorem of_teams {s t : State} (hteams : t.teams = s.teams) (hgroups : State.GroupsKept s t) : ConvKept s t := by
  intro k
  have hconv : ∀ j, teamConv t j = teamConv s j := fun j => by rw [teamConv, teamConv, hteams]
  have hk := hgroups.2 k
  have hseat (o : Option Group) : o.map (fun g => teamConv s g.seat) = (o.map Group.settled).map (fun g => teamConv s g.seat) := by
    cases o <;> rfl
  simp only [groupConv, hconv]
  rw [hseat, hk, ← hseat]

theorem reqConv {s t : State} (h : ConvKept s t) (q : StoreReq) : t.reqConv q = s.reqConv q := by
  unfold State.reqConv
  rw [h]

end State.ConvKept

open State (ConvKept)

/-! ### The lines of an L1 -/

/-- A word that an L1 holds lies in a line that it holds. -/
theorem mem_linesOf_of_find {m : Map L1Word} {w : Nat} (h : find m w ≠ none) : w / 32 ∈ linesOf m := by
  induction m using linesOf.induct generalizing w with
  | case1 => exact (h rfl).elim
  | case2 e =>
    have hw : e.1 = w := by
      by_contra hne
      exact h (by simp [find, hne])
    simp [linesOf, hw]
  | case3 e f r he ih =>
    rw [linesOf, if_pos he]
    by_cases hw : e.1 = w
    · rw [← hw, he]
      exact ih (w := f.1) (by simp [find])
    · exact ih (by simpa [find, hw] using h)
  | case4 e f r he ih =>
    rw [linesOf, if_neg he]
    by_cases hw : e.1 = w
    · exact hw ▸ List.mem_cons_self
    · exact List.mem_cons_of_mem _ (ih (by simpa [find, hw] using h))

namespace State

/-- An L1 holds word `u` as it did, or lacked it and holds a copy. -/
def Filled (c u : Nat) (s t : State) : Prop :=
  t.l1At c u = s.l1At c u ∨ (s.l1At c u = none ∧ ∃ x, t.l1At c u = some x ∧ x.mask = 0 ∧ x.hid = none)

theorem Filled.refl (c u : Nat) (s : State) : Filled c u s s := .inl rfl

theorem Filled.trans {c u : Nat} {s t r : State} (h : Filled c u s t) (h' : Filled c u t r) : Filled c u s r := by
  rcases h with h | ⟨hs, x, hx, hx'⟩
  · rcases h' with h' | ⟨ht, hr⟩
    · exact .inl (h'.trans h)
    · exact .inr ⟨h ▸ ht, hr⟩
  · rcases h' with h' | ⟨ht, -⟩
    · exact .inr ⟨hs, x, h'.trans hx, hx'⟩
    · rw [hx] at ht; cases ht

theorem filled_foldl {β : Type} (c u : Nat) (f : State → β → State) (h : ∀ s x, Filled c u s (f s x)) (l : List β) (s : State) :
    Filled c u s (l.foldl f s) := by
  induction l generalizing s with
  | nil => exact .refl c u s
  | cons x r ih => exact (h s x).trans (ih (f s x))

/-- Room for a line leaves the line's own words as they are. -/
theorem l1At_makeLine (s : State) (c u : Nat) : (s.makeLine c (u / 32)).l1At c u = s.l1At c u := by
  by_cases hu : s.l1At c u = none
  · rw [hu, (s.teamsKept_makeLine c (u / 32)).absent c u hu]
  · rw [makeLine, if_pos]
    exact List.contains_iff_mem.mpr (mem_linesOf_of_find hu)

theorem filled_fillLine (s : State) (c u : Nat) (cv : Option Nat) : Filled c u s (s.fillLine c (u / 32) cv) := by
  refine Filled.trans (.inl (s.l1At_makeLine c u)) (filled_foldl c u _ (fun t w => ?_) _ _)
  split
  · exact .refl c u t
  · next hw =>
    split
    · by_cases hu : u = w
      · refine .inr ⟨hu ▸ hw, (s.makeLine c (u / 32)).copyOf w cv, ?_, rfl, rfl⟩
        rw [l1At_setL1, if_pos ⟨rfl, hu⟩]
      · left
        rw [l1At_setL1, if_neg (fun h => hu h.2)]
    · exact .refl c u t

theorem teams_foldl {β : Type} (f : State → β → State) (h : ∀ s x, (f s x).teams = s.teams) (l : List β) (s : State) :
    (l.foldl f s).teams = s.teams := by
  induction l generalizing s with
  | nil => rfl
  | cons x r ih => rw [List.foldl_cons, ih, h]

theorem teams_fillLine (s : State) (c l : Nat) (cv : Option Nat) : (s.fillLine c l cv).teams = s.teams := by
  refine (teams_foldl _ (fun t w => ?_) _ _).trans (s.teamsKept_makeLine c l).teams
  split
  · rfl
  · split <;> rfl

theorem convKept_fillLine (s : State) (c l : Nat) (cv : Option Nat) : ConvKept s (s.fillLine c l cv) :=
  .of_teams (s.teams_fillLine c l cv) (s.groupsKept_fillLine c l cv)

/-! ### One word -/

/-- An L1 takes word `w` of a store for what it is: it lacks it, or shows it to the storing group as a copy or as that group's own;
one that is registered only where `regd` says so. -/
def Ready (s : State) (q : StoreReq) (regd : Bool) (w : Nat) : Prop :=
  ∀ x, s.l1At q.core w = some x → l1Visible x (s.reqConv q) = true
    ∧ (x.mask = 0 ∨ (x.dot.serial = q.dot.serial ∧ x.hid = q.hid ∧ (x.reg = true → regd = true)))

/-- An L1 holds word `w` as a store has written it. -/
def Entered (s : State) (q : StoreReq) (regd : Bool) (w : Nat) (v : Word) : Prop :=
  ∃ y, s.l1At q.core w = some y ∧ y.val = v ∧ y.hid = q.hid ∧ (y.reg = true → regd = true)

theorem Ready.of_filled {s t : State} {q : StoreReq} {r : Bool} {u : Nat} (h : s.Ready q r u) (hf : Filled q.core u s t)
    (hc : ConvKept s t) : t.Ready q r u := by
  intro x hx
  rw [hc.reqConv]
  rcases hf with hf | ⟨-, y, hy, hmask, hhid⟩
  · exact h x (hf ▸ hx)
  · rw [hy] at hx
    cases hx
    exact ⟨by rw [l1Visible, hhid], .inl hmask⟩

theorem Entered.of_filled {s t : State} {q : StoreReq} {r : Bool} {u : Nat} {v : Word} (h : s.Entered q r u v)
    (hf : Filled q.core u s t) : t.Entered q r u v := by
  obtain ⟨y, hy, hval⟩ := h
  rcases hf with hf | ⟨hn, -⟩
  · exact ⟨y, hf ▸ hy, hval⟩
  · rw [hn] at hy; cases hy

theorem l1At_dirty (s : State) (q : StoreReq) (w u : Nat) (m : BitVec 4) (v : Word) (x : L1Word) :
    (s.dirty q w m v x).l1At q.core u = if u = w
      then some { val := mixBytes m x.val v, mask := x.mask ||| m, reg := x.reg, grp := q.grp, dot := q.dot, hid := q.hid
                  pois := x.pois && m ≠ 0xf, whole := x.whole || m = 0xf }
      else s.l1At q.core u := by
  simp only [dirty, l1At_setL1, true_and]

theorem convKept_dirty (s : State) (q : StoreReq) (w : Nat) (m : BitVec 4) (v : Word) (x : L1Word) :
    ConvKept s (s.dirty q w m v x) := fun _ => rfl

theorem mixBytes_all (old new : Word) : mixBytes 0xf old new = new := by
  have h : ∀ i < 4, (0xf : BitVec 4).getLsbD i = true := by decide
  simp only [mixBytes, h 0 (by decide), h 1 (by decide), h 2 (by decide), h 3 (by decide), if_true, wordOf_byteOf]

/-- What entering one whole word leaves: the word as it was written, and the other words of its line as they were, or as copies. -/
structure WordIn (s t : State) (q : StoreReq) (regd : Bool) (w : Nat) (v : Word) : Prop where
  entered : t.Entered q regd w v
  others : ∀ u, u / 32 = w / 32 → u ≠ w → Filled q.core u s t
  conv : ConvKept s t

theorem wordIn_dirty {s t : State} {q : StoreReq} {regd : Bool} {w : Nat} (v : Word) {x : L1Word} (hx : x.reg = true → regd = true)
    (hf : ∀ u, u / 32 = w / 32 → Filled q.core u s t) (hc : ConvKept s t) : WordIn s (t.dirty q w 0xf v x) q regd w v where
  entered := ⟨_, (l1At_dirty t q w w 0xf v x).trans (if_pos rfl), mixBytes_all _ _, rfl, hx⟩
  others u hu hne := (hf u hu).trans (.inl ((l1At_dirty t q w u 0xf v x).trans (if_neg hne)))
  conv := hc.trans (convKept_dirty t q w 0xf v x)

theorem loadWord_absent {s : State} {c w : Nat} {cv : Option Nat} (h : s.l1At c w = none) :
    s.loadWord c w cv = (s.fillLine c (w / 32) cv, s.homeRead w cv, s.homePois w cv) := by
  simp [loadWord, l1Serves, h]

/-- A word that the L1 takes for what it is enters it and needs no test at its home now. -/
theorem storeWord_ready {s : State} {q : StoreReq} {regd : Bool} {w : Nat} (h : s.Ready q regd w) (v : Word) :
    WordIn s (s.storeWord q w 0xf v).1 q regd w v ∧ (s.storeWord q w 0xf v).2 ≠ .now := by
  unfold storeWord
  dsimp only
  split
  · next hn =>
    rw [freshWord, loadWord_absent hn]
    exact ⟨wordIn_dirty v (fun h => by cases h) (fun u hu => hu ▸ s.filled_fillLine q.core u _) (s.convKept_fillLine _ _ _), nofun⟩
  · next x hx =>
    obtain ⟨hvis, hown⟩ := h x hx
    rw [hvis, if_neg (by decide)]
    by_cases hmask : x.mask = 0
    · rw [if_pos hmask]
      exact ⟨wordIn_dirty v (fun h => by cases h) (fun u _ => .refl _ u s) (.refl s), nofun⟩
    · obtain ⟨hserial, hhid, hreg⟩ := hown.resolve_left hmask
      rw [if_neg hmask, if_pos (by simp [hserial, hhid])]
      refine ⟨wordIn_dirty v hreg (fun u _ => .refl _ u s) (.refl s), ?_⟩
      split <;> exact nofun

/-! ### The words of a store -/

/-- The words of a store: whole words, the second one of the same line. -/
structure WholeWords (q : StoreReq) : Prop where
  mask : q.mask = 0xf
  line : ∀ w v, q.pair = some (w, v) → w ≠ q.w ∧ w / 32 = q.w / 32

/-- Every word of a store that an L1 takes for what it is. -/
def ReadyAll (s : State) (q : StoreReq) (regd : Bool) : Prop :=
  s.Ready q regd q.w ∧ ∀ w v, q.pair = some (w, v) → s.Ready q regd w

/-- Every word of a store stands in the L1 as it was written. -/
def EnteredAll (s : State) (q : StoreReq) (regd : Bool) : Prop :=
  s.Entered q regd q.w q.val ∧ ∀ w v, q.pair = some (w, v) → s.Entered q regd w v

theorem enterWords_ready {s : State} {q : StoreReq} {regd : Bool} (hq : WholeWords q) (h : s.ReadyAll q regd) :
    (s.enterWords q).1.EnteredAll q regd ∧ ConvKept s (s.enterWords q).1 ∧ (s.enterWords q).2.1 ≠ .now
      ∧ (s.enterWords q).2.2 ≠ some .now := by
  obtain ⟨hfirst, hneed⟩ := storeWord_ready h.1 q.val
  unfold enterWords
  rw [hq.mask]
  cases hp : q.pair with
  | none => exact ⟨⟨hfirst.entered, fun w v hw => by rw [hp] at hw; cases hw⟩, hfirst.conv, hneed, nofun⟩
  | some p =>
    obtain ⟨w2, v2⟩ := p
    obtain ⟨hne, hline⟩ := hq.line w2 v2 hp
    have hready : (s.storeWord q q.w 0xf q.val).1.Ready q regd w2 :=
      (h.2 w2 v2 hp).of_filled (hfirst.others w2 hline hne) hfirst.conv
    obtain ⟨hsecond, hneed2⟩ := storeWord_ready hready v2
    refine ⟨⟨hfirst.entered.of_filled (hsecond.others q.w hline.symm hne.symm), fun w v hw => ?_⟩, hfirst.conv.trans hsecond.conv,
      hneed, fun hn => hneed2 (Option.some.inj hn)⟩
    rw [hp] at hw
    cases hw
    exact hsecond.entered

theorem convKept_unkeep (s : State) (q : StoreReq) (w : Nat) : ConvKept s (s.unkeep q w) := by
  refine .of_teams ?_ (s.groupsKept_unkeep q w)
  unfold unkeep
  split
  · split
    · rw [(allKept_expectAck _ _ _ _).teams]
      exact (homeOnly_fill s w _).teams
    · rfl
  · rfl

theorem l1At_expectAck (s : State) (g w c u : Nat) (m : BitVec 4) : (s.expectAck g w m).l1At c u = s.l1At c u := by
  unfold expectAck
  split <;> rfl

/-- A word that goes home before it is tested again stays as a copy. -/
theorem ready_unkeep {s : State} {q : StoreReq} {regd : Bool} {u : Nat} (h : s.Ready q regd u) (w : Nat) :
    (s.unkeep q w).Ready q regd u := by
  intro x hx
  rw [(s.convKept_unkeep q w).reqConv]
  unfold unkeep at hx
  split at hx
  · next y hy =>
    split at hx
    · rw [l1At_expectAck, l1At_setL1, l1At_fill] at hx
      by_cases hu : u = w
      · rw [if_pos ⟨rfl, hu⟩] at hx
        cases hx
        exact ⟨(h y (hu ▸ hy)).1, .inl rfl⟩
      · rw [if_neg (fun e => hu e.2)] at hx
        exact h x hx
    · exact h x hx
  · exact h x hx

theorem readyAll_unkeep {s : State} {q : StoreReq} {regd : Bool} (h : s.ReadyAll q regd) (w : Nat) : (s.unkeep q w).ReadyAll q regd :=
  ⟨ready_unkeep h.1 w, fun u v hu => ready_unkeep (h.2 u v hu) w⟩

theorem readyAll_foldl {q : StoreReq} {regd : Bool} (ws : List Nat) {s : State} (h : s.ReadyAll q regd) :
    (ws.foldl (fun s w => s.unkeep q w) s).ReadyAll q regd ∧ ConvKept s (ws.foldl (fun s w => s.unkeep q w) s) := by
  induction ws generalizing s with
  | nil => exact ⟨h, .refl s⟩
  | cons w r ih =>
    obtain ⟨hr, hc⟩ := ih (readyAll_unkeep h w)
    exact ⟨hr, (s.convKept_unkeep q w).trans hc⟩

theorem max_ne_now {a b : Need} (ha : a ≠ .now) (hb : b ≠ .now) : a.max b ≠ .now := by
  cases a <;> cases b <;> simp_all [Need.max]

/-- The words of the store enter; none needs its test at once. -/
theorem enterL1_ready {s : State} {q : StoreReq} {regd : Bool} (hq : WholeWords q) (h : s.ReadyAll q regd) :
    (s.enterL1 q).1.EnteredAll q regd ∧ ConvKept s (s.enterL1 q).1 ∧ (s.enterL1 q).2 ≠ .now := by
  obtain ⟨hin, hconv, hn, hm⟩ := enterWords_ready hq h
  obtain ⟨hready, hback⟩ := readyAll_foldl q.words h
  obtain ⟨hin', hconv', hn', hm'⟩ := enterWords_ready hq hready
  unfold enterL1
  split
  · next t n e =>
    rw [e] at hin hconv hn
    exact ⟨hin, hconv, hn⟩
  · next t n m e =>
    rw [e] at hin hconv hn hm
    split
    · exact ⟨hin, hconv, max_ne_now hn (fun c => hm (congrArg some c))⟩
    · split
      next t' n' m' e' =>
      rw [e'] at hin' hconv' hn' hm'
      refine ⟨hin', hback.trans hconv', max_ne_now hn' ?_⟩
      cases m' with
      | none => exact nofun
      | some m' => exact fun c => hm' (congrArg some c)

theorem l1At_triggerAs (s : State) (ws : List Nat) (d : Dot) (v : Nat → Word) (c u : Nat) :
    (s.triggerAs ws d v).l1At c u = s.l1At c u := by
  have hunlock (t : State) (b : Nat) (o : RlOwner) : (t.unlock b o).l1At c u = t.l1At c u := by
    rw [l1At, unlock, core_setCore]
    split
    · next hc => rw [← hc]; rfl
    · rfl
  have hfold {β : Type} (f : State → β → State) (hf : ∀ t x, (f t x).l1At c u = t.l1At c u) (l : List β) (t : State) :
      (l.foldl f t).l1At c u = t.l1At c u := by
    induction l generalizing t with
    | nil => rfl
    | cons x r ih => rw [List.foldl_cons, ih, hf]
  refine hfold _ (fun t e => ?_) _ s
  dsimp only
  split
  · rfl
  · split
    · rfl
    · exact hunlock _ _ _

/-- A store whose words the L1 takes for what they are stands in the L1. -/
theorem storeL1_ready {s : State} {q : StoreReq} {regd : Bool} (hq : WholeWords q) (h : s.ReadyAll q regd) :
    (s.storeL1 q).EnteredAll q regd ∧ ConvKept s (s.storeL1 q) := by
  obtain ⟨hin, hconv, hn⟩ := enterL1_ready hq h
  unfold storeL1
  split
  · next t e =>
    rw [e] at hin hconv
    split
    · refine ⟨?_, hconv.trans (.of_teams (t.allKept_triggerAs _ _ _).teams (t.groupsKept_triggerAs _ _ _))⟩
      obtain ⟨hw, hp⟩ := hin
      simp only [EnteredAll, Entered, l1At_triggerAs]
      exact ⟨hw, hp⟩
    · exact ⟨hin, hconv⟩
  · next t e =>
    rw [e] at hin hconv
    exact ⟨hin, hconv⟩
  · next t e =>
    rw [e] at hn
    exact (hn rfl).elim

/-! ### Reading back -/

theorem l1Visible_own {q : StoreReq} {y : L1Word} (h : y.hid = q.hid) (s : State) : l1Visible y (s.reqConv q) = true := by
  unfold l1Visible reqConv
  rw [h]
  cases q.hid <;> simp

/-- A load of the storing conversation reads a word that entered unregistered. -/
theorem loadWord_entered {s : State} {q : StoreReq} {w : Nat} {v : Word} (h : s.Entered q false w v) :
    (s.loadWord q.core w (s.reqConv q)).1 = s ∧ (s.loadWord q.core w (s.reqConv q)).2.1 = v := by
  obtain ⟨y, hy, hval, hhid, hreg⟩ := h
  have hr : y.reg = false := Bool.eq_false_iff.mpr (fun e => Bool.false_ne_true (hreg e))
  have hserves : s.l1Serves q.core w (s.reqConv q) false = some y := by
    simp [l1Serves, hy, l1Visible_own hhid s, outrun, hr]
  rw [loadWord, hserves]
  exact ⟨rfl, hval⟩

end State

end Sys2Proof.Machine
end

section
/-! Scalar stores (R102, R103, R243): what a store leaves where it stored, and that a load reads it back. -/

namespace Sys2Proof.Machine

open Sys2Proof

/-! ### Captures (R378) -/

/-- `t` is `s` but for the levels of a team's recovery blocks: the rest stands, and the teams are the same with their conversations. -/
structure State.LevelsKept (s t : State) : Prop where
  cores : t.cores = s.cores
  groups : t.groups = s.groups
  cur : t.cur = s.cur
  conv : ∀ k, teamConv t k = teamConv s k
  present : ∀ k, (find t.teams k).isSome = (find s.teams k).isSome

namespace State.LevelsKept

theorem refl (s : State) : LevelsKept s s := ⟨rfl, rfl, rfl, fun _ => rfl, fun _ => rfl⟩

theorem trans {s t u : State} (h : LevelsKept s t) (h' : LevelsKept t u) : LevelsKept s u :=
  ⟨h'.cores.trans h.cores, h'.groups.trans h.groups, h'.cur.trans h.cur, fun k => (h'.conv k).trans (h.conv k),
    fun k => (h'.present k).trans (h.present k)⟩

theorem setTeam {s : State} {k : Nat} {tm : Team} (h : find s.teams k = some tm) (l : List Level) :
    LevelsKept s (s.setTeam k { tm with levels := l }) := by
  refine ⟨rfl, rfl, rfl, fun j => ?_, fun j => ?_⟩
  · unfold teamConv
    rw [setTeam_teams, find_put]
    by_cases hj : j = k
    · rw [if_pos hj, hj, h]
    · rw [if_neg hj]
  · rw [setTeam_teams, find_put]
    by_cases hj : j = k
    · rw [if_pos hj, hj, h]; rfl
    · rw [if_neg hj]

theorem convKept {s t : State} (h : LevelsKept s t) : State.ConvKept s t := by
  intro k
  simp only [groupConv, h.groups, h.conv]

theorem l1At {s t : State} (h : LevelsKept s t) (c w : Nat) : t.l1At c w = s.l1At c w := by
  rw [State.l1At, core, h.cores]
  rfl

end State.LevelsKept

open State (LevelsKept ConvKept)

namespace State

theorem levelsKept_captureAt {s t : State} {k lv : Nat} {c : Cap} (h : s.captureAt k lv c = some t) : LevelsKept s t := by
  unfold captureAt at h
  split at h
  · cases h
    exact .refl s
  · next tm htm =>
    dsimp only at h
    split at h
    · cases h
      exact .refl s
    · split at h
      · cases h
        exact .refl s
      · split at h
        · cases h
          exact .setTeam htm _
        · cases h

theorem levelsKept_captureLine {s t : State} {k w : Nat} {hid : Bool} (h : s.captureLine k w hid = some t) : LevelsKept s t := by
  unfold captureLine captureLineAt at h
  split at h
  · cases h
    exact .refl s
  · split at h
    · cases h
      exact .refl s
    · dsimp only at h
      split at h
      · cases h
      · split at h
        · cases h
          exact .refl s
        · exact levelsKept_captureAt h

theorem levelsKept_captureSpadAt {u lv k : Nat} (l : List Nat) {s t : State} (h : s.captureSpadAt u lv k l = some t) :
    LevelsKept s t := by
  induction l generalizing s with
  | nil => cases h; exact .refl _
  | cons o r ih =>
    unfold captureSpadAt at h
    split at h
    · cases h
      exact .refl _
    · split at h
      · cases h
      · next hcap => exact (levelsKept_captureAt hcap).trans (ih h)

theorem levelsKept_noteWrote (s : State) (k w : Nat) : LevelsKept s (s.noteWrote k w) := by
  unfold noteWrote noteWroteAt
  split
  · exact .refl s
  · next tm htm =>
    split
    · exact .refl s
    · split
      · exact .refl s
      · exact .setTeam htm _

/-! ### What a store asks of its home -/

/-- The request of a store of `n` bytes (R102, R225). -/
def storeReq (t : State) (k : Nat) (g : Group) (va : DWord) (pa n v seq : Nat) (lp : LanePos) (hid : Option HidTag) : StoreReq :=
  { t.reqOf k g va pa with
    hid := hid, lane := lp.lane, pc := lp.pc, idx := lp.idx, seq := seq
    val := if n = 8 then BitVec.ofNat 32 v else BitVec.ofNat 32 (v * 2 ^ (8 * (pa % 4)))
    mask := if n = 8 then 0xf else byteMask pa n
    pair := if n = 8 then some (pa / 4 + 1, BitVec.ofNat 32 (v / 2 ^ 32)) else none }

/-- A store is captured and noted, its group takes its dot, and it goes uncached or into the L1. -/
theorem storeN_parts {s s3 : State} {k pa n v seq : Nat} {g : Group} {va : DWord} {mt : Bool} {lp : LanePos}
    (hg : find s.groups k = some g) (h : s.storeN k va pa n v seq mt lp = some s3) : ∃ t, LevelsKept s t ∧
      s3 = if mt then (t.stampDot k (newDot t g)).storeRaw k pa n v lp.lane
        else (t.stampDot k (newDot t g)).storeL1 (t.storeReq k g va pa n v seq lp (s.hidTag g.seat (pa / 4))) := by
  unfold storeN at h
  rw [hg] at h
  dsimp only at h
  split at h
  · cases h
  · next u hu =>
    refine ⟨if n = 8 then (u.noteWrote g.seat (pa / 4)).noteWrote g.seat (pa / 4 + 1) else u.noteWrote g.seat (pa / 4), ?_, ?_⟩
    · have hfirst := (levelsKept_captureLine hu).trans (u.levelsKept_noteWrote g.seat (pa / 4))
      split
      · exact hfirst.trans (levelsKept_noteWrote _ _ _)
      · exact hfirst
    · split at h
      · next hmt => cases h; rw [if_pos hmt]
      · next hmt => cases h; rw [if_neg hmt]; rfl

end State

/-! ### Bytes -/

theorem length_bytesOf (v n : Nat) : (bytesOf v n).length = n := by
  induction n generalizing v with
  | zero => rfl
  | succ n ih => rw [bytesOf, List.length_cons, ih]

/-- Little-endian bytes give their value back (R5). -/
theorem ofBytes_bytesOf (v n : Nat) : ofBytes (bytesOf v n) = v % 256 ^ n := by
  induction n generalizing v with
  | zero => exact (Nat.mod_one v).symm
  | succ n ih =>
    rw [bytesOf, ofBytes, ih, pow_succ', Nat.mod_mul]
    rfl

theorem bytesOf_eq_map (v n : Nat) : (List.range n).map (fun i => (bytesOf v n).getD i 0) = bytesOf v n := by
  apply List.ext_getElem
  · simp [length_bytesOf]
  · intro i h1 h2
    simp [List.getD_eq_getElem?_getD, List.getElem?_eq_getElem h2]

/-- Bytes of memory stored read back as their value. -/
theorem rawN_setBytes (s : State) (pa v n : Nat) : (s.setBytes pa (bytesOf v n)).rawN pa n = v % 256 ^ n := by
  rw [← ofBytes_bytesOf v n, State.rawN, ← bytesOf_eq_map v n]
  congr 1
  refine List.map_congr_left (fun i hi => ?_)
  rw [bytesOf_eq_map, s.byte_setBytes_inside pa i _ (by rw [length_bytesOf]; exact List.mem_range.mp hi)]

theorem rawN_storeRaw (s : State) (k pa n v : Nat) (lane : Bool) : (s.storeRaw k pa n v lane).rawN pa n = v % 256 ^ n := by
  rw [← rawN_setBytes s pa v n]
  unfold State.storeRaw
  dsimp only
  split <;> rfl

theorem sget_putBytes_below (m : Map Byte) (o p : Nat) (l : List Byte) (h : o < p) : sget 0 (putBytes m p l) o = sget 0 m o := by
  induction l generalizing m p with
  | nil => rfl
  | cons b r ih => rw [putBytes, ih _ _ (by omega), sget_sset, if_neg (by omega)]

theorem sget_putBytes (m : Map Byte) (o i : Nat) (l : List Byte) (h : i < l.length) : sget 0 (putBytes m o l) (o + i) = l.getD i 0 := by
  induction l generalizing m o i with
  | nil => cases h
  | cons b r ih =>
    cases i with
    | zero => rw [putBytes, show o + 0 = o from rfl, sget_putBytes_below _ _ _ _ (by omega), sget_sset, if_pos rfl, List.getD_cons_zero]
    | succ i =>
      have hi : i < r.length := Nat.lt_of_succ_lt_succ h
      rw [putBytes, show o + (i + 1) = o + 1 + i by omega, ih _ _ _ hi, List.getD_cons_succ]

/-- Bytes of a scratchpad stored read back as their value. -/
theorem spadN_setSpad (tm : Team) (o n v : Nat) : (tm.setSpad o n v).spadN o n = v % 256 ^ n := by
  rw [← ofBytes_bytesOf v n, Team.spadN, ← bytesOf_eq_map v n]
  congr 1
  refine List.map_congr_left (fun i hi => ?_)
  exact sget_putBytes tm.spad o i (bytesOf v n) (by rw [length_bytesOf]; exact List.mem_range.mp hi)

/-! ### The request -/

section
variable {s t : State} {k pa n v seq : Nat} {g : Group} {va : DWord} {lp : LanePos}

theorem wholeWords_storeReq {hid : Option HidTag} (hn : n = 4 ∨ n = 8) (hpa : pa % n = 0) :
    State.WholeWords (t.storeReq k g va pa n v seq lp hid) := by
  constructor
  · rcases hn with rfl | rfl
    · change byteMask pa 4 = 0xf
      rw [byteMask, hpa]
      rfl
    · rfl
  · intro w u hp
    rcases hn with rfl | rfl
    · cases hp
    · cases hp
      change pa / 4 + 1 ≠ pa / 4 ∧ (pa / 4 + 1) / 32 = pa / 4 / 32
      omega

theorem conv_of_hidTag {w : Nat} {x : HidTag} (h : s.hidTag k w = some x) : x.conv = teamConv s k := by
  unfold State.hidTag at h
  split at h
  · cases h
  · split at h
    · cases h
    · cases h; rfl

/-- A store is tested for its group's conversation, hidden or not (R380). -/
theorem reqConv_of_group (hg : find s.groups k = some g) (hc : ConvKept s t) {q : StoreReq} {w : Nat} (hgrp : q.grp = k)
    (heng : q.eng = false) (hhid : q.hid = s.hidTag g.seat w) : t.reqConv q = s.groupConv k := by
  have hconv : s.groupConv k = some (teamConv s g.seat) := by rw [State.groupConv, hg]; rfl
  unfold State.reqConv
  rw [hhid, heng, hgrp, hc k, hconv]
  cases htag : s.hidTag g.seat w with
  | none => rfl
  | some x => exact congrArg some (conv_of_hidTag htag)

/-- A store on a cached page, to words that its core's L1 holds, if at all, as copies or as the group's own, stands in that L1. -/
theorem storeN_cached {s3 : State} {regd : Bool} (hn : n = 4 ∨ n = 8) (hpa : pa % n = 0) (hg : find s.groups k = some g)
    (h : s.storeN k va pa n v seq false lp = some s3)
    (held : ∀ w x, (w = pa / 4 ∨ (n = 8 ∧ w = pa / 4 + 1)) → s.l1At (coreOf k) w = some x → l1Visible x (s.groupConv k) = true
      ∧ (x.mask = 0 ∨ (x.dot.serial = g.vv.own.serial ∧ x.hid = s.hidTag g.seat (pa / 4) ∧ (x.reg = true → regd = true)))) :
    ∃ t : State, s3.EnteredAll (t.storeReq k g va pa n v seq lp (s.hidTag g.seat (pa / 4))) regd ∧ ConvKept s s3
      ∧ s3.reqConv (t.storeReq k g va pa n v seq lp (s.hidTag g.seat (pa / 4))) = s3.groupConv k := by
  obtain ⟨t, hkept, hs3⟩ := State.storeN_parts hg h
  rw [if_neg Bool.false_ne_true] at hs3
  generalize hq : t.storeReq k g va pa n v seq lp (s.hidTag g.seat (pa / 4)) = q at hs3
  have hwhole : State.WholeWords q := hq ▸ wholeWords_storeReq hn hpa
  have hstamp : ConvKept s (t.stampDot k (newDot t g)) :=
    hkept.convKept.trans (.of_teams rfl (t.groupsKept_stampDot k _))
  have hreq (u : State) (hu : ConvKept s u) : u.reqConv q = s.groupConv k :=
    reqConv_of_group hg hu (by rw [← hq]; rfl) (by rw [← hq]; rfl) (by rw [← hq]; rfl)
  have hready (w : Nat) (hw : w = pa / 4 ∨ (n = 8 ∧ w = pa / 4 + 1)) : (t.stampDot k (newDot t g)).Ready q regd w := by
    intro x hx
    have hx' : s.l1At (coreOf k) w = some x := by
      rw [← hkept.l1At]
      rw [← hq] at hx
      exact hx
    obtain ⟨hvis, hown⟩ := held w x hw hx'
    rw [hreq _ hstamp]
    refine ⟨hvis, ?_⟩
    rw [← hq]
    exact hown
  have hall : (t.stampDot k (newDot t g)).ReadyAll q regd := by
    refine ⟨hready q.w (.inl (by rw [← hq]; rfl)), fun w u hp => hready w ?_⟩
    rcases hn with rfl | rfl
    · rw [← hq] at hp; cases hp
    · rw [← hq] at hp; cases hp
      exact .inr ⟨rfl, rfl⟩
  obtain ⟨hin, hconv⟩ := State.storeL1_ready hwhole hall
  refine ⟨t, ?_⟩
  rw [hq, hs3]
  exact ⟨hin, hstamp.trans hconv, (hreq _ (hstamp.trans hconv)).trans ((hstamp.trans hconv) k).symm⟩

theorem cur_storeN {s3 : State} {mt : Bool} (hg : find s.groups k = some g) (h : s.storeN k va pa n v seq mt lp = some s3) :
    s3.cur = s.cur := by
  obtain ⟨t, hkept, hs3⟩ := State.storeN_parts hg h
  have hstamp : (t.stampDot k (newDot t g)).cur = s.cur := hkept.cur
  rw [hs3, ← hstamp]
  split
  · exact (State.groupsKept_storeRaw _ _ _ _ _ _).1
  · exact (State.groupsKept_storeL1 _ _).1

/-- A byte of a word is a byte of the number it was stored from. -/
theorem extract_ofNat (m j : Nat) (hj : j < 4) : (BitVec.ofNat 32 m).extractLsb' (8 * j) 8 = BitVec.ofNat 8 (m / 2 ^ (8 * j)) := by
  apply BitVec.eq_of_toNat_eq
  rw [BitVec.extractLsb'_toNat, BitVec.toNat_ofNat, BitVec.toNat_ofNat, Nat.shiftRight_eq_div_pow]
  interval_cases j <;> omega

/-- The bytes of a store stand in the L1. -/
theorem bytes_entered {s3 : State} {regd : Bool} {hid : Option HidTag} (hn : n = 4 ∨ n = 8) (hpa : pa % n = 0)
    (h : s3.EnteredAll (t.storeReq k g va pa n v seq lp hid) regd) (j : Nat) (hj : j < n) :
    ∃ y, s3.l1At (coreOf k) ((pa + j) / 4) = some y
      ∧ y.val.extractLsb' (8 * ((pa + j) % 4)) 8 = BitVec.ofNat 8 (v / 2 ^ (8 * j)) := by
  obtain ⟨⟨y, hy, hval, -⟩, hsecond⟩ := h
  rcases hn with rfl | rfl
  · refine ⟨y, by rw [show (pa + j) / 4 = pa / 4 by omega]; exact hy, ?_⟩
    have hv : y.val = BitVec.ofNat 32 v := by
      rw [hval]
      change BitVec.ofNat 32 (v * 2 ^ (8 * (pa % 4))) = _
      rw [hpa, Nat.mul_zero, pow_zero, Nat.mul_one]
    rw [hv, show (pa + j) % 4 = j by omega, extract_ofNat v j hj]
  · by_cases hlow : j < 4
    · refine ⟨y, by rw [show (pa + j) / 4 = pa / 4 by omega]; exact hy, ?_⟩
      have hv : y.val = BitVec.ofNat 32 v := hval
      rw [hv, show (pa + j) % 4 = j by omega, extract_ofNat v j hlow]
    · obtain ⟨z, hz, hzval, -⟩ := hsecond _ _ rfl
      refine ⟨z, by rw [show (pa + j) / 4 = pa / 4 + 1 by omega]; exact hz, ?_⟩
      rw [hzval, show (pa + j) % 4 = j - 4 by omega, extract_ofNat _ (j - 4) (by omega), Nat.div_div_eq_div_mul, ← pow_add,
        show 32 + 8 * (j - 4) = 8 * j by omega]

/-- A load reads back a store that entered unregistered. -/
theorem loadN_entered {s3 : State} {hid : Option HidTag} (hn : n = 4 ∨ n = 8) (hpa : pa % n = 0) (hv : v < 2 ^ (8 * n))
    (h : s3.EnteredAll (t.storeReq k g va pa n v seq lp hid) false)
    (hconv : s3.reqConv (t.storeReq k g va pa n v seq lp hid) = s3.groupConv k) : (s3.loadN k pa n false).2.1 = v := by
  obtain ⟨hst, hlow⟩ := State.loadWord_entered h.1
  rw [hconv] at hst hlow
  change (s3.loadWord (coreOf k) (pa / 4) (s3.groupConv k)).1 = s3 at hst
  unfold State.loadN
  rw [if_neg Bool.false_ne_true]
  rcases hn with rfl | rfl
  · change (s3.loadWord (coreOf k) (pa / 4) (s3.groupConv k)).2.1 = BitVec.ofNat 32 (v * 2 ^ (8 * (pa % 4))) at hlow
    rw [hpa, Nat.mul_zero, pow_zero, Nat.mul_one] at hlow
    rw [if_neg (by decide)]
    dsimp only
    rw [hlow, hpa, Nat.mul_zero, pow_zero, Nat.div_one, BitVec.toNat_ofNat, Nat.mod_mod]
    exact Nat.mod_eq_of_lt hv
  · obtain ⟨hst2, hhigh⟩ := State.loadWord_entered (h.2 _ _ rfl)
    rw [hconv] at hhigh
    change (s3.loadWord (coreOf k) (pa / 4) (s3.groupConv k)).2.1 = BitVec.ofNat 32 v at hlow
    change (s3.loadWord (coreOf k) (pa / 4 + 1) (s3.groupConv k)).2.1 = BitVec.ofNat 32 (v / 2 ^ 32) at hhigh
    rw [if_pos rfl]
    unfold State.load64
    dsimp only
    rw [hst, hlow, hhigh, BitVec.toNat_append, BitVec.toNat_ofNat, BitVec.toNat_ofNat,
      ← Nat.shiftLeft_add_eq_or_of_lt (Nat.mod_lt v (by decide)), Nat.shiftLeft_eq]
    omega

end

/-! ### The instructions -/

section
variable {s : State} {g : Group} (hg : s.grp = some g) {d a : XReg} {off : DWord} {n : Nat}
include hg

/-- A store that passes its checks ends with what it stored (R102, R103). -/
theorem storeGlobal_ok {s1 s3 : State} {g3 : Group} {pa : Nat} {mt : Bool}
    (h : s.chkGlobal s.cur g (g.x a + off) n n true true = .ok s1 pa mt)
    (hpark : s1.pageParked (coreOf s1.cur) (s1.ctxId g) (g.x a + off) = false) (hatom : s1.atomHit s1.cur (g.x a + off) n = false)
    (hs3 : (s1.countAcc s1.cur (pathOfPa pa)).2.storeN (s1.countAcc s1.cur (pathOfPa pa)).2.cur (g.x a + off) pa n
      ((g.x d).toNat % 2 ^ (8 * n)) (s1.countAcc s1.cur (pathOfPa pa)).1 mt { pc := g.pc } = some s3) (hg3 : s3.grp = some g3) :
    storeGlobal s d a off n = ends s3 g3 := by
  refine (withG_some hg _).trans ?_
  simp only [h, hpark, hatom, hs3, Bool.false_eq_true, if_false]
  exact doneWith_ends hg3 _

theorem storeScratch_ok {s1 : State} {g3 : Group} {t o : Nat} (h : s.chkSpad g (g.x a + off) n true = .ok t o)
    (hatom : s.spadAtomHit g t o n = false) (hs1 : s.storeSpad g.seat t o n ((g.x d).toNat % 2 ^ (8 * n)) = some s1)
    (hg3 : (s1.countAcc s1.cur (spadPath s1.cur t)).2.grp = some g3) :
    storeScratch s d a off n = ends (s1.countAcc s1.cur (spadPath s1.cur t)).2 g3 := by
  refine (withG_some hg _).trans ?_
  simp only [h, hatom, hs1, Bool.false_eq_true, if_false]
  exact doneWith_ends hg3 _

end

theorem teams_countAcc (s : State) (k : Nat) (p : Path) : (s.countAcc k p).2.teams = s.teams := by
  unfold State.countAcc
  split <;> rfl

/-- A counted access changes its group's count alone. -/
theorem countAcc_group {s : State} {g : Group} (hg : s.grp = some g) (p : Path) :
    (s.countAcc s.cur p).2.cur = s.cur
    ∧ ∃ l, find (s.countAcc s.cur p).2.groups (s.countAcc s.cur p).2.cur = some { g with cnt := l } := by
  have hfind : find s.groups s.cur = some g := hg
  unfold State.countAcc
  rw [hfind]
  exact ⟨rfl, _, by dsimp only; rw [find_put, if_pos rfl]⟩

/-- Checks that pass leave every group as it stood. -/
theorem allKept_chkGlobal {s s1 : State} {k : Nat} {g : Group} {va : DWord} {n al pa : Nat} {w lock mt : Bool}
    (h : s.chkGlobal k g va n al w lock = .ok s1 pa mt) : State.AllKept s s1 := by
  unfold State.chkGlobal at h
  split at h
  · cases h
  · split at h
    · cases h
    · unfold State.chkPage at h
      split at h
      · split at h <;> cases h
      · cases h
      · next u pa' mt' htr =>
        unfold State.chkPlace at h
        split at h
        · cases h
        · split at h
          · cases h
          · split at h
            · cases h
            · cases h
              exact State.allKept_translate htr

/-- A scratchpad store reads back (R102). -/
theorem loadSpad_storeSpad {s s1 : State} {g : Group} {va : DWord} {u t o n v : Nat}
    (hchk : s.chkSpad g va n true = .ok t o) (hv : v < 2 ^ (8 * n)) (h : s.storeSpad u t o n v = some s1) :
    (s1.loadSpad t o n).1 = v := by
  obtain ⟨hrange, -, -⟩ := chkSpad_ok hchk
  have hteam : (find s.teams t).isSome = true := by
    unfold State.spadRange at hrange
    split at hrange
    · cases hrange
    · split at hrange
      · cases hrange
      · split at hrange
        · next hfits =>
          cases hrange
          unfold State.spadFits at hfits
          split at hfits
          · next htm => rw [htm]; rfl
          · cases hfits
        · cases hrange
  unfold State.storeSpad at h
  split at h
  · cases h
  · next s2 hcap =>
    have hpres := (State.levelsKept_captureSpadAt _ hcap).present t
    split at h
    · next hnone => rw [hnone, hteam] at hpres; cases hpres
    · next tm htm =>
      cases h
      rw [State.loadSpad, State.setTeam_teams, find_put, if_pos rfl]
      dsimp only
      rw [spadN_setSpad, show 256 = 2 ^ 8 from rfl, ← pow_mul]
      exact Nat.mod_eq_of_lt hv

/-- Settles O23: an uncached store's bytes and a scratchpad store's read back their number; a cached store enters the L1 word by
word, each needing no test at its home while it enters. -/
theorem scalarStores : Obligations.ScalarStores := by
  unfold Obligations.ScalarStores
  intro s g d a i n hg hn va v
  have hva : g.x a + off9 i n = va := add_off9 _ i n
  have hv : v < 2 ^ (8 * n) := Nat.mod_lt _ (by positivity)
  refine ⟨?global, ?scratchpad⟩
  case global =>
    intro s1 s3 g3 pa mt hchk hpark hatom s2 seq hs3 hg3 c held
    have hkept := allKept_chkGlobal hchk
    have hg1 : s1.grp = some g := by rw [State.grp, hkept.groups, hkept.cur]; exact hg
    obtain ⟨hcur, l, hg2⟩ := countAcc_group hg1 (pathOfPa pa)
    refine ⟨?_, fun hmt => ?_, fun hmt hpa => ⟨fun hheld j hj => ?_, fun hheld => ?_⟩⟩
    · rw [← hva] at hchk hpark hatom hs3
      exact (exec_store hn s d a i).trans (storeGlobal_ok hg hchk hpark hatom hs3 hg3)
    · obtain ⟨t, -, hraw⟩ := State.storeN_parts hg2 hs3
      rw [hmt, if_pos rfl] at hraw
      rw [hraw, rawN_storeRaw, show 256 = 2 ^ 8 from rfl, ← pow_mul]
      exact Nat.mod_eq_of_lt hv
    · subst hmt
      obtain ⟨t, hin, -, -⟩ := storeN_cached hn hpa hg2 hs3 hheld
      exact bytes_entered hn hpa hin j hj
    · subst hmt
      obtain ⟨t, hin, -, hconv⟩ := storeN_cached hn hpa hg2 hs3 hheld
      rw [cur_storeN hg2 hs3]
      exact loadN_entered hn hpa hv hin hconv
  case scratchpad =>
    intro s1 g3 t o hchk hatom hs1 s2 hg3
    refine ⟨?_, ?_⟩
    · rw [← hva] at hchk
      exact (exec_storeSpad hn s d a i).trans (storeScratch_ok hg hchk hatom hs1 hg3)
    · have hsame : s2.loadSpad t o n = s1.loadSpad t o n := by rw [State.loadSpad, State.loadSpad, teams_countAcc]
      rw [hsame]
      exact loadSpad_storeSpad hchk hv hs1

end Sys2Proof.Machine
end

section
/-! What a lane instruction that writes vd leaves as it was (R116): of its group all but vd, its entry and what it popped; of the
cores all but range locks (R232); of contexts and teams all but their records of poison (R391). -/

namespace Sys2Proof.Machine

open Sys2Proof

/-! ### The group -/

theorem Group.foldl_setV_frame (r : Nat) (f : Nat → Word) (ls : List Nat) (g : Group) :
    ls.foldl (fun g l => g.setV r l (f l)) g = { g with vs := (ls.foldl (fun g l => g.setV r l (f l)) g).vs } := by
  induction ls generalizing g with
  | nil => rfl
  | cons l ls ih => exact ih (g.setV r l (f l))

/-- Writing lanes changes the vector registers alone. -/
theorem Group.setLanes_frame (g : Group) (r : Nat) (m : DWord) (f : Nat → Word) :
    g.setLanes r m f = { g with vs := (g.setLanes r m f).vs } := Group.foldl_setV_frame r f (lanesOf m) g

/-- Popping changes the operand queues alone. -/
theorem popQueues_frame (qs : List QReg) (g : Group) : popQueues g qs = { g with opq := (popQueues g qs).opq } := by
  induction qs generalizing g with
  | nil => rfl
  | cons q qs ih => exact ih (g.setQueue q _)

theorem Group.laneNext_frame (g : Group) (qs : List QReg) :
    ∃ q w, g.laneNext qs = { g with laneQ := g.laneQ.tail, opq := q, wf := w } := ⟨_, _, popQueues_frame qs _⟩

/-! ### Range locks -/

/-- `t` is `s` but for range locks. -/
def State.LocksOnly (s t : State) : Prop :=
  (∃ k, t = { s with cores := k }) ∧ ∀ c, ∃ l, t.core c = { s.core c with locks := l }

namespace State.LocksOnly

theorem refl (s : State) : LocksOnly s s := ⟨⟨_, rfl⟩, fun _ => ⟨_, rfl⟩⟩

theorem trans {s t u : State} (h : LocksOnly s t) (h' : LocksOnly t u) : LocksOnly s u := by
  obtain ⟨⟨_, rfl⟩, hst⟩ := h
  obtain ⟨⟨_, rfl⟩, htu⟩ := h'
  refine ⟨⟨_, rfl⟩, fun c => ?_⟩
  obtain ⟨l, hl⟩ := hst c
  obtain ⟨l', hl'⟩ := htu c
  exact ⟨l', hl'.trans (by rw [hl])⟩

theorem unlock (s : State) (c : Nat) (o : RlOwner) : LocksOnly s (s.unlock c o) := by
  refine ⟨⟨_, rfl⟩, fun d => ?_⟩
  rw [State.unlock, core_setCore]
  split
  · next h => exact ⟨_, by rw [h]⟩
  · exact ⟨_, rfl⟩

theorem releasePopped (s : State) (k : Nat) (qs : List QReg) : LocksOnly s (s.releasePopped k qs) := by
  unfold State.releasePopped
  split
  · exact refl s
  · next g _ =>
    induction qs generalizing s with
    | nil => exact refl s
    | cons q qs ih =>
      rw [List.foldl_cons]
      dsimp only
      split
      · exact (unlock s _ _).trans (ih _ ‹_›)
      · exact ih s ‹_›

end State.LocksOnly

/-- An instruction that pops nothing releases nothing. -/
theorem State.releasePopped_nil (s : State) (k : Nat) : s.releasePopped k [] = s := by
  unfold State.releasePopped
  split <;> rfl

/-! ### Poison -/

/-- `t` is `s` but for contexts and teams, whose scratchpads are as they were. -/
def State.PoisonOnly (s t : State) : Prop :=
  (∃ c m, t = { s with ctxs := c, teams := m }) ∧ ∀ m b, t.spadByte m b = s.spadByte m b

theorem State.poisonOnly_consume (s : State) (k : Nat) : State.PoisonOnly s (s.consume k) := by
  unfold State.consume
  split
  · exact ⟨⟨_, _, rfl⟩, fun _ _ => rfl⟩
  · next g _ =>
    dsimp only
    split
    · exact ⟨⟨_, _, rfl⟩, fun _ _ => rfl⟩
    · next tm htm =>
      split
      · exact ⟨⟨_, _, rfl⟩, fun _ _ => rfl⟩
      · refine ⟨⟨_, _, rfl⟩, fun m b => ?_⟩
        rw [State.spadByte, State.setTeam_teams, find_put]
        split
        · next h => rw [State.spadByte, h, htm]; rfl
        · rfl

theorem State.poisonOnly_consumeIf (s : State) (k : Nat) (p : Bool) : State.PoisonOnly s (s.consumeIf k p) := by
  unfold State.consumeIf
  split
  · exact s.poisonOnly_consume k
  · exact ⟨⟨_, _, rfl⟩, fun _ _ => rfl⟩

/-! ### The instructions -/

/-- A lane instruction that completes: `f` changes its group, its queues are popped, and nothing else but range locks and records of
poison differs. -/
theorem LaneIn.after_frame (i : LaneIn) (s : State) (f : Group → Group) :
    ∃ k c m, i.after s f
        = { s with groups := upd s.groups s.cur (fun g => (f g).laneNext (i.heads.map (·.1))), cores := k, ctxs := c, teams := m }
      ∧ (∀ d, ∃ l, (i.after s f).core d = { s.core d with locks := l })
      ∧ (∀ t b, (i.after s f).spadByte t b = s.spadByte t b)
      ∧ ((∀ e ∈ i.heads, e.2.pois = false) → c = s.ctxs ∧ m = s.teams)
      ∧ (i.heads = [] → k = s.cores) := by
  let qs := i.heads.map (·.1)
  let u : State := { s with groups := upd s.groups s.cur (fun g => (f g).laneNext qs) }
  obtain ⟨⟨k, hk⟩, hlocks⟩ := State.LocksOnly.releasePopped u s.cur qs
  obtain ⟨⟨c, m, hm⟩, hspad⟩ := (u.releasePopped s.cur qs).poisonOnly_consumeIf s.cur (i.heads.any (fun e => e.2.pois))
  have hafter : i.after s f = { u with cores := k, ctxs := c, teams := m } := hm.trans (by rw [hk])
  refine ⟨k, c, m, hafter, fun d => ?_, fun t b => ?_, fun hclean => ?_, fun hnone => ?_⟩
  · obtain ⟨l, hl⟩ := hlocks d
    refine ⟨l, Eq.trans ?_ hl⟩
    rw [hafter, hk]
    rfl
  · refine (hspad t b).trans ?_
    rw [hk]
    rfl
  · have hany : i.heads.any (fun e => e.2.pois) = false := by simpa using hclean
    have hsame : (u.releasePopped s.cur qs).consumeIf s.cur (i.heads.any (fun e => e.2.pois)) = u.releasePopped s.cur qs := by
      rw [hany]; rfl
    have h := hm.symm.trans (hsame.trans hk)
    exact ⟨congrArg State.ctxs h, congrArg State.teams h⟩
  · have hqs : qs = [] := by simp [qs, hnone]
    rw [hqs, State.releasePopped_nil] at hk
    exact (congrArg State.cores hk).symm

/-- What writing lanes of vd and completing leaves of the group (R116). -/
theorem LaneIn.laneNext_setLanes (i : LaneIn) (f : Nat → Word) :
    ∃ v q w, (i.g.setLanes i.vd i.act f).laneNext (i.heads.map (·.1))
        = { i.g with vs := v, laneQ := i.g.laneQ.tail, opq := q, wf := w }
      ∧ ∀ r l, l < 64 → (r ≠ i.vd ∨ i.act.getLsbD l = false) → sget 0 v (vKey r l) = i.g.v r l := by
  obtain ⟨q, w, hnext⟩ := (i.g.setLanes i.vd i.act f).laneNext_frame (i.heads.map (·.1))
  refine ⟨(i.g.setLanes i.vd i.act f).vs, q, w, hnext.trans (by rw [Group.setLanes_frame]), fun r l hl hrl => ?_⟩
  exact (i.g.v_setLanes i.vd r l i.act f hl).trans (if_neg (by rintro ⟨rfl, hact⟩; simp [hact] at hrl))

/-- Every instruction that writes vd lane by lane is a function of the lane's operands (R116). -/
theorem exec_vectorOp {n : Instr} {o : LaneOp} (hn : vectorOp n = some o) (s : State) : ∃ f, exec n s = perLane s o f := by
  unfold vectorOp at hn
  split at hn
  case h_42 => cases hn
  all_goals
    cases hn
    dsimp only [exec, execVand, execVor, execVxor, execVandn, execVclz, execVpopc, execVbfi, execCrt, execRwadd, execRwfrom, execVadd,
      execVsub, execVmad, execVabs, execVaddmin, execVaddmax, execVmul, execVmulh, execVshl, execVshr, execVsar, execVmin, execVmax,
      execVbfx, execVsad, execVsel, execFmin, execFmax, execFrcp, execFrsq, execFsqrt, execFexp2, execFlog2, execFadd, execFsub,
      execFmul, execFfma, execFint, execSbcvt, execVcvt, execFcvt, bitwise, elementwise, floatwise, patternwise]
    exact ⟨_, rfl⟩

/-- Settles O8: the instruction writes lanes of vd, and its completion leaves the rest. -/
theorem laneFrame : Obligations.LaneFrame := by
  unfold Obligations.LaneFrame
  intro s t i o n hn hhead ht
  obtain ⟨f, hf⟩ := exec_vectorOp hn s
  rw [hf, perLane_writes hhead] at ht
  obtain rfl : i.after s _ = t := Host.Outcome.next.inj ht
  have hgrp : find s.groups s.cur = some i.g := hhead.1
  obtain ⟨k, c, m, hafter, hcore, hspad, hclean, hnone⟩ := i.after_frame s (fun g => g.setLanes i.vd i.act (f i))
  obtain ⟨v, q, w, hnext, hv⟩ := i.laneNext_setLanes (f i)
  rw [hafter]
  refine ⟨{ i.g with vs := v, laneQ := i.g.laneQ.tail, opq := q, wf := w }, ?_, fun r l hl hrl => ?_, rfl, fun j hj => ?_,
    fun a => ?_, ?_, ?_, ?_, ?_, ?_⟩
  · exact (find_upd s.groups s.cur s.cur _).trans (by rw [if_pos rfl, hgrp, Option.map_some, hnext])
  · exact hv r l hl hrl
  · exact (find_upd s.groups s.cur j _).trans (if_neg hj)
  · rfl
  · rw [← hafter]
    exact hspad
  · rw [← hafter]
    intro d
    obtain ⟨l, hl⟩ := hcore d
    rw [hl]
  · rfl
  · exact hclean
  · exact hnone

end Sys2Proof.Machine
end

section
/-! SUPPORT. The elements of a register, bit by bit (R123): which bits an inserted field and a put element take, and what the elements of
a register built element by element are. -/

namespace Sys2Proof.Machine

open Sys2Proof

/-! ### Fields -/

theorem testBit_field (v lo n j : Nat) : (field v lo n).testBit j = (decide (j < n) && v.testBit (lo + j)) := by
  rw [field, Nat.testBit_mod_two_pow, Nat.testBit_div_two_pow, Nat.add_comm]

/-- A number whose bits `[k + n - 1 : k]` are replaced by the low bits of another. -/
theorem testBit_insert (v x k n j : Nat) : (v - field v k n * 2 ^ k + x % 2 ^ n * 2 ^ k).testBit j
    = if k ≤ j ∧ j < k + n then x.testBit (j - k) else v.testBit j := by
  have hsplit : v = 2 ^ k * (2 ^ n * (v / 2 ^ k / 2 ^ n) + field v k n) + v % 2 ^ k := by
    rw [field, Nat.div_add_mod, Nat.div_add_mod]
  have hins : v - field v k n * 2 ^ k + x % 2 ^ n * 2 ^ k
      = 2 ^ k * (2 ^ n * (v / 2 ^ k / 2 ^ n) + x % 2 ^ n) + v % 2 ^ k := by
    rw [Nat.mul_add] at hsplit ⊢
    rw [Nat.mul_comm (field v k n), Nat.mul_comm (x % 2 ^ n)]
    omega
  rw [hins, Nat.testBit_two_pow_mul_add _ (Nat.mod_lt _ (by positivity)),
    Nat.testBit_two_pow_mul_add _ (Nat.mod_lt _ (by positivity)), Nat.testBit_mod_two_pow, Nat.testBit_mod_two_pow,
    Nat.testBit_div_two_pow, Nat.testBit_div_two_pow]
  rcases lt_or_ge j k with hlo | hlo
  · simp [hlo, Nat.not_le.mpr hlo]
  · rcases lt_or_ge j (k + n) with hhi | hhi
    · simp [hlo, hhi, Nat.not_lt.mpr hlo, show j - k < n by omega]
    · simp [Nat.not_lt.mpr hlo, Nat.not_lt.mpr hhi, show ¬ j - k < n by omega, show j - k - n + n + k = j by omega]

/-! ### Elements -/

theorem tyBits_pos (t : Ty) : 0 < tyBits t := by
  cases t <;> decide

/-- Element `e` has its last bit in the register. -/
theorem element_fits {w e : Nat} (h : e < 32 / w) : (e + 1) * w ≤ 32 :=
  (Nat.mul_le_mul_right w h).trans (Nat.div_mul_le_self 32 w)

/-- The bits of a register one element of which is replaced. -/
theorem getLsbD_putN {w : Nat} (hw : 0 < w) (p : Word) (e x j : Nat) (hj : j < 32) :
    (putN w p e x).getLsbD j = if j / w = e then x.testBit (j % w) else p.getLsbD j := by
  have hin : (w * e ≤ j ∧ j < w * e + w) ↔ j / w = e := by
    rw [Nat.div_eq_iff hw, Nat.mul_comm e w]
    omega
  rw [putN, elN, BitVec.getLsbD_ofNat, decide_eq_true hj, Bool.true_and, testBit_insert]
  by_cases h : j / w = e
  · rw [if_pos (hin.mpr h), if_pos h, ← h, ← Nat.mod_eq_sub_mul_div]
  · rw [if_neg (mt hin.mp h), if_neg h]
    rfl

/-- An element is the number whose bits its bits are. -/
theorem elN_of_bits {w e x : Nat} {p : Word} (h : ∀ j < w, p.getLsbD (w * e + j) = x.testBit j) : elN w p e = x % 2 ^ w := by
  refine Nat.eq_of_testBit_eq fun j => ?_
  rw [elN, testBit_field, Nat.testBit_mod_two_pow]
  by_cases hj : j < w
  · rw [← h j hj]
    rfl
  · rw [decide_eq_false hj, Bool.false_and, Bool.false_and]

theorem mul_add_div_mod {w e j : Nat} (hj : j < w) : (w * e + j) / w = e ∧ (w * e + j) % w = j :=
  ⟨by rw [Nat.mul_add_div (by omega), Nat.div_eq_of_lt hj, Nat.add_zero], by rw [Nat.mul_add_mod, Nat.mod_eq_of_lt hj]⟩

theorem elN_putN {w e : Nat} (hw : 0 < w) (hfit : (e + 1) * w ≤ 32) (p : Word) (x : Nat) : elN w (putN w p e x) e = x % 2 ^ w := by
  refine elN_of_bits fun j hj => ?_
  obtain ⟨hdiv, hmod⟩ := mul_add_div_mod (e := e) hj
  rw [getLsbD_putN hw _ _ _ _ (by rw [Nat.add_mul, Nat.mul_comm] at hfit; omega), if_pos hdiv, hmod]

/-- Writing one element leaves every other bit of the register (R123). -/
theorem putN_element {w e : Nat} (hw : 0 < w) (hfit : (e + 1) * w ≤ 32) (p : Word) (x : Nat) :
    elN w (putN w p e x) e = x % 2 ^ w ∧ ∀ j < 32, j / w ≠ e → (putN w p e x).getLsbD j = p.getLsbD j :=
  ⟨elN_putN hw hfit p x, fun j hj hne => (getLsbD_putN hw p e x j hj).trans (if_neg hne)⟩

/-- The bits of a register built from element patterns. -/
theorem getLsbD_foldl_putN {w : Nat} (hw : 0 < w) (f : Nat → Nat) (n j : Nat) (hj : j < 32) :
    ((List.range n).foldl (fun p e => putN w p e (f e)) 0).getLsbD j = (decide (j / w < n) && (f (j / w)).testBit (j % w)) := by
  induction n with
  | zero => simp
  | succ n ih =>
    rw [List.range_succ, List.foldl_append, List.foldl_cons, List.foldl_nil, getLsbD_putN hw _ _ _ _ hj, ih]
    by_cases h : j / w = n
    · simp [h]
    · rw [if_neg h, decide_eq_decide.mpr (show j / w < n ↔ j / w < n + 1 by omega)]

theorem elN_mapPat (t : Ty) (f : Nat → Nat) {e : Nat} (he : e < 32 / tyBits t) :
    elN (tyBits t) (mapPat t f) e = f e % 2 ^ tyBits t := by
  have hfit := element_fits he
  refine elN_of_bits fun j hj => ?_
  obtain ⟨hdiv, hmod⟩ := mul_add_div_mod (e := e) hj
  rw [mapPat, getLsbD_foldl_putN (tyBits_pos t) _ _ _ (by rw [Nat.add_mul, Nat.mul_comm] at hfit; omega), hdiv, hmod, nel,
    decide_eq_true he, Bool.true_and]

theorem wrapN_lt (n : Nat) (v : Int) : wrapN n v < 2 ^ n := by
  have h := Int.emod_lt_of_pos v (b := ((2 ^ n : Nat) : Int)) (by positivity)
  rw [wrapN]
  omega

theorem elN_mapEl (t : Ty) (f : Nat → Int) {e : Nat} (he : e < 32 / tyBits t) :
    elN (tyBits t) (mapEl t f) e = wrapN (tyBits t) (f e) :=
  (elN_mapPat t (fun e => wrapN (tyBits t) (f e)) he).trans (Nat.mod_eq_of_lt (wrapN_lt _ _))

/-- A register of one element is that element. -/
theorem elN_zero (p : Word) : elN 32 p 0 = p.toNat := by
  rw [elN, field, Nat.mul_zero, Nat.pow_zero, Nat.div_one, Nat.mod_eq_of_lt p.isLt]

/-! ### Two's complement -/

/-- A pattern of `n` bits read as two's complement (R82). -/
theorem sgn_eq_toInt {n : Nat} (hn : 0 < n) (p : Nat) : sgn n p = (BitVec.ofNat n p).toInt := by
  have htop : 2 ^ n = 2 * 2 ^ (n - 1) := by rw [← pow_succ', Nat.sub_add_cancel hn]
  rw [sgn, BitVec.toInt_eq_toNat_cond, BitVec.toNat_ofNat]
  split_ifs <;> omega

theorem sgn_range {n : Nat} (hn : 0 < n) (p : Nat) : -(2 ^ (n - 1) : Int) ≤ sgn n p ∧ sgn n p < 2 ^ (n - 1) := by
  rw [sgn_eq_toInt hn]
  exact ⟨BitVec.le_toInt _, BitVec.toInt_lt⟩

end Sys2Proof.Machine
end

section
/-! Integer lane arithmetic (R129): each row gives every element its exact result, saturated or wrapped. -/

namespace Sys2Proof.Machine

open Sys2Proof

/-! ### Element by element -/

/-- An element-wise instruction gives each element of vd its result, saturated where the row says so (R129). -/
theorem elementwise_writes {s : State} {i : LaneIn} {o : LaneOp} (h : i.atHead s o) (t : Ty) (sat : Bool)
    (f : Int → Int → Int → Int) : ∃ v : Nat → Word, elementwise s t sat o f = i.writes s v ∧ ∀ l e, e < 32 / tyBits t →
      elN (tyBits t) (v l) e = wrapN (tyBits t)
        (let x := f (el t (i.a t l) e) (el t (i.b t l) e) (el t (i.c t l) e)
         if sat then satT t x else x) :=
  ⟨_, perLane_writes h _, fun _ _ he => elN_mapEl t _ he⟩

/-- The .b32 rows act on whole registers. -/
theorem elementwise_b32 {s : State} {i : LaneIn} {o : LaneOp} (h : i.atHead s o) {f : Int → Int → Int → Int}
    {r : Word → Word → Word} (hr : ∀ (x y : Word) (z : Int), wrapN 32 (f x.toNat y.toNat z) = (r x y).toNat) :
    elementwise s .b32 false o f = i.writes s (fun l => r (i.a .b32 l) (i.b .b32 l)) := by
  have hel (p : Word) : el .b32 p 0 = p.toNat := congrArg Nat.cast (elN_zero p)
  refine (perLane_writes h _).trans (congrArg (i.writes s) (funext fun l => BitVec.eq_of_toNat_eq ?_))
  rw [← elN_zero, ← hr _ _ (el .b32 (i.c .b32 l) 0), ← hel, ← hel]
  exact elN_mapEl .b32 _ (e := 0) (by decide)

/-! ### The values that a type holds -/

/-- A value of the type's range (R126). -/
def TyHolds (t : Ty) (x : Int) : Prop := tyMin t ≤ x ∧ x ≤ tyMax t

theorem TyHolds.satT_eq {t : Ty} {x : Int} (h : TyHolds t x) : satT t x = x := by
  rw [satT, min_eq_right h.2, max_eq_right h.1]

theorem TyHolds.min {t : Ty} {x y : Int} (hx : TyHolds t x) (hy : TyHolds t y) : TyHolds t (min x y) :=
  ⟨le_min hx.1 hy.1, (min_le_left x y).trans hx.2⟩

theorem TyHolds.max {t : Ty} {x y : Int} (hx : TyHolds t x) (hy : TyHolds t y) : TyHolds t (max x y) :=
  ⟨hx.1.trans (le_max_left x y), max_le hx.2 hy.2⟩

theorem tyHolds_el (t : Ty) (p : Word) (e : Nat) : TyHolds t (el t p e) := by
  unfold TyHolds el tyMin tyMax
  split
  · obtain ⟨hlo, hhi⟩ := sgn_range (tyBits_pos t) (elN (tyBits t) p e)
    push_cast
    omega
  · have hlt : elN (tyBits t) p e < 2 ^ tyBits t := Nat.mod_lt _ (by positivity)
    omega

theorem tyHolds_satT (t : Ty) (x : Int) : TyHolds t (satT t x) := by
  have hle : tyMin t ≤ tyMax t := (tyHolds_el t 0 0).1.trans (tyHolds_el t 0 0).2
  exact ⟨le_max_left _ _, max_le hle (min_le_left _ _)⟩

/-! ### Shifts of whole registers -/

theorem shiftAmt_b32 (y : Word) : shiftAmt .b32 y.toNat = y.toNat % 32 := by
  rw [shiftAmt, ← Int.natCast_mod, Int.toNat_natCast]
  rfl

theorem wrapN_natCast (n m : Nat) : wrapN n (m : Int) = m % 2 ^ n := by
  rw [wrapN, ← Int.natCast_mod, Int.toNat_natCast]

theorem wrapN_shl (x y : Word) : wrapN 32 (x.toNat * (2 ^ shiftAmt .b32 y.toNat : Nat)) = (x <<< (y.toNat % 32)).toNat := by
  rw [shiftAmt_b32, ← Int.natCast_mul, wrapN_natCast, BitVec.toNat_shiftLeft, Nat.shiftLeft_eq]

theorem wrapN_shr (x y : Word) : wrapN 32 (x.toNat / (2 ^ shiftAmt .b32 y.toNat : Nat)) = (x >>> (y.toNat % 32)).toNat := by
  rw [shiftAmt_b32, ← Int.natCast_div, wrapN_natCast, BitVec.toNat_ushiftRight, Nat.shiftRight_eq_div_pow,
    Nat.mod_eq_of_lt ((Nat.div_le_self _ _).trans_lt x.isLt)]

/-! ### The instructions -/

/-- Settles O44: each row's exact result, the sums of `vaddmin` and `vaddmax` narrowed first, so that the lesser or the greater
of one and an element needs no saturation. -/
theorem laneIntegers : Obligations.LaneIntegers := by
  unfold Obligations.LaneIntegers
  intro s i o t sat h _ w a b c sh puts clamp narrow
  have row (st : Bool) (f : Int → Int → Int → Int) {x : Nat → Nat → Int}
      (hx : ∀ l e, (if st then satT t (f (a l e) (b l e) (c l e)) else f (a l e) (b l e) (c l e)) = x l e) :
      puts (elementwise s t st o f) x := by
    obtain ⟨v, hv, hel⟩ := elementwise_writes h t st f
    exact ⟨v, hv, fun l e he => (hel l e he).trans (congrArg (wrapN w) (hx l e))⟩
  have plain (f : Int → Int → Int → Int) {x : Nat → Nat → Int} (hx : ∀ l e, f (a l e) (b l e) (c l e) = x l e) :
      puts (elementwise s t false o f) x := row false f fun l e => (if_neg Bool.false_ne_true).trans (hx l e)
  have picked (f : Int → Int → Int → Int) {x : Nat → Nat → Int} (hx : ∀ l e, f (a l e) (b l e) (c l e) = x l e)
      (hheld : ∀ l e, sat = true → TyHolds t (x l e)) : puts (elementwise s t sat o f) x := row sat f fun l e => by
    rw [hx]
    split
    · next hs => exact (hheld l e hs).satT_eq
    · rfl
  have hpow (n : Nat) : ((2 ^ n : Nat) : Int) = 2 ^ n := Nat.cast_pow 2 n
  have hsum (x y : Int) : sumFirst t sat x y = narrow (x + y) := by
    cases sat <;> rfl
  have hnarrow (hs : sat = true) (x : Int) : TyHolds t (narrow x) := by
    subst hs
    exact tyHolds_satT t x
  dsimp only [exec, execVadd, execVsub, execVmul, execVmulh, execVmad, execVshl, execVshr, execVsar, execVmin, execVmax, execVabs,
    execVaddmin, execVaddmax, execVand, execVor, execVxor, execVandn]
  refine ⟨row sat _ fun _ _ => rfl, row sat _ fun _ _ => rfl, plain _ fun _ _ => rfl, ?mulh,
    row sat _ fun _ _ => rfl, ?shl, fun _ => ?shr, fun _ => ?sar,
    plain _ fun _ _ => rfl, plain _ fun _ _ => rfl, ?abs, ?addmin, ?addmax, bitwise_writes h _, bitwise_writes h _,
    bitwise_writes h _, bitwise_writes h _,
    elementwise_b32 h (r := fun x y => x <<< (y.toNat % 32)) fun x y _ => wrapN_shl x y,
    elementwise_b32 h (r := fun x y => x >>> (y.toNat % 32)) fun x y _ => wrapN_shr x y⟩
  case mulh => exact plain _ fun l e => congrArg (a l e * b l e / ·) (hpow w)
  case shl => exact plain _ fun l e => congrArg (a l e * ·) (hpow _)
  case shr | sar => exact plain _ fun l e => congrArg (a l e / ·) (hpow _)
  case abs => exact row sat _ fun l e => by rw [Int.natCast_natAbs]; rfl
  case addmin => exact picked _ (fun l e => congrArg (min · (c l e)) (hsum _ _)) fun l e hs => (hnarrow hs _).min (tyHolds_el t _ e)
  case addmax => exact picked _ (fun l e => congrArg (max · (c l e)) (hsum _ _)) fun l e hs => (hnarrow hs _).max (tyHolds_el t _ e)

end Sys2Proof.Machine
end

section
/-! Lane bit operations, comparison into a mask and conversion (R130 to R132), by the bits of their operands. -/

namespace Sys2Proof.Machine

open Sys2Proof

/-! ### Counts -/

/-- The significant bits of a number end with its leading one. -/
theorem bitLen_eq_log2 {w n : Nat} (h : w < 2 ^ n) (h0 : w ≠ 0) : bitLen w n = w.log2 + 1 :=
  eq_of_forall_ge_iff fun k => (bitLen_le_iff n w k h).trans (Nat.log2_lt h0).symm

/-- The bits above the significant ones are zeros, and a one follows them. -/
theorem clz_spec (x : Word) : 32 - bitLen x.toNat 32 ≤ 32 ∧ (∀ j < 32 - bitLen x.toNat 32, x.getMsbD j = false)
    ∧ (32 - bitLen x.toNat 32 < 32 → x.getMsbD (32 - bitLen x.toNat 32) = true) := by
  by_cases h0 : x.toNat = 0
  · obtain rfl : x = 0 := BitVec.eq_of_toNat_eq h0
    exact ⟨Nat.sub_le _ _, fun _ _ => BitVec.getMsbD_zero, fun h => absurd h (by decide)⟩
  · have hlog : x.toNat.log2 < 32 := (Nat.log2_lt h0).mpr x.isLt
    rw [bitLen_eq_log2 x.isLt h0]
    refine ⟨Nat.sub_le _ _, fun j hj => ?_, fun _ => ?_⟩
    · have hzero : x.toNat.testBit (32 - 1 - j) = false := Nat.testBit_lt_two_pow ((Nat.log2_lt h0).mp (by omega))
      rw [BitVec.getMsbD_eq_getLsbD, BitVec.getLsbD, hzero, Bool.and_false]
    · rw [BitVec.getMsbD_eq_getLsbD, decide_eq_true (by omega), Bool.true_and, BitVec.getLsbD,
        show 32 - 1 - (32 - (x.toNat.log2 + 1)) = x.toNat.log2 by omega, Nat.testBit_log2 h0]

/-! ### Bit fields -/

/-- An extracted field: its bits at the bottom, and above them zeros or, of .i32, its last bit (R130). -/
theorem getLsbD_bitField (t : Ty) (a b c : Word) {j : Nat} (hj : j < 32) : (bitField t a b c).getLsbD j =
    if j < fieldLen b c then a.getLsbD (fieldPos b + j)
    else decide (t = .i32 ∧ fieldLen b c ≠ 0) && a.getLsbD (fieldPos b + fieldLen b c - 1) := by
  unfold bitField
  dsimp only
  generalize fieldLen b c = n
  generalize fieldPos b = p
  have hbit (k : Nat) : (BitVec.ofNat n (field a.toNat p n)).getLsbD k = (decide (k < n) && a.getLsbD (p + k)) := by
    rw [BitVec.getLsbD_ofNat, testBit_field, ← Bool.and_assoc, Bool.and_self]
    rfl
  split
  · next h0 => simp [h0]
  · next h0 =>
    split
    · next ht =>
      have hext : w32 (sgn n (field a.toNat p n)) = (BitVec.ofNat n (field a.toNat p n)).signExtend 32 :=
        congrArg w32 (sgn_eq_toInt (Nat.pos_of_ne_zero h0) _)
      rw [hext, BitVec.getLsbD_signExtend, BitVec.msb_eq_getLsbD_last, hbit, hbit, decide_eq_true hj, Bool.true_and]
      split
      · next hlt => rw [decide_eq_true hlt, Bool.true_and]
      · rw [decide_eq_true (show n - 1 < n by omega), decide_eq_true (And.intro ht h0), Nat.add_sub_assoc (by omega)]
    · next ht =>
      rw [BitVec.getLsbD_ofNat, testBit_field, decide_eq_true hj, Bool.true_and]
      split
      · next hlt => rw [decide_eq_true hlt, Bool.true_and]; rfl
      · next hlt => rw [decide_eq_false hlt, decide_eq_false (fun h => ht h.1), Bool.false_and, Bool.false_and]

/-- An inserted field (R130). -/
theorem getLsbD_bitInsert (old a b c : Word) {j : Nat} (hj : j < 32) : (bitInsert old a b c).getLsbD j =
    if fieldPos b ≤ j ∧ j < fieldPos b + fieldLen b c then a.getLsbD (j - fieldPos b) else old.getLsbD j := by
  rw [bitInsert, BitVec.getLsbD_ofNat, decide_eq_true hj, Bool.true_and, testBit_insert]
  rfl

/-! ### Masks -/

/-- A mask written from a bit per active lane (R131). -/
theorem getLsbD_laneMask (i : LaneIn) (p : Nat → Bool) {l : Nat} (hl : l < 64) :
    (maskOf (i.lanes.filter p)).getLsbD l = (i.act.getLsbD l && p l) := by
  rw [getLsbD_maskOf _ _ hl, LaneIn.lanes]
  simp only [List.mem_filter, mem_lanesOf, hl, true_and, Bool.decide_and, Bool.decide_eq_true]

/-! ### The instructions -/

/-- Settles O45: counts from what they say of the bits, fields and conversions bit by bit, and comparisons lane by lane. -/
theorem laneBits : Obligations.LaneBits := by
  unfold Obligations.LaneBits
  intro s i o t h p n
  dsimp only [exec, execVclz, execVpopc, execVbfx, execVbfi, execVsel, execVsad, execVcmp, execVcvt]
  refine ⟨⟨_, perLane_writes h _, fun l => ?clz⟩, ?popc, ⟨_, perLane_writes h _, fun l j hj => getLsbD_bitField t _ _ _ hj⟩,
    ⟨_, perLane_writes h _, fun l j hj => getLsbD_bitInsert _ _ _ _ hj⟩, fun k => perLane_writes h _, perLane_writes h _,
    fun cc => ⟨_, perLaneMask_writes h _, fun l hl => ?cmp⟩, fun ts sat ed es hfit => ⟨_, perLane_writes h _, fun l => ?cvt⟩⟩
  case clz =>
    have hn : (BitVec.ofNat 32 (32 - bitLen (i.a .b32 l).toNat 32)).toNat = 32 - bitLen (i.a .b32 l).toNat 32 :=
      Nat.mod_eq_of_lt (by omega)
    rw [hn]
    exact clz_spec _
  case popc =>
    refine (perLane_writes h _).trans (congrArg (i.writes s) (funext fun l => ?_))
    rw [popCount_eq_countP]
    rfl
  case cmp =>
    refine (getLsbD_laneMask i _ hl).trans (congrArg (i.act.getLsbD l && ·) ?_)
    cases cc <;> rfl
  case cvt =>
    obtain ⟨hput, hrest⟩ := putN_element (tyBits_pos t) hfit (i.old l) (wrapN (tyBits t)
      (if sat then satT t (el ts (i.a ts l) es.toNat) else el ts (i.a ts l) es.toNat))
    exact ⟨hput.trans (Nat.mod_eq_of_lt (wrapN_lt _ _)), hrest⟩

end Sys2Proof.Machine
end

section
/-! Lane float arithmetic (R133 to R137) and the results that R138 and R139 fix for special inputs of the approximations. -/

namespace Sys2Proof.Machine

open Sys2Proof

/-! ### Element by element -/

/-- A float row gives each element of vd its exact result, rounded once (R133). -/
theorem floatwise_writes {s : State} {i : LaneIn} {o : LaneOp} (h : i.atHead s o) (t : Ty) (rm : Rm) (f : Fl → Fl → Fl → Fl) :
    ∃ v : Nat → Word, floatwise s t rm o f = i.writes s v ∧ ∀ l e, e < 32 / tyBits t → elN (tyBits t) (v l) e
      = roundMode (fmtOf t) rm false (f (flEl t (i.a t l) e) (flEl t (i.b t l) e) (flEl t (i.c t l) e)) % 2 ^ tyBits t :=
  ⟨_, perLane_writes h _, fun _ _ he => elN_mapPat t _ he⟩

theorem patternwise_writes {s : State} {i : LaneIn} {o : LaneOp} (h : i.atHead s o) (t : Ty) (f : Nat → Nat → Nat) :
    ∃ v : Nat → Word, patternwise s t o f = i.writes s v ∧ ∀ l e, e < 32 / tyBits t →
      elN (tyBits t) (v l) e = f (elN (tyBits t) (i.a t l) e) (elN (tyBits t) (i.b t l) e) % 2 ^ tyBits t :=
  ⟨_, perLane_writes h _, fun _ _ he => elN_mapPat t _ he⟩

theorem flEl_f32 (p : Word) : flEl .f32 p 0 = fval fp32 p.toNat := congrArg (fval fp32) (elN_zero p)

/-! ### Special inputs of the approximations -/

/-- What the five approximations of one pattern are. -/
abbrev ApproxRow (F : Fmt) (p rcp rsq sqrt exp2 log2 : Nat) : Prop :=
  approx .rcp F p = rcp ∧ approx .rsq F p = rsq ∧ approx .sqrt F p = sqrt ∧ approx .exp2 F p = exp2 ∧ approx .log2 F p = log2

theorem approx_nan (k : Approx) {F : Fmt} {p : Nat} (h : isNan (fval F p) = true) : approx k F p = F.nan := by
  unfold approx
  split
  · rfl
  · next hv => rw [hv] at h; cases h
  · next hv => rw [hv] at h; cases h

theorem approxRow_nan {F : Fmt} {p : Nat} (h : isNan (fval F p) = true) : ApproxRow F p F.nan F.nan F.nan F.nan F.nan :=
  ⟨approx_nan _ h, approx_nan _ h, approx_nan _ h, approx_nan _ h, approx_nan _ h⟩

/-- Patterns between −0 and the negative infinity are the negative values (R124). -/
theorem fval_negative {F : Fmt} (hF : F.maxP < 2 ^ (F.bits - 1)) {p : Nat} (hlo : 2 ^ (F.bits - 1) < p)
    (hhi : p ≤ 2 ^ (F.bits - 1) + F.maxP) : ∃ m e, fval F p = .fin true m e ∧ m ≠ 0 := by
  obtain ⟨q, rfl⟩ := Nat.exists_eq_add_of_lt hlo
  have hq : q + 1 < 2 ^ (F.bits - 1) := by omega
  have hsign : bitOf (2 ^ (F.bits - 1) + (q + 1)) (F.bits - 1) = true := by
    rw [bitOf, Nat.add_div_left _ (by positivity), Nat.div_eq_of_lt hq]
    rfl
  have hmag : (2 ^ (F.bits - 1) + (q + 1)) % 2 ^ (F.bits - 1) = q + 1 := by rw [Nat.add_mod_left, Nat.mod_eq_of_lt hq]
  unfold fval
  dsimp only
  rw [Nat.add_assoc, hsign, hmag, if_pos (show q + 1 ≤ F.maxP by omega)]
  split
  · next hex =>
    have hfr : q + 1 < 2 ^ F.frac := (Nat.div_eq_zero_iff.mp hex).resolve_left (by positivity)
    exact ⟨_, _, rfl, by rw [Nat.mod_eq_of_lt hfr]; omega⟩
  · have hpos : 0 < 2 ^ F.frac := by positivity
    exact ⟨_, _, rfl, by omega⟩

/-- Negative values have no root and no logarithm (R139). -/
theorem approx_negative {F : Fmt} {p m : Nat} {e : Int} (h : fval F p = .fin true m e) (hm : m ≠ 0) :
    approx .rsq F p = F.nan ∧ approx .sqrt F p = F.nan ∧ approx .log2 F p = F.nan := by
  simp only [approx, h, hm, if_false, if_true, and_self]

/-! ### −1 (R138) -/

theorem isqrt_two_pow {n k : Nat} (h : n = 2 * k) : isqrt (2 ^ n) = 2 ^ k := by
  rw [isqrt, h, Nat.two_mul, Nat.pow_add, Nat.sqrt_eq]

/-- The table of `fexp2` begins with 1. -/
theorem fixExp2_zero : fixExp2 0 = 2 ^ 40 := by
  rw [fixExp2, isqrt_two_pow (k := 1312) rfl, isqrt_two_pow (k := 656) rfl, isqrt_two_pow (k := 328) rfl,
    isqrt_two_pow (k := 164) rfl, isqrt_two_pow (k := 82) rfl, isqrt_two_pow (k := 41) rfl]
  rfl

/-- `fexp2` of −1 takes the table's first entry and no remainder: one half before it is rounded. -/
theorem fexp2Fin_neg_one (F : Fmt) (k : Nat) : fexp2Fin F (-((2 ^ k : Nat) : Int)) k
    = roundVal F (2 ^ 40 * 2 ^ (40 + 4 * (k + 6))) 1 (80 + 4 * (k + 6)) (-1) := by
  have hdiv : -((2 ^ k : Nat) : Int) / ((2 ^ k : Nat) : Int) = -1 :=
    Int.ediv_eq_of_eq_mul_left (by positivity) (by ring)
  have hrest : -((2 ^ k : Nat) : Int) - -1 * ((2 ^ k : Nat) : Int) = 0 := by ring
  unfold fexp2Fin
  dsimp only
  rw [hdiv, hrest]
  simp [fixExp2_zero]

theorem approxRow_neg_one {F : Fmt} {p k rcp half : Nat} (h : fval F p = .fin true (2 ^ k) (-(k : Int)))
    (hrcp : frcpPos F true (2 ^ k) (-(k : Int)) = rcp)
    (hhalf : roundVal F (2 ^ 40 * 2 ^ (40 + 4 * (k + 6))) 1 (80 + 4 * (k + 6)) (-1) = half) :
    ApproxRow F p rcp F.nan F.nan half F.nan := by
  have hm : (2 ^ k : Nat) ≠ 0 := by positivity
  obtain ⟨hrsq, hsqrt, hlog2⟩ := approx_negative h hm
  refine ⟨?_, hrsq, hsqrt, ?_, hlog2⟩
  · simpa [approx, h] using hrcp
  · rw [← hhalf, ← fexp2Fin_neg_one]
    simp [approx, h, sMant]

/-! ### The instructions -/

/-- Settles O46: each row's exact result, the comparisons lane by lane, and the special inputs format by format. -/
theorem laneFloats : Obligations.LaneFloats := by
  unfold Obligations.LaneFloats
  refine ⟨fun s i o t rm h _ => ?rows, ?specials⟩
  case rows =>
    intro w F pa pb a b c puts round down
    have fl (f : Fl → Fl → Fl → Fl) : puts (floatwise s t rm o f) (fun l e => round (f (a l e) (b l e) (c l e))) :=
      floatwise_writes h t rm f
    have pat (f : Nat → Nat → Nat) : puts (patternwise s t o f) (fun l e => f (pa l e) (pb l e)) := patternwise_writes h t f
    dsimp only [exec, execFadd, execFsub, execFmul, execFfma, execFmin, execFmax, execFrcp, execFrsq, execFsqrt, execFexp2, execFlog2,
      execFint, execFcmp, execFcvt]
    refine ⟨fl _, fl _, fl _, fl _, pat _, pat _, pat _, pat _, pat _, pat _, pat _, pat _,
      fun cc => ⟨_, perLaneMask_writes h _, fun l hl => ?_⟩, fun td ts sf ed es hfit => ⟨_, perLane_writes h _, fun l => ?_⟩⟩
    · refine (getLsbD_laneMask i _ hl).trans (congrArg (i.act.getLsbD l && ·) ?_)
      rw [flEl_f32, flEl_f32]
      cases cc <;> rfl
    · exact putN_element (tyBits_pos td) hfit _ _
  case specials =>
    intro special
    have assemble (F : Fmt) (sg inf one two half : Nat) (hF : F.maxP < 2 ^ (F.bits - 1)) (hsg : sg = 2 ^ (F.bits - 1))
        (hinf : inf = F.maxP + 1)
        (hrows : ApproxRow F 0 inf inf 0 one (sg + inf) ∧ ApproxRow F sg (sg + inf) (sg + inf) sg one (sg + inf)
          ∧ ApproxRow F inf 0 0 inf inf inf ∧ ApproxRow F (sg + inf) sg F.nan F.nan 0 F.nan ∧ ApproxRow F one one one one two 0)
        (hneg : ApproxRow F (sg + one) (sg + one) F.nan F.nan half F.nan) : special F sg inf one two half F.nan := by
      obtain ⟨hzero, hnzero, hpinf, hninf, hone⟩ := hrows
      refine ⟨hzero, hnzero, hpinf, hninf, hone, hneg, fun p hlo hhi => ?_, fun p hp => approxRow_nan hp⟩
      obtain ⟨m, e, hv, hm⟩ := fval_negative hF (hsg ▸ hlo) (by omega)
      exact approx_negative hv hm
    exact ⟨assemble fp32 _ _ _ _ _ (by decide) rfl rfl (by decide) (approxRow_neg_one (k := 23) rfl rfl rfl),
      assemble fp16 _ _ _ _ _ (by decide) rfl rfl (by decide) (approxRow_neg_one (k := 10) rfl rfl rfl),
      assemble bf16 _ _ _ _ _ (by decide) rfl rfl (by decide) (approxRow_neg_one (k := 7) rfl rfl rfl)⟩

end Sys2Proof.Machine
end

section
/-! Cross-lane movement (R140 to R143). -/

namespace Sys2Proof.Machine

open Sys2Proof

/-- A cross-lane instruction whose identity is 0 gives each member its value. -/
theorem crossLane_gives {s : State} {i : LaneIn} {o : LaneOp} (h : i.atHead s o) (f : LaneIn → Nat → Word) {v : Nat → Word}
    (hv : f i = v) : crossLane s o 0 f
      = .next (i.after s (fun g => g.setLanes i.vd i.execs (fun l => if i.act.getLsbD l then v l else 0))) := by
  rw [crossLane_writes h, hv]

/-- The value of the member that a lane number names, else 0 (R141 to R143). -/
theorem fromMember_eq (i : LaneIn) (n : Int) :
    fromMember i n = if 0 ≤ n ∧ n < i.g.gw ∧ i.act.getLsbD n.toNat = true then i.a .b32 n.toNat else 0 := by
  simp only [fromMember, Bool.and_eq_true, decide_eq_true_eq, and_assoc]

/-- A shift delivers sc where its source lane falls outside the group (R142). -/
theorem shifted_eq (i : LaneIn) (c : Word) (n : Int) :
    (if n < 0 || decide ((i.g.gw : Int) ≤ n) then c else fromMember i n)
      = if n < 0 ∨ (i.g.gw : Int) ≤ n then c
        else if 0 ≤ n ∧ n < i.g.gw ∧ i.act.getLsbD n.toNat = true then i.a .b32 n.toNat else 0 := by
  simp only [fromMember_eq, Bool.or_eq_true, decide_eq_true_eq]

/-- Settles O47: each row names its source lane, and the members receive what it names. -/
theorem laneMovement : Obligations.LaneMovement := by
  unfold Obligations.LaneMovement
  intro s i o h gives lane b shifted
  have row {f : LaneIn → Nat → Word} {v : Nat → Word} (hv : ∀ l, f i l = v l) : crossLane s o 0 f = gives v :=
    crossLane_gives h f (funext hv)
  exact ⟨(show execVshfl .idx o s = _ from row fun l => fromMember_eq i _),
    (show execVshfl .xor o s = _ from row fun l => fromMember_eq i _),
    (show execVshfl .up o s = _ from row fun l => fromMember_eq i _),
    (show execVshfl .dn o s = _ from row fun l => fromMember_eq i _),
    (show execVshift false o s = _ from row fun l => shifted_eq i _ _),
    (show execVshift true o s = _ from row fun l => shifted_eq i _ _),
    (show execVrot false o s = _ from row fun l => fromMember_eq i _),
    (show execVrot true o s = _ from row fun l => fromMember_eq i _),
    (show execVbcast o s = _ from row fun l => fromMember_eq i _)⟩

end Sys2Proof.Machine
end

section
/-! Matrix instructions (R153 to R169): what passes its checks updates its tile or loads its registers. -/

namespace Sys2Proof.Machine

open Sys2Proof

/-! ### Past the checks -/

/-- No check of `n`-byte areas stops an instruction, and no scratchpad atomic holds it back (R154, R158, R222). -/
def LaneIn.AreasPass (i : LaneIn) (s : State) (n al : Nat) (write : Bool) : Prop :=
  s.areaTrap i.g i.areas n al = none ∧ s.touchTrap i.g (i.touched n) write = none ∧ i.g.spadAtoms = false

theorem withAreas_pass {i : LaneIn} {s : State} {n al : Nat} {write : Bool} (h : i.AreasPass s n al write) (r : Res) :
    i.withAreas s n al write r = r := by
  obtain ⟨harea, htouch, hatoms⟩ := h
  simp only [LaneIn.withAreas, harea, htouch, hatoms, Bool.false_eq_true, if_false]

/-- What Sepia holds goes on to count its access and to leave the lane queue (R156, R158). -/
theorem orOverflow_touch {i : LaneIn} {s s1 : State} {r : Option State} (h : r = some s1) :
    i.orOverflow s r (fun s => i.touch s i.spPath (fun g => g)) = .next (i.after (s1.countAll i.spPath) (fun g => g)) := by
  subst h
  rfl

/-- An instruction that updates its tile, once its areas pass and Sepia holds what it overwrites (R154, R157). -/
theorem withAreas_updates {i : LaneIn} {s s1 : State} {f : Nat → Nat → Nat → Word → Word} (ha : i.AreasPass s 512 512 true)
    (hf : s.updSpads i.g.seat (i.tile f) = some s1) :
    i.withAreas s 512 512 true
      (i.orOverflow s (s.updSpads i.g.seat (i.tile f)) (fun s => i.touch s i.spPath (fun g => g)))
      = .next (i.after (s1.countAll i.spPath) (fun g => g)) :=
  (withAreas_pass ha _).trans (orOverflow_touch hf)

/-! ### One rule per shape of instruction -/

section
variable {s s1 : State} {i : LaneIn} {o : LaneOp}

/-- A multiply-accumulate whose B octet exists and that service allows (R150, R166). -/
theorem mma_updates (h : i.atHead s o) {m : Mma} {service : Bool} {f : Mma → Group → Nat → Nat → Nat → Word → Word}
    (hc : m.c.toNat < i.g.gw / 8) (hserv : (service && s.reduced) = false) (ha : i.AreasPass s 512 512 true)
    (hf : s.updSpads i.g.seat (i.tile (f m i.g)) = some s1) :
    mma s o m service f = .next (i.after (s1.countAll i.spPath) (fun g => g)) := by
  have hlegal : ¬ (i.g.gw / 8 ≤ m.c.toNat || (service && s.reduced)) = true := by
    simp only [hserv, Bool.or_false, decide_eq_true_eq, Nat.not_le, hc]
  exact (withLane_atHead h _).trans ((if_neg hlegal).trans (withAreas_updates ha hf))

/-- A multiply-accumulate whose B octet the group does not have is illegal (R150). -/
theorem mma_illegal (h : i.atHead s o) {m : Mma} (hc : i.g.gw / 8 ≤ m.c.toNat) (service : Bool)
    (f : Mma → Group → Nat → Nat → Nat → Word → Word) : mma s o m service f = raiseLane s i.g i.e 0x01 0 0 := by
  have hill : (i.g.gw / 8 ≤ m.c.toNat || (service && s.reduced)) = true := by rw [decide_eq_true hc, Bool.true_or]
  exact (withLane_atHead h _).trans (if_pos hill)

/-- `macc.st` and `macc.add` (R169). -/
theorem maccUpd_updates (h : i.atHead s o) (f : Word → Word → Word) (ha : i.AreasPass s 512 512 true)
    (hf : s.updSpads i.g.seat (i.tile (fun j r n w => f w (i.g.v (i.vd + n) (8 * j + r)))) = some s1) :
    maccUpd s o f = .next (i.after (s1.countAll i.spPath) (fun g => g)) :=
  (withLane_atHead h _).trans (withAreas_updates ha hf)

/-- A fragment load whose elements pass their checks loads every register of every active lane (R168). -/
theorem fragLoad_loads (h : i.atHead s o) {tr roleB : Bool} {t : Ty} {k64 : Bool} (hatoms : i.g.spadAtoms = false)
    (htrap : i.fragTrap s t (i.lanes.flatMap (fun l =>
      (List.range (fragRegs roleB k64)).flatMap (i.fragEls tr roleB t k64 l))) = none) :
    fragLoad s tr roleB t k64 o = .next (i.loaded s (i.lanes.flatMap (fun l =>
      (List.range (fragRegs roleB k64)).flatMap (fun r => i.fragReg s t l r (i.fragEls tr roleB t k64 l r)))) (fun g => g)) := by
  refine (withLane_atHead h _).trans ?_
  simp only [htrap, hatoms, Bool.false_eq_true, if_false]
  rfl

end

/-! ### The instructions -/

/-- Settles O49: past its checks, each instruction is its update of a tile or its load of registers. -/
theorem matrixInstructions : Obligations.MatrixInstructions := by
  unfold Obligations.MatrixInstructions
  intro s s1 i o h out area tile entry col
  refine ⟨fun ta tb fix c hc ha => ?multiply, fun ha => ?move, fun ha => ?load, fun roleB k64 t => ?fragment,
    fun t c hc => mma_illegal h hc false Mma.fupd⟩
  case multiply =>
    exact ⟨fun hserv hf => mma_updates h (f := Mma.fupd) hc hserv ha hf,
      fun hf => mma_updates h (f := Mma.fupd) hc (Bool.false_and _) ha hf,
      fun hserv hf => mma_updates h (f := Mma.iupd) hc hserv ha hf⟩
  case move =>
    exact ⟨fun hf => (show execMzero o s = _ from (withLane_atHead h _).trans (withAreas_updates ha hf)),
      maccUpd_updates h (fun _ x => x) ha, fun t => maccUpd_updates h (fun w x => atomNew .add t w x 0) ha⟩
  case load => exact (show execMaccLd o s = _ from (withLane_atHead h _).trans (withAreas_pass ha _))
  case fragment =>
    exact ⟨fun ⟨hatoms, htrap⟩ => fragLoad_loads h hatoms htrap, fun ⟨hatoms, htrap⟩ => fragLoad_loads h hatoms htrap⟩

end Sys2Proof.Machine
end

section
/-! Narrow numbers (R173 to R199): residue words, fixed-point accumulators, scale bytes, quantisation and outliers, each past its
checks. -/

namespace Sys2Proof.Machine

open Sys2Proof

/-! ### Values of one lane -/

/-- The residues of an integer are the sum that `rwfrom` adds to the zero word (R190). -/
theorem rwacc_zero (x : Int) : rwacc 0 (x % 256) (x % 255) (x % 257)
    = BitVec.ofNat 32 ((x % 256).toNat + (x % 255).toNat * 2 ^ 8 + (x % 257).toNat * 2 ^ 16) := by
  simp [rwacc, field]

/-- Writing one element leaves every other element (R123). -/
theorem elN_putN_ne {w e j : Nat} (hw : 0 < w) (hj : (j + 1) * w ≤ 32) (hne : j ≠ e) (p : Word) (x : Nat) :
    elN w (putN w p e x) j = elN w p j := by
  have hbits : ∀ b < w, (putN w p e x).getLsbD (w * j + b) = (elN w p j).testBit b := fun b hb => by
    obtain ⟨hdiv, -⟩ := mul_add_div_mod (e := j) hb
    have hin : w * j + b < 32 := by
      rw [Nat.add_mul, Nat.mul_comm] at hj
      omega
    rw [getLsbD_putN hw p e x _ hin, if_neg (hdiv.trans_ne hne), elN, testBit_field, decide_eq_true hb, Bool.true_and]
    rfl
  exact (elN_of_bits hbits).trans (Nat.mod_eq_of_lt (Nat.mod_lt _ (by positivity)))

/-- Writing one byte of a word: that byte and the others (R196). -/
theorem byteN_putN (p : Word) (sel : BitVec 2) (x : Nat) : byteN (putN 8 p sel.toNat x) sel.toNat = x % 256
    ∧ ∀ j < 4, j ≠ sel.toNat → byteN (putN 8 p sel.toNat x) j = byteN p j := by
  have hfit {j : Nat} (hj : j < 4) : (j + 1) * 8 ≤ 32 := by omega
  exact ⟨elN_putN (by decide) (hfit sel.isLt) p x, fun j hj hne => elN_putN_ne (by decide) (hfit hj) hne p x⟩

/-! ### Words read in turn -/

/-- Reading without clearing leaves the state, so every word is read of it (R187). -/
theorem readClear_false (i : LaneIn) (n : Nat) (words : List (Nat × Nat × Nat)) (s : State) :
    i.readClear false n words s = some (s, words.map (fun e => (e.1, e.2.1, s.loadSpad i.g.seat e.2.2 n))) := by
  induction words with
  | nil => rfl
  | cons e r ih => simp [LaneIn.readClear, ih]

/-- What the tile form of `crt` loads of one word read: its integer, in its column's register (R189). -/
def LaneIn.crtPart (i : LaneIn) (e : Nat × Nat × Nat × Bool) : LoadPart :=
  { path := .sp, ws := [.v (i.vd + e.2.1) e.1 (BitVec.ofInt 32 (crtDecode (BitVec.ofNat 32 e.2.2.1)))], pois := e.2.2.2 }

/-! ### Regions -/

/-- The checks of a region stop no instruction, and no scratchpad atomic holds it back (R197, R199, R222). -/
def LaneIn.RegionPasses (i : LaneIn) (s : State) : Prop :=
  i.g.spadAtoms = false
    ∧ s.areaTrap i.g [(i.lanes.headD 0, regionBase i.e.bcc)] (8 + 8 * regionCap i.e.bcc) 8 = none

theorem withRegion_pass {i : LaneIn} {s : State} (h : i.RegionPasses s) (write : Bool) (r : Res) : i.withRegion s write r = r := by
  obtain ⟨hatoms, harea⟩ := h
  simp only [LaneIn.withRegion, harea, hatoms, Bool.false_eq_true, if_false]

/-! ### One rule per shape of instruction -/

section
variable {s s1 : State} {i : LaneIn} {o : LaneOp}

/-- The tile forms of `crt` load what they read (R189). -/
theorem execCrtAcc_loads (h : i.atHead s o) {clr : Bool} {l : List (Nat × Nat × Nat × Bool)} (ha : i.AreasPass s 512 512 clr)
    (hread : i.readClear clr 4 i.tileWords s = some (s1, l)) :
    execCrtAcc clr o s = .next (i.loaded s1 (l.map i.crtPart) (fun g => g)) := by
  refine (withLane_atHead h _).trans ((withAreas_pass ha _).trans ?_)
  simp only [hread]
  rfl

/-- An instruction that updates its accumulators, once its areas pass and Sepia holds what it overwrites (R181). -/
theorem fxUpdate_updates (h : i.atHead s o) (f : LaneIn → Nat → Nat → Nat → Nat) (ha : i.AreasPass s 2048 256 true)
    (hf : s.updFx i.g.seat (f i) i.fxCells = some s1) :
    fxUpdate s o f = .next (i.after (s1.countAll i.spPath) (fun g => g)) :=
  (withLane_atHead h _).trans ((withAreas_pass ha _).trans (orOverflow_touch hf))

/-- `fxcvt` loads the rounded values of the accumulators that it reads (R194). -/
theorem execFxcvt_loads (h : i.atHead s o) {clr : Bool} {l : List (Nat × Nat × Nat × Bool)} (t : Ty) (pt : BitVec 7) (rm : Rm)
    (ha : i.AreasPass s 2048 256 clr) (hread : i.readClear clr 16 i.fxCells s = some (s1, l)) :
    execFxcvt t pt clr rm o s = .next (i.loaded s1 (i.fxParts t (fxPat t pt rm) l) (fun g => g)) := by
  refine (withLane_atHead h _).trans ((withAreas_pass ha _).trans ?_)
  simp only [hread]
  rfl

/-- `qnt` writes what its lanes quantise to and counts what they clamped (R184, R197). -/
theorem execQnt_quantises (h : i.atHead s o) {t : Ty} {sel : BitVec 2} {rm : Rm} {ws : List (Nat × Word)} {n : Nat}
    (hr : i.RegionPasses s) (hq : i.qntAll t sel rm i.lanes s [] 0 = .ok s1 ws n) :
    execQnt t sel rm o s = .next (i.after (s1.countAll (if i.lanes.isEmpty then [] else [.sp])) (fun g =>
      ws.foldl (fun (g : Group) e => g.setV i.vd e.1 e.2) { g with ofc := raiseOfc g.ofc n })) := by
  refine (withLane_atHead h _).trans ((withRegion_pass hr _ _).trans ?_)
  simp only [hq]
  rfl

/-- With no active lane, `olx` does nothing more (R199). -/
theorem execOlx_idle (h : i.atHead s o) (hr : i.RegionPasses s) (hl : i.lanes = []) :
    execOlx o s = .next (i.after s (fun g => g)) := by
  refine (withLane_atHead h _).trans ((withRegion_pass hr _ _).trans ?_)
  exact if_pos (List.isEmpty_iff.mpr hl)

/-- With an active lane, `olx` adds to each lane of vd the records that it reads, and consumes their poison (R199). -/
theorem execOlx_adds (h : i.atHead s o) (hr : i.RegionPasses s) (hl : i.lanes ≠ [])
    (ht : s.touchTrap i.g (i.olxRecords s).2 false = none) :
    execOlx o s = .next (i.after ((s.consumeIf s.cur ((i.olxRecords s).1.any (·.2))).countAll [.sp])
      (fun g => g.setLanes i.vd i.act (fun l =>
        BitVec.ofNat 32 (olxSum i l ((i.olxRecords s).1.map (·.1)) (roundNe fp32 (fval fp32 (i.old l).toNat)))))) := by
  refine (withLane_atHead h _).trans ((withRegion_pass hr _ _).trans ((if_neg (mt List.isEmpty_iff.mp hl)).trans ?_))
  simp only [ht]
  rfl

end

/-! ### The instructions -/

/-- Settles O50: the register forms lane by lane, and past their checks the forms on areas and regions by what they read and
overwrite. -/
theorem narrowInstructions : Obligations.NarrowInstructions := by
  unfold Obligations.NarrowInstructions
  intro s s1 i o t pt sel rm h out tileFree fxFree fx part held region
  have update (f : LaneIn → Nat → Nat → Nat → Nat) (hf : fx (f i)) : fxUpdate s o f = out :=
    fxUpdate_updates h f hf.1 hf.2
  refine ⟨?crt, ?rwadd, ?rwfrom, ?crtRead, ?crtClear, ?sacc, ?fxzero, ?fxadd, ?fxcvtRead, ?fxcvtClear, ?sbmax, ?sbmaxOct, ?sbcvt,
    ?qnt, ?dqnt, ?olxIdle, ?olxAdds⟩
  case crt => exact (show execCrt o s = _ from perLane_writes h _)
  case rwadd => exact (show execRwadd o s = _ from perLane_writes h _)
  case rwfrom =>
    exact (show execRwfrom o s = _ from
      (perLane_writes h _).trans (congrArg (i.writes s) (funext fun l => rwacc_zero (i.a .i32 l).toInt)))
  case crtRead => exact fun ha => execCrtAcc_loads h ha (readClear_false i 4 _ s)
  case crtClear => exact fun l ha hread => execCrtAcc_loads h ha hread
  case sacc => exact fun rb cb hf => (show execSacc pt rb cb o s = _ from update _ hf)
  case fxzero => exact fun hf => (show execFxzero o s = _ from update _ hf)
  case fxadd => exact fun hf => (show execFxadd t pt o s = _ from update _ hf)
  case fxcvtRead => exact fun ha => execFxcvt_loads h t pt rm ha (readClear_false i 16 _ s)
  case fxcvtClear => exact fun l ha hread => execFxcvt_loads h t pt rm ha hread
  case sbmax => exact (show execSbmax t false o s = _ from (if_neg Bool.false_ne_true).trans (perLane_writes h _))
  case sbmaxOct => exact (show execSbmax t true o s = _ from (if_pos rfl).trans (withLane_atHead h _))
  case sbcvt =>
    exact ⟨_, (show execSbcvt t sel o s = _ from perLane_writes h _), fun l => byteN_putN (i.old l) sel _⟩
  case qnt => exact fun ws n hr hq => execQnt_quantises h hr hq
  case dqnt => exact (show execDqnt t sel o s = _ from withLane_atHead h _)
  case olxIdle => exact fun hr hl => execOlx_idle h hr hl
  case olxAdds => exact fun hr hl ht => execOlx_adds h hr hl ht

end Sys2Proof.Machine
end

section
/-! Lane accesses past their checks, and the trap of the lowest lane that fails them (R219 to R222): what the checks of the active
lanes answer, one lane after another, and how an access goes on from the answer. -/

namespace Sys2Proof.Machine

open Sys2Proof

/-! ### The lanes in their order (R44) -/

theorem pairwise_lanesOf (m : DWord) : (lanesOf m).Pairwise (· < ·) := List.pairwise_lt_range.filter _

/-- In a rising list the members before one of them are those below it. -/
theorem lt_iff_mem_before {l : Nat} {pre post : List Nat} (h : (pre ++ l :: post).Pairwise (· < ·)) {j : Nat}
    (hj : j ∈ pre ++ l :: post) : j < l ↔ j ∈ pre := by
  obtain ⟨-, hpost, hpre⟩ := List.pairwise_append.mp h
  have hafter : ∀ x ∈ post, l < x := (List.pairwise_cons.mp hpost).1
  constructor
  · intro hlt
    rcases List.mem_append.mp hj with hmem | hmem
    · exact hmem
    · rcases List.mem_cons.mp hmem with rfl | hmem
      · exact absurd hlt (lt_irrefl _)
      · exact absurd hlt (hafter j hmem).asymm
  · exact fun hmem => hpre j hmem l List.mem_cons_self

/-- `l` is an active lane, and the accesses of `pre` are those of the active lanes below it. -/
def LaneIn.Below (i : LaneIn) (l : Nat) (pre : List (Nat × List DWord)) : Prop :=
  l < 64 ∧ i.act.getLsbD l = true ∧ ∀ j < 64, i.act.getLsbD j = true → (j < l ↔ ∃ e ∈ pre, e.1 = j)

/-- The accesses before those of a lane are those of the active lanes below it. -/
theorem LaneIn.vas_before {i : LaneIn} {f : AddrForm} {m l : Nat} {vas : List DWord} {pre post : List (Nat × List DWord)}
    (h : i.vas f m = pre ++ (l, vas) :: post) : vas = rowOf (i.ea f l) m ∧ i.Below l pre := by
  obtain ⟨before, rest, hsplit, rfl, hrest⟩ := List.map_eq_append_iff.mp h
  obtain ⟨a, after, rfl, ha, -⟩ := List.map_eq_cons_iff.mp hrest
  obtain ⟨rfl, rfl⟩ := Prod.mk.inj ha
  have hrise : (before ++ a :: after).Pairwise (· < ·) := hsplit ▸ pairwise_lanesOf i.act
  have hmem {j : Nat} : j ∈ before ++ a :: after ↔ j < 64 ∧ i.act.getLsbD j = true := by
    rw [← hsplit]
    exact mem_lanesOf
  obtain ⟨hlt, hact⟩ := hmem.mp (by simp : a ∈ before ++ a :: after)
  refine ⟨rfl, hlt, hact, fun j hj hon => ?_⟩
  rw [lt_iff_mem_before hrise (hmem.mpr ⟨hj, hon⟩)]
  simp

/-! ### What the checks answer (R221, R405) -/

section
variable {s t : State} {k n al : Nat} {g : Group} {write : Bool} {perm : Nat → Bool} {x : LaneTrap}

/-- The checks of a list of lanes fail at one of them, once those before it have passed. -/
theorem chkLanes_error {l : List (Nat × List DWord)} (h : s.chkLanes k g n al write perm l = (t, .error x)) :
    ∃ pre e post s0 ps, l = pre ++ e :: post ∧ s.chkLanes k g n al write perm pre = (s0, .ok ps)
      ∧ s0.chkLane k g e.1 n al write perm e.2 = (t, .error x) := by
  induction l generalizing s t with
  | nil => simp [State.chkLanes] at h
  | cons e r ih =>
    obtain ⟨l, vas⟩ := e
    rw [State.chkLanes] at h
    cases hhead : s.chkLane k g l n al write perm vas with
    | mk s1 answer =>
      cases answer with
      | error y =>
        simp only [hhead, Prod.mk.injEq, Except.error.injEq] at h
        obtain ⟨rfl, rfl⟩ := h
        exact ⟨[], (l, vas), r, s, [], rfl, rfl, hhead⟩
      | ok qs =>
        cases hrest : s1.chkLanes k g n al write perm r with
        | mk s2 tail =>
          simp only [hhead, hrest, Prod.mk.injEq] at h
          obtain ⟨rfl, htail⟩ := h
          cases tail with
          | ok ts => cases htail
          | error y =>
            cases htail
            obtain ⟨pre, e, post, s0, ps, rfl, hpre, he⟩ := ih hrest
            refine ⟨(l, vas) :: pre, e, post, s0, (l, qs) :: ps, rfl, ?_, he⟩
            simp only [State.chkLanes, hhead, hpre]
            rfl

/-- The same of scratchpad checks. -/
theorem chkSLanes_error {l : List (Nat × List DWord)} (h : s.chkSLanes g n al write l = .error x) :
    ∃ pre e post ps, l = pre ++ e :: post ∧ s.chkSLanes g n al write pre = .ok ps
      ∧ s.chkSLane g e.1 n al write e.2 = .error x := by
  induction l with
  | nil => simp [State.chkSLanes] at h
  | cons e r ih =>
    obtain ⟨l, vas⟩ := e
    rw [State.chkSLanes] at h
    cases hhead : s.chkSLane g l n al write vas with
    | error y =>
      simp only [hhead, Except.error.injEq] at h
      subst h
      exact ⟨[], (l, vas), r, [], rfl, rfl, hhead⟩
    | ok qs =>
      cases hrest : s.chkSLanes g n al write r with
      | ok ts => simp [hhead, hrest, Except.map] at h
      | error y =>
        simp only [hhead, hrest, Except.map, Except.error.injEq] at h
        subst h
        obtain ⟨pre, e, post, ps, rfl, hpre, he⟩ := ih hrest
        refine ⟨(l, vas) :: pre, e, post, (l, qs) :: ps, rfl, ?_, he⟩
        simp only [State.chkSLanes, hhead, hpre]
        rfl

/-- A trap of a lane's global checks reports the lane and the access kind, and a lost pool region above them (R405). -/
theorem chkLane_error_info {l : Nat} {vas : List DWord} (h : s.chkLane k g l n al write perm vas = (t, .error x)) :
    x.info = laneInfo l write ∨ ∃ r, x.info = laneInfo l write + BitVec.ofNat 64 (r * 65536) := by
  have hregion (p : Place) : ∃ r, placeRegion p = r * 65536 := by
    cases hp : p.home with
    | none => exact ⟨0, by simp [placeRegion, hp]⟩
    | some a => exact ⟨_, by simp only [placeRegion, hp]; rfl⟩
  unfold State.chkLane at h
  dsimp only at h
  split at h
  · cases h; exact .inl rfl
  · split at h
    · cases h; exact .inl rfl
    · split at h
      · cases h; exact .inl rfl
      · split at h
        · cases h; exact .inl rfl
        · split at h
          · next p _ =>
            cases h
            obtain ⟨r, hr⟩ := hregion p
            dsimp only
            split
            · exact .inr ⟨r, by rw [hr]⟩
            · exact .inl rfl
          · split at h
            · cases h; exact .inl rfl
            · cases h

/-- A trap of a lane's scratchpad checks reports the lane and the access kind (R405). -/
theorem chkSLane_error_info {l : Nat} {vas : List DWord} (h : s.chkSLane g l n al write vas = .error x) :
    x.info = laneInfo l write := by
  unfold State.chkSLane at h
  dsimp only at h
  split at h
  · cases h; rfl
  · split at h
    · cases h; rfl
    · split at h
      · cases h; rfl
      · split at h
        · cases h; rfl
        · cases h

theorem toNat_laneInfo_read {l : Nat} (hl : l < 64) : (laneInfo l false).toNat = l := by
  simp only [laneInfo, Bool.false_eq_true, if_false, Nat.add_zero, BitVec.toNat_ofNat]
  omega

/-- INFO names the failing lane in its low byte (R405). -/
theorem lane_of_info {l : Nat} (hl : l < 64)
    (h : x.info = laneInfo l false ∨ ∃ r, x.info = laneInfo l false + BitVec.ofNat 64 (r * 65536)) : x.info.toNat % 256 = l := by
  have hinfo := toNat_laneInfo_read hl
  rcases h with h | ⟨r, h⟩
  · rw [h, hinfo]
    omega
  · rw [h, BitVec.toNat_add, hinfo, BitVec.toNat_ofNat]
    omega

end

/-! ### Going on from the answer -/

section
variable {s s1 : State} {i : LaneIn} {f : AddrForm} {m n al : Nat} {write : Bool} {perm : Nat → Bool} {x : LaneTrap}

theorem withGlobal_passes {ps : List (Nat × List Place)} (h : s.chkLanes s.cur i.g n al write perm (i.vas f m) = (s1, .ok ps))
    (r : State → List (Nat × List Place) → Res) : i.withGlobal s f m n al write perm r = r s1 ps := by
  simp only [LaneIn.withGlobal, h]

theorem withGlobal_traps (h : s.chkLanes s.cur i.g n al write perm (i.vas f m) = (s1, .error x))
    (r : State → List (Nat × List Place) → Res) :
    i.withGlobal s f m n al write perm r = raiseLane s1 i.g i.e x.num x.addr x.info := by
  simp only [LaneIn.withGlobal, h]
  rfl

theorem withSpad_passes {ps : List (Nat × List SPlace)} (h : s.chkSLanes i.g n al write (i.vas f m) = .ok ps)
    (hclear : ∀ e ∈ ps, ∀ p ∈ e.2, s.spadAtomHit i.g p.t p.off n = false) (r : List (Nat × List SPlace) → Res) :
    i.withSpad s f m n al write r = r ps := by
  have hnone : ps.any (fun e => e.2.any (fun p => s.spadAtomHit i.g p.t p.off n)) = false := by
    simpa only [List.any_eq_false, Bool.not_eq_true] using hclear
  simp only [LaneIn.withSpad, h, hnone, Bool.false_eq_true, if_false]

theorem withSpad_traps (h : s.chkSLanes i.g n al write (i.vas f m) = .error x) (r : List (Nat × List SPlace) → Res) :
    i.withSpad s f m n al write r = raiseLane s i.g i.e x.num x.addr x.info := by
  simp only [LaneIn.withSpad, h]
  rfl

end

end Sys2Proof.Machine
end

section
/-! Lane loads (R219 to R227): each register takes its element once every lane passes its checks, else the lowest failing lane
traps. -/

namespace Sys2Proof.Machine

open Sys2Proof

section
variable {s s1 : State} {i : LaneIn} {o : LaneOp} {f : AddrForm} {u : Ty} {m : Nat} {x : LaneTrap}

/-- A global load past its checks, with no place waiting and none behind a parked store (R210, R225). -/
theorem laneLoad_loads (h : i.atHead s o) {ps : List (Nat × List Place)}
    (hchk : s.chkLanes s.cur i.g (memBytes u) (memBytes u) false (fun _ => true) (i.vas f m) = (s1, .ok ps))
    (hready : ∀ e ∈ ps, ∀ p ∈ e.2, p.home.isSome = true ∧ s1.parkedHit s1.cur p.va (memBytes u) = false) :
    laneLoad s u f m o = .next (i.loaded (s1.readAll s1.cur (memBytes u) i.vd u (flatten ps)).1
      (s1.readAll s1.cur (memBytes u) i.vd u (flatten ps)).2 (fun g => g)) :=
  (withLane_atHead h _).trans ((withGlobal_passes hchk _).trans (ready_runs i s1 _ ps _ hready))

/-- A scratchpad load past its checks, with no scratchpad atomic in its way (R222, R226). -/
theorem laneLoadS_loads (h : i.atHead s o) {ps : List (Nat × List SPlace)}
    (hchk : s.chkSLanes i.g (memBytes u) (memBytes u) false (i.vas f m) = .ok ps)
    (hclear : ∀ e ∈ ps, ∀ p ∈ e.2, s.spadAtomHit i.g p.t p.off (memBytes u) = false) :
    laneLoadS s u f m o = .next (i.loaded s ((flatten ps).map (fun e =>
      { path := spadPath s.cur e.2.2.t
        ws := [.v (i.vd + e.2.1) e.1 (memExt u (s.loadSpad e.2.2.t e.2.2.off (memBytes u)).1)]
        pois := (s.loadSpad e.2.2.t e.2.2.off (memBytes u)).2 })) (fun g => g)) :=
  (withLane_atHead h _).trans (withSpad_passes hchk hclear _)

/-- A global load whose checks fail traps as its lowest failing lane says (R221). -/
theorem laneLoad_traps (h : i.atHead s o)
    (hchk : s.chkLanes s.cur i.g (memBytes u) (memBytes u) false (fun _ => true) (i.vas f m) = (s1, .error x)) :
    laneLoad s u f m o = raiseLane s1 i.g i.e x.num x.addr x.info
      ∧ ∃ pre l post s0 ps, i.vas f m = pre ++ (l, rowOf (i.ea f l) m) :: post
        ∧ i.Below l pre
        ∧ s.chkLanes s.cur i.g (memBytes u) (memBytes u) false (fun _ => true) pre = (s0, .ok ps)
        ∧ s0.chkLane s.cur i.g l (memBytes u) (memBytes u) false (fun _ => true) (rowOf (i.ea f l) m) = (s1, .error x)
        ∧ x.info.toNat % 256 = l := by
  obtain ⟨pre, ⟨l, vas⟩, post, s0, ps, hsplit, hpre, hfail⟩ := chkLanes_error hchk
  obtain ⟨rfl, hbelow⟩ := LaneIn.vas_before hsplit
  exact ⟨(withLane_atHead h _).trans (withGlobal_traps hchk _), pre, l, post, s0, ps, hsplit, hbelow, hpre, hfail,
    lane_of_info hbelow.1 (chkLane_error_info hfail)⟩

/-- A scratchpad load whose checks fail traps as its lowest failing lane says (R221). -/
theorem laneLoadS_traps (h : i.atHead s o)
    (hchk : s.chkSLanes i.g (memBytes u) (memBytes u) false (i.vas f m) = .error x) :
    laneLoadS s u f m o = raiseLane s i.g i.e x.num x.addr x.info
      ∧ ∃ pre l post ps, i.vas f m = pre ++ (l, rowOf (i.ea f l) m) :: post
        ∧ i.Below l pre
        ∧ s.chkSLanes i.g (memBytes u) (memBytes u) false pre = .ok ps
        ∧ s.chkSLane i.g l (memBytes u) (memBytes u) false (rowOf (i.ea f l) m) = .error x
        ∧ x.info.toNat = l := by
  obtain ⟨pre, ⟨l, vas⟩, post, ps, hsplit, hpre, hfail⟩ := chkSLanes_error hchk
  obtain ⟨rfl, hbelow⟩ := LaneIn.vas_before hsplit
  have hlt : l < 64 := hbelow.1
  exact ⟨(withLane_atHead h _).trans (withSpad_traps hchk _), pre, l, post, ps, hsplit, hbelow, hpre, hfail,
    (congrArg BitVec.toNat (chkSLane_error_info hfail)).trans (toNat_laneInfo_read hlt)⟩

end

/-- Settles O51: each row is a load of its element type and its width, past its checks or with the trap of the lowest lane. -/
theorem laneLoads : Obligations.LaneLoads := by
  unfold Obligations.LaneLoads
  intro s s1 i o f t h global spad below globalTrap spadTrap
  have passes (u : Ty) (m : Nat) : global u m (laneLoad s u f m o) := fun ps => laneLoad_loads h
  have passesS (u : Ty) (m : Nat) : spad u m (laneLoadS s u f m o) := fun ps => laneLoadS_loads h
  have traps (u : Ty) (m : Nat) : globalTrap u m (laneLoad s u f m o) := fun x => laneLoad_traps h
  have trapsS (u : Ty) (m : Nat) : spadTrap u m (laneLoadS s u f m o) := fun x => laneLoadS_traps h
  exact ⟨passes t 1, passesS t 1, traps t 1, trapsS t 1, fun c =>
    ⟨passes .b32 (2 ^ c.toNat), passesS .b32 (2 ^ c.toNat), traps .b32 (2 ^ c.toNat), trapsS .b32 (2 ^ c.toNat)⟩⟩

end Sys2Proof.Machine
end

section
/-! Lane stores (R210, R219 to R227): once every lane passes its checks, the low bytes of vd are stored in lane order, and what goes to
a page that waits for the host parks. -/

namespace Sys2Proof.Machine

open Sys2Proof

/-! ### What a lane stores -/

/-- The low bytes of a lane's register, as a number. -/
def LaneIn.low (i : LaneIn) (u : Ty) (r l : Nat) : Nat := (i.g.v (i.vd + r) l).toNat % 2 ^ (8 * memBytes u)

/-- The stores of the active lanes to places of global memory: each parks where its page waits, or holds a parked store (R210). -/
def LaneIn.laneStores (i : LaneIn) (s : State) (u : Ty) (ps : List (Nat × List Place)) : List LaneStore :=
  (flatten ps).map (fun e => { p := e.2.2, v := i.low u e.2.1 e.1
                               park := e.2.2.home.isNone || s.pageParked (coreOf s.cur) (s.ctxId i.g) e.2.2.va })

/-- The stores of the active lanes to places of scratchpad. -/
def LaneIn.spadStores (i : LaneIn) (u : Ty) (ps : List (Nat × List SPlace)) : List (SPlace × Nat) :=
  (flatten ps).map (fun e => (e.2.2, i.low u e.2.1 e.1))

/-! ### One rule per space -/

theorem orOverflow_held {i : LaneIn} {s t : State} {r : Option State} (h : r = some t) (f : State → Res) :
    i.orOverflow s r f = f t := by
  subst h
  rfl

section
variable {s s1 s2 : State} {i : LaneIn} {o : LaneOp} {f : AddrForm} {u : Ty} {m : Nat}

/-- A global store past its checks, with no atomic of the group in its way and room for what parks (R210, R222). -/
theorem laneStore_stores (h : i.atHead s o) {ps : List (Nat × List Place)}
    (hchk : s.chkLanes s.cur i.g (memBytes u) (memBytes u) true (fun _ => true) (i.vas f m) = (s1, .ok ps))
    (hclear : ∀ e ∈ ps, ∀ p ∈ e.2, s1.atomHit s1.cur p.va (memBytes u) = false)
    (hroom : (s1.core (coreOf s1.cur)).replay.length + (parkPages (i.laneStores s1 u ps)).length ≤ 32
      ∨ parkPages (i.laneStores s1 u ps) = [])
    (hall : (s1.countPaths s1.cur (((i.laneStores s1 u ps).map storePath).dedup)).1.storeAll s1.cur (memBytes u)
      (s1.countPaths s1.cur (((i.laneStores s1 u ps).map storePath).dedup)).2 i.pos (i.laneStores s1 u ps) = some s2) :
    laneStore s u f m o = .next (i.after (s2.parkAll s1.cur (memBytes u)
      (s1.countPaths s1.cur (((i.laneStores s1 u ps).map storePath).dedup)).2 i.pos (i.laneStores s1 u ps)
      (parkPages (i.laneStores s1 u ps))) (fun g => g)) := by
  have hatom : ¬ ps.any (fun e => e.2.any (fun p => s1.atomHit s1.cur p.va (memBytes u))) = true := by
    simpa only [List.any_eq_true, not_exists, not_and, Bool.not_eq_true] using hclear
  have hfull : ¬ (32 < (s1.core (coreOf s1.cur)).replay.length + (parkPages (i.laneStores s1 u ps)).length
      && !(parkPages (i.laneStores s1 u ps)).isEmpty) = true := by
    rcases hroom with hle | hnone
    · simp only [Nat.not_lt.mpr hle, decide_false, Bool.false_and, Bool.false_eq_true, not_false_eq_true]
    · simp only [hnone, List.isEmpty_nil, Bool.not_true, Bool.and_false, Bool.false_eq_true, not_false_eq_true]
  refine (withLane_atHead h _).trans ((withGlobal_passes hchk _).trans ((if_neg hatom).trans ((if_neg hfull).trans ?_)))
  dsimp only
  exact hall ▸ rfl

/-- A scratchpad store past its checks, with no scratchpad atomic of the group in its way and every capture held (R222, R378). -/
theorem laneStoreS_stores (h : i.atHead s o) {ps : List (Nat × List SPlace)}
    (hchk : s.chkSLanes i.g (memBytes u) (memBytes u) true (i.vas f m) = .ok ps)
    (hclear : ∀ e ∈ ps, ∀ p ∈ e.2, s.spadAtomHit i.g p.t p.off (memBytes u) = false)
    (hall : s.storeSpads i.g.seat (memBytes u) (i.spadStores u ps) = some s2) :
    laneStoreS s u f m o = .next (i.after (s2.countAll ((i.spadStores u ps).map (fun x => spadPath s2.cur x.1.t))) (fun g => g)) :=
  (withLane_atHead h _).trans ((withSpad_passes hchk hclear _).trans (orOverflow_held hall _))

end

/-- Settles O52: each row is a store of its element type and its width. -/
theorem laneStores : Obligations.LaneStores := by
  unfold Obligations.LaneStores
  intro s s1 s2 i o f t h low global spad
  have stores (u : Ty) (m : Nat) : global u m (laneStore s u f m o) := fun ps => laneStore_stores h
  have storesS (u : Ty) (m : Nat) : spad u m (laneStoreS s u f m o) := fun ps => laneStoreS_stores h
  exact ⟨stores t 1, storesS t 1, fun c => ⟨stores .b32 (2 ^ c.toNat), storesS .b32 (2 ^ c.toNat)⟩⟩

end Sys2Proof.Machine
end

section
/-! Version vectors and line operations (R238, R303, R304): `vvrd` and `vvfold`, and the ranges that `clean` and `inval` take. -/

namespace Sys2Proof.Machine

open Sys2Proof

section
variable {s : State} {g : Group}

/-! ### Version vectors (R303, R304) -/

theorem exec_vvrd (hg : s.grp = some g) (d a : XReg) :
    exec (.vvrd d a) s = ends s (g.setX d (vvrdVal s g ((g.x a).toNat % 16))) := alu_ends hg d _

/-- The value of each number (R303). -/
theorem vvrdVal_eq (s : State) (g : Group) (n : Nat) :
    (n < 8 → vvrdVal s g n = ((vecEntries g.vv)[n]?.map dotBits).getD 0) ∧ (n = 8 → vvrdVal s g n = dotBits { time := g.vv.floor })
      ∧ (n = 9 → vvrdVal s g n = dotBits (newDot s g)) ∧ (9 < n → vvrdVal s g n = 0) := by
  unfold vvrdVal
  refine ⟨fun h => ?_, fun h => ?_, fun h => ?_, fun h => ?_⟩
  · rw [if_pos h]
    cases (vecEntries g.vv)[n]? <;> rfl
  · rw [if_neg (by omega), if_pos h]
  · rw [if_neg (by omega), if_neg (by omega), if_pos h]
  · rw [if_neg (by omega), if_neg (by omega), if_neg (by omega)]

/-- A read that no parked store of the group holds back goes on with its words (R210). -/
theorem withRead_reads (hg : s.grp = some g) {va : DWord} {al n : Nat} {rows p : Bool} {s1 : State} {l : List DWord}
    (hread : s.readDw s.cur g va al rows n = .ok s1 l p) (hclear : s.parkedHit s.cur va (8 * n) = false)
    (f : State → Group → List DWord → Bool → Res) : withRead s va al n rows f = f s1 g l p := by
  rw [withRead, withG_some hg]
  simp only [hread, hclear, Bool.false_eq_true, if_false]

/-- The dots among some 64-bit words that `vvfold` merges: those with a serial, and not too old. -/
def State.youngDots (s : State) (l : List DWord) : List Dot :=
  (l.map bitsDot).filter (fun e => e.serial ≠ 0 && !(tooOld s.now e.time))

theorem exec_vvfold {a : XReg} {s1 : State} {l : List DWord} {p : Bool} {g2 : Group} (hg : s.grp = some g)
    (hread : s.readDw s.cur g (g.x a) 8 true 8 = .ok s1 l p) (hclear : s.parkedHit s.cur (g.x a) 64 = false)
    (hg2 : ((s1.consumeIf s1.cur p).countAcc s1.cur (s1.pathAt s1.cur g (g.x a))).2.grp = some g2) :
    exec (.vvfold a) s = ends ((s1.consumeIf s1.cur p).countAcc s1.cur (s1.pathAt s1.cur g (g.x a))).2
      { g2 with vv := mergeEntries g2.vv (s1.youngDots l) 0 } :=
  (withG_some hg _).trans ((withRead_reads hg hread hclear _).trans (doneWith_ends hg2 _))

/-! ### Ranges of lines (R238) -/

/-- The range of `n` bytes at `va` does not wrap, and each end of it is canonical (R206). -/
def rangeOk (va : DWord) (n : Nat) : Prop :=
  va.toNat + n - 1 < 2 ^ 64 ∧ (va.truncate 57).signExtend 64 = va
    ∧ ((BitVec.ofNat 64 (va.toNat + n - 1)).truncate 57).signExtend 64 = BitVec.ofNat 64 (va.toNat + n - 1)

/-- A number of 64 bits is the canonical address that its low 57 bits extend to. -/
theorem signExtend_ofNat_iff {m : Nat} (h : m < 2 ^ 64) : ((BitVec.ofNat 57 m).signExtend 64 : DWord).toNat = m
    ↔ ((BitVec.ofNat 64 m).truncate 57).signExtend 64 = BitVec.ofNat 64 m := by
  have hlow : (BitVec.ofNat 64 m).truncate 57 = BitVec.ofNat 57 m := by
    apply BitVec.eq_of_toNat_eq
    simp only [BitVec.truncate_eq_setWidth, BitVec.toNat_setWidth, BitVec.toNat_ofNat]
    omega
  rw [hlow, ← BitVec.toNat_inj, BitVec.toNat_ofNat, Nat.mod_eq_of_lt h]

/-- What stops `clean` and `inval` with a memory fault, as the model computes it. -/
theorem range_fails_iff (va : DWord) (n : Nat) :
    (2 ^ 64 ≤ va.toNat + n - 1 || (va.truncate 57).signExtend 64 ≠ va
      || ((BitVec.ofNat 57 (va.toNat + n - 1)).signExtend 64 : DWord).toNat ≠ va.toNat + n - 1) = true ↔ ¬ rangeOk va n := by
  simp only [Bool.or_eq_true, decide_eq_true_eq, rangeOk]
  by_cases hwrap : 2 ^ 64 ≤ va.toNat + n - 1
  · simp only [hwrap, true_or, Nat.not_lt.mpr hwrap, false_and, not_false_eq_true]
  · have hlt := Nat.not_le.mp hwrap
    rw [ne_eq, ne_eq, signExtend_ofNat_iff hlt]
    simp only [hwrap, hlt, false_or, true_and, not_and_or]

section
variable {a b : XReg} {g2 : Group}

theorem lineOp_empty (hg : s.grp = some g) (drop : Bool) (hn : (g.x b).toNat = 0) : lineOp s a b drop = ends s g :=
  (withG_some hg _).trans (if_pos hn)

theorem lineOp_faults (hg : s.grp = some g) (drop : Bool) (hn : (g.x b).toNat ≠ 0) (h : ¬ rangeOk (g.x a) (g.x b).toNat) :
    lineOp s a b drop = raise s 0x10 (g.x a) 0 :=
  (withG_some hg _).trans ((if_neg hn).trans (if_pos ((range_fails_iff _ _).mpr h)))

/-- The lines of the range's pages that translate are written back, and leave the L1 for `inval`. -/
theorem lineOp_runs (hg : s.grp = some g) (drop : Bool) (hn : (g.x b).toNat ≠ 0) (h : rangeOk (g.x a) (g.x b).toNat) :
    lineOp s a b drop =
      let lo := (g.x a).toNat
      let n := (g.x b).toNat
      let t := s.cleanLines (coreOf s.cur)
        (s.rangeLines (coreOf s.cur) (s.ctxId g) lo (lo + n) ((lo + n - 1) / 4096 + 1 - lo / 4096) (lo / 4096)) drop
      doneWith (if drop then t else (t.countAcc t.cur .gl).2) (fun g => g) :=
  (withG_some hg _).trans ((if_neg hn).trans (if_neg (fun hf => (range_fails_iff _ _).mp hf h)))

end

end

/-- Settles O30: `vvrd` by its number, `vvfold` by what it reads, and the line operations by their range. -/
theorem vectorsLines : Obligations.VectorsLines := by
  unfold Obligations.VectorsLines
  refine ⟨fun s g d a hg => ?vectors, fun s g g2 a b hg => ?lines⟩
  case vectors =>
    obtain ⟨hentry, hfloor, hdot, hrest⟩ := vvrdVal_eq s g ((g.x a).toNat % 16)
    have read {v : DWord} (hv : vvrdVal s g ((g.x a).toNat % 16) = v) : exec (.vvrd d a) s = ends s (g.setX d v) :=
      hv ▸ exec_vvrd hg d a
    exact ⟨fun h => read (hentry h), fun h => read (hfloor h), fun h => read (hdot h), fun h => read (hrest h),
      fun s1 l p g2 hread hclear hg2 => exec_vvfold hg hread hclear hg2⟩
  case lines =>
    exact ⟨fun hn => ⟨lineOp_empty hg false hn, lineOp_empty hg true hn⟩,
      fun hn hok => ⟨fun hg2 => (lineOp_runs hg false hn hok).trans (doneWith_ends hg2 _),
        fun hg2 => (lineOp_runs hg true hn hok).trans (doneWith_ends hg2 _)⟩,
      fun hn hok => ⟨lineOp_faults hg false hn hok, lineOp_faults hg true hn hok⟩⟩

end Sys2Proof.Machine
end

section
/-! Operand queues and counters (R218, R234 to R236): a queue is armed, started and stopped, and a group waits for a path. -/

namespace Sys2Proof.Machine

open Sys2Proof

section
variable {s : State} {g : Group} {q : QReg}

/-- A record that keeps the rules arms its queue, whose work before is given up (R234, R236). -/
theorem exec_spset {a b : XReg} {s1 t : State} {l : List DWord} {p : Bool} {r : PatRec} {g2 : Group} (hg : s.grp = some g)
    (hread : s.readDw s.cur g (g.x a) 8 true 8 = .ok s1 l p) (hclear : s.parkedHit s.cur (g.x a) 64 = false)
    (hrec : parsePattern l (g.x b) = some r) (ht : ((s1.stopQueue s1.cur q .armed).countAcc s1.cur .pat).2 = t)
    (hg2 : (t.consumeIf t.cur p).grp = some g2) :
    exec (.spset q a b) s = ends (t.consumeIf t.cur p) (g2.setQueue q { g2.queue q with st := .armed, pat := r }) := by
  subst ht
  refine (withG_some hg _).trans ?_
  simp only [hread, hclear, hrec, Bool.false_eq_true, if_false]
  exact doneWith_ends hg2 _

/-- A queue starts once its range may be registered, the group's stores are past it, and its pipe has slots for it (R235). -/
theorem exec_spgo {l : RangeLock} {g1 : Group} {s2 : State} (hg : s.grp = some g) (hst : (g.queue q).st ≠ .idle)
    (hlock : s.patLock s.cur g q (g.queue q).pat = .ok l) (hclear : s.engineClear s.cur g = true)
    (hg1 : find (s.stopQueue s.cur q (g.queue q).st).groups s.cur = some g1)
    (hroom : (s.stopQueue s.cur q (g.queue q).st).slotsUsed s.cur g1 + (if g.gw = 64 then 16 else 8) ≤ 256)
    (hfree : (s.stopQueue s.cur q (g.queue q).st).tryLock (coreOf s.cur) [l] = some s2) :
    exec (.spgo q) s = ends s2
      (g1.setQueue q { g1.queue q with st := .running, slots := if g.gw = 64 then 16 else 8 }) := by
  refine (withG_some hg _).trans ((if_neg hst).trans ?_)
  simp only [hlock, hclear, hg1, hfree, Nat.not_lt.mpr hroom, Bool.not_true, Bool.false_eq_true, if_false]
  rfl

/-- An idle queue has nothing to start (R235). -/
theorem exec_spgo_idle (hg : s.grp = some g) (hst : (g.queue q).st = .idle) :
    exec (.spgo q) s = raise s 0x18 0 (q.zeroExtend 64) :=
  (withG_some hg _).trans (if_pos hst)

theorem exec_spstop {g1 : Group} (hg : s.grp = some g) (hg1 : (s.stopQueue s.cur q .idle).grp = some g1) :
    exec (.spstop q) s = ends (s.stopQueue s.cur q .idle) g1 :=
  (withG_some hg _).trans (doneWith_ends hg1 _)

theorem exec_wait_ends {p : Path} {a : XReg} (hg : s.grp = some g) (h : s.waitCount g p ≤ (g.x a).toNat) :
    exec (.wait p a) s = ends s g :=
  (withG_some hg _).trans (if_pos h)

theorem exec_cntrd (hg : s.grp = some g) (p : Path) (d : XReg) :
    exec (.cntrd p d) s = ends s (g.setX d (BitVec.ofNat 64 (s.counter s.cur g p))) := alu_ends hg d _

end

/-- Settles O31, one instruction at a time. -/
theorem patternInstructions : Obligations.PatternInstructions := by
  unfold Obligations.PatternInstructions
  intro s g q a b p hg
  exact ⟨fun s1 l z r g2 hread hclear hrec => exec_spset hg hread hclear hrec rfl,
    fun l g1 s2 hst hlock hclear hg1 hroom hfree => exec_spgo hg hst hlock hclear hg1 hroom hfree,
    exec_spgo_idle hg, fun g1 hg1 => exec_spstop hg hg1, exec_wait_ends hg, exec_cntrd hg p a⟩

end Sys2Proof.Machine
end

section
/-! Steps of the memory system and accesses from outside the device (R217, R243, R265, R278, R280, R288, R294, R440, R454, R469,
R470). -/

namespace Sys2Proof.Machine

open Sys2Proof

/-! ### Loads and atomics in flight (R217, R265) -/

theorem dropAt_eq_eraseIdx {α : Type} (n : Nat) (l : List α) : dropAt n l = l.eraseIdx n := by
  induction l generalizing n with
  | nil => cases n <;> rfl
  | cons a r ih =>
    cases n with
    | zero => rfl
    | succ n => rw [dropAt, ih, List.eraseIdx_cons_succ]

section
variable {s : State} {k n : Nat} {g : Group} {x : Inflight} (hg : find s.groups k = some g) (hx : g.infl[n]? = some x)
include hg hx

theorem exec_loadDataReturn (ha : x.atoms = []) :
    let h := x.writes.foldl (fun (g : Group) w => g.apply w) { g with infl := g.infl.eraseIdx n }
    exec (.loadDataReturn k n) s = .next (({ s with groups := put s.groups k h } : State).consumeIf k x.pois) := by
  show execLoadDataReturn k n s = _
  simp only [execLoadDataReturn, hg, hx, ha, List.isEmpty_nil, Bool.not_true, Bool.false_eq_true, if_false, dropAt_eq_eraseIdx]

/-- The atomics of an access are performed together. -/
theorem exec_atomicAtPlace {r : AtomReq} {w : Option Nat} {l : List (AtomReq × Option Nat)}
    (hp : pairAtoms x.atoms x.words = (r, w) :: l) (hc : isClus r = false) :
    let t := s.performAtoms k ((r, w) :: l)
    exec (.atomicAtPlace k n) s = .next { t with groups := upd t.groups k (fun g => { g with infl := g.infl.eraseIdx n }) } := by
  show execAtomicAtPlace k n s = _
  rw [execAtomicAtPlace, hg]
  simp only [hx]
  rw [hp]
  simp only [hc, Bool.false_eq_true, if_false, dropAt_eq_eraseIdx]

/-- The first atomic of an access at clus scope goes on by one step (R265). -/
theorem exec_atomicAtPlace_clus {r : AtomReq} {w : Nat} {l : List (AtomReq × Option Nat)}
    (hp : pairAtoms x.atoms x.words = (r, some w) :: l) (hc : isClus r = true) :
    exec (.atomicAtPlace k n) s = .next (s.clusStep k n g x r w) := by
  show execAtomicAtPlace k n s = _
  rw [execAtomicAtPlace, hg]
  simp only [hx]
  rw [hp]
  simp only [hc, if_true]

end

/-! ### Tests at the home slice, and write-backs (R243, R288) -/

section
variable {s : State} {n : Nat}

/-- A registration that stands before every other of its core for its words is tested (R288). -/
theorem exec_homeStoreTest {q : StoreReq} (hq : s.regQ[n]? = some q) (hfirst : ∀ r ∈ s.regQ.take n, sameWord q r = false) :
    let t : State := { s with regQ := s.regQ.eraseIdx n }
    (∀ u, t.tryStore q = .ok u → exec (.homeStoreTest n) s = .next u)
    ∧ ∀ m, t.tryStore q = .error m → t.replayFull q.core = false → exec (.homeStoreTest n) s = .next (t.parkFailed q m) := by
  have hany : (s.regQ.take n).any (sameWord q) = false := by
    simpa only [List.any_eq_false, Bool.not_eq_true] using hfirst
  refine ⟨fun u hu => ?_, fun m hm hroom => ?_⟩
  · show execHomeStoreTest n s = _
    simp only [execHomeStoreTest, hq, hany, Bool.false_eq_true, if_false, dropAt_eq_eraseIdx, hu]
  · show execHomeStoreTest n s = _
    simp only [execHomeStoreTest, hq, hany, Bool.false_eq_true, if_false, dropAt_eq_eraseIdx, hm, hroom]

theorem exec_homeStoreTest_retest {c i : Nat} {p : Parked} (hq : s.regQ[n]? = none)
    (hr : s.retries[n - s.regQ.length]? = some (c, i, p)) : exec (.homeStoreTest n) s = .next (s.retest c i p) := by
  show execHomeStoreTest n s = _
  simp only [execHomeStoreTest, hq, hr]

theorem exec_homeStoreTest_goOn {c i : Nat} {p : Parked} (hq : s.regQ[n]? = none) (hr : s.retries[n - s.regQ.length]? = none)
    (hf : s.freed[n - s.regQ.length - s.retries.length]? = some (c, i, p)) : exec (.homeStoreTest n) s = .next (s.goOn c i p) := by
  show execHomeStoreTest n s = _
  simp only [execHomeStoreTest, hq, hr, hf]

theorem writeBack_registered {c w : Nat} {x : L1Word} (hx : s.l1At c w = some x) (hreg : x.reg = true) (hhid : x.hid = none) :
    s.writeBack c w = ((s.fill w x).setL1 c w { x with mask := 0, reg := false, whole := false }).expectAck x.grp w x.mask := by
  simp only [State.writeBack, hx, hreg, hhid, Option.isNone_none, Bool.and_self, if_true]

end

/-! ### Writes from outside the device (R278, R454) -/

/-- A write from outside to a word of device memory that is in no side area is tested and stored at its home (R278). -/
theorem tryOutside_atHome {s : State} {w : Nat} (v : Word) (m : BitVec 4) (hmap : s.unmapped (4 * w) = false)
    (hdev : s.isCell (4 * w) = true ∨ (poolOf (4 * w)).isSome = true)
    (hside : s.sideKept (w / 32) = false ∨ 4 * w % 2 ^ 28 < 0xf000000) :
    s.tryOutside w v m = s.storeAtHome { core := noGroupKey, grp := noGroupKey, w := w, val := v, mask := m
                                         dot := { serial := 0, time := s.now }, vec := { floor := s.pageFloor w } } := by
  have hdev' : (s.isCell (4 * w) || (poolOf (4 * w)).isSome) = true := by simpa using hdev
  have hside' : (s.sideKept (w / 32) && decide (0xf000000 ≤ 4 * w % 2 ^ 28)) = false := by
    rcases hside with h | h
    · rw [h]; rfl
    · rw [decide_eq_false (by omega), Bool.and_false]
  rw [State.tryOutside, hmap, hdev', hside']
  rfl

theorem exec_copiedWriteArrival {s s1 : State} {n pa : Nat} {v : Word} {mt : Bool}
    (h : s.translate (64 * s.cpDie) (n / 2 ^ 57) ((BitVec.ofNat 57 n).signExtend 64) .write false = .ok s1 pa mt) :
    exec (.copiedWriteArrival n v) s = .next (if pa % 4 = 0 && isHost pa then (s1.writeBackAll (pa / 4) none).setWord (pa / 4) v
      else s1.outsideWrite (pa / 4) v 0xf) := by
  show execCopiedWriteArrival n v s = _
  rw [execCopiedWriteArrival, h]

/-! ### Ageing of dots (R280) -/

/-- A function of an entry's number and value, on a map's entries. -/
theorem find_map_entry {α : Type} (f : Nat → α → α) (m : Map α) (k : Nat) :
    find (m.map (fun e => (e.1, f e.1 e.2))) k = (find m k).map (f k) := by
  induction m with
  | nil => rfl
  | cons e r ih =>
    rw [List.map_cons, find, find]
    split
    · next h => subst h; rfl
    · exact ih

theorem find_ageRec (s : State) (k w : Nat) {m : Map CellRec} {r : CellRec} (h : find m w = some r) :
    find (m.map (fun e => if s.homeSlice (4 * e.1) = k then (e.1, s.ageRec e.2) else e)) w
      = some (if s.homeSlice (4 * w) = k then s.ageRec r else r) := by
  have hf : (fun (e : Nat × CellRec) => if s.homeSlice (4 * e.1) = k then (e.1, s.ageRec e.2) else e)
      = fun e => (e.1, if s.homeSlice (4 * e.1) = k then s.ageRec e.2 else e.2) := by
    funext e
    split <;> rfl
  rw [hf, find_map_entry (fun j r => if s.homeSlice (4 * j) = k then s.ageRec r else r), h]
  rfl

/-- Where no registered word of the slice holds a dot that is to be aged, none is sent home. -/
theorem sendOld_eq_self {s : State} {k : Nat} (h : ∀ c ∈ s.cores, ∀ e ∈ c.2.l1, e.2.reg = true → s.homeSlice (4 * e.1) = k →
    s.ageDot e.2.dot = e.2.dot ∧ ∀ v ∈ s.allVals e.1, s.ageDot v.dot = v.dot) : s.sendOld k = s := by
  have hnone (c : Nat × Core) (hc : c ∈ s.cores) : c.2.l1.filter (fun e => e.2.reg && decide (s.homeSlice (4 * e.1) = k)
      && (decide (s.ageDot e.2.dot ≠ e.2.dot) || (s.allVals e.1).any (fun v => decide (s.ageDot v.dot ≠ v.dot)))) = [] := by
    refine List.filter_eq_nil_iff.mpr (fun e he hold => ?_)
    simp only [Bool.and_eq_true, Bool.or_eq_true, decide_eq_true_eq, List.any_eq_true] at hold
    obtain ⟨⟨hreg, hhome⟩, hold⟩ := hold
    obtain ⟨hdot, hvals⟩ := h c hc e he hreg hhome
    rcases hold with hold | ⟨v, hv, hold⟩
    · exact hold hdot
    · exact hold (hvals v hv)
  have hid (l : Map Core) (hl : ∀ c ∈ l, c ∈ s.cores) : l.foldl (fun t c => (c.2.l1.filter (fun e => e.2.reg
      && decide (t.homeSlice (4 * e.1) = k) && (decide (s.ageDot e.2.dot ≠ e.2.dot)
      || (t.allVals e.1).any (fun v => decide (s.ageDot v.dot ≠ v.dot))))).foldl (fun t e =>
        if e.2.hid.isSome then t.fill e.1 e.2 else t.writeBack c.1 e.1) t) s = s := by
    induction l with
    | nil => rfl
    | cons c r ih =>
      rw [List.foldl_cons, hnone c (hl c List.mem_cons_self), List.foldl_nil]
      exact ih (fun c hc => hl c (List.mem_cons_of_mem _ hc))
  exact hid s.cores (fun _ hc => hc)

/-! ### Errors in registration records (R294) -/

section
variable {s : State} {w c : Nat} {x : L1Word}

theorem exec_registrationRepair_lost (h : (s.fillHidden w).dirtyHolders w = []) : exec (.registrationRepair w) s =
    .next ((if (s.fillHidden w).hiddenHeld w then s.fillHidden w else (s.fillHidden w).poisonHome w).resetLineDots (w / 32)) := by
  show execRegistrationRepair w s = _
  simp only [execRegistrationRepair, h]

theorem exec_registrationRepair_single (h : (s.fillHidden w).dirtyHolders w = [(c, x)])
    (hv : ((s.fillHidden w).cellRec w).vals = []) :
    exec (.registrationRepair w) s = .next (((s.fillHidden w).takeAnswer w c x).resetLineDots (w / 32)) := by
  show execRegistrationRepair w s = _
  simp only [execRegistrationRepair, h, hv, List.isEmpty_nil]

/-- One core's value for a cell of several joins them where there is room, and stays in its L1 to be tested where there is none. -/
theorem exec_registrationRepair_joins (h : (s.fillHidden w).dirtyHolders w = [(c, x)])
    (hv : ((s.fillHidden w).cellRec w).vals ≠ []) (hcell : (s.fillHidden w).isCell (4 * w) = true) :
    exec (.registrationRepair w) s = .next (match (s.fillHidden w).joinSet w [(c, x)] with
      | some t => (t.setL1 c w { x with reg := true }).resetLineDots (w / 32)
      | none => let v := (s.fillHidden w).setL1 c w { x with reg := false }
        ({ v with regQ := v.regQ ++ [repairReq w c x] } : State).resetLineDots (w / 32)) := by
  have hempty : ((s.fillHidden w).cellRec w).vals.isEmpty = false := by simpa using hv
  show execRegistrationRepair w s = _
  simp only [execRegistrationRepair, h, hempty]
  cases hj : (s.fillHidden w).joinSet w [(c, x)] with
  | none =>
    simp [State.joinable, hcell, hj, State.siblingsOf]
  | some t =>
    simp [State.joinable, hcell, hj, State.siblingsOf]

end

/-! ### Errors in memory (R469, R470) -/

theorem kindOf_near {pa : Nat} (h : pa < 0x400000000) : kindOf pa = .near := if_pos h

theorem exec_memoryUncorrectable_near {s : State} {w : Nat} (hnear : 4 * w < 0x400000000) (hmap : s.unmapped (4 * w) = false) :
    let t := (s.loseWord (w / 2 * 2)).loseWord (w / 2 * 2 + 1)
    exec (.memoryUncorrectable w) s = if t.canSpare (4 * w / 2 ^ 32) (bankOf (4 * w)) then
        .next ((t.post (t.sliceSrc (4 * w)) 34 (BitVec.ofNat 64 (4 * w)) 1).spareRow (4 * w / 2 ^ 32) (bankOf (4 * w)) (bankRow (4 * w)))
      else .next (t.post (t.sliceSrc (4 * w)) 34 (BitVec.ofNat 64 (rowAddr (4 * w / 2 ^ 32) (bankOf (4 * w)) (bankRow (4 * w)))) 2) := by
  show execMemoryUncorrectable w s = _
  simp only [execMemoryUncorrectable, hmap, kindOf_near hnear, Bool.false_eq_true, if_false]
  rfl

theorem exec_memoryUncorrectable_dram {s : State} {w d : Nat} (hdram : kindOf (4 * w) = .dram d) (hmap : s.unmapped (4 * w) = false) :
    let t := ((List.range 16).map (fun i => w / 16 * 16 + i)).foldl (fun s u => s.loseWord u) s
    let u : State := { t with repairs := t.repairs + 1 }
    let block : DWord := BitVec.ofNat 64 (64 * (4 * w / 64))
    exec (.memoryUncorrectable w) s = if t.repairs < 16384 then .next (u.post (u.sliceSrc (4 * w)) 34 block 1)
      else .next (t.post (t.sliceSrc (4 * w)) 34 block 2) := by
  show execMemoryUncorrectable w s = _
  simp only [execMemoryUncorrectable, hmap, hdram, Bool.false_eq_true, if_false]
  generalize List.foldl _ s _ = t
  rfl

theorem exec_memoryUncorrectable_far {s : State} {w r : Nat} (hfar : kindOf (4 * w) = .host ∨ kindOf (4 * w) = .pool r)
    (hmap : s.unmapped (4 * w) = false) : exec (.memoryUncorrectable w) s = .next (s.loseWord w) := by
  show execMemoryUncorrectable w s = _
  rcases hfar with h | h <;> simp only [execMemoryUncorrectable, hmap, h, Bool.false_eq_true, if_false]

theorem exec_rowSpare {s : State} {d b r : Nat} (hd : d < 4) (hb : b < 1024) (hr : r < 512) (hn : 8 ≤ s.correctedIn d b r) :
    exec (.rowSpare d b r) s = if s.canSpare d b then .next (s.spareRow d b r)
      else .next (s.post (s.sliceSrc (rowAddr d b r)) 34 (BitVec.ofNat 64 (rowAddr d b r)) 2) := by
  show execRowSpare d b r s = _
  have hin : (decide (4 ≤ d) || decide (1024 ≤ b) || decide (512 ≤ r) || decide (s.correctedIn d b r < 8)) = false := by
    simp only [Bool.or_eq_false_iff, decide_eq_false_iff_not]
    omega
  rw [execRowSpare, hin]
  simp only [Bool.false_eq_true, if_false]

theorem canSpare_iff (s : State) (d b : Nat) : s.canSpare d b = true ↔ s.sparesLeft d b ≠ 0 ∧ s.repairs < 16384 := by
  simp only [State.canSpare, Bool.and_eq_true, decide_eq_true_eq, Nat.pos_iff_ne_zero]

/-- Settles O54, one event at a time. -/
theorem memoryEvents : Obligations.MemoryEvents := by
  unfold Obligations.MemoryEvents
  intro s k n w
  refine ⟨fun g x hg hx => ⟨fun ha => exec_loadDataReturn hg hx ha, fun r w' l hp => ?_⟩,
    fun q hq hfirst => exec_homeStoreTest hq hfirst, fun c i p => exec_homeStoreTest_retest, fun c i p => exec_homeStoreTest_goOn,
    fun c x hx hreg hhid => congrArg Host.Outcome.next (writeBack_registered hx hreg hhid),
    congrArg (fun l => Host.Outcome.next ({ s with acks := l } : State)) (dropAt_eq_eraseIdx n s.acks),
    fun v m t hmap hdev hside hst => ?_, fun v s1 pa mt htr => ?_, ⟨sendOld_eq_self, ?_⟩,
    ⟨fun h => exec_registrationRepair_lost h, fun c x h => ⟨fun hv => exec_registrationRepair_single h hv, fun hv hcell => ?_⟩⟩,
    fun d0 hnear hmap hd0 => ?_, fun d hdram hmap => ?_, fun r => exec_memoryUncorrectable_far, fun d b r hd hb hr hn => ?_, rfl⟩
  · exact ⟨fun hc => exec_atomicAtPlace hg hx hp hc, fun hc u hu => exec_atomicAtPlace_clus hg hx (hu ▸ hp) hc⟩
  · show Host.Outcome.next (s.outsideWrite w v m) = _
    rw [State.outsideWrite, tryOutside_atHome v m hmap hdev hside, hst]
    rfl
  · have hexec := exec_copiedWriteArrival (v := v) htr
    refine ⟨fun hh => ?_, fun hh ha => ?_⟩
    · rw [hexec, hh, Bool.and_false]; rfl
    · rw [hexec, hh, ha]; rfl
  · have hk : 64 * (w / 64) + w % 64 = w := Nat.div_add_mod w 64
    refine ⟨_, rfl, ?_, fun y r hr => ?_⟩
    · exact congrArg (fun k => (s.sendOld k).mem) hk
    · simp only [hk]
      exact find_ageRec (s.sendOld w) w y hr
  · have hexec := exec_registrationRepair_joins h hv hcell
    refine ⟨fun t ht => ?_, fun ht => ?_⟩
    · rw [hexec, ht]
    · rw [hexec, ht]
  · subst hd0
    have hexec := exec_memoryUncorrectable_near hnear hmap
    exact ⟨fun h => hexec.trans (if_pos h), fun h => hexec.trans (if_neg (by rw [h]; exact Bool.false_ne_true))⟩
  · have hexec := exec_memoryUncorrectable_dram hdram hmap
    exact ⟨fun h => hexec.trans (if_pos h), fun h => hexec.trans (if_neg (Nat.not_lt.mpr h))⟩
  · have hexec := exec_rowSpare hd hb hr hn
    refine ⟨fun hs hp => ?_, fun h => ?_⟩
    · rw [hexec, if_pos ((canSpare_iff s d b).mpr ⟨hs, hp⟩)]; rfl
    · rw [hexec, if_neg (fun h' => by have := (canSpare_iff s d b).mp h'; omega)]

end Sys2Proof.Machine
end

section
/-! SUPPORT. What travels between the L1s and the homes leaves the memory map as it was and registers no range (R203, R257, R441). -/

namespace Sys2Proof.Machine

open Sys2Proof

/-! ### The memory map and the range locks -/

/-- A pool region but for the lines it lists as owned and its spill entries in use. -/
def Region.entry (g : Region) : Region := { g with owned := [], spill := [] }

/-- `t` has the live dies and the region-table entries of `s`, and no range lock that it lacked. -/
structure State.MapKept (s t : State) : Prop where
  live : t.live = s.live
  region : ∀ r, (t.region r).entry = (s.region r).entry
  locks : ∀ c, ∀ l ∈ (t.core c).locks, l ∈ (s.core c).locks

namespace State.MapKept

theorem refl (s : State) : MapKept s s := ⟨rfl, fun _ => rfl, fun _ _ h => h⟩

theorem trans {s t u : State} (h : MapKept s t) (h' : MapKept t u) : MapKept s u :=
  ⟨h'.live.trans h.live, fun r => (h'.region r).trans (h.region r), fun c l hl => h.locks c l (h'.locks c l hl)⟩

theorem foldl {β : Type} (f : State → β → State) (h : ∀ s x, MapKept s (f s x)) (l : List β) (s : State) :
    MapKept s (l.foldl f s) := by
  induction l generalizing s with
  | nil => exact refl s
  | cons x r ih => exact (h s x).trans (ih (f s x))

theorem updRegion (s : State) (r : Nat) (f : Region → Region) (hf : ∀ g, (f g).entry = g.entry) :
    MapKept s { s with regions := upd s.regions r f } := by
  refine ⟨rfl, fun j => ?_, fun _ _ h => h⟩
  unfold State.region sget
  rw [find_upd]
  split
  · next hj =>
    subst hj
    cases find s.regions j with
    | none => rfl
    | some g => exact hf g
  · rfl

theorem setCore (s : State) (c : Nat) (k : Core) (h : ∀ l ∈ k.locks, l ∈ (s.core c).locks) : MapKept s (s.setCore c k) := by
  refine ⟨rfl, fun _ => rfl, fun d l hl => ?_⟩
  rw [core_setCore] at hl
  split at hl
  · next hd => exact hd ▸ h l hl
  · exact hl

theorem unlock (s : State) (c : Nat) (o : RlOwner) : MapKept s (s.unlock c o) :=
  .setCore s c _ (fun _ hl => (List.mem_filter.mp hl).1)

section
variable {s t : State} (h : MapKept s t)
include h

theorem mode (r : Nat) : (t.region r).mode = (s.region r).mode := (congrArg Region.mode (h.region r) :)

theorem port (r : Nat) : (t.region r).port = (s.region r).port := (congrArg Region.port (h.region r) :)

theorem setSlice (k : Nat) (v : Slice) : MapKept s (t.setSlice k v) := ⟨h.live, h.region, h.locks⟩
theorem setRec (w : Nat) (r : CellRec) : MapKept s (t.setRec w r) := ⟨h.live, h.region, h.locks⟩
theorem setPois (w : Nat) (p : Bool) : MapKept s (t.setPois w p) := ⟨h.live, h.region, h.locks⟩
theorem setCells (m : Map CellRec) : MapKept s { t with cells := m } := ⟨h.live, h.region, h.locks⟩

theorem setWord (w : Nat) (v : Word) : MapKept s (t.setWord w v) := by
  rw [State.setWord, State.setBytes_frame]
  exact ⟨h.live, h.region, h.locks⟩

theorem setVal (w : Nat) (v : CellVal) : MapKept s (t.setVal w v) := (h.setWord w v.val).setPois w v.pois

theorem isCell (pa : Nat) : t.isCell pa = s.isCell pa := by
  unfold State.isCell
  split <;> simp only [h.mode]

theorem homeSlice (pa : Nat) : t.homeSlice pa = s.homeSlice pa := by
  unfold State.homeSlice homeDie hostDie
  rw [h.live]
  split <;> simp only [h.port]

end

end State.MapKept

open State (MapKept)

namespace State

theorem mapKept_setOwned (s : State) (l : Nat) (f : List Nat → List Nat) : MapKept s (s.setOwned l f) := by
  unfold setOwned
  split
  · exact .updRegion s _ _ (fun _ => rfl)
  · exact .refl s

theorem mapKept_reown (s : State) (l : Nat) : MapKept s (s.reown l) := by
  unfold reown
  split
  · have h : MapKept s ((s.setSummary l (s.sideDot l)).setOwned l (fun x => l :: x)) :=
      ((MapKept.refl s).setSlice _ _).trans (mapKept_setOwned _ _ _)
    dsimp only
    split
    · exact h.trans (.updRegion _ _ _ (fun _ => rfl))
    · exact h
  · exact .refl s

theorem mapKept_dropLine (s : State) (l : Nat) : MapKept s (s.dropLine l) :=
  (((MapKept.refl s).setSlice _ _).setSlice _ _).setCells _

theorem mapKept_touchLine (s : State) (l : Nat) (t : BitVec 40) : MapKept s (s.touchLine l t) := by
  have h := s.mapKept_reown l
  unfold touchLine
  dsimp only
  refine MapKept.setSlice ?_ _ _
  split
  · exact h
  · split
    · exact h
    · split
      · exact h
      · exact h.trans (mapKept_dropLine _ _)

theorem mapKept_settle (s : State) (w : Nat) (r : CellRec) : MapKept s (s.settle w r) := by
  have h := MapKept.refl s
  unfold settle
  dsimp only
  split
  · split
    · exact ((h.setVal w _).setRec w _).trans (mapKept_touchLine _ _ _)
    · exact h.setRec w _
  · split
    · exact (h.setVal w _).setRec w _
    · exact h.setRec w _

theorem mapKept_evictRecs (s : State) (k n : Nat) : MapKept s (s.evictRecs k n) := by
  induction n generalizing s with
  | zero => exact .refl s
  | succ n ih =>
    unfold evictRecs
    split
    · exact .refl s
    · split
      · exact .refl s
      · exact ((MapKept.refl s).setCells _).trans (ih _)

theorem mapKept_makeRoom {s t : State} {k : Nat} (h : s.makeRoom k = some t) : MapKept s t := by
  unfold makeRoom at h
  dsimp only at h
  split at h
  · cases h
    exact s.mapKept_evictRecs k 4096
  · cases h

theorem mapKept_withVals (s : State) (w : Nat) (r : CellRec) (vals : List CellVal) (b : Option Word) :
    MapKept s (s.withVals w r vals b).2 := by
  unfold withVals
  split
  · dsimp only
    split
    · exact (MapKept.refl s).setSlice _ _
    · exact .refl s
  · exact .refl s

theorem mapKept_applyVals {s t : State} {w : Nat} {nv : CellVal} {x : List CellVal × Option Word} {rv : Option VVec}
    (h : s.applyVals w nv x rv = some t) : MapKept s t := by
  unfold applyVals at h
  dsimp only at h
  split at h
  · cases h
  · split at h
    · cases h
    · next u hroom =>
      split at h
      · cases h
        have hvals := (s.mapKept_reown (w / 32)).trans (mapKept_withVals _ w ((s.reown (w / 32)).cellRec w) x.1 x.2)
        have hu : MapKept s u := (hvals.setRec w _).trans (mapKept_makeRoom hroom)
        exact hu.trans ((mapKept_settle _ _ _).trans (mapKept_touchLine _ _ _))
      · cases h

theorem mapKept_applyStore {s t : State} {w : Nat} {cv : Option Nat} {nv : CellVal} {V : VVec} {rv : Option VVec}
    (h : s.applyStore w cv nv V rv = some t) : MapKept s t := mapKept_applyVals h

theorem mapKept_fill (s : State) (w : Nat) (x : L1Word) : MapKept s (s.fill w x) := by
  have h (v : Word) (p : Bool) := ((MapKept.refl s).setWord w v).setPois w p
  unfold fill
  dsimp only
  split
  · exact .refl s
  · split
    · split
      · split
        · split
          · exact h _ _
          · exact ((h _ _).setRec w _).trans (mapKept_touchLine _ _ _)
        · exact .refl s
      · exact s.mapKept_settle _ _
    · exact h _ _

theorem mapKept_setL1 (s : State) (c w : Nat) (x : L1Word) : MapKept s (s.setL1 c w x) := .setCore s c _ (fun _ h => h)

theorem mapKept_delL1 (s : State) (c w : Nat) : MapKept s (s.delL1 c w) := .setCore s c _ (fun _ h => h)

theorem mapKept_expectAck (s : State) (g w : Nat) (m : BitVec 4) : MapKept s (s.expectAck g w m) := by
  unfold expectAck
  split
  · exact ⟨rfl, fun _ => rfl, fun _ _ h => h⟩
  · exact .refl s

theorem mapKept_writeBack (s : State) (c w : Nat) : MapKept s (s.writeBack c w) := by
  unfold writeBack
  split
  · exact .refl s
  · split
    · exact ((s.mapKept_fill w _).trans (mapKept_setL1 _ _ _ _)).trans (mapKept_expectAck _ _ _ _)
    · exact .refl s

theorem mapKept_writeBackAll (s : State) (w : Nat) (k : Option Nat) : MapKept s (s.writeBackAll w k) :=
  .foldl _ (fun t e => by
    split
    · exact .refl t
    · exact t.mapKept_writeBack _ _) _ s

theorem mapKept_fillHidden (s : State) (w : Nat) : MapKept s (s.fillHidden w) :=
  .foldl _ (fun t e => by
    split
    · exact t.mapKept_fill _ _
    · exact .refl t) _ s

theorem mapKept_homeStore {s t : State} {w : Nat} {cv : Option Nat} {q : StoreReq} {m : BitVec 4} {v : Word}
    (h : s.homeStore w cv q m v = some t) : MapKept s t := by
  have hback := s.mapKept_writeBackAll w (some q.core)
  unfold homeStore at h
  dsimp only at h
  split at h
  · exact hback.trans (mapKept_applyStore h)
  · cases h
    exact (hback.setWord w _).setPois w _

theorem mapKept_tryWords {s t : State} {cv : Option Nat} {q : StoreReq} (h : s.tryWords cv q = .ok t) : MapKept s t := by
  unfold tryWords at h
  split at h
  · cases h
  · next u hfirst =>
    split at h
    · cases h
      exact mapKept_homeStore hfirst
    · split at h
      · cases h
      · next hsecond =>
        cases h
        exact (mapKept_homeStore hfirst).trans (mapKept_homeStore hsecond)

theorem mapKept_triggerAs (s : State) (ws : List Nat) (d : Dot) (v : Nat → Word) : MapKept s (s.triggerAs ws d v) :=
  .foldl _ (fun t e => by
    dsimp only
    split
    · exact .refl t
    · split
      · exact (MapKept.refl t).setSlice _ _
      · exact ((MapKept.refl t).setSlice _ _).trans (.unlock _ _ _)) _ s

theorem mapKept_fires (s : State) (q : StoreReq) : MapKept s (s.fires q) := by
  unfold fires
  split
  · exact s.mapKept_triggerAs _ _ _
  · exact .refl s

theorem mapKept_register (s : State) (c w g : Nat) (m : BitVec 4) : MapKept s (s.register c w g m) := by
  unfold register
  split
  · split
    · exact s.mapKept_setL1 _ _ _
    · exact s.mapKept_expectAck _ _ _
  · exact s.mapKept_expectAck _ _ _

theorem mapKept_tryStore {s t : State} {q : StoreReq} (h : s.tryStore q = .ok t) : MapKept s t := by
  unfold tryStore at h
  cases hw : s.tryWords (s.reqConv q) q with
  | error e => rw [hw] at h; cases h
  | ok u =>
    rw [hw] at h
    cases h
    exact (mapKept_tryWords hw).trans ((MapKept.foldl _ (fun t w => t.mapKept_register _ _ _ _) _ u).trans (mapKept_fires _ _))

theorem mapKept_storeAtHome {s t : State} {q : StoreReq} (h : s.storeAtHome q = some t) : MapKept s t := by
  unfold storeAtHome at h
  split at h
  · next u hu =>
    cases h
    exact (s.mapKept_writeBackAll q.w none).trans ((mapKept_tryWords hu).trans
      ((u.mapKept_expectAck q.grp q.w q.mask).trans (mapKept_fires _ q)))
  · cases h

theorem mapKept_parkFailed (s : State) (q : StoreReq) (w : Nat) : MapKept s (s.parkFailed q w) := by
  refine ⟨rfl, fun _ => rfl, fun c l hl => ?_⟩
  rw [parkFailed, addPend] at hl
  change l ∈ ((s.setCore q.core _).core c).locks at hl
  rw [core_setCore] at hl
  split at hl
  · next hc => exact hc ▸ hl
  · exact hl

theorem mapKept_testStore (s : State) (q : StoreReq) : MapKept s (s.testStore q) := by
  unfold testStore
  split
  · next h => exact mapKept_tryStore h
  · split
    · exact ⟨rfl, fun _ => rfl, fun _ _ h => h⟩
    · exact s.mapKept_parkFailed q _

theorem mapKept_flushReqs (s : State) (c w : Nat) : MapKept s (s.flushReqs c w) := by
  have h := MapKept.foldl testStore mapKept_testStore (s.regQ.filter (reqHits c w))
    { s with regQ := s.regQ.filter (fun q => !(reqHits c w q)) }
  exact ⟨h.live, h.region, h.locks⟩

theorem mapKept_bringHome (s : State) (c w : Nat) : MapKept s (s.bringHome c w) := by
  have h : MapKept s (((s.flushReqs c w).writeBackAll w none).fillHidden w) :=
    ((s.mapKept_flushReqs c w).trans (mapKept_writeBackAll _ _ _)).trans (mapKept_fillHidden _ _)
  unfold bringHome
  dsimp only
  split
  · split
    · exact h
    · exact h.trans (mapKept_delL1 _ _ _)
  · exact h

end State

end Sys2Proof.Machine
end

section
/-! SUPPORT. What a store leaves at a home that no L1 holds a value back from: the store's word, where its vector dominates every value
that the cell keeps (R287, R288, R290), and with room in the sibling store its vector record (R285, R291). -/

namespace Sys2Proof.Machine

open Sys2Proof
open State (MapKept)

/-! ### A word that no L1 holds back from its home -/

/-- Every registered copy of a word is a hidden one (R243, R381). -/
def State.HomeClear (s : State) (w : Nat) : Prop := ∀ c x, s.l1At c w = some x → x.reg = true → x.hid.isSome = true

/-- A table holds the entry that a look-up finds. -/
theorem mem_of_find {α : Type} {m : List (Nat × α)} {k : Nat} {v : α} (h : find m k = some v) : (k, v) ∈ m := by
  induction m with
  | nil => cases h
  | cons e r ih =>
    rw [find] at h
    split at h
    · next hk =>
      cases h
      exact hk ▸ List.mem_cons_self
    · exact List.mem_cons_of_mem _ (ih h)

/-- A table holds no entry that a look-up does not find. -/
theorem find_ne_none_of_mem {α : Type} {m : List (Nat × α)} {e : Nat × α} (h : e ∈ m) : find m e.1 ≠ none := by
  induction m with
  | nil => cases h
  | cons f r ih =>
    rw [find]
    split
    · exact Option.some_ne_none _
    · next hk => exact ih ((List.mem_cons.mp h).resolve_left (fun he => hk (congrArg Prod.fst he.symm)))

namespace State

theorem l1At_delL1 (s : State) (c d w u : Nat) : (s.delL1 c w).l1At d u = if d = c ∧ u = w then none else s.l1At d u := by
  unfold l1At delL1
  rw [core_setCore]
  by_cases hd : d = c
  · subst hd
    simp only [if_true, find_del, true_and]
  · simp only [hd, if_false, false_and]

theorem l1At_fillHidden (s : State) (w c u : Nat) : (s.fillHidden w).l1At c u = s.l1At c u := by
  unfold fillHidden
  generalize s.registrants w = l
  induction l generalizing s with
  | nil => rfl
  | cons e r ih =>
    rw [List.foldl_cons, ih]
    split
    · exact s.l1At_fill w _ c u
    · rfl

/-- A core's write-back leaves it no registered copy but a hidden one, and every other core what it held. -/
theorem l1At_writeBack {s : State} {c w d : Nat} {x : L1Word} (hx : (s.writeBack c w).l1At d w = some x) (hreg : x.reg = true)
    (hhid : x.hid.isSome = false) : d ≠ c ∧ s.l1At d w = some x := by
  have hown : (x.reg && x.hid.isNone) = true := by
    rw [hreg, ← Option.not_isSome, hhid]
    rfl
  unfold writeBack at hx
  cases hc : s.l1At c w with
  | none =>
    rw [hc] at hx
    refine ⟨?_, hx⟩
    rintro rfl
    exact Option.some_ne_none _ (hx.symm.trans hc)
  | some y =>
    rw [hc] at hx
    dsimp only at hx
    split at hx
    · rw [l1At_expectAck, l1At_setL1, l1At_fill] at hx
      split at hx
      · cases hx
        cases hreg
      · next hne => exact ⟨fun h => hne ⟨h, rfl⟩, hx⟩
    · next hy =>
      refine ⟨?_, hx⟩
      rintro rfl
      cases hx.symm.trans hc
      exact hy hown

theorem mem_registrants {s : State} {c w : Nat} {x : L1Word} (hx : s.l1At c w = some x) (hreg : x.reg = true) :
    c ∈ (s.registrants w).map (·.1) := by
  unfold l1At core sget at hx
  cases hk : find s.cores c with
  | none => rw [hk] at hx; cases hx
  | some k =>
    rw [hk] at hx
    refine List.mem_map.mpr ⟨(c, x), List.mem_filterMap.mpr ⟨(c, k), mem_of_find hk, ?_⟩, rfl⟩
    have hx : find k.l1 w = some x := hx
    simp only [hx, hreg, if_true]

/-- Once every registrant has written a word back, none but hidden copies stay registered (R243). -/
theorem homeClear_writeBackAll (s : State) (w : Nat) : (s.writeBackAll w none).HomeClear w := by
  have hkeep (l : List (Nat × L1Word)) : ∀ t : State,
      (∀ c x, t.l1At c w = some x → x.reg = true → x.hid.isSome = false → c ∈ l.map (·.1)) →
      (l.foldl (fun t e => if some e.1 = none then t else t.writeBack e.1 w) t).HomeClear w := by
    induction l with
    | nil =>
      intro t ht c x hx hreg
      by_contra hhid
      cases ht c x hx hreg (by simpa using hhid)
    | cons e r ih =>
      intro t ht
      rw [List.foldl_cons, if_neg (Option.some_ne_none _)]
      refine ih _ (fun c x hx hreg hhid => ?_)
      obtain ⟨hne, hx⟩ := l1At_writeBack hx hreg hhid
      exact (List.mem_cons.mp (ht c x hx hreg hhid)).resolve_left hne
  exact hkeep (s.registrants w) s (fun c x hx hreg _ => mem_registrants hx hreg)

section
variable {s : State} {w : Nat} (h : s.HomeClear w)
include h

theorem writeBack_of_homeClear (c : Nat) : s.writeBack c w = s := by
  unfold writeBack
  split
  · rfl
  · next x hx =>
    refine if_neg (fun hreg => ?_)
    rw [Bool.and_eq_true] at hreg
    have := h c x hx hreg.1
    cases hx : x.hid <;> simp_all

theorem writeBackAll_of_homeClear (k : Option Nat) : s.writeBackAll w k = s := by
  unfold writeBackAll
  induction s.registrants w with
  | nil => rfl
  | cons e r ih =>
    rw [List.foldl_cons, writeBack_of_homeClear h, ite_self, ih]

end

/-- Once a word is brought home, its home has every value but hidden ones. -/
theorem homeClear_bringHome (s : State) (c w : Nat) : (s.bringHome c w).HomeClear w := by
  have h : (((s.flushReqs c w).writeBackAll w none).fillHidden w).HomeClear w := by
    intro d x hx
    rw [l1At_fillHidden] at hx
    exact homeClear_writeBackAll _ w d x hx
  unfold bringHome
  dsimp only
  split
  · split
    · exact h
    · intro d x hx
      rw [l1At_delL1] at hx
      split at hx
      · cases hx
      · exact h d x hx
  · exact h

/-! ### Memory and cells after the steps of a store -/

theorem word_of_mem {s t : State} (h : t.mem = s.mem) (w : Nat) : t.word w = s.word w := by
  simp only [word, byte, h]

theorem mem_setOwned (s : State) (l : Nat) (f : List Nat → List Nat) : (s.setOwned l f).mem = s.mem := by
  unfold setOwned
  split <;> rfl

theorem cells_setOwned (s : State) (l : Nat) (f : List Nat → List Nat) : (s.setOwned l f).cells = s.cells := by
  unfold setOwned
  split <;> rfl

theorem mem_reown (s : State) (l : Nat) : (s.reown l).mem = s.mem := by
  unfold reown
  split
  · dsimp only
    split
    · exact mem_setOwned _ l _
    · exact mem_setOwned _ l _
  · rfl

theorem cells_reown (s : State) (l : Nat) : (s.reown l).cells = s.cells := by
  unfold reown
  split
  · dsimp only
    split
    · exact cells_setOwned _ l _
    · exact cells_setOwned _ l _
  · rfl

theorem mem_touchLine (s : State) (l : Nat) (t : BitVec 40) : (s.touchLine l t).mem = s.mem := by
  refine Eq.trans ?_ (s.mem_reown l)
  unfold touchLine
  dsimp only [setSlice]
  split
  · rfl
  · split
    · rfl
    · split <;> rfl

theorem oldestLine_mem {l : List (Nat × BitVec 40)} {e : Nat × BitVec 40} (h : oldestLine l = some e) : e ∈ l := by
  induction l generalizing e with
  | nil => cases h
  | cons f r ih =>
    unfold oldestLine at h
    cases hr : oldestLine r with
    | none =>
      rw [hr] at h
      cases h
      exact List.mem_cons_self
    | some g =>
      have hg := List.mem_cons_of_mem f (ih hr)
      rw [hr] at h
      dsimp only at h
      split at h
      · split at h <;> cases h
        · exact List.mem_cons_self
        · exact hg
      · split at h <;> cases h
        · exact List.mem_cons_self
        · exact hg

/-- Taking a line out of the dot array leaves the cells of the other lines. -/
theorem find_sumCells (l : Nat) (d : Dot) (m : Map CellRec) {w : Nat} (hw : w / 32 ≠ l) : find (sumCells l d m) w = find m w := by
  have hfold (ws : List Nat) : (∀ u ∈ ws, w ≠ u) → ∀ m : Map CellRec, find (ws.foldl (fun m w =>
      match find m w with
      | none => m
      | some r => if bareRec r then del m w else put m w (r.summed d)) m) w = find m w := by
    induction ws with
    | nil => exact fun _ m => rfl
    | cons u r ih =>
      intro hne m
      rw [List.foldl_cons, ih (fun v hv => hne v (List.mem_cons_of_mem u hv))]
      have hu := hne u List.mem_cons_self
      split
      · rfl
      · split
        · rw [find_del, if_neg hu]
        · rw [find_put, if_neg hu]
  refine hfold (lineWords l) (fun u hu he => ?_) m
  obtain ⟨i, hi, rfl⟩ := List.mem_map.mp hu
  have := List.mem_range.mp hi
  omega

theorem cells_dropLine (s : State) (l : Nat) :
    (s.dropLine l).cells = sumCells l (sumDots ((lineWords l).flatMap s.wordDots)) s.cells := by
  rw [dropLine, summarise]

/-- Recording a write to a line leaves the records of that line's cells. -/
theorem find_cells_touchLine (s : State) (w : Nat) (t : BitVec 40) : find (s.touchLine (w / 32) t).cells w = find s.cells w := by
  refine Eq.trans ?_ (congrArg (fun m => find m w) (s.cells_reown (w / 32)))
  unfold touchLine
  dsimp only [setSlice]
  split
  · rfl
  · next hnone =>
    split
    · rfl
    · split
      · rfl
      · next old u hold =>
        have hne : w / 32 ≠ old := fun he => find_ne_none_of_mem (oldestLine_mem hold) (he ▸ hnone)
        rw [cells_dropLine, find_sumCells _ _ _ hne]

theorem mem_expectAck (s : State) (g w : Nat) (m : BitVec 4) : (s.expectAck g w m).mem = s.mem := by
  unfold expectAck
  split <;> rfl

theorem cells_expectAck (s : State) (g w : Nat) (m : BitVec 4) : (s.expectAck g w m).cells = s.cells := by
  unfold expectAck
  split <;> rfl

theorem triggerAs_frame (s : State) (ws : List Nat) (d : Dot) (v : Nat → Word) :
    (s.triggerAs ws d v).mem = s.mem ∧ (s.triggerAs ws d v).cells = s.cells := by
  refine List.foldlRecOn (motive := fun (t : State) => t.mem = s.mem ∧ t.cells = s.cells) _ _ ⟨rfl, rfl⟩ (fun t ht e _ => ?_)
  dsimp only
  split
  · exact ht
  · split <;> exact ht

theorem fires_frame (s : State) (q : StoreReq) : (s.fires q).mem = s.mem ∧ (s.fires q).cells = s.cells := by
  unfold fires
  split
  · exact s.triggerAs_frame _ _ _
  · exact ⟨rfl, rfl⟩

end State

/-! ### The values that a store leaves (R288, R503) -/

/-- A value that no block hides and no hidden write displaces (R503). -/
def CellVal.ordinary (v : CellVal) : Prop := v.hid = none ∧ v.disp = []

theorem isSet_single {v : CellVal} (h : v.ordinary) : isSet [v] = false := by
  obtain ⟨hhid, hdisp⟩ := h
  have hlen : ([v].filter (inView none)).length ≤ 1 := List.length_filter_le _ _
  simp only [isSet, viewsOf, hidConvs, List.filterMap_cons, hhid, Option.map_none, List.filterMap_nil, List.flatMap_cons, hdisp,
    List.map_nil, List.flatMap_nil, List.append_nil, List.map_cons, List.any_cons, List.any_nil, Bool.or_false, decide_eq_false_iff_not]
  omega

/-- One ordinary value takes entries of the sibling store for vector records alone (R291). -/
theorem recEntries_single {r : CellRec} {v : CellVal} (hv : r.vals = [v]) (h : v.ordinary) : recEntries r = 5 * r.vrec.length := by
  have hw : willSet [v] = false := by simp [willSet, h.1]
  rw [recEntries, hv, isSet_single h, hw]
  simp

theorem displace_all {h : Option HidTag} (hh : h = none) (l : List CellVal) : displace h l l = [] := by
  subst hh
  exact List.filter_eq_nil_iff.mpr (fun v hv => by simpa using hv)

theorem standing_nil (l : List VRec) : standing [] l = [] := List.filter_eq_nil_iff.mpr (fun _ _ => Bool.false_ne_true)

/-- An ordinary store whose vector dominates every value of a cell, none of them hidden or displaced, leaves its own value alone. -/
theorem cellAfter_dominated {all : List CellVal} {nv : CellVal} {V : VVec} (r : CellRec) (cv : Option Nat)
    (hall : ∀ v ∈ all, v.hid = none ∧ v.disp = [] ∧ dominates V v.dot = true) (hne : all ≠ []) (hnv : nv.ordinary) :
    ∃ p b, cellAfter r all (all.filter (inView cv)) nv V = ([{ nv with prior := p }], b) := by
  have hview : all.filter (inView cv) = all := List.filter_eq_self.mpr (fun v hv => by
    obtain ⟨hhid, hdisp, -⟩ := hall v hv
    simp [inView, hhid, hdisp])
  have hdom : all.filter (fun v => dominates V v.dot) = all := List.filter_eq_self.mpr (fun v hv => (hall v hv).2.2)
  rw [hview]
  unfold cellAfter
  split
  · next v1 =>
    have hset : isSet [{ nv with prior := some v1.val }] = false := isSet_single hnv
    rw [if_pos (hall v1 List.mem_cons_self).2.2, displace_all hnv.1]
    simp only [List.nil_append, hset, Bool.false_eq_true, if_false]
    exact ⟨_, _, rfl⟩
  · rw [hdom]
    simp only [if_true, collapsed, displace_all hnv.1, List.nil_append]
    exact ⟨_, _, rfl⟩

namespace State

theorem allVals_ne_nil (s : State) (w : Nat) : s.allVals w ≠ [] := by
  have hins (x : CellVal) (l : List CellVal) : insDot (·.dot) x l ≠ [] := by
    cases l with
    | nil => exact List.cons_ne_nil _ _
    | cons y r =>
      rw [insDot]
      split <;> exact List.cons_ne_nil _ _
  have hsort (l a : List CellVal) (h : l ≠ [] ∨ a ≠ []) : l.foldl (fun a x => insDot (·.dot) x a) a ≠ [] := by
    induction l generalizing a with
    | nil => exact h.resolve_left (fun h => h rfl)
    | cons x r ih => exact ih _ (.inr (hins x a))
  unfold allVals
  dsimp only
  split
  · exact List.cons_ne_nil _ _
  · next h => exact hsort _ [] (.inl (by simpa using h))

theorem cellRec_of_find {s : State} {w : Nat} {r : CellRec} (h : find s.cells w = some r) : s.cellRec w = r := by
  rw [cellRec, h]

/-- The home keeps a vector record of a word. -/
def Records (s : State) (w : Nat) (x : VRec) : Prop := ∃ r, find s.cells w = some r ∧ x ∈ r.vrec

theorem Records.mem {s : State} {w : Nat} {x : VRec} (h : s.Records w x) : x ∈ (s.cellRec w).vrec := by
  obtain ⟨r, hr, hx⟩ := h
  rwa [cellRec_of_find hr]

/-- A cell that comes to rest at one ordinary value: the value stands in memory, with the vector records of its write. -/
theorem settle_single (s : State) (w : Nat) {r : CellRec} {v : CellVal} (hr : r.vals = [v]) (hv : v.ordinary) :
    (s.settle w r).word w = v.val ∧ ∃ r', find (s.settle w r).cells w = some r' ∧ r'.vrec = standing [v] r.vrec := by
  have hrest : (v.hid.isNone && v.disp.isEmpty) = true := by rw [hv.1, hv.2]; rfl
  unfold settle
  simp only [hr, hrest, if_true]
  refine ⟨?_, ?_⟩
  · rw [word_of_mem (mem_touchLine _ _ _)]
    exact (s.word_setWord w w v.val).trans (if_pos rfl)
  · rw [find_cells_touchLine]
    exact ⟨_, (find_put _ _ _ _).trans (if_pos rfl), rfl⟩

/-! ### Room in the sibling store (R291, R292) -/

/-- Evicting vector records leaves a cell its values. -/
theorem vals_evictRecs (s : State) (k n : Nat) {w : Nat} {r : CellRec} (h : find s.cells w = some r) :
    ∃ r', find (s.evictRecs k n).cells w = some r' ∧ r'.vals = r.vals := by
  induction n generalizing s r with
  | zero => exact ⟨r, h, rfl⟩
  | succ n ih =>
    unfold evictRecs
    split
    · exact ⟨r, h, rfl⟩
    · split
      · exact ⟨r, h, rfl⟩
      · next u v _ =>
        by_cases hu : w = u
        · subst hu
          exact ih _ (r := { r with vrec := r.vrec.erase v }) ((find_upd _ _ _ _).trans (by rw [if_pos rfl, h]; rfl))
        · exact ih _ ((find_upd _ _ _ _).trans ((if_neg hu).trans h))

theorem evictRecs_of_room {s : State} {k : Nat} (h : s.entriesUsed k ≤ 16384) (n : Nat) : s.evictRecs k n = s := by
  cases n with
  | zero => rfl
  | succ n => exact if_pos h

theorem makeRoom_some {s t : State} {k : Nat} (h : s.makeRoom k = some t) : t = s.evictRecs k 4096 := by
  unfold makeRoom at h
  dsimp only at h
  split at h
  · exact (Option.some.inj h).symm
  · cases h

end State

/-- What the entries of a table that `p` accepts come to. -/
def countWhere {α : Type} (p : Nat × α → Bool) (f : Nat × α → Nat) (m : List (Nat × α)) : Nat := ((m.filter p).map f).sum

section
variable {α : Type} (p : Nat × α → Bool) (f : Nat × α → Nat)

theorem countWhere_cons (e : Nat × α) (m : List (Nat × α)) :
    countWhere p f (e :: m) = (if p e then f e else 0) + countWhere p f m := by
  unfold countWhere
  rw [List.filter_cons]
  split
  · rw [List.map_cons, List.sum_cons]
  · rw [Nat.zero_add]

theorem countWhere_del_le (m : List (Nat × α)) (k : Nat) : countWhere p f (del m k) ≤ countWhere p f m := by
  induction m with
  | nil => exact le_refl _
  | cons e r ih =>
    rw [del, countWhere_cons]
    split
    · omega
    · rw [countWhere_cons]
      exact Nat.add_le_add_left ih _

theorem countWhere_ins (m : List (Nat × α)) (k : Nat) (v : α) :
    countWhere p f (ins m k v) = (if p (k, v) then f (k, v) else 0) + countWhere p f m := by
  induction m with
  | nil => exact countWhere_cons p f (k, v) []
  | cons e r ih =>
    obtain ⟨j, u⟩ := e
    rw [ins]
    split
    · exact countWhere_cons p f (k, v) ((j, u) :: r)
    · rw [countWhere_cons, ih, countWhere_cons]
      omega

theorem countWhere_put_le (m : List (Nat × α)) (k : Nat) (v : α) :
    countWhere p f (put m k v) ≤ countWhere p f m + f (k, v) := by
  have hdel := countWhere_del_le p f m k
  rw [put, countWhere_ins]
  split <;> omega

theorem foldl_add_eq_countWhere (m : List (Nat × α)) :
    (m.filter p).foldl (fun n e => n + f e) 0 = countWhere p f m := by
  rw [countWhere, List.sum_eq_foldl, List.foldl_map]

end

namespace State

/-- A record adds no more entries to a slice's than its own. -/
theorem entriesUsed_setRec_le (s : State) (w k : Nat) (r : CellRec) : (s.setRec w r).entriesUsed k ≤ s.entriesUsed k + recEntries r := by
  have h := countWhere_put_le (fun e => decide (s.homeSlice (4 * e.1) = k) && !(s.spilled (e.1 / 32))) (fun e => recEntries e.2)
    s.cells w r
  rw [← foldl_add_eq_countWhere, ← foldl_add_eq_countWhere] at h
  exact h

/-! ### A store at its home -/

/-- A cell with one ordinary value, placed where vector records have made room for it: the value stands in memory, and where there was
room so do the vector records of its write. -/
theorem placed_single {s u : State} {w k : Nat} {r : CellRec} {v : CellVal} (hr : r.vals = [v]) (hv : v.ordinary)
    (hroom : (s.setRec w r).makeRoom k = some u) (d : BitVec 40) :
    let t := (u.settle w (u.cellRec w)).touchLine (w / 32) d
    t.word w = v.val ∧ (s.entriesUsed k + recEntries r ≤ 16384 →
      ∀ x ∈ r.vrec, x.dot = v.dot → x.hid = v.hid → t.Records w x) := by
  have hput : find (s.setRec w r).cells w = some r := (find_put _ _ _ _).trans (if_pos rfl)
  have hu := makeRoom_some hroom
  obtain ⟨r', hr', hvals⟩ := (s.setRec w r).vals_evictRecs k 4096 hput
  rw [← hu] at hr'
  obtain ⟨hword, r'', hr'', hvrec⟩ := u.settle_single w (hvals.trans hr) hv
  rw [cellRec_of_find hr']
  refine ⟨(word_of_mem (mem_touchLine _ _ _) w).trans hword, fun hfit x hx hdot hhid => ?_⟩
  have hsame : r' = r := by
    rw [hu, evictRecs_of_room (le_trans (s.entriesUsed_setRec_le w k r) hfit), hput] at hr'
    exact (Option.some.inj hr').symm
  refine ⟨r'', (find_cells_touchLine _ w d).trans hr'', ?_⟩
  rw [hvrec, hsame]
  exact List.mem_filter.mpr ⟨hx, by simp [hdot, hhid]⟩

/-- Where one ordinary value is all that a store leaves of a cell, it stands in memory; with room for it in the sibling store, the
vector record of a release stands with it. -/
theorem applyVals_single {s t : State} {w : Nat} {nv : CellVal} {p b : Option Word} {rv : Option VVec} (hnv : nv.ordinary)
    (h : s.applyVals w nv ([{ nv with prior := p }], b) rv = some t) :
    t.word w = nv.val ∧ ∀ V, rv = some V → (s.reown (w / 32)).entriesUsed (s.homeSlice (4 * w)) + 5 ≤ 16384 →
      t.Records w { vec := V, dot := nv.dot, hid := nv.hid } := by
  have hord : CellVal.ordinary { nv with prior := p } := hnv
  have hslice := (s.mapKept_reown (w / 32)).homeSlice (4 * w)
  unfold applyVals at h
  dsimp only at h
  split at h
  · cases h
  · rw [withVals, if_neg (by rw [isSet_single hord]; exact Bool.false_ne_true)] at h
    dsimp only at h
    split at h
    · cases h
    · next u hroom =>
      split at h
      · cases h
        obtain ⟨hword, hvrec⟩ := placed_single rfl hord hroom nv.dot.time
        refine ⟨hword, fun V hV hfit => hvrec ?_ _ ?_ rfl rfl⟩
        · rw [recEntries_single rfl hord, hslice]
          subst hV
          simp only [List.dropLast_singleton, standing_nil]
          exact hfit
        · subst hV
          exact List.mem_cons_self
      · cases h

/-- A store of whole words whose home has every other value of the word, and whose vector dominates those of a cell. -/
theorem tryWords_dominated {s t : State} {cv : Option Nat} {q : StoreReq} (hclear : s.HomeClear q.w) (hmask : q.mask = 0xf)
    (hpair : q.pair = none) (hhid : q.hid = none) (h : s.tryWords cv q = .ok t)
    (hall : s.isCell (4 * q.w) = true → ∀ v ∈ s.allVals q.w, v.hid = none ∧ v.disp = [] ∧ dominates q.vec v.dot = true) :
    t.word q.w = q.val ∧ (s.isCell (4 * q.w) = true → q.rel = true →
      (s.reown (q.w / 32)).entriesUsed (s.homeSlice (4 * q.w)) + 5 ≤ 16384 →
      t.Records q.w { vec := q.vec, dot := q.dot, hid := none }) := by
  have hstore : s.homeStore q.w cv q 0xf q.val = some t := by
    rw [tryWords, hmask, hpair] at h
    split at h
    · cases h
    · next u hu =>
      cases h
      exact hu
  rw [homeStore, writeBackAll_of_homeClear hclear] at hstore
  dsimp only at hstore
  split at hstore
  · next hcell =>
    obtain ⟨p, b, hafter⟩ := cellAfter_dominated (nv := {
        val := q.val, dot := q.dot, hid := q.hid, pois := q.pois, pair := q.words.find? (fun u => u ≠ q.w) })
      (s.cellRec q.w) cv (hall hcell) (s.allVals_ne_nil q.w) ⟨hhid, rfl⟩
    rw [mixStore, if_pos rfl, applyStore] at hstore
    dsimp only at hstore
    rw [hafter] at hstore
    obtain ⟨hword, hvrec⟩ := applyVals_single ⟨hhid, rfl⟩ hstore
    refine ⟨hword, fun _ hrel hfit => ?_⟩
    have := hvrec q.vec (if_pos hrel) hfit
    rwa [hhid] at this
  · next hcell =>
    cases hstore
    refine ⟨?_, fun hc => (hcell hc).elim⟩
    rw [mixBytes_all]
    exact (s.word_setWord q.w q.w q.val).trans (if_pos rfl)

/-- What a store leaves at its home, where its vector dominates every value that its cell keeps (R287, R288). -/
theorem storeAtHome_dominated {s t : State} {q : StoreReq} (hmask : q.mask = 0xf) (hpair : q.pair = none) (hhid : q.hid = none)
    (h : s.storeAtHome q = some t) :
    let r := s.writeBackAll q.w none
    (r.isCell (4 * q.w) = true → ∀ v ∈ r.allVals q.w, v.hid = none ∧ v.disp = [] ∧ dominates q.vec v.dot = true) →
    t.word q.w = q.val ∧ (r.isCell (4 * q.w) = true → q.rel = true →
      (r.reown (q.w / 32)).entriesUsed (r.homeSlice (4 * q.w)) + 5 ≤ 16384 →
      t.Records q.w { vec := q.vec, dot := q.dot, hid := none }) := by
  intro r hall
  unfold storeAtHome at h
  split at h
  · next u hu =>
    cases h
    have hframe := (u.expectAck q.grp q.w q.mask).fires_frame q
    have hmem := hframe.1.trans (u.mem_expectAck q.grp q.w q.mask)
    have hcells := hframe.2.trans (u.cells_expectAck q.grp q.w q.mask)
    obtain ⟨hword, hvrec⟩ := tryWords_dominated (s.homeClear_writeBackAll q.w) hmask hpair hhid hu hall
    refine ⟨(word_of_mem hmem q.w).trans hword, fun hcell hrel hfit => ?_⟩
    obtain ⟨c, hc, hx⟩ := hvrec hcell hrel hfit
    exact ⟨c, hcells ▸ hc, hx⟩
  · cases h

end State

end Sys2Proof.Machine
end

section
/-! Prefetches, `vfence`, lane atomics, lane cell loads and `spawn` (R228, R272, R274, R299, R359), and the atomics that the lanes
perform (R265, R267, R268). -/

namespace Sys2Proof.Machine

open Sys2Proof
open State (MapKept GroupsKept ConvKept)

/-! ### The instructions (R228, R272, R274, R299, R359) -/

section
variable {s s1 : State} {i : LaneIn} {o : LaneOp} {f : AddrForm} (h : i.atHead s o)
include h

/-- A prefetch drops lanes, and never waits for or traps on what they name (R228). -/
theorem exec_vpf (l2 : Bool) :
    exec (.vpf l2 f o) s = .next (i.after (if l2 then s else s.prefetch s.cur i.g (i.lanes.map (i.ea f))) (fun g => g)) := by
  obtain ⟨hg, ho, he, hpop⟩ := h
  show execVpf l2 f o s = _
  rw [execVpf, withG_some hg]
  cases hq : i.g.laneQ with
  | nil => rw [hq] at he; cases he
  | cons e r =>
    rw [hq, List.head?_cons, Option.some.injEq] at he
    simp only [hpop]
    subst he
    subst ho
    rfl

theorem exec_vfence {sc : Scope} (hack : (s.pushOut s.cur (scopeNum sc)).lostAck (s.pushOut s.cur (scopeNum sc)).cur (scopeNum sc) = none)
    (hperf : (s.pushOut s.cur (scopeNum sc)).lanePerformed (s.pushOut s.cur (scopeNum sc)).cur i.g (scopeNum sc) = true) :
    let r := s.pushOut s.cur (scopeNum sc)
    exec (.vfence sc o) s = .next (i.after ((r.publishVec r.cur (scopeNum sc)).acquire r.cur (scopeNum sc)) (fun g => g)) := by
  show execVfence sc o s = _
  rw [execVfence, withLane_atHead h]
  simp only [hack, hperf, if_true]
  rfl

section
variable {op : AtomOp} {sc : Scope} {t : Ty}

/-- Atomics on scratchpad past their checks: performed at once in lane order, or left in flight (R274). -/
theorem exec_vamo_spad (hsc : scopeNum sc < 2) {ps : List (Nat × List SPlace)}
    (hchk : s.chkSLanes i.g 4 4 true (i.vas f 1) = .ok ps) (hclear : ∀ e ∈ ps, ∀ p ∈ e.2, s.spadAtomHit i.g p.t p.off 4 = false) :
    let xs := (flatten ps).map (fun e => (e.1, e.2.2))
    (∀ s1 parts, i.g.late = false → i.atomsS op t xs s = some (s1, parts) →
      exec (.vamo op sc t f o) s = .next (i.loaded s1 parts (fun g => g)))
    ∧ (i.g.late = true → exec (.vamo op sc t f o) s = .next (i.loaded s (xs.map (fun e =>
        { path := spadPath s.cur e.2.t, ws := [], atoms := [i.req op sc t e.1 e.2.va] })) (fun g => g))) := by
  refine ⟨fun s1 parts hlate hdone => ?_, fun hlate => ?_⟩
  · show execVamo op sc t f o s = _
    rw [execVamo, withLane_atHead h, if_pos hsc, withSpad_passes hchk hclear]
    simp only [hlate, hdone, Bool.false_eq_true, if_false]
    rfl
  · show execVamo op sc t f o s = _
    rw [execVamo, withLane_atHead h, if_pos hsc, withSpad_passes hchk hclear]
    simp only [hlate, if_true]
    rfl

/-- Global atomics past their checks: performed at once in lane order, or left in flight; at clus scope always (R265, R274). -/
theorem exec_vamo_global (hsc : 2 ≤ scopeNum sc) {ps : List (Nat × List Place)}
    (hchk : s.chkLanes s.cur i.g 4 4 true (scopePermits sc op) (i.vas f 1) = (s1, .ok ps))
    (hready : ∀ e ∈ ps, ∀ p ∈ e.2, p.home.isSome = true ∧ s1.parkedHit s1.cur p.va 4 = false) :
    let xs := (flatten ps).map (fun e => (e.1, e.2.2.va, (e.2.2.home.getD (0, false)).1))
    (∀ s2 parts, i.g.late = false → sc ≠ .clus → i.atomsG op t xs s1 = some (s2, parts) →
      exec (.vamo op sc t f o) s = .next (i.loaded s2 parts (fun g => g)))
    ∧ (i.g.late = true ∨ sc = .clus → exec (.vamo op sc t f o) s = .next (i.loaded s1 (xs.map (fun e =>
        { path := pathOfPa e.2.2, ws := [], words := [e.2.2 / 4], atoms := [i.req op sc t e.1 e.2.1] })) (fun g => g))) := by
  refine ⟨fun s2 parts hlate hclus hdone => ?_, fun hlate => ?_⟩
  · show execVamo op sc t f o s = _
    rw [execVamo, withLane_atHead h, if_neg (Nat.not_lt.mpr hsc), withGlobal_passes hchk, ready_runs i s1 4 ps _ hready]
    simp only [hlate, decide_eq_false hclus, hdone, Bool.or_self, Bool.false_eq_true, if_false]
    rfl
  · have hon : (i.g.late || decide (sc = .clus)) = true := by simpa using hlate
    show execVamo op sc t f o s = _
    rw [execVamo, withLane_atHead h, if_neg (Nat.not_lt.mpr hsc), withGlobal_passes hchk, ready_runs i s1 4 ps _ hready]
    simp only [hon, if_true]
    rfl

end

/-- Cell loads past their checks, with their counts or with a mask for the decision queue (R299). -/
theorem exec_vldc {ps : List (Nat × List Place)}
    (hchk : s.chkLanes s.cur i.g 4 4 false (fun _ => true) (i.vas f 1) = (s1, .ok ps))
    (hready : ∀ e ∈ ps, ∀ p ∈ e.2, p.home.isSome = true ∧ s1.parkedHit s1.cur p.va 4 = false) :
    let x := s1.readCells s1.cur ((flatten ps).map (fun e => (e.1, (e.2.2.home.getD (0, false)).1)))
    exec (.vldc f o) s = .next (i.loaded x.1 (x.2.map (fun (l, v, c, q, pa) =>
      { path := pathOfPa pa, ws := [.v i.vd l v, .v (i.vd + 1) l (BitVec.ofNat 32 c)], pois := q, words := [pa / 4] })) (fun g => g))
    ∧ (i.g.decQ.length < 64 → exec (.vldcDq f o) s = .next (i.loaded x.1 (x.2.map (fun (l, v, _, q, pa) =>
      { path := pathOfPa pa, ws := [.v i.vd l v], pois := q, words := [pa / 4] }))
      (fun g => { g with decQ := g.decQ ++ [maskOf ((x.2.filter (fun e => e.2.2.1 ≠ 0)).map (·.1))] }))) := by
  have hpush : i.g.decQ.length < 64 → i.canPush = true := by simp [LaneIn.canPush]
  refine ⟨?_, fun hroom => ?_⟩
  · show execVldc f o s = _
    rw [execVldc, cellLoad, withLane_atHead h, withGlobal_passes hchk, ready_runs i s1 4 ps _ hready]
    rfl
  · show execVldcDq f o s = _
    rw [execVldcDq, cellLoad, withLane_atHead h, withGlobal_passes hchk, ready_runs i s1 4 ps _ hready]
    simp only [hpush hroom, if_true]
    rfl

/-- A `spawn` of a canonical entry once the lane stream is performed inserts the lanes' tasks; a misaligned entry traps (R359). -/
theorem exec_spawn :
    let e := i.e.bca
    (e.toNat % 4 ≠ 0 → exec (.spawn o) s = raiseLane s i.g i.e 0x04 e 0)
    ∧ (e.toNat % 4 = 0 → (e.truncate 57).signExtend 64 = e → s.lanePerformed s.cur i.g 1 = true →
      i.spawnLanes e (i.lanes.filter (fun l => decide (i.e.prog ≤ l))) s = (s1, none) →
      exec (.spawn o) s = .next (i.after s1 (fun g => g))) := by
  refine ⟨fun hal => ?_, fun hal hcanon hperf hdone => ?_⟩
  · show execSpawn o s = _
    rw [execSpawn, withLane_atHead h]
    exact if_pos hal
  · show execSpawn o s = _
    rw [execSpawn, withLane_atHead h]
    simp only [hal, hcanon, hperf, hdone, ne_eq, not_true_eq_false, Bool.not_true, Bool.false_eq_true, if_false]
    rfl

end

/-! ### Atomics in lane order (R274) -/

theorem atomsS_cons (i : LaneIn) (op : AtomOp) (t : Ty) (l : Nat) (p : SPlace) (r : List (Nat × SPlace)) (s : State) :
    i.atomsS op t ((l, p) :: r) s = (s.atomSpad i.g.seat p.t p.off op t (i.c t l) (i.old l)).bind (fun x =>
      (i.atomsS op t r x.1).map (fun e => (e.1, { path := spadPath s.cur p.t, ws := [.v i.vd l x.2, .v (i.vd + 1) l 0] } :: e.2))) := by
  rw [LaneIn.atomsS]
  cases s.atomSpad i.g.seat p.t p.off op t (i.c t l) (i.old l) <;> rfl

theorem atomsG_cons (i : LaneIn) (op : AtomOp) (t : Ty) (l pa : Nat) (va : DWord) (r : List (Nat × DWord × Nat)) (s : State) :
    i.atomsG op t ((l, va, pa) :: r) s =
      (s.atomGlobal s.cur va (pa / 4) op t (i.c t l) (i.old l)).bind (fun x => (i.atomsG op t r x.1).map (fun e =>
        (e.1, { path := pathOfPa pa, ws := [.v i.vd l x.2.1, .v (i.vd + 1) l (BitVec.ofNat 32 x.2.2)], words := [pa / 4] } :: e.2))) := by
  rw [LaneIn.atomsG]
  cases s.atomGlobal s.cur va (pa / 4) op t (i.c t l) (i.old l) <;> rfl

/-! ### An atomic on scratchpad (R267) -/

/-- A scratchpad store of a team that is there leaves its number. -/
theorem loadSpad_of_storeSpad {s s1 : State} {u t o n v : Nat} (hteam : (find s.teams t).isSome = true) (hv : v < 2 ^ (8 * n))
    (h : s.storeSpad u t o n v = some s1) : (s1.loadSpad t o n).1 = v := by
  unfold State.storeSpad at h
  split at h
  · cases h
  · next s2 hcap =>
    have hpres := (State.levelsKept_captureSpadAt _ hcap).present t
    split at h
    · next hnone => rw [hnone, hteam] at hpres; cases hpres
    · cases h
      rw [State.loadSpad, State.setTeam_teams, find_put, if_pos rfl]
      dsimp only
      rw [spadN_setSpad, show 256 = 2 ^ 8 from rfl, ← pow_mul]
      exact Nat.mod_eq_of_lt hv

theorem toNat_spadWord (tm : Team) (o : Nat) : (tm.spadWord o).toNat = tm.spadN o 4 := by
  have hword (a b c d : Byte) : (wordOf a b c d).toNat = a.toNat + 256 * (b.toNat + 256 * (c.toNat + 256 * d.toNat)) := by
    rw [wordOf, BitVec.toNat_append, ← Nat.shiftLeft_add_eq_or_of_lt a.isLt, BitVec.toNat_append,
      ← Nat.shiftLeft_add_eq_or_of_lt b.isLt, BitVec.toNat_append, ← Nat.shiftLeft_add_eq_or_of_lt c.isLt]
    simp only [Nat.shiftLeft_eq]
    omega
  simp only [Team.spadWord, hword, Team.spadN, ofBytes, List.range, List.range.loop, List.map_cons, List.map_nil, Nat.add_zero,
    Nat.mul_zero]

theorem atomSpad_leaves {s s1 : State} {u t o : Nat} {op : AtomOp} {ty : Ty} {b cmp old : Word} (hteam : (find s.teams t).isSome = true)
    (h : s.atomSpad u t o op ty b cmp = some (s1, old)) :
    old.toNat = (s.loadSpad t o 4).1 ∧ (s1.loadSpad t o 4).1 = (atomNew op ty old b cmp).toNat := by
  obtain ⟨tm, htm⟩ := Option.isSome_iff_exists.mp hteam
  have hread : (s.loadSpad t o 4).1 = (tm.spadWord o).toNat := by
    rw [toNat_spadWord, State.loadSpad, htm]
  unfold State.atomSpad at h
  rw [htm] at h
  dsimp only at h
  split at h
  · next hsame =>
    cases h
    exact ⟨hread.symm, by rw [hread, hsame]⟩
  · split at h
    · cases h
    · next hst =>
      cases h
      exact ⟨hread.symm, loadSpad_of_storeSpad hteam (BitVec.isLt _) hst⟩

/-! ### An atomic on memory (R265, R267, R268) -/

/-- A write's vector that is made to reach the dot of the value read dominates it (R265). -/
theorem dominates_domVec (v : VVec) (d : Dot) : dominates (domVec v d) d = true := by
  have hadd (m : VVec) : dominates { m with slots := d :: m.slots } d = true := by
    by_cases hd : d.serial = 0
    · simp [dominates, hd]
    · have hle : timeLe d.time d.time = true := by simp [timeLe]
      simp [dominates, vecEntries, hle]
  unfold domVec
  dsimp only
  generalize (if d.serial = 0 then _ else _ : VVec) = m
  split
  · assumption
  · exact hadd m

namespace State

theorem teams_fillHidden (s : State) (w : Nat) : (s.fillHidden w).teams = s.teams :=
  teams_foldl _ (fun t e => by
    split
    · exact (t.homeOnly_fill _ _).teams
    · rfl) _ s

theorem groupsKept_fillHidden (s : State) (w : Nat) : GroupsKept s (s.fillHidden w) :=
  .foldl _ (fun t e => by
    split
    · exact t.groupsKept_fill _ _
    · exact .refl t) _ s

/-- Bringing a word home leaves every group in its conversation. -/
theorem convKept_bringHome (s : State) (c w : Nat) : ConvKept s (s.bringHome c w) := by
  have h : ConvKept s (((s.flushReqs c w).writeBackAll w none).fillHidden w) :=
    .of_teams ((teams_fillHidden _ _).trans ((allKept_writeBackAll _ _ _).teams.trans (s.teamsKept_flushReqs c w).teams))
      (((s.groupsKept_flushReqs c w).trans (groupsKept_writeBackAll _ _ _)).trans (groupsKept_fillHidden _ _))
  unfold bringHome
  dsimp only
  split
  · split
    · exact h
    · exact h
  · exact h

/-! ### Captures leave memory and its homes (R378) -/

/-- `t` is `s` but for its teams. -/
def TeamsOnly (s t : State) : Prop := ∃ m, t = { s with teams := m }

theorem teamsOnly_captureAt {s t : State} {k lv : Nat} {c : Cap} (h : s.captureAt k lv c = some t) : TeamsOnly s t := by
  unfold captureAt at h
  split at h
  · cases h
    exact ⟨_, rfl⟩
  · dsimp only at h
    split at h
    · cases h
      exact ⟨_, rfl⟩
    · split at h
      · cases h
        exact ⟨_, rfl⟩
      · split at h
        · cases h
          exact ⟨_, rfl⟩
        · cases h

theorem teamsOnly_captureLineAt {s t : State} {k lv w : Nat} {hid : Bool} (h : s.captureLineAt k lv w hid = some t) :
    TeamsOnly s t := by
  unfold captureLineAt at h
  split at h
  · cases h
    exact ⟨_, rfl⟩
  · split at h
    · cases h
      exact ⟨_, rfl⟩
    · dsimp only at h
      split at h
      · cases h
      · split at h
        · cases h
          exact ⟨_, rfl⟩
        · exact teamsOnly_captureAt h

theorem teamsOnly_noteWroteAt (s : State) (k lv w : Nat) : TeamsOnly s (s.noteWroteAt k lv w) := by
  unfold noteWroteAt
  split
  · exact ⟨_, rfl⟩
  · split
    · exact ⟨_, rfl⟩
    · split
      · exact ⟨_, rfl⟩
      · exact ⟨_, rfl⟩

theorem teamsOnly_noteWrote (s : State) (k w : Nat) : TeamsOnly s (s.noteWrote k w) := s.teamsOnly_noteWroteAt _ _ _

theorem allVals_single {s : State} {w : Nat} (h : (s.cellRec w).vals = []) : s.allVals w = [singleVal s w (s.cellRec w)] := by
  simp only [allVals, h, List.isEmpty_nil, if_true]

theorem view_single {s : State} {w : Nat} (h : (s.cellRec w).vals = []) (cv : Option Nat) :
    s.view w cv = [singleVal s w (s.cellRec w)] := by
  rw [view, allVals_single h]
  rfl

/-- An ordinary store of a whole word that dominates the single value that its home has, and that no L1 holds back. -/
theorem word_storeAtHome_single {s t : State} {w : Nat} {q : StoreReq} (hq : q.w = w) (hclear : s.HomeClear w)
    (hvals : (s.cellRec w).vals = []) (hmask : q.mask = 0xf) (hpair : q.pair = none) (hhid : q.hid = none)
    (hdom : dominates q.vec (singleVal s w (s.cellRec w)).dot = true) (h : s.storeAtHome q = some t) : t.word w = q.val := by
  subst hq
  refine (storeAtHome_dominated hmask hpair hhid h ?_).1
  rw [writeBackAll_of_homeClear hclear, allVals_single hvals]
  exact fun _ v hv => List.mem_singleton.mp hv ▸ ⟨rfl, rfl, hdom⟩

/-- The write of an atomic to a single value of a word that was brought home, outside every block, stands in memory. -/
theorem word_atomWrite {r s1 : State} {k w cnt : Nat} {g : Group} {va : DWord} {new : Word} (hclear : r.HomeClear w)
    (hvals : (r.cellRec w).vals = []) (hhid : r.hidTag g.seat w = none)
    (h : r.atomWrite k g va w new (singleVal r w (r.cellRec w)).dot = some (s1, cnt)) (hcnt : cnt = 0) : s1.word w = new := by
  unfold atomWrite at h
  rw [hhid] at h
  dsimp only at h
  split at h
  · cases h
  · next u hcap =>
    obtain ⟨m, rfl⟩ := teamsOnly_captureLineAt hcap
    obtain ⟨m', hm'⟩ := teamsOnly_noteWrote { r with teams := m } g.seat w
    rw [hm'] at h
    split at h
    · cases h
      cases hcnt
    · next t hst =>
      cases h
      exact word_storeAtHome_single (s := { r with teams := m' }) (Nat.mul_div_cancel_left w (by decide)) hclear hvals rfl rfl rfl
        (dominates_domVec _ _) hst

end State

/-- An atomic reads the word that was brought home; it leaves it where it finds a sibling set or the new word there, and else writes
the new word. -/
theorem atomGlobal_cases {s s1 : State} {g : Group} {k w cnt : Nat} {va : DWord} {op : AtomOp} {ty : Ty} {b cmp old : Word}
    (hg : find s.groups k = some g) (h : s.atomGlobal k va w op ty b cmp = some (s1, old, cnt)) :
    let r := s.bringHome (coreOf k) w
    let view := r.view w (r.groupConv k)
    let count := if r.isCell (4 * w) then viewCnt view else 0
    old = viewVal view ∧ (s1 = r ∧ (count = 0 → cnt = 0 ∧ atomNew op ty old b cmp = old) ∧ (count ≠ 0 → cnt = count)
      ∨ count = 0 ∧ r.atomWrite k g va w (atomNew op ty old b cmp) ((view.map (·.dot)).headD {}) = some (s1, cnt)) := by
  intro r view count
  have hread : s.atomRead k w = (r, viewVal view, (view.map (·.dot)).headD {}, count) := rfl
  clear_value count view r
  rw [State.atomGlobal, hg, hread] at h
  dsimp only at h
  split at h
  · next hcount =>
    cases h
    exact ⟨rfl, .inl ⟨rfl, fun h0 => (hcount h0).elim, fun _ => rfl⟩⟩
  · next hcount =>
    have h0 : count = 0 := not_not.mp hcount
    split at h
    · next hsame =>
      cases h
      exact ⟨rfl, .inl ⟨rfl, fun _ => ⟨rfl, hsame⟩, fun hne => (hne h0).elim⟩⟩
    · obtain ⟨⟨u, c⟩, hwrite, heq⟩ := Option.map_eq_some_iff.mp h
      cases heq
      exact ⟨rfl, .inr ⟨h0, hwrite⟩⟩

/-- An atomic on memory leaves a sibling set as it is, and of a single value the new word of the table. -/
theorem atomGlobal_leaves {s s1 : State} {g : Group} {k w cnt : Nat} {va : DWord} {op : AtomOp} {ty : Ty} {b cmp old : Word}
    (hg : find s.groups k = some g) (h : s.atomGlobal k va w op ty b cmp = some (s1, old, cnt)) :
    let r := s.bringHome (coreOf k) w
    old = viewVal (r.view w (s.groupConv k)) ∧ (1 < (r.view w (s.groupConv k)).length → s.isCell (4 * w) = true → s1 = r)
    ∧ ((r.cellRec w).vals = [] → r.hidTag g.seat w = none → cnt = 0 → old = r.word w ∧ s1.word w = atomNew op ty old b cmp) := by
  intro r
  have hcell : r.isCell (4 * w) = s.isCell (4 * w) := (s.mapKept_bringHome (coreOf k) w).isCell (4 * w)
  obtain ⟨hold, hleft⟩ := atomGlobal_cases hg h
  rw [← s.convKept_bringHome (coreOf k) w k]
  refine ⟨hold, fun hset hc => ?_, fun hvals hhid hcnt => ?_⟩
  · refine hleft.elim And.left (fun hwrite => ?_)
    have h0 := hwrite.1
    rw [if_pos (hcell.trans hc), viewCnt, if_neg (Nat.not_le.mpr hset)] at h0
    exact absurd h0 (Nat.ne_of_gt (Nat.zero_lt_of_lt hset))
  · have hview := State.view_single hvals (r.groupConv k)
    have hword : old = r.word w := hold.trans (by rw [hview]; rfl)
    refine ⟨hword, ?_⟩
    rcases hleft with ⟨rfl, hsame, -⟩ | ⟨-, hwrite⟩
    · rw [(hsame (by rw [hview]; exact ite_self 0)).2, hword]
    · rw [hview] at hwrite
      exact State.word_atomWrite (s.homeClear_bringHome (coreOf k) w) hvals hhid hwrite hcnt

/-! ### The table of atomics (R267) -/

/-- The least and the greatest of two numbers of which one precedes the other in the order of R134. -/
theorem pick_of_flKey_lt {x y : Word} (hx : isNan (floatOf x) = false) (hy : isNan (floatOf y) = false)
    (h : flKey (floatOf x) < flKey (floatOf y)) :
    pick true x y = x ∧ pick true y x = x ∧ pick false x y = y ∧ pick false y x = y := by
  have hle : ¬ flKey (floatOf y) ≤ flKey (floatOf x) := Int.not_le.mpr h
  refine ⟨?_, ?_, ?_, ?_⟩
  · exact (pick_numbers (least := true) hx hy).elim And.left (fun hp => (hle hp.2).elim)
  · exact (pick_numbers (least := true) hy hx).elim (fun hp => (hle hp.2).elim) And.left
  · exact (pick_numbers (least := false) hx hy).elim (fun hp => (hle hp.2).elim) And.left
  · exact (pick_numbers (least := false) hy hx).elim And.left (fun hp => (hle hp.2).elim)

theorem pick_self {x : Word} (hx : isNan (floatOf x) = false) (least : Bool) : pick least x x = x :=
  (pick_numbers hx hx).elim And.left And.left

/-- Of two equal numbers one of which is −0, the other is −0 or +0; −0 is the lesser (R134). -/
theorem pick_negZero {y : Word} (hy : isNan (floatOf y) = false) (h : flNum (floatOf y) = 0) :
    let z : Word := 0x80000000
    pick true z y = z ∧ pick true y z = z ∧ pick false z y = y ∧ pick false y z = y := by
  intro z
  have hz : isNan (floatOf z) = false := by decide
  have hzero := eq_zero_of_flNum (w := y) hy h
  split at hzero
  · subst hzero
    exact ⟨pick_self hz _, pick_self hz _, pick_self hz _, pick_self hz _⟩
  · subst hzero
    exact pick_of_flKey_lt hz hy (by decide)

/-- The least and greatest of two FP32 words (R134, R267). -/
theorem floatExtremes (old b cmp : Word) :
    let f (op : AtomOp) (u : Ty) : Word := atomNew op u old b cmp
    let x := fval fp32 old.toNat
    let y := fval fp32 b.toNat
    let nan : Word := 0x7fc00000
    (isNan x = true → isNan y = true → f .min .f32 = nan ∧ f .max .f32 = nan)
    ∧ (isNan x = true → isNan y = false → f .min .f32 = b ∧ f .max .f32 = b)
    ∧ (isNan x = false → isNan y = true → f .min .f32 = old ∧ f .max .f32 = old)
    ∧ (isNan x = false → isNan y = false →
      (flCmp x y < 0 → f .min .f32 = old ∧ f .max .f32 = b) ∧ (0 < flCmp x y → f .min .f32 = b ∧ f .max .f32 = old)
      ∧ (flCmp x y = 0 → old = 0x80000000 → f .min .f32 = old ∧ f .max .f32 = b)
      ∧ (flCmp x y = 0 → b = 0x80000000 → f .min .f32 = b ∧ f .max .f32 = old)) := by
  intro f x y nan
  have hmin : f .min .f32 = pick true old b := rfl
  have hmax : f .max .f32 = pick false old b := rfl
  rw [hmin, hmax]
  refine ⟨fun hx hy => ⟨pick_nan_nan hx hy, pick_nan_nan hx hy⟩, fun hx hy => ⟨pick_nan_left hx hy, pick_nan_left hx hy⟩,
    fun hx hy => ⟨pick_nan_right hx hy, pick_nan_right hx hy⟩, fun hx hy => ?_⟩
  obtain ⟨hle, hge, heq⟩ := flCmp_iff (flRanged_fval old.toNat) (flRanged_fval b.toNat) hx hy
  have hnum : flNum (floatOf 0x80000000) = 0 := by decide
  have hkey {u v : Fl} (h : flNum u < flNum v) : flKey u < flKey v := by
    unfold flKey
    split_ifs <;> omega
  refine ⟨fun h => ?_, fun h => ?_, fun h hz => ?_, fun h hz => ?_⟩
  · obtain ⟨hmin, -, hmax, -⟩ := pick_of_flKey_lt hx hy (hkey (Int.not_le.mp (fun hn => absurd (hge.mpr hn) (Int.not_le.mpr h))))
    exact ⟨hmin, hmax⟩
  · obtain ⟨-, hmin, -, hmax⟩ := pick_of_flKey_lt hy hx (hkey (Int.not_le.mp (fun hn => absurd (hle.mpr hn) (Int.not_le.mpr h))))
    exact ⟨hmin, hmax⟩
  · subst hz
    obtain ⟨hmin, -, hmax, -⟩ := pick_negZero hy ((heq.mp h).symm.trans hnum)
    exact ⟨hmin, hmax⟩
  · subst hz
    obtain ⟨-, hmin, -, hmax⟩ := pick_negZero hx ((heq.mp h).trans hnum)
    exact ⟨hmin, hmax⟩

/-- The least and greatest of two integers (R267). -/
theorem integerExtremes (old b cmp : Word) :
    let f (op : AtomOp) (u : Ty) : Word := atomNew op u old b cmp
    (f .min .i32).toInt = min old.toInt b.toInt ∧ (f .max .i32).toInt = max old.toInt b.toInt
    ∧ (f .minn .n32).toNat = min old.toNat b.toNat ∧ (f .maxn .n32).toNat = max old.toNat b.toNat := by
  intro f
  refine ⟨?_, ?_, ?_, ?_⟩
  · show (if b.slt old then b else old).toInt = _
    rw [BitVec.slt_eq_decide, apply_ite BitVec.toInt]
    split
    · next h => have := of_decide_eq_true h; omega
    · next h => have := of_decide_eq_false (Bool.eq_false_iff.mpr h); omega
  · show (if old.slt b then b else old).toInt = _
    rw [BitVec.slt_eq_decide, apply_ite BitVec.toInt]
    split
    · next h => have := of_decide_eq_true h; omega
    · next h => have := of_decide_eq_false (Bool.eq_false_iff.mpr h); omega
  · show (if b.ult old then b else old).toNat = _
    rw [BitVec.ult_eq_decide, apply_ite BitVec.toNat]
    split
    · next h => have := of_decide_eq_true h; omega
    · next h => have := of_decide_eq_false (Bool.eq_false_iff.mpr h); omega
  · show (if old.ult b then b else old).toNat = _
    rw [BitVec.ult_eq_decide, apply_ite BitVec.toNat]
    split
    · next h => have := of_decide_eq_true h; omega
    · next h => have := of_decide_eq_false (Bool.eq_false_iff.mpr h); omega

/-- Each part of a residue word is the sum of the parts for its modulus (R161, R190). -/
theorem rwaddW_eq (w b : Word) :
    let part (w : Word) (lo n : Nat) : Nat := w.toNat / 2 ^ lo % 2 ^ n
    rwaddW w b = BitVec.ofNat 32 ((part w 0 8 + part b 0 8) % 256 + (part w 8 8 + part b 8 8) % 255 * 2 ^ 8
      + (part w 16 9 + part b 16 9) % 257 * 2 ^ 16) := by
  intro part
  have hsum (x y m : Nat) : (((x : Int) + (y : Int)) % (m : Int)).toNat = (x + y) % m := by
    rw [← Int.natCast_add, ← Int.natCast_emod, Int.toNat_natCast]
  rw [rwaddW, rwacc, ← hsum, ← hsum, ← hsum]
  rfl

/-- Settles O53: each instruction past its checks, the lanes' atomics one after another, and the table of R267 operation by operation. -/
theorem laneOrdered : Obligations.LaneOrdered := by
  unfold Obligations.LaneOrdered
  refine ⟨fun s s1 i o f h => ⟨exec_vpf h, fun sc => exec_vfence h, fun op sc t hsc ps hchk hclear =>
      (exec_vamo_spad h hsc hchk hclear).imp_left (fun hnow => hnow s1),
      fun op sc t hsc ps => exec_vamo_global h hsc, fun ps => exec_vldc h, exec_spawn h⟩,
    fun s i op t l => ⟨fun p r => atomsS_cons i op t l p r s, fun va pa r => atomsG_cons i op t l pa va r s⟩,
    fun s s1 u t o op ty b cmp old => atomSpad_leaves,
    fun s s1 g k w cnt va op ty b cmp old => atomGlobal_leaves,
    fun t old b cmp => ?_⟩
  obtain ⟨hmin, hmax, hminn, hmaxn⟩ := integerExtremes old b cmp
  refine ⟨fun ht => ?_, rfl, rwaddW_eq old b, hmin, hmax, hminn, hmaxn, floatExtremes old b cmp, rfl, rfl, rfl, rfl, rfl⟩
  rcases ht with rfl | rfl <;> exact BitVec.add_def old b

end Sys2Proof.Machine
end

section
/-! Channels of the copy engine (R312 to R318): how a channel halts, runs, fetches, registers and completes a record. -/

namespace Sys2Proof.Machine

open Sys2Proof
open State (MapKept TeamsOnly)

namespace State

/-! ### A channel's own record -/

theorem chan_setChan (s : State) (c ch : Nat) (v : Chan) : (s.setChan c ch v).chan c ch = v := by
  rw [chan, setChan, core_setCore, if_pos rfl, sget_sset, if_pos rfl]

theorem locks_setChan (s : State) (c ch d : Nat) (v : Chan) : ((s.setChan c ch v).core d).locks = (s.core d).locks := by
  rw [setChan, core_setCore]
  split
  · next h => rw [h]
  · rfl

theorem chan_of_cores {s t : State} (h : t.cores = s.cores) (c ch : Nat) : t.chan c ch = s.chan c ch := by
  rw [chan, chan, core, core, h]

/-- What is left of a core's range locks once an owner's are released. -/
theorem mem_locks_unlock {s : State} {c : Nat} {o : RlOwner} {l : RangeLock} (h : l ∈ ((s.unlock c o).core c).locks) :
    l ∈ (s.core c).locks ∧ l.owner ≠ o := by
  rw [unlock, core_setCore, if_pos rfl] at h
  obtain ⟨hl, ho⟩ := List.mem_filter.mp h
  exact ⟨hl, of_decide_eq_true ho⟩

/-! ### A channel that halts (R318) -/

theorem cores_recordFail (s : State) (t : Nat) (f : FailRec) : (s.recordFail t f).cores = s.cores := by
  unfold recordFail
  split
  · rfl
  · split <;> rfl

theorem cores_failAlt (s : State) (t lv cause ftrap fgid : Nat) : (s.failAlt t lv cause ftrap fgid).cores = s.cores :=
  List.foldlRecOn (motive := fun (u : State) => u.cores = s.cores) _ _ (s.cores_recordFail t _)
    (fun u hu v _ => (u.cores_recordFail v _).trans hu)

theorem headq_failBatches (l : List Chain) (k : Chan) : (l.foldl (fun k x => failBatch k x.batch) k).headq = k.headq :=
  List.foldlRecOn (motive := fun (j : Chan) => j.headq = k.headq) _ _ rfl (fun j hj x _ => by
    unfold failBatch
    split <;> exact hj)

/-- A channel whose chains all end holds none, no record, and no range. -/
theorem endChains_all {s : State} {c ch : Nat} (h : (s.chan c ch).headq ≠ []) :
    let u := s.endChains c ch true (fun _ => true)
    (u.chan c ch).headq = [] ∧ (u.chan c ch).crec = none ∧ (u.chan c ch).nrec = none
      ∧ ∀ l ∈ (u.core c).locks, l.owner ≠ .chan ch ∧ l.owner ≠ .next ch := by
  obtain ⟨x, r, hq⟩ := List.exists_cons_of_ne_nil h
  have hfail : ((x :: r).foldl (fun k x => failBatch k x.batch) (s.chan c ch)).headq = x :: r := (headq_failBatches _ _).trans hq
  unfold endChains
  simp only [hq, List.filter_true, List.isEmpty_cons, Bool.false_eq_true, if_true, if_false, chan_setChan, Bool.not_true, hfail,
    List.filter_false, true_and]
  intro l hl
  rw [locks_setChan] at hl
  obtain ⟨hl, hnext⟩ := mem_locks_unlock hl
  exact ⟨(mem_locks_unlock hl).2, hnext⟩

theorem haltChan_leaves {s : State} {c ch : Nat} (code : Nat) (a d : DWord) (h : (s.chan c ch).headq ≠ []) :
    let u := s.haltChan c ch code a d
    (u.chan c ch).st = .halted ∧ (u.chan c ch).fcode = code ∧ (u.chan c ch).frec = a ∧ (u.chan c ch).fdata = d
      ∧ (u.chan c ch).headq = [] ∧ (u.chan c ch).crec = none ∧ (u.chan c ch).nrec = none
      ∧ ∀ l ∈ (u.core c).locks, l.owner ≠ .chan ch ∧ l.owner ≠ .next ch := by
  obtain ⟨x, r, hq⟩ := List.exists_cons_of_ne_nil h
  have hcores : (if x.level = 0 || code = 8 then s else s.failAlt (s.chan c ch).team (s.depth (s.chan c ch).team) 9 code x.gid).cores
      = s.cores := by
    split
    · rfl
    · exact s.cores_failAlt _ _ _ _ _
  unfold haltChan
  simp only [hq, chan_setChan, locks_setChan]
  generalize (if x.level = 0 || code = 8 then s else _ : State) = t at hcores ⊢
  obtain ⟨hheadq, hcrec, hnrec, hlocks⟩ := endChains_all (s := t) (c := c) (ch := ch) (by rw [chan_of_cores hcores]; exact h)
  exact ⟨trivial, trivial, trivial, trivial, hheadq, hcrec, hnrec, hlocks⟩

/-! ### A channel that runs (R312, R321) -/

theorem chanRuns_iff (s : State) (k : Chan) : s.chanRuns k = true ↔ k.st = .running ∧ k.headq ≠ [] ∧ k.squash = false
    ∧ ∀ tm d, find s.teams k.team = some tm → tm.drain = some d → s.tsc.toNat < d.toNat := by
  unfold chanRuns
  rw [Bool.and_eq_true, Bool.and_eq_true, Bool.and_eq_true, decide_eq_true_eq, Bool.not_eq_true', Bool.not_eq_true',
    List.isEmpty_eq_false_iff, and_assoc, and_assoc]
  refine and_congr_right (fun _ => and_congr_right (fun _ => and_congr_right (fun _ => ?_)))
  cases hb : (find s.teams k.team).bind (·.drain) with
  | none =>
    refine ⟨fun _ tm d htm hd => ?_, fun _ => rfl⟩
    rw [htm, Option.bind_some, hd] at hb
    cases hb
  | some e =>
    obtain ⟨tm, htm, hd⟩ := Option.bind_eq_some_iff.mp hb
    refine ⟨fun he tm' d htm' hd' => ?_, fun h => decide_eq_true (h tm e htm hd)⟩
    cases htm.symm.trans htm'
    cases hd.symm.trans hd'
    exact of_decide_eq_true he

end State

section
variable {s : State} {c ch : Nat}

/-- A channel that does not run, or that a `cpabort` stops, takes no step. -/
theorem exec_chan_idle (h : s.chanRuns (s.chan c ch) = false ∨ s.stopping c ch = true) :
    exec (.copyRecordFetch c ch) s = .next s ∧ exec (.copyOwnRecheck c ch) s = .next s
      ∧ exec (.copyRecordRegister c ch) s = .next s ∧ exec (.copyRecordComplete c ch) s = .next s := by
  have hidle : (s.chanRuns (s.chan c ch) && !(s.stopping c ch)) = false := by
    rcases h with h | h <;> simp [h]
  have hstop : (!(s.chanRuns (s.chan c ch)) || s.stopping c ch) = true := by
    rcases h with h | h <;> simp [h]
  refine ⟨?_, ?_, ?_, ?_⟩
  · show execCopyRecordFetch c ch s = _
    simp only [execCopyRecordFetch, hstop, Bool.true_or, if_true]
  · show execCopyOwnRecheck c ch s = _
    simp only [execCopyOwnRecheck, hidle, Bool.false_and, Bool.false_eq_true, if_false]
  · show execCopyRecordRegister c ch s = _
    simp only [execCopyRecordRegister, hstop, if_true]
  · show execCopyRecordComplete c ch s = _
    unfold execCopyRecordComplete
    dsimp only
    split
    · rfl
    · simp only [hidle, Bool.false_and, Bool.false_eq_true, if_false]

section
variable (hrun : s.chanRuns (s.chan c ch) = true) (hstop : s.stopping c ch = false)
include hrun hstop

theorem exec_copyRecordFetch (h : (s.chan c ch).wown = false) (hrec : (s.chan c ch).crec = none) :
    exec (.copyRecordFetch c ch) s = .next (s.fetchRec c ch) := by
  show execCopyRecordFetch c ch s = _
  simp only [execCopyRecordFetch, hrun, hstop, h, hrec, Bool.not_true, Bool.or_self, Bool.false_eq_true, if_false]

theorem exec_copyOwnRecheck (h : (s.chan c ch).wown = true) (hrec : (s.chan c ch).crec = none) :
    exec (.copyOwnRecheck c ch) s = .next (s.fetchRec c ch) := by
  show execCopyOwnRecheck c ch s = _
  simp only [execCopyOwnRecheck, hrun, hstop, h, hrec, Option.isNone_none, Bool.not_false, Bool.and_self, if_true]

theorem exec_copyRecordRegister {r : CopyRec} (hrec : (s.chan c ch).crec = some r) (hreg : r.reg = false) :
    exec (.copyRecordRegister c ch) s = .next (s.registerRec c ch r) := by
  show execCopyRecordRegister c ch s = _
  simp only [execCopyRecordRegister, hrun, hstop, hrec, Bool.not_true, Bool.or_self, Bool.false_eq_true, if_false]
  cases (s.chan c ch).nrec <;> simp only [hreg, Bool.not_false, Bool.false_eq_true, if_true, if_false]

theorem exec_copyRecordFetch_next {r : CopyRec} (hrec : (s.chan c ch).crec = some r) (hreg : r.reg = true)
    (hnext : (s.chan c ch).nrec = none) (hown : (s.chan c ch).wown = false) :
    exec (.copyRecordFetch c ch) s = .next (s.fetchNext c ch r) := by
  show execCopyRecordFetch c ch s = _
  simp only [execCopyRecordFetch, hrun, hstop, hown, hrec, hreg, hnext, Bool.not_true, Bool.or_self, Bool.false_eq_true, if_false,
    Option.isNone_none, Bool.and_self, if_true]

theorem exec_copyRecordRegister_next {r n : CopyRec} (hrec : (s.chan c ch).crec = some r) (hreg : r.reg = true)
    (hnext : (s.chan c ch).nrec = some n) (hn : n.reg = false) :
    exec (.copyRecordRegister c ch) s = .next (s.registerNext c ch n) := by
  show execCopyRecordRegister c ch s = _
  simp only [execCopyRecordRegister, hrun, hstop, hrec, hnext, hreg, hn, Bool.not_true, Bool.or_self, Bool.false_eq_true, if_false]

theorem exec_copyRecordComplete {r : CopyRec} (hrec : (s.chan c ch).crec = some r) (hreg : r.reg = true) :
    exec (.copyRecordComplete c ch) s = .next (s.completeRec c ch r) := by
  show execCopyRecordComplete c ch s = _
  simp only [execCopyRecordComplete, hrun, hstop, hrec, hreg, Bool.not_false, Bool.and_self, if_true]

end

end

/-! ### Fetching a record (R312) -/

/-- A record from its eight words (R309). -/
theorem parseRec_words (a : DWord) (W : Nat → Word) : parseRec a ((List.range 8).map (fun i => (W i).toNat))
    = { addr := a, src := W 1 ++ W 0, dst := W 3 ++ W 2, bytes := (W 4).toNat, flags := W 5, next := W 7 ++ W 6 } := by
  have htwo (hi lo : Word) : BitVec.ofNat 64 (lo.toNat + 2 ^ 32 * hi.toNat) = hi ++ lo := by
    apply BitVec.eq_of_toNat_eq
    rw [BitVec.toNat_append, ← Nat.shiftLeft_add_eq_or_of_lt lo.isLt, Nat.shiftLeft_eq, BitVec.toNat_ofNat]
    have := hi.isLt
    have := lo.isLt
    omega
  have hlist : (List.range 8).map (fun i => (W i).toNat)
      = [(W 0).toNat, (W 1).toNat, (W 2).toNat, (W 3).toNat, (W 4).toNat, (W 5).toNat, (W 6).toNat, (W 7).toNat] := rfl
  rw [hlist]
  simp only [parseRec, dwOf, List.getD_cons_zero, List.getD_cons_succ, htwo, BitVec.ofNat_toNat, BitVec.setWidth_eq]

namespace State

theorem engineWords_eq (s : State) (pa n : Nat) (cv : Option Nat) :
    s.engineWords pa n cv = (List.range n).map (fun i => (s.homeRead (pa / 4 + i) cv).toNat) := by
  unfold engineWords engineWord
  refine List.map_congr_left (fun i _ => ?_)
  rw [show (pa + 4 * i) / 4 = pa / 4 + i by omega]

section
variable {s : State} {c ch : Nat} {x : Chain} {rest : List Chain} (hq : (s.chan c ch).headq = x :: rest)
include hq

theorem fetchRec_end (h : x.cur = 0) : s.fetchRec c ch = s.endRunning c ch := by
  simp only [fetchRec, hq, h, if_true]

theorem fetchRec_bad {t : State} (h : x.cur ≠ 0) (hread : s.readRec c (s.chan c ch) x x.cur = .bad t) :
    s.fetchRec c ch = t.haltChan c ch 2 x.cur 0 := by
  simp only [fetchRec, hq, h, if_false, hread]

theorem fetchRec_wait {t : State} (h : x.cur ≠ 0) (hread : s.readRec c (s.chan c ch) x x.cur = .wait t) :
    s.fetchRec c ch = t := by
  simp only [fetchRec, hq, h, if_false, hread]

theorem fetchRec_ok {t : State} {r : CopyRec} (h : x.cur ≠ 0) (hread : s.readRec c (s.chan c ch) x x.cur = .ok t r) :
    s.fetchRec c ch = t.setChan c ch (if r.flags.getLsbD 0 then { t.chan c ch with crec := some r, wown := false }
      else { t.chan c ch with wown := true }) := by
  simp only [fetchRec, hq, h, if_false, hread]
  split <;> rfl

end

section
variable {s s3 : State} {c : Nat} {k : Chan} {x : Chain} {a : DWord}

theorem readRec_malformed (h : ¬(canonA a = true ∧ a.toNat % 32 = 0)) : s.readRec c k x a = .bad s := by
  refine if_pos ?_
  rw [Bool.or_eq_true, Bool.not_eq_true', decide_eq_true_eq]
  by_cases hc : canonA a = true
  · exact .inr (fun he => h ⟨hc, he⟩)
  · exact .inl (Bool.eq_false_iff.mpr hc)

variable (hok : canonA a = true ∧ a.toNat % 32 = 0)
include hok

theorem readRec_waits (h : (s.flushGroup x.grp).chainWaits x = true) : s.readRec c k x a = .wait (s.flushGroup x.grp) := by
  simp [readRec, hok.1, hok.2, h]

variable (hgo : (s.flushGroup x.grp).chainWaits x = false)
include hgo

theorem readRec_wait (h : (s.flushGroup x.grp).translate c ((s.flushGroup x.grp).chanCtx k) a .read false = .wait s3) :
    s.readRec c k x a = .wait s3 := by
  simp [readRec, hok.1, hok.2, hgo, h]

theorem readRec_fault (h : (s.flushGroup x.grp).translate c ((s.flushGroup x.grp).chanCtx k) a .read false = .fault s3) :
    s.readRec c k x a = .bad s3 := by
  simp [readRec, hok.1, hok.2, hgo, h]

variable {pa : Nat} {mt : Bool} (h : (s.flushGroup x.grp).translate c ((s.flushGroup x.grp).chanCtx k) a .read false = .ok s3 pa mt)
include h

theorem readRec_trapped (ht : s3.poolTrap pa ≠ 0) : s.readRec c k x a = .bad s3 := by
  simp [readRec, hok.1, hok.2, hgo, h, ht]

theorem readRec_ok (ht : s3.poolTrap pa = 0) : s.readRec c k x a = .ok s3 (parseRec a (s3.engineWords pa 8 (s3.chainConv k x))) := by
  simp [readRec, hok.1, hok.2, hgo, h, ht]

end

end State

/-! ### Registering a record (R309, R310, R313) -/

namespace State

/-- The limits of a record (R309, R310). -/
theorem wellFormed_iff (s : State) (k : Chan) (r : CopyRec) : s.wellFormed k r = true ↔
    r.src.toNat % 4 = 0 ∧ r.dst.toNat % 4 = 0 ∧ r.bytes % 4 = 0 ∧ r.bytes ≤ 16777216 ∧ r.flags.toNat < 8
      ∧ (r.next = 0 ∨ canonA r.next = true ∧ r.next.toNat % 32 = 0)
      ∧ (if r.flags.getLsbD 1 then r.src.toNat < 2 ^ 32 else canonA r.src = true)
      ∧ (if r.flags.getLsbD 2 then r.dst.toNat < 2 ^ 32 else canonA r.dst = true) ∧ s.recOverlaps k r = false := by
  have haddr (sp : Bool) (a : DWord) : recAddrOk sp a = true ↔ if sp then a.toNat < 2 ^ 32 else canonA a = true := by
    cases sp
    · rfl
    · exact decide_eq_true_iff
  rw [← haddr, ← haddr]
  unfold wellFormed
  simp only [Bool.and_eq_true, Bool.or_eq_true, decide_eq_true_eq, Bool.not_eq_true', and_assoc]
  rfl

/-- A scratchpad range of a record that its team's allocation does not hold (R313). -/
def BadSpad (s : State) (k : Chan) (r : CopyRec) (on : Bool) (a : DWord) : Prop :=
  on = true ∧ r.bytes ≠ 0 ∧ s.recSpad k a r.bytes = none

theorem badSpad_iff (s : State) (k : Chan) (r : CopyRec) (on : Bool) (a : DWord) :
    (on && decide (r.bytes ≠ 0) && (s.recSpad k a r.bytes).isNone) = true ↔ s.BadSpad k r on a := by
  rw [Bool.and_eq_true, Bool.and_eq_true, decide_eq_true_eq, Option.isNone_iff_eq_none, and_assoc]
  rfl

section
variable {s : State} {k : Chan} {r : CopyRec}

theorem chkSpads_src (h : s.BadSpad k r r.fsp r.src) : s.chkSpads k r = some r.src := if_pos ((s.badSpad_iff k r _ _).mpr h)

theorem chkSpads_dst (h : ¬ s.BadSpad k r r.fsp r.src) (h' : s.BadSpad k r r.tsp r.dst) : s.chkSpads k r = some r.dst :=
  (if_neg (fun e => h ((s.badSpad_iff k r _ _).mp e))).trans (if_pos ((s.badSpad_iff k r _ _).mpr h'))

theorem chkSpads_none (h : ¬ s.BadSpad k r r.fsp r.src) (h' : ¬ s.BadSpad k r r.tsp r.dst) : s.chkSpads k r = none :=
  (if_neg (fun e => h ((s.badSpad_iff k r _ _).mp e))).trans (if_neg (fun e => h' ((s.badSpad_iff k r _ _).mp e)))

end

theorem code_chkPages {s t : State} {c ctx left n code : Nat} {write : Bool} {va a : DWord}
    (h : s.chkPages c ctx write va left n = .bad t code a) : code = 3 ∨ code = 4 ∨ code = 6 := by
  have hcode : (if write then 4 else 3) = code → code = 3 ∨ code = 4 ∨ code = 6 := by
    rintro rfl
    cases write
    · exact .inl rfl
    · exact .inr (.inl rfl)
  induction n generalizing s va left with
  | zero => cases h
  | succ n ih =>
    unfold chkPages at h
    split at h
    · cases h
    · dsimp only at h
      split at h
      · cases h
      · obtain ⟨-, h, -⟩ := RgChk.bad.inj h
        exact hcode h
      · split at h
        · obtain ⟨-, h, -⟩ := RgChk.bad.inj h
          exact .inr (.inr h.symm)
        · split at h
          · obtain ⟨-, h, -⟩ := RgChk.bad.inj h
            exact hcode h
          · exact ih h

theorem code_chkRange {s t : State} {c n code : Nat} {k : Chan} {write : Bool} {va a : DWord}
    (h : s.chkRange c k write va n = .bad t code a) : code = 3 ∨ code = 4 ∨ code = 6 := by
  unfold chkRange at h
  dsimp only at h
  split at h
  · obtain ⟨-, rfl, -⟩ := RgChk.bad.inj h
    cases write
    · exact .inl rfl
    · exact .inr (.inl rfl)
  · exact code_chkPages h

/-- A global range that fails its checks halts with code 3, 4 or 6 (R318). -/
theorem code_chkGlobals {s t : State} {c code : Nat} {k : Chan} {r : CopyRec} {a : DWord}
    (h : s.chkGlobals c k r = .bad t code a) : code = 3 ∨ code = 4 ∨ code = 6 := by
  unfold chkGlobals at h
  split at h
  · split at h
    · cases h
    · exact code_chkRange h
  · split at h
    · cases h
    · exact code_chkRange h

section
variable {s t : State} {c ch : Nat} {own : RlOwner} {r : CopyRec} (hwf : s.wellFormed (s.chan c ch) r = true)
include hwf

theorem tryRec_badSpad {a : DWord} (h : s.chkSpads (s.chan c ch) r = some a) : s.tryRec c ch own r = .bad s 5 a := by
  simp only [tryRec, hwf, h, Bool.not_true, Bool.false_eq_true, if_false]

variable (hsp : s.chkSpads (s.chan c ch) r = none)
include hsp

theorem tryRec_badGlobal {code : Nat} {a : DWord} (h : s.chkGlobals c (s.chan c ch) r = .bad t code a) :
    s.tryRec c ch own r = .bad t code a := by
  simp only [tryRec, hwf, hsp, h, Bool.not_true, Bool.false_eq_true, if_false]

theorem tryRec_wait (h : s.chkGlobals c (s.chan c ch) r = .wait t) : s.tryRec c ch own r = .wait t := by
  simp only [tryRec, hwf, hsp, h, Bool.not_true, Bool.false_eq_true, if_false]

variable (h : s.chkGlobals c (s.chan c ch) r = .ok t)
include h

theorem tryRec_locked (hlock : t.tryLock c [t.recLock (s.chan c ch) own r.fsp false r.src r.bytes,
    t.recLock (s.chan c ch) own r.tsp true r.dst r.bytes] = none) : s.tryRec c ch own r = .wait t := by
  simp only [tryRec, hwf, hsp, h, hlock, Bool.not_true, Bool.false_eq_true, if_false]

theorem tryRec_ok {u : State} (hlock : t.tryLock c [t.recLock (s.chan c ch) own r.fsp false r.src r.bytes,
    t.recLock (s.chan c ch) own r.tsp true r.dst r.bytes] = some u) : s.tryRec c ch own r = .ok
      (if r.tsp || r.bytes = 0 then u else u.cleanLines c (u.rangeLines c (u.chanCtx (s.chan c ch)) r.dst.toNat
        (r.dst.toNat + r.bytes) ((r.dst.toNat + r.bytes - 1) / 4096 + 1 - r.dst.toNat / 4096) (r.dst.toNat / 4096)) true) := by
  simp only [tryRec, hwf, hsp, h, hlock, Bool.not_true, Bool.false_eq_true, if_false]

end

theorem tryRec_malformed {s : State} {c ch : Nat} {own : RlOwner} {r : CopyRec} (hwf : s.wellFormed (s.chan c ch) r = false) :
    s.tryRec c ch own r = .bad s 1 0 := by
  simp only [tryRec, hwf, Bool.not_false, if_true]

end State

/-! ### The end of a record (R315) -/

namespace State

/-- The bytes of a word are of one kind. -/
theorem kindOf_word (pa : Nat) : kindOf (4 * (pa / 4)) = kindOf pa := by
  unfold kindOf
  refine if_congr (by omega) rfl (if_congr (by omega) rfl (if_congr (by omega) (if_congr (by omega) ?_ rfl)
    (if_congr (by omega) rfl (if_congr (by omega) ?_ (if_congr (by omega) rfl (if_congr (by omega) rfl rfl))))))
  · exact congrArg PKind.dram (by omega)
  · exact congrArg PKind.pool (by omega)

theorem isCell_word (s : State) (pa : Nat) : s.isCell (4 * (pa / 4)) = s.isCell pa := by
  rw [isCell, kindOf_word]
  rfl

/-! What the write of an engine leaves. -/

theorem TeamsOnly.mapKept {s t : State} (h : TeamsOnly s t) : MapKept s t := by
  obtain ⟨_, rfl⟩ := h
  exact ⟨rfl, fun _ => rfl, fun _ _ hl => hl⟩

theorem teamsOnly_renewInside (s : State) (t lv o : Nat) (c : Cap) (v : Word) : TeamsOnly s (s.renewInside t lv c o v) := by
  unfold renewInside
  split
  · exact ⟨_, rfl⟩
  · exact ⟨_, rfl⟩

theorem mapKept_unhide (s : State) (t w : Nat) (x : L1Word) : MapKept s (s.unhide t w x) := by
  unfold unhide
  split
  · exact s.mapKept_setL1 _ _ _
  · exact s.mapKept_delL1 _ _

theorem mapKept_afterEngine (s : State) (c w : Nat) (q : StoreReq) : MapKept s (s.afterEngine c w q) := by
  unfold afterEngine
  split
  · exact .refl s
  · split
    · exact s.mapKept_delL1 _ _
    · split
      · exact s.mapKept_unhide _ _ _
      · exact .refl s
  · split
    · exact s.mapKept_delL1 _ _
    · exact .refl s

/-- An ordinary write of an engine drops a copy from an L1 at most. -/
theorem afterEngine_frame (s : State) (c w : Nat) {q : StoreReq} (h : q.hid = none) :
    (s.afterEngine c w q).mem = s.mem ∧ (s.afterEngine c w q).cells = s.cells := by
  unfold afterEngine
  split
  · exact ⟨rfl, rfl⟩
  · next hq => rw [h] at hq; cases hq
  · split <;> exact ⟨rfl, rfl⟩

section
variable {s t : State} {c ch pa : Nat} {k : Chan} {x : Chain} {va : DWord} {v : Word} {pois rel : Bool}
  (h : s.engineStore c ch k x va pa v pois rel = .ok t)
include h

theorem mapKept_engineStore : MapKept s t := by
  unfold engineStore at h
  dsimp only at h
  split at h
  · cases h
  · next u hcap =>
    split at h
    · cases h
    · next y hst =>
      cases h
      refine MapKept.trans ?_ ((mapKept_storeAtHome hst).trans (y.mapKept_afterEngine _ _ _))
      split at hcap
      · next hlv =>
        cases hcap
        rw [if_pos hlv]
        exact .refl _
      · next hlv =>
        rw [if_neg hlv]
        exact ((teamsOnly_captureLineAt hcap).mapKept.trans (u.teamsOnly_noteWroteAt _ _ _).mapKept).trans
          (teamsOnly_renewInside _ _ _ _ _ _).mapKept

/-- A write of a chain outside every block is stored at its home as it is. -/
theorem engineStore_outside (hlv : x.level = 0) :
    let q : StoreReq := { core := c, grp := x.grp, w := pa / 4, va := va, val := v, dot := x.dot, vec := x.vec, rel := rel
                          eng := true, tag := ch, pois := pois }
    ∃ u, s.storeAtHome q = some u ∧ t.mem = u.mem ∧ t.cells = u.cells := by
  have hhid (w : Nat) : s.chainHid k x w = none := by simp [chainHid, hlv]
  unfold engineStore at h
  simp only [hlv, if_true, hhid] at h
  split at h
  · cases h
  · next u hst =>
    cases h
    exact ⟨u, hst, u.afterEngine_frame c (pa / 4) rfl⟩

end

/-- The release of a chain outside every block: the word stands at its home where no cell keeps other values, or where its vector
dominates every value that the cell keeps; there, with room for it, its vector record stands too. -/
theorem engineStore_release {s t : State} {c ch pa : Nat} {k : Chan} {x : Chain} {va : DWord} {v : Word} (hlv : x.level = 0)
    (h : s.engineStore c ch k x va pa v false true = .ok t) :
    let r := s.writeBackAll (pa / 4) none
    (s.isCell pa = false → t.word (pa / 4) = v)
    ∧ (s.isCell pa = true → (r.reown (pa / 4 / 32)).entriesUsed (r.homeSlice (4 * (pa / 4))) + 5 ≤ 16384 →
      (∀ y ∈ r.allVals (pa / 4), y.hid = none ∧ y.disp = [] ∧ dominates x.vec y.dot = true) →
      t.word (pa / 4) = v ∧ { vec := x.vec, dot := x.dot, hid := none } ∈ (t.cellRec (pa / 4)).vrec) := by
  intro r
  obtain ⟨u, hst, hmem, hcells⟩ := engineStore_outside h hlv
  have hcell : r.isCell (4 * (pa / 4)) = s.isCell pa :=
    ((s.mapKept_writeBackAll (pa / 4) none).isCell _).trans (s.isCell_word pa)
  have hleft := storeAtHome_dominated rfl rfl rfl hst
  rw [← hcell, word_of_mem hmem]
  refine ⟨fun hc => (hleft (fun hc' => ?_)).1, fun hc hroom hall => ?_⟩
  · cases hc'.symm.trans hc
  · obtain ⟨hword, hvrec⟩ := hleft (fun _ => hall)
    obtain ⟨e, he, hx⟩ := hvrec hc rfl hroom
    exact ⟨hword, Records.mem ⟨e, hcells ▸ he, hx⟩⟩

section
variable {s s1 : State} {c ch pa : Nat} {k : Chan} {x : Chain} {rest : List Chain} {r : CopyRec} {mt : Bool}
  (h : s.translate c (s.chanCtx k) (r.addr + 0x14) .write false = .ok s1 pa mt)
include h

theorem finishRec_trapped (ht : s1.poolTrap pa ≠ 0) : s.finishRec c ch k x rest r = s1.haltChan c ch 2 r.addr 0 := by
  simp only [finishRec, h, ht, ne_eq, not_false_eq_true, if_true]

theorem finishRec_writes (ht : s1.poolTrap pa = 0) {y : Chain} (hy : y = { x with vec := ownVec x }) {s4 : State}
    (hst : (s1.unlock c (.chan ch)).engineStore c ch k y (r.addr + 0x14) pa (r.flags &&& ~~~1) false true = .ok s4) :
    let t := s4.setChan c ch { s4.chan c ch with headq := { y with cur := r.next } :: rest, crec := none }
    s.finishRec c ch k x rest r = if r.next = 0 then t.endRunning c ch else t.adoptNext c ch := by
  subst hy
  simp only [finishRec, h, ht, ne_eq, not_true_eq_false, if_false, hst]

end

section
variable {s : State} {c ch : Nat} {x : Chain} {rest : List Chain} {r : CopyRec} (hq : (s.chan c ch).headq = x :: rest)
  (hpos : r.bytes / 4 ≤ r.pos)
include hq hpos

theorem completeRec_awaits (h : s.awaits x.grp r.host = true) : s.completeRec c ch r = s := by
  simp only [completeRec, hq, if_neg (Nat.not_lt.mpr hpos), h, if_true]

theorem completeRec_finishes (h : s.awaits x.grp r.host = false) : s.completeRec c ch r = s.finishRec c ch (s.chan c ch) x rest r := by
  simp only [completeRec, hq, if_neg (Nat.not_lt.mpr hpos), h, Bool.false_eq_true, if_false]

end

end State

end Sys2Proof.Machine
end

section
/-! Steps of the drain limit, operand queues, watches and the task gatherer (R231, R236, R321, R338, R339, R343). -/

namespace Sys2Proof.Machine

open Sys2Proof

theorem exec_copyDrainExpiry {s : State} {c ch : Nat} {tm : Team} {d : DWord} (htm : find s.teams (s.chan c ch).team = some tm)
    (hd : tm.drain = some d) (hst : (s.chan c ch).st ≠ .free) (hc : teamCore (s.chan c ch).team = c) :
    exec (.copyDrainExpiry c ch) s =
      .next (({ s with tsc := if s.tsc.toNat < d.toNat then d else s.tsc } : State).squashChan c ch) := by
  show execCopyDrainExpiry c ch s = _
  simp only [execCopyDrainExpiry, htm, Option.bind_some, hd, hst, hc, ne_eq, not_true_eq_false, decide_false, Bool.or_self,
    Bool.false_eq_true, if_false]

/-! ### What a fetch leaves of its group (R231) -/

section
open State (GroupsKept)

theorem useEntry_fault {s t : State} {e : TlbEnt} {va : Nat} {acc : AccK} {tc : Bool} (h : s.useEntry e va acc tc = .fault t) :
    t = s := by
  unfold State.useEntry at h
  dsimp only at h
  split at h
  · exact (Tr.fault.inj h).symm
  · split at h
    · exact (Tr.fault.inj h).symm
    · cases h

/-- A translation that faults leaves every group, as one that succeeds does. -/
theorem groupsKept_translate_fault {s t : State} {c ctx : Nat} {va : DWord} {acc : AccK} {tc : Bool}
    (h : s.translate c ctx va acc tc = .fault t) : GroupsKept s t := by
  unfold State.translate at h
  dsimp only at h
  split at h
  · cases h
    exact .refl s
  · split at h
    · rw [useEntry_fault h]
      exact .of_eq rfl rfl
    · split at h
      · cases h
        exact .refl s
      · split at h
        · unfold State.postFault at h
          dsimp only at h
          split at h
          · split at h
            · cases h
              exact .of_eq rfl rfl
            · cases h
          · cases h
        · cases h
          exact .refl s
        · split at h
          · cases h
            exact .refl s
          · split at h
            · cases h
              exact .refl s
            · rw [useEntry_fault h]
              exact GroupsKept.foldl _ (fun u ea => u.groupsKept_orEntry _ ea _) _ s

theorem groupsKept_loadN (s : State) (k pa n : Nat) (mt : Bool) : GroupsKept s (s.loadN k pa n mt).1 := by
  unfold State.loadN
  split
  · exact .refl s
  · dsimp only
    split
    · exact (s.groupsKept_loadWord _ _ _).trans (State.groupsKept_loadWord _ _ _ _)
    · exact s.groupsKept_loadWord _ _ _

/-- The fetch of an element that has ended has left every group. -/
def ElemRes.Keeps (s : State) : ElemRes → Prop
  | .ok t _ _ => GroupsKept s t
  | .wait _ => True
  | .fail t _ => GroupsKept s t

theorem ElemRes.Keeps.trans {s t : State} {x : ElemRes} (h : GroupsKept s t) (h' : x.Keeps t) : x.Keeps s := by
  cases x with
  | ok u v p => exact GroupsKept.trans h h'
  | wait u => trivial
  | fail u m => exact GroupsKept.trans h h'

theorem keeps_elemRead (s : State) (k : Nat) (g : Group) (l : Nat) (sp : Bool) (a : Int) (n : Nat) :
    (s.elemRead k g l sp a n).Keeps s := by
  unfold State.elemRead
  split
  · dsimp only
    split
    · exact GroupsKept.refl s
    · exact GroupsKept.refl s
  · dsimp only
    split
    · trivial
    · next h => exact groupsKept_translate_fault h
    · next h =>
      split
      · exact State.groupsKept_translate h
      · exact (State.groupsKept_translate h).trans (groupsKept_loadN _ _ _ _ _)

theorem keeps_element (s : State) (k : Nat) (g : Group) (r : PatRec) (m l : Nat) : (s.element k g r m l).Keeps s := by
  unfold State.element
  split
  · exact keeps_elemRead s _ _ _ _ _ _
  · have hfirst := keeps_elemRead s k g l r.isp (r.ibase.toNat + patOffset r m) r.iesize
    split
    · next t j p h =>
      rw [h] at hfirst
      have hsecond := keeps_elemRead t k g l r.dsp (r.base.toNat + Machine.sgn (8 * r.iesize) j * r.esize) r.esize
      split
      · next h' =>
        rw [h'] at hsecond
        exact GroupsKept.trans hfirst hsecond
      · exact hsecond.trans hfirst
    · exact hfirst

theorem groupsKept_entryOf {s t : State} {k e : Nat} {g : Group} {r : PatRec} {ls : List Nat} {acc : List Word} {p : Bool}
    {x : QEntry} (h : s.entryOf k g r e ls acc p = (t, some x)) : GroupsKept s t := by
  induction ls generalizing s acc p with
  | nil =>
    obtain ⟨rfl, -⟩ := Prod.mk.inj h
    exact .refl s
  | cons l ls ih =>
    have hkeeps := keeps_element s k g r (e * g.gw + l) l
    unfold State.entryOf at h
    dsimp only at h
    split at h
    · exact ih h
    · split at h
      · next hel =>
        rw [hel] at hkeeps
        exact GroupsKept.trans hkeeps (ih h)
      · cases (Prod.mk.inj h).2
      · next hel =>
        rw [hel] at hkeeps
        obtain ⟨rfl, -⟩ := Prod.mk.inj h
        exact hkeeps

theorem gw_of_groupsKept {s t : State} (h : GroupsKept s t) {n : Nat} {g v : Group} (hg : find s.groups n = some g)
    (hv : find t.groups n = some v) : v.gw = g.gw := by
  have hn := h.2 n
  rw [hg, hv] at hn
  exact (congrArg Group.gw (Option.some.inj hn) :)

end

/-- Counting an access leaves a group its width. -/
theorem gw_countAcc {s : State} {k n : Nat} {p : Path} {v : Group} (hv : find (s.countAcc k p).2.groups n = some v) :
    ∃ u, find s.groups n = some u ∧ v.gw = u.gw := by
  unfold State.countAcc at hv
  split at hv
  · exact ⟨v, hv, rfl⟩
  · next g hg =>
    have hv : find (put s.groups k _) n = some v := hv
    rw [find_put] at hv
    split at hv
    · next hk =>
      cases hv
      exact ⟨g, hk ▸ hg, rfl⟩
    · exact ⟨v, hv, rfl⟩

theorem upd_congr {α : Type} {m : Map α} {k : Nat} {f f' : α → α} (h : ∀ v, find m k = some v → f v = f' v) :
    upd m k f = upd m k f' := by
  unfold upd
  cases hm : find m k with
  | none => rfl
  | some v => exact congrArg (put m k) (h v hm)

/-! ### Operand queues (R231, R236) -/

section
variable {s s1 : State} {n : Nat} {q : QReg} {g : Group} (hg : find s.groups n = some g)
include hg

section
variable {m e : Nat} {p : PatRec} {r : List (Nat × PatRec × Nat)} (hleft : (g.queue q).left = (m, p, e) :: r)
include hleft

/-- A fetch that a stop has abandoned ends when its data are there, and its entry is dropped. -/
theorem exec_patternElementFetch_dropped {x : QEntry} (h : s.entryOf n g p e (List.range g.gw) [] false = (s1, some x)) :
    exec (.patternElementFetch n q) s =
      .next { s1 with groups := upd s1.groups n (fun g => g.setQueue q { g.queue q with left := r }) } := by
  show execPatternElementFetch n q s = _
  simp only [execPatternElementFetch, hg, hleft, State.dropFetch, h]

theorem exec_patternElementFetch_dropping (h : s.entryOf n g p e (List.range g.gw) [] false = (s1, none)) :
    exec (.patternElementFetch n q) s = .next s1 := by
  show execPatternElementFetch n q s = _
  simp only [execPatternElementFetch, hg, hleft, State.dropFetch, h]

end

section
variable (hleft : (g.queue q).left = []) (hrun : (g.queue q).st = .running) (hroom : (g.queue q).entries.length < 8)
  (hstop : g.stopReq = false) (hfull : s.fetchFull n g (g.queue q) = false)
include hleft hrun hroom hstop hfull

/-- The next entry of a queue, fetched or marked. -/
theorem exec_patternElementFetch_entry {x : QEntry}
    (h : s.entryOf n g (g.queue q).pat (g.queue q).nextE (List.range g.gw) [] false = (s1, some x)) :
    let o := g.queue q
    let t := if o.wait = none then (s1.countAcc n .pat).2 else s1
    exec (.patternElementFetch n q) s = .next { t with groups := upd t.groups n (fun g => g.setQueue q
      { o with entries := o.entries ++ [x], nextE := o.nextE + 1, wait := none
               st := if patEntries o.pat g.gw ≤ o.nextE + 1 then .exhausted else .running }) } := by
  intro o t
  have hgo : ¬ 8 ≤ (g.queue q).entries.length := Nat.not_le.mpr hroom
  have ht : (if (g.queue q).wait.isSome then s1 else (s1.countAcc n .pat).2) = t := by
    cases hw : (g.queue q).wait <;> simp only [t, o, hw] <;> rfl
  have hgw (v : Group) (hv : find t.groups n = some v) : v.gw = g.gw := by
    have hkept := groupsKept_entryOf h
    by_cases hw : o.wait = none
    · simp only [t, if_pos hw] at hv
      obtain ⟨u, hu, hvu⟩ := gw_countAcc hv
      exact hvu.trans (gw_of_groupsKept hkept hg hu)
    · simp only [t, if_neg hw] at hv
      exact gw_of_groupsKept hkept hg hv
  show execPatternElementFetch n q s = _
  simp only [execPatternElementFetch, hg, hleft, hrun, hgo, hstop, hfull, h, ne_eq, not_true_eq_false, decide_false, Bool.or_self,
    Bool.false_eq_true, if_false, decide_eq_true_eq, ht]
  exact congrArg (fun m => Host.Outcome.next ({ t with groups := m } : State)) (upd_congr (fun v hv => by simp only [hgw v hv, o, hleft]))

/-- The next entry of a queue, whose page the host has still to bring. -/
theorem exec_patternElementFetch_wait
    (h : s.entryOf n g (g.queue q).pat (g.queue q).nextE (List.range g.gw) [] false = (s1, none)) :
    let o := g.queue q
    let t := (s1.countAcc n .pat).2
    exec (.patternElementFetch n q) s = .next (if o.wait = none
      then { t with groups := upd t.groups n (fun g => g.setQueue q { o with wait := some (s1.countAcc n .pat).1 }) }
      else s1) := by
  have hgo : ¬ 8 ≤ (g.queue q).entries.length := Nat.not_le.mpr hroom
  show execPatternElementFetch n q s = _
  simp only [execPatternElementFetch, hg, hleft, hrun, hgo, hstop, hfull, h, ne_eq, not_true_eq_false, decide_false, Bool.or_self,
    Bool.false_eq_true, if_false, State.holdFetch]
  cases hw : (g.queue q).wait <;> rfl

end

end

/-! ### Watches (R343) -/

theorem exec_watchTriggerDeliver {s s1 : State} {die slice ent : Nat} {v : Watch} {a : DWord} {u : Word} {d : Dot}
    {r : List (DWord × Word × Dot)} {tm : Team} (hv : find (s.slice (64 * die + slice)).watches ent = some v)
    (htrig : v.trigs = (a, u, d) :: r) (htm : find s.teams v.team = some tm)
    (htask : s.insertTask v.core v.team tm.gw v.entry
      { args := trigArgs v a u d (watchHandle (64 * die + slice) ent v.gen), vec := mergeDot v.vec d } = some s1) :
    let j := 64 * die + slice
    let t := s1.dropCopy v.core ((v.lo + (a - v.va).toNat) / 4)
    let ws := if v.armed = false ∧ r = [] then del (t.slice j).watches ent
      else put (t.slice j).watches ent { v with trigs := r, drops := 0 }
    exec (.watchTriggerDeliver die slice ent) s = .next (t.setSlice j { t.slice j with watches := ws }) := by
  have hgone : (!v.armed && r.isEmpty) = decide (v.armed = false ∧ r = []) := by
    cases v.armed <;> cases r <;> rfl
  show execWatchTriggerDeliver die slice ent s = _
  simp only [execWatchTriggerDeliver, hv, htrig, htm, htask, hgone, decide_eq_true_eq]

/-! ### The gatherer (R338, R339) -/

section
variable {s : State} {c slot : Nat} {h : Gather} (hh : find (s.core c).gathers slot = some h)
include hh

theorem exec_gatherWindowExpiry (hpast : (s.core c).tgcfg.toNat ≤ laneClocks (s.ratioNow c) h.since.toNat s.tsc.toNat) :
    exec (.gatherWindowExpiry c slot) s =
      .next (s.setCore c { s.core c with gathers := put (s.core c).gathers slot { h with closed := true } }) := by
  show execGatherWindowExpiry c slot s = _
  simp only [execGatherWindowExpiry, hh, if_neg (Nat.not_lt.mpr hpast)]

theorem exec_gatherLaunch {tm : Team} {p o e : Nat} {n : BitVec 24} (htm : find s.teams h.team = some tm) (hclosed : h.closed = true)
    (hregroup : s.atRegroup h.team = false) (hdrain : tm.drain = none)
    (hi : freshFrom ((s.members h.team).map (fun e => e.2.gid)) 16 0 < 16)
    (hplace : s.place c tm.gw tm.regs (some (.create slot)) = some (p, o)) (he : s.freeEntry c = some e) (hn : s.freeSerial = some n) :
    let i := freshFrom ((s.members h.team).map (fun e => e.2.gid)) 16 0
    let t : State := { s with groups := put s.groups (128 * c + e) (taskGroup s h.team tm h i p o n) }
    let u := (t.takeSerial n).dropCreate c slot
    exec (.gatherLaunch c slot) s = .next (u.setCore c { u.core c with gathers := del (u.core c).gathers slot }) := by
  have hfree : ¬ 16 ≤ freshFrom ((s.members h.team).map (fun e => e.2.gid)) 16 0 := Nat.not_le.mpr hi
  show execGatherLaunch c slot s = _
  simp only [execGatherLaunch, hh, htm, hclosed, hregroup, hdrain, hfree, hplace, he, hn, Bool.not_true, decide_false, Bool.or_self,
    Option.isSome_none, Bool.false_eq_true, if_false]

end

/-! ### The steps of a channel that runs -/

section
variable {s : State} {c ch : Nat} {x : Chain} {rest : List Chain} (hq : (s.chan c ch).headq = x :: rest)
include hq

/-- How the fetch of the record that the running chain names ends (R312). -/
theorem fetchRec_leaves :
    let va := x.cur
    let ok := canonA va = true ∧ va.toNat % 32 = 0
    let s2 := s.flushGroup x.grp
    let at_ := s2.translate c (s2.chanCtx (s.chan c ch)) va .read false
    (va = 0 → s.fetchRec c ch = s.endRunning c ch)
    ∧ (va ≠ 0 → ¬ok → s.fetchRec c ch = s.haltChan c ch 2 va 0)
    ∧ (va ≠ 0 → ok → s2.chainWaits x = true → s.fetchRec c ch = s2)
    ∧ (∀ s3, va ≠ 0 → ok → s2.chainWaits x = false →
      (at_ = .wait s3 → s.fetchRec c ch = s3) ∧ (at_ = .fault s3 → s.fetchRec c ch = s3.haltChan c ch 2 va 0)
      ∧ ∀ pa mt, at_ = .ok s3 pa mt →
        (s3.poolTrap pa ≠ 0 → s.fetchRec c ch = s3.haltChan c ch 2 va 0)
        ∧ (s3.poolTrap pa = 0 →
          let W (i : Nat) : Word := s3.homeRead (pa / 4 + i) (s3.chainConv (s.chan c ch) x)
          let r : CopyRec := { addr := va, src := W 1 ++ W 0, dst := W 3 ++ W 2, bytes := (W 4).toNat, flags := W 5
                               next := W 7 ++ W 6 }
          let j := s3.chan c ch
          s.fetchRec c ch = s3.setChan c ch (if (W 5).getLsbD 0 then { j with crec := some r, wown := false }
            else { j with wown := true }))) := by
  refine ⟨State.fetchRec_end hq, fun h0 hbad => State.fetchRec_bad hq h0 (State.readRec_malformed hbad),
    fun h0 hok hw => State.fetchRec_wait hq h0 (State.readRec_waits hok hw), fun s3 h0 hok hgo => ⟨fun h => ?_, fun h => ?_,
    fun pa mt h => ⟨fun ht => ?_, fun ht => ?_⟩⟩⟩
  · exact State.fetchRec_wait hq h0 (State.readRec_wait hok hgo h)
  · exact State.fetchRec_bad hq h0 (State.readRec_fault hok hgo h)
  · exact State.fetchRec_bad hq h0 (State.readRec_trapped hok hgo h ht)
  · have hread := State.readRec_ok hok hgo h ht
    rw [State.engineWords_eq, parseRec_words] at hread
    rw [State.fetchRec_ok hq h0 hread]

end

/-- How the registration of the record at hand ends (R313, R318). -/
theorem registerRec_bad {s t : State} {c ch code : Nat} {r : CopyRec} {a : DWord} (h : s.tryRec c ch (.chan ch) r = .bad t code a) :
    let u := t.haltChan c ch code r.addr a
    s.registerRec c ch r = u.setChan c ch { u.chan c ch with again := false } := by
  simp only [State.registerRec, h]

theorem registerRec_wait {s t : State} {c ch : Nat} {r : CopyRec} (h : s.tryRec c ch (.chan ch) r = .wait t) :
    s.registerRec c ch r = t := by
  simp only [State.registerRec, h]

theorem registerRec_ok {s t : State} {c ch : Nat} {r : CopyRec} (h : s.tryRec c ch (.chan ch) r = .ok t) :
    s.registerRec c ch r = t.setChan c ch { t.chan c ch with crec := some { r with reg := true }, again := false } := by
  simp only [State.registerRec, h]

/-- A record past its limits and its scratchpad ranges goes on as its global ranges and the range-lock table say (R313). -/
theorem registerRec_leaves {s : State} {c ch : Nat} {r : CopyRec} (hwf : s.wellFormed (s.chan c ch) r = true)
    (hsp : s.chkSpads (s.chan c ch) r = none) :
    let k := s.chan c ch
    (∀ s1 code a, s.chkGlobals c k r = .bad s1 code a →
      (let u := s1.haltChan c ch code r.addr a
       s.registerRec c ch r = u.setChan c ch { u.chan c ch with again := false }) ∧ (code = 3 ∨ code = 4 ∨ code = 6))
    ∧ (∀ s1, s.chkGlobals c k r = .wait s1 → s.registerRec c ch r = s1)
    ∧ (∀ s1, s.chkGlobals c k r = .ok s1 →
      let ls := [s1.recLock k (.chan ch) (r.flags.getLsbD 1) false r.src r.bytes,
        s1.recLock k (.chan ch) (r.flags.getLsbD 2) true r.dst r.bytes]
      (s1.tryLock c ls = none → s.registerRec c ch r = s1)
      ∧ ∀ s2, s1.tryLock c ls = some s2 →
        let lo := r.dst.toNat
        let s3 := if r.flags.getLsbD 2 || r.bytes = 0 then s2 else s2.cleanLines c (s2.rangeLines c (s2.chanCtx k) lo
          (lo + r.bytes) ((lo + r.bytes - 1) / 4096 + 1 - lo / 4096) (lo / 4096)) true
        s.registerRec c ch r = s3.setChan c ch { s3.chan c ch with crec := some { r with reg := true }, again := false }) :=
  ⟨fun _ _ _ h => ⟨registerRec_bad (State.tryRec_badGlobal hwf hsp h), State.code_chkGlobals h⟩,
    fun _ h => registerRec_wait (State.tryRec_wait hwf hsp h),
    fun _ h => ⟨fun hlock => registerRec_wait (State.tryRec_locked hwf hsp h hlock),
      fun _ hlock => registerRec_ok (State.tryRec_ok hwf hsp h hlock)⟩⟩

/-- Settles O55: what a halt leaves, the steps of a channel by its record at hand, and each other engine's step. -/
theorem engineEvents : Obligations.EngineEvents := by
  unfold Obligations.EngineEvents
  intro s c ch k halts
  refine ⟨fun code a d hq => State.haltChan_leaves code a d hq,
    ⟨s.chanRuns_iff k, exec_chan_idle, fun hrun hstop x rest hq => ⟨?_, ?_, ?_⟩⟩,
    fun tm d htm hd hst hc => exec_copyDrainExpiry htm hd hst hc,
    fun n q g s1 hg => ⟨fun m p e r hleft => ⟨fun x h => exec_patternElementFetch_dropped hg hleft h,
        fun h => exec_patternElementFetch_dropping hg hleft h⟩,
      fun hleft hrun hroom hstop hfull => ⟨fun x h => exec_patternElementFetch_entry hg hleft hrun hroom hstop hfull h,
        fun h => exec_patternElementFetch_wait hg hleft hrun hroom hstop hfull h⟩⟩,
    fun die slice ent v a u d r tm s1 => exec_watchTriggerDeliver,
    fun h hh => ⟨exec_gatherWindowExpiry hh, fun tm p o e n htm hclosed hregroup hdrain =>
      exec_gatherLaunch hh htm hclosed hregroup hdrain⟩⟩
  · intro out hout hrec
    have hexec : out = .next (s.fetchRec c ch) := by
      rcases hout with ⟨hown, rfl⟩ | ⟨hown, rfl⟩
      · exact exec_copyRecordFetch hrun hstop hown hrec
      · exact exec_copyOwnRecheck hrun hstop hown hrec
    subst hexec
    obtain ⟨hend, hbad, hwait, hgo⟩ := fetchRec_leaves hq
    refine ⟨fun h0 => congrArg _ (hend h0), fun h0 hok => congrArg _ (hbad h0 hok), fun h0 hok hw => congrArg _ (hwait h0 hok hw),
      fun s3 h0 hok hw => ?_⟩
    obtain ⟨hwait3, hfault, hread⟩ := hgo s3 h0 hok hw
    exact ⟨fun h => congrArg _ (hwait3 h), fun h => congrArg _ (hfault h), fun pa mt h =>
      ⟨fun ht => congrArg _ ((hread pa mt h).1 ht), fun ht => congrArg _ ((hread pa mt h).2 ht)⟩⟩
  · intro r hrec hreg
    rw [exec_copyRecordRegister hrun hstop hrec hreg]
    intro out fails limits bad
    have hlimits : s.wellFormed k r = true ↔ limits := s.wellFormed_iff k r
    refine ⟨fun hbad => ?_, fun hok hsrc => ?_, fun hok hsrc hdst => ?_, fun hok hsrc hdst => ?_⟩
    · exact congrArg _ (registerRec_bad (State.tryRec_malformed (Bool.eq_false_iff.mpr (fun h => hbad (hlimits.mp h)))))
    · exact congrArg _ (registerRec_bad (State.tryRec_badSpad (hlimits.mpr hok) (State.chkSpads_src hsrc)))
    · exact congrArg _ (registerRec_bad (State.tryRec_badSpad (hlimits.mpr hok) (State.chkSpads_dst hsrc hdst)))
    · obtain ⟨hfail, hwait, hreg⟩ := registerRec_leaves (hlimits.mpr hok) (State.chkSpads_none hsrc hdst)
      exact ⟨fun s1 code a h => ⟨congrArg _ (hfail s1 code a h).1, (hfail s1 code a h).2⟩, fun s1 h => congrArg _ (hwait s1 h),
        fun s1 h => ⟨fun hl => congrArg _ ((hreg s1 h).1 hl), fun s2 hl => congrArg _ ((hreg s1 h).2 s2 hl)⟩⟩
  · intro r hrec hreg
    have hexec : exec (.copyRecordComplete c ch) s = .next (s.completeRec c ch r) := exec_copyRecordComplete hrun hstop hrec hreg
    refine ⟨fun hnext hown => exec_copyRecordFetch_next hrun hstop hrec hreg hnext hown,
      fun n hnext hn => exec_copyRecordRegister_next hrun hstop hrec hreg hnext hn, fun _ => hexec,
      fun hpos haw => hexec.trans (congrArg _ (State.completeRec_awaits hq hpos haw)), fun s1 pa mt hpos haw htr => ?_⟩
    have hfin := hexec.trans (congrArg _ (State.completeRec_finishes hq hpos haw))
    refine ⟨fun ht => hfin.trans (congrArg _ (State.finishRec_trapped htr ht)), fun ht => ?_⟩
    intro y s2 s3 s4 hst t
    have hwrites := State.finishRec_writes (rest := rest) htr ht (y := y) rfl hst
    refine ⟨hfin.trans (congrArg _ hwrites), fun l hl => ?_, fun hlv hc => ?_, fun hlv hc hroom hall => ?_⟩
    · rw [State.locks_setChan] at hl
      exact (State.mem_locks_unlock ((State.mapKept_engineStore hst).locks c l hl)).2
    · exact (State.engineStore_release (x := y) hlv hst).1 hc
    · exact (State.engineStore_release (x := y) hlv hst).2 hc hroom hall

end Sys2Proof.Machine
end

section
/-! `fence`, `acq` and `rel` (R242, R244, R248, R270, R271). -/

namespace Sys2Proof.Machine

open Sys2Proof

/-! ### The acting group stays the same -/

theorem State.countAcc_cur (s : State) (k : Nat) (p : Path) : (s.countAcc k p).2.cur = s.cur := by
  unfold State.countAcc
  split <;> rfl

theorem State.acquireVec_cur (s : State) (k n : Nat) : (s.acquireVec k n).cur = s.cur := by
  unfold State.acquireVec
  split
  · rfl
  · split
    · rfl
    · dsimp only
      split <;> split <;> rfl

theorem State.acquire_cur (s : State) (k n : Nat) : (s.acquire k n).cur = s.cur := by
  unfold State.acquire
  dsimp only
  rw [State.acquireVec_cur]
  split <;> rfl

/-! ### The end of a release (R248) -/

/-- A release whose store is at its home ends, or waits for acknowledgements, once it awaits no lost pool region. -/
theorem endRelease_cases {t : State} {n : Nat} (hlost : t.lostAck t.cur n = none) :
    (t.acked t.cur n = true → ∀ g3, (t.publishVec t.cur n).grp = some g3 →
      t.endRelease t.cur n = ends (t.publishVec t.cur n) { g3 with relW := false })
    ∧ (t.acked t.cur n = false →
      t.endRelease t.cur n = .next { t with groups := upd t.groups t.cur (fun h => { h with relW := true }) }) := by
  unfold State.endRelease
  rw [hlost]
  exact ⟨fun hack g3 hg3 => (if_pos hack).trans (doneWith_ends hg3 _), fun hack => if_neg (by rw [hack]; exact Bool.false_ne_true)⟩

section
variable {s s1 : State} {g : Group} {sc : Scope} {d a : XReg} (hg : s.grp = some g)

/-! ### Acquires (R244, R271) -/

/-- What an acquire leaves that has found the values `lo` and `hi` of the two words from `w` on: it merges what they carry, drops
stale copies, and counts as one access. -/
def State.acquired (s : State) (w n : Nat) (p : Path) (lo hi : AcqWord) : State :=
  let m := (s.mergeRecords s.cur w lo.found).mergeRecords s.cur (w + 1) hi.found
  ((m.acquire m.cur n).countAcc m.cur p).2

include hg

theorem exec_acq_read {la : BitVec 4} {pa : Nat} {mt : Bool} (hchk : s.chkOrdered s.cur g (g.x a) 8 false anyMem = .ok s1 pa mt)
    (hclear : s1.parkedHit s1.cur (g.x a) 8 = false) :
    let lo := s1.acqWord s1.cur (pa / 4) (scopeNum sc) mt
    let hi := lo.1.acqWord lo.1.cur (pa / 4 + 1) (scopeNum sc) mt
    let t := hi.1.acquired (pa / 4) (scopeNum sc) (pathOfPa pa) lo.2 hi.2
    exec (.acq sc d a la) s = doneWith (t.consumeIf t.cur (lo.2.pois || hi.2.pois)) (fun g => g.setX d (hi.2.val ++ lo.2.val)) := by
  refine (withG_some hg _).trans ?_
  simp only [hchk, hclear, Bool.false_eq_true, if_false]
  rfl

/-! ### Fences (R270) -/

theorem exec_fence_performed (hrel : s.releasable g (scopeNum sc)) {g2 : Group}
    (hg2 : ((s.releasedAt (scopeNum sc)).acquire (s.releasedAt (scopeNum sc)).cur (scopeNum sc)).grp = some g2) :
    exec (.fence sc) s = ends ((s.releasedAt (scopeNum sc)).acquire (s.releasedAt (scopeNum sc)).cur (scopeNum sc)) g2 :=
  (withG_some hg _).trans ((withRelease_runs s g _ _ hrel).trans (doneWith_ends hg2 _))

/-! ### Releases (R248, R271) -/

theorem exec_rel_stored (hrelW : g.relW = true) : exec (.rel sc d a) s = s.endRelease s.cur (scopeNum sc) :=
  (withG_some hg _).trans (if_pos hrelW)

/-- A release whose accesses are performed makes its store (R248). -/
theorem exec_rel_performed {pa : Nat} {mt : Bool} (hrelW : g.relW = false)
    (hchk : s.chkOrdered s.cur g (g.x a) 8 true anyMem = .ok s1 pa mt) (hrel : s1.releasable g (scopeNum sc)) {s6 : State}
    (hact : let s2 := s1.pushOut s1.cur (scopeNum sc); s2.relAct s2.cur g (g.x a) pa mt (g.x d) = .ok s6) :
    let t := (s6.countAcc s6.cur (pathOfPa pa)).2
    exec (.rel sc d a) s = t.endRelease t.cur (scopeNum sc) := by
  obtain ⟨hlane, hlost, hperf⟩ := hrel
  intro t
  refine (withG_some hg _).trans ?_
  simp only [hrelW, hchk, awaitRelease, hlane, hlost, hperf, hact, Bool.false_eq_true, if_false, if_true]
  exact congrArg (fun k => t.endRelease k (scopeNum sc)) (s6.countAcc_cur _ _).symm

end

/-- The store of a release whose line is captured is tested at its home in its own step (R271). -/
theorem relAct_tested {s s3 s5 : State} {k pa : Nat} {g : Group} {va v : DWord} {q : StoreReq}
    (hcap : s.captureLine g.seat (pa / 4) (s.hidTag g.seat (pa / 4)).isSome = some s3)
    (hq : q = { ((s3.noteWrote g.seat (pa / 4)).noteWrote g.seat (pa / 4 + 1)).reqOf k g va pa with
      val := v.truncate 32, hid := s.hidTag g.seat (pa / 4), rel := true, pair := some (pa / 4 + 1, (v >>> 32).truncate 32) })
    (hstore : ((s3.noteWrote g.seat (pa / 4)).noteWrote g.seat (pa / 4 + 1)).relStore q = .ok s5) :
    s.relAct k g va pa false v = .ok (s5.stampDot k q.dot) := by
  subst hq
  simp only [State.relAct, hcap, hstore, Bool.false_eq_true, if_false]

/-- Settles O25: each instruction once nothing is outstanding at its scope, a release by its store and by the end of it. -/
theorem acquireRelease : Obligations.AcquireRelease := by
  unfold Obligations.AcquireRelease
  intro s s1 g sc d a la pa mt hg n va ended
  refine ⟨fun g2 hrel => exec_fence_performed hg hrel, fun hchk hclear => ?acq, fun hrelW => ?stored,
    fun hrelW hchk hrel => ⟨?test, fun s6 hact => ?performed⟩⟩
  case acq =>
    intro lo hi m1 m t g2 hg2
    have ht : hi.1.acquired (pa / 4) n (pathOfPa pa) lo.2 hi.2 = t := by
      simp only [t, m, m1, State.acquired, State.acquire_cur, State.mergeRecords_cur]
    rw [exec_acq_read hg hchk hclear, ht]
    exact doneWith_ends hg2 _
  case stored =>
    intro hlost
    rw [exec_rel_stored hg hrelW]
    exact endRelease_cases hlost
  case test =>
    rintro s3 s5 rfl hcap
    exact fun hstore => relAct_tested hcap rfl hstore
  case performed =>
    intro hlost
    rw [exec_rel_performed hg hrelW hchk hrel hact]
    exact endRelease_cases hlost

end Sys2Proof.Machine
end

section
/-! Scalar atomics (R265, R267, R273): performed at once, or left in flight to their place of performance. -/

namespace Sys2Proof.Machine

open Sys2Proof

section
variable {s : State} {g g2 : Group} (hg : s.grp = some g) {op : AtomOp} {sc : Scope} {d a b : XReg}

/-- What a scalar atomic asks of its place of performance (R265, R273). -/
def Group.amoReq (g : Group) (op : AtomOp) (sc : Scope) (d a b : XReg) : AtomReq :=
  { op := op, ty := amoTy op, sc := sc, addr := g.x a, b := (g.x b).truncate 32, cmp := (g.x d).truncate 32, xd := some d.toNat }

/-- An access that is issued and stays in flight takes its number on its path. -/
theorem issueAtom_ends (g : Group) {p : Path} (ws : List Nat) (r : AtomReq) (hg2 : (s.countAcc s.cur p).2.grp = some g2) :
    issueAtom s g p ws r = ends (s.countAcc s.cur p).2 { g2 with
      infl := g.infl ++ [{ lane := false, path := p, seq := (s.countAcc s.cur p).1, words := ws, atoms := [r] }] } :=
  doneWith_ends hg2 _

include hg

section
variable (hsc : scopeNum sc < 2) {t o : Nat} (hchk : s.chkSpadAtom g (g.x a) = .ok t o) (hclear : s.spadAtomHit g t o 4 = false)
include hsc hchk hclear

theorem exec_amo_spad {s1 : State} {old : Word} (hlate : g.late = false)
    (hatom : s.atomSpad g.seat t o op (amoTy op) ((g.x b).truncate 32) ((g.x d).truncate 32) = some (s1, old))
    (hg2 : (s1.countAcc s1.cur (spadPath s1.cur t)).2.grp = some g2) :
    exec (.amo op sc d a b) s = ends (s1.countAcc s1.cur (spadPath s1.cur t)).2 (g2.setAmo d (amoOld op old) 0) := by
  show execAmo op sc d a b s = _
  rw [execAmo, withG_some hg]
  simp only [if_pos hsc, hchk, hclear, hlate, hatom, Bool.false_eq_true, if_false]
  exact doneWith_ends hg2 _

theorem exec_amo_spad_late (hlate : g.late = true) (hg2 : (s.countAcc s.cur (spadPath s.cur t)).2.grp = some g2) :
    exec (.amo op sc d a b) s = ends (s.countAcc s.cur (spadPath s.cur t)).2 { g2 with
      infl := g.infl ++ [{ lane := false, path := spadPath s.cur t, seq := (s.countAcc s.cur (spadPath s.cur t)).1
                           atoms := [g.amoReq op sc d a b] }] } := by
  show execAmo op sc d a b s = _
  rw [execAmo, withG_some hg]
  simp only [if_pos hsc, hchk, hclear, hlate, Bool.false_eq_true, if_false, if_true]
  exact issueAtom_ends g _ _ hg2

end

section
variable (hsc : 2 ≤ scopeNum sc) {s1 : State} {pa : Nat} {mt : Bool}
  (hchk : s.chkOrdered s.cur g (g.x a) 4 true (scopePermits sc op) = .ok s1 pa mt) (hclear : s1.parkedHit s1.cur (g.x a) 4 = false)
include hsc hchk hclear

theorem exec_amo_global {s2 : State} {old : Word} {cnt : Nat} (hlate : g.late = false) (hclus : sc ≠ .clus)
    (hatom : s1.atomGlobal s1.cur (g.x a) (pa / 4) op (amoTy op) ((g.x b).truncate 32) ((g.x d).truncate 32) = some (s2, old, cnt))
    (hg2 : (s2.countAcc s2.cur (pathOfPa pa)).2.grp = some g2) :
    exec (.amo op sc d a b) s = ends (s2.countAcc s2.cur (pathOfPa pa)).2 (g2.setAmo d (amoOld op old) cnt) :=
  (exec_amo_home hg (Nat.not_lt.mpr hsc) hclus hlate hchk hclear hatom).trans (doneWith_ends hg2 _)

theorem exec_amo_global_late (hlate : g.late = true ∨ sc = .clus) (hg2 : (s1.countAcc s1.cur (pathOfPa pa)).2.grp = some g2) :
    exec (.amo op sc d a b) s = ends (s1.countAcc s1.cur (pathOfPa pa)).2 { g2 with
      infl := g.infl ++ [{ lane := false, path := pathOfPa pa, seq := (s1.countAcc s1.cur (pathOfPa pa)).1, words := [pa / 4]
                           atoms := [g.amoReq op sc d a b] }] } := by
  have hon : (g.late || decide (sc = .clus)) = true := by simpa using hlate
  show execAmo op sc d a b s = _
  rw [execAmo, withG_some hg]
  simp only [if_neg (Nat.not_lt.mpr hsc), hchk, hclear, isClus, hon, Bool.false_eq_true, if_false, if_true]
  exact issueAtom_ends g _ _ hg2

end

end

/-- Integer addition wraps (R267). -/
theorem atomNew_add_integer {t : Ty} (ht : t = .i32 ∨ t = .n32) (old b cmp : Word) :
    atomNew .add t old b cmp = BitVec.ofNat 32 (old.toNat + b.toNat) := by
  rcases ht with rfl | rfl <;> exact BitVec.add_def old b

/-- Settles O26: an atomic past its checks is performed at once or left in flight; what it leaves where it is performed, and the
table of R267, are those of the lanes' atomics. -/
theorem scalarAtomics : Obligations.ScalarAtomics := by
  unfold Obligations.ScalarAtomics
  refine ⟨fun s g g2 op sc d a b hg => ⟨fun t o hsc hchk hclear => ?spad, fun s1 pa mt hsc hchk hclear => ?global⟩,
    fun s s1 u t o op ty b cmp old => atomSpad_leaves, fun s s1 g k w cnt va op ty b cmp old => atomGlobal_leaves,
    fun t old b cmp => ?table, fun op => ?types⟩
  case spad =>
    exact ⟨fun s1 old hlate hatom hg2 => exec_amo_spad hg hsc hchk hclear hlate hatom hg2,
      fun hlate hg2 => exec_amo_spad_late hg hsc hchk hclear hlate hg2⟩
  case global =>
    exact ⟨fun s2 old cnt hlate hclus hatom hg2 => exec_amo_global hg hsc hchk hclear hlate hclus hatom hg2,
      fun hlate hg2 => exec_amo_global_late hg hsc hchk hclear hlate hg2⟩
  case table =>
    obtain ⟨hmin, hmax, hminn, hmaxn⟩ := integerExtremes old b cmp
    exact ⟨fun ht => atomNew_add_integer ht old b cmp, rfl, rwaddW_eq old b, hmin, hmax, hminn, hmaxn, floatExtremes old b cmp,
      rfl, rfl, rfl, rfl, rfl⟩
  case types => cases op <;> rfl

end Sys2Proof.Machine
end

section
/-! Bank operations and reductions on near memory (R275): the run of each over its range, the table of operations, and what each
reduction comes to. -/

namespace Sys2Proof.Machine

open Sys2Proof

/-! ### The run over a range -/

section
variable {s t : State} {g : Group} (hg : s.grp = some g) {op : BankOp} {d a b : XReg} {write : Bool} {act : Option (BankOp × Word)}
  {x : BankRun}
include hg

/-- A bank operation under way goes on from where it stands. -/
theorem withBank_stands (hx : g.bank = some x) (f : State → Group → BankRun → Res) : withBank s a b write act f = f s g x := by
  rw [withBank, withG_some hg, hx]

/-- A bank operation whose range passes its checks is registered and begins. -/
theorem withBank_begins (hnone : g.bank = none) (ha : (g.x a).toNat % 4 = 0) (hb : (g.x b).toNat % 4 = 0)
    (hlen : (g.x b).toNat ≤ 16777216) {s1 s2 : State} {ws : List Nat}
    (hnear : s.nearWords s.cur g write (g.x a) ((g.x b).toNat / 4) [] = .ok s1 ws) (hclear : s1.engineClear s1.cur g = true)
    (hlock : s1.tryLock (coreOf s1.cur) [{ sp := false, ctx := s1.ctxId g, lo := (g.x a).toNat
                                           hi := (g.x a).toNat + (g.x b).toNat, write := write, owner := .bank s1.cur }] = some s2)
    (f : State → Group → BankRun → Res) :
    withBank s a b write act f = f s2 g
      { words := ws, va := g.x a, dot := newDot s2 g, vec := storeVec g.vv (newDot s2 g), act := act } := by
  rw [withBank, withG_some hg, hnone]
  simp only [ha, hb, Nat.not_lt.mpr hlen, hnear, hclear, hlock, ne_eq, not_true_eq_false, decide_false, Bool.or_self, Bool.not_true,
    Bool.false_eq_true, if_false]

omit hg in
theorem bankDone_ends (f : Group → Group) {g2 : Group} (hg2 : (t.unlock (coreOf t.cur) (.bank t.cur)).grp = some g2) :
    bankDone t f = ends (t.unlock (coreOf t.cur) (.bank t.cur)) { f g2 with bank := none } := doneWith_ends hg2 _

/-- `bop` over the next words of its range: it ends with them, or goes on (R275). -/
theorem exec_bop_run (hrun : ∀ f, withBank s a b true (some (op, (g.x d).truncate 32)) f = f t g x) {u : State} {y : BankRun}
    (hbop : t.bopRun t.cur op ((g.x d).truncate 32) (bankWords g x) x = some (u, y)) :
    (y.words = [] → ∀ g2, (u.unlock (coreOf u.cur) (.bank u.cur)).grp = some g2 →
      exec (.bop op d a b) s = ends (u.unlock (coreOf u.cur) (.bank u.cur))
        { (if d = 0 then g2 else g2.setX (d + 1) (BitVec.ofNat 64 y.cnt)) with bank := none })
    ∧ (y.words ≠ [] → exec (.bop op d a b) s = .next { u with groups := upd u.groups u.cur (fun h => { h with bank := some y }) }) := by
  have hexec : exec (.bop op d a b) s = if y.words.isEmpty then
      bankDone u (fun g => if d = 0 then g else g.setX (d + 1) (BitVec.ofNat 64 y.cnt))
      else .next { u with groups := upd u.groups u.cur (fun h => { h with bank := some y }) } := by
    show execBop op d a b s = _
    rw [execBop, hg, Option.map_some, hrun, hbop]
  rw [hexec]
  exact ⟨fun hend g2 hg2 => (if_pos (List.isEmpty_iff.mpr hend)).trans (bankDone_ends _ hg2),
    fun hmore => if_neg (fun h => hmore (List.isEmpty_iff.mp h))⟩

omit hg in
/-- `bred` over the next words of its range: it ends with them, or goes on (R275). -/
theorem exec_bred_run (hrun : ∀ f, withBank s a b false none f = f t g x) :
    let r := t.bredRun t.cur (bankWords g x) x
    let u := r.1.consumeIf r.1.cur r.2.pois
    (r.2.words = [] → ∀ g2, (u.unlock (coreOf u.cur) (.bank u.cur)).grp = some g2 →
      exec (.bred op d a b) s = ends (u.unlock (coreOf u.cur) (.bank u.cur))
        { (if d = 0 then g2 else (g2.setX d (bankReduce op r.2.vals)).setX (d + 1) (BitVec.ofNat 64 r.2.cnt)) with bank := none })
    ∧ (r.2.words ≠ [] →
      exec (.bred op d a b) s = .next { r.1 with groups := upd r.1.groups r.1.cur (fun h => { h with bank := some r.2 }) }) := by
  intro r u
  have hexec : exec (.bred op d a b) s = if r.2.words.isEmpty then
      bankDone u (fun g => if d = 0 then g else (g.setX d (bankReduce op r.2.vals)).setX (d + 1) (BitVec.ofNat 64 r.2.cnt))
      else .next { r.1 with groups := upd r.1.groups r.1.cur (fun h => { h with bank := some r.2 }) } := by
    show execBred op d a b s = _
    rw [execBred, hrun]
  rw [hexec]
  exact ⟨fun hend g2 hg2 => (if_pos (List.isEmpty_iff.mpr hend)).trans (bankDone_ends _ hg2),
    fun hmore => if_neg (fun h => hmore (List.isEmpty_iff.mp h))⟩

end

/-! ### Reductions of integers and bits (R145, R275) -/

/-- A residue word from numbers that its parts are congruent to (R161). -/
def rwOf (a b c : Nat) : Word := BitVec.ofNat 32 (a % 256 + b % 255 * 2 ^ 8 + c % 257 * 2 ^ 16)

theorem rwaddW_rwOf (a b c : Nat) (w : Word) :
    rwaddW (rwOf a b c) w = rwOf (a + w.toNat / 2 ^ 0 % 2 ^ 8) (b + w.toNat / 2 ^ 8 % 2 ^ 8) (c + w.toNat / 2 ^ 16 % 2 ^ 9) := by
  have hnat : (rwOf a b c).toNat = a % 256 + b % 255 * 2 ^ 8 + c % 257 * 2 ^ 16 :=
    (BitVec.toNat_ofNat _ _).trans (Nat.mod_eq_of_lt (by omega))
  generalize hn : (rwOf a b c).toNat = n at hnat
  have h0 : n / 2 ^ 0 % 2 ^ 8 = a % 256 := by omega
  have h1 : n / 2 ^ 8 % 2 ^ 8 = b % 255 := by omega
  have h2 : n / 2 ^ 16 % 2 ^ 9 = c % 257 := by omega
  rw [rwaddW_eq]
  dsimp only
  rw [hn, h0, h1, h2, Nat.mod_add_mod, Nat.mod_add_mod, Nat.mod_add_mod, rwOf]

/-- The parts of a sum of residue words are the sums of the parts, each for its modulus. -/
theorem foldl_bankNew_addRw (l : List Word) (a b c : Nat) :
    let part (lo n : Nat) : Nat := (l.map (fun w => w.toNat / 2 ^ lo % 2 ^ n)).sum
    l.foldl (bankNew .addRw) (rwOf a b c) = rwOf (a + part 0 8) (b + part 8 8) (c + part 16 9) := by
  induction l generalizing a b c with
  | nil => rfl
  | cons w l ih =>
    have hstep : bankNew .addRw (rwOf a b c) w = _ := rwaddW_rwOf a b c w
    dsimp only at ih ⊢
    rw [List.foldl_cons, hstep, ih]
    simp only [List.map_cons, List.sum_cons, Nat.add_assoc]

theorem bankReduce_addRw (l : List Word) :
    let ch (lo n m : Nat) : Nat := (l.map (fun w => w.toNat / 2 ^ lo % 2 ^ n)).sum % m
    bankReduce .addRw l = BitVec.ofNat 64 (ch 0 8 256 + ch 8 8 255 * 2 ^ 8 + ch 16 9 257 * 2 ^ 16) := by
  intro ch
  have hfold := foldl_bankNew_addRw l 0 0 0
  simp only [Nat.zero_add] at hfold
  have hres : bankReduce .addRw l = (rwOf _ _ _).zeroExtend 64 := congrArg (BitVec.zeroExtend 64) hfold
  rw [hres]
  refine BitVec.eq_of_toNat_eq ?_
  simp only [rwOf, BitVec.toNat_setWidth, BitVec.toNat_ofNat, ch]
  omega

/-- The least and greatest of the words of a range, as signed and as unsigned numbers. -/
theorem bankReduce_extremes (l : List Word) :
    (bankReduce .min l).toInt = (l.map BitVec.toInt).foldl min (2 ^ 31 - 1)
    ∧ (bankReduce .max l).toInt = (l.map BitVec.toInt).foldl max (-2 ^ 31)
    ∧ (bankReduce .minn l).toNat = (l.map BitVec.toNat).foldl min (2 ^ 32 - 1)
    ∧ (bankReduce .maxn l).toNat = (l.map BitVec.toNat).foldl max 0 := by
  refine ⟨?_, ?_, ?_, ?_⟩
  · exact (BitVec.toInt_signExtend_of_le (by decide)).trans
      (map_foldl_pick _ _ BitVec.toInt (fun x y => (integerExtremes x y 0).1) l _)
  · exact (BitVec.toInt_signExtend_of_le (by decide)).trans
      (map_foldl_pick _ _ BitVec.toInt (fun x y => (integerExtremes x y 0).2.1) l _)
  · exact (BitVec.toNat_setWidth_of_le (by decide)).trans
      (map_foldl_pick _ _ BitVec.toNat (fun x y => (integerExtremes x y 0).2.2.1) l _)
  · exact (BitVec.toNat_setWidth_of_le (by decide)).trans
      (map_foldl_pick _ _ BitVec.toNat (fun x y => (integerExtremes x y 0).2.2.2) l _)

/-- The bitwise reductions, bit by bit; no word has a bit at or above 32. -/
theorem bankReduce_bitwise (l : List Word) (j : Nat) (hj : j < 64) :
    (bankReduce .and l).getLsbD j = (decide (j < 32) && l.all (·.getLsbD j))
    ∧ (bankReduce .or l).getLsbD j = l.any (·.getLsbD j)
    ∧ (bankReduce .xor l).getLsbD j = decide (l.countP (·.getLsbD j) % 2 = 1) := by
  have hzero : (0 : Word).getLsbD j = false := BitVec.getLsbD_zero
  have hwide (w : Word) : (w.zeroExtend 64).getLsbD j = w.getLsbD j := by
    rw [BitVec.getLsbD_setWidth, decide_eq_true hj, Bool.true_and]
  refine ⟨(hwide _).trans ?_, (hwide _).trans ?_, (hwide _).trans ?_⟩
  · exact (getLsbD_foldl_and l _ j).trans (congrArg (· && _) (BitVec.getLsbD_allOnes (v := 32)))
  · exact (getLsbD_foldl_lor l _ j).trans (by rw [show bankId .or = 0 from rfl, hzero, Bool.false_or])
  · exact (getLsbD_foldl_xor l _ j).trans (by rw [show bankId .xor = 0 from rfl, hzero, Bool.false_xor])

/-! ### Exact sums of floats (R160, R275) -/

theorem isInf_iff {n : Bool} {x : Fl} : isInf n x = true ↔ x = .inf n := by
  cases x <;> simp [isInf]

theorem any_isInf {n : Bool} {xs : List Fl} : xs.any (isInf n) = true ↔ Fl.inf n ∈ xs := by
  simp only [List.any_eq_true, isInf_iff, exists_eq_right]

/-- A NaN, or both infinities, make a sum a NaN. -/
theorem flSum_nan {xs : List Fl} (h : (∃ x ∈ xs, isNan x = true) ∨ (Fl.inf false ∈ xs ∧ Fl.inf true ∈ xs)) : flSum xs = .nan := by
  rw [← any_isInf, ← any_isInf, ← List.any_eq_true, ← Bool.and_eq_true, ← Bool.or_eq_true] at h
  exact if_pos h

/-- Without NaNs and the infinities of one sign, a sum is the other infinity where one stands in it, else the exact sum. -/
theorem flSum_of_no_nan {xs : List Fl} (hnan : ∀ x ∈ xs, isNan x = false) {n : Bool} (hinf : ∀ x ∈ xs, x ≠ .inf n) :
    flSum xs = if xs.any (isInf (!n)) then .inf (!n)
      else if (xs.map (inUnits (leastExp xs))).sum = 0 then .fin (xs.all isNegZero) 0 0
      else .fin (decide ((xs.map (inUnits (leastExp xs))).sum < 0)) (xs.map (inUnits (leastExp xs))).sum.natAbs (leastExp xs) := by
  have hnan' : xs.any isNan = false := by simpa using hnan
  have hinf' : xs.any (isInf n) = false := by
    rw [Bool.eq_false_iff, ne_eq, any_isInf]
    exact fun h => hinf _ h rfl
  unfold flSum
  cases n
  · simp only [hnan', hinf', Bool.false_and, Bool.or_self, Bool.false_eq_true, if_false, Bool.not_false]
  · simp only [hnan', hinf', Bool.and_false, Bool.or_self, Bool.false_eq_true, if_false, Bool.not_true]

theorem flSum_inf {xs : List Fl} {n : Bool} (h : ∀ x ∈ xs, isNan x = false ∧ x ≠ .inf (!n)) (hn : Fl.inf n ∈ xs) :
    flSum xs = .inf n := by
  rw [flSum_of_no_nan (fun x hx => (h x hx).1) (fun x hx => (h x hx).2), Bool.not_not]
  exact if_pos (any_isInf.mpr hn)

/-- The least exponent lies at or below 0 and every exponent, and is the greatest that does. -/
theorem le_leastExp_iff (u : Int) (xs : List Fl) : u ≤ leastExp xs ↔ u ≤ 0 ∧ ∀ x ∈ xs, ∀ p q k, x = .fin p q k → u ≤ k := by
  induction xs with
  | nil => simp [leastExp]
  | cons y r ih =>
    rw [List.forall_mem_cons]
    cases y with
    | nan => simpa [leastExp] using ih
    | inf => simpa [leastExp] using ih
    | fin p q k =>
      have hy : (∀ p' q' k', Fl.fin p q k = .fin p' q' k' → u ≤ k') ↔ u ≤ k :=
        ⟨fun h => h p q k rfl, fun h _ _ _ he => by cases he; exact h⟩
      rw [leastExp, le_min_iff, ih, hy]
      tauto

/-- A value in smaller units. -/
theorem inUnits_smaller {u lo : Int} (hu : u ≤ lo) {x : Fl} (hlo : ∀ p q k, x = .fin p q k → lo ≤ k) :
    inUnits u x = inUnits lo x * 2 ^ (lo - u).toNat := by
  cases x with
  | nan => exact (zero_mul _).symm
  | inf => exact (zero_mul _).symm
  | fin p q k =>
    have hk := hlo p q k rfl
    have hexp : (k - u).toNat = (k - lo).toNat + (lo - u).toNat := by omega
    simp only [inUnits, hexp, pow_add, Nat.cast_mul, Nat.cast_pow, Nat.cast_ofNat, mul_assoc]

theorem sum_inUnits_smaller {u lo : Int} (hu : u ≤ lo) {xs : List Fl} (hlo : ∀ x ∈ xs, ∀ p q k, x = .fin p q k → lo ≤ k) :
    (xs.map (inUnits u)).sum = (xs.map (inUnits lo)).sum * 2 ^ (lo - u).toNat := by
  rw [← List.sum_map_mul_right]
  exact congrArg List.sum (List.map_congr_left (fun x hx => inUnits_smaller hu (hlo x hx)))

/-- A sum of finite values is exact: in any units that its terms are whole numbers of, it is their sum. A zero sum is −0 where every
term is. -/
theorem flSum_finite {xs : List Fl} (h : ∀ x ∈ xs, isNan x = false ∧ x ≠ .inf false ∧ x ≠ .inf true) :
    ∃ n m e, flSum xs = .fin n m e ∧ (m = 0 → (n = true ↔ ∀ x ∈ xs, isNegZero x = true))
      ∧ ∀ u ≤ e, (∀ x ∈ xs, ∀ p q k, x = .fin p q k → u ≤ k) →
        (if n then -(m : Int) else m) * 2 ^ (e - u).toNat = (xs.map (inUnits u)).sum := by
  have hleast := (le_leastExp_iff (leastExp xs) xs).mp le_rfl
  have hno : ¬ (xs.any (isInf true) = true) := fun hi => (h _ (any_isInf.mp hi)).2.2 rfl
  rw [flSum_of_no_nan (fun x hx => (h x hx).1) (n := false) (fun x hx => (h x hx).2.1), Bool.not_false, if_neg hno]
  generalize hv : (xs.map (inUnits (leastExp xs))).sum = v
  by_cases h0 : v = 0
  · refine ⟨_, _, _, if_pos h0, fun _ => List.all_eq_true, fun u hu hk => ?_⟩
    rw [sum_inUnits_smaller ((le_leastExp_iff u xs).mpr ⟨hu, hk⟩) hleast.2, hv, h0]
    simp
  · refine ⟨_, _, _, if_neg h0, fun hm => (h0 (Int.natAbs_eq_zero.mp hm)).elim, fun u hu _ => ?_⟩
    rw [sum_inUnits_smaller hu hleast.2, hv]
    congr 1
    by_cases hneg : v < 0
    · simp only [hneg, decide_true, if_true]
      omega
    · simp only [hneg, decide_false, Bool.false_eq_true, if_false]
      omega

/-- Settles O27: the run of each operation from its begin or from where it stands, the table word by word, and each reduction of a
list of words. -/
theorem bankOperations : Obligations.BankOperations := by
  unfold Obligations.BankOperations
  refine ⟨fun s g op d a b hg => ?run, fun w b => ?table, fun l => ?reductions⟩
  case run =>
    intro out more bops breds
    have hbop {t : State} {x : BankRun} (hrun : ∀ f, withBank s a b true (some (op, (g.x d).truncate 32)) f = f t g x) : bops t x :=
      fun u y hy => ⟨fun hend g2 hg2 => (exec_bop_run hg hrun hy).1 hend g2 hg2, (exec_bop_run hg hrun hy).2⟩
    have hbred {t : State} {x : BankRun} (hrun : ∀ f, withBank s a b false none f = f t g x) : breds t x :=
      ⟨fun hend g2 hg2 => (exec_bred_run hrun).1 hend g2 hg2, (exec_bred_run hrun).2⟩
    refine ⟨fun x hx => ⟨hbop (withBank_stands hg hx), hbred (withBank_stands hg hx)⟩, ?_⟩
    intro hnone ha hb hlen write s1 ws s2 hnear hclear hlock x
    refine ⟨?_, ?_⟩
    · rintro rfl
      exact hbop (withBank_begins hg hnone ha hb hlen hnear hclear hlock)
    · rintro rfl
      exact hbred (withBank_begins hg hnone ha hb hlen hnear hclear hlock)
  case table =>
    obtain ⟨hmin, hmax, hminn, hmaxn⟩ := integerExtremes w b 0
    exact ⟨rfl, atomNew_add_integer (.inl rfl) w b 0, rfl, rwaddW_eq w b, hmin, hmax, hminn, hmaxn, rfl, rfl, rfl⟩
  case reductions =>
    obtain ⟨hmin, hmax, hminn, hmaxn⟩ := bankReduce_extremes l
    exact ⟨rfl, rfl, flSum_nan, fun n => flSum_inf, flSum_finite, bankReduce_addRw l, hmin, hmax, hminn, hmaxn,
      fun j => bankReduce_bitwise l j⟩

end Sys2Proof.Machine
end

section
/-! A refutation of O56: a rollback restores a captured word of memory that is no cell, and then takes back the hidden writes of its
team (R385). A line of the core's L1 that holds no hidden word any more leaves it (log 109), and what stands dirty in the line goes home.
Where another team's store to the restored word is on its way to its home, that store is performed now, and memory holds its value and
not the captured one. -/

namespace Sys2Proof.Machine

open Sys2Proof

/-- The first word of pool region 0. -/
def poolWord : Nat := 2 ^ 42

/-- The one open level of team 0: it captured the first line of the region with 9 in each word, and wrote the first word. -/
def capturingLevel : Level :=
  { endA := 0x20000, errA := 0x20010, alts := [0x20020], limit := 0, caps := [.line (2 ^ 37) (List.replicate 32 9)], wrote := [poolWord] }

/-- A 64-bit store of group 1, of another team, on its way to the first two words of the region. -/
def racingStore : StoreReq :=
  { core := 0, grp := 1, w := poolWord, val := 7, pair := some (poolWord + 1, 8), dot := { serial := 2, time := 1 }, vec := {} }

/-- The L1 of core 0: the two words of the store, and in their line a word that team 0 hides, from when the region was of the
versioned family. -/
def racedLine : Map L1Word :=
  [(poolWord, { val := 7, mask := 0xf, grp := 1, dot := racingStore.dot }),
    (poolWord + 1, { val := 8, mask := 0xf, grp := 1, dot := racingStore.dot }),
    (poolWord + 2, { val := 5, mask := 0xf, reg := true, hid := some { team := 0, conv := 0, level := 1 }, whole := true })]

/-- Two teams on core 0, with a pool region that is mapped plain; the alternate of the first has failed. -/
def raced : State :=
  { State.reset with
    regions := [(0, { mode := 1 })]
    groups := [(0, { seat := 0, gw := 8, k0 := 0xff, pc := 0x10000 }), (1, { seat := 1, gw := 8, k0 := 0xff, pc := 0x10000 })]
    teams := [(0, { ctx := 1, levels := [capturingLevel], fail := some { level := 1, cause := 3 } }), (1, { ctx := 1 })]
    ctxs := [(1, {})]
    cores := [(0, { l1 := racedLine })]
    regQ := [racingStore] }

/-- The captured value comes back, and the store of the other team overtakes it as the line leaves. -/
theorem word_rollTeam_raced :
    (raced.restoreLevel capturingLevel).word poolWord = 9
    ∧ ((raced.restoreLevel capturingLevel).dropHidden 0 1 (fun _ => true)).word poolWord = 7
    ∧ (raced.rollTeam 0).word poolWord = 7 := by decide

/-- Refutes O56: its clause on `alternateRollback` says that a word which the alternate wrote, and which is no cell, holds the captured
value afterwards, whatever the L1s hold and whatever is on its way to the homes. -/
theorem not_teamEvents : ¬ Obligations.TeamEvents := by
  unfold Obligations.TeamEvents
  intro h
  obtain ⟨-, -, -, -, hroll, -⟩ := h raced raced 0 0 0
  have hquiet : (raced.dropParked 0 1).canRoll 0 = true := by decide
  obtain ⟨u, hu, -, -, hword⟩ := (hroll _ rfl).2 _ _ rfl rfl rfl rfl hquiet
  have hexec : exec (.alternateRollback 0) raced = .next (raced.rollTeam 0) := rfl
  obtain rfl : raced.rollTeam 0 = u := Host.Outcome.next.inj (hexec.symm.trans hu)
  have hnine : (raced.rollTeam 0).word poolWord = (List.replicate 32 9).getD 0 0 :=
    hword poolWord (2 ^ 37) 0 _ rfl (by decide) List.mem_cons_self (fun z hz => (Cap.line.inj (List.mem_singleton.mp hz)).2)
      (by decide) (by decide) (by decide) (by decide)
  obtain ⟨-, -, hseven⟩ := word_rollTeam_raced
  exact absurd (hseven.symm.trans hnine) (by decide)

end Sys2Proof.Machine
end

section
/-! Edges and quiesce points of graphs, retirement of parts, the forced takeover of a command processor, and links that fail (R259 to
R262, R435, R454, R457, R458, R460, R461, R465, R466). -/

namespace Sys2Proof.Machine

open Sys2Proof

/-! ### Edges (R259, R262, R454) -/

/-- The producer's side of an edge is done (R259, R261, R262): its regions are cleaned, and where the edge asks for a quiesce point
there is one, at which the pages of a local edge with a placement hint move. -/
def State.producerSide (s : State) (g : Graph) (e : Edge) : State :=
  let cx := nodeCtx g e.src
  let t := s.cleanEdge cx e
  let u := if e.flags % 2 = 1 then t.quiesceNow cx else t
  if e.flags = 3 ∧ s.remote e = false then u.moveFlows cx e else u

section
variable {s : State} {i n : Nat} {g : Graph} {e : Edge} (hsat : e.sat = false)
include hsat

section
variable (hopen : g.ended = false) (hdone : s.nodeEnded i e.src = true) (hquiet : e.flags % 2 = 1 → s.quiet (nodeCtx g e.src) = true)
include hopen hdone hquiet

/-- An edge whose producer has ended, and whose context is quiet where it asks for a quiesce point, does not wait. -/
theorem edge_ready :
    (e.sat || g.ended || !(s.nodeEnded i e.src) || (e.flags % 2 = 1 && !(s.quiet (nodeCtx g e.src)))) = false := by
  rw [hsat, hopen, hdone]
  by_cases hq : e.flags % 2 = 1
  · rw [hquiet hq]; simp
  · simp [hq]

variable (hg : find s.graphs i = some g) (he : g.edges[n]? = some e)
include hg he

theorem exec_graphEdgeSatisfy_near (hnear : s.remote e = false) :
    exec (.graphEdgeSatisfy i n) s = .next (((s.producerSide g e).satisfy i n).finishGraph i 0 0) := by
  show execGraphEdgeSatisfy i n s = _
  rw [execGraphEdgeSatisfy, hg]
  dsimp only
  rw [he]
  dsimp only
  rw [edge_ready hsat hopen hdone hquiet, if_neg Bool.false_ne_true]
  simp only [State.producerSide, hnear, Bool.not_false, Bool.and_true, decide_eq_true_eq, and_true, if_true]

/-- A far edge's copies leave with its signal (R454). -/
theorem exec_graphEdgeSatisfy_far (hfar : s.remote e = true) {w : State} {c : List (DWord × List Byte)}
    (hcopy : (s.producerSide g e).copyOut (nodeCtx g e.src) e.regs [] = .ok w c) :
    exec (.graphEdgeSatisfy i n) s = .next (((w.sendEdge i n e (nodeCtx g e.src) c).satisfy i n).finishGraph i 0 0) := by
  simp only [State.producerSide, hfar, Bool.true_eq_false, and_false, if_false] at hcopy
  show execGraphEdgeSatisfy i n s = _
  rw [execGraphEdgeSatisfy, hg]
  dsimp only
  rw [he]
  dsimp only
  rw [edge_ready hsat hopen hdone hquiet, if_neg Bool.false_ne_true]
  simp only [hfar, Bool.not_true, Bool.and_false, Bool.false_eq_true, if_false, hcopy]

end

/-- A signal from the producer's device satisfies an edge whose consumer runs here (R454). -/
theorem exec_remoteEdgeSignal (hg : find s.graphs i = some g) (he : g.edges[n]? = some e) (hnear : s.remote e = false) : exec (.remoteEdgeSignal i n) s = .next (s.satisfy i n) := by
  show execRemoteEdgeSignal i n s = _
  rw [execRemoteEdgeSignal, hg, Option.bind_some, he]
  simp only [hsat, hnear, Bool.or_self, Bool.false_eq_true, if_false]

end

/-! ### Quiesce points (R261) -/

theorem exec_quiescePoint {s : State} {i : Nat} {q : Quiesce} (hq : s.quiesces.find? (fun q => q.ctx = i && !q.ended) = some q)
    (hafter : ∀ u ∈ q.after, u ∉ s.openWork i) (hquiet : s.quiet i = true) :
    exec (.quiescePoint i) s = .next (({ s.quiesceNow i with quiesces := endQuiesce i (s.quiesceNow i).quiesces } : State).complete
      q.ch q.tag 4 0 []) := by
  have hdone : (q.after.any (fun u => (s.openWork i).contains u) || !(s.quiet i)) = false := by
    simpa [hquiet] using hafter
  show execQuiescePoint i s = _
  rw [execQuiescePoint, hq]
  dsimp only
  rw [hdone, if_neg Bool.false_ne_true]

/-! ### Retirement (R435, R457, R458, R466) -/

section
variable {s : State} {n : Nat} {p : Part} {t : DWord}

theorem exec_retireApply (hp : s.retireQ[n]? = some (p, t)) (hfree : s.partFree p = true) :
    exec (.retireApply n) s = .next (s.retirePart p) := by
  show execRetireApply n s = _
  rw [execRetireApply, hp]
  dsimp only
  rw [if_pos hfree]

/-- Teams still on a part 1 s after its retirement was requested are pre-empted (R466). -/
theorem exec_retireTimeout (hp : s.retireQ[n]? = some (p, t)) (hlate : t.toNat + 1000000000 ≤ s.tsc.toNat) (hkind : p.kind ≠ 4) :
    exec (.retireTimeout n) s = .next ((s.teamsOn p).foldl (fun s u => s.cpPreempt u) s) := by
  show execRetireTimeout n s = _
  rw [execRetireTimeout, hp]
  dsimp only
  rw [decide_eq_false (Nat.not_lt.mpr hlate), decide_eq_false hkind]
  exact if_neg Bool.false_ne_true

end

/-! ### Links (R460, R461) -/

theorem exec_ulunoezLinkFailed {s : State} {n : Nat} (hn : n < 24) : exec (.ulunoezLinkFailed n) s = .next (s.linkDown n) :=
  congrArg _ (if_pos hn)

/-- A link's spare lane takes the first failed lane's place; with the next one the link goes down (R460). -/
theorem exec_ulunoezLaneFailed {s : State} {n : Nat} (hn : n < 24) (hup : (sget {} s.links n).up = true) (lane : Nat) :
    exec (.ulunoezLaneFailed n lane) s = .next (
      if (sget {} s.links n).spare = true then s.linkDown n
      else ({ s with links := sset {} s.links n { sget {} s.links n with spare := true } } : State).post (0x3100 + n) 20
        (BitVec.ofNat 64 n) (BitVec.ofNat 64 lane)) := by
  show execUlunoezLaneFailed n lane s = _
  rw [execUlunoezLaneFailed]
  dsimp only
  rw [decide_eq_false (Nat.not_le.mpr hn), hup, Bool.not_true, Bool.or_self, if_neg Bool.false_ne_true]
  split <;> rfl

/-- Settles O60, one event at a time. -/
theorem graphRetireEvents : Obligations.GraphRetireEvents := by
  unfold Obligations.GraphRetireEvents
  intro s i n
  refine ⟨fun g e hg he hsat => ⟨fun hopen hdone hquiet => ⟨?near, fun hfar w c => ?far⟩, exec_remoteEdgeSignal hsat hg he⟩,
    fun q hq hafter hquiet => exec_quiescePoint hq hafter hquiet,
    fun p t hp => ⟨exec_retireApply hp, exec_retireTimeout hp⟩, fun p t hp => ?takeover,
    fun hn lane => ⟨exec_ulunoezLinkFailed hn, fun hup => exec_ulunoezLaneFailed hn hup lane⟩⟩
  case near => exact exec_graphEdgeSatisfy_near hsat hopen hdone hquiet hg he
  case far => exact exec_graphEdgeSatisfy_far hsat hopen hdone hquiet hg he hfar
  case takeover =>
    show execCpTakeoverForced s = _
    rw [execCpTakeoverForced, hp]
    rfl

end Sys2Proof.Machine
end

section
/-! SUPPORT. What a collapse leaves (R283, R288, R301): of a cell without hidden writes one value at rest, and of its group the vector
that every sibling's dot is merged into; and what leaves every group's vector as it stands. -/

namespace Sys2Proof.Machine

open Sys2Proof
open State (HomeOnly AllKept)

/-- A group whose write of dot `d` has collapsed the siblings of a view (R281, R283, R301). -/
def Group.reconciled (g : Group) (v : List CellVal) (d : Dot) : Group :=
  { g with vv := v.foldl (fun m c => mergeDot m c.dot) { g.vv with own := d } }

/-- `t` has the acting group of `s`, and every group's vector as it stands in `s`. -/
def State.VecsKept (s t : State) : Prop := t.cur = s.cur ∧ ∀ k, (find t.groups k).map Group.vv = (find s.groups k).map Group.vv

namespace State

/-! ### A cell at rest at one value (R286, R503) -/

/-- A cell has a record without siblings, with dot `d` and prior value `p`. -/
def Rests (s : State) (w : Nat) (d : Dot) (p : Option Word) : Prop :=
  ∃ r, find s.cells w = some r ∧ r.vals = [] ∧ r.dot = d ∧ r.prior = p

theorem Rests.cellRec {s : State} {w : Nat} {d : Dot} {p : Option Word} (h : s.Rests w d p) :
    (s.cellRec w).vals = [] ∧ (s.cellRec w).dot = d ∧ (s.cellRec w).prior = p := by
  obtain ⟨r, hr, hrec⟩ := h
  rwa [cellRec_of_find hr]

theorem Rests.of_cells {s t : State} {w : Nat} {d : Dot} {p : Option Word} (h : s.Rests w d p) (hcells : t.cells = s.cells) :
    t.Rests w d p := by rwa [Rests, hcells]

/-- One ordinary value comes to rest over the value that it replaced, or over the base. -/
theorem rests_settle (s : State) (w : Nat) {r : CellRec} {v : CellVal} (hr : r.vals = [v]) (hv : v.ordinary) :
    (s.settle w r).Rests w v.dot (v.prior.or r.base) := by
  have hrest : (v.hid.isNone && v.disp.isEmpty) = true := by rw [hv.1, hv.2]; rfl
  unfold settle
  simp only [hr, hrest, if_true]
  refine ⟨_, (find_cells_touchLine _ w _).trans ((find_put _ _ _ _).trans (if_pos rfl)), rfl, rfl, ?_⟩
  cases v.prior <;> rfl

/-- Evicting vector records leaves a cell the rest of its record (R285). -/
theorem find_evictRecs (s : State) (k n : Nat) {w : Nat} {r : CellRec} (h : find s.cells w = some r) :
    ∃ vs, find (s.evictRecs k n).cells w = some { r with vrec := vs } := by
  induction n generalizing s r with
  | zero => exact ⟨r.vrec, h⟩
  | succ n ih =>
    unfold evictRecs
    split
    · exact ⟨r.vrec, h⟩
    · split
      · exact ⟨r.vrec, h⟩
      · next u v _ =>
        by_cases hu : w = u
        · subst hu
          exact ih _ (r := { r with vrec := r.vrec.erase v }) ((find_upd _ _ _ _).trans (by rw [if_pos rfl, h]; rfl))
        · exact ih _ ((find_upd _ _ _ _).trans ((if_neg hu).trans h))

/-- A cell with one ordinary value, placed where vector records have made room for it, comes to rest at it. -/
theorem rests_placed {s u : State} {w k : Nat} {r : CellRec} {v : CellVal} (hr : r.vals = [v]) (hv : v.ordinary)
    (hroom : (s.setRec w r).makeRoom k = some u) (d : BitVec 40) :
    ((u.settle w (u.cellRec w)).touchLine (w / 32) d).Rests w v.dot (v.prior.or r.base) := by
  obtain ⟨vs, hu⟩ := (s.setRec w r).find_evictRecs k 4096 ((find_put _ _ _ _).trans (if_pos rfl))
  rw [← makeRoom_some hroom] at hu
  obtain ⟨c, hc, hrest⟩ := u.rests_settle w (r := { r with vrec := vs }) hr hv
  rw [cellRec_of_find hu]
  exact ⟨c, (find_cells_touchLine _ w d).trans hc, hrest⟩

/-- Where one ordinary value is all that a write leaves of a cell, the cell comes to rest at it. -/
theorem rests_applyVals {s t : State} {w : Nat} {nv : CellVal} {p b : Option Word} {rv : Option VVec} (hnv : nv.ordinary)
    (h : s.applyVals w nv ([{ nv with prior := p }], b) rv = some t) : t.Rests w nv.dot (p.or b) := by
  have hord : CellVal.ordinary { nv with prior := p } := hnv
  unfold applyVals at h
  dsimp only at h
  split at h
  · cases h
  · rw [withVals, if_neg (by rw [isSet_single hord]; exact Bool.false_ne_true)] at h
    dsimp only at h
    split at h
    · cases h
    · next u hroom =>
      split at h
      · cases h
        exact rests_placed rfl hord hroom nv.dot.time
      · cases h

/-! ### A collapse at its home (R288, R301) -/

/-- An ordinary value that takes the place of a whole view of ordinary values is all that a cell keeps. -/
theorem collapsed_ordinary {all : List CellVal} {nv : CellVal} (r : CellRec) (cv : Option Nat) (hall : ∀ x ∈ all, x.ordinary)
    (hnv : nv.ordinary) : collapsed r all (all.filter (inView cv)) nv = ([{ nv with prior := r.base }], r.base) := by
  have hview : all.filter (inView cv) = all := List.filter_eq_self.mpr (fun x hx => by
    obtain ⟨hhid, hdisp⟩ := hall x hx
    simp [inView, hhid, hdisp])
  rw [hview, collapsed, displace_all hnv.1, List.nil_append]

/-- A collapse of ordinary values into an ordinary value leaves that value, its prior value the base. -/
theorem applyCollapse_ordinary {s t : State} {w : Nat} {cv : Option Nat} {nv : CellVal} (hall : ∀ x ∈ s.allVals w, x.ordinary)
    (hnv : nv.ordinary) (h : s.applyCollapse w cv nv = some t) :
    t.word w = nv.val ∧ t.Rests w nv.dot (s.cellRec w).base := by
  unfold applyCollapse at h
  dsimp only at h
  rw [collapsed_ordinary _ cv hall hnv] at h
  have hrest := rests_applyVals hnv h
  rw [Option.or_self] at hrest
  exact ⟨(applyVals_single hnv h).1, hrest⟩

theorem homeOnly_applyCollapse {s t : State} {w : Nat} {cv : Option Nat} {nv : CellVal} (h : s.applyCollapse w cv nv = some t) :
    HomeOnly s t := by
  unfold applyCollapse at h
  exact homeOnly_applyVals h

/-! ### A collapse outside every block -/

section
variable {s : State} {k : Nat} (h : s.depth k = 0)
include h

/-- A team without an open level has no level record. -/
theorem levels_of_depth_zero {tm : Team} (htm : find s.teams k = some tm) : tm.levels = [] :=
  List.eq_nil_of_length_eq_zero (by rwa [depth, htm] at h)

/-- Outside every block a write is ordinary (R380). -/
theorem hidTag_of_depth_zero (w : Nat) : s.hidTag k w = none := by
  unfold hidTag
  split
  · rfl
  · next tm htm => exact if_pos (by rw [levels_of_depth_zero h htm]; rfl)

/-- Outside every block a write captures nothing (R377). -/
theorem captureLine_of_depth_zero (w : Nat) (hid : Bool) : s.captureLine k w hid = some s := by
  unfold captureLine captureLineAt
  split
  · rfl
  · next tm htm => rw [levels_of_depth_zero h htm, List.drop_nil]

end

/-- What follows a collapse's write `q` at its home: its acknowledgement and triggers, the copy in the writer's L1, and the vector. -/
def afterCollapse (s : State) (k w : Nat) (q : StoreReq) (v : List CellVal) : State :=
  let t := (((s.expectAck k w 0xf).fires q).keepHidden w q).stampDot k q.dot
  { t with groups := upd t.groups k (fun g => { g with vv := v.foldl (fun m c => mergeDot m c.dot) g.vv }) }

/-- A collapse outside every block of a word that was brought home is an ordinary write there. -/
theorem collapse_ordinary {s t : State} {k w : Nat} {g : Group} {va : DWord} {v : List CellVal} {r : Word} (hclear : s.HomeClear w)
    (hdepth : s.depth g.seat = 0) (h : s.collapse k g va w v r = .ok t) :
    ∃ u q, s.applyCollapse w (s.reqConv q) { val := r, dot := newDot s g } = some u ∧ q.hid = none ∧ q.dot = newDot s g
      ∧ t = u.afterCollapse k w q v := by
  unfold collapse at h
  dsimp only at h
  rw [hidTag_of_depth_zero hdepth, captureLine_of_depth_zero hdepth] at h
  dsimp only at h
  rw [writeBackAll_of_homeClear hclear] at h
  split at h
  · cases h
  · next u hu => exact ⟨u, _, hu, rfl, rfl, (Collapse.ok.inj h).symm⟩

/-- After the write, memory and the cells stay, and the group has merged the siblings' dots. -/
theorem afterCollapse_frame (s : State) (k w : Nat) {q : StoreReq} (v : List CellVal) (hq : q.hid = none) :
    (s.afterCollapse k w q v).mem = s.mem ∧ (s.afterCollapse k w q v).cells = s.cells ∧ (s.afterCollapse k w q v).cur = s.cur
    ∧ find (s.afterCollapse k w q v).groups k = (find s.groups k).map (·.reconciled v q.dot) := by
  have hack := s.allKept_expectAck k w 0xf
  have hfires := (s.expectAck k w 0xf).fires_frame q
  have hkept := hack.trans (allKept_fires _ q)
  have hdrop : ((s.expectAck k w 0xf).fires q).keepHidden w q = ((s.expectAck k w 0xf).fires q).delL1 q.core w := by
    rw [keepHidden, hq]
  unfold afterCollapse
  rw [hdrop]
  refine ⟨hfires.1.trans (s.mem_expectAck k w 0xf), hfires.2.trans (s.cells_expectAck k w 0xf), hkept.cur, ?_⟩
  dsimp only
  rw [find_upd, if_pos rfl, stampDot, find_upd, if_pos rfl, Option.map_map, delL1, setCore, hkept.groups]
  rfl

/-- A collapse of ordinary values by the acting group, outside every block: its result at rest over the base, and the siblings' dots
merged. -/
theorem collapse_leaves {s t : State} {w : Nat} {g : Group} {va : DWord} {v : List CellVal} {r : Word} (hclear : s.HomeClear w)
    (hdepth : s.depth g.seat = 0) (hall : ∀ x ∈ s.allVals w, x.ordinary) (h : s.collapse s.cur g va w v r = .ok t) :
    t.word w = r ∧ t.Rests w (newDot s g) (s.cellRec w).base
    ∧ ∀ g2, t.grp = some g2 → ∃ g1, s.grp = some g1 ∧ g1.reconciled v (newDot s g) = g2 := by
  obtain ⟨u, q, hu, hhid, hdot, rfl⟩ := collapse_ordinary hclear hdepth h
  obtain ⟨hmem, hcells, hcur, hgroup⟩ := u.afterCollapse_frame s.cur w v hhid
  obtain ⟨hword, hrest⟩ := applyCollapse_ordinary hall ⟨rfl, rfl⟩ hu
  have hhome := homeOnly_applyCollapse hu
  refine ⟨(word_of_mem hmem w).trans hword, hrest.of_cells hcells, fun g2 hg2 => ?_⟩
  rw [grp, hcur, hhome.cur, hgroup, hhome.groups, hdot] at hg2
  exact Option.map_eq_some_iff.mp hg2

/-! ### What leaves every group's vector (R281) -/

namespace VecsKept

theorem trans {s t u : State} (h : VecsKept s t) (h' : VecsKept t u) : VecsKept s u :=
  ⟨h'.1.trans h.1, fun k => (h'.2 k).trans (h.2 k)⟩

theorem of_groups {s t : State} (hcur : t.cur = s.cur) (hgroups : t.groups = s.groups) : VecsKept s t :=
  ⟨hcur, fun _ => by rw [hgroups]⟩

theorem of_allKept {s t : State} (h : AllKept s t) : VecsKept s t := of_groups h.cur h.groups

/-- The acting group's vector is what it was. -/
theorem vv {s t : State} {g g' : Group} (h : VecsKept s t) (hg : s.grp = some g) (hg' : t.grp = some g') : g'.vv = g.vv := by
  have hk := h.2 s.cur
  rw [grp, h.1] at hg'
  rw [grp] at hg
  rw [hg, hg'] at hk
  exact Option.some.inj hk

end VecsKept

/-- Checks that pass leave every group as it stood. -/
theorem allKept_chkOrdered {s s1 : State} {k : Nat} {g : Group} {va : DWord} {n pa : Nat} {wr mt : Bool} {perm : Nat → Bool}
    (h : s.chkOrdered k g va n wr perm = .ok s1 pa mt) : AllKept s s1 := by
  unfold chkOrdered at h
  split at h
  · cases h
  · split at h
    · cases h
    · unfold chkPage at h
      split at h
      · split at h <;> cases h
      · cases h
      · next u pa' mt' htr =>
        unfold chkPlace at h
        split_ifs at h
        cases h
        exact allKept_translate htr

theorem vecsKept_parkFailed (s : State) (q : StoreReq) (w : Nat) : VecsKept s (s.parkFailed q w) := by
  refine ⟨rfl, fun k => ?_⟩
  rw [parkFailed, addPend]
  dsimp only [setCore]
  rw [find_upd]
  split
  · next hk => rw [hk, Option.map_map]; rfl
  · rfl

theorem vecsKept_testStore (s : State) (q : StoreReq) : VecsKept s (s.testStore q) := by
  unfold testStore
  split
  · next h => exact .of_allKept (allKept_tryStore h)
  · split
    · exact .of_groups rfl rfl
    · exact s.vecsKept_parkFailed q _

theorem vecsKept_flushReqs (s : State) (c w : Nat) : VecsKept s (s.flushReqs c w) := by
  unfold flushReqs testAll
  exact List.foldlRecOn (motive := VecsKept s) _ _ (.of_groups rfl rfl) (fun t ht q _ => ht.trans (t.vecsKept_testStore q))

theorem allKept_fillHidden (s : State) (w : Nat) : AllKept s (s.fillHidden w) :=
  .foldl _ (fun t e => by
    split
    · exact .of_homeOnly (t.homeOnly_fill _ _)
    · exact .refl t) _ s

theorem vecsKept_bringHome (s : State) (c w : Nat) : VecsKept s (s.bringHome c w) := by
  have h : VecsKept s (((s.flushReqs c w).writeBackAll w none).fillHidden w) :=
    (s.vecsKept_flushReqs c w).trans (.of_allKept ((allKept_writeBackAll _ w none).trans (allKept_fillHidden _ w)))
  unfold bringHome
  dsimp only
  split
  · split
    · exact h
    · exact h.trans (.of_groups rfl rfl)
  · exact h

/-- Counting an access changes nothing but a counter of the group. -/
theorem countAcc_cases (s : State) (k : Nat) (p : Path) :
    (s.countAcc k p).2 = s
    ∨ ∃ g l, find s.groups k = some g ∧ (s.countAcc k p).2 = { s with groups := put s.groups k { g with cnt := l } } := by
  unfold countAcc
  cases hg : find s.groups k with
  | none => exact .inl rfl
  | some g => exact .inr ⟨g, _, rfl, rfl⟩

theorem vecsKept_countAcc (s : State) (k : Nat) (p : Path) : VecsKept s (s.countAcc k p).2 := by
  obtain h | ⟨g, l, hg, h⟩ := s.countAcc_cases k p
  · rw [h]
    exact .of_groups rfl rfl
  · rw [h]
    refine ⟨rfl, fun j => ?_⟩
    rw [find_put]
    split
    · next hj => rw [hj, hg]; rfl
    · rfl

/-- Counting an access leaves the homes, and every L1, as they stood. -/
theorem countAcc_frame (s : State) (k : Nat) (p : Path) (w : Nat) :
    ((s.countAcc k p).2.cellRec w = s.cellRec w) ∧ (s.HomeClear w → (s.countAcc k p).2.HomeClear w) := by
  obtain h | ⟨g, l, -, h⟩ := s.countAcc_cases k p
  · rw [h]
    exact ⟨rfl, id⟩
  · rw [h]
    exact ⟨rfl, id⟩

end State

end Sys2Proof.Machine
end

section
/-! The scalar instructions on versioned cells (R296 to R302): loads of a cell and of its siblings, and what a reconcile leaves. -/

namespace Sys2Proof.Machine

open Sys2Proof
open State (VecsKept)

/-! ### Loads (R298, R300) -/

/-- The data of several registers arrive at once, with the poison they bring consumed (R217, R391). -/
theorem finishLoad_all_now {s : State} {p : Path} {pois : Bool} {words : List Nat} (ws : List (XReg × DWord)) {g2 g3 : Group}
    (hg : (s.countAcc s.cur p).2.grp = some g2) (hnow : g2.late = false)
    (hg3 : ((s.countAcc s.cur p).2.consumeIf (s.countAcc s.cur p).2.cur pois).grp = some g3) :
    finishLoad s p pois words ws = ends ((s.countAcc s.cur p).2.consumeIf (s.countAcc s.cur p).2.cur pois)
      (ws.foldl (fun g e => g.setX e.1 e.2) g3) :=
  (withG_some hg _).trans ((if_neg (by rw [hnow]; exact Bool.false_ne_true)).trans (doneWith_ends hg3 _))

section
variable {s s1 : State} {g : Group} {va : DWord} {pa : Nat} {mt : Bool} (hg : s.grp = some g)
include hg

/-- A load of a cell that passes its checks finds the view at the home (R296). -/
theorem withCell_passes (hchk : s.chkOrdered s.cur g va 4 false anyMem = .ok s1 pa mt) (hpark : s1.parkedHit s1.cur va 4 = false)
    (f : State → Group → Nat → List CellVal → Bool → Res) :
    let s2 := s1.settleWord (coreOf s1.cur) (pa / 4)
    let v := s2.homeView (pa / 4) (s2.groupConv s2.cur)
    withCell s va f = f s2 g pa v (viewPois v) := by
  rw [withCell, withG_some hg, hchk]
  exact if_neg (by rw [hpark]; exact Bool.false_ne_true)

/-- A reconcile that passes its checks has the word brought home (R296). -/
theorem withRcn_passes (hchk : s.chkOrdered s.cur g va 4 true s.isCell = .ok s1 pa mt) (hatom : s1.atomHit s1.cur va 4 = false)
    (f : State → Group → Nat → List CellVal → Res) :
    let s2 := s1.bringHome (coreOf s1.cur) (pa / 4)
    withRcn s va f = f s2 g pa (s2.view (pa / 4) (s2.groupConv s2.cur)) := by
  rw [withRcn, withG_some hg, hchk]
  exact if_neg (by rw [hatom]; exact Bool.false_ne_true)

/-- `ldc` gives the first value and CNT; `ldsib`, at the address without an offset, a sibling and the status word. -/
theorem exec_cell_loads {d a : XReg} {la : BitVec 4} {i : BitVec 9} {k : BitVec 2} {g2 g3 : Group}
    (hchk : s.chkOrdered s.cur g (g.x a + off9 i 4) 4 false anyMem = .ok s1 pa mt)
    (hpark : s1.parkedHit s1.cur (g.x a + off9 i 4) 4 = false) :
    let s2 := s1.settleWord (coreOf s1.cur) (pa / 4)
    let v := s2.homeView (pa / 4) (s2.groupConv s2.cur)
    let t := (s2.countAcc s2.cur (pathOfPa pa)).2
    t.grp = some g2 → g2.late = false → (t.consumeIf t.cur (viewPois v)).grp = some g3 →
      exec (.ldc d a la i) s = ends (t.consumeIf t.cur (viewPois v))
        ((g3.setX d ((viewVal v).signExtend 64)).setX (d + 1) (BitVec.ofNat 64 (s2.cntOf pa v)))
      ∧ (i = 0 → exec (.ldsib d a la k) s = ends (t.consumeIf t.cur (viewPois v))
        ((g3.setX d (sibling v k.toNat)).setX (d + 1) (s2.statusOf pa v))) := by
  intro s2 v t hg2 hnow hg3
  refine ⟨?_, ?_⟩
  · show execLdc d a la i s = _
    rw [execLdc, withG_some hg, withCell_passes hg hchk hpark]
    exact finishLoad_all_now [_, _] hg2 hnow hg3
  · rintro rfl
    have hva : g.x a + off9 0 4 = g.x a := BitVec.add_zero _
    rw [hva] at hchk hpark
    show execLdsib d a la k s = _
    rw [execLdsib, withG_some hg, withCell_passes hg hchk hpark]
    exact finishLoad_all_now [_, _] hg2 hnow hg3

end

/-! ### Reconciles (R301, R302) -/

section
variable {s s1 : State} {g : Group} {d a b : XReg} {op : RcnOp} {pa : Nat} {mt : Bool} (hg : s.grp = some g)
  (hchk : s.chkOrdered s.cur g (g.x a) 4 true s.isCell = .ok s1 pa mt) (hatom : s1.atomHit s1.cur (g.x a) 4 = false)
include hg hchk hatom

/-- `rcn` leaves a single value, and a set that it cannot collapse; else it gives the result of its collapse. -/
theorem exec_rcn :
    let s2 := s1.bringHome (coreOf s1.cur) (pa / 4)
    let v := s2.view (pa / 4) (s2.groupConv s2.cur)
    let base := (s2.cellRec (pa / 4)).base
    let s3 := (s2.countAcc s2.cur (pathOfPa pa)).2
    (∀ g2, viewCnt v = 0 ∨ (op = .add ∧ base = none) → s3.grp = some g2 →
      exec (.rcn op d a) s = ends s3 (g2.setPair d ((viewVal v).signExtend 64) (s2.statusOf pa v)))
    ∧ (∀ t g2, viewCnt v ≠ 0 → ¬(op = .add ∧ base = none) →
      let r := rcnVal op (base.getD 0) (v.map (·.val))
      s3.collapse s3.cur g (g.x a) (pa / 4) v r = .ok t → t.grp = some g2 →
      exec (.rcn op d a) s = ends t (g2.setPair d (r.signExtend 64) (s2.statusOf pa v))) := by
  intro s2 v base s3
  have hexec : exec (.rcn op d a) s = if viewCnt v = 0 || (op = .add && base.isNone) then
      doneWith s3 (fun g => g.setPair d ((viewVal v).signExtend 64) (s2.statusOf pa v))
      else match s3.collapse s3.cur g (g.x a) (pa / 4) v (rcnVal op (base.getD 0) (v.map (·.val))) with
        | .lost => overflow s3 g
        | .refused => doneWith s3 (fun g => g.setPair d ((viewVal v).signExtend 64) (s2.statusOf pa v))
        | .ok t => doneWith t (fun g =>
          g.setPair d ((rcnVal op (base.getD 0) (v.map (·.val))).signExtend 64) (s2.statusOf pa v)) :=
    (withG_some hg _).trans (withRcn_passes hg hchk hatom _)
  rw [hexec]
  refine ⟨fun g2 hkeep hg2 => (if_pos (by simpa using hkeep)).trans (doneWith_ends hg2 _), fun t g2 hcnt hbase hcol hg2 => ?_⟩
  rw [if_neg (by simpa [hcnt] using hbase), hcol]
  exact doneWith_ends hg2 _

/-- `rcnw` collapses the set that its status word names, and no other. -/
theorem exec_rcnw :
    let s2 := s1.bringHome (coreOf s1.cur) (pa / 4)
    let v := s2.view (pa / 4) (s2.groupConv s2.cur)
    let s3 := (s2.countAcc s2.cur (pathOfPa pa)).2
    let same := 2 ≤ viewCnt v ∧ viewCnt v = ((g.x d) >>> 32).toNat % 8
      ∧ (s2.cellRec (pa / 4)).gen.toNat = ((g.x d) >>> 40).toNat
    (∀ g2, ¬same → s3.grp = some g2 → exec (.rcnw d a b) s = ends s3 (g2.setX d 0))
    ∧ (∀ t g2, same → s3.collapse s3.cur g (g.x a) (pa / 4) v ((g.x b).truncate 32) = .ok t → t.grp = some g2 →
      exec (.rcnw d a b) s = ends t (g2.setX d 1)) := by
  intro s2 v s3 same
  have hexec : exec (.rcnw d a b) s = if (2 ≤ viewCnt v && viewCnt v = ((g.x d) >>> 32).toNat % 8
        && (s2.cellRec (pa / 4)).gen.toNat = ((g.x d) >>> 40).toNat) then
      (match s3.collapse s3.cur g (g.x a) (pa / 4) v ((g.x b).truncate 32) with
        | .lost => overflow s3 g
        | .refused => doneWith s3 (fun g => g.setX d 0)
        | .ok s => doneWith s (fun g => g.setX d 1))
      else doneWith s3 (fun g => g.setX d 0) :=
    (withG_some hg _).trans (withRcn_passes hg hchk hatom _)
  rw [hexec]
  refine ⟨fun g2 hsame hg2 => ?_, fun t g2 hsame hcol hg2 => ?_⟩
  · exact (if_neg (by simpa [same, and_assoc] using hsame)).trans (doneWith_ends hg2 _)
  · rw [if_pos (by simpa [same, and_assoc] using hsame), hcol]
    exact doneWith_ends hg2 _

omit hatom in
/-- A collapse of a cell without hidden writes, outside every block, leaves its result at rest over the base, and the group's vector with
every sibling's dot merged. -/
theorem rcn_collapse_leaves {r : Word} {t : State} :
    let s2 := s1.bringHome (coreOf s1.cur) (pa / 4)
    let v := s2.view (pa / 4) (s2.groupConv s2.cur)
    let base := (s2.cellRec (pa / 4)).base
    let s3 := (s2.countAcc s2.cur (pathOfPa pa)).2
    s3.collapse s3.cur g (g.x a) (pa / 4) v r = .ok t → s3.depth g.seat = 0 →
    (∀ x ∈ s3.allVals (pa / 4), x.hid = none ∧ x.disp = []) →
    let c := t.cellRec (pa / 4)
    t.word (pa / 4) = r ∧ c.vals = [] ∧ c.dot = newDot s3 g ∧ c.prior = base
    ∧ ∀ g2, t.grp = some g2 → g2.vv = v.foldl (fun m x => mergeDot m x.dot) { g.vv with own := newDot s3 g } := by
  intro s2 v base s3 hcol hdepth hall c
  obtain ⟨hrec, hclear⟩ := s2.countAcc_frame s2.cur (pathOfPa pa) (pa / 4)
  obtain ⟨hword, hrest, hvec⟩ := State.collapse_leaves (hclear (s1.homeClear_bringHome _ _)) hdepth hall hcol
  obtain ⟨hvals, hdot, hprior⟩ := hrest.cellRec
  refine ⟨hword, hvals, hdot, hprior.trans (congrArg CellRec.base hrec), fun g2 hg2 => ?_⟩
  have hkept : VecsKept s s3 := ((VecsKept.of_allKept (State.allKept_chkOrdered hchk)).trans (s1.vecsKept_bringHome _ _)).trans
    (s2.vecsKept_countAcc _ _)
  obtain ⟨g1, hg1, rfl⟩ := hvec g2 hg2
  rw [Group.reconciled, hkept.vv hg hg1]

end

/-! ### The table of results (R301) -/

/-- The differences of the siblings from the base, added up. -/
theorem foldl_add_sub_eq (base : Word) (l : List Word) (z : Word) :
    l.foldl (fun a x => a + (x - base)) z
      = BitVec.ofInt 32 ((z.toNat : Int) + (l.map (fun x => (x.toNat : Int) - base.toNat)).sum) := by
  induction l generalizing z with
  | nil => simp
  | cons x l ih =>
    rw [List.foldl_cons, ih, List.map_cons, List.sum_cons]
    simp only [sub_eq_add_neg (x.toNat : Int), BitVec.ofInt_add, BitVec.ofInt_neg, BitVec.ofInt_natCast, BitVec.ofNat_toNat,
      BitVec.setWidth_eq, BitVec.sub_eq_add_neg, BitVec.add_assoc]

/-- A fold that keeps the word of the least number finds one of the words, and no number is less. -/
theorem foldl_least (num : Word → Int) (l : List Word) (z : Word) :
    let m := l.foldl (fun a x => if num x < num a then x else a) z
    m ∈ z :: l ∧ ∀ x ∈ z :: l, num m ≤ num x := by
  induction l generalizing z with
  | nil => exact ⟨List.mem_cons_self, fun x hx => (congrArg num (List.mem_singleton.mp hx)).ge⟩
  | cons y l ih =>
    simp only [List.foldl_cons]
    by_cases h : num y < num z
    · obtain ⟨hmem, hle⟩ := ih y
      rw [if_pos h]
      exact ⟨List.mem_cons_of_mem z hmem, List.forall_mem_cons.mpr ⟨(hle y List.mem_cons_self).trans h.le, hle⟩⟩
    · obtain ⟨hmem, hle⟩ := ih z
      obtain ⟨hz, hl⟩ := List.forall_mem_cons.mp hle
      rw [if_neg h]
      exact ⟨List.mem_cons.mpr ((List.mem_cons.mp hmem).imp_right (List.mem_cons_of_mem y)),
        List.forall_mem_cons.mpr ⟨hz, List.forall_mem_cons.mpr ⟨hz.trans (not_lt.mp h), hl⟩⟩⟩

/-- The least and the greatest of the siblings as signed numbers. -/
theorem rcnVal_extremes (base : Word) {l : List Word} (hl : l ≠ []) :
    rcnVal .min base l ∈ l ∧ rcnVal .max base l ∈ l
    ∧ ∀ x ∈ l, (rcnVal .min base l).toInt ≤ x.toInt ∧ x.toInt ≤ (rcnVal .max base l).toInt := by
  obtain ⟨z, r, rfl⟩ := List.exists_cons_of_ne_nil hl
  have hmin : rcnVal .min base (z :: r) = (z :: r).foldl (fun a x => if x.toInt < a.toInt then x else a) z := by
    simp only [rcnVal, List.headD_cons, BitVec.slt_iff_toInt_lt]
  have hmax : rcnVal .max base (z :: r) = (z :: r).foldl (fun a x => if -x.toInt < -a.toInt then x else a) z := by
    simp only [rcnVal, List.headD_cons, BitVec.slt_iff_toInt_lt, neg_lt_neg_iff]
  obtain ⟨hminMem, hminLe⟩ := foldl_least BitVec.toInt (z :: r) z
  obtain ⟨hmaxMem, hmaxLe⟩ := foldl_least (fun x => -x.toInt) (z :: r) z
  rw [hmin, hmax]
  have hz {x : Word} (h : x ∈ z :: z :: r) : x ∈ z :: r := by simpa using h
  exact ⟨hz hminMem, hz hmaxMem, fun x hx => ⟨hminLe x (List.mem_cons_of_mem z hx),
    neg_le_neg_iff.mp (hmaxLe x (List.mem_cons_of_mem z hx))⟩⟩

/-- Bit by bit, the disjunction and the conjunction of the siblings. -/
theorem rcnVal_bitwise (base : Word) (l : List Word) {j : Nat} (hj : j < 32) :
    (rcnVal .or base l).getLsbD j = l.any (·.getLsbD j) ∧ (rcnVal .and base l).getLsbD j = l.all (·.getLsbD j) := by
  refine ⟨(getLsbD_foldl_lor l 0 j).trans ?_, (getLsbD_foldl_and l _ j).trans ?_⟩
  · rw [show (0 : Word).getLsbD j = false from BitVec.getLsbD_zero, Bool.false_or]
  · rw [BitVec.getLsbD_allOnes, decide_eq_true hj, Bool.true_and]

/-- Settles O29: loads by the view at the home, a reconcile by whether it can collapse the set, what the collapse leaves, and the table of
R301 operation by operation. -/
theorem cellInstructions : Obligations.CellInstructions := by
  unfold Obligations.CellInstructions
  refine ⟨fun s s1 g d a b la i k op pa mt hg => ⟨fun hchk hpark => ?loads, fun hchk hatom => ?reconciles⟩, fun base l => ?table⟩
  case loads => exact fun g2 g3 => exec_cell_loads hg hchk hpark
  case reconciles =>
    obtain ⟨hkeeps, hcollapses⟩ := exec_rcn hg hchk hatom
    exact ⟨hkeeps, hcollapses, fun r t => rcn_collapse_leaves hg hchk, exec_rcnw hg hchk hatom⟩
  case table => exact ⟨foldl_add_sub_eq base l base, rcnVal_extremes base, fun j => rcnVal_bitwise base l, rfl, rfl⟩

end Sys2Proof.Machine
end

section
/-! The instructions on copy channels (R308, R316, R317, R324 to R329): a chain joins its channel, and its team seals, waits for, reads,
aborts and clears the channel. -/

namespace Sys2Proof.Machine

open Sys2Proof
open State (chan_setChan)

/-! ### Signed differences of batches (R316) -/

theorem before32_iff (a b : BitVec 32) : before32 a b = true ↔ (a - b).toInt < 0 := by
  rw [before32, BitVec.msb_eq_toInt, decide_eq_true_eq]

theorem after32_iff (a b : BitVec 32) : after32 a b = true ↔ 0 < (a - b).toInt := by
  have hne : a ≠ b ↔ (a - b).toInt ≠ 0 := ((BitVec.toInt_inj (y := 0)).trans sub_eq_zero).symm.not
  rw [after32, BitVec.msb_eq_toInt, Bool.and_eq_true, decide_eq_true_eq, Bool.not_eq_true', decide_eq_false_iff_not, hne]
  omega

/-! ### The channel of an instruction (R308) -/

section
variable {s : State} {g : Group} {c : BitVec 3} (hg : s.grp = some g)
include hg

theorem withChan_held (h : chanHeld (s.chan (coreOf s.cur) c.toNat) g.seat = true) (f : Group → Chan → Res) :
    withChan s c f = f g (s.chan (coreOf s.cur) c.toNat) :=
  (withG_some hg _).trans (if_pos h)

theorem withChan_not_held (h : chanHeld (s.chan (coreOf s.cur) c.toNat) g.seat = false) (f : Group → Chan → Res) :
    withChan s c f = raise s 0x1a 0 (c.zeroExtend 64) :=
  (withG_some hg _).trans (if_neg (Bool.eq_false_iff.mp h))

/-! ### A chain joins its channel (R317, R324) -/

/-- `cpgo` appends a chain to a channel that its team holds, once bound if it was free, and that has room for it. -/
theorem exec_cpgo {b : XReg} {k : Chan} {t : State} {g2 : Group} (hcanon : ((g.x b).truncate 57).signExtend 64 = g.x b)
    (halign : (g.x b).toNat % 32 = 0)
    (hk : (if (s.chan (coreOf s.cur) c.toNat).st = .free then { team := g.seat, st := .idle }
      else s.chan (coreOf s.cur) c.toNat) = k)
    (hheld : chanHeld k g.seat = true) (hroom : k.headq.length < 8) (hst : k.st ≠ .halted)
    (ht : ((s.unrequest s.cur).setChan (coreOf s.cur) c.toNat k).appendChain (coreOf s.cur) c.toNat s.cur g (g.x b) = t)
    (hg2 : t.grp = some g2) : exec (.cpgo c b) s = ends t g2 := by
  subst hk ht
  have hready : (!chanHeld _ g.seat || decide (8 ≤ _)) = false :=
    Bool.or_eq_false_iff.mpr ⟨by rw [hheld, Bool.not_true], decide_eq_false (Nat.not_le.mpr hroom)⟩
  refine (withG_some hg _).trans ((if_neg (not_not.mpr hcanon)).trans ((if_neg (not_not.mpr halign)).trans ?_))
  exact (if_neg (Bool.eq_false_iff.mp hready)).trans ((if_neg hst).trans (doneWith_ends hg2 _))

/-! ### Batches (R325, R326) -/

section
variable {d b : XReg} (hheld : chanHeld (s.chan (coreOf s.cur) c.toNat) g.seat = true)
include hheld

/-- `cpseal` answers the number of the batch that it seals. -/
theorem exec_cpseal {k1 : Chan} {g2 : Group}
    (hk1 : { s.chan (coreOf s.cur) c.toNat with sealed := (s.chan (coreOf s.cur) c.toNat).sealed + 1 } = k1)
    (hg2 : (s.setChan (coreOf s.cur) c.toNat { k1 with done := chanDone k1 }).grp = some g2) :
    exec (.cpseal d c) s = ends (s.setChan (coreOf s.cur) c.toNat { k1 with done := chanDone k1 })
      (g2.setX d (k1.sealed.zeroExtend 64)) := by
  subst hk1
  show execCpseal d c s = _
  exact (withChan_held hg hheld _).trans (doneWith_ends hg2 _)

theorem exec_cpwait_zero (h : (g.x b).truncate 32 = (0 : BitVec 32)) : exec (.cpwait d c b) s = ends s (g.setX d 0) :=
  show execCpwait d c b s = _ from (withChan_held hg hheld _).trans (if_pos h)

/-- `cpwait` for a batch above SEALED traps. -/
theorem exec_cpwait_unsealed (h0 : (g.x b).truncate 32 ≠ (0 : BitVec 32))
    (h : 0 < ((g.x b).truncate 32 - (s.chan (coreOf s.cur) c.toNat).sealed).toInt) :
    exec (.cpwait d c b) s = raise s 0x1a 0 (c.zeroExtend 64) :=
  show execCpwait d c b s = _ from (withChan_held hg hheld _).trans ((if_neg h0).trans (if_pos ((after32_iff _ _).mpr h)))

/-- `cpwait` for a batch that DONE has reached answers whether a batch at or below it failed. -/
theorem exec_cpwait_ends {n : BitVec 32} {k : Chan} (hn : (g.x b).truncate 32 = n) (hk : s.chan (coreOf s.cur) c.toNat = k)
    (h0 : n ≠ 0) (hsealed : ¬0 < (n - k.sealed).toInt) (hdone : ¬(k.done - n).toInt < 0) :
    exec (.cpwait d c b) s = ends s (g.setX d (if k.fb ≠ 0 ∧ ¬(n - k.fb).toInt < 0 then 1 else 0)) := by
  subst hn hk
  show execCpwait d c b s = _
  refine (withChan_held hg hheld _).trans ((if_neg h0).trans ((if_neg (mt (after32_iff _ _).mp hsealed)).trans
    ((if_neg (mt (before32_iff _ _).mp hdone)).trans ?_)))
  simp only [done_ends, ← before32_iff, Bool.and_eq_true, decide_eq_true_eq, Bool.not_eq_true', Bool.not_eq_true]

/-! ### Aborts and faults (R328, R329) -/

/-- `cpabort` stops its channel and stays where it is while words of the record in transfer are not performed. -/
theorem exec_cpabort_waits (h : s.unperformed (coreOf s.cur) (s.chan (coreOf s.cur) c.toNat) = true) :
    exec (.cpabort d c) s = .next (s.setGrp { g with cpStop := some c.toNat }) :=
  show execCpabort d c s = _ from (withChan_held hg hheld _).trans (if_pos h)

/-- `cpabort` ends the chains of its channel, releases its ranges, and answers the record that was in transfer. -/
theorem exec_cpabort_ends {k k2 : Chan} {s1 t : State} {g2 : Group} (hk : s.chan (coreOf s.cur) c.toNat = k)
    (h : s.unperformed (coreOf s.cur) k = false)
    (hs1 : (s.endChains (coreOf s.cur) c.toNat true (fun _ => true)).unlock (coreOf s.cur) (.chan c.toNat) = s1)
    (hk2 : (if k.fcode = 0 then { s1.chan (coreOf s.cur) c.toNat with fcode := 8, frec := recInTransfer k, fdata := 0 }
      else s1.chan (coreOf s.cur) c.toNat) = k2)
    (ht : s1.setChan (coreOf s.cur) c.toNat { k2 with st := .idle, crec := none, nrec := none, wown := false } = t)
    (hg2 : t.grp = some g2) :
    exec (.cpabort d c) s = ends t { g2.setX d (recInTransfer k) with cpStop := none } := by
  subst hk hs1 hk2 ht
  show execCpabort d c s = _
  exact (withChan_held hg hheld _).trans ((if_neg (Bool.eq_false_iff.mp h)).trans (doneWith_ends hg2 _))

/-- `cpflt` answers the fault of its channel and clears it; a halted channel is idle again. -/
theorem exec_cpflt {k : Chan} {t : State} {g2 : Group} (hk : s.chan (coreOf s.cur) c.toNat = k)
    (ht : s.setChan (coreOf s.cur) c.toNat { k with fcode := 0, frec := 0, fdata := 0, fb := 0
                                                    st := if k.st = .halted then .idle else k.st } = t)
    (hg2 : t.grp = some g2) : exec (.cpflt d c) s = ends t (g2.setPair d k.frec k.fdata) := by
  subst hk ht
  show execCpflt d c s = _
  exact (withChan_held hg hheld _).trans (doneWith_ends hg2 _)

end

/-! ### Status, and channels of other teams (R327) -/

theorem exec_cpstat (d : XReg) : exec (.cpstat d c) s = ends s
    (g.setPair d (chanStatus (s.chan (coreOf s.cur) c.toNat) g.seat) (chanCounters (s.chan (coreOf s.cur) c.toNat) g.seat)) :=
  withG_some hg _

theorem exec_chan_not_held {d b : XReg} (h : chanHeld (s.chan (coreOf s.cur) c.toNat) g.seat = false) :
    exec (.cpseal d c) s = raise s 0x1a 0 (c.zeroExtend 64) ∧ exec (.cpabort d c) s = raise s 0x1a 0 (c.zeroExtend 64)
    ∧ exec (.cpwait d c b) s = raise s 0x1a 0 (c.zeroExtend 64) ∧ exec (.cpflt d c) s = raise s 0x1a 0 (c.zeroExtend 64) :=
  ⟨show execCpseal d c s = _ from withChan_not_held hg h _, show execCpabort d c s = _ from withChan_not_held hg h _,
    show execCpwait d c b s = _ from withChan_not_held hg h _, show execCpflt d c s = _ from withChan_not_held hg h _⟩

end

/-- Settles O32: `cpgo` by the chain that it appends; the others by whether the team holds the channel. -/
theorem copyChannels : Obligations.CopyChannels := by
  unfold Obligations.CopyChannels
  refine ⟨fun s g g2 c b hg => ?cpgo, fun s g g2 c d b hg => ⟨fun hheld => ?held, exec_cpstat hg d, exec_chan_not_held hg⟩⟩
  case cpgo =>
    intro va cr k0 k hcanon halign hheld hroom hst u dot x v t hg2
    have ht : u.appendChain cr c.toNat s.cur g va = t := by rw [State.appendChain, chan_setChan]
    exact exec_cpgo hg hcanon halign rfl hheld hroom hst ht hg2
  case held =>
    exact ⟨fun hg2 => exec_cpseal hg hheld rfl hg2, exec_cpwait_zero hg hheld,
      fun h0 hsealed hdone => exec_cpwait_ends hg hheld rfl rfl h0 hsealed hdone, exec_cpwait_unsealed hg hheld,
      exec_cpabort_waits hg hheld, fun hperformed hg2 => exec_cpabort_ends hg hheld rfl hperformed rfl rfl rfl hg2,
      fun hg2 => exec_cpflt hg hheld rfl rfl hg2⟩

end Sys2Proof.Machine
end

section
/-! SUPPORT. Every operation of the machine keeps the memory in its canonical form: the states that each result type holds, then a
lemma for each operation, in the order in which the model defines them, up to a step. -/

namespace Sys2Proof.Machine

open Sys2Proof

/-! ### The states that a result holds -/

/-- The state that an outcome goes on in, if it goes on, is in canonical form. -/
structure Res.Tidy (r : Res) : Prop where
  state : afterwards r (fun t => t.tidy = true)

/-- The state that `st` reads from what an operation leaves, if it leaves anything, is in canonical form. -/
def tidySome {α : Type} (st : α → State) (o : Option α) : Prop := ∀ a, o = some a → (st a).tidy = true

/-- The state of a translation is in canonical form. -/
structure Tr.Tidy (r : Tr) : Prop where
  state : match r with
    | .ok s _ _ | .wait s | .fault s => s.tidy = true

/-- The state of an access check is in canonical form. -/
structure Chk.Tidy (r : Chk) : Prop where
  state : match r with
    | .ok s _ _ | .wait s | .trap s _ _ => s.tidy = true

/-- The state of an instruction fetch is in canonical form. -/
structure FRes.Tidy (r : FRes) : Prop where
  state : match r with
    | .ok s _ | .wait s | .fault s => s.tidy = true

/-- The state of a read of several words is in canonical form. -/
structure RdRes.Tidy (r : RdRes) : Prop where
  state : match r with
    | .ok s _ _ | .wait s | .trap s _ _ _ => s.tidy = true

/-- The state of a release, if it is made, is in canonical form. -/
structure RelOut.Tidy (r : RelOut) : Prop where
  state : match r with
    | .ok s => s.tidy = true
    | _ => True

/-- The state of a collapse, if it is made, is in canonical form. -/
structure Collapse.Tidy (r : Collapse) : Prop where
  state : match r with
    | .ok s => s.tidy = true
    | _ => True

/-- The state of a check of near-memory words is in canonical form. -/
structure NearRes.Tidy (r : NearRes) : Prop where
  state : match r with
    | .ok s _ | .wait s | .bad s _ => s.tidy = true

/-- The state of a read by the command processor is in canonical form. -/
structure CpRead.Tidy (r : CpRead) : Prop where
  state : match r with
    | .ok s _ | .wait s | .fail s => s.tidy = true

/-- The state of a fetch of a copy record is in canonical form. -/
structure FetchRes.Tidy (r : FetchRes) : Prop where
  state : match r with
    | .ok s _ | .wait s | .bad s => s.tidy = true

/-- The state of the range checks of a copy record is in canonical form. -/
structure RgChk.Tidy (r : RgChk) : Prop where
  state : match r with
    | .ok s | .wait s | .bad s _ _ => s.tidy = true

/-- The state of the registration of a copy record is in canonical form. -/
structure RegRes.Tidy (r : RegRes) : Prop where
  state : match r with
    | .ok s | .wait s | .bad s _ _ => s.tidy = true

/-- The state of a moved copy word is in canonical form. -/
structure MvRes.Tidy (r : MvRes) : Prop where
  state : match r with
    | .ok s | .wait s | .bad s _ _ | .full s => s.tidy = true

/-- The state of a claim of scratchpad areas, if it is made, is in canonical form. -/
structure ClaimRes.Tidy (r : ClaimRes) : Prop where
  state : match r with
    | .took s => s.tidy = true
    | _ => True

/-- The state of a quantisation, if it is made, is in canonical form. -/
structure QntRes.Tidy {α : Type} (r : QntRes α) : Prop where
  state : match r with
    | .ok s _ _ => s.tidy = true
    | _ => True

/-- The state of a read of pre-emption images is in canonical form. -/
structure ImgRes.Tidy (r : ImgRes) : Prop where
  state : match r with
    | .ok s _ _ => s.tidy = true
    | .read r => r.Tidy
    | .bad => True

/-- The state of a fetched pattern element is in canonical form. -/
structure ElemRes.Tidy (r : ElemRes) : Prop where
  state : match r with
    | .ok s _ _ | .wait s | .fail s _ => s.tidy = true

/-- The state of a read launch descriptor is in canonical form. -/
structure DescRead.Tidy (r : DescRead) : Prop where
  state : match r with
    | .ok s _ | .wait s | .refuse s _ => s.tidy = true

/-- The state of a read graph is in canonical form. -/
structure GRead.Tidy {α : Type} (r : GRead α) : Prop where
  state : match r with
    | .ok s _ | .wait s | .refuse s _ => s.tidy = true

/-- What the head of a lane stream does leaves the memory in canonical form. -/
structure LaneTry.Tidy (r : LaneTry) : Prop where
  state : match r with
    | .act r => r.Tidy
    | _ => True

section

variable {s t : State}

theorem Res.tidy_next {r : Res} (e : r = .next t) (h : r.Tidy) : t.tidy = true := by subst e; exact h.state

theorem tidy_fst {α : Type} {p : State × α} {a : α} (e : p = (t, a)) (h : p.1.tidy = true) : t.tidy = true := by
  subst e; exact h

theorem tidy_snd {α : Type} {p : α × State} {a : α} (e : p = (a, t)) (h : p.2.tidy = true) : t.tidy = true := by
  subst e; exact h

theorem tidySome_some {α : Type} {st : α → State} {a : α} (h : (st a).tidy = true) : tidySome st (some a) := by
  intro b e; cases e; exact h

theorem tidySome_none {α : Type} {st : α → State} : tidySome st none := nofun

theorem tidySome_map {α β : Type} {st : α → State} {sb : β → State} {f : α → β} {o : Option α} (h : tidySome st o)
    (hf : ∀ a, (st a).tidy = true → (sb (f a)).tidy = true) : tidySome sb (o.map f) := by
  cases o with
  | none => exact tidySome_none
  | some a => exact tidySome_some (hf a (h a rfl))

theorem tidySome_bind {α β : Type} {st : α → State} {sb : β → State} {f : α → Option β} {o : Option α} (h : tidySome st o)
    (hf : ∀ a, (st a).tidy = true → tidySome sb (f a)) : tidySome sb (o.bind f) := by
  cases o with
  | none => exact tidySome_none
  | some a => exact hf a (h a rfl)

theorem tidyOk_ok (h : s.tidy = true) : tidyOk (.ok s) := by intro b e; cases e; exact h

theorem tidyOk_error {n : Nat} : tidyOk (.error n) := nofun

theorem tidyOk_map {f : State → State} {r : Except Nat State} (h : tidyOk r) (hf : ∀ t, t.tidy = true → (f t).tidy = true) :
    tidyOk (r.map f) := by
  cases r with
  | error n => exact tidyOk_error
  | ok a => exact tidyOk_ok (hf a (h a rfl))

theorem tidy_getD {o : Option State} (h : tidySome id o) (hs : s.tidy = true) : (o.getD s).tidy = true := by
  cases o with
  | none => exact hs
  | some a => exact h a rfl

/-- A record of a state is in canonical form where its memory is, whatever stands in its other fields. -/
theorem State.tidy_mk
    {cur groups teams insts convs cores pipes slices cvecs mem cells pois regQ acks dtlb regions ports ctxs launches
     graphs quiesces saved images faults hcalls nextRid serials winBase winSize fabric chs held heldC events nextUid
     tsc cpDie cpDead live reduced coreOut pipeOut dies retireQ flash suspects links routes topo sent broken rowOut
     corrected eccFix repairs wdcfg cycles walk rollback fwPend flashW envW upsets agenda elapsed slow free}
    (h : Memory.wf mem = true) :
    (State.mk cur groups teams insts convs cores pipes slices cvecs mem cells pois regQ acks dtlb regions ports ctxs
      launches graphs quiesces saved images faults hcalls nextRid serials winBase winSize fabric chs held heldC events
      nextUid tsc cpDie cpDead live reduced coreOut pipeOut dies retireQ flash suspects links routes topo sent broken
      rowOut corrected eccFix repairs wdcfg cycles walk rollback fwPend flashW envW upsets agenda elapsed slow
      free).tidy = true := h

theorem tidy_some {o : Option State} (e : o = some t) (h : tidySome id o) : t.tidy = true := h t e

theorem tidy_some_fst {α : Type} {o : Option (State × α)} {p : State × α} (e : o = some p) (h : tidySome Prod.fst o) :
    p.1.tidy = true := h p e

theorem tidy_some_snd {α : Type} {o : Option (α × State)} {p : α × State} (e : o = some p) (h : tidySome Prod.snd o) :
    p.2.tidy = true := h p e

theorem tidy_ok {r : Except Nat State} (e : r = .ok t) (h : tidyOk r) : t.tidy = true := h t e

theorem State.tidy_each {β : Type} {f : State → β → State} {l : List β} (hs : s.tidy = true)
    (hf : ∀ t x, t.tidy = true → (f t x).tidy = true) : (l.foldl f s).tidy = true := State.tidy_foldl f l s hs hf

theorem tidySome_foldl {β : Type} {f : β → State → Option State} {l : List β} {o : Option State} (h : tidySome id o)
    (hf : ∀ x t, t.tidy = true → tidySome id (f x t)) : tidySome id (l.foldl (fun o x => o.bind (f x)) o) := by
  induction l generalizing o with
  | nil => exact h
  | cons x r ih => exact ih (tidySome_bind h (hf x))

theorem tidySome_findSome? {α β : Type} {st : β → State} {f : α → Option β} {l : List α} (hf : ∀ a, tidySome st (f a)) :
    tidySome st (l.findSome? f) := by
  intro b e
  obtain ⟨a, _, ha⟩ := List.exists_of_findSome?_eq_some e
  exact hf a b ha

/-- Entries copied to other keys keep the canonical form of a table. -/
theorem canon_copyKeys {α : Type} [DecidableEq α] (d : α) (lo n dst : Nat) (m : List (Nat × α)) (h : canon d m = true) :
    canon d (copyKeys lo n dst m) = true := by
  have hcopied : ∀ (l acc : List (Nat × α)), (∀ e ∈ l, e.2 ≠ d) → canon d acc = true →
      canon d (l.foldl (fun m e => put m (dst + (e.1 - lo)) e.2) acc) = true := by
    intro l
    induction l with
    | nil => exact fun acc _ hacc => hacc
    | cons e r ih =>
      exact fun acc hl hacc => ih _ (fun x hx => hl x (List.mem_cons_of_mem _ hx))
        (canon_put d acc _ e.2 (hl e List.mem_cons_self) hacc)
  have hd : ∀ e ∈ m, e.2 ≠ d := ((canon_iff d m).mp h).2
  exact hcopied _ _ (fun e he => hd e (List.mem_filter.mp he).1) (canon_filter d m _ h)

theorem State.tidy_ite {c : Prop} [Decidable c] (hs : s.tidy = true) (ht : t.tidy = true) : (if c then s else t).tidy = true := by
  split
  · exact hs
  · exact ht

theorem Tr.tidy_ok {r : Tr} {a : Nat} {b : Bool} (e : r = .ok t a b) (h : r.Tidy) : t.tidy = true := by subst e; exact h.state
theorem Tr.tidy_wait {r : Tr} (e : r = .wait t) (h : r.Tidy) : t.tidy = true := by subst e; exact h.state
theorem Tr.tidy_fault {r : Tr} (e : r = .fault t) (h : r.Tidy) : t.tidy = true := by subst e; exact h.state

theorem Chk.tidy_ok {r : Chk} {a : Nat} {b : Bool} (e : r = .ok t a b) (h : r.Tidy) : t.tidy = true := by
  subst e; exact h.state
theorem Chk.tidy_wait {r : Chk} (e : r = .wait t) (h : r.Tidy) : t.tidy = true := by subst e; exact h.state
theorem Chk.tidy_trap {r : Chk} {a : BitVec 8} {b : DWord} (e : r = .trap t a b) (h : r.Tidy) : t.tidy = true := by
  subst e; exact h.state

theorem FRes.tidy_ok {r : FRes} {a : Word} (e : r = .ok t a) (h : r.Tidy) : t.tidy = true := by subst e; exact h.state
theorem FRes.tidy_wait {r : FRes} (e : r = .wait t) (h : r.Tidy) : t.tidy = true := by subst e; exact h.state
theorem FRes.tidy_fault {r : FRes} (e : r = .fault t) (h : r.Tidy) : t.tidy = true := by subst e; exact h.state

theorem RdRes.tidy_ok {r : RdRes} {a : List DWord} {b : Bool} (e : r = .ok t a b) (h : r.Tidy) : t.tidy = true := by
  subst e; exact h.state
theorem RdRes.tidy_wait {r : RdRes} (e : r = .wait t) (h : r.Tidy) : t.tidy = true := by subst e; exact h.state
theorem RdRes.tidy_trap {r : RdRes} {a : BitVec 8} {b : DWord} {c : DWord} (e : r = .trap t a b c) (h : r.Tidy) : t.tidy = true := by
  subst e; exact h.state

theorem RelOut.tidy_ok {r : RelOut} (e : r = .ok t) (h : r.Tidy) : t.tidy = true := by subst e; exact h.state

theorem Collapse.tidy_ok {r : Collapse} (e : r = .ok t) (h : r.Tidy) : t.tidy = true := by subst e; exact h.state

theorem NearRes.tidy_ok {r : NearRes} {a : List Nat} (e : r = .ok t a) (h : r.Tidy) : t.tidy = true := by
  subst e; exact h.state
theorem NearRes.tidy_wait {r : NearRes} (e : r = .wait t) (h : r.Tidy) : t.tidy = true := by subst e; exact h.state
theorem NearRes.tidy_bad {r : NearRes} {a : DWord} (e : r = .bad t a) (h : r.Tidy) : t.tidy = true := by
  subst e; exact h.state

theorem CpRead.tidy_ok {r : CpRead} {a : List Byte} (e : r = .ok t a) (h : r.Tidy) : t.tidy = true := by
  subst e; exact h.state
theorem CpRead.tidy_wait {r : CpRead} (e : r = .wait t) (h : r.Tidy) : t.tidy = true := by subst e; exact h.state
theorem CpRead.tidy_fail {r : CpRead} (e : r = .fail t) (h : r.Tidy) : t.tidy = true := by subst e; exact h.state

theorem FetchRes.tidy_ok {r : FetchRes} {a : CopyRec} (e : r = .ok t a) (h : r.Tidy) : t.tidy = true := by
  subst e; exact h.state
theorem FetchRes.tidy_wait {r : FetchRes} (e : r = .wait t) (h : r.Tidy) : t.tidy = true := by subst e; exact h.state
theorem FetchRes.tidy_bad {r : FetchRes} (e : r = .bad t) (h : r.Tidy) : t.tidy = true := by subst e; exact h.state

theorem RgChk.tidy_ok {r : RgChk} (e : r = .ok t) (h : r.Tidy) : t.tidy = true := by subst e; exact h.state
theorem RgChk.tidy_wait {r : RgChk} (e : r = .wait t) (h : r.Tidy) : t.tidy = true := by subst e; exact h.state
theorem RgChk.tidy_bad {r : RgChk} {a : Nat} {b : DWord} (e : r = .bad t a b) (h : r.Tidy) : t.tidy = true := by
  subst e; exact h.state

theorem RegRes.tidy_ok {r : RegRes} (e : r = .ok t) (h : r.Tidy) : t.tidy = true := by subst e; exact h.state
theorem RegRes.tidy_wait {r : RegRes} (e : r = .wait t) (h : r.Tidy) : t.tidy = true := by subst e; exact h.state
theorem RegRes.tidy_bad {r : RegRes} {a : Nat} {b : DWord} (e : r = .bad t a b) (h : r.Tidy) : t.tidy = true := by
  subst e; exact h.state

theorem MvRes.tidy_ok {r : MvRes} (e : r = .ok t) (h : r.Tidy) : t.tidy = true := by subst e; exact h.state
theorem MvRes.tidy_wait {r : MvRes} (e : r = .wait t) (h : r.Tidy) : t.tidy = true := by subst e; exact h.state
theorem MvRes.tidy_bad {r : MvRes} {a : Nat} {b : DWord} (e : r = .bad t a b) (h : r.Tidy) : t.tidy = true := by
  subst e; exact h.state
theorem MvRes.tidy_full {r : MvRes} (e : r = .full t) (h : r.Tidy) : t.tidy = true := by subst e; exact h.state

theorem ClaimRes.tidy_took {r : ClaimRes} (e : r = .took t) (h : r.Tidy) : t.tidy = true := by subst e; exact h.state

theorem QntRes.tidy_ok {α : Type} {r : QntRes α} {a : α} {b : Nat} (e : r = .ok t a b) (h : r.Tidy) : t.tidy = true := by
  subst e; exact h.state

theorem ImgRes.tidy_ok {r : ImgRes} {a : Bool} {b : List Saved} (e : r = .ok t a b) (h : r.Tidy) : t.tidy = true := by
  subst e; exact h.state
theorem ImgRes.tidy_read {r : ImgRes} {q : RdRes} (e : r = .read q) (h : r.Tidy) : q.Tidy := by subst e; exact h.state

theorem ElemRes.tidy_ok {r : ElemRes} {a : Nat} {b : Bool} (e : r = .ok t a b) (h : r.Tidy) : t.tidy = true := by
  subst e; exact h.state
theorem ElemRes.tidy_wait {r : ElemRes} (e : r = .wait t) (h : r.Tidy) : t.tidy = true := by subst e; exact h.state
theorem ElemRes.tidy_fail {r : ElemRes} {a : Mark} (e : r = .fail t a) (h : r.Tidy) : t.tidy = true := by
  subst e; exact h.state

theorem DescRead.tidy_ok {r : DescRead} {a : Desc} (e : r = .ok t a) (h : r.Tidy) : t.tidy = true := by subst e; exact h.state
theorem DescRead.tidy_wait {r : DescRead} (e : r = .wait t) (h : r.Tidy) : t.tidy = true := by subst e; exact h.state
theorem DescRead.tidy_refuse {r : DescRead} {a : Nat} (e : r = .refuse t a) (h : r.Tidy) : t.tidy = true := by
  subst e; exact h.state

theorem GRead.tidy_ok {α : Type} {r : GRead α} {a : α} (e : r = .ok t a) (h : r.Tidy) : t.tidy = true := by
  subst e; exact h.state
theorem GRead.tidy_wait {α : Type} {r : GRead α} (e : r = .wait t) (h : r.Tidy) : t.tidy = true := by subst e; exact h.state
theorem GRead.tidy_refuse {α : Type} {r : GRead α} {a : Nat} (e : r = .refuse t a) (h : r.Tidy) : t.tidy = true := by
  subst e; exact h.state

theorem LaneTry.tidy_act {r : LaneTry} {q : Res} (e : r = .act q) (h : r.Tidy) : q.Tidy := by subst e; exact h.state

/-! ### Operations of Machine/Cells -/

theorem State.tidy_applyCollapse {w : Nat} {cv : Option Nat} {nv : CellVal} (h : s.tidy = true) :
    tidySome id (s.applyCollapse w cv nv) := by
  unfold State.applyCollapse
  exact fun _ e => State.tidy_applyVals h e

/-! ### Operations of Machine/Rings -/

theorem State.tidy_writeCompletion {c : Completion} (h : s.tidy = true) : (s.writeCompletion c).tidy = true := by
  unfold State.writeCompletion
  dsimp only
  split
  · exact h
  · exact State.tidy_mk (State.tidy_setBytes _ _ _ h)

theorem State.tidy_pumpList {ch : Nat} {l : List Completion} (h : s.tidy = true) : (s.pumpList ch l).1.tidy = true := by
  induction l generalizing s ch with
  | nil => exact h
  | cons a r ih =>
    unfold State.pumpList
    split
    · exact ih (State.tidy_writeCompletion h)
    · exact ih h

theorem State.tidy_pump {ch : Nat} (h : s.tidy = true) : (s.pump ch).tidy = true := State.tidy_mk (State.tidy_pumpList h)

theorem State.tidy_complete {ch : Nat} {tag : Word} {kind status : Nat} {body : List Byte} (h : s.tidy = true) :
    (s.complete ch tag kind status body).tidy = true :=
  State.tidy_pump (State.tidy_mk h)

theorem State.tidy_originate {kind : Nat} {body : List Byte} (h : s.tidy = true) : (s.originate kind body).tidy = true :=
  State.tidy_complete (State.tidy_mk h)

theorem State.tidy_forward {e : Event} (h : s.tidy = true) : (s.forward e).tidy = true :=
  State.tidy_originate (State.tidy_mk h)

theorem State.tidy_post {src kind : Nat} {d0 d1 : DWord} (h : s.tidy = true) : (s.post src kind d0 d1).tidy = true := by
  unfold State.post
  dsimp only
  split
  · split <;> exact State.tidy_mk h
  · exact State.tidy_forward h

theorem State.tidy_inResponse {f : State → State} (h : s.tidy = true) (hf : ∀ t, t.tidy = true → (f t).tidy = true) :
    (s.inResponse f).tidy = true :=
  State.tidy_mk (hf _ (State.tidy_mk h))

/-! ### Operations of Machine/Vm -/

theorem State.tidy_fillHidden {w : Nat} (h : s.tidy = true) : (s.fillHidden w).tidy = true :=
  State.tidy_each h (fun _ _ h1 => State.tidy_ite (State.tidy_fill _ _ _ h1) h1)

theorem State.tidy_keepHidden {w : Nat} {q : StoreReq} (h : s.tidy = true) : (s.keepHidden w q).tidy = true := by
  unfold State.keepHidden
  split
  · exact State.tidy_mk h
  · split
    · exact State.tidy_mk h
    · exact h
  · exact State.tidy_mk (State.tidy_makeLine _ _ _ h)

theorem State.tidy_postFault {ctx va acc : Nat} (h : s.tidy = true) : (s.postFault ctx va acc).Tidy := by
  unfold State.postFault
  dsimp only
  split
  · split
    · exact ⟨State.tidy_mk h⟩
    · exact ⟨h⟩
  · exact ⟨State.tidy_originate (State.tidy_mk h)⟩

theorem State.tidy_useEntry {e : TlbEnt} {va : Nat} {acc : AccK} {tc : Bool} (h : s.tidy = true) :
    (s.useEntry e va acc tc).Tidy := by
  unfold State.useEntry
  split
  · exact ⟨h⟩
  · dsimp only
    split <;> exact ⟨h⟩

theorem State.tidy_translate {c ctx : Nat} {va : DWord} {acc : AccK} {tc : Bool} (h : s.tidy = true) :
    (s.translate c ctx va acc tc).Tidy := by
  unfold State.translate
  split
  · exact ⟨h⟩
  · split
    · dsimp only
      split
      · exact State.tidy_useEntry (State.tidy_mk h)
      · exact ⟨h⟩
    · split
      · dsimp only
        split
        · exact State.tidy_useEntry (State.tidy_mk h)
        · split
          · exact State.tidy_postFault h
          · exact ⟨h⟩
          · split
            · exact ⟨h⟩
            · split
              · exact ⟨h⟩
              · exact State.tidy_useEntry (State.tidy_mk (State.tidy_mk (State.tidy_each h (fun _ _ h1 => State.tidy_orEntry _
                  _ _ _ h1))))
      · dsimp only
        split
        · exact State.tidy_useEntry (State.tidy_mk h)
        · split
          · exact State.tidy_postFault h
          · exact ⟨h⟩
          · split
            · exact ⟨h⟩
            · split
              · exact ⟨h⟩
              · exact State.tidy_useEntry (State.tidy_mk (State.tidy_mk (State.tidy_each h (fun _ _ h1 => State.tidy_orEntry _
                  _ _ _ h1))))

theorem State.tidy_tryLock {c : Nat} {ls : List RangeLock} (h : s.tidy = true) : tidySome id (s.tryLock c ls) := by
  unfold State.tryLock
  dsimp only
  split
  · exact tidySome_none
  · split
    · exact tidySome_none
    · exact tidySome_some (State.tidy_mk h)

/-! ### Operations of Machine/Seats -/

theorem State.tidy_captureAt {t lv : Nat} {c : Cap} (h : s.tidy = true) : tidySome id (s.captureAt t lv c) := by
  unfold State.captureAt
  split
  · exact tidySome_some h
  · split
    · exact tidySome_some h
    · split
      · exact tidySome_some h
      · split
        · exact tidySome_some (State.tidy_mk h)
        · exact tidySome_none

theorem State.tidy_capture {t : Nat} {c : Cap} (h : s.tidy = true) : tidySome id (s.capture t c) := State.tidy_captureAt h

theorem State.tidy_captureLineAt {t lv w : Nat} {hidden : Bool} (h : s.tidy = true) :
    tidySome id (s.captureLineAt t lv w hidden) := by
  unfold State.captureLineAt
  split
  · exact tidySome_some h
  · split
    · exact tidySome_some h
    · split
      · dsimp only
        split
        · exact tidySome_none
        · exact tidySome_some h
      · dsimp only
        split
        · exact tidySome_none
        · exact State.tidy_captureAt h

theorem State.tidy_captureLine {t w : Nat} {hidden : Bool} (h : s.tidy = true) : tidySome id (s.captureLine t w hidden) :=
  State.tidy_captureLineAt h

theorem State.tidy_noteWroteAt {t lv w : Nat} (h : s.tidy = true) : (s.noteWroteAt t lv w).tidy = true := by
  unfold State.noteWroteAt
  split
  · exact h
  · split
    · exact h
    · split
      · exact h
      · exact State.tidy_mk h

theorem State.tidy_noteWrote {t w : Nat} (h : s.tidy = true) : (s.noteWrote t w).tidy = true := State.tidy_noteWroteAt h

theorem State.tidy_renewInside {t lv : Nat} {c : Cap} {o : Nat} {v : Word} (h : s.tidy = true) :
    (s.renewInside t lv c o v).tidy = true := by
  unfold State.renewInside
  split
  · exact h
  · exact State.tidy_mk h

theorem State.tidy_recordFail {t : Nat} {f : FailRec} (h : s.tidy = true) : (s.recordFail t f).tidy = true := by
  unfold State.recordFail
  split
  · exact h
  · split <;> exact State.tidy_mk h

theorem State.tidy_failAlt {t level cause ftrap fgid : Nat} (h : s.tidy = true) :
    (s.failAlt t level cause ftrap fgid).tidy = true :=
  State.tidy_each (State.tidy_recordFail h) (fun _ _ h1 => State.tidy_recordFail h1)

theorem State.tidy_captureRegs {k : Nat} {g : Group} {l : List RegId} (h : s.tidy = true) :
    tidySome id (s.captureRegs k g l) := by
  induction l generalizing s k g with
  | nil => exact tidySome_some h
  | cons a r ih =>
    unfold State.captureRegs
    split
    · exact tidySome_none
    · rename_i e
      exact ih (tidy_some e (State.tidy_capture h))

theorem State.tidy_captureTop {k : Nat} {g : Group} (h : s.tidy = true) : (s.captureTop k g).tidy = true := by
  unfold State.captureTop
  split
  · rename_i e
    exact tidy_some e (State.tidy_captureRegs h)
  · exact State.tidy_failAlt h

theorem State.tidy_endChains {c ch : Nat} {bad : Bool} {p : Chain → Bool} (h : s.tidy = true) :
    (s.endChains c ch bad p).tidy = true :=
  State.tidy_mk (State.tidy_ite (State.tidy_ite (State.tidy_mk (State.tidy_each h (fun _ _ h1 => State.tidy_mk h1)))
    (State.tidy_each h (fun _ _ h1 => State.tidy_mk h1))) (State.tidy_mk (State.tidy_ite (State.tidy_mk (State.tidy_each h
    (fun _ _ h1 => State.tidy_mk h1))) (State.tidy_each h (fun _ _ h1 => State.tidy_mk h1)))))

theorem State.tidy_bindFirst {c ch : Nat} (h : s.tidy = true) : (s.bindFirst c ch).tidy = true := by
  unfold State.bindFirst
  dsimp only
  split
  · exact h
  · split
    · exact State.tidy_mk h
    · exact State.tidy_mk (State.tidy_mk (State.tidy_mk (State.tidy_mk (State.tidy_mk h))))

theorem State.tidy_freeChans {c t : Nat} (h : s.tidy = true) : (s.freeChans c t).tidy = true :=
  State.tidy_each (State.tidy_mk h) (fun _ _ h1 => State.tidy_bindFirst h1)

theorem State.tidy_haltChan {c ch code : Nat} {recA dataA : DWord} (h : s.tidy = true) :
    (s.haltChan c ch code recA dataA).tidy = true := by
  unfold State.haltChan
  refine State.tidy_mk (State.tidy_endChains ?_)
  split
  · exact h
  · split
    · exact h
    · exact State.tidy_failAlt h

theorem State.tidy_abortChains {t lv : Nat} (h : s.tidy = true) : (s.abortChains t lv).tidy = true :=
  State.tidy_each h (fun _ _ h1 => State.tidy_ite (State.tidy_endChains h1) h1)

theorem State.tidy_restoreCap {wrote : List Nat} {c : Cap} (h : s.tidy = true) : (s.restoreCap wrote c).tidy = true := by
  unfold State.restoreCap
  split
  · exact State.tidy_mk h
  · exact State.tidy_mk h
  · exact State.tidy_mk h
  · split
    · exact State.tidy_mk h
    · exact h
  · exact State.tidy_each h (fun _ _ h1 => State.tidy_ite (State.tidy_mk (State.tidy_setWord _ _ _ (State.tidy_writeBackAll _
      _ _ h1))) h1)

theorem State.tidy_restoreLevel {l : Level} (h : s.tidy = true) : (s.restoreLevel l).tidy = true :=
  State.tidy_each h (fun _ _ h1 => State.tidy_restoreCap h1)

theorem State.tidy_unhide {t w : Nat} {x : L1Word} (h : s.tidy = true) : (s.unhide t w x).tidy = true := by
  unfold State.unhide
  split <;> exact State.tidy_mk h

theorem State.tidy_dropHidden {t lv : Nat} {q : Nat → Bool} (h : s.tidy = true) : (s.dropHidden t lv q).tidy = true :=
  State.tidy_each (State.tidy_each (State.tidy_takeBackOn _ _ _ _ (State.tidy_mk h)) (fun _ _ h1 => State.tidy_unhide h1))
    (fun _ _ h1 => State.tidy_evictLine _ _ _ h1)

theorem State.tidy_giveBack {k : Nat} (h : s.tidy = true) : (s.giveBack k).tidy = true := by
  unfold State.giveBack
  split
  · exact h
  · split
    · split
      · exact State.tidy_mk h
      · split
        · exact State.tidy_mk (State.tidy_mk h)
        · exact State.tidy_mk (State.tidy_mk (State.tidy_mk h))
    · exact h

theorem State.tidy_unrequest {k : Nat} (h : s.tidy = true) : (s.unrequest k).tidy = true := by
  unfold State.unrequest
  split
  · exact h
  · exact State.tidy_mk (State.tidy_mk h)

theorem State.tidy_rollTo {t lv : Nat} (h : s.tidy = true) : (s.rollTo t lv).tidy = true := by
  unfold State.rollTo
  split
  · exact h
  · dsimp only
    split
    · exact State.tidy_dropHidden (State.tidy_each (State.tidy_mk (State.tidy_abortChains (State.tidy_each (State.tidy_mk
        (State.tidy_each h (fun _ _ h1 => State.tidy_each (State.tidy_mk h1) (fun _ _ h2 => State.tidy_testStore _ _ h2))))
        (fun _ _ h1 => State.tidy_unrequest (State.tidy_giveBack h1))))) (fun _ _ h1 => State.tidy_restoreLevel h1))
    · split
      · exact State.tidy_dropHidden (State.tidy_each (State.tidy_mk (State.tidy_abortChains (State.tidy_each (State.tidy_mk
          (State.tidy_each h (fun _ _ h1 => State.tidy_each (State.tidy_mk h1) (fun _ _ h2 => State.tidy_testStore _ _ h2))))
          (fun _ _ h1 => State.tidy_unrequest (State.tidy_giveBack h1))))) (fun _ _ h1 => State.tidy_restoreLevel h1))
      · exact State.tidy_mk (State.tidy_mk (State.tidy_dropHidden (State.tidy_each (State.tidy_mk (State.tidy_abortChains
          (State.tidy_each (State.tidy_mk (State.tidy_each h (fun _ _ h1 => State.tidy_each (State.tidy_mk h1) (fun _ _ h2 =>
          State.tidy_testStore _ _ h2)))) (fun _ _ h1 => State.tidy_unrequest (State.tidy_giveBack h1))))) (fun _ _ h1 =>
          State.tidy_restoreLevel h1))))

/-! ### Operations of Machine/AtHome -/

theorem State.tidy_bringHome {c w : Nat} (h : s.tidy = true) : (s.bringHome c w).tidy = true := by
  unfold State.bringHome
  dsimp only
  split
  · split
    · exact State.tidy_fillHidden (State.tidy_writeBackAll _ _ _ (State.tidy_flushReqs _ _ _ h))
    · exact State.tidy_mk (State.tidy_fillHidden (State.tidy_writeBackAll _ _ _ (State.tidy_flushReqs _ _ _ h)))
  · exact State.tidy_fillHidden (State.tidy_writeBackAll _ _ _ (State.tidy_flushReqs _ _ _ h))

theorem State.tidy_atomRead {k w : Nat} (h : s.tidy = true) : (s.atomRead k w).1.tidy = true := State.tidy_bringHome h

theorem State.tidy_atomWrite {k : Nat} {g : Group} {va : DWord} {w : Nat} {new : Word} {rd : Dot} (h : s.tidy = true) :
    tidySome Prod.fst (s.atomWrite k g va w new rd) := by
  unfold State.atomWrite
  dsimp only
  split
  · exact tidySome_none
  · rename_i e
    split
    · exact tidySome_some (State.tidy_noteWrote (tidy_some e (State.tidy_captureLine h)))
    · rename_i e1
      exact tidySome_some (State.tidy_mk (State.tidy_keepHidden (State.tidy_storeAtHome (State.tidy_noteWrote (tidy_some e
        (State.tidy_captureLine h))) e1)))

theorem State.tidy_atomGlobal {k : Nat} {va : DWord} {w : Nat} {op : AtomOp} {t : Ty} {b cmp : Word} (h : s.tidy = true) :
    tidySome Prod.fst (s.atomGlobal k va w op t b cmp) := by
  unfold State.atomGlobal
  split
  · exact tidySome_none
  · split
    · rename_i e
      split
      · exact tidySome_some (tidy_fst e (State.tidy_atomRead h))
      · dsimp only
        split
        · exact tidySome_some (tidy_fst e (State.tidy_atomRead h))
        · exact tidySome_map (State.tidy_atomWrite (tidy_fst e (State.tidy_atomRead h))) (fun _ h1 => h1)

theorem State.tidy_bopWord {k : Nat} {op : BankOp} {b : Word} {r : BankRun} {w : Nat} (h : s.tidy = true) :
    tidySome Prod.fst (s.bopWord k op b r w) := by
  unfold State.bopWord
  split
  · exact tidySome_none
  · split
    · dsimp only
      split
      · exact tidySome_some (State.tidy_bringHome h)
      · split
        · exact tidySome_some (State.tidy_bringHome h)
        · split
          · exact tidySome_none
          · rename_i e
            split
            · exact tidySome_some (tidy_some e (State.tidy_captureLine (State.tidy_bringHome h)))
            · rename_i e1
              exact tidySome_some (State.tidy_mk (State.tidy_keepHidden (State.tidy_storeAtHome (tidy_some e
                (State.tidy_captureLine (State.tidy_bringHome h))) e1)))
    · dsimp only
      split
      · exact tidySome_some (State.tidy_bringHome h)
      · split
        · exact tidySome_some (State.tidy_bringHome h)
        · split
          · exact tidySome_none
          · rename_i e
            split
            · exact tidySome_some (tidy_some e (State.tidy_captureLine (State.tidy_bringHome h)))
            · rename_i e1
              exact tidySome_some (State.tidy_mk (State.tidy_keepHidden (State.tidy_storeAtHome (tidy_some e
                (State.tidy_captureLine (State.tidy_bringHome h))) e1)))

theorem State.tidy_bopRun {k : Nat} {op : BankOp} {b : Word} {n : Nat} {b2 : BankRun} (h : s.tidy = true) :
    tidySome Prod.fst (s.bopRun k op b n b2) := by
  induction n generalizing s k op b b2 with
  | zero => exact tidySome_some h
  | succ n ih =>
    unfold State.bopRun
    split
    · exact tidySome_some h
    · split
      · exact tidySome_none
      · rename_i e
        exact ih (tidy_some_fst e (State.tidy_bopWord h))

theorem State.tidy_finishAtom {k : Nat} {r : AtomReq} {w : Nat} (h : s.tidy = true) : (s.finishAtom k r w).tidy = true := by
  unfold State.finishAtom
  split
  · exact tidy_getD (tidySome_map (State.tidy_atomWrite h) (fun _ h1 => h1)) h
  · exact tidy_getD (tidySome_map (State.tidy_atomGlobal h) (fun _ h1 => h1)) h
  · exact h

theorem State.tidy_finishWrites {k : Nat} (h : s.tidy = true) : (s.finishWrites k).tidy = true := by
  unfold State.finishWrites
  split
  · exact h
  · split
    · split
      · refine tidy_getD (tidySome_map (State.tidy_bopRun (State.tidy_each h ?_)) (fun _ h1 => h1)) (State.tidy_each h ?_)
        · intro _ _ h1
          split
          · exact State.tidy_finishAtom h1
          · exact h1
        · intro _ _ h1
          split
          · exact State.tidy_finishAtom h1
          · exact h1
      · refine State.tidy_each h (fun _ _ h1 => ?_)
        split
        · exact State.tidy_finishAtom h1
        · exact h1
    · refine State.tidy_each h (fun _ _ h1 => ?_)
      split
      · exact State.tidy_finishAtom h1
      · exact h1

/-! ### Operations of Machine/Ends -/

theorem State.tidy_dropGroup {k : Nat} (h : s.tidy = true) : (s.dropGroup k).tidy = true := by
  unfold State.dropGroup
  split
  · exact h
  · exact State.tidy_mk (State.tidy_mk (State.tidy_unrequest (State.tidy_giveBack (State.tidy_mk h))))

theorem State.tidy_dropCreates {c t : Nat} (h : s.tidy = true) : (s.dropCreates c t).tidy = true :=
  State.tidy_each h (fun _ _ h1 => State.tidy_mk h1)

theorem State.tidy_dropTeam {t : Nat} (h : s.tidy = true) : (s.dropTeam t).tidy = true :=
  State.tidy_mk (State.tidy_mk (State.tidy_freeChans (State.tidy_mk (State.tidy_dropCreates h))))

theorem State.tidy_finishGraph {gi comp : Nat} {st : Word} (h : s.tidy = true) : (s.finishGraph gi comp st).tidy = true := by
  unfold State.finishGraph
  split
  · exact h
  · split
    · exact State.tidy_complete (State.tidy_mk h)
    · exact h

theorem State.tidy_endLaunch {l comp : Nat} {st : Word} (h : s.tidy = true) : (s.endLaunch l comp st).tidy = true := by
  unfold State.endLaunch
  split
  · exact h
  · split
    · exact h
    · split
      · exact State.tidy_complete (State.tidy_mk h)
      · exact State.tidy_finishGraph (State.tidy_mk (State.tidy_mk h))

theorem State.tidy_endLaunches {ctx comp : Nat} {st : Word} (h : s.tidy = true) : (s.endLaunches ctx comp st).tidy = true :=
  State.tidy_each (State.tidy_mk (State.tidy_each h (fun _ _ h1 => State.tidy_endLaunch h1))) (fun _ _ h1 =>
    State.tidy_finishGraph h1)

theorem State.tidy_quietGroup {k : Nat} (h : s.tidy = true) : (s.quietGroup k).tidy = true :=
  State.tidy_each (State.tidy_testAll _ _ h) (fun _ _ h1 => State.tidy_writeBack _ _ _ h1)

theorem State.tidy_haltTeams {p : Team → Bool} (h : s.tidy = true) : (s.haltTeams p).tidy = true :=
  State.tidy_mk (State.tidy_each (State.tidy_each (State.tidy_mk (State.tidy_each (State.tidy_each (State.tidy_each
    (State.tidy_each h (fun _ _ h1 => State.tidy_finishWrites h1)) (fun _ _ h1 => State.tidy_ite h1 (State.tidy_rollTo h1)))
    (fun _ _ h1 => State.tidy_each h1 (fun _ _ h2 => State.tidy_ite (State.tidy_endChains h2) h2))) (fun _ _ h1 =>
    State.tidy_quietGroup h1))) (fun _ _ h1 => State.tidy_dropGroup h1)) (fun _ _ h1 => State.tidy_dropTeam h1))

theorem State.tidy_postHalt {ctx : Nat} {st : Word} {src : Nat} (h : s.tidy = true) : (s.postHalt ctx st src).tidy = true :=
  State.tidy_post h

theorem State.tidy_haltCtx {ctx : Nat} {st : Word} {src comp : Nat} (h : s.tidy = true) :
    (s.haltCtx ctx st src comp).tidy = true :=
  State.tidy_postHalt (State.tidy_endLaunches (State.tidy_mk (State.tidy_haltTeams h)))

theorem State.tidy_endCtx {ctx : Nat} {st : Word} {src : Nat} (h : s.tidy = true) : (s.endCtx ctx st src).tidy = true :=
  State.tidy_haltCtx h

/-! ### Operations of Machine/Ops -/

theorem tidy_withG {f : Group → Res} (hf : ∀ g, Res.Tidy (f g)) : Res.Tidy (withG s f) := by
  unfold withG
  split
  · exact ⟨trivial⟩
  · exact hf _

theorem tidy_done {g : Group} (h : s.tidy = true) : Res.Tidy (done s g) := ⟨State.tidy_mk h⟩

theorem tidy_doneWith {f : Group → Group} (h : s.tidy = true) : Res.Tidy (doneWith s f) := tidy_withG (fun _ => tidy_done h)

theorem tidy_goto {g : Group} {a : DWord} (h : s.tidy = true) : Res.Tidy (goto s g a) := ⟨State.tidy_mk h⟩

theorem tidy_gotoWith {f : Group → Group} {a : DWord} (h : s.tidy = true) : Res.Tidy (gotoWith s f a) :=
  tidy_withG (fun _ => tidy_goto h)

theorem tidy_alu {d : XReg} {f : Group → DWord} (h : s.tidy = true) : Res.Tidy (alu s d f) :=
  tidy_withG (fun _ => tidy_done h)

theorem tidy_block {g : Group} {row : WaitRow} (h : s.tidy = true) : Res.Tidy (block s g row) := ⟨State.tidy_mk h⟩

theorem State.tidy_consume {k : Nat} (h : s.tidy = true) : (s.consume k).tidy = true := by
  unfold State.consume
  split
  · exact h
  · dsimp only
    split
    · exact State.tidy_mk h
    · split
      · exact State.tidy_mk h
      · exact State.tidy_mk (State.tidy_mk h)

theorem State.tidy_consumeIf {k : Nat} {p : Bool} (h : s.tidy = true) : (s.consumeIf k p).tidy = true := by
  unfold State.consumeIf
  split
  · exact State.tidy_consume h
  · exact h

theorem State.tidy_countAcc {k : Nat} {p : Path} (h : s.tidy = true) : (s.countAcc k p).2.tidy = true := by
  unfold State.countAcc
  split
  · exact h
  · exact State.tidy_mk h

theorem State.tidy_parkBytes {k : Nat} {why : ParkWhy} {bytes : List (Nat × Byte)} {w64 : Bool} {path : Path} {seq : Nat}
    {lp : LanePos} (h : s.tidy = true) : (s.parkBytes k why bytes w64 path seq lp).tidy = true := by
  unfold State.parkBytes
  split
  · exact h
  · exact State.tidy_mk (State.tidy_mk h)

theorem State.tidy_escalate {k : Nat} {st : Word} (h : s.tidy = true) : (s.escalate k st).tidy = true := by
  unfold State.escalate
  split
  · exact h
  · exact State.tidy_endCtx (State.tidy_post (State.tidy_mk h))

theorem State.tidy_doubleFault {k : Nat} (h : s.tidy = true) : (s.doubleFault k).tidy = true := State.tidy_escalate h

theorem State.tidy_storeRaw {k pa n v : Nat} {lane : Bool} (h : s.tidy = true) : (s.storeRaw k pa n v lane).tidy = true :=
  State.tidy_mk (State.tidy_ite (State.tidy_setBytes _ _ _ h) (State.tidy_mk (State.tidy_mk (State.tidy_setBytes _ _ _ h))))

theorem State.tidy_storeDwords {k : Nat} {va : DWord} {pa : Nat} {mt : Bool} {l : List DWord} (h : s.tidy = true) :
    (s.storeDwords k va pa mt l).tidy = true := by
  induction l generalizing s k va pa mt with
  | nil => exact h
  | cons a r ih =>
    unfold State.storeDwords
    split
    · exact h
    · exact ih (State.tidy_ite (State.tidy_storeRaw (State.tidy_mk h)) (State.tidy_storeL1 _ _ (State.tidy_mk h)))

theorem State.tidy_storeFields {k : Nat} {va : DWord} {pa : Nat} {mt : Bool} {l : List DWord} (h : s.tidy = true) :
    (s.storeFields k va pa mt l).tidy = true := by
  unfold State.storeFields
  split
  · exact h
  · split
    · exact State.tidy_mk (State.tidy_mk h)
    · exact State.tidy_storeDwords h

theorem State.tidy_load64 {c pa : Nat} {cv : Option Nat} (h : s.tidy = true) : (s.load64 c pa cv).1.tidy = true :=
  State.tidy_loadWord _ _ _ _ (State.tidy_loadWord _ _ _ _ h)

theorem State.tidy_takeDw {k pa : Nat} {mt : Bool} (h : s.tidy = true) : (s.takeDw k pa mt).1.tidy = true := by
  unfold State.takeDw
  split
  · exact State.tidy_consumeIf h
  · exact State.tidy_consumeIf (State.tidy_load64 h)

theorem State.tidy_withdraw {k : Nat} (h : s.tidy = true) : (s.withdraw k).tidy = true := by
  unfold State.withdraw
  split
  · exact h
  · exact State.tidy_unrequest (State.tidy_giveBack (State.tidy_mk h))

theorem State.tidy_enterAt {k : Nat} {g : Group} {e : Entering} {fa h2 : DWord} (h : s.tidy = true) :
    (s.enterAt k g e fa h2).tidy = true := by
  unfold State.enterAt
  split
  · exact State.tidy_escalate h
  · split
    · exact State.tidy_doubleFault h
    · exact State.tidy_mk (State.tidy_captureTop h)

theorem State.tidy_enterVector {k : Nat} {g : Group} {e : Entering} (h : s.tidy = true) : (s.enterVector k g e).tidy = true :=
    by
  unfold State.enterVector
  dsimp only
  split
  · rename_i e
    exact Tr.tidy_wait e (State.tidy_translate h)
  · rename_i e
    exact State.tidy_doubleFault (Tr.tidy_fault e (State.tidy_translate h))
  · rename_i e
    split
    · exact State.tidy_doubleFault (Tr.tidy_ok e (State.tidy_translate h))
    · split
      · exact State.tidy_mk (Tr.tidy_ok e (State.tidy_translate h))
      · exact State.tidy_enterAt (State.tidy_takeDw (Tr.tidy_ok e (State.tidy_translate h)))

theorem State.tidy_enterFrame {k : Nat} {g : Group} {e : Entering} (h : s.tidy = true) : (s.enterFrame k g e).tidy = true :=
    by
  unfold State.enterFrame
  dsimp only
  split
  · rename_i e
    exact Tr.tidy_wait e (State.tidy_translate h)
  · rename_i e
    exact State.tidy_doubleFault (Tr.tidy_fault e (State.tidy_translate h))
  · rename_i e
    split
    · exact State.tidy_doubleFault (Tr.tidy_ok e (State.tidy_translate h))
    · split
      · exact State.tidy_mk (Tr.tidy_ok e (State.tidy_translate h))
      · exact State.tidy_enterVector (State.tidy_mk (State.tidy_storeFields (Tr.tidy_ok e (State.tidy_translate h))))

theorem State.tidy_stepEntry {k : Nat} (h : s.tidy = true) : (s.stepEntry k).tidy = true := by
  unfold State.stepEntry
  split
  · exact h
  · split
    · exact h
    · split
      · exact h
      · split
        · exact State.tidy_enterVector h
        · exact State.tidy_enterFrame h

theorem State.tidy_startTrap {k : Nat} {e : Entering} (h : s.tidy = true) : (s.startTrap k e).tidy = true :=
  State.tidy_stepEntry (State.tidy_mk (State.tidy_withdraw h))

theorem State.tidy_takeTrap {k : Nat} {g : Group} {p : PendTrap} {spc : DWord} {old : Bool} (h : s.tidy = true) :
    (s.takeTrap k g p spc old).tidy = true := by
  unfold State.takeTrap
  split
  · exact State.tidy_failAlt h
  · split
    · split
      · exact State.tidy_mk h
      · exact State.tidy_doubleFault h
    · split
      · exact State.tidy_startTrap h
      · split
        · exact State.tidy_mk h
        · exact State.tidy_startTrap (State.tidy_mk h)

theorem tidy_raise {num : BitVec 8} {addr info : DWord} (h : s.tidy = true) : Res.Tidy (raise s num addr info) :=
  tidy_withG (fun _ => ⟨State.tidy_takeTrap h⟩)

theorem tidy_raiseNext {num : BitVec 8} {info : DWord} (h : s.tidy = true) : Res.Tidy (raiseNext s num info) :=
  tidy_withG (fun _ => ⟨State.tidy_takeTrap h⟩)

theorem tidy_raiseLane {g : Group} {e : LaneEntry} {num : BitVec 8} {addr info : DWord} (h : s.tidy = true) :
    Res.Tidy (raiseLane s g e num addr info) :=
  ⟨State.tidy_takeTrap h⟩

theorem tidy_waitLane {g : Group} (h : s.tidy = true) : Res.Tidy (waitLane s g) := by
  unfold waitLane
  split
  · exact ⟨State.tidy_doubleFault h⟩
  · split
    · exact tidy_raise (State.tidy_mk h)
    · exact ⟨h⟩

theorem tidy_needK {g : Group} {j : KReg} {r : Res} (h : s.tidy = true) (hr : Res.Tidy r) : Res.Tidy (needK s g j r) := by
  unfold needK
  split
  · exact hr
  · exact tidy_waitLane h

theorem tidy_returnTrap {g : Group} (h : s.tidy = true) : Res.Tidy (returnTrap s g) := by
  unfold returnTrap
  dsimp only
  split
  · rename_i e
    exact ⟨Tr.tidy_wait e (State.tidy_translate h)⟩
  · rename_i e
    exact ⟨State.tidy_doubleFault (Tr.tidy_fault e (State.tidy_translate h))⟩
  · rename_i e
    split
    · exact ⟨State.tidy_doubleFault (Tr.tidy_ok e (State.tidy_translate h))⟩
    · split
      · exact tidy_block (Tr.tidy_ok e (State.tidy_translate h))
      · split
        · exact ⟨State.tidy_doubleFault (State.tidy_takeDw (State.tidy_takeDw (State.tidy_takeDw (State.tidy_takeDw
            (State.tidy_takeDw (State.tidy_takeDw (Tr.tidy_ok e (State.tidy_translate h))))))))⟩
        · exact ⟨State.tidy_mk (State.tidy_captureTop (State.tidy_mk (State.tidy_takeDw (State.tidy_takeDw (State.tidy_takeDw
            (State.tidy_takeDw (State.tidy_takeDw (State.tidy_takeDw (Tr.tidy_ok e (State.tidy_translate h))))))))))⟩

theorem State.tidy_chkPlace {k : Nat} {g : Group} {va : DWord} {n : Nat} {write lock : Bool} {perm : Nat → Bool} {pa : Nat}
    {mt : Bool} (h : s.tidy = true) : (s.chkPlace k g va n write lock perm pa mt).Tidy := by
  unfold State.chkPlace
  split
  · exact ⟨h⟩
  · split
    · exact ⟨h⟩
    · split <;> exact ⟨h⟩

theorem State.tidy_chkPage {k : Nat} {g : Group} {va : DWord} {n : Nat} {write lock : Bool} {perm : Nat → Bool}
    (h : s.tidy = true) : (s.chkPage k g va n write lock perm).Tidy := by
  unfold State.chkPage
  split
  · rename_i e
    split <;> exact ⟨Tr.tidy_wait e (State.tidy_translate h)⟩
  · rename_i e
    exact ⟨Tr.tidy_fault e (State.tidy_translate h)⟩
  · rename_i e
    exact State.tidy_chkPlace (Tr.tidy_ok e (State.tidy_translate h))

theorem State.tidy_chkGlobal {k : Nat} {g : Group} {va : DWord} {n al : Nat} {write lock : Bool} (h : s.tidy = true) :
    (s.chkGlobal k g va n al write lock).Tidy := by
  unfold State.chkGlobal
  split
  · exact ⟨h⟩
  · split
    · exact ⟨h⟩
    · exact State.tidy_chkPage h

theorem State.tidy_chkOrdered {k : Nat} {g : Group} {va : DWord} {n : Nat} {write : Bool} {perm : Nat → Bool}
    (h : s.tidy = true) : (s.chkOrdered k g va n write perm).Tidy := by
  unfold State.chkOrdered
  split
  · exact ⟨h⟩
  · split
    · exact ⟨h⟩
    · exact State.tidy_chkPage h

theorem State.tidy_loadN {k pa n : Nat} {mt : Bool} (h : s.tidy = true) : (s.loadN k pa n mt).1.tidy = true := by
  unfold State.loadN
  split
  · exact h
  · split
    · exact State.tidy_load64 h
    · exact State.tidy_loadWord _ _ _ _ h

theorem State.tidy_storeN {k : Nat} {va : DWord} {pa n v seq : Nat} {mt : Bool} {lp : LanePos} (h : s.tidy = true) :
    tidySome id (s.storeN k va pa n v seq mt lp) := by
  unfold State.storeN
  split
  · exact tidySome_some h
  · split
    · split
      · dsimp only
        split
        · exact tidySome_none
        · rename_i e
          exact tidySome_some (State.tidy_storeRaw (State.tidy_mk (State.tidy_noteWrote (State.tidy_noteWrote (tidy_some e
            (State.tidy_captureLine h))))))
      · dsimp only
        split
        · exact tidySome_none
        · rename_i e
          exact tidySome_some (State.tidy_storeL1 _ _ (State.tidy_mk (State.tidy_noteWrote (State.tidy_noteWrote (tidy_some e
            (State.tidy_captureLine h))))))
    · split
      · dsimp only
        split
        · exact tidySome_none
        · rename_i e
          exact tidySome_some (State.tidy_storeRaw (State.tidy_mk (State.tidy_noteWrote (tidy_some e (State.tidy_captureLine
            h)))))
      · dsimp only
        split
        · exact tidySome_none
        · rename_i e
          exact tidySome_some (State.tidy_storeL1 _ _ (State.tidy_mk (State.tidy_noteWrote (tidy_some e
            (State.tidy_captureLine h)))))

theorem State.tidy_park {k : Nat} {why : ParkWhy} {va : DWord} {n v : Nat} {path : Path} {seq : Nat} {lp : LanePos}
    (h : s.tidy = true) : (s.park k why va n v path seq lp).tidy = true :=
  State.tidy_parkBytes h

/-! ### Operations of Machine/Control -/

theorem tidy_branch {off : BitVec 13} {c : Group → Bool} (h : s.tidy = true) : Res.Tidy (branch s off c) := by
  unfold branch
  refine tidy_withG (fun _ => ?_)
  split
  · exact tidy_goto h
  · exact tidy_done h

theorem tidy_execB {o : BitVec 25} (h : s.tidy = true) : Res.Tidy (execB o s) := tidy_withG (fun _ => tidy_goto h)

theorem tidy_execLoop {a : XReg} {o : BitVec 13} (h : s.tidy = true) : Res.Tidy (execLoop a o s) := by
  unfold execLoop
  refine tidy_withG (fun _ => ?_)
  dsimp only
  split
  · exact tidy_goto h
  · exact tidy_done h

theorem tidy_maskBranch {j : KReg} {o : BitVec 13} {c : DWord → DWord → Bool} (h : s.tidy = true) :
    Res.Tidy (maskBranch s j o c) :=
  tidy_withG (fun _ => tidy_needK h (tidy_branch h))

theorem tidy_withSpill {g : Group} {n : Nat} {acc : AccK} {f : State → Nat → Bool → Res} (h : s.tidy = true)
    (hf : ∀ t x1 x2, t.tidy = true → Res.Tidy (f t x1 x2)) : Res.Tidy (withSpill s g n acc f) := by
  unfold withSpill
  dsimp only
  split
  · rename_i e
    exact ⟨Tr.tidy_wait e (State.tidy_translate h)⟩
  · rename_i e
    exact tidy_raise (Tr.tidy_fault e (State.tidy_translate h))
  · rename_i e
    split
    · exact tidy_raise (Tr.tidy_ok e (State.tidy_translate h))
    · split
      · exact tidy_block (Tr.tidy_ok e (State.tidy_translate h))
      · exact hf _ _ _ (Tr.tidy_ok e (State.tidy_translate h))

theorem tidy_withPush {g : Group} {a : DWord} {f : State → (Group → Group) → Res} (h : s.tidy = true)
    (hf : ∀ t x1, t.tidy = true → Res.Tidy (f t x1)) : Res.Tidy (withPush s g a f) := by
  unfold withPush
  split
  · exact tidy_raise h
  · split
    · exact hf _ _ h
    · exact tidy_withSpill h (fun _ _ _ h1 => hf _ _ (State.tidy_storeFields h1))

theorem tidy_withPop {g : Group} {f : State → (Group → Group) → DWord → Res} (h : s.tidy = true)
    (hf : ∀ t x1 x2, t.tidy = true → Res.Tidy (f t x1 x2)) : Res.Tidy (withPop s g f) := by
  unfold withPop
  split
  · exact tidy_raise h
  · split
    · exact tidy_raise h
    · split
      · exact tidy_raise h
      · split
        · exact tidy_withSpill h (fun _ _ _ h1 => hf _ _ _ (State.tidy_takeDw h1))
        · exact hf _ _ _ h

theorem tidy_execCall {o : BitVec 25} (h : s.tidy = true) : Res.Tidy (execCall o s) :=
  tidy_withG (fun _ => tidy_withPush h (fun _ _ h1 => tidy_gotoWith h1))

theorem tidy_execCalli {a : XReg} (h : s.tidy = true) : Res.Tidy (execCalli a s) := by
  unfold execCalli
  refine tidy_withG (fun _ => ?_)
  split
  · exact tidy_raise h
  · exact tidy_withPush h (fun _ _ h1 => tidy_gotoWith h1)

theorem tidy_execRet (h : s.tidy = true) : Res.Tidy (execRet s) :=
  tidy_withG (fun _ => tidy_withPop h (fun _ _ _ h1 => tidy_gotoWith h1))

theorem tidy_execJmpi {a : XReg} (h : s.tidy = true) : Res.Tidy (execJmpi a s) := by
  unfold execJmpi
  refine tidy_withG (fun _ => ?_)
  split
  · exact tidy_raise h
  · exact tidy_goto h

theorem State.tidy_fetchWord {k : Nat} {g : Group} {va : DWord} (h : s.tidy = true) : (s.fetchWord k g va).Tidy := by
  unfold State.fetchWord
  split
  · rename_i e
    exact ⟨Tr.tidy_wait e (State.tidy_translate h)⟩
  · rename_i e
    exact ⟨Tr.tidy_fault e (State.tidy_translate h)⟩
  · rename_i e
    split <;> exact ⟨Tr.tidy_ok e (State.tidy_translate h)⟩

theorem State.tidy_fetchWords {k : Nat} {g : Group} {va : DWord} {n : Nat} {l : List Word} (h : s.tidy = true) :
    (s.fetchWords k g va n l).1.tidy = true := by
  induction n generalizing s k g va l with
  | zero => exact h
  | succ n ih =>
    unfold State.fetchWords
    split
    · rename_i e
      exact ih (FRes.tidy_ok e (State.tidy_fetchWord h))
    · rename_i e
      exact FRes.tidy_wait e (State.tidy_fetchWord h)
    · rename_i e
      exact FRes.tidy_fault e (State.tidy_fetchWord h)

theorem tidy_execLrun {count : BitVec 6} {off : BitVec 19} (h : s.tidy = true) : Res.Tidy (execLrun count off s) := by
  unfold execLrun
  refine tidy_withG (fun _ => ?_)
  dsimp only
  split
  · exact tidy_waitLane h
  · split
    · rename_i e
      exact tidy_done (tidy_fst e (State.tidy_fetchWords h))
    · rename_i e
      exact ⟨tidy_fst e (State.tidy_fetchWords h)⟩
    · rename_i e
      exact tidy_raise (tidy_fst e (State.tidy_fetchWords h))

theorem tidy_execLsync (h : s.tidy = true) : Res.Tidy (execLsync s) := by
  unfold execLsync
  refine tidy_withG (fun _ => ?_)
  split
  · exact tidy_waitLane h
  · split
    · exact tidy_done h
    · exact ⟨h⟩

theorem tidy_execDpop {d : XReg} (h : s.tidy = true) : Res.Tidy (execDpop d s) := by
  unfold execDpop
  refine tidy_withG (fun _ => ?_)
  split
  · exact ⟨State.tidy_doubleFault h⟩
  · split
    · exact tidy_done h
    · split
      · exact tidy_waitLane h
      · exact tidy_raise h

theorem tidy_execKpush {j : KReg} (h : s.tidy = true) : Res.Tidy (execKpush j s) := by
  unfold execKpush
  refine tidy_withG (fun _ => ?_)
  refine tidy_needK h ?_
  split
  · exact tidy_raise h
  · exact tidy_done h

theorem tidy_execKelse (h : s.tidy = true) : Res.Tidy (execKelse s) := by
  unfold execKelse
  refine tidy_withG (fun _ => ?_)
  split
  · exact tidy_raise h
  · exact tidy_done h

theorem tidy_execKpop (h : s.tidy = true) : Res.Tidy (execKpop s) := by
  unfold execKpop
  refine tidy_withG (fun _ => ?_)
  split
  · exact tidy_raise h
  · exact tidy_done h

theorem tidy_execKmovKK {d a : KReg} (h : s.tidy = true) : Res.Tidy (execKmovKK d a s) :=
  tidy_withG (fun _ => tidy_needK h (tidy_needK h (tidy_done h)))

theorem tidy_execKmovKX {d : KReg} {a : XReg} (h : s.tidy = true) : Res.Tidy (execKmovKX d a s) :=
  tidy_withG (fun _ => tidy_needK h (tidy_done h))

theorem tidy_execKmovXK {d : XReg} {a : KReg} (h : s.tidy = true) : Res.Tidy (execKmovXK d a s) :=
  tidy_withG (fun _ => tidy_needK h (tidy_done h))

theorem tidy_maskOp {d a b : KReg} {f : DWord → DWord → DWord} (h : s.tidy = true) : Res.Tidy (maskOp s d a b f) :=
  tidy_withG (fun _ => tidy_needK h (tidy_needK h (tidy_needK h (tidy_done h))))

theorem tidy_execKnot {d a : KReg} (h : s.tidy = true) : Res.Tidy (execKnot d a s) :=
  tidy_withG (fun _ => tidy_needK h (tidy_needK h (tidy_done h)))

theorem tidy_execKpopc {d : XReg} {a : KReg} (h : s.tidy = true) : Res.Tidy (execKpopc d a s) :=
  tidy_withG (fun _ => tidy_needK h (tidy_done h))

theorem tidy_execMfs {d : XReg} {r : SReg} (h : s.tidy = true) : Res.Tidy (execMfs d r s) := by
  unfold execMfs
  refine tidy_withG (fun _ => ?_)
  split
  · exact tidy_waitLane h
  · exact tidy_done h

theorem tidy_execMts {a : XReg} {r : SReg} (h : s.tidy = true) : Res.Tidy (execMts a r s) := by
  unfold execMts
  refine tidy_withG (fun _ => ?_)
  split
  · split
    · exact tidy_waitLane h
    · exact tidy_done h
  · split
    · exact tidy_raise h
    · split
      · exact tidy_waitLane h
      · exact tidy_done (State.tidy_mk h)
  · split
    · exact tidy_raise h
    · exact tidy_done (State.tidy_mk h)
  · exact tidy_raise h

/-! ### Operations of Machine/ScalarMem -/

theorem State.tidy_captureSpadAt {u lv t : Nat} {l : List Nat} (h : s.tidy = true) : tidySome id (s.captureSpadAt u lv t l) :=
    by
  induction l generalizing s u lv t with
  | nil => exact tidySome_some h
  | cons a r ih =>
    unfold State.captureSpadAt
    split
    · exact tidySome_some h
    · split
      · exact tidySome_none
      · rename_i e
        exact ih (tidy_some e (State.tidy_captureAt h))

theorem State.tidy_captureSpad {u t : Nat} {l : List Nat} (h : s.tidy = true) : tidySome id (s.captureSpad u t l) :=
  State.tidy_captureSpadAt h

theorem State.tidy_storeSpad {u t o n v : Nat} (h : s.tidy = true) : tidySome id (s.storeSpad u t o n v) := by
  unfold State.storeSpad
  split
  · exact tidySome_none
  · rename_i e
    split
    · exact tidySome_some (tidy_some e (State.tidy_captureSpad h))
    · exact tidySome_some (State.tidy_mk (tidy_some e (State.tidy_captureSpad h)))

theorem tidy_overflow {g : Group} (h : s.tidy = true) : Res.Tidy (overflow s g) := by
  unfold overflow
  split
  · exact tidy_done (State.tidy_failAlt h)
  · exact ⟨State.tidy_failAlt h⟩

theorem tidy_finishLoad {p : Path} {pois : Bool} {words : List Nat} {ws : List (XReg × DWord)} (h : s.tidy = true) :
    Res.Tidy (finishLoad s p pois words ws) := by
  unfold finishLoad
  refine tidy_withG (fun _ => ?_)
  split
  · refine tidy_done ?_
    split
    · exact h
    · exact State.tidy_mk h
  · refine tidy_doneWith (State.tidy_consumeIf ?_)
    split
    · exact h
    · exact State.tidy_mk h

theorem tidy_loadGlobal {d a : XReg} {off : DWord} {n : Nat} {ext : Nat → DWord} (h : s.tidy = true) :
    Res.Tidy (loadGlobal s d a off n ext) := by
  unfold loadGlobal
  refine tidy_withG (fun _ => ?_)
  dsimp only
  split
  · rename_i e
    exact ⟨Chk.tidy_wait e (State.tidy_chkGlobal h)⟩
  · rename_i e
    exact tidy_raise (Chk.tidy_trap e (State.tidy_chkGlobal h))
  · rename_i e
    split
    · exact tidy_block (Chk.tidy_ok e (State.tidy_chkGlobal h))
    · exact tidy_finishLoad (State.tidy_loadN (Chk.tidy_ok e (State.tidy_chkGlobal h)))

theorem tidy_loadScratch {d a : XReg} {off : DWord} {n : Nat} {ext : Nat → DWord} (h : s.tidy = true) :
    Res.Tidy (loadScratch s d a off n ext) := by
  unfold loadScratch
  refine tidy_withG (fun _ => ?_)
  dsimp only
  split
  · exact tidy_raise h
  · split
    · exact tidy_block h
    · exact tidy_finishLoad h

theorem tidy_storeGlobal {d a : XReg} {off : DWord} {n : Nat} (h : s.tidy = true) : Res.Tidy (storeGlobal s d a off n) := by
  unfold storeGlobal
  refine tidy_withG (fun _ => ?_)
  dsimp only
  split
  · rename_i e
    split
    · exact tidy_block (Chk.tidy_wait e (State.tidy_chkGlobal h))
    · exact tidy_doneWith (State.tidy_park (State.tidy_countAcc (Chk.tidy_wait e (State.tidy_chkGlobal h))))
  · rename_i e
    exact tidy_raise (Chk.tidy_trap e (State.tidy_chkGlobal h))
  · rename_i e
    split
    · split
      · exact tidy_block (Chk.tidy_ok e (State.tidy_chkGlobal h))
      · exact tidy_doneWith (State.tidy_park (State.tidy_countAcc (Chk.tidy_ok e (State.tidy_chkGlobal h))))
    · split
      · exact tidy_block (Chk.tidy_ok e (State.tidy_chkGlobal h))
      · split
        · exact tidy_overflow (State.tidy_countAcc (Chk.tidy_ok e (State.tidy_chkGlobal h)))
        · rename_i e1
          exact tidy_doneWith (tidy_some e1 (State.tidy_storeN (State.tidy_countAcc (Chk.tidy_ok e (State.tidy_chkGlobal
            h)))))

theorem tidy_storeScratch {d a : XReg} {off : DWord} {n : Nat} (h : s.tidy = true) : Res.Tidy (storeScratch s d a off n) := by
  unfold storeScratch
  refine tidy_withG (fun _ => ?_)
  dsimp only
  split
  · exact tidy_raise h
  · split
    · exact tidy_block h
    · split
      · exact tidy_overflow h
      · rename_i e
        exact tidy_doneWith (State.tidy_countAcc (tidy_some e (State.tidy_storeSpad h)))

/-! ### Operations of Machine/Order -/

theorem State.tidy_publishVec {k sc : Nat} (h : s.tidy = true) : (s.publishVec k sc).tidy = true := by
  unfold State.publishVec
  split
  · exact h
  · split
    · exact h
    · split
      · split
        · exact State.tidy_mk (State.tidy_mk h)
        · exact State.tidy_mk h
      · split
        · exact State.tidy_mk h
        · exact h

theorem State.tidy_acquireVec {k sc : Nat} (h : s.tidy = true) : (s.acquireVec k sc).tidy = true := by
  unfold State.acquireVec
  split
  · exact h
  · split
    · exact h
    · split
      · split
        · exact State.tidy_mk (State.tidy_mk h)
        · exact State.tidy_mk h
      · split
        · exact State.tidy_mk h
        · exact h

theorem State.tidy_acquire {k sc : Nat} (h : s.tidy = true) : (s.acquire k sc).tidy = true :=
  State.tidy_acquireVec (State.tidy_ite (State.tidy_mk h) h)

theorem State.tidy_pushOut {k sc : Nat} (h : s.tidy = true) : (s.pushOut k sc).tidy = true :=
  State.tidy_each h (fun _ _ h1 => State.tidy_writeBack _ _ _ h1)

theorem State.tidy_freeAddr (h : s.tidy = true) : (s.freeAddr).2.tidy = true := State.tidy_mk (State.tidy_mk h)

theorem tidy_awaitRelease {g : Group} {sc : Nat} {f : State → Res} (h : s.tidy = true)
    (hf : ∀ t, t.tidy = true → Res.Tidy (f t)) : Res.Tidy (awaitRelease s g sc f) := by
  unfold awaitRelease
  split
  · exact tidy_waitLane h
  · dsimp only
    split
    · exact tidy_raise (State.tidy_freeAddr (State.tidy_pushOut h))
    · split
      · exact hf _ (State.tidy_pushOut h)
      · exact ⟨State.tidy_pushOut h⟩

theorem tidy_withRelease {g : Group} {sc : Nat} {f : State → Res} (h : s.tidy = true)
    (hf : ∀ t, t.tidy = true → Res.Tidy (f t)) : Res.Tidy (withRelease s g sc f) :=
  tidy_awaitRelease h (fun _ h1 => hf _ (State.tidy_publishVec h1))

theorem tidy_execFence {sc : Scope} (h : s.tidy = true) : Res.Tidy (execFence sc s) :=
  tidy_withG (fun _ => tidy_withRelease h (fun _ h1 => tidy_doneWith (State.tidy_acquire h1)))

theorem State.tidy_mergeRecords {k w : Nat} {l : List (Dot × Option HidTag)} (h : s.tidy = true) :
    (s.mergeRecords k w l).tidy = true := by
  unfold State.mergeRecords
  split
  · exact State.tidy_each h (fun _ _ h1 => State.tidy_ite (State.tidy_mk h1) h1)
  · exact h

theorem State.tidy_acqWord {k w sc : Nat} {mt : Bool} (h : s.tidy = true) : (s.acqWord k w sc mt).1.tidy = true := by
  unfold State.acqWord
  split
  · exact h
  · dsimp only
    split
    · exact State.tidy_loadHome _ _ _ _ h
    · exact State.tidy_loadWord _ _ _ _ h

theorem tidy_execAcq {sc : Scope} {d a : XReg} {b : BitVec 4} (h : s.tidy = true) : Res.Tidy (execAcq sc d a b s) := by
  unfold execAcq
  refine tidy_withG (fun _ => ?_)
  dsimp only
  split
  · rename_i e
    exact ⟨Chk.tidy_wait e (State.tidy_chkOrdered h)⟩
  · rename_i e
    exact tidy_raise (Chk.tidy_trap e (State.tidy_chkOrdered h))
  · rename_i e
    split
    · exact tidy_block (Chk.tidy_ok e (State.tidy_chkOrdered h))
    · exact tidy_doneWith (State.tidy_consumeIf (State.tidy_countAcc (State.tidy_acquire (State.tidy_mergeRecords
        (State.tidy_mergeRecords (State.tidy_acqWord (State.tidy_acqWord (Chk.tidy_ok e (State.tidy_chkOrdered h)))))))))

theorem State.tidy_relStore {q : StoreReq} (h : s.tidy = true) : tidyOk (s.relStore q) :=
  tidyOk_map (State.tidy_tryWords _ _ _ (State.tidy_each h (fun _ _ h1 => State.tidy_bringHome h1))) (fun _ h1 =>
    State.tidy_fires _ _ (State.tidy_each h1 (fun _ _ h2 => State.tidy_keepHidden ((State.tidy_expectAck _ _ _ _).trans h2))))

theorem State.tidy_relAct {k : Nat} {g : Group} {va : DWord} {pa : Nat} {mt : Bool} {v : DWord} (h : s.tidy = true) :
    (s.relAct k g va pa mt v).Tidy := by
  unfold State.relAct
  split
  · dsimp only
    split
    · exact ⟨trivial⟩
    · rename_i e
      exact ⟨State.tidy_storeRaw (State.tidy_mk (State.tidy_noteWrote (State.tidy_noteWrote (tidy_some e
        (State.tidy_captureLine h)))))⟩
  · dsimp only
    split
    · exact ⟨trivial⟩
    · rename_i e
      split
      · exact ⟨trivial⟩
      · rename_i e1
        exact ⟨State.tidy_mk (tidy_ok e1 (State.tidy_relStore (State.tidy_noteWrote (State.tidy_noteWrote (tidy_some e
          (State.tidy_captureLine h))))))⟩

theorem State.tidy_endRelease {k sc : Nat} (h : s.tidy = true) : Res.Tidy (s.endRelease k sc) := by
  unfold State.endRelease
  split
  · exact tidy_raise (State.tidy_freeAddr (State.tidy_mk h))
  · split
    · exact tidy_doneWith (State.tidy_publishVec h)
    · exact ⟨State.tidy_mk h⟩

theorem tidy_execRel {sc : Scope} {d a : XReg} (h : s.tidy = true) : Res.Tidy (execRel sc d a s) := by
  unfold execRel
  refine tidy_withG (fun _ => ?_)
  split
  · exact State.tidy_endRelease h
  · dsimp only
    split
    · rename_i e
      exact ⟨Chk.tidy_wait e (State.tidy_chkOrdered h)⟩
    · rename_i e
      exact tidy_raise (Chk.tidy_trap e (State.tidy_chkOrdered h))
    · rename_i e
      refine tidy_awaitRelease (Chk.tidy_ok e (State.tidy_chkOrdered h)) (fun _ h1 => ?_)
      split
      · exact tidy_overflow h1
      · exact tidy_raise h1
      · rename_i e1
        exact State.tidy_endRelease (State.tidy_countAcc (RelOut.tidy_ok e1 (State.tidy_relAct h1)))

theorem State.tidy_atomSpad {u t o : Nat} {op : AtomOp} {ty : Ty} {b cmp : Word} (h : s.tidy = true) :
    tidySome Prod.fst (s.atomSpad u t o op ty b cmp) := by
  unfold State.atomSpad
  split
  · exact tidySome_some h
  · dsimp only
    split
    · exact tidySome_some h
    · split
      · exact tidySome_none
      · rename_i e
        exact tidySome_some (tidy_some e (State.tidy_storeSpad h))

theorem tidy_issueAtom {g : Group} {p : Path} {ws : List Nat} {r : AtomReq} (h : s.tidy = true) :
    Res.Tidy (issueAtom s g p ws r) :=
  tidy_doneWith (State.tidy_countAcc h)

theorem tidy_execAmo {op : AtomOp} {sc : Scope} {d a b : XReg} (h : s.tidy = true) : Res.Tidy (execAmo op sc d a b s) := by
  unfold execAmo
  refine tidy_withG (fun _ => ?_)
  split
  · split
    · dsimp only
      split
      · exact tidy_raise h
      · split
        · exact tidy_block h
        · exact tidy_issueAtom h
    · dsimp only
      split
      · exact tidy_raise h
      · split
        · exact tidy_block h
        · split
          · exact tidy_overflow h
          · rename_i e
            exact tidy_doneWith (State.tidy_countAcc (tidy_some_fst e (State.tidy_atomSpad h)))
  · dsimp only
    split
    · rename_i e
      exact ⟨Chk.tidy_wait e (State.tidy_chkOrdered h)⟩
    · rename_i e
      exact tidy_raise (Chk.tidy_trap e (State.tidy_chkOrdered h))
    · rename_i e
      split
      · exact tidy_block (Chk.tidy_ok e (State.tidy_chkOrdered h))
      · split
        · exact tidy_issueAtom (Chk.tidy_ok e (State.tidy_chkOrdered h))
        · split
          · exact tidy_overflow (Chk.tidy_ok e (State.tidy_chkOrdered h))
          · rename_i e1
            exact tidy_doneWith (State.tidy_countAcc (tidy_some_fst e1 (State.tidy_atomGlobal (Chk.tidy_ok e
              (State.tidy_chkOrdered h)))))

theorem State.tidy_nearWords {k : Nat} {g : Group} {write : Bool} {va : DWord} {n : Nat} {l : List Nat} (h : s.tidy = true) :
    (s.nearWords k g write va n l).Tidy := by
  induction n generalizing s k g write va l with
  | zero => exact ⟨h⟩
  | succ n ih =>
    unfold State.nearWords
    split
    · rename_i e
      exact ⟨Tr.tidy_wait e (State.tidy_translate h)⟩
    · rename_i e
      exact ⟨Tr.tidy_fault e (State.tidy_translate h)⟩
    · rename_i e
      split
      · exact ih (Tr.tidy_ok e (State.tidy_translate h))
      · exact ⟨Tr.tidy_ok e (State.tidy_translate h)⟩

theorem tidy_withBank {a b : XReg} {write : Bool} {act : Option (BankOp × Word)} {f : State → Group → BankRun → Res}
    (h : s.tidy = true) (hf : ∀ t g x2, t.tidy = true → Res.Tidy (f t g x2)) : Res.Tidy (withBank s a b write act f) := by
  unfold withBank
  refine tidy_withG (fun _ => ?_)
  split
  · exact hf _ _ _ h
  · dsimp only
    split
    · exact tidy_raise h
    · split
      · exact tidy_raise h
      · split
        · rename_i e
          exact ⟨NearRes.tidy_wait e (State.tidy_nearWords h)⟩
        · rename_i e
          exact tidy_raise (NearRes.tidy_bad e (State.tidy_nearWords h))
        · rename_i e
          split
          · exact tidy_block (NearRes.tidy_ok e (State.tidy_nearWords h))
          · split
            · exact tidy_block (NearRes.tidy_ok e (State.tidy_nearWords h))
            · rename_i e1
              exact hf _ _ _ (tidy_some e1 (State.tidy_tryLock (NearRes.tidy_ok e (State.tidy_nearWords h))))

theorem tidy_bankDone {f : Group → Group} (h : s.tidy = true) : Res.Tidy (bankDone s f) := tidy_doneWith (State.tidy_mk h)

theorem tidy_execBop {op : BankOp} {d a b : XReg} (h : s.tidy = true) : Res.Tidy (execBop op d a b s) := by
  unfold execBop
  refine tidy_withBank h (fun _ _ _ h1 => ?_)
  split
  · exact tidy_overflow (State.tidy_mk (State.tidy_mk h1))
  · rename_i e
    split
    · exact tidy_bankDone (tidy_some_fst e (State.tidy_bopRun h1))
    · exact ⟨State.tidy_mk (tidy_some_fst e (State.tidy_bopRun h1))⟩

theorem State.tidy_bredRun {k n : Nat} {r : BankRun} (h : s.tidy = true) : (s.bredRun k n r).1.tidy = true := by
  induction n generalizing s r with
  | zero => exact h
  | succ n ih =>
    unfold State.bredRun
    split
    · exact h
    · exact ih (State.tidy_bringHome h)

theorem tidy_execBred {op : BankOp} {d a b : XReg} (h : s.tidy = true) : Res.Tidy (execBred op d a b s) := by
  unfold execBred
  refine tidy_withBank h (fun _ _ _ h1 => ?_)
  split
  · rename_i e
    split
    · exact tidy_bankDone (State.tidy_consumeIf (tidy_fst e (State.tidy_bredRun h1)))
    · exact ⟨State.tidy_mk (tidy_fst e (State.tidy_bredRun h1))⟩

theorem tidy_execAwait {cc : AwaitCond} {acq : Bool} {d a b : XReg} (h : s.tidy = true) :
    Res.Tidy (execAwait cc acq d a b s) := by
  unfold execAwait
  refine tidy_withG (fun _ => ?_)
  split
  · dsimp only
    split
    · rename_i e
      exact ⟨Chk.tidy_wait e (State.tidy_chkOrdered h)⟩
    · rename_i e
      exact tidy_raise (Chk.tidy_trap e (State.tidy_chkOrdered h))
    · rename_i e
      split
      · exact tidy_block (Chk.tidy_ok e (State.tidy_chkOrdered h))
      · split
        · exact tidy_doneWith (State.tidy_consumeIf (State.tidy_acquire (State.tidy_mergeRecords (State.tidy_acqWord
            (Chk.tidy_ok e (State.tidy_chkOrdered h))))))
        · exact tidy_block (State.tidy_acqWord (Chk.tidy_ok e (State.tidy_chkOrdered h)))
  · dsimp only
    split
    · rename_i e
      exact ⟨Chk.tidy_wait e (State.tidy_chkOrdered h)⟩
    · rename_i e
      exact tidy_raise (Chk.tidy_trap e (State.tidy_chkOrdered h))
    · rename_i e
      split
      · exact tidy_block (Chk.tidy_ok e (State.tidy_chkOrdered h))
      · split
        · exact tidy_doneWith (State.tidy_consumeIf (State.tidy_acqWord (Chk.tidy_ok e (State.tidy_chkOrdered h))))
        · exact tidy_block (State.tidy_acqWord (Chk.tidy_ok e (State.tidy_chkOrdered h)))

/-! ### Operations of Machine/CellInstr -/

theorem State.tidy_settleWord {c w : Nat} (h : s.tidy = true) : (s.settleWord c w).tidy = true :=
  State.tidy_writeBackAll _ _ _ (State.tidy_flushReqs _ _ _ h)

theorem tidy_withCell {va : DWord} {f : State → Group → Nat → List CellVal → Bool → Res} (h : s.tidy = true)
    (hf : ∀ t g x2 x3 x4, t.tidy = true → Res.Tidy (f t g x2 x3 x4)) : Res.Tidy (withCell s va f) := by
  unfold withCell
  refine tidy_withG (fun _ => ?_)
  split
  · rename_i e
    exact ⟨Chk.tidy_wait e (State.tidy_chkOrdered h)⟩
  · rename_i e
    exact tidy_raise (Chk.tidy_trap e (State.tidy_chkOrdered h))
  · rename_i e
    split
    · exact tidy_block (Chk.tidy_ok e (State.tidy_chkOrdered h))
    · exact hf _ _ _ _ _ (State.tidy_settleWord (Chk.tidy_ok e (State.tidy_chkOrdered h)))

theorem tidy_execLdc {d a : XReg} {b : BitVec 4} {i : BitVec 9} (h : s.tidy = true) : Res.Tidy (execLdc d a b i s) :=
  tidy_withG (fun _ => tidy_withCell h (fun _ _ _ _ _ h1 => tidy_finishLoad h1))

theorem tidy_execLdsib {d a : XReg} {b : BitVec 4} {k : BitVec 2} (h : s.tidy = true) : Res.Tidy (execLdsib d a b k s) :=
  tidy_withG (fun _ => tidy_withCell h (fun _ _ _ _ _ h1 => tidy_finishLoad h1))

theorem tidy_withRcn {va : DWord} {f : State → Group → Nat → List CellVal → Res} (h : s.tidy = true)
    (hf : ∀ t g x2 x3, t.tidy = true → Res.Tidy (f t g x2 x3)) : Res.Tidy (withRcn s va f) := by
  unfold withRcn
  refine tidy_withG (fun _ => ?_)
  split
  · rename_i e
    exact ⟨Chk.tidy_wait e (State.tidy_chkOrdered h)⟩
  · rename_i e
    exact tidy_raise (Chk.tidy_trap e (State.tidy_chkOrdered h))
  · rename_i e
    split
    · exact tidy_block (Chk.tidy_ok e (State.tidy_chkOrdered h))
    · exact hf _ _ _ _ (State.tidy_bringHome (Chk.tidy_ok e (State.tidy_chkOrdered h)))

theorem State.tidy_collapse {k : Nat} {g : Group} {va : DWord} {w : Nat} {v : List CellVal} {r : Word} (h : s.tidy = true) :
    (s.collapse k g va w v r).Tidy := by
  unfold State.collapse
  dsimp only
  split
  · exact ⟨trivial⟩
  · rename_i e
    split
    · exact ⟨trivial⟩
    · rename_i e1
      exact ⟨State.tidy_mk (State.tidy_mk (State.tidy_keepHidden (State.tidy_fires _ _ ((State.tidy_expectAck _ _ _ _).trans
        (tidy_some e1 (State.tidy_applyCollapse (State.tidy_writeBackAll _ _ _ (tidy_some e (State.tidy_captureLine
        h)))))))))⟩

theorem tidy_execRcn {op : RcnOp} {d a : XReg} (h : s.tidy = true) : Res.Tidy (execRcn op d a s) := by
  unfold execRcn
  refine tidy_withG (fun _ => ?_)
  refine tidy_withRcn h (fun _ _ _ _ h1 => ?_)
  dsimp only
  split
  · exact tidy_doneWith (State.tidy_countAcc h1)
  · split
    · exact tidy_overflow (State.tidy_countAcc h1)
    · exact tidy_doneWith (State.tidy_countAcc h1)
    · rename_i e
      exact tidy_doneWith (Collapse.tidy_ok e (State.tidy_collapse (State.tidy_countAcc h1)))

theorem tidy_execRcnw {d a b : XReg} (h : s.tidy = true) : Res.Tidy (execRcnw d a b s) := by
  unfold execRcnw
  refine tidy_withG (fun _ => ?_)
  refine tidy_withRcn h (fun _ _ _ _ h1 => ?_)
  dsimp only
  split
  · split
    · exact tidy_overflow (State.tidy_countAcc h1)
    · exact tidy_doneWith (State.tidy_countAcc h1)
    · rename_i e
      exact tidy_doneWith (Collapse.tidy_ok e (State.tidy_collapse (State.tidy_countAcc h1)))
  · exact tidy_doneWith (State.tidy_countAcc h1)

theorem State.tidy_readAt {k : Nat} {l : List (Nat × Bool)} {l2 : List DWord} {b : Bool} (h : s.tidy = true) :
    (s.readAt k l l2 b).Tidy := by
  induction l generalizing s k l2 b with
  | nil => exact ⟨h⟩
  | cons a r ih => exact ih (State.tidy_loadN h)

theorem State.tidy_chkSpan {k : Nat} {g : Group} {l : List DWord} (h : s.tidy = true) : (s.chkSpan k g l).1.tidy = true := by
  induction l generalizing s k g with
  | nil => exact h
  | cons a r ih =>
    unfold State.chkSpan
    split
    · rename_i e
      exact ih (Chk.tidy_ok e (State.tidy_chkPage h))
    · rename_i e
      exact ih (Chk.tidy_wait e (State.tidy_chkPage h))
    · rename_i e
      exact ih (Chk.tidy_trap e (State.tidy_chkPage h))

theorem State.tidy_readDw {k : Nat} {g : Group} {va : DWord} {al : Nat} {rows : Bool} {n : Nat} (h : s.tidy = true) :
    (s.readDw k g va al rows n).Tidy := by
  have hodd : ∀ r, (if va.toNat % al ≠ 0 then some (RdRes.trap s 0x12 va 0) else none) = some r → r.Tidy := by
    intro r e
    split at e
    · cases e; exact ⟨h⟩
    · cases e
  have hfar : ∀ (l : List DWord) r, (l.find? (fun a => !(canonical a))).map (fun a => RdRes.trap s 0x10 a 0) = some r → r.Tidy := by
    intro l r e
    obtain ⟨a, _, rfl⟩ := Option.map_eq_some_iff.mp e
    exact ⟨h⟩
  unfold State.readDw
  dsimp only
  split
  · rename_i e
    split at e
    · rcases Option.or_eq_some_iff.mp e with e | ⟨_, e⟩
      · exact hodd _ e
      · exact hfar _ _ e
    · rcases Option.or_eq_some_iff.mp e with e | ⟨_, e⟩
      · exact hfar _ _ e
      · exact hodd _ e
  · split
    · split
      · exact ⟨State.tidy_chkSpan h⟩
      · exact ⟨State.tidy_chkSpan h⟩
    · exact State.tidy_readAt (State.tidy_chkSpan h)

theorem tidy_withRead {va : DWord} {al n : Nat} {rows : Bool} {f : State → Group → List DWord → Bool → Res}
    (h : s.tidy = true) (hf : ∀ t g x2 x3, t.tidy = true → Res.Tidy (f t g x2 x3)) :
    Res.Tidy (withRead s va al n rows f) := by
  unfold withRead
  refine tidy_withG (fun _ => ?_)
  split
  · rename_i e
    exact ⟨RdRes.tidy_wait e (State.tidy_readDw h)⟩
  · rename_i e
    exact tidy_raise (RdRes.tidy_trap e (State.tidy_readDw h))
  · rename_i e
    split
    · exact tidy_block h
    · exact hf _ _ _ _ (RdRes.tidy_ok e (State.tidy_readDw h))

theorem tidy_execVvfold {a : XReg} (h : s.tidy = true) : Res.Tidy (execVvfold a s) :=
  tidy_withG (fun _ => tidy_withRead h (fun _ _ _ _ h1 => tidy_doneWith (State.tidy_countAcc (State.tidy_consumeIf h1))))

theorem State.tidy_cleanLines {c : Nat} {lines : List Nat} {drop : Bool} (h : s.tidy = true) :
    (s.cleanLines c lines drop).tidy = true := by
  unfold State.cleanLines
  split
  · refine State.tidy_mk (State.tidy_each h (fun _ _ h1 => ?_))
    split
    · split
      · exact State.tidy_writeBack _ _ _ (State.tidy_flushReqs _ _ _ h1)
      · exact h1
    · exact h1
  · refine State.tidy_each h (fun _ _ h1 => ?_)
    split
    · split
      · exact State.tidy_writeBack _ _ _ (State.tidy_flushReqs _ _ _ h1)
      · exact h1
    · exact h1

theorem tidy_lineOp {a b : XReg} {drop : Bool} (h : s.tidy = true) : Res.Tidy (lineOp s a b drop) := by
  unfold lineOp
  refine tidy_withG (fun _ => ?_)
  split
  · dsimp only
    split
    · exact tidy_done h
    · split
      · exact tidy_raise h
      · exact tidy_doneWith (State.tidy_cleanLines h)
  · dsimp only
    split
    · exact tidy_done h
    · split
      · exact tidy_raise h
      · exact tidy_doneWith (State.tidy_countAcc (State.tidy_cleanLines h))

/-! ### Operations of Machine/Pattern -/

theorem tidy_execSpset {q : QReg} {a b : XReg} (h : s.tidy = true) : Res.Tidy (execSpset q a b s) := by
  unfold execSpset
  refine tidy_withG (fun _ => ?_)
  dsimp only
  split
  · rename_i e
    exact ⟨RdRes.tidy_wait e (State.tidy_readDw h)⟩
  · rename_i e
    exact tidy_raise (RdRes.tidy_trap e (State.tidy_readDw h))
  · rename_i e
    split
    · exact tidy_block h
    · split
      · exact tidy_raise (RdRes.tidy_ok e (State.tidy_readDw h))
      · exact tidy_doneWith (State.tidy_consumeIf (State.tidy_countAcc (State.tidy_mk (State.tidy_mk (RdRes.tidy_ok e
          (State.tidy_readDw h))))))

theorem tidy_execSpgo {q : QReg} (h : s.tidy = true) : Res.Tidy (execSpgo q s) := by
  unfold execSpgo
  refine tidy_withG (fun _ => ?_)
  split
  · dsimp only
    split
    · exact tidy_raise h
    · split
      · exact tidy_raise h
      · exact tidy_block h
  · split
    · dsimp only
      split
      · exact tidy_raise h
      · split
        · exact tidy_raise h
        · split
          · exact tidy_block h
          · split
            · exact tidy_block h
            · split
              · exact tidy_block h
              · rename_i e
                exact tidy_done (tidy_some e (State.tidy_tryLock (State.tidy_mk (State.tidy_mk h))))
    · dsimp only
      split
      · exact tidy_raise h
      · split
        · exact tidy_raise h
        · split
          · exact tidy_block h
          · split
            · exact tidy_block h
            · split
              · exact tidy_block h
              · rename_i e
                exact tidy_done (tidy_some e (State.tidy_tryLock (State.tidy_mk (State.tidy_mk h))))

theorem tidy_execSpstop {q : QReg} (h : s.tidy = true) : Res.Tidy (execSpstop q s) :=
  tidy_withG (fun _ => tidy_doneWith (State.tidy_mk (State.tidy_mk h)))

theorem tidy_execWait {p : Path} {a : XReg} (h : s.tidy = true) : Res.Tidy (execWait p a s) := by
  unfold execWait
  refine tidy_withG (fun _ => ?_)
  split
  · exact tidy_done h
  · exact ⟨State.tidy_mk h⟩

/-! ### Operations of Machine/Copy -/

theorem State.tidy_chanQueue {c : BitVec 3} {va : DWord} (h : s.tidy = true) : (s.chanQueue c va).tidy = true := by
  unfold State.chanQueue
  dsimp only
  split
  · exact h
  · exact State.tidy_mk h

theorem tidy_execCpgo {c : BitVec 3} {b : XReg} (h : s.tidy = true) : Res.Tidy (execCpgo c b s) := by
  unfold execCpgo
  refine tidy_withG (fun _ => ?_)
  dsimp only
  split
  · exact tidy_raise h
  · split
    · exact tidy_raise h
    · split
      · split
        · exact tidy_block (State.tidy_chanQueue h)
        · split
          · exact tidy_raise h
          · exact tidy_doneWith (State.tidy_mk (State.tidy_mk (State.tidy_mk (State.tidy_unrequest h))))
      · split
        · exact tidy_block (State.tidy_chanQueue h)
        · split
          · exact tidy_raise h
          · exact tidy_doneWith (State.tidy_mk (State.tidy_mk (State.tidy_mk (State.tidy_unrequest h))))

theorem tidy_withChan {c : BitVec 3} {f : Group → Chan → Res} (h : s.tidy = true) (hf : ∀ g x1, Res.Tidy (f g x1)) :
    Res.Tidy (withChan s c f) := by
  unfold withChan
  refine tidy_withG (fun _ => ?_)
  dsimp only
  split
  · exact hf _ _
  · exact tidy_raise h

theorem tidy_execCpseal {d : XReg} {c : BitVec 3} (h : s.tidy = true) : Res.Tidy (execCpseal d c s) :=
  tidy_withChan h (fun _ _ => tidy_doneWith (State.tidy_mk h))

theorem tidy_execCpwait {d : XReg} {c : BitVec 3} {b : XReg} (h : s.tidy = true) : Res.Tidy (execCpwait d c b s) := by
  unfold execCpwait
  refine tidy_withChan h (fun _ _ => ?_)
  dsimp only
  split
  · exact tidy_done h
  · split
    · exact tidy_raise h
    · split
      · exact tidy_block h
      · exact tidy_done h

theorem tidy_execCpstat {d : XReg} {c : BitVec 3} (h : s.tidy = true) : Res.Tidy (execCpstat d c s) :=
  tidy_withG (fun _ => tidy_done h)

theorem tidy_execCpabort {d : XReg} {c : BitVec 3} (h : s.tidy = true) : Res.Tidy (execCpabort d c s) := by
  unfold execCpabort
  refine tidy_withChan h (fun _ _ => ?_)
  split
  · dsimp only
    split
    · exact ⟨State.tidy_mk h⟩
    · exact tidy_doneWith (State.tidy_mk (State.tidy_mk (State.tidy_endChains h)))
  · dsimp only
    split
    · exact ⟨State.tidy_mk h⟩
    · exact tidy_doneWith (State.tidy_mk (State.tidy_mk (State.tidy_endChains h)))

theorem tidy_execCpflt {d : XReg} {c : BitVec 3} (h : s.tidy = true) : Res.Tidy (execCpflt d c s) :=
  tidy_withChan h (fun _ _ => tidy_doneWith (State.tidy_mk h))

/-! ### Operations of Machine/Work -/

theorem State.tidy_raiseFloor {ctx launch : Nat} {t : BitVec 40} {ms : List Nat} (h : s.tidy = true) :
    (s.raiseFloor ctx launch t ms).tidy = true := by
  unfold State.raiseFloor
  split
  · exact h
  · exact State.tidy_each (State.tidy_mk h) (fun _ _ h1 => State.tidy_mk h1)

theorem State.tidy_insertTask {c t gw : Nat} {entry : DWord} {x : Task} (h : s.tidy = true) :
    tidySome id (s.insertTask c t gw entry x) := by
  unfold State.insertTask
  dsimp only
  split
  · exact tidySome_some (State.tidy_mk h)
  · split
    · exact tidySome_some (State.tidy_mk h)
    · exact tidySome_none

theorem tidy_execTspawn {a b : XReg} (h : s.tidy = true) : Res.Tidy (execTspawn a b s) := by
  unfold execTspawn
  refine tidy_withG (fun _ => ?_)
  dsimp only
  split
  · exact tidy_raise h
  · split
    · exact tidy_raise h
    · refine tidy_withRelease h (fun _ h1 => ?_)
      refine tidy_withG (fun _ => ?_)
      split
      · exact tidy_block h1
      · rename_i e
        exact tidy_doneWith (tidy_some e (State.tidy_insertTask h1))

theorem State.tidy_readWatch {r : WatchRec} (h : s.tidy = true) : (s.readWatch r).tidy = true :=
  State.tidy_countAcc (State.tidy_consumeIf h)

theorem tidy_armWatch {g : Group} {d : XReg} {r : WatchRec} (h : s.tidy = true) : Res.Tidy (armWatch s g d r) := by
  unfold armWatch
  split
  · rename_i e
    exact ⟨State.tidy_mk (Tr.tidy_wait e (State.tidy_translate h))⟩
  · rename_i e
    exact tidy_raise (State.tidy_mk (Tr.tidy_fault e (State.tidy_translate h)))
  · rename_i e
    split
    · exact tidy_raise (State.tidy_mk (Tr.tidy_ok e (State.tidy_translate h)))
    · split
      · dsimp only
        split
        · exact tidy_doneWith (State.tidy_readWatch (Tr.tidy_ok e (State.tidy_translate h)))
        · split
          · exact tidy_block (Tr.tidy_ok e (State.tidy_translate h))
          · rename_i e1
            exact tidy_doneWith (State.tidy_readWatch (State.tidy_mk (tidy_some e1 (State.tidy_tryLock (Tr.tidy_ok e
              (State.tidy_translate h))))))
      · split
        · dsimp only
          split
          · exact tidy_doneWith (State.tidy_readWatch (Tr.tidy_ok e (State.tidy_translate h)))
          · exact tidy_block (Tr.tidy_ok e (State.tidy_translate h))
        · rename_i e1
          dsimp only
          split
          · exact tidy_doneWith (State.tidy_readWatch (Tr.tidy_ok e (State.tidy_translate h)))
          · exact tidy_doneWith (State.tidy_readWatch (State.tidy_mk (tidy_some e1 tidySome_none)))

theorem tidy_execWatch {d a : XReg} (h : s.tidy = true) : Res.Tidy (execWatch d a s) := by
  unfold execWatch
  refine tidy_withG (fun _ => ?_)
  split
  · exact tidy_armWatch h
  · refine tidy_withRead h (fun _ _ _ _ h1 => ?_)
    split
    · exact tidy_raise h1
    · exact tidy_armWatch h1

theorem tidy_execUnwatch {d a : XReg} (h : s.tidy = true) : Res.Tidy (execUnwatch d a s) := by
  unfold execUnwatch
  refine tidy_withG (fun _ => ?_)
  dsimp only
  split
  · exact tidy_done h
  · split
    · exact tidy_doneWith (State.tidy_mk (State.tidy_mk h))
    · exact tidy_done h

theorem tidy_execClaim {d a : XReg} (h : s.tidy = true) : Res.Tidy (execClaim d a s) := by
  unfold execClaim
  refine tidy_withG (fun _ => ?_)
  split
  · dsimp only
    split <;> exact tidy_raise h
  · split
    · dsimp only
      split
      · exact tidy_raise h
      · exact tidy_waitLane h
    · dsimp only
      split
      · exact tidy_raise h
      · split
        · exact tidy_done h
        · split
          · exact tidy_done (State.tidy_unrequest h)
          · exact tidy_block (State.tidy_mk h)

theorem tidy_execGive {d a : XReg} (h : s.tidy = true) : Res.Tidy (execGive d a s) := by
  unfold execGive
  refine tidy_withG (fun _ => ?_)
  split
  · dsimp only
    split <;> exact tidy_raise h
  · split
    · dsimp only
      split
      · exact tidy_raise h
      · exact tidy_waitLane h
    · dsimp only
      split
      · exact tidy_raise h
      · split <;> exact tidy_done h

theorem State.tidy_endGroup {k : Nat} (h : s.tidy = true) : (s.endGroup k).tidy = true := by
  unfold State.endGroup
  split
  · exact h
  · exact State.tidy_dropGroup (State.tidy_mk (State.tidy_publishVec h))

theorem tidy_execExit (h : s.tidy = true) : Res.Tidy (execExit s) := by
  unfold execExit
  refine tidy_withG (fun _ => ?_)
  split
  · exact tidy_raise h
  · split
    · exact tidy_waitLane h
    · split
      · exact ⟨State.tidy_endGroup h⟩
      · exact ⟨h⟩

theorem State.tidy_leave {k : Nat} (h : s.tidy = true) : (s.leave k).tidy = true := by
  unfold State.leave
  split
  · exact h
  · split
    · exact State.tidy_endGroup h
    · exact State.tidy_mk h

theorem State.tidy_compactTeam {t n : Nat} (h : s.tidy = true) : (s.compactTeam t n).tidy = true :=
  State.tidy_each (State.tidy_each (State.tidy_each h (fun _ _ h1 => State.tidy_mk h1)) (fun _ _ h1 => State.tidy_each h1 (fun
    _ _ h2 => State.tidy_mk h2))) (fun _ _ h1 => State.tidy_ite (State.tidy_mk h1) (State.tidy_leave h1))

theorem State.tidy_regroupTrap {e : Nat × Group} (h : s.tidy = true) : (s.regroupTrap e).tidy = true := by
  unfold State.regroupTrap
  split
  · exact State.tidy_doubleFault (State.tidy_mk h)
  · exact State.tidy_mk (State.tidy_mk h)

theorem tidy_execRegroup {d a : XReg} (h : s.tidy = true) : Res.Tidy (execRegroup d a s) := by
  unfold execRegroup
  refine tidy_withG (fun _ => ?_)
  split
  · exact tidy_raise h
  · split
    · exact tidy_waitLane h
    · split
      · exact ⟨h⟩
      · dsimp only
        split
        · exact tidy_block (State.tidy_mk h)
        · split
          · exact ⟨State.tidy_each (State.tidy_mk h) (fun _ _ h1 => State.tidy_regroupTrap h1)⟩
          · exact ⟨State.tidy_compactTeam (State.tidy_mk h)⟩

theorem tidy_execBarinit {n : BitVec 6} {b : XReg} (h : s.tidy = true) : Res.Tidy (execBarinit n b s) := by
  unfold execBarinit
  refine tidy_withG (fun _ => ?_)
  dsimp only
  split
  · split
    · exact tidy_raise h
    · split
      · exact tidy_block h
      · exact tidy_done (State.tidy_mk h)
  · split
    · exact tidy_raise h
    · split
      · exact tidy_block h
      · exact tidy_done (State.tidy_mk h)

theorem State.tidy_arrive {k n : Nat} {x : Barrier} (h : s.tidy = true) : (s.arrive k n x).tidy = true := by
  unfold State.arrive
  split
  · exact h
  · split
    · split
      · split
        · split
          · exact State.tidy_mk h
          · dsimp only
            split
            · split
              · exact State.tidy_raiseFloor (State.tidy_mk h)
              · exact State.tidy_mk h
            · split
              · exact State.tidy_raiseFloor (State.tidy_mk h)
              · exact State.tidy_mk h
        · split
          · exact State.tidy_mk h
          · dsimp only
            split
            · split
              · exact State.tidy_raiseFloor (State.tidy_mk h)
              · exact State.tidy_mk h
            · split
              · exact State.tidy_raiseFloor (State.tidy_mk h)
              · exact State.tidy_mk h
      · split
        · split
          · exact State.tidy_mk h
          · dsimp only
            split
            · split
              · exact State.tidy_raiseFloor (State.tidy_mk h)
              · exact State.tidy_mk h
            · split
              · exact State.tidy_raiseFloor (State.tidy_mk h)
              · exact State.tidy_mk h
        · split
          · exact State.tidy_mk h
          · dsimp only
            split
            · split
              · exact State.tidy_raiseFloor (State.tidy_mk h)
              · exact State.tidy_mk h
            · split
              · exact State.tidy_raiseFloor (State.tidy_mk h)
              · exact State.tidy_mk h
    · split
      · split
        · split
          · exact State.tidy_mk h
          · dsimp only
            split
            · split
              · exact State.tidy_raiseFloor (State.tidy_mk h)
              · exact State.tidy_mk h
            · split
              · exact State.tidy_raiseFloor (State.tidy_mk h)
              · exact State.tidy_mk h
        · split
          · exact State.tidy_mk h
          · dsimp only
            split
            · split
              · exact State.tidy_raiseFloor (State.tidy_mk h)
              · exact State.tidy_mk h
            · split
              · exact State.tidy_raiseFloor (State.tidy_mk h)
              · exact State.tidy_mk h
      · split
        · split
          · exact State.tidy_mk h
          · dsimp only
            split
            · split
              · exact State.tidy_raiseFloor (State.tidy_mk h)
              · exact State.tidy_mk h
            · split
              · exact State.tidy_raiseFloor (State.tidy_mk h)
              · exact State.tidy_mk h
        · split
          · exact State.tidy_mk h
          · dsimp only
            split
            · split
              · exact State.tidy_raiseFloor (State.tidy_mk h)
              · exact State.tidy_mk h
            · split
              · exact State.tidy_raiseFloor (State.tidy_mk h)
              · exact State.tidy_mk h

theorem State.tidy_endBarWait {k n : Nat} {p : BitVec 32} (h : s.tidy = true) : (s.endBarWait k n p).tidy = true := by
  unfold State.endBarWait
  split
  · exact h
  · dsimp only
    split
    · exact h
    · split
      · exact State.tidy_mk (State.tidy_acquire (State.tidy_mk h))
      · exact State.tidy_acquire (State.tidy_mk h)

theorem tidy_barWait {g : Group} {n : Nat} {p : BitVec 32} {x : Barrier} (h : s.tidy = true) : Res.Tidy (barWait s g n p x) :=
    by
  unfold barWait
  split
  · exact tidy_doneWith (State.tidy_endBarWait h)
  · exact tidy_block (State.tidy_mk h)

theorem tidy_withBar {n : BitVec 6} {f : Group → Barrier → Res} (h : s.tidy = true) (hf : ∀ g x1, Res.Tidy (f g x1)) :
    Res.Tidy (withBar s n f) := by
  unfold withBar
  refine tidy_withG (fun _ => ?_)
  split
  · exact tidy_raise h
  · exact hf _ _

theorem tidy_execBararr {d : XReg} {n : BitVec 6} (h : s.tidy = true) : Res.Tidy (execBararr d n s) :=
  tidy_withBar h (fun _ _ => tidy_withRelease h (fun _ h1 => tidy_doneWith (State.tidy_arrive h1)))

theorem tidy_execBarwait {n : BitVec 6} {b : XReg} (h : s.tidy = true) : Res.Tidy (execBarwait n b s) := by
  unfold execBarwait
  refine tidy_withBar h (fun _ _ => ?_)
  dsimp only
  split
  · exact tidy_raise h
  · exact tidy_barWait h

theorem tidy_execBarsync {n : BitVec 6} (h : s.tidy = true) : Res.Tidy (execBarsync n s) := by
  unfold execBarsync
  refine tidy_withBar h (fun _ _ => ?_)
  split
  · split
    · exact tidy_barWait h
    · refine tidy_withRelease h (fun _ h1 => ?_)
      refine tidy_withG (fun _ => ?_)
      split
      · exact ⟨State.tidy_arrive h1⟩
      · exact tidy_barWait (State.tidy_arrive h1)
  · refine tidy_withRelease h (fun _ h1 => ?_)
    refine tidy_withG (fun _ => ?_)
    split
    · exact ⟨State.tidy_arrive h1⟩
    · exact tidy_barWait (State.tidy_arrive h1)

theorem State.tidy_closeCbar {inst c : Nat} (h : s.tidy = true) : (s.closeCbar inst c).tidy = true := by
  unfold State.closeCbar
  split
  · exact h
  · split
    · exact h
    · split
      · dsimp only
        split
        · exact State.tidy_mk h
        · split
          · exact State.tidy_raiseFloor (State.tidy_mk h)
          · exact State.tidy_mk h
      · exact h

theorem tidy_cbarWait {g : Group} {inst c ph : Nat} (h : s.tidy = true) : Res.Tidy (cbarWait s g inst c ph) := by
  unfold cbarWait
  dsimp only
  split
  · exact ⟨State.tidy_closeCbar h⟩
  · split
    · refine tidy_doneWith ?_
      split
      · exact State.tidy_mk (State.tidy_acquire (State.tidy_closeCbar h))
      · exact State.tidy_acquire (State.tidy_closeCbar h)
    · exact tidy_block (State.tidy_closeCbar h)

theorem tidy_execCbar {c : BitVec 3} (h : s.tidy = true) : Res.Tidy (execCbar c s) := by
  unfold execCbar
  refine tidy_withG (fun _ => ?_)
  split
  · split
    · exact tidy_cbarWait h
    · refine tidy_withRelease h (fun _ h1 => ?_)
      refine tidy_withG (fun _ => ?_)
      split
      · exact tidy_doneWith (State.tidy_acquire h1)
      · exact tidy_cbarWait (State.tidy_mk h1)
  · refine tidy_withRelease h (fun _ h1 => ?_)
    refine tidy_withG (fun _ => ?_)
    split
    · exact tidy_doneWith (State.tidy_acquire h1)
    · exact tidy_cbarWait (State.tidy_mk h1)

theorem tidy_execQinit {q : BitVec 5} {b : XReg} (h : s.tidy = true) : Res.Tidy (execQinit q b s) := by
  unfold execQinit
  refine tidy_withG (fun _ => ?_)
  dsimp only
  split
  · split
    · exact tidy_raise h
    · split
      · exact tidy_block h
      · exact tidy_done (State.tidy_mk h)
  · split
    · exact tidy_raise h
    · split
      · exact tidy_block h
      · exact tidy_done (State.tidy_mk h)

theorem tidy_withNq {q : BitVec 5} {f : Group → NQueue → Res} (h : s.tidy = true) (hf : ∀ g x1, Res.Tidy (f g x1)) :
    Res.Tidy (withNq s q f) := by
  unfold withNq
  refine tidy_withG (fun _ => ?_)
  split
  · exact tidy_raise h
  · exact hf _ _

theorem State.tidy_pushEntry {g : Group} {q : BitVec 5} {x : NQueue} {e : DWord × VVec} (h : s.tidy = true) :
    (s.pushEntry g q x e).tidy = true := by
  unfold State.pushEntry
  split
  · exact State.tidy_mk h
  · exact State.tidy_mk (State.tidy_mk h)

theorem tidy_execQpush {q : BitVec 5} {b : XReg} (h : s.tidy = true) : Res.Tidy (execQpush q b s) := by
  unfold execQpush
  refine tidy_withNq h (fun _ _ => ?_)
  split
  · split
    · dsimp only
      split
      · refine tidy_withRelease h (fun _ h1 => ?_)
        refine tidy_withG (fun _ => ?_)
        split
        · exact ⟨h1⟩
        · exact tidy_doneWith (State.tidy_pushEntry h1)
      · exact tidy_block (State.tidy_mk h)
    · dsimp only
      split
      · refine tidy_withRelease h (fun _ h1 => ?_)
        refine tidy_withG (fun _ => ?_)
        split
        · exact ⟨h1⟩
        · exact tidy_doneWith (State.tidy_pushEntry h1)
      · exact tidy_block (State.tidy_mk h)
  · split
    · dsimp only
      split
      · refine tidy_withRelease h (fun _ h1 => ?_)
        refine tidy_withG (fun _ => ?_)
        split
        · exact ⟨h1⟩
        · exact tidy_doneWith (State.tidy_pushEntry h1)
      · exact tidy_block (State.tidy_mk h)
    · dsimp only
      split
      · refine tidy_withRelease h (fun _ h1 => ?_)
        refine tidy_withG (fun _ => ?_)
        split
        · exact ⟨h1⟩
        · exact tidy_doneWith (State.tidy_pushEntry h1)
      · exact tidy_block (State.tidy_mk h)

theorem State.tidy_tookEntry {k : Nat} {v : VVec} (h : s.tidy = true) : (s.tookEntry k v).tidy = true :=
  State.tidy_mk (State.tidy_acquire h)

theorem tidy_execQpop {d : XReg} {q : BitVec 5} (h : s.tidy = true) : Res.Tidy (execQpop d q s) := by
  unfold execQpop
  refine tidy_withNq h (fun _ _ => ?_)
  split
  · exact tidy_doneWith (State.tidy_tookEntry h)
  · split
    · exact tidy_doneWith (State.tidy_tookEntry (State.tidy_mk h))
    · exact tidy_block (State.tidy_mk h)

theorem tidy_execQtry {d : XReg} {q : BitVec 5} (h : s.tidy = true) : Res.Tidy (execQtry d q s) := by
  unfold execQtry
  refine tidy_withNq h (fun _ _ => ?_)
  split
  · exact tidy_doneWith (State.tidy_tookEntry (State.tidy_mk h))
  · exact tidy_done h

theorem tidy_execNap {a : XReg} (h : s.tidy = true) : Res.Tidy (execNap a s) := by
  unfold execNap
  refine tidy_withG (fun _ => ?_)
  split
  · split
    · exact tidy_done h
    · exact tidy_block h
  · dsimp only
    split
    · exact tidy_done h
    · exact tidy_block h

theorem tidy_execYield (h : s.tidy = true) : Res.Tidy (execYield s) := tidy_withG (fun _ => tidy_done h)

/-! ### Operations of Machine/Recovery -/

theorem State.tidy_raiseAll {ms : List (Nat × Group)} {num : BitVec 8} {addr info : DWord} (h : s.tidy = true) :
    (s.raiseAll ms num addr info).tidy = true := by
  unfold State.raiseAll
  refine State.tidy_each h (fun _ _ h1 => ?_)
  dsimp only
  split
  · exact State.tidy_mk h1
  · split
    · exact State.tidy_takeTrap (State.tidy_mk h1)
    · exact State.tidy_mk (State.tidy_mk h1)

theorem tidy_collect {g : Group} {mine : Arrival} {f : State → List (Nat × Group) → Res} (h : s.tidy = true)
    (hf : ∀ t x1, t.tidy = true → Res.Tidy (f t x1)) : Res.Tidy (collect s g mine f) := by
  unfold collect
  split
  · dsimp only
    split
    · exact ⟨State.tidy_raiseAll (State.tidy_mk h)⟩
    · split
      · exact hf _ _ (State.tidy_mk h)
      · exact tidy_block (State.tidy_mk h)
  · dsimp only
    split
    · exact ⟨State.tidy_raiseAll (State.tidy_mk h)⟩
    · split
      · exact hf _ _ (State.tidy_mk h)
      · exact tidy_block (State.tidy_mk h)

theorem State.tidy_exhaust {t : Nat} {errA : DWord} {lalt ldepth nfail : Nat} {rest : List Level} (h : s.tidy = true) :
    (s.exhaust t errA lalt ldepth nfail rest).tidy = true := by
  unfold State.exhaust
  split
  · exact h
  · exact State.tidy_mk (State.tidy_mk h)

theorem State.tidy_dispatch {t : Nat} {f : FailRec} {stop : Bool} (h : s.tidy = true) : (s.dispatch t f stop).tidy = true :=
    by
  unfold State.dispatch
  split
  · exact h
  · split
    · exact State.tidy_mk h
    · split
      · exact State.tidy_mk (State.tidy_mk h)
      · exact State.tidy_exhaust (State.tidy_mk h)

theorem State.tidy_endRound {t c a : Nat} (h : s.tidy = true) : (s.endRound t c a).tidy = true :=
  State.tidy_each (State.tidy_mk h) (fun _ _ h1 => State.tidy_failAlt h1)

theorem State.tidy_joinRound {t : Nat} (h : s.tidy = true) : (s.joinRound t).tidy = true := by
  unfold State.joinRound
  split
  · split
    · split
      · exact State.tidy_dispatch h
      · dsimp only
        split
        · exact State.tidy_endRound (State.tidy_each h (fun _ _ h1 => State.tidy_dispatch h1))
        · exact State.tidy_each h (fun _ _ h1 => State.tidy_dispatch h1)
    · exact h
  · exact h

theorem State.tidy_rollTeam {t : Nat} (h : s.tidy = true) : (s.rollTeam t).tidy = true := by
  unfold State.rollTeam
  split
  · exact h
  · split
    · dsimp only
      split
      · exact State.tidy_each (State.tidy_mk h) (fun _ _ h1 => State.tidy_mk h1)
      · refine State.tidy_each (State.tidy_dispatch (State.tidy_rollTo ?_)) (fun _ _ h1 => State.tidy_dispatch
          (State.tidy_rollTo h1))
        split
        · exact State.tidy_mk (State.tidy_each (State.tidy_mk h) (fun _ _ h1 => State.tidy_mk h1))
        · exact State.tidy_each (State.tidy_mk h) (fun _ _ h1 => State.tidy_mk h1)
    · dsimp only
      split
      · exact State.tidy_each (State.tidy_mk h) (fun _ _ h1 => State.tidy_mk h1)
      · exact State.tidy_each (State.tidy_dispatch (State.tidy_rollTo (State.tidy_each (State.tidy_mk h) (fun _ _ h1 =>
          State.tidy_mk h1)))) (fun _ _ h1 => State.tidy_dispatch (State.tidy_rollTo h1))

theorem State.tidy_openLevel {t : Nat} {ms : List (Nat × Group)} {lim e r : DWord} {as : List DWord} (h : s.tidy = true) :
    (s.openLevel t ms lim e r as).tidy = true := by
  unfold State.openLevel
  split
  · exact h
  · split
    · exact State.tidy_joinRound (State.tidy_mk (State.tidy_mk h))
    · dsimp only
      split
      · exact State.tidy_endRound (State.tidy_exhaust (State.tidy_mk h))
      · exact State.tidy_exhaust (State.tidy_mk h)

theorem tidy_ensureAll {g : Group} {ms : List (Nat × Group)} (h : s.tidy = true) : Res.Tidy (ensureAll s g ms) := by
  unfold ensureAll
  split
  · split
    · exact ⟨State.tidy_raiseAll h⟩
    · split
      · exact ⟨State.tidy_raiseAll h⟩
      · split
        · rename_i e
          exact ⟨RdRes.tidy_wait e (State.tidy_readDw h)⟩
        · rename_i e
          exact ⟨State.tidy_raiseAll (RdRes.tidy_trap e (State.tidy_readDw h))⟩
        · rename_i e
          split
          · rename_i e1
            exact ⟨RdRes.tidy_wait e1 (State.tidy_readDw (RdRes.tidy_ok e (State.tidy_readDw h)))⟩
          · rename_i e1
            exact ⟨State.tidy_raiseAll (RdRes.tidy_trap e1 (State.tidy_readDw (RdRes.tidy_ok e (State.tidy_readDw h))))⟩
          · rename_i e1
            split
            · exact ⟨State.tidy_raiseAll (RdRes.tidy_ok e1 (State.tidy_readDw (RdRes.tidy_ok e (State.tidy_readDw h))))⟩
            · exact ⟨State.tidy_openLevel (State.tidy_consumeIf (RdRes.tidy_ok e1 (State.tidy_readDw (RdRes.tidy_ok e
                (State.tidy_readDw h)))))⟩
  · exact ⟨h⟩

theorem tidy_execEnsure {a b : XReg} (h : s.tidy = true) : Res.Tidy (execEnsure a b s) := by
  unfold execEnsure
  refine tidy_withG (fun _ => ?_)
  split
  · exact tidy_raise h
  · split
    · exact tidy_waitLane h
    · split
      · exact ⟨h⟩
      · exact tidy_collect h (fun _ _ h1 => tidy_ensureAll h1)

theorem tidy_dispatchEntry (h : s.tidy = true) : Res.Tidy (dispatchEntry s) := by
  unfold dispatchEntry
  refine tidy_withG (fun _ => ?_)
  split
  · exact tidy_done h
  · exact tidy_raise h

theorem tidy_execRbfail (h : s.tidy = true) : Res.Tidy (execRbfail s) := by
  unfold execRbfail
  refine tidy_withG (fun _ => ?_)
  split
  · exact tidy_raise h
  · split
    · exact tidy_done (State.tidy_failAlt h)
    · exact ⟨State.tidy_failAlt h⟩

theorem State.tidy_unpinWords {l : List (Nat × Nat × L1Word)} (h : s.tidy = true) : (s.unpinWords l).tidy = true :=
  State.tidy_each (State.tidy_each h (fun _ _ h1 => State.tidy_ite (State.tidy_mk h1) (State.tidy_mk h1))) (fun _ _ h1 =>
    State.tidy_ite (State.tidy_writeBackAll _ _ _ h1) h1)

theorem State.tidy_publishTeam {t : Nat} (h : s.tidy = true) : (s.publishTeam t).tidy = true :=
  State.tidy_each (State.tidy_each (State.tidy_unpinWords (State.tidy_publish _ _ (State.tidy_each h (fun _ _ h1 =>
    State.tidy_fill _ _ _ h1)))) (fun _ _ h1 => State.tidy_ite h1 (State.tidy_trigger _ _ _ h1))) (fun _ _ h1 =>
    State.tidy_publishVec h1)

theorem State.tidy_acceptLevel {t : Nat} (h : s.tidy = true) : (s.acceptLevel t).tidy = true := by
  unfold State.acceptLevel
  split
  · exact h
  · split
    · exact h
    · split
      · dsimp only
        split
        · split
          · exact State.tidy_publishTeam h
          · exact State.tidy_mk (State.tidy_passOut _ _ _ h)
        · exact State.tidy_mk (State.tidy_mk (State.tidy_ite (State.tidy_publishTeam h) (State.tidy_mk (State.tidy_passOut _ _
            _ h))))
      · dsimp only
        split
        · split
          · exact State.tidy_publishTeam h
          · exact State.tidy_mk (State.tidy_passOut _ _ _ h)
        · exact State.tidy_mk (State.tidy_mk (State.tidy_ite (State.tidy_publishTeam h) (State.tidy_mk (State.tidy_passOut _ _
            _ h))))

theorem tidy_acceptAll {g : Group} {ms : List (Nat × Group)} (h : s.tidy = true) : Res.Tidy (acceptAll s g ms) := by
  unfold acceptAll
  split
  · exact ⟨h⟩
  · split
    · exact ⟨State.tidy_raiseAll h⟩
    · split
      · exact ⟨h⟩
      · split
        · exact ⟨h⟩
        · split
          · dsimp only
            split
            · exact ⟨State.tidy_failAlt h⟩
            · exact ⟨State.tidy_acceptLevel h⟩
          · dsimp only
            split
            · exact ⟨State.tidy_failAlt h⟩
            · split
              · exact ⟨State.tidy_each (State.tidy_mk h) (fun _ _ h1 => State.tidy_acceptLevel h1)⟩
              · exact tidy_block (State.tidy_mk h)

theorem tidy_execAccept {a : XReg} (h : s.tidy = true) : Res.Tidy (execAccept a s) := by
  unfold execAccept
  refine tidy_withG (fun _ => ?_)
  split
  · exact tidy_raise h
  · split
    · exact tidy_waitLane h
    · split
      · exact ⟨h⟩
      · exact tidy_collect h (fun _ _ h1 => tidy_acceptAll h1)

theorem tidy_joinWait {g : Group} {idx d : Nat} (h : s.tidy = true) : Res.Tidy (joinWait s g idx d) := by
  unfold joinWait
  split
  · split
    · exact tidy_done h
    · exact tidy_block h
  · exact tidy_done h

theorem tidy_joinObject {g : Group} {ms : List (Nat × Group)} {pa n : Nat} {pois : Bool} (h : s.tidy = true) :
    Res.Tidy (joinObject s g ms pa n pois) := by
  unfold joinObject
  dsimp only
  split
  · split
    · exact ⟨State.tidy_raiseAll h⟩
    · refine tidy_withG (fun _ => ?_)
      split
      · exact tidy_joinWait (State.tidy_mk (State.tidy_consumeIf (State.tidy_mk (State.tidy_mk h))))
      · exact ⟨State.tidy_mk (State.tidy_consumeIf (State.tidy_mk (State.tidy_mk h)))⟩
  · split
    · exact tidy_withG (fun _ => tidy_block h)
    · refine tidy_withG (fun _ => ?_)
      split
      · exact tidy_joinWait (State.tidy_mk (State.tidy_consumeIf (State.tidy_mk (State.tidy_mk h))))
      · exact ⟨State.tidy_mk (State.tidy_consumeIf (State.tidy_mk (State.tidy_mk h)))⟩

theorem tidy_cvjoinAll {g : Group} {ms : List (Nat × Group)} (h : s.tidy = true) : Res.Tidy (cvjoinAll s g ms) := by
  unfold cvjoinAll
  split
  · split
    · exact ⟨State.tidy_raiseAll h⟩
    · split
      · exact ⟨State.tidy_raiseAll h⟩
      · split
        · rename_i e
          exact ⟨Tr.tidy_wait e (State.tidy_translate h)⟩
        · rename_i e
          exact ⟨State.tidy_raiseAll (Tr.tidy_fault e (State.tidy_translate h))⟩
        · rename_i e
          split
          · exact ⟨State.tidy_raiseAll (Tr.tidy_ok e (State.tidy_translate h))⟩
          · split
            · rename_i e1
              exact ⟨RdRes.tidy_wait e1 (State.tidy_readDw (Tr.tidy_ok e (State.tidy_translate h)))⟩
            · rename_i e1
              exact ⟨State.tidy_raiseAll (RdRes.tidy_trap e1 (State.tidy_readDw (Tr.tidy_ok e (State.tidy_translate h))))⟩
            · rename_i e1
              dsimp only
              split
              · exact ⟨State.tidy_raiseAll (RdRes.tidy_ok e1 (State.tidy_readDw (Tr.tidy_ok e (State.tidy_translate h))))⟩
              · exact tidy_joinObject (RdRes.tidy_ok e1 (State.tidy_readDw (Tr.tidy_ok e (State.tidy_translate h))))
  · exact ⟨h⟩

theorem tidy_execCvjoin {d a : XReg} (h : s.tidy = true) : Res.Tidy (execCvjoin d a s) := by
  unfold execCvjoin
  refine tidy_withG (fun _ => ?_)
  split
  · exact tidy_raise h
  · split
    · exact tidy_joinWait h
    · exact tidy_collect h (fun _ _ h1 => tidy_cvjoinAll h1)

theorem State.tidy_leaveConv {t : Nat} (h : s.tidy = true) : (s.leaveConv t).tidy = true := by
  unfold State.leaveConv
  split
  · exact h
  · split
    · exact h
    · dsimp only
      split
      · exact State.tidy_mk h
      · exact State.tidy_mk (State.tidy_mk h)

theorem tidy_execCvleave (h : s.tidy = true) : Res.Tidy (execCvleave s) := by
  unfold execCvleave
  refine tidy_withG (fun _ => ?_)
  split
  · exact tidy_raise h
  · exact tidy_collect h (fun _ _ h1 => ⟨State.tidy_mk (State.tidy_leaveConv h1)⟩)

theorem tidy_execChkerr {d : XReg} (h : s.tidy = true) : Res.Tidy (execChkerr d s) := by
  unfold execChkerr
  refine tidy_withG (fun _ => ?_)
  split
  · exact tidy_waitLane h
  · split
    · exact tidy_done h
    · exact ⟨h⟩

/-! ### Operations of Machine/Admit -/

theorem State.tidy_cpRead {ctx : Nat} {va : DWord} {p n : Nat} {l : List Byte} (h : s.tidy = true) :
    (s.cpRead ctx va p n l).Tidy := by
  induction p generalizing s va n l with
  | zero => cases n <;> exact ⟨h⟩
  | succ p ih =>
    unfold State.cpRead
    split
    · exact ⟨h⟩
    · exact ⟨h⟩
    · rename_i hp _
      cases hp
      dsimp only
      split
      · rename_i e
        exact ⟨State.tidy_mk (Tr.tidy_wait e (State.tidy_translate h))⟩
      · rename_i e
        exact ⟨Tr.tidy_fault e (State.tidy_translate h)⟩
      · rename_i e
        have hok := Tr.tidy_ok e (State.tidy_translate h)
        split
        · exact ⟨hok⟩
        · exact ih hok

theorem State.tidy_addGroups {t : Nat} {tm : Team} {d : Desc} {v : VVec} {l : List Nat} (h : s.tidy = true) :
    tidySome id (s.addGroups t tm d v l) := by
  induction l generalizing s t tm d v with
  | nil => exact tidySome_some h
  | cons a r ih =>
    unfold State.addGroups
    dsimp only
    split
    · exact ih (State.tidy_mk (State.tidy_mk h))
    · exact tidySome_none

theorem State.tidy_seatTeam {l inst k p c : Nat} {L : Launch} {v : VVec} (h : s.tidy = true) :
    tidySome Prod.fst (s.seatTeam l inst k p c L v) := by
  unfold State.seatTeam
  split
  · exact tidySome_none
  · dsimp only
    split
    · exact tidySome_none
    · exact tidySome_map (State.tidy_addGroups (State.tidy_shrinkL1 _ _ _ _ (State.tidy_mk (State.tidy_mk h)))) (fun _ h1 =>
        h1)

theorem State.tidy_seatTeams {l inst k : Nat} {L : Launch} {v : VVec} {n : Nat} {l2 l3 : List Nat} (h : s.tidy = true) :
    tidySome Prod.fst (s.seatTeams l inst k L v n l2 l3) := by
  induction l2 generalizing s l inst k L v n l3 with
  | nil => exact tidySome_some h
  | cons a r ih =>
    unfold State.seatTeams
    split
    · exact tidySome_none
    · rename_i e
      exact ih (tidy_some_fst e (State.tidy_seatTeam h))

theorem State.tidy_readCtx {id : Nat} (h : s.tidy = true) : (s.readCtx id).tidy = true := by
  unfold State.readCtx
  split
  · exact h
  · split
    · exact h
    · split <;> exact State.tidy_mk h

theorem State.tidy_invalFlow {ctx : Nat} {regs : List (DWord × Nat × Nat)} {cores : List Nat} (h : s.tidy = true) :
    (s.invalFlow ctx regs cores).tidy = true :=
  State.tidy_each h (fun _ _ h1 => State.tidy_each h1 (fun _ _ h2 => State.tidy_cleanLines h2))

theorem State.tidy_seatInst {l k c : Nat} (h : s.tidy = true) : tidySome id (s.seatInst l k c) := by
  unfold State.seatInst
  split
  · exact tidySome_none
  · split
    · exact tidySome_none
    · split
      · dsimp only
        split <;> exact tidySome_none
      · split
        · dsimp only
          split
          · exact tidySome_none
          · split
            · exact tidySome_none
            · split
              · exact tidySome_none
              · rename_i e
                exact tidySome_some (State.tidy_mk (tidy_some_fst e (State.tidy_seatTeams (State.tidy_invalFlow
                  (State.tidy_readCtx h)))))
        · dsimp only
          split
          · exact tidySome_none
          · split
            · exact tidySome_none
            · split
              · exact tidySome_none
              · rename_i e
                exact tidySome_some (State.tidy_mk (tidy_some_fst e (State.tidy_seatTeams (State.tidy_invalFlow
                  (State.tidy_readCtx h)))))

theorem tidy_execTeamAdmit {l k c : Nat} (h : s.tidy = true) : Res.Tidy (execTeamAdmit l k c s) := by
  unfold execTeamAdmit
  split
  · exact ⟨h⟩
  · split
    · rename_i e
      exact ⟨tidy_some e (State.tidy_seatInst h)⟩
    · exact ⟨h⟩

theorem State.tidy_releaseSeat {t : Nat} (h : s.tidy = true) : (s.releaseSeat t).tidy = true := by
  unfold State.releaseSeat
  split
  · exact h
  · dsimp only
    split
    · exact State.tidy_dropTeam (State.tidy_leaveConv h)
    · split
      · exact State.tidy_endLaunch (State.tidy_mk (State.tidy_dropTeam (State.tidy_leaveConv h)))
      · exact State.tidy_mk (State.tidy_dropTeam (State.tidy_leaveConv h))

theorem tidy_execSeatRelease {t : Nat} (h : s.tidy = true) : Res.Tidy (execSeatRelease t s) := by
  unfold execSeatRelease
  split
  · exact ⟨State.tidy_releaseSeat h⟩
  · exact ⟨h⟩

/-! ### Operations of Machine/CopyEngine -/

theorem State.tidy_flushGroup {g : Nat} (h : s.tidy = true) : (s.flushGroup g).tidy = true := State.tidy_testAll _ _ h

theorem State.tidy_adoptNext {c ch : Nat} (h : s.tidy = true) : (s.adoptNext c ch).tidy = true := by
  unfold State.adoptNext
  dsimp only
  split
  · split <;> exact State.tidy_mk (State.tidy_mk h)
  · exact h

theorem State.tidy_endRunning {c ch : Nat} (h : s.tidy = true) : (s.endRunning c ch).tidy = true := by
  unfold State.endRunning
  dsimp only
  split
  · exact h
  · exact State.tidy_adoptNext (State.tidy_mk (State.tidy_mk h))

theorem State.tidy_readRec {c : Nat} {k : Chan} {x : Chain} {a : DWord} (h : s.tidy = true) : (s.readRec c k x a).Tidy := by
  unfold State.readRec
  split
  · exact ⟨h⟩
  · dsimp only
    split
    · exact ⟨State.tidy_flushGroup h⟩
    · split
      · rename_i e
        exact ⟨Tr.tidy_wait e (State.tidy_translate (State.tidy_flushGroup h))⟩
      · rename_i e
        exact ⟨Tr.tidy_fault e (State.tidy_translate (State.tidy_flushGroup h))⟩
      · rename_i e
        split <;> exact ⟨Tr.tidy_ok e (State.tidy_translate (State.tidy_flushGroup h))⟩

theorem State.tidy_fetchRec {c ch : Nat} (h : s.tidy = true) : (s.fetchRec c ch).tidy = true := by
  unfold State.fetchRec
  dsimp only
  split
  · exact h
  · split
    · exact State.tidy_endRunning h
    · split
      · rename_i e
        exact FetchRes.tidy_wait e (State.tidy_readRec h)
      · rename_i e
        exact State.tidy_haltChan (FetchRes.tidy_bad e (State.tidy_readRec h))
      · rename_i e
        split <;> exact State.tidy_mk (FetchRes.tidy_ok e (State.tidy_readRec h))

theorem State.tidy_fetchNext {c ch : Nat} {r : CopyRec} (h : s.tidy = true) : (s.fetchNext c ch r).tidy = true := by
  unfold State.fetchNext
  split
  · exact h
  · split
    · rename_i e
      split
      · exact State.tidy_mk (FetchRes.tidy_ok e (State.tidy_readRec h))
      · exact FetchRes.tidy_ok e (State.tidy_readRec h)
    · rename_i e
      exact FetchRes.tidy_wait e (State.tidy_readRec h)
    · exact h

theorem tidy_execCopyRecordFetch {c ch : Nat} (h : s.tidy = true) : Res.Tidy (execCopyRecordFetch c ch s) := by
  unfold execCopyRecordFetch
  dsimp only
  split
  · exact ⟨h⟩
  · split
    · exact ⟨State.tidy_fetchRec h⟩
    · split
      · exact ⟨State.tidy_fetchNext h⟩
      · exact ⟨h⟩

theorem tidy_execCopyOwnRecheck {c ch : Nat} (h : s.tidy = true) : Res.Tidy (execCopyOwnRecheck c ch s) := by
  unfold execCopyOwnRecheck
  dsimp only
  split
  · exact ⟨State.tidy_fetchRec h⟩
  · exact ⟨h⟩

theorem State.tidy_chkPages {c ctx : Nat} {write : Bool} {va : DWord} {left n : Nat} (h : s.tidy = true) :
    (s.chkPages c ctx write va left n).Tidy := by
  induction n generalizing s c ctx write va left with
  | zero => exact ⟨h⟩
  | succ n ih =>
    unfold State.chkPages
    split
    · exact ⟨h⟩
    · split
      · rename_i e
        exact ⟨Tr.tidy_wait e (State.tidy_translate h)⟩
      · rename_i e
        exact ⟨Tr.tidy_fault e (State.tidy_translate h)⟩
      · rename_i e
        split
        · exact ⟨Tr.tidy_ok e (State.tidy_translate h)⟩
        · split
          · exact ⟨Tr.tidy_ok e (State.tidy_translate h)⟩
          · exact ih (Tr.tidy_ok e (State.tidy_translate h))

theorem State.tidy_chkRange {c : Nat} {k : Chan} {write : Bool} {va : DWord} {n : Nat} (h : s.tidy = true) :
    (s.chkRange c k write va n).Tidy := by
  unfold State.chkRange
  split
  · dsimp only
    split
    · exact ⟨h⟩
    · exact State.tidy_chkPages h
  · dsimp only
    split
    · exact ⟨h⟩
    · exact State.tidy_chkPages h

theorem State.tidy_chkGlobals {c : Nat} {k : Chan} {r : CopyRec} (h : s.tidy = true) : (s.chkGlobals c k r).Tidy := by
  unfold State.chkGlobals
  split
  · rename_i e
    split
    · refine ⟨RgChk.tidy_ok e ?_⟩
      split
      · exact ⟨h⟩
      · exact State.tidy_chkRange h
    · refine State.tidy_chkRange (RgChk.tidy_ok e ?_)
      split
      · exact ⟨h⟩
      · exact State.tidy_chkRange h
  · split
    · exact ⟨h⟩
    · exact State.tidy_chkRange h

theorem State.tidy_tryRec {c ch : Nat} {own : RlOwner} {r : CopyRec} (h : s.tidy = true) : (s.tryRec c ch own r).Tidy := by
  unfold State.tryRec
  split
  · dsimp only
    split
    · exact ⟨h⟩
    · split
      · exact ⟨h⟩
      · split
        · rename_i e
          exact ⟨RgChk.tidy_wait e (State.tidy_chkGlobals h)⟩
        · rename_i e
          exact ⟨RgChk.tidy_bad e (State.tidy_chkGlobals h)⟩
        · rename_i e
          split
          · exact ⟨RgChk.tidy_ok e (State.tidy_chkGlobals h)⟩
          · rename_i e1
            exact ⟨tidy_some e1 (State.tidy_tryLock (RgChk.tidy_ok e (State.tidy_chkGlobals h)))⟩
  · dsimp only
    split
    · exact ⟨h⟩
    · split
      · exact ⟨h⟩
      · split
        · rename_i e
          exact ⟨RgChk.tidy_wait e (State.tidy_chkGlobals h)⟩
        · rename_i e
          exact ⟨RgChk.tidy_bad e (State.tidy_chkGlobals h)⟩
        · rename_i e
          split
          · exact ⟨RgChk.tidy_ok e (State.tidy_chkGlobals h)⟩
          · rename_i e1
            exact ⟨State.tidy_cleanLines (tidy_some e1 (State.tidy_tryLock (RgChk.tidy_ok e (State.tidy_chkGlobals h))))⟩

theorem State.tidy_registerRec {c ch : Nat} {r : CopyRec} (h : s.tidy = true) : (s.registerRec c ch r).tidy = true := by
  unfold State.registerRec
  split
  · rename_i e
    exact State.tidy_mk (RegRes.tidy_ok e (State.tidy_tryRec h))
  · rename_i e
    exact RegRes.tidy_wait e (State.tidy_tryRec h)
  · rename_i e
    exact State.tidy_mk (State.tidy_haltChan (RegRes.tidy_bad e (State.tidy_tryRec h)))

theorem State.tidy_registerNext {c ch : Nat} {r : CopyRec} (h : s.tidy = true) : (s.registerNext c ch r).tidy = true := by
  unfold State.registerNext
  split
  · rename_i e
    exact State.tidy_mk (RegRes.tidy_ok e (State.tidy_tryRec h))
  · rename_i e
    exact RegRes.tidy_wait e (State.tidy_tryRec h)
  · exact h

theorem tidy_execCopyRecordRegister {c ch : Nat} (h : s.tidy = true) : Res.Tidy (execCopyRecordRegister c ch s) := by
  unfold execCopyRecordRegister
  dsimp only
  split
  · exact ⟨h⟩
  · split
    · exact ⟨h⟩
    · split
      · exact ⟨h⟩
      · exact ⟨State.tidy_registerRec h⟩
    · split
      · exact ⟨State.tidy_registerRec h⟩
      · split
        · exact ⟨h⟩
        · exact ⟨State.tidy_registerNext h⟩

theorem State.tidy_afterEngine {c w : Nat} {q : StoreReq} (h : s.tidy = true) : (s.afterEngine c w q).tidy = true := by
  unfold State.afterEngine
  split
  · exact h
  · split
    · exact State.tidy_mk h
    · split
      · exact State.tidy_unhide h
      · exact h
  · split
    · exact State.tidy_mk h
    · exact h

theorem State.tidy_engineStore {c ch : Nat} {k : Chan} {x : Chain} {va : DWord} {pa : Nat} {v : Word} {pois rel : Bool}
    (h : s.tidy = true) : (s.engineStore c ch k x va pa v pois rel).Tidy := by
  unfold State.engineStore
  split
  · split
    · exact ⟨h⟩
    · rename_i e
      dsimp only
      split
      · exact ⟨tidy_some e (tidySome_some h)⟩
      · rename_i e1
        exact ⟨State.tidy_afterEngine (State.tidy_storeAtHome (tidy_some e (tidySome_some h)) e1)⟩
  · dsimp only
    split
    · exact ⟨h⟩
    · rename_i e
      split
      · exact ⟨State.tidy_renewInside (State.tidy_noteWroteAt (tidy_some e (State.tidy_captureLineAt h)))⟩
      · rename_i e1
        exact ⟨State.tidy_afterEngine (State.tidy_storeAtHome (State.tidy_renewInside (State.tidy_noteWroteAt (tidy_some e
          (State.tidy_captureLineAt h)))) e1)⟩

theorem State.tidy_sourceWord {c : Nat} {k : Chan} {x : Chain} {r : CopyRec} {i : Nat} (h : s.tidy = true) :
    (s.sourceWord c k x r i).1.Tidy := by
  unfold State.sourceWord
  split
  · dsimp only
    split <;> exact ⟨h⟩
  · dsimp only
    split
    · rename_i e
      exact ⟨Tr.tidy_wait e (State.tidy_translate h)⟩
    · rename_i e
      exact ⟨Tr.tidy_fault e (State.tidy_translate h)⟩
    · rename_i e
      split
      · exact ⟨State.tidy_mk (Tr.tidy_ok e (State.tidy_translate h))⟩
      · split <;> exact ⟨Tr.tidy_ok e (State.tidy_translate h)⟩

theorem State.tidy_destWord {c ch : Nat} {k : Chan} {x : Chain} {r : CopyRec} {i : Nat} {v : Word} {p : Bool}
    (h : s.tidy = true) : (s.destWord c ch k x r i v p).Tidy := by
  unfold State.destWord
  split
  · split
    · split
      · dsimp only
        split <;> exact ⟨h⟩
      · rename_i e
        dsimp only
        split
        · exact ⟨h⟩
        · split
          · exact ⟨tidy_some e (tidySome_some h)⟩
          · exact ⟨State.tidy_mk (tidy_some e (tidySome_some h))⟩
    · dsimp only
      split
      · exact ⟨h⟩
      · split
        · exact ⟨h⟩
        · rename_i e
          split
          · exact ⟨State.tidy_renewInside (tidy_some e (State.tidy_captureSpadAt h))⟩
          · exact ⟨State.tidy_mk (State.tidy_renewInside (tidy_some e (State.tidy_captureSpadAt h)))⟩
  · dsimp only
    split
    · rename_i e
      exact ⟨Tr.tidy_wait e (State.tidy_translate h)⟩
    · rename_i e
      exact ⟨Tr.tidy_fault e (State.tidy_translate h)⟩
    · rename_i e
      split
      · exact ⟨Tr.tidy_ok e (State.tidy_translate h)⟩
      · exact State.tidy_engineStore (Tr.tidy_ok e (State.tidy_translate h))

theorem State.tidy_moveWords {c ch : Nat} {k : Chan} {x : Chain} {r : CopyRec} {i n : Nat} (h : s.tidy = true) :
    (s.moveWords c ch k x r i n).1.Tidy := by
  induction n generalizing s i with
  | zero => exact ⟨h⟩
  | succ n ih =>
    have hsource : (s.sourceWord c k x r i).1.Tidy := State.tidy_sourceWord h
    unfold State.moveWords
    split
    · rename_i e
      have hread := MvRes.tidy_ok (congrArg Prod.fst e) hsource
      split
      · rename_i e1
        exact ih (MvRes.tidy_ok e1 (State.tidy_destWord hread))
      · exact State.tidy_destWord hread
    · rename_i e
      rw [e] at hsource
      exact hsource

theorem State.tidy_finishRec {c ch : Nat} {k : Chan} {x : Chain} {rest : List Chain} {r : CopyRec} (h : s.tidy = true) :
    (s.finishRec c ch k x rest r).tidy = true := by
  unfold State.finishRec
  split
  · rename_i e
    exact Tr.tidy_wait e (State.tidy_translate h)
  · rename_i e
    exact State.tidy_haltChan (Tr.tidy_fault e (State.tidy_translate h))
  · rename_i e
    split
    · exact State.tidy_haltChan (Tr.tidy_ok e (State.tidy_translate h))
    · split
      · dsimp only
        split
        · rename_i e1
          exact State.tidy_failAlt (MvRes.tidy_full e1 (State.tidy_engineStore (State.tidy_mk (Tr.tidy_ok e
            (State.tidy_translate h)))))
        · rename_i e1
          exact State.tidy_haltChan (MvRes.tidy_bad e1 (State.tidy_engineStore (State.tidy_mk (Tr.tidy_ok e
            (State.tidy_translate h)))))
        · rename_i e1
          exact MvRes.tidy_wait e1 (State.tidy_engineStore (State.tidy_mk (Tr.tidy_ok e (State.tidy_translate h))))
        · rename_i e1
          exact State.tidy_endRunning (State.tidy_mk (MvRes.tidy_ok e1 (State.tidy_engineStore (State.tidy_mk (Tr.tidy_ok e
            (State.tidy_translate h))))))
      · dsimp only
        split
        · rename_i e1
          exact State.tidy_failAlt (MvRes.tidy_full e1 (State.tidy_engineStore (State.tidy_mk (Tr.tidy_ok e
            (State.tidy_translate h)))))
        · rename_i e1
          exact State.tidy_haltChan (MvRes.tidy_bad e1 (State.tidy_engineStore (State.tidy_mk (Tr.tidy_ok e
            (State.tidy_translate h)))))
        · rename_i e1
          exact MvRes.tidy_wait e1 (State.tidy_engineStore (State.tidy_mk (Tr.tidy_ok e (State.tidy_translate h))))
        · rename_i e1
          exact State.tidy_adoptNext (State.tidy_mk (MvRes.tidy_ok e1 (State.tidy_engineStore (State.tidy_mk (Tr.tidy_ok e
            (State.tidy_translate h))))))

theorem State.tidy_completeRec {c ch : Nat} {r : CopyRec} (h : s.tidy = true) : (s.completeRec c ch r).tidy = true := by
  unfold State.completeRec
  dsimp only
  split
  · exact h
  · split
    · have hmove : ∀ {k x i n}, (s.moveWords c ch k x r i n).1.Tidy := State.tidy_moveWords h
      split
      · rename_i e
        exact State.tidy_haltChan (MvRes.tidy_bad (congrArg Prod.fst e) hmove)
      · rename_i e
        exact State.tidy_failAlt (MvRes.tidy_full (congrArg Prod.fst e) hmove)
      · rename_i e
        exact State.tidy_mk (MvRes.tidy_wait (congrArg Prod.fst e) hmove)
      · rename_i e
        have hok := MvRes.tidy_ok (congrArg Prod.fst e) hmove
        exact State.tidy_ite (State.tidy_finishRec hok) (State.tidy_mk hok)
    · split
      · exact h
      · exact State.tidy_finishRec h

theorem tidy_execCopyRecordComplete {c ch : Nat} (h : s.tidy = true) : Res.Tidy (execCopyRecordComplete c ch s) := by
  unfold execCopyRecordComplete
  dsimp only
  split
  · exact ⟨h⟩
  · split
    · exact ⟨State.tidy_completeRec h⟩
    · exact ⟨h⟩

theorem State.tidy_squashChan {c ch : Nat} (h : s.tidy = true) : (s.squashChan c ch).tidy = true :=
  State.tidy_mk (State.tidy_mk (State.tidy_mk h))

theorem tidy_execCopyDrainExpiry {c ch : Nat} (h : s.tidy = true) : Res.Tidy (execCopyDrainExpiry c ch s) := by
  unfold execCopyDrainExpiry
  dsimp only
  split
  · exact ⟨h⟩
  · split
    · exact ⟨h⟩
    · exact ⟨State.tidy_squashChan (State.tidy_mk h)⟩

/-! ### Operations of Machine/Suspend -/

theorem State.tidy_rewind {t : Nat} (h : s.tidy = true) : (s.rewind t).tidy = true := by
  have hroll : (s.rollTo t 1).tidy = true := State.tidy_rollTo h
  unfold State.rewind
  dsimp only
  split
  · exact hroll
  · split
    · exact State.tidy_mk (State.tidy_mk hroll)
    · exact State.tidy_mk hroll

theorem State.tidy_stopTeam {t : Nat} (h : s.tidy = true) : (s.stopTeam t).tidy = true := by
  unfold State.stopTeam
  split
  · exact h
  · split
    · exact h
    · split
      · dsimp only
        split
        · refine State.tidy_each ?_ (fun _ _ h1 => State.tidy_ite (State.tidy_squashChan h1) h1)
          split
          · exact State.tidy_mk (State.tidy_mk (State.tidy_each h (fun _ _ h1 => State.tidy_mk (State.tidy_unrequest h1))))
          · exact State.tidy_mk (State.tidy_each h (fun _ _ h1 => State.tidy_mk (State.tidy_unrequest h1)))
        · split
          · exact State.tidy_mk (State.tidy_mk (State.tidy_each h (fun _ _ h1 => State.tidy_mk (State.tidy_unrequest h1))))
          · exact State.tidy_mk (State.tidy_each h (fun _ _ h1 => State.tidy_mk (State.tidy_unrequest h1)))
      · dsimp only
        split
        · refine State.tidy_each ?_ (fun _ _ h1 => State.tidy_ite (State.tidy_squashChan h1) h1)
          split
          · exact State.tidy_mk (State.tidy_mk (State.tidy_each (State.tidy_each (State.tidy_rewind h) (fun _ _ h1 =>
              State.tidy_rewind h1)) (fun _ _ h1 => State.tidy_mk (State.tidy_unrequest h1))))
          · exact State.tidy_mk (State.tidy_each (State.tidy_each (State.tidy_rewind h) (fun _ _ h1 => State.tidy_rewind h1))
              (fun _ _ h1 => State.tidy_mk (State.tidy_unrequest h1)))
        · split
          · exact State.tidy_mk (State.tidy_mk (State.tidy_each (State.tidy_each (State.tidy_rewind h) (fun _ _ h1 =>
              State.tidy_rewind h1)) (fun _ _ h1 => State.tidy_mk (State.tidy_unrequest h1))))
          · exact State.tidy_mk (State.tidy_each (State.tidy_each (State.tidy_rewind h) (fun _ _ h1 => State.tidy_rewind h1))
              (fun _ _ h1 => State.tidy_mk (State.tidy_unrequest h1)))

theorem State.tidy_haltBlocks {p t : Nat} (h : s.tidy = true) : (s.haltBlocks p t).tidy = true := by
  unfold State.haltBlocks
  split
  · exact h
  · split
    · exact h
    · exact State.tidy_each h (fun _ _ h1 => State.tidy_mk (State.tidy_mk h1))

theorem State.tidy_saveTeam {t : Nat} (h : s.tidy = true) : (s.saveTeam t).tidy = true := by
  unfold State.saveTeam
  split
  · exact h
  · exact State.tidy_mk (State.tidy_mk (State.tidy_mk (State.tidy_freeChans (State.tidy_mk (State.tidy_dropCreates h)))))

theorem State.tidy_preemptTeam {t : Nat} (h : s.tidy = true) : (s.preemptTeam t).1.tidy = true := by
  unfold State.preemptTeam
  dsimp only
  split
  · exact State.tidy_each h (fun _ _ h1 => State.tidy_haltBlocks h1)
  · split
    · split
      · exact State.tidy_each (State.tidy_each (State.tidy_each h (fun _ _ h1 => State.tidy_haltBlocks h1)) (fun _ _ h1 =>
          State.tidy_stopTeam h1)) (fun _ _ h1 => State.tidy_quietGroup h1)
      · exact State.tidy_mk (State.tidy_each (State.tidy_each (State.tidy_each (State.tidy_each h (fun _ _ h1 =>
          State.tidy_haltBlocks h1)) (fun _ _ h1 => State.tidy_stopTeam h1)) (fun _ _ h1 => State.tidy_quietGroup h1)) (fun _
          _ h1 => State.tidy_saveTeam h1))
    · exact State.tidy_each (State.tidy_each h (fun _ _ h1 => State.tidy_haltBlocks h1)) (fun _ _ h1 => State.tidy_stopTeam
        h1)

theorem State.tidy_cpPreempt {t : Nat} (h : s.tidy = true) : (s.cpPreempt t).tidy = true := by
  unfold State.cpPreempt
  split
  · exact h
  · exact State.tidy_preemptTeam h

theorem tidy_execPreempt {t : Nat} (h : s.tidy = true) : Res.Tidy (execPreempt t s) := ⟨State.tidy_cpPreempt h⟩

theorem State.tidy_placeSaved {t : Nat} {l : List (Nat × Group)} {l2 : List (Nat × Nat)} (h : s.tidy = true) :
    tidySome Prod.fst (s.placeSaved t l l2) := by
  induction l generalizing s t l2 with
  | nil => exact tidySome_some h
  | cons a r ih =>
    unfold State.placeSaved
    dsimp only
    split
    · exact ih (State.tidy_mk h)
    · exact tidySome_none

theorem State.tidy_restoreQueues {k : Nat} {l : List (Nat × OpQueue)} (h : s.tidy = true) :
    tidySome id (s.restoreQueues k l) := by
  induction l generalizing s k with
  | nil => exact tidySome_some h
  | cons a r ih =>
    unfold State.restoreQueues
    split
    · exact ih h
    · split
      · exact tidySome_some h
      · split
        · split
          · exact ih h
          · split
            · dsimp only
              split <;> exact tidySome_none
            · rename_i e
              dsimp only
              split
              · exact tidySome_none
              · exact ih (State.tidy_mk (tidy_some e (State.tidy_tryLock h)))
        · split
          · exact ih h
          · split
            · dsimp only
              split <;> exact tidySome_none
            · rename_i e
              dsimp only
              split
              · exact tidySome_none
              · exact ih (State.tidy_mk (tidy_some e (State.tidy_tryLock h)))

theorem State.tidy_lockWatches {c t : Nat} (h : s.tidy = true) : tidySome id (s.lockWatches c t) := State.tidy_tryLock h

theorem State.tidy_restoreTeam {sv : Saved} {c inst : Nat} (h : s.tidy = true) :
    tidySome Prod.fst (s.restoreTeam sv c inst) := by
  unfold State.restoreTeam
  split
  · exact tidySome_none
  · split
    · exact tidySome_none
    · dsimp only
      split
      · exact tidySome_none
      · rename_i e
        exact tidySome_some (State.tidy_joinRound (State.tidy_mk (State.tidy_each (State.tidy_mk (State.tidy_mk (State.tidy_mk
          (State.tidy_mk (tidy_some_fst e (State.tidy_placeSaved (State.tidy_shrinkL1 _ _ _ _ (State.tidy_mk (State.tidy_mk
          h))))))))) (fun _ _ h1 => State.tidy_mk h1))))

theorem State.tidy_resumeTeam {t : Nat} {m : List (Nat × Nat)} (h : s.tidy = true) : tidySome id (s.resumeTeam t m) := by
  unfold State.resumeTeam
  dsimp only
  split
  · exact tidySome_none
  · rename_i e
    refine tidySome_foldl (tidySome_some (tidy_some e (State.tidy_lockWatches h))) (fun x t ht => ?_)
    split
    · exact tidySome_some ht
    · exact State.tidy_restoreQueues ht

theorem State.tidy_restoreAll {cs : List Nat} {inst : Nat} {l : List Saved} {l2 l3 : List (Nat × Nat)} (h : s.tidy = true) :
    tidySome Prod.fst (s.restoreAll cs inst l l2 l3) := by
  induction l generalizing s cs inst l2 l3 with
  | nil => exact tidySome_some h
  | cons a r ih =>
    unfold State.restoreAll
    split
    · exact tidySome_none
    · split
      · exact tidySome_none
      · rename_i e
        exact ih (tidy_some_fst e (State.tidy_restoreTeam h))

theorem State.tidy_resumeAll {ts m : List (Nat × Nat)} {l : List Saved} (h : s.tidy = true) :
    tidySome id (s.resumeAll ts m l) := by
  induction l generalizing s ts m with
  | nil => exact tidySome_some h
  | cons a r ih =>
    unfold State.resumeAll
    split
    · exact tidySome_none
    · rename_i e
      exact ih (tidy_some e (State.tidy_resumeTeam h))

theorem State.tidy_restoreList {l : List Saved} {inst c : Nat} (h : s.tidy = true) :
    tidySome Prod.fst (s.restoreList l inst c) := by
  unfold State.restoreList
  dsimp only
  split
  · exact tidySome_none
  · split
    · exact tidySome_none
    · rename_i e
      exact tidySome_map (State.tidy_resumeAll (State.tidy_mk (tidy_some_fst e (State.tidy_restoreAll h)))) (fun _ h1 => h1)

theorem State.tidy_restoreSave {sv : Saved} {c : Nat} (h : s.tidy = true) : tidySome Prod.fst (s.restoreSave sv c) :=
  State.tidy_restoreList (State.tidy_mk h)

theorem State.tidy_recall {l : List Saved} (h : s.tidy = true) : (s.recall l).1.tidy = true :=
  State.tidy_each h (fun _ _ h1 => State.tidy_mk h1)

theorem State.tidy_restoreImages {l : List Saved} {c : Nat} (h : s.tidy = true) : tidySome Prod.fst (s.restoreImages l c) :=
    by
  unfold State.restoreImages
  split
  · exact State.tidy_restoreSave h
  · exact State.tidy_restoreList (State.tidy_mk (State.tidy_recall h))

theorem tidy_execRestore {n c : Nat} (h : s.tidy = true) : Res.Tidy (execRestore n c s) := by
  unfold execRestore
  split
  · exact ⟨h⟩
  · split
    · exact ⟨h⟩
    · rename_i e
      exact ⟨tidy_some_fst e (State.tidy_restoreSave h)⟩

/-! ### Operations of Machine/Operands -/

theorem State.tidy_releasePopped {k : Nat} {qs : List QReg} (h : s.tidy = true) : (s.releasePopped k qs).tidy = true := by
  unfold State.releasePopped
  split
  · exact h
  · exact State.tidy_each h (fun _ _ h1 => State.tidy_ite (State.tidy_mk h1) h1)

theorem LaneIn.tidy_after {i : LaneIn} {f : Group → Group} (h : s.tidy = true) : (i.after s f).tidy = true :=
  State.tidy_consumeIf (State.tidy_releasePopped (State.tidy_mk h))

theorem LaneIn.tidy_done {i : LaneIn} {f : Group → Group} (h : s.tidy = true) : Res.Tidy (i.done s f) := ⟨LaneIn.tidy_after h⟩

theorem LaneIn.tidy_raise {i : LaneIn} {num : BitVec 8} {addr info : DWord} (h : s.tidy = true) :
    Res.Tidy (i.raise s num addr info) :=
  tidy_raiseLane h

theorem tidy_withLane {o : LaneOp} {f : LaneIn → Res} (h : s.tidy = true) (hf : ∀ x0, Res.Tidy (f x0)) :
    Res.Tidy (withLane s o f) := by
  unfold withLane
  refine tidy_withG (fun _ => ?_)
  split
  · exact ⟨trivial⟩
  · split
    · exact hf _
    · exact ⟨h⟩
    · exact tidy_raiseLane h
    · exact tidy_raiseLane h

theorem tidy_perLane {o : LaneOp} {f : LaneIn → Nat → Word} (h : s.tidy = true) : Res.Tidy (perLane s o f) :=
  tidy_withLane h (fun _ => LaneIn.tidy_done h)

theorem tidy_perLaneMask {o : LaneOp} {f : LaneIn → Nat → Bool} (h : s.tidy = true) : Res.Tidy (perLaneMask s o f) :=
  tidy_withLane h (fun _ => LaneIn.tidy_done h)

theorem LaneIn.tidy_push {i : LaneIn} {v : DWord} (h : s.tidy = true) : Res.Tidy (i.push s v) := by
  unfold LaneIn.push
  split
  · exact LaneIn.tidy_done h
  · exact ⟨h⟩

/-! ### Operations of Machine/LaneAccess -/

theorem State.tidy_countParts {k : Nat} {l : List LoadPart} (h : s.tidy = true) : (s.countParts k l).1.tidy = true := by
  induction l generalizing s k with
  | nil => exact h
  | cons a r ih => exact ih (State.tidy_countAcc h)

theorem LaneIn.tidy_loaded {i : LaneIn} {l : List LoadPart} {f : Group → Group} (h : s.tidy = true) :
    (i.loaded s l f).tidy = true := by
  unfold LaneIn.loaded
  split
  · rename_i e
    split
    · exact LaneIn.tidy_after (tidy_fst e (State.tidy_countParts h))
    · exact LaneIn.tidy_after (State.tidy_consumeIf (tidy_fst e (State.tidy_countParts h)))

theorem LaneIn.tidy_finishWith {i : LaneIn} {l : List LoadPart} {f : Group → Group} (h : s.tidy = true) :
    Res.Tidy (i.finishWith s l f) :=
  ⟨LaneIn.tidy_loaded h⟩

theorem LaneIn.tidy_finish {i : LaneIn} {l : List LoadPart} (h : s.tidy = true) : Res.Tidy (i.finish s l) :=
  LaneIn.tidy_finishWith h

theorem State.tidy_countAll {ps : List Path} (h : s.tidy = true) : (s.countAll ps).tidy = true :=
  State.tidy_each h (fun _ _ h1 => State.tidy_countAcc h1)

theorem LaneIn.tidy_touch {i : LaneIn} {ps : List Path} {f : Group → Group} (h : s.tidy = true) : Res.Tidy (i.touch s ps f) :=
  LaneIn.tidy_done (State.tidy_countAll h)

theorem LaneIn.tidy_overflow {i : LaneIn} (h : s.tidy = true) : Res.Tidy (i.overflow s) := by
  unfold LaneIn.overflow
  split
  · exact LaneIn.tidy_done (State.tidy_failAlt h)
  · exact ⟨State.tidy_failAlt h⟩

theorem LaneIn.tidy_orOverflow {i : LaneIn} {r : Option State} {f : State → Res} (h : s.tidy = true) (hr : tidySome id r)
    (hf : ∀ t, t.tidy = true → Res.Tidy (f t)) : Res.Tidy (i.orOverflow s r f) := by
  unfold LaneIn.orOverflow
  split
  · exact LaneIn.tidy_overflow h
  · exact hf _ (hr _ rfl)

theorem LaneIn.tidy_raiseArea {i : LaneIn} {write : Bool} {t : AreaTrap} (h : s.tidy = true) :
    Res.Tidy (i.raiseArea s write t) :=
  LaneIn.tidy_raise h

theorem LaneIn.tidy_withAreas {i : LaneIn} {n al : Nat} {write : Bool} {f : Res} (h : s.tidy = true) (hf : Res.Tidy f) :
    Res.Tidy (i.withAreas s n al write f) := by
  unfold LaneIn.withAreas
  split
  · exact LaneIn.tidy_raiseArea h
  · split
    · exact LaneIn.tidy_raiseArea h
    · split
      · exact ⟨h⟩
      · exact hf

theorem State.tidy_updSpad {t o : Nat} {f : Word → Word} (h : s.tidy = true) : tidySome id (s.updSpad t o f) := by
  unfold State.updSpad
  split
  · exact tidySome_some h
  · exact State.tidy_storeSpad h

theorem State.tidy_updSpads {t : Nat} {l : List (Nat × (Word → Word))} (h : s.tidy = true) : tidySome id (s.updSpads t l) :=
    by
  induction l generalizing s t with
  | nil => exact tidySome_some h
  | cons a r ih =>
    unfold State.updSpads
    split
    · exact tidySome_none
    · rename_i e
      exact ih (tidy_some e (State.tidy_updSpad h))

/-! ### Operations of Machine/Matrix -/

theorem tidy_mma {o : LaneOp} {m : Mma} {service : Bool} {f : Mma → Group → Nat → Nat → Nat → Word → Word} (h : s.tidy = true) :
    Res.Tidy (mma s o m service f) := by
  unfold mma
  refine tidy_withLane h (fun _ => ?_)
  split
  · exact LaneIn.tidy_raise h
  · exact LaneIn.tidy_withAreas h (LaneIn.tidy_orOverflow h (State.tidy_updSpads h) (fun _ h1 => LaneIn.tidy_touch h1))

theorem tidy_execMzero {o : LaneOp} (h : s.tidy = true) : Res.Tidy (execMzero o s) :=
  tidy_withLane h (fun _ => LaneIn.tidy_withAreas h (LaneIn.tidy_orOverflow h (State.tidy_updSpads h) (fun _ h1 =>
    LaneIn.tidy_touch h1)))

theorem tidy_fragLoad {tr roleB : Bool} {t : Ty} {k64 : Bool} {o : LaneOp} (h : s.tidy = true) :
    Res.Tidy (fragLoad s tr roleB t k64 o) := by
  unfold fragLoad
  refine tidy_withLane h (fun _ => ?_)
  split
  · dsimp only
    split
    · exact LaneIn.tidy_raise h
    · exact ⟨h⟩
  · dsimp only
    split
    · exact LaneIn.tidy_raise h
    · exact LaneIn.tidy_finish h

theorem tidy_execMaccLd {o : LaneOp} (h : s.tidy = true) : Res.Tidy (execMaccLd o s) :=
  tidy_withLane h (fun _ => LaneIn.tidy_withAreas h (LaneIn.tidy_finish h))

theorem tidy_maccUpd {o : LaneOp} {f : Word → Word → Word} (h : s.tidy = true) : Res.Tidy (maccUpd s o f) :=
  tidy_withLane h (fun _ => LaneIn.tidy_withAreas h (LaneIn.tidy_orOverflow h (State.tidy_updSpads h) (fun _ h1 =>
    LaneIn.tidy_touch h1)))

/-! ### Operations of Machine/Narrow -/

theorem LaneIn.tidy_readClear {i : LaneIn} {clr : Bool} {n : Nat} {l : List (Nat × Nat × Nat)} (h : s.tidy = true) :
    tidySome Prod.fst (i.readClear clr n l s) := by
  induction l generalizing i clr n s with
  | nil => exact tidySome_some h
  | cons a r ih =>
    unfold LaneIn.readClear
    split
    · split
      · exact tidySome_none
      · rename_i e
        refine tidySome_map (ih (tidy_some e ?_)) (fun _ h1 => h1)
        split
        · exact State.tidy_storeSpad h
        · exact tidySome_some h

theorem tidy_execCrtAcc {clr : Bool} {o : LaneOp} (h : s.tidy = true) : Res.Tidy (execCrtAcc clr o s) := by
  unfold execCrtAcc
  refine tidy_withLane h (fun _ => ?_)
  refine LaneIn.tidy_withAreas h ?_
  split
  · exact LaneIn.tidy_overflow h
  · rename_i e
    exact LaneIn.tidy_finish (tidy_some_fst e (LaneIn.tidy_readClear h))

theorem State.tidy_updFx {t : Nat} {f : Nat → Nat → Nat → Nat} {l : List (Nat × Nat × Nat)} (h : s.tidy = true) :
    tidySome id (s.updFx t f l) := by
  induction l generalizing s t f with
  | nil => exact tidySome_some h
  | cons a r ih =>
    unfold State.updFx
    split
    · exact tidySome_none
    · rename_i e
      exact ih (tidy_some e (State.tidy_storeSpad h))

theorem tidy_fxUpdate {o : LaneOp} {f : LaneIn → Nat → Nat → Nat → Nat} (h : s.tidy = true) : Res.Tidy (fxUpdate s o f) :=
  tidy_withLane h (fun _ => LaneIn.tidy_withAreas h (LaneIn.tidy_orOverflow h (State.tidy_updFx h) (fun _ h1 =>
    LaneIn.tidy_touch h1)))

theorem tidy_execFxcvt {t : Ty} {pt : BitVec 7} {clr : Bool} {rm : Rm} {o : LaneOp} (h : s.tidy = true) :
    Res.Tidy (execFxcvt t pt clr rm o s) := by
  unfold execFxcvt
  refine tidy_withLane h (fun _ => ?_)
  refine LaneIn.tidy_withAreas h ?_
  split
  · exact LaneIn.tidy_overflow h
  · rename_i e
    exact LaneIn.tidy_finish (tidy_some_fst e (LaneIn.tidy_readClear h))

theorem tidy_execSbmax {t : Ty} {oct : Bool} {o : LaneOp} (h : s.tidy = true) : Res.Tidy (execSbmax t oct o s) := by
  unfold execSbmax
  split
  · exact tidy_withLane h (fun _ => LaneIn.tidy_done h)
  · exact tidy_perLane h

theorem LaneIn.tidy_withRegion {i : LaneIn} {write : Bool} {f : Res} (h : s.tidy = true) (hf : Res.Tidy f) :
    Res.Tidy (i.withRegion s write f) := by
  unfold LaneIn.withRegion
  split
  · dsimp only
    split
    · exact LaneIn.tidy_raiseArea h
    · exact ⟨h⟩
  · dsimp only
    split
    · exact LaneIn.tidy_raiseArea h
    · exact hf

theorem LaneIn.tidy_claim {i : LaneIn} {l record : Nat} (h : s.tidy = true) : (i.claim s l record).Tidy := by
  unfold LaneIn.claim
  dsimp only
  split
  · exact ⟨trivial⟩
  · split
    · split
      · exact ⟨trivial⟩
      · rename_i e
        exact ⟨tidy_some e (tidySome_bind (State.tidy_storeSpad h) (fun _ h1 => State.tidy_storeSpad h1))⟩
    · exact ⟨trivial⟩

theorem LaneIn.tidy_qntLane {i : LaneIn} {t : Ty} {b : Nat} {rm : Rm} {l : Nat} {l2 : List Nat} {w : Word} {n : Nat}
    (h : s.tidy = true) : (i.qntLane t b rm l l2 s w n).Tidy := by
  induction l2 generalizing i t b rm l s w n with
  | nil => exact ⟨h⟩
  | cons a r ih =>
    unfold LaneIn.qntLane
    dsimp only
    split
    · exact ih h
    · split
      · exact ⟨trivial⟩
      · exact ⟨trivial⟩
      · rename_i e
        exact ih (ClaimRes.tidy_took e (LaneIn.tidy_claim h))
      · exact ih h

theorem LaneIn.tidy_qntAll {i : LaneIn} {t : Ty} {sel : BitVec 2} {rm : Rm} {l : List Nat} {l2 : List (Nat × Word)} {n : Nat}
    (h : s.tidy = true) : (i.qntAll t sel rm l s l2 n).Tidy := by
  induction l generalizing i t sel rm s l2 n with
  | nil => exact ⟨h⟩
  | cons a r ih =>
    unfold LaneIn.qntAll
    split
    · rename_i e
      exact ih (QntRes.tidy_ok e (LaneIn.tidy_qntLane h))
    · exact ⟨trivial⟩
    · exact ⟨trivial⟩

theorem tidy_execQnt {t : Ty} {sel : BitVec 2} {rm : Rm} {o : LaneOp} (h : s.tidy = true) : Res.Tidy (execQnt t sel rm o s) :=
    by
  unfold execQnt
  refine tidy_withLane h (fun _ => ?_)
  refine LaneIn.tidy_withRegion h ?_
  split
  · exact LaneIn.tidy_overflow h
  · exact LaneIn.tidy_raiseArea h
  · rename_i e
    exact LaneIn.tidy_touch (QntRes.tidy_ok e (LaneIn.tidy_qntAll h))

theorem tidy_execDqnt {t : Ty} {sel : BitVec 2} {o : LaneOp} (h : s.tidy = true) : Res.Tidy (execDqnt t sel o s) :=
  tidy_withLane h (fun _ => LaneIn.tidy_done h)

theorem tidy_execOlx {o : LaneOp} (h : s.tidy = true) : Res.Tidy (execOlx o s) := by
  unfold execOlx
  refine tidy_withLane h (fun _ => ?_)
  refine LaneIn.tidy_withRegion h ?_
  split
  · exact LaneIn.tidy_done h
  · split
    · split
      · exact LaneIn.tidy_raiseArea h
      · exact LaneIn.tidy_touch (State.tidy_consumeIf h)

/-! ### Operations of Machine/LaneMem -/

theorem State.tidy_transAll {k : Nat} {g : Group} {write : Bool} {l : List DWord} (h : s.tidy = true) :
    (s.transAll k g write l).1.tidy = true := by
  induction l generalizing s k g write with
  | nil => exact h
  | cons a r ih =>
    unfold State.transAll
    split
    · rename_i e
      exact Tr.tidy_fault e (State.tidy_translate h)
    · rename_i e
      exact ih (Tr.tidy_wait e (State.tidy_translate h))
    · rename_i e
      exact ih (Tr.tidy_ok e (State.tidy_translate h))

theorem State.tidy_chkLane {k : Nat} {g : Group} {l n al : Nat} {write : Bool} {perm : Nat → Bool} {vas : List DWord}
    (h : s.tidy = true) : (s.chkLane k g l n al write perm vas).1.tidy = true := by
  unfold State.chkLane
  split
  · exact h
  · split
    · exact h
    · split
      · rename_i e
        exact tidy_fst e (State.tidy_transAll h)
      · rename_i e
        split
        · exact tidy_fst e (State.tidy_transAll h)
        · split
          · exact tidy_fst e (State.tidy_transAll h)
          · split <;> exact tidy_fst e (State.tidy_transAll h)

theorem State.tidy_chkLanes {k : Nat} {g : Group} {n al : Nat} {write : Bool} {perm : Nat → Bool}
    {l : List (Nat × List DWord)} (h : s.tidy = true) : (s.chkLanes k g n al write perm l).1.tidy = true := by
  induction l generalizing s k g n al write perm with
  | nil => exact h
  | cons a r ih =>
    unfold State.chkLanes
    split
    · rename_i e
      exact tidy_fst e (State.tidy_chkLane h)
    · rename_i e
      exact ih (tidy_fst e (State.tidy_chkLane h))

theorem LaneIn.tidy_withGlobal {i : LaneIn} {f : AddrForm} {m n al : Nat} {write : Bool} {perm : Nat → Bool}
    {r : State → List (Nat × List Place) → Res} (h : s.tidy = true) (hr : ∀ t x1, t.tidy = true → Res.Tidy (r t x1)) :
    Res.Tidy (i.withGlobal s f m n al write perm r) := by
  unfold LaneIn.withGlobal
  split
  · rename_i e
    exact LaneIn.tidy_raise (tidy_fst e (State.tidy_chkLanes h))
  · rename_i e
    exact hr _ _ (tidy_fst e (State.tidy_chkLanes h))

theorem LaneIn.tidy_withSpad {i : LaneIn} {f : AddrForm} {m n al : Nat} {write : Bool} {r : List (Nat × List SPlace) → Res}
    (h : s.tidy = true) (hr : ∀ x0, Res.Tidy (r x0)) : Res.Tidy (i.withSpad s f m n al write r) := by
  unfold LaneIn.withSpad
  split
  · exact LaneIn.tidy_raise h
  · split
    · exact ⟨h⟩
    · exact hr _

theorem LaneIn.tidy_block {l : LaneIn} {row : WaitRow} (h : s.tidy = true) : Res.Tidy (l.block s row) := ⟨State.tidy_mk h⟩

theorem LaneIn.tidy_ready {i : LaneIn} {n : Nat} {ps : List (Nat × List Place)} {r : Res} (h : s.tidy = true)
    (hr : Res.Tidy r) : Res.Tidy (i.ready s n ps r) := by
  unfold LaneIn.ready
  split
  · exact ⟨h⟩
  · split
    · exact LaneIn.tidy_block h
    · exact hr

theorem State.tidy_readAll {k n vd : Nat} {t : Ty} {l : List (Nat × Nat × Place)} (h : s.tidy = true) :
    (s.readAll k n vd t l).1.tidy = true := by
  induction l generalizing s k n vd t with
  | nil => exact h
  | cons a r ih => exact ih (State.tidy_loadN h)

theorem tidy_laneLoad {t : Ty} {f : AddrForm} {m : Nat} {o : LaneOp} (h : s.tidy = true) : Res.Tidy (laneLoad s t f m o) :=
  tidy_withLane h (fun _ => LaneIn.tidy_withGlobal h (fun _ _ h1 => LaneIn.tidy_ready h1 (LaneIn.tidy_finish
    (State.tidy_readAll h1))))

theorem tidy_laneLoadS {t : Ty} {f : AddrForm} {m : Nat} {o : LaneOp} (h : s.tidy = true) : Res.Tidy (laneLoadS s t f m o) :=
  tidy_withLane h (fun _ => LaneIn.tidy_withSpad h (fun _ => LaneIn.tidy_finish h))

theorem State.tidy_countPaths {k : Nat} {l : List Path} (h : s.tidy = true) : (s.countPaths k l).1.tidy = true := by
  induction l generalizing s k with
  | nil => exact h
  | cons a r ih => exact ih (State.tidy_countAcc h)

theorem State.tidy_storeAll {k n : Nat} {sq : List (Path × Nat)} {lp : LanePos} {l : List LaneStore} (h : s.tidy = true) :
    tidySome id (s.storeAll k n sq lp l) := by
  induction l generalizing s k n sq lp with
  | nil => exact tidySome_some h
  | cons a r ih =>
    unfold State.storeAll
    split
    · exact ih h
    · split
      · exact ih h
      · split
        · exact tidySome_none
        · rename_i e
          exact ih (tidy_some e (State.tidy_storeN h))

theorem State.tidy_parkAll {k n : Nat} {sq : List (Path × Nat)} {lp : LanePos} {l : List LaneStore} {l2 : List Nat}
    (h : s.tidy = true) : (s.parkAll k n sq lp l l2).tidy = true := by
  induction l2 generalizing s k n sq lp l with
  | nil => exact h
  | cons a r ih => exact ih (State.tidy_parkBytes h)

theorem tidy_laneStore {t : Ty} {f : AddrForm} {m : Nat} {o : LaneOp} (h : s.tidy = true) : Res.Tidy (laneStore s t f m o) :=
    by
  unfold laneStore
  refine tidy_withLane h (fun _ => ?_)
  refine LaneIn.tidy_withGlobal h (fun _ _ h1 => ?_)
  split
  · exact ⟨h1⟩
  · dsimp only
    split
    · exact LaneIn.tidy_block h1
    · split
      · exact LaneIn.tidy_overflow h1
      · rename_i e
        exact LaneIn.tidy_done (State.tidy_parkAll (tidy_some e (State.tidy_storeAll (State.tidy_countPaths h1))))

theorem State.tidy_storeSpads {u n : Nat} {l : List (SPlace × Nat)} (h : s.tidy = true) : tidySome id (s.storeSpads u n l) :=
    by
  induction l generalizing s u n with
  | nil => exact tidySome_some h
  | cons a r ih =>
    unfold State.storeSpads
    split
    · exact tidySome_none
    · rename_i e
      exact ih (tidy_some e (State.tidy_storeSpad h))

theorem tidy_laneStoreS {t : Ty} {f : AddrForm} {m : Nat} {o : LaneOp} (h : s.tidy = true) :
    Res.Tidy (laneStoreS s t f m o) :=
  tidy_withLane h (fun _ => LaneIn.tidy_withSpad h (fun _ => LaneIn.tidy_orOverflow h (State.tidy_storeSpads h) (fun _ h1 =>
    LaneIn.tidy_touch h1)))

theorem tidy_execVldr {c : BitVec 3} {sp : Bool} {f : AddrForm} {o : LaneOp} (h : s.tidy = true) :
    Res.Tidy (execVldr c sp f o s) := by
  unfold execVldr
  split
  · exact tidy_laneLoadS h
  · exact tidy_laneLoad h

theorem tidy_execVstr {c : BitVec 3} {sp : Bool} {f : AddrForm} {o : LaneOp} (h : s.tidy = true) :
    Res.Tidy (execVstr c sp f o s) := by
  unfold execVstr
  split
  · exact tidy_laneStoreS h
  · exact tidy_laneStore h

theorem State.tidy_prefetch {k : Nat} {g : Group} {l : List DWord} (h : s.tidy = true) : (s.prefetch k g l).tidy = true := by
  induction l generalizing s k g with
  | nil => exact h
  | cons a r ih =>
    unfold State.prefetch
    split
    · exact h
    · split
      · rename_i e
        split
        · exact ih h
        · exact ih (State.tidy_fillLine _ _ _ _ (Tr.tidy_ok e (State.tidy_translate h)))
      · exact ih h

theorem tidy_execVpf {l2 : Bool} {f : AddrForm} {o : LaneOp} (h : s.tidy = true) : Res.Tidy (execVpf l2 f o s) := by
  unfold execVpf
  refine tidy_withG (fun _ => ?_)
  split
  · exact ⟨trivial⟩
  · split
    · exact LaneIn.tidy_done (State.tidy_ite h (State.tidy_prefetch h))
    · exact ⟨h⟩
    · exact LaneIn.tidy_done h
    · exact LaneIn.tidy_done h

theorem tidy_execVfence {sc : Scope} {o : LaneOp} (h : s.tidy = true) : Res.Tidy (execVfence sc o s) := by
  unfold execVfence
  refine tidy_withLane h (fun _ => ?_)
  dsimp only
  split
  · exact LaneIn.tidy_raise (State.tidy_freeAddr (State.tidy_pushOut h))
  · split
    · exact LaneIn.tidy_done (State.tidy_acquire (State.tidy_publishVec (State.tidy_pushOut h)))
    · exact ⟨State.tidy_pushOut h⟩

theorem LaneIn.tidy_atomsS {i : LaneIn} {op : AtomOp} {t : Ty} {l : List (Nat × SPlace)} (h : s.tidy = true) :
    tidySome Prod.fst (i.atomsS op t l s) := by
  induction l generalizing i op t s with
  | nil => exact tidySome_some h
  | cons a r ih =>
    unfold LaneIn.atomsS
    split
    · exact tidySome_none
    · rename_i e
      exact tidySome_map (ih (tidy_some_fst e (State.tidy_atomSpad h))) (fun _ h1 => h1)

theorem LaneIn.tidy_atomsG {i : LaneIn} {op : AtomOp} {t : Ty} {l : List (Nat × DWord × Nat)} (h : s.tidy = true) :
    tidySome Prod.fst (i.atomsG op t l s) := by
  induction l generalizing i op t s with
  | nil => exact tidySome_some h
  | cons a r ih =>
    unfold LaneIn.atomsG
    split
    · exact tidySome_none
    · rename_i e
      exact tidySome_map (ih (tidy_some_fst e (State.tidy_atomGlobal h))) (fun _ h1 => h1)

theorem tidy_execVamo {op : AtomOp} {sc : Scope} {t : Ty} {f : AddrForm} {o : LaneOp} (h : s.tidy = true) :
    Res.Tidy (execVamo op sc t f o s) := by
  unfold execVamo
  refine tidy_withLane h (fun _ => ?_)
  split
  · refine LaneIn.tidy_withSpad h (fun _ => ?_)
    split
    · exact LaneIn.tidy_finish h
    · dsimp only
      split
      · exact LaneIn.tidy_overflow h
      · rename_i e
        exact LaneIn.tidy_finish (tidy_some_fst e (LaneIn.tidy_atomsS h))
  · refine LaneIn.tidy_withGlobal h (fun _ _ h1 => ?_)
    refine LaneIn.tidy_ready h1 ?_
    split
    · exact LaneIn.tidy_finish h1
    · dsimp only
      split
      · exact LaneIn.tidy_overflow h1
      · rename_i e
        exact LaneIn.tidy_finish (tidy_some_fst e (LaneIn.tidy_atomsG h1))

theorem State.tidy_readCells {k : Nat} {l : List (Nat × Nat)} (h : s.tidy = true) : (s.readCells k l).1.tidy = true := by
  induction l generalizing s k with
  | nil => exact h
  | cons a r ih => exact ih (State.tidy_settleWord h)

theorem tidy_cellLoad {f : AddrForm} {o : LaneOp} {r : LaneIn → State → List (Nat × Word × Nat × Bool × Nat) → Res}
    (h : s.tidy = true) (hr : ∀ x0 t x2, t.tidy = true → Res.Tidy (r x0 t x2)) : Res.Tidy (cellLoad s f o r) :=
  tidy_withLane h (fun _ => LaneIn.tidy_withGlobal h (fun _ _ h1 => LaneIn.tidy_ready h1 (hr _ _ _ (State.tidy_readCells
    h1))))

theorem tidy_execVldc {f : AddrForm} {o : LaneOp} (h : s.tidy = true) : Res.Tidy (execVldc f o s) :=
  tidy_cellLoad h (fun _ _ _ h1 => LaneIn.tidy_finish h1)

theorem tidy_execVldcDq {f : AddrForm} {o : LaneOp} (h : s.tidy = true) : Res.Tidy (execVldcDq f o s) := by
  unfold execVldcDq
  refine tidy_cellLoad h (fun _ _ _ h1 => ?_)
  split
  · exact LaneIn.tidy_finishWith h1
  · exact ⟨h⟩

theorem LaneIn.tidy_spawnLanes {i : LaneIn} {e : DWord} {l : List Nat} (h : s.tidy = true) :
    (i.spawnLanes e l s).1.tidy = true := by
  induction l generalizing i e s with
  | nil => exact h
  | cons a r ih =>
    unfold LaneIn.spawnLanes
    split
    · exact h
    · rename_i e
      exact ih (tidy_some e (State.tidy_insertTask h))

theorem tidy_execSpawn {o : LaneOp} (h : s.tidy = true) : Res.Tidy (execSpawn o s) := by
  unfold execSpawn
  refine tidy_withLane h (fun _ => ?_)
  split
  · dsimp only
    split
    · exact LaneIn.tidy_raise h
    · split
      · exact LaneIn.tidy_raise h
      · exact ⟨h⟩
  · dsimp only
    split
    · exact LaneIn.tidy_raise h
    · split
      · exact LaneIn.tidy_raise h
      · split
        · rename_i e
          exact LaneIn.tidy_done (tidy_fst e (LaneIn.tidy_spawnLanes h))
        · rename_i e
          exact ⟨State.tidy_mk (tidy_fst e (LaneIn.tidy_spawnLanes h))⟩

/-! ### Operations of Machine/Capability -/

theorem State.tidy_requestRetire {p : Part} (h : s.tidy = true) : (s.requestRetire p).1.tidy = true := by
  unfold State.requestRetire
  split
  · exact h
  · split
    · exact h
    · exact State.tidy_mk h

/-! ### Operations of Machine/System -/

theorem tidy_withClass {sys : Bool} {f : Group → Res} (h : s.tidy = true) (hf : ∀ g, Res.Tidy (f g)) :
    Res.Tidy (withClass s sys f) := by
  unfold withClass
  refine tidy_withG (fun _ => ?_)
  split
  · exact tidy_raise h
  · exact hf _

theorem tidy_execRti (h : s.tidy = true) : Res.Tidy (execRti s) := tidy_withClass h (fun _ => tidy_returnTrap h)

theorem tidy_execHalt {a : XReg} (h : s.tidy = true) : Res.Tidy (execHalt a s) :=
  tidy_withClass h (fun _ => ⟨State.tidy_endCtx h⟩)

theorem tidy_execCapq {d a : XReg} (h : s.tidy = true) : Res.Tidy (execCapq d a s) := tidy_withG (fun _ => tidy_done h)

theorem tidy_execPrgn {d a : XReg} (h : s.tidy = true) : Res.Tidy (execPrgn d a s) := by
  unfold execPrgn
  refine tidy_withG (fun _ => ?_)
  dsimp only
  split
  · rename_i e
    exact ⟨Tr.tidy_wait e (State.tidy_translate h)⟩
  · rename_i e
    exact tidy_raise (Tr.tidy_fault e (State.tidy_translate h))
  · rename_i e
    exact tidy_doneWith (Tr.tidy_ok e (State.tidy_translate h))

theorem tidy_postHcall {n : BitVec 13} (h : s.tidy = true) : Res.Tidy (postHcall s n) :=
  tidy_withG (fun _ => tidy_block (State.tidy_mk (State.tidy_originate h)))

theorem tidy_execHcall {n : BitVec 13} (h : s.tidy = true) : Res.Tidy (execHcall n s) := by
  unfold execHcall
  refine tidy_withG (fun _ => ?_)
  split
  · exact tidy_doneWith (State.tidy_acquire h)
  · exact tidy_block h
  · exact tidy_withRelease h (fun _ h1 => tidy_postHcall (State.tidy_acquire h1))

theorem tidy_execChkmode {a : XReg} (h : s.tidy = true) : Res.Tidy (execChkmode a s) := by
  unfold execChkmode
  refine tidy_withClass h (fun _ => ?_)
  split
  · exact tidy_raise h
  · split
    · exact tidy_waitLane h
    · exact tidy_done (State.tidy_mk h)

theorem tidy_execClkmode {d a : XReg} (h : s.tidy = true) : Res.Tidy (execClkmode d a s) := by
  unfold execClkmode
  refine tidy_withClass h (fun _ => ?_)
  split
  · dsimp only
    split
    · exact tidy_raise h
    · exact tidy_done h
  · dsimp only
    split
    · exact tidy_raise h
    · split <;> exact tidy_done (State.tidy_mk h)

theorem tidy_execRetire {d a : XReg} (h : s.tidy = true) : Res.Tidy (execRetire d a s) := by
  unfold execRetire
  refine tidy_withClass h (fun _ => ?_)
  split
  · exact tidy_raise h
  · exact tidy_done (State.tidy_requestRetire h)

theorem State.tidy_storeImage {k : Nat} {va : DWord} {n : Nat} {l : List DWord} (h : s.tidy = true) :
    (s.storeImage k va n l).1.tidy = true := by
  induction n generalizing s k va l with
  | zero => exact h
  | succ n ih =>
    unfold State.storeImage
    split
    · exact h
    · split
      · rename_i e
        split
        · exact Tr.tidy_ok e (State.tidy_translate h)
        · exact ih (State.tidy_storeFields (Tr.tidy_ok e (State.tidy_translate h)))
      · rename_i e
        exact Tr.tidy_wait e (State.tidy_translate h)
      · rename_i e
        exact Tr.tidy_fault e (State.tidy_translate h)

theorem State.tidy_storeImages {k : Nat} {va : DWord} {teams : Nat} {l : List Saved} {n : Nat} (h : s.tidy = true) :
    (s.storeImages k va teams l n).1.tidy = true := by
  induction l generalizing s k va teams n with
  | nil => exact h
  | cons a r ih =>
    unfold State.storeImages
    dsimp only
    split
    · rename_i e
      exact tidy_fst e (State.tidy_storeImage h)
    · rename_i e
      exact ih (tidy_fst e (State.tidy_storeImage h))

theorem State.tidy_claimSave {k t : Nat} (h : s.tidy = true) : (s.claimSave k t).tidy = true :=
  State.tidy_each h (fun _ _ h1 => State.tidy_mk h1)

theorem tidy_endSave {g : Group} (h : s.tidy = true) : Res.Tidy (endSave s g) := by
  unfold endSave
  split
  · exact tidy_done h
  · exact ⟨h⟩

theorem tidy_writeSave {d : XReg} {va : DWord} (h : s.tidy = true) : Res.Tidy (writeSave d va s) := by
  unfold writeSave
  dsimp only
  split
  · rename_i e
    exact ⟨State.tidy_doubleFault (tidy_fst e (State.tidy_storeImages (State.tidy_mk h)))⟩
  · rename_i e
    exact tidy_withG (fun _ => ⟨State.tidy_mk (State.tidy_mk (State.tidy_flushGroup (tidy_fst e (State.tidy_storeImages
      (State.tidy_mk h)))))⟩)

theorem tidy_execCtxsv {d a b : XReg} (h : s.tidy = true) : Res.Tidy (execCtxsv d a b s) := by
  unfold execCtxsv
  refine tidy_withClass h (fun _ => ?_)
  split
  · exact tidy_endSave h
  · dsimp only
    split
    · split
      · exact tidy_raise h
      · split
        · exact tidy_raise h
        · split
          · exact tidy_raise h
          · split
            · rename_i e
              exact ⟨tidy_fst e (State.tidy_preemptTeam (State.tidy_claimSave h))⟩
            · rename_i e
              split
              · exact tidy_writeSave (tidy_fst e (State.tidy_preemptTeam (State.tidy_claimSave h)))
              · exact tidy_block h
    · split
      · exact tidy_raise h
      · split
        · exact tidy_raise h
        · split
          · exact tidy_raise h
          · split
            · rename_i e
              exact ⟨tidy_fst e (State.tidy_preemptTeam (State.tidy_claimSave h))⟩
            · rename_i e
              split
              · exact tidy_writeSave (tidy_fst e (State.tidy_preemptTeam (State.tidy_claimSave h)))
              · exact tidy_block h

theorem State.tidy_loadCore {l : List Saved} {b : DWord} (h : s.tidy = true) : tidySome Prod.fst (s.loadCore l b) := by
  unfold State.loadCore
  split
  · exact tidySome_findSome? (fun _ => State.tidy_restoreImages h)
  · exact State.tidy_restoreImages h

theorem State.tidy_readImages {k : Nat} {g : Group} {va : DWord} {all : List Saved} {pois : Bool} {l : List Saved}
    (h : s.tidy = true) : (s.readImages k g va all pois l).Tidy := by
  induction l generalizing s k g va all pois with
  | nil => exact ⟨h⟩
  | cons a r ih =>
    unfold State.readImages
    dsimp only
    split
    · rename_i e
      split
      · exact ih (RdRes.tidy_ok e (State.tidy_readDw h))
      · exact ⟨trivial⟩
    · exact ⟨State.tidy_readDw h⟩

theorem State.tidy_readForeign {k : Nat} {g : Group} {va : DWord} {pois : Bool} {n : Nat} {l : List Saved} (h : s.tidy = true) :
    (s.readForeign k g va pois n l).Tidy := by
  induction n generalizing s k g va pois l with
  | zero =>
    unfold State.readForeign
    split
    · exact ⟨trivial⟩
    · exact ⟨h⟩
  | succ n ih =>
    unfold State.readForeign
    split
    · rename_i e
      dsimp only
      split
      · rename_i e1
        split
        · exact ih (State.tidy_mk (RdRes.tidy_ok e1 (State.tidy_readDw (RdRes.tidy_ok e (State.tidy_readDw h)))))
        · exact ⟨trivial⟩
      · exact ⟨State.tidy_readDw (RdRes.tidy_ok e (State.tidy_readDw h))⟩
    · exact ⟨State.tidy_readDw h⟩

theorem State.tidy_loadImages {k : Nat} {g : Group} {va : DWord} {h2 : List DWord} (h : s.tidy = true) :
    (s.loadImages k g va h2).Tidy := by
  unfold State.loadImages
  split
  · exact State.tidy_readImages h
  · exact State.tidy_readForeign h

theorem tidy_execCtxld {d a b : XReg} (h : s.tidy = true) : Res.Tidy (execCtxld d a b s) := by
  refine tidy_withClass h (fun g => tidy_withRead h (fun t g' x2 x3 ht => ?_))
  have himages : ∀ {k va}, (t.loadImages k g' va x2).Tidy := State.tidy_loadImages ht
  split
  · exact tidy_raise ht
  · rename_i e
    exact tidy_raise (RdRes.tidy_trap rfl (ImgRes.tidy_read e himages))
  · exact ⟨ht⟩
  · rename_i e
    have hok := ImgRes.tidy_ok e himages
    split
    · exact tidy_raise hok
    · split
      · exact ⟨hok⟩
      · rename_i e1
        exact tidy_doneWith (State.tidy_consumeIf (tidy_some_fst e1 (State.tidy_loadCore hok)))

theorem tidy_execTlbflush {a b : XReg} (h : s.tidy = true) : Res.Tidy (execTlbflush a b s) := by
  unfold execTlbflush
  refine tidy_withClass h (fun _ => ?_)
  dsimp only
  split
  · exact tidy_raise h
  · exact tidy_withRelease h (fun _ h1 => tidy_doneWith (State.tidy_mk (State.tidy_acquire h1)))

/-! ### Operations of Machine/Streams -/

theorem State.tidy_takeRest {q : Nat} (h : s.tidy = true) : (s.takeRest q).tidy = true := by
  unfold State.takeRest
  split
  · exact h
  · dsimp only
    split
    · exact State.tidy_mk (State.tidy_mk (State.tidy_mk h))
    · exact State.tidy_mk h

theorem State.tidy_carryOn {q n : Nat} (h : s.tidy = true) : (s.carryOn q n).tidy = true := by
  induction n generalizing s q with
  | zero => exact h
  | succ n ih =>
    unfold State.carryOn
    split
    · exact h
    · split
      · exact ih (State.tidy_mk (State.tidy_mk (State.tidy_mk h)))
      · exact h

theorem State.tidy_takeUpset (h : s.tidy = true) : (s.takeUpset).2.tidy = true := by
  unfold State.takeUpset
  split
  · exact h
  · exact State.tidy_mk h

theorem State.tidy_suspect {p : Part} (h : s.tidy = true) : (s.suspect p).tidy = true := by
  unfold State.suspect
  dsimp only
  split
  · exact State.tidy_mk h
  · split <;> exact State.tidy_requestRetire (State.tidy_mk h)

theorem State.tidy_unresolvedAt {q : Nat} {oct : Bool} (h : s.tidy = true) : (s.unresolvedAt q oct).tidy = true :=
  State.tidy_post (State.tidy_mk h)

theorem State.tidy_recordUnit {q : Nat} {oct : Bool} {u : Nat} (h : s.tidy = true) : (s.recordUnit q oct u).tidy = true :=
  State.tidy_suspect (State.tidy_mk h)

theorem State.tidy_voted {q : Nat} {oct : Bool} {us : List Nat} (h : s.tidy = true) : (s.voted q oct us).tidy = true :=
  State.tidy_post (State.tidy_each (State.tidy_mk h) (fun _ _ h1 => State.tidy_recordUnit h1))

theorem State.tidy_compare {q : Nat} {oct : Bool} {cov : Nat → Bool} (h : s.tidy = true) :
    (s.compare q oct cov).1.tidy = true := by
  unfold State.compare
  split
  · rename_i e
    split
    · rename_i e1
      split
      · refine tidy_snd e1 ?_
        split
        · exact tidy_snd e (State.tidy_takeUpset h)
        · exact h
      · refine State.tidy_post (State.tidy_mk (tidy_snd e1 ?_))
        split
        · exact tidy_snd e (State.tidy_takeUpset h)
        · exact h
      · dsimp only
        split
        · refine tidy_snd e1 ?_
          split
          · exact tidy_snd e (State.tidy_takeUpset h)
          · exact h
        · split
          · refine State.tidy_voted (tidy_snd e1 ?_)
            split
            · exact tidy_snd e (State.tidy_takeUpset h)
            · exact h
          · refine State.tidy_unresolvedAt (tidy_snd e1 ?_)
            split
            · exact tidy_snd e (State.tidy_takeUpset h)
            · exact h

theorem State.tidy_doubles {q m : Nat} (h : s.tidy = true) : (s.doubles q m).2.tidy = true := by
  unfold State.doubles
  split
  · exact h
  · split
    · exact State.tidy_mk h
    · exact h

theorem State.tidy_checkHalves {q : Nat} {oct : Bool} {cov : Nat → Nat → Bool} {twice : Bool} {l : List (Nat × Nat)}
    (h : s.tidy = true) : (s.checkHalves q oct cov twice l).1.tidy = true := by
  induction l generalizing s q oct cov twice with
  | nil => exact h
  | cons a r ih =>
    unfold State.checkHalves
    split
    · exact ih (State.tidy_compare h)
    · exact ih h

theorem State.tidy_checkCycles {q m : Nat} {oct : Bool} {cov : Nat → Nat → Bool} {l : List (List (Nat × Nat))}
    (h : s.tidy = true) : (s.checkCycles q m oct cov l).1.tidy = true := by
  induction l generalizing s q m oct cov with
  | nil => exact h
  | cons a r ih => exact ih (State.tidy_checkHalves (State.tidy_doubles h))

/-! ### Operations of Machine/Entry -/

theorem State.tidy_takePending {k : Nat} (h : s.tidy = true) : (s.takePending k).tidy = true := by
  unfold State.takePending
  split
  · exact h
  · split
    · exact h
    · split
      · exact h
      · split
        · exact State.tidy_stepEntry h
        · split
          · exact State.tidy_mk (State.tidy_mk (State.tidy_failAlt h))
          · exact State.tidy_startTrap h

theorem tidy_execTrapEntry {g : Nat} (h : s.tidy = true) : Res.Tidy (execTrapEntry g s) := ⟨State.tidy_takePending h⟩

theorem tidy_execHandlerBudgetExpiry {k : Nat} (h : s.tidy = true) : Res.Tidy (execHandlerBudgetExpiry k s) := by
  unfold execHandlerBudgetExpiry
  split
  · exact ⟨h⟩
  · dsimp only
    split
    · exact ⟨State.tidy_endCtx (State.tidy_post (State.tidy_mk h))⟩
    · exact ⟨h⟩

theorem State.tidy_noteScalar {k : Nat} {r : RegSets} {y : Bool} {la : Nat} {busy : Bool} (h : s.tidy = true) :
    (s.noteScalar k r y la busy).tidy = true := by
  unfold State.noteScalar
  split
  · exact h
  · exact State.tidy_mk (State.tidy_mk h)

theorem tidy_recheckAwait {g : Group} {a : AwaitRec} (h : s.tidy = true) : Res.Tidy (recheckAwait s g a) := by
  unfold recheckAwait
  split
  · rename_i e
    exact ⟨Chk.tidy_wait e (State.tidy_chkOrdered h)⟩
  · rename_i e
    exact tidy_raise (Chk.tidy_trap e (State.tidy_chkOrdered h))
  · rename_i e
    split
    · rename_i e1
      split
      · exact tidy_withG (fun _ => ⟨State.tidy_noteScalar (State.tidy_mk (State.tidy_consumeIf (State.tidy_ite
          (State.tidy_acquire (State.tidy_mergeRecords (tidy_fst e1 (State.tidy_acqWord (Chk.tidy_ok e (State.tidy_chkOrdered
          h)))))) (tidy_fst e1 (State.tidy_acqWord (Chk.tidy_ok e (State.tidy_chkOrdered h)))))))⟩)
      · exact ⟨tidy_fst e1 (State.tidy_acqWord (Chk.tidy_ok e (State.tidy_chkOrdered h)))⟩

theorem tidy_execAwaitRecheck {k : Nat} (h : s.tidy = true) : Res.Tidy (execAwaitRecheck k s) := by
  unfold execAwaitRecheck
  split
  · exact ⟨h⟩
  · split
    · exact ⟨h⟩
    · exact tidy_recheckAwait (State.tidy_mk h)

theorem tidy_execNapExpiry {k : Nat} (h : s.tidy = true) : Res.Tidy (execNapExpiry k s) := by
  unfold execNapExpiry
  split
  · exact ⟨h⟩
  · split
    · exact ⟨h⟩
    · split
      · exact ⟨State.tidy_mk h⟩
      · exact ⟨h⟩

theorem tidy_execClockChangeDone {c : Nat} (h : s.tidy = true) : Res.Tidy (execClockChangeDone c s) := by
  unfold execClockChangeDone
  split
  · exact ⟨h⟩
  · split
    · exact ⟨State.tidy_mk h⟩
    · exact ⟨h⟩

theorem tidy_execGroupOverdue {k : Nat} {lane : Bool} (h : s.tidy = true) : Res.Tidy (execGroupOverdue k lane s) := by
  unfold execGroupOverdue
  split
  · exact ⟨h⟩
  · split
    · exact ⟨h⟩
    · split
      · exact ⟨h⟩
      · exact ⟨State.tidy_mk h⟩

theorem tidy_execPowerReserve {c pipe : Nat} (h : s.tidy = true) : Res.Tidy (execPowerReserve c pipe s) := by
  unfold execPowerReserve
  dsimp only
  split
  · exact ⟨State.tidy_mk h⟩
  · exact ⟨h⟩

theorem tidy_execCycleLimitExpiry {t level : Nat} (h : s.tidy = true) : Res.Tidy (execCycleLimitExpiry t level s) := by
  unfold execCycleLimitExpiry
  split
  · exact ⟨h⟩
  · split
    · exact ⟨h⟩
    · split
      · exact ⟨h⟩
      · split
        · exact ⟨State.tidy_failAlt h⟩
        · exact ⟨h⟩

theorem tidy_execAlternateRollback {t : Nat} (h : s.tidy = true) : Res.Tidy (execAlternateRollback t s) :=
  ⟨State.tidy_rollTeam h⟩

/-! ### Operations of Machine/MemEvents -/

theorem tidy_execLoadDataReturn {k n : Nat} (h : s.tidy = true) : Res.Tidy (execLoadDataReturn k n s) := by
  unfold execLoadDataReturn
  split
  · exact ⟨h⟩
  · split
    · exact ⟨h⟩
    · split
      · exact ⟨h⟩
      · exact ⟨State.tidy_consumeIf (State.tidy_mk h)⟩

theorem State.tidy_performAtom {k : Nat} {r : AtomReq} {w : Option Nat} (h : s.tidy = true) :
    tidySome id (s.performAtom k r w) := by
  unfold State.performAtom
  split
  · exact tidySome_some h
  · split
    · exact tidySome_map (State.tidy_atomGlobal h) (fun _ h1 => State.tidy_mk h1)
    · split
      · exact tidySome_some h
      · exact tidySome_map (State.tidy_atomSpad h) (fun _ h1 => State.tidy_mk h1)

theorem State.tidy_performAtoms {k : Nat} {l : List (AtomReq × Option Nat)} (h : s.tidy = true) :
    (s.performAtoms k l).tidy = true := by
  induction l generalizing s k with
  | nil => exact h
  | cons a r ih =>
    unfold State.performAtoms
    split
    · rename_i e
      exact ih (tidy_some e (State.tidy_performAtom h))
    · split
      · exact h
      · exact State.tidy_failAlt h

theorem State.tidy_endAtom {k n : Nat} {x : Inflight} {r : AtomReq} {old : Word} {cnt : Nat} (h : s.tidy = true) :
    (s.endAtom k n x r old cnt).tidy = true := by
  unfold State.endAtom
  split <;> exact State.tidy_mk (State.tidy_mk h)

theorem State.tidy_clusStep {k n : Nat} {g : Group} {x : Inflight} {r : AtomReq} {w : Nat} (h : s.tidy = true) :
    (s.clusStep k n g x r w).tidy = true := by
  unfold State.clusStep
  split
  · split
    · exact h
    · split
      · rename_i e
        split
        · exact State.tidy_endAtom (tidy_fst e (State.tidy_atomRead h))
        · exact State.tidy_mk (tidy_fst e (State.tidy_atomRead h))
  · split
    · rename_i e
      exact State.tidy_endAtom (tidy_some_fst e (State.tidy_atomWrite h))
    · exact State.tidy_mk (State.tidy_failAlt h)

theorem tidy_execAtomicAtPlace {k n : Nat} (h : s.tidy = true) : Res.Tidy (execAtomicAtPlace k n s) := by
  unfold execAtomicAtPlace
  split
  · exact ⟨h⟩
  · split
    · exact ⟨h⟩
    · split
      · exact ⟨h⟩
      · split
        · split
          · exact ⟨State.tidy_clusStep h⟩
          · exact ⟨h⟩
        · exact ⟨State.tidy_mk (State.tidy_performAtoms h)⟩

theorem State.tidy_performRun {c : Nat} {p : Parked} {x : WordRun} {y : Option WordRun} {pa : Nat} {mt : Bool}
    (h : s.tidy = true) : tidySome id (s.performRun c p x y pa mt) := by
  unfold State.performRun
  split
  · exact tidySome_some h
  · split
    · split
      · split
        · split
          · dsimp only
            split
            · exact tidySome_none
            · rename_i e
              exact tidySome_some (State.tidy_mk (State.tidy_setWord _ _ _ (State.tidy_mk (State.tidy_setWord _ _ _
                (State.tidy_noteWrote (State.tidy_noteWrote (tidy_some e (State.tidy_captureLine h))))))))
          · dsimp only
            split
            · exact tidySome_none
            · rename_i e
              exact tidySome_some (State.tidy_mk (State.tidy_setWord _ _ _ (State.tidy_noteWrote (State.tidy_noteWrote
                (tidy_some e (State.tidy_captureLine h))))))
        · dsimp only
          split
          · exact tidySome_none
          · rename_i e
            exact tidySome_some (State.tidy_storeL1 _ _ (State.tidy_noteWrote (State.tidy_noteWrote (tidy_some e
              (State.tidy_captureLine h)))))
      · split
        · split
          · dsimp only
            split
            · exact tidySome_none
            · rename_i e
              exact tidySome_some (State.tidy_mk (State.tidy_setWord _ _ _ (State.tidy_mk (State.tidy_setWord _ _ _
                (State.tidy_noteWrote (tidy_some e (State.tidy_captureLine h)))))))
          · dsimp only
            split
            · exact tidySome_none
            · rename_i e
              exact tidySome_some (State.tidy_mk (State.tidy_setWord _ _ _ (State.tidy_noteWrote (tidy_some e
                (State.tidy_captureLine h)))))
        · dsimp only
          split
          · exact tidySome_none
          · rename_i e
            exact tidySome_some (State.tidy_storeL1 _ _ (State.tidy_noteWrote (tidy_some e (State.tidy_captureLine h))))
    · split
      · split
        · split
          · dsimp only
            split
            · exact tidySome_none
            · rename_i e
              exact tidySome_some (State.tidy_mk (State.tidy_setWord _ _ _ (State.tidy_mk (State.tidy_setWord _ _ _
                (State.tidy_noteWrote (State.tidy_noteWrote (tidy_some e (State.tidy_captureLine h))))))))
          · dsimp only
            split
            · exact tidySome_none
            · rename_i e
              exact tidySome_some (State.tidy_mk (State.tidy_setWord _ _ _ (State.tidy_noteWrote (State.tidy_noteWrote
                (tidy_some e (State.tidy_captureLine h))))))
        · dsimp only
          split
          · exact tidySome_none
          · rename_i e
            exact tidySome_some (State.tidy_storeL1 _ _ (State.tidy_noteWrote (State.tidy_noteWrote (tidy_some e
              (State.tidy_captureLine h)))))
      · split
        · split
          · dsimp only
            split
            · exact tidySome_none
            · rename_i e
              exact tidySome_some (State.tidy_mk (State.tidy_setWord _ _ _ (State.tidy_mk (State.tidy_setWord _ _ _
                (State.tidy_noteWrote (tidy_some e (State.tidy_captureLine h)))))))
          · dsimp only
            split
            · exact tidySome_none
            · rename_i e
              exact tidySome_some (State.tidy_mk (State.tidy_setWord _ _ _ (State.tidy_noteWrote (tidy_some e
                (State.tidy_captureLine h)))))
        · dsimp only
          split
          · exact tidySome_none
          · rename_i e
            exact tidySome_some (State.tidy_storeL1 _ _ (State.tidy_noteWrote (tidy_some e (State.tidy_captureLine h))))

theorem State.tidy_performRuns {c : Nat} {p : Parked} {base : Nat} {mt : Bool} {l : List WordRun} (h : s.tidy = true) :
    (s.performRuns c p base mt l).tidy = true := by
  induction l generalizing s c p base mt with
  | nil => exact h
  | cons a r ih =>
    unfold State.performRuns
    split
    · rename_i e
      split
      · exact tidy_some e (State.tidy_performRun h)
      · exact ih (tidy_some e (State.tidy_performRun h))
    · split
      · exact h
      · exact State.tidy_failAlt h

theorem State.tidy_discardPage {ctx page : Nat} (h : s.tidy = true) : (s.discardPage ctx page).tidy = true :=
  State.tidy_each (State.tidy_mk h) (fun _ _ h1 => State.tidy_mk h1)

theorem State.tidy_retest {c n : Nat} {p : Parked} (h : s.tidy = true) : (s.retest c n p).tidy = true := by
  unfold State.retest
  split
  · exact State.tidy_mk h
  · split
    · rename_i e
      split
      · exact State.tidy_mk (State.tidy_mk (Tr.tidy_ok e (State.tidy_translate h)))
      · dsimp only
        split
        · rename_i e1
          exact State.tidy_mk (tidy_ok e1 (State.tidy_tryStore _ _ (Tr.tidy_ok e (State.tidy_translate h))))
        · exact State.tidy_mk (State.tidy_mk (Tr.tidy_ok e (State.tidy_translate h)))
    · rename_i e
      exact Tr.tidy_wait e (State.tidy_translate h)
    · rename_i e
      exact State.tidy_mk (State.tidy_mk (Tr.tidy_fault e (State.tidy_translate h)))

theorem State.tidy_performParked {c : Nat} {p : Parked} {pa : Nat} {mt : Bool} (h : s.tidy = true) :
    (s.performParked c p pa mt).tidy = true := by
  unfold State.performParked
  split
  · exact State.tidy_mk h
  · split
    · exact State.tidy_mk (State.tidy_performRuns h)
    · exact State.tidy_performRuns h

theorem State.tidy_goOn {c n : Nat} {p : Parked} (h : s.tidy = true) : (s.goOn c n p).tidy = true := by
  unfold State.goOn
  dsimp only
  split
  · rename_i e
    exact State.tidy_mk (Tr.tidy_wait e (State.tidy_translate (State.tidy_mk h)))
  · rename_i e
    exact State.tidy_mk (State.tidy_mk (Tr.tidy_fault e (State.tidy_translate (State.tidy_mk h))))
  · rename_i e
    exact State.tidy_mk (State.tidy_performParked (Tr.tidy_ok e (State.tidy_translate (State.tidy_mk h))))

theorem tidy_execHomeStoreTest {n : Nat} (h : s.tidy = true) : Res.Tidy (execHomeStoreTest n s) := by
  unfold execHomeStoreTest
  split
  · split
    · exact ⟨h⟩
    · dsimp only
      split
      · rename_i e
        exact ⟨tidy_ok e (State.tidy_tryStore _ _ (State.tidy_mk h))⟩
      · split
        · exact ⟨h⟩
        · exact ⟨State.tidy_mk (State.tidy_mk (State.tidy_mk h))⟩
  · split
    · exact ⟨State.tidy_retest h⟩
    · split
      · exact ⟨State.tidy_goOn h⟩
      · exact ⟨h⟩

theorem tidy_execWriteBackMerge {c w : Nat} (h : s.tidy = true) : Res.Tidy (execWriteBackMerge c w s) :=
  ⟨State.tidy_writeBack _ _ _ h⟩

theorem tidy_execStoreAcknowledgement {n : Nat} (h : s.tidy = true) : Res.Tidy (execStoreAcknowledgement n s) :=
  ⟨State.tidy_mk h⟩

theorem State.tidy_cleanLine {line : Nat} (h : s.tidy = true) : (s.cleanLine line).tidy = true :=
  State.tidy_each h (fun _ _ h1 => State.tidy_writeBackAll _ _ _ (State.tidy_testAll _ _ h1))

theorem State.tidy_spillCell {r base w n : Nat} (h : s.tidy = true) : (s.spillCell r base w n).tidy = true := by
  induction n generalizing s r base w with
  | zero => exact h
  | succ n ih =>
    unfold State.spillCell
    dsimp only
    split
    · exact h
    · exact ih (State.tidy_mk (State.tidy_each h (fun _ _ h1 => State.tidy_setWord _ _ _ (State.tidy_mk h1))))

theorem State.tidy_giveUp {line : Nat} {d : Dot} (h : s.tidy = true) : (s.giveUp line d).tidy = true :=
  (State.tidy_setOwned _ _ _).trans (State.tidy_mk (State.tidy_mk (State.tidy_mk (State.tidy_mk h))))

theorem State.tidy_disown {line : Nat} (h : s.tidy = true) : (s.disown line).tidy = true := by
  unfold State.disown
  split
  · exact h
  · split
    · exact h
    · dsimp only
      split
      · exact State.tidy_giveUp (State.tidy_setBytes _ _ _ ((State.tidy_dropLine _ _).trans h))
      · refine State.tidy_each (State.tidy_giveUp (State.tidy_setBytes _ _ _ ((State.tidy_dropLine _ _).trans h))) (fun _ _ h1 => ?_)
        split
        · exact State.tidy_spillCell h1
        · exact h1

theorem tidy_execPoolBiSnoop {l : Nat} (h : s.tidy = true) : Res.Tidy (execPoolBiSnoop l s) :=
  ⟨State.tidy_disown (State.tidy_mk (State.tidy_cleanLine h))⟩

theorem State.tidy_tryOutside {w : Nat} {v : Word} {mask : BitVec 4} (h : s.tidy = true) :
    tidySome id (s.tryOutside w v mask) := by
  unfold State.tryOutside
  split
  · exact tidySome_some h
  · split
    · exact tidySome_some (State.tidy_setWord _ _ _ h)
    · exact fun _ e => State.tidy_storeAtHome h e

theorem State.tidy_outsideWrite {w : Nat} {v : Word} {mask : BitVec 4} (h : s.tidy = true) :
    (s.outsideWrite w v mask).tidy = true :=
  tidy_getD (State.tidy_tryOutside h) h

theorem tidy_execHostDeviceWrite {w : Nat} {v : Word} {mask : BitVec 4} (h : s.tidy = true) :
    Res.Tidy (execHostDeviceWrite w v mask s) :=
  ⟨State.tidy_outsideWrite h⟩

theorem tidy_execCopiedWriteArrival {a : Nat} {v : Word} (h : s.tidy = true) : Res.Tidy (execCopiedWriteArrival a v s) := by
  unfold execCopiedWriteArrival
  split
  · rename_i e
    split
    · exact ⟨State.tidy_setWord _ _ _ (State.tidy_writeBackAll _ _ _ (Tr.tidy_ok e (State.tidy_translate h)))⟩
    · exact ⟨State.tidy_outsideWrite (Tr.tidy_ok e (State.tidy_translate h))⟩
  · rename_i e
    exact ⟨Tr.tidy_wait e (State.tidy_translate h)⟩
  · rename_i e
    exact ⟨Tr.tidy_fault e (State.tidy_translate h)⟩

theorem State.tidy_sendOld {k : Nat} (h : s.tidy = true) : (s.sendOld k).tidy = true :=
  State.tidy_each h (fun _ _ h1 => State.tidy_each h1 (fun _ _ h2 => State.tidy_ite (State.tidy_fill _ _ _ h2)
    (State.tidy_writeBack _ _ _ h2)))

theorem tidy_execDotScrub {die slice : Nat} (h : s.tidy = true) : Res.Tidy (execDotScrub die slice s) :=
  ⟨State.tidy_mk (State.tidy_sendOld h)⟩

theorem State.tidy_resetLineDots {line : Nat} (h : s.tidy = true) : (s.resetLineDots line).tidy = true :=
  State.tidy_mk (State.tidy_mk (State.tidy_mk h))

theorem State.tidy_joinSet {w : Nat} {l : List (Nat × L1Word)} (h : s.tidy = true) : tidySome id (s.joinSet w l) := by
  unfold State.joinSet
  split
  · dsimp only
    split
    · exact tidySome_none
    · exact tidySome_map (fun _ e => State.tidy_makeRoom _ _ _ (State.tidy_mk ((State.tidy_withVals _ _ _ _ _).trans h)) e)
        (fun _ h1 => State.tidy_settle _ _ _ h1)
  · dsimp only
    split
    · exact tidySome_none
    · exact tidySome_map (fun _ e => State.tidy_makeRoom _ _ _ (State.tidy_mk ((State.tidy_withVals _ _ _ _ _).trans h)) e)
        (fun _ h1 => State.tidy_settle _ _ _ h1)

theorem State.tidy_siblingsOf {w : Nat} {l : List (Nat × L1Word)} (h : s.tidy = true) : (s.siblingsOf w l).tidy = true := by
  unfold State.siblingsOf
  split
  · exact h
  · split
    · exact tidy_getD (State.tidy_joinSet h) h
    · exact State.tidy_each h (fun _ _ h1 => State.tidy_setVal _ _ _ h1)

theorem State.tidy_takeAnswer {w c : Nat} {x : L1Word} (h : s.tidy = true) : (s.takeAnswer w c x).tidy = true :=
  State.tidy_mk (State.tidy_mk (State.tidy_setVal _ _ _ h))

theorem tidy_execRegistrationRepair {w : Nat} (h : s.tidy = true) : Res.Tidy (execRegistrationRepair w s) := by
  unfold execRegistrationRepair
  dsimp only
  split
  · exact ⟨State.tidy_resetLineDots (State.tidy_ite (State.tidy_fillHidden h) (State.tidy_mk (State.tidy_mk
      (State.tidy_fillHidden h))))⟩
  · split
    · exact ⟨State.tidy_resetLineDots (State.tidy_takeAnswer (State.tidy_fillHidden h))⟩
    · exact ⟨State.tidy_resetLineDots (State.tidy_mk (State.tidy_each (State.tidy_each (State.tidy_siblingsOf
        (State.tidy_fillHidden h)) (fun _ _ h1 => State.tidy_mk h1)) (fun _ _ h1 => State.tidy_mk h1)))⟩

theorem State.tidy_spareRow {die bank row : Nat} (h : s.tidy = true) : (s.spareRow die bank row).tidy = true :=
  State.tidy_post (State.tidy_mk h)

theorem tidy_execRowSpare {die bank row : Nat} (h : s.tidy = true) : Res.Tidy (execRowSpare die bank row s) := by
  unfold execRowSpare
  split
  · exact ⟨h⟩
  · split
    · exact ⟨State.tidy_spareRow h⟩
    · exact ⟨State.tidy_post h⟩

theorem tidy_eccMove (h : s.tidy = true) : Res.Tidy (eccMove s) := by
  unfold eccMove
  split
  · exact ⟨h⟩
  · dsimp only
    split
    · exact tidy_execRowSpare (State.tidy_mk h)
    · exact ⟨State.tidy_mk h⟩

theorem State.tidy_loseWord {w : Nat} (h : s.tidy = true) : (s.loseWord w).tidy = true :=
  State.tidy_mk (State.tidy_setWord _ _ _ (State.tidy_mk h))

theorem tidy_execMemoryUncorrectable {w : Nat} (h : s.tidy = true) : Res.Tidy (execMemoryUncorrectable w s) := by
  unfold execMemoryUncorrectable
  dsimp only
  split
  · exact ⟨h⟩
  · split
    · split
      · exact ⟨State.tidy_spareRow (State.tidy_post (State.tidy_each h (fun _ _ h1 => State.tidy_loseWord h1)))⟩
      · exact ⟨State.tidy_post (State.tidy_each h (fun _ _ h1 => State.tidy_loseWord h1))⟩
    · split
      · exact ⟨State.tidy_post (State.tidy_mk (State.tidy_each h (fun _ _ h1 => State.tidy_loseWord h1)))⟩
      · exact ⟨State.tidy_post (State.tidy_each h (fun _ _ h1 => State.tidy_loseWord h1))⟩
    · exact ⟨State.tidy_loseWord h⟩
    · exact ⟨State.tidy_loseWord h⟩
    · exact ⟨h⟩

/-! ### Operations of Machine/WorkEvents -/

theorem State.tidy_elemRead {k : Nat} {g : Group} {l : Nat} {sp : Bool} {a : ℤ} {n : Nat} (h : s.tidy = true) :
    (s.elemRead k g l sp a n).Tidy := by
  unfold State.elemRead
  split
  · dsimp only
    split <;> exact ⟨h⟩
  · dsimp only
    split
    · rename_i e
      exact ⟨Tr.tidy_wait e (State.tidy_translate h)⟩
    · rename_i e
      exact ⟨Tr.tidy_fault e (State.tidy_translate h)⟩
    · rename_i e
      split
      · exact ⟨Tr.tidy_ok e (State.tidy_translate h)⟩
      · exact ⟨State.tidy_loadN (Tr.tidy_ok e (State.tidy_translate h))⟩

theorem State.tidy_element {k : Nat} {g : Group} {r : PatRec} {m l : Nat} (h : s.tidy = true) : (s.element k g r m l).Tidy :=
    by
  unfold State.element
  split
  · exact State.tidy_elemRead h
  · split
    · rename_i e
      split
      · rename_i e1
        exact ⟨ElemRes.tidy_ok e1 (State.tidy_elemRead (ElemRes.tidy_ok e (State.tidy_elemRead h)))⟩
      · exact State.tidy_elemRead (ElemRes.tidy_ok e (State.tidy_elemRead h))
    · exact State.tidy_elemRead h

theorem State.tidy_entryOf {k : Nat} {g : Group} {r : PatRec} {e : Nat} {l : List Nat} {l2 : List Word} {b : Bool}
    (h : s.tidy = true) : (s.entryOf k g r e l l2 b).1.tidy = true := by
  induction l generalizing s k g r e l2 b with
  | nil => exact h
  | cons a r ih =>
    unfold State.entryOf
    dsimp only
    split
    · exact ih h
    · split
      · rename_i e
        exact ih (ElemRes.tidy_ok e (State.tidy_element h))
      · rename_i e
        exact ElemRes.tidy_wait e (State.tidy_element h)
      · rename_i e
        exact ElemRes.tidy_fail e (State.tidy_element h)

theorem State.tidy_holdFetch {k : Nat} {q : QReg} {o : OpQueue} (h : s.tidy = true) : (s.holdFetch k q o).tidy = true := by
  unfold State.holdFetch
  split
  · exact h
  · exact State.tidy_mk (State.tidy_countAcc h)

theorem State.tidy_dropFetch {k : Nat} {q : QReg} {g : Group} {p : PatRec} {e : Nat} {r : List (Nat × PatRec × Nat)}
    (h : s.tidy = true) : (s.dropFetch k q g p e r).tidy = true := by
  unfold State.dropFetch
  split
  · rename_i e
    exact tidy_fst e (State.tidy_entryOf h)
  · rename_i e
    exact State.tidy_mk (tidy_fst e (State.tidy_entryOf h))

theorem tidy_execPatternElementFetch {k : Nat} {q : QReg} (h : s.tidy = true) : Res.Tidy (execPatternElementFetch k q s) := by
  unfold execPatternElementFetch
  split
  · exact ⟨h⟩
  · dsimp only
    split
    · exact ⟨State.tidy_dropFetch h⟩
    · split
      · exact ⟨h⟩
      · split
        · rename_i e
          exact ⟨State.tidy_holdFetch (tidy_fst e (State.tidy_entryOf h))⟩
        · rename_i e
          exact ⟨State.tidy_mk (State.tidy_ite (tidy_fst e (State.tidy_entryOf h)) (State.tidy_countAcc (tidy_fst e
            (State.tidy_entryOf h))))⟩

theorem State.tidy_dropCopy {c w : Nat} (h : s.tidy = true) : (s.dropCopy c w).tidy = true := by
  unfold State.dropCopy
  split
  · split
    · exact h
    · exact State.tidy_mk h
  · exact h

theorem tidy_execWatchTriggerDeliver {die slice ent : Nat} (h : s.tidy = true) :
    Res.Tidy (execWatchTriggerDeliver die slice ent s) := by
  unfold execWatchTriggerDeliver
  dsimp only
  split
  · exact ⟨h⟩
  · split
    · split
      · exact ⟨h⟩
      · rename_i e
        exact ⟨State.tidy_mk (State.tidy_dropCopy (tidy_some e (State.tidy_insertTask h)))⟩
    · exact ⟨h⟩

theorem tidy_execGatherWindowExpiry {c slot : Nat} (h : s.tidy = true) : Res.Tidy (execGatherWindowExpiry c slot s) := by
  unfold execGatherWindowExpiry
  dsimp only
  split
  · exact ⟨h⟩
  · split
    · exact ⟨h⟩
    · exact ⟨State.tidy_mk h⟩

theorem State.tidy_dropCreate {c slot : Nat} (h : s.tidy = true) : (s.dropCreate c slot).tidy = true :=
  State.tidy_each h (fun _ _ h1 => State.tidy_mk h1)

theorem State.tidy_addCreate {c slot : Nat} (h : s.tidy = true) : (s.addCreate c slot).tidy = true :=
  State.tidy_each h (fun _ _ h1 => State.tidy_ite h1 (State.tidy_mk h1))

theorem tidy_execGatherLaunch {c slot : Nat} (h : s.tidy = true) : Res.Tidy (execGatherLaunch c slot s) := by
  unfold execGatherLaunch
  split
  · exact ⟨h⟩
  · split
    · exact ⟨h⟩
    · split
      · split
        · dsimp only
          split
          · exact ⟨State.tidy_dropCreate h⟩
          · exact ⟨State.tidy_addCreate h⟩
        · dsimp only
          split
          · exact ⟨State.tidy_dropCreate h⟩
          · exact ⟨State.tidy_mk (State.tidy_dropCreate (State.tidy_mk (State.tidy_mk h)))⟩
      · dsimp only
        split <;> exact ⟨State.tidy_dropCreate h⟩

/-! ### Operations of Machine/PoolEvents -/

theorem State.tidy_loseAtoms {k : Nat} {x : Inflight} (h : s.tidy = true) : (s.loseAtoms k x).tidy = true := by
  unfold State.loseAtoms
  split
  · rename_i e
    split
    · split
      · exact tidy_snd e (State.tidy_mk h)
      · exact State.tidy_mk (State.tidy_performAtoms (tidy_snd e (State.tidy_mk h)))
    · exact tidy_snd e (State.tidy_mk h)

theorem State.tidy_poisonInfl {p : Nat → Bool} (h : s.tidy = true) : (s.poisonInfl p).tidy = true :=
  State.tidy_mk (State.tidy_each h (fun _ _ h1 => State.tidy_each h1 (fun _ _ h2 => State.tidy_loseAtoms h2)))

theorem State.tidy_newStrand {mode line : Nat} (h : s.tidy = true) : (s.newStrand mode line).1.tidy = true := by
  unfold State.newStrand
  split
  · exact State.tidy_giveUp h
  · exact h

theorem State.tidy_strandWord {r w : Nat} {v : Word} {m : BitVec 4} {d : Dot} (h : s.tidy = true) :
    (s.strandWord r w v m d).tidy = true := by
  unfold State.strandWord
  dsimp only
  split
  · exact State.tidy_mk h
  · exact State.tidy_mk (State.tidy_newStrand h)

theorem State.tidy_strandAll {r : Nat} (h : s.tidy = true) : (s.strandAll r).tidy = true :=
  State.tidy_each (State.tidy_each h (fun _ _ h1 => State.tidy_strandWord h1)) (fun _ _ h1 => State.tidy_mk
    (State.tidy_strandWord h1))

theorem State.tidy_loseHidden {p : Nat → Bool} (h : s.tidy = true) : (s.loseHidden p).tidy = true :=
  State.tidy_each h (fun _ _ h1 => State.tidy_takeBackOn _ _ _ _ (State.tidy_failAlt h1))

theorem State.tidy_leaveOwned {r : Nat} (h : s.tidy = true) : (s.leaveOwned r).tidy = true :=
  State.tidy_each h (fun _ _ h1 => State.tidy_disown h1)

theorem State.tidy_loseRegion {r : Nat} (h : s.tidy = true) : (s.loseRegion r).tidy = true := by
  unfold State.loseRegion
  dsimp only
  split
  · exact h
  · exact State.tidy_post (State.tidy_mk (State.tidy_poisonInfl (State.tidy_mk (State.tidy_loseHidden (State.tidy_strandAll
      (State.tidy_leaveOwned h))))))

theorem State.tidy_loseRegions {port : Nat} {l : List Nat} (h : s.tidy = true) : (s.loseRegions port l).tidy = true :=
  State.tidy_each (State.tidy_post h) (fun _ _ h1 => State.tidy_loseRegion h1)

theorem State.tidy_portDown {p : Nat} (h : s.tidy = true) : (s.portDown p).tidy = true :=
  State.tidy_loseRegions (State.tidy_mk h)

theorem tidy_execPoolLinkDown {p : Nat} (h : s.tidy = true) : Res.Tidy (execPoolLinkDown p s) := by
  unfold execPoolLinkDown
  split
  · exact ⟨State.tidy_portDown h⟩
  · exact ⟨h⟩

theorem tidy_execPoolRequestTimeout {dev : Nat} (h : s.tidy = true) : Res.Tidy (execPoolRequestTimeout dev s) := by
  unfold execPoolRequestTimeout
  dsimp only
  split
  · exact ⟨h⟩
  · exact ⟨State.tidy_loseRegions h⟩

theorem tidy_execCxlLinkTraining {p : Nat} {reach : List Nat} (h : s.tidy = true) :
    Res.Tidy (execCxlLinkTraining p reach s) := by
  unfold execCxlLinkTraining
  split
  · exact ⟨State.tidy_mk h⟩
  · exact ⟨h⟩

theorem State.tidy_flushWord {mode : Nat} {x : Strand} {e : Nat × Word × BitVec 4 × Dot} (h : s.tidy = true) :
    tidySome id (s.flushWord mode x e) := by
  unfold State.flushWord
  split
  · split
    · exact fun _ e => State.tidy_applyStore h e
    · exact tidySome_some (State.tidy_mk (State.tidy_setWord _ _ _ h))

theorem State.tidy_flushWords {mode : Nat} {x : Strand} {l : List (Nat × Word × BitVec 4 × Dot)} (h : s.tidy = true) :
    tidySome id (s.flushWords mode x l) := by
  induction l generalizing s mode x with
  | nil => exact tidySome_some h
  | cons a r ih =>
    unfold State.flushWords
    split
    · exact tidySome_none
    · rename_i e
      exact ih (tidy_some e (State.tidy_flushWord h))

theorem State.tidy_regionUp {r lines : Nat} (h : s.tidy = true) : (s.regionUp r lines).tidy = true :=
  State.tidy_post (State.tidy_mk h)

theorem State.tidy_flushLine {r : Nat} {x : Strand} (h : s.tidy = true) : (s.flushLine r x).tidy = true := by
  unfold State.flushLine
  split
  · dsimp only
    split
    · rename_i e
      split
      · exact State.tidy_regionUp (State.tidy_mk (tidy_some e (State.tidy_flushWords h)))
      · exact State.tidy_mk (tidy_some e (State.tidy_flushWords h))
    · exact h
  · split
    · dsimp only
      split
      · rename_i e
        split
        · exact State.tidy_regionUp (State.tidy_mk (tidy_some e (State.tidy_flushWords h)))
        · exact State.tidy_mk (tidy_some e (State.tidy_flushWords h))
      · exact State.tidy_mk h
    · dsimp only
      split
      · rename_i e
        split
        · exact State.tidy_regionUp (State.tidy_mk (tidy_some e (State.tidy_flushWords h)))
        · exact State.tidy_mk (tidy_some e (State.tidy_flushWords h))
      · exact State.tidy_post (State.tidy_mk h)

theorem tidy_execRejoinLineWritten {r l : Nat} (h : s.tidy = true) : Res.Tidy (execRejoinLineWritten r l s) := by
  unfold execRejoinLineWritten
  dsimp only
  split
  · exact ⟨h⟩
  · split
    · exact ⟨h⟩
    · split
      · exact ⟨h⟩
      · exact ⟨State.tidy_flushLine h⟩

theorem tidy_execStrandedFlushRetry {r : Nat} (h : s.tidy = true) : Res.Tidy (execStrandedFlushRetry r s) := by
  unfold execStrandedFlushRetry
  dsimp only
  split
  · exact ⟨h⟩
  · exact ⟨State.tidy_each h (fun _ _ h1 => State.tidy_ite (State.tidy_flushLine h1) h1)⟩

theorem State.tidy_rejoin {r port : Nat} (h : s.tidy = true) : (s.rejoin r port).tidy = true := by
  unfold State.rejoin
  dsimp only
  split
  · exact State.tidy_regionUp (State.tidy_mk h)
  · exact State.tidy_mk h

theorem State.tidy_discardStrand {r port : Nat} (h : s.tidy = true) : (s.discardStrand r port).tidy = true :=
  State.tidy_regionUp (State.tidy_mk h)

/-! ### Operations of Machine/HwEvents -/

theorem State.tidy_resumeDie {d : Nat} (h : s.tidy = true) : (s.resumeDie d).tidy = true := by
  unfold State.resumeDie
  dsimp only
  split
  · exact h
  · exact State.tidy_post (State.tidy_each (State.tidy_mk h) (fun _ _ h1 => State.tidy_forward h1))

theorem State.tidy_setRefill {c : Nat} {v : BitVec 9} (h : s.tidy = true) : (s.setRefill c v).tidy = true :=
  State.tidy_mk (State.tidy_mk (State.tidy_resumeDie h))

theorem tidy_execPowerBudgetUpdate {c : Nat} {v : BitVec 9} (h : s.tidy = true) : Res.Tidy (execPowerBudgetUpdate c v s) :=
  ⟨State.tidy_setRefill h⟩

theorem tidy_execPwrctlWrite {c : Nat} {v : DWord} (h : s.tidy = true) : Res.Tidy (execPwrctlWrite c v s) :=
  ⟨State.tidy_setRefill h⟩

theorem tidy_execPsteerWrite {c pipe : Nat} {v : DWord} (h : s.tidy = true) : Res.Tidy (execPsteerWrite c pipe v s) := by
  unfold execPsteerWrite
  dsimp only
  split
  · exact ⟨h⟩
  · exact ⟨State.tidy_mk h⟩

theorem tidy_execMgmtRegisterWrite {r : MgmtReg} {v : DWord} (h : s.tidy = true) : Res.Tidy (execMgmtRegisterWrite r v s) :=
    by
  unfold execMgmtRegisterWrite
  split <;> exact ⟨State.tidy_mk h⟩

theorem State.tidy_bootDie {d : Nat} (h : s.tidy = true) : (s.bootDie d).tidy = true := by
  unfold State.bootDie
  split
  · exact h
  · dsimp only
    split
    · exact State.tidy_mk h
    · exact State.tidy_post (State.tidy_mk (State.tidy_mk h))

theorem tidy_execHeartbeatWatchdog {d : Nat} (h : s.tidy = true) : Res.Tidy (execHeartbeatWatchdog d s) := by
  unfold execHeartbeatWatchdog
  split
  · exact ⟨h⟩
  · exact ⟨State.tidy_bootDie (State.tidy_mk (State.tidy_each h (fun _ _ h1 => State.tidy_mk (State.tidy_mk h1))))⟩

theorem tidy_execDroopDetect {c : Nat} (h : s.tidy = true) : Res.Tidy (execDroopDetect c s) := by
  unfold execDroopDetect
  dsimp only
  split
  · exact ⟨h⟩
  · exact ⟨State.tidy_post (State.tidy_mk h)⟩

theorem tidy_execDroopRelease {c : Nat} (h : s.tidy = true) : Res.Tidy (execDroopRelease c s) := by
  unfold execDroopRelease
  dsimp only
  split
  · exact ⟨h⟩
  · exact ⟨State.tidy_post (State.tidy_mk h)⟩

theorem tidy_execThermalTrip {d : Nat} (h : s.tidy = true) : Res.Tidy (execThermalTrip d s) := by
  unfold execThermalTrip
  split
  · exact ⟨h⟩
  · exact ⟨State.tidy_post (State.tidy_mk h)⟩

theorem tidy_execThermalRelease {d : Nat} (h : s.tidy = true) : Res.Tidy (execThermalRelease d s) := by
  unfold execThermalRelease
  split
  · exact ⟨h⟩
  · exact ⟨State.tidy_post (State.tidy_mk h)⟩

theorem State.tidy_unreach {dev : Nat} (h : s.tidy = true) : (s.unreach dev).tidy = true :=
  State.tidy_each (State.tidy_mk h) (fun _ _ h1 => State.tidy_ite (State.tidy_complete (State.tidy_mk h1)) h1)

theorem State.tidy_reroute {n : Nat} (h : s.tidy = true) : (s.reroute n).tidy = true := by
  unfold State.reroute
  refine State.tidy_each h (fun _ _ h1 => ?_)
  dsimp only
  split
  · exact State.tidy_mk h1
  · split
    · exact State.tidy_post (State.tidy_mk h1)
    · split
      · exact State.tidy_post (State.tidy_mk h1)
      · exact State.tidy_unreach (State.tidy_post (State.tidy_mk h1))

theorem State.tidy_linksDown {l : List Nat} (h : s.tidy = true) : (s.linksDown l).tidy = true := by
  unfold State.linksDown
  dsimp only
  split
  · exact State.tidy_each h (fun _ _ h1 => State.tidy_post (State.tidy_mk h1))
  · exact State.tidy_inResponse (State.tidy_each h (fun _ _ h1 => State.tidy_post (State.tidy_mk h1))) (fun _ h1 =>
      State.tidy_each h1 (fun _ _ h2 => State.tidy_reroute h2))

theorem State.tidy_linkDown {n : Nat} (h : s.tidy = true) : (s.linkDown n).tidy = true := State.tidy_linksDown h

theorem State.tidy_takeOver (h : s.tidy = true) : (s.takeOver).tidy = true :=
  State.tidy_post (State.tidy_mk (State.tidy_mk h))

theorem State.tidy_dieOut {d : Nat} (h : s.tidy = true) : (s.dieOut d).tidy = true :=
  State.tidy_mk (State.tidy_linksDown (State.tidy_ite (State.tidy_portDown (State.tidy_mk (State.tidy_poisonInfl h)))
    (State.tidy_ite (State.tidy_portDown (State.tidy_mk (State.tidy_poisonInfl h))) (State.tidy_mk (State.tidy_poisonInfl
    h)))))

theorem State.tidy_steerOut {p : Part} (h : s.tidy = true) : (s.steerOut p).tidy = true := by
  unfold State.steerOut
  split
  · exact State.tidy_mk h
  · exact State.tidy_mk h
  · exact State.tidy_mk h
  · exact State.tidy_mk h
  · split
    · exact State.tidy_takeOver h
    · exact State.tidy_mk h
  · exact State.tidy_dieOut (State.tidy_ite (State.tidy_takeOver h) (State.tidy_ite (State.tidy_mk h) h))

theorem State.tidy_coreIfTwo {p : Part} (h : s.tidy = true) : (s.coreIfTwo p).tidy = true := by
  unfold State.coreIfTwo
  split
  · exact State.tidy_requestRetire h
  · exact h

theorem State.tidy_retirePart {p : Part} (h : s.tidy = true) : (s.retirePart p).tidy = true :=
  State.tidy_coreIfTwo (State.tidy_inResponse (State.tidy_post (State.tidy_mk h)) (fun _ h1 => State.tidy_steerOut h1))

theorem tidy_execRetireApply {n : Nat} (h : s.tidy = true) : Res.Tidy (execRetireApply n s) := by
  unfold execRetireApply
  split
  · exact ⟨h⟩
  · split
    · exact ⟨State.tidy_retirePart h⟩
    · exact ⟨h⟩

theorem tidy_execRetireTimeout {n : Nat} (h : s.tidy = true) : Res.Tidy (execRetireTimeout n s) := by
  unfold execRetireTimeout
  split
  · exact ⟨h⟩
  · split
    · exact ⟨h⟩
    · exact ⟨State.tidy_each h (fun _ _ h1 => State.tidy_cpPreempt h1)⟩

theorem State.tidy_haltKernel {l : Nat} {L : Launch} {st : Word} (h : s.tidy = true) : (s.haltKernel l L st).tidy = true := by
  unfold State.haltKernel
  split
  · exact State.tidy_endLaunch (State.tidy_haltTeams h)
  · dsimp only
    split
    · split
      · exact State.tidy_complete (State.tidy_mk (State.tidy_haltTeams h))
      · exact State.tidy_mk (State.tidy_haltTeams h)
    · exact State.tidy_mk (State.tidy_haltTeams h)

theorem tidy_execCpTakeoverForced (h : s.tidy = true) : Res.Tidy (execCpTakeoverForced s) := by
  unfold execCpTakeoverForced
  split
  · exact ⟨h⟩
  · exact ⟨State.tidy_retirePart (State.tidy_mk (State.tidy_each (State.tidy_each (State.tidy_each h (fun _ _ h1 =>
      State.tidy_haltKernel h1)) (fun _ _ h1 => State.tidy_postHalt h1)) (fun _ _ h1 => State.tidy_complete h1)))⟩

theorem State.tidy_unitFails (h : s.tidy = true) : (s.unitFails).tidy = true := by
  unfold State.unitFails
  split
  · exact h
  · exact State.tidy_requestRetire (State.tidy_mk h)

theorem tidy_execSuspectCountAge (h : s.tidy = true) : Res.Tidy (execSuspectCountAge s) := ⟨State.tidy_mk h⟩

theorem tidy_execUlunoezLaneFailed {n lane : Nat} (h : s.tidy = true) : Res.Tidy (execUlunoezLaneFailed n lane s) := by
  unfold execUlunoezLaneFailed
  dsimp only
  split
  · exact ⟨h⟩
  · split
    · exact ⟨State.tidy_linkDown h⟩
    · exact ⟨State.tidy_post (State.tidy_mk h)⟩

theorem tidy_execUlunoezLinkFailed {n : Nat} (h : s.tidy = true) : Res.Tidy (execUlunoezLinkFailed n s) := by
  unfold execUlunoezLinkFailed
  split
  · exact ⟨State.tidy_linkDown h⟩
  · exact ⟨h⟩

theorem tidy_execCalibrate {c : Nat} (h : s.tidy = true) : Res.Tidy (execCalibrate c s) := by
  unfold execCalibrate
  split
  · rename_i e
    dsimp only
    split
    · split
      · exact ⟨h⟩
      · split
        · exact ⟨State.tidy_requestRetire (State.tidy_mk (tidy_snd e (State.tidy_mk h)))⟩
        · exact ⟨State.tidy_post (State.tidy_mk (tidy_snd e (State.tidy_mk h)))⟩
    · split
      · exact ⟨h⟩
      · split
        · exact ⟨State.tidy_requestRetire (State.tidy_mk (tidy_snd e (State.tidy_mk h)))⟩
        · exact ⟨State.tidy_post (State.tidy_mk (tidy_snd e (State.tidy_mk h)))⟩

theorem State.tidy_cleanCore {c : Nat} (h : s.tidy = true) : (s.cleanCore c).tidy = true :=
  State.tidy_each (State.tidy_testAll _ _ h) (fun _ _ h1 => State.tidy_writeBack _ _ _ h1)

theorem tidy_execPowerGate {c : Nat} (h : s.tidy = true) : Res.Tidy (execPowerGate c s) := by
  unfold execPowerGate
  split
  · exact ⟨h⟩
  · exact ⟨State.tidy_mk (State.tidy_cleanCore h)⟩

theorem State.tidy_applyFlash {l : List Part} (h : s.tidy = true) : (s.applyFlash l).tidy = true := by
  induction l generalizing s with
  | nil => exact h
  | cons a r ih =>
    unfold State.applyFlash
    refine ih ?_
    split
    · exact State.tidy_mk h
    · exact State.tidy_linksDown (State.tidy_mk h)
    · exact State.tidy_steerOut h

theorem tidy_execModuleReset (h : s.tidy = true) : Res.Tidy (execModuleReset s) :=
  ⟨State.tidy_each (State.tidy_applyFlash (State.tidy_mk (canon_filter emptyByte s.mem _ h))) (fun _ _ ht => State.tidy_bootDie ht)⟩

theorem tidy_execReducedServiceLift {dies : BitVec 4} (h : s.tidy = true) : Res.Tidy (execReducedServiceLift dies s) := by
  unfold execReducedServiceLift
  dsimp only
  split
  · exact ⟨h⟩
  · exact ⟨State.tidy_post (State.tidy_linksDown (State.tidy_mk (State.tidy_each h (fun _ _ h1 => State.tidy_mk h1))))⟩

theorem State.tidy_deadlockTrap {k n : Nat} (h : s.tidy = true) : (s.deadlockTrap k n).tidy = true := by
  unfold State.deadlockTrap
  split
  · exact h
  · split
    · exact State.tidy_doubleFault h
    · exact State.tidy_takePending (State.tidy_mk h)

theorem State.tidy_declare {l : List Nat} (h : s.tidy = true) : (s.declare l).tidy = true := by
  unfold State.declare
  refine State.tidy_each (State.tidy_post (State.tidy_mk h)) (fun _ _ h1 => ?_)
  split
  · exact h1
  · split
    · exact State.tidy_failAlt h1
    · exact State.tidy_deadlockTrap h1

theorem tidy_execDeadlockWalk (h : s.tidy = true) : Res.Tidy (execDeadlockWalk s) :=
  ⟨State.tidy_each (State.tidy_mk h) (fun _ _ h1 => State.tidy_declare h1)⟩

theorem tidy_execLongWait {k : Nat} (h : s.tidy = true) : Res.Tidy (execLongWait k s) := by
  unfold execLongWait
  split
  · exact ⟨h⟩
  · split
    · exact ⟨h⟩
    · exact ⟨State.tidy_post (State.tidy_mk h)⟩

/-! ### Operations of Machine/HostEvents -/

theorem State.tidy_passBad {ch n : Nat} (h : s.tidy = true) : (s.passBad ch n).tidy = true := by
  induction n generalizing s ch with
  | zero => exact h
  | succ n ih =>
    unfold State.passBad
    split
    · exact ih (State.tidy_complete (State.tidy_mk h))
    · exact ih (State.tidy_mk h)
    · exact h

theorem tidy_withPkt {b : PktBody} {h2 : PktHdr} {f : State → State} (h : s.tidy = true)
    (hf : ∀ t, t.tidy = true → (f t).tidy = true) : Res.Tidy (withPkt b h2 s f) := by
  unfold withPkt
  split
  · exact ⟨State.tidy_passBad (hf _ (State.tidy_mk h))⟩
  · exact ⟨h⟩

theorem tidy_execChannelDoorbell {ch : Nat} {tail : Word} (h : s.tidy = true) : Res.Tidy (execChannelDoorbell ch tail s) := by
  unfold execChannelDoorbell
  split
  · exact ⟨h⟩
  · exact ⟨State.tidy_passBad (State.tidy_mk h)⟩

theorem tidy_execChannelEnable {ch : Nat} {en : Bool} (h : s.tidy = true) : Res.Tidy (execChannelEnable ch en s) := by
  unfold execChannelEnable
  split
  · exact ⟨h⟩
  · exact ⟨State.tidy_passBad (State.tidy_pump (State.tidy_mk h))⟩

theorem tidy_execCompletionHeadWrite {ch : Nat} {head : Word} (h : s.tidy = true) :
    Res.Tidy (execCompletionHeadWrite ch head s) := by
  unfold execCompletionHeadWrite
  split
  · exact ⟨h⟩
  · exact ⟨State.tidy_passBad (State.tidy_pump (State.tidy_mk h))⟩

theorem State.tidy_nameCtx {id a : Nat} {n : Ctx} (h : s.tidy = true) : (s.nameCtx id a n).tidy = true := by
  unfold State.nameCtx
  split
  · split <;> exact State.tidy_mk h
  · exact State.tidy_mk h

theorem tidy_execCtxPkt {h2 : PktHdr} {addr : DWord} (h : s.tidy = true) : Res.Tidy (execCtxPkt h2 addr s) := by
  unfold execCtxPkt
  refine tidy_withPkt h (fun _ h1 => ?_)
  dsimp only
  split
  · exact State.tidy_complete h1
  · split
    · exact State.tidy_complete h1
    · exact State.tidy_complete (State.tidy_nameCtx h1)

theorem State.tidy_readDesc {ctx : Nat} {va : DWord} (h : s.tidy = true) : (s.readDesc ctx va).Tidy := by
  unfold State.readDesc
  split
  · rename_i e
    exact ⟨CpRead.tidy_wait e (State.tidy_cpRead h)⟩
  · rename_i e
    exact ⟨CpRead.tidy_fail e (State.tidy_cpRead h)⟩
  · rename_i e
    split <;> exact ⟨CpRead.tidy_ok e (State.tidy_cpRead h)⟩

theorem State.tidy_takeLaunch {u : Nat} {h2 : PktHdr} {addr : DWord} (h : s.tidy = true) :
    (s.takeLaunch u h2 addr).tidy = true := by
  unfold State.takeLaunch
  split
  · exact State.tidy_complete h
  · dsimp only
    split
    · exact State.tidy_complete h
    · split
      · rename_i e
        exact State.tidy_mk (DescRead.tidy_wait e (State.tidy_readDesc h))
      · rename_i e
        exact State.tidy_complete (DescRead.tidy_refuse e (State.tidy_readDesc h))
      · rename_i e
        exact State.tidy_mk (DescRead.tidy_ok e (State.tidy_readDesc h))

theorem tidy_execLaunchPkt {h2 : PktHdr} {addr : DWord} (h : s.tidy = true) : Res.Tidy (execLaunchPkt h2 addr s) :=
  tidy_withPkt h (fun _ h1 => State.tidy_takeLaunch (State.tidy_mk h1))

theorem State.tidy_graphBytes {ctx : Nat} {va : DWord} {n : Nat} (h : s.tidy = true) : (s.graphBytes ctx va n).Tidy := by
  unfold State.graphBytes
  split
  · rename_i e
    exact ⟨CpRead.tidy_wait e (State.tidy_cpRead h)⟩
  · rename_i e
    exact ⟨CpRead.tidy_fail e (State.tidy_cpRead h)⟩
  · rename_i e
    exact ⟨CpRead.tidy_ok e (State.tidy_cpRead h)⟩

theorem State.tidy_readNodes {ctx : Nat} {l : List (List Byte)} {l2 : List (Desc × Nat × DWord)} (h : s.tidy = true) :
    (s.readNodes ctx l l2).Tidy := by
  induction l generalizing s ctx l2 with
  | nil => exact ⟨h⟩
  | cons a r ih =>
    unfold State.readNodes
    split
    · exact ⟨h⟩
    · split
      · rename_i e
        dsimp only
        split
        · exact ⟨h⟩
        · exact ⟨DescRead.tidy_wait e (State.tidy_readDesc h)⟩
      · rename_i e
        dsimp only
        split
        · exact ⟨h⟩
        · exact ⟨DescRead.tidy_refuse e (State.tidy_readDesc h)⟩
      · rename_i e
        dsimp only
        split
        · exact ⟨h⟩
        · exact ih (DescRead.tidy_ok e (State.tidy_readDesc h))

theorem State.tidy_readEdges {ctx n : Nat} {l : List (List Byte)} {l2 : List Edge} (h : s.tidy = true) :
    (s.readEdges ctx n l l2).Tidy := by
  induction l generalizing s ctx n l2 with
  | nil => exact ⟨h⟩
  | cons a r ih =>
    unfold State.readEdges
    dsimp only
    split
    · exact ⟨h⟩
    · split
      · exact ⟨h⟩
      · split
        · rename_i e
          exact ⟨GRead.tidy_wait e (State.tidy_graphBytes h)⟩
        · rename_i e
          exact ⟨GRead.tidy_refuse e (State.tidy_graphBytes h)⟩
        · rename_i e
          split
          · exact ⟨GRead.tidy_ok e (State.tidy_graphBytes h)⟩
          · exact ih (GRead.tidy_ok e (State.tidy_graphBytes h))

theorem State.tidy_admitNodes {gi : Nat} (h : s.tidy = true) : (s.admitNodes gi).tidy = true := by
  unfold State.admitNodes
  split
  · exact h
  · exact State.tidy_each h (fun _ _ h1 => State.tidy_ite h1 (State.tidy_mk (State.tidy_mk h1)))

theorem State.tidy_readGraph {ctx : Nat} {addr : DWord} (h : s.tidy = true) : (s.readGraph ctx addr).Tidy := by
  unfold State.readGraph
  split
  · rename_i e
    exact ⟨GRead.tidy_wait e (State.tidy_graphBytes h)⟩
  · rename_i e
    exact ⟨GRead.tidy_refuse e (State.tidy_graphBytes h)⟩
  · rename_i e
    split
    · exact ⟨GRead.tidy_ok e (State.tidy_graphBytes h)⟩
    · split
      · rename_i e1
        exact ⟨GRead.tidy_wait e1 (State.tidy_graphBytes (GRead.tidy_ok e (State.tidy_graphBytes h)))⟩
      · rename_i e1
        exact ⟨GRead.tidy_refuse e1 (State.tidy_graphBytes (GRead.tidy_ok e (State.tidy_graphBytes h)))⟩
      · rename_i e1
        split
        · rename_i e2
          exact ⟨GRead.tidy_wait e2 (State.tidy_readNodes (GRead.tidy_ok e1 (State.tidy_graphBytes (GRead.tidy_ok e
            (State.tidy_graphBytes h)))))⟩
        · rename_i e2
          exact ⟨GRead.tidy_refuse e2 (State.tidy_readNodes (GRead.tidy_ok e1 (State.tidy_graphBytes (GRead.tidy_ok e
            (State.tidy_graphBytes h)))))⟩
        · rename_i e2
          split
          · rename_i e3
            exact ⟨GRead.tidy_wait e3 (State.tidy_graphBytes (GRead.tidy_ok e2 (State.tidy_readNodes (GRead.tidy_ok e1
              (State.tidy_graphBytes (GRead.tidy_ok e (State.tidy_graphBytes h)))))))⟩
          · rename_i e3
            exact ⟨GRead.tidy_refuse e3 (State.tidy_graphBytes (GRead.tidy_ok e2 (State.tidy_readNodes (GRead.tidy_ok e1
              (State.tidy_graphBytes (GRead.tidy_ok e (State.tidy_graphBytes h)))))))⟩
          · rename_i e3
            split
            · rename_i e4
              exact ⟨GRead.tidy_wait e4 (State.tidy_readEdges (GRead.tidy_ok e3 (State.tidy_graphBytes (GRead.tidy_ok e2
                (State.tidy_readNodes (GRead.tidy_ok e1 (State.tidy_graphBytes (GRead.tidy_ok e (State.tidy_graphBytes
                h)))))))))⟩
            · rename_i e4
              exact ⟨GRead.tidy_refuse e4 (State.tidy_readEdges (GRead.tidy_ok e3 (State.tidy_graphBytes (GRead.tidy_ok e2
                (State.tidy_readNodes (GRead.tidy_ok e1 (State.tidy_graphBytes (GRead.tidy_ok e (State.tidy_graphBytes
                h)))))))))⟩
            · rename_i e4
              exact ⟨GRead.tidy_ok e4 (State.tidy_readEdges (GRead.tidy_ok e3 (State.tidy_graphBytes (GRead.tidy_ok e2
                (State.tidy_readNodes (GRead.tidy_ok e1 (State.tidy_graphBytes (GRead.tidy_ok e (State.tidy_graphBytes
                h)))))))))⟩

theorem State.tidy_takeGraph {u : Nat} {h2 : PktHdr} {addr : DWord} (h : s.tidy = true) :
    (s.takeGraph u h2 addr).tidy = true := by
  unfold State.takeGraph
  split
  · exact State.tidy_complete h
  · dsimp only
    split
    · exact State.tidy_complete h
    · split
      · rename_i e
        exact State.tidy_mk (GRead.tidy_wait e (State.tidy_readGraph h))
      · rename_i e
        exact State.tidy_complete (GRead.tidy_refuse e (State.tidy_readGraph h))
      · rename_i e
        split
        · exact State.tidy_complete (GRead.tidy_ok e (State.tidy_readGraph h))
        · split
          · exact State.tidy_complete (GRead.tidy_ok e (State.tidy_readGraph h))
          · exact State.tidy_finishGraph (State.tidy_admitNodes (State.tidy_mk (GRead.tidy_ok e (State.tidy_readGraph h))))

theorem tidy_execGraphPkt {h2 : PktHdr} {addr : DWord} (h : s.tidy = true) : Res.Tidy (execGraphPkt h2 addr s) :=
  tidy_withPkt h (fun _ h1 => State.tidy_takeGraph (State.tidy_mk h1))

theorem State.tidy_retryHeld (h : s.tidy = true) : (s.retryHeld).tidy = true :=
  State.tidy_each (State.tidy_mk h) (fun _ _ h1 => State.tidy_ite (State.tidy_takeGraph h1) (State.tidy_takeLaunch h1))

theorem State.tidy_cleanAll (h : s.tidy = true) : (s.cleanAll).tidy = true :=
  State.tidy_mk (State.tidy_each (State.tidy_testAll _ _ h) (fun _ _ h1 => State.tidy_each h1 (fun _ _ h2 =>
    State.tidy_writeBack _ _ _ h2)))

theorem State.tidy_quiesceNow {id : Nat} (h : s.tidy = true) : (s.quiesceNow id).tidy = true :=
  State.tidy_mk (State.tidy_cleanAll h)

theorem State.tidy_cleanEdge {ctx : Nat} {e : Edge} (h : s.tidy = true) : (s.cleanEdge ctx e).tidy = true :=
  State.tidy_each h (fun _ _ h1 => State.tidy_each h1 (fun _ _ h2 => State.tidy_cleanLines h2))

theorem State.tidy_satisfy {gi n : Nat} (h : s.tidy = true) : (s.satisfy gi n).tidy = true :=
  State.tidy_admitNodes (State.tidy_mk h)

theorem State.tidy_copyOut {ctx : Nat} {l : List (DWord × Nat × Nat)} {l2 : List (DWord × List Byte)} (h : s.tidy = true) :
    (s.copyOut ctx l l2).Tidy := by
  induction l generalizing s ctx l2 with
  | nil => exact ⟨h⟩
  | cons a r ih =>
    unfold State.copyOut
    split
    · exact ih h
    · split
      · rename_i e
        exact ih (GRead.tidy_ok e (State.tidy_graphBytes h))
      · rename_i e
        exact ⟨GRead.tidy_wait e (State.tidy_graphBytes h)⟩
      · rename_i e
        exact ih (GRead.tidy_refuse e (State.tidy_graphBytes h))

theorem State.tidy_moveLine {line dst : Nat} (h : s.tidy = true) : (s.moveLine line dst).tidy = true := by
  unfold State.moveLine
  dsimp only
  split
  · exact (State.tidy_touchLine _ _ _).trans (State.tidy_mk (State.tidy_mk h))
  · exact State.tidy_mk (State.tidy_mk h)

theorem State.tidy_moveLines {pa size dst : Nat} (h : s.tidy = true) : (s.moveLines pa size dst).tidy = true :=
  State.tidy_each (State.tidy_mk (canon_copyKeys emptyByte pa size dst s.mem h)) (fun _ _ ht => State.tidy_moveLine ht)

theorem State.tidy_setFrame {ea dst : Nat} (h : s.tidy = true) : (s.setFrame ea dst).tidy = true :=
  State.tidy_setWord _ _ _ (State.tidy_setWord _ _ _ h)

theorem State.tidy_movePage {ctx va die : Nat} (h : s.tidy = true) : (s.movePage ctx va die).1.tidy = true := by
  unfold State.movePage
  split
  · split
    · exact h
    · exact State.tidy_mk (State.tidy_each (State.tidy_moveLines (State.tidy_mk h)) (fun _ _ h1 => State.tidy_setFrame h1))
  · exact h

theorem State.tidy_movePages {ctx die hi n n2 : Nat} (h : s.tidy = true) : (s.movePages ctx die hi n n2).tidy = true := by
  induction n generalizing s ctx die hi n2 with
  | zero => exact h
  | succ n ih =>
    unfold State.movePages
    split
    · exact h
    · exact ih (State.tidy_movePage h)

theorem State.tidy_moveFlows {ctx : Nat} {e : Edge} (h : s.tidy = true) : (s.moveFlows ctx e).tidy = true :=
  State.tidy_each (State.tidy_mk h) (fun _ _ h1 => State.tidy_movePages h1)

theorem tidy_execGraphEdgeSatisfy {gi n : Nat} (h : s.tidy = true) : Res.Tidy (execGraphEdgeSatisfy gi n s) := by
  unfold execGraphEdgeSatisfy
  split
  · exact ⟨h⟩
  · split
    · exact ⟨h⟩
    · split
      · dsimp only
        split
        · exact ⟨h⟩
        · split
          · exact ⟨State.tidy_finishGraph (State.tidy_satisfy (State.tidy_ite (State.tidy_moveFlows (State.tidy_quiesceNow
              (State.tidy_cleanEdge h))) (State.tidy_quiesceNow (State.tidy_cleanEdge h))))⟩
          · split
            · rename_i e
              exact ⟨State.tidy_finishGraph (State.tidy_satisfy (State.tidy_mk (State.tidy_mk (GRead.tidy_ok e
                (State.tidy_copyOut (State.tidy_ite (State.tidy_moveFlows (State.tidy_quiesceNow (State.tidy_cleanEdge h)))
                (State.tidy_quiesceNow (State.tidy_cleanEdge h))))))))⟩
            · rename_i e
              exact ⟨GRead.tidy_wait e (State.tidy_copyOut (State.tidy_ite (State.tidy_moveFlows (State.tidy_quiesceNow
                (State.tidy_cleanEdge h))) (State.tidy_quiesceNow (State.tidy_cleanEdge h))))⟩
            · rename_i e
              exact ⟨GRead.tidy_refuse e (State.tidy_copyOut (State.tidy_ite (State.tidy_moveFlows (State.tidy_quiesceNow
                (State.tidy_cleanEdge h))) (State.tidy_quiesceNow (State.tidy_cleanEdge h))))⟩
      · dsimp only
        split
        · exact ⟨h⟩
        · split
          · exact ⟨State.tidy_finishGraph (State.tidy_satisfy (State.tidy_ite (State.tidy_moveFlows (State.tidy_cleanEdge h))
              (State.tidy_cleanEdge h)))⟩
          · split
            · rename_i e
              exact ⟨State.tidy_finishGraph (State.tidy_satisfy (State.tidy_mk (State.tidy_mk (GRead.tidy_ok e
                (State.tidy_copyOut (State.tidy_ite (State.tidy_moveFlows (State.tidy_cleanEdge h)) (State.tidy_cleanEdge
                h)))))))⟩
            · rename_i e
              exact ⟨GRead.tidy_wait e (State.tidy_copyOut (State.tidy_ite (State.tidy_moveFlows (State.tidy_cleanEdge h))
                (State.tidy_cleanEdge h)))⟩
            · rename_i e
              exact ⟨GRead.tidy_refuse e (State.tidy_copyOut (State.tidy_ite (State.tidy_moveFlows (State.tidy_cleanEdge h))
                (State.tidy_cleanEdge h)))⟩

theorem tidy_execRemoteEdgeSignal {gi n : Nat} (h : s.tidy = true) : Res.Tidy (execRemoteEdgeSignal gi n s) := by
  unfold execRemoteEdgeSignal
  split
  · exact ⟨h⟩
  · split
    · exact ⟨h⟩
    · exact ⟨State.tidy_satisfy h⟩

theorem tidy_execQuiescePkt {h2 : PktHdr} (h : s.tidy = true) : Res.Tidy (execQuiescePkt h2 s) :=
  tidy_withPkt h (fun _ h1 => State.tidy_ite (State.tidy_complete h1) (State.tidy_mk h1))

theorem tidy_execQuiescePoint {id : Nat} (h : s.tidy = true) : Res.Tidy (execQuiescePoint id s) := by
  unfold execQuiescePoint
  split
  · exact ⟨h⟩
  · split
    · exact ⟨h⟩
    · exact ⟨State.tidy_complete (State.tidy_mk (State.tidy_quiesceNow h))⟩

theorem State.tidy_reply {rid x1 x2 : DWord} (h : s.tidy = true) : (s.reply rid x1 x2).tidy = true := by
  unfold State.reply
  split
  · exact State.tidy_mk h
  · exact h

theorem tidy_execHreplyPkt {h2 : PktHdr} {rid x1 x2 : DWord} (h : s.tidy = true) : Res.Tidy (execHreplyPkt h2 rid x1 x2 s) :=
  tidy_withPkt h (fun _ h1 => State.tidy_reply h1)

theorem State.tidy_endService {rid : DWord} {fail : Bool} (h : s.tidy = true) : (s.endService rid fail).tidy = true := by
  unfold State.endService
  split
  · exact h
  · exact State.tidy_retryHeld (State.tidy_ite (State.tidy_mk (State.tidy_mk h)) (State.tidy_ite (State.tidy_discardPage
      (State.tidy_mk h)) (State.tidy_mk h)))

theorem tidy_execFdonePkt {h2 : PktHdr} {rid : DWord} {fail : Bool} (h : s.tidy = true) :
    Res.Tidy (execFdonePkt h2 rid fail s) :=
  tidy_withPkt h (fun _ h1 => State.tidy_endService h1)

theorem State.tidy_regionDone {h2 : PktHdr} {status : Nat} (h : s.tidy = true) : (s.regionDone h2 status).tidy = true :=
  State.tidy_complete h

theorem State.tidy_mapRegion {h2 : PktHdr} {r port : Nat} {cxl : DWord} {devs : List Nat} {mode : Nat} (h : s.tidy = true) :
    (s.mapRegion h2 r port cxl devs mode).tidy = true := by
  unfold State.mapRegion
  split
  · exact State.tidy_regionDone h
  · split
    · dsimp only
      split <;> exact State.tidy_regionDone h
    · dsimp only
      split
      · exact State.tidy_regionDone h
      · exact State.tidy_regionDone (State.tidy_mk h)

theorem tidy_execRegionMapPlain {h2 : PktHdr} {r port : Nat} {cxl : DWord} {devs : List Nat} (h : s.tidy = true) :
    Res.Tidy (execRegionMapPlain h2 r port cxl devs s) :=
  tidy_withPkt h (fun _ h1 => State.tidy_mapRegion h1)

theorem tidy_execRegionMapVersioned {h2 : PktHdr} {r port : Nat} {cxl : DWord} {devs : List Nat} (h : s.tidy = true) :
    Res.Tidy (execRegionMapVersioned h2 r port cxl devs s) :=
  tidy_withPkt h (fun _ h1 => State.tidy_mapRegion h1)

theorem tidy_execRegionUnmap {h2 : PktHdr} {r : Nat} (h : s.tidy = true) : Res.Tidy (execRegionUnmap h2 r s) :=
  tidy_withPkt h (fun _ h1 => State.tidy_ite (State.tidy_regionDone h1) (State.tidy_ite (State.tidy_regionDone h1)
    (State.tidy_regionDone (State.tidy_mk (State.tidy_each h1 (fun _ _ h3 => State.tidy_disown h3))))))

theorem tidy_execRegionRejoinFlush {h2 : PktHdr} {r port : Nat} (h : s.tidy = true) :
    Res.Tidy (execRegionRejoinFlush h2 r port s) :=
  tidy_withPkt h (fun _ h1 => State.tidy_ite (State.tidy_regionDone h1) (State.tidy_ite (State.tidy_regionDone h1)
    (State.tidy_regionDone (State.tidy_rejoin h1))))

theorem tidy_execRegionRejoinDiscard {h2 : PktHdr} {r port : Nat} (h : s.tidy = true) :
    Res.Tidy (execRegionRejoinDiscard h2 r port s) :=
  tidy_withPkt h (fun _ h1 => State.tidy_ite (State.tidy_regionDone h1) (State.tidy_ite (State.tidy_regionDone h1)
    (State.tidy_regionDone (State.tidy_discardStrand h1))))

theorem tidy_execDevcfgPkt {h2 : PktHdr} {fabric base size : Nat} (h : s.tidy = true) :
    Res.Tidy (execDevcfgPkt h2 fabric base size s) :=
  tidy_withPkt h (fun _ h1 => State.tidy_ite (State.tidy_complete h1) (State.tidy_ite (State.tidy_complete h1)
    (State.tidy_complete (State.tidy_mk h1))))

theorem State.tidy_putBytesHome {a : Nat} {l : List Byte} (h : s.tidy = true) : tidySome id (s.putBytesHome a l) := by
  unfold State.putBytesHome
  dsimp only
  split
  · exact tidySome_some (State.tidy_setBytes _ _ _ (State.tidy_each h (fun _ _ ht => State.tidy_writeBackAll _ _ _ ht)))
  · exact tidySome_foldl (tidySome_some h) (fun _ _ ht => State.tidy_tryOutside ht)

theorem State.tidy_attest {a b : Nat} (h : s.tidy = true) : tidySome id (s.attest a b) :=
  State.tidy_putBytesHome (State.tidy_mk h)

theorem tidy_execAttestPkt {h2 : PktHdr} {nonce report : DWord} (h : s.tidy = true) :
    Res.Tidy (execAttestPkt h2 nonce report s) := by
  unfold execAttestPkt
  dsimp only
  split
  · exact ⟨h⟩
  · exact tidy_withPkt h (fun _ h1 => State.tidy_ite (State.tidy_complete h1) (State.tidy_complete (tidy_getD
      (State.tidy_attest h1) h1)))

theorem tidy_execFwupdPkt {h2 : PktHdr} {addr : DWord} {bytes slot : Nat} (h : s.tidy = true) :
    Res.Tidy (execFwupdPkt h2 addr bytes slot s) :=
  tidy_withPkt h (fun _ h1 => State.tidy_ite (State.tidy_complete h1) (State.tidy_ite (State.tidy_complete h1) (State.tidy_ite
    (State.tidy_complete h1) (State.tidy_complete (State.tidy_mk h1)))))

/-! ### Operations of Machine/LaneFloat -/

theorem tidy_floatwise {t : Ty} {rm : Rm} {o : LaneOp} {f : Fl → Fl → Fl → Fl} (h : s.tidy = true) :
    Res.Tidy (floatwise s t rm o f) :=
  tidy_perLane h

theorem tidy_patternwise {t : Ty} {o : LaneOp} {f : Nat → Nat → Nat} (h : s.tidy = true) : Res.Tidy (patternwise s t o f) :=
  tidy_perLane h

/-! ### Operations of Machine/LaneInt -/

theorem tidy_elementwise {t : Ty} {sat : Bool} {o : LaneOp} {f : ℤ → ℤ → ℤ → ℤ} (h : s.tidy = true) :
    Res.Tidy (elementwise s t sat o f) :=
  tidy_perLane h

theorem tidy_bitwise {o : LaneOp} {f : Word → Word → Word} (h : s.tidy = true) : Res.Tidy (bitwise s o f) := tidy_perLane h

/-! ### Operations of Machine/LaneMove -/

theorem tidy_crossLane {o : LaneOp} {z : Word} {f : LaneIn → Nat → Word} (h : s.tidy = true) : Res.Tidy (crossLane s o z f) :=
  tidy_withLane h (fun _ => LaneIn.tidy_done h)

theorem tidy_execVoteK {o : LaneOp} (h : s.tidy = true) : Res.Tidy (execVoteK o s) :=
  tidy_withLane h (fun _ => LaneIn.tidy_done h)

theorem tidy_execVoteBallot {o : LaneOp} (h : s.tidy = true) : Res.Tidy (execVoteBallot o s) :=
  tidy_withLane h (fun _ => LaneIn.tidy_push h)

theorem tidy_execVoteAny {o : LaneOp} (h : s.tidy = true) : Res.Tidy (execVoteAny o s) :=
  tidy_withLane h (fun _ => LaneIn.tidy_push h)

theorem tidy_execVoteAll {o : LaneOp} (h : s.tidy = true) : Res.Tidy (execVoteAll o s) :=
  tidy_withLane h (fun _ => LaneIn.tidy_push h)

theorem tidy_execVoteCount {o : LaneOp} (h : s.tidy = true) : Res.Tidy (execVoteCount o s) :=
  tidy_withLane h (fun _ => LaneIn.tidy_push h)

theorem tidy_execVred {op : RedOp} {t : Ty} {o : LaneOp} (h : s.tidy = true) : Res.Tidy (execVred op t o s) :=
  tidy_withLane h (fun _ => LaneIn.tidy_push h)

/-! ### Operations of Machine/Dispatch -/

theorem tidy_exec {i : Instr} (h : s.tidy = true) : Res.Tidy (exec i s) := by
  unfold exec
  cases i with
  | add => exact tidy_alu h
  | sub => exact tidy_alu h
  | and => exact tidy_alu h
  | or => exact tidy_alu h
  | xor => exact tidy_alu h
  | andn => exact tidy_alu h
  | shl => exact tidy_alu h
  | shr => exact tidy_alu h
  | sar => exact tidy_alu h
  | rol => exact tidy_alu h
  | min => exact tidy_alu h
  | max => exact tidy_alu h
  | minn => exact tidy_alu h
  | maxn => exact tidy_alu h
  | mul => exact tidy_alu h
  | mulh => exact tidy_alu h
  | mulhn => exact tidy_alu h
  | div => exact tidy_alu h
  | divn => exact tidy_alu h
  | rem => exact tidy_alu h
  | remn => exact tidy_alu h
  | clz => exact tidy_alu h
  | ctz => exact tidy_alu h
  | popc => exact tidy_alu h
  | sextI8 => exact tidy_alu h
  | sextI16 => exact tidy_alu h
  | sextI32 => exact tidy_alu h
  | zextN8 => exact tidy_alu h
  | zextN16 => exact tidy_alu h
  | zextN32 => exact tidy_alu h
  | addi => exact tidy_alu h
  | andi => exact tidy_alu h
  | ori => exact tidy_alu h
  | xori => exact tidy_alu h
  | shli => exact tidy_alu h
  | shri => exact tidy_alu h
  | sari => exact tidy_alu h
  | lih => exact tidy_alu h
  | seq => exact tidy_alu h
  | sne => exact tidy_alu h
  | slt => exact tidy_alu h
  | sltn => exact tidy_alu h
  | sle => exact tidy_alu h
  | slen => exact tidy_alu h
  | sel => exact tidy_alu h
  | adr => exact tidy_alu h
  | adrpc => exact tidy_alu h
  | b => exact tidy_execB h
  | call => exact tidy_execCall h
  | beq => exact tidy_branch h
  | bne => exact tidy_branch h
  | blt => exact tidy_branch h
  | bge => exact tidy_branch h
  | bltn => exact tidy_branch h
  | bgen => exact tidy_branch h
  | bz => exact tidy_branch h
  | bnz => exact tidy_branch h
  | loop => exact tidy_execLoop h
  | bkany => exact tidy_maskBranch h
  | bkall => exact tidy_maskBranch h
  | bknone => exact tidy_maskBranch h
  | calli => exact tidy_execCalli h
  | ret => exact tidy_execRet h
  | jmpi => exact tidy_execJmpi h
  | ldx => exact tidy_loadGlobal h
  | ldxI32 => exact tidy_loadGlobal h
  | ldxs => exact tidy_loadScratch h
  | ldxsI32 => exact tidy_loadScratch h
  | stx => exact tidy_storeGlobal h
  | stxB32 => exact tidy_storeGlobal h
  | stxs => exact tidy_storeScratch h
  | stxsB32 => exact tidy_storeScratch h
  | acq => exact tidy_execAcq h
  | rel => exact tidy_execRel h
  | amo => exact tidy_execAmo h
  | ldc => exact tidy_execLdc h
  | ldsib => exact tidy_execLdsib h
  | mfs => exact tidy_execMfs h
  | mts => exact tidy_execMts h
  | fence => exact tidy_execFence h
  | rcn => exact tidy_execRcn h
  | rcnw => exact tidy_execRcnw h
  | vvrd => exact tidy_alu h
  | vvfold => exact tidy_execVvfold h
  | clean => exact tidy_lineOp h
  | inval => exact tidy_lineOp h
  | lrun => exact tidy_execLrun h
  | lsync => exact tidy_execLsync h
  | dpop => exact tidy_execDpop h
  | kpush => exact tidy_execKpush h
  | kelse => exact tidy_execKelse h
  | kpop => exact tidy_execKpop h
  | kmovKK => exact tidy_execKmovKK h
  | kmovKX => exact tidy_execKmovKX h
  | kmovXK => exact tidy_execKmovXK h
  | kand => exact tidy_maskOp h
  | kor => exact tidy_maskOp h
  | kxor => exact tidy_maskOp h
  | knot => exact tidy_execKnot h
  | kpopc => exact tidy_execKpopc h
  | spset => exact tidy_execSpset h
  | spgo => exact tidy_execSpgo h
  | spstop => exact tidy_execSpstop h
  | wait => exact tidy_execWait h
  | cntrd => exact tidy_alu h
  | cpgo => exact tidy_execCpgo h
  | cpseal => exact tidy_execCpseal h
  | cpwait => exact tidy_execCpwait h
  | cpstat => exact tidy_execCpstat h
  | cpabort => exact tidy_execCpabort h
  | cpflt => exact tidy_execCpflt h
  | bop => exact tidy_execBop h
  | bred => exact tidy_execBred h
  | await => exact tidy_execAwait h
  | tspawn => exact tidy_execTspawn h
  | watch => exact tidy_execWatch h
  | unwatch => exact tidy_execUnwatch h
  | claim => exact tidy_execClaim h
  | give => exact tidy_execGive h
  | regroup => exact tidy_execRegroup h
  | exit => exact tidy_execExit h
  | barinit => exact tidy_execBarinit h
  | bararr => exact tidy_execBararr h
  | barwait => exact tidy_execBarwait h
  | barsync => exact tidy_execBarsync h
  | cbar => exact tidy_execCbar h
  | qinit => exact tidy_execQinit h
  | qpush => exact tidy_execQpush h
  | qpop => exact tidy_execQpop h
  | qtry => exact tidy_execQtry h
  | nap => exact tidy_execNap h
  | yield => exact tidy_execYield h
  | ensure => exact tidy_execEnsure h
  | elseby => exact tidy_dispatchEntry h
  | elseerr => exact tidy_dispatchEntry h
  | accept => exact tidy_execAccept h
  | rbfail => exact tidy_execRbfail h
  | cvjoin => exact tidy_execCvjoin h
  | cvleave => exact tidy_execCvleave h
  | chkerr => exact tidy_execChkerr h
  | trap => exact tidy_raiseNext h
  | brk => exact tidy_raiseNext h
  | hcall => exact tidy_execHcall h
  | rti => exact tidy_execRti h
  | nop => exact tidy_doneWith h
  | halt => exact tidy_execHalt h
  | capq => exact tidy_execCapq h
  | chkmode => exact tidy_execChkmode h
  | clkmode => exact tidy_execClkmode h
  | retire => exact tidy_execRetire h
  | ctxsv => exact tidy_execCtxsv h
  | ctxld => exact tidy_execCtxld h
  | tlbflush => exact tidy_execTlbflush h
  | prgn => exact tidy_execPrgn h
  | vadd => exact tidy_elementwise h
  | vsub => exact tidy_elementwise h
  | vmul => exact tidy_elementwise h
  | vmulh => exact tidy_elementwise h
  | vmad => exact tidy_elementwise h
  | vand => exact tidy_bitwise h
  | vor => exact tidy_bitwise h
  | vxor => exact tidy_bitwise h
  | vandn => exact tidy_bitwise h
  | vshl => exact tidy_elementwise h
  | vshr => exact tidy_elementwise h
  | vsar => exact tidy_elementwise h
  | vmin => exact tidy_elementwise h
  | vmax => exact tidy_elementwise h
  | vabs => exact tidy_elementwise h
  | vaddmin => exact tidy_elementwise h
  | vaddmax => exact tidy_elementwise h
  | vclz => exact tidy_perLane h
  | vpopc => exact tidy_perLane h
  | vbfx => exact tidy_perLane h
  | vbfi => exact tidy_perLane h
  | vsel => exact tidy_perLane h
  | vsad => exact tidy_perLane h
  | vcmp => exact tidy_perLaneMask h
  | vcvt => exact tidy_perLane h
  | fadd => exact tidy_floatwise h
  | fsub => exact tidy_floatwise h
  | fmul => exact tidy_floatwise h
  | ffma => exact tidy_floatwise h
  | fmin => exact tidy_patternwise h
  | fmax => exact tidy_patternwise h
  | fcmp => exact tidy_perLaneMask h
  | frcp => exact tidy_patternwise h
  | frsq => exact tidy_patternwise h
  | fsqrt => exact tidy_patternwise h
  | fexp2 => exact tidy_patternwise h
  | flog2 => exact tidy_patternwise h
  | fcvt => exact tidy_perLane h
  | fint => exact tidy_patternwise h
  | vshfl => exact tidy_crossLane h
  | vshift => exact tidy_crossLane h
  | vrot => exact tidy_crossLane h
  | vbcast => exact tidy_crossLane h
  | voteK => exact tidy_execVoteK h
  | voteBallot => exact tidy_execVoteBallot h
  | voteAny => exact tidy_execVoteAny h
  | voteAll => exact tidy_execVoteAll h
  | voteCount => exact tidy_execVoteCount h
  | vred => exact tidy_execVred h
  | vredV => exact tidy_crossLane h
  | vscan => exact tidy_crossLane h
  | mmaF => exact tidy_mma h
  | mmaH => exact tidy_mma h
  | mmaI => exact tidy_mma h
  | mzero => exact tidy_execMzero h
  | mfrag => exact tidy_fragLoad h
  | mtr => exact tidy_fragLoad h
  | maccLd => exact tidy_execMaccLd h
  | maccSt => exact tidy_maccUpd h
  | maccAdd => exact tidy_maccUpd h
  | crt => exact tidy_perLane h
  | crtAcc => exact tidy_execCrtAcc h
  | rwadd => exact tidy_perLane h
  | rwfrom => exact tidy_perLane h
  | sacc => exact tidy_fxUpdate h
  | fxzero => exact tidy_fxUpdate h
  | fxadd => exact tidy_fxUpdate h
  | fxcvt => exact tidy_execFxcvt h
  | sbmax => exact tidy_execSbmax h
  | sbcvt => exact tidy_perLane h
  | qnt => exact tidy_execQnt h
  | dqnt => exact tidy_execDqnt h
  | olx => exact tidy_execOlx h
  | vld => exact tidy_laneLoad h
  | vst => exact tidy_laneStore h
  | vlds => exact tidy_laneLoadS h
  | vsts => exact tidy_laneStoreS h
  | vldr => exact tidy_execVldr h
  | vstr => exact tidy_execVstr h
  | vpf => exact tidy_execVpf h
  | vfence => exact tidy_execVfence h
  | vamo => exact tidy_execVamo h
  | vldc => exact tidy_execVldc h
  | vldcDq => exact tidy_execVldcDq h
  | spawn => exact tidy_execSpawn h
  | loadDataReturn => exact tidy_execLoadDataReturn h
  | atomicAtPlace => exact tidy_execAtomicAtPlace h
  | homeStoreTest => exact tidy_execHomeStoreTest h
  | writeBackMerge => exact tidy_execWriteBackMerge h
  | dotScrub => exact tidy_execDotScrub h
  | registrationRepair => exact tidy_execRegistrationRepair h
  | copyRecordFetch => exact tidy_execCopyRecordFetch h
  | copyOwnRecheck => exact tidy_execCopyOwnRecheck h
  | copyRecordRegister => exact tidy_execCopyRecordRegister h
  | copyRecordComplete => exact tidy_execCopyRecordComplete h
  | copyDrainExpiry => exact tidy_execCopyDrainExpiry h
  | patternElementFetch => exact tidy_execPatternElementFetch h
  | watchTriggerDeliver => exact tidy_execWatchTriggerDeliver h
  | gatherWindowExpiry => exact tidy_execGatherWindowExpiry h
  | gatherLaunch => exact tidy_execGatherLaunch h
  | teamAdmit => exact tidy_execTeamAdmit h
  | seatRelease => exact tidy_execSeatRelease h
  | groupOverdue => exact tidy_execGroupOverdue h
  | powerReserve => exact tidy_execPowerReserve h
  | powerBudgetUpdate => exact tidy_execPowerBudgetUpdate h
  | pwrctlWrite => exact tidy_execPwrctlWrite h
  | psteerWrite => exact tidy_execPsteerWrite h
  | mgmtRegisterWrite => exact tidy_execMgmtRegisterWrite h
  | trapEntry => exact tidy_execTrapEntry h
  | handlerBudgetExpiry => exact tidy_execHandlerBudgetExpiry h
  | awaitRecheck => exact tidy_execAwaitRecheck h
  | napExpiry => exact tidy_execNapExpiry h
  | clockChangeDone => exact tidy_execClockChangeDone h
  | cycleLimitExpiry => exact tidy_execCycleLimitExpiry h
  | alternateRollback => exact tidy_execAlternateRollback h
  | preempt => exact tidy_execPreempt h
  | restore => exact tidy_execRestore h
  | poolLinkDown => exact tidy_execPoolLinkDown h
  | poolRequestTimeout => exact tidy_execPoolRequestTimeout h
  | strandedFlushRetry => exact tidy_execStrandedFlushRetry h
  | rejoinLineWritten => exact tidy_execRejoinLineWritten h
  | poolBiSnoop => exact tidy_execPoolBiSnoop h
  | hostDeviceWrite => exact tidy_execHostDeviceWrite h
  | channelDoorbell => exact tidy_execChannelDoorbell h
  | channelEnable => exact tidy_execChannelEnable h
  | completionHeadWrite => exact tidy_execCompletionHeadWrite h
  | ctxPkt => exact tidy_execCtxPkt h
  | launchPkt => exact tidy_execLaunchPkt h
  | graphPkt => exact tidy_execGraphPkt h
  | quiescePkt => exact tidy_execQuiescePkt h
  | hreplyPkt => exact tidy_execHreplyPkt h
  | fdonePkt => exact tidy_execFdonePkt h
  | regionMapPlain => exact tidy_execRegionMapPlain h
  | regionMapVersioned => exact tidy_execRegionMapVersioned h
  | regionUnmap => exact tidy_execRegionUnmap h
  | regionRejoinFlush => exact tidy_execRegionRejoinFlush h
  | regionRejoinDiscard => exact tidy_execRegionRejoinDiscard h
  | devcfgPkt => exact tidy_execDevcfgPkt h
  | attestPkt => exact tidy_execAttestPkt h
  | fwupdPkt => exact tidy_execFwupdPkt h
  | graphEdgeSatisfy => exact tidy_execGraphEdgeSatisfy h
  | remoteEdgeSignal => exact tidy_execRemoteEdgeSignal h
  | quiescePoint => exact tidy_execQuiescePoint h
  | retireApply => exact tidy_execRetireApply h
  | cpTakeoverForced => exact tidy_execCpTakeoverForced h
  | retireTimeout => exact tidy_execRetireTimeout h
  | suspectCountAge => exact tidy_execSuspectCountAge h
  | ulunoezLaneFailed => exact tidy_execUlunoezLaneFailed h
  | ulunoezLinkFailed => exact tidy_execUlunoezLinkFailed h
  | moduleReset => exact tidy_execModuleReset h
  | reducedServiceLift => exact tidy_execReducedServiceLift h
  | heartbeatWatchdog => exact tidy_execHeartbeatWatchdog h
  | droopDetect => exact tidy_execDroopDetect h
  | droopRelease => exact tidy_execDroopRelease h
  | thermalTrip => exact tidy_execThermalTrip h
  | thermalRelease => exact tidy_execThermalRelease h
  | rowSpare => exact tidy_execRowSpare h
  | memoryUncorrectable => exact tidy_execMemoryUncorrectable h
  | deadlockWalk => exact tidy_execDeadlockWalk h
  | longWait => exact tidy_execLongWait h
  | calibrate => exact tidy_execCalibrate h
  | powerGate => exact tidy_execPowerGate h
  | cxlLinkTraining => exact tidy_execCxlLinkTraining h
  | storeAcknowledgement => exact tidy_execStoreAcknowledgement h
  | copiedWriteArrival => exact tidy_execCopiedWriteArrival h

/-! ### Operations of Machine/Issue -/

theorem State.tidy_runScalar {g : Group} {i : Instr} {r : RegSets} {busy : Bool} (h : s.tidy = true) :
    Res.Tidy (s.runScalar g i r busy) := by
  unfold State.runScalar
  split
  · rename_i e
    split
    · split
      · exact ⟨h⟩
      · split
        · exact ⟨State.tidy_noteScalar (Res.tidy_next e (tidy_exec h))⟩
        · exact ⟨Res.tidy_next e (tidy_exec h)⟩
    · exact ⟨Res.tidy_next e (tidy_exec h)⟩
  · exact ⟨trivial⟩
  · exact ⟨trivial⟩

theorem State.tidy_dispatchScalar {g : Group} {i : Instr} {busy : Bool} (h : s.tidy = true) :
    Res.Tidy (s.dispatchScalar g i busy) := by
  unfold State.dispatchScalar
  split
  · split
    · split
      · dsimp only
        split
        · exact tidy_raise h
        · split
          · exact ⟨h⟩
          · exact tidy_overflow h
      · rename_i e
        dsimp only
        split
        · exact tidy_raise h
        · split
          · exact ⟨h⟩
          · exact State.tidy_runScalar (tidy_some e (tidySome_some h))
    · dsimp only
      split
      · exact tidy_raise h
      · split
        · exact ⟨h⟩
        · split
          · exact tidy_overflow h
          · rename_i e
            exact State.tidy_runScalar (tidy_some e (State.tidy_captureRegs h))
  · split
    · split
      · dsimp only
        split
        · exact tidy_raise h
        · split
          · exact ⟨h⟩
          · exact tidy_overflow h
      · rename_i e
        dsimp only
        split
        · exact tidy_raise h
        · split
          · exact ⟨h⟩
          · exact State.tidy_runScalar (tidy_some e (tidySome_some h))
    · dsimp only
      split
      · exact tidy_raise h
      · split
        · exact ⟨h⟩
        · split
          · exact tidy_overflow h
          · rename_i e
            exact State.tidy_runScalar (tidy_some e (State.tidy_captureRegs h))

theorem State.tidy_runWord {g : Group} {w : Word} {busy : Bool} (h : s.tidy = true) : Res.Tidy (s.runWord g w busy) := by
  unfold State.runWord
  split
  · exact tidy_raise h
  · exact State.tidy_dispatchScalar h

theorem State.tidy_buffered {g : Group} {a : DWord} {w : Word} (h : s.tidy = true) : (s.buffered g a w).1.tidy = true := by
  unfold State.buffered
  split
  · split
    · exact h
    · exact State.tidy_mk h
  · exact h

theorem State.tidy_fetchRun {k : Nat} {g : Group} {busy : Bool} (h : s.tidy = true) : Res.Tidy (s.fetchRun k g busy) := by
  unfold State.fetchRun
  split
  · rename_i e
    exact ⟨FRes.tidy_wait e (State.tidy_fetchWord h)⟩
  · rename_i e
    exact tidy_raise (FRes.tidy_fault e (State.tidy_fetchWord h))
  · rename_i e
    exact State.tidy_runWord (State.tidy_mk (State.tidy_buffered (FRes.tidy_ok e (State.tidy_fetchWord h))))

theorem State.tidy_issueScalar {k : Nat} {busy : Bool} (h : s.tidy = true) : Res.Tidy (s.issueScalar k busy) := by
  unfold State.issueScalar
  refine tidy_withG (fun _ => ?_)
  split
  · split
    · exact State.tidy_fetchRun (State.tidy_mk h)
    · exact ⟨State.tidy_mk h⟩
  · split
    · split
      · exact ⟨State.tidy_stepEntry (State.tidy_mk h)⟩
      · exact ⟨State.tidy_mk h⟩
    · split
      · exact ⟨State.tidy_mk h⟩
      · split
        · exact ⟨State.tidy_takePending (State.tidy_mk h)⟩
        · split
          · exact tidy_execExit (State.tidy_mk h)
          · exact State.tidy_fetchRun (State.tidy_mk h)

theorem State.tidy_noteLane {k : Nat} {m : Lead} {i : Instr} {r : RegSets} {busy : Bool} (h : s.tidy = true) :
    (s.noteLane k m i r busy).tidy = true := by
  unfold State.noteLane
  split
  · exact h
  · exact State.tidy_mk (State.tidy_mk h)

theorem State.tidy_laneCheck {g : Group} {e : LaneEntry} {lane : Nat} (h : s.tidy = true) : Res.Tidy (s.laneCheck g e lane) :=
  tidy_raiseLane h

theorem tidy_laneOverflow {g : Group} {e : LaneEntry} {i : Instr} (h : s.tidy = true) : Res.Tidy (laneOverflow s g e i) := by
  unfold laneOverflow
  split
  · exact ⟨h⟩
  · exact LaneIn.tidy_overflow h

theorem State.tidy_tryInstr {g : Group} {e : LaneEntry} {i : Instr} (h : s.tidy = true) : (s.tryInstr g e i).Tidy := by
  unfold State.tryInstr
  split
  · exact ⟨tidy_raiseLane h⟩
  · split
    · rename_i e
      split
      · dsimp only
        split
        · exact ⟨tidy_raiseLane h⟩
        · split
          · exact ⟨tidy_raiseLane h⟩
          · split <;> exact ⟨trivial⟩
      · split
        · dsimp only
          split
          · exact ⟨tidy_raiseLane h⟩
          · split
            · exact ⟨tidy_raiseLane h⟩
            · split <;> exact ⟨trivial⟩
        · dsimp only
          split
          · exact ⟨tidy_raiseLane h⟩
          · split
            · exact ⟨tidy_raiseLane h⟩
            · split
              · exact ⟨trivial⟩
              · exact ⟨⟨Res.tidy_next e (tidy_exec h)⟩⟩
    · dsimp only
      split
      · exact ⟨tidy_raiseLane h⟩
      · split
        · exact ⟨tidy_raiseLane h⟩
        · split
          · exact ⟨trivial⟩
          · exact ⟨tidy_exec h⟩

theorem State.tidy_tryHead {g : Group} (h : s.tidy = true) : (s.tryHead g).Tidy := by
  unfold State.tryHead
  split
  · exact ⟨trivial⟩
  · split
    · exact ⟨trivial⟩
    · split
      · exact ⟨tidy_raiseLane h⟩
      · exact State.tidy_tryInstr h

theorem State.tidy_effectHead {m : Lead} {g : Group} {e : LaneEntry} {i : Instr} {r : RegSets} {busy : Bool}
    (h : s.tidy = true) : Res.Tidy (s.effectHead m g e i r busy) := by
  unfold State.effectHead
  split
  · exact tidy_laneOverflow h
  · rename_i e
    split
    · rename_i e1
      exact ⟨State.tidy_noteLane (Res.tidy_next e1 (tidy_exec (tidy_some e (State.tidy_captureRegs h))))⟩
    · exact tidy_exec (tidy_some e (State.tidy_captureRegs h))

theorem State.tidy_finishHead {m : Lead} {g : Group} {e : LaneEntry} {i : Instr} {r : RegSets} {c : CycleRes} {busy : Bool}
    (h : s.tidy = true) : Res.Tidy (s.finishHead m g e i r c busy) := by
  unfold State.finishHead
  split
  · exact State.tidy_effectHead h
  · split
    · split
      · rename_i e
        dsimp only
        split
        · exact State.tidy_laneCheck (State.tidy_mk (State.tidy_mk (Res.tidy_next e (tidy_exec h))))
        · exact ⟨State.tidy_mk (State.tidy_mk (Res.tidy_next e (tidy_exec h)))⟩
      · exact tidy_exec h
    · exact State.tidy_laneCheck h

theorem State.tidy_runHead {k : Nat} {m : Lead} {c : CycleRes} {busy : Bool} (h : s.tidy = true) :
    Res.Tidy (s.runHead k m c busy) := by
  unfold State.runHead
  refine tidy_withG (fun _ => ?_)
  split
  · exact State.tidy_finishHead (State.tidy_mk h)
  · rename_i e
    exact LaneTry.tidy_act e (State.tidy_tryHead (State.tidy_mk h))
  · exact ⟨State.tidy_mk h⟩

theorem tidy_runHeads {m : Lead} {c : CycleRes} {busy : Bool} {l : List Nat} (h : s.tidy = true) :
    Res.Tidy (runHeads m c busy l s) := by
  induction l generalizing m c busy s with
  | nil => exact ⟨h⟩
  | cons a r ih =>
    unfold runHeads
    split
    · rename_i e
      exact ih (Res.tidy_next e (State.tidy_runHead h))
    · exact State.tidy_runHead h

theorem State.tidy_startCycle {q : Nat} {m : Member} {l : List Member} {busy : Bool} (h : s.tidy = true) :
    Res.Tidy (s.startCycle q m l busy) :=
  tidy_runHeads (State.tidy_mk (State.tidy_checkCycles h))

theorem State.tidy_issueLane {k : Nat} {busy : Bool} (h : s.tidy = true) : Res.Tidy (s.issueLane k busy) := by
  unfold State.issueLane
  refine tidy_withG (fun _ => ?_)
  dsimp only
  split
  · split
    · exact ⟨State.tidy_takeRest (State.tidy_carryOn (State.tidy_mk h))⟩
    · exact ⟨State.tidy_carryOn (State.tidy_mk h)⟩
  · split
    · exact ⟨State.tidy_carryOn (State.tidy_mk h)⟩
    · split
      · rename_i e
        exact LaneTry.tidy_act e (State.tidy_tryHead (State.tidy_carryOn (State.tidy_mk h)))
      · split
        · exact State.tidy_startCycle (State.tidy_mk (State.tidy_mk (State.tidy_carryOn (State.tidy_mk h))))
        · exact ⟨State.tidy_mk (State.tidy_carryOn (State.tidy_mk h))⟩
      · exact ⟨State.tidy_carryOn (State.tidy_mk h)⟩

/-! ### Operations of Machine/Schedule -/

theorem tidy_scalarMove {q : Nat} (h : s.tidy = true) : Res.Tidy (scalarMove q s) := by
  unfold scalarMove
  dsimp only
  split
  · exact ⟨State.tidy_mk h⟩
  · exact State.tidy_issueScalar (State.tidy_mk h)

theorem State.tidy_tryGroup {k : Nat} (h : s.tidy = true) : (s.tryGroup k).Tidy := by
  unfold State.tryGroup
  dsimp only
  split
  · exact ⟨trivial⟩
  · exact State.tidy_tryHead (State.tidy_mk h)

theorem State.tidy_grantTurns {l : List PipeTurn} (h : s.tidy = true) : (s.grantTurns l).1.tidy = true := by
  induction l generalizing s with
  | nil => exact h
  | cons a r ih =>
    unfold State.grantTurns
    split
    · exact ih (State.tidy_takeRest h)
    · split
      · exact ih (State.tidy_mk (State.tidy_mk h))
      · exact ih (State.tidy_mk h)
    · exact ih h

theorem tidy_runTurns {go : List Nat} {l : List PipeTurn} (h : s.tidy = true) : Res.Tidy (runTurns go l s) := by
  induction l generalizing s with
  | nil => exact ⟨h⟩
  | cons x r ih =>
    unfold runTurns
    dsimp only
    split
    · rename_i e
      refine ih (Res.tidy_next e ?_)
      split
      · split
        · rename_i e1
          exact LaneTry.tidy_act e1 (State.tidy_tryGroup h)
        · exact ⟨h⟩
      · split
        · exact State.tidy_startCycle h
        · exact ⟨h⟩
      · exact ⟨h⟩
    · split
      · split
        · rename_i e1
          exact LaneTry.tidy_act e1 (State.tidy_tryGroup h)
        · exact ⟨h⟩
      · split
        · exact State.tidy_startCycle h
        · exact ⟨h⟩
      · exact ⟨h⟩

theorem tidy_laneMove {c : Nat} (h : s.tidy = true) : Res.Tidy (laneMove c s) :=
  tidy_runTurns (State.tidy_grantTurns (State.tidy_each (State.tidy_each (State.tidy_each h (fun _ _ h1 => State.tidy_carryOn
    h1)) (fun _ _ h1 => State.tidy_mk h1)) (fun _ _ h1 => State.tidy_mk h1)))

theorem tidy_drainMove {c ch : Nat} (h : s.tidy = true) : Res.Tidy (drainMove c ch s) := by
  unfold drainMove
  split
  · split
    · exact tidy_execCopyDrainExpiry h
    · exact ⟨h⟩
  · exact ⟨h⟩

theorem tidy_preemptMove {t : Nat} (h : s.tidy = true) : Res.Tidy (preemptMove t s) := by
  unfold preemptMove
  split
  · split
    · exact tidy_execPreempt h
    · exact ⟨State.tidy_mk h⟩
  · exact tidy_execPreempt h
  · exact ⟨h⟩

theorem tidy_admitMove (h : s.tidy = true) : Res.Tidy (admitMove s) := by
  unfold admitMove
  dsimp only
  split
  · exact ⟨h⟩
  · split
    · exact tidy_execTeamAdmit h
    · exact ⟨h⟩

theorem tidy_restoreMove {n : Nat} (h : s.tidy = true) : Res.Tidy (restoreMove n s) := by
  unfold restoreMove
  split
  · exact ⟨h⟩
  · split
    · exact ⟨h⟩
    · split
      · exact tidy_execRestore h
      · exact ⟨h⟩

theorem tidy_packetMove {ch : Nat} (h : s.tidy = true) : Res.Tidy (packetMove ch s) := by
  unfold packetMove
  split
  · split
    · exact tidy_execCtxPkt h
    · exact tidy_execLaunchPkt h
    · exact tidy_execGraphPkt h
    · exact tidy_execQuiescePkt h
    · exact tidy_execHreplyPkt h
    · exact tidy_execFdonePkt h
    · exact tidy_execRegionMapPlain h
    · exact tidy_execRegionMapVersioned h
    · exact tidy_execRegionUnmap h
    · exact tidy_execRegionRejoinFlush h
    · exact tidy_execRegionRejoinDiscard h
    · exact tidy_execDevcfgPkt h
    · exact tidy_execAttestPkt h
    · exact tidy_execFwupdPkt h
  · exact ⟨h⟩

theorem tidy_firstMove {l : List Move} (h : s.tidy = true) (hl : ∀ m ∈ l, ∀ t, t.tidy = true → Res.Tidy (m t)) :
    Res.Tidy (firstMove s l) := by
  induction l with
  | nil => exact ⟨h⟩
  | cons m r ih =>
    unfold firstMove
    split
    · exact ih (fun x hx => hl x (List.mem_cons_of_mem _ hx))
    · exact hl m List.mem_cons_self s h

theorem tidy_allMoves {l : List Move} (h : s.tidy = true) (hl : ∀ m ∈ l, ∀ t, t.tidy = true → Res.Tidy (m t)) :
    Res.Tidy (allMoves s l) := by
  induction l generalizing s with
  | nil => exact ⟨h⟩
  | cons m r ih =>
    have hm := hl m List.mem_cons_self s h
    unfold allMoves
    split
    · rename_i e
      exact ih (Res.tidy_next e hm) (fun x hx => hl x (List.mem_cons_of_mem _ hx))
    · exact hm

/-- Every move of a list keeps the memory in canonical form. -/
def MovesTidy (l : List Move) : Prop := ∀ m ∈ l, ∀ t, t.tidy = true → Res.Tidy (m t)

theorem movesTidy_nil : MovesTidy [] := nofun

theorem movesTidy_cons {m : Move} {l : List Move} (hm : ∀ t, t.tidy = true → Res.Tidy (m t)) (hl : MovesTidy l) : MovesTidy (m :: l) :=
  List.forall_mem_cons.mpr ⟨hm, hl⟩

theorem movesTidy_append {l r : List Move} (hl : MovesTidy l) (hr : MovesTidy r) : MovesTidy (l ++ r) :=
  List.forall_mem_append.mpr ⟨hl, hr⟩

theorem movesTidy_map {α : Type} {f : α → Move} {l : List α} (hf : ∀ x t, t.tidy = true → Res.Tidy (f x t)) : MovesTidy (l.map f) :=
  List.forall_mem_map.mpr (fun x _ => hf x)

theorem movesTidy_flatMap {α : Type} {f : α → List Move} {l : List α} (hf : ∀ x, MovesTidy (f x)) : MovesTidy (l.flatMap f) := by
  intro m hm
  obtain ⟨x, _, hx⟩ := List.mem_flatMap.mp hm
  exact hf x m hx

theorem movesTidy_rotate {l : List Move} {n : Nat} (hl : MovesTidy l) : MovesTidy (rotate n l) :=
  movesTidy_append (fun m hm => hl m (List.mem_of_mem_drop hm)) (fun m hm => hl m (List.mem_of_mem_take hm))

theorem movesTidy_groupMoves (e : Nat × Group) : MovesTidy (groupMoves e) := by
  refine movesTidy_append (movesTidy_append (movesTidy_append ?timers ?queues) ?dueS) ?dueL
  case timers =>
    exact movesTidy_cons (fun _ h => tidy_execTrapEntry h) <| movesTidy_cons (fun _ h => tidy_execHandlerBudgetExpiry h) <|
      movesTidy_cons (fun _ h => tidy_execAwaitRecheck h) <| movesTidy_cons (fun _ h => tidy_execNapExpiry h) <|
      movesTidy_cons (fun _ h => tidy_execLoadDataReturn h) <| movesTidy_cons (fun _ h => tidy_execAtomicAtPlace h) <|
      movesTidy_cons (fun _ h => tidy_execLongWait h) movesTidy_nil
  case queues => exact movesTidy_map (fun _ _ h => tidy_execPatternElementFetch h)
  case dueS =>
    split
    · exact movesTidy_cons (fun _ h => tidy_execGroupOverdue h) movesTidy_nil
    · exact movesTidy_nil
  case dueL =>
    split
    · exact movesTidy_cons (fun _ h => tidy_execGroupOverdue h) movesTidy_nil
    · exact movesTidy_nil

theorem movesTidy_coreMoves (e : Nat × Core) : MovesTidy (coreMoves e) := by
  refine movesTidy_append (movesTidy_append (movesTidy_append ?chans ?gathers) ?clock) ?power
  case chans =>
    exact movesTidy_flatMap (fun _ => movesTidy_cons (fun _ h => tidy_drainMove h) <|
      movesTidy_cons (fun _ h => tidy_execCopyRecordFetch h) <| movesTidy_cons (fun _ h => tidy_execCopyOwnRecheck h) <|
      movesTidy_cons (fun _ h => tidy_execCopyRecordRegister h) <| movesTidy_cons (fun _ h => tidy_execCopyRecordComplete h) movesTidy_nil)
  case gathers =>
    exact movesTidy_flatMap (fun _ => movesTidy_cons (fun _ h => tidy_execGatherWindowExpiry h) <|
      movesTidy_cons (fun _ h => tidy_execGatherLaunch h) movesTidy_nil)
  case clock => exact movesTidy_cons (fun _ h => tidy_execClockChangeDone h) movesTidy_nil
  case power => exact movesTidy_map (fun _ _ h => tidy_execPowerReserve h)

theorem movesTidy_teamMoves (e : Nat × Team) : MovesTidy (teamMoves e) :=
  movesTidy_append (movesTidy_cons (fun _ h => tidy_execAlternateRollback h) <| movesTidy_cons (fun _ h => tidy_preemptMove h) <|
      movesTidy_cons (fun _ h => tidy_execSeatRelease h) movesTidy_nil)
    (movesTidy_map (fun _ _ h => tidy_execCycleLimitExpiry h))

theorem State.movesTidy_hostMoves (s : State) : MovesTidy s.hostMoves := by
  refine movesTidy_append (movesTidy_append (movesTidy_append (movesTidy_append (movesTidy_append ?packets ?edges) ?points) ?admits) ?saved)
    ?retire
  case packets => exact movesTidy_map (fun _ _ h => tidy_packetMove h)
  case edges => exact movesTidy_flatMap (fun _ => movesTidy_map (fun _ _ h => tidy_execGraphEdgeSatisfy h))
  case points => exact movesTidy_map (fun _ _ h => tidy_execQuiescePoint h)
  case admits => exact movesTidy_cons (fun _ h => tidy_admitMove h) <| movesTidy_cons (fun _ h => ⟨State.tidy_unitFails h⟩) movesTidy_nil
  case saved => exact movesTidy_map (fun _ _ h => tidy_restoreMove h)
  case retire =>
    exact movesTidy_flatMap (fun _ => movesTidy_cons (fun _ h => tidy_execRetireApply h) <|
      movesTidy_cons (fun _ h => tidy_execRetireTimeout h) movesTidy_nil)

theorem State.movesTidy_memoryMoves (s : State) : MovesTidy s.memoryMoves := by
  refine movesTidy_append (movesTidy_append ?home ?watches) ?strand
  case home =>
    exact movesTidy_cons (fun _ h => tidy_execHomeStoreTest h) <| movesTidy_cons (fun _ h => tidy_execStoreAcknowledgement h) <|
      movesTidy_cons (fun _ h => tidy_eccMove h) movesTidy_nil
  case watches => exact movesTidy_flatMap (fun _ => movesTidy_map (fun _ _ h => tidy_execWatchTriggerDeliver h))
  case strand => exact movesTidy_flatMap (fun _ => movesTidy_map (fun _ _ h => tidy_execRejoinLineWritten h))

theorem State.movesTidy_tickMoves (s : State) : MovesTidy s.tickMoves :=
  movesTidy_append (movesTidy_cons (fun _ h => tidy_execDeadlockWalk h) movesTidy_nil)
    (movesTidy_map (fun _ _ h => tidy_execStrandedFlushRetry h))

theorem State.movesTidy_pickMoves (s : State) : MovesTidy s.pickMoves := by
  unfold State.pickMoves
  exact movesTidy_append (movesTidy_map (fun c _ h => tidy_laneMove (c := c) h)) (movesTidy_map (fun q _ h => tidy_scalarMove (q := q) h))

theorem State.movesTidy_moves (s : State) : MovesTidy s.moves :=
  movesTidy_append (movesTidy_append (movesTidy_append (movesTidy_append (movesTidy_append s.movesTidy_memoryMoves
    (movesTidy_flatMap movesTidy_groupMoves)) (movesTidy_flatMap movesTidy_teamMoves)) (movesTidy_flatMap movesTidy_coreMoves))
    s.movesTidy_hostMoves) s.movesTidy_pickMoves

theorem State.tidy_ownMove {ms : Bool} (h : s.tidy = true) : Res.Tidy (s.ownMove ms) := by
  have hticks : MovesTidy (if ms then s.tickMoves else []) := by
    split
    · exact s.movesTidy_tickMoves
    · exact movesTidy_nil
  have hall := tidy_allMoves h hticks
  unfold State.ownMove
  split
  · rename_i e
    split
    · exact tidy_firstMove h (movesTidy_rotate s.movesTidy_moves)
    · exact ⟨Res.tidy_next e hall⟩
  · exact hall

theorem State.tidy_act {a : Action} (h : s.tidy = true) : Res.Tidy (s.act a) := by
  unfold State.act
  split
  · exact State.tidy_issueScalar h
  · exact State.tidy_issueLane h
  · exact tidy_exec h

theorem State.tidy_stepNow (h : s.tidy = true) : Res.Tidy (s.stepNow) := by
  unfold State.stepNow
  dsimp only
  split
  · exact State.tidy_act (State.tidy_mk (State.tidy_mk (State.tidy_mk h)))
  · exact State.tidy_ownMove (State.tidy_mk (State.tidy_mk h))

/-! ### Operations of Machine/Step -/

theorem tidy_step (h : s.tidy = true) : Res.Tidy (step s) := State.tidy_stepNow h

end

/-- Settles O10: every operation keeps the canonical form (`tidy_step`). -/
theorem stepKeepsMemory : Obligations.StepKeepsMemory := by
  unfold Obligations.StepKeepsMemory
  exact fun s t h e => Res.tidy_next e (tidy_step h)

end Sys2Proof.Machine
end

section
/-! SUPPORT. Settles the software traps, the privileged instructions and the system instructions (R415, R427 to R438, R449). -/

namespace Sys2Proof.Machine

open Sys2Proof

/-! ### The scalar outcomes of the system instructions -/

/-- The trap number of `trap` as a sum of numbers (R427). -/
theorem trapNumber_eq (n : BitVec 7) : (0x80 : BitVec 8) + n.zeroExtend 8 = BitVec.ofNat 8 (128 + n.toNat) := by
  apply BitVec.eq_of_toNat_eq
  simp [BitVec.toNat_add]

theorem zeroExtend_eq_ofNat {w : Nat} (v : Nat) (n : BitVec w) : n.zeroExtend v = BitVec.ofNat v n.toNat := by
  apply BitVec.eq_of_toNat_eq
  simp

/-- Settles O38: each software trap is taken after its instruction, and `rti` at trap class is the return. -/
theorem softwareTraps : Obligations.SoftwareTraps := by
  unfold Obligations.SoftwareTraps
  intro s g n m hg
  refine ⟨?trap, ?brk, doneWith_ends hg _, fun ht => withClass_runs hg false _ ht (by simp)⟩
  case trap =>
    rw [← trapNumber_eq, ← zeroExtend_eq_ofNat]
    exact raiseNext_next hg _ _
  case brk =>
    rw [← zeroExtend_eq_ofNat]
    exact raiseNext_next hg _ _

/-- Settles O39: every privileged instruction stands behind the class check, with the SYS bit asked for where R415 says so. -/
theorem privilege : Obligations.Privilege := by
  unfold Obligations.Privilege
  intro s g d a b hg
  refine ⟨fun ht => ?anyClass, fun hn => ?sys⟩
  case anyClass =>
    exact ⟨withClass_traps hg false _ (.inl ht), withClass_traps hg false _ (.inl ht), withClass_traps hg false _ (.inl ht),
      withClass_traps hg false _ (.inl ht)⟩
  case sys =>
    have hn' : g.tclass = false ∨ (true = true ∧ (s.ctxOf g).sys = false) := hn.imp_right (⟨rfl, ·⟩)
    exact ⟨withClass_traps hg true _ hn', withClass_traps hg true _ hn', withClass_traps hg true _ hn',
      withClass_traps hg true _ hn'⟩

/-! ### The system instructions (R430 to R435) -/

theorem exec_capq {s : State} {g : Group} (hg : s.grp = some g) (d a : XReg) :
    exec (.capq d a) s = ends s (g.setPair d (s.capAnswer ((g.x a).toNat % 65536) ((g.x a).toNat / 65536 % 65536)).1
      (s.capAnswer ((g.x a).toNat % 65536) ((g.x a).toNat / 65536 % 65536)).2) := by
  have h0 : field (g.x a).toNat 0 16 = (g.x a).toNat % 65536 := by simp [field]
  have h1 : field (g.x a).toNat 16 16 = (g.x a).toNat / 65536 % 65536 := rfl
  rw [← h0, ← h1]
  exact withG_some hg _

theorem exec_prgn {s s1 : State} {g g2 : Group} (hg : s.grp = some g) (d a : XReg) {pa : Nat} {mt : Bool}
    (htr : s.translate (coreOf s.cur) (s.ctxId g) (g.x a) .read g.tclass = .ok s1 pa mt) (hg2 : s1.grp = some g2) :
    exec (.prgn d a) s = ends s1 (g2.setX d (match poolOf pa with | some r => s1.regionWord r | none => 0)) := by
  show execPrgn d a s = _
  rw [execPrgn, withG_some hg]
  simp only [htr]
  exact doneWith_ends hg2 _

theorem exec_chkmode {s : State} {g : Group} (hg : s.grp = some g) (a : XReg) (ht : g.tclass = true) (hm : (g.x a).toNat ≤ 2)
    (hb : g.laneBusy = false) :
    exec (.chkmode a) s = ends (s.setCtx g (fun c => { c with chk := (g.x a).truncate 2 })) g := by
  refine (withClass_runs hg false _ ht (by simp)).trans ?_
  simp only [Nat.not_lt.mpr hm, hb, Bool.false_eq_true, if_false]
  rfl

section Clkmode
variable {s : State} {g : Group} (hg : s.grp = some g) (d a : XReg) (ht : g.tclass = true) (hs : (s.ctxOf g).sys = true)
  (hm : (g.x a).toNat ≤ 2)
include hg ht hs hm

/-- Under reduced service nothing is applied (R479). -/
theorem exec_clkmode_reduced (hr : s.reduced = true) : exec (.clkmode d a) s = ends s (g.setX d 2) := by
  refine (withClass_runs hg true _ ht (fun _ => hs)).trans ?_
  simp only [Nat.not_lt.mpr hm, hr, if_false, if_true]
  rfl

/-- Outside a droop, or for the half ratio, the ratio changes at once (R434). -/
theorem exec_clkmode_applies (hr : s.reduced = false) (hd : (s.core (coreOf s.cur)).droop = false ∨ (g.x a).toNat = 2) :
    exec (.clkmode d a) s = ends (s.setCore (coreOf s.cur) { (s.settleAllow (coreOf s.cur)).core (coreOf s.cur) with
      ratio := ratioOf (g.x a).toNat, recd := none, chgClk := some (s.tsc + 1000) }) (g.setX d (BitVec.ofNat 64 (g.x a).toNat)) := by
  refine (withClass_runs hg true _ ht (fun _ => hs)).trans ?_
  have hno : ((s.core (coreOf s.cur)).droop && decide ((g.x a).toNat ≠ 2)) = false := by
    rcases hd with h | h <;> simp [h]
  simp only [Nat.not_lt.mpr hm, hr, hno, Bool.false_eq_true, if_false]
  rfl

end Clkmode

theorem exec_retire {s : State} {g : Group} (hg : s.grp = some g) (d a : XReg) (ht : g.tclass = true)
    (hs : (s.ctxOf g).sys = true) {p : Part} (hp : parsePart (g.x a) = some p) :
    exec (.retire d a) s = ends (s.requestRetire p).1 (g.setX d (if (s.requestRetire p).2 then 1 else 0)) := by
  refine (withClass_runs hg true _ ht (fun _ => hs)).trans ?_
  simp only [hp]
  rfl

/-- An `hcall` whose reply has come acquires at sys scope and takes the reply (R432). -/
theorem exec_hcall_reply {s : State} {g g2 : Group} (hg : s.grp = some g) (n : BitVec 13) {id x y : DWord}
    (hid : g.hcid = some id) (hrep : g.hrep = some (x, y)) (hg2 : (s.acquire s.cur 4).grp = some g2) :
    exec (.hcall n) s = ends (s.acquire s.cur 4) { (g2.setX 1 x).setX 2 y with hcid := none, hrep := none } := by
  show execHcall n s = _
  rw [execHcall, withG_some hg]
  simp only [hid, hrep]
  exact doneWith_ends hg2 _

/-- An `hcall` with no request posted posts one after its release (R432). -/
theorem exec_hcall_posts {s : State} {g : Group} (hg : s.grp = some g) (n : BitVec 13) (hid : g.hcid = none)
    (hrel : s.releasable g 4) :
    exec (.hcall n) s = postHcall ((s.releasedAt 4).acquire (s.releasedAt 4).cur 4) n := by
  show execHcall n s = _
  rw [execHcall, withG_some hg]
  simp only [hid]
  exact withRelease_runs s g 4 _ hrel

/-- Settles O42, instruction by instruction; an `hcall` posts from the state that its release and acquire leave. -/
theorem systemInstructions : Obligations.SystemInstructions := by
  unfold Obligations.SystemInstructions
  refine ⟨fun s g g2 d a n hg => ⟨exec_capq hg d a, fun s1 pa mt htr hg2 => exec_prgn hg d a htr hg2,
    fun ht => withClass_runs hg false _ ht (by simp), fun ht hm hb => exec_chkmode hg a ht hm hb, fun ht hs => ⟨?clkReduced, ?clkApplies, ?retire⟩,
    fun id x y hid hrep hg2 => exec_hcall_reply hg n hid hrep hg2⟩, ?post⟩
  case clkReduced => exact fun hm hr => exec_clkmode_reduced hg d a ht hs hm hr
  case clkApplies => exact fun hm hr hd => exec_clkmode_applies hg d a ht hs hm hr hd
  case retire => exact fun p hp => exec_retire hg d a ht hs hp
  case post =>
    intro s g g2 n hg hid hrel s1 hg2
    exact (exec_hcall_posts hg n hid hrel).trans (withG_some hg2 _)

/-! ### The context instructions (R436 to R438) -/

section Contexts
variable {s : State} {g : Group} (hg : s.grp = some g) (d a b : XReg) (ht : g.tclass = true)
include hg ht

/-- A `ctxsv` whose images are written awaits their performance (R436). -/
theorem exec_ctxsv_performing (hs : (s.ctxOf g).sys = true) (hrel : g.relW = true) : exec (.ctxsv d a b) s = endSave s g := by
  refine (withClass_runs hg true _ ht (fun _ => hs)).trans ?_
  simp only [hrel, if_true]

/-- A `ctxsv` that may save its team writes the images once the team is pre-empted and they find room (R436). -/
theorem exec_ctxsv_writes (hs : (s.ctxOf g).sys = true) (hrel : g.relW = false) {tm : Team} {s1 : State}
    (hx : (g.x a).toNat < 4096) (ht1 : find s.teams (16 * ((g.x a).toNat % 256) + (g.x a).toNat / 256 % 16) = some tm)
    (hseat : 16 * ((g.x a).toNat % 256) + (g.x a).toNat / 256 % 16 ≠ g.seat) (hinst : tm.inst ≠ (s.teamOf g).inst)
    (hcan : canonA (g.x b) = true) (hal : (g.x b).toNat % 4096 = 0)
    (hpre : (s.claimSave s.cur (16 * ((g.x a).toNat % 256) + (g.x a).toNat / 256 % 16)).preemptTeam
      (16 * ((g.x a).toNat % 256) + (g.x a).toNat / 256 % 16) = (s1, true))
    (hfit : s1.imagesFit s.cur (g.x b) = true) : exec (.ctxsv d a b) s = writeSave d (g.x b) s1 := by
  refine (withClass_runs hg true _ ht (fun _ => hs)).trans ?_
  have hpage : (g.x a).toNat / 4096 = 0 := Nat.div_eq_of_lt hx
  simp [hrel, hpage, ht1, hseat, hinst, hcan, hal, hpre, hfit]

/-- A `ctxld` reads the first header and then the images (R437). -/
theorem exec_ctxld_reads (hs : (s.ctxOf g).sys = true) {s1 : State} {h : List DWord} {p : Bool}
    (hread : s.readDw s.cur g (g.x a) 8 false 32 = .ok s1 h p) (hclear : s.parkedHit s.cur (g.x a) 256 = false) :
    exec (.ctxld d a b) s = (match s1.loadImages s1.cur g (g.x a) h with
      | .bad => raise s1 0x21 0 0
      | .read (.trap s num va i) => raise s num va i
      | .read _ => .next s1
      | .ok s p l =>
        if !(s.rectFits l (g.x b)) then raise s 0x21 0 0
        else match s.loadCore l (g.x b) with
          | none => .next s
          | some (s, t) =>
            doneWith (s.consumeIf s.cur p) (fun g => g.setX d (BitVec.ofNat 64 (teamCore t + t % 16 * 256)))) :=
  (withClass_runs hg true _ ht (fun _ => hs)).trans (withRead_reads hg hread hclear _)

/-- A `tlbflush` of an accepted selector flushes after its release and acquire (R438). -/
theorem exec_tlbflush (h3 : (g.x b).toNat % 4 ≠ 3) (h14 : (g.x b).toNat / 4 % 2 ^ 14 = 0) (h32 : (g.x b).toNat < 2 ^ 32)
    (hcan : (g.x b).toNat % 4 = 0 → canonA (g.x a) = true) (hrel : s.releasable g 3) :
    exec (.tlbflush a b) s = doneWith (((s.releasedAt 3).acquire (s.releasedAt 3).cur 3).flushTlb ((g.x b).toNat % 4)
      ((g.x b).toNat / 65536 % 65536) (g.x a).toNat) (fun g => g) := by
  refine (withClass_runs hg false _ ht (by simp)).trans ?_
  have hno : (decide ((g.x b).toNat % 4 = 3) || decide ((g.x b).toNat / 4 % 2 ^ 14 ≠ 0) || decide ((g.x b).toNat / 2 ^ 32 ≠ 0)
      || (decide ((g.x b).toNat % 4 = 0) && !canonA (g.x a))) = false := by
    simp only [h3, h14, Nat.div_eq_of_lt h32, Bool.or_eq_false_iff]
    by_cases h0 : (g.x b).toNat % 4 = 0
    · simp [hcan h0]
    · simp [h0]
  simp only [hno, Bool.false_eq_true, if_false]
  exact withRelease_runs s g 3 _ hrel

end Contexts

/-- Settles O43: the save once its team is pre-empted and its end, the load of the images of a save, and the flush. -/
theorem contextInstructions : Obligations.ContextInstructions := by
  unfold Obligations.ContextInstructions
  intro s g g2 d a b hg ht
  refine ⟨?writes, ?ends, ?loads, ?flush⟩
  case writes =>
    intro s1 s2 n tm hs hrel h t hx htm hseat hinst hcan hal hpre hfit inst v l hst s3 hg2
    rw [exec_ctxsv_writes hg d a b ht hs hrel hx htm hseat hinst hcan hal hpre hfit, writeSave]
    dsimp only
    rw [hst]
    exact withG_some hg2 _
  case ends =>
    intro hs hrel
    rw [exec_ctxsv_performing hg d a b ht hs hrel, endSave]
    exact ⟨fun hf => if_pos hf, fun hf => if_neg (by rw [hf]; simp)⟩
  case loads =>
    intro s1 h p hs hread hclear
    rw [exec_ctxld_reads hg d a b ht hs hread hclear]
    refine ⟨fun hbad => by rw [hbad], fun l s2 s3 q t hl => ?_⟩
    rw [hl]
    refine ⟨fun hfit => by simp [hfit], fun hfit hload hg2 => ?_⟩
    simp only [hfit, hload, Bool.not_true, Bool.false_eq_true, if_false]
    exact doneWith_ends hg2 _
  case flush =>
    intro m h3 h14 h32 hcan hrel t hg2
    exact (exec_tlbflush hg a b ht h3 h14 h32 hcan hrel).trans (doneWith_ends hg2 _)

end Sys2Proof.Machine
end

section
/-! SUPPORT. Settles the named queues, naps, barriers, tasks and watches (R341 to R344, R353 to R356, R359 to R361, R365 to R367). -/

namespace Sys2Proof.Machine

open Sys2Proof

/-! ### Named queues (R356, R366) -/

section Queues
variable {s : State} {g : Group} (hg : s.grp = some g) {q : BitVec 5}
include hg

theorem withNq_bound {x : NQueue} (hx : find (s.teamOf g).nqs q.toNat = some x) (f : Group → NQueue → Res) : withNq s q f = f g x := by
  rw [withNq, withG_some hg]
  simp only [hx]

theorem withNq_unbound (hx : find (s.teamOf g).nqs q.toNat = none) (f : Group → NQueue → Res) :
    withNq s q f = raise s 0x1c 0 (q.zeroExtend 64) := by
  rw [withNq, withG_some hg]
  simp only [hx]

/-- A `qinit` of a depth in range binds a queue that is free while the core has one. -/
theorem exec_qinit_binds (b : XReg) (h1 : 1 ≤ (g.x b).toNat) (h16 : (g.x b).toNat ≤ 16) (hfree : find (s.teamOf g).nqs q.toNat = none)
    (hroom : s.nqsUsed (coreOf s.cur) < 32) :
    exec (.qinit q b) s
      = ends (s.setTeam g.seat { s.teamOf g with nqs := put (s.teamOf g).nqs q.toNat { depth := (g.x b).toNat } }) g := by
  show execQinit q b s = _
  rw [execQinit, withG_some hg]
  have hn : (g.x b).toNat ≠ 0 := by omega
  simp only [hfree, hn, Nat.not_lt.mpr h16, Nat.not_le.mpr hroom, decide_false, Bool.or_false, Bool.and_false,
    Bool.false_eq_true, if_false]
  rfl

/-- A `qpush` in its turn, with room in the queue, appends after its release at team scope. -/
theorem exec_qpush_appends (b : XReg) {x y : NQueue} {g1 g2 : Group} (hx : find (s.teamOf g).nqs q.toNat = some x)
    (hroom : x.entries.length < x.depth) (hturn : x.pushers = [] ∨ x.pushers.head? = some s.cur) (hrel : s.releasable g 1)
    (hg1 : (s.releasedAt 1).grp = some g1) (hy : find ((s.releasedAt 1).teamOf g1).nqs q.toNat = some y)
    (hg2 : ((s.releasedAt 1).pushEntry g1 q { y with pushers := y.pushers.filter (fun h => h ≠ (s.releasedAt 1).cur) }
      (g1.x b, g1.vv)).grp = some g2) :
    exec (.qpush q b) s = ends ((s.releasedAt 1).pushEntry g1 q
      { y with pushers := y.pushers.filter (fun h => h ≠ (s.releasedAt 1).cur) } (g1.x b, g1.vv)) g2 := by
  refine (withNq_bound hg hx _).trans ?_
  have hgo : (decide (x.entries.length < x.depth) && (match x.pushers with | [] => true | h :: _ => decide (h = s.cur))) = true := by
    rw [decide_eq_true hroom, Bool.true_and]
    cases hp : x.pushers with
    | nil => rfl
    | cons h r => simpa [hp] using hturn
  refine (if_pos hgo).trans ?_
  rw [withRelease_runs s g 1 _ hrel, withG_some hg1]
  simp only [hy]
  exact doneWith_ends hg2 _

theorem exec_qpop_takes (d : XReg) {x : NQueue} {g2 : Group} (hx : find (s.teamOf g).nqs q.toNat = some x) {p : DWord} {v : VVec}
    {r : List (DWord × VVec)} (he : x.entries = (p, v) :: r) (hh : g.handedFrom q = none)
    (hg2 : ((s.setNq g q { x with entries := r }).tookEntry s.cur v).grp = some g2) :
    exec (.qpop d q) s = ends ((s.setNq g q { x with entries := r }).tookEntry s.cur v) (g2.setX d p) := by
  refine (withNq_bound hg hx _).trans ?_
  simp only [hh, he]
  exact doneWith_ends hg2 _

/-- A `qpop` takes the entry that a push handed to its group. -/
theorem exec_qpop_handed (d : XReg) {x : NQueue} {g2 : Group} (hx : find (s.teamOf g).nqs q.toNat = some x) {p : DWord} {v : VVec}
    (hh : g.handedFrom q = some (p, v)) (hg2 : (s.tookEntry s.cur v).grp = some g2) :
    exec (.qpop d q) s = ends (s.tookEntry s.cur v) ({ g2 with handed := none }.setX d p) := by
  refine (withNq_bound hg hx _).trans ?_
  simp only [hh]
  exact doneWith_ends hg2 _

theorem exec_qtry_takes (d : XReg) {x : NQueue} {g2 : Group} (hx : find (s.teamOf g).nqs q.toNat = some x) {p : DWord} {v : VVec}
    {r : List (DWord × VVec)} (he : x.entries = (p, v) :: r)
    (hg2 : ((s.setNq g q { x with entries := r }).tookEntry s.cur v).grp = some g2) :
    exec (.qtry d q) s = ends ((s.setNq g q { x with entries := r }).tookEntry s.cur v) (g2.setPair d p 1) := by
  refine (withNq_bound hg hx _).trans ?_
  simp only [he]
  exact doneWith_ends hg2 _

theorem exec_qtry_empty (d : XReg) {x : NQueue} (hx : find (s.teamOf g).nqs q.toNat = some x) (he : x.entries = []) :
    exec (.qtry d q) s = ends s (g.setPair d 0 0) := by
  refine (withNq_bound hg hx _).trans ?_
  simp only [he]
  rfl

/-! ### Naps (R367) -/

theorem exec_nap_zero (b : XReg) (hn : g.nap = none) (h0 : (g.x b).toNat % 2 ^ 32 = 0) :
    exec (.nap b) s = ends s { g with age := s.tsc.toNat, runS := 0 } := by
  show execNap b s = _
  rw [execNap, withG_some hg]
  show _ = done s (g.yielded s.tsc)
  simp only [hn, h0, if_true]

theorem exec_nap_passed (b : XReg) {u : DWord} (hn : g.nap = some u) (hu : u.toNat ≤ s.tsc.toNat) :
    exec (.nap b) s = ends s { g with nap := none } := by
  show execNap b s = _
  rw [execNap, withG_some hg]
  simp only [hn, hu, if_true]
  rfl

end Queues

/-- Settles O36: the bound queue by the instruction and what stands in it, then the unbound queue, the naps and `yield`. -/
theorem queuesNaps : Obligations.QueuesNaps := by
  unfold Obligations.QueuesNaps
  intro s g g2 q d b hg
  refine ⟨fun h1 h16 hfree hroom => exec_qinit_binds hg b h1 h16 hfree hroom, fun x hx => ⟨?push, ?take, ?handed, ?none⟩, ?unbound,
    fun hn h0 => exec_nap_zero hg b hn h0, fun u hn hu => exec_nap_passed hg b hn hu, withG_some hg _⟩
  case push => exact fun g1 y hroom hturn hrel hg1 hy hg2 => exec_qpush_appends hg b hx hroom hturn hrel hg1 hy hg2
  case take => exact fun p v r he hg2 => ⟨fun hh => exec_qpop_takes hg d hx he hh hg2, exec_qtry_takes hg d hx he hg2⟩
  case handed => exact fun p v hh hg2 => exec_qpop_handed hg d hx hh hg2
  case none => exact fun he => exec_qtry_empty hg d hx he
  case unbound => exact fun hx => ⟨withNq_unbound hg hx _, withNq_unbound hg hx _, withNq_unbound hg hx _⟩

/-! ### Barriers (R353 to R355, R365) -/

/-- Of two phases at most one comes after the other. -/
theorem after32_asymm {a b : BitVec 32} (h : after32 a b = true) : after32 b a = false := by
  rw [← Bool.not_eq_true, after32_iff]
  rw [after32_iff] at h
  rw [BitVec.toInt_sub] at h ⊢
  rw [Int.bmod_def] at h ⊢
  omega

section Barriers
variable {s : State} {g : Group} (hg : s.grp = some g) {n : BitVec 6}
include hg

theorem withBar_bound {x : Barrier} (hx : find (s.teamOf g).bars n.toNat = some x) (f : Group → Barrier → Res) :
    withBar s n f = f g x := by
  rw [withBar, withG_some hg]
  simp only [hx]

theorem withBar_unbound (hx : find (s.teamOf g).bars n.toNat = none) (f : Group → Barrier → Res) :
    withBar s n f = raise s 0x1c 0 (n.zeroExtend 64) := by
  rw [withBar, withG_some hg]
  simp only [hx]

/-- A `barinit` of a count in range binds a barrier that is free while the core has one. -/
theorem exec_barinit_free (b : XReg) (h1 : 1 ≤ (g.x b).toNat) (hmax : (g.x b).toNat ≤ 65535)
    (hfree : find (s.teamOf g).bars n.toNat = none) (hroom : s.barsUsed (coreOf s.cur) < 64) :
    exec (.barinit n b) s
      = ends (s.setTeam g.seat { s.teamOf g with bars := put (s.teamOf g).bars n.toNat { count := (g.x b).toNat } }) g := by
  show execBarinit n b s = _
  rw [execBarinit, withG_some hg]
  have hn : (g.x b).toNat ≠ 0 := by omega
  simp only [hfree, hn, Nat.not_lt.mpr hmax, Nat.not_le.mpr hroom, decide_false, Bool.or_false, Bool.and_false,
    Bool.false_eq_true, if_false]
  rfl

/-- A `barinit` of a bound barrier that nobody has arrived at or waits on binds it again. -/
theorem exec_barinit_bound (b : XReg) {x : Barrier} (h1 : 1 ≤ (g.x b).toNat) (hmax : (g.x b).toNat ≤ 65535)
    (hx : find (s.teamOf g).bars n.toNat = some x) (harr : x.arrd = 0) (hwait : x.wait = []) :
    exec (.barinit n b) s
      = ends (s.setTeam g.seat { s.teamOf g with bars := put (s.teamOf g).bars n.toNat { count := (g.x b).toNat } }) g := by
  show execBarinit n b s = _
  rw [execBarinit, withG_some hg]
  have hn : (g.x b).toNat ≠ 0 := by omega
  simp only [hx, hn, harr, hwait, Nat.not_lt.mpr hmax, Nat.lt_irrefl, List.isEmpty_nil, Option.isNone_some, Bool.not_true, decide_false,
    Bool.or_false, Bool.false_and, Bool.false_eq_true, if_false]
  rfl

theorem exec_bararr (d : XReg) {x : Barrier} {g2 : Group} (hx : find (s.teamOf g).bars n.toNat = some x) (hrel : s.releasable g 1)
    (hg2 : ((s.releasedAt 1).arrive (s.releasedAt 1).cur n.toNat x).grp = some g2) :
    exec (.bararr d n) s = ends ((s.releasedAt 1).arrive (s.releasedAt 1).cur n.toNat x) (g2.setX d (x.phase.zeroExtend 64)) :=
  (withBar_bound hg hx _).trans ((withRelease_runs s g 1 _ hrel).trans (doneWith_ends hg2 _))

omit hg in
/-- A wait for a phase that the barrier has passed ends. -/
theorem barWait_passed {k : Nat} {p : BitVec 32} {x : Barrier} {g2 : Group} (h : after32 x.phase p = true)
    (hg2 : (s.endBarWait s.cur k p).grp = some g2) : barWait s g k p x = ends (s.endBarWait s.cur k p) { g2 with arr := none } := by
  rw [barWait, if_pos h]
  exact doneWith_ends hg2 _

theorem exec_barwait_passed (b : XReg) {x : Barrier} {g2 : Group} (hx : find (s.teamOf g).bars n.toNat = some x)
    (h : after32 x.phase ((g.x b).truncate 32) = true) (hg2 : (s.endBarWait s.cur n.toNat ((g.x b).truncate 32)).grp = some g2) :
    exec (.barwait n b) s = ends (s.endBarWait s.cur n.toNat ((g.x b).truncate 32)) { g2 with arr := none } := by
  refine (withBar_bound hg hx _).trans ?_
  have hno : after32 ((g.x b).truncate 32) x.phase = false := after32_asymm h
  simp only [hno, Bool.false_eq_true, if_false]
  exact barWait_passed h hg2

/-- A `barsync` whose arrival is recorded goes on as a wait. -/
theorem exec_barsync_passed {x : Barrier} {g2 : Group} {p : BitVec 32} (hx : find (s.teamOf g).bars n.toNat = some x)
    (harr : g.arr = some (.bar n.toNat p)) (h : after32 x.phase p = true) (hg2 : (s.endBarWait s.cur n.toNat p).grp = some g2) :
    exec (.barsync n) s = ends (s.endBarWait s.cur n.toNat p) { g2 with arr := none } := by
  refine (withBar_bound hg hx _).trans ?_
  simp only [harr, if_true]
  exact barWait_passed h hg2

/-- A `cbar` whose phase has passed acquires and takes the vector that the phase merged. -/
theorem exec_cbar_passed {c : BitVec 3} {ph : Nat} {x : CBar} {g2 : Group} (harr : g.arr = some (.cbar c.toNat ph))
    (hx : (find (s.closeCbar (s.teamOf g).inst c.toNat).insts (s.teamOf g).inst).bind (fun i => find i.cbars c.toNat) = some x)
    (hph : ph < x.phase) {s3 : State}
    (hs3 : s3 = match x.last with
      | some v => ((s.closeCbar (s.teamOf g).inst c.toNat).acquire (s.closeCbar (s.teamOf g).inst c.toNat).cur 2).mergeVec
        ((s.closeCbar (s.teamOf g).inst c.toNat).acquire (s.closeCbar (s.teamOf g).inst c.toNat).cur 2).cur v
      | none => (s.closeCbar (s.teamOf g).inst c.toNat).acquire (s.closeCbar (s.teamOf g).inst c.toNat).cur 2)
    (hg2 : s3.grp = some g2) : exec (.cbar c) s = ends s3 { g2 with arr := none } := by
  show execCbar c s = _
  rw [execCbar, withG_some hg]
  simp only [harr, if_true]
  rw [cbarWait]
  simp only [hx, hph, if_true]
  subst hs3
  exact doneWith_ends hg2 _

end Barriers

/-! ### Arrivals (R353, R354) -/

/-- Raising the floor leaves the teams. -/
theorem State.raiseFloor_teams (s : State) (ctx launch : Nat) (t : BitVec 40) (ms : List Nat) : (s.raiseFloor ctx launch t ms).teams = s.teams := by
  unfold State.raiseFloor
  split
  · rfl
  · exact List.foldlRecOn (motive := fun (u : State) => u.teams = s.teams) _ _ rfl (fun u hu k _ => hu)

/-- A floor that may be raised leaves the teams. -/
theorem State.teamOf_mayRaiseFloor (s : State) (p : Prop) [Decidable p] (ctx launch : Nat) (t : BitVec 40) (ms : List Nat) (g : Group) :
    (if p then s.raiseFloor ctx launch t ms else s).teamOf g = s.teamOf g := by
  split
  · rw [State.teamOf, State.raiseFloor_teams]
    rfl
  · rfl

theorem State.teamOf_setTeam_same (s : State) (g : Group) (t : Team) : (s.setTeam g.seat t).teamOf g = t := by
  simp [State.teamOf, State.setTeam, find_put]

/-- The barrier that an arrival of a group with the given vector leaves, with its members and its earliest time (R353, R354). -/
def Barrier.arrived (x : Barrier) (v : VVec) (ms : List Nat) (tm : BitVec 40) : Barrier :=
  if x.arrd + 1 < x.count then { x with arrd := x.arrd + 1, mrg := some (vvMerge (x.mrg.getD {}) v), tmin := tm, members := ms }
  else { x with arrd := 0, mrg := none, phase := x.phase + 1, held := ((x.phase, vvMerge (x.mrg.getD {}) v) :: x.held).take 4
                members := [], tmin := 0 }

/-- An arrival writes the arrived barrier into the group's team. -/
theorem State.arrive_bars {s : State} {k : Nat} {g : Group} (hk : find s.groups k = some g) (n : Nat) (x : Barrier) :
    ∃ ms tm, find ((s.arrive k n x).teamOf g).bars n = some (x.arrived g.vv ms tm) := by
  refine ⟨if x.members.contains k then x.members else k :: x.members, if x.arrd = 0 then s.now else x.tmin, ?_⟩
  have hteam (t : Team) (y : Barrier) : find ((s.setTeam g.seat { t with bars := put t.bars n y }).teamOf g).bars n = some y := by
    rw [State.teamOf_setTeam_same]
    simp only [find_put, if_true]
  cases hm : x.mrg with
  | none | some v =>
    simp only [State.arrive, hk, hm, Barrier.arrived, Option.getD]
    by_cases hlast : x.arrd + 1 < x.count
    · simp only [hlast, if_true, hteam]
    · simp only [hlast, if_false, State.teamOf_mayRaiseFloor, hteam]

/-- Settles O35: the barrier instructions one by one, and the arrival from the barrier it leaves. -/
theorem barriers : Obligations.Barriers := by
  unfold Obligations.Barriers
  refine ⟨fun s g g2 n c d b hg => ⟨fun h1 hmax hfree hroom => exec_barinit_free hg b h1 hmax hfree hroom, fun x hx => ⟨?init, ?arr, ?wait, ?sync⟩,
    ?cbar, fun hx => ⟨withBar_unbound hg hx _, withBar_unbound hg hx _, withBar_unbound hg hx _⟩⟩, ?arrival⟩
  case init => exact fun h1 hmax harr hwait => exec_barinit_bound hg b h1 hmax hx harr hwait
  case arr => exact fun hrel hg2 => exec_bararr hg d hx hrel hg2
  case wait => exact fun h hg2 => exec_barwait_passed hg b hx h hg2
  case sync => exact fun p harr h hg2 => exec_barsync_passed hg hx harr h hg2
  case cbar => exact fun ph x harr hx hph hg2 => exec_cbar_passed hg harr hx hph rfl hg2
  case arrival =>
    intro s k n x g hk
    obtain ⟨ms, tm, hy⟩ := State.arrive_bars hk n x
    refine ⟨_, hy, ?_⟩
    unfold Barrier.arrived
    split
    · exact ⟨rfl, rfl, fun _ => ⟨rfl, rfl, rfl, rfl⟩, fun h => absurd h (by omega)⟩
    · exact ⟨rfl, rfl, fun h => absurd h (by omega), fun _ => ⟨rfl, rfl, rfl, rfl⟩⟩

end Sys2Proof.Machine
end

section
/-! SUPPORT. Settles the tasks and watches (R341 to R344, R359 to R361). -/

namespace Sys2Proof.Machine

open Sys2Proof

section Watches
variable {s : State} {g : Group}

/-- A `tspawn` of an aligned canonical entry hands its task to the gatherer after its release (R359). -/
theorem exec_tspawn_inserts (hg : s.grp = some g) (a b : XReg) {g1 g2 : Group} {s2 : State} (hal : (g.x a).toNat % 4 = 0)
    (hcan : ((g.x a).truncate 57).signExtend 64 = g.x a) (hrel : s.releasable g 1) (hg1 : (s.releasedAt 1).grp = some g1)
    (hins : (s.releasedAt 1).insertTask (coreOf (s.releasedAt 1).cur) g1.seat ((s.releasedAt 1).teamOf g1).gw (g.x a)
      { args := argWords g1 b, vec := g1.vv } = some s2) (hg2 : s2.grp = some g2) :
    exec (.tspawn a b) s = ends s2 g2 := by
  refine (withG_some hg _).trans ?_
  simp only [hal, hcan, ne_eq, not_true_eq_false, if_false]
  rw [withRelease_runs s g 1 _ hrel, withG_some hg1]
  simp only [hins]
  exact doneWith_ends hg2 _

/-- A `watch` on device memory finds no free entry at its home slice (R360). -/
theorem armWatch_full (d : XReg) {r : WatchRec} {t1 : State} {pa : Nat} {mt : Bool} {h1 : Group}
    (htr : s.translate (coreOf s.cur) (s.ctxId g) r.base .read g.tclass = .ok t1 pa mt) (hdev : isDevMem pa = true)
    (hfull : 64 ≤ freshFrom ((t1.slice (t1.homeSlice pa)).watches.map (·.1)) 64 0) (hh : (t1.readWatch r).grp = some h1) :
    armWatch s g d r = ends (t1.readWatch r) ({ h1 with wrec := none }.setX d 0) := by
  rw [armWatch]
  simp only [htr, hdev, hfull, Bool.not_true, Bool.false_eq_true, if_false, if_true]
  exact doneWith_ends hh _

/-- A `watch` whose range registers arms the first free entry of the home slice and answers its handle (R360). -/
theorem armWatch_arms (d : XReg) {r : WatchRec} {t1 t2 : State} {pa ent : Nat} {mt : Bool} {w : Watch} {h1 : Group}
    (htr : s.translate (coreOf s.cur) (s.ctxId g) r.base .read g.tclass = .ok t1 pa mt) (hdev : isDevMem pa = true)
    (hent : freshFrom ((t1.slice (t1.homeSlice pa)).watches.map (·.1)) 64 0 = ent) (hfree : ent < 64)
    (hclear : t1.engineClear t1.cur g = true)
    (hlock : t1.tryLock (coreOf t1.cur) [{ sp := false, ctx := t1.ctxId g, lo := r.base.toNat, hi := r.base.toNat + r.len
                                           write := true, owner := .watch (watchKey (t1.homeSlice pa) ent) }] = some t2)
    (hw : w = { core := coreOf t2.cur, team := g.seat, ctx := t2.ctxId g, lo := pa, len := r.len, va := r.base, entry := r.entry
                tag := r.tag, pers := r.pers, gen := nextGen (t1.slice (t1.homeSlice pa)).wgen, vec := g.vv })
    (hh : ((t2.setSlice (t1.homeSlice pa) { t2.slice (t1.homeSlice pa) with
      wgen := nextGen (t1.slice (t1.homeSlice pa)).wgen
      watches := put (t2.slice (t1.homeSlice pa)).watches ent w }).readWatch r).grp = some h1) :
    armWatch s g d r = ends ((t2.setSlice (t1.homeSlice pa) { t2.slice (t1.homeSlice pa) with
      wgen := nextGen (t1.slice (t1.homeSlice pa)).wgen
      watches := put (t2.slice (t1.homeSlice pa)).watches ent w }).readWatch r)
      ({ h1 with wrec := none }.setX d (watchHandle (t1.homeSlice pa) ent (nextGen (t1.slice (t1.homeSlice pa)).wgen))) := by
  subst hw
  rw [armWatch]
  simp only [htr, hdev, hent, Nat.not_le.mpr hfree, hclear, hlock, Bool.not_true, Bool.false_eq_true, if_false, if_true]
  exact doneWith_ends hh _

theorem exec_watch_kept (hg : s.grp = some g) (d a : XReg) {r : WatchRec} (hr : g.wrec = some r) :
    exec (.watch d a) s = armWatch s g d r := by
  refine (withG_some hg _).trans ?_
  simp only [hr]

/-- A `watch` that has no record yet reads one that keeps the rules. -/
theorem exec_watch_reads (hg : s.grp = some g) (d a : XReg) {s1 : State} {l : List DWord} {p : Bool} {r : WatchRec}
    (hr : g.wrec = none) (hread : s.readDw s.cur g (g.x a) 32 false 4 = .ok s1 l p)
    (hclear : s.parkedHit s.cur (g.x a) 32 = false) (hparse : Machine.parseWatch l = some r) :
    exec (.watch d a) s = armWatch s1 g d { r with pois := p, path := s1.pathAt s1.cur g (g.x a) } := by
  refine (withG_some hg _).trans ?_
  simp only [hr]
  refine (withRead_reads hg hread hclear _).trans ?_
  simp only [hparse]

/-- A live watch of the team is disarmed (R361). -/
theorem exec_unwatch_live (hg : s.grp = some g) (d a : XReg) {k ent : Nat} {w : Watch} {g2 : Group}
    (hk : dw (g.x a) 6 6 + 64 * dw (g.x a) 12 2 = k) (he : dw (g.x a) 0 6 = ent)
    (hw : find (s.slice k).watches ent = some w) (hgen : watchHandle k ent w.gen = g.x a) (hteam : w.team = g.seat)
    (harm : w.armed = true)
    (hg2 : ((s.setSlice k { s.slice k with watches := del (s.slice k).watches ent }).unlock w.core (.watch (watchKey k ent))).grp
      = some g2) :
    exec (.unwatch d a) s = ends ((s.setSlice k { s.slice k with watches := del (s.slice k).watches ent }).unlock w.core
      (.watch (watchKey k ent))) (g2.setX d 1) := by
  refine (withG_some hg _).trans ?_
  simp only [hk, he, hw, hgen, hteam, harm, decide_true, Bool.and_self, if_true]
  exact doneWith_ends hg2 _

theorem exec_unwatch_free (hg : s.grp = some g) (d a : XReg)
    (hw : find (s.slice (dw (g.x a) 6 6 + 64 * dw (g.x a) 12 2)).watches (dw (g.x a) 0 6) = none) :
    exec (.unwatch d a) s = ends s (g.setX d 0) := by
  refine (withG_some hg _).trans ?_
  simp only [hw]
  rfl

/-- A handle that names no live watch of the team has no effect (R361). -/
theorem exec_unwatch_other (hg : s.grp = some g) (d a : XReg) {w : Watch}
    (hw : find (s.slice (dw (g.x a) 6 6 + 64 * dw (g.x a) 12 2)).watches (dw (g.x a) 0 6) = some w)
    (hno : watchHandle (dw (g.x a) 6 6 + 64 * dw (g.x a) 12 2) (dw (g.x a) 0 6) w.gen ≠ g.x a ∨ w.team ≠ g.seat ∨ w.armed = false) :
    exec (.unwatch d a) s = ends s (g.setX d 0) := by
  refine (withG_some hg _).trans ?_
  simp only [hw]
  refine if_neg ?_
  rcases hno with h | h | h <;> simp [h]

/-- The handle of the first entry of slice 0 is 0 for the GEN 0 alone (R344). -/
theorem watchHandle_zero_ne {gen : BitVec 24} (h : gen ≠ 0) : watchHandle 0 0 gen ≠ 0 := by
  intro h0
  have hz : gen.toNat ≠ 0 := fun he => h (BitVec.eq_of_toNat_eq he)
  have hlt := gen.isLt
  have hn : (0 + 0 % 64 * 2 ^ 6 + 0 / 64 * 2 ^ 12 + gen.toNat * 2 ^ 16) % 2 ^ 64 = 0 := congrArg BitVec.toNat h0
  norm_num at hn
  omega

/-- The handle 0 names no watch (R344, R361). -/
theorem exec_unwatch_null (hg : s.grp = some g) (d a : XReg) (h0 : g.x a = 0)
    (hgen : ∀ w, find (s.slice 0).watches 0 = some w → w.gen ≠ 0) : exec (.unwatch d a) s = ends s (g.setX d 0) := by
  have hk : dw (g.x a) 6 6 + 64 * dw (g.x a) 12 2 = 0 := by rw [h0]; decide
  have he : dw (g.x a) 0 6 = 0 := by rw [h0]; decide
  cases hw : find (s.slice 0).watches 0 with
  | none => exact exec_unwatch_free hg d a (by rw [hk, he]; exact hw)
  | some w =>
    refine exec_unwatch_other hg d a (by rw [hk, he]; exact hw) (.inl ?_)
    rw [hk, he, h0]
    exact watchHandle_zero_ne (hgen w hw)

end Watches

/-- Settles O33: the spawn, the watch from the record that it kept or read, and the handles of `unwatch`. -/
theorem tasksWatches : Obligations.TasksWatches := by
  unfold Obligations.TasksWatches
  intro s g g2 a b d hg
  refine ⟨?spawn, ⟨?kept, ?read⟩, ⟨?live, ?free, ?other, ?null⟩⟩
  case spawn => exact fun g1 s2 hal hcan hrel hg1 hins hg2 => exec_tspawn_inserts hg a b hal hcan hrel hg1 hins hg2
  case kept =>
    intro r hr t1 pa mt htr hdev
    rw [exec_watch_kept hg d a hr]
    exact ⟨fun hfull h1 hh => armWatch_full d htr hdev hfull hh,
      fun t2 hfree hclear hlock h1 hh => armWatch_arms d htr hdev rfl hfree hclear hlock rfl hh⟩
  case read =>
    intro s1 l p r hr hread hpark hparse t1 pa mt htr hdev
    rw [exec_watch_reads hg d a hr hread hpark hparse]
    exact ⟨fun hfull h1 hh => armWatch_full d htr hdev hfull hh,
      fun t2 hfree hclear hlock h1 hh => armWatch_arms d htr hdev rfl hfree hclear hlock rfl hh⟩
  case live => exact fun w hw hgen hteam harm hg2 => exec_unwatch_live hg d a rfl rfl hw hgen hteam harm hg2
  case free => exact fun hw => exec_unwatch_free hg d a hw
  case other => exact fun w hw hno => exec_unwatch_other hg d a hw hno
  case null => exact fun h0 hgen => exec_unwatch_null hg d a h0 hgen

end Sys2Proof.Machine
end

section
/-! SUPPORT. Settles the entry into a trap's handler and the return from it (R405 to R413, R428). -/

namespace Sys2Proof.Machine

open Sys2Proof

/-! ### Captures leave everything but the teams (R376, R378) -/

namespace State

theorem TeamsOnly.refl (s : State) : TeamsOnly s s := ⟨_, rfl⟩

theorem TeamsOnly.trans {s t u : State} (h : TeamsOnly s t) (h' : TeamsOnly t u) : TeamsOnly s u := by
  obtain ⟨m, rfl⟩ := h
  obtain ⟨n, rfl⟩ := h'
  exact ⟨n, rfl⟩

theorem teamsOnly_recordFail (s : State) (t : Nat) (f : FailRec) : TeamsOnly s (s.recordFail t f) := by
  unfold recordFail
  split
  · exact ⟨_, rfl⟩
  · split <;> exact ⟨_, rfl⟩

theorem teamsOnly_failAlt (s : State) (t lv cause ftrap fgid : Nat) : TeamsOnly s (s.failAlt t lv cause ftrap fgid) := by
  refine List.foldlRecOn (motive := fun u => TeamsOnly s u) _ _ (teamsOnly_recordFail _ _ _) ?_
  exact fun u hu v _ => hu.trans (teamsOnly_recordFail _ _ _)

theorem teamsOnly_captureRegs {s t : State} {k : Nat} {g : Group} {l : List RegId} (h : s.captureRegs k g l = some t) :
    TeamsOnly s t := by
  induction l generalizing s with
  | nil =>
    cases h
    exact .refl _
  | cons r l ih =>
    rw [captureRegs] at h
    split at h
    · cases h
    · next hc => exact (teamsOnly_captureAt hc).trans (ih h)

theorem teamsOnly_captureTop (s : State) (k : Nat) (g : Group) : TeamsOnly s (s.captureTop k g) := by
  unfold captureTop
  split
  · next h => exact teamsOnly_captureRegs h
  · exact teamsOnly_failAlt _ _ _ _ _ _

theorem captureTop_groups (s : State) (k : Nat) (g : Group) : (s.captureTop k g).groups = s.groups := by
  obtain ⟨m, h⟩ := s.teamsOnly_captureTop k g
  rw [h]

end State

/-! ### The return (R428) -/

/-- x60 to x63 of a group that gets them back. -/
theorem Group.x_restoreX (g : Group) (a b c d : DWord) :
    (g.restoreX a b c d).x 60 = a ∧ (g.restoreX a b c d).x 61 = b ∧ (g.restoreX a b c d).x 62 = c ∧ (g.restoreX a b c d).x 63 = d
    ∧ ∀ r : XReg, r.toNat < 60 → (g.restoreX a b c d).x r = g.x r := by
  unfold Group.restoreX
  refine ⟨by simp [Group.x_setX], by simp [Group.x_setX], by simp [Group.x_setX], by simp [Group.x_setX], fun r hr => ?_⟩
  have hne (n : Nat) (hn : 60 ≤ n) (hn' : n < 64) : r ≠ BitVec.ofNat 6 n := by
    intro h
    rw [h, BitVec.toNat_ofNat, Nat.mod_eq_of_lt hn'] at hr
    omega
  rw [Group.x_setX, if_neg (fun h => hne 63 (by decide) (by decide) h.1), Group.x_setX,
    if_neg (fun h => hne 62 (by decide) (by decide) h.1), Group.x_setX, if_neg (fun h => hne 61 (by decide) (by decide) h.1),
    Group.x_setX, if_neg (fun h => hne 60 (by decide) (by decide) h.1)]

theorem Group.restoreX_laneQ (g : Group) (a b c d : DWord) : (g.restoreX a b c d).laneQ = g.laneQ := by
  simp [Group.restoreX]

/-- What a group resumes of an abandoned instruction is none of what its PC, class, registers and lane queue hold. -/
theorem Group.resume_frame (g : Group) (spc : DWord) :
    (g.resume spc).pc = g.pc ∧ (g.resume spc).tclass = g.tclass ∧ (g.resume spc).xs = g.xs ∧ (g.resume spc).laneQ = g.laneQ := by
  unfold Group.resume
  split
  · exact ⟨rfl, rfl, rfl, rfl⟩
  · split <;> exact ⟨rfl, rfl, rfl, rfl⟩

theorem Group.x_of_xs {g h : Group} (hx : h.xs = g.xs) (r : XReg) : h.x r = g.x r := by
  unfold Group.x
  rw [hx]

/-- The group that a return leaves (R428). -/
theorem Group.returned (g : Group) (a b c d spc : DWord) (skip : Bool) {h : Group}
    (hh : h = ((g.restoreX a b c d).leaveTrap spc skip).resume spc) :
    h.pc = spc ∧ h.tclass = false ∧ h.x 60 = a ∧ h.x 61 = b ∧ h.x 62 = c ∧ h.x 63 = d
    ∧ h.laneQ = (if skip then g.laneQ.tail else g.laneQ).map (fun e => { e with tcl := false })
    ∧ ∀ r : XReg, r.toNat < 60 → h.x r = g.x r := by
  subst hh
  obtain ⟨hpc, htc, hxs, hq⟩ := ((g.restoreX a b c d).leaveTrap spc skip).resume_frame spc
  have hx (r : XReg) := (Group.x_of_xs hxs r).trans (Group.x_of_xs (g := g.restoreX a b c d) rfl r)
  obtain ⟨h60, h61, h62, h63, hlow⟩ := g.x_restoreX a b c d
  refine ⟨hpc, htc, (hx _).trans h60, (hx _).trans h61, (hx _).trans h62, (hx _).trans h63, hq.trans ?_,
    fun r hr => (hx r).trans (hlow r hr)⟩
  rw [← g.restoreX_laneQ a b c d]
  rfl

/-- Settles O41: the six fields of the frame are read, the captures leave the groups, and the acting group is the one returned. -/
theorem trapReturn : Obligations.TrapReturn := by
  unfold Obligations.TrapReturn
  intro s s1 g g2 pa mt hg ht fa htr hpool hpark r0 r1 r2 r3 r4 r5 hspc hg2
  obtain ⟨t, hrun, hgroups⟩ : ∃ t, returnTrap s g = .next t ∧ t.groups = upd r5.1.groups s.cur (fun g =>
      ((g.restoreX r2.2 r3.2 r4.2 r5.2).leaveTrap r0.2 (r1.2.getLsbD 8 && r1.2.getLsbD 10)).resume r0.2) := by
    rw [returnTrap]
    simp only [show s.translate (coreOf s.cur) (s.ctxId g) (frameAddr (s.ctxOf g) (g.frameK.getD s.cur)) .read true
      = .ok s1 pa mt from htr, hpool, ne_eq, not_true_eq_false, if_false,
      show s1.parkedHit s.cur (frameAddr (s.ctxOf g) (g.frameK.getD s.cur)) 128 = false from hpark, Bool.false_eq_true]
    refine ⟨_, if_neg (not_not.mpr hspc), ?_⟩
    dsimp only
    rw [State.captureTop_groups]
    rfl
  refine ⟨t, _, (withClass_runs hg false _ ht (by simp)).trans hrun, ?_, Group.returned g2 _ _ _ _ _ _ rfl⟩
  rw [hgroups, find_upd, if_pos rfl, hg2]
  rfl

/-! ### The entry begins (R408, R410, step 1) -/

section Withdraw
variable {s : State} {k : Nat} {g : Group} (hk : find s.groups k = some g)
include hk

/-- Giving an entry back takes it from the group and nothing else of it. -/
theorem State.giveBack_group : ∃ x, find (s.giveBack k).groups k = some { g with handed := x } := by
  simp only [State.giveBack, hk]
  split
  · next q e tm _ _ =>
    refine ⟨none, ?_⟩
    have hput : find (put s.groups k { g with handed := none }) k = some { g with handed := none } := by rw [find_put, if_pos rfl]
    split
    · exact hput
    · next x _ =>
      split
      · exact hput
      · next p r hp =>
        have hne : p ≠ k := by
          have hmem : p ∈ x.poppers.filter (fun h => h ≠ k) := hp ▸ List.mem_cons_self
          simpa using (List.mem_filter.mp hmem).2
        exact (find_upd _ _ _ _).trans ((if_neg hne.symm).trans hput)
  · exact ⟨g.handed, hk⟩

omit hk in
theorem State.unrequest_groups (s : State) (k : Nat) : (s.unrequest k).groups = s.groups := by
  unfold State.unrequest
  split <;> rfl

/-- A group that is withdrawn from the queues of waiters keeps all but an entry handed to it. -/
theorem State.withdraw_group : ∃ x, find (s.withdraw k).groups k = some { g with handed := x } := by
  simp only [State.withdraw, hk, State.unrequest_groups]
  exact State.giveBack_group (s := { s with teams := upd s.teams g.seat (fun tm => withdrawWaits tm [k]) }) hk

end Withdraw

theorem State.giveBack_mem (s : State) (k : Nat) : (s.giveBack k).mem = s.mem := by
  unfold State.giveBack
  split
  · rfl
  · split
    · dsimp only
      split
      · rfl
      · split <;> rfl
    · rfl

theorem State.unrequest_mem (s : State) (k : Nat) : (s.unrequest k).mem = s.mem := by
  unfold State.unrequest
  split <;> rfl

theorem State.withdraw_mem (s : State) (k : Nat) : (s.withdraw k).mem = s.mem := by
  unfold State.withdraw
  split
  · rfl
  · exact (State.unrequest_mem _ _).trans (State.giveBack_mem _ _)

/-- The state in which a trap's entry goes on once its scalar stream has stopped (R410, step 1). -/
def State.stopped (s : State) (k : Nat) (e : Entering) : State :=
  { s.withdraw k with groups := upd (s.withdraw k).groups k (fun g => { g.standDown (g.spcOf e) with entry := some e }) }

theorem State.startTrap_stopped (s : State) (k : Nat) (e : Entering) : s.startTrap k e = (s.stopped k e).stepEntry k := rfl

theorem State.byte_stopped (s : State) (k : Nat) (e : Entering) (a : Nat) : (s.stopped k e).byte a = s.byte a :=
  congrArg (fun m => sget _ m a) (s.withdraw_mem k)

/-- A group that has begun nothing abandons what waits, and keeps what R410 names of it. -/
theorem Group.standDown_idle (g : Group) (spc : DWord) (h : g.midway = false) :
    g.standDown spc = { g.abandon with kept := g.abandon.keep spc, arr := none, hcid := none, hrep := none } := by
  rw [Group.standDown, h]
  rfl

/-- Nothing of a group's entry is read from what was handed to it. -/
theorem Group.standDown_handed (g : Group) (x : Option (Nat × (DWord × VVec))) (e : Entering) (h : g.midway = false) :
    ({ g with handed := x } : Group).standDown (({ g with handed := x } : Group).spcOf e)
      = { g.abandon with handed := x, kept := g.abandon.keep (g.spcOf e), arr := none, hcid := none, hrep := none } :=
  Group.standDown_idle _ _ h

theorem State.stopped_group {s : State} {k : Nat} {g : Group} (e : Entering) (hk : find s.groups k = some g)
    (h : g.midway = false) : ∃ x, find (s.stopped k e).groups k = some
      { g.abandon with handed := x, kept := g.abandon.keep (g.spcOf e), arr := none, hcid := none, hrep := none, entry := some e } := by
  obtain ⟨x, hx⟩ := State.withdraw_group hk
  refine ⟨x, ?_⟩
  rw [State.stopped]
  dsimp only
  rw [find_upd, if_pos rfl, hx, Option.map_some, Group.standDown_handed g x e h]

/-! ### The frame (R409, R410, step 3) -/

/-- Byte `i` of the bytes of a number. -/
theorem getD_bytesOf {i n : Nat} (v : Nat) (h : i < n) : (bytesOf v n).getD i 0 = BitVec.ofNat 8 (v / 256 ^ i) := by
  induction n generalizing v i with
  | zero => omega
  | succ n ih =>
    rw [bytesOf]
    cases i with
    | zero => simp
    | succ i => rw [List.getD_cons_succ, ih _ (by omega), Nat.div_div_eq_div_mul, Nat.pow_succ']

/-- Byte `j` of a 64-bit word. -/
theorem getD_bytesOf_dword (v : DWord) {j : Nat} (h : j < 8) : (bytesOf v.toNat 8).getD j 0 = v.extractLsb' (8 * j) 8 := by
  rw [getD_bytesOf _ h]
  apply BitVec.eq_of_toNat_eq
  rw [BitVec.extractLsb'_toNat, BitVec.toNat_ofNat, Nat.shiftRight_eq_div_pow, Nat.pow_mul]

theorem State.byte_storeRaw (s : State) (k pa n v : Nat) (lane : Bool) (a : Nat) :
    (s.storeRaw k pa n v lane).byte a = (s.setBytes pa (bytesOf v n)).byte a := by
  unfold State.storeRaw
  dsimp only
  split <;> rfl

/-- The bytes of 64-bit fields that go uncached to a place are the fields' own; those below it stay. -/
theorem State.byte_storeDwords {s : State} {k : Nat} {l : List DWord} (va : DWord) (pa : Nat) (hk : (find s.groups k).isSome = true) :
    (∀ a < pa, (s.storeDwords k va pa true l).byte a = s.byte a)
    ∧ ∀ i < l.length, ∀ j < 8, (s.storeDwords k va pa true l).byte (pa + 8 * i + j) = (l.getD i 0).extractLsb' (8 * j) 8 := by
  induction l generalizing s va pa with
  | nil => exact ⟨fun _ _ => rfl, fun i hi => absurd hi (Nat.not_lt_zero i)⟩
  | cons v r ih =>
    obtain ⟨g, hg⟩ := Option.isSome_iff_exists.mp hk
    simp only [State.storeDwords, hg, if_true]
    generalize (s.reqOf k g va pa).dot = d
    generalize hu : (s.stampDot k d).storeRaw k pa 8 v.toNat false = u
    have hbyte (a : Nat) : u.byte a = if pa ≤ a ∧ a < pa + 8 then (bytesOf v.toNat 8).getD (a - pa) 0 else s.byte a := by
      rw [← hu, State.byte_storeRaw, State.byte_setBytes, length_bytesOf]
      rfl
    have hsome : (find u.groups k).isSome = true := by
      have hkept := (State.groupsKept_stampDot s k d).trans (State.groupsKept_storeRaw (s.stampDot k d) k pa 8 v.toNat false)
      rw [hu] at hkept
      have hf := congrArg Option.isSome (hkept.2 k)
      rwa [Option.isSome_map, Option.isSome_map, hk] at hf
    obtain ⟨hlow, hfields⟩ := ih (va + 8) (pa + 8) hsome
    refine ⟨fun a ha => ?_, fun i hi j hj => ?_⟩
    · rw [hlow a (by omega), hbyte, if_neg (by omega)]
    · cases i with
      | zero =>
        rw [hlow _ (by omega), hbyte, if_pos (by omega), show pa + 8 * 0 + j - pa = j by omega, getD_bytesOf_dword v hj]
        rfl
      | succ i =>
        rw [show pa + 8 * (i + 1) + j = pa + 8 + 8 * i + j by omega, hfields i (by simpa using hi) j hj]
        rfl

theorem State.storeFields_performs {s : State} {k : Nat} {g : Group} {va : DWord} {pa : Nat} {mt : Bool} {l : List DWord}
    (hk : find s.groups k = some g) (hp : s.pageParked (coreOf k) (s.ctxId g) va = false) :
    s.storeFields k va pa mt l = s.storeDwords k va pa mt l := by
  simp only [State.storeFields, hk, hp, Bool.false_eq_true, if_false]

/-- A translation leaves a group its seat. -/
theorem translate_seat {s t : State} {c ctx pa k : Nat} {va : DWord} {acc : AccK} {tc mt : Bool} {g h : Group}
    (htr : s.translate c ctx va acc tc = .ok t pa mt) (hg : find s.groups k = some g) (hh : find t.groups k = some h) :
    h.seat = g.seat := by
  have hset := (State.groupsKept_translate htr).2 k
  rw [hg, hh, Option.map_some, Option.map_some, Option.some.injEq] at hset
  show h.settled.seat = g.settled.seat
  rw [hset]

section Frame
variable {s s1 : State} {k : Nat} {g : Group} {e : Entering} {pa : Nat} {mt : Bool}

/-- The entry of a group that is settled goes on with its frame, or behind it with the vector (R410). -/
theorem State.stepEntry_settled (hk : find s.groups k = some g) (he : g.entry = some e) (hs : g.unsettled = false) :
    s.stepEntry k = if e.framed then s.enterVector k g e else s.enterFrame k g e := by
  simp only [State.stepEntry, hk, he, hs, Bool.false_eq_true, if_false]

theorem State.stepEntry_waits (hk : find s.groups k = some g) (he : g.entry = some e) (hs : g.unsettled = true) :
    s.stepEntry k = s := by
  simp only [State.stepEntry, hk, he, hs, if_true]

theorem State.enterFrame_wait (h : s.translate (coreOf k) (s.ctxId g) (frameAddr (s.ctxOf g) k) .write true = .wait s1) :
    s.enterFrame k g e = s1 := by
  simp only [State.enterFrame, h]

theorem State.enterFrame_fault (h : s.translate (coreOf k) (s.ctxId g) (frameAddr (s.ctxOf g) k) .write true = .fault s1) :
    s.enterFrame k g e = s1.doubleFault k := by
  simp only [State.enterFrame, h]

theorem State.enterFrame_lost (h : s.translate (coreOf k) (s.ctxId g) (frameAddr (s.ctxOf g) k) .write true = .ok s1 pa mt)
    (hp : s1.poolTrap pa ≠ 0) : s.enterFrame k g e = s1.doubleFault k := by
  simp only [State.enterFrame, h]
  exact if_pos hp

/-- The state whose frame has been written, in which the vector is read (R410, step 3). -/
def State.framedAt (s : State) (k : Nat) (fa : DWord) (pa : Nat) (mt : Bool) (e : Entering) (l : List DWord) : State :=
  { s.storeFields k fa pa mt l with
    groups := upd (s.storeFields k fa pa mt l).groups k (fun h => { h with entry := some { e with framed := true }, wf := {} }) }

theorem State.enterFrame_writes (h : s.translate (coreOf k) (s.ctxId g) (frameAddr (s.ctxOf g) k) .write true = .ok s1 pa mt)
    (hp : s1.poolTrap pa = 0) (hr : s1.noRoomBehind k (s1.ctxId g) (frameAddr (s.ctxOf g) k) = false) :
    s.enterFrame k g e = (s1.framedAt k (frameAddr (s.ctxOf g) k) pa mt e (frameFields s1 g e.trap (g.spcOf e))).enterVector k g
      { e with framed := true } := by
  simp only [State.enterFrame, h, hp, hr, ne_eq, not_true_eq_false, Bool.false_eq_true, if_false]
  rfl

end Frame

/-! ### The vector (R405, R406, R410, steps 4 to 6) -/

section Vector
variable {s s1 : State} {k : Nat} {g : Group} {e : Entering} {pa : Nat} {mt : Bool}

theorem State.enterVector_wait (h : s.translate (coreOf k) (s.ctxId g) (vectorAddr (s.ctxOf g) e.trap.num) .read true = .wait s1) :
    s.enterVector k g e = s1 := by
  simp only [State.enterVector, h]

theorem State.enterVector_fault (h : s.translate (coreOf k) (s.ctxId g) (vectorAddr (s.ctxOf g) e.trap.num) .read true = .fault s1) :
    s.enterVector k g e = s1.doubleFault k := by
  simp only [State.enterVector, h]

section Read
variable (h : s.translate (coreOf k) (s.ctxId g) (vectorAddr (s.ctxOf g) e.trap.num) .read true = .ok s1 pa mt)
include h

theorem State.enterVector_lost (hp : s1.poolTrap pa ≠ 0) : s.enterVector k g e = s1.doubleFault k := by
  simp only [State.enterVector, h]
  exact if_pos hp

theorem State.enterVector_reads (hp : s1.poolTrap pa = 0)
    (hc : s1.parkedHit k (vectorAddr (s.ctxOf g) e.trap.num) 8 = false) :
    s.enterVector k g e = (s1.takeDw k pa mt).1.enterAt k g e (frameAddr (s.ctxOf g) k) (s1.takeDw k pa mt).2 := by
  simp only [State.enterVector, h, hp, hc, ne_eq, not_true_eq_false, Bool.false_eq_true, if_false]

end Read

/-- An address that is no handler's ends the context, a well-formed one is entered (R406, R413). -/
theorem State.enterAt_cases (s : State) (k : Nat) (g : Group) (e : Entering) (fa h : DWord) :
    (h = 0 → s.enterAt k g e fa h = s.escalate k 0x80000003)
    ∧ (h ≠ 0 → ¬((h.truncate 57).signExtend 64 = h ∧ h.toNat % 4 = 0) → s.enterAt k g e fa h = s.doubleFault k)
    ∧ (h ≠ 0 → (h.truncate 57).signExtend 64 = h ∧ h.toNat % 4 = 0 →
      (s.enterAt k g e fa h).groups = upd s.groups k (fun g => g.atHandler e fa h)) := by
  unfold State.enterAt
  refine ⟨fun h0 => if_pos h0, fun h0 hbad => ?_, fun h0 hgood => ?_⟩
  · rw [if_neg h0, if_pos]
    by_cases hcan : (h.truncate 57).signExtend 64 = h
    · simpa [hcan] using fun hal => hbad ⟨hcan, hal⟩
    · simp [hcan]
  · rw [if_neg h0, if_neg (by simp [hgood.1, hgood.2])]
    dsimp only
    rw [State.captureTop_groups]

/-- The group that stands at the handler (R410, steps 5 and 6). -/
theorem Group.atHandler_stands (g : Group) (e : Entering) (fa h : DWord) {g4 : Group} (hg : g4 = g.atHandler e fa h) :
    g4.pc = h ∧ g4.tclass = true ∧ g4.entry = none ∧ g4.pend = (if e.held then g.pend.erase e.trap else g.pend)
    ∧ g4.frozen = (g.frozen || e.trap.lane) ∧ g4.x 60 = fa ∧ g4.x 61 = e.trap.num.zeroExtend 64 ∧ g4.x 62 = e.trap.addr
    ∧ g4.x 63 = e.trap.info ∧ (∀ r : XReg, r.toNat < 60 → g4.x r = g.x r)
    ∧ g4.ret = g.ret ∧ g4.act = g.act ∧ g4.vs = g.vs ∧ g4.ks = g.ks ∧ g4.k0 = g.k0 ∧ g4.opq = g.opq
    ∧ g4.laneQ = g.laneQ ∧ g4.decQ = g.decQ := by
  subst hg
  obtain ⟨h60, h61, h62, h63, hlow⟩ := g.x_restoreX fa (e.trap.num.zeroExtend 64) e.trap.addr e.trap.info
  have hx (r : XReg) : (g.atHandler e fa h).x r = (g.restoreX fa (e.trap.num.zeroExtend 64) e.trap.addr e.trap.info).x r :=
    Group.x_of_xs rfl r
  refine ⟨rfl, rfl, rfl, ?_, ?_, (hx _).trans h60, (hx _).trans h61, (hx _).trans h62, (hx _).trans h63,
    fun r hr => (hx r).trans (hlow r hr), ?_⟩ <;> simp [Group.atHandler]

end Vector

/-! ### The obligation -/

/-- Settles O40: a trap that is not contained, the stop of its stream, the frame, and the vector, each by the lemma about it. -/
theorem trapEntry : Obligations.TrapEntry := by
  unfold Obligations.TrapEntry
  refine ⟨fun s k g p spc old hc => ⟨?double, ?scalar, ?lane⟩, ?stops, ?frame, ?vector⟩
  case double =>
    intro ht hd hl
    have hno : (p.defer || (p.lane && old)) = false := by
      rcases hl with h | h <;> simp [hd, h]
    rw [State.takeTrap, hc, ht, hno]
    rfl
  case scalar => exact fun ht hl => takeTrap_enters s k g p spc old hc ht hl
  case lane =>
    intro ht hl he
    rw [State.takeTrap, hc, ht, hl, he]
    rfl
  case stops =>
    intro s k g e hk hrel hbank
    obtain ⟨x, hx⟩ := State.stopped_group e hk (by rw [Group.midway, hrel, hbank]; rfl)
    exact ⟨s.stopped k e, _, s.startTrap_stopped k e, hx, rfl, rfl, rfl, rfl, rfl, rfl, rfl, rfl, rfl, rfl, rfl, rfl, rfl, rfl, rfl,
      rfl, rfl, rfl, s.byte_stopped k e⟩
  case frame =>
    intro s s1 k g e pa mt hk he p fa at_ out
    refine ⟨State.stepEntry_waits hk he, fun hs => ⟨fun hf => ?_, fun hf => ?_⟩⟩
    · exact (State.stepEntry_settled hk he hs).trans (if_pos hf)
    · have hout : out = s.enterFrame k g e := (State.stepEntry_settled hk he hs).trans (if_neg (by rw [hf]; simp))
      rw [hout]
      refine ⟨State.enterFrame_wait, State.enterFrame_fault, fun htr => ⟨State.enterFrame_lost htr, fun hp hroom => ⟨?_, ?_⟩⟩⟩
      · intro hmt hpark hsome i hi j hj
        obtain ⟨h, hh⟩ := Option.isSome_iff_exists.mp hsome
        have hctx : s1.ctxId h = s1.ctxId g := by
          rw [State.ctxId, State.teamOf, translate_seat htr hk hh]
          rfl
        rw [State.storeFields_performs hh (hctx ▸ hpark), hmt]
        exact (State.byte_storeDwords (l := frameFields s1 g p (g.spcOf e)) fa pa hsome).2 i hi j hj
      · exact State.enterFrame_writes htr hp hroom
  case vector =>
    intro s s1 k g e vpa mt p fa va at_ out
    refine ⟨State.enterVector_wait, State.enterVector_fault, fun htr => ⟨State.enterVector_lost htr, fun hp hc => ?_⟩⟩
    intro ld h good
    obtain ⟨hnull, hbad, hgood⟩ := State.enterAt_cases ld.1 k g e fa h
    rw [show out = ld.1.enterAt k g e fa h from State.enterVector_reads htr hp hc]
    refine ⟨hnull, hbad, fun h0 hg g3 hg3 => ⟨⟨_, ?_, Group.atHandler_stands g3 e fa h rfl⟩, fun n hn => ?_⟩⟩
    · rw [hgood h0 hg, find_upd, if_pos rfl, hg3]
      rfl
    · rw [hgood h0 hg, find_upd, if_neg hn]

end Sys2Proof.Machine
end


section
/-! SUPPORT. Settles the rows of registers, the end of a group and the compaction of a team (R336, R351, R352, R362 to R364). -/

namespace Sys2Proof.Machine

open Sys2Proof

/-! ### claim and give (R336, R362) -/

theorem targetOk_iff (t : DWord) : targetOk t = true ↔ t.toNat % 16 = 0 ∧ 16 ≤ t.toNat ∧ t.toNat ≤ 256 := by
  simp only [targetOk, Bool.and_eq_true, decide_eq_true_eq, and_assoc]

section Rows
variable {s : State} {g : Group} (hg : s.grp = some g) (d a : XReg)
include hg

theorem exec_claim_badTarget (h : targetOk (g.x a) = false) : exec (.claim d a) s = raise s 0x03 0 (g.x a &&& 0x1ff) := by
  refine (withG_some hg _).trans ?_
  simp only [h, Bool.not_false, if_true]

theorem exec_give_badTarget (h : targetOk (g.x a) = false) : exec (.give d a) s = raise s 0x03 0 (g.x a &&& 0x1ff) := by
  refine (withG_some hg _).trans ?_
  simp only [h, Bool.not_false, if_true]

section Allowed
variable (hok : targetOk (g.x a) = true)
include hok

theorem exec_claim_inBlock (hd : 0 < s.depth g.seat) : exec (.claim d a) s = raise s 0x1d 0 0 := by
  refine (withG_some hg _).trans ?_
  simp only [hok, hd, Bool.not_true, Bool.false_eq_true, if_false, if_true]

theorem exec_give_inBlock (hd : 0 < s.depth g.seat) : exec (.give d a) s = raise s 0x1d 0 0 := by
  refine (withG_some hg _).trans ?_
  simp only [hok, hd, Bool.not_true, Bool.false_eq_true, if_false, if_true]

variable (hd : s.depth g.seat = 0) (hb : g.laneBusy = false)
include hd hb

/-- A claim at or below the allotment changes nothing. -/
theorem exec_claim_held (hle : (g.x a).toNat ≤ g.allot) :
    exec (.claim d a) s = ends s (g.setX d (BitVec.ofNat 64 g.allot)) := by
  refine (withG_some hg _).trans ?_
  simp only [hok, hd, hb, hle, Nat.lt_irrefl, Bool.not_true, Bool.false_eq_true, if_false, if_true]
  rfl

/-- A claim above the allotment takes rows that fit in its turn on the pipe. -/
theorem exec_claim_takes (hgt : g.allot < (g.x a).toNat)
    (hturn : (s.pipe (4 * coreOf s.cur + g.pipe)).claims = []
      ∨ (s.pipe (4 * coreOf s.cur + g.pipe)).claims.head? = some (.claim s.cur (g.x a).toNat))
    (hfit : s.rowsFit (coreOf s.cur) g.pipe g.soff g.gw ((g.x a).toNat - g.allot) = true) :
    exec (.claim d a) s = ends (s.unrequest s.cur) ({ g with allot := (g.x a).toNat }.setX d (g.x a)) := by
  refine (withG_some hg _).trans ?_
  have hin : s.inTurn (4 * coreOf s.cur + g.pipe) (some (.claim s.cur (g.x a).toNat)) = true := by
    unfold State.inTurn
    split
    · rfl
    · next e r he => simpa [he, eq_comm] using hturn
  simp only [hok, hd, hb, Nat.not_le.mpr hgt, hin, hfit, Nat.lt_irrefl, Bool.not_true, Bool.and_self, Bool.false_eq_true, if_false,
    if_true]
  rfl

theorem exec_give_lowers (hlt : (g.x a).toNat < g.allot) :
    exec (.give d a) s = ends s ((({ g with allot := (g.x a).toNat }).cutRegs (g.x a).toNat).setX d (g.x a)) := by
  refine (withG_some hg _).trans ?_
  simp only [hok, hd, hb, hlt, Nat.lt_irrefl, Bool.not_true, Bool.false_eq_true, if_false, if_true]
  rfl

theorem exec_give_held (hle : g.allot ≤ (g.x a).toNat) :
    exec (.give d a) s = ends s (g.setX d (BitVec.ofNat 64 g.allot)) := by
  refine (withG_some hg _).trans ?_
  simp only [hok, hd, hb, Nat.not_lt.mpr hle, Nat.lt_irrefl, Bool.not_true, Bool.false_eq_true, if_false]
  rfl

end Allowed

/-! ### exit and regroup (R351, R352, R363, R364) -/

theorem exec_exit_inBlock (hd : 0 < s.depth g.seat) : exec .exit s = raise s 0x1d 0 0 := by
  refine (withG_some hg _).trans ?_
  simp only [hd, if_true]

theorem exec_regroup_inBlock (hd : 0 < s.depth g.seat) : exec (.regroup d a) s = raise s 0x1d 0 0 := by
  refine (withG_some hg _).trans ?_
  simp only [hd, if_true]

omit hg in
theorem State.exitReady_of_idle (hb : g.laneBusy = false) (hi : g.infl = [])
    (hc : ∀ p : Path, p ≠ .cp → s.counter s.cur g p = 0)
    (hr : (s.core (coreOf s.cur)).replay.all (fun p => p.grp ≠ s.cur) = true) (ha : s.acked s.cur 1 = true) :
    s.exitReady s.cur g = true := by
  rw [State.exitReady, hb, hi, hc .sp (by decide), hc .gl (by decide), hc .rsp (by decide), hc .pat (by decide), hc .pl (by decide),
    hr, ha]
  rfl

theorem exec_exit_ends (hd : s.depth g.seat = 0) (hb : g.laneBusy = false) (he : s.exitReady s.cur g = true) :
    exec .exit s = .next (s.endGroup s.cur) := by
  refine (withG_some hg _).trans ?_
  simp only [hd, hb, he, Nat.lt_irrefl, Bool.false_eq_true, if_false, if_true]

/-- A `regroup` that every other member has reached, at counts that fit, compacts the team. -/
theorem exec_regroup_compacts (hd : s.depth g.seat = 0) (hb : g.laneBusy = false) (hm : s.mayRegroup s.cur g = true)
    {ms : List (Nat × Group)}
    (hms : (s.setGrp { g with arr := some (.regroup ((g.x a).toNat % 512) d.toNat) }).members g.seat = ms)
    (hlow : (ms.head?.bind (fun e => e.2.regroupN)).getD 0 ≤ 256)
    (hall : ∀ e ∈ ms, ∃ n, e.2.regroupN = some n ∧ n ≤ e.2.allot ∧ (ms.head?.bind (fun e => e.2.regroupN)).getD 0 ≤ e.2.allot) :
    exec (.regroup d a) s = .next ((s.setGrp { g with arr := some (.regroup ((g.x a).toNat % 512) d.toNat) }).compactTeam g.seat
      ((ms.head?.bind (fun e => e.2.regroupN)).getD 0)) := by
  refine (withG_some hg _).trans ?_
  have hnone : ms.filter (fun e => e.2.regroupN.isNone) = [] := by
    rw [List.filter_eq_nil_iff]
    intro e he
    obtain ⟨n, hn, -, -⟩ := hall e he
    simp [hn]
  have hgood : ms.any (fun e => decide (e.2.allot < (ms.head?.bind (fun e => e.2.regroupN)).getD 0)
      || decide (e.2.allot < e.2.regroupN.getD 0)) = false := by
    rw [List.any_eq_false]
    intro e he
    obtain ⟨n, hn, hle, hlow'⟩ := hall e he
    simp [hn, hle, hlow']
  simp only [hd, hb, hm, hms, hnone, hgood, Nat.not_lt.mpr hlow, Nat.lt_irrefl, Bool.not_true, List.isEmpty_nil, decide_false,
    Bool.or_false, Bool.false_eq_true, if_false]

end Rows

/-! ### The end of a group (R364) -/

/-- A group without the entry that a queue's push has handed to it (R356). -/
def Group.unhanded (g : Group) : Group := { g with handed := none }

/-- A group that stands as `f` but for what is handed to it. -/
theorem Group.eq_of_unhanded {f h : Group} (hu : h.unhanded = f.unhanded) : h = { f with handed := h.handed } := by
  have hh : h = { h.unhanded with handed := h.handed } := rfl
  rw [hh, hu]
  rfl

/-- `t` has the groups of `s` but for what is handed to them. -/
def State.HandedOnly (s t : State) (j : Nat) : Prop :=
  (find t.groups j).map Group.unhanded = (find s.groups j).map Group.unhanded

theorem State.HandedOnly.some {s t : State} {j : Nat} {f : Group} (h : State.HandedOnly s t j) (hf : find s.groups j = some f) :
    ∃ x, find t.groups j = some { f with handed := x } := by
  rw [State.HandedOnly, hf, Option.map_some] at h
  obtain ⟨x, hx, hu⟩ := Option.map_eq_some_iff.mp h
  exact ⟨x.handed, by rw [hx, ← Group.eq_of_unhanded hu]⟩

/-- A given back entry leaves the groups but for what is handed to them. -/
theorem State.handedOnly_giveBack (s : State) (k j : Nat) : State.HandedOnly s (s.giveBack k) j := by
  unfold State.giveBack
  split
  · rfl
  · next g hg =>
    split
    · next q e tm _ _ =>
      have hput : (find (put s.groups k { g with handed := none }) j).map Group.unhanded = (find s.groups j).map Group.unhanded := by
        rw [find_put]
        split
        · next hj => rw [hj, hg]; rfl
        · rfl
      dsimp only
      split
      · exact hput
      · split
        · exact hput
        · refine Eq.trans ?_ hput
          dsimp only [State.setTeam]
          rw [find_upd]
          split
          · next hj => rw [hj, Option.map_map]; rfl
          · rfl
    · rfl

/-- The vector of a team (R285). -/
def State.vecOf (s : State) (t : Nat) : Option VVec := (find s.teams t).map Team.vec

theorem State.giveBack_vecOf (s : State) (k t : Nat) : (s.giveBack k).vecOf t = s.vecOf t := by
  unfold State.giveBack
  split
  · rfl
  · next g _ =>
    split
    · next q e tm _ htm =>
      have hput (m : List (Nat × NQueue)) : (find (put s.teams g.seat { tm with nqs := m }) t).map Team.vec = s.vecOf t := by
        rw [find_put, State.vecOf]
        split
        · next ht => rw [ht, htm]; rfl
        · rfl
      dsimp only
      split
      · rfl
      · split
        · exact hput _
        · exact hput _
    · rfl

/-- Giving an entry back changes groups and teams alone. -/
theorem State.giveBack_frame (s : State) (k : Nat) : ∃ gs ts, s.giveBack k = { s with groups := gs, teams := ts } := by
  unfold State.giveBack
  split
  · exact ⟨_, _, rfl⟩
  · split
    · dsimp only
      split
      · exact ⟨_, _, rfl⟩
      · split <;> exact ⟨_, _, rfl⟩
    · exact ⟨_, _, rfl⟩

/-- Taking a request out changes pipes and cores alone. -/
theorem State.unrequest_frame (s : State) (k : Nat) : ∃ ps cs, s.unrequest k = { s with pipes := ps, cores := cs } := by
  unfold State.unrequest
  split <;> exact ⟨_, _, rfl⟩

theorem State.unrequest_locks (s : State) (k c : Nat) : ((s.unrequest k).core c).locks = (s.core c).locks := by
  unfold State.unrequest
  split
  · rfl
  · dsimp only
    rw [State.core_setCore]
    split
    · next h => rw [h]; rfl
    · rfl

/-- The ranges that a group does not own through a queue or a bank operation. -/
def othersLocks (k : Nat) (l : List RangeLock) : List RangeLock :=
  l.filter (fun x => match x.owner with | .queue h _ => h ≠ k | .bank h => h ≠ k | _ => true)

theorem owner_othersLocks {k : Nat} {l : List RangeLock} {x : RangeLock} (h : x ∈ othersLocks k l) :
    x.owner ≠ .bank k ∧ ∀ q, x.owner ≠ .queue k q := by
  have hx := (List.mem_filter.mp h).2
  exact ⟨fun ho => by simp [ho] at hx, fun q ho => by simp [ho] at hx⟩

/-- The state in which a group's slots, ranges and waiting places are free (R364). -/
def State.vacated (s : State) (k : Nat) : State :=
  (((s.setCore (coreOf k) { s.core (coreOf k) with locks := othersLocks k (s.core (coreOf k)).locks }).giveBack k).unrequest k).unreserve k

theorem State.dropGroup_vacated {s : State} {k : Nat} {g : Group} (hk : find s.groups k = some g) :
    s.dropGroup k = { s.vacated k with
      groups := del (s.vacated k).groups k
      teams := (upd (s.vacated k).teams g.seat (fun t => t.forget k)).map (fun e => (e.1, e.2.unsave [k]))
      insts := (s.vacated k).insts.map (fun e => (e.1, e.2.forget k))
      acks := (s.vacated k).acks.map (fun a => if a.grp = k then { a with grp := noGroupKey } else a)
      serials := (s.vacated k).serials.map (fun e => if e.1 = g.vv.own.serial then (e.1, some (s.vacated k).now) else e)
      hcalls := (s.vacated k).hcalls.filter (fun e => e.2 ≠ k) } := by
  simp only [State.dropGroup, hk]
  rfl

theorem State.vacated_groups (s : State) (k j : Nat) : State.HandedOnly s (s.vacated k) j := by
  refine Eq.trans ?_ (State.handedOnly_giveBack (s.setCore (coreOf k)
    { s.core (coreOf k) with locks := othersLocks k (s.core (coreOf k)).locks }) k j)
  exact congrArg (fun m => (find m j).map Group.unhanded) (State.unrequest_groups _ k)

theorem State.vacated_vecOf (s : State) (k t : Nat) : (s.vacated k).vecOf t = s.vecOf t := by
  refine Eq.trans ?_ (State.giveBack_vecOf (s.setCore (coreOf k)
    { s.core (coreOf k) with locks := othersLocks k (s.core (coreOf k)).locks }) k t)
  obtain ⟨ps, cs, h⟩ := ((s.setCore (coreOf k)
    { s.core (coreOf k) with locks := othersLocks k (s.core (coreOf k)).locks }).giveBack k).unrequest_frame k
  rw [State.vacated, h]
  rfl

/-- Freeing leaves the launches, the memory and the time. -/
theorem State.vacated_rest (s : State) (k : Nat) :
    (s.vacated k).launches = s.launches ∧ (s.vacated k).mem = s.mem ∧ (s.vacated k).now = s.now := by
  obtain ⟨gs, ts, hg⟩ := (s.setCore (coreOf k)
    { s.core (coreOf k) with locks := othersLocks k (s.core (coreOf k)).locks }).giveBack_frame k
  rw [State.vacated, hg]
  obtain ⟨ps, cs, hu⟩ := ({ s.setCore (coreOf k) { s.core (coreOf k) with
    locks := othersLocks k (s.core (coreOf k)).locks } with groups := gs, teams := ts } : State).unrequest_frame k
  rw [hu]
  exact ⟨rfl, rfl, rfl⟩

theorem State.vacated_locks (s : State) (k : Nat) :
    ((s.vacated k).core (coreOf k)).locks = othersLocks k (s.core (coreOf k)).locks := by
  refine (State.unrequest_locks _ _ _).trans ?_
  obtain ⟨gs, ts, hg⟩ := (s.setCore (coreOf k)
    { s.core (coreOf k) with locks := othersLocks k (s.core (coreOf k)).locks }).giveBack_frame k
  rw [hg]
  exact congrArg Core.locks ((State.core_setCore _ _ _ _).trans (if_pos rfl))

section EndGroup
variable {s : State} {k : Nat} {g : Group} (hk : find s.groups k = some g)
include hk

/-- A group that ends has folded its vector into its team's and its grid's exit vector (R285, R364). -/
theorem State.endGroup_folded {tm : Team} (ht : find s.teams g.seat = some tm) :
    s.endGroup k = ({ s.setTeam g.seat { tm with vec := vvMerge tm.vec g.vv } with
      launches := upd s.launches tm.launch (fun l => { l with exitV := vvMerge l.exitV g.vv }) } : State).dropGroup k := by
  have hpub : s.publishVec k 1 = s.setTeam g.seat { tm with vec := vvMerge tm.vec g.vv } := by
    simp [State.publishVec, hk, ht]
  have hteam : (s.setTeam g.seat { tm with vec := vvMerge tm.vec g.vv }).teamOf g = { tm with vec := vvMerge tm.vec g.vv } := by
    rw [State.teamOf, State.setTeam_teams, find_put, if_pos rfl]
    rfl
  simp only [State.endGroup, hk, hpub, State.foldExit, hteam]
  rfl

/-- The group leaves the device; the others keep all but what is handed to them. -/
theorem State.dropGroup_groups : find (s.dropGroup k).groups k = none ∧ ∀ j, j ≠ k → State.HandedOnly s (s.dropGroup k) j := by
  rw [State.dropGroup_vacated hk]
  refine ⟨by rw [find_del, if_pos rfl], fun j hj => Eq.trans ?_ (s.vacated_groups k j)⟩
  dsimp only
  rw [find_del, if_neg hj]

/-- A team keeps its vector as a group of its leaves. -/
theorem State.dropGroup_vecOf (t : Nat) : (s.dropGroup k).vecOf t = s.vecOf t := by
  rw [State.dropGroup_vacated hk, ← s.vacated_vecOf k t]
  unfold State.vecOf
  dsimp only
  rw [find_map_entry (fun _ (x : Team) => x.unsave [k]), find_upd]
  split
  · next h => rw [h, Option.map_map, Option.map_map]; rfl
  · rw [Option.map_map]; rfl

theorem State.dropGroup_rest : (s.dropGroup k).launches = s.launches ∧ (∀ a, (s.dropGroup k).byte a = s.byte a)
    ∧ (∀ e ∈ (s.dropGroup k).serials, e.1 = g.vv.own.serial → e.2 = some s.now)
    ∧ ∀ l ∈ ((s.dropGroup k).core (coreOf k)).locks, l.owner ≠ .bank k ∧ ∀ q, l.owner ≠ .queue k q := by
  obtain ⟨hl, hm, hn⟩ := s.vacated_rest k
  rw [State.dropGroup_vacated hk]
  refine ⟨hl, fun a => congrArg (fun m => sget _ m a) hm, fun e he hser => ?_, fun l hl => ?_⟩
  · obtain ⟨x, -, rfl⟩ := List.mem_map.mp he
    by_cases hx : x.1 = g.vv.own.serial
    · rw [if_pos hx, hn]
    · rw [if_neg hx] at hser
      exact absurd hser hx
  · have hl' : l ∈ ((s.vacated k).core (coreOf k)).locks := hl
    rw [s.vacated_locks k] at hl'
    exact owner_othersLocks hl'

end EndGroup

/-- A group that ends leaves the others but for what is handed to them. -/
theorem State.endGroup_groups {s : State} {k : Nat} {g : Group} (hk : find s.groups k = some g) :
    find (s.endGroup k).groups k = none ∧ ∀ j, j ≠ k → State.HandedOnly s (s.endGroup k) j := by
  have hgroups : ((s.publishVec k 1).foldExit g).groups = s.groups := by
    simp only [State.publishVec, hk]
    split <;> rfl
  simp only [State.endGroup, hk]
  obtain ⟨hnone, hothers⟩ := State.dropGroup_groups (s := (s.publishVec k 1).foldExit g) (by rw [hgroups]; exact hk)
  refine ⟨hnone, fun j hj => (hothers j hj).trans ?_⟩
  rw [hgroups]

/-! ### Registers that a survivor is filled with (R351) -/

section Fill

/-- The source of a survivor's lane: the group that held it, and its lane there. -/
def laneOrigin (ms : List (Nat × Group)) (L : List (Nat × Nat)) (i : Nat) : Option (Group × Nat) :=
  L[i]?.bind (fun e => (find ms e.1).map (fun h => (h, e.2)))

/-- The v registers below `n` of lane `i`, written from a source. -/
def Group.fillLane (n : Nat) (src : Nat → Option (Group × Nat)) (g : Group) (i : Nat) : Group :=
  match src i with
  | none => g
  | some (h, l) => (List.range n).foldl (fun g r => g.setV r i (h.v r l)) g

/-- The bits of mask register `j` that the filled lanes bring. -/
def fillMask (c : Nat) (src : Nat → Option (Group × Nat)) (j : KReg) : DWord :=
  maskOf ((List.range c).filter (fun i => match src i with | none => false | some (h, l) => bitOf (h.k j).toNat l))

/-- A survivor before its lanes are filled. -/
def Group.emptied (g : Group) (c : Nat) (vec : VVec) (ofc : Nat) : Group :=
  { g with vs := [], ks := [], act := [], k0 := firstLanes c, decQ := [], winS := [], winL := []
           opq := g.opq.map (fun e => (e.1, e.2.stopped .idle))
           vv := vec, ofc := BitVec.ofNat 64 (Nat.min ofc (2 ^ 64 - 1)), arr := none }

theorem survivor_filled (ms : List (Nat × Group)) (n T d : Nat) (L : List (Nat × Nat)) (vec : VVec) (ofc : Nat) (g : Group) :
    survivor ms n T d L vec ofc g = ((([1, 2, 3, 4, 5, 6, 7].foldl
      (fun (g : Group) j => g.setK j (fillMask L.length (laneOrigin ms L) j))
      ((List.range L.length).foldl (Group.fillLane n (laneOrigin ms L)) (g.emptied L.length vec ofc))).setX
        (BitVec.ofNat 6 d) (BitVec.ofNat 64 T)).next) := by
  have hsrc : (fun i => match L[i]? with | none => none | some (m, l) => (find ms m).map (fun h => (h, l))) = laneOrigin ms L := by
    funext i
    rw [laneOrigin]
    cases L[i]? <;> rfl
  rw [← hsrc]
  rfl

/-- The v registers below `n` of one lane are written, and no other. -/
theorem Group.v_setVs (g : Group) (n i q l : Nat) (f : Nat → Word) (hi : i < 64) (hl : l < 64) :
    ((List.range n).foldl (fun g r => g.setV r i (f r)) g).v q l = if q < n ∧ l = i then f q else g.v q l := by
  induction n with
  | zero => simp
  | succ n ih =>
    rw [List.range_succ, List.foldl_append, List.foldl_cons, List.foldl_nil, Group.v_setV _ _ _ _ _ _ hi hl, ih]
    by_cases hli : l = i
    · by_cases hq : q = n
      · simp [hq, hli]
      · simp [hq, hli, show q < n + 1 ↔ q < n by omega]
    · simp [hli]

theorem Group.setVs_frame (g : Group) (l : List Nat) (i : Nat) (f : Nat → Word) :
    ∃ m, l.foldl (fun g r => g.setV r i (f r)) g = { g with vs := m } :=
  List.foldlRecOn (motive := fun h : Group => ∃ m, h = { g with vs := m }) _ _ ⟨_, rfl⟩
    (fun h ⟨m, hm⟩ r _ => ⟨sset 0 m (vKey r i) (f r), by rw [hm]; rfl⟩)

theorem Group.fillLane_frame (n : Nat) (src : Nat → Option (Group × Nat)) (g : Group) (i : Nat) :
    ∃ m, Group.fillLane n src g i = { g with vs := m } := by
  unfold Group.fillLane
  split
  · exact ⟨_, rfl⟩
  · exact Group.setVs_frame _ _ _ _

theorem Group.fillLanes_frame (n c : Nat) (src : Nat → Option (Group × Nat)) (g : Group) :
    ∃ m, (List.range c).foldl (Group.fillLane n src) g = { g with vs := m } :=
  List.foldlRecOn (motive := fun h : Group => ∃ m, h = { g with vs := m }) _ _ ⟨_, rfl⟩ (fun h ⟨m, hm⟩ i _ => by
    obtain ⟨m', hm'⟩ := Group.fillLane_frame n src h i
    exact ⟨m', by rw [hm', hm]⟩)

/-- What stands in the v registers once some lanes are filled. -/
theorem Group.v_fillLanes (n c : Nat) (src : Nat → Option (Group × Nat)) (g : Group) (q l : Nat) (hc : c ≤ 64) (hl : l < 64) :
    ((List.range c).foldl (Group.fillLane n src) g).v q l
      = if q < n ∧ l < c then (src l).elim (g.v q l) (fun e => e.1.v q e.2) else g.v q l := by
  induction c with
  | zero => simp
  | succ c ih =>
    rw [List.range_succ, List.foldl_append, List.foldl_cons, List.foldl_nil]
    generalize hu : (List.range c).foldl (Group.fillLane n src) g = u at ih ⊢
    have hih := ih (by omega)
    unfold Group.fillLane
    by_cases hlc : l = c
    · have hu0 : u.v q l = g.v q l := by rw [hih, if_neg (by omega)]
      subst hlc
      split
      · next hs => simp [hs, hu0]
      · next h m hs =>
        rw [Group.v_setVs _ _ _ _ _ _ (by omega) hl, hu0]
        simp [hs]
    · have hsame : u.v q l = if q < n ∧ l < c + 1 then (src l).elim (g.v q l) (fun e => e.1.v q e.2) else g.v q l := by
        rw [hih]
        exact if_congr (by omega) rfl rfl
      split
      · exact hsame
      · rw [Group.v_setVs _ _ _ _ _ _ (by omega) hl, if_neg (by omega)]
        exact hsame

theorem Group.setKs_frame (g : Group) (l : List KReg) (f : KReg → DWord) :
    ∃ m, l.foldl (fun (g : Group) j => g.setK j (f j)) g = { g with ks := m } :=
  List.foldlRecOn (motive := fun h : Group => ∃ m, h = { g with ks := m }) _ _ ⟨_, rfl⟩
    (fun h ⟨m, hm⟩ j _ => ⟨(h.setK j (f j)).ks, by rw [Group.setK_frame, hm]⟩)

/-- A mask register that is written among distinct ones holds what was written, at the group's width. -/
theorem Group.k_setKs (g : Group) (l : List KReg) (f : KReg → DWord) (j : KReg) (hj : j ≠ 0) :
    (l.foldl (fun (g : Group) j => g.setK j (f j)) g).k j = if j ∈ l then f j &&& g.wMask else g.k j := by
  induction l generalizing g with
  | nil => simp
  | cons i l ih =>
    rw [List.foldl_cons, ih, Group.k_setK]
    have hw : (g.setK i (f i)).wMask = g.wMask := by rw [Group.wMask, Group.wMask, Group.setK_gw]
    rw [hw]
    by_cases hm : j ∈ l
    · simp [hm]
    · by_cases hi : j = i
      · subst hi
        rw [if_neg hm, if_pos ⟨rfl, hj⟩, if_pos List.mem_cons_self]
      · simp [hm, hi]

/-- Every mask register but k0 is one of seven. -/
theorem mem_maskRegs (j : KReg) (hj : j ≠ 0) : j ∈ ([1, 2, 3, 4, 5, 6, 7] : List KReg) := by
  revert hj
  revert j
  decide

/-! ### Survivors (R351) -/

section Survivor
variable (ms : List (Nat × Group)) (n T d : Nat) (L : List (Nat × Nat)) (vec : VVec) (ofc : Nat) (g : Group)

/-- A survivor is its emptied group but for the registers, the PC and the waits. -/
theorem survivor_frame : ∃ vs ks xs, survivor ms n T d L vec ofc g
    = { g.emptied L.length vec ofc with vs := vs, ks := ks, xs := xs, pc := g.pc + 4, wf := {}, waitN := none } := by
  obtain ⟨vs, hvs⟩ := Group.fillLanes_frame n L.length (laneOrigin ms L) (g.emptied L.length vec ofc)
  obtain ⟨ks, hks⟩ := Group.setKs_frame ({ g.emptied L.length vec ofc with vs := vs }) [1, 2, 3, 4, 5, 6, 7]
    (fillMask L.length (laneOrigin ms L))
  rw [survivor_filled, hvs, hks, Group.setX_frame]
  exact ⟨_, _, _, rfl⟩

theorem survivor_x (r : XReg) : (survivor ms n T d L vec ofc g).x r
    = if r = BitVec.ofNat 6 d ∧ BitVec.ofNat 6 d ≠ 0 then BitVec.ofNat 64 T else g.x r := by
  obtain ⟨vs, hvs⟩ := Group.fillLanes_frame n L.length (laneOrigin ms L) (g.emptied L.length vec ofc)
  obtain ⟨ks, hks⟩ := Group.setKs_frame ({ g.emptied L.length vec ofc with vs := vs }) [1, 2, 3, 4, 5, 6, 7]
    (fillMask L.length (laneOrigin ms L))
  rw [survivor_filled, hvs, hks]
  exact Group.x_setX _ _ _ _

theorem survivor_v (hc : L.length ≤ 64) (q l : Nat) (hl : l < 64) : (survivor ms n T d L vec ofc g).v q l
    = if q < n ∧ l < L.length then (laneOrigin ms L l).elim 0 (fun e => e.1.v q e.2) else 0 := by
  have h := Group.v_fillLanes n L.length (laneOrigin ms L) (g.emptied L.length vec ofc) q l hc hl
  rw [show (g.emptied L.length vec ofc).v q l = 0 from rfl] at h
  rw [← h]
  obtain ⟨ks, hks⟩ := Group.setKs_frame ((List.range L.length).foldl (Group.fillLane n (laneOrigin ms L)) (g.emptied L.length vec ofc))
    [1, 2, 3, 4, 5, 6, 7] (fillMask L.length (laneOrigin ms L))
  rw [survivor_filled, hks, Group.setX_frame]
  rfl

theorem survivor_k (j : KReg) (hj : j ≠ 0) (l : Nat) (hl : l < 64) : ((survivor ms n T d L vec ofc g).k j).getLsbD l
    = (decide (l < L.length ∧ l < g.gw) && (laneOrigin ms L l).elim false (fun e => (e.1.k j).getLsbD e.2)) := by
  obtain ⟨vs, hvs⟩ := Group.fillLanes_frame n L.length (laneOrigin ms L) (g.emptied L.length vec ofc)
  have hk := Group.k_setKs ({ g.emptied L.length vec ofc with vs := vs }) [1, 2, 3, 4, 5, 6, 7]
    (fillMask L.length (laneOrigin ms L)) j hj
  obtain ⟨ks, hks⟩ := Group.setKs_frame ({ g.emptied L.length vec ofc with vs := vs }) [1, 2, 3, 4, 5, 6, 7]
    (fillMask L.length (laneOrigin ms L))
  rw [if_pos (mem_maskRegs j hj), hks] at hk
  have hsur : (survivor ms n T d L vec ofc g).k j = fillMask L.length (laneOrigin ms L) j &&& g.wMask := by
    rw [survivor_filled, hvs, hks, Group.setX_frame]
    exact hk
  rw [hsur, BitVec.getLsbD_and, Group.getLsbD_wMask g l hl, fillMask, getLsbD_maskOf _ l hl]
  cases hs : laneOrigin ms L l with
  | none => simp [hs]
  | some e =>
    have hbit : bitOf (e.1.k j).toNat e.2 = (e.1.k j).getLsbD e.2 := by
      simp [bitOf, BitVec.getLsbD, Nat.testBit_eq_decide_div_mod_eq]
    simp only [List.mem_filter, List.mem_range, hs, hbit, Option.elim]
    by_cases h1 : l < L.length <;> by_cases h2 : l < g.gw <;> simp [h1, h2]

end Survivor

theorem getLsbD_firstLanes (c l : Nat) (hl : l < 64) : (firstLanes c).getLsbD l = decide (l < c) := by
  rw [firstLanes, BitVec.getLsbD_ofNat, Nat.testBit_two_pow_sub_one]
  simp [hl]

/-! ### The compaction, member by member (R351) -/

/-- The register that a member's `regroup` names for the count of lanes. -/
def Group.regroupReg (g : Group) : Nat :=
  match g.arr with
  | some (.regroup _ d) => d
  | _ => 0

/-- The live active lanes of a team's members, in order (R351). -/
def laneList (ms : List (Nat × Group)) : List (Nat × Nat) := ms.flatMap gatherLanes

/-- Member `i` of a compaction that survives. -/
def survivorAt (ms : List (Nat × Group)) (n gw i : Nat) (g : Group) : Group :=
  survivor ms n (laneList ms).length g.regroupReg (((laneList ms).drop (i * gw)).take gw)
    (ms.foldl (fun v e => vvMerge v e.2.vv) g.vv) ((ms.map (fun e => e.2.ofc.toNat)).sum) g

/-- One member's part of a compaction: the first `S` survive, the others leave. -/
def State.compactStep (ms : List (Nat × Group)) (n gw S : Nat) (s : State) (ie : Nat × (Nat × Group)) : State :=
  if ie.1 < S then { s with groups := put s.groups ie.2.1 (survivorAt ms n gw ie.1 ie.2.2) } else s.leave ie.2.1

theorem State.unlock_groups (s : State) (c : Nat) (o : RlOwner) : (s.unlock c o).groups = s.groups := rfl

theorem State.compactTeam_steps (s : State) (t n gw : Nat) (hne : s.members t ≠ []) (hgw : ∀ e ∈ s.members t, e.2.gw = gw) :
    ∃ u : State, u.groups = s.groups ∧ s.compactTeam t n
      = ((List.range (s.members t).length).zip (s.members t)).foldl
        (State.compactStep (s.members t) n gw (((laneList (s.members t)).length + gw - 1) / gw)) u := by
  have hhead : (match s.members t with | [] => 8 | e :: _ => e.2.gw) = gw := by
    cases hm : s.members t with
    | nil => exact absurd hm hne
    | cons e r => exact hgw e (hm ▸ List.mem_cons_self)
  subst hhead
  refine ⟨_, ?_, rfl⟩
  refine List.foldlRecOn (motive := fun u : State => u.groups = s.groups) _ _ ?_ (fun u hu e _ => ?_)
  · exact List.foldlRecOn (motive := fun u : State => u.groups = s.groups) _ _ rfl (fun u hu e _ => hu)
  · exact List.foldlRecOn (motive := fun u : State => u.groups = s.groups) _ _ hu (fun u hu e _ => hu)

/-- A member that a compaction leaves out (R351): gone, or waiting to leave with idle queues. -/
def State.LeftOut (s : State) (k : Nat) (g : Group) : Prop :=
  find s.groups k = none ∨ ∃ h, find s.groups k = some h ∧ h.leaving = some g.tclass ∧ h.decQ = []
    ∧ ∀ e ∈ h.opq, e.2.st = .idle ∧ e.2.entries = []

theorem stopped_idle (m : List (Nat × OpQueue)) :
    ∀ e ∈ m.map (fun e => (e.1, e.2.stopped .idle)), e.2.st = .idle ∧ e.2.entries = [] := by
  intro e he
  obtain ⟨x, -, rfl⟩ := List.mem_map.mp he
  exact ⟨rfl, rfl⟩

theorem State.leave_leaves {s : State} {k : Nat} {g : Group} {x : Option (Nat × (DWord × VVec))}
    (hk : find s.groups k = some { g with handed := x }) : (s.leave k).LeftOut k g := by
  simp only [State.leave, hk]
  split
  · exact .inl (State.endGroup_groups hk).1
  · exact .inr ⟨_, (find_put _ _ _ _).trans (if_pos rfl), rfl, rfl, stopped_idle _⟩

theorem State.leave_others (s : State) {k j : Nat} (hj : j ≠ k) : State.HandedOnly s (s.leave k) j := by
  unfold State.leave
  split
  · rfl
  · next g hk =>
    split
    · exact (State.endGroup_groups hk).2 j hj
    · exact congrArg (Option.map Group.unhanded) ((find_put _ _ _ _).trans (if_neg hj))

/-- Where a member of a compaction stands after its part of it. -/
def State.Compacted (ms : List (Nat × Group)) (n gw S : Nat) (s : State) (e : Nat × (Nat × Group)) : Prop :=
  (e.1 < S → ∃ x, find s.groups e.2.1 = some { survivorAt ms n gw e.1 e.2.2 with handed := x }) ∧ (S ≤ e.1 → s.LeftOut e.2.1 e.2.2)

section Steps
variable {ms : List (Nat × Group)} {n gw S : Nat}

theorem State.compactStep_others (s : State) (e : Nat × (Nat × Group)) {j : Nat} (hj : j ≠ e.2.1) :
    State.HandedOnly s (State.compactStep ms n gw S s e) j := by
  unfold State.compactStep
  split
  · exact congrArg (Option.map Group.unhanded) ((find_put _ _ _ _).trans (if_neg hj))
  · exact s.leave_others hj

theorem State.compactSteps_others (s : State) (l : List (Nat × (Nat × Group))) {j : Nat} (hj : ∀ e ∈ l, j ≠ e.2.1) :
    State.HandedOnly s (l.foldl (State.compactStep ms n gw S) s) j := by
  induction l generalizing s with
  | nil => rfl
  | cons e l ih =>
    exact (ih _ (fun f hf => hj f (List.mem_cons_of_mem _ hf))).trans (s.compactStep_others e (hj e List.mem_cons_self))

theorem State.compactStep_compacts {s : State} {e : Nat × (Nat × Group)} {x : Option (Nat × (DWord × VVec))}
    (hk : find s.groups e.2.1 = some { e.2.2 with handed := x }) :
    State.Compacted ms n gw S (State.compactStep ms n gw S s e) e := by
  unfold State.compactStep
  refine ⟨fun hlt => ?_, fun hge => ?_⟩
  · rw [if_pos hlt]
    exact ⟨_, (find_put _ _ _ _).trans (if_pos rfl)⟩
  · rw [if_neg (by omega)]
    exact State.leave_leaves hk

/-- What the others' parts leave of a member. -/
theorem State.Compacted.kept {s t : State} {e : Nat × (Nat × Group)} (h : State.Compacted ms n gw S s e)
    (hkept : State.HandedOnly s t e.2.1) : State.Compacted ms n gw S t e := by
  refine ⟨fun hlt => ?_, fun hge => ?_⟩
  · obtain ⟨x, hx⟩ := h.1 hlt
    obtain ⟨y, hy⟩ := hkept.some hx
    exact ⟨y, hy⟩
  · rcases h.2 hge with hn | ⟨f, hf, hl, hd, hq⟩
    · rw [State.HandedOnly, hn] at hkept
      exact .inl (Option.map_eq_none_iff.mp hkept)
    · obtain ⟨y, hy⟩ := hkept.some hf
      exact .inr ⟨_, hy, hl, hd, hq⟩

theorem State.compactSteps_compact {s : State} {l : List (Nat × (Nat × Group))} (hnd : (l.map (fun e => e.2.1)).Nodup)
    (hk : ∀ e ∈ l, ∃ x, find s.groups e.2.1 = some { e.2.2 with handed := x }) :
    ∀ e ∈ l, State.Compacted ms n gw S (l.foldl (State.compactStep ms n gw S) s) e := by
  induction l generalizing s with
  | nil => exact fun e he => absurd he List.not_mem_nil
  | cons f l ih =>
    rw [List.map_cons, List.nodup_cons] at hnd
    have hne : ∀ e ∈ l, e.2.1 ≠ f.2.1 := fun e he h => hnd.1 (h ▸ List.mem_map_of_mem he)
    intro e he
    rcases List.mem_cons.mp he with rfl | he
    · obtain ⟨x, hx⟩ := hk e List.mem_cons_self
      exact (State.compactStep_compacts hx).kept (State.compactSteps_others _ l (fun f hf => (hne f hf).symm))
    · refine ih hnd.2 (fun e he => ?_) e he
      obtain ⟨x, hx⟩ := hk e (List.mem_cons_of_mem _ he)
      exact ⟨_, ((s.compactStep_others f (hne e he)).some hx).choose_spec⟩

end Steps

/-- The live active lanes with the groups that hold them. -/
def lanesWithGroups (ms : List (Nat × Group)) (gw : Nat) : List (Group × Nat) :=
  ms.flatMap (fun e => ((List.range gw).filter (fun l => e.2.k0.getLsbD l && e.2.top.getLsbD l)).map (fun l => (e.2, l)))

theorem find_of_nodup {ms : List (Nat × Group)} (hnd : (ms.map (·.1)).Nodup) {e : Nat × Group} (he : e ∈ ms) :
    find ms e.1 = some e.2 := by
  induction ms with
  | nil => exact absurd he List.not_mem_nil
  | cons f r ih =>
    rw [List.map_cons, List.nodup_cons] at hnd
    rcases List.mem_cons.mp he with rfl | he
    · simp [find]
    · have hne : f.1 ≠ e.1 := fun h => hnd.1 (h ▸ List.mem_map_of_mem he)
      simp [find, hne, ih hnd.2 he]

/-- The keys of the lanes name the groups that hold them. -/
theorem laneList_groups {ms : List (Nat × Group)} {gw : Nat} (hnd : (ms.map (·.1)).Nodup) (hgw : ∀ e ∈ ms, e.2.gw = gw) :
    (laneList ms).map (fun e => (find ms e.1).map (fun h => (h, e.2))) = (lanesWithGroups ms gw).map some := by
  rw [laneList, lanesWithGroups, List.map_flatMap, List.map_flatMap]
  refine List.flatMap_congr (fun e he => ?_)
  have hbit (v : DWord) (l : Nat) : bitOf v.toNat l = v.getLsbD l := by
    simp [bitOf, BitVec.getLsbD, Nat.testBit_eq_decide_div_mod_eq]
  simp only [gatherLanes, hgw e he, hbit, List.map_map]
  refine List.map_congr_left (fun l _ => ?_)
  simp [find_of_nodup hnd he]

theorem laneList_length {ms : List (Nat × Group)} {gw : Nat} (hnd : (ms.map (·.1)).Nodup) (hgw : ∀ e ∈ ms, e.2.gw = gw) :
    (laneList ms).length = (lanesWithGroups ms gw).length := by
  have h := congrArg List.length (laneList_groups hnd hgw)
  rwa [List.length_map, List.length_map] at h

/-- Lane `l` of survivor `i` comes from place `gw * i + l` of the team's lanes. -/
theorem laneOrigin_survivor {ms : List (Nat × Group)} {gw : Nat} (hnd : (ms.map (·.1)).Nodup) (hgw : ∀ e ∈ ms, e.2.gw = gw)
    (i l : Nat) (hl : l < gw) :
    laneOrigin ms (((laneList ms).drop (i * gw)).take gw) l = (lanesWithGroups ms gw)[gw * i + l]? := by
  have h := congrArg (fun m => (m[gw * i + l]?).join) (laneList_groups hnd hgw)
  simp only [List.getElem?_map] at h
  rw [laneOrigin, List.getElem?_take_of_lt hl, List.getElem?_drop, Nat.mul_comm i gw]
  cases hk : (laneList ms)[gw * i + l]? <;> cases hg : (lanesWithGroups ms gw)[gw * i + l]? <;> simp_all

end Fill

/-! ### The obligation -/

theorem rowsAndGroups_registers (s : State) (g : Group) (d a : XReg) (hg : s.grp = some g) :
    let t := g.x a
    let ok := t.toNat % 16 = 0 ∧ 16 ≤ t.toNat ∧ t.toNat ≤ 256
    (ok → 0 < s.depth g.seat → exec (.claim d a) s = raise s 0x1d 0 0 ∧ exec (.give d a) s = raise s 0x1d 0 0)
    ∧ (¬ok → exec (.claim d a) s = raise s 0x03 0 (t &&& 0x1ff) ∧ exec (.give d a) s = raise s 0x03 0 (t &&& 0x1ff)) := by
  intro t ok
  refine ⟨fun hok hd => ?_, fun hbad => ?_⟩
  · exact ⟨exec_claim_inBlock hg d a ((targetOk_iff _).mpr hok) hd, exec_give_inBlock hg d a ((targetOk_iff _).mpr hok) hd⟩
  · have hno : targetOk (g.x a) = false := eq_false_of_ne_true (fun h => hbad ((targetOk_iff _).mp h))
    exact ⟨exec_claim_badTarget hg d a hno, exec_give_badTarget hg d a hno⟩

section Compaction
variable {s : State} {t n gw : Nat} (hnd : ((s.members t).map (·.1)).Nodup)
  (hfind : ∀ e ∈ s.members t, find s.groups e.1 = some e.2) (hne : s.members t ≠ []) (hgw : ∀ e ∈ s.members t, e.2.gw = gw)
include hnd hfind hne hgw

/-- Every member of a compacted team stands as its part of the compaction left it. -/
theorem State.compactTeam_member {i k : Nat} {g : Group} (hi : (s.members t)[i]? = some (k, g)) :
    State.Compacted (s.members t) n gw (((lanesWithGroups (s.members t) gw).length + gw - 1) / gw) (s.compactTeam t n) (i, (k, g)) := by
  obtain ⟨u, hu, hsteps⟩ := s.compactTeam_steps t n gw hne hgw
  rw [hsteps, laneList_length hnd hgw]
  have hkeys : (((List.range (s.members t).length).zip (s.members t)).map (fun e => e.2.1)) = (s.members t).map (·.1) := by
    rw [show (fun e : Nat × (Nat × Group) => e.2.1) = (fun e : Nat × Group => e.1) ∘ Prod.snd from rfl, ← List.map_map,
      List.map_snd_zip (by simp)]
  refine State.compactSteps_compact (by rw [hkeys]; exact hnd) (fun e he => ?_) _ ?_
  · have hmem := (List.of_mem_zip he).2
    exact ⟨e.2.2.handed, by rw [hu, hfind _ hmem]⟩
  · obtain ⟨hlt, hget⟩ := List.getElem?_eq_some_iff.mp hi
    refine List.mem_iff_getElem?.mpr ⟨i, ?_⟩
    rw [List.getElem?_zip_eq_some]
    exact ⟨by simp [hlt], hi⟩

end Compaction

section SurvivorAt
variable {ms : List (Nat × Group)} {n gw : Nat} (hnd : (ms.map (·.1)).Nodup) (hgw : ∀ e ∈ ms, e.2.gw = gw) (h64 : gw ≤ 64)

/-- The lanes that survivor `i` fills. -/
def lanesOfSurvivor (ms : List (Nat × Group)) (gw i : Nat) : List (Nat × Nat) := ((laneList ms).drop (i * gw)).take gw

include hnd hgw in
theorem length_lanesOfSurvivor (i : Nat) :
    (lanesOfSurvivor ms gw i).length = min gw ((lanesWithGroups ms gw).length - gw * i) := by
  rw [lanesOfSurvivor, List.length_take, List.length_drop, laneList_length hnd hgw, Nat.mul_comm i gw]

include hnd hgw h64

/-- The v registers, mask registers and live lanes of survivor `i` (R351). -/
theorem survivorAt_lanes (i : Nat) (g : Group) (hg : g.gw = gw) {h : Group} {x : Option (Nat × (DWord × VVec))}
    (hh : h = { survivorAt ms n gw i g with handed := x }) :
    let c := min gw ((lanesWithGroups ms gw).length - gw * i)
    (∀ l < 64, h.k0.getLsbD l = decide (l < c)) ∧ h.act = []
    ∧ (∀ r, ∀ l < 64, c ≤ l ∨ n ≤ r → h.v r l = 0) ∧ (∀ j : KReg, j ≠ 0 → ∀ l < 64, c ≤ l → (h.k j).getLsbD l = false)
    ∧ ∀ l < c, ∀ f m, (lanesWithGroups ms gw)[gw * i + l]? = some (f, m) →
      (∀ r < n, h.v r l = f.v r m) ∧ ∀ j : KReg, j ≠ 0 → (h.k j).getLsbD l = (f.k j).getLsbD m := by
  intro c
  have hlen : (lanesOfSurvivor ms gw i).length = c := length_lanesOfSurvivor hnd hgw i
  have hc : c ≤ gw := Nat.min_le_left _ _
  obtain ⟨vs, ks, xs, hframe⟩ := survivor_frame ms n (laneList ms).length g.regroupReg (lanesOfSurvivor ms gw i)
    (ms.foldl (fun v e => vvMerge v e.2.vv) g.vv) ((ms.map (fun e => e.2.ofc.toNat)).sum) g
  have hv (q l : Nat) (hl : l < 64) : h.v q l
      = if q < n ∧ l < c then (laneOrigin ms (lanesOfSurvivor ms gw i) l).elim 0 (fun e => e.1.v q e.2) else 0 := by
    rw [hh, ← hlen]
    exact survivor_v _ _ _ _ _ _ _ _ (hlen.le.trans (hc.trans h64)) q l hl
  have hk (j : KReg) (hj : j ≠ 0) (l : Nat) (hl : l < 64) : (h.k j).getLsbD l = (decide (l < c ∧ l < g.gw)
      && (laneOrigin ms (lanesOfSurvivor ms gw i) l).elim false (fun e => (e.1.k j).getLsbD e.2)) := by
    rw [hh, ← hlen]
    exact survivor_k _ _ _ _ _ _ _ _ j hj l hl
  have hsur : h = { survivor ms n (laneList ms).length g.regroupReg (lanesOfSurvivor ms gw i)
    (ms.foldl (fun v e => vvMerge v e.2.vv) g.vv) ((ms.map (fun e => e.2.ofc.toNat)).sum) g with handed := x } := hh
  refine ⟨fun l hl => ?_, ?_, fun r l hl hr => ?_, fun j hj l hl hcl => ?_, fun l hl f m hfm => ⟨fun r hr => ?_, fun j hj => ?_⟩⟩
  · rw [hsur, hframe, ← hlen]
    exact getLsbD_firstLanes _ l hl
  · rw [hsur, hframe]
    rfl
  · rw [hv r l hl, if_neg (by omega)]
  · rw [hk j hj l hl, decide_eq_false (by omega), Bool.false_and]
  · have ho : laneOrigin ms (lanesOfSurvivor ms gw i) l = some (f, m) := (laneOrigin_survivor hnd hgw i l (by omega)).trans hfm
    rw [hv r l (by omega), if_pos ⟨hr, hl⟩, ho]
    rfl
  · have ho : laneOrigin ms (lanesOfSurvivor ms gw i) l = some (f, m) := (laneOrigin_survivor hnd hgw i l (by omega)).trans hfm
    rw [hk j hj l (by omega), decide_eq_true ⟨hl, by omega⟩, ho, Bool.true_and]
    rfl

omit h64 in
/-- What of a survivor the compaction leaves or empties (R351). -/
theorem survivorAt_rest (i : Nat) (g : Group) {h : Group} {x : Option (Nat × (DWord × VVec))}
    (hh : h = { survivorAt ms n gw i g with handed := x }) :
    (∀ d b, g.arr = some (.regroup b d) → d < 64 → ∀ r : XReg,
      h.x r = if r ≠ 0 ∧ r.toNat = d then BitVec.ofNat 64 (lanesWithGroups ms gw).length else g.x r)
    ∧ h.pc = g.pc + 4 ∧ h.ret = g.ret ∧ h.gid = g.gid ∧ h.pipe = g.pipe ∧ h.soff = g.soff ∧ h.allot = g.allot ∧ h.cnt = g.cnt
    ∧ h.decQ = [] ∧ (∀ e ∈ h.opq, e.2.st = .idle ∧ e.2.entries = [])
    ∧ h.vv = ms.foldl (fun v e => vvMerge v e.2.vv) g.vv
    ∧ h.ofc = BitVec.ofNat 64 (min (ms.map (fun e => e.2.ofc.toNat)).sum (2 ^ 64 - 1)) := by
  obtain ⟨vs, ks, xs, hframe⟩ := survivor_frame ms n (laneList ms).length g.regroupReg (lanesOfSurvivor ms gw i)
    (ms.foldl (fun v e => vvMerge v e.2.vv) g.vv) ((ms.map (fun e => e.2.ofc.toNat)).sum) g
  have hsur : h = { survivor ms n (laneList ms).length g.regroupReg (lanesOfSurvivor ms gw i)
    (ms.foldl (fun v e => vvMerge v e.2.vv) g.vv) ((ms.map (fun e => e.2.ofc.toNat)).sum) g with handed := x } := hh
  refine ⟨fun d b harr hd r => ?_, ?_⟩
  · have hreg : g.regroupReg = d := by
      rw [Group.regroupReg, harr]
    have hx := survivor_x ms n (laneList ms).length g.regroupReg (lanesOfSurvivor ms gw i)
      (ms.foldl (fun v e => vvMerge v e.2.vv) g.vv) ((ms.map (fun e => e.2.ofc.toNat)).sum) g r
    rw [hreg, laneList_length hnd hgw] at hx
    rw [hsur, hreg, laneList_length hnd hgw]
    refine Eq.trans hx (if_congr ?_ rfl rfl)
    have hr : r = BitVec.ofNat 6 d ↔ r.toNat = d := by
      rw [← BitVec.toNat_inj, BitVec.toNat_ofNat, Nat.mod_eq_of_lt (by omega)]
    constructor
    · rintro ⟨rfl, h0⟩
      exact ⟨h0, hr.mp rfl⟩
    · rintro ⟨h0, h1⟩
      exact ⟨hr.mpr h1, (hr.mpr h1) ▸ h0⟩
  · rw [hsur, hframe]
    exact ⟨rfl, rfl, rfl, rfl, rfl, rfl, rfl, rfl, stopped_idle _, rfl, rfl⟩

end SurvivorAt

/-- Settles O34: rows and groups instruction by instruction, the compaction member by member, and the end of a group. -/
theorem rowsAndGroups : Obligations.RowsAndGroups := by
  unfold Obligations.RowsAndGroups
  refine ⟨fun s g d a hg => ?rows, fun s g d a hg => ⟨?exit, ?regroup, ?block⟩, ?compaction, ?ending⟩
  case rows =>
    intro t ok q p
    have hok : ok → targetOk (g.x a) = true := (targetOk_iff _).mpr
    obtain ⟨hin, hbad⟩ := rowsAndGroups_registers s g d a hg
    exact ⟨fun h hd hb => exec_claim_held hg d a (hok h) hd hb, fun h hd hb => exec_claim_takes hg d a (hok h) hd hb,
      fun h hd hb => exec_give_lowers hg d a (hok h) hd hb, fun h hd hb => exec_give_held hg d a (hok h) hd hb, hin, hbad⟩
  case exit => exact fun hd hb hi hc hr ha => exec_exit_ends hg hd hb (State.exitReady_of_idle hb hi hc hr ha)
  case regroup => exact fun hd hb hm hlow hall => exec_regroup_compacts hg d a hd hb hm rfl hlow hall
  case block => exact fun hd => ⟨exec_exit_inBlock hg hd, exec_regroup_inBlock hg d a hd⟩
  case compaction =>
    intro s t n gw ms hnd hfind hne _ h64 hgw L S u i k g hi
    obtain ⟨hsurvives, hleaves⟩ := State.compactTeam_member (n := n) hnd hfind hne hgw hi
    refine ⟨fun hlt => ?_, hleaves⟩
    obtain ⟨x, hx⟩ := hsurvives hlt
    have hg : g.gw = gw := hgw _ (List.mem_of_getElem? hi)
    exact ⟨_, hx, survivorAt_lanes hnd hgw h64 i g hg rfl, survivorAt_rest hnd hgw i g rfl⟩
  case ending =>
    intro s k g tm hk ht u
    obtain ⟨hnone, hothers⟩ := State.endGroup_groups hk
    refine ⟨hnone, fun j f hj hf => ?_, ?_⟩
    · obtain ⟨x, hx⟩ := (hothers j hj).some hf
      exact ⟨_, hx, rfl⟩
    · have hu : u = _ := State.endGroup_folded hk ht
      generalize hv : ({ s.setTeam g.seat { tm with vec := vvMerge tm.vec g.vv } with
        launches := upd s.launches tm.launch (fun l => { l with exitV := vvMerge l.exitV g.vv }) } : State) = v at hu
      have hkv : find v.groups k = some g := by rw [← hv]; exact hk
      obtain ⟨hl, hbyte, hser, hlock⟩ := State.dropGroup_rest hkv
      rw [hu]
      refine ⟨fun L hL => ?_, ?_, fun e he hs => ?_, hlock, fun a => ?_⟩
      · rw [hl, ← hv]
        exact (find_upd _ _ _ _).trans ((if_pos rfl).trans (congrArg (Option.map _) hL))
      · have hvec := State.dropGroup_vecOf hkv g.seat
        have hold : v.vecOf g.seat = some (vvMerge tm.vec g.vv) := by
          rw [← hv]
          exact congrArg (Option.map Team.vec) ((find_put _ _ _ _).trans (if_pos rfl))
        rw [hold] at hvec
        obtain ⟨x, hx, hxv⟩ := Option.map_eq_some_iff.mp hvec
        exact ⟨x, hx, hxv⟩
      · rw [hser e he hs, ← hv]
        rfl
      · rw [hbyte a, ← hv]
        rfl

end Sys2Proof.Machine
end

section
/-! SUPPORT. Settles the recovery instructions (R370 to R402): the tags that hide values of cells, what accepting a level
publishes or passes outward, the opening of a level, and the instructions. -/

namespace Sys2Proof.Machine

open Sys2Proof

/-! ### The tags that hide values (R380, R382) -/

namespace State

/-- Tag `h` hides a value of word `w`. -/
def Hides (s : State) (w : Nat) (h : HidTag) : Prop := ∃ c, find s.cells w = some c ∧ ∃ v ∈ c.vals, v.hid = some h

/-- No word of `t` has a tag that it lacks in `s`. -/
def HidesKept (s t : State) : Prop := ∀ w h, t.Hides w h → s.Hides w h

theorem HidesKept.refl (s : State) : HidesKept s s := fun _ _ h => h

theorem HidesKept.trans {s t u : State} (h : HidesKept s t) (h' : HidesKept t u) : HidesKept s u := fun w x hx => h w x (h' w x hx)

theorem HidesKept.of_cells {s t : State} (h : t.cells = s.cells) : HidesKept s t := fun w x hx => by rwa [Hides, h] at hx

theorem HidesKept.setSlice {s t : State} (h : HidesKept s t) (k : Nat) (v : Slice) : HidesKept s (t.setSlice k v) := h

theorem HidesKept.foldl {β : Type} (f : State → β → State) (h : ∀ s x, HidesKept s (f s x)) (l : List β) (s : State) :
    HidesKept s (l.foldl f s) := by
  induction l generalizing s with
  | nil => exact .refl s
  | cons x r ih => exact (h s x).trans (ih (f s x))

/-- A line that leaves the dot array leaves the values of its cells, or takes their records away. -/
theorem hidesKept_dropLine (s : State) (l : Nat) : HidesKept s (s.dropLine l) := by
  intro w x hx
  rw [Hides, cells_dropLine] at hx
  generalize sumDots ((lineWords l).flatMap s.wordDots) = d at hx
  unfold sumCells at hx
  have hfold : ∀ (ws : List Nat) (m : List (Nat × CellRec)), (∃ c, find (ws.foldl (fun m w =>
      match find m w with
      | none => m
      | some r => if bareRec r then del m w else put m w (r.summed d)) m) w = some c ∧ ∃ v ∈ c.vals, v.hid = some x) →
      ∃ c, find m w = some c ∧ ∃ v ∈ c.vals, v.hid = some x := by
    intro ws
    induction ws with
    | nil => exact fun m h => h
    | cons u r ih =>
      intro m h
      obtain ⟨c, hc, hv⟩ := ih _ h
      dsimp only at hc
      split at hc
      · exact ⟨c, hc, hv⟩
      · next r' hr' =>
        split at hc
        · rw [find_del] at hc
          split at hc
          · cases hc
          · exact ⟨c, hc, hv⟩
        · rw [find_put] at hc
          split at hc
          · next hu =>
            cases hc
            exact ⟨r', hu ▸ hr', hv⟩
          · exact ⟨c, hc, hv⟩
  exact hfold _ _ hx

theorem hidesKept_touchLine (s : State) (l : Nat) (t : BitVec 40) : HidesKept s (s.touchLine l t) := by
  refine (HidesKept.of_cells (s.cells_reown l)).trans ?_
  unfold touchLine
  dsimp only
  refine HidesKept.setSlice ?_ _ _
  split
  · exact .refl _
  · split
    · exact .refl _
    · split
      · exact .refl _
      · exact hidesKept_dropLine _ _

/-- A word whose record is written has the tags of its values, and the other words those they had. -/
theorem hides_setRec {s t : State} {w u : Nat} {q : CellRec} {l : List CellVal} {h : HidTag} (ht : t.cells = s.cells)
    (hq : ∀ v ∈ q.vals, v ∈ l) (h0 : (t.setRec w q).Hides u h) : (u = w ∧ ∃ v ∈ l, v.hid = some h) ∨ (u ≠ w ∧ s.Hides u h) := by
  obtain ⟨c, hc, v, hv, hvh⟩ := h0
  rw [setRec_cells, find_put] at hc
  by_cases hu : u = w
  · rw [if_pos hu] at hc
    cases hc
    exact .inl ⟨hu, v, hq v hv, hvh⟩
  · rw [if_neg hu, ht] at hc
    exact .inr ⟨hu, c, hc, v, hv, hvh⟩

/-- A settled cell has the tags of its values, and the other words those they had. -/
theorem hides_settle {s : State} {w u : Nat} {r : CellRec} {h : HidTag} (hs : (s.settle w r).Hides u h) :
    (u = w ∧ ∃ v ∈ r.vals, v.hid = some h) ∨ (u ≠ w ∧ s.Hides u h) := by
  have hval (v : CellVal) : (s.setVal w v).cells = s.cells := setWord_cells s w v.val
  unfold settle at hs
  dsimp only at hs
  split at hs
  · next v hv =>
    split at hs
    · exact hides_setRec (hval v) (fun v hv => absurd hv List.not_mem_nil)
        (hidesKept_touchLine ((s.setVal w v).setRec w _) _ _ u h hs)
    · exact hides_setRec (t := s) (q := { r with vrec := standing r.vals r.vrec }) rfl (fun v hv => hv) hs
  · split at hs
    · next v _ _ => exact hides_setRec (q := { r with vrec := standing r.vals r.vrec }) (hval v) (fun v hv => hv) hs
    · exact hides_setRec (t := s) (q := { r with vrec := standing r.vals r.vrec }) rfl (fun v hv => hv) hs

theorem hidesKept_evictRecs (s : State) (k n : Nat) : HidesKept s (s.evictRecs k n) := by
  induction n generalizing s with
  | zero => exact .refl s
  | succ n ih =>
    unfold evictRecs
    split
    · exact .refl s
    · split
      · exact .refl s
      · next w v _ =>
        refine HidesKept.trans (fun u h hu => ?_) (ih _)
        obtain ⟨c, hc, x, hx, hh⟩ := hu
        dsimp only at hc
        rw [find_upd] at hc
        split at hc
        · next huw =>
          obtain ⟨r, hr, rfl⟩ := Option.map_eq_some_iff.mp hc
          exact ⟨r, huw ▸ hr, x, hx, hh⟩
        · exact ⟨c, hc, x, hx, hh⟩

theorem withVals_vals (s : State) (w : Nat) (r : CellRec) (vals : List CellVal) (b : Option Word) :
    (s.withVals w r vals b).1.vals = vals ∧ (s.withVals w r vals b).2.cells = s.cells := by
  unfold withVals
  split
  · dsimp only
    split <;> exact ⟨rfl, rfl⟩
  · exact ⟨rfl, rfl⟩

/-- Reworking the values of a word that the tags `p` touch leaves the other words, and gives the word the tags of the new values. -/
theorem hides_rework {s : State} {w u : Nat} {p : HidTag → Bool} {f : List CellVal → List CellVal} {g : Option HidTag → Option HidTag}
    {h : HidTag} (hs : (s.rework w p f g).Hides u h) :
    (u = w ∧ ∃ r, find s.cells w = some r ∧ ∃ v ∈ f r.vals, v.hid = some h)
    ∨ (s.Hides u h ∧ (u = w → ∀ r, find s.cells w = some r → r.vals.any (touchedBy p) = false)) := by
  unfold rework at hs
  split at hs
  · next hnone =>
    exact .inr ⟨hs, fun hu r hr => by rw [hnone] at hr; cases hr⟩
  · next r hr =>
    split at hs
    · dsimp only at hs
      rcases hides_settle (hidesKept_evictRecs _ _ _ _ _ hs) with ⟨hu, v, hv, hvh⟩ | ⟨hu, h1⟩
      · refine .inl ⟨hu, r, hr, v, ?_, hvh⟩
        rwa [show _ = _ from (withVals_vals _ _ _ _ _).1] at hv
      · exact .inr ⟨HidesKept.of_cells (withVals_vals _ _ _ _ _).2 _ _ h1, fun h => absurd h hu⟩
    · next hno =>
      refine .inr ⟨hs, fun hu r' hr' => ?_⟩
      rw [hr] at hr'
      cases hr'
      exact eq_false_of_ne_true hno

/-! ### Publication and passing outward (R379, R382) -/

/-- A word that is worked over holds a tag that it had, and of which none is of team `t`. -/
theorem hides_publishWord {s : State} {t w u : Nat} {h : HidTag} {g : Option HidTag → Option HidTag}
    (hs : (s.rework w (tagOf t 0) (publishVals t) g).Hides u h) : s.Hides u h ∧ (u = w → h.team ≠ t) := by
  have htag (v : CellVal) (hv : v.hid = some h) (hno : tagged (tagOf t 0) v.hid = false) : h.team ≠ t := by
    simpa [hv, tagged, tagOf] using hno
  rcases hides_rework hs with ⟨rfl, r, hr, v, hv, hvh⟩ | ⟨hold, hclear⟩
  · obtain ⟨v0, hv0, heq⟩ := List.mem_map.mp hv
    by_cases hno : tagged (tagOf t 0) v0.hid = true
    · rw [if_pos hno] at heq
      rw [← heq] at hvh
      cases hvh
    · rw [if_neg hno] at heq
      subst heq
      exact ⟨⟨r, hr, v0, (List.mem_filter.mp hv0).1, hvh⟩, fun _ => htag v0 hvh (eq_false_of_ne_true hno)⟩
  · refine ⟨hold, fun hu => ?_⟩
    obtain ⟨r, hr, v, hv, hvh⟩ := hold
    have hno := List.any_eq_false.mp (hclear hu r (hu ▸ hr)) v hv
    exact htag v hvh (by simpa using (Bool.or_eq_false_iff.mp (eq_false_of_ne_true hno)).1)

/-- A word whose value a tag of team `t` hides is among the team's cells. -/
theorem Hides.mem_cellsOf {s : State} {t u : Nat} {h : HidTag} (hs : s.Hides u h) (ht : h.team = t) : u ∈ s.cellsOf t := by
  obtain ⟨c, hc, v, hv, hvh⟩ := hs
  refine List.mem_map.mpr ⟨(u, c), List.mem_filter.mpr ⟨mem_of_find hc, ?_⟩, rfl⟩
  refine List.any_eq_true.mpr ⟨v, hv, ?_⟩
  simp [touchedBy, hvh, tagged, ht]

/-- After the publication of a team's hidden values no tag of it is left, and no tag is new (R382). -/
theorem hides_publish {s : State} {t u : Nat} {h : HidTag} (hs : (s.publish t).Hides u h) : s.Hides u h ∧ h.team ≠ t := by
  have hfold (l : List Nat) (s : State) (hl : (l.foldl (fun s w => s.rework w (tagOf t 0) (publishVals t)
      (fun h => if tagged (tagOf t 0) h then none else h)) s).Hides u h) : s.Hides u h ∧ (u ∈ l → h.team ≠ t) := by
    induction l generalizing s with
    | nil => exact ⟨hl, fun hu => absurd hu List.not_mem_nil⟩
    | cons w l ih =>
      obtain ⟨hstep, hin⟩ := ih _ hl
      obtain ⟨hold, hw⟩ := hides_publishWord hstep
      exact ⟨hold, fun hu => (List.mem_cons.mp hu).elim hw hin⟩
  obtain ⟨hold, hin⟩ := hfold _ _ hs
  exact ⟨hold, fun ht => hin (hold.mem_cellsOf ht) ht⟩

/-- The record of a word whose values pass outward. -/
def passWord (t lv : Nat) (s : State) (w : Nat) : State :=
  match find s.cells w with
  | none => s
  | some r => s.settle w { r with vals := mergeVals t lv r.vals, vrec := r.vrec.map (fun v => { v with hid := v.hid.map (lowerTag t lv) }) }

theorem passOut_words (s : State) (t lv : Nat) : s.passOut t lv = (s.cellsOf t).foldl (passWord t lv) s := rfl

/-- A tag that has passed outward is of another team, or of a level further out. -/
theorem lowerTag_level (t lv : Nat) (h : HidTag) (ht : (lowerTag t lv h).team = t) : (lowerTag t lv h).level ≤ lv - 1 := by
  unfold lowerTag at ht ⊢
  split
  · exact Nat.le_refl _
  · next hno =>
    rw [if_neg hno] at ht
    simp [tagOf, ht] at hno
    omega

theorem hides_passWord {s : State} {t lv w u : Nat} {h : HidTag} (hs : (passWord t lv s w).Hides u h) :
    (u ≠ w ∧ s.Hides u h) ∨ (u = w ∧ (h.team = t → h.level ≤ lv - 1)) := by
  unfold passWord at hs
  split at hs
  · next hnone =>
    refine .inl ⟨fun hu => ?_, hs⟩
    obtain ⟨c, hc, -⟩ := hs
    rw [hu, hnone] at hc
    cases hc
  · next r hr =>
    rcases hides_settle hs with ⟨hu, v, hv, hvh⟩ | hold
    · refine .inr ⟨hu, ?_⟩
      obtain ⟨v0, -, rfl⟩ := List.mem_map.mp (List.mem_filter.mp hv).1
      obtain ⟨h0, -, rfl⟩ := Option.map_eq_some_iff.mp hvh
      exact lowerTag_level t lv h0
    · exact .inl hold

/-- After a level's hidden values have passed outward the tags of the team are of the levels further out (R379). -/
theorem hides_passOut {s : State} {t lv u : Nat} {h : HidTag} (hs : (s.passOut t lv).Hides u h) (ht : h.team = t) :
    h.level ≤ lv - 1 := by
  have hfold (l : List Nat) (s : State) (hl : (l.foldl (passWord t lv) s).Hides u h) :
      (h.team = t → h.level ≤ lv - 1) ∨ (u ∉ l ∧ s.Hides u h) := by
    induction l generalizing s with
    | nil => exact .inr ⟨List.not_mem_nil, hl⟩
    | cons w l ih =>
      rcases ih _ hl with hp | ⟨hu, hstep⟩
      · exact .inl hp
      · rcases hides_passWord hstep with ⟨hw, hold⟩ | ⟨-, hp⟩
        · exact .inr ⟨fun hm => (List.mem_cons.mp hm).elim hw hu, hold⟩
        · exact .inl hp
  rcases hfold _ _ (s.passOut_words t lv ▸ hs) with hp | ⟨hu, hold⟩
  · exact hp ht
  · exact absurd (hold.mem_cellsOf ht) hu

/-! ### What travels to the homes brings no tag (R296, R382) -/

/-- A record of no values brings no tag. -/
theorem hidesKept_setEmpty (s : State) (w : Nat) (v : Word) (p : Bool) {q : CellRec} (hq : q.vals = []) :
    HidesKept s (((s.setWord w v).setPois w p).setRec w q) := by
  intro u h hu
  rcases hides_setRec (s := s) (t := (s.setWord w v).setPois w p) (q := q) (l := []) (setWord_cells s w v)
    (fun v hv => by rwa [hq] at hv) hu with ⟨-, v, hv, -⟩ | ⟨-, hold⟩
  · exact absurd hv List.not_mem_nil
  · exact hold

theorem hidesKept_fill (s : State) (w : Nat) (x : L1Word) : HidesKept s (s.fill w x) := by
  have hword (v : Word) (p : Bool) : HidesKept s ((s.setWord w v).setPois w p) := .of_cells (setWord_cells s w v)
  unfold fill
  dsimp only
  split
  · exact .refl s
  · split
    · split
      · next hempty =>
        split
        · split
          · exact hword _ _
          · refine (s.hidesKept_setEmpty w _ _ ?_).trans (hidesKept_touchLine _ _ _)
            unfold CellRec.filled
            split <;> exact List.isEmpty_iff.mp hempty
        · exact .refl s
      · next hne =>
        intro u h hu
        rcases hides_settle hu with ⟨rfl, v, hv, hvh⟩ | ⟨-, hold⟩
        · obtain ⟨v0, hv0, rfl⟩ := List.mem_map.mp hv
          have hhid : v0.hid = some h := by
            rw [← hvh]
            split <;> rfl
          cases hc : find s.cells u with
          | none =>
            rw [cellRec, hc] at hv0
            exact absurd hv0 List.not_mem_nil
          | some r =>
            rw [cellRec_of_find hc] at hv0
            exact ⟨r, hc, v0, hv0, hhid⟩
        · exact hold
    · exact hword _ _

theorem hidesKept_writeBack (s : State) (c w : Nat) : HidesKept s (s.writeBack c w) := by
  unfold writeBack
  split
  · exact .refl s
  · split
    · exact (s.hidesKept_fill w _).trans (.of_cells (cells_expectAck _ _ _ _))
    · exact .refl s

theorem hidesKept_writeBackAll (s : State) (w : Nat) (k : Option Nat) : HidesKept s (s.writeBackAll w k) :=
  .foldl _ (fun t e => by
    split
    · exact .refl t
    · exact t.hidesKept_writeBack _ _) _ s

/-- A change to the L1s brings no tag. -/
theorem hidesKept_unpinWords (s : State) (l : List (Nat × Nat × L1Word)) : HidesKept s (s.unpinWords l) := by
  unfold unpinWords
  refine (HidesKept.foldl _ (fun t e => ?_) l s).trans (HidesKept.foldl _ (fun t e => ?_) l _)
  · dsimp only
    split <;> exact .of_cells rfl
  · split
    · exact t.hidesKept_writeBackAll _ _
    · exact .refl t

theorem hidesKept_publishVec (s : State) (k sc : Nat) : HidesKept s (s.publishVec k sc) := by
  refine .of_cells ?_
  unfold publishVec
  split
  · rfl
  · split
    · rfl
    · dsimp only
      split <;> split <;> rfl

/-- After an acceptance at level 1 no tag of the team is left (R382). -/
theorem hides_publishTeam {s : State} {t u : Nat} {h : HidTag} (hs : (s.publishTeam t).Hides u h) : h.team ≠ t := by
  unfold publishTeam at hs
  dsimp only at hs
  have h1 := HidesKept.foldl _ (fun t (e : Nat × Group) => t.hidesKept_publishVec e.1 1) _ _ _ _ hs
  have h2 := HidesKept.foldl _ (fun (t : State) (x : HidVal) => by
    split
    · exact .refl t
    · exact .of_cells (t.triggerAs_frame _ _ _).2) _ _ _ _ h1
  exact (hides_publish (hidesKept_unpinWords _ _ _ _ h2)).2

/-! ### Groups and teams through an acceptance -/

/-- `t` has the groups of `s`, and the same teams are seated. -/
def RosterKept (s t : State) : Prop := t.groups = s.groups ∧ ∀ k, (find t.teams k).isSome = (find s.teams k).isSome

theorem RosterKept.refl (s : State) : RosterKept s s := ⟨rfl, fun _ => rfl⟩

theorem RosterKept.trans {s t u : State} (h : RosterKept s t) (h' : RosterKept t u) : RosterKept s u :=
  ⟨h'.1.trans h.1, fun k => (h'.2 k).trans (h.2 k)⟩

theorem RosterKept.of_eq {s t : State} (hg : t.groups = s.groups) (ht : t.teams = s.teams) : RosterKept s t :=
  ⟨hg, fun _ => by rw [ht]⟩

theorem RosterKept.foldl {β : Type} (f : State → β → State) (h : ∀ s x, RosterKept s (f s x)) (l : List β) (s : State) :
    RosterKept s (l.foldl f s) := by
  induction l generalizing s with
  | nil => exact .refl s
  | cons x r ih => exact (h s x).trans (ih (f s x))

theorem RosterKept.of_allKept {s t : State} (h : AllKept s t) : RosterKept s t := .of_eq h.groups h.teams

theorem RosterKept.of_homeOnly {s t : State} (h : HomeOnly s t) : RosterKept s t := .of_allKept (.of_homeOnly h)

theorem rosterKept_rework (s : State) (w : Nat) (p : HidTag → Bool) (f : List CellVal → List CellVal)
    (g : Option HidTag → Option HidTag) : RosterKept s (s.rework w p f g) := by
  unfold rework
  split
  · exact .refl s
  · split
    · exact .of_homeOnly (((s.homeOnly_withVals _ _ _ _).trans (homeOnly_settle _ _ _)).trans (homeOnly_evictRecs _ _ _))
    · exact .refl s

theorem rosterKept_passOut (s : State) (t lv : Nat) : RosterKept s (s.passOut t lv) :=
  .foldl _ (fun s w => by
    split
    · exact .refl s
    · exact .of_homeOnly (s.homeOnly_settle _ _)) _ s

theorem rosterKept_unpinWords (s : State) (l : List (Nat × Nat × L1Word)) : RosterKept s (s.unpinWords l) := by
  unfold unpinWords
  refine (RosterKept.foldl _ (fun t e => ?_) l s).trans (RosterKept.foldl _ (fun t e => ?_) l _)
  · dsimp only
    split <;> exact .of_eq rfl rfl
  · split
    · exact .of_allKept (t.allKept_writeBackAll _ _)
    · exact .refl t

theorem rosterKept_publishVec (s : State) (k : Nat) : RosterKept s (s.publishVec k 1) := by
  unfold publishVec
  split
  · exact .refl s
  · next g _ =>
    split
    · exact .refl s
    · next tm htm =>
      refine ⟨rfl, fun j => ?_⟩
      simp only [Nat.le_refl, if_true]
      rw [if_neg (by decide), setTeam_teams, find_put]
      split
      · next hj => rw [hj, htm]; rfl
      · rfl

theorem rosterKept_publishTeam (s : State) (t : Nat) : RosterKept s (s.publishTeam t) := by
  unfold publishTeam
  dsimp only
  refine RosterKept.trans ?_ (.foldl _ (fun s (e : Nat × Group) => s.rosterKept_publishVec e.1) _ _)
  refine RosterKept.trans ?_ (.foldl _ (fun s x => ?_) _ _)
  · refine RosterKept.trans ?_ (rosterKept_unpinWords _ _)
    refine RosterKept.trans ?_ (.foldl _ (fun s w => s.rosterKept_rework w _ _ _) _ _)
    exact .foldl _ (fun s e => .of_homeOnly (s.homeOnly_fill _ _)) _ _
  · split
    · exact .refl s
    · exact .of_allKept (s.allKept_triggerAs _ _ _)

end State

/-! ### Members that go on (R397, R399) -/

/-- Changing the members of a team changes each as `f` does. -/
theorem State.find_mapMembers (s : State) (t : Nat) (f : Group → Group) {k : Nat} {g : Group} (hk : find s.groups k = some g)
    (ht : g.seat = t) : find (s.mapMembers t f).groups k = some (f g) := by
  have hf : (fun e : Nat × Group => if e.2.seat = t then (e.1, f e.2) else e)
      = fun e => (e.1, if e.2.seat = t then f e.2 else e.2) := by
    funext e
    split <;> rfl
  rw [State.mapMembers, hf]
  dsimp only
  rw [find_map_entry (fun _ (x : Group) => if x.seat = t then f x else x), hk, Option.map_some, if_pos ht]

theorem State.find_release (s : State) (t : Nat) (f : Group → Group) {k : Nat} {g : Group} (hk : find s.groups k = some g)
    (ht : g.seat = t) : find (s.release t f).groups k = some { f g with arr := none, wf := {}, waitN := none } :=
  s.find_mapMembers t _ hk ht

/-! ### The close of an accepted level (R379, R382, R399) -/

/-- What acceptance does to the hidden values of a level: published at level 1, else passed outward. -/
def State.levelOut (s : State) (t lv : Nat) : State :=
  if lv = 1 then s.publishTeam t else
    { s.passOut t lv with cores := (s.passOut t lv).cores.map (fun c =>
        (c.1, { c.2 with l1 := c.2.l1.map (fun e => (e.1, { e.2 with hid := e.2.hid.map (fun h =>
          if tagOf t lv h then { h with level := lv - 1 } else h) })) })) }

theorem State.rosterKept_levelOut (s : State) (t lv : Nat) : State.RosterKept s (s.levelOut t lv) := by
  unfold State.levelOut
  split
  · exact s.rosterKept_publishTeam t
  · exact s.rosterKept_passOut t lv

/-- The levels that an acceptance leaves open. -/
def levelsLeft (l : Level) : List Level → List Level
  | [] => []
  | o :: q => passCaps l o :: q

theorem State.acceptLevel_closes {s : State} {t : Nat} {tm : Team} {l : Level} {r : List Level} (ht : find s.teams t = some tm)
    (hl : tm.levels = l :: r) : ∃ x : Team, x.levels = levelsLeft l r
      ∧ x.rbst = { tm.rbst with outcome := 1, lalt := l.alt, ldepth := r.length + 1, nfail := l.nfail }
      ∧ s.acceptLevel t = ((s.levelOut t (r.length + 1)).setTeam t x).release t (fun g => { g with pc := l.endA }) := by
  have hsome := (s.rosterKept_levelOut t (r.length + 1)).2 t
  rw [ht] at hsome
  obtain ⟨tm', htm'⟩ := Option.isSome_iff_exists.mp hsome
  refine ⟨{ tm' with levels := levelsLeft l r, passed := false
                     rbst := { tm.rbst with outcome := 1, lalt := l.alt, ldepth := r.length + 1, nfail := l.nfail } }, rfl, rfl, ?_⟩
  rw [State.acceptLevel]
  simp only [ht, hl]
  rw [show (if r.length + 1 = 1 then s.publishTeam t else _) = s.levelOut t (r.length + 1) from rfl]
  simp only [htm']
  rfl

/-- The tags of a team after a level of it is accepted. -/
theorem State.hides_levelOut {s : State} {t u : Nat} {r : List Level} {h : HidTag} (hs : (s.levelOut t (r.length + 1)).Hides u h)
    (ht : h.team = t) : r ≠ [] ∧ h.level ≤ r.length := by
  unfold State.levelOut at hs
  split at hs
  · exact absurd ht (State.hides_publishTeam hs)
  · next hne =>
    refine ⟨fun hr => hne (by rw [hr]; rfl), ?_⟩
    exact State.hides_passOut (lv := r.length + 1) hs ht

/-- Settling part of O37: what accepting a level does to the team and its members. -/
theorem State.acceptLevel_spec {s : State} {t : Nat} {tm : Team} {l : Level} {r : List Level} (ht : find s.teams t = some tm)
    (hl : tm.levels = l :: r) :
    (∀ k g, find s.groups k = some g → g.seat = t → ∃ h, find (s.acceptLevel t).groups k = some h ∧ h.pc = l.endA ∧ h.arr = none)
    ∧ (∀ u h, (s.acceptLevel t).Hides u h → h.team = t → r ≠ [] ∧ h.level ≤ r.length)
    ∧ ∃ x, find (s.acceptLevel t).teams t = some x
      ∧ x.rbst = { tm.rbst with outcome := 1, lalt := l.alt, ldepth := r.length + 1, nfail := l.nfail }
      ∧ x.levels = levelsLeft l r := by
  obtain ⟨x, hlv, hrb, heq⟩ := State.acceptLevel_closes ht hl
  rw [heq]
  refine ⟨fun k g hk hg => ⟨_, State.find_release _ t _ ?_ hg, rfl, rfl⟩, fun u h hu => State.hides_levelOut hu, x, ?_, hrb, hlv⟩
  · exact (congrArg (fun m => find m k) (s.rosterKept_levelOut t (r.length + 1)).1).trans hk
  · exact (find_put _ _ _ _).trans (if_pos rfl)

/-! ### The opening of a level (R371, R377, R386, R397) -/

/-- A team in no conversation, or inside a level, misses no round. -/
theorem State.joinRound_inner {s : State} {t : Nat} (h : s.convOf t = none ∨ ∃ tm, find s.teams t = some tm ∧ 2 ≤ tm.levels.length) :
    s.joinRound t = s := by
  unfold State.joinRound
  rcases h with h | ⟨tm, htm, hlen⟩
  · simp only [h]
  · rw [htm]
    split
    · next heq =>
      cases heq
      split
      · next hl =>
        rw [hl] at hlen
        exact absurd hlen (Nat.not_succ_le_self 1)
      · rfl
    · rfl

theorem State.convOf_none {s : State} {t : Nat} {tm : Team} (ht : find s.teams t = some tm) (hc : tm.conv = none) :
    s.convOf t = none := by
  simp [State.convOf, ht, hc]

/-- The state in which a level has been opened (R377). -/
def State.opened (s : State) (t : Nat) (tm : Team) (l : Level) : State :=
  (s.setTeam t { tm with levels := l :: tm.levels
                         round := if tm.levels.length + 1 = 1 then tm.round + 1 else tm.round }).release t
    (fun g => { g with pc := g.pc + 4 })

/-- The levels around a level that is exhausted: the innermost is doomed (R386). -/
def doomedLevels : List Level → List Level
  | [] => []
  | l :: r => { l with doom := true } :: r

/-- What a level that is exhausted at its opening leaves of its team's round (R389). -/
def State.roundShut (s : State) (t : Nat) (conv : Option (Nat × Conv)) : State :=
  match conv with
  | some (c, _) => s.endRound t c 0
  | none => s

theorem State.roundShut_none {s : State} {t : Nat} {conv : Option (Nat × Conv)} (h : conv = none) : s.roundShut t conv = s := by
  rw [h]
  rfl

/-- A team whose block has closed exhausted (R386). -/
def Team.exhausted (tm : Team) (lalt ldepth nfail : Nat) (rest : List Level) : Team :=
  { tm with levels := doomedLevels rest, fail := none, passed := false
            rbst := { tm.rbst with outcome := 2, lalt := lalt, ldepth := ldepth, nfail := nfail } }

theorem State.exhaust_eq {s : State} {t : Nat} {tm : Team} (ht : find s.teams t = some tm) (errA : DWord)
    (lalt ldepth nfail : Nat) (rest : List Level) : s.exhaust t errA lalt ldepth nfail rest
      = (s.setTeam t (tm.exhausted lalt ldepth nfail rest)).release t (fun g => { g with pc := errA, disp := true }) := by
  simp only [State.exhaust, ht]
  rfl

section Open
variable {s : State} {t : Nat} {tm : Team} (ht : find s.teams t = some tm) (hc : tm.conv = none ∨ tm.levels ≠ [])
include ht hc

theorem State.openLevel_opens (ms : List (Nat × Group)) (lim e r : DWord) (as : List DWord) (hfit : s.granFit t (32 * ms.length) = true) :
    s.openLevel t ms lim e r as
      = s.opened t tm { endA := e, errA := r, alts := as, limit := lim.toNat % 2 ^ 48, frames := framesOf ms } := by
  simp only [State.openLevel, ht, hfit, if_true]
  refine State.joinRound_inner ?_
  have hteam (x : Team) : find (put s.teams t x) t = some x := (find_put _ _ _ _).trans (if_pos rfl)
  rcases hc with hc | hl
  · exact .inl (State.convOf_none (hteam _) hc)
  · refine .inr ⟨_, hteam _, ?_⟩
    have := List.length_pos_of_ne_nil hl
    simp only [List.length_cons]
    omega

/-- A level whose frames Sepia cannot hold is exhausted at once (R386). -/
theorem State.openLevel_shuts (ms : List (Nat × Group)) (lim e r : DWord) (as : List DWord)
    (hfull : s.granFit t (32 * ms.length) = false) : ∃ (u : State) (x : Team),
      s.openLevel t ms lim e r as = u.release t (fun g => { g with pc := r, disp := true })
      ∧ u.groups = s.groups ∧ find u.teams t = some x
      ∧ x.rbst.cause = 6 ∧ x.rbst.outcome = 2 ∧ x.rbst.ldepth = tm.levels.length + 1 ∧ x.levels = doomedLevels tm.levels := by
  have hteam (u : State) (x : Team) : find (u.setTeam t x).teams t = some x := (find_put _ _ _ _).trans (if_pos rfl)
  simp only [State.openLevel, ht, hfull, Bool.false_eq_true, if_false]
  generalize hx : ({ tm with
    rbst := { tm.rbst with cause := 6, ftrap := 0, fgid := (ms.head?.map (fun e => e.2.gid)).getD 0 }
    round := if tm.levels.length + 1 = 1 then tm.round + 1 else tm.round } : Team) = x
  have hconv : x.conv = tm.conv := by rw [← hx]
  have hrb : x.rbst.cause = 6 := by rw [← hx]
  rw [State.exhaust_eq (hteam s x)]
  refine ⟨(s.setTeam t x).setTeam t (x.exhausted 0 (tm.levels.length + 1) 0 tm.levels), _, State.roundShut_none ?_, rfl, hteam _ _, hrb,
    rfl, rfl, rfl⟩
  rcases hc with hc | hl
  · split
    · exact State.convOf_none (hteam _ _) (hconv.trans hc)
    · rfl
  · exact if_neg (by have := List.length_pos_of_ne_nil hl; omega)

end Open

/-! ### A recorded failure (R376, R389) -/

theorem State.failAlt_records {s : State} {t lv : Nat} {tm : Team} (cause ftrap fgid : Nat) (ht : find s.teams t = some tm)
    (hf : tm.fail = none) (hc : lv ≠ 1 ∨ tm.conv = none) : s.failAlt t lv cause ftrap fgid
      = s.setTeam t { tm with fail := some { level := lv, time := s.tsc, cause := cause, ftrap := ftrap, fgid := fgid } } := by
  have hrec (f : FailRec) : s.recordFail t f = s.setTeam t { tm with fail := some f } := by
    simp only [State.recordFail, ht, hf]
  have hteam (x : Team) : find (s.setTeam t x).teams t = some x := (find_put _ _ _ _).trans (if_pos rfl)
  have hpartners (x : Team) (hx : x.conv = tm.conv) : (s.setTeam t x).partners t lv = [] := by
    unfold State.partners
    split
    · next hconv _ =>
      rcases hc with hl | hc
      · rw [if_pos hl]
      · rw [State.convOf_none (hteam x) (hx.trans hc)] at hconv
        cases hconv
    · rfl
  simp only [State.failAlt, hrec]
  rw [hpartners { tm with fail := some { level := lv, time := s.tsc, cause := cause, ftrap := ftrap, fgid := fgid } } rfl]
  rfl

/-! ### Members that meet (R394, R395) -/

/-- The member that arrives, with its arrival recorded. -/
def State.arriving (s : State) (g : Group) (mine : Arrival) : State :=
  s.setGrp { g with arr := some mine, wf := if g.wf.kind = 13 || g.wf.kind = 17 then g.wf else {} }

/-- Once every member has arrived at one collective the team acts (R394). -/
theorem collect_acts (s : State) (g : Group) (mine : Arrival) (f : State → List (Nat × Group) → Res)
    (hk : ∀ e ∈ (s.arriving g mine).members g.seat, recKind e.2.arr = recKind (some mine)) (h0 : recKind (some mine) ≠ 0)
    (htab : recKind (some mine) = 1 → ∀ e ∈ (s.arriving g mine).members g.seat, recTable e.2.arr = recTable (some mine)) :
    collect s g mine f = f (s.arriving g mine) ((s.arriving g mine).members g.seat) := by
  have hhere : ((s.arriving g mine).members g.seat).filter (fun e => recKind e.2.arr ≠ 0) = (s.arriving g mine).members g.seat :=
    List.filter_eq_self.mpr (fun e he => by simpa [hk e he] using h0)
  have hclash : ((s.arriving g mine).members g.seat).any (fun e => recKind e.2.arr ≠ recKind (some mine)
      || (recKind (some mine) = 1 && recTable e.2.arr ≠ recTable (some mine))) = false := by
    refine List.any_eq_false.mpr (fun e he => ?_)
    by_cases h1 : recKind (some mine) = 1
    · simp [hk e he, htab h1 e he]
    · simp [hk e he, h1]
  unfold collect
  rw [show s.setGrp { g with arr := some mine, wf := if g.wf.kind = 13 || g.wf.kind = 17 then g.wf else {} } = s.arriving g mine
    from rfl]
  simp only [hhere, hclash, Bool.false_eq_true, if_false, if_true]

section Instructions
variable {s : State} {g : Group} (hg : s.grp = some g)
include hg

theorem exec_ensure_meets (a b : XReg) (hd : s.depth g.seat < 8) (hb : g.laneBusy = false) (hq : s.memberQuiet s.cur g = true)
    (hall : ∀ e ∈ (s.arriving g (.ensure (g.x a) (g.x b))).members g.seat, ∃ l, e.2.arr = some (.ensure l (g.x b))) :
    exec (.ensure a b) s = ensureAll (s.arriving g (.ensure (g.x a) (g.x b))) g
      ((s.arriving g (.ensure (g.x a) (g.x b))).members g.seat) := by
  refine (withG_some hg _).trans ?_
  simp only [Nat.not_le.mpr hd, hb, hq, Bool.not_true, Bool.false_eq_true, if_false]
  refine collect_acts s g _ _ (fun e he => ?_) (Nat.succ_ne_zero 0) (fun _ e he => ?_)
  all_goals
    obtain ⟨l, hl⟩ := hall e he
    rw [hl]
    rfl

theorem exec_accept_meets (a : XReg) (hd : 0 < s.depth g.seat) (hb : g.laneBusy = false) (hq : s.memberQuiet s.cur g = true)
    (hnew : ∀ p, g.arr ≠ some (.accept p))
    (hall : ∀ e ∈ (s.arriving g (.accept (decide (g.x a ≠ 0)))).members g.seat, ∃ p, e.2.arr = some (.accept p)) :
    exec (.accept a) s = acceptAll (s.arriving g (.accept (decide (g.x a ≠ 0))))
      { g with arr := some (.accept (decide (g.x a ≠ 0))) } ((s.arriving g (.accept (decide (g.x a ≠ 0)))).members g.seat) := by
  refine (withG_some hg _).trans ?_
  simp only [Nat.ne_of_gt hd, hb, hq, Bool.not_true, Bool.false_eq_true, if_false]
  refine collect_acts s g _ _ (fun e he => ?_) (Nat.succ_ne_zero 1) (fun h => absurd h (Nat.succ_ne_self 1))
  obtain ⟨p, hp⟩ := hall e he
  rw [hp]
  rfl

theorem exec_cvleave_meets (hd : s.depth g.seat = 0) (hall : ∀ e ∈ (s.arriving g .cvleave).members g.seat, e.2.arr = some .cvleave) :
    exec .cvleave s = .next (((s.arriving g .cvleave).leaveConv g.seat).release g.seat (fun g => { g with pc := g.pc + 4 })) := by
  refine (withG_some hg _).trans ?_
  simp only [hd, Nat.lt_irrefl, if_false]
  exact collect_acts s g _ _ (fun e he => by rw [hall e he]) (by decide) (fun h => absurd h (by decide))

theorem exec_elseby_dispatched (hd : g.disp = true) : dispatchEntry s = ends s { g with disp := false } := by
  refine (withG_some hg _).trans ?_
  simp only [hd, if_true]
  rfl

theorem exec_elseby_else (hd : g.disp = false) : dispatchEntry s = raise s 0x1e 0 0 := by
  refine (withG_some hg _).trans ?_
  simp only [hd, Bool.false_eq_true, if_false]

theorem exec_rbfail (hd : 0 < s.depth g.seat) : exec .rbfail s
    = if g.tclass then ends (s.failAlt g.seat (s.depth g.seat) 3 0 g.gid) g else .next (s.failAlt g.seat (s.depth g.seat) 3 0 g.gid) := by
  refine (withG_some hg _).trans ?_
  simp only [Nat.ne_of_gt hd, if_false]
  rfl

theorem exec_chkerr (d : XReg) (hb : g.laneBusy = false) (hq : s.memberQuiet s.cur g = true) (hc : sget 0 g.cnt 4 = 0) :
    exec (.chkerr d) s = ends s (g.setX d (s.ctxOf g).cir) := by
  refine (withG_some hg _).trans ?_
  simp only [hb, hq, hc, decide_true, Bool.and_self, Bool.false_eq_true, if_false, if_true]
  rfl

/-- A member that has joined goes on once its conversation is ready (R388). -/
theorem exec_cvjoin_ready (d a : XReg) {i j c : Nat} {v : Conv} (hd : s.depth g.seat = 0) (ha : g.arr = some (.joined i j))
    (hc : (s.teamOf g).conv = some c) (hv : find s.convs c = some v) (hr : v.ready = true) :
    exec (.cvjoin d a) s = ends s ({ g with arr := none }.setX (BitVec.ofNat 6 j) (BitVec.ofNat 64 i)) := by
  have hconv : s.convOf g.seat = some (c, v) := by
    rw [State.teamOf] at hc
    cases htm : find s.teams g.seat with
    | none =>
      rw [htm] at hc
      cases hc
    | some tm =>
      rw [htm] at hc
      simp only [State.convOf, htm, Option.bind_some, show tm.conv = some c from hc, hv, Option.map_some]
  refine (withG_some hg _).trans ?_
  simp only [hd, ha, Nat.lt_irrefl, if_false, joinWait, hconv, hr, if_true]
  rfl

end Instructions

/-! ### What the team does at `ensure` and `accept` (R397, R399) -/

/-- The table of an `ensure`: a faulting address, an ill-formed table and a level that opens. -/
theorem ensureAll_table {s : State} {g : Group} {ms : List (Nat × Group)} {lim tab : DWord}
    (hhead : Option.map (fun (x : Nat × Group) => x.2.arr) ms.head? = some (some (.ensure lim tab))) :
    (¬(tab.truncate 57).signExtend 64 = tab → ensureAll s g ms = .next (s.raiseAll ms 0x10 tab 0))
    ∧ ((tab.truncate 57).signExtend 64 = tab → tab.toNat % 8 ≠ 0 → ensureAll s g ms = .next (s.raiseAll ms 0x12 tab 0))
    ∧ (∀ s2 s3 h p as q, (tab.truncate 57).signExtend 64 = tab → tab.toNat % 8 = 0 →
      s.readDw s.cur g tab 8 false 1 = .ok s2 h p →
      s2.readDw s2.cur g (tab + 8) 8 false ((h.headD 0).toNat % 256 + 2) = .ok s3 as q →
      (parseTable (h ++ as) = none → ensureAll s g ms = .next (s3.raiseAll ms 0x1f tab 0))
      ∧ ∀ e r al, parseTable (h ++ as) = some (e, r, al) →
        ensureAll s g ms = .next ((s3.consumeIf s3.cur (p || q)).openLevel g.seat ms lim e r al)) := by
  unfold ensureAll
  simp only [hhead]
  refine ⟨fun hc => if_pos hc, fun hc hal => ?_, fun s2 s3 h p as q hc hal h1 h2 => ?_⟩
  · rw [if_neg (not_not.mpr hc), if_pos hal]
  · rw [if_neg (not_not.mpr hc), if_neg (not_not.mpr hal)]
    simp only [h1, h2]
    exact ⟨fun hp => by rw [hp], fun e r al hp => by rw [hp]⟩

section Accept
variable {s : State} {g : Group} {ms : List (Nat × Group)} {tm : Team} {l : Level} {r : List Level}
  (ht : find s.teams g.seat = some tm) (hl : tm.levels = l :: r)
include ht hl

theorem acceptAll_chains (hc : s.levelChains g.seat = true) : acceptAll s g ms = .next s := by
  simp only [acceptAll, ht, hl, hc, if_true]

variable (hc : s.levelChains g.seat = false) (hf : tm.fail = none)
include hc hf

/-- A false verdict fails the alternate, with the gid of the first member that has it. -/
theorem acceptAll_fails {e : Nat × Group} (he : ms.find? (fun e => e.2.arr = some (.accept false)) = some e) :
    acceptAll s g ms = .next (s.failAlt g.seat (r.length + 1) 1 0 e.2.gid) := by
  have hpass : ms.all (fun e => e.2.arr = some (.accept true)) = false := by
    rw [List.all_eq_false]
    refine ⟨e, List.mem_of_find?_eq_some he, ?_⟩
    have := List.find?_some he
    simp only [decide_eq_true_eq] at this
    simp [this]
  simp only [acceptAll, ht, hl, hc, hf, hpass, failGid, he, Option.isSome_none, Bool.not_false, Bool.true_or, Bool.false_and,
    Bool.false_eq_true, if_false, if_true]

variable (hpass : ∀ e ∈ ms, e.2.arr = some (.accept true))
include hpass

omit ht hl hc hf in
theorem all_pass : ms.all (fun e => e.2.arr = some (.accept true)) = true :=
  List.all_eq_true.mpr (fun e he => decide_eq_true (hpass e he))

/-- Poison or DOOM fails an alternate that every verdict passes, with the gid of the first member. -/
theorem acceptAll_poisoned {e : Nat × Group} (he : ms.head? = some e) (hbad : l.pois = true ∨ l.doom = true) :
    acceptAll s g ms = .next (s.failAlt g.seat (r.length + 1) (if l.doom then 1 else 5) 0 e.2.gid) := by
  have hgid : failGid ms = e.2.gid := by
    have hno : ms.find? (fun e => e.2.arr = some (.accept false)) = none := by
      rw [List.find?_eq_none]
      intro x hx
      simp [hpass x hx]
    cases ms with
    | nil => cases he
    | cons x r =>
      cases he
      simp only [failGid, hno]
  have hcause : (if (true && !l.doom) then 5 else 1) = if l.doom then 1 else 5 := by
    cases l.doom <;> rfl
  have hor : (!true || l.pois || l.doom) = true := by
    rcases hbad with h | h <;> simp [h]
  simp only [acceptAll, ht, hl, hc, hf, all_pass hpass, hgid, hcause, hor, Option.isSome_none, Bool.false_eq_true, if_false, if_true]

variable (hp : l.pois = false) (hd : l.doom = false)
include hp hd

/-- A level inside, or of a team in no conversation, closes. -/
theorem acceptAll_closes (hin : r ≠ [] ∨ tm.conv = none) : acceptAll s g ms = .next (s.acceptLevel g.seat) := by
  have hconv : (if r.isEmpty then s.convOf g.seat else none) = none := by
    rcases hin with hr | hcv
    · rw [if_neg (by simpa using hr)]
    · rw [State.convOf_none ht hcv, ite_self]
  simp only [acceptAll, ht, hl, hc, hf, all_pass hpass, hp, hd, Option.isSome_none, Bool.not_true, Bool.or_false,
    Bool.false_eq_true, if_false]
  rw [hconv]

/-- At level 1 of a conversation the level closes once every member has passed; till then the team waits. -/
theorem acceptAll_conversation {c : Nat} {v : Conv} (hr : r = []) (hcv : tm.conv = some c) (hv : find s.convs c = some v) :
    ((∀ u ∈ v.teams, ∃ x, find (s.setTeam g.seat { tm with passed := true }).teams u = some x ∧ x.passed = true
        ∧ x.round = tm.round ∧ x.alt1 = tm.alt1) →
      acceptAll s g ms = .next (v.teams.foldl (fun s u => s.acceptLevel u) (s.setTeam g.seat { tm with passed := true })))
    ∧ ((¬∀ u ∈ v.teams, ∃ x, find (s.setTeam g.seat { tm with passed := true }).teams u = some x ∧ x.passed = true
        ∧ x.round = tm.round ∧ x.alt1 = tm.alt1) →
      acceptAll s g ms = block (s.setTeam g.seat { tm with passed := true }) g
        (waitRow (coreOf (s.setTeam g.seat { tm with passed := true }).cur) 13 false true v.idx [])) := by
  have hconv : (if r.isEmpty then s.convOf g.seat else none) = some (c, v) := by
    rw [hr]
    simp [State.convOf, ht, hcv, hv]
  have hgood : ¬(!ms.all (fun e => e.2.arr = some (.accept true)) || l.pois || l.doom) = true := by
    simp [all_pass hpass, hp, hd]
  have hrun : acceptAll s g ms = (match (if r.isEmpty then s.convOf g.seat else none) with
      | none => .next (s.acceptLevel g.seat)
      | some (_, cv) =>
        let s := s.setTeam g.seat { tm with passed := true }
        if cv.teams.all (fun u => match find s.teams u with
            | some v => v.passed && v.round = tm.round && v.alt1 = tm.alt1
            | none => false) then
          .next (cv.teams.foldl (fun s u => s.acceptLevel u) s)
        else block s g (waitRow (coreOf s.cur) 13 false true cv.idx [])) := by
    unfold acceptAll
    simp only [ht]
    split
    · next h => rw [hl] at h; cases h
    · next l' r' h =>
      rw [hl] at h
      cases h
      exact (if_neg (by rw [hc]; exact Bool.false_ne_true)).trans ((if_neg (by rw [hf]; exact Bool.false_ne_true)).trans (if_neg hgood))
  rw [hrun, hconv]
  dsimp only
  generalize s.setTeam g.seat { tm with passed := true } = s2
  have hall : v.teams.all (fun u => match find s2.teams u with
      | some x => x.passed && decide (x.round = tm.round) && decide (x.alt1 = tm.alt1)
      | none => false) = true
      ↔ ∀ u ∈ v.teams, ∃ x, find s2.teams u = some x ∧ x.passed = true ∧ x.round = tm.round ∧ x.alt1 = tm.alt1 := by
    rw [List.all_eq_true]
    refine forall₂_congr (fun u _ => ?_)
    cases hu : find s2.teams u with
    | none => simp
    | some x => simp [and_assoc]
  exact ⟨fun h => if_pos (hall.mpr h), fun h => if_neg (fun h' => h (hall.mp h'))⟩

end Accept

/-- Settles O37: the collectives once every member has arrived, the other instructions, and what opening and accepting a level
and a recorded failure do. -/
theorem recoveryInstructions : Obligations.RecoveryInstructions := by
  unfold Obligations.RecoveryInstructions
  refine ⟨fun s g a b d hg => ⟨?ensure, ?dispatched, ?undispatched, ?rbfail, ?handler, ?accept, ?leave, ?chkerr⟩, ?joined, ?opens, ?accepts, ?records⟩
  case ensure =>
    intro hd hb hq s1 ms hall
    rw [exec_ensure_meets hg a b hd hb hq hall]
    refine ⟨fun s2 s3 h p as q e r al lim tab hhead hc hal h1 h2 hp => ?_, fun lim tab hhead => ?_⟩
    · exact ((ensureAll_table hhead).2.2 s2 s3 h p as q hc hal h1 h2).2 e r al hp
    · obtain ⟨hcan, halign, hread⟩ := ensureAll_table (s := s.arriving g (.ensure (g.x a) (g.x b))) (g := g) hhead
      exact ⟨hcan, halign, fun s2 s3 h p as q hc hal h1 h2 hp => (hread s2 s3 h p as q hc hal h1 h2).1 hp⟩
  case dispatched => exact fun hd => ⟨exec_elseby_dispatched hg hd, exec_elseby_dispatched hg hd⟩
  case undispatched => exact fun hd => ⟨exec_elseby_else hg hd, exec_elseby_else hg hd⟩
  case rbfail => exact fun hd ht => (exec_rbfail hg hd).trans (if_neg (by rw [ht]; exact Bool.false_ne_true))
  case handler => exact fun hd ht => (exec_rbfail hg hd).trans (if_pos ht)
  case accept =>
    intro tm l r hd hb hq hnew s1 ms out hall ht hl pass
    have hout : out = acceptAll s1 { g with arr := some (.accept (decide (g.x a ≠ 0))) } ms := exec_accept_meets hg a hd hb hq hnew hall
    rw [hout]
    refine ⟨acceptAll_chains (g := { g with arr := some (.accept (decide (g.x a ≠ 0))) }) ht hl, fun hc hf => ⟨fun e he => ?_, fun e hp he hbad => ?_, fun hp hpo hdo => ⟨fun hin => ?_, ?_⟩⟩⟩
    · exact acceptAll_fails (g := { g with arr := some (.accept (decide (g.x a ≠ 0))) }) ht hl hc hf he
    · exact acceptAll_poisoned (g := { g with arr := some (.accept (decide (g.x a ≠ 0))) }) ht hl hc hf hp he hbad
    · exact acceptAll_closes (g := { g with arr := some (.accept (decide (g.x a ≠ 0))) }) ht hl hc hf hp hpo hdo hin
    · intro c v hr hcv hv s2 all
      obtain ⟨hgo, hwait⟩ := acceptAll_conversation (g := { g with arr := some (.accept (decide (g.x a ≠ 0))) }) ht hl hc hf hp hpo hdo
        hr hcv hv
      refine ⟨hgo, fun hno => ?_⟩
      rw [hwait hno]
      refine afterwards_block _ _ _ _ (fun h hh => ?_)
      rw [State.grp_setGrp] at hh
      cases hh
      exact ⟨rfl, waiting_kind _ _ _⟩
  case leave => exact fun hd hall => exec_cvleave_meets hg hd hall
  case chkerr => exact fun hb hq hc => exec_chkerr hg d hb hq hc
  case joined => exact fun s g d a i j c v hg hd ha hc hv hr => exec_cvjoin_ready hg d a hd ha hc hv hr
  case opens =>
    intro s t tm ms lim e r as ht hc u goes
    cases hfit : s.granFit t (32 * ms.length) with
    | true =>
      have hu : u = _ := State.openLevel_opens ht hc ms lim e r as hfit
      rw [hu]
      refine ⟨_, (find_put _ _ _ _).trans (if_pos rfl), fun _ => ⟨fun k g hk hg => ?_, rfl, rfl⟩, fun h => absurd h (by simp)⟩
      rw [hu]
      exact ⟨_, State.find_release _ t _ hk hg, rfl, rfl, rfl⟩
    | false =>
      obtain ⟨v, x, hv, hgroups, hx, hcause, hout, hdepth, hlev⟩ := State.openLevel_shuts ht hc ms lim e r as hfit
      have hu : u = _ := hv
      rw [hu]
      refine ⟨x, hx, fun h => absurd h (by simp), fun _ => ⟨fun k g hk hg => ?_, hcause, hout, hdepth, hlev⟩⟩
      rw [hu]
      exact ⟨_, State.find_release _ t _ (hgroups ▸ hk) hg, rfl, rfl, rfl⟩
  case accepts =>
    intro s t tm l r ht hl u
    obtain ⟨hgroups, hhides, x, hx, hrb, hlev⟩ := State.acceptLevel_spec ht hl
    refine ⟨hgroups, fun w c hc v hv h hh hteam => hhides w h ⟨c, hc, v, hv, hh⟩ hteam, x, hx, hrb, ?_⟩
    rw [hlev]
    cases r <;> rfl
  case records => exact fun s t lv cause ftrap fgid tm ht hf hc => State.failAlt_records cause ftrap fgid ht hf hc

end Sys2Proof.Machine
end

section
/-! SUPPORT. Settles the events of the pool regions (R440 to R448, R455): an unmapped region gives up the lines that the device
owns there, so more of the state changes than its table entry. -/

namespace Sys2Proof.Machine

open Sys2Proof

/-! ### Completions and passed packets leave the home slices -/

namespace State

theorem slices_setHostCh (s : State) (ch : Nat) (h : HostCh) : (s.setHostCh ch h).slices = s.slices := rfl

theorem slices_writeCompletion (s : State) (c : Completion) : (s.writeCompletion c).slices = s.slices := by
  unfold writeCompletion
  dsimp only
  split
  · rfl
  · rw [slices_setHostCh, setBytes_slices]

theorem slices_pumpList (s : State) (ch : Nat) (l : List Completion) : (s.pumpList ch l).1.slices = s.slices := by
  induction l generalizing s with
  | nil => rfl
  | cons c r ih =>
    unfold pumpList
    split
    · rw [ih, slices_writeCompletion]
    · exact ih s

theorem slices_complete (s : State) (ch : Nat) (tag : Word) (kind status : Nat) (body : List Byte) :
    (s.complete ch tag kind status body).slices = s.slices := slices_pumpList ..

theorem slices_passBad (s : State) (ch n : Nat) : (s.passBad ch n).slices = s.slices := by
  induction n generalizing s with
  | zero => rfl
  | succ n ih =>
    unfold passBad
    split
    · rw [ih, slices_complete]; rfl
    · rw [ih]; rfl
    · rfl

end State

/-! ### A packet at HEAD -/

/-- A packet at HEAD of its channel acts, HEAD moves past it, and packets that cannot be performed are passed over. -/
theorem withPkt_acts {s : State} {h : PktHdr} {b : PktBody} (hp : s.nextPkt h.ch = some (.ok h b)) (f : State → State) :
    withPkt b h s f = .next ((f (s.headOn h.ch)).passBad h.ch 65536) := if_pos hp

/-- The unmapping of a region that no translation maps first takes the lines that the device owns there out of its ownership. -/
theorem regionUnmap_gives_up {s : State} {h : PktHdr} {r : Nat} (hp : s.nextPkt h.ch = some (.ok h (.region 2 r 0 0 [])))
    (hm : ((s.headOn h.ch).region r).mode ≠ 0) (hmap : (s.headOn h.ch).mapped r = false) :
    exec (.regionUnmap h r) s =
      (let t := s.headOn h.ch
       let u := (t.region r).owned.foldl (fun s l => s.disown l) t
       .next ((({ u with regions := sset {} u.regions r { losses := (t.region r).losses }
                         acks := u.acks.filter (fun a => !(inRegion r a.w)) } : State).regionDone h 0).passBad h.ch 65536)) := by
  show execRegionUnmap h r s = _
  rw [execRegionUnmap, withPkt_acts hp]
  dsimp only
  rw [if_neg hm, hmap, if_neg Bool.false_ne_true]

/-! ### An unmapped region whose lines the device owns -/

/-- The first line of region 0. -/
def ownedLine : Nat := 0x100000000000 / 128

/-- Region 0 is mapped in the versioned family, the device owns its first line, which stands in the dot array of its home slice, and
channel 0 holds a REGION packet that unmaps the region. -/
def ownedRegion : State where
  mem := [(0, 7), (10, 2)]
  chs := [(0, { tail := 1, en := true, ring := some (0, 6, 0x200000000000, 6) })]
  regions := [(0, { mode := 2, owned := [ownedLine] })]
  slices := [(0, { lines := [(ownedLine, 0)] })]

/-- The packet's header. -/
def unmapHdr : PktHdr := { ch := 0, tag := 0, ctxid := 0 }

theorem ownedRegion_nextPkt : ownedRegion.nextPkt unmapHdr.ch = some (.ok unmapHdr (.region 2 0 0 0 [])) := by decide +kernel

theorem ownedRegion_mapped : (ownedRegion.headOn unmapHdr.ch).mapped 0 = false := by decide +kernel

/-- The unmapping takes the line out of the dot array. -/
theorem ownedRegion_slices :
    ∃ u : State, exec (.regionUnmap unmapHdr 0) ownedRegion = .next u ∧ (u.slice 0).lines = [] := by
  have hm : ((ownedRegion.headOn unmapHdr.ch).region 0).mode ≠ 0 := by decide
  refine ⟨_, regionUnmap_gives_up ownedRegion_nextPkt hm ownedRegion_mapped, ?_⟩
  rw [State.slice, State.slices_passBad, State.regionDone, State.slices_complete]
  decide +kernel

/-- Refutes O58: the unmapping of a region also takes the lines that the device owns there out of the dot arrays of their slices
(R443), where the statement leaves the slices as they are. -/
theorem not_poolEvents : ¬ Obligations.PoolEvents := by
  unfold Obligations.PoolEvents
  intro h
  obtain ⟨-, -, -, -, -, -, hunmap, -, -⟩ := h ownedRegion 0 0 unmapHdr
  have hend := (hunmap ownedRegion_nextPkt).2.2 (by decide) ownedRegion_mapped
  obtain ⟨u, hu, hlines⟩ := ownedRegion_slices
  rw [hu] at hend
  have heq : u.slices = ownedRegion.slices := by
    rw [Host.Outcome.next.inj hend, State.slices_passBad, State.slices_complete]
    rfl
  rw [State.slice, heq] at hlines
  exact absurd hlines (by decide)

end Sys2Proof.Machine
end

section
/-! SUPPORT. Settles the channel registers and the packets of a channel (R416, R432, R450 to R453, R456, R462, R463). -/

namespace Sys2Proof.Machine

open Sys2Proof
/-! ### Channel registers (R450) -/

section
variable (s : State) {ch : Nat} (hch : ch < 16)
include hch

theorem exec_channelDoorbell (tail : Word) : exec (.channelDoorbell ch tail) s =
    .next ((s.setHostCh ch { s.hostCh ch with tail := tail }).passBad ch 65536) := if_neg hch.not_ge

theorem exec_completionHeadWrite (head : Word) : exec (.completionHeadWrite ch head) s =
    .next (((s.setHostCh ch { s.hostCh ch with cqhead := head }).pump ch).passBad ch 65536) := if_neg hch.not_ge

theorem exec_channelEnable (en : Bool) : exec (.channelEnable ch en) s = .next (((s.setHostCh ch { s.hostCh ch with
      en := en, ring := if en ∧ (s.hostCh ch).en = false then ringOf (s.hostCh ch) else (s.hostCh ch).ring }).pump
        ch).passBad ch 65536) := by
  show execChannelEnable ch en s = _
  rw [execChannelEnable, if_neg hch.not_ge]
  simp only [Bool.and_eq_true, Bool.not_eq_true']

end

/-! ### Packets (R453) -/

section
variable {s : State} {h : PktHdr} {addr : DWord}

/-- R416: a record that keeps its limits names its context. -/
theorem exec_ctxPkt_names (hp : s.nextPkt h.ch = some (.ok h (.ctx addr))) {id : Nat} {cx : Ctx} (hal : addr.toNat % 64 = 0)
    (hmem : inMemory (s.headOn h.ch) addr.toNat = true)
    (hparse : parseCtx ((s.headOn h.ch).homeBytes addr.toNat 64) = some (id, cx)) :
    exec (.ctxPkt h addr) s =
      .next (((((s.headOn h.ch).nameCtx id addr.toNat cx).complete h.ch h.tag 1 0 [])).passBad h.ch 65536) := by
  show execCtxPkt h addr s = _
  rw [execCtxPkt, withPkt_acts hp]
  dsimp only
  rw [hal, hmem, hparse]
  rfl

theorem exec_ctxPkt_unaligned (hp : s.nextPkt h.ch = some (.ok h (.ctx addr))) (hal : addr.toNat % 64 ≠ 0) :
    exec (.ctxPkt h addr) s = .next (((s.headOn h.ch).complete h.ch h.tag 1 0x11 []).passBad h.ch 65536) := by
  show execCtxPkt h addr s = _
  rw [execCtxPkt, withPkt_acts hp]
  dsimp only
  rw [if_pos (by simp [hal])]

/-- A LAUNCH at HEAD takes the next number and is taken under it (R452, R457). -/
theorem exec_launchPkt (hp : s.nextPkt h.ch = some (.ok h (.launch addr))) :
    exec (.launchPkt h addr) s =
      .next ((({ s.headOn h.ch with nextUid := (s.headOn h.ch).nextUid + 1 } : State).takeLaunch (s.headOn h.ch).nextUid h
        addr).passBad h.ch 65536) := by
  show execLaunchPkt h addr s = _
  rw [execLaunchPkt, withPkt_acts hp]
  rfl

/-- A GRAPH at HEAD takes the next number and is taken under it (R452, R454). -/
theorem exec_graphPkt (hp : s.nextPkt h.ch = some (.ok h (.graph addr))) :
    exec (.graphPkt h addr) s =
      .next ((({ s.headOn h.ch with nextUid := (s.headOn h.ch).nextUid + 1 } : State).takeGraph (s.headOn h.ch).nextUid h
        addr).passBad h.ch 65536) := by
  show execGraphPkt h addr s = _
  rw [execGraphPkt, withPkt_acts hp]
  rfl

end

/-- The graph that a GRAPH packet's nodes and edges make, none of its nodes admitted (R454). -/
def keptGraph (h : PktHdr) (ns : List (Desc × Nat × DWord)) (es : List Edge) : Graph :=
  { ctx := h.ctxid.toNat, ch := h.ch, tag := h.tag, edges := es, addrs := ns.map (·.2.2)
    nodes := ns.map (fun x => (x.1, x.2.1, false, false)) }

section
variable {u : State} {h : PktHdr} {addr : DWord} (n : Nat)

theorem takeLaunch_unaligned (hal : addr.toNat % 64 ≠ 0) : u.takeLaunch n h addr = u.complete h.ch h.tag 2 2 [] := if_pos hal

theorem takeLaunch_unknown (hal : addr.toNat % 64 = 0) (hctx : u.ctxOpen h.ctxid.toNat = false) :
    u.takeLaunch n h addr = u.complete h.ch h.tag 2 3 [] := by
  rw [State.takeLaunch, if_neg (not_not.mpr hal), hctx]
  rfl

theorem takeLaunch_reads (hal : addr.toNat % 64 = 0) (hctx : u.ctxOpen h.ctxid.toNat = true) {v : State} {d : Desc}
    (hread : u.readDesc h.ctxid.toNat addr = .ok v d) :
    u.takeLaunch n h addr = { v with launches := put v.launches n
                                               { ctx := h.ctxid.toNat, ch := h.ch, tag := h.tag, daddr := addr, desc := d
                                                 left := d.grid } } := by
  rw [State.takeLaunch, if_neg (not_not.mpr hal), hctx, hread]
  rfl

/-- A graph without a cycle whose remote edges have routes is kept and its first nodes admitted (R454). -/
theorem takeGraph_reads (hal : addr.toNat % 8 = 0) (hctx : u.ctxOpen h.ctxid.toNat = true) {v : State}
    {ns : List (Desc × Nat × DWord)} {es : List Edge} (hread : u.readGraph h.ctxid.toNat addr = .ok v (ns, es))
    (hacyclic : acyclic ns.length es = true) (hroute : ∀ e ∈ es, v.remote e = true → v.routed e.dev = true) :
    u.takeGraph n h addr = (({ v with graphs := put v.graphs n (keptGraph h ns es) } : State).admitNodes n).finishGraph n 0 0 := by
  have hall : es.any (fun e => v.remote e && !(v.routed e.dev)) = false := by
    simpa using hroute
  rw [State.takeGraph, if_neg (not_not.mpr hal), hctx, hread]
  dsimp only
  rw [hacyclic, hall]
  rfl

end

section
variable {s : State} {h : PktHdr}

/-- R261: a QUIESCE of a known context waits for its open work. -/
theorem exec_quiescePkt (hp : s.nextPkt h.ch = some (.ok h .quiesce))
    (hctx : (find (s.headOn h.ch).ctxs h.ctxid.toNat).isSome = true) :
    exec (.quiescePkt h) s = .next (({ s.headOn h.ch with quiesces := (s.headOn h.ch).quiesces ++
      [{ ctx := h.ctxid.toNat, ch := h.ch, tag := h.tag, after := (s.headOn h.ch).openWork h.ctxid.toNat }] } : State).passBad
        h.ch 65536) := by
  show execQuiescePkt h s = _
  rw [execQuiescePkt, withPkt_acts hp]
  dsimp only
  rw [if_neg (by rw [Option.isNone_iff_eq_none]; exact Option.isSome_iff_ne_none.mp hctx)]

section
variable {fab base size : Nat} (hp : s.nextPkt h.ch = some (.ok h (.devcfg fab base size))) (hfab : fab ≤ 4095)
  (hwin : base = 0 ∧ size = 0 ∨ 1 ≤ base ∧ 32768 ≤ size ∧ base + size - 1 ≤ 0xffffff)
include hp hfab hwin

/-- R444, R452: a DEVCFG whose fields keep their limits asks only whether a group exists. -/
theorem exec_devcfgPkt : exec (.devcfgPkt h fab base size) s = .next ((
    if !(s.headOn h.ch).groups.isEmpty || !(s.headOn h.ch).saved.isEmpty then (s.headOn h.ch).complete h.ch h.tag 8 0x22 []
    else ({ s.headOn h.ch with fabric := BitVec.ofNat 12 fab, winBase := BitVec.ofNat 24 base, winSize := BitVec.ofNat 24 size } :
      State).complete h.ch h.tag 8 0 []).passBad h.ch 65536) := by
  have hok : (decide (4095 < fab) || !((decide (base = 0) && decide (size = 0))
      || (decide (1 ≤ base) && decide (32768 ≤ size) && decide (base + size - 1 ≤ 0xffffff)))) = false := by
    rw [decide_eq_false hfab.not_gt, Bool.false_or, Bool.not_eq_false']
    simpa [and_assoc] using hwin
  show execDevcfgPkt h fab base size s = _
  rw [execDevcfgPkt, withPkt_acts hp]
  dsimp only
  rw [hok, if_neg Bool.false_ne_true]

theorem exec_devcfgPkt_sets (hg : (s.headOn h.ch).groups = []) (hs : (s.headOn h.ch).saved = []) :
    exec (.devcfgPkt h fab base size) s = .next ((({ s.headOn h.ch with
      fabric := BitVec.ofNat 12 fab, winBase := BitVec.ofNat 24 base, winSize := BitVec.ofNat 24 size } : State).complete
        h.ch h.tag 8 0 []).passBad h.ch 65536) := by
  rw [exec_devcfgPkt hp hfab hwin, if_neg (by simp [hg, hs])]

theorem exec_devcfgPkt_busy (hbusy : (s.headOn h.ch).groups ≠ [] ∨ (s.headOn h.ch).saved ≠ []) :
    exec (.devcfgPkt h fab base size) s =
      .next (((s.headOn h.ch).complete h.ch h.tag 8 0x22 []).passBad h.ch 65536) := by
  rw [exec_devcfgPkt hp hfab hwin, if_pos (by simpa using hbusy)]

end

theorem exec_hreplyPkt {rid x y : DWord} (hp : s.nextPkt h.ch = some (.ok h (.hreply rid x y))) :
    exec (.hreplyPkt h rid x y) s = .next (((s.headOn h.ch).reply rid x y).passBad h.ch 65536) := by
  show execHreplyPkt h rid x y s = _
  rw [execHreplyPkt, withPkt_acts hp]

theorem exec_fdonePkt {rid : DWord} {f : Bool} (hp : s.nextPkt h.ch = some (.ok h (.fdone rid f))) :
    exec (.fdonePkt h rid f) s = .next (((s.headOn h.ch).endService rid f).passBad h.ch 65536) := by
  show execFdonePkt h rid f s = _
  rw [execFdonePkt, withPkt_acts hp]

/-! ### Attestation and firmware (R462, R463) -/

section
variable {a rep : DWord}

theorem inMemory_headOn (s : State) (ch pa : Nat) : inMemory (s.headOn ch) pa = inMemory s pa := rfl

variable (hp : s.nextPkt h.ch = some (.ok h (.attest a rep))) (ha : a.toNat % 64 = 0) (hr : rep.toNat % 64 = 0)
  (hma : inMemory (s.headOn h.ch) a.toNat = true) (hmr : inMemory (s.headOn h.ch) rep.toNat = true)

include ha hr hma hmr in
/-- An attestation whose addresses keep their limits. -/
theorem attest_fits : (decide (a.toNat % 64 ≠ 0) || decide (rep.toNat % 64 ≠ 0) || !(inMemory s a.toNat) || !(inMemory s rep.toNat))
    = false := by
  rw [inMemory_headOn] at hma hmr
  simp [ha, hr, hma, hmr]

include hp ha hr hma hmr in
theorem exec_attestPkt_reports {v : State} (hv : (s.headOn h.ch).attest a.toNat rep.toNat = some v) :
    exec (.attestPkt h a rep) s = .next ((v.complete h.ch h.tag 9 0 []).passBad h.ch 65536) := by
  show execAttestPkt h a rep s = _
  rw [execAttestPkt, withPkt_acts hp]
  rw [attest_fits ha hr hma hmr, hv]
  rfl

include ha hr hma hmr in
theorem exec_attestPkt_waits (hv : (s.headOn h.ch).attest a.toNat rep.toNat = none) : exec (.attestPkt h a rep) s = .next s := by
  show execAttestPkt h a rep s = _
  rw [execAttestPkt]
  rw [attest_fits ha hr hma hmr, hv]
  rfl

end

section
variable {a : DWord} {bytes slot : Nat}

/-- R462: an image for the slot that is not active is kept when it is valid. -/
theorem exec_fwupdPkt (hp : s.nextPkt h.ch = some (.ok h (.fwupd a bytes slot))) (ha : a.toNat % 4096 = 0) (hlo : 1 ≤ bytes)
    (hhi : bytes ≤ 67108864) (hslot : slot ≤ 1) (hmem : inMemory (s.headOn h.ch) a.toNat = true)
    (hother : ((s.headOn h.ch).die (s.headOn h.ch).cpDie).slotB = true ↔ slot = 0) :
    exec (.fwupdPkt h a bytes slot) s = .next ((if (s.headOn h.ch).imageValid ((s.headOn h.ch).homeBytes a.toNat bytes) = true
      then ({ s.headOn h.ch with fwPend := (s.headOn h.ch).fwPend.filter (fun e => e.1 ≠ slot)
          ++ [(slot, (s.headOn h.ch).homeBytes a.toNat bytes)] } : State).complete h.ch h.tag 10 0 []
      else (s.headOn h.ch).complete h.ch h.tag 10 0x31 []).passBad h.ch 65536) := by
  have hok : (decide (a.toNat % 4096 ≠ 0) || decide (bytes = 0) || decide (67108864 < bytes) || decide (1 < slot)
      || !(inMemory (s.headOn h.ch) a.toNat)) = false := by
    have hsome : bytes ≠ 0 := by omega
    simp [ha, hmem, hsome, hhi, hslot]
  have hne : decide (slot = 1) ≠ ((s.headOn h.ch).die (s.headOn h.ch).cpDie).slotB := by
    intro heq
    rw [← heq, decide_eq_true_eq] at hother
    omega
  show execFwupdPkt h a bytes slot s = _
  rw [execFwupdPkt, withPkt_acts hp]
  dsimp only
  rw [hok, if_neg Bool.false_ne_true, if_neg hne]
  cases (s.headOn h.ch).imageValid ((s.headOn h.ch).homeBytes a.toNat bytes) <;> rfl

end

end

/-- Settles O59, by the registers of a channel and each kind of packet. -/
theorem channelEvents : Obligations.ChannelEvents := by
  unfold Obligations.ChannelEvents
  intro s ch h addr
  refine ⟨fun hch => ⟨exec_channelDoorbell s hch, exec_completionHeadWrite s hch, exec_channelEnable s hch⟩, ?_⟩
  refine ⟨fun hp => ⟨fun _ _ => exec_ctxPkt_names hp, exec_ctxPkt_unaligned hp⟩, fun hp => ⟨fun hal => ?_, fun hal hctx => ?_,
    fun v d hal hctx hread => ?_⟩, fun v ns es hp hal hctx hread hacyclic hroute => ?_, exec_quiescePkt,
    fun _ _ _ => exec_hreplyPkt, fun _ _ => exec_fdonePkt,
    fun _ _ _ hp hfab hwin => ⟨exec_devcfgPkt_sets hp hfab hwin, exec_devcfgPkt_busy hp hfab hwin⟩,
    fun _ hp ha hr hma hmr => ⟨fun _ => exec_attestPkt_reports hp ha hr hma hmr, exec_attestPkt_waits ha hr hma hmr⟩,
    fun _ _ => exec_fwupdPkt⟩
  · rw [exec_launchPkt hp, takeLaunch_unaligned _ hal]
  · rw [exec_launchPkt hp, takeLaunch_unknown _ hal hctx]
  · rw [exec_launchPkt hp, takeLaunch_reads _ hal hctx hread]
  · rw [exec_graphPkt hp, takeGraph_reads _ hal hctx hread hacyclic hroute]
    rfl

end Sys2Proof.Machine
end
